-- ==== Sys2Proof/Word.lean ====
section
/-!
DEFINITION. The word types of the GC4-1152 and nothing else: bytes and 64-bit words.
Everything computed from them (bit fields, byte order, sign extension) stands in `Machine/Bits.lean`.
-/

namespace Sys2Proof

/-- One byte, the smallest addressable unit (R43, R252). -/
abbrev Byte := BitVec 8

/-- A 64-bit word: a tile instruction (R64), a command record word, an extended register (R63). -/
abbrev Word := BitVec 64

end Sys2Proof
end

