-- ==== Sys2Proof/Machine/Args.lean ====
section
/-!
DEFINITION. Operands of the commands: the fields of the tile instruction word (R64-R94) and what the other commands
carry.
-/

namespace Sys2Proof.Machine

/-- A logical tile of the package (R11). -/
structure TileRef where
  die : Fin 4
  tile : Fin 768
deriving DecidableEq, Repr

/-- The wait field of a tile instruction: the counter it waits on when WEN is 1 (R64, R85). -/
abbrev WaitField := Option (Fin 64)

/-- Operands of LDW (R74). -/
structure LdwArgs where
  pa : Fin 16
  amask : BitVec 4
  plane : Bool
  fw : BitVec 4
  stride : BitVec 8
  pinc : BitVec 16
deriving DecidableEq, Repr

/-- Operands of MM (R75). -/
structure MmArgs where
  pa : Fin 16
  amask : BitVec 4
  plane : Bool
  gbase : BitVec 6
  nrow : BitVec 6
  fx : BitVec 4
  stride : BitVec 8
  pinc : BitVec 16
deriving DecidableEq, Repr

/-- Operands of a group instruction (R78). -/
structure GroupArgs where
  pa : Fin 16
  gbase : BitVec 6
  gcnt : BitVec 6
  fmt : BitVec 4
  mode : BitVec 2
  stride : BitVec 8
deriving DecidableEq, Repr

/-- Operands of VOP (R80): `pb` is the second pointer, or for CVT the result format. -/
structure VopArgs where
  fmt : BitVec 4
  pa : Fin 16
  pb : BitVec 4
  pd : Fin 16
  lanes : BitVec 6
  cnt : BitVec 12
deriving DecidableEq, Repr

/-- Operands of GET and PUT (R82). -/
structure XferArgs where
  pl : Fin 16
  xr : Fin 8
  len : BitVec 12
  lte : Bool
  ltk : Fin 64
  dte : Bool
  dtk : Fin 64
  xinc : BitVec 16
deriving DecidableEq, Repr

/-- Operands of SIGNAL (R84). -/
structure SignalArgs where
  ep : BitVec 24
  tk : Fin 64
  cnt : BitVec 16
deriving DecidableEq, Repr

/-- Operands of SWAP (R93). -/
structure SwapArgs where
  xr : Fin 8
  half : Bool
  len : BitVec 12
  te : Bool
  tk : Fin 64
deriving DecidableEq, Repr

/-- Operands of SAMPLE (R88). -/
structure SampleArgs where
  ps : Fin 16
  ctx : BitVec 6
  te : Bool
  tk : Fin 64
deriving DecidableEq, Repr

/-- Operands of TBL but for its function (R88). -/
structure TblArgs where
  ps : Fin 16
  te : Bool
  tk : Fin 64
deriving DecidableEq, Repr

/-- A tile instruction word taken apart (R65, R70-R94). -/
inductive TileOp where
  | nop
  | loop (lvl : Fin 4) (cnt : BitVec 16) (stop : BitVec 13)
  | jump (target : BitVec 13)
  | call (target : BitVec 13)
  | ret
  | brm (mbit : Fin 32) (sense : Bool) (target : BitVec 13)
  | wait (tk : Fin 64) (cnt : BitVec 16)
  | stepend
  | swap (a : SwapArgs)
  | setp (pn : Fin 16) (imm : BitVec 21)
  | addp (pn : Fin 16) (simm : BitVec 21)
  | setx (xn : Fin 8) (slice : Fin 4) (imm : BitVec 16)
  | addx (xn : Fin 8) (simm : BitVec 32)
  | ldw (a : LdwArgs)
  | mm (a : MmArgs)
  | gopen (a : GroupArgs)
  | gclose (a : GroupArgs)
  | gspill (a : GroupArgs)
  | gfill (a : GroupArgs)
  | gdrop (a : GroupArgs)
  | vop (vfn : BitVec 8) (a : VopArgs)
  | get (a : XferArgs)
  | put (a : XferArgs)
  | signal (a : SignalArgs)
  | sample (a : SampleArgs)
  | tbl (tfn : Fin 4) (a : TblArgs)
deriving DecidableEq, Repr

/-- What arrives at a tile from outside (R86): a line of its SRAM, or a count for a token counter. -/
inductive TileItem where
  | line (l : Fin 32768) (bytes : List Byte)
  | token (tk : Fin 64) (cnt : BitVec 16)
deriving DecidableEq, Repr

end Sys2Proof.Machine
end

