-- ==== Sys2Proof/Machine/Bits.lean ====
section
/-!
DEFINITION. Bit fields (R5), little-endian byte order (R99), sign extension, and exact integer square root.
-/

namespace Sys2Proof.Machine

/-- Bits `hi:lo` of `w`, as a number (R5). -/
def bitField (w hi lo : Nat) : Nat := (w >>> lo) % 2 ^ (hi + 1 - lo)

/-- Bit `i` of `w`. -/
def bitAt (w i : Nat) : Bool := (w >>> i) % 2 == 1

/-- A Bool as the number 0 or 1. -/
def boolNat (b : Bool) : Nat := if b then 1 else 0

/-- The `n` bytes of `v`, least significant first (R99). -/
def leBytes : Nat → Nat → List Byte
  | 0, _ => []
  | n + 1, v => BitVec.ofNat 8 v :: leBytes n (v / 256)

/-- The number whose bytes, least significant first, are the list (R99). -/
def leNat : List Byte → Nat
  | [] => 0
  | b :: bs => b.toNat + 256 * leNat bs

/-- The `n` bytes of `v`, most significant first (network order). -/
def beBytes (n v : Nat) : List Byte := (leBytes n v).reverse

/-- The number whose bytes, most significant first, are the list. -/
def beNat (bs : List Byte) : Nat := leNat bs.reverse

/-- The two's-complement value of the low `w` bits of `v`. -/
def signExt (w v : Nat) : Int :=
  let x := v % 2 ^ w
  if x < 2 ^ (w - 1) then (x : Int) else (x : Int) - (2 ^ w : Nat)

/-- The low `w` bits of an integer, as a number. -/
def wrapInt (w : Nat) (i : Int) : Nat := (i % (2 ^ w : Nat)).toNat

/-- Bytes `off .. off + n - 1` of a list, zero where the list ends. -/
def sliceBytes (bs : List Byte) (off n : Nat) : List Byte :=
  let t := (bs.drop off).take n
  t ++ List.replicate (n - t.length) 0

/-- The little-endian number of `n` bytes at offset `off`. -/
def leAt (bs : List Byte) (off n : Nat) : Nat := leNat (sliceBytes bs off n)

/-- Ceiling division. -/
def ceilDiv (a b : Nat) : Nat := (a + b - 1) / b

/-- One bit of the digit-by-digit square root. -/
def isqrtStep (m r b : Nat) : Nat := if (r + 2 ^ b) * (r + 2 ^ b) ≤ m then r + 2 ^ b else r

/-- Floor of the square root, by bits from the top. -/
def isqrtFrom (m : Nat) : Nat → Nat → Nat
  | 0, r => isqrtStep m r 0
  | b + 1, r => isqrtFrom m b (isqrtStep m r (b + 1))

/-- Floor of the square root of `m`. -/
def isqrt (m : Nat) : Nat := isqrtFrom m (m.log2 / 2 + 1) 0

/-- A count that wraps at 2^w. -/
def bump (w n k : Nat) : Nat := (n + k) % 2 ^ w

/-- A count that holds at its largest value. -/
def holdAt (w n k : Nat) : Nat := min (n + k) (2 ^ w - 1)

/-- Split a list into pieces of `n` (the last may be shorter); `fuel` bounds the number of pieces. -/
def chunksFuel {α : Type} (n : Nat) : Nat → List α → List (List α)
  | 0, _ => []
  | _ + 1, [] => []
  | f + 1, xs => xs.take n :: chunksFuel n f (xs.drop n)

/-- Split a list into pieces of `n`. -/
def chunksOf {α : Type} (n : Nat) (xs : List α) : List (List α) := chunksFuel n xs.length xs

/-- Element `i` of a list of numbers, 0 past its end. -/
def nth (xs : List Nat) (i : Nat) : Nat := xs.getD i 0

/-- Replace element `i` of a list. -/
def setAt {α : Type} (xs : List α) (i : Nat) (a : α) : List α := xs.set i a

end Sys2Proof.Machine
end

