-- ==== Sys2Proof/Machine/Maps.lean ====
section
/-!
DEFINITION. Sparse stores as sorted lists of (key, value), and the byte memory: strictly rising addresses, no entry
equal to 0, which is what an unlisted byte reads as (the stacks are zero at boot, R252; tile SRAM: assumption 2).
-/

namespace Sys2Proof.Machine

/-- A sparse store: keys strictly rising. -/
abbrev SMap (α : Type) := List (Nat × α)

/-- The value stored at a key. -/
def smFind {α : Type} : SMap α → Nat → Option α
  | [], _ => none
  | (k, v) :: m, a => if k = a then some v else smFind m a

/-- Store a value at a key, keeping the keys rising. -/
def smPut {α : Type} : SMap α → Nat → α → SMap α
  | [], a, v => [(a, v)]
  | (k, w) :: m, a, v =>
    if a < k then (a, v) :: (k, w) :: m
    else if a = k then (a, v) :: m
    else (k, w) :: smPut m a v

/-- Remove a key. -/
def smDel {α : Type} : SMap α → Nat → SMap α
  | [], _ => []
  | (k, w) :: m, a => if k = a then smDel m a else (k, w) :: smDel m a

/-- The value at a key, or a default. -/
def smGetD {α : Type} (m : SMap α) (a : Nat) (d : α) : α := (smFind m a).getD d

/-- Keys strictly rising, all above `lo` when one is given. -/
def smSortedFrom {α : Type} : Option Nat → SMap α → Bool
  | _, [] => true
  | none, (k, _) :: m => smSortedFrom (some k) m
  | some l, (k, _) :: m => decide (l < k) && smSortedFrom (some k) m

/-- Keys strictly rising. -/
def smSorted {α : Type} (m : SMap α) : Bool := smSortedFrom none m

/-- The byte memory of the package. -/
abbrev Memory := List Host.Cell

/-- The canonical form: addresses strictly rising and no entry equal to the byte an unlisted address reads as (0). -/
def memWf (m : Memory) : Bool := smSorted m && m.all (fun c => c.2 != 0)

/-- Read one byte: what is not listed reads as 0. -/
def readByte (m : Memory) (a : Nat) : Byte := smGetD m a 0

/-- Write one byte, keeping the canonical form. -/
def writeByte (m : Memory) (a : Nat) (b : Byte) : Memory := if b = 0 then smDel m a else smPut m a b

/-- Read `n` bytes from `a` upwards. -/
def readBytes (m : Memory) (a : Nat) : Nat → List Byte
  | 0 => []
  | n + 1 => readByte m a :: readBytes m (a + 1) n

/-- Write a list of bytes from `a` upwards. -/
def writeBytes (m : Memory) (a : Nat) : List Byte → Memory
  | [] => m
  | b :: bs => writeBytes (writeByte m a b) (a + 1) bs

/-- Read a little-endian number of `n` bytes. -/
def readLE (m : Memory) (a n : Nat) : Nat := leNat (readBytes m a n)

/-- Write a little-endian number of `n` bytes. -/
def writeLE (m : Memory) (a n v : Nat) : Memory := writeBytes m a (leBytes n v)

end Sys2Proof.Machine
end

