-- ==== Sys2Proof/Config.lean ====
section
/-!
DEFINITION. What the spec leaves open, as constants without a body: no proof can see a value of them, so whatever is
proved holds for every value. Each is named in a row of the assumption log.
-/

namespace Sys2Proof

/-- FREE VALUE. The k-th byte the machine produces where the spec calls a byte undefined (R45, R367, R518).
The counter `free` of the state says which k is next. -/
opaque Config.freeByte : Nat → Byte

/-- FREE VALUE. Which of the F32 values within the error bound of R48 the special function number `fn` returns for an
input: the table-and-polynomial evaluation itself is not in the spec, only its bound. The argument is the F32 input. -/
opaque Config.specialPick : (fn : Nat) → BitVec 32 → Nat

/-- FREE VALUE. The result of SIN (fn 10) and COS (fn 11) for 2^20 < |x| < infinity, which R48 leaves open within
[-1, 1]; the model clamps it into that range. -/
opaque Config.farTrig : (fn : Nat) → BitVec 32 → BitVec 32

/-- FREE VALUE. IEEE 754-2019 leaves open whether FMA signals invalid for 0 x infinity with a quiet NaN addend. -/
opaque Config.fmaQuietInvalid : Bool

/-- FREE VALUE. Where a replica of a level-2 row lies on another package (coordinate, die, table and row): the spec does
not say how its home learns the holder's slot (R211, R212). -/
opaque Config.replicaPlace : (coord die key : Nat) → Nat

/-- FREE VALUE. Where the partner keeps this package's generation (die, generation, offset in 64-byte lines): the place
within its staging pool is not in the spec (R417, R418). -/
opaque Config.mirrorPlace : (die gen line : Nat) → Nat

/-- FREE VALUE. The context that the job image assigns to a tile (image digest, tile): the image sections of R516 name
none (R225, R371). -/
opaque Config.tileContext : (image : List Byte) → (key : Nat) → Nat

/-- FREE VALUE. Classes of a job without a wider path (R158, R159): the image does not say which formats a class uses. -/
opaque Config.widerPath : (image : List Byte) → (cls : Nat) → Bool

/-- FREE VALUE. The REPORT record of a spare that has adopted a coordinate (R428), by coordinate and route epoch: it is formed
from the partner's mirror and the remote journal, which lie outside this package. -/
opaque Config.spareReport : (coord epoch : Nat) → Nat

/-- FREE VALUE. The items of the state record (R416) that an adopted coordinate reads from its partner (coordinate, step,
item): the record's layout is not in the spec. -/
opaque Config.mirrorItem : (coord step item : Nat) → Nat

/-- FREE VALUE. The object in flash as manufactured, by kind x 2 + copy (or slot): the contents are Raneken's and the owner's
(R476, R479, R486). An empty list is no object. -/
opaque Config.factory : (place : Nat) → List Byte

/-- FREE VALUE. The serial number and the MAC base of the identity record, whose layout is not in the spec (R396, R476). -/
opaque Config.serial : List Byte
opaque Config.macBase : Nat

/-- FREE VALUE. The two SHA-384 digests of Raneken's keys in the boot ROM (R475). -/
opaque Config.romKeys : List (List Byte)

/-- FREE VALUE. The 157 bytes of the device's own public keys (R475, R479). -/
opaque Config.deviceKeys : List Byte

/-- FREE VALUE. Does an ECDSA P-384 signature of a digest verify under a key (FIPS 186-5, R475)? -/
opaque Config.ecdsaValid : (key digest sig : List Byte) → Bool

/-- FREE VALUE. Does an HSS signature of a message verify under a key with the parameter sets of R475 (RFC 8554)? -/
opaque Config.hssValid : (key msg sig : List Byte) → Bool

/-- FREE VALUE. The device's ECDSA and HSS signatures (R479, R480), from keys derived from the SRAM pattern. -/
opaque Config.ecdsaSign : (digest : List Byte) → List Byte
opaque Config.hssSign : (index : Nat) → (msg : List Byte) → List Byte

/-- FREE VALUE. The management key that a record's body decrypts to under the device's ECDH key (R482); none where it does not. -/
opaque Config.unwrapKey : (body : List Byte) → Option (List Byte)

/-- FREE VALUE. The version number an object of a kind carries in its body: firmware, vector set and pack bodies have no layout
for it in the spec (R396, R166, R455). -/
opaque Config.bodyVersion : (kind : Nat) → (body : List Byte) → Nat

/-- The revision of a die (R289): 0xB0, 0xB1 or 0xC0 on the dies shipped. -/
opaque Config.revision : (die : Nat) → BitVec 8

/-- FREE VALUES. What the load checks read from a job image that the sections of R516 have no place for (by image digest): the
headers of the sparse tiles it carries or names (R135), NSHARD of a table in its shape record (R346), whether its schedule
gathers at most 65,536 distinct shards on each die in a step (R324), whether its optimiser reads layer statistics only as R346
permits, and the pages of the partner's generation on a die (R417). -/
opaque Config.sparseTiles : (image : List Byte) → List Nat
opaque Config.shapeShards : (image : List Byte) → (table : Nat) → Nat
opaque Config.gathersFit : (image : List Byte) → Bool
opaque Config.statisticsFit : (image : List Byte) → Bool
opaque Config.partnerPages : (image : List Byte) → (die : Nat) → Nat

/-- FREE VALUE. Bytes of the reduction buffer that a node needs: the spec names what it holds and gives no size (R325, R326). -/
opaque Config.nodeNeed : (children groups : Nat) → (leaf root onebit : Bool) → Nat

end Sys2Proof
end

