-- ==== Sys2Proof/Machine/Num.lean ====
section
/-!
DEFINITION. Number formats (05_number_formats.md): exact values, decoding (R101, R107), rounding (R111), the
exception flags (R112), the IEEE operations of R110 and the conversions of R115.
A value is an exact dyadic number, so nothing is rounded before the one rounding a rule names.
-/

namespace Sys2Proof.Machine

/-- An exact value: NaN, an infinity, or (-1)^neg x m x 2^e. -/
inductive Num where
  | nan
  | inf (neg : Bool)
  | fin (neg : Bool) (m : Nat) (e : Int)
deriving DecidableEq, Repr

/-- Rounding directions of R111 (mode-word bits 18:16). -/
inductive RMode where
  | even | away | up | down | zero
deriving DecidableEq, Repr

/-- The five sticky exception flags of R112. -/
structure ExcFlags where
  invalid : Bool := false
  divZero : Bool := false
  overflow : Bool := false
  underflow : Bool := false
  inexact : Bool := false
deriving DecidableEq, Repr

/-- No flag raised. -/
def noFlags : ExcFlags := {}

/-- Flags raised by either. -/
def orFlags (a b : ExcFlags) : ExcFlags :=
  { invalid := a.invalid || b.invalid, divZero := a.divZero || b.divZero, overflow := a.overflow || b.overflow,
    underflow := a.underflow || b.underflow, inexact := a.inexact || b.inexact }

/-- A binary floating-point format (R100). -/
structure FFmt where
  ew : Nat
  fw : Nat
  bias : Nat
  e4m3 : Bool := false
deriving DecidableEq, Repr

/-- R100. -/
def ffF32 : FFmt := { ew := 8, fw := 23, bias := 127 }
/-- R100. -/
def ffF16 : FFmt := { ew := 5, fw := 10, bias := 15 }
/-- R100. -/
def ffBF16 : FFmt := { ew := 8, fw := 7, bias := 127 }
/-- R100. -/
def ffE4M3 : FFmt := { ew := 4, fw := 3, bias := 7, e4m3 := true }
/-- R100. -/
def ffE5M2 : FFmt := { ew := 5, fw := 2, bias := 15 }
/-- R100, R104. -/
def ffW40 : FFmt := { ew := 10, fw := 29, bias := 511 }
/-- R100, R105. -/
def ffM48 : FFmt := { ew := 8, fw := 39, bias := 127 }

/-- Magnitude bits of infinity (IEEE formats). -/
def infMag (f : FFmt) : Nat := (2 ^ f.ew - 1) <<< f.fw

/-- Magnitude bits of the largest finite value (R102). -/
def maxMag (f : FFmt) : Nat := if f.e4m3 then 0x7E else infMag f - 1

/-- The canonical NaN (R102). -/
def canonNaN (f : FFmt) : Nat := if f.e4m3 then 0x7F else infMag f + 2 ^ (f.fw - 1)

/-- The sign bit's weight. -/
def signBit (f : FFmt) : Nat := 2 ^ (f.ew + f.fw)

/-- Set the sign of magnitude bits. -/
def withSign (f : FFmt) (neg : Bool) (mag : Nat) : Nat := if neg then mag + signBit f else mag

/-- Decode floating-point bits to their exact value (R101). An M48 with EXP 0xFF ignores FRAC_LO (R105). -/
def decodeFloat (f : FFmt) (bits : Nat) : Num :=
  let neg := bitAt bits (f.ew + f.fw)
  let e := (bits >>> f.fw) % 2 ^ f.ew
  let fr := bits % 2 ^ f.fw
  let fr' := if f.fw = 39 then fr >>> 16 else fr
  if f.e4m3 then
    if e = 15 ∧ fr = 7 then .nan
    else if e = 0 then .fin neg fr (1 - (f.bias : Int) - f.fw)
    else .fin neg (2 ^ f.fw + fr) ((e : Int) - f.bias - f.fw)
  else if e = 2 ^ f.ew - 1 then (if fr' = 0 then .inf neg else .nan)
  else if e = 0 then .fin neg fr (1 - (f.bias : Int) - f.fw)
  else .fin neg (2 ^ f.fw + fr) ((e : Int) - f.bias - f.fw)

/-- Is this F32 or F16 pattern a signalling NaN (R103)? Every NaN of the other formats is quiet. -/
def isSignalling (f : FFmt) (bits : Nat) : Bool :=
  (f == ffF32 || f == ffF16) && decide (decodeFloat f bits = .nan) && !bitAt bits (f.fw - 1)

/-- Shift a magnitude right by `sh` bits, rounding the dropped bits; the Bool says whether any were non-zero. -/
def quantise (mode : RMode) (neg : Bool) (m sh : Nat) : Nat × Bool :=
  let r := m >>> sh
  let rem := m % 2 ^ sh
  if rem = 0 then (r, false)
  else
    let inc := match mode with
      | .even => decide (2 * rem > 2 ^ sh) || (decide (2 * rem = 2 ^ sh) && decide (r % 2 = 1))
      | .away => decide (2 * rem ≥ 2 ^ sh)
      | .up => !neg
      | .down => neg
      | .zero => false
    (if inc then r + 1 else r, true)

/-- Round the magnitude m x 2^e to a multiple of 2^q. -/
def quantiseAt (mode : RMode) (neg : Bool) (m : Nat) (e q : Int) : Nat × Bool :=
  if e ≥ q then (m <<< (e - q).toNat, false) else quantise mode neg m (q - e).toNat

/-- A finite magnitude rounded to a format with its exponent unbounded above (R115). -/
structure Rounded where
  mag : Nat
  inexact : Bool
  tiny : Bool
deriving DecidableEq, Repr

/-- Round m x 2^e to the precision of `f`, subnormals kept; tininess is detected after rounding (R110). -/
def roundMag (f : FFmt) (mode : RMode) (neg : Bool) (m : Nat) (e : Int) : Rounded :=
  if m = 0 then ⟨0, false, false⟩
  else
    let top : Int := (m.log2 : Int) + e
    let emin : Int := 1 - f.bias
    let q := max top emin - f.fw
    let r := quantiseAt mode neg m e q
    let mag := if r.1 < 2 ^ f.fw then r.1 else ((q + f.fw + f.bias).toNat <<< f.fw) + (r.1 - 2 ^ f.fw)
    let u := quantiseAt mode neg m e (top - f.fw)
    let tiny := decide (top < emin) && !(decide (top + 1 = emin) && decide (u.1 = 2 ^ (f.fw + 1)))
    ⟨mag, r.2, tiny⟩

/-- The overflow result of IEEE 754 for a rounding direction, as magnitude bits. -/
def overflowMag (f : FFmt) (mode : RMode) (neg : Bool) : Nat :=
  match mode with
  | .even => infMag f
  | .away => infMag f
  | .up => if neg then maxMag f else infMag f
  | .down => if neg then infMag f else maxMag f
  | .zero => maxMag f

/-- Round an exact value into an IEEE-style format, with the flags IEEE 754 gives the rounding. -/
def roundTo (f : FFmt) (mode : RMode) (x : Num) : Nat × ExcFlags :=
  match x with
  | .nan => (canonNaN f, noFlags)
  | .inf neg => (withSign f neg (infMag f), noFlags)
  | .fin neg m e =>
    let r := roundMag f mode neg m e
    if r.mag > maxMag f then
      (withSign f neg (overflowMag f mode neg), { overflow := true, inexact := true })
    else (withSign f neg r.mag, { underflow := r.tiny && r.inexact, inexact := r.inexact })

/-- Sign inverted. -/
def negNum : Num → Num
  | .nan => .nan
  | .inf s => .inf (!s)
  | .fin s m e => .fin (!s) m e

/-- Magnitude. -/
def absNum : Num → Num
  | .nan => .nan
  | .inf _ => .inf false
  | .fin _ m e => .fin false m e

/-- Signed integer numerator at exponent `e`. -/
def signedMag (neg : Bool) (m : Nat) : Int := if neg then -(m : Int) else m

/-- The exact finite value i x 2^e with the sign of i; `zneg` is the sign of a zero. -/
def ofInt (i : Int) (e : Int) (zneg : Bool) : Num :=
  if i = 0 then .fin zneg 0 e else .fin (decide (i < 0)) i.natAbs e

/-- Is the value zero? -/
def isZeroNum : Num → Bool
  | .fin _ m _ => m == 0
  | _ => false

/-- Is the value finite? -/
def isFinNum : Num → Bool
  | .fin _ _ _ => true
  | _ => false

/-- Exact sum. An exact zero of opposite signs is +0, or -0 when rounding down (IEEE 754). -/
def addNum (mode : RMode) (a b : Num) : Num :=
  match a, b with
  | .nan, _ => .nan
  | _, .nan => .nan
  | .inf s, .inf t => if s = t then .inf s else .nan
  | .inf s, .fin _ _ _ => .inf s
  | .fin _ _ _, .inf t => .inf t
  | .fin s m e, .fin t n g =>
    let lo := min e g
    let i := signedMag s (m <<< (e - lo).toNat) + signedMag t (n <<< (g - lo).toNat)
    let zneg := if m = 0 ∧ n = 0 ∧ s = t then s else decide (mode = .down)
    ofInt i lo zneg

/-- Exact product; zero by infinity is NaN (R121). -/
def mulNum (a b : Num) : Num :=
  match a, b with
  | .nan, _ => .nan
  | _, .nan => .nan
  | .inf s, .inf t => .inf (s != t)
  | .inf s, .fin t n _ => if n = 0 then .nan else .inf (s != t)
  | .fin s m _, .inf t => if m = 0 then .nan else .inf (s != t)
  | .fin s m e, .fin t n g => .fin (s != t) (m * n) (e + g)

/-- 1 / x to 64 significant bits with a sticky bit below them: enough for one correct rounding. -/
def recipNum : Num → Num
  | .nan => .nan
  | .inf s => .fin s 0 0
  | .fin s m e =>
    if m = 0 then .inf s
    else
      let k := m.log2 + 64
      let q := 2 ^ k / m
      let sticky := if q * m = 2 ^ k then 0 else 1
      .fin s (2 * q + sticky) (-(k : Int) - e - 1)

/-- Square root to 64 significant bits with a sticky bit. A negative non-zero input gives NaN. -/
def sqrtNum : Num → Num
  | .nan => .nan
  | .inf s => if s then .nan else .inf false
  | .fin s m e =>
    if m = 0 then .fin s 0 0
    else if s then .nan
    else
      let e1 := e - 130
      let e2 := if e1 % 2 = 0 then e1 else e1 - 1
      let big := m <<< (e - e2).toNat
      let r := isqrt big
      let sticky := if r * r = big then 0 else 1
      .fin false (2 * r + sticky) (e2 / 2 - 1)

/-- Order of two values that are not NaN. Zeros compare equal. -/
def cmpNum (a b : Num) : Ordering :=
  match a, b with
  | .inf true, .inf true => .eq
  | .inf false, .inf false => .eq
  | .inf true, _ => .lt
  | _, .inf true => .gt
  | .inf false, _ => .gt
  | _, .inf false => .lt
  | .fin s m e, .fin t n g =>
    let lo := min e g
    compare (signedMag s (m <<< (e - lo).toNat)) (signedMag t (n <<< (g - lo).toNat))
  | .nan, _ => .eq
  | _, .nan => .eq

/-- a > b on numbers. -/
def gtNum (a b : Num) : Bool := cmpNum a b == .gt

/-- a ≤ b on numbers. -/
def leNum (a b : Num) : Bool := cmpNum a b != .gt

/-- Sign of a value. -/
def signNum : Num → Bool
  | .nan => false
  | .inf s => s
  | .fin s _ _ => s

/-- Round a finite value to an integer, ties to even. -/
def roundInt (mode : RMode) (x : Num) : Int × Bool :=
  match x with
  | .fin s m e =>
    let r := quantiseAt mode s m e 0
    (signedMag s r.1, r.2)
  | _ => (0, false)

/-- Multiply by a power of two. -/
def scaleNum (x : Num) (k : Int) : Num :=
  match x with
  | .fin s m e => .fin s m (e + k)
  | y => y

/-- A small integer as a value. -/
def natNum (n : Nat) : Num := .fin false n 0

/-- An integer as a value (no negative zero). -/
def intNum (i : Int) : Num := ofInt i 0 false

/-- E8 block scale (R107): NaN at 0xFF, else 2^(E-127). -/
def decodeE8 (c : Nat) : Num := if c = 0xFF then .nan else .fin false 1 ((c : Int) - 127)

/-- G16 element at its block's E8 code (R107). -/
def decodeG16 (g c : Nat) : Num := if c = 0xFF then .nan else ofInt (signExt 16 g) ((c : Int) - 127) false

/-- Rounding into W40 (R122), returned as an exact value. -/
def rnd40 (x : Num) : Num := decodeFloat ffW40 (roundTo ffW40 .even x).1

/-- W40 bits of a value (rounded by R122 if it is not one). -/
def encW40 (x : Num) : BitVec 40 := BitVec.ofNat 40 (roundTo ffW40 .even x).1

/-- Value of a W40 word. -/
def decW40 (w : BitVec 40) : Num := decodeFloat ffW40 w.toNat

/-- Format codes of R66. -/
def fmtFloat : Nat → Option FFmt
  | 0x0 => some ffE4M3
  | 0x1 => some ffE5M2
  | 0x3 => some ffBF16
  | 0x4 => some ffF16
  | 0x5 => some ffF32
  | 0xB => some ffW40
  | 0xC => some ffM48
  | _ => none

/-- Element size in half bytes (R66). -/
def fmtNibbles : Nat → Nat
  | 0x0 => 2 | 0x1 => 2 | 0x2 => 2 | 0x3 => 4 | 0x4 => 4 | 0x5 => 8 | 0x6 => 2 | 0x7 => 1
  | 0x8 => 2 | 0x9 => 1 | 0xA => 4 | 0xB => 10 | 0xC => 12 | _ => 2

/-- Array pieces of a format (R66, R119). -/
def fmtPieces : Nat → Nat
  | 0x4 => 2 | 0xA => 2 | 0x5 => 3 | _ => 1

/-- Permitted in LDW and MM (R66). -/
def fmtArrayOk (f : Nat) : Bool := decide (f ≤ 0xA)

/-- Permitted in GOPEN and GCLOSE besides W40 (R66, R114). -/
def fmtGroupOk (f : Nat) : Bool := decide (f ≤ 5) || decide (f = 0xA)

/-- Permitted in CVT (R114). -/
def fmtCvtOk (f : Nat) : Bool := decide (f ≤ 5) || decide (f = 0xA) || decide (f = 0xC)

/-- Value of an element of a direct format, given its block's E8 code for G16. -/
def decodeElem (fmt bits e8 : Nat) : Num :=
  match fmtFloat fmt with
  | some f => decodeFloat f bits
  | none => if fmt = 0xA then decodeG16 bits e8 else intNum (signExt 8 bits)

/-- What one conversion produces (R115): bits, flags, whether it saturated or took an overflow result, whether a
non-finite pattern was written, and whether NaN or an infinity went to an integer (R118 .06). -/
structure Conv where
  bits : Nat
  fl : ExcFlags := {}
  sat : Bool := false
  ovf : Bool := false
  nonfin : Bool := false
  toInt : Bool := false
deriving DecidableEq, Repr

/-- Conversion into F32, F16, BF16, M48 or W40 (R115). `snan`: the source is a signalling NaN. -/
def convIeee (f : FFmt) (mode : RMode) (snan : Bool) (x : Num) : Conv :=
  match x with
  | .nan => { bits := canonNaN f, fl := { invalid := snan }, nonfin := true }
  | .inf s => { bits := withSign f s (infMag f), nonfin := true }
  | .fin s m e =>
    let r := roundMag f mode s m e
    if r.mag > maxMag f then
      let o := overflowMag f mode s
      { bits := withSign f s o, fl := { overflow := true, inexact := true }, ovf := true,
        nonfin := decide (o = infMag f) }
    else { bits := withSign f s r.mag, fl := { underflow := r.tiny && r.inexact, inexact := r.inexact } }

/-- Conversion into E5M2 under the SAT flag (R115). -/
def convE5M2 (satF snan : Bool) (x : Num) : Conv :=
  match x with
  | .nan => { bits := 0x7E, fl := { invalid := snan }, nonfin := true }
  | .inf s => { bits := withSign ffE5M2 s 0x7C, nonfin := true }
  | .fin s m e =>
    let r := roundMag ffE5M2 .even s m e
    if r.mag > 0x7B then
      { bits := withSign ffE5M2 s (if satF then 0x7B else 0x7C), fl := { overflow := true, inexact := true },
        sat := satF, ovf := true, nonfin := !satF }
    else { bits := withSign ffE5M2 s r.mag, fl := { underflow := r.tiny && r.inexact, inexact := r.inexact } }

/-- Conversion into E4M3 under the SAT flag (R115). -/
def convE4M3 (satF snan : Bool) (x : Num) : Conv :=
  match x with
  | .nan => { bits := 0x7F, fl := { invalid := snan }, nonfin := true }
  | .inf s =>
    if satF then { bits := withSign ffE4M3 s 0x7E, fl := { overflow := true, inexact := true }, sat := true, ovf := true }
    else { bits := 0x7F, fl := { invalid := true }, nonfin := true }
  | .fin s m e =>
    let r := roundMag ffE4M3 .even s m e
    if r.mag > 0x7E then
      { bits := if satF then withSign ffE4M3 s 0x7E else 0x7F, fl := { overflow := true, inexact := true },
        sat := satF, ovf := true, nonfin := !satF }
    else { bits := withSign ffE4M3 s r.mag, fl := { underflow := r.tiny && r.inexact, inexact := r.inexact } }

/-- Conversion into INT8 (R115): NaN, infinity and overflow raise invalid only. -/
def convInt8 (x : Num) : Conv :=
  match x with
  | .nan => { bits := 0, fl := { invalid := true }, toInt := true }
  | .inf s => { bits := if s then 0x80 else 0x7F, fl := { invalid := true }, toInt := true }
  | .fin s m e =>
    let r := roundInt .even (.fin s m e)
    if r.1 > 127 then { bits := 0x7F, fl := { invalid := true }, sat := true, ovf := true }
    else if r.1 < -128 then { bits := 0x80, fl := { invalid := true }, sat := true, ovf := true }
    else { bits := wrapInt 8 r.1, fl := { inexact := r.2 } }

/-- Encoding one finite element of a G16 span at its code (R151, R115). NaN and infinity are the span's case (R117). -/
def convG16 (code : Nat) (x : Num) : Conv :=
  match x with
  | .fin _ _ _ =>
    let r := roundInt .even (scaleNum x (127 - (code : Int)))
    if r.1 > 32767 then { bits := 0x7FFF, fl := { overflow := true }, sat := true, ovf := true }
    else if r.1 < -32768 then { bits := 0x8000, fl := { overflow := true }, sat := true, ovf := true }
    else { bits := wrapInt 16 r.1, fl := { inexact := r.2 } }
  | _ => { bits := 0, fl := { invalid := true }, toInt := true, nonfin := true }

/-- Conversion into a format without a block code (R115); F32, F16 and BF16 round under `mode`. -/
def convTo (fmt : Nat) (mode : RMode) (satF snan : Bool) (x : Num) : Conv :=
  match fmt with
  | 0x0 => convE4M3 satF snan x
  | 0x1 => convE5M2 satF snan x
  | 0x2 => convInt8 x
  | 0x3 => convIeee ffBF16 mode snan x
  | 0x4 => convIeee ffF16 mode snan x
  | 0x5 => convIeee ffF32 mode snan x
  | 0xB => convIeee ffW40 .even snan x
  | 0xC => convIeee ffM48 .even snan x
  | _ => { bits := 0 }

/-- The rounding direction a mode-word value 18:16 names; the reserved values never pass LOAD (R111). -/
def rmodeOf : Nat → RMode
  | 0 => .even | 1 => .away | 2 => .up | 3 => .down | 4 => .zero | _ => .even

/-- Rounding direction of a vector result: RDIR for F32, F16 and BF16, ties to even for the rest (R111). -/
def vecMode (fmt : Nat) (rdir : RMode) : RMode := if fmt = 3 ∨ fmt = 4 ∨ fmt = 5 then rdir else .even

/-- Result bits and flags of one lane operation. -/
structure LaneRes where
  bits : Nat
  fl : ExcFlags := {}
  sat : Bool := false
deriving DecidableEq, Repr

/-- Finish an IEEE operation: round, and raise invalid where the operation was invalid. -/
def finishOp (f : FFmt) (mode : RMode) (inv : Bool) (x : Num) : LaneRes :=
  let r := roundTo f mode x
  { bits := r.1, fl := orFlags r.2 { invalid := inv } }

/-- ADD and SUB (R110): `sub` negates the second operand. -/
def opAdd (f : FFmt) (mode : RMode) (sub : Bool) (a b : Nat) : LaneRes :=
  let x := decodeFloat f a
  let y := if sub then negNum (decodeFloat f b) else decodeFloat f b
  let z := addNum mode x y
  let inv := isSignalling f a || isSignalling f b || (decide (z = .nan) && decide (x ≠ .nan) && decide (y ≠ .nan))
  finishOp f mode inv z

/-- MUL (R110). -/
def opMul (f : FFmt) (mode : RMode) (a b : Nat) : LaneRes :=
  let x := decodeFloat f a
  let y := decodeFloat f b
  let z := mulNum x y
  let inv := isSignalling f a || isSignalling f b || (decide (z = .nan) && decide (x ≠ .nan) && decide (y ≠ .nan))
  finishOp f mode inv z

/-- FMA, PA x PB + PD with one rounding (R110). -/
def opFma (f : FFmt) (mode : RMode) (a b c : Nat) : LaneRes :=
  let x := decodeFloat f a
  let y := decodeFloat f b
  let w := decodeFloat f c
  let p := mulNum x y
  let z := addNum mode p w
  let badMul := decide (p = .nan) && decide (x ≠ .nan) && decide (y ≠ .nan)
  let badAdd := decide (z = .nan) && decide (p ≠ .nan) && decide (w ≠ .nan)
  let inv := isSignalling f a || isSignalling f b || isSignalling f c || badAdd
    || (badMul && (decide (w ≠ .nan) || Config.fmaQuietInvalid))
  finishOp f mode inv z

/-- RCP: 1 / x, correctly rounded; a zero raises division by zero (R110). -/
def opRcp (f : FFmt) (mode : RMode) (a : Nat) : LaneRes :=
  let x := decodeFloat f a
  let r := finishOp f mode (isSignalling f a) (recipNum x)
  { r with fl := orFlags r.fl { divZero := isZeroNum x } }

/-- SQRT, correctly rounded (R110). -/
def opSqrt (f : FFmt) (mode : RMode) (a : Nat) : LaneRes :=
  let x := decodeFloat f a
  let z := sqrtNum x
  finishOp f mode (isSignalling f a || (decide (z = .nan) && decide (x ≠ .nan))) z

/-- MAX (`up`) and MIN: NaN-propagating, -0 below +0 (R110). -/
def opMaxMin (f : FFmt) (up : Bool) (a b : Nat) : LaneRes :=
  let x := decodeFloat f a
  let y := decodeFloat f b
  let inv := isSignalling f a || isSignalling f b
  if x = .nan ∨ y = .nan then { bits := canonNaN f, fl := { invalid := inv } }
  else
    let c := cmpNum x y
    let first := match c with
      | .gt => up
      | .lt => !up
      | .eq => if up then !signNum x else signNum x
    { bits := if first then a else b }

/-- CMPGT: quiet greater-than, 1.0 or 0.0 in the format (R110). -/
def opCmpGt (f : FFmt) (a b : Nat) : LaneRes :=
  let x := decodeFloat f a
  let y := decodeFloat f b
  let inv := isSignalling f a || isSignalling f b
  let t := decide (x ≠ .nan) && decide (y ≠ .nan) && gtNum x y
  { bits := if t then f.bias <<< f.fw else 0, fl := { invalid := inv } }

/-- Saturation of the stored integers of INT8 and G16 (R81). -/
def opSat (fmt : Nat) (i : Int) : LaneRes :=
  if fmt = 0xA then
    if i > 32767 then { bits := 0x7FFF, fl := { overflow := true }, sat := true }
    else if i < -32768 then { bits := 0x8000, fl := { overflow := true }, sat := true }
    else { bits := wrapInt 16 i }
  else
    if i > 127 then { bits := 0x7F, fl := { invalid := true }, sat := true }
    else if i < -128 then { bits := 0x80, fl := { invalid := true }, sat := true }
    else { bits := wrapInt 8 i }

/-- The stored integer of an INT8 or G16 element. -/
def storedInt (fmt bits : Nat) : Int := if fmt = 0xA then signExt 16 bits else signExt 8 bits

end Sys2Proof.Machine
end

