-- ==== Sys2Proof/Machine/TileTypes.lean ====
section
/-!
DEFINITION. The state of one logical tile (R42, R62, R148, R157) and the context a tile instruction's effect works on.
-/

namespace Sys2Proof.Machine

/-- A hardware loop level (R62, R71): passes left, counting the one that runs, and its bounds. -/
structure LoopLevel where
  active : Bool := false
  left : Nat := 0
  start : BitVec 13 := 0
  stop : BitVec 13 := 0
deriving DecidableEq, Repr

/-- One weight plane (R62, R74, R124): the format it was loaded in, the expanded elements (row-major raw bits with
their expanded format), the E8 code of each G16 row, and the exact column sums W[j] in W40. -/
structure Plane where
  loaded : Bool := false
  fmt : Nat := 0
  efmt : Nat := 0
  elems : List Nat := []
  codes : List Nat := []
  wsum : List (BitVec 40) := []
deriving DecidableEq, Repr

/-- Kinds of incomplete transfer (R67, R83, R88, R94). -/
inductive XferKind where
  | get | put | swap | sample | table | signal
deriving DecidableEq, Repr

/-- A descriptor at work in the sampler or table slice (R88): the function (4 SAMPLE, else TFN), the descriptor's words
as read at issue, the context, the extended register read at issue, the lines of other packages read so far, and bits
63:32 of the instruction. -/
structure SliceJob where
  fn : Nat
  words : List Nat
  ctx : Nat
  xbase : Nat
  remote : SMap (List Byte) := []
  op : Nat := 0
deriving DecidableEq, Repr

/-- An incomplete GET, PUT, SWAP or descriptor (R67): the local bytes it still holds under R45 (`lo` and `len`;
`len = 0` for none), its local completion token, the instruction-store half a SWAP loads, and how many remote answers
it still waits for. -/
structure Xfer where
  id : Nat
  kind : XferKind
  lo : Nat := 0
  len : Nat := 0
  writes : Bool := false
  tk : Option (Fin 64) := none
  half : Nat := 2
  waits : Nat := 0
  /-- further local ranges it holds: first byte, bytes, written -/
  also : List (Nat × Nat × Bool) := []
  slice : Option SliceJob := none
deriving DecidableEq, Repr

/-- A line written from outside the tile that no consumed token orders yet (R45), and the counters whose tokens were
applied after it. -/
structure OutsideLine where
  line : Nat
  by_ : List Nat := []
deriving DecidableEq, Repr

/-- What a tile is doing in the step (R62, R89, R91). -/
inductive TileRun where
  /-- no step has started on it -/
  | idle
  /-- it issues instructions -/
  | active
  /-- it issued STEPEND -/
  | done
  /-- it stopped at an instruction boundary for an abort (R91) -/
  | stopped
deriving DecidableEq, Repr

/-- The state of a logical tile but for its SRAM and its instruction store, which lie in the package's memory and in
the store of program words. -/
structure Tile where
  run : TileRun := .idle
  /-- the step tag the tile works under (R86) -/
  tag : BitVec 12 := 0
  ia : BitVec 13 := 0
  ptr : Vector (BitVec 21) 16 := Vector.replicate 16 0
  xreg : Vector (BitVec 64) 8 := Vector.replicate 8 0
  loops : Vector LoopLevel 4 := Vector.replicate 4 {}
  calls : List Nat := []
  tok : Vector (BitVec 16) 64 := Vector.replicate 64 0
  mode : BitVec 32 := 0
  planes : Vector Plane 8 := Vector.replicate 8 {}
  groups : SMap (List (BitVec 40)) := []
  /-- expansion tables of Q8C, Q4C, Q8A, Q4A in this order, as the bytes LDQ loaded (R155); no bytes: all zero -/
  tables : Vector (List Byte) 4 := Vector.replicate 4 []
  flags : ExcFlags := {}
  encore : BitVec 8 := 0
  /-- the 16 scale-map entries (R148) -/
  scaleMap : List (BitVec 128) := []
  entry : BitVec 13 := 0
  backEntry : BitVec 13 := 0
  /-- reached its backward entry in this attempt (R227) -/
  atBarrier : Bool := false
  /-- package address of the segment last loaded into each half, and of its step-start segment (R90) -/
  lastSeg : List Nat := [0, 0]
  startSeg : List Nat := [0, 0]
  xfers : List Xfer := []
  nextXfer : Nat := 0
  outside : List OutsideLine := []
  /-- addresses of the lines in the prefetch buffer (R265) -/
  prefetch : List Nat := []
  /-- per X register: empty, trained or confirmed (0, 1, 2), the predicted address and the lines (R265) -/
  streams : Vector (Nat × Nat × Nat) 8 := Vector.replicate 8 (0, 0, 0)
  /-- lines prefetched and used by this tile since the counters were cleared (R275 .0F to .11) -/
  pfRead : Nat := 0
  pfUsed : Nat := 0
deriving DecidableEq, Repr

/-- The groups of per-die counters that tile instructions count in (R13). -/
inductive Tally where
  | sram | issue | vector | array | scale
deriving DecidableEq, Repr

/-- The index of a group of counters on die 0. -/
def Tally.index : Tally → Nat
  | .sram => 0x8040 | .issue => 0x8060 | .vector => 0x8080 | .array => 0x80A0 | .scale => 0x80E0

/-- What a tile instruction's effect reads and writes: the memory, the tile, where its SRAM window begins, the
per-die counters it raises (key: index x 256 + subindex, for die 0), the events it raises, the causes it aborts the
attempt with (R239), the free-value counter, the watched counts of R161, and an explicit next address. -/
structure TCtx where
  mem : Memory
  tile : Tile
  base : Nat
  /-- counts on the die: group, subindex, number -/
  cnt : List (Tally × BitVec 8 × Nat) := []
  evs : List Nat := []
  aborts : List Nat := []
  free : Nat
  satCount : Nat := 0
  nonfinCount : Nat := 0
  /-- uncorrectable 64-bit words of SRAM, as package addresses of their first bytes (R46) -/
  bad : List Nat := []
  target : Option Nat := none
deriving DecidableEq, Repr

/-- Add to a per-die counter. -/
def tcBump (c : TCtx) (idx : Tally) (sub k : Nat) : TCtx :=
  if k = 0 then c else { c with cnt := c.cnt ++ [(idx, BitVec.ofNat 8 sub, k)] }

/-- The dictionary key on die 0 of a counter. -/
def tallyKey (p : Tally × BitVec 8 × Nat) : Nat := p.1.index * 256 + p.2.1.toNat

/-- Raise an event. -/
def tcEvent (c : TCtx) (code : Nat) : TCtx := { c with evs := c.evs ++ [code] }

/-- A program fault (R69): cause 2, event 0x7003, counted in 0x8060.08. -/
def tcProgFault (c : TCtx) : TCtx :=
  tcBump { c with evs := c.evs ++ [0x7003], aborts := c.aborts ++ [2] } .issue 8 1

/-- A program error (R518): cause 10 and its event. -/
def tcProgError (c : TCtx) (code : Nat) : TCtx := { c with evs := c.evs ++ [code], aborts := c.aborts ++ [10] }

/-- Size of a tile's SRAM (R43). -/
def sramSize : Nat := 0x20_0000

/-- The local address `a`, wrapped to 21 bits (R73). -/
def localAddr (a : Nat) : Nat := a % sramSize

/-- Read `n` local bytes; addresses wrap at the end of SRAM. -/
def tcRead (c : TCtx) (a : Nat) : Nat → List Byte
  | 0 => []
  | n + 1 => readByte c.mem (c.base + localAddr a) :: tcRead c (a + 1) n

/-- Write local bytes; addresses wrap at the end of SRAM. -/
def tcWrite (c : TCtx) (a : Nat) : List Byte → TCtx
  | [] => c
  | b :: bs => tcWrite { c with mem := writeByte c.mem (c.base + localAddr a) b } (a + 1) bs

/-- Write at a nibble address: one nibble keeps the other half of its byte (R99). -/
def tcWriteNib (c : TCtx) (na nibs bits : Nat) : TCtx :=
  if nibs = 1 then
    let old := (readByte c.mem (c.base + localAddr (na / 2))).toNat
    let v := if na % 2 = 0 then old / 16 * 16 + bits % 16 else bits % 16 * 16 + old % 16
    tcWrite c (na / 2) [BitVec.ofNat 8 v]
  else tcWrite c (na / 2) (leBytes (nibs / 2) bits)

/-- Read an element of `nibs` half bytes at a nibble address (R99). -/
def tcReadNib (c : TCtx) (na nibs : Nat) : Nat :=
  if nibs = 1 then
    let b := (readByte c.mem (c.base + localAddr (na / 2))).toNat
    if na % 2 = 0 then b % 16 else b / 16
  else leNat (tcRead c (na / 2) (nibs / 2))

/-- The `n` raw elements of a format from local byte address `a` (R99). -/
def tcElems (c : TCtx) (fmt a n : Nat) : List Nat :=
  (List.range n).map (fun i => tcReadNib c (2 * a + i * fmtNibbles fmt) (fmtNibbles fmt))

/-- Does a local range hold an uncorrectable SRAM word (R46)? -/
def tcBadIn (c : TCtx) (a n : Nat) : Bool :=
  c.bad.any (fun w => decide (w + 8 > c.base + a) && decide (w < c.base + a + n))

/-- An uncorrectable SRAM word met by a read (R46): event 0x7001, cause 3, counted. -/
def tcUncorrectable (c : TCtx) : TCtx :=
  tcBump { c with evs := c.evs ++ [0x7001], aborts := c.aborts ++ [3] } .sram 8 1

end Sys2Proof.Machine
end

