-- ==== Sys2Proof/Machine/Types.lean ====
section
/-!
DEFINITION. Package-level data types of the state: package states, events, messages, flits, votes and the running step.
-/

namespace Sys2Proof.Machine

/-- The package states of R13, in the order of 0x1000.07. -/
inductive PkgState where
  | off | standby | ready | loaded | running | held | spare | fault
deriving DecidableEq, Repr

/-- The number of a package state at 0x1000.07 (R396). -/
def stateCode : PkgState → Nat
  | .off => 0 | .standby => 1 | .ready => 2 | .loaded => 3 | .running => 4 | .held => 5 | .spare => 6 | .fault => 7

/-- An event record before it is packed (R405). -/
structure EventRec where
  code : Nat
  subunit : Nat := 0
  unit : Nat := 0
  count : Nat := 1
  operation : Nat := 0
  time : Nat := 0
  temp : Nat := 0
  volt : Nat := 0
deriving DecidableEq, Repr

/-- A Midway message: the header slot of R310 and its data slots. -/
structure Msg where
  type : BitVec 4
  dst : BitVec 24
  src : BitVec 24
  stag : BitVec 12 := 0
  eseq : BitVec 32 := 0
  repoch : BitVec 8 := 0
  rmode : BitVec 3 := 0
  hops : BitVec 6 := 0
  dte : Bool := false
  dtk : Fin 64 := 0
  addr : BitVec 44 := 0
  body : BitVec 256 := 0
  data : List Byte := []
  ecrc : BitVec 32 := 0
deriving DecidableEq, Repr

/-- One 64-byte slot of a flit with its KIND and VC (R280, R297). -/
structure Slot where
  kind : BitVec 2 := 0
  vc : BitVec 3 := 0
  data : List Byte := []
deriving DecidableEq, Repr

/-- A flit of a Tightrope edge or a Midway port (R280, R297). -/
structure Flit where
  seq : BitVec 12 := 0
  ack : BitVec 12 := 0
  ackv : Bool := false
  nak : Bool := false
  test : Bool := false
  credits : List Nat := []
  slots : List Slot := []
  crc : BitVec 32 := 0
deriving DecidableEq, Repr

/-- One end of a link: what it sends and what it has accepted (R281, R282, R298, R299). -/
structure LinkEnd where
  next : BitVec 12 := 0
  accepted : BitVec 12 := 0xFFF
  accV : Bool := false
  /-- flits sent and not yet covered by an ACK, oldest first -/
  replay : List Flit := []
  /-- a flit was discarded and its resending has not arrived -/
  refusing : Bool := false
  refusals : Nat := 0
  /-- slot credits held per channel -/
  credits : List Nat := []
  /-- slots waiting to be sent, oldest first -/
  txq : List Slot := []
  /-- slots accepted and not yet taken by the router -/
  rx : List Slot := []
  /-- slots that have left the receive buffer and whose credits are not yet returned, per channel -/
  owed : List Nat := []
  /-- test flits received intact in the running training attempt -/
  tests : Nat := 0
deriving DecidableEq, Repr

/-- A commit vote (R235). -/
structure Vote where
  step : Nat := 0
  attempt : Nat := 0
  encore : BitVec 8 := 0
  exc : BitVec 5 := 0
  lossNF : Bool := false
  gradNF : Bool := false
  rowNF : Bool := false
  abort : Bool := false
  cause : Nat := 0
  suspV : Bool := false
  suspect : BitVec 12 := 0
  susDie : BitVec 2 := 0
  invalid : Nat := 0
  gs : BitVec 64 := 0
  gb : BitVec 64 := 0
deriving DecidableEq, Repr

/-- A decision (R238). -/
structure Decision where
  step : Nat := 0
  attempt : Nat := 0
  action : Nat := 0
  nextmode : BitVec 16 := 0
  cause : Nat := 0
  suspV : Bool := false
  suspect : BitVec 12 := 0
  susDie : BitVec 2 := 0
deriving DecidableEq, Repr

/-- A shard version recorded by a forward gather (R234). -/
structure GatherRec where
  die : Nat
  layer : Nat
  shard : Nat
  version : Nat
deriving DecidableEq, Repr

/-- A suspect under judgement (R439): its source's event code, its unit, and the attempt it was found in. -/
structure Suspect where
  source : Nat
  unit : Nat
  step : Nat
  attempt : Nat
deriving DecidableEq, Repr

/-- The phases of a step on this package (R21, R235, R246). -/
inductive StepPhase where
  /-- no attempt is under way: tiles wait at their step start -/
  | idle
  /-- an attempt runs -/
  | attempt
  /-- the package has voted and awaits the decision -/
  | voted
  /-- a decision ended the attempt; its effects have been applied -/
  | decided
deriving DecidableEq, Repr

/-- A Catcher mismatch (R342, R441). -/
structure Mismatch where
  step : Nat
  attempt : Nat
  real : Nat
  copy : Nat
  op : Nat
deriving DecidableEq, Repr

/-- A test of the Shooting Gallery pack (R442): its number, declared beats, program words, input image, result lines,
expected hash, and scale map. -/
structure GalleryTest where
  number : Nat
  beats : Nat
  words : List Nat
  image : List Byte
  lines : Nat
  hash : BitVec 64
  scale : List (BitVec 128)
deriving DecidableEq, Repr

/-- The tests a tile has to run (R440, R445, R446): the one under way, its repeat, what asked for them (0 a window, 1 a
targeted run, 2 a full run), the tests after it, and the job's scale map. -/
structure GalleryRun where
  key : Nat
  test : Nat
  rep : Nat := 0
  why : Nat := 0
  todo : List Nat := []
  scale : List (BitVec 128) := []
deriving DecidableEq, Repr

/-- The Shooting Gallery: the pack's tests, and the tests under way. -/
structure Gallery where
  pack : List GalleryTest := []
  runs : List GalleryRun := []
  /-- the repeated Catcher mismatch whose targeted run is under way (R441): the two senders and the OPERATION of its event -/
  named : Option (Nat × Nat × Nat) := none
  /-- a test of the targeted run, or of the full run, has been judged permanent or transient -/
  failed : Bool := false
  /-- no test of a targeted run failed: the package votes HOLD (R441) -/
  unresolved : Bool := false
  /-- decode-step commits of context 12d per die (R444) -/
  counts : List Nat := [0, 0, 0, 0]
deriving DecidableEq, Repr

/-- The step engine of the lead die (11_training_step.md). -/
structure StepState where
  phase : StepPhase := .idle
  /-- attempt number of the step (R224), and attempts since the last quiescent point -/
  attempt : Nat := 0
  sinceQuiet : Nat := 0
  /-- abort causes raised in this attempt (R239) -/
  causes : List Nat := []
  /-- every step-stopping effect of R91 has been applied -/
  stopped : Bool := false
  barrier : Bool := false
  loss : Option (BitVec 32) := none
  gradNF : Bool := false
  gathers : List GatherRec := []
  ownVote : Option Vote := none
  /-- votes of the z, y and x child (keys 0, 1, 2) -/
  childVotes : SMap Vote := []
  combined : Option Vote := none
  voteSent : Bool := false
  decision : Option Decision := none
  /-- Encore bits, WIDE and PAR of the attempt (R225) -/
  bits : BitVec 8 := 0
  wide : Bool := false
  par : Bool := false
  bsel : BitVec 2 := 0
  /-- Encore hold (R159): steps left and its bits -/
  holdLeft : Nat := 0
  holdBits : BitVec 8 := 0
  /-- saturations and non-finite values watched in the attempt (R161) -/
  sat : Nat := 0
  nonfin : Nat := 0
  /-- a HOLD with argument 0 awaits the next boundary (R407) -/
  holdAsked : Bool := false
  /-- HELD holds an attempt in its middle (R55) -/
  heldMid : Bool := false
  /-- HELD was entered by the step guard (R245), with the triggers' attempt bits -/
  heldGuard : Bool := false
  /-- abort cause of the HOLD decision that led to HELD, 0 for none (R315) -/
  heldCause : Nat := 0
  /-- a watchdog period has run out after the vote (R246) -/
  missing : Bool := false
  /-- a resumed package waits for the new route epoch (R317) -/
  epochWait : Bool := false
  /-- package time at which the attempt, or the wait for its decision, began (R246) -/
  since : Nat := 0
  /-- package times of the forward barrier and of the last STEPEND (R460) -/
  barrierAt : Nat := 0
  endedAt : Nat := 0
  suspects : List Suspect := []
  /-- the engine that the package's vote names: coordinate and die (R334) -/
  engine : Option (Nat × Nat) := none
  /-- F64 squared norm of the local dense gradient, formed before the reduction begins (R248) -/
  gs : Nat := 0
  /-- the serving step interval has passed since the last step start (R371) -/
  intervalDue : Bool := false
  /-- Catcher mismatches: step, attempt, the two senders, layer and shard (R441) -/
  mismatches : List Mismatch := []
deriving DecidableEq, Repr

/-- What the package sends outside: messages, flits, frames, RDMA requests, pin levels. It is an outbox of the model:
nothing reads it back. -/
inductive Out where
  /-- a slot-level flit onto an edge or port -/
  | trope (edge : Fin 4) (high : Bool) (f : Flit)
  | midway (port : Fin 16) (f : Flit)
  /-- a message handed to a Midway port pair of this package (port, virtual channel) -/
  | message (port : Nat) (vc : Nat) (m : Msg)
  /-- a word on the die management bus -/
  | bus (die : Nat) (word : Nat)
  /-- a UDP frame: port of the package (8 = M0), destination address and port, payload -/
  | frame (port : Nat) (addr : Nat) (udp : Nat) (bytes : List Byte)
  /-- an RDMA request of the package: queue-pair number, write or read, address, R_Key, length, bytes written -/
  | rdma (qp : Nat) (write : Bool) (va : Nat) (rkey : Nat) (len : Nat) (bytes : List Byte)
  /-- an answer on a RoCE connection: queue pair, syndrome (0 ACK, 3 NAK Remote Access Error), bytes -/
  | roce (qp : Nat) (syndrome : Nat) (bytes : List Byte)
  /-- an Ethernet control frame: port, kind (0 pause, 1 resume, 2 congestion notification), priority or queue pair -/
  | ether (port : Nat) (kind : Nat) (arg : Nat)
  /-- bits shifted out of the test access port -/
  | tdo (bits : Nat) (width : Nat)
  /-- an access-fault exception on a control core -/
  | coreFault (die : Nat) (core : Nat) (kind : Nat) (addr : Nat)
  /-- data answered to a control core -/
  | coreData (die : Nat) (core : Nat) (bytes : List Byte)
  /-- a PMBus or AVSBus command to a regulator -/
  | regulator (unit : Nat) (command : Nat) (value : Nat)
deriving DecidableEq, Repr

end Sys2Proof.Machine
end

