-- ==== Sys2Proof/Machine/JobTypes.lean ====
section
/-!
DEFINITION. What a loaded job image leaves in the package (R515-R517), the sample contexts and pagers, and the
transport state of Midway flows.
-/

namespace Sys2Proof.Machine

/-- A declared program segment (R516 kind 3): it may be loaded into `half` by the tiles of `map`. -/
structure Segment where
  die : Nat
  half : Nat
  addr : Nat
  words : Nat
  map : Nat
deriving DecidableEq, Repr

/-- An entry of the layer table (R516 kind 0xD). -/
structure LayerEntry where
  layer : Nat
  ready : List Nat
  contributors : Nat
  order : Nat
deriving DecidableEq, Repr

/-- An entry of the shard catalogue (R516 kind 0xE): addresses of half 0 and half 1 (R323). -/
structure ShardEntry where
  layer : Nat
  shard : Nat
  die : Nat
  half0 : Nat
  half1 : Nat
deriving DecidableEq, Repr

/-- A reduction buffer, staging pool, journal area or undo log declared at load (R516 kinds 4 to 7), or a pool
(kind 2) with its pool kind. -/
structure MemDecl where
  die : Nat
  kind : Nat
  sub : Nat
  tile : Nat
  first : Nat
  pages : Nat
deriving DecidableEq, Repr

/-- A mark of R516 kind 0x12: trained or frozen, and its checkpoint class (R411). -/
structure MarkEntry where
  first : Nat
  bytes : Nat
  trained : Bool
  cls : Nat
deriving DecidableEq, Repr

/-- A spare's Catcher list (R339). -/
structure CatcherEntry where
  spare : Nat
  members : List Nat
deriving DecidableEq, Repr

/-- A position of a reduction tree on a die (R326). -/
structure Node where
  die : Nat
  layer : Nat
  shard : Nat
  parent : Nat
  nodeId : Nat
  nchild : Nat
  contrib : Nat
  leaf : Bool
  root : Bool
  onebit : Bool
  flat : Bool
  notify : Nat
  ntk : Fin 64
  gaddr : Nat
  caddr : Nat
  groups : Nat
deriving DecidableEq, Repr

/-- The job of a package: what LOAD took from the image. -/
structure Job where
  held : Bool := false
  image : Nat := 0
  seed : BitVec 64 := 0
  flags : BitVec 16 := 0
  level : Nat := 1
  serving : Bool := false
  shapeFree : Bool := false
  batchUnit : Nat := 0
  bsel0 : BitVec 2 := 0
  variants : Nat := 1
  batches : List Nat := []
  lossTile : Nat := 0
  lossAddr : Nat := 0
  shape : Nat := 0
  segments : List Segment := []
  layers : List LayerEntry := []
  shards : List ShardEntry := []
  decls : List MemDecl := []
  marks : List MarkEntry := []
  nodes : List Node := []
  catcher : List CatcherEntry := []
  profile : List Byte := []
  /-- tiles whose gallery region is free, as die x 1,024 + tile (R443) -/
  gallery : List Nat := []
  /-- package addresses of the table catalogues of D0 to D3 (R191); 0 where there is none -/
  catalogue : List Nat := [0, 0, 0, 0]
  /-- SHA-384 of the image's signed bytes (R515) -/
  digest : List Byte := []
  /-- data sections (R516 kind 0x13): address, bytes, SHA-384 -/
  dataSections : List (Nat × Nat × List Byte) := []
deriving DecidableEq, Repr

/-- A sample context (R176, R188, R370). -/
structure Context where
  slot : BitVec 24 := 0
  counter : BitVec 48 := 0
  epoch : BitVec 24 := 0
  keys : List (BitVec 64) := []
  streams : Nat := 0
  hops : Nat := 0
  frontier : List Nat := []
  longest : Nat := 0
deriving DecidableEq, Repr

/-- A frame of a tile's pager (R262): frame number, page address (with REM and COORD), dirty mark and time of last use. -/
structure Frame where
  frame : Nat
  page : Option Nat := none
  dirty : Bool := false
  lastUse : Nat := 0
deriving DecidableEq, Repr

/-- A paged region of a tile (R261): backing address in the layout of R63, pages. -/
structure Region where
  backing : Nat
  pages : Nat
deriving DecidableEq, Repr

/-- An access that the pager serves page by page (R262): the transfer it belongs to, its direction, the package address
of its next line (with REM and COORD), the local address, and the lines left. -/
structure PageAccess where
  xfer : Nat
  put : Bool
  xaddr : Nat
  local_ : Nat
  lines : Nat
deriving DecidableEq, Repr

/-- The pager of a tile (R261, R262): its accesses in order, and the page-in under way (page, frame, READs unanswered). -/
structure Pager where
  regions : List Region := []
  frames : List Frame := []
  queue : List PageAccess := []
  inflight : Option (Nat × Nat × Nat) := none
  clock : Nat := 0
deriving DecidableEq, Repr

/-- Who waits for the answer of a READ message: a tile's transfer (key die x 768 + tile), a control core, or a unit of
the package. -/
inductive Reader where
  | tile (key : Nat) (xfer : Nat) (local_ : Nat)
  | core (die : Nat) (core : Nat)
  | paging (key : Nat) (local_ : Nat)
  | slice (key : Nat) (xfer : Nat) (word : Nat)
  | carry (dst : Nat)
deriving DecidableEq, Repr

/-- A READ that has no READRSP yet (R311). -/
structure ReadReq where
  who : Reader
  src : Nat
  dst : Nat
  addr : Nat
  lines : Nat
  /-- the read begins at a shard header (R324) -/
  gather : Bool := false
deriving DecidableEq, Repr

/-- A sequenced message kept until an ACK covers it (R314), with its send count and the transfer it belongs to. -/
structure Unacked where
  msg : Msg
  sends : Nat := 1
  owner : Option (Nat × Nat) := none
deriving DecidableEq, Repr

/-- The sending side of a flow (R312, R314). -/
structure FlowTx where
  next : BitVec 32 := 0
  unacked : List Unacked := []
  closed : Bool := false
deriving DecidableEq, Repr

/-- The receiving side of a flow (R313): E, the reorder buffer, and messages applied since the last ACK. -/
structure FlowRx where
  expected : BitVec 32 := 0
  held : List Msg := []
  owed : Nat := 0
deriving DecidableEq, Repr

/-- A line, a token or a gradient entry held for the next step (R86, R240). -/
inductive EarlyItem where
  | line (tile : Nat) (addr : Nat) (bytes : List Byte)
  | token (tile : Nat) (tk : Fin 64) (cnt : Nat)
  | core (core : Nat) (tk : Fin 64) (cnt : Nat) (src : Nat)
  | grad (shardKey : Nat) (key : BitVec 128) (vals : List Nat) (src : Nat)
deriving DecidableEq, Repr

end Sys2Proof.Machine
end

