-- ==== Sys2Proof/Machine/BoardTypes.lean ====
section
/-!
DEFINITION. What management, power, boot, the flash, the pins and the test access port hold (18, 21, 22 and 23), and the
operands of their commands.
-/

namespace Sys2Proof.Machine

/-! ### Tarvy -/

/-- Where a request comes from (R397, R401): the port (0 to 7 Ethernet, 8 M0), the source address (an IPv4 address in its
mapped form) and the UDP port. -/
structure Source where
  via : Fin 9
  addr : BitVec 128
  port : BitVec 16
deriving DecidableEq, Repr

/-- A response kept for repeats (R402). -/
structure Kept where
  addr : Nat
  port : Nat
  txid : Nat
  offset : Nat
  frame : List Byte
  time : Nat
deriving DecidableEq, Repr

/-- A snapshot of a large value (R403): when it was last read, and when its last byte was served. -/
structure Snapshot where
  addr : Nat
  port : Nat
  txid : Nat
  entry : Nat
  value : List Byte
  used : Nat
  done : Option Nat := none
deriving DecidableEq, Repr

/-- The staging of a large write (R404). -/
structure Staging where
  addr : Nat
  port : Nat
  txid : Nat
  entry : Nat
  value : List Byte
  total : Nat
  used : Nat
deriving DecidableEq, Repr

/-- The Ticket Booth (R397-R405): kept responses, snapshots, stagings, the highest TXID per source address, and whether M0
is up. -/
structure Tarvy where
  kept : List Kept := []
  snaps : List Snapshot := []
  stages : List Staging := []
  highest : SMap Nat := []
  m0 : Bool := false
deriving DecidableEq, Repr

/-! ### Power and cooling -/

/-- The power manager and the valve controller (R459-R469). -/
structure PowerMan where
  /-- pool / 4 of the last setting (R459) -/
  quarter : Nat := 0
  /-- the last setting found package power above the limit -/
  excess : Bool := false
  /-- settings at level 4 with the excess present, and settings in succession 50 W below the limit (R463) -/
  atFour : Nat := 0
  calm : Nat := 0
  /-- watts by which level 3 reduces the pool (R463) -/
  cut : Nat := 0
  /-- loans as lender, borrower, watts (R462), and the shortfalls reported at the last setting -/
  loans : List (Nat × Nat × Nat) := []
  shortfall : List Nat := [0, 0, 0, 0]
  /-- watts taken from a die's budget by the throttle temperature (R464) and by a region difference (R38) -/
  tempCut : List Nat := [0, 0, 0, 0]
  regionCut : List Nat := [0, 0, 0, 0]
  /-- the die's samples lie above the throttle temperature (R464) -/
  hot : List Bool := [false, false, false, false]
  /-- the previous sample exceeded 100 degrees (R464), 200 mV or 40 degrees of difference (R39) -/
  critical : List Bool := [false, false, false, false]
  prevVolt : Bool := false
  prevTemp : Bool := false
  /-- a difference to be clamped at the next setting (R38): a pair of dies, and a die holding the hotter region -/
  voltPair : Option (Nat × Nat) := none
  tempDie : Option Nat := none
  /-- measured core voltages of the last sample, mV (R36) -/
  volts : List Nat := [0, 0, 0, 0]
  /-- watts by which the inlet temperature lowers the pool (R467), and whether this episode has been told -/
  inletCut : Nat := 0
  inletTold : Bool := false
  /-- flow below the minimum: the limit is 1,000 W (R467) -/
  flowLow : Bool := false
  /-- 0x600D has been raised for this job (R469) -/
  departed : Bool := false
  /-- the power limit has been written since the last setting (R469) -/
  limitNew : Bool := false
  /-- a die's estimate has exceeded its budget by 5 % and is not yet back within it (R461) -/
  lowering : List Bool := [false, false, false, false]
  /-- the trim integral in 0.125 K x 100 ms, whether the duty is clamped, the feed-forward duty last used while running, and
  when HELD was entered (R466) -/
  integral : Int := 0
  clamped : Bool := false
  lastFF : Nat := 0
  /-- durations of FORWARD, BACKWARD and REDUCE in the last committed step, ns; 0 before one (R466) -/
  durations : List Nat := [0, 0, 0]
deriving DecidableEq, Repr

/-- Readings of the regulators D0 to D3, VSTACK, VMW, VETH and VAUX (R456, R503); an absent one does not acknowledge. -/
structure RegReading where
  volts : BitVec 16
  amps : BitVec 16
  watts : BitVec 16
deriving DecidableEq, Repr

/-- The regulators' telemetry, and STATUS_WORD of each where it was read (R456). -/
structure Telemetry where
  regs : Vector (Option RegReading) 8
  status : Option (Vector (BitVec 16) 8)
deriving DecidableEq, Repr

/-- Region temperatures in 0.125 degree and measured core voltages in mV (R36). -/
structure RegionReading where
  temps : Vector (Vector (BitVec 16) 40) 4
  volts : Vector (BitVec 16) 4
deriving DecidableEq, Repr

/-- The coolant inputs (R465, R504): pulses of FLOW0 and FLOW1 in 100 ms, and CT0 to CT3 in 0.125 degree; none is open,
shorted or out of range. -/
structure CoolantReading where
  pulses : Vector (BitVec 16) 2
  temps : Vector (Option (BitVec 16)) 4
deriving DecidableEq, Repr

/-! ### Boot and security -/

/-- The flash (R476, R477, R485, R486). Record copies by kind x 2 + copy, and objects by kind (firmware by kind x 2 + slot),
as written since manufacture: what is not listed is as manufactured (`Config.factory`). -/
structure Flash where
  records : SMap (List Byte) := []
  objects : SMap (List Byte) := []
  /-- attempts of a trial slot (R486) -/
  trials : List Nat := [0, 0]
  /-- active slot, and the states of the slots: 0 confirmed, 1 trial, 2 failed, 3 empty -/
  active : Nat := 0
  slots : List Nat := [0, 3]
  /-- end of the reserved block of signature indices (R480) -/
  counter : Nat := 0
  /-- physical tiles judged faulty on a short die, recorded and not retired (R59): die x 1,024 + row x 32 + column -/
  judged : List Nat := []
deriving DecidableEq, Repr

/-- What the boot stages find in the hardware (R472, R277, R51, R58, R164). -/
structure BootFound where
  /-- record copies that fail verification, by kind and copy -/
  badCopies : List (Nat × Nat) := []
  /-- firmware slots that fail verification -/
  badSlots : List Nat := []
  /-- the root secret was reconstructed and the keys agree with the certificate (R479) -/
  puf : Bool := true
  /-- dies that reported within 50 ms -/
  reports : BitVec 4 := 15
  /-- agreed half masks of T0 to T3; 0 is down -/
  masks : Vector (BitVec 2) 4
  /-- spares (die, column) and bypass multiplexers (die, row, column) that fail their check -/
  spares : List (Fin 4 × Fin 32) := []
  bypasses : List (Fin 4 × Fin 25 × Fin 32) := []
  /-- suites and dies that fail (R164) -/
  suites : BitVec 10 := 0
  dies : BitVec 4 := 0
  /-- tiles that fail the full run of a lost field map (R478) -/
  galleryFails : List TileRef := []
  millis : BitVec 32 := 0
deriving DecidableEq, Repr

/-- What boot leaves in force until the next reset. -/
structure Boot where
  /-- stage 2 of R277 waits for a die -/
  waiting : Option BootFound := none
  recovery : Bool := false
  /-- a start-up check failed: no command takes the package to READY (R277) -/
  barred : Bool := false
  /-- the device keys agree with the certificate (R479) -/
  identity : Bool := false
  /-- dies and suites that have passed since reset: every suite on every die (R165) -/
  suitesPassed : Bool := false
  /-- the package has entered READY since reset (R393) -/
  wasReady : Bool := false
  /-- the field map was lost and has not been written again (R478) -/
  noFieldMap : Bool := false
  /-- the owner's 157 key bytes, and the management key (R481, R482) -/
  owner : Option (List Byte) := none
  mgmtKey : Option (List Byte) := none
  /-- next signature index (R480) -/
  nextIndex : Nat := 0
  /-- a test run in progress: suites and dies (R165) -/
  testRun : Option (Nat × Nat) := none
  /-- the update object being verified (R485) -/
  update : Option (List Byte) := none
  /-- package time of the last attestation report (R484) -/
  reportAt : Option Nat := none
  /-- an ATTEST or LOAD in progress: its code, and the reason that refuses it, 0 for none (R407) -/
  command : Option (Nat × Nat) := none
  /-- minima of the object kinds (R486), by kind -/
  minima : SMap Nat := []
  /-- a torn entry has been told since boot (R451) -/
  tornTold : Bool := false
deriving DecidableEq, Repr

/-! ### Pins and test access -/

/-- The lands that the package reads or drives (R493, R497-R501): levels of RESET_N and PWRGD, THERMTRIP_N asserted, the valve
output driven, and a supply order fault that keeps the package in OFF. -/
structure Pins where
  resetN : Bool := false
  pwrgd : Bool := false
  thermtrip : Bool := false
  valve : Bool := false
  orderFault : Bool := false
  /-- supply order faults and thermal trips (0x1048.04, .05), which the supply monitor on VAUX keeps -/
  orderFaults : Nat := 0
  trips : Nat := 0
deriving DecidableEq, Repr

/-- The test access port (R506-R508): the instruction register of each die, the boundary values preloaded, and SEQ of the
Trunk Record register as its last Update-DR left it. -/
structure Tap where
  ir : List Nat := [1, 1, 1, 1]
  boundary : List Nat := [0, 0, 0, 0]
  seq : Nat := 0
deriving DecidableEq, Repr

/-- The board side of the package. -/
structure Board where
  power : PowerMan := {}
  flash : Flash := {}
  boot : Boot := {}
  pins : Pins := {}
  tap : Tap := {}
deriving DecidableEq, Repr

end Sys2Proof.Machine
end

