-- ==== Sys2Proof/Machine/ReduceTypes.lean ====
section
/-!
DEFINITION. REDUCE messages (R335) and what a reduce engine holds of a tree position (R325 to R342).
-/

namespace Sys2Proof.Machine

/-- A REDUCE message (R335): its OP, the BODY's fields, its data, its STAG and the endpoint of its sender. -/
structure ReduceMsg where
  op : Nat
  catch_ : Bool := false
  leafin : Bool := false
  width : Bool := false
  ngrp : Nat := 1
  layer : BitVec 16
  shard : BitVec 16
  group : BitVec 32 := 0
  csrc : BitVec 16 := 0
  data : List Byte := []
  stag : BitVec 12 := 0
  src : BitVec 24 := 0
deriving DecidableEq, Repr

/-- One child's input as it has come, real or a Catcher copy (R329, R331, R336, R340): its die, codes and values with
their tallies by group, its hash, and the ranges whose first residue mismatch has been seen. -/
structure ChildIn where
  leafin : Bool
  csrc : Nat
  catch_ : Bool
  src : Nat
  codes : SMap Nat := []
  vals : SMap (List Int × Nat) := []
  hash : Option Nat := none
  retried : List Nat := []
  /-- its flow has failed or its route epoch has ended -/
  lost : Bool := false
deriving DecidableEq, Repr

/-- A position of a tree at work. -/
structure NodeRt where
  children : List ChildIn := []
  codesSent : Bool := false
  agreed : SMap Nat := []
  sent : Bool := false
  /-- children whose Catcher copy was taken: contributor numbers -/
  taken : List Nat := []
  /-- messages sent up, kept for a RESEND (R334) -/
  kept : List ReduceMsg := []
deriving DecidableEq, Repr

/-- A chunk of 64 elements of a table row on its way (R345): its group, code and values. -/
structure TableChunk where
  group : Nat
  code : Nat
  vals : List Int
deriving DecidableEq, Repr

/-- What one contributor has sent of a table, and whether its HASH has come. -/
structure TablePart where
  from_ : Nat
  chunks : List TableChunk := []
  ended : Bool := false
deriving DecidableEq, Repr

/-- The reduction of one replicated table (R345) as one die sees it: the contributions it roots, and the reduced chunks
that have come back with the roots that have finished. -/
structure TableRed where
  parts : List TablePart := []
  reduced : List TableChunk := []
  roots : List Nat := []
deriving DecidableEq, Repr

/-- The reduce engines of the package. -/
structure Reduce where
  started : Bool := false
  /-- by index of the node entry in the job -/
  nodes : SMap NodeRt := []
  /-- messages between positions of this package on their way, oldest first -/
  queue : List (Nat × ReduceMsg) := []
  /-- messages held for the next step (R335) -/
  held : List (Nat × ReduceMsg) := []
  /-- by table x 4 + die -/
  tables : SMap TableRed := []
deriving DecidableEq, Repr

end Sys2Proof.Machine
end

