-- ==== Sys2Proof/Machine/CommandTypes.lean ====
section
/-!
DEFINITION. Operands of the commands that come from links, boards and administrators, gathered for the syntax.
-/

namespace Sys2Proof.Machine

/-- What a drain epoch ends for (R217, R218): a slot of a shard or copy, or a replica pair of a die. -/
inductive DrainRef where
  | slot (table : Fin 4096) (shard : Fin 16384) (copy : Fin 4) (slot : BitVec 40)
  | pair (die : Fin 4) (pair : BitVec 27)
deriving DecidableEq, Repr

/-- An access of a control core (R16): a load of n + 1 bytes, a store, or an instruction fetch of 2 or 4 bytes. -/
inductive CoreAccess where
  | load (n : Fin 64)
  | store (bytes : List Byte)
  | fetch (wide : Bool)
deriving DecidableEq, Repr

/-- A recovery record of R422, field by field; TYPE is given by the command, or by the record where it arrives as a WRITE. -/
structure RecRecord where
  repoch : BitVec 8 := 0
  coord : BitVec 12 := 0
  step : BitVec 48 := 0
  gen : BitVec 32 := 0
  jstep : BitVec 48 := 0
  bstep : BitVec 48 := 0
  ret : Bool := false
  inc : Bool := false
  new : Bool := false
  pos : BitVec 13 := 0
  rstep : BitVec 48 := 0
  nstep : BitVec 48 := 0
deriving DecidableEq, Repr

end Sys2Proof.Machine
end

