-- ==== Sys2Proof/Syntax.lean ====
section
/-!
DEFINITION. The commands of the block: one constructor per row of the opcode table (the four TBL functions and the VOP
functions are rows of their own). A tile instruction names its logical tile and its wait field (R64, R85); every other
command carries what the event or request brings from outside.
-/

namespace Sys2Proof
open Sys2Proof.Machine

/-- The commands of the table, in its order. -/
inductive Instr where
  | nop (r : TileRef) (w : WaitField)
  | loop (r : TileRef) (w : WaitField) (lvl : Fin 4) (cnt : BitVec 16) (stop : BitVec 13)
  | jump (r : TileRef) (w : WaitField) (t : BitVec 13)
  | call (r : TileRef) (w : WaitField) (t : BitVec 13)
  | ret (r : TileRef) (w : WaitField)
  | brm (r : TileRef) (w : WaitField) (mbit : Fin 32) (sense : Bool) (t : BitVec 13)
  | wait (r : TileRef) (w : WaitField) (tk : Fin 64) (cnt : BitVec 16)
  | stepend (r : TileRef) (w : WaitField)
  | swap (r : TileRef) (w : WaitField) (a : SwapArgs)
  | setp (r : TileRef) (w : WaitField) (pn : Fin 16) (imm : BitVec 21)
  | addp (r : TileRef) (w : WaitField) (pn : Fin 16) (simm : BitVec 21)
  | setx (r : TileRef) (w : WaitField) (xn : Fin 8) (sl : Fin 4) (imm : BitVec 16)
  | addx (r : TileRef) (w : WaitField) (xn : Fin 8) (simm : BitVec 32)
  | ldw (r : TileRef) (w : WaitField) (a : LdwArgs)
  | mm (r : TileRef) (w : WaitField) (a : MmArgs)
  | gopen (r : TileRef) (w : WaitField) (a : GroupArgs)
  | gclose (r : TileRef) (w : WaitField) (a : GroupArgs)
  | gspill (r : TileRef) (w : WaitField) (a : GroupArgs)
  | gfill (r : TileRef) (w : WaitField) (a : GroupArgs)
  | gdrop (r : TileRef) (w : WaitField) (a : GroupArgs)
  | mov (r : TileRef) (w : WaitField) (a : VopArgs)
  | add (r : TileRef) (w : WaitField) (a : VopArgs)
  | sub (r : TileRef) (w : WaitField) (a : VopArgs)
  | mul (r : TileRef) (w : WaitField) (a : VopArgs)
  | fma (r : TileRef) (w : WaitField) (a : VopArgs)
  | max (r : TileRef) (w : WaitField) (a : VopArgs)
  | min (r : TileRef) (w : WaitField) (a : VopArgs)
  | abs (r : TileRef) (w : WaitField) (a : VopArgs)
  | neg (r : TileRef) (w : WaitField) (a : VopArgs)
  | cmpgt (r : TileRef) (w : WaitField) (a : VopArgs)
  | cvt (r : TileRef) (w : WaitField) (a : VopArgs)
  | rsum (r : TileRef) (w : WaitField) (a : VopArgs)
  | rmax (r : TileRef) (w : WaitField) (a : VopArgs)
  | exp (r : TileRef) (w : WaitField) (a : VopArgs)
  | exp2 (r : TileRef) (w : WaitField) (a : VopArgs)
  | log (r : TileRef) (w : WaitField) (a : VopArgs)
  | log2 (r : TileRef) (w : WaitField) (a : VopArgs)
  | rcp (r : TileRef) (w : WaitField) (a : VopArgs)
  | sqrt (r : TileRef) (w : WaitField) (a : VopArgs)
  | rsqrt (r : TileRef) (w : WaitField) (a : VopArgs)
  | tanh (r : TileRef) (w : WaitField) (a : VopArgs)
  | sigm (r : TileRef) (w : WaitField) (a : VopArgs)
  | erf (r : TileRef) (w : WaitField) (a : VopArgs)
  | sin (r : TileRef) (w : WaitField) (a : VopArgs)
  | cos (r : TileRef) (w : WaitField) (a : VopArgs)
  | ldq (r : TileRef) (w : WaitField) (a : VopArgs)
  | get (r : TileRef) (w : WaitField) (a : XferArgs)
  | put (r : TileRef) (w : WaitField) (a : XferArgs)
  | signal (r : TileRef) (w : WaitField) (a : SignalArgs)
  | sample (r : TileRef) (w : WaitField) (a : SampleArgs)
  | gather (r : TileRef) (w : WaitField) (a : TblArgs)
  | gatherAndPool (r : TileRef) (w : WaitField) (a : TblArgs)
  | scatterAdd (r : TileRef) (w : WaitField) (a : TblArgs)
  | sortAndMerge (r : TileRef) (w : WaitField) (a : TblArgs)
  | gradientEntry (d : Fin 4) (tag : BitVec 12) (table : Fin 4096) (shard : Fin 16384) (gk : BitVec 128) (vals : List (BitVec 32)) (src : BitVec 24)
  | getComplete (r : TileRef) (id : BitVec 32)
  | putComplete (r : TileRef) (id : BitVec 32)
  | swapComplete (r : TileRef) (id : BitVec 32)
  | descriptorComplete (r : TileRef) (id : BitVec 32)
  | tokenArrival (r : TileRef) (tag : BitVec 12) (item : TileItem)
  | pageInComplete (r : TileRef)
  | stepStart (r : TileRef)
  | forwardBarrier
  | stepWatchdogExpiry
  | missingDecision
  | packageVote
  | vote (child : Fin 3) (v : Vote)
  | commit (d : Decision)
  | rerun (d : Decision)
  | skip (d : Decision)
  | holdDecision (d : Decision)
  | retirement
  | servingStepInterval
  | releaseWaitExpiry (cseq : BitVec 32)
  | tightropeFlit (e : Fin 4) (high : Bool) (f : Flit)
  | tightropeLinkReset (e : Fin 4) (high : Bool)
  | tightropeTraining (e : Fin 4)
  | halfMaskAdvertisement (e : Fin 4) (high : Bool) (mask : BitVec 2)
  | advertisementTimeout (e : Fin 4)
  | handOverReport (e : Fin 4) (high : Bool)
  | retrainSelectedEdge (d : Fin 4)
  | midwayFlit (p : Fin 16) (f : Flit) (c0 : Option (Fin 16)) (c1 : Option (Fin 16))
  | codewordLockLoss (p : Fin 16)
  | midwayTraining (p : Fin 16) (lock : Bool) (far : Bool)
  | retrainPort (p : Fin 16)
  | messageForward (p : Fin 16) (vc : Fin 6)
  | midwayWrite (m : Msg)
  | midwayRead (m : Msg)
  | readrsp (m : Msg)
  | signalMessage (m : Msg)
  | ack (m : Msg)
  | ackTimer (d : Fin 4) (src : Fin 16384)
  | endToEndTimeout (d : Fin 4) (dst : Fin 16384)
  | probe (p : Fin 16) (seq : BitVec 12)
  | route (epoch : BitVec 8) (pos : BitVec 16) (coord : BitVec 12)
  | reductionStart
  | codes (d : Fin 4) (m : ReduceMsg)
  | agreed (d : Fin 4) (m : ReduceMsg)
  | sum (d : Fin 4) (m : ReduceMsg)
  | raw (d : Fin 4) (m : ReduceMsg)
  | onebit (d : Fin 4) (m : ReduceMsg)
  | hash (d : Fin 4) (m : ReduceMsg)
  | resend (d : Fin 4) (m : ReduceMsg)
  | catcherDeadline (d : Fin 4) (layer : BitVec 16) (shard : BitVec 16)
  | runReShard
  | reShardSwitch
  | doorbell (w : BitVec 64)
  | nopRecord
  | input
  | batch
  | decode
  | replace
  | releaseRecord
  | sourceCopyComplete (cseq : BitVec 32) (entry : BitVec 24)
  | drainEpochEnd (r : DrainRef)
  | bankCopyComplete (table : Fin 4096) (shard : Fin 16384) (copy : Fin 4)
  | rdmaWrite (p : Fin 8) (qp : BitVec 24) (gid : BitVec 128) (rkey : BitVec 32) (va : BitVec 64) (bytes : List Byte)
  | rdmaRead (p : Fin 8) (qp : BitVec 24) (gid : BitVec 128) (rkey : BitVec 32) (va : BitVec 64) (len : BitVec 32)
  | send (p : Fin 8) (qp : BitVec 24) (gid : BitVec 128) (bytes : List Byte)
  | inputReadComplete (c : Fin 48) (m : Option (BitVec 16)) (bytes : List Byte)
  | journalAck (d : Fin 4) (upTo : BitVec 64) (image : Bool)
  | blockLockLoss (p : Fin 8)
  | blockLockRegain (p : Fin 8)
  | pauseReceived (p : Fin 8) (prio : Fin 8) (quanta : BitVec 16)
  | receiveFifoThreshold (p : Fin 8) (prio : Fin 8) (above : Bool)
  | pausePersistence (p : Fin 8) (prio : Fin 8)
  | ceMarkedPacket (p : Fin 8) (qp : BitVec 24)
  | congestionNotificationPacket (p : Fin 8) (qp : BitVec 24)
  | rateRecovery (p : Fin 8) (qp : BitVec 24)
  | ptpMessage (p : Fin 8) (domain : BitVec 7) (time : BitVec 64) (offset : BitVec 32)
  | holdover
  | next (d : Fin 4) (c : Fin 8)
  | post (d : Fin 4) (c : Fin 8) (item : BitVec 256)
  | done (d : Fin 4) (c : Fin 8)
  | corePortWait (d : Fin 4) (c : Fin 8) (flow : BitVec 12)
  | yield (d : Fin 4) (c : Fin 8)
  | sleep (d : Fin 4) (c : Fin 8) (until_ : BitVec 64)
  | sleepExpiry (d : Fin 4) (n : Fin 1024)
  | thread (d : Fin 4) (c : Fin 8) (supervisor : Bool) (w : BitVec 128)
  | flow (d : Fin 4) (c : Fin 8) (supervisor : Bool) (w : BitVec 128)
  | machineCheck (d : Fin 4) (c : Fin 8) (mcause : BitVec 32)
  | tarvyRead (src : Source) (frame : List Byte)
  | tarvyWrite (src : Source) (frame : List Byte)
  | echo (src : Source) (frame : List Byte)
  | eventAck (src : Source) (frame : List Byte)
  | eventFrameSend
  | eventFrameResend (number : BitVec 32)
  | snapshotRelease (src : Source) (txid : BitVec 32)
  | stagingDiscard (src : Source) (txid : BitVec 32)
  | attest (arg : BitVec 24)
  | load (arg : BitVec 24)
  | run (arg : BitVec 24)
  | hold (arg : BitVec 24)
  | resume (arg : BitVec 24)
  | release (arg : BitVec 24)
  | adopt (arg : BitVec 24)
  | standby (arg : BitVec 24)
  | reset (arg : BitVec 24)
  | clearCounters (d : Fin 4) (one : Bool)
  | retireLogicalTile (r : TileRef)
  | runTestSuites (mask : BitVec 16)
  | testRunComplete (suites : BitVec 10) (dies : BitVec 4)
  | runFullPack (mask : BitVec 8)
  | fullRunComplete
  | galleryTestComplete (r : TileRef) (hash : Option (BitVec 64))
  | attestationNonce (n : BitVec 256)
  | updateObject (o : List Byte)
  | ownerRecord (viaM0 : Bool) (o : List Byte)
  | managementRecord (o : List Byte)
  | referenceOutput
  | registerWrite (index : BitVec 16) (sub : BitVec 8) (value : List Byte)
  | captureComplete
  | drained (r : RecRecord)
  | complete (r : RecRecord)
  | unreachable (r : RecRecord)
  | reachable (r : RecRecord)
  | adopting (r : RecRecord)
  | reject (r : RecRecord)
  | query (r : RecRecord)
  | report (r : RecRecord)
  | target (r : RecRecord)
  | restored (r : RecRecord)
  | sramScrub (r : TileRef) (fixed : List (Fin 262144)) (broken : List (Fin 262144))
  | patrolScrub (fixed : List (BitVec 35)) (broken : List (BitVec 35))
  | budgetSetting
  | budgetEstimate (d : Fin 4) (watts : BitVec 16)
  | budgetTimeout (d : Fin 4)
  | regionSample (r : RegionReading)
  | valveControl (r : CoolantReading)
  | regulatorTelemetry (t : Telemetry)
  | alertN (segment : Fin 2) (status : Vector (Option (BitVec 16)) 4)
  | avsbusTimeout (d : Fin 4)
  | coolantFlowLow
  | coolantFlowCritical
  | inletTemperatureHigh
  | profileDeparture
  | holdupRead (mv : BitVec 16)
  | pwrgdAssert (order : Bool)
  | pwrgdFall
  | resetNAssert
  | boot (f : BootFound)
  | dieReportTimeout (d : Fin 4)
  | trstN
  | bypass (d : Fin 4)
  | idcode (d : Fin 4)
  | samplePreload (d : Fin 4) (sampled : BitVec 26) (preload : BitVec 26)
  | extest (d : Fin 4) (sampled : BitVec 26) (preload : BitVec 26)
  | clamp (d : Fin 4)
  | trunkread (d : Fin 4) (seq : BitVec 64) (soon : Bool)
  | journalWaitExpiry
  | midwayTrainingExpiry (p : Fin 16)
  | queuePairErrorState (p : Fin 8) (pair : Fin 64)
  | controlCoreAccess (d : Fin 4) (c : Fin 8) (super : Bool) (addr : BitVec 57) (a : CoreAccess)
  | prefetchReadComplete (r : TileRef) (x : Fin 8) (line : Fin (2 ^ 38))
  | commandOutcome
  | updateVerificationComplete
  | m0LinkLoss
  | m0LinkRegain
  | telemetryTimer (d : Fin 4) (tag : BitVec 16)
deriving DecidableEq, Repr

end Sys2Proof
end

