-- ==== Sys2Proof/Decode.lean ====
section
/-!
DEFINITION. The command a table word spells. No row of the opcode table gives bits, so no word spells a command; the
tile instruction words of R64 and R65 are taken apart and put together in `Machine/TileWord.lean`.
-/

namespace Sys2Proof

/-- The command that `nbits` bits `w` spell by the table: the table gives no row any bits. -/
def decodeTableWord (_nbits _w : Nat) : Option Instr := none

end Sys2Proof
end

