-- ==== Sys2Proof/Machine/Flags.lean ====
section
/-!
DEFINITION. What raising an exception flag does (R112, R118): the tile's sticky flags and the die's element counts.
-/

namespace Sys2Proof.Machine

/-- Take the flags of one element's operation: sticky in the tile (R112), counted on the die except inexact (R118). -/
def tcFlags (c : TCtx) (fl : ExcFlags) : TCtx :=
  let c := { c with tile := { c.tile with flags := orFlags c.tile.flags fl } }
  let c := tcBump c .vector 1 (boolNat fl.invalid)
  let c := tcBump c .vector 2 (boolNat fl.divZero)
  let c := tcBump c .vector 3 (boolNat fl.overflow)
  tcBump c .vector 4 (boolNat fl.underflow)

/-- Flags and saturation of one lane result (R81, R112, R118 .05). -/
def tcLane (c : TCtx) (r : LaneRes) : TCtx := tcBump (tcFlags c r.fl) .vector 5 (boolNat r.sat)

/-- Flags and counts of one conversion (R115, R118 .05 and .06). -/
def tcConv (c : TCtx) (r : Conv) : TCtx :=
  tcBump (tcBump (tcFlags c r.fl) .vector 5 (boolNat r.sat)) .vector 6 (boolNat r.toInt)

end Sys2Proof.Machine
end

