-- ==== Sys2Proof/Machine/Operands.lean ====
section
/-!
DEFINITION. Operand forms of the tile: scale-map entries and codes (R148-R154), expansion tables (R155), coded writes
with their Encore flags (R151, R152, R157), and element reads with their codes.
-/

namespace Sys2Proof.Machine

/-- A scale-map entry taken apart (R148). -/
structure ScaleEntry where
  base : Nat
  limit : Nat
  cbase : Nat
  pmask : Nat
  side : Nat
  pen : Bool
  bs : Nat
  span : Nat
  kind : Nat
  ecls : Nat
  een : Bool
deriving DecidableEq, Repr

/-- The fields of a scale-map word (R148). -/
def scaleEntry (w : BitVec 128) : ScaleEntry :=
  let n := w.toNat
  { base := bitField n 127 107, limit := bitField n 106 86, cbase := bitField n 85 65, pmask := bitField n 64 44,
    side := bitField n 43 23, pen := bitAt n 22, bs := 16 * 2 ^ bitField n 21 20, span := bitField n 19 14 + 1,
    kind := bitField n 13 10, ecls := bitField n 9 7, een := bitAt n 6 }

/-- Elements of a span (R149). -/
def spanLen (e : ScaleEntry) : Nat := e.bs * e.span

/-- Is the entry coded (R149)? -/
def isCoded (e : ScaleEntry) : Bool := decide (6 ≤ e.kind) && decide (e.kind ≤ 10)

/-- Does local byte address `a` lie in the entry's element region? -/
def inEntry (e : ScaleEntry) (a : Nat) : Bool := e.kind != 0 && decide (e.base ≤ a) && decide (a ≤ e.limit)

/-- The entries of a tile's scale map. -/
def scaleEntries (t : Tile) : List ScaleEntry := t.scaleMap.map scaleEntry

/-- The coded entry of one of the kinds that holds local address `a`. -/
def codedEntryAt (t : Tile) (kinds : List Nat) (a : Nat) : Option ScaleEntry :=
  (scaleEntries t).find? (fun e => isCoded e && kinds.contains e.kind && inEntry e (localAddr a))

/-- Index of the element of entry `e` at nibble address `na`. -/
def elemIndex (e : ScaleEntry) (na : Nat) : Nat := (na - 2 * e.base) / fmtNibbles e.kind

/-- Local address of the code of element index `i` (R150). -/
def codeAddr (e : ScaleEntry) (i : Nat) : Nat := e.cbase + i / spanLen e

/-- Read a byte of the tile's SRAM. -/
def tcByte (c : TCtx) (a : Nat) : Nat := (readByte c.mem (c.base + localAddr a)).toNat

/-- Write a byte of the tile's SRAM. -/
def tcPutByte (c : TCtx) (a v : Nat) : TCtx := tcWrite c a [BitVec.ofNat 8 v]

/-- An access of `n` elements outside the scale map: counted, event 0x1004 (R150). -/
def tcOutside (c : TCtx) (n : Nat) : TCtx := tcBump (tcEvent c 0x1004) .scale 4 n

/-- The E8 code of a G16 element at local address `a`; 0x7F outside every entry of KIND 0xA (R150). -/
def g16Code (c : TCtx) (a : Nat) : Option Nat :=
  (codedEntryAt c.tile [0xA] a).map (fun e => tcByte c (codeAddr e (elemIndex e (2 * localAddr a))))

/-- The E8 code of an operand row whose table asks for one (R150, R155). -/
def rowCode (c : TCtx) (a : Nat) : Option Nat :=
  (codedEntryAt c.tile [6, 7, 8, 9, 10] a).map (fun e => tcByte c (codeAddr e (elemIndex e (2 * localAddr a))))

/-- Index of a codebook or asymmetric format among the expansion tables: Q8C Q4C Q8A Q4A. -/
def tableIx (fmt : Nat) : Fin 4 := Fin.ofNat 4 (fmt - 6)

/-- The expansion table of a format as bytes (R155). -/
def expTable (t : Tile) (fmt : Nat) : List Byte := t.tables[tableIx fmt]

/-- Entry format of a codebook: INT8 at header bits 5:4 = 01, else E4M3 (R155). -/
def cbEntryFmt (tb : List Byte) : Nat := if (leAt tb 0 1 / 16) % 4 = 1 then 2 else 0

/-- XSRC of a table (R155). -/
def tbXsrc (tb : List Byte) : Bool := bitAt (leAt tb 0 1) 7

/-- Codebook entries as exact values. -/
def codebook (tb : List Byte) (fmt : Nat) : List Num :=
  (List.range (if fmt = 6 then 256 else 16)).map (fun i => decodeElem (cbEntryFmt tb) (leAt tb (128 + i) 1) 0x7F)

/-- Expand a raw element to an 8-bit array operand and its format (R109). -/
def expandElem (t : Tile) (fmt raw : Nat) : Nat × Nat :=
  let tb := expTable t fmt
  match fmt with
  | 6 => (leAt tb (128 + raw) 1, cbEntryFmt tb)
  | 7 => (leAt tb (128 + raw) 1, cbEntryFmt tb)
  | 8 => (wrapInt 8 ((raw : Int) - 128), 2)
  | 9 => (wrapInt 8 ((raw : Int) - 8), 2)
  | _ => (raw, fmt)

/-- Is it a codebook or asymmetric format? -/
def isQuant (fmt : Nat) : Bool := decide (6 ≤ fmt) && decide (fmt ≤ 9)

/-- Bound b of R151 for a coded kind; none where the codebook holds only NaN. -/
def codeBound (t : Tile) (kind : Nat) : Num :=
  match kind with
  | 0xA => natNum 32767
  | 8 => natNum 127
  | 9 => natNum 7
  | _ =>
    ((codebook (expTable t kind) kind).filter (fun x => decide (x ≠ .nan))).foldl
      (fun a x => if gtNum (absNum x) a then absNum x else a) (natNum 0)

/-- Does the kind's code choice round first (R151)? -/
def integerKind (kind : Nat) : Bool := kind == 0xA || kind == 8 || kind == 9

/-- choose_code of R151: the code, and whether the span is saturated. -/
def chooseCode (b : Num) (intKind : Bool) (vs : List Num) : Nat × Bool :=
  if vs.any (fun v => !isFinNum v) then (0xFF, false)
  else
    let a := vs.foldl (fun a v => if gtNum (absNum v) a then absNum v else a) (natNum 0)
    if isZeroNum a || isZeroNum b then (0, false)
    else
      let ok := fun (e : Nat) =>
        let t := scaleNum a (127 - (e : Int))
        leNum (if intKind then intNum (roundInt .even t).1 else t) b
      match (List.range 0xFF).find? ok with
      | some e => (e, false)
      | none => (0xFE, true)

/-- The zero code of a coded kind (R117). -/
def zeroCode (kind : Nat) : Nat := if kind = 8 then 128 else if kind = 9 then 8 else 0

/-- Index of the codebook entry nearest to `x`, the lower index on a tie; NaN entries take no part (R151). -/
def nearestEntry (cb : List Num) (x : Num) : Nat :=
  let step := fun (st : Nat × Option (Num × Nat)) (y : Num) =>
    let i := st.1
    if y = .nan then (i + 1, st.2)
    else
      let d := absNum (addNum .even x (negNum y))
      match st.2 with
      | none => (i + 1, some (d, i))
      | some (d0, j) => if gtNum d0 d then (i + 1, some (d, i)) else (i + 1, some (d0, j))
  match (cb.foldl step (0, none)).2 with
  | some (_, j) => j
  | none => 0

/-- Clamp an integer, saying whether it clamped. -/
def clampInt (lo hi i : Int) : Int × Bool := if i > hi then (hi, true) else if i < lo then (lo, true) else (i, false)

/-- encode of R151 for one finite element of a coded kind at a code below 0xFF. -/
def encodeCoded (t : Tile) (kind code : Nat) (x : Num) : Conv :=
  let y := scaleNum x (127 - (code : Int))
  match kind with
  | 0xA => convG16 code x
  | 8 =>
    let r := roundInt .even y
    let k := clampInt (-128) 127 r.1
    { bits := (128 + k.1).toNat, fl := { overflow := k.2, inexact := r.2 && !k.2 }, sat := k.2, ovf := k.2 }
  | 9 =>
    let r := roundInt .even y
    let k := clampInt (-8) 7 r.1
    { bits := (8 + k.1).toNat, fl := { overflow := k.2, inexact := r.2 && !k.2 }, sat := k.2, ovf := k.2 }
  | _ =>
    let cb := codebook (expTable t kind) kind
    let i := nearestEntry cb y
    let hit := cb.getD i .nan
    let clamps := gtNum (absNum y) (codeBound t kind)
    { bits := i, fl := { overflow := clamps, inexact := !clamps && decide (cmpNum hit y ≠ .eq) },
      sat := clamps, ovf := clamps }

/-- An element to be written by a CVT or GCLOSE: its nibble address, its exact source value, and whether the source was
a signalling NaN. -/
structure OutElem where
  na : Nat
  x : Num
  snan : Bool
deriving DecidableEq, Repr

/-- An element's bits on their way to SRAM. -/
structure OutBits where
  na : Nat
  nibs : Nat
  bits : Nat
deriving DecidableEq, Repr

/-- Set Encore flag `k` of the tile (R157). -/
def tcEncore (c : TCtx) (k sat nonfin : Nat) : TCtx :=
  { c with tile := { c.tile with encore := c.tile.encore ||| BitVec.ofNat 8 (2 ^ k) },
           satCount := c.satCount + sat, nonfinCount := c.nonfinCount + nonfin }

/-- Watch one written element (R157): every watched entry that holds it takes its flag where the element overflowed
or is not finite. -/
def tcWatch (c : TCtx) (na : Nat) (ovf nonfin : Bool) : TCtx :=
  if ovf || nonfin then
    (scaleEntries c.tile).foldl
      (fun c e => if e.een && inEntry e (localAddr (na / 2)) then tcEncore c e.ecls (boolNat ovf) (boolNat nonfin) else c) c
  else c

/-- Is position `p` of a span of entry `e` privileged (R154)? Bit i of the mask is bit i mod 8 of byte i div 8. -/
def isPriv (c : TCtx) (e : ScaleEntry) (p : Nat) : Bool := e.pen && bitAt (tcByte c (e.pmask + p / 8)) (p % 8)

/-- Marked positions of a span below `p`. -/
def privBelow (c : TCtx) (e : ScaleEntry) (p : Nat) : Nat := ((List.range p).filter (isPriv c e)).length

/-- Write a privileged element's value as BF16 to the side region (R154). -/
def tcSide (c : TCtx) (e : ScaleEntry) (i : Nat) (o : OutElem) : TCtx :=
  let n := i / spanLen e
  let p := i % spanLen e
  let r := convIeee ffBF16 .even o.snan o.x
  let a := e.side + 2 * (n * privBelow c e (spanLen e) + privBelow c e p)
  let c := tcWrite (tcConv c r) a (leBytes 2 r.bits)
  tcBump (tcWatch c o.na r.ovf r.nonfin) .scale 5 1

/-- One element of a coded span at its code, with flags, counts and watching. -/
def tcCodedElem (e : ScaleEntry) (code : Nat) (st : TCtx × List OutBits) (o : OutElem) : TCtx × List OutBits :=
  let c := st.1
  let i := elemIndex e o.na
  let nibs := fmtNibbles e.kind
  if isPriv c e (i % spanLen e) then
    (tcSide c e i o, st.2 ++ [⟨o.na, nibs, zeroCode e.kind⟩])
  else if code = 0xFF ∨ ¬ isFinNum o.x then
    let special := !isFinNum o.x
    let c := tcConv c { bits := 0, fl := { invalid := special && (e.kind == 0xA || o.snan) }, toInt := special && e.kind == 0xA }
    (tcWatch c o.na false special, st.2 ++ [⟨o.na, nibs, zeroCode e.kind⟩])
  else
    let r := encodeCoded c.tile e.kind code o.x
    (tcWatch (tcConv c r) o.na r.ovf false, st.2 ++ [⟨o.na, nibs, r.bits⟩])

/-- The distinct positions an instruction writes in span `n`. -/
def spanPositions (e : ScaleEntry) (n : Nat) (os : List OutElem) : List Nat :=
  ((os.map (fun o => elemIndex e o.na)).filter (fun i => i / spanLen e = n)).dedup

/-- The value each position of a span holds after the instruction: the last one written there. -/
def lastValue (e : ScaleEntry) (os : List OutElem) (i : Nat) : Num :=
  ((os.filter (fun o => elemIndex e o.na = i)).getLast?.map (fun o => o.x)).getD (natNum 0)

/-- Write one span of a coded region (R151, R152, R117): choose or keep its code, then encode its elements. -/
def tcSpan (e : ScaleEntry) (os : List OutElem) (st : TCtx × List OutBits) (n : Nat) : TCtx × List OutBits :=
  let c := st.1
  let mine := os.filter (fun o => elemIndex e o.na / spanLen e = n)
  let pos := spanPositions e n os
  let open_ := pos.filter (fun i => !isPriv c e (i % spanLen e))
  let vals := open_.map (lastValue e os)
  let whole := decide (pos.length = spanLen e)
  let old := tcByte c (e.cbase + n)
  let choice := chooseCode (codeBound c.tile e.kind) (integerKind e.kind) vals
  let special := vals.any (fun v => !isFinNum v)
  let code := if whole then choice.1 else if special then 0xFF else old
  let sat := whole && choice.2
  let c := tcPutByte c (e.cbase + n) code
  let c := if whole then tcBump c .scale 1 1 else c
  let c := if sat then tcBump (tcEvent c 0x1003) .scale 2 1 else c
  let ff := (whole && decide (code = 0xFF)) || (!whole && special && decide (old ≠ 0xFF))
  let c := if ff then tcBump (tcEvent c 0x1006) .scale 3 1 else c
  let c := if (sat || ff) && e.een then tcEncore c e.ecls 0 0 else c
  mine.foldl (tcCodedElem e code) (c, st.2)

/-- One element of an uncoded write: G16 outside the scale map takes code 0x7F (R150); all else converts by R115. -/
def tcPlainElem (fmt : Nat) (mode : RMode) (satF : Bool) (st : TCtx × List OutBits) (o : OutElem) : TCtx × List OutBits :=
  let c := st.1
  if fmt = 0xA then
    let r := convG16 0x7F o.x
    (tcWatch (tcConv (tcOutside c 1) r) o.na r.ovf r.nonfin, st.2 ++ [⟨o.na, 4, r.bits⟩])
  else
    let r := convTo fmt mode satF o.snan o.x
    (tcWatch (tcConv c r) o.na r.ovf r.nonfin, st.2 ++ [⟨o.na, fmtNibbles fmt, r.bits⟩])

/-- The coded entry that governs a result of format `fmt` at byte address `a`: KIND 0xA for G16 (R150), KIND 0x6-0x9
for INT8 (R153). -/
def resultEntry (t : Tile) (fmt a : Nat) : Option ScaleEntry :=
  if fmt = 0xA then codedEntryAt t [0xA] a
  else if fmt = 2 then codedEntryAt t [6, 7, 8, 9] a
  else none

/-- Element size in half bytes of a result row of format `fmt` at byte address `a` (R153). -/
def resultNibs (t : Tile) (fmt a : Nat) : Nat :=
  match resultEntry t fmt a with
  | some e => fmtNibbles e.kind
  | none => fmtNibbles fmt

/-- Encode every element an instruction writes: spans of each coded entry first, in ascending order, then the rest. -/
def tcEncodeAll (c : TCtx) (fmt : Nat) (mode : RMode) (satF : Bool) (os : List OutElem) : TCtx × List OutBits :=
  let kinds := if fmt = 0xA then [0xA] else if fmt = 2 then [6, 7, 8, 9] else []
  let es := (scaleEntries c.tile).filter (fun e => isCoded e && kinds.contains e.kind)
  let coded := es.foldl (fun (st : TCtx × List OutBits) e =>
    let mine := os.filter (fun o => inEntry e (localAddr (o.na / 2)))
    let spans := ((mine.map (fun o => elemIndex e o.na / spanLen e)).dedup)
    spans.foldl (tcSpan e mine) st) (c, [])
  let rest := os.filter (fun o => !(es.any (fun e => inEntry e (localAddr (o.na / 2)))))
  rest.foldl (tcPlainElem fmt mode satF) coded

/-- Write encoded elements. -/
def tcPutBits (c : TCtx) (bs : List OutBits) : TCtx := bs.foldl (fun c b => tcWriteNib c b.na b.nibs b.bits) c

/-- SAT of the mode word (R111). -/
def satFlag (t : Tile) : Bool := t.mode.getLsbD 19

/-- RDIR of the mode word (R111). -/
def rdirOf (t : Tile) : RMode := rmodeOf (bitField t.mode.toNat 18 16)

/-- Add a signed amount to a pointer, modulo 2^21 (R73). -/
def ptrAdd (t : Tile) (p : Fin 16) (d : Int) : Tile :=
  { t with ptr := t.ptr.set p (t.ptr[p] + BitVec.ofInt 21 d) }

/-- Add a signed amount of 64-byte units to ADDR of an extended register, modulo 2^44 (R73). -/
def xregAdd (t : Tile) (x : Fin 8) (d : Int) : Tile :=
  let v := t.xreg[x]
  let a := (v.extractLsb' 0 44) + BitVec.ofInt 44 (64 * d)
  { t with xreg := t.xreg.set x (v.extractLsb' 44 20 ++ a) }

end Sys2Proof.Machine
end

