-- ==== Sys2Proof/Machine/Crc.lean ====
section
/-!
DEFINITION. CRC-32C (R297, R280, R310, R449) in its usual bit-reflected form with all-ones start and final inversion,
and the bit layouts of messages and flits it covers.
-/

namespace Sys2Proof.Machine

/-- One bit of the reflected division by 0x1EDC6F41. -/
def crcBit (c : BitVec 32) : BitVec 32 := if c.getLsbD 0 then (c >>> 1) ^^^ 0x82F63B78 else c >>> 1

/-- One byte. -/
def crcByte (c : BitVec 32) (b : Byte) : BitVec 32 :=
  let c := c ^^^ b.setWidth 32
  crcBit (crcBit (crcBit (crcBit (crcBit (crcBit (crcBit (crcBit c)))))))

/-- CRC-32C of a list of bytes. -/
def crc32c (bs : List Byte) : BitVec 32 := ~~~ (bs.foldl crcByte 0xFFFFFFFF)

/-- A value placed at bit `lo` of a word. -/
def atBit (lo : Nat) (v : Nat) : Nat := v * 2 ^ lo

/-- LEN of a message (R310). -/
def msgLen (m : Msg) : Nat := m.data.length / 64

/-- The header slot of a message as a number, with the fields that change en route and the check taken as given. -/
def msgHeader (m : Msg) (rmode hops ecrc : Nat) : Nat :=
  atBit 508 m.type.toNat + atBit 484 m.dst.toNat + atBit 460 m.src.toNat + atBit 448 m.stag.toNat
  + atBit 416 m.eseq.toNat + atBit 408 m.repoch.toNat + atBit 405 rmode + atBit 399 hops + atBit 392 (msgLen m)
  + atBit 391 (boolNat m.dte) + atBit 385 m.dtk.val + atBit 341 m.addr.toNat + atBit 85 m.body.toNat + ecrc

/-- ECRC of a message: HOPS, RMODE and ECRC taken as zero (R310). -/
def msgEcrc (m : Msg) : BitVec 32 := crc32c (leBytes 64 (msgHeader m 0 0 0) ++ m.data)

/-- A message with its ECRC filled in. -/
def msgSeal (m : Msg) : Msg := { m with ecrc := msgEcrc m }

/-- Does the ECRC hold (R313)? -/
def msgIntact (m : Msg) : Bool := decide (m.ecrc = msgEcrc m)

/-- The message as slots of a channel: a header slot and its data slots (R297, R310). -/
def msgSlots (m : Msg) (vc : Nat) : List Slot :=
  let h : Slot := { kind := 1, vc := BitVec.ofNat 3 vc, data := leBytes 64 (msgHeader m m.rmode.toNat m.hops.toNat m.ecrc.toNat) }
  h :: (chunksOf 64 m.data).map (fun d => { kind := 2, vc := BitVec.ofNat 3 vc, data := d })

/-- The message a header slot and the data slots after it spell (R310). -/
def slotMsg (h : List Byte) (data : List Byte) : Msg :=
  let n := leNat h
  { type := BitVec.ofNat 4 (bitField n 511 508), dst := BitVec.ofNat 24 (bitField n 507 484),
    src := BitVec.ofNat 24 (bitField n 483 460), stag := BitVec.ofNat 12 (bitField n 459 448),
    eseq := BitVec.ofNat 32 (bitField n 447 416), repoch := BitVec.ofNat 8 (bitField n 415 408),
    rmode := BitVec.ofNat 3 (bitField n 407 405), hops := BitVec.ofNat 6 (bitField n 404 399),
    dte := bitAt n 391, dtk := Fin.ofNat 64 (bitField n 390 385), addr := BitVec.ofNat 44 (bitField n 384 341),
    body := BitVec.ofNat 256 (bitField n 340 85), data := data, ecrc := BitVec.ofNat 32 (bitField n 31 0) }

/-- LEN of a header slot. -/
def headerLen (h : List Byte) : Nat := bitField (leNat h) 398 392

/-- Per-slot fields of a control slot, slot 1 lowest. -/
def slotFields (w : Nat) : List Nat → Nat
  | [] => 0
  | v :: vs => v + 2 ^ w * slotFields w vs

/-- The control slot of a Tightrope flit (R280). -/
def tropeControl (f : Flit) (crc : Nat) : Nat :=
  atBit 500 f.seq.toNat + atBit 488 f.ack.toNat + atBit 487 (boolNat f.ackv) + atBit 486 (boolNat f.nak)
  + atBit 485 (boolNat f.test) + atBit 476 (nth f.credits 0) + atBit 467 (nth f.credits 1)
  + atBit 437 (slotFields 2 (f.slots.map (fun s => s.kind.toNat)))
  + atBit 422 (slotFields 1 (f.slots.map (fun s => s.vc.toNat % 2))) + crc

/-- The control slot of a Midway flit (R297). -/
def midwayControl (f : Flit) (crc : Nat) : Nat :=
  atBit 500 f.seq.toNat + atBit 488 f.ack.toNat + atBit 487 (boolNat f.ackv) + atBit 486 (boolNat f.nak)
  + atBit 485 (boolNat f.test) + atBit 447 (slotFields 2 (f.slots.map (fun s => s.kind.toNat)))
  + atBit 390 (slotFields 3 (f.slots.map (fun s => s.vc.toNat))) + atBit 330 (slotFields 10 f.credits) + crc

/-- The bytes of the payload slots, each padded to 64. -/
def slotBytes (f : Flit) (n : Nat) : List Byte := (List.range n).flatMap (fun i => sliceBytes ((f.slots.getD i {}).data) 0 64)

/-- The CRC of a Tightrope flit: 16 slots (R280). -/
def tropeCrc (f : Flit) : BitVec 32 := crc32c (leBytes 64 (tropeControl f 0) ++ slotBytes f 15)

/-- The CRC of a Midway flit: 20 slots (R297). -/
def midwayCrc (f : Flit) : BitVec 32 := crc32c (leBytes 64 (midwayControl f 0) ++ slotBytes f 19)

end Sys2Proof.Machine
end

