-- ==== Sys2Proof/Machine/Dict.lean ====
section
/-!
DEFINITION. The object dictionary as a table (R12, R391-R396 and the entry tables of every chapter): each row gives an
index (for die 0 where the index is per die), a run of subindices, the type, the access class and the range a write
must lie in; and the values the spec gives at reset for the entries whose default is not 0.
-/

namespace Sys2Proof.Machine

/-- The types of R392; a BLOB with its stated size. -/
inductive EType where
  | bool | u (bytes : Nat) | i (bytes : Nat) | f32 | str | blob (bytes : Nat) | domain
deriving DecidableEq, Repr

/-- The access classes of R393. -/
inductive Access where
  | ro | rw | wo | rws | rwl
deriving DecidableEq, Repr

/-- A row of the dictionary: subindices `lo` to `hi` of an index, and the least and greatest value of a write. -/
structure DictRow where
  index : Nat
  lo : Nat
  hi : Nat
  typ : EType
  acc : Access
  least : Nat
  most : Nat
deriving DecidableEq, Repr

/-- Rows of the dictionary, part 0. -/
def dictRows0 : List DictRow :=
  [⟨0x1000, 0x01, 0x01, .str, .ro, 0, 0⟩, ⟨0x1000, 0x02, 0x02, .str, .ro, 0, 0⟩,
   ⟨0x1000, 0x03, 0x03, .str, .ro, 0, 0⟩, ⟨0x1000, 0x04, 0x04, .str, .ro, 0, 0⟩,
   ⟨0x1000, 0x05, 0x05, .u 4, .ro, 0, 0⟩, ⟨0x1000, 0x06, 0x06, .u 8, .ro, 0, 0⟩,
   ⟨0x1000, 0x07, 0x07, .u 1, .ro, 0, 0⟩, ⟨0x1000, 0x08, 0x08, .u 8, .ro, 0, 0⟩,
   ⟨0x1000, 0x09, 0x09, .u 2, .ro, 0, 0⟩, ⟨0x1001, 0x01, 0x01, .u 4, .wo, 0, 4294967295⟩,
   ⟨0x1001, 0x02, 0x02, .u 1, .ro, 0, 0⟩, ⟨0x1001, 0x03, 0x03, .u 2, .ro, 0, 0⟩,
   ⟨0x1001, 0x04, 0x04, .u 4, .ro, 0, 0⟩, ⟨0x1001, 0x05, 0x05, .u 4, .ro, 0, 0⟩,
   ⟨0x1001, 0x06, 0x06, .u 8, .rws, 0, 0xFFFFFFFFFFFFFFFF⟩, ⟨0x1001, 0x07, 0x07, .u 4, .ro, 0, 0⟩,
   ⟨0x1001, 0x08, 0x08, .u 8, .ro, 0, 0⟩, ⟨0x1010, 0x01, 0x01, .u 1, .ro, 0, 0⟩,
   ⟨0x1010, 0x02, 0x02, .u 1, .ro, 0, 0⟩, ⟨0x1010, 0x03, 0x03, .u 1, .ro, 0, 0⟩,
   ⟨0x1010, 0x04, 0x04, .u 1, .ro, 0, 0⟩, ⟨0x1010, 0x05, 0x05, .u 1, .ro, 0, 0⟩,
   ⟨0x1010, 0x06, 0x06, .bool, .ro, 0, 0⟩, ⟨0x1010, 0x07, 0x07, .u 1, .ro, 0, 0⟩]

/-- Rows of the dictionary, part 1. -/
def dictRows1 : List DictRow :=
  [⟨0x1020, 0x01, 0x01, .domain, .ro, 0, 0⟩, ⟨0x1020, 0x02, 0x02, .blob 32, .ro, 0, 0⟩,
   ⟨0x1020, 0x03, 0x03, .u 4, .ro, 0, 0⟩, ⟨0x1020, 0x04, 0x04, .bool, .ro, 0, 0⟩,
   ⟨0x1024, 0x01, 0x01, .u 2, .ro, 0, 0⟩, ⟨0x1024, 0x02, 0x02, .u 2, .ro, 0, 0⟩,
   ⟨0x1024, 0x03, 0x03, .u 1, .ro, 0, 0⟩, ⟨0x1030, 0x01, 0x04, .blob 18, .rw, 0, 0⟩,
   ⟨0x1030, 0x05, 0x05, .u 4, .ro, 0, 0⟩, ⟨0x1030, 0x06, 0x06, .u 2, .ro, 0, 0⟩,
   ⟨0x1030, 0x07, 0x07, .u 8, .ro, 0, 0⟩, ⟨0x1030, 0x08, 0x08, .u 8, .ro, 0, 0⟩,
   ⟨0x1030, 0x09, 0x09, .u 8, .ro, 0, 0⟩, ⟨0x1030, 0x0A, 0x0A, .u 8, .ro, 0, 0⟩,
   ⟨0x1030, 0x0B, 0x0B, .u 8, .ro, 0, 0⟩, ⟨0x1030, 0x0C, 0x0C, .u 8, .ro, 0, 0⟩,
   ⟨0x1040, 0x01, 0x01, .blob 97, .ro, 0, 0⟩, ⟨0x1040, 0x02, 0x02, .blob 60, .ro, 0, 0⟩,
   ⟨0x1040, 0x03, 0x03, .domain, .ro, 0, 0⟩, ⟨0x1040, 0x04, 0x04, .domain, .rwl, 0, 0⟩,
   ⟨0x1040, 0x05, 0x05, .domain, .rwl, 0, 0⟩, ⟨0x1040, 0x06, 0x06, .blob 32, .rw, 0, 0⟩,
   ⟨0x1040, 0x07, 0x07, .domain, .ro, 0, 0⟩, ⟨0x1040, 0x08, 0x08, .u 8, .ro, 0, 0⟩]

/-- Rows of the dictionary, part 2. -/
def dictRows2 : List DictRow :=
  [⟨0x1044, 0x01, 0x01, .domain, .wo, 0, 0⟩, ⟨0x1044, 0x02, 0x02, .u 1, .ro, 0, 0⟩,
   ⟨0x1044, 0x03, 0x03, .u 1, .ro, 0, 0⟩, ⟨0x1044, 0x04, 0x04, .u 1, .ro, 0, 0⟩,
   ⟨0x1044, 0x05, 0x05, .u 4, .ro, 0, 0⟩, ⟨0x1044, 0x06, 0x06, .u 4, .ro, 0, 0⟩,
   ⟨0x1044, 0x07, 0x07, .u 4, .ro, 0, 0⟩, ⟨0x1044, 0x08, 0x08, .u 1, .ro, 0, 0⟩,
   ⟨0x1048, 0x01, 0x01, .u 2, .ro, 0, 0⟩, ⟨0x1048, 0x02, 0x02, .bool, .ro, 0, 0⟩,
   ⟨0x1048, 0x03, 0x03, .u 2, .ro, 0, 0⟩, ⟨0x1048, 0x04, 0x04, .u 4, .ro, 0, 0⟩,
   ⟨0x1048, 0x05, 0x05, .u 4, .ro, 0, 0⟩, ⟨0x2000, 0x01, 0x01, .u 2, .rw, 500, 2800⟩,
   ⟨0x2000, 0x02, 0x02, .u 2, .ro, 0, 0⟩, ⟨0x2000, 0x03, 0x03, .u 2, .ro, 0, 0⟩,
   ⟨0x2000, 0x04, 0x04, .u 2, .ro, 0, 0⟩, ⟨0x2000, 0x05, 0x05, .u 1, .ro, 0, 0⟩,
   ⟨0x2000, 0x06, 0x06, .u 1, .rws, 70, 95⟩, ⟨0x2000, 0x07, 0x07, .bool, .rw, 0, 1⟩,
   ⟨0x2000, 0x08, 0x08, .u 1, .ro, 0, 0⟩, ⟨0x2004, 0x01, 0x04, .u 2, .ro, 0, 0⟩,
   ⟨0x2004, 0x05, 0x08, .u 2, .ro, 0, 0⟩, ⟨0x2004, 0x09, 0x0C, .u 2, .ro, 0, 0⟩]

/-- Rows of the dictionary, part 3. -/
def dictRows3 : List DictRow :=
  [⟨0x2004, 0x0D, 0x0D, .u 8, .ro, 0, 0⟩, ⟨0x2008, 0x01, 0x01, .u 2, .ro, 0, 0⟩,
   ⟨0x2008, 0x02, 0x03, .u 2, .ro, 0, 0⟩, ⟨0x2008, 0x04, 0x07, .i 2, .ro, 0, 0⟩,
   ⟨0x2008, 0x08, 0x09, .u 2, .rws, 1, 60000⟩, ⟨0x2008, 0x0A, 0x0A, .blob 32, .rws, 0, 0⟩,
   ⟨0x2008, 0x0B, 0x0B, .u 1, .rws, 3, 30⟩, ⟨0x2008, 0x0C, 0x0C, .u 1, .rws, 50, 90⟩,
   ⟨0x2008, 0x0D, 0x0D, .u 2, .rws, 0, 60000⟩, ⟨0x2008, 0x0E, 0x0E, .u 2, .rws, 0, 1000⟩,
   ⟨0x2008, 0x0F, 0x0F, .u 2, .rws, 0, 65535⟩, ⟨0x2008, 0x10, 0x10, .u 1, .rws, 20, 60⟩,
   ⟨0x2008, 0x11, 0x11, .u 2, .rws, 0, 3600⟩, ⟨0x3000, 0x01, 0x01, .u 1, .rws, 1, 64⟩,
   ⟨0x3000, 0x02, 0x02, .bool, .rws, 0, 1⟩, ⟨0x3000, 0x03, 0x03, .u 2, .rws, 0, 512⟩,
   ⟨0x3000, 0x04, 0x04, .u 1, .rws, 0, 32⟩, ⟨0x3000, 0x05, 0x05, .u 2, .rws, 1, 168⟩,
   ⟨0x3000, 0x06, 0x06, .u 4, .rws, 0, 4294967295⟩, ⟨0x3000, 0x07, 0x07, .u 8, .ro, 0, 0⟩,
   ⟨0x3004, 0x01, 0x01, .u 1, .rw, 0, 15⟩, ⟨0x3004, 0x02, 0x02, .u 8, .ro, 0, 0⟩,
   ⟨0x3004, 0x03, 0x03, .u 4, .ro, 0, 0⟩, ⟨0x3004, 0x04, 0x04, .u 2, .ro, 0, 0⟩]

/-- Rows of the dictionary, part 4. -/
def dictRows4 : List DictRow :=
  [⟨0x3400, 0x01, 0x01, .bool, .rws, 0, 1⟩, ⟨0x3400, 0x02, 0x02, .u 2, .rws, 100, 65535⟩,
   ⟨0x3400, 0x03, 0x03, .u 4, .rws, 0, 4294967295⟩, ⟨0x3400, 0x04, 0x04, .u 4, .rws, 0, 4294967295⟩,
   ⟨0x3400, 0x05, 0x05, .u 2, .rws, 0, 4096⟩, ⟨0x3400, 0x06, 0x06, .u 2, .ro, 0, 0⟩,
   ⟨0x3400, 0x07, 0x07, .u 4, .ro, 0, 0⟩, ⟨0x3400, 0x08, 0x08, .u 4, .ro, 0, 0⟩,
   ⟨0x3400, 0x09, 0x09, .u 4, .ro, 0, 0⟩, ⟨0x3400, 0x0A, 0x0A, .u 4, .ro, 0, 0⟩,
   ⟨0x3408, 0x01, 0x01, .u 8, .ro, 0, 0⟩, ⟨0x3408, 0x02, 0x02, .u 8, .ro, 0, 0⟩,
   ⟨0x3408, 0x03, 0x03, .u 4, .ro, 0, 0⟩, ⟨0x3408, 0x04, 0x04, .u 4, .ro, 0, 0⟩,
   ⟨0x3408, 0x05, 0x05, .u 8, .ro, 0, 0⟩, ⟨0x3408, 0x06, 0x06, .u 2, .ro, 0, 0⟩,
   ⟨0x3480, 0x01, 0x01, .u 8, .ro, 0, 0⟩, ⟨0x3480, 0x02, 0x02, .u 8, .rw, 0, 0xFFFFFFFFFFFFFFFF⟩,
   ⟨0x3480, 0x03, 0x03, .u 8, .rw, 0, 0xFFFFFFFFFFFFFFFF⟩, ⟨0x3480, 0x04, 0x04, .u 8, .ro, 0, 0⟩,
   ⟨0x4000, 0x01, 0x01, .u 1, .ro, 0, 0⟩, ⟨0x4000, 0x02, 0x02, .u 1, .ro, 0, 0⟩,
   ⟨0x4000, 0x03, 0x03, .u 1, .ro, 0, 0⟩, ⟨0x4000, 0x04, 0x04, .u 1, .ro, 0, 0⟩]

/-- Rows of the dictionary, part 5. -/
def dictRows5 : List DictRow :=
  [⟨0x4000, 0x05, 0x05, .u 2, .ro, 0, 0⟩, ⟨0x4000, 0x06, 0x06, .u 1, .ro, 0, 0⟩,
   ⟨0x4000, 0x07, 0x07, .u 2, .ro, 0, 0⟩, ⟨0x4000, 0x08, 0x08, .u 2, .ro, 0, 0⟩,
   ⟨0x4000, 0x09, 0x09, .u 1, .ro, 0, 0⟩, ⟨0x4000, 0x0A, 0x0A, .u 4, .rws, 20, 100000⟩,
   ⟨0x4000, 0x0B, 0x0B, .u 1, .rws, 1, 32⟩, ⟨0x4000, 0x0C, 0x0C, .u 1, .rw, 0, 30⟩,
   ⟨0x4000, 0x0D, 0x0D, .u 4, .rws, 0, 4294967295⟩, ⟨0x4000, 0x0E, 0x0E, .u 1, .wo, 0, 15⟩,
   ⟨0x4000, 0x0F, 0x0F, .u 2, .rw, 0, 4095⟩, ⟨0x4000, 0x10, 0x10, .u 8, .ro, 0, 0⟩,
   ⟨0x4000, 0x11, 0x11, .blob 128, .ro, 0, 0⟩, ⟨0x4400, 0x01, 0x01, .blob 16, .rws, 0, 0⟩,
   ⟨0x4400, 0x02, 0x02, .u 1, .rws, 0, 7⟩, ⟨0x4400, 0x03, 0x03, .u 1, .rws, 0, 255⟩,
   ⟨0x4400, 0x04, 0x04, .u 4, .rws, 1, 60000⟩, ⟨0x4400, 0x05, 0x05, .bool, .rws, 0, 1⟩,
   ⟨0x4400, 0x06, 0x06, .u 2, .rws, 1024, 4096⟩, ⟨0x4404, 0x01, 0x01, .u 1, .rw, 0, 7⟩,
   ⟨0x4404, 0x02, 0x02, .u 1, .ro, 0, 0⟩, ⟨0x4404, 0x03, 0x03, .domain, .rws, 0, 0⟩,
   ⟨0x4404, 0x04, 0x04, .u 8, .ro, 0, 0⟩, ⟨0x4404, 0x05, 0x05, .u 8, .ro, 0, 0⟩]

/-- Rows of the dictionary, part 6. -/
def dictRows6 : List DictRow :=
  [⟨0x4404, 0x06, 0x06, .u 8, .ro, 0, 0⟩, ⟨0x4404, 0x07, 0x07, .u 8, .ro, 0, 0⟩,
   ⟨0x4404, 0x08, 0x08, .u 8, .ro, 0, 0⟩, ⟨0x4404, 0x09, 0x09, .u 8, .ro, 0, 0⟩,
   ⟨0x4408, 0x01, 0x01, .u 8, .ro, 0, 0⟩, ⟨0x4408, 0x02, 0x02, .u 4, .ro, 0, 0⟩,
   ⟨0x4408, 0x03, 0x03, .u 4, .ro, 0, 0⟩, ⟨0x4408, 0x04, 0x04, .u 4, .ro, 0, 0⟩,
   ⟨0x4408, 0x05, 0x05, .u 4, .ro, 0, 0⟩, ⟨0x4408, 0x06, 0x06, .u 8, .rws, 0, 0xFFFFFFFFFFFFFFFF⟩,
   ⟨0x4408, 0x07, 0x07, .u 4, .rws, 64, 65536⟩, ⟨0x4408, 0x08, 0x08, .u 4, .rws, 0, 4294967295⟩,
   ⟨0x4408, 0x09, 0x09, .u 8, .ro, 0, 0⟩, ⟨0x4408, 0x0A, 0x0A, .u 8, .ro, 0, 0⟩,
   ⟨0x4408, 0x0B, 0x0B, .u 8, .ro, 0, 0⟩, ⟨0x4408, 0x0C, 0x0C, .u 1, .rw, 0, 47⟩,
   ⟨0x4408, 0x0D, 0x0D, .u 8, .ro, 0, 0⟩, ⟨0x4408, 0x0E, 0x0E, .u 4, .ro, 0, 0⟩,
   ⟨0x440C, 0x01, 0x01, .u 8, .ro, 0, 0⟩, ⟨0x440C, 0x02, 0x02, .u 1, .rws, 0, 127⟩,
   ⟨0x440C, 0x03, 0x03, .u 1, .ro, 0, 0⟩, ⟨0x440C, 0x04, 0x04, .i 4, .ro, 0, 0⟩,
   ⟨0x5000, 0x01, 0x01, .u 8, .ro, 0, 0⟩, ⟨0x5000, 0x02, 0x02, .u 1, .ro, 0, 0⟩]

/-- Rows of the dictionary, part 7. -/
def dictRows7 : List DictRow :=
  [⟨0x5000, 0x03, 0x03, .u 8, .ro, 0, 0⟩, ⟨0x5000, 0x04, 0x04, .u 8, .ro, 0, 0⟩,
   ⟨0x5000, 0x05, 0x05, .u 8, .ro, 0, 0⟩, ⟨0x5000, 0x06, 0x06, .u 1, .ro, 0, 0⟩,
   ⟨0x5000, 0x07, 0x07, .u 4, .ro, 0, 0⟩, ⟨0x5000, 0x08, 0x08, .u 4, .rws, 0, 3600000⟩,
   ⟨0x5000, 0x09, 0x09, .u 4, .ro, 0, 0⟩, ⟨0x5000, 0x0A, 0x0A, .u 4, .rws, 10, 1000000⟩,
   ⟨0x5004, 0x01, 0x01, .u 1, .rws, 0, 2⟩, ⟨0x5004, 0x02, 0x02, .u 1, .rws, 1, 2⟩,
   ⟨0x5004, 0x03, 0x03, .u 1, .rws, 0, 31⟩, ⟨0x5004, 0x04, 0x04, .u 2, .rws, 1, 1000⟩,
   ⟨0x5004, 0x05, 0x05, .u 1, .rws, 0, 2⟩, ⟨0x5004, 0x06, 0x06, .u 8, .ro, 0, 0⟩,
   ⟨0x5004, 0x07, 0x07, .blob 32, .ro, 0, 0⟩, ⟨0x5004, 0x08, 0x08, .u 2, .ro, 0, 0⟩,
   ⟨0x5008, 0x01, 0x01, .bool, .rws, 0, 1⟩, ⟨0x5008, 0x02, 0x02, .f32, .rws, 0x3E000000, 0x41000000⟩,
   ⟨0x5008, 0x03, 0x03, .u 2, .rws, 200, 65535⟩, ⟨0x5008, 0x04, 0x04, .u 1, .rws, 1, 12⟩,
   ⟨0x5008, 0x05, 0x05, .u 4, .ro, 0, 0⟩, ⟨0x5008, 0x06, 0x06, .u 1, .ro, 0, 0⟩,
   ⟨0x5008, 0x07, 0x07, .f32, .ro, 0, 0⟩, ⟨0x5008, 0x08, 0x08, .u 4, .ro, 0, 0⟩]

/-- Rows of the dictionary, part 8. -/
def dictRows8 : List DictRow :=
  [⟨0x5010, 0x01, 0x01, .bool, .rws, 0, 1⟩, ⟨0x5010, 0x02, 0x02, .u 2, .rws, 0, 1000⟩,
   ⟨0x5010, 0x03, 0x03, .u 1, .ro, 0, 0⟩, ⟨0x5010, 0x04, 0x04, .u 8, .ro, 0, 0⟩,
   ⟨0x5010, 0x05, 0x05, .u 4, .ro, 0, 0⟩, ⟨0x5010, 0x06, 0x06, .blob 32, .ro, 0, 0⟩,
   ⟨0x5018, 0x01, 0x01, .u 2, .wo, 0, 65535⟩, ⟨0x5018, 0x02, 0x02, .u 1, .rws, 1, 15⟩,
   ⟨0x5018, 0x03, 0x03, .u 1, .ro, 0, 0⟩, ⟨0x5018, 0x04, 0x04, .u 2, .ro, 0, 0⟩,
   ⟨0x5018, 0x05, 0x05, .u 1, .ro, 0, 0⟩, ⟨0x5018, 0x06, 0x06, .u 4, .ro, 0, 0⟩,
   ⟨0x5018, 0x07, 0x07, .u 4, .ro, 0, 0⟩, ⟨0x5020, 0x01, 0x01, .bool, .ro, 0, 0⟩,
   ⟨0x5020, 0x02, 0x02, .bool, .rws, 0, 1⟩, ⟨0x5020, 0x03, 0x03, .u 4, .rws, 0, 100000⟩,
   ⟨0x5020, 0x04, 0x04, .u 2, .rws, 0, 65535⟩, ⟨0x5020, 0x05, 0x05, .u 8, .ro, 0, 0⟩,
   ⟨0x5020, 0x06, 0x06, .u 8, .ro, 0, 0⟩, ⟨0x5020, 0x07, 0x07, .u 4, .ro, 0, 0⟩,
   ⟨0x5020, 0x08, 0x08, .u 4, .ro, 0, 0⟩, ⟨0x5020, 0x09, 0x09, .u 8, .ro, 0, 0⟩,
   ⟨0x5024, 0x01, 0x01, .u 8, .rws, 0, 0xFFFFFFFFFFFFFFFF⟩, ⟨0x5024, 0x02, 0x02, .bool, .wo, 0, 1⟩]

/-- Rows of the dictionary, part 9. -/
def dictRows9 : List DictRow :=
  [⟨0x5024, 0x03, 0x03, .u 1, .ro, 0, 0⟩, ⟨0x5024, 0x04, 0x04, .u 8, .ro, 0, 0⟩,
   ⟨0x6000, 0x01, 0x01, .u 2, .rws, 1, 1000⟩, ⟨0x6000, 0x02, 0x02, .u 4, .ro, 0, 0⟩,
   ⟨0x6000, 0x03, 0x03, .u 8, .ro, 0, 0⟩, ⟨0x6000, 0x04, 0x04, .u 1, .ro, 0, 0⟩,
   ⟨0x6000, 0x05, 0x05, .u 8, .ro, 0, 0⟩, ⟨0x6000, 0x06, 0x06, .u 4, .ro, 0, 0⟩,
   ⟨0x6000, 0x07, 0x07, .u 4, .ro, 0, 0⟩, ⟨0x6000, 0x08, 0x08, .u 4, .ro, 0, 0⟩,
   ⟨0x6000, 0x09, 0x09, .u 4, .ro, 0, 0⟩, ⟨0x6000, 0x0A, 0x0A, .bool, .ro, 0, 0⟩,
   ⟨0x6000, 0x0B, 0x0B, .u 8, .ro, 0, 0⟩, ⟨0x6004, 0x01, 0x04, .blob 64, .rws, 0, 0⟩,
   ⟨0x6004, 0x05, 0x05, .u 4, .rws, 1, 1000000⟩, ⟨0x6004, 0x06, 0x06, .u 2, .rws, 1, 1000⟩,
   ⟨0x6004, 0x07, 0x07, .u 8, .ro, 0, 0⟩, ⟨0x6004, 0x08, 0x08, .u 8, .ro, 0, 0⟩,
   ⟨0x6004, 0x09, 0x09, .u 8, .ro, 0, 0⟩, ⟨0x6004, 0x0A, 0x0A, .u 8, .ro, 0, 0⟩,
   ⟨0x6008, 0x01, 0x01, .u 2, .ro, 0, 0⟩, ⟨0x6008, 0x02, 0x02, .u 1, .ro, 0, 0⟩,
   ⟨0x6008, 0x03, 0x03, .u 8, .ro, 0, 0⟩, ⟨0x6008, 0x04, 0x04, .u 4, .ro, 0, 0⟩]

/-- Rows of the dictionary, part 10. -/
def dictRows10 : List DictRow :=
  [⟨0x6008, 0x05, 0x05, .u 4, .ro, 0, 0⟩, ⟨0x6008, 0x06, 0x06, .blob 64, .ro, 0, 0⟩,
   ⟨0x7000, 0x01, 0x01, .u 1, .rw, 0, 2⟩, ⟨0x7000, 0x02, 0x02, .u 1, .ro, 0, 0⟩,
   ⟨0x7010, 0x01, 0x01, .bool, .rws, 0, 1⟩, ⟨0x7010, 0x02, 0x02, .u 2, .rws, 1, 10000⟩,
   ⟨0x7010, 0x03, 0x03, .u 4, .rws, 1000, 1000000⟩, ⟨0x7010, 0x04, 0x04, .u 4, .ro, 0, 0⟩,
   ⟨0x7010, 0x05, 0x05, .u 2, .ro, 0, 0⟩, ⟨0x7010, 0x06, 0x06, .u 8, .ro, 0, 0⟩,
   ⟨0x7010, 0x07, 0x07, .u 8, .ro, 0, 0⟩, ⟨0x7010, 0x08, 0x08, .u 8, .ro, 0, 0⟩,
   ⟨0x7010, 0x09, 0x09, .u 2, .ro, 0, 0⟩, ⟨0x7010, 0x0A, 0x0A, .u 1, .wo, 0, 15⟩,
   ⟨0x7010, 0x0B, 0x0B, .u 1, .ro, 0, 0⟩, ⟨0x7010, 0x0C, 0x0C, .u 8, .ro, 0, 0⟩,
   ⟨0x7014, 0x01, 0x01, .u 2, .rws, 1, 720⟩, ⟨0x7014, 0x02, 0x02, .u 1, .rws, 2, 16⟩,
   ⟨0x7014, 0x03, 0x03, .u 4, .rws, 0, 4294967295⟩, ⟨0x7014, 0x04, 0x04, .u 4, .ro, 0, 0⟩,
   ⟨0x7014, 0x05, 0x05, .u 4, .ro, 0, 0⟩, ⟨0x7014, 0x06, 0x06, .u 4, .ro, 0, 0⟩,
   ⟨0x7014, 0x07, 0x07, .blob 64, .ro, 0, 0⟩, ⟨0x7020, 0x01, 0x01, .u 8, .ro, 0, 0⟩]

/-- Rows of the dictionary, part 11. -/
def dictRows11 : List DictRow :=
  [⟨0x7020, 0x02, 0x02, .u 8, .ro, 0, 0⟩, ⟨0x7020, 0x03, 0x03, .u 8, .rw, 0, 0xFFFFFFFFFFFFFFFF⟩,
   ⟨0x7020, 0x04, 0x04, .blob 1024, .ro, 0, 0⟩, ⟨0x7020, 0x05, 0x05, .u 4, .ro, 0, 0⟩,
   ⟨0x7020, 0x06, 0x06, .u 4, .ro, 0, 0⟩, ⟨0x7020, 0x07, 0x07, .u 4, .ro, 0, 0⟩,
   ⟨0x7020, 0x08, 0x08, .u 8, .ro, 0, 0⟩, ⟨0x8020, 0x01, 0x01, .u 4, .ro, 0, 0⟩,
   ⟨0x8020, 0x02, 0x02, .u 2, .rw, 0, 767⟩, ⟨0x8020, 0x03, 0x03, .u 8, .ro, 0, 0⟩,
   ⟨0x8020, 0x04, 0x04, .u 8, .ro, 0, 0⟩, ⟨0x8020, 0x05, 0x05, .u 8, .ro, 0, 0⟩,
   ⟨0x8020, 0x06, 0x06, .u 8, .ro, 0, 0⟩, ⟨0x8020, 0x07, 0x07, .u 8, .ro, 0, 0⟩,
   ⟨0x8020, 0x08, 0x08, .u 4, .ro, 0, 0⟩, ⟨0x8020, 0x09, 0x09, .u 4, .ro, 0, 0⟩,
   ⟨0x8020, 0x0A, 0x0A, .bool, .wo, 0, 1⟩, ⟨0x8024, 0x01, 0x28, .i 2, .ro, 0, 0⟩,
   ⟨0x8040, 0x01, 0x01, .u 2, .ro, 0, 0⟩, ⟨0x8040, 0x02, 0x02, .u 2, .ro, 0, 0⟩,
   ⟨0x8040, 0x03, 0x03, .u 1, .rw, 0, 31⟩, ⟨0x8040, 0x04, 0x04, .u 1, .ro, 0, 0⟩,
   ⟨0x8040, 0x05, 0x05, .bool, .ro, 0, 0⟩, ⟨0x8040, 0x06, 0x06, .u 2, .wo, 0, 767⟩]

/-- Rows of the dictionary, part 12. -/
def dictRows12 : List DictRow :=
  [⟨0x8040, 0x07, 0x07, .u 8, .ro, 0, 0⟩, ⟨0x8040, 0x08, 0x08, .u 4, .ro, 0, 0⟩,
   ⟨0x8040, 0x09, 0x09, .bool, .ro, 0, 0⟩, ⟨0x8060, 0x01, 0x01, .u 8, .ro, 0, 0⟩,
   ⟨0x8060, 0x02, 0x02, .u 8, .ro, 0, 0⟩, ⟨0x8060, 0x03, 0x03, .u 8, .ro, 0, 0⟩,
   ⟨0x8060, 0x04, 0x04, .u 8, .ro, 0, 0⟩, ⟨0x8060, 0x05, 0x05, .u 2, .ro, 0, 0⟩,
   ⟨0x8060, 0x06, 0x06, .u 8, .ro, 0, 0⟩, ⟨0x8060, 0x07, 0x07, .u 4, .ro, 0, 0⟩,
   ⟨0x8060, 0x08, 0x08, .u 4, .ro, 0, 0⟩, ⟨0x8060, 0x09, 0x09, .u 2, .ro, 0, 0⟩,
   ⟨0x8060, 0x0A, 0x0A, .u 8, .ro, 0, 0⟩, ⟨0x8060, 0x0B, 0x0B, .u 1, .rw, 0, 63⟩,
   ⟨0x8060, 0x0C, 0x0C, .u 2, .ro, 0, 0⟩, ⟨0x8080, 0x01, 0x01, .u 8, .ro, 0, 0⟩,
   ⟨0x8080, 0x02, 0x02, .u 8, .ro, 0, 0⟩, ⟨0x8080, 0x03, 0x03, .u 8, .ro, 0, 0⟩,
   ⟨0x8080, 0x04, 0x04, .u 8, .ro, 0, 0⟩, ⟨0x8080, 0x05, 0x05, .u 8, .ro, 0, 0⟩,
   ⟨0x8080, 0x06, 0x06, .u 8, .ro, 0, 0⟩, ⟨0x8080, 0x07, 0x07, .u 1, .ro, 0, 0⟩,
   ⟨0x80A0, 0x01, 0x01, .u 8, .ro, 0, 0⟩, ⟨0x80A0, 0x02, 0x02, .u 8, .ro, 0, 0⟩]

/-- Rows of the dictionary, part 13. -/
def dictRows13 : List DictRow :=
  [⟨0x80A0, 0x03, 0x03, .u 8, .ro, 0, 0⟩, ⟨0x80A0, 0x04, 0x04, .u 8, .ro, 0, 0⟩,
   ⟨0x80A0, 0x05, 0x05, .u 8, .ro, 0, 0⟩, ⟨0x80A0, 0x06, 0x06, .u 8, .ro, 0, 0⟩,
   ⟨0x80A0, 0x07, 0x07, .u 8, .ro, 0, 0⟩, ⟨0x80C0, 0x01, 0x01, .u 8, .ro, 0, 0⟩,
   ⟨0x80C0, 0x02, 0x02, .u 8, .ro, 0, 0⟩, ⟨0x80C0, 0x03, 0x03, .u 8, .ro, 0, 0⟩,
   ⟨0x80C0, 0x04, 0x04, .u 8, .ro, 0, 0⟩, ⟨0x80C0, 0x05, 0x05, .u 8, .ro, 0, 0⟩,
   ⟨0x80C0, 0x06, 0x06, .u 8, .ro, 0, 0⟩, ⟨0x80C0, 0x07, 0x07, .u 8, .ro, 0, 0⟩,
   ⟨0x80E0, 0x01, 0x01, .u 8, .ro, 0, 0⟩, ⟨0x80E0, 0x02, 0x02, .u 8, .ro, 0, 0⟩,
   ⟨0x80E0, 0x03, 0x03, .u 8, .ro, 0, 0⟩, ⟨0x80E0, 0x04, 0x04, .u 8, .ro, 0, 0⟩,
   ⟨0x80E0, 0x05, 0x05, .u 8, .ro, 0, 0⟩, ⟨0x80E0, 0x06, 0x06, .u 8, .ro, 0, 0⟩,
   ⟨0x80E0, 0x07, 0x07, .u 8, .ro, 0, 0⟩, ⟨0x8100, 0x01, 0x01, .u 8, .ro, 0, 0⟩,
   ⟨0x8100, 0x02, 0x02, .u 8, .ro, 0, 0⟩, ⟨0x8100, 0x03, 0x03, .u 8, .ro, 0, 0⟩,
   ⟨0x8100, 0x04, 0x04, .u 8, .ro, 0, 0⟩, ⟨0x8100, 0x05, 0x05, .u 8, .ro, 0, 0⟩]

/-- Rows of the dictionary, part 14. -/
def dictRows14 : List DictRow :=
  [⟨0x8100, 0x06, 0x06, .u 8, .ro, 0, 0⟩, ⟨0x8100, 0x07, 0x07, .u 8, .ro, 0, 0⟩,
   ⟨0x8100, 0x08, 0x08, .u 4, .ro, 0, 0⟩, ⟨0x8100, 0x09, 0x09, .u 1, .rw, 0, 255⟩,
   ⟨0x8100, 0x0A, 0x0A, .u 4, .ro, 0, 0⟩, ⟨0x8100, 0x0B, 0x0B, .u 8, .ro, 0, 0⟩,
   ⟨0x8120, 0x01, 0x01, .u 8, .ro, 0, 0⟩, ⟨0x8120, 0x02, 0x02, .u 8, .ro, 0, 0⟩,
   ⟨0x8120, 0x03, 0x03, .u 8, .ro, 0, 0⟩, ⟨0x8120, 0x04, 0x04, .u 8, .ro, 0, 0⟩,
   ⟨0x8120, 0x05, 0x05, .u 8, .ro, 0, 0⟩, ⟨0x8120, 0x06, 0x06, .u 8, .ro, 0, 0⟩,
   ⟨0x8120, 0x07, 0x07, .u 8, .ro, 0, 0⟩, ⟨0x8120, 0x08, 0x08, .u 8, .ro, 0, 0⟩,
   ⟨0x8120, 0x09, 0x09, .u 8, .ro, 0, 0⟩, ⟨0x8120, 0x0A, 0x0A, .u 8, .ro, 0, 0⟩,
   ⟨0x8120, 0x0B, 0x0B, .u 8, .ro, 0, 0⟩, ⟨0x8120, 0x0C, 0x0C, .u 8, .ro, 0, 0⟩,
   ⟨0x8120, 0x0D, 0x0D, .u 8, .ro, 0, 0⟩, ⟨0x8120, 0x0E, 0x0E, .u 8, .ro, 0, 0⟩,
   ⟨0x8140, 0x01, 0x01, .u 8, .ro, 0, 0⟩, ⟨0x8140, 0x02, 0x02, .u 8, .ro, 0, 0⟩,
   ⟨0x8140, 0x03, 0x03, .u 8, .ro, 0, 0⟩, ⟨0x8140, 0x04, 0x04, .u 8, .ro, 0, 0⟩]

/-- Rows of the dictionary, part 15. -/
def dictRows15 : List DictRow :=
  [⟨0x8140, 0x05, 0x05, .u 8, .ro, 0, 0⟩, ⟨0x8140, 0x06, 0x06, .u 8, .ro, 0, 0⟩,
   ⟨0x8140, 0x07, 0x07, .u 8, .ro, 0, 0⟩, ⟨0x8140, 0x08, 0x08, .u 8, .ro, 0, 0⟩,
   ⟨0x8140, 0x09, 0x09, .u 8, .ro, 0, 0⟩, ⟨0x8140, 0x0A, 0x0A, .u 8, .ro, 0, 0⟩,
   ⟨0x8140, 0x0B, 0x0B, .u 8, .ro, 0, 0⟩, ⟨0x8140, 0x0C, 0x0C, .u 8, .ro, 0, 0⟩,
   ⟨0x8140, 0x0D, 0x0D, .u 8, .ro, 0, 0⟩, ⟨0x8140, 0x0E, 0x0E, .u 8, .ro, 0, 0⟩,
   ⟨0x8140, 0x0F, 0x0F, .u 8, .ro, 0, 0⟩, ⟨0x8140, 0x10, 0x10, .u 8, .ro, 0, 0⟩,
   ⟨0x8140, 0x11, 0x11, .u 8, .ro, 0, 0⟩, ⟨0x8160, 0x01, 0x01, .u 1, .rw, 0, 3⟩,
   ⟨0x8160, 0x02, 0x02, .u 1, .ro, 0, 0⟩, ⟨0x8160, 0x03, 0x03, .u 8, .ro, 0, 0⟩,
   ⟨0x8160, 0x04, 0x04, .u 8, .ro, 0, 0⟩, ⟨0x8160, 0x05, 0x05, .u 8, .ro, 0, 0⟩,
   ⟨0x8160, 0x06, 0x06, .u 4, .ro, 0, 0⟩, ⟨0x8160, 0x07, 0x07, .u 4, .ro, 0, 0⟩,
   ⟨0x8160, 0x08, 0x08, .u 4, .ro, 0, 0⟩, ⟨0x8160, 0x09, 0x09, .bool, .wo, 0, 1⟩,
   ⟨0x8160, 0x0A, 0x0A, .u 8, .ro, 0, 0⟩, ⟨0x8180, 0x01, 0x01, .u 1, .rw, 0, 15⟩]

/-- Rows of the dictionary, part 16. -/
def dictRows16 : List DictRow :=
  [⟨0x8180, 0x02, 0x02, .u 1, .ro, 0, 0⟩, ⟨0x8180, 0x03, 0x03, .u 8, .ro, 0, 0⟩,
   ⟨0x8180, 0x04, 0x04, .u 8, .ro, 0, 0⟩, ⟨0x8180, 0x05, 0x05, .u 8, .ro, 0, 0⟩,
   ⟨0x8180, 0x06, 0x06, .u 8, .ro, 0, 0⟩, ⟨0x8180, 0x07, 0x07, .u 8, .ro, 0, 0⟩,
   ⟨0x8180, 0x08, 0x08, .u 8, .ro, 0, 0⟩, ⟨0x8180, 0x09, 0x09, .u 4, .ro, 0, 0⟩,
   ⟨0x8180, 0x0A, 0x0A, .u 8, .ro, 0, 0⟩, ⟨0x8180, 0x0B, 0x0B, .u 8, .ro, 0, 0⟩,
   ⟨0x8180, 0x0C, 0x0C, .u 8, .ro, 0, 0⟩, ⟨0x8180, 0x0D, 0x0D, .u 4, .ro, 0, 0⟩,
   ⟨0x8180, 0x0E, 0x0E, .u 8, .ro, 0, 0⟩, ⟨0x8180, 0x0F, 0x0F, .u 8, .ro, 0, 0⟩,
   ⟨0x8180, 0x10, 0x10, .u 8, .ro, 0, 0⟩, ⟨0x8180, 0x11, 0x11, .u 8, .ro, 0, 0⟩,
   ⟨0x8180, 0x12, 0x12, .u 8, .ro, 0, 0⟩, ⟨0x8180, 0x13, 0x13, .u 8, .ro, 0, 0⟩,
   ⟨0x8180, 0x14, 0x14, .u 8, .ro, 0, 0⟩, ⟨0x8180, 0x15, 0x15, .u 4, .ro, 0, 0⟩,
   ⟨0x8180, 0x16, 0x16, .domain, .ro, 0, 0⟩, ⟨0x81A0, 0x01, 0x01, .u 8, .ro, 0, 0⟩,
   ⟨0x81A0, 0x02, 0x02, .u 4, .ro, 0, 0⟩, ⟨0x81A0, 0x03, 0x03, .u 4, .ro, 0, 0⟩]

/-- Rows of the dictionary, part 17. -/
def dictRows17 : List DictRow :=
  [⟨0x81A0, 0x04, 0x04, .u 8, .ro, 0, 0⟩, ⟨0x81A0, 0x05, 0x05, .u 8, .ro, 0, 0⟩,
   ⟨0x81A0, 0x06, 0x06, .u 8, .ro, 0, 0⟩, ⟨0x81A0, 0x07, 0x07, .u 8, .ro, 0, 0⟩,
   ⟨0x81A0, 0x08, 0x08, .u 4, .ro, 0, 0⟩, ⟨0x81A0, 0x09, 0x09, .u 8, .ro, 0, 0⟩,
   ⟨0x81A0, 0x0A, 0x0A, .u 8, .ro, 0, 0⟩, ⟨0x81A0, 0x0B, 0x0B, .u 8, .ro, 0, 0⟩,
   ⟨0x81C0, 0x01, 0x01, .u 1, .ro, 0, 0⟩, ⟨0x81C0, 0x02, 0x02, .u 2, .ro, 0, 0⟩,
   ⟨0x81C0, 0x03, 0x03, .u 2, .ro, 0, 0⟩, ⟨0x81C0, 0x04, 0x04, .u 2, .ro, 0, 0⟩,
   ⟨0x81C0, 0x05, 0x05, .u 2, .ro, 0, 0⟩, ⟨0x81C0, 0x06, 0x06, .u 8, .ro, 0, 0⟩,
   ⟨0x81C0, 0x07, 0x07, .u 8, .ro, 0, 0⟩, ⟨0x81C0, 0x08, 0x08, .u 8, .ro, 0, 0⟩,
   ⟨0x81C0, 0x09, 0x09, .u 8, .ro, 0, 0⟩, ⟨0x81C0, 0x0A, 0x0A, .u 8, .ro, 0, 0⟩,
   ⟨0x81C0, 0x0B, 0x0B, .u 8, .ro, 0, 0⟩, ⟨0x81C0, 0x0C, 0x0C, .u 2, .rw, 0, 4095⟩,
   ⟨0x81C0, 0x0D, 0x0D, .u 2, .ro, 0, 0⟩, ⟨0x81C0, 0x0E, 0x0E, .u 8, .ro, 0, 0⟩,
   ⟨0x81C0, 0x0F, 0x0F, .u 2, .ro, 0, 0⟩, ⟨0x81C0, 0x10, 0x10, .domain, .ro, 0, 0⟩]

/-- The whole dictionary. -/
def dictRows : List DictRow :=
  dictRows0 ++ dictRows1 ++ dictRows2 ++ dictRows3 ++ dictRows4 ++ dictRows5 ++ dictRows6 ++ dictRows7 ++ dictRows8 ++ dictRows9 ++ dictRows10 ++ dictRows11 ++ dictRows12 ++ dictRows13 ++ dictRows14 ++ dictRows15 ++ dictRows16 ++ dictRows17

/-- Entries whose value at reset is not 0, by key (index x 256 + subindex), keys rising. -/
def dictDefaults : List (Nat × Nat) :=
  [(0x100107, 4294967295), (0x100108, 0xFFFFFFFFFFFFFFFF), (0x200001, 2800), (0x200006, 90), (0x200007, 1),
   (0x200801, 200), (0x200808, 1000), (0x200809, 1000), (0x20080B, 10), (0x20080C, 75), (0x20080D, 2000),
   (0x20080E, 200), (0x20080F, 100), (0x200810, 45), (0x200811, 60), (0x300001, 16), (0x300002, 1), (0x300003,
   128), (0x300004, 16), (0x300005, 12), (0x300006, 1000), (0x300007, 0x12000000000), (0x340001, 1), (0x340002,
   2000), (0x340003, 20000), (0x340004, 2000000), (0x340005, 512), (0x40000A, 200), (0x40000B, 8), (0x40000C,
   16), (0x40000D, 100), (0x440002, 3), (0x440003, 8), (0x440004, 100), (0x440005, 1), (0x440006, 4096),
   (0x440801, 0x47FFFC0000), (0x440802, 1), (0x440803, 2), (0x440804, 3), (0x440805, 4), (0x440807, 1024), (0x500008, 30000), (0x50000A, 1000), (0x500402, 1), (0x500403,
   15), (0x500404, 8), (0x500802, 1065353216), (0x500803, 1000), (0x500804, 6), (0x501001, 1), (0x501002, 16),
   (0x501802, 15), (0x502002, 1), (0x502003, 50), (0x600001, 100), (0x600405, 1000), (0x600406, 8), (0x600801,
   65535), (0x700001, 2), (0x701001, 1), (0x701002, 100), (0x701003, 20000), (0x701401, 24), (0x701402, 3),
   (0x701403, 100), (0x702002, 1), (0x702003, 1), (0x808007, 8), (0x81C001, 255), (0x848007, 8), (0x850009, 12),
   (0x858001, 1), (0x85C001, 255), (0x888007, 8), (0x890009, 24), (0x896001, 2), (0x898001, 2), (0x89C001, 255),
   (0x8C8007, 8), (0x8D0009, 36), (0x8D6001, 1), (0x8D8001, 3), (0x8DC001, 255)]

/-- The die of a per-die index, and the same index on die 0 (R12). -/
def dieOfIndex (index : Nat) : Nat × Nat :=
  if 0x8000 ≤ index ∧ index < 0x9000 then ((index - 0x8000) / 0x400, 0x8000 + (index - 0x8000) % 0x400) else (0, index)

/-- The row of an entry. -/
def dictRow (index sub : Nat) : Option DictRow :=
  dictRows.find? (fun r => decide (r.index = (dieOfIndex index).2) && decide (r.lo ≤ sub) && decide (sub ≤ r.hi))

/-- Is an index defined (R395)? -/
def indexDefined (index : Nat) : Bool := dictRows.any (fun r => decide (r.index = (dieOfIndex index).2))

/-- Subindex 0 of an index: the highest subindex in use (R12). -/
def highestSub (index : Nat) : Nat :=
  ((dictRows.filter (fun r => decide (r.index = (dieOfIndex index).2))).map (fun r => r.hi)).foldl max 0

/-- Bytes of a fixed-size type (R392). -/
def typeBytes : EType → Nat
  | .bool => 1 | .u n => n | .i n => n | .f32 => 4 | .str => 0 | .blob n => n | .domain => 0

/-- Bits at which a counter of an entry wraps. -/
def counterBits (key : Nat) : Nat :=
  match dictRow (key / 256) (key % 256) with
  | some r => 8 * typeBytes r.typ
  | none => 64

end Sys2Proof.Machine
end

