-- ==== Sys2Proof/Machine/HostTypes.lean ====
section
/-!
DEFINITION. What the host attachment holds (16_host_attachment.md): input bindings, accepted command records, result
windows, the completion ring, Ethernet ports and their queue pairs, and package time.
-/

namespace Sys2Proof.Machine

/-- A declared result window (R366, R516 kind 0xF). -/
structure Window where
  ctx : Nat
  bytes : Nat
  addr : Nat
deriving DecidableEq, Repr

/-- An input binding with its data cursor (R369). -/
structure Binding where
  va : Nat
  len : Nat
  rkey : Nat
  qpA : Nat
  qpB : Nat
  circ : Bool
  cursor : Nat
deriving DecidableEq, Repr

/-- An accepted BATCH or DECODE that is not complete (R370, R371): the member of a Catcher copy, where its bytes stand,
and the window it took. -/
structure OpenRec where
  cseq : Nat
  op : Nat
  step : Nat
  ctx : Nat
  member : Option Nat
  cursor : Nat
  bytes : Nat
  win : Nat := 0
  data : Option (List Byte) := none
  taken : Bool := false
  since : Nat := 0
  warned : Bool := false
  /-- takes part in the running step (R371) -/
  running : Bool := false
deriving DecidableEq, Repr

/-- A completion (R364) that waits to be written. -/
structure Completion where
  cseq : Nat
  op : Nat
  status : Nat
  step : Nat
  detail : Nat
  time : Nat
deriving DecidableEq, Repr

/-- An Ethernet port (R352, R357, R358, R377): its 64-entry table, the pauses it has sent per priority with the time they
began, whether it honours a pause, and per queue pair the sending rate (in 2^-20 of line rate) and the time of its last
congestion notification. -/
structure EthPort where
  up : Bool := false
  table : List Byte := List.replicate 2048 0
  sentPause : SMap Nat := []
  warned : List Nat := []
  heldBy : List Nat := []
  rates : SMap Nat := []
  lastCnp : SMap Nat := []
  /-- counters .04 to .09 of 0x4404 -/
  counters : List Nat := List.replicate 6 0
deriving DecidableEq, Repr

/-- The host attachment. -/
structure HostPort where
  /-- producer index, consumer index, next record, completions written (R360) -/
  cpi : Nat := 0
  cci : Nat := 0
  next : Nat := 0
  written : Nat := 0
  open_ : List OpenRec := []
  held : List Completion := []
  bindings : SMap Binding := []
  /-- Catcher bindings by member position x 64 + context (R372) -/
  catches : SMap Binding := []
  ports : List EthPort := List.replicate 8 {}
  /-- traffic on plane B: 0 the completion ring, 1 + context a binding, 100 + die a journal (R374) -/
  moved : List Nat := []
deriving DecidableEq, Repr

end Sys2Proof.Machine
end

