-- ==== Sys2Proof/Machine/NetTypes.lean ====
section
/-!
DEFINITION. The installation descriptor taken apart (R304, R483), Midway ports and Tightrope edges.
-/

namespace Sys2Proof.Machine

/-- A position of the descriptor (R483). -/
structure PosEntry where
  ident : List Byte
  spare : Bool
  coord : Nat
  partner : Nat
deriving DecidableEq, Repr

/-- What a port of a position is wired to (R303, R483): pair code, far position and far port. -/
structure Wire where
  pair : Nat
  farPos : Nat
  farPort : Nat
deriving DecidableEq, Repr

/-- The body of an installation descriptor. -/
structure Desc where
  version : Nat := 0
  nx : Nat := 1
  ny : Nat := 1
  nz : Nat := 1
  wrap : Nat := 0
  positions : List PosEntry := []
  /-- sixteen per position, in order -/
  wires : List Wire := []
  rings : List (List Nat) := []
  /-- management prefixes: 16 address bytes and a prefix length -/
  mgmt : List (List Byte × Nat) := []
deriving DecidableEq, Repr

/-- State of a Midway port, in the order of 0x8180.02 (R322). -/
inductive PortState where
  | idle | training | up | down | miswired
deriving DecidableEq, Repr

/-- A Midway port (R295-R303). -/
structure MidPort where
  st : PortState := .idle
  link : LinkEnd := { credits := List.replicate 6 1024, owed := List.replicate 6 0 }
  /-- consecutive failed training attempts -/
  fails : Nat := 0
  /-- the identity record of the last intact test flit of the running attempt (R302) -/
  record : List Byte := []
  /-- headers carried per direction: received, sent (R319) -/
  rxHeaders : Nat := 0
  txHeaders : Nat := 0
  /-- counters .03 to .0B of the port (R322) -/
  counters : List Nat := List.replicate 9 0
  /-- both ports of the pair lost lock: the neighbour is unreachable at once (R316) -/
  lost : Bool := false
  /-- uncorrectable codewords in the running second: the second and the count (0x4000.0D) -/
  uncorr : Nat × Nat := (0, 0)
deriving DecidableEq, Repr

/-- State of a Tightrope edge, in the order of 0x8160.02 (R294). -/
inductive EdgeState where
  | down | halfLow | halfHigh | full | training
deriving DecidableEq, Repr

/-- A Tightrope edge (R278-R288); index 0 of a pair is the end on the lower-numbered die. -/
structure Edge where
  st : EdgeState := .training
  ends : List LinkEnd := [{ credits := [240, 240], owed := [0, 0] }, { credits := [240, 240], owed := [0, 0] }]
  /-- advertised half masks in the running attempt -/
  adverts : List (Option Nat) := [none, none]
  agreed : Nat := 0
  fails : Nat := 0
  /-- an attempt is running -/
  attempt : Bool := false
  /-- the attempt follows a retrain by command (R294) -/
  byCommand : Bool := false
  /-- ends that have handed over after the edge went down (R288) -/
  handed : List Bool := [false, false]
  /-- counters .03 to .08 and .0A per end (R294) -/
  counters : List (List Nat) := [List.replicate 8 0, List.replicate 8 0]
deriving DecidableEq, Repr

/-- A message waiting because the retransmit store or its flow is full or closed (R314). -/
structure Waiting where
  die : Nat
  owner : Option (Nat × Nat)
  msg : Msg
deriving DecidableEq, Repr

/-- A header-sample record of the telemetry ring (R319), packed into 512 bits. -/
abbrev SampleRec := BitVec 512

end Sys2Proof.Machine
end

