-- ==== Sys2Proof/Machine/TableTypes.lean ====
section
/-!
DEFINITION. What the table slices and home dies hold (10_embedding_tables.md): shards with their free pools and inboxes,
replicas and hot rows, and replacement requests.
-/

namespace Sys2Proof.Machine

/-- A gradient entry of an inbox: its sort key and its W F32 values (R204, R205). -/
structure GradEntry where
  key : BitVec 128
  vals : List Nat
deriving DecidableEq, Repr

/-- A shard, or a copy of a replicated table, that a die of this package holds (R192, R193, R206, R218). -/
structure Shard where
  table : Nat
  shard : Nat
  die : Nat
  /-- package address of its header -/
  header : Nat
  /-- free slots, rising -/
  free : List Nat := []
  /-- entries received in this step, in arrival order -/
  inbox : List GradEntry := []
  pages : Nat := 0
  /-- the tile whose sort and merge has issued -/
  mergedBy : Option Nat := none
  /-- merged gradients by row -/
  merged : List (Nat × List Nat) := []
  /-- staged rows since the last flip, with their slots -/
  staged : List (Nat × Nat) := []
  /-- the new active bank is being copied into the inactive one -/
  copying : Bool := false
  /-- slots taken under R216, which count in HOLD of their pages -/
  marked : List Nat := []
deriving DecidableEq, Repr

/-- A replica held by a die of this package (R212): STATE (1 joining, 2 valid, 3 leaving), ACT, the pair's number, COUNT
and the two records. -/
structure Replica where
  table : Nat
  row : Nat
  die : Nat
  st : Nat
  act : Bool := false
  pair : Nat
  count : Nat := 0
  recs : List (List Byte) := [[], []]
deriving DecidableEq, Repr

/-- A hot row homed on this package (R210, R211). -/
structure HotRow where
  table : Nat
  row : Nat
  die : Nat
  level : Nat
  count : Nat := 0
  /-- its replicas have still to join -/
  joining : Bool := true
deriving DecidableEq, Repr

/-- An entry of a replacement request for one shard or copy (R214, R216): the slot taken for it, and how far it has come:
0 waiting for its copy, 1 copied, 2 applied. `first` marks the first copy of an entry. -/
structure ReplEntry where
  row : Nat
  table : Nat
  del : Bool
  keep : Bool
  source : Nat
  shardKey : Nat := 0
  slot : Nat := 0
  phase : Nat := 0
  first : Bool := true
deriving DecidableEq, Repr

/-- A replacement request (R214): its command's CSEQ, its mode and step, the entries refused, and for a flip its tables. -/
structure ReplReq where
  cseq : Nat
  mode : Nat
  step : Nat
  refused : Nat := 0
  tables : List Nat := []
  entries : List ReplEntry
deriving DecidableEq, Repr

/-- A slot of a shard, or a replica pair of a die, that waits out its drain epoch (R217, R218). -/
inductive Drain where
  | slot (shardKey : Nat) (slot : Nat)
  | pair (die : Nat) (pair : Nat)
deriving DecidableEq, Repr

/-- The table slices of the package. -/
structure Tables where
  shards : SMap Shard := []
  replicas : List Replica := []
  hot : List HotRow := []
  /-- sketch counters by die x 262,144 + row x 65,536 + counter (R210) -/
  sketch : SMap Nat := []
  /-- candidates as die, table x 2^40 + row, rising -/
  cands : List (Nat × Nat) := []
  /-- lookups of the running attempt: served by a home of this package (die, table x 2^40 + row), and by a replica (its
  die, the row) -/
  looks : List (Nat × Nat) := []
  repLooks : List (Nat × Nat) := []
  /-- settings .01 to .05 of 0x3400 in force (R221), and steps into the window of each die -/
  hall : List Nat := [1, 2000, 20000, 2000000, 512]
  winSteps : List Nat := [0, 0, 0, 0]
  reqs : List ReplReq := []
  drains : List Drain := []
deriving DecidableEq, Repr

/-- Key of a shard: table, shard, and the die of the copy for a replicated table. -/
def shardKey (table shard copy : Nat) : Nat := (table * 16384 + shard) * 4 + copy

end Sys2Proof.Machine
end

