-- ==== Sys2Proof/Machine/RecTypes.lean ====
section
/-!
DEFINITION. What checkpoints, mirroring, the row journal and recovery hold (19_checkpoint_and_spares.md).
-/

namespace Sys2Proof.Machine

/-- Steering statistics and averages (R249): F64 averages, and committed steps since the last change of variant. -/
structure Steer where
  gAvg : Nat := 0
  sAvg : Nat := 0
  steps : Nat := 0
  since : Nat := 0
deriving DecidableEq, Repr

/-- The small committed state of R416. -/
structure SmallState where
  step : Nat := 0
  skips : Nat := 0
  par : Bool := false
  bsel : BitVec 2 := 0
  steer : Steer := {}
  encore : BitVec 8 := 0
  holdLeft : Nat := 0
  holdBits : BitVec 8 := 0
  ctxs : List Context := []
  bindings : SMap Binding := []
  tables : Tables := {}
  /-- active directory banks: header address and bit -/
  banks : List (Nat × Nat) := []
  /-- DONE result windows: header address and their bytes -/
  windows : List (Nat × List Byte) := []
  base : Nat := 0
deriving DecidableEq, Repr

/-- A generation of this package (R413, R415): 1 capturing, 2 captured, 3 drained, 4 held, 5 retained. The MIRROR items are
kept as the ranges and the bytes listed in them. -/
structure Generation where
  gen : Nat
  step : Nat
  repoch : Nat
  coord : Nat
  st : Nat
  ranges : List (Nat × Nat) := []
  cells : List Host.Cell := []
  small : SmallState := {}
  /-- package time at which its drain began -/
  drainFrom : Nat := 0
  /-- a delivery failure or a new route epoch has stopped its drain (R421) -/
  stopped : Bool := false
deriving DecidableEq, Repr

/-- A generation of the partner in this package's staging pool, per die (R418): where its header lies. -/
structure MirrorGen where
  gen : Nat
  step : Nat
  die : Nat
  header : Nat
  /-- 0 incoming, 1 held, 2 retained -/
  st : Nat := 0
deriving DecidableEq, Repr

/-- A before-image (R425): the bytes that the commit making `step` current replaces. -/
structure Undo where
  step : Nat
  die : Nat
  addr : Nat
  bytes : List Byte
deriving DecidableEq, Repr

/-- The journal of a die (R423, R424): its running byte count, the count up to which writes are acknowledged, the ends of
commits with their steps, what is staged and not yet written, and its durable step. -/
structure JournalDie where
  count : Nat := 0
  acked : Nat := 0
  marks : List (Nat × Nat) := []
  staged : List (List Byte) := []
  durable : Nat := 0
  /-- acknowledged through the base image's last byte -/
  imageAcked : Bool := false
deriving DecidableEq, Repr

/-- A base image (R426): step b, the slot it is written to, and each die's count at its start record; `e` once complete. -/
structure BaseImage where
  b : Nat
  slot : Nat
  counts : List Nat
  e : Option Nat := none
deriving DecidableEq, Repr

/-- A REPORT as the coordinator keeps it (R422, R429): steps whose state the sender has, its journal's durable step and the
completion step of its base image. -/
structure ReportRec where
  coord : Nat
  steps : List Nat
  jstep : Nat
  bstep : Nat
deriving DecidableEq, Repr

/-- The permuting collective on this package (R347, R348): its entries as (source, destination, bytes, layer, new shard). -/
structure ReShard where
  entries : List (Nat × Nat × Nat × Nat × Nat) := []
deriving DecidableEq, Repr

/-- Checkpoints, journals and recovery. -/
structure Recovery where
  /-- the checkpoint interval in force since the last step start (R413) -/
  interval : Nat := 100
  gens : List Generation := []
  mirrors : List MirrorGen := []
  lastGen : Nat := 0
  undo : List Undo := []
  journals : List JournalDie := [{}, {}, {}, {}]
  bases : List BaseImage := []
  /-- coordinator: members that have sent DRAINED (coordinate, step), reports, members that have sent RESTORED -/
  drained : List (Nat × Nat) := []
  reports : List ReportRec := []
  restored : List Nat := []
  /-- acceptor: positions reported unreachable by a member (reporter's coordinate, position); positions accepted in this epoch -/
  unreach : List (Nat × Nat) := []
  accepted : List Nat := []
  /-- this spare's request: the position it asks for -/
  asking : Option Nat := none
  /-- this package acts as the coordinator of the recovery (R428) -/
  coordinator : Option Nat := none
  target : Option Nat := none
  /-- the target's restore is not yet reported (R430) -/
  restoring : Bool := false
  /-- this spare has adopted a coordinate and not yet restored its state (R428) -/
  adopting : Bool := false
  reshard : ReShard := {}
  /-- a journal or undo wait has been reported (0x9009) -/
  waitTold : Bool := false
deriving DecidableEq, Repr

end Sys2Proof.Machine
end

