-- ==== Sys2Proof/Machine/RingTypes.lean ====
section
/-!
DEFINITION. The Ringmaster's objects (R379-R384): threads, flows, items and core ports of one die.
-/

namespace Sys2Proof.Machine

/-- Where a thread is (R382); a thread that is not listed is FREE. -/
inductive ThreadAt where
  | waiting (flow : Nat)
  | ready
  | running (core : Nat)
  | sleeping (until_ : Nat)
  | stopped
deriving DecidableEq, Repr

/-- A thread (R379, R382, R385): priority, core mask, the item it holds with its flow, the reason NEXT will give (0 item,
1 resumed, 2 timer), when it entered its state, and whether it has just become READY. -/
structure Thread where
  prio : Nat
  cores : Nat
  at_ : ThreadAt := .ready
  item : Option (BitVec 256) := none
  flow : Option Nat := none
  reason : Nat := 1
  since : Nat := 0
  fresh : Bool := false
deriving DecidableEq, Repr

/-- Kinds of flow (R381). -/
inductive FlowKind where
  | atomic | parallel | hw
deriving DecidableEq, Repr

/-- A flow (R379, R381, R385): kind, LIMIT, queued items oldest first, items in service, items served. -/
structure RFlow where
  kind : FlowKind
  limit : Nat
  items : List (BitVec 256) := []
  inService : Nat := 0
  served : Nat := 0
deriving DecidableEq, Repr

/-- A control core and its port (R384). -/
structure CorePort where
  online : Bool := true
  /-- blocked reading NEXT -/
  blocked : Bool := false
  running : Option Nat := none
  preempt : Bool := false
  postStatus : Nat := 0
  configStatus : Nat := 0
deriving DecidableEq, Repr

/-- The fixed flows of a die (R387): flows 1, 2 and 10 exist on D0 only. Flow 10's items are the Trunk Record's queue. -/
def fixedFlows (d0 : Bool) : SMap RFlow :=
  let d0only : List (Nat × RFlow) := if d0 then [(1, { kind := .atomic, limit := 256 }), (2, { kind := .atomic, limit := 256 })] else []
  [(0, { kind := .hw, limit := 1 })] ++ d0only ++
  [(3, { kind := .parallel, limit := 1024 }), (4, { kind := .atomic, limit := 256 }), (5, { kind := .parallel, limit := 256 }),
   (6, { kind := .atomic, limit := 256 }), (7, { kind := .atomic, limit := 256 }), (8, { kind := .atomic, limit := 1 }),
   (9, { kind := .atomic, limit := 256 })] ++ (if d0 then [(10, { kind := .atomic, limit := 256 })] else [])

/-- The Ringmaster of a die. -/
structure Ring where
  threads : SMap Thread := []
  flows : SMap RFlow := fixedFlows false
  cores : List CorePort := List.replicate 8 {}
  /-- order of arrivals and state changes -/
  clock : Nat := 0
  signalMap : List Nat := List.replicate 512 0
deriving DecidableEq, Repr

end Sys2Proof.Machine
end

