-- ==== Sys2Proof/Machine/State.lean ====
section
/-!
DEFINITION. The state of the package as plain data, the ways a step can stop, and the state right after reset.
-/

namespace Sys2Proof.Machine

/-- Why a step stops with a fault. -/
inductive Fault where
  /-- CONTROL_CORE_ACCESS to a control-space address whose contents the spec does not give (R16): safe -/
  | controlSpace
deriving DecidableEq, Repr

/-- Why a command has no meaning. -/
inductive Refusal where
  /-- raised by `exec` for a command that is not modelled yet: safe -/
  | notModelled (mnemonic : String)
deriving DecidableEq, Repr

/-- The Trunk Record (R448-R451): the MRAM, and what D0 keeps beside it. -/
structure Trunk where
  mram : Memory := []
  gen : Nat := 0
  nextSeq : Nat := 1
  /-- next slot of the pinned, main and hold-up ring -/
  slots : List Nat := [0, 0, 0]
  boots : Nat := 0
  losses : Nat := 0
  lost : Nat := 0
  /-- entries written since the header was -/
  sinceHeader : Nat := 0
  /-- flow 10: entries on their way to MRAM, with their ring (R450) -/
  queue : List (Nat × List Byte) := []
  /-- flow 10 admits no entry: power-good has fallen (R451) -/
  closed : Bool := false
deriving DecidableEq, Repr

/-- An EVENT frame awaiting acknowledgement (R405): its number, its records, and per destination how often it was
sent (0: acknowledged or given up). -/
structure EventFrame where
  number : Nat
  full : Bool
  recs : List EventRec
  sends : List Nat
deriving DecidableEq, Repr

/-- The whole package. -/
structure State where
  life : PkgState := .off
  /-- package time in ns (R359) -/
  now : Nat := 0
  /-- numeric dictionary entries and counters, by key index x 256 + subindex (R12) -/
  regs : SMap Nat := dictDefaults
  /-- STR, BLOB and DOMAIN entries, by the same key -/
  blobs : SMap (List Byte) := []
  /-- stacks and tile SRAM windows at their package addresses (R16, R257) -/
  mem : Memory := []
  /-- stack lines and SRAM words that read uncorrectable, by address (R46, R255) -/
  bad : List Nat := []
  /-- logical tiles, by die x 768 + tile -/
  tiles : SMap Tile := []
  /-- instruction stores, by tile key x 8,192 + address; a word not listed is 0 -/
  store : SMap Nat := []
  /-- step-start images, keyed as the stores (R90) -/
  startImg : SMap Nat := []
  /-- page attributes of the stacks by page number (R258) -/
  pages : SMap Nat := []
  /-- early-arrival queues of D0 to D3, oldest first (R86) -/
  early : List (List EarlyItem) := [[], [], [], []]
  job : Job := {}
  step : StepState := {}
  ctxs : List Context := List.replicate 48 {}
  /-- pagers by tile key (R261) -/
  pagers : SMap Pager := []
  trunk : Trunk := {}
  /-- event records not yet in a frame, and frames awaiting acknowledgement (R405) -/
  evBatch : List EventRec := []
  evFrames : List EventFrame := []
  /-- Midway flows: sending by source die x 16,384 + destination, receiving by destination die x 16,384 + source -/
  flowsTx : SMap FlowTx := []
  flowsRx : SMap FlowRx := []
  reads : List ReadReq := []
  /-- sequenced messages that wait for room in the retransmit store (R314) -/
  txWait : List Waiting := []
  /-- recovery and ROUTE messages to be sent again in the next route epoch (R315) -/
  resendNext : List Waiting := []
  /-- the verified installation descriptor (R304, R483) -/
  desc : Option Desc := none
  /-- coordinates adopted by spares in the present route epoch, with the spare's position (R317) -/
  adopted : List (Nat × Nat) := []
  ports : List MidPort := List.replicate 16 {}
  /-- pair codes round which a message has been routed since they became unreachable (R308) -/
  rounded : List Nat := []
  edges : List Edge := List.replicate 4 {}
  /-- header-sample rings of D0 to D3, oldest first (R319) -/
  samples : List (List SampleRec) := [[], [], [], []]
  /-- signals received per die x 65,536 + layer (R328) -/
  layerReady : SMap Nat := []
  /-- step tags of D0 to D3 for control-core signals (R386) -/
  dieTags : List (BitVec 12) := [0, 0, 0, 0]
  /-- the Ringmasters of D0 to D3 (R379) -/
  rings : List Ring := [{ flows := fixedFlows true }, {}, {}, {}]
  /-- retired physical row by die x 32 + column, unusable spares and faulty bypass positions by die x 1,024 + row x 32 +
  column (R51, R54, R58) -/
  retired : SMap Nat := []
  spareBad : List Nat := []
  bypassBad : List Nat := []
  /-- logical tiles whose retirement is judged or requested and has not taken effect, as tile key and source (0: requested) (R55) -/
  retireQ : List (Nat × Nat) := []
  /-- transient judgements: unit, source, time (R439) -/
  history : List (Nat × Nat × Nat) := []
  /-- per stack x 4: corrected words, uncorrectable words, rows in the repair map (R255, R274) -/
  stackCounts : SMap Nat := []
  /-- corrections per stack bank within the hour, by stack x 65,536 + pc x 256 + bank: start of the hour and count -/
  bankHours : SMap (Nat × Nat) := []
  /-- SRAM corrections per tile within the hour (R438) -/
  tileHours : SMap (Nat × Nat) := []
  /-- stack rows recorded in the repair map, as stack x 2^32 + bank coordinates and row -/
  repairRows : List Nat := []
  /-- stack lines found uncorrectable: line, step, attempt (R255); lines R434 has rewritten -/
  badSeen : List (Nat × Nat × Nat) := []
  rewritten : List Nat := []
  /-- the table slices: shards, inboxes, replicas, replacement (R191 to R222) -/
  tables : Tables := {}
  /-- the host attachment (R352 to R377) -/
  host : HostPort := {}
  windows : List Window := []
  /-- the reduce engines (R325) -/
  reduce : Reduce := {}
  gal : Gallery := {}
  /-- batch steering (R249) -/
  steer : Steer := {}
  /-- checkpoints, journals and recovery (R413 to R434) -/
  recov : Recovery := {}
  /-- the Ticket Booth (R397 to R406) -/
  tarvy : Tarvy := {}
  /-- power, cooling, flash, boot, pins and test access (R456 to R514) -/
  board : Board := {}
  /-- the MODEL's own: how many free values have been used -/
  free : Nat := 0
  /-- the MODEL's own: what the package has sent -/
  out : List Out := []
  /-- the commands that wait, first in first out -/
  pending : List Instr := []
deriving DecidableEq, Repr

/-- The package right after reset: in OFF, every entry at its default, memories with nothing listed. -/
def State.reset : State := {}

end Sys2Proof.Machine
end

