-- ==== Sys2Proof/Machine/Ops.lean ====
section
/-!
DEFINITION. The operations every family uses: dictionary registers, endpoints and addresses (R9, R16, R257), events and
the Trunk Record (R405, R450), state changes (R408), free values, tiles, and stopping an attempt (R91).
-/

namespace Sys2Proof.Machine

/-! ### Registers -/

/-- A numeric entry; entries not listed hold 0. -/
def State.reg (s : State) (k : Nat) : Nat := smGetD s.regs k 0

/-- Set a numeric entry. -/
def setReg (k v : Nat) (s : State) : State := { s with regs := smPut s.regs k v }

/-- Add to a counter, wrapping at its width. -/
def bumpReg (k n : Nat) (s : State) : State := setReg k ((s.reg k + n) % 2 ^ counterBits k) s

/-- Add to a counter that holds at its largest value. -/
def satReg (k n : Nat) (s : State) : State := setReg k (min (s.reg k + n) (2 ^ counterBits k - 1)) s

/-- Raise a high-water mark. -/
def highReg (k n : Nat) (s : State) : State := setReg k (max (s.reg k) n) s

/-- The key of a per-die entry, given its key on die 0 (R12). -/
def dieKey (d k : Nat) : Nat := k + 0x40000 * d

/-- Set a BLOB, STR or DOMAIN entry. -/
def setBlob (k : Nat) (v : List Byte) (s : State) : State := { s with blobs := smPut s.blobs k v }

/-- A BLOB, STR or DOMAIN entry. -/
def State.blob (s : State) (k : Nat) : List Byte := smGetD s.blobs k []

/-- Send something out of the package. -/
def emit (o : Out) (s : State) : State := { s with out := s.out ++ [o] }

/-- Fold a list of operations over the state. -/
def allOf {α : Type} (xs : List α) (f : α → State → State) (s : State) : State := xs.foldl (fun s x => f x s) s

/-- The next `n` free bytes. -/
def freeBytes (n : Nat) (s : State) : List Byte × State :=
  ((List.range n).map (fun i => Config.freeByte (s.free + i)), { s with free := s.free + n })

/-! ### Endpoints and addresses -/

/-- Own logical coordinate, x in bits 11:8, y in 7:4, z in 3:0 (R396). -/
def State.coord (s : State) : Nat := s.reg 0x102401 % 4096

/-- The endpoint of a unit of this package (R9). -/
def endpoint (s : State) (die tile : Nat) : Nat := s.coord * 4096 + die * 1024 + tile

/-- Coordinate of an endpoint. -/
def epCoord (e : Nat) : Nat := e / 4096 % 4096

/-- Die of an endpoint. -/
def epDie (e : Nat) : Nat := e / 1024 % 4

/-- Tile number of an endpoint. -/
def epTile (e : Nat) : Nat := e % 1024

/-- Is a tile number of die `d` a defined endpoint (R10)? -/
def endpointDefined (d t : Nat) : Bool :=
  decide (t < 776) || (decide (800 ≤ t) && decide (t ≤ 803)) || t == 816 || t == 817 || (t == 1000 && d == 0)

/-- Bytes of a die's stacks (R16). -/
def dieBytes : Nat := 0x48_0000_0000

/-- End of the stack range. -/
def stackEnd : Nat := 0x120_0000_0000

/-- First tile window (R257). -/
def windowBase : Nat := 0x200_0000_0000

/-- Control and dictionary space (R16). -/
def controlBase : Nat := 0x3F0_0000_0000

/-- What a package address names (R16, R257). -/
inductive Place where
  | stack (die : Nat)
  | window (key : Nat) (local_ : Nat)
  | control
  | outside
deriving DecidableEq, Repr

/-- The place of an address. -/
def placeOf (a : Nat) : Place :=
  if a < stackEnd then .stack (a / dieBytes)
  else if windowBase ≤ a ∧ a < windowBase + 4 * 0x8000_0000 then
    let o := a - windowBase
    let t := o % 0x8000_0000 / sramSize
    if t < 768 then .window (o / 0x8000_0000 * 768 + t) (o % sramSize) else .outside
  else if controlBase ≤ a ∧ a < 2 ^ 44 then .control
  else .outside

/-- First byte of a tile's window, by tile key (R257). -/
def tileBase (key : Nat) : Nat := windowBase + key / 768 * 0x8000_0000 + key % 768 * sramSize

/-- Is an address in this package's stacks? -/
def inStacks (a : Nat) : Bool := decide (a < stackEnd)

/-- Is an address memory that a unit of the package can read (R16)? -/
def isMemory (a : Nat) : Bool :=
  match placeOf a with
  | .stack _ => true
  | .window _ _ => true
  | _ => false

/-- Stack of an address (R253): exclusive-or of the granule's bit pairs. -/
def pairXor : Nat → Nat → Nat
  | 0, _ => 0
  | n + 1, g => (g % 4) ^^^ pairXor n (g / 4)

/-- The stack, pseudo-channel, bank and row of a stack address (R253). -/
def stackPlace (a : Nat) : Nat × Nat × Nat × Nat :=
  let o := a % dieBytes
  let g := o / 4096
  let lg := g / 4
  (4 * (a / dieBytes) + pairXor 14 g, (lg % 32) ^^^ (lg / 32 % 32), (lg / 32 % 32) ^^^ (lg / 1024 % 32), lg / 1024)

/-- Key of a named tile. -/
def tileKey (r : TileRef) : Nat := r.die.val * 768 + r.tile.val

/-- A tile by key; a tile not listed is idle. -/
def State.tile (s : State) (k : Nat) : Tile := smGetD s.tiles k {}

/-- Replace a tile. -/
def setTile (k : Nat) (t : Tile) (s : State) : State := { s with tiles := smPut s.tiles k t }

/-- Change a tile. -/
def modTile (k : Nat) (f : Tile → Tile) (s : State) : State := setTile k (f (s.tile k)) s

/-- Change every listed tile. -/
def mapTiles (f : Tile → Tile) (s : State) : State := { s with tiles := s.tiles.map (fun p => (p.1, f p.2)) }

/-- Every tile key. -/
def allTiles : List Nat := List.range 3072

/-- Write bytes to the package's memory; what is written is no longer uncorrectable (R46, R255). -/
def putMem (a : Nat) (bs : List Byte) (s : State) : State :=
  { s with mem := writeBytes s.mem a bs,
           bad := s.bad.filter (fun w => !(decide (w < a + bs.length) && decide (a < w + (if w < stackEnd then 64 else 8)))) }

/-- Read bytes of the package's memory. -/
def State.bytes (s : State) (a : Nat) (n : Nat) : List Byte := readBytes s.mem a n

/-- Read a little-endian number. -/
def State.le (s : State) (a : Nat) (n : Nat) : Nat := readLE s.mem a n

/-- Does a range hold an uncorrectable stack line (R255)? -/
def badStack (s : State) (a : Nat) (n : Nat) : Bool :=
  s.bad.any (fun w => decide (w < stackEnd) && decide (w < a + n) && decide (a < w + 64))

/-- Does a range hold an uncorrectable SRAM word (R46)? -/
def badSram (s : State) (a : Nat) (n : Nat) : Bool :=
  s.bad.any (fun w => decide (stackEnd ≤ w) && decide (w < a + n) && decide (a < w + 8))

/-- Page attributes of the page that holds an address (R258). -/
def pageAttr (s : State) (a : Nat) : Nat := smGetD s.pages (a / 0x1_0000) 0

/-! ### The Trunk Record -/

/-- Offset of a ring in MRAM: pinned, main, hold-up (R448). -/
def ringBase (ring : Nat) : Nat := if ring = 0 then 0x2000 else if ring = 1 then 0x10_0000 else 0x3F0_0000

/-- Entries of a ring (R448). -/
def ringSize (ring : Nat) : Nat := if ring = 0 then 16256 else if ring = 1 then 1015808 else 16384

/-- The header of the Trunk Record in the order of R448, closed by its CRC. -/
def trunkHeader (t : Trunk) (gen : Nat) : List Byte :=
  let b := leBytes 4 gen ++ leBytes 8 t.nextSeq ++ t.slots.flatMap (leBytes 4) ++ leBytes 4 t.boots ++ leBytes 4 t.losses
    ++ leBytes 4 t.lost
  b ++ leBytes 4 (crc32c b).toNat

/-- Rewrite the header, alternating between the copies (R448). -/
def writeHeader (t : Trunk) : Trunk :=
  let g := t.gen + 1
  { t with gen := g, sinceHeader := 0, mram := writeBytes t.mram (g % 2 * 0x1000) (trunkHeader t g) }

/-- Write one entry into its ring (R448): the oldest is overwritten first, and every 256 entries the header follows. -/
def writeEntry (t : Trunk) (ring : Nat) (e : List Byte) : Trunk :=
  let slot := nth t.slots ring
  let t := { t with mram := writeBytes t.mram (ringBase ring + 64 * slot) e,
                    slots := setAt t.slots ring ((slot + 1) % ringSize ring), sinceHeader := t.sinceHeader + 1 }
  if t.sinceHeader = 256 then writeHeader t else t

/-- Write the entry at the head of flow 10 (R450). -/
def drainTrunk (t : Trunk) : Trunk :=
  match t.queue with
  | [] => t
  | (ring, e) :: q => writeEntry { t with queue := q } ring e

/-- An entry of R449. -/
def trunkEntry (seq time kind die state payload : Nat) : List Byte :=
  let n := atBit 448 seq + atBit 384 (time % 2 ^ 64) + atBit 368 kind + atBit 366 die + atBit 362 state + atBit 32 payload
  leBytes 64 (n + (crc32c (leBytes 64 n)).toNat)

/-- Post an entry to flow 10; a producer that finds it full waits until one entry is written, and the wait is counted
(R450). After power-good has fallen no entry is admitted (R451). -/
def trunkPost (ring kind die payload : Nat) (s : State) : State :=
  if s.trunk.closed then s
  else
    let e := trunkEntry s.trunk.nextSeq s.now kind die (stateCode s.life) payload
    let full := decide (256 ≤ s.trunk.queue.length)
    let t := if full then drainTrunk s.trunk else s.trunk
    let s := if full then bumpReg 0x702008 1 s else s
    { s with trunk := { t with nextSeq := t.nextSeq + 1, queue := t.queue ++ [(ring, e)] } }

/-! ### Events -/

/-- The hottest region of a die, as a 16-bit field of 0.125 degree (R405). -/
def hottest (s : State) (d : Nat) : Int :=
  ((List.range 40).map (fun i => signExt 16 (s.reg (dieKey d (0x802401 + i))))).foldl max (signExt 16 (s.reg (dieKey d 0x802401)))

/-- The 256 bits of a FULL record (R405). -/
def eventBits (e : EventRec) : Nat :=
  atBit 240 e.code + atBit 232 e.subunit + atBit 208 e.unit + atBit 176 e.count + atBit 144 e.operation + atBit 80 (e.time % 2 ^ 64)
  + atBit 64 e.temp + atBit 48 e.volt

/-- Add an event to the records not yet in a frame. While 256 frames await acknowledgement, an event whose code and unit
already wait is counted into that record (R405, R387). -/
def batchEvent (e : EventRec) (s : State) : State :=
  if s.evFrames.length ≥ 256 ∧ s.evBatch.any (fun x => x.code == e.code && x.unit == e.unit) then
    { s with evBatch := s.evBatch.map (fun x => if x.code = e.code ∧ x.unit = e.unit then { x with count := min (x.count + e.count) 0xFFFFFFFF } else x) }
  else { s with evBatch := s.evBatch ++ [e] }

/-- Raise an event with its UNIT as an endpoint (R9): an entry of the main ring in FULL form, and a record for the event
destinations (R405, R447, R449). -/
def raiseUnit (code unit sub op : Nat) (s : State) : State :=
  let die := epDie unit
  let e : EventRec := { code := code, subunit := sub % 256, unit := unit, operation := op % 2 ^ 32, time := s.now,
                        temp := wrapInt 16 (hottest s die), volt := s.reg (dieKey 0 (0x200405 + die)) % 65536 }
  batchEvent e (trunkPost 1 1 die (eventBits e) s)

/-- Raise an event of a unit of this package. -/
def raiseAt (code die tile sub op : Nat) (s : State) : State := raiseUnit code (endpoint s die tile) sub op s

/-- Raise an event of the package itself: its unit is control core 0 of D0. -/
def raise_ (code : Nat) (s : State) : State := raiseAt code 0 768 0 0 s

/-! ### State changes -/

/-- Enter a package state (R396, R407-R408): the time, the cause, and a pinned entry of the Trunk Record. A command in
progress is refused with reason 0x000D when the package enters FAULT or OFF (R410). -/
def enter (p : PkgState) (cause : Nat) (s : State) : State :=
  let old := stateCode s.life
  let s := { s with life := p }
  let s := setReg 0x100008 s.now (setReg 0x100009 cause s)
  let s := if p = .held ∧ s.step.holdAsked then setReg 0x100102 2 { s with step := { s.step with holdAsked := false } } else s
  let s := if (p = .fault ∨ p = .off) ∧ s.reg 0x100102 = 1 then setReg 0x100102 3 (setReg 0x100103 0x000D s) else s
  trunkPost 0 4 0 (atBit 248 old + atBit 240 (stateCode p) + atBit 224 cause) s

/-- Does the package hold a job (R59, R408)? -/
def holdsJob (s : State) : Bool :=
  s.life = .loaded || s.life = .running || s.life = .spare || s.life = .held

/-- An operation that needs power: nothing happens in OFF. -/
def powered (f : State → State) (s : State) : State := if s.life = .off then s else f s

/-! ### Steps and aborts -/

/-- The step number (R223). -/
def State.stepNo (s : State) : Nat := s.reg 0x500001

/-- The step tag of an attempt (R86). -/
def stepTag (step attempt : Nat) : BitVec 12 := BitVec.ofNat 12 (step % 256 * 16 + attempt % 16)

/-- The tag before the first step a tile runs: the step before it, so that early arrivals for that step are held. -/
def tagBefore (step : Nat) : BitVec 12 := stepTag (step + 255) 0

/-- Discard the groups and prefetch state of a tile and stop it at its instruction boundary (R91, R272). -/
def stopTile (t : Tile) : Tile :=
  { t with run := if t.run = .active then .stopped else t.run, groups := [], prefetch := [], streams := Vector.replicate 8 (0, 0, 0) }

/-- Abort the running attempt with a cause of R239: the tiles stop (R91). -/
def abortAttempt (cause : Nat) (s : State) : State :=
  if s.step.phase = .attempt then
    let first := decide (s.step.causes = [])
    let s := { s with step := { s.step with causes := if s.step.causes.contains cause then s.step.causes else s.step.causes ++ [cause] } }
    let low := s.step.causes.foldl min 15
    let s := setReg 0x500006 low s
    if first then
      bumpReg 0x500005 1 { s with tiles := s.tiles.map (fun p => (p.1, stopTile p.2)), step := { s.step with stopped := true } }
    else s
  else s

/-- The package stops at once and keeps its state (R39, R92): HELD in the middle of a step where an attempt runs. -/
def holdNow (cause : Nat) (s : State) : State :=
  if s.life = .running then
    enter .held cause { s with step := { s.step with heldMid := decide (s.step.phase = .attempt) } }
  else s

/-- Is a transfer of any tile incomplete (R91)? -/
def anyTransfer (s : State) : Bool := s.tiles.any (fun p => decide (p.2.xfers ≠ []))

end Sys2Proof.Machine
end

