-- ==== Sys2Proof/Machine/Ring.lean ====
section
/-!
DEFINITION. Operations of the Ringmaster (R381-R389): posting items, binding them to waiting threads, dispatch, and
pre-emption requests.
-/

namespace Sys2Proof.Machine

/-- The Ringmaster of a die. -/
def State.ring (s : State) (d : Nat) : Ring := s.rings.getD d {}

/-- Replace the Ringmaster of a die. -/
def setRing (d : Nat) (r : Ring) (s : State) : State := { s with rings := setAt s.rings d r }

/-- A core port. -/
def ringCore (r : Ring) (c : Nat) : CorePort := r.cores.getD c {}

/-- Change a core port. -/
def modCore (c : Nat) (f : CorePort → CorePort) (r : Ring) : Ring := { r with cores := setAt r.cores c (f (ringCore r c)) }

/-- Replace a thread, at the next point of the die's order. -/
def putThread (n : Nat) (t : Thread) (r : Ring) : Ring :=
  { r with threads := smPut r.threads n { t with since := r.clock }, clock := r.clock + 1 }

/-- May the flow's next item be dispatched (R381)? -/
def dispatchable (f : RFlow) : Bool :=
  decide (f.items ≠ []) && (match f.kind with
    | .atomic => f.inService == 0
    | .parallel => true
    | .hw => false)

/-- The thread that has waited longest on a flow. -/
def longestWaiting (r : Ring) (flow : Nat) : Option (Nat × Thread) :=
  (r.threads.filter (fun p => decide (p.2.at_ = .waiting flow))).foldl
    (fun best p => match best with
      | none => some p
      | some b => if p.2.since < b.2.since then some p else some b) none

/-- Bind one dispatchable item to a waiting thread (R382), flows in ascending order. -/
def bindOne (r : Ring) : Option Ring :=
  match r.flows.find? (fun p => dispatchable p.2 && (longestWaiting r p.1).isSome) with
  | none => none
  | some (n, f) =>
    match longestWaiting r n, f.items with
    | some (t, th), it :: rest =>
      some (putThread t { th with at_ := .ready, item := some it, flow := some n, reason := 0, fresh := true }
        { r with flows := smPut r.flows n { f with items := rest, inService := f.inService + 1 } })
    | _, _ => none

/-- Is a core idle: online and blocked reading NEXT (R382)? -/
def coreIdle (r : Ring) (c : Nat) : Bool := (ringCore r c).online && (ringCore r c).blocked

/-- The lowest-numbered idle core of a mask. -/
def idleCore (r : Ring) (mask : Nat) : Option Nat := (List.range 8).find? (fun c => bitAt mask c && coreIdle r c)

/-- The READY thread that is dispatched next: highest priority, then longest READY, then lower number (R382). -/
def bestReady (r : Ring) : Option (Nat × Thread) :=
  (r.threads.filter (fun p => decide (p.2.at_ = .ready) && (idleCore r p.2.cores).isSome)).foldl
    (fun best p => match best with
      | none => some p
      | some b => if b.2.prio < p.2.prio ∨ (b.2.prio = p.2.prio ∧ p.2.since < b.2.since) then some p else some b) none

/-- What NEXT returns (R384): thread number, reason, and the item when the reason is 0. -/
def nextAnswer (n : Nat) (t : Thread) : List Byte :=
  leBytes 2 n ++ leBytes 1 t.reason ++ List.replicate 29 0 ++ leBytes 32 (if t.reason = 0 then (t.item.map BitVec.toNat).getD 0 else 0)

/-- Dispatch the best READY thread to an idle core (R382): NEXT returns, or none when no thread can go. -/
def dispatchOne (d : Nat) (s : State) : Option State :=
  let r := s.ring d
  match bestReady r with
  | none => none
  | some (n, t) =>
    match idleCore r t.cores with
    | none => none
    | some c =>
      let r := putThread n { t with at_ := .running c, fresh := false } r
      let r := modCore c (fun p => { p with blocked := false, running := some n, preempt := false }) r
      some (emit (.coreData d c (nextAnswer n t)) (bumpReg (dieKey d 0x81C006) 1 (setRing d r s)))

/-- The core that a ready thread pre-empts: the running thread of lowest priority in its mask, strictly below its own,
lowest core first (R383). -/
def preemptTarget (r : Ring) (t : Thread) : Option Nat :=
  ((List.range 8).filter (fun c => bitAt t.cores c && (ringCore r c).online)).foldl
    (fun best c =>
      match (ringCore r c).running with
      | none => best
      | some n =>
        let p := (smGetD r.threads n { prio := 64, cores := 0 }).prio
        if p < t.prio then
          match best with
          | none => some c
          | some b =>
            match (ringCore r b).running with
            | none => some c
            | some m => if p < (smGetD r.threads m { prio := 64, cores := 0 }).prio then some c else some b
        else best) none

/-- Raise the pre-emption requests of threads that have just become READY and were not dispatched (R383). -/
def preemptAll (d : Nat) (s : State) : State :=
  let r := s.ring d
  let fresh := r.threads.filter (fun p => p.2.fresh && decide (p.2.at_ = .ready))
  fresh.foldl (fun s p =>
    let r := s.ring d
    let r' := { r with threads := smPut r.threads p.1 { p.2 with fresh := false } }
    match preemptTarget r p.2 with
    | none => setRing d r' s
    | some c => bumpReg (dieKey d 0x81C007) 1 (setRing d (modCore c (fun q => { q with preempt := true }) r') s)) s

/-- Bind and dispatch until nothing moves; `fuel` bounds the number of moves. -/
def settleFuel (d : Nat) : Nat → State → State
  | 0, s => s
  | n + 1, s =>
    match bindOne (s.ring d) with
    | some r => settleFuel d n (setRing d r s)
    | none =>
      match dispatchOne d s with
      | some s' => settleFuel d n s'
      | none => s

/-- Let the Ringmaster of a die settle (R382, R383). -/
def settle (d : Nat) (s : State) : State := preemptAll d (settleFuel d (2 * (s.ring d).threads.length + 8) s)

/-- Items queued on a die. -/
def queuedItems (r : Ring) : Nat := (r.flows.map (fun p => p.2.items.length)).foldl (· + ·) 0

/-- Post an item to a flow: the state, and the POST status of R384 (0 accepted, 1 full, 2 no such flow, 3 HW flow). -/
def postItem (d flow : Nat) (item : BitVec 256) (s : State) : State × Nat :=
  let r := s.ring d
  match smFind r.flows flow with
  | none => (s, 2)
  | some f =>
    if f.kind = .hw then (s, 3)
    else if f.limit ≤ f.items.length + f.inService then (s, 1)
    else
      let r := { r with flows := smPut r.flows flow { f with items := f.items ++ [item] } }
      (settle d (highReg (dieKey d 0x81C005) (queuedItems r) (setRing d r s)), 0)

/-- An item of R380. -/
def itemBits (flow kind src tag payload : Nat) : BitVec 256 :=
  BitVec.ofNat 256 (atBit 244 flow + atBit 240 kind + atBit 216 src + atBit 200 tag + payload)

/-- End the service of the item a thread holds (R381). -/
def endService (n : Nat) (r : Ring) : Ring :=
  match smFind r.threads n with
  | none => r
  | some t =>
    match t.flow with
    | none => r
    | some f =>
      let r := { r with threads := smPut r.threads n { t with item := none, flow := none } }
      match smFind r.flows f with
      | none => r
      | some fl => { r with flows := smPut r.flows f { fl with inService := fl.inService - 1, served := fl.served + 1 } }

/-- The thread running on a core, with its number. -/
def runningOn (r : Ring) (c : Nat) : Option (Nat × Thread) :=
  match (ringCore r c).running with
  | none => none
  | some n => (smFind r.threads n).map (fun t => (n, t))

/-- The running thread of a core leaves it in a new state (R384); the pre-emption request ends with it. -/
def leaveCore (c n : Nat) (t : Thread) (r : Ring) : Ring :=
  putThread n t (modCore c (fun p => { p with running := none, preempt := false }) r)

/-- Cores online of a die, from its counter entry (R390). -/
def coresOnline (s : State) (d : Nat) : Nat := ((List.range 8).filter (fun c => (ringCore (s.ring d) c).online)).length

/-- Does a thread serve flow 2 or 10 (R389)? -/
def servesFault (t : Thread) : Bool :=
  decide (t.at_ = .waiting 2) || decide (t.at_ = .waiting 10) || t.flow == some 2 || t.flow == some 10

/-- Threads stop in FAULT but for those of flows 2 and 10 (R389). -/
def stopThreads (r : Ring) : Ring :=
  { r with threads := r.threads.map (fun p => if servesFault p.2 then p else (p.1, { p.2 with at_ := .stopped })),
           cores := r.cores.map (fun c => match c.running with
             | none => c
             | some n => if ((smFind r.threads n).map servesFault).getD false then c else { c with running := none, preempt := false }) }

/-- A Midway port that stops (R316): what it holds is lost. -/
def stopPort (p : MidPort) : MidPort := { p with st := .idle, link := { credits := List.replicate 6 1024, owed := List.replicate 6 0 }, record := [], fails := 0 }

/-- Enter FAULT (R408, R389): the Midway ports stop (R316), every setpoint is 0.62 V and the valve is fully open (R468). -/
def enterFault (cause : Nat) (s : State) : State :=
  let s := enter .fault cause s
  let s := allOf [0x200405, 0x200406, 0x200407, 0x200408] (fun k => setReg k 620) (setReg 0x200801 1000 (setReg 0x400007 0 s))
  { s with rings := s.rings.map stopThreads, ports := s.ports.map stopPort }

end Sys2Proof.Machine
end

