-- ==== Sys2Proof/Machine/Judge.lean ====
section
/-!
DEFINITION. Suspects and judgements (R438, R439), and the tile map with the limits of repair (R52, R54, R58, R59).
-/

namespace Sys2Proof.Machine

/-! ### The tile map -/

/-- The retired physical row of a column, if any (R54). -/
def retiredRow (s : State) (d c : Nat) : Option Nat := smFind s.retired (d * 32 + c)

/-- Physical row of a logical row of a column (R54). -/
def physicalRow (s : State) (d c row : Nat) : Nat :=
  match retiredRow s d c with
  | none => row
  | some r => if row < r then row else row + 1

/-- Is the spare of a column usable (R58)? -/
def spareUsable (s : State) (d c : Nat) : Bool := !s.spareBad.contains (d * 32 + c)

/-- A pair of columns between whose retired rows no route of R52 exists: both first choices turn at a retired
position, and every other column's retired tile lies in one of the two rows. -/
def pairCut (ret : Nat → Option Nat) (cs cd : Nat) : Bool :=
  match ret cd, ret cs with
  | some rs, some rd =>
    cs != cd && (List.range 32).all (fun m => m == cs || m == cd || (match ret m with
      | some r => r == rs || r == rd
      | none => false))
  | _, _ => false

/-- Would a column map cut two positions off from each other (R52, R59)? -/
def mapCut (ret : Nat → Option Nat) : Bool := (List.range 32).any (fun cs => (List.range 32).any (pairCut ret cs))

/-- Is a die short with these retired rows wanted in addition (R59)? `want` lists (column, physical row). -/
def shortWith (s : State) (d : Nat) (want : List (Nat × Nat)) : Bool :=
  let cols := want.map (fun w => w.1)
  let second := want.any (fun w => (retiredRow s d w.1).isSome) || decide (cols.dedup.length ≠ cols.length)
  let unusable := want.any (fun w => !spareUsable s d w.1)
  let bypass := s.bypassBad.any (fun b => decide (b / 1024 = d))
  let ret := fun c => match want.find? (fun w => decide (w.1 = c)) with
    | some w => some w.2
    | none => retiredRow s d c
  second || unusable || bypass || mapCut ret

/-- Column and physical row of a logical tile of a die (R11, R54). -/
def tilePlace (s : State) (d t : Nat) : Nat × Nat := (t % 32, physicalRow s d (t % 32) (t / 32))

/-! ### Judgements -/

/-- Key of an endpoint's tile, where it names one of this package. -/
def unitKey (unit : Nat) : Nat := epDie unit * 768 + epTile unit

/-- Transient judgements of a unit within the transient window (R439, 0x7014.01 in hours). -/
def transientCount (s : State) (unit : Nat) : Nat :=
  (s.history.filter (fun h => decide (h.1 = unit) && decide (s.now < h.2.2 + s.reg 0x701401 * 3600 * 10 ^ 9))).length

/-- Write a judgement entry (R449): it is also the last judgement (R455). -/
def judgeEntry (unit source outcome : Nat) (s : State) : State :=
  let n := transientCount s unit
  let pay := atBit 232 unit + atBit 216 source + atBit 208 outcome + atBit 200 (n % 256)
  let e := trunkEntry s.trunk.nextSeq s.now 5 (epDie unit) (stateCode s.life) pay
  setBlob 0x701407 e (trunkPost 0 5 (epDie unit) pay s)

/-- A permanent judgement (R439): 0x7009, counted, and the action of R438. -/
def judgePermanent (unit source : Nat) (s : State) : State :=
  let s := judgeEntry unit source 2 s
  let s := raiseAt 0x7009 (epDie unit) (epTile unit) source source (bumpReg 0x701405 1 s)
  if source = 0x7004 then enterFault 0x7009 s
  else if epTile unit < 768 then
    abortAttempt 5 { s with retireQ := if s.retireQ.any (fun q => q.1 == unitKey unit) then s.retireQ else s.retireQ ++ [(unitKey unit, source)] }
  else s

/-- A judgement that the fault has passed (R439): transient, unless the history limit is reached. -/
def judgePassed (unit source : Nat) (s : State) : State :=
  if s.reg 0x701402 ≤ transientCount s unit then judgePermanent unit source s
  else
    let s := { s with history := s.history ++ [(unit, source, s.now)] }
    raiseAt 0x7008 (epDie unit) (epTile unit) source source (bumpReg 0x701404 1 (judgeEntry unit source 1 s))

/-- A detection of a step source (R438, R439): the event is raised by the caller; the same source in the same unit in a
later attempt of the same step is permanent, else the unit becomes a suspect. -/
def suspectUnit (source unit : Nat) (s : State) : State :=
  if s.step.phase = .idle ∨ s.step.phase = .decided then s
  else
    match s.step.suspects.find? (fun x => decide (x.source = source) && decide (x.unit = unit)) with
    | none =>
      { s with step := { s.step with suspects := s.step.suspects ++
          [{ source := source, unit := unit, step := s.stepNo, attempt := s.step.attempt }] } }
    | some x =>
      if x.step = s.stepNo ∧ x.attempt < s.step.attempt then
        judgePermanent unit source { s with step := { s.step with suspects := s.step.suspects.filter (fun y => decide (y ≠ x)) } }
      else s

/-- The abort cause that a detection source leads to (R239, R438). -/
def sourceCause (source : Nat) : Nat := if source = 0x7001 then 3 else if source = 0x7003 then 2 else 8

/-- At the end of an attempt: a suspect of an earlier attempt whose repetition has passed is judged; it is carried on
where this attempt was aborted for a cause other than its own source (R439). -/
def judgeAttempt (cause : Nat) (s : State) : State :=
  let done := s.step.suspects.filter (fun x =>
    (decide (x.attempt < s.step.attempt) || decide (x.step ≠ s.stepNo)) && (cause == 0 || cause == sourceCause x.source))
  let s := { s with step := { s.step with suspects := s.step.suspects.filter (fun x => !done.contains x) } }
  allOf done (fun x => judgePassed x.unit x.source) s

end Sys2Proof.Machine
end

