-- ==== Sys2Proof/Machine/Links.lean ====
section
/-!
DEFINITION. Link-level retry, shared by Tightrope and Midway (R281-R283, R297-R300): packing slots into flits under
credits, acceptance in SEQ order, acknowledgement, NAK and replay.
-/

namespace Sys2Proof.Machine

/-- What distinguishes the two kinds of link: payload slots per flit, replay buffer, channels, and whether it is Midway. -/
structure LinkKind where
  slots : Nat
  replay : Nat
  channels : Nat
  midway : Bool
deriving DecidableEq, Repr

/-- A Tightrope edge end (R280-R283). -/
def tropeLink : LinkKind := { slots := 15, replay := 64, channels := 2, midway := false }

/-- A Midway port end (R297-R300). -/
def midwayLink : LinkKind := { slots := 19, replay := 256, channels := 6, midway := true }

/-- The CRC of a flit of the kind. -/
def linkCrc (k : LinkKind) (f : Flit) : BitVec 32 := if k.midway then midwayCrc f else tropeCrc f

/-- Take up to `n` slots whose channels hold credits, oldest first, keeping the order within a channel: the slots
taken, those left, and the credits left. -/
def takeSlots : Nat → List Nat → List Nat → List Slot → List Slot × List Slot × List Nat
  | _, _, cr, [] => ([], [], cr)
  | 0, _, cr, q => ([], q, cr)
  | n + 1, blocked, cr, s :: q =>
    let v := s.vc.toNat
    if blocked.contains v ∨ nth cr v = 0 then
      let r := takeSlots n (v :: blocked) cr q
      (r.1, s :: r.2.1, r.2.2)
    else
      let r := takeSlots n blocked (setAt cr v (nth cr v - 1)) q
      (s :: r.1, r.2.1, r.2.2)

/-- Build the next flit of an end with the given payload; it enters the replay buffer (R282, R299). -/
def sendFlit (k : LinkKind) (payload : List Slot) (l : LinkEnd) : Flit × LinkEnd :=
  let f : Flit := { seq := l.next, ack := l.accepted, ackv := l.accV, nak := l.refusing, credits := l.owed.map (min 1023), slots := payload }
  let f := { f with crc := linkCrc k f }
  (f, { l with next := l.next + 1, replay := l.replay ++ [f], owed := l.owed.map (· - 1023) })

/-- Send what can be sent; `reply` asks for a flit even without messages (an acknowledgement, a NAK or credits). -/
def pumpFuel (k : LinkKind) : Nat → Bool → LinkEnd → List Flit × LinkEnd
  | 0, _, l => ([], l)
  | n + 1, reply, l =>
    if k.replay ≤ l.replay.length then ([], l)
    else
      let t := takeSlots k.slots [] l.credits l.txq
      if t.1 = [] then
        if reply then
          let r := sendFlit k [] l
          ([r.1], r.2)
        else ([], l)
      else
        let r := sendFlit k t.1 { l with txq := t.2.1, credits := t.2.2 }
        let rest := pumpFuel k n false r.2
        (r.1 :: rest.1, rest.2)

/-- Send what can be sent. -/
def pump (k : LinkKind) (reply : Bool) (l : LinkEnd) : List Flit × LinkEnd := pumpFuel k (l.txq.length + 1) reply l

/-- Is `a` at or before `b` in the half of the sequence space behind `b` (R280)? -/
def seqCovers (b a : BitVec 12) : Bool := decide ((b - a).toNat < 2048)

/-- Take the acknowledgement and the credits a flit returns (R282, R283, R299, R300). -/
def takeReturns (f : Flit) (l : LinkEnd) : LinkEnd :=
  let l := if f.ackv then { l with replay := l.replay.filter (fun g => !seqCovers f.ack g.seq) } else l
  { l with credits := (List.range l.credits.length).map (fun i => nth l.credits i + nth f.credits i) }

/-- The payload slots that carry messages. -/
def liveSlots (f : Flit) : List Slot := f.slots.filter (fun s => s.kind == 1 || s.kind == 2)

/-- What receiving a flit did. -/
inductive Received where
  /-- accepted in order -/
  | accepted
  /-- discarded: failed its check, out of order, or following a discarded one -/
  | discarded (failedCheck : Bool)
  /-- discarded, and the same flit has now been refused 8 times in succession -/
  | replayLimit
deriving DecidableEq, Repr

/-- Receive a flit that is not a test flit (R281, R298): `intact` says whether its codewords, CRC and fields pass. -/
def receiveFlit (f : Flit) (intact : Bool) (l : LinkEnd) : Received × LinkEnd :=
  if intact then
    let l := takeReturns f l
    if f.seq = l.accepted + 1 then
      (.accepted, { l with accepted := f.seq, accV := true, refusing := false, refusals := 0, rx := l.rx ++ liveSlots f })
    else (.discarded false, l)
  else
    let n := l.refusals + 1
    if 8 ≤ n then (.replayLimit, { l with refusing := true, refusals := 0 })
    else (.discarded true, { l with refusing := true, refusals := n })

/-- The flits a NAK asks for again: every flit after its ACK, with the same bits (R282, R299). -/
def replayAfter (f : Flit) (l : LinkEnd) : List Flit := if f.nak then l.replay.filter (fun g => !seqCovers f.ack g.seq) else []

/-- The first complete message of a channel in the receive buffer, and the buffer without its slots. -/
def takeMessage (vc : Nat) (rx : List Slot) : Option (Msg × List Slot) :=
  let mine := rx.filter (fun s => decide (s.vc.toNat = vc))
  match mine with
  | [] => none
  | h :: rest =>
    let n := headerLen h.data
    if rest.length < n then none
    else
      let data := (rest.take n).flatMap (fun s => s.data)
      some (slotMsg h.data data, (rx.filter (fun s => decide (s.vc.toNat ≠ vc))) ++ rest.drop n)

end Sys2Proof.Machine
end

