-- ==== Sys2Proof/Machine/Net.lean ====
section
/-!
DEFINITION. Midway routing (R304-R309), the ports' transmit side (R297, R300), header samples (R319), and the sending
side of end-to-end flows (R312, R314, R315).
-/

namespace Sys2Proof.Machine

/-! ### Ports and routes -/

/-- A port. -/
def State.port (s : State) (p : Nat) : MidPort := s.ports.getD p {}

/-- Change a port. -/
def modPort (p : Nat) (f : MidPort → MidPort) (s : State) : State := { s with ports := setAt s.ports p (f (s.port p)) }

/-- Die of a port (R15). -/
def portDie (p : Nat) : Nat := p % 4

/-- The descriptor in force, an empty one where none is verified. -/
def State.descr (s : State) : Desc := s.desc.getD {}

/-- Own position (R321). -/
def State.pos (s : State) : Nat := s.reg 0x400005

/-- What a port of this package is wired to; no descriptor: pair code 15. -/
def wireOf (s : State) (p : Nat) : Wire :=
  match s.desc with
  | none => { pair := 15, farPos := 0, farPort := 0 }
  | some d => d.wires.getD (16 * s.pos + p) { pair := 15, farPos := 0, farPort := 0 }

/-- The ports of a pair, in ascending order (R305). -/
def pairPorts (s : State) (pair : Nat) : List Nat := (List.range 16).filter (fun p => decide ((wireOf s p).pair = pair))

/-- Is a port up? -/
def portUp (s : State) (p : Nat) : Bool := (s.port p).st == .up

/-- Is the neighbour of a pair unreachable: every port of the pair down or miswired (R308)? -/
def pairUnreachable (s : State) (pair : Nat) : Bool :=
  let ps := pairPorts s pair
  decide (ps ≠ []) && ps.all (fun p => (s.port p).st == .down || (s.port p).st == .miswired || (s.port p).lost)

/-- x, y, z of a coordinate. -/
def coordDim (c k : Nat) : Nat := if k = 0 then c / 256 % 16 else if k = 1 then c / 16 % 16 else c % 16

/-- Torus size of a dimension. -/
def sizeDim (d : Desc) (k : Nat) : Nat := if k = 0 then d.nx else if k = 1 then d.ny else d.nz

/-- Does a coordinate lie inside the sizes (R304)? -/
def coordInside (d : Desc) (c : Nat) : Bool :=
  decide (coordDim c 0 < d.nx) && decide (coordDim c 1 < d.ny) && decide (coordDim c 2 < d.nz)

/-- The dimensions of an order, first to last: 0 XYZ, 1 XZY, 2 YXZ, 3 YZX, 4 ZXY, 5 ZYX (R307). -/
def orderDims (o : Nat) : List Nat :=
  match o with
  | 0 => [0, 1, 2] | 1 => [0, 2, 1] | 2 => [1, 0, 2] | 3 => [1, 2, 0] | 4 => [2, 0, 1] | _ => [2, 1, 0]

/-- Direction in a dimension: false plus, true minus (R306). -/
def dimMinus (d : Desc) (k here there : Nat) : Bool :=
  if bitAt d.wrap k then
    let n := sizeDim d k
    decide (n < 2 * ((there + n - here) % n))
  else decide (there < here)

/-- Next pair from `here` to `there` under an order (R306, R307): 8 at the destination. -/
def torusNext (d : Desc) (o here there : Nat) : Nat :=
  match (orderDims o).find? (fun k => decide (1 < sizeDim d k) && decide (coordDim here k ≠ coordDim there k)) with
  | none => 8
  | some k => 2 * k + boolNat (dimMinus d k (coordDim here k) (coordDim there k))

/-- The nearest member before a position in its spare ring (R309), as a position. -/
def gatewayOf (d : Desc) (pos : Nat) : Option Nat :=
  (d.rings.find? (fun r => r.contains pos)).bind (fun r =>
    let i := r.idxOf pos
    let before := (List.range (r.length - 1)).map (fun j => r.getD ((i + 2 * r.length - 1 - j) % r.length) 0)
    before.find? (fun p => match d.positions[p]? with
      | some e => !e.spare
      | none => false))

/-- Is this package a spare position (R309), whether or not it has adopted? -/
def isSpare (s : State) : Bool :=
  match s.descr.positions[s.pos]? with
  | some e => e.spare
  | none => false

/-- A route: STATE, GATE and the next pair under an order (R307). -/
def routeTo (s : State) (o dst : Nat) : Nat × Nat × Nat :=
  let d := s.descr
  if s.desc.isNone then (3, 0, 15)
  else if dst = s.coord then (1, 0, 8)
  else if isSpare s then (if coordInside d dst then (2, s.coord, 7) else (3, 0, 15))
  else if !coordInside d dst then (3, 0, 15)
  else
    match s.adopted.find? (fun a => decide (a.1 = dst)) with
    | none => (0, 0, torusNext d o s.coord dst)
    | some a =>
      match gatewayOf d a.2 with
      | none => (3, 0, 15)
      | some g =>
        let gc := ((d.positions[g]?).map (fun e => e.coord)).getD 0
        if gc = s.coord then (2, gc, 7) else (2, gc, torusNext d o s.coord gc)

/-- An entry of the route table (R307). -/
def routeEntry (s : State) (dst : Nat) : Nat :=
  let r := routeTo s 0 dst
  atBit 62 r.1 + atBit 48 r.2.1 + slotFields 4 ((List.range 6).map (fun o => (routeTo s o dst).2.2))

/-- VC class of a message type: 2 for responses, 0 for requests (R300, R311). -/
def vcBase (m : Msg) : Nat := if m.type = 3 ∨ m.type = 5 then 2 else 0

/-- Is a message type sequenced (R311)? -/
def sequenced (t : BitVec 4) : Bool := t != 5 && t != 0xB

/-- Is a message type defined (R311)? -/
def typeDefined (t : BitVec 4) : Bool := (decide (1 ≤ t.toNat) && decide (t.toNat ≤ 9)) || t == 0xB

/-- Does a hop from `here` in a direction of dimension `k` cross a wrap link (R306)? -/
def crossesWrap (d : Desc) (k here : Nat) (minus : Bool) : Bool :=
  bitAt d.wrap k && (if minus then decide (here = 0) else decide (here + 1 = sizeDim d k))

/-- Discard a message with an event of a die (R310, R311). -/
def discardMsg (code d : Nat) (m : Msg) (s : State) : State :=
  let k := if code = 0x4005 then 0x818012 else 0x818011
  raiseAt code d 768 0 m.type.toNat (bumpReg (dieKey d k) 1 s)

/-- The port of a pair a message leaves by (R305). -/
def choosePort (s : State) (pair : Nat) (m : Msg) : Option Nat :=
  let ps := pairPorts s pair
  if pair = 7 then
    -- the outgoing port is the one wired to the next position's incoming port
    match ps with
    | [p] => some p
    | ps =>
      let next := (s.descr.rings.find? (fun r => r.contains s.pos)).map (fun r => r.getD ((r.idxOf s.pos + 1) % r.length) 0)
      ps.find? (fun p => decide (some (wireOf s p).farPos = next))
  else
    match ps with
    | [a, b] =>
      let first := if m.dst.getLsbD 0 then b else a
      let other := if m.dst.getLsbD 0 then a else b
      if portUp s first then some first else if portUp s other then some other else some first
    | [a] => some a
    | _ => none

/-- Sample a header (R319): every 2^shift-th header of a port direction yields a record in the die's ring. -/
def sampleHeader (p : Nat) (sent : Bool) (vc qocc cred : Nat) (m : Msg) (s : State) : State :=
  let sh := s.reg 0x40000C
  let mp := s.port p
  let n := if sent then mp.txHeaders else mp.rxHeaders
  let s := modPort p (fun q => if sent then { q with txHeaders := q.txHeaders + 1 } else { q with rxHeaders := q.rxHeaders + 1 }) s
  if sh = 0 ∨ (n + 1) % 2 ^ sh ≠ 0 then s
  else
    let rec_ : SampleRec := BitVec.ofNat 512
      (atBit 448 (s.now % 2 ^ 64) + atBit 444 p + atBit 443 (boolNat sent) + atBit 440 vc + atBit 436 m.type.toNat
        + atBit 412 m.dst.toNat + atBit 388 m.src.toNat + atBit 376 m.stag.toNat + atBit 344 m.eseq.toNat
        + atBit 336 m.repoch.toNat + atBit 333 m.rmode.toNat + atBit 327 m.hops.toNat + atBit 320 (msgLen m)
        + atBit 309 qocc + atBit 298 cred + atBit 266 ((n + 1) % 2 ^ 32))
    let d := portDie p
    let ring := (s.samples.getD d []) ++ [rec_]
    let s := { s with samples := setAt s.samples d (ring.drop (ring.length - 4096)) }
    modPort p (fun q => { q with counters := setAt q.counters 8 ((nth q.counters 8 + 1) % 2 ^ 64) }) s

/-- Send what a port can send. -/
def pumpPort (p : Nat) (reply : Bool) (s : State) : State :=
  let mp := s.port p
  if mp.st = .up then
    let r := pump midwayLink reply mp.link
    let s := modPort p (fun q => { q with link := r.2, counters := setAt q.counters 3 ((nth q.counters 3 + r.1.length) % 2 ^ 64) }) s
    allOf r.1 (fun f => emit (.midway (Fin.ofNat 16 p) f)) s
  else s

/-- Hand a message to a port on a virtual channel. -/
def handToPort (p vc : Nat) (m : Msg) (s : State) : State :=
  let mp := s.port p
  let s := sampleHeader p true vc ((mp.link.rx.filter (fun x => decide (x.vc.toNat = vc))).length) (nth mp.link.credits vc) m s
  let s := modPort p (fun q => { q with link := { q.link with txq := q.link.txq ++ msgSlots m vc } }) s
  pumpPort p false s

/-- The dimension a detour takes: the first after `k`, cyclically, of size above 1 with a reachable plus or minus
neighbour, in that preference (R308). -/
def detourPair (s : State) (k : Nat) : Option Nat :=
  let pairs := [2 * ((k + 1) % 3), 2 * ((k + 1) % 3) + 1, 2 * ((k + 2) % 3), 2 * ((k + 2) % 3) + 1]
  pairs.find? (fun p => decide (1 < sizeDim s.descr (p / 2)) && decide (pairPorts s p ≠ []) && !pairUnreachable s p)

/-- The order of three dimensions. -/
def orderOf (a b c : Nat) : Nat := ((List.range 6).find? (fun o => decide (orderDims o = [a, b, c]))).getD 0

/-- Send a message out on a pair: dateline class, HOPS, and the port (R305, R306, R309). `arr` is the pair it arrived
on and its class, none where it starts here. -/
def leaveBy (pair base cls : Nat) (m : Msg) (d : Nat) (s : State) : State :=
  if 63 < m.hops.toNat + 1 then discardMsg 0x4006 d m s
  else
    match choosePort s pair m with
    | none => discardMsg 0x4006 d m s
    | some p =>
      if pair = 7 ∧ !portUp s p then discardMsg 0x4006 d m s
      else handToPort p (base + cls) { m with hops := m.hops + 1 } s

/-- The ring crosses its dateline from its last position to its first (R309). -/
def ringWraps (s : State) : Bool :=
  match s.descr.rings.find? (fun r => r.contains s.pos) with
  | none => false
  | some r => decide (r.idxOf s.pos + 1 = r.length)

/-- Route a message out of this package (R305-R309): `inPair` is the pair and virtual channel it arrived on, none where
it starts here; `d` the die that handles it. -/
def routeOut (d : Nat) (inPair : Option (Nat × Nat)) (m : Msg) (s : State) : State :=
  let desc := s.descr
  let dst := epCoord m.dst.toNat
  let partner := s.reg 0x102402
  if m.type ≠ 0xB ∧ !coordInside desc dst then discardMsg 0x4006 d m s
  else
    let alt := match inPair with
      | some a => decide (4 ≤ a.2)
      | none => false
    let base := if alt then 4 else vcBase m
    let nextPair :=
      if inPair.isNone ∧ dst = partner ∧ (pairPorts s 6).any (portUp s) then 6
      else (routeTo s m.rmode.toNat dst).2.2
    let inCls := match inPair with
      | some a => a.2 % 2
      | none => 0
    let sameDim := match inPair with
      | some a => decide (a.1 / 2 = nextPair / 2) && decide (a.1 < 6)
      | none => false
    if nextPair = 15 ∨ nextPair = 8 then discardMsg 0x4006 d m s
    else if nextPair = 7 then
      let ringIn := match inPair with
        | some a => decide (a.1 = 7)
        | none => false
      leaveBy 7 base (if ringWraps s then 1 else if ringIn then inCls else 0) m d s
    else if nextPair = 6 then leaveBy 6 base 0 m d s
    else
      let k := nextPair / 2
      let here := coordDim s.coord k
      let minus := decide (nextPair % 2 = 1)
      let cls := if crossesWrap desc k here minus then 1 else if sameDim then inCls else 0
      if !pairUnreachable s nextPair then leaveBy nextPair base cls m d s
      else if alt then discardMsg 0x4006 d m s
      else
        -- the destination is that neighbour, or a detour of one hop
        let n := sizeDim desc k
        let far := if minus then (here + n - 1) % n else (here + 1) % n
        let isFar := decide (coordDim dst k = far) && (orderDims 0).all (fun j => j == k || decide (coordDim dst j = coordDim s.coord j))
        match detourPair s k with
        | none => discardMsg 0x4006 d m s
        | some q =>
          if isFar then discardMsg 0x4006 d m s
          else
            let j := q / 2
            let s := bumpReg (dieKey d 0x818014) 1 s
            let s := if s.rounded.contains nextPair then s
              else raiseAt 0x4007 d 768 nextPair 0 { s with rounded := s.rounded ++ [nextPair] }
            leaveBy q 4 inCls { m with rmode := BitVec.ofNat 3 (orderOf k (3 - k - j) j) } d s

/-! ### Flows -/

/-- Key of a sending flow: source die and destination endpoint die (R312). -/
def txKey (die dst : Nat) : Nat := die * 16384 + dst / 1024 % 16384

/-- The sending side of a flow. -/
def State.flowTx (s : State) (k : Nat) : FlowTx := smGetD s.flowsTx k {}

/-- The receiving side of a flow. -/
def State.flowRx (s : State) (k : Nat) : FlowRx := smGetD s.flowsRx k {}

/-- Replace a sending flow. -/
def setTx (k : Nat) (f : FlowTx) (s : State) : State := { s with flowsTx := smPut s.flowsTx k f }

/-- Replace a receiving flow. -/
def setRx (k : Nat) (f : FlowRx) (s : State) : State := { s with flowsRx := smPut s.flowsRx k f }

/-- Bytes a die's retransmit store holds (R314). -/
def storeBytes (s : State) (die : Nat) : Nat :=
  ((s.flowsTx.filter (fun p => decide (p.1 / 16384 = die))).flatMap (fun p => p.2.unacked.map (fun u => 64 + u.msg.data.length))).foldl (· + ·) 0

/-- Number and send a message of a flow that has room for it (R312, R314). -/
def sendWaiting (w : Waiting) (s : State) : State :=
  let k := txKey w.die w.msg.dst.toNat
  let f := s.flowTx k
  let m := msgSeal { w.msg with eseq := f.next, repoch := BitVec.ofNat 8 (s.reg 0x400006) }
  let s := setTx k { f with next := f.next + 1, unacked := f.unacked ++ [{ msg := m, owner := w.owner }] } s
  let s := highReg (dieKey w.die 0x818015) (storeBytes s w.die / 1024) s
  routeOut w.die none m s

/-- Send a sequenced message from a die; where the store is full the message waits (R314). A closed flow sends nothing
until the next route epoch: its messages wait for it. -/
def sendMsg (die : Nat) (owner : Option (Nat × Nat)) (m : Msg) (s : State) : State :=
  let w : Waiting := { die := die, owner := owner, msg := m }
  let k := txKey die m.dst.toNat
  if (s.flowTx k).closed then { s with resendNext := s.resendNext ++ [w] }
  else if 0x400_0000 < storeBytes s die + 64 + m.data.length ∨ s.txWait.any (fun x => decide (x.die = die)) then
    { s with txWait := s.txWait ++ [w] }
  else sendWaiting w s

/-- Send an unsequenced message (ACK, PROBE). -/
def sendBare (die : Nat) (m : Msg) (s : State) : State :=
  routeOut die none (msgSeal { m with repoch := BitVec.ofNat 8 (s.reg 0x400006) }) s

/-- Admit waiting messages while the store has room. -/
def admitWaiting : List Waiting → State → State
  | [], s => s
  | w :: ws, s =>
    if 0x400_0000 < storeBytes s w.die + 64 + w.msg.data.length then admitWaiting ws { s with txWait := s.txWait ++ [w] }
    else admitWaiting ws (sendWaiting w s)

/-- Retry every waiting message in order. -/
def retryWaiting (s : State) : State := admitWaiting s.txWait { s with txWait := [] }

end Sys2Proof.Machine
end

