-- ==== Sys2Proof/Machine/Arrive.lean ====
section
/-!
DEFINITION. What reaches a tile or a control core from outside: program faults and errors, lines, tokens and signals with
their step tags (R45, R69, R85, R86, R386, R518), and the ends of transfers (R83, R88, R94).
-/

namespace Sys2Proof.Machine

/-- Die and tile number of a tile key. -/
def keyDie (k : Nat) : Nat := k / 768

/-- Tile number of a tile key. -/
def keyTile (k : Nat) : Nat := k % 768

/-- Endpoint of a tile of this package. -/
def tileEp (s : State) (k : Nat) : Nat := endpoint s (keyDie k) (keyTile k)

/-- A program fault of a tile (R69): 0x7003 with instruction bits 63:32, counted, a suspect, cause 2. -/
def progFault (k op : Nat) (s : State) : State :=
  let s := raiseAt 0x7003 (keyDie k) (keyTile k) 0 op (bumpReg (dieKey (keyDie k) 0x806008) 1 s)
  abortAttempt 2 (suspectUnit 0x7003 (tileEp s k) s)

/-- A program error (R518): its event with an OPERATION, cause 10. -/
def progError (k code op : Nat) (s : State) : State :=
  let s := raiseAt code (keyDie k) (keyTile k) 0 op s
  let s := if code = 0x2001 then bumpReg (dieKey (keyDie k) 0x81400E) 1 s else s
  abortAttempt 10 s

/-- An access of a tile outside every address range (R16). -/
def outOfRange (k : Nat) (a : Nat) (s : State) : State := progError k 0x2001 (bitField a 43 12) s

/-- An uncorrectable SRAM word met by an access (R46): 0x7001 with its bank, counted, a suspect, cause 3. -/
def sramUncorrectable (k : Nat) (a : Nat) (s : State) : State :=
  let s := raiseAt 0x7001 (keyDie k) (keyTile k) (a / 64 % 16) 0 (bumpReg (dieKey (keyDie k) 0x804008) 1 s)
  abortAttempt 3 (suspectUnit 0x7001 (tileEp s k) s)

/-- The step tag that follows a tag's step, attempt 0 (R86). -/
def nextTag (t : BitVec 12) : BitVec 12 := BitVec.ofNat 12 ((t.toNat / 16 + 1) % 256 * 16)

/-- Add to a token counter of a tile (R85): beyond 65,535 is a program fault (R69). Lines from outside that came before
are ordered by it (R45). -/
def addToken (k : Nat) (tk : Fin 64) (cnt : Nat) (s : State) : State :=
  let t := s.tile k
  let n := (t.tok[tk]).toNat + cnt
  if 65535 < n then progFault k 0 s
  else setTile k { t with tok := t.tok.set tk (BitVec.ofNat 16 n), outside := t.outside.map (fun o => { o with by_ := tk.val :: o.by_ }) } s

/-- Write bytes of one line from outside into a tile's SRAM (R45). -/
def putLine (k local_ : Nat) (bs : List Byte) (s : State) : State :=
  let s := putMem (tileBase k + localAddr local_) bs s
  modTile k (fun t => { t with outside := t.outside.filter (fun o => decide (o.line ≠ localAddr local_ / 64)) ++ [{ line := localAddr local_ / 64 }] }) s

/-- Deliver an item with a step tag against a current tag (R86): applied, held for the next step, or discarded and
counted. A full early-arrival queue withholds credits: the item does not arrive yet. -/
def byTag (d : Nat) (cur tag : BitVec 12) (item : EarlyItem) (apply : State → State) (s : State) : State :=
  if tag = cur then apply s
  else if tag = nextTag cur then
    let q := s.early.getD d []
    if 4096 ≤ q.length then s
    else
      let s := bumpReg (dieKey d 0x806004) 1 { s with early := setAt s.early d (q ++ [item]) }
      highReg (dieKey d 0x806005) (q.length + 1) s
  else bumpReg (dieKey d (match item with
    | .core _ _ _ _ => 0x81C009
    | _ => 0x806003)) 1 s

/-- A PUT line arrives at a tile (R86). -/
def arriveLine (k : Nat) (tag : BitVec 12) (local_ : Nat) (bs : List Byte) (s : State) : State :=
  byTag (keyDie k) (s.tile k).tag tag (.line (keyTile k) local_ bs) (putLine k local_ bs) s

/-- A token arrives at a tile (R86). -/
def arriveToken (k : Nat) (tag : BitVec 12) (tk : Fin 64) (cnt : Nat) (s : State) : State :=
  byTag (keyDie k) (s.tile k).tag tag (.token (keyTile k) tk cnt) (addToken k tk cnt) s

/-- A signal of the current step reaches control core `c` of a die (R386): an item of the flow the signal map names;
endpoint 775 with TK 63 is the reduce readiness of layer CNT - 1 (R328). -/
def coreSignal (d c : Nat) (tk : Fin 64) (cnt src : Nat) (tag : BitVec 12) (s : State) : State :=
  let ix := 64 * c + tk.val
  if ix = 511 then
    let key := d * 65536 + (cnt - 1)
    { s with layerReady := smPut s.layerReady key (smGetD s.layerReady key 0 + 1) }
  else
    let flow := nth (s.ring d).signalMap ix
    let r := postItem d flow (itemBits flow 1 src tag.toNat (atBit 186 tk.val + atBit 170 cnt)) s
    match r.2 with
    | 0 => r.1
    | 1 => bumpReg (dieKey d 0x81C00B) 1 (bumpReg (dieKey d 0x81C00A) 1 s)
    | _ => bumpReg (dieKey d 0x81C009) 1 s

/-- A signal arrives at a control core with its tag, against the die's current tag (R386). -/
def arriveCore (d c : Nat) (tag : BitVec 12) (tk : Fin 64) (cnt src : Nat) (s : State) : State :=
  byTag d (s.dieTags.getD d 0) tag (.core c tk cnt src) (coreSignal d c tk cnt src tag) s

/-- Would a signal to a control core find its flow full (R387)? -/
def coreFlowFull (s : State) (d c : Nat) (tk : Fin 64) : Bool :=
  let ix := 64 * c + tk.val
  if ix = 511 then false
  else
    match smFind (s.ring d).flows (nth (s.ring d).signalMap ix) with
    | none => false
    | some f => decide (f.kind ≠ .hw) && decide (f.limit ≤ f.items.length + f.inService)

/-! ### Transfers -/

/-- A transfer of a tile. -/
def findXfer (t : Tile) (id : Nat) : Option Xfer := t.xfers.find? (fun x => decide (x.id = id))

/-- Change a transfer of a tile. -/
def modXfer (k id : Nat) (f : Xfer → Xfer) (s : State) : State :=
  modTile k (fun t => { t with xfers := t.xfers.map (fun x => if x.id = id then f x else x) }) s

/-- One remote answer or acknowledgement of a transfer has come. -/
def answerXfer (k id : Nat) (s : State) : State := modXfer k id (fun x => { x with waits := x.waits - 1 }) s

/-- The unit a transfer occupies (R67). -/
def xferUnit : XferKind → Nat
  | .get => 0
  | .put => 0
  | .swap => 1
  | .sample => 2
  | .table => 3
  | .signal => 4

/-- Within one unit, instructions complete in issue order (R67). -/
def firstOfUnit (t : Tile) (x : Xfer) : Bool :=
  ((t.xfers.find? (fun y => decide (xferUnit y.kind = xferUnit x.kind))).map (fun y => decide (y.id = x.id))).getD false

/-- Complete a transfer of the given kinds that waits for nothing: it leaves the tile and its local token is applied
(R83, R88, R94). -/
def completeXfer (k id : Nat) (kinds : List XferKind) (s : State) : State :=
  match findXfer (s.tile k) id with
  | none => s
  | some x =>
    if kinds.contains x.kind && x.waits == 0 && x.slice.isNone && firstOfUnit (s.tile k) x then
      let s := modTile k (fun t => { t with xfers := t.xfers.filter (fun y => decide (y.id ≠ id)) }) s
      match x.tk with
      | none => s
      | some tk => addToken k tk 1 s
    else s

end Sys2Proof.Machine
end

