-- ==== Sys2Proof/Machine/Sha.lean ====
section
/-!
DEFINITION. The SHA-2 digests and the authentication code that the spec names: SHA-256, SHA-384 and HMAC-SHA-256 (FIPS 180-4,
FIPS 198-1; R302, R401, R474, R484, R515).
-/

namespace Sys2Proof.Machine

/-! ### SHA-256 -/

/-- Round constants of SHA-256. -/
def sha256K : List Nat :=
  [0x428a2f98, 0x71374491, 0xb5c0fbcf, 0xe9b5dba5, 0x3956c25b, 0x59f111f1, 0x923f82a4, 0xab1c5ed5,
   0xd807aa98, 0x12835b01, 0x243185be, 0x550c7dc3, 0x72be5d74, 0x80deb1fe, 0x9bdc06a7, 0xc19bf174,
   0xe49b69c1, 0xefbe4786, 0x0fc19dc6, 0x240ca1cc, 0x2de92c6f, 0x4a7484aa, 0x5cb0a9dc, 0x76f988da,
   0x983e5152, 0xa831c66d, 0xb00327c8, 0xbf597fc7, 0xc6e00bf3, 0xd5a79147, 0x06ca6351, 0x14292967,
   0x27b70a85, 0x2e1b2138, 0x4d2c6dfc, 0x53380d13, 0x650a7354, 0x766a0abb, 0x81c2c92e, 0x92722c85,
   0xa2bfe8a1, 0xa81a664b, 0xc24b8b70, 0xc76c51a3, 0xd192e819, 0xd6990624, 0xf40e3585, 0x106aa070,
   0x19a4c116, 0x1e376c08, 0x2748774c, 0x34b0bcb5, 0x391c0cb3, 0x4ed8aa4a, 0x5b9cca4f, 0x682e6ff3,
   0x748f82ee, 0x78a5636f, 0x84c87814, 0x8cc70208, 0x90befffa, 0xa4506ceb, 0xbef9a3f7, 0xc67178f2]

/-- Initial hash of SHA-256. -/
def sha256H : List Nat := [0x6a09e667, 0xbb67ae85, 0x3c6ef372, 0xa54ff53a, 0x510e527f, 0x9b05688c, 0x1f83d9ab, 0x5be0cd19]

/-- A padded message: a 1 bit, zeros, and the length in bits, to a multiple of `blk` bytes with `len` bytes of length. -/
def shaPad (blk len : Nat) (bs : List Byte) : List Byte :=
  let n := bs.length
  let z := (blk - (n + 1 + len) % blk) % blk
  bs ++ [0x80] ++ List.replicate z 0 ++ beBytes len (8 * n)

/-- What distinguishes SHA-256 from SHA-512: word width, rotations of the four functions, constants. -/
structure ShaKind where
  w : Nat
  big0 : Nat × Nat × Nat
  big1 : Nat × Nat × Nat
  small0 : Nat × Nat × Nat
  small1 : Nat × Nat × Nat
  consts : List Nat

/-- Rotate right. -/
def rotr (w n x : Nat) : Nat := (x >>> n) ||| (x * 2 ^ (w - n) % 2 ^ w)

/-- A capital sigma. -/
def bigSigma (w : Nat) (r : Nat × Nat × Nat) (x : Nat) : Nat := rotr w r.1 x ^^^ rotr w r.2.1 x ^^^ rotr w r.2.2 x

/-- A small sigma: two rotations and a shift. -/
def smallSigma (w : Nat) (r : Nat × Nat × Nat) (x : Nat) : Nat := rotr w r.1 x ^^^ rotr w r.2.1 x ^^^ (x >>> r.2.2)

/-- Extend the message schedule by `n` words; the newest word stands first. -/
def shaSchedule (k : ShaKind) : Nat → List Nat → List Nat
  | 0, ws => ws
  | n + 1, ws =>
    shaSchedule k n ((smallSigma k.w k.small1 (nth ws 1) + nth ws 6 + smallSigma k.w k.small0 (nth ws 14) + nth ws 15) % 2 ^ k.w :: ws)

/-- One round on the eight working variables. -/
def shaRound (k : ShaKind) (v : List Nat) (kw : Nat × Nat) : List Nat :=
  let a := nth v 0
  let b := nth v 1
  let c := nth v 2
  let e := nth v 4
  let f := nth v 5
  let g := nth v 6
  let m := 2 ^ k.w
  let ch := (e &&& f) ^^^ ((m - 1 - e) &&& g)
  let t1 := nth v 7 + bigSigma k.w k.big1 e + ch + kw.1 + kw.2
  let maj := (a &&& b) ^^^ (a &&& c) ^^^ (b &&& c)
  let t2 := bigSigma k.w k.big0 a + maj
  [(t1 + t2) % m, a, b, c, (nth v 3 + t1) % m, e, f, g]

/-- One block. -/
def shaBlock (k : ShaKind) (h : List Nat) (blk : List Byte) : List Nat :=
  let ws := (shaSchedule k (k.consts.length - 16) ((chunksOf (k.w / 8) blk).map beNat).reverse).reverse
  let v := (k.consts.zip ws).foldl (shaRound k) h
  (h.zip v).map (fun p => (p.1 + p.2) % 2 ^ k.w)

/-- SHA-256. -/
def sha256Kind : ShaKind :=
  { w := 32, big0 := (2, 13, 22), big1 := (6, 11, 25), small0 := (7, 18, 3), small1 := (17, 19, 10), consts := sha256K }

/-- The SHA-256 digest, 32 bytes. -/
def sha256 (bs : List Byte) : List Byte :=
  ((chunksOf 64 (shaPad 64 8 bs)).foldl (shaBlock sha256Kind) sha256H).flatMap (beBytes 4)

/-! ### SHA-384 -/

/-- Round constants of SHA-512, first half. -/
def sha512K0 : List Nat :=
  [0x428a2f98d728ae22, 0x7137449123ef65cd, 0xb5c0fbcfec4d3b2f, 0xe9b5dba58189dbbc, 0x3956c25bf348b538, 0x59f111f1b605d019,
   0x923f82a4af194f9b, 0xab1c5ed5da6d8118, 0xd807aa98a3030242, 0x12835b0145706fbe, 0x243185be4ee4b28c, 0x550c7dc3d5ffb4e2,
   0x72be5d74f27b896f, 0x80deb1fe3b1696b1, 0x9bdc06a725c71235, 0xc19bf174cf692694, 0xe49b69c19ef14ad2, 0xefbe4786384f25e3,
   0x0fc19dc68b8cd5b5, 0x240ca1cc77ac9c65, 0x2de92c6f592b0275, 0x4a7484aa6ea6e483, 0x5cb0a9dcbd41fbd4, 0x76f988da831153b5,
   0x983e5152ee66dfab, 0xa831c66d2db43210, 0xb00327c898fb213f, 0xbf597fc7beef0ee4, 0xc6e00bf33da88fc2, 0xd5a79147930aa725,
   0x06ca6351e003826f, 0x142929670a0e6e70, 0x27b70a8546d22ffc, 0x2e1b21385c26c926, 0x4d2c6dfc5ac42aed, 0x53380d139d95b3df,
   0x650a73548baf63de, 0x766a0abb3c77b2a8, 0x81c2c92e47edaee6, 0x92722c851482353b]

/-- Round constants of SHA-512, second half. -/
def sha512K1 : List Nat :=
  [0xa2bfe8a14cf10364, 0xa81a664bbc423001, 0xc24b8b70d0f89791, 0xc76c51a30654be30, 0xd192e819d6ef5218, 0xd69906245565a910,
   0xf40e35855771202a, 0x106aa07032bbd1b8, 0x19a4c116b8d2d0c8, 0x1e376c085141ab53, 0x2748774cdf8eeb99, 0x34b0bcb5e19b48a8,
   0x391c0cb3c5c95a63, 0x4ed8aa4ae3418acb, 0x5b9cca4f7763e373, 0x682e6ff3d6b2b8a3, 0x748f82ee5defb2fc, 0x78a5636f43172f60,
   0x84c87814a1f0ab72, 0x8cc702081a6439ec, 0x90befffa23631e28, 0xa4506cebde82bde9, 0xbef9a3f7b2c67915, 0xc67178f2e372532b,
   0xca273eceea26619c, 0xd186b8c721c0c207, 0xeada7dd6cde0eb1e, 0xf57d4f7fee6ed178, 0x06f067aa72176fba, 0x0a637dc5a2c898a6,
   0x113f9804bef90dae, 0x1b710b35131c471b, 0x28db77f523047d84, 0x32caab7b40c72493, 0x3c9ebe0a15c9bebc, 0x431d67c49c100d4c,
   0x4cc5d4becb3e42b6, 0x597f299cfc657e2a, 0x5fcb6fab3ad6faec, 0x6c44198c4a475817]

/-- Initial hash of SHA-384. -/
def sha384H : List Nat :=
  [0xcbbb9d5dc1059ed8, 0x629a292a367cd507, 0x9159015a3070dd17, 0x152fecd8f70e5939, 0x67332667ffc00b31, 0x8eb44a8768581511,
   0xdb0c2e0d64f98fa7, 0x47b5481dbefa4fa4]

/-- SHA-512, of which SHA-384 is a part. -/
def sha512Kind : ShaKind :=
  { w := 64, big0 := (28, 34, 39), big1 := (14, 18, 41), small0 := (1, 8, 7), small1 := (19, 61, 6), consts := sha512K0 ++ sha512K1 }

/-- The SHA-384 digest, 48 bytes. -/
def sha384 (bs : List Byte) : List Byte :=
  (((chunksOf 128 (shaPad 128 16 bs)).foldl (shaBlock sha512Kind) sha384H).flatMap (beBytes 8)).take 48

/-! ### HMAC -/

/-- HMAC-SHA-256 (FIPS 198-1). -/
def hmacSha256 (key msg : List Byte) : List Byte :=
  let k := if 64 < key.length then sha256 key else key
  let k := sliceBytes k 0 64
  sha256 (k.map (· ^^^ 0x5c) ++ sha256 (k.map (· ^^^ 0x36) ++ msg))

end Sys2Proof.Machine
end

