-- ==== Sys2Proof/Machine/Signing.lean ====
section
/-!
DEFINITION. Signed objects (R474), records in flash (R476, R477), device signatures (R480) and the field repair map (R56, R58, R255).
-/

namespace Sys2Proof.Machine

/-! ### Envelopes -/

/-- Offset 0: object kind. -/
def objKind (o : List Byte) : Nat := leAt o 0 2

/-- Offset 2: signer role. -/
def objRole (o : List Byte) : Nat := leAt o 2 2

/-- Offset 4: security version. -/
def objVersion (o : List Byte) : Nat := leAt o 4 4

/-- Offset 8: sequence. -/
def objSeq (o : List Byte) : Nat := leAt o 8 8

/-- Offset 16: body length B. -/
def objBodyLen (o : List Byte) : Nat := leAt o 16 4

/-- The 157 key bytes at offset 24. -/
def objKeys (o : List Byte) : List Byte := sliceBytes o 24 157

/-- The body. -/
def objBody (o : List Byte) : List Byte := sliceBytes o 184 (objBodyLen o)

/-- The signed bytes: offsets 0 to 183 + B. -/
def objSigned (o : List Byte) : List Byte := sliceBytes o 0 (184 + objBodyLen o)

/-- Is the envelope well formed: B in range and the length the fields give (R474)? -/
def objFramed (o : List Byte) : Bool :=
  decide (1 ≤ objBodyLen o) && decide (objBodyLen o ≤ 2 ^ 28) && decide (o.length = 280 + objBodyLen o + leAt o 20 4)

/-! ### The parts of the board -/

/-- Change what boot leaves in force. -/
def modBoot (f : Boot → Boot) (s : State) : State := let b := s.board; { s with board := { b with boot := f b.boot } }

/-- Change the flash. -/
def modFlash (f : Flash → Flash) (s : State) : State := let b := s.board; { s with board := { b with flash := f b.flash } }

/-- Change the power manager. -/
def modPower (f : PowerMan → PowerMan) (s : State) : State := let b := s.board; { s with board := { b with power := f b.power } }

/-- Change the pins. -/
def modPins (f : Pins → Pins) (s : State) : State := let b := s.board; { s with board := { b with pins := f b.pins } }

/-- Change the test access port. -/
def modTap (f : Tap → Tap) (s : State) : State := let b := s.board; { s with board := { b with tap := f b.tap } }

/-! ### Flash -/

/-- A copy of a record: as written, or as manufactured. -/
def flashRecord (s : State) (kind copy : Nat) : List Byte := smGetD s.board.flash.records (2 * kind + copy) (Config.factory (2 * kind + copy))

/-- An object in flash: firmware by slot, the others in slot 0. -/
def flashObject (s : State) (kind slot : Nat) : List Byte := smGetD s.board.flash.objects (2 * kind + slot) (Config.factory (2 * kind + slot))

/-- Rewrite the copy of a record with the lower sequence (R477). -/
def writeRecord (kind : Nat) (o : List Byte) (s : State) : State :=
  let copy := if objSeq (flashRecord s kind 1) < objSeq (flashRecord s kind 0) then 1 else 0
  modFlash (fun f => { f with records := smPut f.records (2 * kind + copy) o }) s

/-! ### Device signatures -/

/-- Signature indices left (R480). -/
def signaturesLeft (s : State) : Nat := 2 ^ 30 - s.board.boot.nextIndex

/-- Use a signature index (R480): the first of a block writes the block's end to the counter record. -/
def useIndex (s : State) : State :=
  let i := s.board.boot.nextIndex
  let s := if s.board.flash.counter ≤ i then modFlash (fun f => { f with counter := i + 1024 }) s else s
  let s := modBoot (fun b => { b with nextIndex := i + 1 }) s
  let s := setReg 0x104008 (signaturesLeft s) s
  if signaturesLeft s + 1 = 2 ^ 20 then raise_ 0x800A s else s

/-- May the device sign (R480, R479)? -/
def canSign (s : State) : Bool := s.board.boot.identity && decide (0 < signaturesLeft s)

/-- An object of a kind signed by the device (R474, R480). -/
def deviceSign (kind seq : Nat) (body : List Byte) (s : State) : List Byte × State :=
  let i := s.board.boot.nextIndex
  let h := leBytes 2 kind ++ leBytes 2 3 ++ leBytes 4 0 ++ leBytes 8 seq ++ leBytes 4 body.length ++ leBytes 4 5396 ++ sliceBytes Config.deviceKeys 0 157
    ++ [0, 0, 0] ++ body
  (h ++ sliceBytes (Config.ecdsaSign (sha384 h)) 0 96 ++ sliceBytes (Config.hssSign i h) 0 5396, useIndex s)

/-! ### Field repair map -/

/-- A repair map's body (assumption 91): counts of retired tiles, unusable spares, tiles judged on a short die, and stack rows, U16
each; tiles as die x 1,024 + physical row x 32 + column and spares as die x 32 + column, U32 each; then rows, U64 each. -/
def repairBody (s : State) : List Byte :=
  let judged := s.board.flash.judged
  leBytes 2 s.retired.length ++ leBytes 2 s.spareBad.length ++ leBytes 2 judged.length ++ leBytes 2 s.repairRows.length
    ++ s.retired.flatMap (fun p => leBytes 4 (p.1 / 32 * 1024 + p.2 * 32 + p.1 % 32)) ++ s.spareBad.flatMap (leBytes 4)
    ++ judged.flatMap (leBytes 4) ++ s.repairRows.flatMap (leBytes 8)

/-- The lists of a repair map's body: retired tiles, unusable spares, judged tiles, stack rows. -/
def parseRepair (b : List Byte) : List Nat × List Nat × List Nat × List Nat :=
  let r := leAt b 0 2
  let p := leAt b 2 2
  let j := leAt b 4 2
  let words := fun (off n : Nat) => (List.range n).map (fun i => leAt b (off + 4 * i) 4)
  (words 8 r, words (8 + 4 * r) p, words (8 + 4 * (r + p)) j, (List.range (leAt b 6 2)).map (fun i => leAt b (8 + 4 * (r + p + j) + 8 * i) 8))

/-- Write the field repair map (R56, R476): not where no signature remains (R480). -/
def writeRepairMap (s : State) : State :=
  if canSign s then
    let r := deviceSign 0x14 (max (objSeq (flashRecord s 0x14 0)) (objSeq (flashRecord s 0x14 1)) + 1) (repairBody s) s
    modBoot (fun b => { b with noFieldMap := false }) (writeRecord 0x14 r.1 r.2)
  else s


end Sys2Proof.Machine
end

