-- ==== Sys2Proof/Machine/Memory.lean ====
section
/-!
DEFINITION. Errors of the stacks (R255, R434), corrected words (R46, R255, R438), and the pager (R261-R263).
-/

namespace Sys2Proof.Machine

/-! ### Uncorrectable stack lines -/

/-- Add to a per-stack count: 0 corrected words, 1 uncorrectable words, 2 rows in the repair map (R274). -/
def bumpStack (a : Nat) (which n : Nat) (s : State) : State :=
  let k := (stackPlace a).1 * 4 + which
  { s with stackCounts := smPut s.stackCounts k (smGetD s.stackCounts k 0 + n) }

/-- Number of a stack row: stack, pseudo-channel, bank, row (R253). -/
def rowNumber (a : Nat) : Nat :=
  let p := stackPlace a
  atBit 40 p.1 + atBit 32 p.2.1 + atBit 24 p.2.2.1 + p.2.2.2

/-- Record the stack row of an address in the repair map (R255). -/
def recordRow (a : Nat) (s : State) : State :=
  if s.repairRows.contains (rowNumber a) then s
  else writeRepairMap (bumpStack a 2 1 { s with repairRows := s.repairRows ++ [rowNumber a] })

/-- Checkpoint class of an address: the class of its mark (R411), 4 for a region in no mark. -/
def markClass (s : State) (a : Nat) : Nat :=
  ((s.job.marks.find? (fun m => decide (m.first ≤ a) && decide (a < m.first + m.bytes))).map (fun m => m.cls)).getD 4

/-- Does a memory declaration name a staging pool (R260 kind 4, R417)? -/
def isStaging (d : MemDecl) : Bool := d.kind == 5 || (d.kind == 2 && d.sub == 4)

/-- Does an address lie in a declared staging pool, where generations and mirrors are kept (R417)? -/
def inStaging (s : State) (a : Nat) : Bool :=
  s.job.decls.any (fun d => isStaging d && decide (d.first ≤ a) && decide (a < d.first + 0x1_0000 * d.pages))

/-- A line uncorrectable again in the re-run (R434): by its region it is rewritten from its other copy or with zeros, or
the package enters HELD; one that fails after it was rewritten takes the package to FAULT. -/
def repeatedLine (die tile : Nat) (line : Nat) (s : State) : State :=
  let s := raiseAt 0x2006 die tile 0 (bitField line 43 12) s
  if s.rewritten.contains line then enterFault 0x2006 s
  else
    let s := raiseAt 0x900D die tile 0 (bitField line 43 12) { s with rewritten := s.rewritten ++ [line] }
    if inStaging s line then putMem line (s.bytes line 64) s
    else if markClass s line = 4 then recordRow line (putMem line (List.replicate 64 0) s)
    else holdNow 0x900D s

/-- An access of a unit meets an uncorrectable stack line (R255): no data, 0x2002, counted, cause 3; the same line again
in a later attempt of the step is handled by R434. -/
def stackUncorrectable (die tile : Nat) (a : Nat) (s : State) : State :=
  let line := a / 64 * 64
  let s := raiseAt 0x2002 die tile 0 (bitField a 43 12) (bumpStack a 1 1 s)
  let again := s.badSeen.any (fun b => decide (b.1 = line) && decide (b.2.1 = s.stepNo) && decide (b.2.2 < s.step.attempt))
  let s := { s with badSeen := (s.badSeen.filter (fun b => decide (b.1 ≠ line))) ++ [(line, s.stepNo, s.step.attempt)] }
  let s := abortAttempt 3 s
  if again then repeatedLine die tile line s else s

/-- Count a correction within the hour of a table of hours; answers the new count. -/
def hourCount (m : SMap (Nat × Nat)) (k now : Nat) : SMap (Nat × Nat) × Nat :=
  match smFind m k with
  | none => (smPut m k (now, 1), 1)
  | some h =>
    if now < h.1 + 3600 * 10 ^ 9 then (smPut m k (h.1, h.2 + 1), h.2 + 1) else (smPut m k (now, 1), 1)

/-- A corrected stack word (R255): counted per stack and per bank; above the threshold within an hour, 0x2003 and the
row enters the repair map. -/
def stackCorrected (a : Nat) (s : State) : State :=
  let p := stackPlace a
  let r := hourCount s.bankHours (p.1 * 65536 + p.2.1 * 256 + p.2.2.1) s.now
  let s := bumpStack a 0 1 { s with bankHours := r.1 }
  if r.2 = s.reg 0x300006 + 1 then
    recordRow a (raiseAt 0x2003 (p.1 / 4) (800 + p.1 % 4) p.2.2.1 0 s)
  else s

/-- A corrected SRAM word (R46): counted; above the threshold of one tile within an hour, 0x7002, and the count itself
is the repetition: the tile is judged permanently faulty (R438). -/
def sramCorrected (k : Nat) (a : Nat) (s : State) : State :=
  let r := hourCount s.tileHours k s.now
  let s := bumpReg (dieKey (keyDie k) 0x804007) 1 { s with tileHours := r.1 }
  if r.2 = s.reg 0x701403 + 1 then
    judgePermanent (tileEp s k) 0x7002 (raiseAt 0x7002 (keyDie k) (keyTile k) (a / 64 % 16) 0 s)
  else s

/-! ### The pager -/

/-- The word that names a package address with its REM and COORD (R63); this package's own coordinate counts as REM 0. -/
def xword (s : State) (x : BitVec 64) : Nat :=
  let n := x.toNat
  if bitAt n 56 ∧ bitField n 55 44 ≠ s.coord then n % 2 ^ 57 else n % 2 ^ 44

/-- Is a word remote? -/
def isRemote (w : Nat) : Bool := bitAt w 56

/-- Coordinate of a remote word. -/
def remoteCoord (w : Nat) : Nat := bitField w 55 44

/-- Address of a word. -/
def wordAddr (w : Nat) : Nat := w % 2 ^ 44

/-- The pager of a tile. -/
def State.pager (s : State) (k : Nat) : Pager := smGetD s.pagers k {}

/-- Replace a pager. -/
def setPager (k : Nat) (p : Pager) (s : State) : State := { s with pagers := smPut s.pagers k p }

/-- Does a word lie in one of a tile's paged regions (R261)? -/
def inRegions (p : Pager) (w : Nat) : Bool :=
  p.regions.any (fun r => decide (r.backing ≤ w) && decide (w < r.backing + 0x1_0000 * r.pages))

/-- The start of the page of a word. -/
def pageOf (w : Nat) : Nat := w / 0x1_0000 * 0x1_0000

/-- The local address of a frame (R261). -/
def frameBase (f : Nat) : Nat := f * 0x1_0000

/-- The frame that holds a page. -/
def frameOf (p : Pager) (page : Nat) : Option Frame := p.frames.find? (fun f => decide (f.page = some page))

/-- The victim: the least recently used frame, ties to the lower number (R262). -/
def victim (p : Pager) : Option Frame :=
  p.frames.foldl (fun best f => match best with
    | none => some f
    | some b => if f.lastUse < b.lastUse ∨ (f.lastUse = b.lastUse ∧ f.frame < b.frame) then some f else some b) none

/-- Replace a frame of a pager. -/
def putFrame (p : Pager) (f : Frame) : Pager :=
  { p with frames := p.frames.map (fun g => if g.frame = f.frame then f else g) }

/-- The endpoint that answers for an address of another package (R10, R253, R257): a tile for a window, a stack
controller for a stack. -/
def remoteEp (coord : Nat) (a : Nat) : BitVec 24 :=
  BitVec.ofNat 24 (match placeOf a with
    | .window k _ => coord * 4096 + keyDie k * 1024 + keyTile k
    | .stack d => coord * 4096 + d * 1024 + 800 + (stackPlace a).1 % 4
    | _ => coord * 4096 + 800)

/-- A pager case handed to a control core (R263): counted, and an item of flow 3. -/
def pagerCase (k : Nat) (page : Nat) (s : State) : State :=
  let d := keyDie k
  let s := bumpReg (dieKey d 0x814004) 1 s
  (postItem d 3 (itemBits 3 4 (tileEp s k) 0 (atBit 182 (keyTile k) + atBit 138 (wordAddr page))) s).1

/-- Write 64-line messages of a local range to another package (R311). -/
def writePage (k w local_ : Nat) (s : State) : State :=
  allOf (List.range 16) (fun i s =>
    sendMsg (keyDie k) none
      { type := 1, dst := remoteEp (remoteCoord w) (wordAddr w + 4096 * i), src := BitVec.ofNat 24 (tileEp s k),
        stag := (s.tile k).tag, addr := BitVec.ofNat 44 (wordAddr w + 4096 * i),
        data := s.bytes (tileBase k + local_ + 4096 * i) 4096 } s) s

/-- Write a dirty page back to its backing (R262, R263). -/
def writeBack (k : Nat) (f : Frame) (s : State) : State :=
  match f.page with
  | none => s
  | some w =>
    if f.dirty then
      let s := bumpReg (dieKey (keyDie k) 0x814002) 1 s
      if isRemote w then writePage k w (frameBase f.frame) (pagerCase k w s)
      else
        let s := if s.repairRows.contains (rowNumber (wordAddr w)) then pagerCase k w s else s
        putMem (wordAddr w) (s.bytes (tileBase k + frameBase f.frame) 0x1_0000) s
    else s

/-- Start reading a page into a frame (R262): from this package's stacks at its completion, from another package by
READ messages (R263). -/
def startPageIn (k page frame : Nat) (s : State) : State :=
  let s := bumpReg (dieKey (keyDie k) 0x814001) 1 s
  if isRemote page then
    let s := pagerCase k page s
    let s := setPager k { s.pager k with inflight := some (page, frame, 16) } s
    allOf (List.range 16) (fun i s =>
      let dst := remoteEp (remoteCoord page) (wordAddr page + 4096 * i)
      let s := { s with reads := s.reads ++ [{ who := .paging k (frameBase frame + 4096 * i), src := tileEp s k, dst := dst.toNat,
                                               addr := wordAddr page + 4096 * i, lines := 64 }] }
      sendMsg (keyDie k) none
        { type := 2, dst := dst, src := BitVec.ofNat 24 (tileEp s k), stag := (s.tile k).tag,
          addr := BitVec.ofNat 44 (wordAddr page + 4096 * i), body := BitVec.ofNat 256 (atBit 250 63) } s) s
  else
    let s := if s.repairRows.contains (rowNumber (wordAddr page)) then pagerCase k page s else s
    setPager k { s.pager k with inflight := some (page, frame, 0) } s

/-- Copy `n` lines between a frame and the tile's SRAM (R262). -/
def copyLines (k frame off local_ n : Nat) (put : Bool) (s : State) : State :=
  allOf (List.range n) (fun i s =>
    let f := tileBase k + frameBase frame + off + 64 * i
    let l := tileBase k + localAddr (local_ + 64 * i)
    if put then putMem f (s.bytes l 64) s else putMem l (s.bytes f 64) s) s

/-- Serve the pager's accesses in order, page by page, until one must wait for a page-in (R262). -/
def servePager (k : Nat) : Nat → State → State
  | 0, s => s
  | fuel + 1, s =>
    let p := s.pager k
    match p.inflight, p.queue with
    | none, a :: rest =>
      let page := pageOf a.xaddr
      let n := min a.lines ((page + 0x1_0000 - a.xaddr) / 64)
      let serve := fun (f : Frame) (s : State) =>
        let s := copyLines k f.frame (a.xaddr - page) a.local_ n a.put s
        let p := s.pager k
        let p := putFrame p { f with dirty := f.dirty || a.put, lastUse := p.clock }
        let next := { a with xaddr := a.xaddr + 64 * n, local_ := localAddr (a.local_ + 64 * n), lines := a.lines - n }
        let s := setPager k { p with clock := p.clock + 1, queue := if next.lines = 0 then rest else next :: rest } s
        if next.lines = 0 then answerXfer k a.xfer s else s
      match frameOf p page with
      | some f => servePager k fuel (serve f (bumpReg (dieKey (keyDie k) 0x814003) n s))
      | none =>
        match victim p with
        | none => s
        | some f =>
          let s := writeBack k f s
          let f := { f with page := some page, dirty := false }
          if a.put ∧ n = 1024 then
            servePager k fuel (serve f s)
          else
            let s := setPager k (putFrame (s.pager k) { f with page := none }) s
            startPageIn k page f.frame s
    | _, _ => s

/-- Fuel for the pager: pages of all waiting accesses. -/
def pagerFuel (p : Pager) : Nat := (p.queue.map (fun a => a.lines / 1024 + 3)).foldl (· + ·) 1

/-- Hand an access to the pager. -/
def pageAccess (k : Nat) (a : PageAccess) (s : State) : State :=
  let p := s.pager k
  let p := { p with queue := p.queue ++ [a] }
  servePager k (pagerFuel p) (setPager k p s)

/-- PAGE_IN_COMPLETE (R262): the page is resident; an uncorrectable backing line gives no data (R255). -/
def opPageIn (k : Nat) (s : State) : State :=
  let p := s.pager k
  match p.inflight with
  | some (page, frame, 0) =>
    let bad := !isRemote page && badStack s (wordAddr page) 0x1_0000
    let s := if bad then stackUncorrectable (keyDie k) 768 (((s.bad.find? (fun b => decide (pageOf b = wordAddr page))).getD (wordAddr page))) s else s
    let s := if isRemote page || bad then s else putMem (tileBase k + frameBase frame) (s.bytes (wordAddr page) 0x1_0000) s
    let p := putFrame (s.pager k) { frame := frame, page := some page, dirty := false, lastUse := p.clock }
    let p := { p with inflight := none, clock := p.clock + 1 }
    servePager k (pagerFuel p) (setPager k p s)
  | _ => s

end Sys2Proof.Machine
end

