-- ==== Sys2Proof/Machine/View.lean ====
section
/-!
DEFINITION. How the sampler and table slices read memory: this package's stacks and windows, and lines of other packages
that have been read so far. A read stops where a line of another package is not there yet, or where it cannot be read.
-/

namespace Sys2Proof.Machine

/-- Why a read of a slice stops. -/
inductive ReadStop where
  /-- a line of another package has still to be read -/
  | miss (word : Nat)
  /-- outside every address range (R16) -/
  | outside (a : Nat)
  /-- a page that is backing of a paged region (R262) -/
  | paged (a : Nat)
  /-- an uncorrectable stack line (R255) -/
  | bad (a : Nat)
  /-- an uncorrectable SRAM word (R46) -/
  | sram (key : Nat) (a : Nat)
deriving DecidableEq, Repr

/-- The outcome of a read. -/
abbrev Rd (α : Type) := Except ReadStop α

/-- What a slice reads from: the package and the lines of other packages. -/
structure View where
  s : State
  remote : SMap (List Byte)

/-- A word some bytes further on, in the same package (R63). -/
def wordOff (w k : Nat) : Nat := w - wordAddr w + (wordAddr w + k) % 2 ^ 44

/-- The word of an 8-byte address entry, in the layout of R63, that stands in memory at word `at_`: REM = 0 names the
package that holds the entry. -/
def entryWord (s : State) (at_ e : Nat) : Nat :=
  if bitAt e 56 then xword s (BitVec.ofNat 64 e) else at_ - wordAddr at_ + e % 2 ^ 44

/-- An address of the package that a word names. -/
def besideWord (w a : Nat) : Nat := w - wordAddr w + a % 2 ^ 44

/-- Bytes of another package from the lines already read. -/
def rdRemote (v : View) (w : Nat) : Nat → Rd (List Byte)
  | 0 => .ok []
  | n + 1 =>
    let line := w - wordAddr w % 64
    match smFind v.remote line with
    | none => .error (.miss line)
    | some bs => (rdRemote v (wordOff w 1) n).map (fun r => bs.getD (w - line) 0 :: r)

/-- Read bytes. -/
def rd (v : View) (w n : Nat) : Rd (List Byte) :=
  if n = 0 then .ok []
  else if isRemote w then rdRemote v w n
  else
    let a := wordAddr w
    match placeOf a with
    | .stack _ =>
      if stackEnd < a + n then .error (.outside stackEnd)
      else if bitAt (pageAttr v.s a) 3 then .error (.paged a)
      else if badStack v.s a n then .error (.bad a)
      else .ok (v.s.bytes a n)
    | .window k _ => if badSram v.s a n then .error (.sram k a) else .ok (v.s.bytes a n)
    | _ => .error (.outside a)

/-- Read a little-endian number. -/
def rdN (v : View) (w n : Nat) : Rd Nat := (rd v w n).map leNat

/-- Local bytes of a tile. -/
def rdLocal (v : View) (k a n : Nat) : Rd (List Byte) := rd v (tileBase k + a) n

/-- Apply a read to each element in order. -/
def rdAll {α β : Type} (f : α → Rd β) : List α → Rd (List β)
  | [] => .ok []
  | x :: xs => (f x).bind (fun y => (rdAll f xs).map (fun ys => y :: ys))

/-- Carry a value through the elements in order. -/
def rdFold {α β : Type} (f : β → α → Rd β) : List α → β → Rd β
  | [], b => .ok b
  | x :: xs, b => (f b x).bind (rdFold f xs)

/-- What a slice's descriptor does once every read has been answered: local bytes written, counters raised (as dictionary
keys of D0), events with the tile as their unit, lookups served by a home and by a replica of this package (die, table x
2^40 + row), gradient entries on their way to an inbox (shard key, header word, key, values), bytes stored at package
addresses, and merges of inboxes (shard key, gradients by row). -/
structure SliceOut where
  puts : List (Nat × List Byte) := []
  cnt : List (Nat × Nat) := []
  evs : List Nat := []
  looks : List (Nat × Nat) := []
  repLooks : List (Nat × Nat) := []
  entries : List (Nat × Nat × Nat × List Nat) := []
  stores : List (Nat × List Byte) := []
  merges : List (Nat × List (Nat × List Nat)) := []
deriving DecidableEq, Repr

/-- Two outcomes, one after the other. -/
def joinOut (a b : SliceOut) : SliceOut :=
  { puts := a.puts ++ b.puts, cnt := a.cnt ++ b.cnt, evs := a.evs ++ b.evs, looks := a.looks ++ b.looks,
    repLooks := a.repLooks ++ b.repLooks, entries := a.entries ++ b.entries, stores := a.stores ++ b.stores,
    merges := a.merges ++ b.merges }

/-- Outcomes of several inputs, in order. -/
def joinOuts (xs : List SliceOut) : SliceOut := xs.foldl joinOut {}

/-- A count. -/
def outCount (key n : Nat) : SliceOut := { cnt := if n = 0 then [] else [(key, n)] }

/-- Insert into a sorted list, before the first element that comes after it. -/
def insertBy {α : Type} (lt : α → α → Bool) (x : α) : List α → List α
  | [] => [x]
  | y :: ys => if lt x y then x :: y :: ys else y :: insertBy lt x ys

/-- Sort, keeping the order of equal elements. -/
def sortBy {α : Type} (lt : α → α → Bool) (xs : List α) : List α := xs.foldl (fun acc x => insertBy lt x acc) []

end Sys2Proof.Machine
end

