-- ==== Sys2Proof/Machine/Sampling.lean ====
section
/-!
DEFINITION. Neighbourhood sampling (09_neighbourhood_sampling.md): Tombola, sampling descriptors and their modes.
-/

namespace Sys2Proof.Machine

/-! ### Tombola -/

/-- Rotation amounts of the eight rounds (R173). -/
def tombolaRot : List Nat := [9, 21, 14, 27, 11, 19, 5, 24]

/-- One round: `b` is rotated and mixed with the new `a`. -/
def tombolaRound (ab : BitVec 32 × BitVec 32) (rot : Nat) : BitVec 32 × BitVec 32 :=
  let a := ab.1 + ab.2
  (a, ab.2.rotateLeft rot ^^^ a)

/-- Tombola: 64 random bits from a key and a counter (R173). -/
def tombola (k c : BitVec 64) : BitVec 64 :=
  let k0 := k.setWidth 32
  let k1 := (k >>> 32).setWidth 32
  let k2 := k0 ^^^ k1 ^^^ 0x5B7E1F93#32
  let ab := (c.setWidth 32 + k0, (c >>> 32).setWidth 32 + k1)
  let ab := (tombolaRot.take 4).foldl tombolaRound ab
  let ab := (ab.1 + k1, ab.2 + k2 + 1)
  let ab := (tombolaRot.drop 4).foldl tombolaRound ab
  (ab.2 + k0 + 2) ++ (ab.1 + k2)

/-- The key of a stream of a context (R174). -/
def streamKey (seed : BitVec 64) (slot : BitVec 24) (stream : Nat) (epoch : BitVec 24) : BitVec 64 :=
  let k0 := seed.setWidth 32 ^^^ (slot.setWidth 32 <<< 8) ^^^ BitVec.ofNat 32 (stream * 16)
  let k1 := (seed >>> 32).setWidth 32 ^^^ epoch.setWidth 32
  k1 ++ k0

/-- Derive the sixteen keys of a context for the epoch of its step counter (R174). -/
def deriveKeys (seed : BitVec 64) (c : Context) : Context :=
  let e := BitVec.ofNat 24 (c.counter.toNat / 2 ^ 24)
  { c with epoch := e, keys := (List.range 16).map (fun i => streamKey seed c.slot i e) }

/-- A context of the package. -/
def State.ctx (s : State) (c : Nat) : Context := s.ctxs.getD c {}

/-- The counter of a draw (R175). -/
def drawCounter (step hop pos draw : Nat) : BitVec 64 :=
  BitVec.ofNat 64 (atBit 40 (step % 2 ^ 24) + atBit 37 hop + atBit 15 pos + draw)

/-! ### Descriptors -/

/-- A sampling descriptor taken apart (R178). -/
structure SampDesc where
  mode : Nat
  repl : Bool
  stream : Nat
  hop : Nat
  fan : Nat
  fbase : Nat
  n : Nat
  xr : Nat
  pin : Nat
  pout : Nat
  reserved : Bool
deriving DecidableEq, Repr

/-- The fields of a sampling descriptor's two words (R178). -/
def sampDesc (w0 w1 : Nat) : SampDesc :=
  let mode := bitField w0 63 60
  { mode := mode, repl := bitAt w0 59, stream := bitField w0 58 55, hop := bitField w0 54 52,
    fan := if mode = 4 then 1 else bitField w0 51 40 + 1, fbase := bitField w0 39 18, n := bitField w1 63 48 + 1,
    xr := bitField w1 47 45, pin := bitField w1 41 21, pout := bitField w1 20 0,
    reserved := bitField w0 17 0 != 0 || bitField w1 44 42 != 0 || (decide (mode = 4) && bitField w0 51 40 != 0)
      || (decide (2 < mode) && bitField w1 47 45 != 0) }

/-- Bytes of the input and of the output (R180). -/
def sampSizes (d : SampDesc) : Nat × Nat :=
  if d.mode ≤ 2 then (8 * d.n, 8 * d.n * d.fan)
  else if d.mode = 3 then (4 * d.n, 4 * d.fan)
  else if d.mode = 4 then (4 * d.n, 4)
  else (0, 8 * d.n * d.fan)

/-- Is a sampling descriptor malformed (R179), for a PS and a number of declared streams? -/
def sampMalformed (d : SampDesc) (ps streams : Nat) : Bool :=
  let z := sampSizes d
  decide (5 < d.mode) || d.reserved || (d.repl && decide (1 < d.mode)) || (decide (d.mode = 3) && decide (1024 < d.fan))
    || (d.mode != 3 && d.mode != 4 && (decide (4096 < d.n) || decide (2 ^ 22 < d.fbase + d.n)))
    || (d.mode != 5 && (decide (sramSize < d.pin + z.1) || d.pin % 8 != 0))
    || decide (sramSize < d.pout + z.2) || d.pout % 8 != 0 || ps % 16 != 0 || decide (streams ≤ d.stream)

/-- The local ranges of a sampling descriptor (R45). -/
def sampRanges (d : SampDesc) : List (Nat × Nat × Bool) :=
  let z := sampSizes d
  [(d.pin, if d.mode = 5 then 0 else z.1, false), (d.pout, z.2, true)]

/-! ### Nodes -/

/-- What a graph says of a node (R185): out of range, malformed, without edges, or a neighbour order. -/
inductive NodeRef where
  | outside
  | malformed
  | empty
  /-- word of the edge region and of the weight region (none: every weight 1), degree, first edge -/
  | ordinary (edges : Nat) (weights : Option Nat) (deg first : Nat)
  /-- word of the edge region and of the weight region, DEG, TOTW, and per segment its first edge and CUMW -/
  | hub (edges : Nat) (weights : Option Nat) (deg totw : Nat) (segs : List (Nat × Nat))
deriving DecidableEq, Repr

/-- Do the stored sums never fall? -/
def rising : List Nat → Bool
  | a :: b :: xs => decide (a ≤ b) && rising (b :: xs)
  | _ => true

/-- Read a hub (R172) and apply the structural checks of R185. -/
def readHub (v : View) (weighted : Bool) (edges : Nat) (weights : Option Nat) (hubs : Nat) (off : Nat) : Rd NodeRef :=
  if wordAddr hubs = 0 then .ok .malformed
  else
    let at_ := wordOff hubs (16 * off)
    (rd v at_ 16).bind (fun h =>
      let deg := leAt h 0 8 % 2 ^ 40
      let totw := leAt h 8 8
      if deg = 0 then .ok .malformed
      else
        (rdAll (fun i => (rd v (wordOff at_ (16 + 16 * i)) 16).map (fun b => (leAt b 0 8 % 2 ^ 40, leAt b 8 8))) (List.range (ceilDiv deg 4096))).map
          (fun segs =>
            let cums := segs.map (fun p => p.2)
            if nth cums 0 ≠ 0 ∨ !rising cums ∨ (weighted ∧ totw < cums.getLast?.getD 0) then .malformed
            else .hub edges weights deg totw segs))

/-- Find a node of the graph whose descriptor stands at word `g` (R168 to R170). -/
def readNode (v : View) (g node : Nat) : Rd NodeRef :=
  (rd v g 32).bind (fun gd =>
    let weighted := bitAt (leAt gd 0 8) 63
    if leAt gd 0 8 % 2 ^ 40 ≤ node then .ok .outside
    else
      let shard := node / 2 ^ leAt gd 8 1
      let tw := wordOff (entryWord v.s g (leAt gd 16 8)) (8 * shard)
      (rdN v tw 8).bind (fun e =>
        let hw := entryWord v.s tw e
        (rd v hw 64).bind (fun h =>
          let loc := node - leAt h 0 8 % 2 ^ 40
          if leAt h 8 8 ≤ loc then .ok .outside
          else
            let edges := besideWord hw (leAt h 24 8)
            let weights := if weighted then some (besideWord hw (leAt h 32 8)) else none
            (rdN v (wordOff (besideWord hw (leAt h 16 8)) (8 * loc)) 8).bind (fun n =>
              match bitField n 63 62 with
              | 0 => .ok (.ordinary edges weights (bitField n 61 48 + 1) (n % 2 ^ 40))
              | 1 => readHub v weighted edges weights (besideWord hw (leAt h 40 8)) (n % 2 ^ 40)
              | 2 => .ok .empty
              | _ => .ok .malformed))))

/-- Weights of `n` consecutive edges (R171). -/
def readWeights (v : View) (weights : Option Nat) (first n : Nat) : Rd (List Nat) :=
  match weights with
  | none => .ok (List.replicate n 1)
  | some w => (rd v (wordOff w (2 * first)) (2 * n)).map (fun bs => (chunksOf 2 bs).map leNat)

/-- Degree of a node (R170, R172). -/
def nodeDegree : NodeRef → Nat
  | .ordinary _ _ d _ => d
  | .hub _ _ d _ _ => d
  | _ => 0

/-- Edge index of a position (R171, R172). -/
def edgeIndex (n : NodeRef) (p : Nat) : Nat :=
  match n with
  | .ordinary _ _ _ first => first + p
  | .hub _ _ _ _ segs => (segs.getD (p / 4096) (0, 0)).1 + p % 4096
  | _ => 0

/-- The neighbour at a position (R171). -/
def readNeighbour (v : View) (n : NodeRef) (p : Nat) : Rd Nat :=
  match n with
  | .ordinary e _ _ _ => rdN v (wordOff e (5 * edgeIndex n p)) 5
  | .hub e _ _ _ _ => rdN v (wordOff e (5 * edgeIndex n p)) 5
  | _ => .ok 0

/-- Segment lengths of a hub: 4,096 positions each, the last one the rest (R172). -/
def segLen (deg s : Nat) : Nat := min 4096 (deg - 4096 * s)

/-- Every weight of a node, in neighbour order. -/
def nodeWeights (v : View) (n : NodeRef) : Rd (List Nat) :=
  match n with
  | .ordinary _ w d first => readWeights v w first d
  | .hub _ w d _ segs => (rdAll (fun i => readWeights v w (segs.getD i (0, 0)).1 (segLen d i)) (List.range segs.length)).map List.flatten
  | _ => .ok []

/-! ### Draws -/

/-- The position of a uniform draw (R181). -/
def uniformPos (u d : Nat) : Nat := u * d / 2 ^ 64

/-- The smallest position whose weight sum exceeds `t`; none where no sum does. -/
def sumExceeds : List Nat → Nat → Nat → Nat → Option Nat
  | [], _, _, _ => none
  | w :: ws, t, acc, p => if t < acc + w then some p else sumExceeds ws t (acc + w) (p + 1)

/-- The position of a weighted draw (R181, R186): over the node's own sums, or through a hub's segments. -/
def weightedPos (n : NodeRef) (ws : List Nat) (u : Nat) : Nat :=
  match n with
  | .hub _ _ d totw segs =>
    let t := u * totw / 2 ^ 64
    let s := ((List.range segs.length).filter (fun i => decide ((segs.getD i (0, 0)).2 ≤ t))).getLast?.getD 0
    let seg := (ws.drop (4096 * s)).take 4096
    4096 * s + (sumExceeds seg (t - (segs.getD s (0, 0)).2) 0 0).getD (segLen d s - 1)
  | _ => (sumExceeds ws (u * ws.foldl (· + ·) 0 / 2 ^ 64) 0 0).getD 0

/-- Sum of weights that draws use: W of an ordinary node, TOTW of a hub. -/
def weightTotal (n : NodeRef) (ws : List Nat) : Nat :=
  match n with
  | .hub _ _ _ totw _ => totw
  | _ => ws.foldl (· + ·) 0

/-- Positions by falling weight, ties by rising position. -/
def byWeight (ws : List Nat) (ps : List Nat) : List Nat := sortBy (fun a b => decide (nth ws b < nth ws a)) ps

/-- Without replacement, uniform (R182): one draw per chosen position. -/
def chooseUniform (draw : Nat → Nat) (d f : Nat) : List Nat :=
  (List.range f).foldl (fun ch j =>
    let m := d - f + j
    let t := uniformPos (draw j) (m + 1)
    ch ++ [if ch.contains t then m else t]) []

/-- Without replacement, weighted (R182): draws until F positions are chosen or 4F are made. Answers the positions and
the draws made. -/
def chooseDrawn (pos : Nat → Nat) (f : Nat) : Nat → Nat → List Nat → List Nat × Nat
  | 0, j, ch => (ch, j)
  | fuel + 1, j, ch =>
    if f ≤ ch.length then (ch, j)
    else chooseDrawn pos f fuel (j + 1) (if ch.contains (pos j) then ch else ch ++ [pos j])

/-- The fallback fill (R182): unchosen positions of positive weight, largest weight first. -/
def fallbackFill (ws ch : List Nat) (f : Nat) : List Nat :=
  let rest := (List.range ws.length).filter (fun p => decide (0 < nth ws p) && !ch.contains p)
  ch ++ (byWeight ws rest).take (f - ch.length)

/-- The chosen positions of an input with replacement: one per draw (R181). -/
def sortNats (ps : List Nat) : List Nat := sortBy (fun a b => decide (a < b)) ps

/-- A valid slot (R180). -/
def validSlot (node : Nat) : Nat := 2 ^ 63 + node

/-- What sampling a node chooses: positions, draws made, rejected draws, fallback fills. -/
def choosePositions (d : SampDesc) (draw : Nat → Nat) (n : NodeRef) (ws : List Nat) : List Nat × Nat × Nat × Nat :=
  let deg := nodeDegree n
  let f := d.fan
  if d.mode = 2 then (sortNats ((byWeight ws (List.range deg)).take f), 0, 0, 0)
  else if d.mode = 0 then
    if d.repl then ((List.range f).map (fun j => uniformPos (draw j) deg), f, 0, 0)
    else if deg ≤ f then (List.range deg, 0, 0, 0)
    else (sortNats (chooseUniform draw deg f), f, 0, 0)
  else if weightTotal n ws = 0 then ([], 0, 0, 0)
  else if d.repl then ((List.range f).map (fun j => weightedPos n ws (draw j)), f, 0, 0)
  else
    let pos := (List.range deg).filter (fun p => decide (0 < nth ws p))
    if pos.length ≤ f then (pos, 0, 0, 0)
    else
      let r := chooseDrawn (fun j => weightedPos n ws (draw j)) f (4 * f) 0 []
      let ch := fallbackFill ws r.1 f
      (sortNats ch, r.2, r.2 - r.1.length, ch.length - r.1.length)

/-- Sample one input slot (R185): its F slots and what it counts. -/
def sampleInput (v : View) (d : SampDesc) (g : Nat) (draw : Nat → Nat → Nat) (i slot : Nat) : Rd (List Nat × SliceOut) :=
  let none_ : List Nat := List.replicate d.fan 0
  if !bitAt slot 63 then .ok (none_, {})
  else
    (readNode v g (slot % 2 ^ 40)).bind (fun n =>
      match n with
      | .outside => .ok (none_, { outCount 0x810004 1 with evs := [0xA003] })
      | .malformed => .ok (none_, { outCount 0x810005 1 with evs := [0xA004] })
      | .empty => .ok (none_, {})
      | n =>
        (if d.mode = 0 then .ok [] else nodeWeights v n).bind (fun ws =>
          let c := choosePositions d (draw i) n ws
          (rdAll (readNeighbour v n) c.1).map (fun ns =>
            let hub := match n with
              | .hub _ _ _ _ _ => 1
              | _ => 0
            (ns.map validSlot ++ List.replicate (d.fan - ns.length) 0,
             joinOuts [outCount 0x810001 c.2.1, outCount 0x810002 c.2.2.1, outCount 0x810003 c.2.2.2, outCount 0x810006 hub]))))

/-! ### Scores and weights -/

/-- Is an F32 a NaN? -/
def isNaN32 (b : Nat) : Bool := decodeFloat ffF32 b == .nan

/-- Does score `a` rank above score `b` (R143)? NaN above every number. -/
def scoreAbove (a b : Nat) : Bool :=
  if isNaN32 a then !isNaN32 b
  else if isNaN32 b then false
  else gtNum (decodeFloat ffF32 a) (decodeFloat ffF32 b)

/-- The near tie of R143 between the best unselected and the worst selected score. -/
def nearTie (un sel : Nat) : Bool :=
  if isNaN32 un || isNaN32 sel then isNaN32 un && isNaN32 sel
  else leNum (mulNum (.fin false 7 (-3)) (decodeFloat ffF32 sel)) (decodeFloat ffF32 un)

/-- Top score (R183, R143). -/
def topScore (d : SampDesc) (scores : List Nat) : SliceOut :=
  let ranked := sortBy (fun a b => scoreAbove (nth scores a) (nth scores b)) (List.range scores.length)
  let sel := ranked.take d.fan
  let tie := decide (d.fan < scores.length) && nearTie (nth scores (nth ranked d.fan)) (nth scores (nth ranked (d.fan - 1)))
  let words := sortNats sel ++ List.replicate (d.fan - sel.length) 0xFFFFFFFF
  joinOuts [{ puts := [(d.pout, words.flatMap (leBytes 4))] }, outCount 0x80C001 1, outCount 0x80C002 scores.length,
            outCount 0x80C003 sel.length, outCount 0x80C004 (scores.filter isNaN32).length, outCount 0x80C005 (boolNat tie)]

/-- F32 sum and product, to nearest with ties to even. -/
def add32 (a b : Nat) : Nat := (opAdd ffF32 .even false a b).bits

/-- F32 product. -/
def mul32 (a b : Nat) : Nat := (opMul ffF32 .even a b).bits

/-- Prefix sums of R184. -/
def prefix32 : List Nat → Option Nat → List Nat
  | [], _ => []
  | w :: ws, none => w :: prefix32 ws (some w)
  | w :: ws, some p => add32 p w :: prefix32 ws (some (add32 p w))

/-- Categorical draw (R184): the index, or none where the weights are invalid. -/
def categorical (ws : List Nat) (u : Nat) : Option Nat :=
  let bad := fun (w : Nat) => match decodeFloat ffF32 w with
    | .fin s m _ => s && decide (m ≠ 0)
    | _ => true
  if ws.any bad then none
  else
    let ps := prefix32 ws none
    let last := ps.getLast?.getD 0
    match decodeFloat ffF32 last with
    | .fin _ 0 _ => none
    | .fin s m e =>
      let t := (roundTo ffF32 .even (mulNum (.fin false (u / 2 ^ 40) (-24)) (.fin s m e))).1
      let pos := (List.range ws.length).filter (fun i => gtNum (decodeFloat ffF32 (nth ws i)) (natNum 0))
      match pos.find? (fun i => gtNum (decodeFloat ffF32 (nth ps i)) (decodeFloat ffF32 t)) with
      | some i => some i
      | none => pos.getLast?
    | _ => none

/-! ### A whole descriptor -/

/-- Run a well-formed sampling descriptor (R180 to R186) of a context. -/
def runSample (v : View) (k : Nat) (c : Context) (d : SampDesc) (g : Nat) : Rd SliceOut :=
  let key := c.keys.getD d.stream 0
  let draw := fun (i j : Nat) => (tombola key (drawCounter c.counter.toNat d.hop (d.fbase + i) j)).toNat
  if d.mode ≤ 2 then
    (rdLocal v k d.pin (8 * d.n)).bind (fun bs =>
      let slots := (chunksOf 8 bs).map leNat
      (rdAll (fun p => sampleInput v d g draw p.1 p.2) ((List.range d.n).zip slots)).map (fun rs =>
        joinOut { puts := [(d.pout, (rs.flatMap (fun r => r.1)).flatMap (leBytes 8))] } (joinOuts (rs.map (fun r => r.2)))))
  else if d.mode = 3 then (rdLocal v k d.pin (4 * d.n)).map (fun bs => topScore d ((chunksOf 4 bs).map leNat))
  else if d.mode = 4 then
    (rdLocal v k d.pin (4 * d.n)).map (fun bs =>
      let r := categorical ((chunksOf 4 bs).map leNat) (draw 0 0)
      joinOuts [{ puts := [(d.pout, leBytes 4 (r.getD 0xFFFFFFFF))] }, outCount 0x810001 1, outCount 0x810007 (boolNat r.isNone)])
  else
    let words := (List.range d.n).flatMap (fun i => (List.range d.fan).map (draw i))
    .ok (joinOut { puts := [(d.pout, words.flatMap (leBytes 8))] } (outCount 0x810001 (d.n * d.fan)))

end Sys2Proof.Machine
end

