-- ==== Sys2Proof/Machine/Rows.lean ====
section
/-!
DEFINITION. Embedding rows: table descriptors, shards, directories and records (R191 to R195), decoding and encoding rows
(R196, R209), and the row-wise optimiser (R208).
-/

namespace Sys2Proof.Machine

/-! ### Exact division -/

/-- Quotient with 64 extra bits and a sticky bit. -/
def divNum (a b : Num) : Num :=
  match a, b with
  | .nan, _ => .nan
  | _, .nan => .nan
  | .inf s, .inf _ => if s then .nan else .nan
  | .inf s, y => .inf (s != signNum y)
  | x, .inf t => .fin (signNum x != t) 0 0
  | .fin s m e, .fin t n g =>
    if n = 0 then (if m = 0 then .nan else .inf (s != t))
    else
      let k := n.log2 + 80
      let q := m * 2 ^ k / n
      let sticky := if q * n = m * 2 ^ k then 0 else 1
      .fin (s != t) (2 * q + sticky) (e - g - (k : Int) - 1)

/-- F32 quotient, to nearest with ties to even. -/
def div32 (a b : Nat) : Nat := (roundTo ffF32 .even (divNum (decodeFloat ffF32 a) (decodeFloat ffF32 b))).1

/-- F32 of a natural number. -/
def nat32 (n : Nat) : Nat := (roundTo ffF32 .even (natNum n)).1

/-! ### Descriptors -/

/-- A table descriptor of R191; `present` is false for an unused number. -/
structure TableDesc where
  present : Bool := true
  replicated : Bool
  staged : Bool
  hoten : Bool
  opt : Nat
  fmt : Nat
  w : Nat
  cbInt : Bool
  nrows : Nat
  nshard : Nat
  shards : Nat
  cb : Nat
  hyper : Nat
  /-- a reserved value or a non-zero reserved field -/
  reserved : Bool
deriving DecidableEq, Repr

/-- The descriptor in the 64 bytes at word `at_` (R191). -/
def tableDesc (s : State) (at_ : Nat) (b : List Byte) : TableDesc :=
  let w := leAt b 0 8
  { replicated := bitField w 63 62 == 1, staged := bitAt w 61, hoten := bitAt w 60, opt := bitField w 59 58,
    fmt := bitField w 57 54, w := 16 * (bitField w 53 48 + 1), cbInt := bitAt w 47, nrows := bitField w 39 0,
    nshard := leAt b 8 2, shards := entryWord s at_ (leAt b 16 8), cb := entryWord s at_ (leAt b 24 8), hyper := entryWord s at_ (leAt b 32 8),
    reserved := decide (1 < bitField w 63 62) || bitField w 59 58 == 3 || decide (bitField w 57 54 < 3) || decide (9 < bitField w 57 54)
      || bitField w 46 40 != 0 || bitField w 39 0 == 0 || leAt b 10 6 != 0 || leAt b 40 24 != 0 }

/-- An unused table. -/
def noTable : TableDesc :=
  { present := false, replicated := false, staged := false, hoten := false, opt := 0, fmt := 5, w := 16, cbInt := false, nrows := 0,
    nshard := 1, shards := 0, cb := 0, hyper := 0, reserved := false }

/-- A table as a die's own catalogue names it (R191). -/
def readTable (v : View) (die table : Nat) : Rd TableDesc :=
  let cat := nth v.s.job.catalogue die
  if cat = 0 then .ok noTable
  else
    (rdN v (cat + 8 * table) 8).bind (fun e =>
      if e = 0 then .ok noTable
      else
        let w := entryWord v.s (cat + 8 * table) e
        (rd v w 64).map (tableDesc v.s w))

/-- Is the row format coded (R195)? -/
def codedFmt (fmt : Nat) : Bool := decide (6 ≤ fmt) && decide (fmt ≤ 9)

/-- C: bytes of the elements (R195). -/
def rowElemBytes (t : TableDesc) : Nat := t.w * fmtNibbles t.fmt / 2

/-- Offset of the optimiser state in a record (R195). -/
def rowStateOff (t : TableDesc) : Nat := rowElemBytes t + (if codedFmt t.fmt then 4 else 0)

/-- RS: bytes of a record (R195). -/
def recordSize (t : TableDesc) : Nat := 8 * ceilDiv (rowStateOff t + (if t.opt = 2 then 4 else 0)) 8

/-- Shard and local index of a row, for a lookup of a die (R192). -/
def rowPlace (t : TableDesc) (die row : Nat) : Nat × Nat := if t.replicated then (die, row) else (row % t.nshard, row / t.nshard)

/-- The header word of an entry of the shard list (R192). -/
def readHeaderWord (v : View) (t : TableDesc) (entry : Nat) : Rd Nat := 
  let w := wordOff t.shards (8 * entry)
  (rdN v w 8).map (entryWord v.s w)

/-- Word of the directory entry of a local index in the active bank, or the other one (R193, R194). -/
def directoryWord (hw : Nat) (h : List Byte) (active : Bool) (loc : Nat) : Nat :=
  let bank := if bitAt (leAt h 40 8) 0 = active then leAt h 16 8 else leAt h 8 8
  wordOff (besideWord hw bank) (8 * loc)

/-- Word of a record (R194). -/
def recordWord (t : TableDesc) (hw : Nat) (h : List Byte) (slot : Nat) : Nat := wordOff (besideWord hw (leAt h 24 8)) (slot * recordSize t)

/-- The table's codebook as exact values (R191, R196). -/
def readCodebook (v : View) (t : TableDesc) : Rd (List Num) :=
  if t.fmt = 6 ∨ t.fmt = 7 then
    (rd v t.cb (if t.fmt = 6 then 256 else 16)).map (fun bs => bs.map (fun b => decodeElem (if t.cbInt then 2 else 0) b.toNat 0x7F))
  else .ok []

/-! ### Decoding and encoding -/

/-- Element `j` of a record as stored bits. -/
def recordElem (t : TableDesc) (r : List Byte) (j : Nat) : Nat :=
  if fmtNibbles t.fmt = 1 then (if j % 2 = 0 then leAt r (j / 2) 1 % 16 else leAt r (j / 2) 1 / 16)
  else leAt r (j * fmtNibbles t.fmt / 2) (fmtNibbles t.fmt / 2)

/-- Exact value of element `j` (R196, R108). -/
def rowElemValue (t : TableDesc) (cb : List Num) (r : List Byte) (j : Nat) : Num :=
  let e := recordElem t r j
  if codedFmt t.fmt then
    let s := decodeFloat ffF16 (leAt r (rowElemBytes t) 2)
    let o := decodeFloat ffF16 (leAt r (rowElemBytes t + 2) 2)
    let c := match t.fmt with
      | 8 => intNum ((e : Int) - 128)
      | 9 => intNum ((e : Int) - 8)
      | _ => cb.getD e .nan
    addNum .even (mulNum s c) o
  else decodeElem t.fmt e 0x7F

/-- A record decoded to F32 (R196). -/
def decodeRow (t : TableDesc) (cb : List Num) (r : List Byte) : List Nat :=
  (List.range t.w).map (fun j => (roundTo ffF32 .even (rowElemValue t cb r j)).1)

/-- F32 bits converted to a format of a result (R115), to nearest with ties to even. -/
def from32 (fmt b : Nat) : Nat := (convTo fmt .even false false (decodeFloat ffF32 b)).bits

/-- Elements of a row as bytes in a format of whole bytes. -/
def rowBytes (fmt : Nat) (xs : List Nat) : List Byte := xs.flatMap (fun x => leBytes (fmtNibbles fmt / 2) (from32 fmt x))

/-- Pack 4-bit codes, two per byte (R99). -/
def packNibbles : List Nat → List Byte
  | a :: b :: xs => BitVec.ofNat 8 (a + 16 * b) :: packNibbles xs
  | [a] => [BitVec.ofNat 8 a]
  | [] => []

/-- Largest of a list of exact values. -/
def maxNum : List Num → Num → Num
  | [], m => m
  | x :: xs, m => maxNum xs (if gtNum x m then x else m)

/-- The offset and scale of a coded row (R209), as F16 bits; none where one lies beyond the largest finite F16. -/
def rowScale (t : TableDesc) (cb : List Num) (v : List Num) : Option (Nat × Nat) :=
  let hi := maxNum v (v.headD (natNum 0))
  let lo := negNum (maxNum (v.map negNum) (negNum (v.headD (natNum 0))))
  let o := (roundTo ffF16 .even (scaleNum (addNum .even hi lo) (-1))).1
  let on := decodeFloat ffF16 o
  let d := maxNum (v.map (fun x => absNum (addNum .even x (negNum on)))) (natNum 0)
  let b := match t.fmt with
    | 8 => natNum 127
    | 9 => natNum 7
    | _ => maxNum ((cb.filter (fun x => x != .nan)).map absNum) (natNum 0)
  let s := if isZeroNum d || isZeroNum b then 0 else (roundTo ffF16 .up (divNum d b)).1
  if isFinNum on && isFinNum (decodeFloat ffF16 s) then some (o, s) else none

/-- The code of one element (R209). -/
def rowCode_ (t : TableDesc) (cb : List Num) (o s : Nat) (x : Num) : Nat :=
  let y := addNum .even x (negNum (decodeFloat ffF16 o))
  let sn := decodeFloat ffF16 s
  let q := if s = 0 then natNum 0 else divNum y sn
  match t.fmt with
  | 8 => (128 + (clampInt (-128) 127 (roundInt .even q).1).1).toNat
  | 9 => (8 + (clampInt (-8) 7 (roundInt .even q).1).1).toNat
  | _ => if s = 0 then nearestEntry cb (natNum 0) else nearestEntry (cb.map (fun c => mulNum sn c)) y

/-- The element part of a record for values `x` (F32 bits), with scale and offset for coded formats (R209); none where
the row is not written. -/
def encodeRow (t : TableDesc) (cb : List Num) (x : List Nat) : Option (List Byte) :=
  let v := x.map (decodeFloat ffF32)
  if v.any (fun y => !isFinNum y) then none
  else if codedFmt t.fmt then
    match rowScale t cb v with
    | none => none
    | some (o, s) =>
      let codes := v.map (rowCode_ t cb o s)
      let body := if fmtNibbles t.fmt = 1 then packNibbles codes else codes.map (BitVec.ofNat 8)
      some (body ++ leBytes 2 s ++ leBytes 2 o)
  else some (rowBytes t.fmt x)

/-! ### The row-wise optimiser -/

/-- A correctly rounded F32 square root. -/
def sqrt32 (a : Nat) : Nat := (opSqrt ffF32 .even a).bits

/-- F32 difference. -/
def sub32 (a b : Nat) : Nat := (opAdd ffF32 .even true a b).bits

/-- The Adagrad sum of R208. -/
def adagradSum (g : List Nat) (w a : Nat) : Nat :=
  let q := g.foldl (fun q x => add32 q (mul32 x x)) 0
  add32 a (div32 q (nat32 w))

/-- row_update of R208: the new record, or none where it is not written (R209). `lr` and `eps` are F32 bits. -/
def rowUpdate (t : TableDesc) (cb : List Num) (lr eps : Nat) (r : List Byte) (g : List Nat) : Option (List Byte) :=
  let x := decodeRow t cb r
  let a := if t.opt = 2 then adagradSum g t.w (leAt r (rowStateOff t) 4) else 0
  let k := if t.opt = 2 then div32 lr (add32 (sqrt32 a) eps) else lr
  let v := (x.zip g).map (fun p => sub32 p.1 (mul32 k p.2))
  (encodeRow t cb v).map (fun body =>
    let rec_ := body ++ (if t.opt = 2 then leBytes 4 a else [])
    sliceBytes rec_ 0 (recordSize t))

end Sys2Proof.Machine
end

