-- ==== Sys2Proof/Machine/Tables.lean ====
section
/-!
DEFINITION. Table descriptors and what they compute (R197 to R207): lookups, gather, pooling, scatter-add, row gradients,
and sort and merge.
-/

namespace Sys2Proof.Machine

/-! ### Descriptors -/

/-- A table descriptor taken apart (R197). -/
structure TblDesc where
  src : Nat
  table : Nat
  ofmt : Nat
  pool : Nat
  poolAt : Bool
  premerge : Bool
  xr : Nat
  ctx : Nat
  n : Nat
  seq : Nat
  pidx : Nat
  pout : Nat
  pw : Nat
  plen : Nat
  isz : Nat
  icnt : Nat
  reserved : Bool
deriving DecidableEq, Repr

/-- The fields of a table descriptor's three words (R197). -/
def tblDesc (w0 w1 w2 : Nat) : TblDesc :=
  { src := bitField w0 63 62, table := bitField w0 61 50, ofmt := bitField w0 49 46, pool := bitField w0 45 44, poolAt := bitAt w0 43,
    premerge := bitAt w0 42, xr := bitField w0 41 39, ctx := bitField w0 37 32, n := bitField w0 31 16 + 1, seq := bitField w0 15 0,
    pidx := bitField w1 63 43, pout := bitField w1 42 22, pw := bitField w1 21 1, plen := bitField w2 63 43,
    isz := 64 * (bitField w2 42 31 + 1), icnt := bitField w2 30 0, reserved := bitAt w0 38 || bitAt w1 0 }

/-- Is a combination of TFN and SRC defined (R198)? -/
def tblComboOk (fn src : Nat) : Bool :=
  (fn == 0 && decide (src ≤ 1)) || (fn == 1 && src == 0) || (fn == 2 && decide (src ≤ 1)) || (fn == 3 && decide (2 ≤ src))

/-- OFMT as R198 permits. -/
def tblFmtOk (fn src f : Nat) : Bool :=
  let fl := f == 3 || f == 4 || f == 5
  if fn = 0 ∧ src = 1 then decide (f ≤ 9) else if fn = 2 ∧ src = 0 then f == 5 else if fn = 3 then f == 0 else fl

/-- Does the descriptor use bags: an index list with lengths? -/
def usesBags (fn src : Nat) : Bool := (fn == 1 || fn == 2) && src == 0

/-- The local ranges a descriptor uses, for a width and a number of indices: PIDX, PLEN, PW, POUT, with what is written. -/
def tblRanges (fn : Nat) (d : TblDesc) (w idx : Nat) : List (Nat × Nat × Bool) :=
  let bags := usesBags fn d.src
  let weights := bags && d.pool == 2
  if fn = 3 ∧ d.src = 3 then []
  else if fn = 3 then [(d.pidx, 8 * d.n, false), (d.pout, 8 * d.n, true), (d.pw, 4, true)]
  else if d.src = 1 then [(d.pidx, 4 * d.n, false), (d.pout, d.n * d.isz, fn == 0)]
  else
    [(d.pidx, 8 * idx, false), (d.pout, d.n * w * fmtNibbles d.ofmt / 2, fn != 2)]
      ++ (if bags then [(d.plen, 2 * d.n, false)] else []) ++ (if weights then [(d.pw, 4 * idx, false)] else [])

/-- Bag lengths (R198). -/
def readLens (v : View) (k fn : Nat) (d : TblDesc) : Rd (List Nat) :=
  if usesBags fn d.src then
    if sramSize < d.plen + 2 * d.n then .ok [] else (rdLocal v k d.plen (2 * d.n)).map (fun bs => (chunksOf 2 bs).map leNat)
  else .ok []

/-- Does a die hold a shard or a copy of a table (R198)? -/
def holdsShard (s : State) (die table : Nat) : Bool := s.tables.shards.any (fun p => p.2.table == table && p.2.die == die)

/-- Is a table descriptor malformed (R198)? -/
def tblMalformed (v : View) (k fn ps : Nat) (d : TblDesc) : Rd Bool :=
  let die := k / 768
  let usesTable := d.src == 0 || d.src == 3
  let aligned := fn == 3 && d.src == 3 || (d.pidx % 8 == 0 && d.pout % 8 == 0)
  let bags := usesBags fn d.src
  let pwUsed := (bags && d.pool == 2) || (fn == 3 && d.src == 2)
  if !tblComboOk fn d.src || d.reserved || !tblFmtOk fn d.src d.ofmt || d.pool == 3 || (!bags && d.pool != 0)
      || (!usesTable && d.table != 0) || decide (d.ctx / 12 ≠ die) || !aligned || (pwUsed && d.pw % 4 != 0) || (bags && d.plen % 2 != 0)
      || ps % 8 != 0 || (d.src == 1 && d.icnt == 0) then .ok true
  else
    (if usesTable then readTable v die d.table else .ok { noTable with present := true }).bind (fun t =>
      if !t.present || (d.src == 3 && !holdsShard v.s die d.table) then .ok true
      else
        (readLens v k fn d).map (fun lens =>
          let idx := if bags then lens.foldl (· + ·) 0 else d.n
          (bags && decide (2 ^ 20 < idx)) || (tblRanges fn d t.w idx).any (fun r => decide (sramSize < r.1 + r.2.1))
            || (bags && decide (sramSize < d.plen + 2 * d.n))))

/-! ### Lookups -/

/-- Key of a row of a table. -/
def rowKey (table row : Nat) : Nat := table * 2 ^ 40 + row

/-- What R199 finds for an index entry: the directory is read at the row's home. -/
inductive RowRef where
  | skipped
  | outside
  | absent
  /-- home header word, shard or copy, slot, record word -/
  | present (header place slot record : Nat)
deriving DecidableEq, Repr

/-- Resolve an index entry (R199) for a die. -/
def resolveRow (v : View) (t : TableDesc) (die slot : Nat) : Rd RowRef :=
  let row := slot % 2 ^ 40
  if !bitAt slot 63 then .ok .skipped
  else if t.nrows ≤ row then .ok .outside
  else
    let p := rowPlace t die row
    (readHeaderWord v t p.1).bind (fun hw =>
      (rd v hw 64).bind (fun h =>
        (rdN v (directoryWord hw h true p.2) 8).map (fun e =>
          if bitField e 63 62 = 1 ∨ bitField e 63 62 = 2 then .present hw p.1 (e % 2 ^ 40) (recordWord t hw h (e % 2 ^ 40)) else .absent)))

/-- What a skipped entry counts and raises (R199). -/
def rowRefOut : RowRef → SliceOut
  | .outside => { outCount 0x812006 1 with evs := [0xA005] }
  | .absent => { outCount 0x812007 1 with evs := [0xA006] }
  | _ => {}

/-- Hops between two dies of the ring (R18). -/
def dieHops (a b : Nat) : Nat := if a = b then 0 else if a ^^^ b = 3 then 2 else 1

/-- The valid replica a lookup of a die reads (R200): its own die's, else the nearest. -/
def replicaFor (s : State) (die table row : Nat) : Option Replica :=
  let rs := s.tables.replicas.filter (fun r => r.table == table && r.row == row && r.st == 2)
  (sortBy (fun (a b : Replica) => decide (dieHops die a.die < dieHops die b.die) || (dieHops die a.die == dieHops die b.die && decide (a.die < b.die))) rs).head?

/-- The record of a present row for a lookup (R200): from a replica, or from its home, with the counts of R222. `home`
forces the home (R202). -/
def lookupRecord (v : View) (t : TableDesc) (table die : Nat) (home : Bool) (slot : Nat) (hw rec_ : Nat) : Rd (List Byte × SliceOut) :=
  let row := slot % 2 ^ 40
  let rep := if home || t.replicated then none else replicaFor v.s die table row
  match rep with
  | some r =>
    .ok (r.recs.getD (boolNat r.act) [],
      joinOut (outCount 0x812001 1) { outCount (if r.die = die then 0x812002 else 0x812003) 1 with repLooks := [(r.die, rowKey table row)] })
  | none =>
    (rd v rec_ (recordSize t)).map (fun bs =>
      let here := !isRemote hw
      let hd := wordAddr hw / dieBytes
      (bs, joinOut (outCount 0x812001 1) { outCount (if here then 0x812004 else 0x812005) 1 with
        looks := if here && t.hoten then [(hd, rowKey table row)] else [] }))

/-- Look an index entry up: its decoded row, or none where R199 skips it, and its shard. -/
def lookupRow (v : View) (t : TableDesc) (cb : List Num) (table die : Nat) (home : Bool) (slot : Nat) : Rd (Option (List Nat) × SliceOut) :=
  (resolveRow v t die slot).bind (fun r =>
    match r with
    | .present hw _ _ rec_ => (lookupRecord v t table die home slot hw rec_).map (fun p => (some (decodeRow t cb p.1), p.2))
    | r => .ok (none, rowRefOut r))

/-! ### Gather -/

/-- Gather rows (R199): a skipped entry yields a row of +0. -/
def runGatherRows (v : View) (k : Nat) (d : TblDesc) (t : TableDesc) (cb : List Num) : Rd SliceOut :=
  (rdLocal v k d.pidx (8 * d.n)).bind (fun bs =>
    (rdAll (fun slot => lookupRow v t cb d.table (k / 768) false slot) ((chunksOf 8 bs).map leNat)).map (fun rs =>
      let rows := rs.map (fun r => r.1.getD (List.replicate t.w 0))
      joinOut { puts := [(d.pout, rows.flatMap (rowBytes d.ofmt))] } (joinOuts (rs.map (fun r => r.2)))))

/-- A replacement item (R199): code 0x80 or 0x8 in every element of Q8A or Q4A, zero bytes otherwise. -/
def zeroItem (fmt bytes : Nat) : List Byte := List.replicate bytes (if fmt = 8 then 0x80 else if fmt = 9 then 0x88 else 0)

/-- Gather items (R199, R137). -/
def runGatherItems (v : View) (k : Nat) (d : TblDesc) (base : Nat) : Rd SliceOut :=
  (rdLocal v k d.pidx (4 * d.n)).bind (fun bs =>
    (rdAll (fun i =>
      if d.icnt ≤ i then .ok (zeroItem d.ofmt d.isz, { outCount 0x80C006 1 with evs := [0xA001] })
      else (rd v (wordOff base (i * d.isz)) d.isz).map (fun b => (b, ({} : SliceOut)))) ((chunksOf 4 bs).map leNat)).map (fun rs =>
        joinOut { puts := [(d.pout, rs.flatMap (fun r => r.1))] } (joinOut (outCount 0x80C007 d.n) (joinOuts (rs.map (fun r => r.2))))))

/-! ### Pooling -/

/-- The loop of R201 over looked-up rows with their weights: the accumulators and m. -/
def poolLoop (pool w : Nat) (rows : List (Option (List Nat) × Nat)) : List Nat × Nat :=
  rows.foldl (fun st r =>
    match r.1 with
    | none => st
    | some x => (((st.1.zip x).map (fun p => if pool = 2 then (opFma ffF32 .even r.2 p.2 p.1).bits else add32 p.1 p.2)), st.2 + 1))
    (List.replicate w 0, 0)

/-- Mean: divided by the count, +0 where nothing was pooled (R201). -/
def meanOf (acc : List Nat) (m : Nat) : List Nat := acc.map (fun a => if m = 0 then 0 else div32 a (nat32 m))

/-- Cut a list into bags. -/
def cutBags {α : Type} : List Nat → List α → List (List α)
  | [], _ => []
  | n :: ns, xs => xs.take n :: cutBags ns (xs.drop n)

/-- The indices and weights of a bagged descriptor, bag by bag. -/
def readBags (v : View) (k : Nat) (d : TblDesc) (lens : List Nat) : Rd (List (List (Nat × Nat))) :=
  let idx := lens.foldl (· + ·) 0
  (rdLocal v k d.pidx (8 * idx)).bind (fun bs =>
    (if d.pool = 2 then rdLocal v k d.pw (4 * idx) else .ok (List.replicate (4 * idx) 0)).map (fun ws =>
      cutBags lens (((chunksOf 8 bs).map leNat).zip ((chunksOf 4 ws).map leNat))))

/-- Pool one bag at the requester (R201) or at the homes, partials added in ascending shard number (R202). -/
def poolBag (v : View) (k : Nat) (d : TblDesc) (t : TableDesc) (cb : List Num) (bag : List (Nat × Nat)) : Rd (List Byte × SliceOut) :=
  let atHome := d.poolAt && !t.replicated
  (rdAll (fun e => (lookupRow v t cb d.table (k / 768) atHome e.1).map (fun r => ((r.1, e.2), (e.1 % 2 ^ 40) % t.nshard, r.2))) bag).map (fun rs =>
    let r := if atHome then
        (sortNats ((rs.map (fun r => r.2.1)).dedup)).foldl (fun st sh =>
          let p := poolLoop d.pool t.w ((rs.filter (fun r => decide (r.2.1 = sh))).map (fun r => r.1))
          ((st.1.zip p.1).map (fun q => add32 q.1 q.2), st.2 + p.2)) (List.replicate t.w 0, 0)
      else poolLoop d.pool t.w (rs.map (fun r => r.1))
    (rowBytes d.ofmt (if d.pool = 1 then meanOf r.1 r.2 else r.1), joinOuts (rs.map (fun r => r.2.2))))

/-- Gather and pool (R201, R202). -/
def runPool (v : View) (k : Nat) (d : TblDesc) (t : TableDesc) (cb : List Num) (lens : List Nat) : Rd SliceOut :=
  (readBags v k d lens).bind (fun bags =>
    (rdAll (poolBag v k d t cb) bags).map (fun rs =>
      joinOut { puts := [(d.pout, rs.flatMap (fun r => r.1))] } (joinOuts (rs.map (fun r => r.2)))))

/-! ### Scatter-add -/

/-- Write bytes through a view: what is read afterwards sees them. -/
def viewPut (v : View) (w : Nat) (bs : List Byte) : View :=
  if isRemote w then
    { v with remote := v.remote.map (fun p => (p.1, (List.range 64).map (fun i =>
        if w ≤ p.1 + i ∧ p.1 + i < w + bs.length then bs.getD (p.1 + i - w) 0 else p.2.getD i 0))) }
  else { v with s := putMem (wordAddr w) bs v.s }

/-- Scatter-add of items (R203): destinations in descriptor order, elements in ascending order. -/
def runScatterItems (v : View) (k : Nat) (d : TblDesc) (base : Nat) : Rd SliceOut :=
  let f := (fmtFloat d.ofmt).getD ffF32
  let eb := fmtNibbles d.ofmt / 2
  (rdLocal v k d.pidx (4 * d.n)).bind (fun bs =>
    (rdFold (fun (st : View × SliceOut) (p : Nat × Nat) =>
      if d.icnt ≤ p.2 then .ok (st.1, joinOut st.2 { outCount 0x80C006 1 with evs := [0xA001] })
      else
        let w := wordOff base (p.2 * d.isz)
        (rdLocal v k (d.pout + p.1 * d.isz) d.isz).bind (fun src =>
          (rd st.1 w d.isz).map (fun dst =>
            let new := ((chunksOf eb dst).zip (chunksOf eb src)).flatMap (fun q => leBytes eb (opAdd f .even false (leNat q.1) (leNat q.2)).bits)
            (viewPut st.1 w new, joinOut st.2 { stores := [(w, new)] }))))
      ((List.range d.n).zip ((chunksOf 4 bs).map leNat)) (v, {})).map (fun st => st.2))

/-- The sort key of R205. -/
def sortKey (row table slot seq bag pos : Nat) : Nat :=
  atBit 88 row + atBit 76 table + atBit 52 slot + atBit 36 seq + atBit 20 (bag % 65536) + atBit 4 (pos % 65536)

/-- The row gradients of one bag (R204): shard key, header word, key, values. -/
def bagGradients (v : View) (k : Nat) (d : TblDesc) (t : TableDesc) (bagNo : Nat) (bag : List (Nat × Nat)) (g : List Nat) :
    Rd (List (Nat × Nat × Nat × List Nat) × SliceOut) :=
  let die := k / 768
  (rdAll (fun (p : Nat × Nat × Nat) => (resolveRow v t die p.2.1).map (fun r => (p, r))) ((List.range bag.length).zip bag)).map (fun rs =>
    let m := (rs.filter (fun r => match r.2 with
      | .present _ _ _ _ => true
      | _ => false)).length
    let es := rs.flatMap (fun r =>
      match r.2 with
      | .present hw place _ _ =>
        let row := r.1.2.1 % 2 ^ 40
        let vals := if d.pool = 1 then meanOf g m else if d.pool = 2 then g.map (mul32 r.1.2.2) else g
        let sk := if t.replicated then shardKey d.table 0 place else shardKey d.table place 0
        [(sk, hw, sortKey row d.table (v.s.ctx d.ctx).slot.toNat d.seq bagNo r.1.1, vals)]
      | _ => [])
    (es, joinOuts (rs.map (fun r => rowRefOut r.2))))

/-- Order of entries (R205): by key, then by their bytes. -/
def entryBefore (a b : GradEntry) : Bool :=
  decide (a.key.toNat < b.key.toNat) || (a.key == b.key && decide (beNat (a.vals.flatMap (leBytes 4)) < beNat (b.vals.flatMap (leBytes 4))))

/-- Row of an entry. -/
def entryRow (e : GradEntry) : Nat := e.key.toNat / 2 ^ 88

/-- Sum of the entries of one row in key order: the first one's values, each later one added (R206). -/
def sumEntries : List GradEntry → List Nat
  | [] => []
  | e :: es => es.foldl (fun acc x => (acc.zip x.vals).map (fun p => add32 p.1 p.2)) e.vals

/-- Entries grouped by row, rows rising, keys rising in each. -/
def groupRows (es : List GradEntry) : List (Nat × List GradEntry) :=
  let sorted := sortBy entryBefore es
  (sortNats ((sorted.map entryRow).dedup)).map (fun r => (r, sorted.filter (fun e => decide (entryRow e = r))))

/-- PREMERGE (R204): equal rows of one descriptor added in key order, under the smallest key. -/
def premerge (es : List (Nat × Nat × Nat × List Nat)) : List (Nat × Nat × Nat × List Nat) :=
  (groupRows (es.map (fun e => { key := BitVec.ofNat 128 e.2.2.1, vals := e.2.2.2 }))).filterMap (fun p =>
    match es.find? (fun e => decide (e.2.2.1 / 2 ^ 88 = p.1)), p.2 with
    | some e, x :: _ => some (e.1, e.2.1, x.key.toNat, sumEntries p.2)
    | _, _ => none)

/-- Scatter-add of row gradients (R204). -/
def runScatterRows (v : View) (k : Nat) (d : TblDesc) (t : TableDesc) (lens : List Nat) : Rd SliceOut :=
  (readBags v k d lens).bind (fun bags =>
    (rdLocal v k d.pout (4 * t.w * d.n)).bind (fun gs =>
      let grads := chunksOf t.w ((chunksOf 4 gs).map leNat)
      (rdAll (fun (p : Nat × List (Nat × Nat)) => bagGradients v k d t p.1 p.2 (grads.getD p.1 [])) ((List.range d.n).zip bags)).map (fun rs =>
        let es := rs.flatMap (fun r => r.1)
        let es := if d.premerge && !v.s.job.shapeFree then premerge es else es
        joinOut { entries := es } (joinOuts (rs.map (fun r => r.2))))))

/-! ### Sort and merge -/

/-- Sort and merge of node slots (R207). -/
def runSortSlots (v : View) (k : Nat) (d : TblDesc) : Rd SliceOut :=
  (rdLocal v k d.pidx (8 * d.n)).map (fun bs =>
    let nodes := sortNats ((((chunksOf 8 bs).map leNat).filter (fun x => bitAt x 63)).map (fun x => x % 2 ^ 40)).dedup
    { puts := [(d.pout, (nodes.map validSlot ++ List.replicate (d.n - nodes.length) 0).flatMap (leBytes 8)), (d.pw, leBytes 4 nodes.length)] })

/-- Sort and merge of one inbox (R206): one gradient per present row. -/
def mergeInbox (v : View) (t : TableDesc) (key : Nat) (sh : Shard) : Rd SliceOut :=
  let rows := groupRows sh.inbox
  (rdAll (fun (p : Nat × List GradEntry) => (resolveRow v t sh.die (validSlot p.1)).map (fun r => (p, r))) rows).map (fun rs =>
    let live := rs.filter (fun r => match r.2 with
      | .present _ _ _ _ => true
      | _ => false)
    let lost := rs.filter (fun r => r.2 == .absent)
    let n := (lost.map (fun r => r.1.2.length)).foldl (· + ·) 0
    joinOut (outCount 0x812009 live.length)
      { outCount 0x812007 n with evs := List.replicate n 0xA006, merges := [(key, live.map (fun r => (r.1.1, sumEntries r.1.2)))] })

/-- Sort and merge of the inboxes of a table on the tile's die (R206). -/
def runMerge (v : View) (k : Nat) (d : TblDesc) (t : TableDesc) : Rd SliceOut :=
  (rdAll (fun (p : Nat × Shard) => mergeInbox v t p.1 p.2)
    (v.s.tables.shards.filter (fun p => p.2.table == d.table && p.2.die == k / 768))).map joinOuts

/-! ### A whole descriptor -/

/-- Run a well-formed table descriptor (R198). -/
def runTable (v : View) (k fn : Nat) (d : TblDesc) (base : Nat) : Rd SliceOut :=
  if fn = 3 ∧ d.src = 2 then runSortSlots v k d
  else if d.src = 1 then (if fn = 0 then runGatherItems v k d base else runScatterItems v k d base)
  else
    (readTable v (k / 768) d.table).bind (fun t =>
      (readCodebook v t).bind (fun cb =>
        (readLens v k fn d).bind (fun lens =>
          match fn with
          | 0 => runGatherRows v k d t cb
          | 1 => runPool v k d t cb lens
          | 2 => runScatterRows v k d t lens
          | _ => runMerge v k d t)))

end Sys2Proof.Machine
end

