-- ==== Sys2Proof/Machine/Special.lean ====
section
/-!
DEFINITION. The special functions of R48. The spec bounds their error and leaves the table-and-polynomial evaluation
open, so the result is a FREE VALUE among the F32 values within the bound: the true value is computed here in fixed
point with 256 fraction bits, and `Config.specialPick` chooses among its neighbours.
-/

namespace Sys2Proof.Machine

/-- Fraction bits of the fixed-point evaluation. -/
def fxBits : Nat := 256

/-- 1 in fixed point. -/
def fxOne : Int := 2 ^ 256

/-- ln 2 in fixed point. -/
def fxLn2 : Int := 80260960185991308862233904206310070533990667611589946606122867505419956976171

/-- pi in fixed point. -/
def fxPi : Int := 363771576891766324280234942777729862653393377328392429958772151117938894466185

/-- 2 / sqrt(pi) in fixed point. -/
def fxTwoOverSqrtPi : Int := 130657381209852114387528029350014196574164286124850014242073919076264802271585

/-- Fixed-point product. -/
def fxMul (a b : Int) : Int := (a * b) / fxOne

/-- Fixed-point quotient. -/
def fxDiv (a b : Int) : Int := if b = 0 then 0 else (a * fxOne) / b

/-- A dyadic value in fixed point. -/
def fxOf (neg : Bool) (m : Nat) (e : Int) : Int :=
  let k := e + 256
  signedMag neg (if k ≥ 0 then m <<< k.toNat else m >>> (-k).toNat)

/-- Sum of the series t_0 + t_1 + ... with t_(i+1) = t_i x q / div i, for `fuel` terms. -/
def fxSeries (q : Int) (div : Nat → Int) : Nat → Nat → Int → Int → Int
  | 0, _, _, acc => acc
  | fuel + 1, i, t, acc => fxSeries q div fuel (i + 1) (fxMul t q / div i) (acc + t)

/-- e^r for a small r. -/
def fxExpSmall (r : Int) : Int := fxSeries r (fun i => (i : Int) + 1) 80 0 fxOne 0

/-- e^x, exact to far more bits than F32 holds. -/
def fxExp (x : Int) : Int :=
  let n := x / fxLn2
  let t := fxExpSmall (x - n * fxLn2)
  if n ≥ 0 then t * (2 ^ n.toNat : Nat) else t / (2 ^ (-n).toNat : Nat)

/-- The odd series z + c z^3 + ... with given term ratios, summed. -/
def fxAtanh (z : Int) : Int :=
  let z2 := fxMul z z
  let rec go : Nat → Nat → Int → Int → Int
    | 0, _, _, acc => acc
    | fuel + 1, i, t, acc => go fuel (i + 1) (fxMul t z2) (acc + t / ((2 * i + 1 : Nat) : Int))
  go 96 0 z 0

/-- ln(m x 2^e) for m > 0. -/
def fxLog (m : Nat) (e : Int) : Int :=
  let l := m.log2
  let y := fxOf false m (-(l : Int))
  2 * fxAtanh (fxDiv (y - fxOne) (y + fxOne)) + ((l : Int) + e) * fxLn2

/-- sin r for |r| at most about 2. -/
def fxSinSmall (r : Int) : Int :=
  fxSeries (-(fxMul r r)) (fun i => ((2 * i + 2) * (2 * i + 3) : Nat)) 60 0 r 0

/-- cos r for |r| at most about 2. -/
def fxCosSmall (r : Int) : Int :=
  fxSeries (-(fxMul r r)) (fun i => ((2 * i + 1) * (2 * i + 2) : Nat)) 60 0 fxOne 0

/-- sin(x + k pi/2) after reduction to a quarter turn. -/
def fxSinQuarter (x : Int) (k : Int) : Int :=
  let half := fxPi / 2
  let n := (x + half / 2) / half
  let r := x - n * half
  match (n + k) % 4 with
  | 0 => fxSinSmall r
  | 1 => fxCosSmall r
  | 2 => -(fxSinSmall r)
  | _ => -(fxCosSmall r)

/-- erf x for |x| below 5, by its Taylor series. -/
def fxErf (x : Int) : Int :=
  let x2 := fxMul x x
  let rec go : Nat → Nat → Int → Int → Int
    | 0, _, _, acc => acc
    | fuel + 1, i, t, acc =>
      go fuel (i + 1) (-(fxMul t x2) / ((i + 1 : Nat) : Int)) (acc + t / ((2 * i + 1 : Nat) : Int))
  fxMul fxTwoOverSqrtPi (go 240 0 x 0)

/-- The lower F32 neighbour of a fixed-point magnitude, as magnitude bits. -/
def fxFloorF32 (x : Int) : Nat := (roundMag ffF32 .zero false x.natAbs (-256)).mag

/-- VFN numbers 0x20-0x2B in order: EXP EXP2 LOG LOG2 RCP SQRT RSQRT TANH SIGM ERF SIN COS. -/
abbrev SpecialFn := Nat

/-- One of the F32 values within `k` units in the last place of a fixed-point value (R48). -/
def pickNear (fn : SpecialFn) (k : Nat) (x : BitVec 32) (zeroNeg : Bool) (v : Int) : Nat :=
  let base := fxFloorF32 v
  let mag := (base + Config.specialPick fn x % (2 * k)) - (k - 1)
  let neg := if v = 0 then zeroNeg else decide (v < 0)
  withSign ffF32 neg (min mag (infMag ffF32))

/-- sin and cos beyond 2^20: some value in [-1, 1] (R48). -/
def farTrigValue (fn : SpecialFn) (x : BitVec 32) : Nat :=
  let y := (Config.farTrig fn x).toNat
  if y % 2 ^ 31 ≤ 0x3F800000 then y else withSign ffF32 (bitAt y 31) 0x3F800000

/-- A finite F32 input run through special function `fn`. -/
def specialFinite (fn : SpecialFn) (x : BitVec 32) (s : Bool) (m : Nat) (e : Int) : Nat :=
  let fx := fxOf s m e
  let subn := decide (x.toNat % 2 ^ 31 < 2 ^ 23)
  let top : Int := (m.log2 : Int) + e
  match fn with
  | 0 => if m ≠ 0 ∧ top ≥ 7 then (if s then pickNear 0 1 x false 0 else infMag ffF32) else pickNear 0 1 x false (fxExp fx)
  | 1 =>
    if m ≠ 0 ∧ top ≥ 8 then (if s then pickNear 1 1 x false 0 else infMag ffF32)
    else pickNear 1 1 x false (fxExp (fxMul fx fxLn2))
  | 2 =>
    if m = 0 then withSign ffF32 true (infMag ffF32)
    else if s then canonNaN ffF32 else pickNear 2 (if subn then 2 else 1) x false (fxLog m e)
  | 3 =>
    if m = 0 then withSign ffF32 true (infMag ffF32)
    else if s then canonNaN ffF32
    else pickNear 3 (if subn then 2 else 1) x false (fxDiv (fxLog m e) fxLn2)
  | 6 =>
    if m = 0 then withSign ffF32 s (infMag ffF32)
    else if s then canonNaN ffF32
    else
      let m' := if e % 2 = 0 then m else 2 * m
      let e' := if e % 2 = 0 then e else e - 1
      let root := isqrt (2 ^ 640 / m')
      pickNear 6 (if subn then 2 else 1) x false (fxOf false root (-320 - e' / 2))
  | 7 =>
    let y := fxExp (2 * (if m ≠ 0 ∧ top ≥ 6 then fxOf s 1 6 else fx))
    pickNear 7 2 x s (fxDiv (y - fxOne) (y + fxOne))
  | 8 =>
    let y := fxExp (if m ≠ 0 ∧ top ≥ 7 then fxOf s 1 7 else fx)
    pickNear 8 2 x false (fxDiv y (y + fxOne))
  | 9 => pickNear 9 2 x s (if m ≠ 0 ∧ top ≥ 3 then signedMag s (2 ^ 256 - 2 ^ 200) else fxErf fx)
  | 10 => if m ≠ 0 ∧ top ≥ 20 ∧ ¬ (fx.natAbs = 2 ^ 276) then farTrigValue 10 x else pickNear 10 2 x s (fxSinQuarter fx 0)
  | 11 => if m ≠ 0 ∧ top ≥ 20 ∧ ¬ (fx.natAbs = 2 ^ 276) then farTrigValue 11 x else pickNear 11 2 x false (fxSinQuarter fx 1)
  | _ => canonNaN ffF32

/-- Special function `fn` of an F32 input, as F32 bits: the limiting values of R48 and the free value within its bound. -/
def specialF32 (fn : SpecialFn) (x : BitVec 32) : Nat :=
  match decodeFloat ffF32 x.toNat with
  | .nan => canonNaN ffF32
  | .inf s =>
    match fn with
    | 0 => if s then 0 else infMag ffF32
    | 1 => if s then 0 else infMag ffF32
    | 2 => if s then canonNaN ffF32 else infMag ffF32
    | 3 => if s then canonNaN ffF32 else infMag ffF32
    | 6 => if s then canonNaN ffF32 else 0
    | 7 => withSign ffF32 s 0x3F800000
    | 8 => if s then 0 else 0x3F800000
    | 9 => withSign ffF32 s 0x3F800000
    | _ => canonNaN ffF32
  | .fin s m e => specialFinite fn x s m e

/-- A special function on an F32, F16 or BF16 element: the F32 result rounded to the format under RDIR, with the flags
R48 lists and no others. -/
def opSpecial (fn : SpecialFn) (f : FFmt) (mode : RMode) (a : Nat) : LaneRes :=
  let x := decodeFloat f a
  let x32 := (roundTo ffF32 .even x).1
  let y := decodeFloat ffF32 (specialF32 fn (BitVec.ofNat 32 x32))
  let r := (roundTo f mode y).1
  let z := decodeFloat f r
  let expo := decide (fn ≤ 1)
  let small := match z with
    | .fin _ m _ => decide (m < 2 ^ f.fw)
    | _ => false
  { bits := r,
    fl := { invalid := decide (x ≠ .nan) && decide (z = .nan),
            divZero := (decide (fn = 2) || decide (fn = 3) || decide (fn = 6)) && isZeroNum x,
            overflow := expo && isFinNum x && decide (z = .inf false),
            underflow := expo && isFinNum x && small,
            inexact := expo && isFinNum x && (small || decide (z = .inf false)) } }

end Sys2Proof.Machine
end

