-- ==== Sys2Proof/Machine/ArrayOps.lean ====
section
/-!
DEFINITION. The matrix engine (06_matrix_engine.md) and the accumulation groups (R78, R79): what LDW, MM and the group
instructions do to a tile. Sums round into W40 in the order R123 fixes, and nowhere else.
-/

namespace Sys2Proof.Machine

/-- Enabled arrays in ascending order (R76). -/
def enabledArrays (amask : BitVec 4) : List (Fin 4) :=
  [(0 : Fin 4), 1, 2, 3].filter (fun j => amask.getLsbD j.val)

/-- Index of a plane in the tile. -/
def planeIx (j : Fin 4) (plane : Bool) : Fin 8 := Fin.ofNat 8 (2 * j.val + boolNat plane)

/-- Value of an expanded element: its format after expansion, and its block's code for G16. -/
def expandedNum (fmt raw code : Nat) : Num := decodeElem fmt raw code

/-- Exact sum of a list of values, rounded once to W40 (R124: W[j] is always exact). -/
def exactSum (xs : List Num) : Num :=
  match xs with
  | [] => natNum 0
  | x :: rest => rest.foldl (addNum .even) x

/-- The chain of R123 over products already in order: rnd40 at every step. -/
def chain40 (ps : List Num) : Num :=
  match ps with
  | [] => natNum 0
  | p :: rest => rest.foldl (fun c q => rnd40 (addNum .even c q)) (rnd40 p)

/-- The scale stage of R124. -/
def scaleStage (sx ox sj oj c q w : Num) : Num :=
  let t1 := mulNum (mulNum sx sj) c
  let t2 := mulNum (mulNum sx oj) q
  let t3 := mulNum (mulNum ox sj) w
  let t4 := mulNum (mulNum (natNum 16) ox) oj
  rnd40 (addNum .even (addNum .even (addNum .even t1 t2) t3) t4)

/-- Read the row codes of 16 weight or operand rows: for G16 only; a row outside the map is counted (R150). -/
def tcG16RowCode (c : TCtx) (fmt a : Nat) : TCtx × Nat :=
  if fmt = 0xA then
    match g16Code c a with
    | some k => (c, k)
    | none => (tcOutside c 16, 0x7F)
  else (c, 0x7F)

/-- The conditions R68 puts on an LDW word. -/
def ldwOk (a : LdwArgs) : Bool := a.amask != 0 && a.stride != 0 && fmtArrayOk a.fw.toNat

/-- The conditions R68 puts on an MM word. -/
def mmOk (a : MmArgs) : Bool :=
  a.amask != 0 && a.stride != 0 && fmtArrayOk a.fx.toNat
    && decide (a.gbase.toNat + (enabledArrays a.amask).length * (a.nrow.toNat + 1) ≤ 64)

/-- The conditions R68 puts on a group word, common to all five (R78). -/
def groupOk (a : GroupArgs) : Bool := decide (a.gbase.toNat + a.gcnt.toNat ≤ 63)

/-- R78 for GOPEN. -/
def gopenOk (a : GroupArgs) : Bool :=
  groupOk a && (if a.mode = 0 then a.fmt == 0 else a.mode == 1 && fmtGroupOk a.fmt.toNat)

/-- R78 for GCLOSE. -/
def gcloseOk (a : GroupArgs) : Bool := groupOk a && fmtGroupOk a.fmt.toNat && !a.mode.getLsbD 0

/-- R78 for GSPILL and GFILL: FMT and MODE 0, stride at least 10. -/
def gspillOk (a : GroupArgs) : Bool := groupOk a && a.fmt == 0 && a.mode == 0 && decide (10 ≤ a.stride.toNat)

/-- R78 for GDROP. -/
def gdropOk (a : GroupArgs) : Bool := groupOk a && a.fmt == 0 && a.mode == 0

/-- The plane one LDW loads: 16 rows read, expanded and captured with their codes and column sums (R74, R124). -/
def loadPlane (c : TCtx) (a : LdwArgs) : TCtx × Plane :=
  let fmt := a.fw.toNat
  let p := (c.tile.ptr[a.pa]).toNat
  let rowAt := fun (i : Nat) => localAddr (p + i * a.stride.toNat * 8)
  let raws := (List.range 16).flatMap (fun i => tcElems c fmt (rowAt i) 16)
  let ex := raws.map (expandElem c.tile fmt)
  let efmt := (ex.head?.map (fun x => x.2)).getD fmt
  let cc := (List.range 16).foldl
    (fun (st : TCtx × List Nat) i => let r := tcG16RowCode st.1 fmt (rowAt i); (r.1, st.2 ++ [r.2])) (c, [])
  let elems := ex.map (fun x => x.1)
  let num := fun (k j : Nat) => expandedNum efmt (nth elems (16 * k + j)) (nth cc.2 k)
  let wsum := (List.range 16).map (fun j => encW40 (exactSum ((List.range 16).map (fun k => num k j))))
  (cc.1, { loaded := true, fmt := fmt, efmt := efmt, elems := elems, codes := cc.2, wsum := wsum })

/-- LDW (R74): the block goes into the selected plane of every enabled array, and PA advances. -/
def effLdw (a : LdwArgs) (c : TCtx) : TCtx :=
  if ldwOk a then
    let r := loadPlane c a
    let t := (enabledArrays a.amask).foldl
      (fun (t : Tile) j => { t with planes := t.planes.set (planeIx j a.plane) r.2 }) r.1.tile
    { r.1 with tile := ptrAdd t a.pa (8 * signExt 16 a.pinc.toNat) }
  else tcProgFault c

/-- Weight row k, column j of a plane as an exact value. -/
def planeNum (p : Plane) (k j : Nat) : Num := expandedNum p.efmt (nth p.elems (16 * k + j)) (nth p.codes k)

/-- The scale and offset of weight column j (R124, R155). -/
def columnScale (t : Tile) (fmt j : Nat) : Num × Num :=
  if isQuant fmt then
    let tb := expTable t fmt
    (decodeFloat ffF16 (leAt tb (16 + 2 * j) 2), decodeFloat ffF16 (leAt tb (48 + 2 * j) 2))
  else (natNum 1, natNum 0)

/-- The scale and offset of an operand row at local address `a` (R124, R155). -/
def operandScale (c : TCtx) (fmt a : Nat) : TCtx × Num × Num :=
  if isQuant fmt then
    let tb := expTable c.tile fmt
    if tbXsrc tb then
      match rowCode c a with
      | some k => (c, decodeE8 k, natNum 0)
      | none => (tcOutside c 16, decodeE8 0x7F, natNum 0)
    else (c, decodeFloat ffF16 (leAt tb 8 2), decodeFloat ffF16 (leAt tb 10 2))
  else (c, natNum 1, natNum 0)

/-- The 16 updates one operand row gives (R123, R124). -/
def rowUpdates (c : TCtx) (p : Plane) (fx a : Nat) : TCtx × List Num :=
  let raws := tcElems c fx a 16
  let ex := raws.map (expandElem c.tile fx)
  let rc := tcG16RowCode c fx a
  let xs := ex.map (fun x => expandedNum x.2 x.1 rc.2)
  let so := operandScale rc.1 fx a
  let scaled := isQuant fx || isQuant p.fmt
  let q := chain40 xs
  let ups := (List.range 16).map (fun j =>
    let cc := chain40 ((List.range 16).map (fun k => mulNum (xs.getD k .nan) (planeNum p k j)))
    if scaled then
      let sj := columnScale c.tile p.fmt j
      scaleStage so.2.1 so.2.2 sj.1 sj.2 cc q (decW40 (p.wsum.getD j 0))
    else cc)
  (if scaled then tcBump so.1 .array 7 16 else so.1, ups)

/-- Add 16 updates into group `g` (R123). -/
def addToGroup (t : Tile) (g : Nat) (ups : List Num) : Tile :=
  let old := smGetD t.groups g []
  let new := (List.range 16).map (fun j =>
    encW40 (addNum .even (decW40 (old.getD j 0)) (ups.getD j (natNum 0))))
  { t with groups := smPut t.groups g new }

/-- Groups `g .. g + n - 1` are all open. -/
def groupsOpen (t : Tile) (g n : Nat) : Bool := (List.range n).all (fun i => (smFind t.groups (g + i)).isSome)

/-- Groups `g .. g + n - 1` are all closed. -/
def groupsClosed (t : Tile) (g n : Nat) : Bool := (List.range n).all (fun i => (smFind t.groups (g + i)).isNone)

/-- One enabled array of an MM: its rows in ascending order (R76). -/
def mmArray (a : MmArgs) (p0 : Nat) (c : TCtx) (jr : Fin 4 × Nat) : TCtx :=
  let n := a.nrow.toNat + 1
  let p := c.tile.planes[planeIx jr.1 a.plane]
  let c := tcBump c .array (max (fmtPieces a.fx.toNat) (fmtPieces p.fmt)) n
  (List.range n).foldl (fun c i =>
    let at_ := localAddr (p0 + (jr.2 * n + i) * a.stride.toNat * 8)
    let r := rowUpdates c p a.fx.toNat at_
    { r.1 with tile := addToGroup r.1.tile (a.gbase.toNat + jr.2 * n + i) r.2 }) c

/-- MM (R75, R76, R123): program fault on a plane not loaded or a closed group (R69). -/
def effMm (a : MmArgs) (c : TCtx) : TCtx :=
  let js := enabledArrays a.amask
  if mmOk a && js.all (fun j => (c.tile.planes[planeIx j a.plane]).loaded)
      && groupsOpen c.tile a.gbase.toNat (js.length * (a.nrow.toNat + 1)) then
    let p0 := (c.tile.ptr[a.pa]).toNat
    let c := (js.zip (List.range js.length)).foldl (mmArray a p0) c
    { c with tile := ptrAdd c.tile a.pa (8 * signExt 16 a.pinc.toNat) }
  else tcProgFault c

/-- The 16 initial values of GOPEN with MODE 01 at local address `a`, with the flags their conversion raises. -/
def gopenRow (c : TCtx) (fmt a : Nat) : TCtx × List (BitVec 40) :=
  (List.range 16).foldl (fun (st : TCtx × List (BitVec 40)) k =>
    let na := 2 * a + k * fmtNibbles fmt
    let raw := tcReadNib st.1 na (fmtNibbles fmt)
    let code := if fmt = 0xA then g16Code st.1 (localAddr (na / 2)) else some 0x7F
    let c := if code.isSome then st.1 else tcOutside st.1 1
    let x := decodeElem fmt raw (code.getD 0x7F)
    let snan := match fmtFloat fmt with
      | some f => isSignalling f raw
      | none => false
    let r := convTo 0xB .even true snan x
    (tcConv c r, st.2 ++ [BitVec.ofNat 40 r.bits])) (c, [])

/-- GOPEN (R79): its groups open zeroed or loaded; an open group is a program fault (R69). -/
def effGopen (a : GroupArgs) (c : TCtx) : TCtx :=
  let n := a.gcnt.toNat + 1
  if gopenOk a && groupsClosed c.tile a.gbase.toNat n then
    let p := (c.tile.ptr[a.pa]).toNat
    (List.range n).foldl (fun c i =>
      let g := a.gbase.toNat + i
      if a.mode = 0 then { c with tile := { c.tile with groups := smPut c.tile.groups g (List.replicate 16 0) } }
      else
        let r := gopenRow c a.fmt.toNat (localAddr (p + i * a.stride.toNat * 8))
        { r.1 with tile := { r.1.tile with groups := smPut r.1.tile.groups g r.2 } }) c
  else tcProgFault c

/-- Non-finite elements of a group are counted at GCLOSE and GSPILL (R131 .05). -/
def tcCountNonfinite (c : TCtx) (g : Nat) : TCtx :=
  tcBump c .array 5 (((smGetD c.tile.groups g []).filter (fun w => !isFinNum (decW40 w))).length)

/-- Close a range of groups. -/
def closeGroups (t : Tile) (g n : Nat) : Tile :=
  (List.range n).foldl (fun (t : Tile) i => { t with groups := smDel t.groups (g + i) }) t

/-- The fused row statistics of R127, as the F32 bits of M and S. -/
def rowStats (row : List (BitVec 40)) : Nat × Nat :=
  let rs := row.map (fun w => (roundTo ffF32 .even (decW40 w)).1)
  let m := match rs with
    | [] => canonNaN ffF32
    | r :: rest => rest.foldl (fun a b => (opMaxMin ffF32 true a b).bits) r
  let mn := decodeFloat ffF32 m
  if isFinNum mn then
    let es := rs.map (fun r =>
      let d := (opAdd ffF32 .even true r m).bits
      specialF32 0 (BitVec.ofNat 32 d))
    let s := match es with
      | [] => 0
      | e :: rest => rest.foldl (fun a b => (opAdd ffF32 .even false a b).bits) e
    (m, s)
  else (m, canonNaN ffF32)

/-- The elements a GCLOSE writes for group index `i`. -/
def gcloseElems (c : TCtx) (a : GroupArgs) (i : Nat) : List OutElem :=
  let p := localAddr ((c.tile.ptr[a.pa]).toNat + i * a.stride.toNat * 8)
  let nibs := resultNibs c.tile a.fmt.toNat p
  let row := smGetD c.tile.groups (a.gbase.toNat + i) []
  (List.range 16).map (fun k =>
    { na := (2 * p + k * nibs) % (2 * sramSize), x := decW40 (row.getD k 0), snan := false })

/-- Write one closed row: its elements, then M and S where MODE bit 28 asks for them (R127). -/
def gcloseRow (a : GroupArgs) (bits : List OutBits) (c : TCtx) (i : Nat) : TCtx :=
  let p := localAddr ((c.tile.ptr[a.pa]).toNat + i * a.stride.toNat * 8)
  let nas := (gcloseElems c a i).map (fun o => o.na)
  let c1 := tcPutBits c (bits.filter (fun b => nas.contains b.na))
  if a.mode.getLsbD 1 then
    let st := rowStats (smGetD c.tile.groups (a.gbase.toNat + i) [])
    let q := p + 16 * (fmtNibbles a.fmt.toNat) / 2
    tcBump (tcWrite (tcWrite c1 q (leBytes 4 st.1)) (q + 4) (leBytes 4 st.2)) .array 6 1
  else c1

/-- GCLOSE (R79, R127, R151): convert, write and close; a closed group is a program fault (R69). Elements written
more than once keep the last row's bits, rows being written in ascending order. -/
def effGclose (a : GroupArgs) (c : TCtx) : TCtx :=
  let n := a.gcnt.toNat + 1
  if gcloseOk a && groupsOpen c.tile a.gbase.toNat n then
    let c := (List.range n).foldl (fun c i => tcCountNonfinite c (a.gbase.toNat + i)) c
    let os := (List.range n).flatMap (gcloseElems c a)
    let r := tcEncodeAll c a.fmt.toNat .even (satFlag c.tile) os
    let c := (List.range n).foldl (gcloseRow a r.2) r.1
    { c with tile := closeGroups c.tile a.gbase.toNat n }
  else tcProgFault c

/-- GSPILL (R79): each group as 16 W40 values in 80 bytes, then closed. -/
def effGspill (a : GroupArgs) (c : TCtx) : TCtx :=
  let n := a.gcnt.toNat + 1
  if gspillOk a && groupsOpen c.tile a.gbase.toNat n then
    let p := (c.tile.ptr[a.pa]).toNat
    let c := (List.range n).foldl (fun c i =>
      let row := smGetD c.tile.groups (a.gbase.toNat + i) []
      tcWrite (tcCountNonfinite c (a.gbase.toNat + i)) (localAddr (p + i * a.stride.toNat * 8))
        (row.flatMap (fun w => leBytes 5 w.toNat))) c
    { c with tile := closeGroups c.tile a.gbase.toNat n }
  else tcProgFault c

/-- GFILL (R79): groups opened from a W40 image. -/
def effGfill (a : GroupArgs) (c : TCtx) : TCtx :=
  let n := a.gcnt.toNat + 1
  if gspillOk a && groupsClosed c.tile a.gbase.toNat n then
    let p := (c.tile.ptr[a.pa]).toNat
    (List.range n).foldl (fun c i =>
      let at_ := localAddr (p + i * a.stride.toNat * 8)
      let row := (List.range 16).map (fun k => BitVec.ofNat 40 (leNat (tcRead c (at_ + 5 * k) 5)))
      { c with tile := { c.tile with groups := smPut c.tile.groups (a.gbase.toNat + i) row } }) c
  else tcProgFault c

/-- GDROP (R79): closed without writing. -/
def effGdrop (a : GroupArgs) (c : TCtx) : TCtx :=
  let n := a.gcnt.toNat + 1
  if gdropOk a && groupsOpen c.tile a.gbase.toNat n then
    { c with tile := closeGroups c.tile a.gbase.toNat n }
  else tcProgFault c

end Sys2Proof.Machine
end

