-- ==== Sys2Proof/Machine/VectorOps.lean ====
section
/-!
DEFINITION. The vector unit (R47, R48, R80, R81, R110, R115, R155): what each VOP function does to a tile.
-/

namespace Sys2Proof.Machine

/-- F32, F16 or BF16. -/
def isVecFloat (f : Nat) : Bool := f == 5 || f == 4 || f == 3

/-- The formats R81 gives each function number; CVT's pair is R114's. -/
def vopFmtOk (vfn : Nat) (a : VopArgs) : Bool :=
  let f := a.fmt.toNat
  match vfn with
  | 0x00 => isVecFloat f || f == 0xC || f == 2 || f == 0xA
  | 0x01 => isVecFloat f || f == 0xC || f == 2 || f == 0xA
  | 0x02 => isVecFloat f || f == 0xC || f == 2 || f == 0xA
  | 0x03 => isVecFloat f || f == 0xC
  | 0x04 => isVecFloat f || f == 0xC
  | 0x05 => isVecFloat f || f == 2 || f == 0xA
  | 0x06 => isVecFloat f || f == 2 || f == 0xA
  | 0x07 => isVecFloat f || f == 2 || f == 0xA
  | 0x08 => isVecFloat f || f == 2 || f == 0xA
  | 0x09 => isVecFloat f
  | 0x10 => fmtCvtOk f && fmtCvtOk a.pb.toNat
  | 0x18 => isVecFloat f
  | 0x19 => isVecFloat f
  | 0x30 => isQuant f
  | v => decide (0x20 ≤ v) && decide (v ≤ 0x2B) && isVecFloat f

/-- The float format of a VOP, F32 where the code is not a float. -/
def vopFloat (f : Nat) : FFmt := (fmtFloat f).getD ffF32

/-- The pointer PB names when it is a pointer. -/
def pbPtr (a : VopArgs) : Fin 16 := a.pb.toFin

/-- Local address of element `i` of beat `b` from pointer value `p`. -/
def vopAddr (a : VopArgs) (p b : Nat) : Nat :=
  localAddr (p + b * (a.lanes.toNat + 1) * (fmtNibbles a.fmt.toNat / 2))

/-- Was an M48 addition lost (R163): the result equals one added term while the other is finite and not zero. -/
def lostAdd (r t1 t2 : Num) : Bool :=
  let same := fun (x y : Num) => isFinNum x && isFinNum y && cmpNum x y == .eq
  (same r t1 && isFinNum t2 && !isZeroNum t2) || (same r t2 && isFinNum t1 && !isZeroNum t1)

/-- One element-wise operation: two inputs and the old destination, as raw bits; the Bool counts a lost addition. -/
abbrev LaneOp := Nat → Nat → Nat → LaneRes × Bool

/-- One beat: every lane read, then every result written. -/
def vopBeat (a : VopArgs) (op : LaneOp) (c : TCtx) (b : Nat) : TCtx :=
  let n := a.lanes.toNat + 1
  let f := a.fmt.toNat
  let xs := tcElems c f (vopAddr a (c.tile.ptr[a.pa]).toNat b) n
  let ys := tcElems c f (vopAddr a (c.tile.ptr[pbPtr a]).toNat b) n
  let da := vopAddr a (c.tile.ptr[a.pd]).toNat b
  let zs := tcElems c f da n
  let rs := (List.range n).map (fun i => op (nth xs i) (nth ys i) (nth zs i))
  let c := rs.foldl (fun c r => tcBump (tcLane c r.1) .scale 6 (boolNat r.2)) c
  tcPutBits c ((List.range n).map (fun i =>
    { na := 2 * da + i * fmtNibbles f, nibs := fmtNibbles f, bits := ((rs.getD i ({ bits := 0 }, false)).1).bits }))

/-- An element-wise VOP over CNT beats (R80); a function and format outside R81 is a program fault (R69). -/
def effVop (vfn : Nat) (a : VopArgs) (op : RMode → LaneOp) (c : TCtx) : TCtx :=
  if vopFmtOk vfn a then
    let m := vecMode a.fmt.toNat (rdirOf c.tile)
    (List.range (a.cnt.toNat + 1)).foldl (vopBeat a (op m)) c
  else tcProgFault c

/-- A lane operation that loses no addition. -/
def plainOp (f : Nat → Nat → Nat → LaneRes) : LaneOp := fun x y z => (f x y z, false)

/-- Is it an integer format of the vector unit (R81)? -/
def isIntFmt (f : Nat) : Bool := f == 2 || f == 0xA

/-- MOV (R103): bits unchanged. -/
def effMov (a : VopArgs) (c : TCtx) : TCtx := effVop 0x00 a (fun _ => plainOp (fun x _ _ => { bits := x })) c

/-- ADD or SUB on one format (R81, R110, R163). -/
def laneAdd (f : Nat) (sub : Bool) (m : RMode) : LaneOp := fun x y _ =>
  if isIntFmt f then
    (opSat f (if sub then storedInt f x - storedInt f y else storedInt f x + storedInt f y), false)
  else
    let ff := vopFloat f
    let r := opAdd ff m sub x y
    let t2 := if sub then negNum (decodeFloat ff y) else decodeFloat ff y
    (r, f == 0xC && lostAdd (decodeFloat ff r.bits) (decodeFloat ff x) t2)

/-- ADD (R110). -/
def effAdd (a : VopArgs) (c : TCtx) : TCtx := effVop 0x01 a (laneAdd a.fmt.toNat false) c

/-- SUB (R110). -/
def effSub (a : VopArgs) (c : TCtx) : TCtx := effVop 0x02 a (laneAdd a.fmt.toNat true) c

/-- MUL (R110). -/
def effMul (a : VopArgs) (c : TCtx) : TCtx :=
  effVop 0x03 a (fun m => plainOp (fun x y _ => opMul (vopFloat a.fmt.toNat) m x y)) c

/-- FMA, PD ← PA x PB + PD with one rounding (R110, R163). -/
def laneFma (f : Nat) (m : RMode) : LaneOp := fun x y z =>
  let ff := vopFloat f
  let r := opFma ff m x y z
  (r, f == 0xC && lostAdd (decodeFloat ff r.bits) (mulNum (decodeFloat ff x) (decodeFloat ff y)) (decodeFloat ff z))

/-- FMA (R110). -/
def effFma (a : VopArgs) (c : TCtx) : TCtx := effVop 0x04 a (laneFma a.fmt.toNat) c

/-- MAX or MIN on one lane (R81, R110). -/
def laneMaxMin (f : Nat) (up : Bool) : LaneOp := plainOp fun x y _ =>
  if isIntFmt f then
    let i := storedInt f x
    let j := storedInt f y
    opSat f (if up then max i j else min i j)
  else opMaxMin (vopFloat f) up x y

/-- MAX (R110). -/
def effMax (a : VopArgs) (c : TCtx) : TCtx := effVop 0x05 a (fun _ => laneMaxMin a.fmt.toNat true) c

/-- MIN (R110). -/
def effMin (a : VopArgs) (c : TCtx) : TCtx := effVop 0x06 a (fun _ => laneMaxMin a.fmt.toNat false) c

/-- ABS on one lane: the sign bit alone, or the saturating integer magnitude (R81, R103). -/
def laneAbs (f : Nat) : LaneOp := plainOp fun x _ _ =>
  if isIntFmt f then opSat f (storedInt f x).natAbs
  else { bits := x % signBit (vopFloat f) }

/-- ABS (R103). -/
def effAbs (a : VopArgs) (c : TCtx) : TCtx := effVop 0x07 a (fun _ => laneAbs a.fmt.toNat) c

/-- NEG on one lane: the sign bit inverted, or the saturating integer negation (R81, R103). -/
def laneNeg (f : Nat) : LaneOp := plainOp fun x _ _ =>
  if isIntFmt f then opSat f (-(storedInt f x))
  else
    let ff := vopFloat f
    { bits := withSign ff (!bitAt x (ff.ew + ff.fw)) (x % signBit ff) }

/-- NEG (R103). -/
def effNeg (a : VopArgs) (c : TCtx) : TCtx := effVop 0x08 a (fun _ => laneNeg a.fmt.toNat) c

/-- CMPGT (R110). -/
def effCmpgt (a : VopArgs) (c : TCtx) : TCtx :=
  effVop 0x09 a (fun _ => plainOp (fun x y _ => opCmpGt (vopFloat a.fmt.toNat) x y)) c

/-- RCP (R110). -/
def effRcp (a : VopArgs) (c : TCtx) : TCtx :=
  effVop 0x24 a (fun m => plainOp (fun x _ _ => opRcp (vopFloat a.fmt.toNat) m x)) c

/-- SQRT (R110). -/
def effSqrt (a : VopArgs) (c : TCtx) : TCtx :=
  effVop 0x25 a (fun m => plainOp (fun x _ _ => opSqrt (vopFloat a.fmt.toNat) m x)) c

/-- A special function of R48, numbered from VFN 0x20. -/
def effSpecial (fn : SpecialFn) (a : VopArgs) (c : TCtx) : TCtx :=
  effVop (0x20 + fn) a (fun m => plainOp (fun x _ _ => opSpecial fn (vopFloat a.fmt.toNat) m x)) c

/-- A lane reduction of one beat (R47): from lane 0 as it stands, upwards. -/
def vopReduceBeat (a : VopArgs) (op : Nat → Nat → LaneRes) (c : TCtx) (b : Nat) : TCtx :=
  let f := a.fmt.toNat
  let xs := tcElems c f (vopAddr a (c.tile.ptr[a.pa]).toNat b) (a.lanes.toNat + 1)
  let r := xs.tail.foldl (fun (st : TCtx × Nat) x => let o := op st.2 x; (tcLane st.1 o, o.bits)) (c, nth xs 0)
  tcWriteNib r.1 (2 * localAddr ((c.tile.ptr[a.pd]).toNat + b * (fmtNibbles f / 2))) (fmtNibbles f) r.2

/-- RSUM (R47): each addition rounds to the format under RDIR. -/
def effRsum (a : VopArgs) (c : TCtx) : TCtx :=
  if vopFmtOk 0x18 a then
    (List.range (a.cnt.toNat + 1)).foldl
      (vopReduceBeat a (opAdd (vopFloat a.fmt.toNat) (rdirOf c.tile) false)) c
  else tcProgFault c

/-- RMAX (R47). -/
def effRmax (a : VopArgs) (c : TCtx) : TCtx :=
  if vopFmtOk 0x19 a then
    (List.range (a.cnt.toNat + 1)).foldl (vopReduceBeat a (opMaxMin (vopFloat a.fmt.toNat) true)) c
  else tcProgFault c

/-- Value and signalling mark of source element `i` of a CVT; a G16 element outside the map is counted (R150). -/
def cvtSource (f : Nat) (st : TCtx × List (Num × Bool)) (na : Nat) : TCtx × List (Num × Bool) :=
  let c := st.1
  let raw := tcReadNib c na (fmtNibbles f)
  let code := if f = 0xA then g16Code c (localAddr (na / 2)) else some 0x7F
  let c := if code.isSome then c else tcOutside c 1
  let snan := match fmtFloat f with
    | some ff => isSignalling ff raw
    | none => false
  (c, st.2 ++ [(decodeElem f raw (code.getD 0x7F), snan)])

/-- CVT (R114, R115, R151, R153): every source is read, then every result encoded and written. A CVT from a format to
itself copies the elements unchanged (R103), unless an INT8 result lies in a quantised region (R153). -/
def effCvt (a : VopArgs) (c : TCtx) : TCtx :=
  let f := a.fmt.toNat
  let g := a.pb.toNat
  let n := (a.lanes.toNat + 1) * (a.cnt.toNat + 1)
  let pa := (c.tile.ptr[a.pa]).toNat
  let pd := (c.tile.ptr[a.pd]).toNat
  if vopFmtOk 0x10 a then
    if f = g ∧ (resultEntry c.tile g pd).isNone ∨ f = g ∧ f = 0xA then
      let raws := tcElems c f pa n
      let c := (List.range n).foldl (fun c i =>
        tcWatch c ((2 * pd + i * fmtNibbles f) % (2 * sramSize)) false (!isFinNum (decodeElem f (nth raws i) 0x7F))) c
      tcPutBits c ((List.range n).map (fun i =>
        { na := (2 * pd + i * fmtNibbles f) % (2 * sramSize), nibs := fmtNibbles f, bits := nth raws i }))
    else
      let src := (List.range n).foldl (fun st i => cvtSource f st (2 * pa + i * fmtNibbles f)) (c, [])
      let nibs := resultNibs src.1.tile g pd
      let os := (List.range n).map (fun i =>
        let v := src.2.getD i (natNum 0, false)
        { na := (2 * pd + i * nibs) % (2 * sramSize), x := v.1, snan := v.2 : OutElem })
      let r := tcEncodeAll src.1 g (vecMode g (rdirOf c.tile)) (satFlag c.tile) os
      tcPutBits r.1 r.2
  else tcProgFault c

/-- Bytes LDQ reads (R155). -/
def tableSize (fmt : Nat) : Nat := if fmt = 6 then 384 else if fmt = 7 then 144 else 128

/-- LDQ (R155): the expansion table of FMT from PA; a PA not aligned to 64 bytes is a program fault (R69). -/
def effLdq (a : VopArgs) (c : TCtx) : TCtx :=
  let p := (c.tile.ptr[a.pa]).toNat
  if vopFmtOk 0x30 a && decide (p % 64 = 0) then
    let f := a.fmt.toNat
    { c with tile := { c.tile with tables := c.tile.tables.set (tableIx f) (tcRead c p (tableSize f)) } }
  else tcProgFault c

end Sys2Proof.Machine
end

