-- ==== Sys2Proof/Machine/TileWord.lean ====
section
/-!
DEFINITION. The 64-bit tile instruction word (R64-R66, R70-R94): encoder, decoder and the checks of R68 that one word
can fail.
-/

namespace Sys2Proof.Machine

/-- Fields packed from high to low: (width, value). -/
def packFields (fs : List (Nat × Nat)) : Nat := fs.foldl (fun acc f => acc * 2 ^ f.1 + f.2 % 2 ^ f.1) 0

/-- CLS and OP of an operation (R65). -/
def tileOpClass : TileOp → Nat × Nat
  | .nop => (0, 0) | .loop _ _ _ => (0, 1) | .jump _ => (0, 2) | .call _ => (0, 3) | .ret => (0, 4)
  | .brm _ _ _ => (0, 5) | .wait _ _ => (0, 6) | .stepend => (0, 7) | .swap _ => (0, 8)
  | .setp _ _ => (1, 0) | .addp _ _ => (1, 1) | .setx _ _ _ => (1, 2) | .addx _ _ => (1, 3)
  | .ldw _ => (2, 0) | .mm _ => (2, 1)
  | .gopen _ => (3, 0) | .gclose _ => (3, 1) | .gspill _ => (3, 2) | .gfill _ => (3, 3) | .gdrop _ => (3, 4)
  | .vop _ _ => (4, 0) | .get _ => (5, 0) | .put _ => (5, 1) | .signal _ => (5, 2) | .sample _ => (6, 0)
  | .tbl _ _ => (7, 0)

/-- Bits 48:0 of an operation, as fields from bit 48 down (R70-R94); every list is 49 bits wide. -/
def tileOpFields : TileOp → List (Nat × Nat)
  | .nop => [(49, 0)]
  | .loop lvl cnt stop => [(2, lvl), (16, cnt.toNat), (13, stop.toNat), (18, 0)]
  | .jump t => [(36, 0), (13, t.toNat)]
  | .call t => [(36, 0), (13, t.toNat)]
  | .ret => [(49, 0)]
  | .brm mb s t => [(5, mb), (1, boolNat s), (30, 0), (13, t.toNat)]
  | .wait tk cnt => [(6, tk), (16, cnt.toNat), (27, 0)]
  | .stepend => [(49, 0)]
  | .swap a => [(3, a.xr), (1, boolNat a.half), (12, a.len.toNat), (1, boolNat a.te), (6, a.tk), (26, 0)]
  | .setp pn imm => [(4, pn), (21, imm.toNat), (24, 0)]
  | .addp pn imm => [(4, pn), (21, imm.toNat), (24, 0)]
  | .setx xn sl imm => [(3, xn), (2, sl), (16, imm.toNat), (28, 0)]
  | .addx xn imm => [(3, xn), (32, imm.toNat), (14, 0)]
  | .ldw a => [(4, a.pa), (4, a.amask.toNat), (1, boolNat a.plane), (4, a.fw.toNat), (8, a.stride.toNat), (12, 0),
      (16, a.pinc.toNat)]
  | .mm a => [(4, a.pa), (4, a.amask.toNat), (1, boolNat a.plane), (6, a.gbase.toNat), (6, a.nrow.toNat),
      (4, a.fx.toNat), (8, a.stride.toNat), (16, a.pinc.toNat)]
  | .gopen a => [(4, a.pa), (6, a.gbase.toNat), (6, a.gcnt.toNat), (4, a.fmt.toNat), (2, a.mode.toNat), (8, a.stride.toNat), (19, 0)]
  | .gclose a => [(4, a.pa), (6, a.gbase.toNat), (6, a.gcnt.toNat), (4, a.fmt.toNat), (2, a.mode.toNat), (8, a.stride.toNat), (19, 0)]
  | .gspill a => [(4, a.pa), (6, a.gbase.toNat), (6, a.gcnt.toNat), (4, a.fmt.toNat), (2, a.mode.toNat), (8, a.stride.toNat), (19, 0)]
  | .gfill a => [(4, a.pa), (6, a.gbase.toNat), (6, a.gcnt.toNat), (4, a.fmt.toNat), (2, a.mode.toNat), (8, a.stride.toNat), (19, 0)]
  | .gdrop a => [(4, a.pa), (6, a.gbase.toNat), (6, a.gcnt.toNat), (4, a.fmt.toNat), (2, a.mode.toNat), (8, a.stride.toNat), (19, 0)]
  | .vop vfn a => [(8, vfn.toNat), (4, a.fmt.toNat), (4, a.pa), (4, a.pb.toNat), (4, a.pd), (6, a.lanes.toNat), (12, a.cnt.toNat), (7, 0)]
  | .get a => [(4, a.pl), (3, a.xr), (12, a.len.toNat), (1, boolNat a.lte), (6, a.ltk), (1, boolNat a.dte), (6, a.dtk), (16, a.xinc.toNat)]
  | .put a => [(4, a.pl), (3, a.xr), (12, a.len.toNat), (1, boolNat a.lte), (6, a.ltk), (1, boolNat a.dte), (6, a.dtk), (16, a.xinc.toNat)]
  | .signal a => [(24, a.ep.toNat), (6, a.tk), (16, a.cnt.toNat), (3, 0)]
  | .sample a => [(4, a.ps), (6, a.ctx.toNat), (1, boolNat a.te), (6, a.tk), (32, 0)]
  | .tbl tfn a => [(4, a.ps), (3, tfn), (1, boolNat a.te), (6, a.tk), (35, 0)]

/-- The word of an operation with its wait field (R64). -/
def encodeTileWord (op : TileOp) (w : WaitField) : Word :=
  let c := tileOpClass op
  let wf := match w with
    | none => [(1, 0), (6, 0)]
    | some k => [(1, 1), (6, k.val)]
  BitVec.ofNat 64 (packFields ([(4, c.1), (4, c.2)] ++ wf ++ tileOpFields op))

/-- The group operands at bits 48:19. -/
def groupFields (n : Nat) : GroupArgs :=
  { pa := Fin.ofNat 16 (bitField n 48 45), gbase := BitVec.ofNat 6 (bitField n 44 39), gcnt := BitVec.ofNat 6 (bitField n 38 33),
    fmt := BitVec.ofNat 4 (bitField n 32 29), mode := BitVec.ofNat 2 (bitField n 28 27),
    stride := BitVec.ofNat 8 (bitField n 26 19) }

/-- The transfer operands at bits 48:0 (R82). -/
def xferFields (n : Nat) : XferArgs :=
  { pl := Fin.ofNat 16 (bitField n 48 45), xr := Fin.ofNat 8 (bitField n 44 42), len := BitVec.ofNat 12 (bitField n 41 30),
    lte := bitAt n 29, ltk := Fin.ofNat 64 (bitField n 28 23), dte := bitAt n 22, dtk := Fin.ofNat 64 (bitField n 21 16),
    xinc := BitVec.ofNat 16 (bitField n 15 0) }

/-- The operands of SWAP (R93). -/
def swapFields (n : Nat) : SwapArgs :=
  { xr := Fin.ofNat 8 (bitField n 48 46), half := bitAt n 45, len := BitVec.ofNat 12 (bitField n 44 33),
    te := bitAt n 32, tk := Fin.ofNat 64 (bitField n 31 26) }

/-- The operands of LDW (R74). -/
def ldwFields (n : Nat) : LdwArgs :=
  { pa := Fin.ofNat 16 (bitField n 48 45), amask := BitVec.ofNat 4 (bitField n 44 41), plane := bitAt n 40,
    fw := BitVec.ofNat 4 (bitField n 39 36), stride := BitVec.ofNat 8 (bitField n 35 28),
    pinc := BitVec.ofNat 16 (bitField n 15 0) }

/-- The operands of MM (R75). -/
def mmFields (n : Nat) : MmArgs :=
  { pa := Fin.ofNat 16 (bitField n 48 45), amask := BitVec.ofNat 4 (bitField n 44 41), plane := bitAt n 40,
    gbase := BitVec.ofNat 6 (bitField n 39 34), nrow := BitVec.ofNat 6 (bitField n 33 28),
    fx := BitVec.ofNat 4 (bitField n 27 24), stride := BitVec.ofNat 8 (bitField n 23 16),
    pinc := BitVec.ofNat 16 (bitField n 15 0) }

/-- The operands of VOP (R80). -/
def vopFields (n : Nat) : VopArgs :=
  { fmt := BitVec.ofNat 4 (bitField n 40 37), pa := Fin.ofNat 16 (bitField n 36 33),
    pb := BitVec.ofNat 4 (bitField n 32 29), pd := Fin.ofNat 16 (bitField n 28 25),
    lanes := BitVec.ofNat 6 (bitField n 24 19), cnt := BitVec.ofNat 12 (bitField n 18 7) }

/-- The operands of SIGNAL (R84). -/
def signalFields (n : Nat) : SignalArgs :=
  { ep := BitVec.ofNat 24 (bitField n 48 25), tk := Fin.ofNat 64 (bitField n 24 19),
    cnt := BitVec.ofNat 16 (bitField n 18 3) }

/-- The operands of SAMPLE (R88). -/
def sampleFields (n : Nat) : SampleArgs :=
  { ps := Fin.ofNat 16 (bitField n 48 45), ctx := BitVec.ofNat 6 (bitField n 44 39), te := bitAt n 38,
    tk := Fin.ofNat 64 (bitField n 37 32) }

/-- The operands of TBL but for its function (R88). -/
def tblFields (n : Nat) : TblArgs :=
  { ps := Fin.ofNat 16 (bitField n 48 45), te := bitAt n 41, tk := Fin.ofNat 64 (bitField n 40 35) }

/-- Reserved bits that must be zero. -/
def zeroBits (n hi lo : Nat) (op : TileOp) : Option TileOp := if bitField n hi lo = 0 then some op else none

/-- The operation of class 0 (R70, R93). -/
def decodeClass0 (o n : Nat) : Option TileOp :=
  match o with
  | 0 => zeroBits n 48 0 .nop
  | 1 => zeroBits n 17 0 (.loop (Fin.ofNat 4 (bitField n 48 47)) (BitVec.ofNat 16 (bitField n 46 31)) (BitVec.ofNat 13 (bitField n 30 18)))
  | 2 => zeroBits n 48 13 (.jump (BitVec.ofNat 13 (bitField n 12 0)))
  | 3 => zeroBits n 48 13 (.call (BitVec.ofNat 13 (bitField n 12 0)))
  | 4 => zeroBits n 48 0 .ret
  | 5 => zeroBits n 42 13 (.brm (Fin.ofNat 32 (bitField n 48 44)) (bitAt n 43) (BitVec.ofNat 13 (bitField n 12 0)))
  | 6 => zeroBits n 26 0 (.wait (Fin.ofNat 64 (bitField n 48 43)) (BitVec.ofNat 16 (bitField n 42 27)))
  | 7 => zeroBits n 48 0 .stepend
  | 8 => zeroBits n 25 0 (.swap (swapFields n))
  | _ => none

/-- The operation of class 1 (R73). -/
def decodeClass1 (o n : Nat) : Option TileOp :=
  match o with
  | 0 => zeroBits n 23 0 (.setp (Fin.ofNat 16 (bitField n 48 45)) (BitVec.ofNat 21 (bitField n 44 24)))
  | 1 => zeroBits n 23 0 (.addp (Fin.ofNat 16 (bitField n 48 45)) (BitVec.ofNat 21 (bitField n 44 24)))
  | 2 => zeroBits n 27 0 (.setx (Fin.ofNat 8 (bitField n 48 46)) (Fin.ofNat 4 (bitField n 45 44)) (BitVec.ofNat 16 (bitField n 43 28)))
  | 3 => zeroBits n 13 0 (.addx (Fin.ofNat 8 (bitField n 48 46)) (BitVec.ofNat 32 (bitField n 45 14)))
  | _ => none

/-- The operation of class 2 (R74, R75). -/
def decodeClass2 (o n : Nat) : Option TileOp :=
  match o with
  | 0 => zeroBits n 27 16 (.ldw (ldwFields n))
  | 1 => some (.mm (mmFields n))
  | _ => none

/-- The operation of class 3 (R78). -/
def decodeClass3 (o n : Nat) : Option TileOp :=
  match o with
  | 0 => zeroBits n 18 0 (.gopen (groupFields n))
  | 1 => zeroBits n 18 0 (.gclose (groupFields n))
  | 2 => zeroBits n 18 0 (.gspill (groupFields n))
  | 3 => zeroBits n 18 0 (.gfill (groupFields n))
  | 4 => zeroBits n 18 0 (.gdrop (groupFields n))
  | _ => none

/-- The operation of classes 4 to 7 (R80, R82, R84, R88). -/
def decodeClass4to7 (cls o n : Nat) : Option TileOp :=
  match cls, o with
  | 4, 0 => zeroBits n 6 0 (.vop (BitVec.ofNat 8 (bitField n 48 41)) (vopFields n))
  | 5, 0 => some (.get (xferFields n))
  | 5, 1 => some (.put (xferFields n))
  | 5, 2 => zeroBits n 2 0 (.signal (signalFields n))
  | 6, 0 => zeroBits n 31 0 (.sample (sampleFields n))
  | 7, 0 => if bitField n 44 42 < 4 then zeroBits n 34 0 (.tbl (Fin.ofNat 4 (bitField n 44 42)) (tblFields n)) else none
  | _, _ => none

/-- The operation of a word: none for a reserved CLS and OP or a non-zero reserved field (R65, R68). -/
def decodeTileOp (n : Nat) : Option TileOp :=
  let cls := bitField n 63 60
  let o := bitField n 59 56
  match cls with
  | 0 => decodeClass0 o n
  | 1 => decodeClass1 o n
  | 2 => decodeClass2 o n
  | 3 => decodeClass3 o n
  | _ => decodeClass4to7 cls o n

/-- A word decoded with its wait field: none too where WTK is not 0 while WEN is 0 (R64, R68). -/
def decodeTileWord (w : Word) : Option (TileOp × WaitField) :=
  let n := w.toNat
  let k := bitField n 54 49
  match decodeTileOp n with
  | none => none
  | some op => if bitAt n 55 then some (op, some (Fin.ofNat 64 k)) else if k = 0 then some (op, none) else none

/-- The conditions of R68 that one operation can fail by itself, at instruction address `ia` on die `die`. -/
def tileOpOk (die ia : Nat) (op : TileOp) : Bool :=
  let half := ia / 4096
  match op with
  | .loop _ _ stop => decide (ia < stop.toNat) && decide (stop.toNat / 4096 = half)
  | .jump t => decide (t.toNat / 4096 = half)
  | .call t => decide (t.toNat / 4096 = half)
  | .brm _ _ t => decide (t.toNat / 4096 = half)
  | .wait _ cnt => cnt != 0
  | .swap a => decide (boolNat a.half ≠ half)
  | .ldw a => ldwOk a
  | .mm a => mmOk a
  | .gopen a => gopenOk a
  | .gclose a => gcloseOk a
  | .gspill a => gspillOk a
  | .gfill a => gspillOk a
  | .gdrop a => gdropOk a
  | .vop vfn a => vopFmtOk vfn.toNat a
  | .get a => !a.dte
  | .signal a => a.cnt != 0 && decide (a.ep.toNat % 1024 < 776)
  | .sample a => decide (12 * die ≤ a.ctx.toNat) && decide (a.ctx.toNat < 12 * die + 12)
  | _ => true

end Sys2Proof.Machine
end

