-- ==== Sys2Proof/Machine/Issue.lean ====
section
/-!
DEFINITION. Issue of a tile instruction (R67-R69, R71, R85, R94): when it may issue, what every instruction does at
issue whatever its effect, and where the sequencer goes next. A tile command that cannot issue changes nothing.
-/

namespace Sys2Proof.Machine

/-- A range of a tile's SRAM that an instruction reads or writes. -/
structure Span where
  lo : Nat
  len : Nat
  wr : Bool
deriving DecidableEq, Repr

/-- Rows of 16 elements of a format from a pointer. -/
def rowSpans (p stride fmt n : Nat) (wr : Bool) : List Span :=
  (List.range n).map (fun i => { lo := localAddr (p + i * stride * 8), len := 8 * fmtNibbles fmt, wr := wr })

/-- Bytes of a VOP operand. -/
def vopBytes (fmt : Nat) (a : VopArgs) : Nat := ((a.cnt.toNat + 1) * (a.lanes.toNat + 1) * fmtNibbles fmt + 1) / 2

/-- A local range cut where it wraps at the end of SRAM (R73). -/
def wrapSpan (x : Span) : List Span :=
  if x.lo + x.len ≤ sramSize then [x]
  else [{ x with len := sramSize - x.lo }, { x with lo := 0, len := x.lo + x.len - sramSize }]

/-- The local ranges an instruction's own fields name, as they run from its pointers. -/
def plainSpans (t : Tile) (op : TileOp) : List Span :=
  let p := fun (i : Fin 16) => (t.ptr[i]).toNat
  match op with
  | .ldw a => rowSpans (p a.pa) a.stride.toNat a.fw.toNat 16 false
  | .mm a => rowSpans (p a.pa) a.stride.toNat a.fx.toNat ((enabledArrays a.amask).length * (a.nrow.toNat + 1)) false
  | .gopen a => if a.mode = 1 then rowSpans (p a.pa) a.stride.toNat a.fmt.toNat (a.gcnt.toNat + 1) false else []
  | .gclose a => (rowSpans (p a.pa) a.stride.toNat a.fmt.toNat (a.gcnt.toNat + 1) true).map
      (fun x => { x with len := x.len + (if a.mode.getLsbD 1 then 8 else 0) })
  | .gspill a => rowSpans (p a.pa) a.stride.toNat 0xB (a.gcnt.toNat + 1) true
  | .gfill a => rowSpans (p a.pa) a.stride.toNat 0xB (a.gcnt.toNat + 1) false
  | .vop f a =>
    if f = 0x30 then [{ lo := p a.pa, len := if a.fmt = 6 then 384 else 144, wr := false }]
    else
      let dfmt := if f = 0x10 then a.pb.toNat else a.fmt.toNat
      [{ lo := p a.pa, len := vopBytes a.fmt.toNat a, wr := false },
       { lo := p (Fin.ofNat 16 a.pb.toNat), len := if f = 0x10 then 0 else vopBytes a.fmt.toNat a, wr := false },
       { lo := p a.pd, len := vopBytes dfmt a, wr := true }]
  | .get a => [{ lo := p a.pl, len := 64 * (a.len.toNat + 1), wr := true }]
  | .put a => [{ lo := p a.pl, len := 64 * (a.len.toNat + 1), wr := false }]
  | .sample a => [{ lo := p a.ps, len := 16, wr := false }]
  | .tbl _ a => [{ lo := p a.ps, len := 24, wr := false }]
  | _ => []

/-- The local ranges an instruction's own fields name (R45): what it reads and writes. -/
def footprint (t : Tile) (op : TileOp) : List Span := (plainSpans t op).flatMap wrapSpan

/-- Do two local ranges meet? -/
def meet (a b la lb : Nat) : Bool := decide (0 < la) && decide (0 < lb) && decide (a < b + lb) && decide (b < a + la)

/-- R45 holds the instruction: it would read what an incomplete transfer still writes, or write what one still reads or
writes. -/
def hazard (t : Tile) (spans : List Span) : Bool :=
  t.xfers.any (fun x =>
    (((x.lo, x.len, x.writes) :: x.also).flatMap (fun y => wrapSpan { lo := y.1, len := y.2.1, wr := y.2.2 })).any
      (fun y => spans.any (fun s => meet s.lo y.lo s.len y.len && (s.wr || y.wr))))

/-- Can the unit accept the instruction (R67), and do the ordering rules of SIGNAL, STEPEND and the barrier hold (R84,
R89, R227)? -/
def unitReady (t : Tile) (op : TileOp) : Bool :=
  let n := fun (ks : List XferKind) => (t.xfers.filter (fun x => ks.contains x.kind)).length
  match op with
  | .get _ => decide (n [.get, .put] < 16)
  | .put _ => decide (n [.get, .put] < 16)
  | .sample _ => decide (n [.sample] < 4)
  | .tbl _ _ => decide (n [.table] < 4)
  | .signal _ => n [.get, .put] == 0
  | .stepend => t.xfers.isEmpty
  | _ => true

/-- Is the wait satisfied: the wait field's counter at least 1 (R85), WAIT's counter at least CNT besides? -/
def waitReady (t : Tile) (op : TileOp) (w : WaitField) : Bool :=
  let has := fun (k : Fin 64) (n : Nat) => decide (n ≤ (t.tok[k]).toNat)
  match op, w with
  | .wait tk cnt, none => has tk cnt.toNat
  | .wait tk cnt, some k => has tk (cnt.toNat + boolNat (tk == k)) && has k 1
  | _, none => true
  | _, some k => has k 1

/-- Does the package run tile programs: in RUNNING, and on a spare that computes Catcher copies (R339)? -/
def runsTiles (s : State) : Bool := decide (s.life = .running) || decide (s.life = .spare)

/-- May the instruction issue now (R67, R94, R227)? -/
def canIssue (op : TileOp) (k : Nat) (w : WaitField) (s : State) : Bool :=
  let t := s.tile k
  runsTiles s && decide (t.run = .active) && !(t.ia == t.backEntry && !s.step.barrier)
    && t.xfers.all (fun x => !(x.kind == .swap && x.half == t.ia.toNat / 4096))
    && waitReady t op w && unitReady t op && !hazard t (footprint t op)

/-- Take 1 from a token counter, and `n` for WAIT. Consuming a token orders the lines from outside that came before it
(R45) and drops prefetched lines of pages that are not STABLE (R268). -/
def consumeToken (k : Nat) (tk : Fin 64) (n : Nat) (s : State) : State :=
  let t := s.tile k
  let keep := t.prefetch.filter (fun a => bitAt (pageAttr s a) 5)
  let s := bumpReg (dieKey (keyDie k) 0x81400A) (t.prefetch.length - keep.length) s
  setTile k { t with tok := t.tok.set tk (t.tok[tk] - BitVec.ofNat 16 n), prefetch := keep,
                     outside := t.outside.filter (fun o => !o.by_.contains tk.val) } s

/-- What issue itself does: the wait field's token, WAIT's count, and the count of instructions issued (R85, R98). -/
def beginIssue (op : TileOp) (k : Nat) (w : WaitField) (s : State) : State :=
  let s := match w with
    | none => s
    | some tk => consumeToken k tk 1 s
  let s := match op with
    | .wait tk cnt => consumeToken k tk cnt.toNat s
    | _ => s
  bumpReg (dieKey (keyDie k) 0x806001) 1 s

/-- Lines written from outside that the instruction touches without an ordering token hold undefined bytes (R45): free
values, each line once. -/
def raceLines (k : Nat) (spans : List Span) (s : State) : State :=
  let hit := (s.tile k).outside.filter (fun o => spans.any (fun x => meet x.lo (64 * o.line) x.len 64))
  let s := hit.foldl (fun s o =>
    let r := freeBytes 64 s
    putMem (tileBase k + 64 * o.line) r.1 r.2) s
  modTile k (fun t => { t with outside := t.outside.filter (fun o => !hit.contains o) }) s

/-- The inner loop that ends at an address: of the active levels whose last instruction lies there, the one that starts
last (R71). -/
def innerLoop (t : Tile) (ia : Nat) : Option (Fin 4) :=
  ([0, 1, 2, 3] : List (Fin 4)).foldl (fun best i =>
    let l := t.loops[i]
    if l.active ∧ l.stop.toNat = ia then
      match best with
      | none => some i
      | some b => if (t.loops[b]).start.toNat < l.start.toNat then some i else some b
    else best) none

/-- The address after the instruction at `ia` in program order, loops counted (R71): at the last instruction of a loop
the sequencer returns to its start until the count is spent; then an outer loop may end there too. -/
def afterAddr : Nat → Nat → Tile → Nat × Tile
  | 0, ia, t => (ia + 1, t)
  | n + 1, ia, t =>
    match innerLoop t ia with
    | none => (ia + 1, t)
    | some i =>
      let l := t.loops[i]
      if 1 < l.left then (l.start.toNat, { t with loops := t.loops.set i { l with left := l.left - 1 } })
      else afterAddr n ia { t with loops := t.loops.set i { l with active := false, left := 0 } }

/-- Move to an address; past 8,191 the fetch is a program error (R94, R518). -/
def goTo (k addr : Nat) (s : State) : State :=
  if addr < 8192 then modTile k (fun t => { t with ia := BitVec.ofNat 13 addr }) s
  else progError k 0x2008 0 s

/-- The sequencer moves on: to the target of a taken branch, else in program order. -/
def advance (k : Nat) (target : Option Nat) (s : State) : State :=
  match target with
  | some a => goTo k a s
  | none =>
    let r := afterAddr 4 (s.tile k).ia.toNat (s.tile k)
    goTo k r.1 (setTile k r.2 s)

/-- Bits 63:32 of the instruction's word (R447). -/
def opBits (op : TileOp) (w : WaitField) : Nat := (encodeTileWord op w).toNat / 2 ^ 32

/-- Issue an instruction whose effect works on the whole package. A word that R68 refuses is a program fault (R69); an
uncorrectable SRAM word that it reads leaves it without effect (R46). -/
def issue (op : TileOp) (k : Nat) (w : WaitField) (eff : State → State × Option Nat) (s : State) : State :=
  if canIssue op k w s then
    let spans := footprint (s.tile k) op
    let s := beginIssue op k w s
    if !tileOpOk (keyDie k) (s.tile k).ia.toNat op then progFault k (opBits op w) s
    else
      match spans.find? (fun x => !x.wr && badSram s (tileBase k + x.lo) x.len) with
      | some x =>
        let a := (s.bad.find? (fun b => decide (stackEnd ≤ b) && decide (b < tileBase k + x.lo + x.len)
          && decide (tileBase k + x.lo < b + 8))).getD x.lo
        sramUncorrectable k a s
      | none =>
        let r := eff (raceLines k spans s)
        if (r.1.tile k).run = .active then advance k r.2 r.1 else r.1
  else s

/-- The context a tile instruction's own effect works on. -/
def tileCtx (k : Nat) (s : State) : TCtx := { mem := s.mem, tile := s.tile k, base := tileBase k, free := s.free }

/-- Take the outcome of an effect back into the package: memory, tile, counters, events and aborts. -/
def takeCtx (k op : Nat) (c : TCtx) (s : State) : State :=
  let st := { s.step with sat := s.step.sat + c.satCount, nonfin := s.step.nonfin + c.nonfinCount }
  let s := setTile k c.tile { s with mem := c.mem, free := c.free, step := st }
  let s := allOf c.cnt (fun p => bumpReg (dieKey (keyDie k) (tallyKey p)) p.2.2) s
  let s := allOf c.evs (fun e => raiseAt e (keyDie k) (keyTile k) 0 op) s
  let s := if c.aborts.contains 2 then suspectUnit 0x7003 (tileEp s k) s else s
  let s := if c.evs.contains 0x7001 then suspectUnit 0x7001 (tileEp s k) s else s
  allOf c.aborts abortAttempt s

/-- Run an effect on a tile's context. What it writes is no longer uncorrectable (R46). -/
def runTile (k : Nat) (op : TileOp) (w : WaitField) (eff : TCtx → TCtx) (s : State) : State × Option Nat :=
  let wr := (footprint (s.tile k) op).filter (fun x => x.wr)
  let c := eff (tileCtx k s)
  let s := { s with bad := s.bad.filter (fun b => !(wr.any (fun x => meet b (tileBase k + x.lo) 8 x.len))) }
  (takeCtx k (opBits op w) c s, c.target)

/-- Issue an instruction whose effect stays within its tile. -/
def issueTile (op : TileOp) (r : TileRef) (w : WaitField) (eff : TCtx → TCtx) (s : State) : State :=
  issue op (tileKey r) w (runTile (tileKey r) op w eff) s

end Sys2Proof.Machine
end

