-- ==== Sys2Proof/Machine/Transfer.lean ====
section
/-!
DEFINITION. GET, PUT, SIGNAL and SWAP (R82-R87, R93, R94), their ends, stream prefetch (R265-R268), parameter gathers
(R234, R324), and what arrives at a tile (R86, R262).
-/

namespace Sys2Proof.Machine

/-! ### Stream prefetch -/

/-- May a stream read a line of this package (R266)? Answers 0 yes, 1 stopped at a page boundary, 2 stopped as
no-prefetch; `from_` is the stream's demand address. -/
def streamBlock (s : State) (from_ a : Nat) : Nat :=
  if !inStacks a then 1
  else
    let at_ := pageAttr s a
    let noPf := bitAt at_ 0 || decide (bitField at_ 15 8 ≠ 0) || bitAt at_ 3
    if a / 0x1_0000 = from_ / 0x1_0000 then (if noPf then 2 else 0)
    else
      let pages := (List.range (a / 0x1_0000 - from_ / 0x1_0000)).map (fun i => smGetD s.pages (from_ / 0x1_0000 + 1 + i) 0)
      if pages.any (fun p => bitAt p 2 || !bitAt p 1) then 1
      else if pages.any (fun p => bitAt p 0 || decide (bitField p 15 8 ≠ 0) || bitAt p 3) then 2 else 0

/-- Lines of a demand read found in the prefetch buffer are used and leave it (R265, R275). -/
def usePrefetched (k a n : Nat) (s : State) : State :=
  let t := s.tile k
  let hit := t.prefetch.filter (fun l => decide (a ≤ l) && decide (l < a + 64 * n))
  let d := keyDie k
  let s := bumpReg (dieKey d 0x814006) hit.length (bumpReg (dieKey d 0x814007) hit.length s)
  setTile k { t with prefetch := t.prefetch.filter (fun l => !hit.contains l),
                     pfUsed := t.pfUsed + hit.length } s

/-- Train the stream entry of a register on a read of this package's stacks (R265): an entry that predicted it is
confirmed, one that did not is emptied; either way it predicts the next read. Lines it may not read are counted. -/
def trainStream (k : Nat) (x : Fin 8) (a len next : Nat) (s : State) : State :=
  let t := s.tile k
  let e := t.streams[x]
  let hit := e.1 ≠ 0 ∧ e.2.1 = a ∧ e.2.2 = len
  let t := { t with streams := t.streams.set x (if e.1 = 0 ∨ hit then ((if hit then 2 else 1), next, len) else (0, 0, 0)) }
  let s := setTile k t s
  if hit ∧ s.reg 0x300002 = 1 then
    let from_ := a + 64 * (len - 1)
    let depth := s.reg 0x300003
    let new := (List.range depth).drop (if e.1 = 2 then depth - len else 0)
    let blocks := new.map (fun i => streamBlock s from_ (next + 64 * i))
    bumpReg (dieKey (keyDie k) 0x814008) (blocks.count 1) (bumpReg (dieKey (keyDie k) 0x814009) (blocks.count 2) s)
  else s

/-- PREFETCH_READ_COMPLETE (R265, R267): a line of a confirmed stream enters the buffer; one that is uncorrectable, out
of range, not wanted or without room is dropped without an event. -/
def opPrefetchRead (k : Nat) (x : Fin 8) (line : Nat) (s : State) : State :=
  let t := s.tile k
  let e := t.streams[x]
  let a := line * 64
  if runsTiles s ∧ e.1 = 2 ∧ s.reg 0x300002 = 1 ∧ e.2.1 ≤ a ∧ a < e.2.1 + 64 * s.reg 0x300003 ∧ (a - e.2.1) % 64 = 0
      ∧ !t.prefetch.contains a ∧ t.prefetch.length < 512 ∧ streamBlock s (e.2.1 - 64) a = 0 ∧ !badStack s a 64 then
    bumpReg (dieKey (keyDie k) 0x814005) 1 (setTile k { t with prefetch := t.prefetch ++ [a], pfRead := t.pfRead + 1 } s)
  else s

def execPrefetchReadComplete (r : TileRef) (x : Fin 8) (line : Fin (2 ^ 38)) (s : State) : Host.Outcome State Fault Refusal :=
  .next (powered (opPrefetchRead (tileKey r) x line) s)

/-- A line of a page whose attributes change leaves every tile's buffer (R268). -/
def dropPage (page : Nat) (s : State) : State :=
  { s with tiles := s.tiles.map (fun p => (p.1, { p.2 with prefetch := p.2.prefetch.filter (fun a => decide (a / 0x1_0000 ≠ page)) })) }

/-! ### Parameter gathers -/

/-- Does a word begin at a shard header of the catalogue (R323, R324)? -/
def isShardHeader (s : State) (w : Nat) : Bool := s.job.shards.any (fun e => e.half0 == w || e.half1 == w)

/-- A gather has delivered a shard header (R234, R324): the first of the attempt is recorded, a later one of another
version is a mismatch: 0x9002, counted, cause 1. -/
def gatherHeader (d : Nat) (h : Nat) (s : State) : State :=
  let g : GatherRec := { die := d, layer := bitField h 63 48, shard := bitField h 47 32, version := h % 2 ^ 32 }
  let s := bumpReg (dieKey d 0x81A009) 1 s
  match s.step.gathers.find? (fun x => x.die == d && x.layer == g.layer && x.shard == g.shard) with
  | none => { s with step := { s.step with gathers := s.step.gathers ++ [g] } }
  | some x =>
    if x.version = g.version then s
    else abortAttempt 1 (raiseAt 0x9002 d 768 0 (atBit 16 g.layer + g.shard) (bumpReg 0x500007 1 s))

/-! ### GET -/

/-- One line of a GET from this package: what cannot be read leaves undefined bytes (R16, R46, R255, R262). -/
def getLine (k a local_ : Nat) (s : State) : State :=
  let put := fun (bs : List Byte) => putMem (tileBase k + localAddr local_) bs
  let undef := fun (s : State) => let r := freeBytes 64 s; put r.1 r.2
  match placeOf a with
  | .stack _ =>
    if bitAt (pageAttr s a) 3 then undef (raiseAt 0x2004 (keyDie k) (keyTile k) 0 (bitField a 43 12) s)
    else if badStack s a 64 then undef (stackUncorrectable (keyDie k) (keyTile k) a s)
    else put (s.bytes a 64) s
  | .window o _ => if badSram s a 64 then undef (sramUncorrectable o a s) else put (s.bytes a 64) s
  | _ => undef s

/-- Open a transfer of a tile; answers its number. -/
def openXfer (k : Nat) (x : Xfer) (s : State) : Nat × State :=
  let t := s.tile k
  (t.nextXfer, setTile k { t with nextXfer := t.nextXfer + 1, xfers := t.xfers ++ [{ x with id := t.nextXfer }] } s)

/-- The lengths of the messages of a remote access: at most 64 lines each (R311). -/
def messageSplit (lines : Nat) : List (Nat × Nat) :=
  (List.range (ceilDiv lines 64)).map (fun i => (64 * i, min 64 (lines - 64 * i)))

/-- READ messages of a remote GET (R311). -/
def getRemote (k id w local_ lines : Nat) (gather : Bool) (s : State) : State :=
  allOf (messageSplit lines) (fun p s =>
    let a := (wordAddr w + 64 * p.1) % 2 ^ 44
    let dst := remoteEp (remoteCoord w) a
    let s := { s with reads := s.reads ++ [{ who := .tile k id (localAddr (local_ + 64 * p.1)), src := tileEp s k, dst := dst.toNat,
                                             addr := a, lines := p.2, gather := gather && p.1 == 0 }] }
    sendMsg (keyDie k) none
      { type := 2, dst := dst, src := BitVec.ofNat 24 (tileEp s k), stag := (s.tile k).tag, addr := BitVec.ofNat 44 a,
        body := BitVec.ofNat 256 (atBit 250 (p.2 - 1)) } s) s

/-- GET (R82): its lines are copied now; the transfer is complete at GET_COMPLETE, or once every READ is answered or the
pager has served it. -/
def effGet (k : Nat) (a : XferArgs) (s : State) : State × Option Nat :=
  let t := s.tile k
  let local_ := (t.ptr[a.pl]).toNat
  let lines := a.len.toNat + 1
  let w := xword s t.xreg[a.xr]
  let addr := wordAddr w
  if local_ % 64 ≠ 0 then (progFault k (opBits (.get a) none) s, none)
  else
    let s := modTile k (fun t => xregAdd t a.xr (signExt 16 a.xinc.toNat)) s
    let paged := inRegions (s.pager k) w
    let gather := isShardHeader s w
    let waits := if paged then 1 else if isRemote w then (messageSplit lines).length else 0
    let o := openXfer k { id := 0, kind := .get, lo := local_, len := 64 * lines, writes := true,
                          tk := if a.lte then some a.ltk else none, waits := waits } s
    let s := o.2
    if paged then (pageAccess k { xfer := o.1, put := false, xaddr := w, local_ := local_, lines := lines } s, none)
    else if isRemote w then (getRemote k o.1 w local_ lines gather s, none)
    else
      let s := usePrefetched k addr lines s
      let s := if inStacks addr then trainStream k a.xr addr lines ((addr + 64 * signExt 16 a.xinc.toNat) % 2 ^ 44).toNat s else s
      let s := allOf (List.range lines) (fun i => getLine k ((addr + 64 * i) % 2 ^ 44) (local_ + 64 * i)) s
      let s := if gather then gatherHeader (keyDie k) (s.le addr 8) s else s
      match (List.range lines).find? (fun i => !isMemory ((addr + 64 * i) % 2 ^ 44)) with
      | some i => (outOfRange k ((addr + 64 * i) % 2 ^ 44) s, none)
      | none => (s, none)

def execGet (r : TileRef) (w : WaitField) (a : XferArgs) (s : State) : Host.Outcome State Fault Refusal :=
  .next (powered (fun s => issue (.get a) (tileKey r) w (effGet (tileKey r) a) s) s)

/-! ### PUT -/

/-- One line of a PUT to this package; a line outside every range, or of another's paged region, is not written. -/
def putDest (k : Nat) (tag : BitVec 12) (a : Nat) (bs : List Byte) (s : State) : State :=
  match placeOf a with
  | .stack _ =>
    if bitAt (pageAttr s a) 3 then raiseAt 0x2004 (keyDie k) (keyTile k) 0 (bitField a 43 12) s
    else modTile k (fun t => { t with prefetch := t.prefetch.filter (fun l => decide (l ≠ a)) }) (putMem a bs s)
  | .window o l => arriveLine o tag l bs s
  | _ => s

/-- The one tile window that holds all lines of a PUT, if there is one (R83). -/
def oneWindow (a lines : Nat) : Option Nat :=
  match placeOf a, placeOf (a + 64 * lines - 1) with
  | .window k _, .window j _ => if k = j then some k else none
  | _, _ => none

/-- WRITE messages of a remote PUT (R311): the destination token rides in the last one. -/
def putRemote (k id w local_ lines : Nat) (a : XferArgs) (token : Bool) (s : State) : State :=
  allOf (messageSplit lines) (fun p s =>
    let at_ := (wordAddr w + 64 * p.1) % 2 ^ 44
    let last := decide (p.1 + p.2 = lines)
    sendMsg (keyDie k) (some (k, id))
      { type := 1, dst := remoteEp (remoteCoord w) at_, src := BitVec.ofNat 24 (tileEp s k), stag := (s.tile k).tag,
        dte := last && token, dtk := if last && token then a.dtk else 0, addr := BitVec.ofNat 44 at_,
        data := (List.range p.2).flatMap (fun i => s.bytes (tileBase k + localAddr (local_ + 64 * (p.1 + i))) 64) } s) s

/-- PUT (R82, R83): lines visible first, then the destination token; complete at PUT_COMPLETE, or once every message is
acknowledged or the pager has served it. -/
def effPut (k : Nat) (a : XferArgs) (s : State) : State × Option Nat :=
  let t := s.tile k
  let local_ := (t.ptr[a.pl]).toNat
  let lines := a.len.toNat + 1
  let w := xword s t.xreg[a.xr]
  let addr := wordAddr w
  if local_ % 64 ≠ 0 then (progFault k (opBits (.put a) none) s, none)
  else
    let s := modTile k (fun t => xregAdd t a.xr (signExt 16 a.xinc.toNat)) s
    let paged := inRegions (s.pager k) w
    let waits := if paged then 1 else if isRemote w then (messageSplit lines).length else 0
    let o := openXfer k { id := 0, kind := .put, lo := local_, len := 64 * lines, writes := false,
                          tk := if a.lte then some a.ltk else none, waits := waits } s
    let s := o.2
    let win := if paged then none else oneWindow addr lines
    let noWin := a.dte && win.isNone
    let s :=
      if paged then pageAccess k { xfer := o.1, put := true, xaddr := w, local_ := local_, lines := lines } s
      else if isRemote w then putRemote k o.1 w local_ lines a (a.dte && win.isSome) s
      else
        let s := allOf (List.range lines) (fun i s =>
          putDest k t.tag ((addr + 64 * i) % 2 ^ 44) (s.bytes (tileBase k + localAddr (local_ + 64 * i)) 64) s) s
        match win with
          | some j => if a.dte then arriveToken j t.tag a.dtk 1 s else s
          | none => s
    let s := match (if paged then none else (List.range lines).find? (fun i => !isMemory ((addr + 64 * i) % 2 ^ 44))) with
      | some i => outOfRange k ((addr + 64 * i) % 2 ^ 44) s
      | none => s
    (if noWin then progError k 0x2007 (bitField addr 43 12) s else s, none)

/-- Would a PUT or SIGNAL to a tile of this package find the destination's early-arrival queue full (R86)? It waits. -/
def earlyRoom (s : State) (k : Nat) (tag : BitVec 12) (dst n : Nat) : Bool :=
  tag != nextTag (s.tile dst).tag || k == dst || decide ((s.early.getD (keyDie dst) []).length + n ≤ 4096)

/-- Room for a PUT at its destination. -/
def putRoom (s : State) (k : Nat) (a : XferArgs) : Bool :=
  let t := s.tile k
  let w := xword s t.xreg[a.xr]
  isRemote w || (match placeOf (wordAddr w) with
    | .window j _ => earlyRoom s k t.tag j (a.len.toNat + 2)
    | _ => true)

def execPut (r : TileRef) (w : WaitField) (a : XferArgs) (s : State) : Host.Outcome State Fault Refusal :=
  .next (powered (fun s => if putRoom s (tileKey r) a then issue (.put a) (tileKey r) w (effPut (tileKey r) a) s else s) s)

/-! ### SIGNAL -/

/-- SIGNAL (R84): to a tile or control core of this package at once, to another package by a message. -/
def effSignal (k : Nat) (a : SignalArgs) (s : State) : State × Option Nat :=
  let ep := a.ep.toNat
  let t := s.tile k
  if epCoord ep = s.coord then
    if epTile ep < 768 then (arriveToken (epDie ep * 768 + epTile ep) t.tag a.tk a.cnt.toNat s, none)
    else (arriveCore (epDie ep) (epTile ep - 768) t.tag a.tk a.cnt.toNat (tileEp s k) s, none)
  else
    let o := openXfer k { id := 0, kind := .signal, waits := 1 } s
    (sendMsg (keyDie k) (some (k, o.1))
      { type := 4, dst := a.ep, src := BitVec.ofNat 24 (tileEp s k), stag := t.tag,
        body := BitVec.ofNat 256 (atBit 240 a.cnt.toNat + atBit 234 a.tk.val) } o.2, none)

/-- A SIGNAL to a job flow that is full, or to a tile whose early-arrival queue is full, waits (R86, R387). -/
def signalRoom (s : State) (k : Nat) (a : SignalArgs) : Bool :=
  let ep := a.ep.toNat
  epCoord ep != s.coord
    || (if epTile ep < 768 then earlyRoom s k (s.tile k).tag (epDie ep * 768 + epTile ep) 1
        else !coreFlowFull s (epDie ep) (epTile ep - 768) a.tk)

def execSignal (r : TileRef) (w : WaitField) (a : SignalArgs) (s : State) : Host.Outcome State Fault Refusal :=
  .next (powered (fun s => if signalRoom s (tileKey r) a then issue (.signal a) (tileKey r) w (effSignal (tileKey r) a) s else s) s)

/-! ### SWAP -/

/-- Replace the words of a run of the instruction store. -/
def storeRun (m : SMap Nat) (lo n : Nat) (ws : List Nat) : SMap Nat :=
  let new := ((List.range n).map (fun i => (lo + i, nth ws i))).filter (fun p => decide (p.2 ≠ 0))
  m.takeWhile (fun p => decide (p.1 < lo)) ++ new ++ m.filter (fun p => decide (lo + n ≤ p.1))

/-- The declared segment of a SWAP (R516, R518): at the address, for the half and the tile, and long enough. -/
def segmentFor (s : State) (k addr half words : Nat) : Option Segment :=
  s.job.segments.find? (fun g => g.die == keyDie k && g.half == half && g.addr == addr && bitAt g.map (keyTile k)
    && decide (words ≤ g.words))

/-- SWAP (R93, R94): words of a declared segment go to the start of the half. -/
def effSwap (k : Nat) (a : SwapArgs) (s : State) : State × Option Nat :=
  let t := s.tile k
  let w := xword s t.xreg[a.xr]
  let addr := wordAddr w
  let words := a.len.toNat + 1
  let half := boolNat a.half
  let tk := if a.te then some a.tk else none
  let refuse := fun (code : Nat) => (progError k code (bitField addr 43 12) (openXfer k { id := 0, kind := .swap, tk := tk } s).2, none)
  if !isRemote w && !isMemory addr then
    ((outOfRange k addr (openXfer k { id := 0, kind := .swap, tk := tk } s).2), none)
  else
    match (if isRemote w then none else segmentFor s k addr half words) with
    | none => refuse 0x2008
    | some _ =>
      let s := (openXfer k { id := 0, kind := .swap, tk := tk, half := half } s).2
      let s := bumpReg (dieKey (keyDie k) 0x806006) 1 s
      let s := trainStream k a.xr addr (ceilDiv words 8) addr (usePrefetched k addr (ceilDiv words 8) s)
      if badStack s addr (8 * words) then
        (stackUncorrectable (keyDie k) (keyTile k) (((s.bad.find? (fun b => meet b addr 64 (8 * words))).getD addr)) s, none)
      else
        let ws := (List.range words).map (fun i => s.le (addr + 8 * i) 8)
        let s := { s with store := storeRun s.store (k * 8192 + 4096 * half) words ws }
        (modTile k (fun t => { t with lastSeg := setAt t.lastSeg half addr }) s, none)

def execSwap (r : TileRef) (w : WaitField) (a : SwapArgs) (s : State) : Host.Outcome State Fault Refusal :=
  .next (powered (fun s => issue (.swap a) (tileKey r) w (effSwap (tileKey r) a) s) s)

/-! ### The ends of transfers, and arrivals -/

/-- GET_COMPLETE (R83). -/
def execGetComplete (r : TileRef) (id : BitVec 32) (s : State) : Host.Outcome State Fault Refusal :=
  .next (powered (fun s => completeXfer (tileKey r) id.toNat [.get] s) s)

/-- PUT_COMPLETE (R83): also the end of a SIGNAL to another package, which completes as its message is covered. -/
def execPutComplete (r : TileRef) (id : BitVec 32) (s : State) : Host.Outcome State Fault Refusal :=
  .next (powered (fun s => completeXfer (tileKey r) id.toNat [.put, .signal] s) s)

/-- SWAP_COMPLETE (R94). -/
def execSwapComplete (r : TileRef) (id : BitVec 32) (s : State) : Host.Outcome State Fault Refusal :=
  .next (powered (fun s => completeXfer (tileKey r) id.toNat [.swap] s) s)

/-- DESCRIPTOR_COMPLETE (R88). -/
def execDescriptorComplete (r : TileRef) (id : BitVec 32) (s : State) : Host.Outcome State Fault Refusal :=
  .next (powered (fun s => completeXfer (tileKey r) id.toNat [.sample, .table] s) s)

/-- Does the package run tiles, so that lines and tokens reach them (R86, R92)? -/
def tilesLive (s : State) : Bool := runsTiles s || decide (s.life = .held) || decide (s.life = .loaded)

/-- TOKEN_ARRIVAL (R86): a line or a token with its sender's step tag. -/
def opTokenArrival (k : Nat) (tag : BitVec 12) (item : TileItem) (s : State) : State :=
  if tilesLive s then
    match item with
    | .line l bs => arriveLine k tag (64 * l.val) (sliceBytes bs 0 64) s
    | .token tk cnt => arriveToken k tag tk cnt.toNat s
  else s

def execTokenArrival (r : TileRef) (tag : BitVec 12) (item : TileItem) (s : State) : Host.Outcome State Fault Refusal :=
  .next (powered (opTokenArrival (tileKey r) tag item) s)

/-- PAGE_IN_COMPLETE (R262). -/
def execPageInComplete (r : TileRef) (s : State) : Host.Outcome State Fault Refusal := .next (powered (opPageIn (tileKey r)) s)

end Sys2Proof.Machine
end

