-- ==== Sys2Proof/Machine/Slices.lean ====
section
/-!
DEFINITION. The sampler and table slices at work (R88): issue, reads from other packages, what a finished descriptor does,
gradient inboxes (R206), and the reference output (R190).
-/

namespace Sys2Proof.Machine

/-! ### Inboxes -/

/-- Entries of a page for a width (R206). -/
def entriesPerPage (w : Nat) : Nat := 65536 / (16 + 4 * w)

/-- A gradient entry reaches the inbox of a shard of this package (R206): late, without room, or packed into a page. -/
def inboxEntry (key : Nat) (gk : BitVec 128) (vals : List Nat) (src : Nat) (s : State) : State :=
  match smFind s.tables.shards key with
  | none => s
  | some sh =>
    match sh.mergedBy with
    | some k => progError k 0xA00D (src % 2 ^ 24) s
    | none =>
      let w := vals.length
      let h := s.bytes sh.header 64
      let per := entriesPerPage w
      let i := sh.inbox.length
      let page := i / per
      if leAt h 56 8 ≤ page then abortAttempt 6 (raiseAt 0xA008 sh.die 768 0 0 s)
      else
        let s := if i % per = 0 then bumpReg (dieKey sh.die 0x81200C) 1 s else s
        let s := bumpReg (dieKey sh.die 0x812008) 1 s
        let bytes := leBytes 16 gk.toNat ++ vals.flatMap (leBytes 4)
        let s := putMem (leAt h 48 8 + 65536 * page + (i % per) * (16 + 4 * w)) bytes s
        { s with tables := { s.tables with shards := smPut s.tables.shards key { sh with inbox := sh.inbox ++ [{ key := gk, vals := vals }], pages := page + 1 } } }

/-- A gradient entry with its sender's step tag arrives at a die (R86, R206). -/
def arriveEntry (d : Nat) (tag : BitVec 12) (key : Nat) (gk : BitVec 128) (vals : List Nat) (src : Nat) (s : State) : State :=
  byTag d (s.dieTags.getD d 0) tag (.grad key gk vals src) (inboxEntry key gk vals src) s

/-- GRADIENT_ENTRY (R206): an entry of another package's scatter. -/
def opGradientEntry (d : Fin 4) (tag : BitVec 12) (table : Fin 4096) (shard : Fin 16384) (gk : BitVec 128) (vals : List (BitVec 32))
    (src : BitVec 24) (s : State) : State :=
  if tilesLive s then
    let key := if (smFind s.tables.shards (shardKey table shard 0)).isSome then shardKey table shard 0 else shardKey table 0 d
    arriveEntry d tag key gk (vals.map BitVec.toNat) src.toNat s
  else s

def execGradientEntry (d : Fin 4) (tag : BitVec 12) (table : Fin 4096) (shard : Fin 16384) (gk : BitVec 128) (vals : List (BitVec 32))
    (src : BitVec 24) (s : State) : Host.Outcome State Fault Refusal :=
  .next (powered (opGradientEntry d tag table shard gk vals src) s)

/-! ### A descriptor's effects -/

/-- The outcome of evaluating a slice's descriptor: malformed, or what it does. -/
def evalSlice (v : View) (k ps : Nat) (j : SliceJob) : Rd (Option SliceOut) :=
  if j.fn = 4 then
    let d := sampDesc (nth j.words 0) (nth j.words 1)
    let c := v.s.ctx j.ctx
    if sampMalformed d ps c.streams then .ok none else (runSample v k c d j.xbase).map some
  else
    let d := tblDesc (nth j.words 0) (nth j.words 1) (nth j.words 2)
    (tblMalformed v k j.fn ps d).bind (fun bad => if bad then .ok none else (runTable v k j.fn d j.xbase).map some)

/-- The local ranges a descriptor names (R45); none where it is malformed. -/
def sliceRanges (v : View) (k ps : Nat) (j : SliceJob) : List (Nat × Nat × Bool) :=
  if j.fn = 4 then
    let d := sampDesc (nth j.words 0) (nth j.words 1)
    if sampMalformed d ps (v.s.ctx j.ctx).streams then [] else sampRanges d
  else
    let d := tblDesc (nth j.words 0) (nth j.words 1) (nth j.words 2)
    let r := (tblMalformed v k j.fn ps d).bind (fun bad =>
      if bad then .ok []
      else (if d.src = 0 then readTable v (k / 768) d.table else .ok noTable).bind (fun t =>
        (readLens v k j.fn d).map (fun lens => tblRanges j.fn d t.w (if usesBags j.fn d.src then lens.foldl (· + ·) 0 else d.n))))
    match r with
    | .ok rs => rs
    | .error _ => []

/-- Bytes stored at a package word by a scatter-add (R203): to this package's memory, or by WRITE messages. -/
def storeWord (k id w : Nat) (bs : List Byte) (s : State) : State :=
  if isRemote w then
    allOf (messageSplit (bs.length / 64)) (fun p s =>
      let a := (wordAddr w + 64 * p.1) % 2 ^ 44
      sendMsg (keyDie k) (some (k, id))
        { type := 1, dst := remoteEp (remoteCoord w) a, src := BitVec.ofNat 24 (tileEp s k), stag := (s.tile k).tag,
          addr := BitVec.ofNat 44 a, data := sliceBytes bs (64 * p.1) (64 * p.2) } (modXfer k id (fun x => { x with waits := x.waits + 1 }) s)) s
  else putMem (wordAddr w) bs s

/-- A gradient entry leaves a scatter (R204): to an inbox of this package, or as a WRITE message to the inbox pool named
by the shard's header, acknowledged as a PUT is. -/
def sendEntry (k id : Nat) (e : Nat × Nat × Nat × List Nat) (s : State) : State :=
  let hw := e.2.1
  if isRemote hw then
    let data := leBytes 16 e.2.2.1 ++ e.2.2.2.flatMap (leBytes 4)
    sendMsg (keyDie k) (some (k, id))
      { type := 1, dst := remoteEp (remoteCoord hw) (wordAddr hw), src := BitVec.ofNat 24 (tileEp s k), stag := (s.tile k).tag,
        addr := BitVec.ofNat 44 (wordAddr hw), data := sliceBytes data 0 (64 * ceilDiv data.length 64) }
      (modXfer k id (fun x => { x with waits := x.waits + 1 }) s)
  else
    let d := ((smFind s.tables.shards e.1).map (fun sh => sh.die)).getD 0
    arriveEntry d (s.tile k).tag e.1 (BitVec.ofNat 128 e.2.2.1) e.2.2.2 (tileEp s k) s

/-- Apply what a finished descriptor does. -/
def applySlice (k id op : Nat) (o : SliceOut) (s : State) : State :=
  let d := keyDie k
  let s := allOf o.puts (fun p => putMem (tileBase k + p.1) p.2) s
  let s := allOf o.cnt (fun p => bumpReg (dieKey d p.1) p.2) s
  let s := allOf o.evs (fun e => raiseAt e d (keyTile k) 0 op) s
  let s := { s with tables := { s.tables with looks := s.tables.looks ++ o.looks, repLooks := s.tables.repLooks ++ o.repLooks } }
  let s := allOf o.stores (fun p => storeWord k id p.1 p.2) s
  let s := allOf o.entries (sendEntry k id) s
  allOf o.merges (fun m s =>
    match smFind s.tables.shards m.1 with
    | none => s
    | some sh => { s with tables := { s.tables with shards := smPut s.tables.shards m.1 { sh with mergedBy := some k, merged := m.2 } } }) s

/-- The output bytes of a descriptor that meets an error are undefined for the attempt (R518). -/
def freeOutputs (k : Nat) (rs : List (Nat × Nat × Bool)) (s : State) : State :=
  allOf (rs.filter (fun r => r.2.2)) (fun r s =>
    let b := freeBytes r.2.1 s
    putMem (tileBase k + r.1) b.1 b.2) s

/-- Read one line of another package for a slice (R311). -/
def readForSlice (k id w : Nat) (s : State) : State :=
  let a := wordAddr w
  let dst := remoteEp (remoteCoord w) a
  let s := { s with reads := s.reads ++ [{ who := .slice k id w, src := tileEp s k, dst := dst.toNat, addr := a, lines := 1 }] }
  sendMsg (keyDie k) none
    { type := 2, dst := dst, src := BitVec.ofNat 24 (tileEp s k), stag := (s.tile k).tag, addr := BitVec.ofNat 44 a } s

/-- The event of a slice's read that stopped. -/
def readStopped (k : Nat) (e : ReadStop) (s : State) : State :=
  match e with
  | .miss _ => s
  | .outside a => outOfRange k a s
  | .paged a => raiseAt 0x2004 (keyDie k) (keyTile k) 0 (bitField a 43 12) s
  | .bad a => stackUncorrectable (keyDie k) (keyTile k) ((s.bad.find? (fun b => decide (a ≤ b) && inStacks b)).getD a) s
  | .sram o a => sramUncorrectable o a s

/-- Run the descriptor of a transfer as far as it goes: until a line of another package is missing, or to its end. -/
def runSlice (k id ps : Nat) (s : State) : State :=
  match (findXfer (s.tile k) id).bind (fun x => x.slice) with
  | none => s
  | some j =>
    let v : View := { s := s, remote := j.remote }
    let done := modXfer k id (fun x => { x with slice := none })
    match evalSlice v k ps j with
    | .ok none =>
      let d := keyDie k
      let s := bumpReg (dieKey d (if j.fn = 4 then 0x810005 else 0x81200E)) 1 s
      done (raiseAt (if j.fn = 4 then 0xA002 else 0xA007) d (keyTile k) 0 j.op s)
    | .ok (some o) => applySlice k id j.op o (done s)
    | .error (.miss w) => readForSlice k id w (modXfer k id (fun x => { x with waits := x.waits + 1 }) s)
    | .error e => freeOutputs k (sliceRanges v k ps j) (done (readStopped k e s))

/-- The descriptor a tile's pointer names, with the context and the extended register it works with (R88). -/
def sliceJobAt (k fn : Nat) (ps : Fin 16) (ctx op : Nat) (s : State) : SliceJob :=
  let t := s.tile k
  let p := (t.ptr[ps]).toNat
  let words := (List.range (if fn = 4 then 2 else 3)).map (fun i => s.le (tileBase k + localAddr (p + 8 * i)) 8)
  let xr := if fn = 4 then (sampDesc (nth words 0) (nth words 1)).xr else (tblDesc (nth words 0) (nth words 1) (nth words 2)).xr
  { fn := fn, words := words, ctx := ctx, xbase := xword s t.xreg[Fin.ofNat 8 xr], op := op }

/-- The transfer that a slice instruction opens: what it holds, its token and its job. -/
def sliceXfer (fn : Nat) (tk : Option (Fin 64)) (rs : List (Nat × Nat × Bool)) (j : Option SliceJob) : Xfer :=
  { id := 0, kind := if fn = 4 then .sample else .table, tk := tk, also := rs, slice := j }

/-- Issue of SAMPLE or TBL (R88): the descriptor and the extended register are read, and the slice begins. -/
def effSlice (k fn : Nat) (ps : Fin 16) (ctx : Nat) (tk : Option (Fin 64)) (op : Nat) (s : State) : State × Option Nat :=
  let p := ((s.tile k).ptr[ps]).toNat
  let j := sliceJobAt k fn ps ctx op s
  let rs := sliceRanges { s := s, remote := [] } k p j
  let s := raceLines k (rs.map (fun r => { lo := r.1, len := r.2.1, wr := r.2.2 })) s
  let o := openXfer k (sliceXfer fn tk rs (some j)) s
  (runSlice k o.1 p o.2, none)

/-- May the slice instruction issue by the ranges its descriptor names (R45, R67)? -/
def sliceReady (s : State) (k fn : Nat) (ps : Fin 16) (ctx : Nat) : Bool :=
  let rs := sliceRanges { s := s, remote := [] } k ((s.tile k).ptr[ps]).toNat (sliceJobAt k fn ps ctx 0 s)
  !hazard (s.tile k) (rs.map (fun r => { lo := r.1, len := r.2.1, wr := r.2.2 }))

/-- SAMPLE (R88, R178). -/
def execSample (r : TileRef) (w : WaitField) (a : SampleArgs) (s : State) : Host.Outcome State Fault Refusal :=
  .next (powered (fun s => if sliceReady s (tileKey r) 4 a.ps a.ctx.toNat then
      issue (.sample a) (tileKey r) w (effSlice (tileKey r) 4 a.ps a.ctx.toNat (if a.te then some a.tk else none) (opBits (.sample a) w)) s
    else s) s)

/-- A TBL instruction with its function (R88, R197). -/
def opTbl (fn : Fin 4) (r : TileRef) (w : WaitField) (a : TblArgs) (s : State) : State :=
  if sliceReady s (tileKey r) fn a.ps 0 then
    issue (.tbl fn a) (tileKey r) w (effSlice (tileKey r) fn a.ps 0 (if a.te then some a.tk else none) (opBits (.tbl fn a) w)) s
  else s

/-- TBL function 0 (R199). -/
def execGather (r : TileRef) (w : WaitField) (a : TblArgs) (s : State) : Host.Outcome State Fault Refusal := .next (powered (opTbl 0 r w a) s)

/-- TBL function 1 (R201, R202). -/
def execGatherAndPool (r : TileRef) (w : WaitField) (a : TblArgs) (s : State) : Host.Outcome State Fault Refusal := .next (powered (opTbl 1 r w a) s)

/-- TBL function 2 (R203, R204). -/
def execScatterAdd (r : TileRef) (w : WaitField) (a : TblArgs) (s : State) : Host.Outcome State Fault Refusal := .next (powered (opTbl 2 r w a) s)

/-- TBL function 3 (R206, R207). -/
def execSortAndMerge (r : TileRef) (w : WaitField) (a : TblArgs) (s : State) : Host.Outcome State Fault Refusal := .next (powered (opTbl 3 r w a) s)

/-- A line of another package has come for a slice (R311): kept for the descriptor, which runs on. An answer with its error
bit set is an access outside every range (R518). -/
def answerSlice (k id w : Nat) (err : Bool) (bs : List Byte) (s : State) : State :=
  match (findXfer (s.tile k) id).bind (fun x => x.slice) with
  | none => s
  | some j =>
    if err then
      let v : View := { s := s, remote := j.remote }
      let s := modXfer k id (fun x => { x with slice := none, waits := x.waits - 1 }) s
      freeOutputs k (sliceRanges v k 0 j) (outOfRange k (wordAddr w) s)
    else
      let s := modXfer k id (fun x => { x with waits := x.waits - 1, slice := some { j with remote := smPut j.remote w (sliceBytes bs 0 64) } }) s
      runSlice k id 0 s

/-- REFERENCE_OUTPUT (R190): tombola of the reference key and counter. -/
def referenceOutput (s : State) : Nat := (tombola (BitVec.ofNat 64 (s.reg 0x348002)) (BitVec.ofNat 64 (s.reg 0x348003))).toNat

/-- REFERENCE_OUTPUT (R190): the entry answers in every state except OFF. -/
def execReferenceOutput (s : State) : Host.Outcome State Fault Refusal := .next (powered (fun s => setReg 0x348004 (referenceOutput s) s) s)

end Sys2Proof.Machine
end

