-- ==== Sys2Proof/Machine/Host.lean ====
section
/-!
DEFINITION. The host attachment (16_host_attachment.md): completions, planes and ports, the RoCE regions, the doorbell and
the command records NOP, INPUT, BATCH, DECODE and RELEASE; pause, congestion and time.
-/

namespace Sys2Proof.Machine

/-! ### Ports and planes -/

/-- An Ethernet port. -/
def State.eth (s : State) (p : Nat) : EthPort := s.host.ports.getD p {}

/-- Change an Ethernet port. -/
def modEth (p : Nat) (f : EthPort → EthPort) (s : State) : State :=
  { s with host := { s.host with ports := setAt s.host.ports p (f (s.eth p)) } }

/-- Add to a counter of a port: 0 frames received, 1 frames sent, 2 pause sent in us, 3 and 4 congestion notifications
sent and received, 5 access NAKs (R377). -/
def bumpEth (p which n : Nat) (s : State) : State :=
  modEth p (fun q => { q with counters := setAt q.counters which ((nth q.counters which + n) % 2 ^ 64) }) s

/-- Raise an event of a port's Ethernet engine (R10). -/
def raiseEth (code p : Nat) (s : State) : State := raiseAt code (p % 4) (816 + p / 4) 0 0 s

/-- The table entry of a port that holds a local queue pair number (R377). -/
def qpEntry (s : State) (p qp : Nat) : Option Nat :=
  (List.range 64).find? (fun i => decide (leAt (s.eth p).table (32 * i) 3 = qp) && leAt (s.eth p).table (32 * i + 12) 1 != 0)

/-- State of a queue pair: 0 reset, 1 ready, 2 error. -/
def qpState (s : State) (p i : Nat) : Nat := leAt (s.eth p).table (32 * i + 12) 1

/-- Put a queue pair into the error state (R354, R373). -/
def qpError (p i : Nat) (s : State) : State := modEth p (fun q => { q with table := setAt q.table (32 * i + 12) 2 }) s

/-- Has the pair of a port failed (R373): the port is down, or the pair is in the error state? -/
def qpFailed (s : State) (p i : Nat) : Bool := !(s.eth p).up || qpState s p i == 2

/-- The queue pair numbers of a die's traffic on plane A and plane B (R374): 0 the completion ring, 1 + context a
binding, 100 + die a journal. The ring and the journal's plane A use entry 0 of their port's table. -/
def trafficPairs (s : State) (t : Nat) : Nat × Nat × Nat :=
  if t = 0 then (0, leAt (s.eth 0).table 0 3, leAt (s.eth 4).table 0 3)
  else if t < 100 then
    let d := (t - 1) / 12
    match smFind s.host.bindings (t - 1) with
    | some b => (d, b.qpA, b.qpB)
    | none => (d, leAt (s.eth d).table 0 3, leAt (s.eth (d + 4)).table 0 3)
  else
    let d := t - 100
    (d, leAt (s.eth d).table 0 3, leAt (s.blob (0x600401 + d)) 44 3)

/-- Has the traffic's pair on a plane failed? -/
def trafficFailed (s : State) (t plane : Nat) : Bool :=
  let x := trafficPairs s t
  let p := x.1 + 4 * plane
  match qpEntry s p (if plane = 0 then x.2.1 else x.2.2) with
  | none => !(s.eth p).up
  | some i => qpFailed s p i

/-- The port and queue pair a traffic uses now; none where both pairs have failed. A journal keeps to plane B (R353). -/
def trafficPort (s : State) (t : Nat) : Option (Nat × Nat) :=
  let x := trafficPairs s t
  if 100 ≤ t then (if trafficFailed s t 1 then none else some (x.1 + 4, x.2.2))
  else if !s.host.moved.contains t && !trafficFailed s t 0 then some (x.1, x.2.1)
  else if !trafficFailed s t 1 then some (x.1 + 4, x.2.2)
  else none

/-! ### Completions -/

/-- The 32 bytes of a completion at its number (R364). -/
def completionBytes (c : Completion) (n size : Nat) : List Byte :=
  leBytes 32 (atBit 224 c.cseq + atBit 216 c.op + atBit 208 c.status + atBit 160 (c.step % 2 ^ 48) + atBit 128 (c.detail % 2 ^ 32)
    + atBit 64 (c.time % 2 ^ 64) + n / size % 2)

/-- The port completions leave by (R374): D0's, else those of the lowest-numbered die with a pair that has not failed. -/
def completionPort (s : State) : Option (Nat × Nat) :=
  match trafficPort s 0 with
  | some p => some p
  | none =>
    (([1, 2, 3, 5, 6, 7] : List Nat).find? (fun p => (s.eth p).up && qpState s p 0 != 2)).map (fun p => (p, leAt (s.eth p).table 0 3))

/-- Write held completions while the ring has room (R364). -/
def flushFuel : Nat → State → State
  | 0, s => s
  | n + 1, s =>
    match s.host.held, completionPort s with
    | c :: rest, some p =>
      let h := s.host
      let size := s.reg 0x440807
      if (h.written + 2 ^ 32 - h.cci) % 2 ^ 32 < size then
        let bytes := completionBytes c h.written size
        let va := s.reg 0x440806 + 32 * (h.written % size)
        let s := { s with host := { h with held := rest, written := (h.written + 1) % 2 ^ 32 } }
        flushFuel n (emit (.rdma p.2 true va (s.reg 0x440808) 32 bytes) (bumpEth p.1 1 1 s))
      else s
    | _, _ => s

/-- Write what can be written. -/
def flushCompletions (s : State) : State := flushFuel s.host.held.length s

/-- A command record completes (R364): its completion is written, or held while the ring is full, which raises 0x5008. -/
def complete (cseq op status step detail : Nat) (s : State) : State :=
  let c : Completion := { cseq := cseq, op := op, status := status, step := step, detail := detail, time := s.now }
  let full := decide (s.reg 0x440807 ≤ (s.host.written + 2 ^ 32 - s.host.cci) % 2 ^ 32)
  let s := flushCompletions { s with host := { s.host with held := s.host.held ++ [c] } }
  if full then raise_ 0x5008 s else s

/-! ### The journal's writes -/

/-- The journal binding of a die (R437): ring address, ring length, base slots 0 and 1, base slot length, R_Key. -/
def journalBinding (s : State) (d : Nat) : List Nat :=
  let b := s.blob (0x600401 + d)
  [leAt b 0 8, leAt b 8 8, leAt b 16 8, leAt b 24 8, leAt b 32 8, leAt b 40 4]

/-- Is a journal bound on a die? A die without one has nothing to write and nothing to wait for. -/
def journalBound (s : State) (d : Nat) : Bool := nth (journalBinding s d) 1 != 0

/-- The journal of a die. -/
def State.journal (s : State) (d : Nat) : JournalDie := s.recov.journals.getD d {}

/-- Replace it. -/
def setJournal (d : Nat) (j : JournalDie) (s : State) : State :=
  { s with recov := { s.recov with journals := setAt s.recov.journals d j } }

/-- The running count from which ring bytes are still needed (R424): the start of the newest base image that completed at
or before the held checkpoint. -/
def ringNeeded (s : State) (d : Nat) : Nat :=
  ((s.recov.bases.filter (fun b => match b.e with
      | some e => decide (e ≤ s.reg 0x600003)
      | none => false)).getLast?.map (fun b => nth b.counts d)).getD 0

/-- Write one run of journal bytes at the ring offset of the running count (R423), in two parts where the ring ends. -/
def writeRing (d qp : Nat) (bs : List Byte) (s : State) : State :=
  let b := journalBinding s d
  let at_ := (s.journal d).count % nth b 1
  let n := min bs.length (nth b 1 - at_)
  let s := emit (.rdma qp true (nth b 0 + at_) (nth b 5) n (bs.take n)) s
  let s := if n < bs.length then emit (.rdma qp true (nth b 0) (nth b 5) (bs.length - n) (bs.drop n)) s else s
  setJournal d { s.journal d with count := (s.journal d).count + bs.length } (bumpReg 0x600409 bs.length s)

/-- Write what is staged, while the port is up and the ring has room (R424). -/
def flushRing (d : Nat) : Nat → State → State
  | 0, s => s
  | n + 1, s =>
    match (s.journal d).staged, trafficPort s (100 + d) with
    | bs :: rest, some p =>
      if (s.journal d).count - ringNeeded s d + bs.length ≤ nth (journalBinding s d) 1 then
        flushRing d n (writeRing d p.2 bs (bumpEth p.1 1 1 (setJournal d { s.journal d with staged := rest } s)))
      else s
    | _, _ => s

/-- Write every journal's staged bytes. -/
def flushJournals (s : State) : State := allOf (List.range 4) (fun d s => flushRing d (s.journal d).staged.length s) s

/-! ### Failover -/

/-- RDMA READs of a record's bytes (R369, R370): position p at host offset p, or p mod length where the stream wraps. -/
def inputPieces (b : Binding) (cursor bytes : Nat) : List (Nat × Nat) :=
  if b.circ then
    let o := cursor % b.len
    let first := min bytes (b.len - o)
    (o, first) :: (List.range (ceilDiv (bytes - first) b.len)).map (fun i => (0, min b.len (bytes - first - i * b.len)))
  else [(cursor, bytes)]

/-- Read a record's bytes from the host (R370). -/
def readInput (t : Nat) (b : Binding) (r : OpenRec) (s : State) : State :=
  match trafficPort s t with
  | none => s
  | some p => allOf (inputPieces b r.cursor r.bytes) (fun q s => emit (.rdma p.2 false (b.va + q.1) b.rkey q.2 []) (bumpEth p.1 1 1 s)) s

/-- The binding of a record. -/
def bindingOf (s : State) (r : OpenRec) : Option Binding :=
  match r.member with
  | none => smFind s.host.bindings r.ctx
  | some m => smFind s.host.catches (m * 64 + r.ctx)

/-- Every traffic that has two planes. -/
def planeTraffic (s : State) : List Nat := 0 :: s.host.bindings.map (fun p => 1 + p.1)

/-- Traffic whose plane-A pair has failed moves to plane B: 0x5006, and its incomplete reads are issued again (R374). -/
def failover (s : State) : State :=
  let s := allOf ((planeTraffic s).filter (fun t => !s.host.moved.contains t && trafficFailed s t 0 && !trafficFailed s t 1)) (fun t s =>
    let s := raiseEth 0x5006 ((trafficPairs s t).1) { s with host := { s.host with moved := s.host.moved ++ [t] } }
    allOf (s.host.open_.filter (fun r => decide (r.ctx + 1 = t) && r.data.isNone && r.member.isNone)) (fun r s =>
      match bindingOf s r with
      | none => s
      | some b => readInput t b r s) s) s
  flushCompletions s

/-- At a step start, traffic returns to plane A where its pair is ready again (R374). -/
def returnPlanes (s : State) : State :=
  { s with host := { s.host with moved := s.host.moved.filter (fun t => trafficFailed s t 0) } }

/-- BLOCK_LOCK_LOSS (R373): the port is down. -/
def execBlockLockLoss (p : Fin 8) (s : State) : Host.Outcome State Fault Refusal :=
  .next (powered (fun s =>
    if (s.eth p).up then failover (raiseEth 0x5001 p (modEth p (fun q => { q with up := false }) s)) else s) s)

/-- BLOCK_LOCK_REGAIN (R373): the port is up. -/
def execBlockLockRegain (p : Fin 8) (s : State) : Host.Outcome State Fault Refusal :=
  .next (powered (fun s =>
    if (s.eth p).up then s else flushJournals (flushCompletions (raiseEth 0x5002 p (modEth p (fun q => { q with up := true }) s)))) s)

/-- QUEUE_PAIR_ERROR_STATE (R373): entry `i` of a port's table enters the error state, 0x5005. -/
def opQpError (p : Fin 8) (i : Fin 64) (s : State) : State :=
  if qpState s p i = 1 then failover (raiseEth 0x5005 p (qpError p i s)) else s

def execQueuePairErrorState (p : Fin 8) (pair : Fin 64) (s : State) : Host.Outcome State Fault Refusal :=
  .next (powered (powered (opQpError p pair)) s)

/-! ### Result windows -/

/-- The header of a window as a number (R366). -/
def windowHeader (s : State) (w : Window) : Nat := s.le w.addr 64

/-- STATE of a window: 0 FREE, 1 PENDING, 2 DONE. -/
def windowState (s : State) (w : Window) : Nat := bitField (windowHeader s w) 479 476

/-- WSEQ of a window. -/
def windowSeq (s : State) (w : Window) : Nat := bitField (windowHeader s w) 511 480

/-- Write a window's header (R366). -/
def putWindow (w : Window) (wseq st step len cseq : Nat) (s : State) : State :=
  putMem w.addr (leBytes 64 (atBit 480 (wseq % 2 ^ 32) + atBit 476 st + atBit 428 (step % 2 ^ 48) + atBit 396 len + atBit 364 cseq)) s

/-- Accepted DECODEs take FREE windows in order (R367, R368). -/
def takeWindows (s : State) : State :=
  allOf (s.host.open_.filter (fun r => r.op == 3 && !r.taken)) (fun r s =>
    match s.windows[r.win]? with
    | none => s
    | some w =>
      if windowState s w = 0 then
        let s := { s with host := { s.host with open_ := s.host.open_.map (fun x => if x.cseq = r.cseq then { x with taken := true } else x) } }
        putWindow w (windowSeq s w + 1) 1 0 0 r.cseq s
      else s) s

/-! ### Command records -/

/-- The states in which command records are accepted (R356). -/
def acceptsRecords (s : State) : Bool :=
  s.life = .ready || s.life = .loaded || s.life = .running || s.life = .held || s.life = .spare

/-- The record at the package's position (R360). -/
def nextRecord (s : State) : Nat := s.le (0x47FFFC0000 + 64 * (s.host.next % 4096)) 64

/-- The operand bits of an opcode that are reserved (R363). -/
def recordReserved (op n : Nat) : Bool :=
  match op with
  | 1 => bitField n 135 0 != 0
  | 2 => bitField n 296 0 != 0
  | 3 => bitField n 286 0 != 0 || bitAt n 313 || bitField n 312 297 != 0
  | 4 => bitField n 319 0 != 0
  | 5 => bitField n 367 0 != 0
  | _ => bitField n 409 0 != 0

/-- Is a record's field malformed (R361, R362, R363)? -/
def recordMalformed (n : Nat) : Bool :=
  let op := bitField n 511 504
  decide (5 < op) || bitField n 471 464 != 0 || (op != 2 && op != 4 && bitField n 463 416 != 0)
    || (op != 1 && op != 2 && op != 3 && bitField n 415 410 != 0) || decide (47 < bitField n 415 410) || recordReserved op n
    || (op == 1 && bitField n 345 298 == 0) || ((op == 2 || op == 3) && bitField n 345 314 == 0)

/-- A record is consumed (R361). -/
def consumeRecord (s : State) : State :=
  let s := { s with host := { s.host with next := (s.host.next + 1) % 2 ^ 32 } }
  setReg 0x44080E s.host.next s

/-- Refuse a record with a status. -/
def refuseRecord (n status : Nat) (s : State) : State :=
  complete (bitField n 503 472) (bitField n 511 504) status 0 0 (bumpReg 0x44080A 1 s)

/-- Take the next record (R361): refused where its CSEQ or a field is wrong; an opcode not accepted in the present state
is refused too (R363). A good record of another opcode stays. `act` sees the record's bits. -/
def takeRecord (op : Nat) (act : Nat → State → State) (s : State) : State :=
  if acceptsRecords s ∧ s.host.next ≠ s.host.cpi then
    let n := nextRecord s
    if bitField n 503 472 ≠ s.host.next then refuseRecord n 2 (consumeRecord s)
    else if recordMalformed n then refuseRecord n 1 (consumeRecord s)
    else if bitField n 511 504 ≠ op then s
    else if op = 1 ∧ s.life = .running then refuseRecord n 3 (consumeRecord s)
    else act n (consumeRecord s)
  else s

/-- NOP (R363). -/
def execNopRecord (s : State) : Host.Outcome State Fault Refusal :=
  .next (powered (fun s => takeRecord 0 (fun n s => complete (bitField n 503 472) 0 0 0 0 (bumpReg 0x440809 1 s)) s) s)

/-- INPUT (R369, R372): binds a context, or a Catcher copy of a member's, and sets its cursor. -/
def opInput (n : Nat) (s : State) : State :=
  let b : Binding := { va := bitField n 409 346, len := bitField n 345 298, rkey := bitField n 297 266, qpA := bitField n 265 242,
                       qpB := bitField n 241 218, circ := bitAt n 217, cursor := bitField n 199 136 }
  let c := bitField n 415 410
  let s := bumpReg 0x440809 1 s
  let s := if bitAt n 216 then { s with host := { s.host with catches := smPut s.host.catches (bitField n 215 200 * 64 + c) b } }
    else { s with host := { s.host with bindings := smPut s.host.bindings c b } }
  complete (bitField n 503 472) 1 0 0 0 s

def execInput (s : State) : Host.Outcome State Fault Refusal := .next (powered (takeRecord 1 opInput) s)

/-- Records of a context, or of a Catcher copy, that are not complete. -/
def openOf (s : State) (c : Nat) (m : Option Nat) : List OpenRec :=
  s.host.open_.filter (fun r => decide (r.ctx = c) && decide (r.member = m))

/-- The cursor a new record must name (R370): the committed cursor past the records accepted before it. -/
def cursorAhead (s : State) (b : Binding) (c : Nat) (m : Option Nat) : Nat := ((openOf s c m).map (fun r => r.bytes)).foldl (· + ·) b.cursor

/-- BATCH and DECODE (R370): a binding, the expected cursor and step, bytes within the stream; then the read begins. -/
def opBatch (op n : Nat) (s : State) : State :=
  let cseq := bitField n 503 472
  let c := bitField n 415 410
  let m := if op = 2 ∧ bitAt n 313 then some (bitField n 312 297) else none
  let cursor := bitField n 409 346
  let bytes := bitField n 345 314
  let b? := match m with
    | none => smFind s.host.bindings c
    | some k => smFind s.host.catches (k * 64 + c)
  match b? with
  | none => refuseRecord n 8 s
  | some b =>
    if cursor ≠ cursorAhead s b c m ∨ (op = 2 ∧ bitField n 463 416 ≠ s.stepNo + (openOf s c m).length) then refuseRecord n 4 s
    else if (!b.circ && decide (b.len < cursor + bytes)) || (op == 3 && s.windows[bitField n 296 287]?.isNone) then refuseRecord n 6 s
    else
      let r : OpenRec := { cseq := cseq, op := op, step := bitField n 463 416, ctx := c, member := m, cursor := cursor, bytes := bytes,
                           win := if op = 3 then bitField n 296 287 else 0, since := s.now }
      let s := bumpReg 0x440809 1 { s with host := { s.host with open_ := s.host.open_ ++ [r] } }
      let s := readInput (1 + c) b r s
      if op = 3 then
        let s := takeWindows s
        if s.host.open_.any (fun x => decide (x.cseq = cseq) && !x.taken) then bumpReg 0x44080B 1 s else s
      else s

def execBatch (s : State) : Host.Outcome State Fault Refusal := .next (powered (takeRecord 2 (opBatch 2)) s)

def execDecode (s : State) : Host.Outcome State Fault Refusal := .next (powered (takeRecord 3 (opBatch 3)) s)

/-- RELEASE (R368): only a DONE window with this WSEQ; waiting DECODEs may then take it. -/
def opRelease (n : Nat) (s : State) : State :=
  match s.windows[bitField n 409 400]? with
  | none => refuseRecord n 5 s
  | some w =>
    if windowState s w = 2 ∧ windowSeq s w = bitField n 399 368 then
      let h := windowHeader s w
      let s := putWindow w (windowSeq s w) 0 (bitField h 475 428) (bitField h 427 396) (bitField h 395 364) (bumpReg 0x440809 1 s)
      takeWindows (complete (bitField n 503 472) 5 0 0 0 s)
    else refuseRecord n 5 s

def execReleaseRecord (s : State) : Host.Outcome State Fault Refusal := .next (powered (takeRecord 5 opRelease) s)

/-- RELEASE_WAIT_EXPIRY (R368): a DECODE has waited 1 s for its window: 0x5009, once per use. -/
def opReleaseWait (cseq : BitVec 32) (s : State) : State :=
  match s.host.open_.find? (fun r => decide (r.cseq = cseq.toNat) && r.op == 3 && !r.taken && !r.warned) with
  | none => s
  | some r =>
    raise_ 0x5009 { s with host := { s.host with open_ := s.host.open_.map (fun x => if x.cseq = r.cseq then { x with warned := true } else x) } }

def execReleaseWaitExpiry (cseq : BitVec 32) (s : State) : Host.Outcome State Fault Refusal := .next (powered (opReleaseWait cseq) s)

/-- INPUT_READ_COMPLETE (R370): the oldest record of the context (or of a Catcher copy) without its bytes has them. -/
def opInputRead (c : Fin 48) (m : Option (BitVec 16)) (bytes : List Byte) (s : State) : State :=
  match (openOf s c (m.map BitVec.toNat)).find? (fun r => r.data.isNone) with
  | none => s
  | some r =>
    { s with host := { s.host with open_ := s.host.open_.map (fun x =>
        if x.cseq = r.cseq then { x with data := some (sliceBytes bytes 0 r.bytes) } else x) } }

def execInputReadComplete (c : Fin 48) (m : Option (BitVec 16)) (bytes : List Byte) (s : State) : Host.Outcome State Fault Refusal :=
  .next (powered (opInputRead c m bytes) s)

/-- DOORBELL (R360). -/
def opDoorbell (w : BitVec 64) (s : State) : State :=
  if acceptsRecords s then
    let cci := w.toNat / 2 ^ 32
    let cpi := w.toNat % 2 ^ 32
    let diff := fun (a b : Nat) => (a + 2 ^ 32 - b) % 2 ^ 32
    let h := s.host
    let aheadC := diff cci h.written
    let s := if 1 ≤ aheadC ∧ aheadC ≤ 2 ^ 31 then raise_ 0x5007 s
      else if 1 ≤ diff cci h.cci ∧ diff cci h.cci ≤ 4096 then flushCompletions { s with host := { s.host with cci := cci } }
      else s
    let aheadP := diff cpi h.next
    if 4096 < aheadP ∧ aheadP ≤ 2 ^ 31 then raise_ 0x5007 s
    else if 1 ≤ diff cpi h.cpi ∧ diff cpi h.cpi ≤ 4096 then { s with host := { s.host with cpi := cpi } }
    else s
  else s

def execDoorbell (w : BitVec 64) (s : State) : Host.Outcome State Fault Refusal := .next (powered (opDoorbell w) s)

/-! ### RDMA -/

/-- Does a range lie within another? -/
def within (a n lo len : Nat) : Bool := decide (lo ≤ a) && decide (a + n ≤ lo + len)

/-- Pages that the package marks no-prefetch for its own buffers (R259, R417). -/
def ownBuffer (s : State) (a n : Nat) : Bool :=
  s.job.decls.any (fun d => (decide (4 ≤ d.kind) && decide (d.kind ≤ 7) || (d.kind == 2 && d.sub == 4))
    && decide (d.first < a + n) && decide (a < d.first + 0x1_0000 * d.pages))

/-- The replacement staging region: pages that the job image declares NOPF (R356, R516 kind 1). -/
def inReplStaging (s : State) (a n : Nat) : Bool :=
  s.job.decls.any (fun d => d.kind == 1 && bitAt d.sub 0 && within a n d.first (0x1_0000 * d.pages))

/-- What an RDMA WRITE reaches (R356): none where it is refused. -/
inductive RdmaTarget where
  | memory
  | doorbell
deriving DecidableEq, Repr

/-- The target of an RDMA WRITE (R356); while a LOAD is in progress the load region takes none (R407). -/
def writeTarget (s : State) (rkey a n : Nat) : Option RdmaTarget :=
  let rec_ := acceptsRecords s
  let job := s.life = .loaded || s.life = .running || s.life = .held
  let loading := s.reg 0x100102 == 1 && s.board.boot.command == some (2, 0)
  let load := (s.life = .ready && !loading) || s.life = .loaded || s.life = .held
  if rkey = s.reg 0x440802 ∧ rec_ ∧ within a n 0x47FFFC0000 0x40000 then some .memory
  else if rkey = s.reg 0x440802 ∧ rec_ ∧ a = 0x3F000010000 ∧ n = 8 then some .doorbell
  else if rkey = s.reg 0x440804 ∧ job ∧ inReplStaging s a n then some .memory
  else if rkey = s.reg 0x440805 ∧ load ∧ a + n ≤ stackEnd ∧ !(decide (0x47FFFC0000 < a + n) && decide (a < 0x4800000000)) ∧ !ownBuffer s a n then
    some .memory
  else none

/-- May an RDMA READ go ahead (R356)? -/
def readAllowed (s : State) (rkey a n : Nat) : Bool :=
  let job := s.life = .loaded || s.life = .running || s.life = .held
  let load := s.life = .ready || s.life = .loaded || s.life = .held
  (rkey == s.reg 0x440803 && job && s.windows.any (fun w => within a n w.addr (64 + w.bytes)))
    || (rkey == s.reg 0x440805 && load && decide (a + n ≤ stackEnd) && !(decide (0x47FFFC0000 < a + n) && decide (a < 0x4800000000)))

/-- The peer of a queue pair (R355): the storage of a journal binding that names it, else the host. -/
def peerGid (s : State) (p qp : Nat) : List Byte :=
  let jb := sliceBytes (s.blob (0x600401 + p % 4)) 0 64
  if 4 ≤ p ∧ leAt jb 44 3 = qp ∧ qp ≠ 0 then jb.drop 48 else sliceBytes (s.blob 0x440001) 0 16

/-- A RoCE packet arrives on a queue pair (R355): only a configured, ready pair takes it, and only from its peer. -/
def roceArrives (p qp gid : Nat) (act : Nat → State → State) (s : State) : State :=
  powered (fun s =>
    let s := bumpEth p 0 1 s
    match qpEntry s p qp with
    | none => s
    | some i =>
      if qpState s p i ≠ 1 ∨ !(s.eth p).up then s
      else if beBytes 16 gid ≠ peerGid s p qp then raiseEth 0x500C p s
      else act i s) s

/-- Refuse an RDMA operation (R356): NAK Remote Access Error, error state, 0x5004. -/
def refuseRdma (p i qp : Nat) (s : State) : State :=
  failover (raiseEth 0x5004 p (qpError p i (emit (.roce qp 3 []) (bumpEth p 1 1 (bumpEth p 5 1 s)))))

/-- RDMA_WRITE (R356). -/
def opRdmaWrite (p : Fin 8) (qp : BitVec 24) (gid : BitVec 128) (rkey : BitVec 32) (va : BitVec 64) (bytes : List Byte) (s : State) : State :=
  roceArrives p qp.toNat gid.toNat (fun i s =>
    match writeTarget s rkey.toNat va.toNat bytes.length with
    | none => refuseRdma p i qp.toNat s
    | some .memory => emit (.roce qp.toNat 0 []) (bumpEth p 1 1 (putMem va.toNat bytes s))
    | some .doorbell => emit (.roce qp.toNat 0 []) (bumpEth p 1 1 (opDoorbell (BitVec.ofNat 64 (leNat bytes)) s))) s

def execRdmaWrite (p : Fin 8) (qp : BitVec 24) (gid : BitVec 128) (rkey : BitVec 32) (va : BitVec 64) (bytes : List Byte) (s : State) :
    Host.Outcome State Fault Refusal :=
  .next (powered (opRdmaWrite p qp gid rkey va bytes) s)

/-- The bytes a READ of a window returns (R367): the payload of a window that is not DONE is undefined. -/
def windowRead (a n : Nat) (s : State) : List Byte × State :=
  match s.windows.find? (fun w => within a n w.addr (64 + w.bytes)) with
  | none => (s.bytes a n, s)
  | some w =>
    if windowState s w = 2 then (s.bytes a n, s)
    else
      let head := min n (w.addr + 64 - a)
      let r := freeBytes (n - head) s
      (s.bytes a head ++ r.1, r.2)

/-- RDMA_READ (R356): served in ascending address order; an uncorrectable stack line is a NAK Remote Operational Error,
0x2002 and 0x5005. -/
def opRdmaRead (p : Fin 8) (qp : BitVec 24) (gid : BitVec 128) (rkey : BitVec 32) (va : BitVec 64) (len : BitVec 32) (s : State) : State :=
  roceArrives p qp.toNat gid.toNat (fun i s =>
    let a := va.toNat
    let n := len.toNat
    if !readAllowed s rkey.toNat a n then refuseRdma p i qp.toNat s
    else if badStack s a n then
      let line := (s.bad.find? (fun b => decide (b < a + n) && decide (a < b + 64))).getD a
      let s := stackUncorrectable (p.val % 4) (816 + p.val / 4) line s
      failover (raiseEth 0x5005 p (qpError p i (emit (.roce qp.toNat 4 []) (bumpEth p 1 1 s))))
    else
      let r := windowRead a n s
      emit (.roce qp.toNat 0 r.1) (bumpEth p 1 1 r.2)) s

def execRdmaRead (p : Fin 8) (qp : BitVec 24) (gid : BitVec 128) (rkey : BitVec 32) (va : BitVec 64) (len : BitVec 32) (s : State) :
    Host.Outcome State Fault Refusal :=
  .next (powered (opRdmaRead p qp gid rkey va len) s)

/-- SEND (R354): acknowledged and discarded. -/
def execSend (p : Fin 8) (qp : BitVec 24) (gid : BitVec 128) (_bytes : List Byte) (s : State) : Host.Outcome State Fault Refusal :=
  .next (powered (fun s => roceArrives p qp.toNat gid.toNat (fun _ s => emit (.roce qp.toNat 0 []) (bumpEth p 1 1 s)) s) s)

/-! ### Flow control, congestion, time -/

/-- PAUSE_RECEIVED (R357): a pause of `quanta` on a priority is honoured; 0 resumes. -/
def opPause (p : Fin 8) (prio : Fin 8) (quanta : BitVec 16) (s : State) : State :=
  powered (fun s => bumpEth p 0 1 (modEth p (fun q =>
    { q with heldBy := if quanta = 0 then q.heldBy.filter (fun x => decide (x ≠ prio.val))
                       else if q.heldBy.contains prio.val then q.heldBy else q.heldBy ++ [prio.val] }) s)) s

def execPauseReceived (p : Fin 8) (prio : Fin 8) (quanta : BitVec 16) (s : State) : Host.Outcome State Fault Refusal :=
  .next (powered (opPause p prio quanta) s)

/-- RECEIVE_FIFO_THRESHOLD (R357): above 192 KiB of a priority a pause is sent, below 64 KiB a resume. -/
def opFifo (p : Fin 8) (prio : Fin 8) (above : Bool) (s : State) : State :=
  powered (fun s =>
    if !bitAt (s.reg 0x440003) prio then s
    else
      match smFind (s.eth p).sentPause prio with
      | none =>
        if above then
          emit (.ether p 0 prio) (bumpEth p 1 1 (modEth p (fun q => { q with sentPause := smPut q.sentPause prio s.now }) s))
        else s
      | some t =>
        if above then s
        else
          let s := bumpEth p 2 ((s.now - t) / 1000) s
          emit (.ether p 1 prio) (bumpEth p 1 1 (modEth p (fun q =>
            { q with sentPause := smDel q.sentPause prio, warned := q.warned.filter (fun x => decide (x ≠ prio.val)) }) s))) s

def execReceiveFifoThreshold (p : Fin 8) (prio : Fin 8) (above : Bool) (s : State) : Host.Outcome State Fault Refusal :=
  .next (powered (opFifo p prio above) s)

/-- PAUSE_PERSISTENCE (R357): a pause of the package asserted beyond its limit raises 0x5003 once. -/
def opPausePersistence (p : Fin 8) (prio : Fin 8) (s : State) : State :=
  if (smFind (s.eth p).sentPause prio).isSome ∧ !(s.eth p).warned.contains prio.val then
    raiseEth 0x5003 p (modEth p (fun q => { q with warned := q.warned ++ [prio.val] }) s)
  else s

def execPausePersistence (p : Fin 8) (prio : Fin 8) (s : State) : Host.Outcome State Fault Refusal := .next (powered (opPausePersistence p prio) s)

/-- CE_MARKED_PACKET (R358): a notification to the sender, at most one per queue pair per 50 us. -/
def opCeMarked (p : Fin 8) (qp : BitVec 24) (s : State) : State :=
  powered (fun s =>
    let s := bumpEth p 0 1 s
    let due := match smFind (s.eth p).lastCnp qp.toNat with
      | none => true
      | some t => decide (t + 50000 ≤ s.now)
    if s.reg 0x440005 == 1 && due then
      emit (.ether p 2 qp.toNat) (bumpEth p 3 1 (bumpEth p 1 1 (modEth p (fun q => { q with lastCnp := smPut q.lastCnp qp.toNat s.now }) s)))
    else s) s

def execCeMarkedPacket (p : Fin 8) (qp : BitVec 24) (s : State) : Host.Outcome State Fault Refusal := .next (powered (opCeMarked p qp) s)

/-- Line rate in the model's unit. -/
def lineRate : Nat := 2 ^ 20

/-- CONGESTION_NOTIFICATION_PACKET (R358): the queue pair's rate is halved. -/
def opCnp (p : Fin 8) (qp : BitVec 24) (s : State) : State :=
  powered (fun s => bumpEth p 0 1 (bumpEth p 4 1 (modEth p (fun q =>
    { q with rates := smPut q.rates qp.toNat (smGetD q.rates qp.toNat lineRate / 2) }) s))) s

def execCongestionNotificationPacket (p : Fin 8) (qp : BitVec 24) (s : State) : Host.Outcome State Fault Refusal := .next (powered (opCnp p qp) s)

/-- RATE_RECOVERY (R358): the rate rises by 10 % of line rate, to line rate at most. -/
def opRateRecovery (p : Fin 8) (qp : BitVec 24) (s : State) : State :=
  powered (fun s => modEth p (fun q => { q with rates := smPut q.rates qp.toNat (min lineRate (smGetD q.rates qp.toNat lineRate + lineRate / 10)) }) s) s

def execRateRecovery (p : Fin 8) (qp : BitVec 24) (s : State) : Host.Outcome State Fault Refusal := .next (powered (opRateRecovery p qp) s)

/-- PTP_MESSAGE (R359): a timing message of the domain gives package time and its offset from the grandmaster. -/
def opPtp (p : Fin 8) (domain : BitVec 7) (time : BitVec 64) (offset : BitVec 32) (s : State) : State :=
  powered (fun s =>
    let s := bumpEth p 0 1 s
    if domain.toNat = s.reg 0x440C02 then setReg 0x440C03 1 (setReg 0x440C04 offset.toNat { s with now := time.toNat }) else s) s

def execPtpMessage (p : Fin 8) (domain : BitVec 7) (time : BitVec 64) (offset : BitVec 32) (s : State) : Host.Outcome State Fault Refusal :=
  .next (powered (opPtp p domain time offset) s)

/-- HOLDOVER (R359): 10 s without synchronisation. -/
def execHoldover (s : State) : Host.Outcome State Fault Refusal :=
  .next (powered (fun s => if s.reg 0x440C03 = 1 then raise_ 0x500A (setReg 0x440C03 2 s) else s) s)

/-- A released job (R375): commands without a completion complete with status 0x07, windows and bindings go. -/
def releaseHost (s : State) : State :=
  let s := allOf s.host.open_ (fun r s => complete r.cseq r.op 7 0 0 s) s
  let s := allOf s.tables.reqs (fun r s => complete r.cseq 4 7 0 0 s) s
  { s with host := { s.host with open_ := [], bindings := [], catches := [] }, windows := [] }

end Sys2Proof.Machine
end

