-- ==== Sys2Proof/Machine/Checkpoint.lean ====
section
/-!
DEFINITION. Recovery records (R422), the durable step (R424), and what the coordinator and the members do when a checkpoint
has drained (R419, R421).
-/

namespace Sys2Proof.Machine

/-! ### Records -/

/-- A record as the 64 bytes of R422. -/
def recordBytes (type : Nat) (r : RecRecord) : List Byte :=
  leBytes 64 (atBit 508 type + atBit 500 r.repoch.toNat + atBit 488 r.coord.toNat + atBit 440 r.step.toNat + atBit 408 r.gen.toNat
    + atBit 360 r.jstep.toNat + atBit 312 r.bstep.toNat + atBit 310 (boolNat r.ret) + atBit 309 (boolNat r.inc) + atBit 308 (boolNat r.new)
    + atBit 295 r.pos.toNat + atBit 200 r.rstep.toNat + atBit 152 r.nstep.toNat)

/-- A record taken apart: its TYPE and fields. -/
def recordOf (bs : List Byte) : Nat × RecRecord :=
  let n := leAt bs 0 64
  (bitField n 511 508,
   { repoch := BitVec.ofNat 8 (bitField n 507 500), coord := BitVec.ofNat 12 (bitField n 499 488), step := BitVec.ofNat 48 (bitField n 487 440),
     gen := BitVec.ofNat 32 (bitField n 439 408), jstep := BitVec.ofNat 48 (bitField n 407 360), bstep := BitVec.ofNat 48 (bitField n 359 312),
     ret := bitAt n 310, inc := bitAt n 309, new := bitAt n 308, pos := BitVec.ofNat 13 (bitField n 307 295),
     rstep := BitVec.ofNat 48 (bitField n 247 200), nstep := BitVec.ofNat 48 (bitField n 199 152) })

/-- Route epoch of the package (R317). -/
def State.epoch (s : State) : Nat := s.reg 0x400006

/-- A record of this package. -/
def ownRecord (s : State) : RecRecord := { repoch := BitVec.ofNat 8 s.epoch, coord := BitVec.ofNat 12 s.coord }

/-- The recovery area of a package's D0 (R422). -/
def recoveryArea : Nat := 0x3F0_0002_0000

/-- Send a record to a coordinate (R422): a WRITE to its recovery area, in the slot of the sender's coordinate. -/
def sendRecord (type coord : Nat) (r : RecRecord) (s : State) : State :=
  sendMsg 0 none
    { type := 1, dst := BitVec.ofNat 24 (coord * 4096 + 768), src := BitVec.ofNat 24 (endpoint s 0 768), stag := s.dieTags.getD 0 0,
      addr := BitVec.ofNat 44 (recoveryArea + 64 * (s.coord % 1024)), data := recordBytes type r } s

/-- Coordinates of the members of the installation, this package among them. -/
def memberCoords (s : State) : List Nat := (s.descr.positions.filter (fun p => !p.spare)).map (fun p => p.coord)

/-- Send a record to every other member. -/
def sendToMembers (type : Nat) (r : RecRecord) (s : State) : State :=
  allOf ((memberCoords s).filter (fun c => decide (c ≠ s.coord))) (fun c s => sendRecord type c r s) s

/-- Is this package the coordinator: the package of coordinate 0 (R236)? -/
def isCoordinator (s : State) : Bool := s.coord == 0 && !(isSpare s && s.reg 0x102403 != 3)

/-! ### The durable step -/

/-- The durable step of the package: the least over its dies (R424); a die without a journal waits for nothing. -/
def durableStep (s : State) : Nat :=
  ((List.range 4).filter (journalBound s)).foldl (fun m d => min m (s.journal d).durable) s.stepNo

/-- Show the durable step at 0x6004.07. -/
def showDurable (s : State) : State := setReg 0x600407 (durableStep s) s

/-! ### Drains -/

/-- Mark of the messages of a die's drain among the unacknowledged ones (R418, R419). -/
def drainOwner (d : Nat) : Nat := 4096 + d

/-- Does a message wait for its acknowledgement under an owner? -/
def ownerOwes (s : State) (owner : Nat) : Bool :=
  let mine := fun (o : Option (Nat × Nat)) => (o.map (fun p => p.1 == owner)).getD false
  s.flowsTx.any (fun p => p.2.unacked.any (fun u => mine u.owner)) || s.txWait.any (fun w => mine w.owner) || s.resendNext.any (fun w => mine w.owner)

/-- COMPLETE of a checkpoint at a member (R419): generation N and the partner's incoming one are held; the previous ones are
retained; the undo log is released up to N (R425). -/
def holdGeneration (n : Nat) (s : State) : State :=
  let r := s.recov
  match r.gens.find? (fun g => g.step == n && decide (g.st < 4)) with
  | none => s
  | some g =>
    let gens := (r.gens.filter (fun x => x.st != 5 && x.gen != g.gen)).map (fun x => if x.st = 4 then { x with st := 5 } else x)
    let inc := r.mirrors.filter (fun m => m.st == 0 && m.step == n)
    let mir := (r.mirrors.filter (fun m => m.st == 1)).map (fun m => if inc = [] then m else { m with st := 2 })
    let undo := r.undo.filter (fun u => decide (n < u.step))
    let s := { s with recov := { r with gens := gens ++ [{ g with st := 4 }], mirrors := mir ++ inc.map (fun m => { m with st := 1 }), undo := undo } }
    let s := setReg 0x600002 g.gen (setReg 0x600003 n (setReg 0x600004 0 (bumpReg 0x600006 1 s)))
    let s := match inc with
      | [] => s
      | m :: _ => setReg 0x600009 m.gen s
    setReg 0x60000A 1 s

/-- After a restore, COMPLETE holds N and discards every other generation (R430). -/
def holdTarget (n : Nat) (s : State) : State :=
  let r := s.recov
  let gens := (r.gens.filter (fun g => g.step == n)).map (fun g => { g with st := 4 })
  let mir := (r.mirrors.filter (fun m => m.step == n)).map (fun m => { m with st := 1 })
  let s := { s with recov := { r with gens := gens, mirrors := mir, target := none, undo := r.undo.filter (fun u => decide (n < u.step)) } }
  setReg 0x600002 ((gens.head?.map (fun g => g.gen)).getD 0) (setReg 0x600003 n (setReg 0x600004 0 (setReg 0x600802 0 s)))

/-- COMPLETE reaches a member (R419, R430). -/
def memberComplete (n : Nat) (s : State) : State := if s.recov.target = some n then holdTarget n s else holdGeneration n s

/-- The coordinator has a DRAINED from a member (R419); with all of them in, it sends COMPLETE. -/
def takeDrained (coord n : Nat) (s : State) : State :=
  let r := s.recov
  let s := { s with recov := { r with drained := (if r.drained.contains (coord, n) then r.drained else r.drained ++ [(coord, n)]) } }
  if (memberCoords s).all (fun c => s.recov.drained.contains (c, n)) then
    let s := { s with recov := { s.recov with drained := s.recov.drained.filter (fun p => decide (p.2 ≠ n)) } }
    memberComplete n (sendToMembers 2 { ownRecord s with step := BitVec.ofNat 48 n } s)
  else s

/-- A captured generation whose drain is acknowledged, with the journal durable to its step, is drained: the package reports
it to the coordinator (R419). -/
def tryDrained (s : State) : State :=
  match s.recov.gens.find? (fun g => g.st == 2 && !g.stopped) with
  | none => s
  | some g =>
    if (List.range 4).any (fun d => ownerOwes s (drainOwner d)) ∨ durableStep s < g.step then s
    else
      let gens := s.recov.gens.map (fun x => if x.gen = g.gen then { x with st := 3 } else x)
      let s := setReg 0x600004 3 (setReg 0x600008 ((s.now - g.drainFrom) / 1000 % 2 ^ 32) { s with recov := { s.recov with gens := gens } })
      if isCoordinator s then takeDrained s.coord g.step s
      else
        let r := { ownRecord s with step := BitVec.ofNat 48 g.step, gen := BitVec.ofNat 32 g.gen }
        sendRecord 1 0 { r with jstep := BitVec.ofNat 48 (durableStep s), bstep := BitVec.ofNat 48 (s.reg 0x600408) } s

/-- A drain stops (R421): a delivery failure, or the end of its route epoch: 0x9008, no current mirror. -/
def stopDrain (s : State) : State :=
  if s.recov.gens.any (fun g => g.st == 2 && !g.stopped) then
    let gens := s.recov.gens.map (fun g => if g.st = 2 then { g with stopped := true } else g)
    raise_ 0x9008 (setReg 0x60000A 0 { s with recov := { s.recov with gens := gens } })
  else s

end Sys2Proof.Machine
end

