-- ==== Sys2Proof/Machine/Journal.lean ====
section
/-!
DEFINITION. The row journal, the undo log and base images (R423-R426): what a write to an embedding row leaves behind.
-/

namespace Sys2Proof.Machine

/-! ### Rows -/

/-- A table as a die of this package reads it; an unreadable descriptor is an unused table. -/
def tableOf (s : State) (die table : Nat) : TableDesc :=
  match readTable { s := s, remote := [] } die table with
  | .ok t => t
  | .error _ => noTable

/-- A table's codebook. -/
def codebookOf (s : State) (t : TableDesc) : List Num :=
  match readCodebook { s := s, remote := [] } t with
  | .ok cb => cb
  | .error _ => []

/-- Local index of a row of a shard (R192). -/
def localIndex (t : TableDesc) (row : Nat) : Nat := if t.replicated then row else row / t.nshard

/-- Address of a row's directory entry in the active bank, or in the other one (R193, R194). -/
def entryAddr (s : State) (t : TableDesc) (sh : Shard) (row : Nat) (active : Bool) : Nat :=
  directoryWord sh.header (s.bytes sh.header 64) active (localIndex t row)

/-- Address of a slot's record (R194). -/
def slotAddr (s : State) (t : TableDesc) (sh : Shard) (slot : Nat) : Nat := recordWord t sh.header (s.bytes sh.header 64) slot

/-- A directory entry of R194. -/
def dirEntry (st ver slot : Nat) : Nat := atBit 62 st + atBit 48 (ver % 16384) + slot

/-- Is a directory entry's row present? -/
def entryPresent (e : Nat) : Bool := bitField e 63 62 == 1 || bitField e 63 62 == 2

/-- Key of the shard, or the copies, that hold a row on this package. -/
def shardsOfRow (s : State) (t : TableDesc) (table row : Nat) : List Nat :=
  let ks := if t.replicated then (List.range 4).map (shardKey table 0) else [shardKey table (row % t.nshard) 0]
  ks.filter (fun k => (smFind s.tables.shards k).isSome)

/-- Replace a shard. -/
def setShard (k : Nat) (sh : Shard) (s : State) : State := { s with tables := { s.tables with shards := smPut s.tables.shards k sh } }

/-! ### The journal -/

/-- Is a table journalled: does the mark of the shard's header name JOURNAL (R411)? -/
def journalled (s : State) (sh : Shard) : Bool := markClass s sh.header == 1

/-- A journal header of R423. -/
def journalHeader (step table row ver kind : Nat) : List Byte :=
  leBytes 16 (atBit 80 (step % 2 ^ 48) + atBit 68 table + atBit 28 row + atBit 14 (ver % 16384) + atBit 12 kind)

/-- Stage bytes in a die's journal area. -/
def stageJournal (d : Nat) (bs : List Byte) (s : State) : State :=
  if journalBound s d then setJournal d { s.journal d with staged := (s.journal d).staged ++ [bs] } s else s

/-- Keep the before-image of bytes that a commit writes (R425). -/
def keepUndo (d addr n : Nat) (s : State) : State :=
  { s with recov := { s.recov with undo := s.recov.undo ++ [{ step := s.stepNo + 1, die := d, addr := addr, bytes := s.bytes addr n }] } }

/-- A commit writes a row (R423, R425): before-images, the record, and the directory entry where it changes; a journal
record for a journalled table. `entry` is the new directory entry, `rec_` the new record at its slot. -/
def writeRow (sh : Shard) (t : TableDesc) (table row : Nat) (entry : Option Nat) (slot : Nat) (rec_ : Option (List Byte)) (s : State) : State :=
  let ea := entryAddr s t sh row true
  let ra := slotAddr s t sh slot
  let old := s.le ea 8
  let s := keepUndo sh.die ea 8 s
  let s := if entryPresent old then keepUndo sh.die (slotAddr s t sh (old % 2 ^ 40)) (recordSize t) s else s
  let s := match rec_ with
    | none => s
    | some bs => putMem ra bs s
  let s := match entry with
    | none => s
    | some e => putMem ea (leBytes 8 e) s
  if journalled s sh then
    let e := s.le ea 8
    let gone := !entryPresent e
    let h := journalHeader (s.stepNo + 1) table row (bitField e 61 48) (if gone then 1 else 0)
    stageJournal sh.die (if gone then h else h ++ s.bytes ra (recordSize t)) s
  else s

/-- The end-of-commit markers of the commit that makes `step` current, and the writes that can go (R423). -/
def endCommit (step : Nat) (s : State) : State :=
  let s := allOf (List.range 4) (fun d s =>
    if journalBound s d then
      let s := stageJournal d (journalHeader step 0 0 0 3) s
      let j := s.journal d
      setJournal d { j with marks := j.marks ++ [(j.count + (j.staged.map List.length).foldl (· + ·) 0, step)] } s
    else s) s
  showDurable (flushJournals s)

/-! ### Base images -/

/-- The shards of journalled tables of a die. -/
def imageShards (s : State) (d : Nat) : List (Nat × Shard) := s.tables.shards.filter (fun p => p.2.die == d && journalled s p.2)

/-- The bytes of a shard in a base image (R426): header, directory bank or banks, and every slot. -/
def shardImage (s : State) (sh : Shard) : List Byte :=
  let t := tableOf s sh.die sh.table
  let h := s.bytes sh.header 64
  let bank := fun (o : Nat) => if leAt h o 8 = 0 then [] else s.bytes (leAt h o 8) (8 * leAt h 0 8)
  h ++ bank 8 ++ bank 16 ++ s.bytes (leAt h 24 8) (recordSize t * leAt h 32 8)

/-- Begin a base image at the commit that makes `step` current (R426): start records, and the copy to the slot that does
not hold the newest complete image. -/
def startImage (step : Nat) (s : State) : State :=
  let ds := (List.range 4).filter (fun d => journalBound s d && imageShards s d != [])
  if ds = [] then s
  else
    let slot := ((s.recov.bases.filter (fun b => b.e.isSome)).getLast?.map (fun b => 1 - b.slot)).getD 0
    let counts := (List.range 4).map (fun d => (s.journal d).count + ((s.journal d).staged.map List.length).foldl (· + ·) 0)
    let s := { s with recov := { s.recov with bases := s.recov.bases.filter (fun b => b.e.isSome) ++ [{ b := step, slot := slot, counts := counts }] } }
    let s := allOf ds (fun d s => setJournal d { s.journal d with imageAcked := false } (stageJournal d (journalHeader step 0 0 0 2) s)) s
    flushJournals (allOf ds (fun d s =>
      match trafficPort s (100 + d) with
      | none => s
      | some p =>
        let r := (imageShards s d).foldl (fun (a : Nat × State) q =>
          let bs := shardImage a.2 q.2
          let b := journalBinding a.2 d
          (a.1 + bs.length, emit (.rdma p.2 true (nth b (2 + slot) + a.1) (nth b 5) bs.length bs) a.2)) (0, s)
        r.2) s)

/-- Does a die still owe the last byte of the running image? -/
def imageOwed (s : State) (d : Nat) : Bool := journalBound s d && imageShards s d != [] && !(s.journal d).imageAcked

/-- At the commit that makes `step` current, an image whose last byte is acknowledged on every die is complete (R426). -/
def finishImage (step : Nat) (s : State) : State :=
  match s.recov.bases.find? (fun b => b.e.isNone) with
  | none => s
  | some b =>
    if (List.range 4).any (imageOwed s) then s
    else
      setReg 0x600408 step { s with recov := { s.recov with bases := s.recov.bases.filter (fun x => x.e.isSome) ++ [{ b with e := some step }] } }

/-! ### Acknowledgements and waits -/

/-- JOURNAL_ACK (R424): an RDMA acknowledgement covers the die's journal up to a running count, or its base image. -/
def opJournalAck (d : Fin 4) (upTo : BitVec 64) (image : Bool) (s : State) : State :=
  powered (fun s =>
    let j := s.journal d
    if image then setJournal d { j with imageAcked := true } s
    else
      let acked := max j.acked (min upTo.toNat j.count)
      let done := j.marks.filter (fun m => decide (m.1 ≤ acked))
      let j := { j with acked := acked, marks := j.marks.filter (fun m => decide (acked < m.1)), durable := (done.map (fun m => m.2)).foldl max j.durable }
      let s := showDurable (flushJournals (setJournal d j s))
      tryDrained { s with recov := { s.recov with waitTold := false } }) s

def execJournalAck (d : Fin 4) (upTo : BitVec 64) (image : Bool) (s : State) : Host.Outcome State Fault Refusal :=
  .next (powered (opJournalAck d upTo image) s)

/-- Does the next step wait for the journal (R424)? -/
def journalLags (s : State) : Bool := decide (s.reg 0x600406 + durableStep s < s.stepNo)

/-- Bytes of the undo log of a die, and the bytes its declared area takes; a die that declares none has no limit. -/
def undoFull (s : State) (d : Nat) : Bool :=
  let used := ((s.recov.undo.filter (fun u => u.die == d)).map (fun u => 16 + u.bytes.length)).foldl (· + ·) 0
  match s.job.decls.filter (fun x => x.kind == 7 && x.die == d) with
  | [] => false
  | ds => decide ((ds.map (fun x => 0x1_0000 * x.pages)).foldl (· + ·) 0 < used)

/-- Does the next step wait for the undo log (R425)? -/
def undoWaits (s : State) : Bool := (List.range 4).any (undoFull s)

/-- JOURNAL_WAIT_EXPIRY (R424, R425): a journal or undo wait has lasted 10 s: 0x9009. A full undo log that no coming
checkpoint can release takes the package to HELD. -/
def opJournalWait (s : State) : State :=
  if s.life = .running ∧ s.step.phase ≠ .attempt ∧ (journalLags s ∨ undoWaits s) ∧ !s.recov.waitTold then
    let s := raise_ 0x9009 { s with recov := { s.recov with waitTold := true } }
    if undoWaits s && !(s.recov.gens.any (fun g => decide (g.st < 4))) then holdNow 0x9009 s else s
  else s

def execJournalWaitExpiry (s : State) : Host.Outcome State Fault Refusal := .next (powered opJournalWait s)

end Sys2Proof.Machine
end

