-- ==== Sys2Proof/Machine/Replace.lean ====
section
/-!
DEFINITION. Replacing rows (R214-R219): the REPLACE record, source copies, directory writes, staged versions, drain epochs,
and what takes effect at a commit point or a skip.
-/

namespace Sys2Proof.Machine

/-! ### Slots -/

/-- Add to HOLD of a page (R258, R259); prefetched lines of a page whose attributes change are dropped (R268). -/
def holdPage (page : Nat) (up : Bool) (s : State) : State :=
  let a := smGetD s.pages page 0
  let h := bitField a 15 8
  let h' := if up then h + 1 else h - 1
  dropPage page { s with pages := smPut s.pages page (a - 256 * h + 256 * h') }

/-- Page of a slot's record. -/
def slotPage (s : State) (t : TableDesc) (sh : Shard) (slot : Nat) : Nat := slotAddr s t sh slot / 0x1_0000

/-- The slot a shard lends next (R216, R259, R260): its lowest free one on a page whose HOLD is below 255. -/
def lendSlot (s : State) (t : TableDesc) (sh : Shard) : Option Nat :=
  sh.free.find? (fun x => decide (bitField (smGetD s.pages (slotPage s t sh x) 0) 15 8 < 255))

/-- Take a slot (R216): it leaves the free pool and its page is marked. -/
def takeSlot (k slot : Nat) (s : State) : State :=
  match smFind s.tables.shards k with
  | none => s
  | some sh =>
    let t := tableOf s sh.die sh.table
    holdPage (slotPage s t sh slot) true (setShard k { sh with free := sh.free.filter (fun x => decide (x ≠ slot)), marked := sh.marked ++ [slot] } s)

/-- A slot returns to its pool (R217); its mark goes with it. -/
def returnSlot (k slot : Nat) (s : State) : State :=
  match smFind s.tables.shards k with
  | none => s
  | some sh =>
    let t := tableOf s sh.die sh.table
    let s := if sh.marked.contains slot then holdPage (slotPage s t sh slot) false s else s
    setShard k { sh with free := sortNats (sh.free ++ [slot]).dedup, marked := sh.marked.filter (fun x => decide (x ≠ slot)) } s

/-- Show the slots that wait for their drain. -/
def showDrains (s : State) : State :=
  setReg 0x340805 ((s.tables.drains.filter (fun d => match d with
    | .slot _ _ => true
    | .pair _ _ => false)).length) s

/-- A slot begins its drain epoch (R217). -/
def drainSlot (k slot : Nat) (s : State) : State :=
  showDrains { s with tables := { s.tables with drains := s.tables.drains ++ [.slot k slot] } }

/-- DRAIN_EPOCH_END (R217): the slot, or the pair of a leaving replica, returns to its pool. -/
def opDrainEnd (r : DrainRef) (s : State) : State :=
  match r with
  | .slot table shard copy slot =>
    let k := shardKey table shard copy
    if s.tables.drains.contains (.slot k slot.toNat) then
      showDrains (returnSlot k slot.toNat { s with tables := { s.tables with drains := s.tables.drains.erase (.slot k slot.toNat) } })
    else s
  | .pair die pair =>
    if s.tables.drains.contains (.pair die pair.toNat) then
      { s with tables := { s.tables with drains := s.tables.drains.erase (.pair die pair.toNat),
                                         replicas := s.tables.replicas.filter (fun x => !(x.die == die.val && x.pair == pair.toNat && x.st == 3)) } }
    else s

def execDrainEpochEnd (r : DrainRef) (s : State) : Host.Outcome State Fault Refusal := .next (powered (opDrainEnd r) s)

/-! ### Entries -/

/-- Is a row hot on this package (R211)? -/
def rowHot (s : State) (table row : Nat) : Bool := s.tables.hot.any (fun h => h.table == table && h.row == row && !h.joining)

/-- Copy an entry's source record into its slot (R216): with KEEPSTATE the optimiser state comes from the old record. -/
def copySource (e : ReplEntry) (s : State) : State :=
  if e.del then s
  else
    match smFind s.tables.shards e.shardKey with
    | none => s
    | some sh =>
      let t := tableOf s sh.die sh.table
      let n := recordSize t
      let bs := s.bytes e.source n
      let old := s.le (entryAddr s t sh e.row true) 8
      let bs := if e.keep && t.opt == 2 && entryPresent old then
          bs.take (rowStateOff t) ++ s.bytes (slotAddr s t sh (old % 2 ^ 40) + rowStateOff t) 4 ++ bs.drop (rowStateOff t + 4)
        else bs
      putMem (slotAddr s t sh e.slot) bs s

/-- Write an entry's directory entry (R216): the row takes its new slot, or becomes absent; the old slot drains. At a
commit point or skip the write is journalled (R423). -/
def applyEntry (atCommit : Bool) (e : ReplEntry) (s : State) : State :=
  match smFind s.tables.shards e.shardKey with
  | none => s
  | some sh =>
    let t := tableOf s sh.die sh.table
    let ea := entryAddr s t sh e.row true
    let old := s.le ea 8
    let ver := bitField old 61 48 + 1
    let new := if e.del then dirEntry 0 ver 0 else dirEntry (if rowHot s e.table e.row then 2 else 1) ver e.slot
    let s := if atCommit then writeRow sh t e.table e.row (some new) e.slot none s else putMem ea (leBytes 8 new) s
    let s := if entryPresent old then drainSlot e.shardKey (old % 2 ^ 40) s else s
    if e.first then bumpReg 0x340801 1 s else s

/-- Write an entry's staged record into the inactive bank (R218): an earlier staged slot of the row returns at once. -/
def stageEntry (e : ReplEntry) (s : State) : State :=
  match smFind s.tables.shards e.shardKey with
  | none => s
  | some sh =>
    let t := tableOf s sh.die sh.table
    let ea := entryAddr s t sh e.row false
    let ver := bitField (s.le ea 8) 61 48 + 1
    let s := putMem ea (leBytes 8 (if e.del then dirEntry 0 ver 0 else dirEntry 1 ver e.slot)) s
    let old := (sh.staged.filter (fun p => decide (p.1 = e.row))).map (fun p => p.2)
    let s := allOf (old.filter (fun x => decide (x ≠ 2 ^ 40))) (returnSlot e.shardKey) s
    let s := match smFind s.tables.shards e.shardKey with
      | none => s
      | some sh => setShard e.shardKey { sh with staged := sh.staged.filter (fun p => decide (p.1 ≠ e.row)) ++ [(e.row, if e.del then 2 ^ 40 else e.slot)] } s
    if e.first then bumpReg 0x340801 1 s else s

/-- Replace an entry of a request. -/
def setEntry (cseq i : Nat) (e : ReplEntry) (s : State) : State :=
  { s with tables := { s.tables with reqs := s.tables.reqs.map (fun r => if r.cseq = cseq then { r with entries := setAt r.entries i e } else r) } }

/-- Requests of MODE 1 and 2 whose every entry is applied complete (R363). -/
def finishRequests (s : State) : State :=
  let done := s.tables.reqs.filter (fun r => (r.mode == 1 || r.mode == 2) && r.entries.all (fun e => e.phase == 2))
  let s := { s with tables := { s.tables with reqs := s.tables.reqs.filter (fun r => !done.contains r) } }
  allOf done (fun r s => complete r.cseq 4 0 0 r.refused s) s

/-- Carry a copied entry on as its mode says: at once under MODE 1 and 2, at the commit point under MODE 0. -/
def afterCopy (r : ReplReq) (i : Nat) (e : ReplEntry) (s : State) : State :=
  if r.mode = 1 then setEntry r.cseq i { e with phase := 2 } (applyEntry false e s)
  else if r.mode = 2 then setEntry r.cseq i { e with phase := 2 } (stageEntry e s)
  else setEntry r.cseq i { e with phase := 1 } s

/-- Is the bank of an entry's shard being copied, so that a staged write waits (R218)? -/
def bankBusy (s : State) (e : ReplEntry) : Bool := ((smFind s.tables.shards e.shardKey).map (fun sh => sh.copying)).getD false

/-- SOURCE_COPY_COMPLETE (R216, R218): the copy of an entry's record has come. Continuous replacement pauses in HELD (R219). -/
def opSourceCopy (cseq : BitVec 32) (i : BitVec 24) (s : State) : State :=
  if s.life = .held then s
  else
    match s.tables.reqs.find? (fun r => decide (r.cseq = cseq.toNat)) with
    | none => s
    | some r =>
      match r.entries[i.toNat]? with
      | none => s
      | some e =>
        if e.phase ≠ 0 ∨ (r.mode = 2 ∧ bankBusy s e) then s
        else finishRequests (afterCopy r i.toNat e (copySource e s))

def execSourceCopyComplete (cseq : BitVec 32) (entry : BitVec 24) (s : State) : Host.Outcome State Fault Refusal :=
  .next (powered (powered (opSourceCopy cseq entry)) s)

/-- Copy the active bank of a shard into the other one (R218). -/
def copyBank (k : Nat) (s : State) : State :=
  match smFind s.tables.shards k with
  | none => s
  | some sh =>
    if sh.copying then
      let h := s.bytes sh.header 64
      let active := bitAt (leAt h 40 8) 0
      let a := leAt h 8 8
      let b := leAt h 16 8
      let n := 8 * leAt h 0 8
      setShard k { sh with copying := false } (putMem (if active then a else b) (s.bytes (if active then b else a) n) s)
    else s

/-- BANK_COPY_COMPLETE (R218). -/
def execBankCopyComplete (table : Fin 4096) (shard : Fin 16384) (copy : Fin 4) (s : State) : Host.Outcome State Fault Refusal :=
  .next (powered (copyBank (shardKey table shard copy)) s)

/-! ### The record -/

/-- An entry of a replacement list (R214): row, table, DELETE, KEEPSTATE, source word. -/
structure ListEntry where
  row : Nat
  table : Nat
  del : Bool
  keep : Bool
  source : Nat
deriving DecidableEq, Repr

/-- The entries of a list in memory. -/
def listEntries (s : State) (a n : Nat) : List ListEntry :=
  (List.range n).map (fun i =>
    let e := s.le (a + 16 * i) 16
    { row := bitField e 127 88, table := bitField e 87 76, del := bitAt e 75, keep := bitAt e 74, source := xword s (BitVec.ofNat 64 (e % 2 ^ 64)) })

/-- Take one entry of a request of MODE 0 to 2 (R214, R216): its shards on this package each lend a slot; none where it is
refused. -/
def acceptEntry (e : ListEntry) (s : State) : Option (List ReplEntry × State) :=
  let d := ((List.range 4).find? (fun d => (tableOf s d e.table).present)).getD 0
  let t := tableOf s d e.table
  let ks := shardsOfRow s t e.table e.row
  let slots := ks.map (fun k => ((smFind s.tables.shards k).bind (lendSlot s t)))
  if !t.present || decide (t.nrows ≤ e.row) || decide (ks = []) || (!e.del && slots.any Option.isNone) then none
  else
    let mine := (List.range ks.length).map (fun i =>
      ({ row := e.row, table := e.table, del := e.del, keep := e.keep, source := wordAddr e.source, shardKey := nth ks i,
         slot := if e.del then 0 else (slots.getD i none).getD 0, phase := if e.del then 1 else 0, first := i == 0 } : ReplEntry))
    some (mine, if e.del then s else allOf mine (fun x s => takeSlot x.shardKey x.slot s) s)

/-- Take every entry of a request: those accepted, the number refused, and the package after it. -/
def acceptEntries : List ListEntry → State → List ReplEntry × Nat × State
  | [], s => ([], 0, s)
  | e :: es, s =>
    match acceptEntry e s with
    | none =>
      let r := acceptEntries es (raise_ 0xA00B (bumpReg 0x340802 1 s))
      (r.1, r.2.1 + 1, r.2.2)
    | some p =>
      let r := acceptEntries es p.2
      (p.1 ++ r.1, r.2.1, r.2.2)

/-- Is a request refused whole (R214, R215, R363)? The list and its sources must lie in the replacement staging region. -/
def requestRefused (s : State) (mode : Nat) (list n : Nat) (es : List ListEntry) : Bool :=
  let staged := fun (e : ListEntry) => (List.range 4).any (fun d => (tableOf s d e.table).present && (tableOf s d e.table).staged)
  let plain := fun (e : ListEntry) => (List.range 4).any (fun d => (tableOf s d e.table).present && !(tableOf s d e.table).staged)
  let outside := fun (e : ListEntry) => !e.del && decide (mode ≠ 3)
    && (isRemote e.source || !inReplStaging s (wordAddr e.source) (recordSize (tableOf s 0 e.table)))
  isRemote list || !inReplStaging s (wordAddr list) (16 * n) || !holdsJob s
    || (if mode ≤ 1 then es.any staged else es.any plain) || (mode == 1 && !s.job.serving) || es.any outside

/-- Entries of a new request whose directory writes need no copy go ahead (DELETE under MODE 1 and 2). -/
def startRequest (r : ReplReq) (s : State) : State :=
  let s := allOf ((List.range r.entries.length).zip r.entries) (fun p s =>
    if p.2.phase = 1 ∧ (r.mode = 1 ∨ r.mode = 2) ∧ !bankBusy s p.2 then afterCopy r p.1 p.2 s
    else if p.2.phase = 1 ∧ r.mode = 2 then setEntry r.cseq p.1 { p.2 with phase := 0 } s else s) s
  finishRequests s

/-- REPLACE (R214, R215): refused whole, late, or taken entry by entry. -/
def opReplace (n : Nat) (s : State) : State :=
  let cseq := bitField n 503 472
  let step := bitField n 463 416
  let mode := bitField n 409 408
  let count := bitField n 407 384 + 1
  let list := xword s (BitVec.ofNat 64 (bitField n 383 320))
  let es := listEntries s (wordAddr list) count
  if requestRefused s mode list count es then refuseRecord n 6 s
  else if (mode = 0 ∨ mode = 3) ∧ step < s.stepNo then refuseRecord n 6 (raise_ 0xA00C (bumpReg 0x340803 1 s))
  else
    let s := bumpReg 0x440809 1 s
    let r := if mode = 3 then ([], 0, s) else acceptEntries es s
    let req : ReplReq := { cseq := cseq, mode := mode, step := step, refused := r.2.1, entries := r.1,
                           tables := if mode = 3 then (es.map (fun e => e.table)).dedup else [] }
    startRequest req { r.2.2 with tables := { r.2.2.tables with reqs := r.2.2.tables.reqs ++ [req] } }

def execReplace (s : State) : Host.Outcome State Fault Refusal := .next (powered (takeRecord 4 opReplace) s)

/-! ### At a commit point or skip -/

/-- Change the active bank of every shard of a table (R218): the staged rows' old slots drain, and the new bank is copied.
Every staged write received before is completed first. -/
def flipTable (table : Nat) (s : State) : State :=
  let ks := (s.tables.shards.filter (fun p => p.2.table == table)).map (fun p => p.1)
  let s := bumpReg 0x340804 1 s
  allOf ks (fun k s =>
    match smFind s.tables.shards k with
    | none => s
    | some sh =>
      let t := tableOf s sh.die sh.table
      let old := sh.staged.map (fun p => (p.1, s.le (entryAddr s t sh p.1 true) 8))
      let s := keepUndo sh.die (sh.header + 40) 8 s
      let s := putMem (sh.header + 40) (leBytes 8 ((s.le (sh.header + 40) 8) ^^^ 1)) s
      let s := setShard k { sh with staged := [], copying := true } s
      let s := if journalled s sh then
          allOf sh.staged (fun p s =>
            let e := s.le (entryAddr s t sh p.1 true) 8
            let gone := !entryPresent e
            let h := journalHeader (s.stepNo + 1) table p.1 (bitField e 61 48) (if gone then 1 else 0)
            stageJournal sh.die (if gone then h else h ++ s.bytes (slotAddr s t sh (e % 2 ^ 40)) (recordSize t)) s) s
        else s
      allOf old (fun p s => if entryPresent p.2 then drainSlot k (p.2 % 2 ^ 40) s else s) s) s

/-- Staged writes taken before a flip are completed for it; a bank copy still under way ends first (R218). -/
def finishStaged (table : Nat) (s : State) : State :=
  let s := allOf ((s.tables.shards.filter (fun p => p.2.table == table && p.2.copying)).map (fun p => p.1)) copyBank s
  let s := allOf (s.tables.reqs.filter (fun r => r.mode == 2)) (fun r s =>
    allOf ((List.range r.entries.length).zip r.entries) (fun p s =>
      if p.2.table = table ∧ p.2.phase = 0 then afterCopy r p.1 p.2 (copySource p.2 s) else s) s) s
  finishRequests s

/-- Requests that take effect at the end of step `step` (R215). -/
def dueRequests (step : Nat) (s : State) : List ReplReq := s.tables.reqs.filter (fun r => (r.mode == 0 || r.mode == 3) && decide (r.step = step))

/-- Rows that a replacement of MODE 0 takes at the end of step `step`. -/
def replacedRows (step : Nat) (s : State) : List Nat := (dueRequests step s).flatMap (fun r => r.entries.map (fun e => rowKey e.table e.row))

/-- Rows whose records a flip changes at the end of step `step`. -/
def flippedRows (step : Nat) (s : State) : List Nat :=
  let tabs := (dueRequests step s).flatMap (fun r => r.tables)
  (s.tables.shards.filter (fun p => tabs.contains p.2.table)).flatMap (fun p => p.2.staged.map (fun q => rowKey p.2.table q.1))

/-- Replacements and flips named for step `step` take effect, and their commands complete (R215, R219, R243). -/
def applyReplacements (step : Nat) (s : State) : State :=
  let due := dueRequests step s
  let s := { s with tables := { s.tables with reqs := s.tables.reqs.filter (fun r => !due.contains r) } }
  allOf due (fun r s =>
    let s := allOf r.entries (fun e s => applyEntry true e (if e.phase = 0 then copySource e s else s)) s
    let s := allOf r.tables (fun t s => flipTable t (finishStaged t s)) s
    complete r.cseq 4 0 0 r.refused s) s

end Sys2Proof.Machine
end

