-- ==== Sys2Proof/Machine/Hall.lean ====
section
/-!
DEFINITION. The Hall of Mirrors at commit points (R210-R213): sketch, candidates, windows, levels, and replicas.
-/

namespace Sys2Proof.Machine

/-! ### The sketch -/

/-- Keys of a row's four sketch counters on a die (R210). -/
def sketchKeys (die key : Nat) : List Nat :=
  (List.range 4).map (fun i => die * 262144 + i * 65536 + (tombola (BitVec.ofNat 64 i) (BitVec.ofNat 64 key)).toNat % 65536)

/-- A row's estimate: the least of its counters (R210). -/
def estimate (t : Tables) (die key : Nat) : Nat :=
  ((sketchKeys die key).map (fun k => smGetD t.sketch k 0)).foldl min (2 ^ 32 - 1)

/-- Count one lookup served by a home. -/
def countLook (t : Tables) (l : Nat × Nat) : Tables :=
  let sk := (sketchKeys l.1 l.2).foldl (fun m k => smPut m k (min (smGetD m k 0 + 1) (2 ^ 32 - 1))) t.sketch
  { t with sketch := sk,
           hot := t.hot.map (fun h => if h.die = l.1 ∧ rowKey h.table h.row = l.2 then { h with count := h.count + 1 } else h) }

/-- Count one lookup served by a replica, at the row's home (R210). -/
def countRepLook (t : Tables) (l : Nat × Nat) : Tables :=
  { t with hot := t.hot.map (fun h => if rowKey h.table h.row = l.2 then { h with count := h.count + 1 } else h) }

/-- Is a row hot? -/
def isHot (t : Tables) (key : Nat) : Bool := t.hot.any (fun h => rowKey h.table h.row == key)

/-- The lookups of the committed attempt join the sketch, the counts and the candidates (R210). -/
def joinLooks (t : Tables) : Tables :=
  if nth t.hall 0 = 0 then { t with looks := [], repLooks := [] }
  else
    let rows := t.looks
    let t := t.repLooks.foldl countRepLook (rows.foldl countLook t)
    let seen := (rows.dedup).filter (fun l => !isHot t l.2 && !t.cands.contains l && decide (nth t.hall 2 ≤ estimate t l.1 l.2))
    let new := sortBy (fun (a b : Nat × Nat) => decide (a.2 < b.2)) seen
    let add := new.foldl (fun (c : List (Nat × Nat)) l =>
      if (c.filter (fun x => decide (x.1 = l.1))).length < 65536 then c ++ [l] else c) t.cands
    { t with cands := add, looks := [], repLooks := [] }

/-! ### Replicas -/

/-- The record of a row as memory holds it now; no bytes for an absent row. -/
def rowRecord (s : State) (table row die : Nat) : List Byte :=
  let t := tableOf s die table
  match (shardsOfRow s t table row).head?.bind (fun k => smFind s.tables.shards k) with
  | none => []
  | some sh =>
    let e := s.le (entryAddr s t sh row true) 8
    if entryPresent e then s.bytes (slotAddr s t sh (e % 2 ^ 40)) (recordSize t) else []

/-- Coordinates of the other packages of the installation. -/
def otherCoords (s : State) : List Nat :=
  ((s.descr.positions.filter (fun p => !p.spare)).map (fun p => p.coord)).filter (fun c => decide (c ≠ s.coord))

/-- Send a level-2 row's record to the dies of the other packages (R211, R212): WRITE messages to the replica's slot. -/
def sendReplica (h : HotRow) (bs : List Byte) (s : State) : State :=
  allOf (otherCoords s) (fun c s => allOf (List.range 4) (fun d s =>
    let a := Config.replicaPlace c d (rowKey h.table h.row) % 2 ^ 38 * 64
    sendMsg h.die none
      { type := 1, dst := remoteEp c a, src := BitVec.ofNat 24 (endpoint s h.die 768), stag := s.dieTags.getD h.die 0,
        addr := BitVec.ofNat 44 a, data := sliceBytes bs 0 (64 * ceilDiv bs.length 64) } s) s) s

/-- Set the STATE of a present row's directory entry (R194). -/
def markHot (h : HotRow) (hot : Bool) (s : State) : State :=
  let t := tableOf s h.die h.table
  allOf (shardsOfRow s t h.table h.row) (fun k s =>
    match smFind s.tables.shards k with
    | none => s
    | some sh =>
      let a := entryAddr s t sh h.row true
      let e := s.le a 8
      if entryPresent e then putMem a (leBytes 8 (atBit 62 (if hot then 2 else 1) + e % 2 ^ 62)) s else s) s

/-- Write a record into every replica of a row that `want` picks: the first slot of a joining one, the inactive slot of a
valid one, which the commit then makes active (R212). -/
def writeReplicas (h : HotRow) (bs : List Byte) (join : Bool) (t : Tables) : Tables :=
  { t with replicas := t.replicas.map (fun r =>
      if r.table = h.table ∧ r.row = h.row then
        if join ∧ r.st = 1 then { r with st := 2, act := false, recs := [bs, r.recs.getD 1 []] }
        else if !join ∧ r.st = 2 then { r with act := !r.act, recs := setAt r.recs (boolNat !r.act) bs }
        else r
      else r) }

/-- Joining replicas take the record this commit leaves; valid replicas of the rows written are refreshed (R212, R219). -/
def refreshReplicas (written : List Nat) (s : State) : State :=
  allOf s.tables.hot (fun h s =>
    let bs := rowRecord s h.table h.row h.die
    let n := (s.tables.replicas.filter (fun r => r.table == h.table && r.row == h.row)).length
    if h.joining then
      let s := if written.contains (rowKey h.table h.row) then { s with tables := writeReplicas h bs false s.tables } else s
      let s := markHot h true { s with tables := writeReplicas h bs true { s.tables with hot := s.tables.hot.map (fun x =>
        if x.table = h.table ∧ x.row = h.row then { x with joining := false } else x) } }
      if h.level = 2 then sendReplica h bs s else s
    else if written.contains (rowKey h.table h.row) then
      let s := bumpReg (dieKey h.die 0x81200D) n { s with tables := writeReplicas h bs false s.tables }
      if h.level = 2 then sendReplica h bs (bumpReg (dieKey h.die 0x81200D) (4 * (otherCoords s).length) s) else s
    else s) s

/-! ### Windows -/

/-- The level a row takes from its count (R211). -/
def levelOf (t : Tables) (old c : Nat) : Nat :=
  if nth t.hall 3 ≤ c ∨ (old = 2 ∧ nth t.hall 3 ≤ 2 * c) then 2
  else if nth t.hall 2 ≤ c ∨ (old = 1 ∧ nth t.hall 2 ≤ 2 * c) then 1 else 0

/-- A row that asks to be hot at a window's end: its count, its key, and its level. -/
structure Asking where
  count : Nat
  key : Nat
  level : Nat
  old : Nat
deriving DecidableEq, Repr

/-- Bytes of a replica pair of a row. -/
def pairBytes (s : State) (die key : Nat) : Nat := 2 * recordSize (tableOf s die (key / 2 ^ 40))

/-- Admit rows in order until one would exceed its quota (R211): those admitted, and how many were refused. -/
def admitRows (s : State) (die : Nat) (q1 q2 : Nat) : List Asking → Nat → Nat → List Asking × Nat
  | [], _, _ => ([], 0)
  | a :: as, u1, u2 =>
    let n := pairBytes s die a.key
    if (a.level = 1 ∧ q1 < u1 + n) ∨ (a.level = 2 ∧ q2 < u2 + n) then ([], as.length + 1)
    else
      let r := admitRows s die q1 q2 as (if a.level = 1 then u1 + n else u1) (if a.level = 2 then u2 + n else u2)
      (a :: r.1, r.2)

/-- The lowest free pair number of a die's pool. -/
def freePair (t : Tables) (die : Nat) : Nat :=
  let used := (t.replicas.filter (fun r => r.die == die)).map (fun r => r.pair)
  ((List.range (used.length + 1)).find? (fun n => !used.contains n)).getD used.length

/-- A row newly hot gets a joining replica on each other die of its home package (R211). -/
def addReplicas (die key : Nat) (t : Tables) : Tables :=
  (List.range 4).foldl (fun t d =>
    if d = die ∨ t.replicas.any (fun r => r.die == d && rowKey r.table r.row == key && r.st != 3) then t
    else { t with replicas := t.replicas ++ [{ table := key / 2 ^ 40, row := key % 2 ^ 40, die := d, st := 1, pair := freePair t d }] }) t

/-- The replicas of a row that is cold again leave (R212): not read from the next step on, their pairs drain. -/
def dropReplicas (key : Nat) (t : Tables) : Tables :=
  let mine := t.replicas.filter (fun r => rowKey r.table r.row == key && r.st != 3)
  { t with replicas := t.replicas.map (fun r => if mine.contains r then { r with st := 3 } else r),
           drains := t.drains ++ mine.map (fun r => .pair r.die r.pair) }

/-- The counts of hot rows shown at 0x3400.08 and .09. -/
def showLevels (s : State) : State :=
  setReg 0x340008 (s.tables.hot.filter (fun h => h.level == 1)).length (setReg 0x340009 (s.tables.hot.filter (fun h => h.level == 2)).length s)

/-- The end of a die's window (R211): counts, levels, admission, and what is cleared. -/
def endWindow (die : Nat) (s : State) : State :=
  let t := s.tables
  let hot := t.hot.filter (fun h => h.die == die)
  let asks := hot.map (fun h => ({ count := h.count, key := rowKey h.table h.row, level := levelOf t h.level h.count, old := h.level } : Asking))
    ++ (t.cands.filter (fun c => c.1 == die && !isHot t c.2)).map (fun c =>
      let n := estimate t die c.2
      { count := n, key := c.2, level := levelOf t 0 n, old := 0 })
  let asks := if nth t.hall 0 = 0 then [] else sortBy (fun (a b : Asking) => decide (b.count < a.count) || (a.count == b.count && decide (a.key < b.key))) (asks.filter (fun a => a.level != 0))
  let pool := nth t.hall 4 * 2 ^ 20
  let npkg := s.descr.nx * s.descr.ny * s.descr.nz
  let r := admitRows s die (pool / 4) (pool / (16 * npkg)) asks 0 0
  let s := if r.2 = 0 then s else raiseAt 0xA00A die 768 0 0 (bumpReg 0x34000A r.2 s)
  let keep := r.1.map (fun a => a.key)
  let gone := hot.filter (fun h => !keep.contains (rowKey h.table h.row))
  let s := allOf gone (fun h s => markHot h false s) s
  let t := s.tables
  let t := gone.foldl (fun t h => dropReplicas (rowKey h.table h.row) t) t
  let new := r.1.map (fun a =>
    match hot.find? (fun h => rowKey h.table h.row == a.key) with
    | some h => { h with level := a.level, count := 0, joining := h.joining || (a.level == 2 && h.level == 1) }
    | none => ({ table := a.key / 2 ^ 40, row := a.key % 2 ^ 40, die := die, level := a.level } : HotRow))
  let t := { t with hot := t.hot.filter (fun h => h.die != die) ++ new, cands := t.cands.filter (fun c => c.1 != die),
                    sketch := t.sketch.filter (fun p => decide (p.1 / 262144 ≠ die)) }
  let t := new.foldl (fun t h => addReplicas die (rowKey h.table h.row) t) t
  showLevels { s with tables := t }

/-- One committed step of a die's window (R211): settings written since take effect at a window's boundary (R221). -/
def stepWindow (die : Nat) (s : State) : State :=
  let n := nth s.tables.winSteps die + 1
  let done := decide (nth s.tables.hall 1 ≤ n)
  let s := { s with tables := { s.tables with winSteps := setAt s.tables.winSteps die (if done then 0 else n) } }
  let s := if done then endWindow die s else s
  if die = 0 then
    let s := if done then bumpReg 0x340007 1 s else s
    let s := if done then { s with tables := { s.tables with hall := (List.range 5).map (fun i => s.reg (0x340001 + i)) } } else s
    setReg 0x340006 (nth s.tables.winSteps 0) s
  else s

/-- Does a die's window count this commit (R211): every step of a training job, the decode steps of context 12h of a
serving job? -/
def windowCounts (s : State) (die : Nat) : Bool :=
  !s.job.serving || s.host.open_.any (fun r => r.running && r.ctx == 12 * die)

/-- The Hall of Mirrors at a commit (R210 to R212): refresh of the rows written, the counts of the step, and the windows
that end. -/
def commitHall (written : List Nat) (s : State) : State :=
  let s := refreshReplicas written s
  let s := { s with tables := joinLooks s.tables }
  allOf ([1, 2, 3, 0].filter (windowCounts s)) stepWindow s

end Sys2Proof.Machine
end

