-- ==== Sys2Proof/Machine/Reduce.lean ====
section
/-!
DEFINITION. The reduce engines (15_gradient_reduction.md): contributions, scale agreement, integer sums, the residue
tally, one-bit mode, Catchers, and the result at the root.
-/

namespace Sys2Proof.Machine

/-! ### Contributions -/

/-- The live half of the dense state (R225, R226). -/
def liveHalf (s : State) : Nat := boolNat s.step.par

/-- 64 signed 16-bit values of a group at an address (R326). -/
def groupVals (s : State) (a i : Nat) : List Int := (chunksOf 2 (s.bytes (a + 128 * i) 128)).map (fun b => signExt 16 (leNat b))

/-- One E8 code. -/
def codeAt (s : State) (a i : Nat) : Nat := s.le (a + i) 1

/-- The tally byte of a group (R333). -/
def tally (xs : List Int) : Nat := ((xs.foldl (· + ·) 0) % 255).toNat

/-- A value re-expressed at an agreed code (R330). -/
def reexpress (e a : Nat) (g : Int) : Int := if a = 0xFF then 0 else (roundInt .even (ofInt g ((e : Int) - a) false)).1

/-- Where the live error memory of a leaf lies, and its codes (R338). -/
def errorAddr (n : Node) (h : Nat) : Nat × Nat := (n.gaddr + (1 + h) * 128 * n.groups, n.caddr + (1 + h) * n.groups)

/-- The code a leaf sends for a group: its own, or with headroom in one-bit mode (R329, R337). -/
def leafCode (s : State) (n : Node) (i : Nat) : Nat :=
  let eg := codeAt s n.caddr i
  if n.onebit then
    let ee := codeAt s (errorAddr n (liveHalf s)).2 i
    if eg = 0xFF ∨ ee = 0xFF then 0xFF else min (max eg ee + 1) 0xFE
  else eg

/-- The contribution hash of codes and values (R341). -/
def chash (codes : List Nat) (vals : List Int) : Nat :=
  let words := (chunksOf 8 (codes.map (fun c => BitVec.ofNat 8 c))).map leNat
    ++ (chunksOf 8 ((vals.map (wrapInt 16)).flatMap (leBytes 2))).map leNat
  words.foldl (fun h w => (tombola (BitVec.ofNat 64 w) (BitVec.ofNat 64 h)).toNat ^^^ h) words.length

/-- Hash of a leaf's contribution (R341). -/
def leafHash (s : State) (n : Node) : Nat :=
  chash ((List.range n.groups).map (codeAt s n.caddr)) ((List.range n.groups).flatMap (groupVals s n.gaddr))

/-- One-bit reduction of a group (R337): the sign word, the magnitude, whether it was clamped, the values sent, and what
stays as error. -/
def oneBit (g e : List Int) (eg ee a : Nat) : Nat × Nat × Bool × List Int × List Int :=
  let v := (g.zip e).map (fun p => reexpress eg a p.1 + reexpress ee a p.2)
  let sum := (v.map Int.natAbs).foldl (fun (a b : Nat) => a + b) 0
  let m0 := (roundInt .even (ofInt (sum : Int) (-6) false)).1.toNat
  let m := min m0 32767
  let d := v.map (fun x => if x < 0 then -(m : Int) else m)
  let sign := slotFields 1 (v.map (fun x => boolNat (decide (x < 0))))
  (sign, m, decide (32767 < m0), d, (v.zip d).map (fun p => p.1 - p.2))

/-! ### Messages -/

/-- The BODY of a REDUCE message (R335). -/
def reduceBody (m : ReduceMsg) : BitVec 256 :=
  BitVec.ofNat 256 (atBit 252 m.op + atBit 251 (boolNat m.catch_) + atBit 250 (boolNat m.leafin) + atBit 249 (boolNat m.width)
    + atBit 244 (if m.op = 3 ∨ m.op = 4 ∨ m.op = 6 ∨ m.op = 7 then m.ngrp - 1 else 0)
    + atBit 228 m.layer.toNat + atBit 212 m.shard.toNat + atBit 180 m.group.toNat + atBit 164 m.csrc.toNat)

/-- A REDUCE message taken from a Midway message (R335). -/
def reduceOf (m : Msg) : ReduceMsg :=
  let b := m.body.toNat
  { op := bitField b 255 252, catch_ := bitAt b 251, leafin := bitAt b 250, width := bitAt b 249, ngrp := bitField b 248 244 + 1,
    layer := BitVec.ofNat 16 (bitField b 243 228), shard := BitVec.ofNat 16 (bitField b 227 212), group := BitVec.ofNat 32 (bitField b 211 180),
    csrc := BitVec.ofNat 16 (bitField b 179 164), data := m.data, stag := m.stag, src := m.src }

/-- Send a REDUCE message from a die to an endpoint: within the package to the engine's queue, else over Midway. -/
def sendReduce (d ep : Nat) (m : ReduceMsg) (s : State) : State :=
  let m := { m with stag := s.dieTags.getD d 0, src := BitVec.ofNat 24 (endpoint s d 768) }
  if epCoord ep = s.coord then { s with reduce := { s.reduce with queue := s.reduce.queue ++ [(epDie ep, m)] } }
  else
    sendMsg d none { type := 8, dst := BitVec.ofNat 24 ep, src := m.src, stag := m.stag, body := reduceBody m, data := m.data } s

/-- Pad to whole slots. -/
def padSlots (bs : List Byte) : List Byte := sliceBytes bs 0 (64 * ceilDiv bs.length 64)

/-- Values of groups at a width in bytes. -/
def valBytes (w : Nat) (gs : List (List Int)) : List Byte := gs.flatMap (fun g => g.flatMap (fun x => leBytes w (wrapInt (8 * w) x)))

/-- Cut a range of groups into runs of at most `n`: first group and length. -/
def groupRuns (total n : Nat) : List (Nat × Nat) := (List.range (ceilDiv total n)).map (fun i => (n * i, min n (total - n * i)))

/-- CODES or AGREED messages of codes (R335): up to 64 slots of 64 groups each. -/
def codeMsgs (op : Nat) (n : Node) (codes : List Nat) : List ReduceMsg :=
  (groupRuns n.groups 4096).map (fun r =>
    { op := op, leafin := n.leaf, layer := BitVec.ofNat 16 n.layer, shard := BitVec.ofNat 16 n.shard, group := BitVec.ofNat 32 r.1,
      csrc := BitVec.ofNat 16 n.nodeId, data := padSlots (((codes.drop r.1).take r.2).map (BitVec.ofNat 8)) })

/-- SUM messages of values (R335): width 16 from a leaf, 32 from a node; a tally slot ends each. -/
def sumMsgs (n : Node) (wide : Bool) (vals : List (List Int)) : List ReduceMsg :=
  (groupRuns n.groups (if wide then 15 else 31)).map (fun r =>
    let gs := (vals.drop r.1).take r.2
    { op := 3, leafin := n.leaf, width := wide, ngrp := r.2, layer := BitVec.ofNat 16 n.layer, shard := BitVec.ofNat 16 n.shard,
      group := BitVec.ofNat 32 r.1, csrc := BitVec.ofNat 16 n.nodeId,
      data := valBytes (if wide then 4 else 2) gs ++ padSlots (gs.map (fun g => BitVec.ofNat 8 (tally g))) })

/-- RAW messages of a flat tree's leaf (R336). -/
def rawMsgs (s : State) (n : Node) : List ReduceMsg :=
  (groupRuns n.groups 31).map (fun r =>
    let ix := (List.range r.2).map (· + r.1)
    let gs := ix.map (groupVals s n.gaddr)
    { op := 6, leafin := true, ngrp := r.2, layer := BitVec.ofNat 16 n.layer, shard := BitVec.ofNat 16 n.shard, group := BitVec.ofNat 32 r.1,
      csrc := BitVec.ofNat 16 n.nodeId,
      data := valBytes 2 gs ++ padSlots (gs.map (fun g => BitVec.ofNat 8 (tally g))) ++ padSlots (ix.map (fun i => BitVec.ofNat 8 (codeAt s n.caddr i))) })

/-- The HASH message that ends a contribution (R335). -/
def hashMsg (n : Node) (h : Nat) : ReduceMsg :=
  { op := 5, leafin := true, layer := BitVec.ofNat 16 n.layer, shard := BitVec.ofNat 16 n.shard, csrc := BitVec.ofNat 16 n.nodeId,
    data := padSlots (leBytes 8 h) }

/-! ### Positions -/

/-- A position's run-time record. -/
def State.nodeRt (s : State) (i : Nat) : NodeRt := smGetD s.reduce.nodes i {}

/-- Replace it. -/
def setNodeRt (i : Nat) (r : NodeRt) (s : State) : State := { s with reduce := { s.reduce with nodes := smPut s.reduce.nodes i r } }

/-- Send messages of a position to its parent, keeping them for a RESEND (R334). A Catcher copy of a spare carries its
mark (R339). -/
def sendUp (i : Nat) (n : Node) (ms : List ReduceMsg) (s : State) : State :=
  let ms := ms.map (fun m => { m with catch_ := decide (s.life = .spare) })
  let r := s.nodeRt i
  allOf ms (fun m s => sendReduce n.die n.parent m s) (setNodeRt i { r with kept := r.kept ++ ms } s)

/-- The scale-map entry of an Encore region at a package address in a tile window (R157). -/
def encoreRegion (s : State) (a : Nat) : Option (Nat × ScaleEntry) :=
  match placeOf a with
  | .window k l => ((scaleEntries (s.tile k)).find? (fun e => e.een && inEntry e l)).map (fun e => (k, e))
  | _ => none

/-- Write one reduced group as G16 with its code (R332, R151). -/
def writeGroup (n : Node) (i : Nat) (sums : List Int) (a : Nat) (s : State) : State :=
  let vs := sums.map (fun x => ofInt x ((a : Int) - 127) false)
  let c := if a = 0xFF then (0xFF, false) else chooseCode (natNum 32767) true vs
  let bits := vs.map (fun v => if c.1 = 0xFF then 0 else (convG16 c.1 v).bits)
  let s := putMem (n.caddr + i) [BitVec.ofNat 8 c.1] (putMem (n.gaddr + 128 * i) (bits.flatMap (leBytes 2)) s)
  let d := n.die
  let s := bumpReg (dieKey d 0x80E001) 1 s
  let s := if c.2 then raiseAt 0x1003 d 768 0 0 (bumpReg (dieKey d 0x80E002) 1 s) else s
  let s := if c.1 = 0xFF then
      let s := raiseAt 0x1006 d 768 0 0 (bumpReg (dieKey d 0x80E003) 1 s)
      { s with step := { s.step with gradNF := true } }
    else s
  if c.2 ∨ c.1 = 0xFF then
    match encoreRegion s (n.gaddr + 128 * i) with
    | none => s
    | some (k, e) => modTile k (fun t => { t with encore := t.encore ||| (1#8 <<< e.ecls) }) s
  else s

/-- Signal a unit of this package or of another (R84, R332). -/
def signalUnit (d ep : Nat) (tk : Fin 64) (s : State) : State :=
  if epCoord ep = s.coord then
    if epTile ep < 768 then arriveToken (epDie ep * 768 + epTile ep) (s.dieTags.getD d 0) tk 1 s
    else arriveCore (epDie ep) (epTile ep - 768) (s.dieTags.getD d 0) tk 1 (endpoint s d 768) s
  else
    sendMsg d none { type := 4, dst := BitVec.ofNat 24 ep, src := BitVec.ofNat 24 (endpoint s d 768), stag := s.dieTags.getD d 0,
                     body := BitVec.ofNat 256 (atBit 240 1 + atBit 234 tk.val) } s

/-- The root writes the result, signals NOTIFY, and its layer may be reduced (R332, R350). -/
def rootDone (i : Nat) (n : Node) (groups : List (List Int × Nat)) (s : State) : State :=
  let s := allOf ((List.range n.groups).zip groups) (fun p s => writeGroup n p.1 p.2.1 p.2.2 s) s
  let s := setNodeRt i { s.nodeRt i with sent := true } s
  let s := signalUnit n.die n.notify n.ntk s
  let roots := (List.range s.job.nodes.length).filter (fun j => match s.job.nodes[j]? with
    | some m => m.root && m.layer == n.layer
    | none => false)
  if roots.all (fun j => (s.nodeRt j).sent) then bumpReg 0x502009 1 s else s

/-! ### Leaves -/

/-- A leaf's values at the agreed codes: SUM at width 16, or ONEBIT with its error memory written (R330, R337, R338). -/
def leafSums (i : Nat) (n : Node) (a : Nat → Nat) (s : State) : State :=
  let gs := List.range n.groups
  if n.onebit then
    let live := errorAddr n (liveHalf s)
    let pend := errorAddr n (1 - liveHalf s)
    let rs := gs.map (fun g => oneBit (groupVals s n.gaddr g) (groupVals s live.1 g) (codeAt s n.caddr g) (codeAt s live.2 g) (a g))
    let s := allOf (gs.zip rs) (fun p s =>
      let g := p.1
      if a g = 0xFF then
        putMem (pend.2 + g) (s.bytes (live.2 + g) 1) (putMem (pend.1 + 128 * g) (s.bytes (live.1 + 128 * g) 128) s)
      else
        let vs := p.2.2.2.2.2.map (fun x => ofInt x ((a g : Int) - 127) false)
        let c := chooseCode (natNum 32767) true vs
        putMem (pend.2 + g) [BitVec.ofNat 8 c.1] (putMem (pend.1 + 128 * g) (vs.flatMap (fun v => leBytes 2 (convG16 c.1 v).bits)) s)) s
    let s := bumpReg (dieKey n.die 0x81A007) (rs.filter (fun r => r.2.2.1)).length s
    let ms := (groupRuns n.groups 32).map (fun r =>
      let part := (rs.drop r.1).take r.2
      ({ op := 4, leafin := true, ngrp := r.2, layer := BitVec.ofNat 16 n.layer, shard := BitVec.ofNat 16 n.shard,
         group := BitVec.ofNat 32 r.1, csrc := BitVec.ofNat 16 n.nodeId,
         data := sliceBytes (part.flatMap (fun x => leBytes 8 x.1)) 0 256 ++ padSlots (part.flatMap (fun x => leBytes 2 x.2.1))
           ++ padSlots (part.map (fun x => BitVec.ofNat 8 (tally x.2.2.2.1))) } : ReduceMsg))
    sendUp i n (ms ++ [hashMsg n (leafHash s n)]) s
  else
    let vals := gs.map (fun g => (groupVals s n.gaddr g).map (reexpress (codeAt s n.caddr g) (a g)))
    let zeros := gs.flatMap (fun g => (groupVals s n.gaddr g).filter (fun x => x != 0 && reexpress (codeAt s n.caddr g) (a g) x == 0))
    sendUp i n (sumMsgs n false vals ++ [hashMsg n (leafHash s n)]) (bumpReg (dieKey n.die 0x81A005) zeros.length s)

/-- A leaf begins (R328, R336): CODES, or RAW and HASH on a flat tree, or at once the result of a tree of one. -/
def leafStart (i : Nat) (n : Node) (s : State) : State :=
  let gs := List.range n.groups
  let codes := gs.map (leafCode s n)
  let bad := badStack s n.gaddr (128 * n.groups) || badStack s n.caddr n.groups
  let s := if bad then
      stackUncorrectable n.die 768 ((s.bad.find? (fun b => decide (n.gaddr < b + 64) && decide (b < n.gaddr + 128 * n.groups))).getD n.caddr) s
    else s
  let s := if codes.contains 0xFF then { s with step := { s.step with gradNF := true } } else s
  if n.root then rootDone i n (gs.map (fun g => (groupVals s n.gaddr g, codeAt s n.caddr g))) s
  else if n.flat && !n.onebit then sendUp i n (rawMsgs s n ++ [hashMsg n (leafHash s n)]) s
  else sendUp i n (codeMsgs 1 n codes) s

/-! ### Nodes -/

/-- The member position that a contributor number belongs to (R327). -/
def contributorPos (s : State) (c : Nat) : Option Nat :=
  let d := s.descr
  let ix := c / 4
  let coord := ix / (d.ny * d.nz) * 256 + ix / d.nz % d.ny * 16 + ix % d.nz
  (List.range d.positions.length).find? (fun p => match d.positions[p]? with
    | some e => !e.spare && e.coord == coord
    | none => false)

/-- Is a leaf child covered by the Catcher plan (R340)? -/
def covered (s : State) (n : Node) (c : ChildIn) : Bool :=
  c.leafin && !n.onebit && !s.job.shapeFree && s.reg 0x502002 == 1
    && (match contributorPos s c.csrc with
        | some p => s.job.catcher.any (fun e => e.members.contains p)
        | none => false)

/-- Are all codes of a child here? -/
def codesFull (n : Node) (c : ChildIn) : Bool := (List.range n.groups).all (fun g => (smFind c.codes g).isSome)

/-- Is the whole input of a child here and usable: every group, and its HASH where it must be awaited (R336, R340)? -/
def inputFull (s : State) (n : Node) (c : ChildIn) : Bool :=
  (List.range n.groups).all (fun g => (smFind c.vals g).isSome) && (c.hash.isSome || !((n.flat && !n.onebit) || covered s n c || c.catch_))

/-- The input that counts for each child: the real one, or the Catcher copy that was taken (R340). -/
def effective (r : NodeRt) : List ChildIn :=
  r.children.filter (fun c => if c.catch_ then r.taken.contains c.csrc else !(c.leafin && r.taken.contains c.csrc))

/-- Dies that the node's children lie on. -/
def childEnds (r : NodeRt) : List Nat := ((effective r).map (fun c => c.src / 1024 * 1024 + 768)).dedup

/-- Send agreed codes down (R329). -/
def sendAgreed (n : Node) (r : NodeRt) (a : List Nat) (s : State) : State :=
  allOf (childEnds r) (fun ep s => allOf (codeMsgs 2 { n with leaf := false } a) (fun m s => sendReduce n.die ep m s) s) s

/-- The agreed code of a group at a node. -/
def agreedAt (n : Node) (r : NodeRt) (g : Nat) : Nat :=
  if n.flat && !n.onebit then ((effective r).map (fun c => smGetD c.codes g 0)).foldl max 0 else smGetD r.agreed g 0

/-- A child's values of a group at the agreed code. -/
def childVals (n : Node) (c : ChildIn) (a g : Nat) : List Int :=
  let v := (smGetD c.vals g ([], 0)).1
  if n.flat && !n.onebit then v.map (reexpress (smGetD c.codes g 0) a) else v

/-- Element-wise integer sum. -/
def addInts (xs ys : List Int) : List Int := (xs.zip ys).map (fun p => p.1 + p.2)

/-- Move a node on as far as its inputs allow: codes up or agreed, then sums up or written (R329, R331, R332). -/
def progress (i : Nat) (n : Node) (s : State) : State :=
  let r := s.nodeRt i
  let live := effective r
  let s := if r.codesSent || (n.flat && !n.onebit) || decide (live.length < n.nchild) || !live.all (codesFull n) then s
    else
      let a := (List.range n.groups).map (fun g => (live.map (fun c => smGetD c.codes g 0)).foldl max 0)
      let s := setNodeRt i { r with codesSent := true, agreed := if n.root then (List.range n.groups).zip a else r.agreed } s
      if n.root then sendAgreed n r a (bumpReg (dieKey n.die 0x81A006) (a.count 0xFF) s)
      else sendUp i n (codeMsgs 1 n a) s
  let r := s.nodeRt i
  let live := effective r
  if r.sent || decide (live.length < n.nchild) || !live.all (inputFull s n) then s
  else
    let gs := List.range n.groups
    let sums := gs.map (fun g =>
      let a := agreedAt n r g
      ((live.map (fun c => childVals n c a g)).foldl addInts (List.replicate 64 0), a))
    if n.root then
      let s := if n.flat && !n.onebit then bumpReg (dieKey n.die 0x81A006) ((sums.map (fun p => p.2)).count 0xFF) s else s
      rootDone i n sums s
    else sendUp i n (sumMsgs n true (sums.map (fun p => p.1))) (setNodeRt i { s.nodeRt i with sent := true } s)

/-! ### Arrivals -/

/-- Index of the non-leaf position of a tree on a die (R326). -/
def nodeAt (s : State) (d layer shard : Nat) : Option Nat :=
  (List.range s.job.nodes.length).find? (fun j => match s.job.nodes[j]? with
    | some n => n.die == d && n.layer == layer && n.shard == shard && !n.leaf
    | none => false)

/-- A message that cannot be placed (R325): counted, 0x400C. -/
def noPosition (d : Nat) (s : State) : State := raiseAt 0x400C d 768 0 8 (bumpReg (dieKey d 0x81A00B) 1 s)

/-- The input of a message's sender at a node. -/
def childOf (r : NodeRt) (m : ReduceMsg) : Option ChildIn :=
  r.children.find? (fun c => c.leafin == m.leafin && c.csrc == m.csrc.toNat && c.catch_ == m.catch_)

/-- The same, begun where it is new. -/
def childFor (r : NodeRt) (m : ReduceMsg) : ChildIn :=
  (childOf r m).getD { leafin := m.leafin, csrc := m.csrc.toNat, catch_ := m.catch_, src := m.src.toNat }

/-- Is a new sender beyond NCHILD, counted by distinct CSRC (R325)? -/
def beyondChildren (n : Node) (r : NodeRt) (m : ReduceMsg) : Bool :=
  let known := ((r.children.map (fun c => (c.leafin, c.csrc))).dedup)
  !known.contains (m.leafin, m.csrc.toNat) && decide (n.nchild ≤ known.length)

/-- Put a child's input into a node. -/
def putChild (r : NodeRt) (c : ChildIn) : NodeRt :=
  { r with children := r.children.filter (fun x => !(x.leafin == c.leafin && x.csrc == c.csrc && x.catch_ == c.catch_)) ++ [c] }

/-- KiB that the inputs of a die's nodes take. -/
def bufferKiB (s : State) (d : Nat) : Nat :=
  ((s.reduce.nodes.filter (fun p => ((s.job.nodes[p.1]?).map (fun n => decide (n.die = d))).getD false)).flatMap
    (fun p => p.2.children.map (fun c => c.vals.length * 256 + c.codes.length))).foldl (· + ·) 0 / 1024

/-- A second residue mismatch (R334): 0x7004 names the sender's die; the package votes cause 8 and names the engine. -/
def residueFailed (src : Nat) (layer shard : Nat) (s : State) : State :=
  let s := raiseUnit 0x7004 (src / 1024 * 1024 + 768) 0 (atBit 16 layer + shard) s
  abortAttempt 8 { s with step := { s.step with engine := some (epCoord src, epDie src) } }

/-- Values of a SUM, RAW or ONEBIT message by group, with their tallies (R335). -/
def msgGroups (m : ReduceMsg) : List (List Int × Nat) :=
  let w := if m.op = 3 && m.width then 4 else 2
  let tallyOff := if m.op = 4 then 320 else m.ngrp * 64 * w
  (List.range m.ngrp).map (fun i =>
    let vals := if m.op = 4 then
        let sign := leAt m.data (8 * i) 8
        let mag := leAt m.data (256 + 2 * i) 2
        (List.range 64).map (fun j => if bitAt sign j then -(mag : Int) else mag)
      else (List.range 64).map (fun j => signExt (8 * w) (leAt m.data ((64 * i + j) * w) w))
    (vals, leAt m.data (tallyOff + i) 1))

/-- CODES (R329) at a node. -/
def takeCodes (i : Nat) (n : Node) (m : ReduceMsg) (s : State) : State :=
  let r := s.nodeRt i
  if beyondChildren n r m then noPosition n.die s
  else
    let c := childFor r m
    let new := (List.range (min m.data.length (n.groups - m.group.toNat))).foldl (fun cs j => smPut cs (m.group.toNat + j) (leAt m.data j 1)) c.codes
    progress i n (setNodeRt i (putChild r { c with codes := new }) s)

/-- SUM, RAW and ONEBIT (R331, R334, R336, R337) at a node: every group is checked against its tally before it is added. -/
def takeValues (i : Nat) (n : Node) (m : ReduceMsg) (s : State) : State :=
  let r := s.nodeRt i
  if beyondChildren n r m then noPosition n.die s
  else
    let c := childFor r m
    let gs := (List.range m.ngrp).zip (msgGroups m)
    if gs.any (fun p => tally p.2.1 != p.2.2) then
      let s := bumpReg (dieKey n.die 0x81A002) 1 s
      if c.retried.contains m.group.toNat then residueFailed m.src.toNat m.layer.toNat m.shard.toNat s
      else
        let s := setNodeRt i (putChild r { c with retried := c.retried ++ [m.group.toNat] }) (bumpReg (dieKey n.die 0x81A004) m.ngrp s)
        sendReduce n.die m.src.toNat { m with op := 7, width := false, data := [], catch_ := m.catch_ } s
    else
      let fresh := gs.filter (fun p => (smFind c.vals (m.group.toNat + p.1)).isNone && decide (m.group.toNat + p.1 < n.groups))
      let vals := fresh.foldl (fun v p => smPut v (m.group.toNat + p.1) p.2) c.vals
      let codes := if m.op = 6 then
          (List.range m.ngrp).foldl (fun cs j => smPut cs (m.group.toNat + j) (leAt m.data (m.ngrp * 128 + 64 + j) 1)) c.codes
        else c.codes
      let s := setNodeRt i (putChild r { c with vals := vals, codes := codes }) (bumpReg (dieKey n.die 0x81A001) fresh.length s)
      progress i n (highReg (dieKey n.die 0x81A008) (bufferKiB s n.die) s)

/-- HASH (R340, R342) at a node: the contribution has ended; a real one and its Catcher copy are compared. -/
def takeHash (i : Nat) (n : Node) (m : ReduceMsg) (s : State) : State :=
  let r := s.nodeRt i
  if beyondChildren n r m then noPosition n.die s
  else
    let c := { childFor r m with hash := some (leAt m.data 0 8) }
    let s := setNodeRt i (putChild r c) s
    let other := r.children.find? (fun x => x.leafin == c.leafin && x.csrc == c.csrc && x.catch_ != c.catch_ && x.hash.isSome)
    let s := match other with
      | none => s
      | some o =>
        if o.hash = c.hash then bumpReg 0x502006 1 s
        else
          let op := atBit 16 n.layer + n.shard
          let s := raiseUnit 0x7005 (o.src / 1024 * 1024 + 768) 0 op (bumpReg 0x502007 1 s)
          let x : Mismatch := { step := s.stepNo, attempt := s.step.attempt, real := if c.catch_ then o.src else c.src, copy := if c.catch_ then c.src else o.src, op := op }
          let s := { s with step := { s.step with mismatches := s.step.mismatches ++ [x] } }
          abortAttempt 8 (raiseUnit 0x7005 (c.src / 1024 * 1024 + 768) 0 op s)
    progress i n s

/-- AGREED (R329, R330) at the positions of a die whose parent lies on the sender's die. -/
def takeAgreed (d : Nat) (m : ReduceMsg) (s : State) : State :=
  let here := (List.range s.job.nodes.length).filter (fun j => match s.job.nodes[j]? with
    | some n => n.die == d && n.layer == m.layer.toNat && n.shard == m.shard.toNat && !n.root && n.parent / 1024 == m.src.toNat / 1024
    | none => false)
  if here = [] then noPosition d s
  else
    allOf here (fun j s =>
      match s.job.nodes[j]? with
      | none => s
      | some n =>
        let r := s.nodeRt j
        let a := (List.range (min m.data.length (n.groups - m.group.toNat))).foldl (fun cs k => smPut cs (m.group.toNat + k) (leAt m.data k 1)) r.agreed
        let full := (List.range n.groups).all (fun g => (smFind a g).isSome)
        let s := setNodeRt j { r with agreed := a } s
        if !full || r.sent then s
        else if n.leaf then leafSums j n (fun g => smGetD a g 0) (setNodeRt j { s.nodeRt j with sent := true } s)
        else progress j n (sendAgreed n r ((List.range n.groups).map (fun g => smGetD a g 0)) s)) s

/-- RESEND (R334): the position named sends the range again from its buffer. -/
def takeResend (d : Nat) (m : ReduceMsg) (s : State) : State :=
  let here := (List.range s.job.nodes.length).find? (fun j => match s.job.nodes[j]? with
    | some n => n.die == d && n.layer == m.layer.toNat && n.shard == m.shard.toNat && n.leaf == m.leafin && n.nodeId == m.csrc.toNat
    | none => false)
  match here.bind (fun j => (s.job.nodes[j]?).map (fun n => (j, n))) with
  | none => noPosition d s
  | some (j, n) =>
    let ms := (s.nodeRt j).kept.filter (fun k => (k.op == 3 || k.op == 4 || k.op == 6) && decide (k.group.toNat < m.group.toNat + m.ngrp)
      && decide (m.group.toNat < k.group.toNat + k.ngrp))
    allOf ms (fun k s => sendReduce n.die m.src.toNat k s) s

/-! ### Replicated tables -/

/-- Endpoint of contributor number `c` (R327). -/
def contributorEp (s : State) (c : Nat) : Nat :=
  let d := s.descr
  let ix := c / 4
  (ix / (d.ny * d.nz) * 256 + ix / d.nz % d.ny * 16 + ix % d.nz) * 4096 + c % 4 * 1024 + 768

/-- Contributor number of a die of this package. -/
def contributorOf (s : State) (d : Nat) : Nat :=
  let t := s.descr
  4 * ((s.coord / 256 * t.ny + s.coord / 16 % 16) * t.nz + s.coord % 16) + d

/-- Contributors of the installation (R345). -/
def contributorCount (s : State) : Nat := let d := s.descr; 4 * (d.nx * d.ny * d.nz)

/-- The reduction of a table on a die. -/
def State.tableRed (s : State) (table d : Nat) : TableRed := smGetD s.reduce.tables (table * 4 + d) {}

/-- Replace it. -/
def setTableRed (table d : Nat) (r : TableRed) (s : State) : State :=
  { s with reduce := { s.reduce with tables := smPut s.reduce.tables (table * 4 + d) r } }

/-- The chunks of a copy's merged rows (R345): 64 elements each, as G16 at the code R151 chooses. -/
def tableChunks (merged : List (Nat × List Nat)) : List (Nat × TableChunk) :=
  merged.flatMap (fun p =>
    let cs := chunksOf 64 (p.2.map (decodeFloat ffF32))
    ((List.range cs.length).zip cs).map (fun q =>
      let c := (chooseCode (natNum 32767) true q.2).1
      (p.1, { group := 16 * p.1 + q.1, code := c,
              vals := q.2.map (fun v => if c = 0xFF then 0 else signExt 16 (convG16 c v).bits) })))

/-- A copy sends its merged rows to their roots and ends each contribution with HASH (R345). -/
def sendTable (table d : Nat) (merged : List (Nat × List Nat)) (s : State) : State :=
  let total := contributorCount s
  let cs := tableChunks merged
  let base : ReduceMsg := { op := 6, leafin := true, layer := BitVec.ofNat 16 (0x8000 + table), shard := 0, csrc := BitVec.ofNat 16 (contributorOf s d) }
  allOf (List.range total) (fun root s =>
    let mine := (cs.filter (fun c => decide (c.1 % total = root))).map (fun c => c.2)
    let s := allOf mine (fun c s =>
      let data := valBytes 2 [c.vals] ++ padSlots [BitVec.ofNat 8 (tally c.vals)] ++ padSlots [BitVec.ofNat 8 c.code]
      sendReduce d (contributorEp s root) { base with group := BitVec.ofNat 32 c.group, data := data } s) s
    let data := padSlots (leBytes 8 (chash (mine.map (fun c => c.code)) (mine.flatMap (fun c => c.vals))))
    sendReduce d (contributorEp s root) { base with op := 5, data := data } s) s

/-- The root of a table's rows has every contribution: it sums each chunk and sends it to every copy (R345). -/
def finishTable (table d : Nat) (r : TableRed) (s : State) : State :=
  let all_ := r.parts.flatMap (fun p => p.chunks)
  let groups := sortNats ((all_.map (fun c => c.group)).dedup)
  let base : ReduceMsg := { op := 3, layer := BitVec.ofNat 16 (0x8000 + table), shard := 0, csrc := BitVec.ofNat 16 (contributorOf s d) }
  allOf (List.range (contributorCount s)) (fun copy s =>
    let ep := contributorEp s copy
    let s := allOf groups (fun g s =>
      let mine := all_.filter (fun c => decide (c.group = g))
      let a := (mine.map (fun c => c.code)).foldl max 0
      let sum := (mine.map (fun c => c.vals.map (reexpress c.code a))).foldl addInts (List.replicate 64 0)
      let s := sendReduce d ep { base with op := 2, group := BitVec.ofNat 32 g, data := padSlots [BitVec.ofNat 8 a] } s
      let data := valBytes 4 [sum] ++ padSlots [BitVec.ofNat 8 (tally sum)]
      sendReduce d ep { base with width := true, group := BitVec.ofNat 32 g, data := data } s) s
    sendReduce d ep { base with op := 5, data := padSlots [] ++ List.replicate 64 0 } s) s

/-- A REDUCE message of a replicated table (R345). -/
def takeTable (d : Nat) (m : ReduceMsg) (s : State) : State :=
  let table := m.layer.toNat - 0x8000
  let r := s.tableRed table d
  if m.leafin then
    let p := (r.parts.find? (fun p => decide (p.from_ = m.csrc.toNat))).getD { from_ := m.csrc.toNat }
    let put := fun (p : TablePart) => { r with parts := r.parts.filter (fun q => decide (q.from_ ≠ p.from_)) ++ [p] }
    if m.op = 6 then
      let g := (msgGroups { m with ngrp := 1 }).headD ([], 0)
      if tally g.1 ≠ g.2 then residueFailed m.src.toNat m.layer.toNat m.shard.toNat (bumpReg (dieKey d 0x81A002) 1 s)
      else
        let c : TableChunk := { group := m.group.toNat, code := leAt m.data 192 1, vals := g.1 }
        setTableRed table d (put { p with chunks := p.chunks ++ [c] }) (bumpReg (dieKey d 0x81A001) 1 s)
    else
      let r := put { p with ended := true }
      let s := setTableRed table d r s
      if contributorCount s ≤ (r.parts.filter (fun q => q.ended)).length then finishTable table d r s else s
  else
    match m.op with
    | 2 => setTableRed table d { r with reduced := r.reduced ++ [{ group := m.group.toNat, code := leAt m.data 0 1, vals := [] }] } s
    | 3 =>
      let g := (msgGroups { m with ngrp := 1 }).headD ([], 0)
      if tally g.1 ≠ g.2 then residueFailed m.src.toNat m.layer.toNat m.shard.toNat (bumpReg (dieKey d 0x81A002) 1 s)
      else setTableRed table d { r with reduced := r.reduced.map (fun c => if c.group = m.group.toNat then { c with vals := g.1 } else c) } s
    | _ => setTableRed table d { r with roots := r.roots ++ [m.csrc.toNat] } s

/-! ### The engine -/

/-- Apply a REDUCE message at a die (R325). -/
def applyReduce (d : Nat) (m : ReduceMsg) (s : State) : State :=
  if 0x8000 ≤ m.layer.toNat then takeTable d m s
  else if m.op = 2 then takeAgreed d m s
  else if m.op = 7 then takeResend d m s
  else
    match (nodeAt s d m.layer.toNat m.shard.toNat).bind (fun i => (s.job.nodes[i]?).map (fun n => (i, n))) with
    | none => noPosition d s
    | some (i, n) =>
      match m.op with
      | 1 => takeCodes i n m s
      | 3 => takeValues i n m s
      | 4 => takeValues i n m s
      | 5 => takeHash i n m s
      | 6 => takeValues i n m s
      | _ => noPosition d s

/-- Work through the messages between positions of the package. -/
def drainReduce : Nat → State → State
  | 0, s => s
  | n + 1, s =>
    match s.reduce.queue with
    | [] => s
    | (d, m) :: q => drainReduce n (applyReduce d m { s with reduce := { s.reduce with queue := q } })

/-- Room for every message one command can set off within a package. -/
def reduceFuel : Nat := 1000000

/-- A REDUCE message arrives at a die with its step tag (R86, R335): applied, held for the next step, or discarded. -/
def arriveReduce (d : Nat) (m : ReduceMsg) (s : State) : State :=
  let cur := s.dieTags.getD d 0
  if m.stag = cur then drainReduce reduceFuel (applyReduce d m s)
  else if m.stag = nextTag cur then { s with reduce := { s.reduce with held := s.reduce.held ++ [(d, m)] } }
  else bumpReg (dieKey d 0x806003) 1 s

/-- Every layer of the package is ready (R328). -/
def layersReady (s : State) : Bool :=
  s.job.layers.all (fun l => (List.range 4).all (fun d => decide (nth l.ready d ≤ smGetD s.layerReady (d * 65536 + l.layer) 0)))

/-- The member whose contributions a spare computes at this step (R339). -/
def catchMember (s : State) : Option Nat :=
  (s.job.catcher.find? (fun e => decide (e.spare = s.pos))).bind (fun e => e.members[(s.stepNo + s.reg 0x502004) % max 1 e.members.length]?)

/-- The leaves that start: all of the package's, or on a spare those of the member it covers (R339). -/
def startingLeaf (s : State) (n : Node) : Bool :=
  n.leaf && (if s.life = .spare then (contributorPos s n.nodeId).isSome && contributorPos s n.nodeId == catchMember s && !n.onebit else true)

/-! ### Gradient noise (R248) -/

/-- F64. -/
def ffF64 : FFmt := { ew := 11, fw := 52, bias := 1023 }

/-- F64 sum, to nearest with ties to even. -/
def add64 (a b : Nat) : Nat := (roundTo ffF64 .even (addNum .even (decodeFloat ffF64 a) (decodeFloat ffF64 b))).1

/-- A span's share of a squared norm: the exact sum of squares in F64, times 2^(2(E - 127)); NaN for a span coded 0xFF. -/
def spanNorm (e : Nat) (g : List Int) : Nat :=
  if e = 0xFF then canonNaN ffF64
  else
    let n : Nat := g.foldl (fun (acc : Nat) x => acc + x.natAbs * x.natAbs) 0
    let x := (roundTo ffF64 .even (natNum n)).1
    (roundTo ffF64 .even (scaleNum (decodeFloat ffF64 x) (2 * ((e : Int) - 127)))).1

/-- The norm of the groups of some positions, in ascending die and then ascending address order. -/
def groupsNorm (s : State) (ns : List Node) : Nat :=
  let order := sortBy (fun (a b : Node) => decide (a.die < b.die) || (a.die == b.die && decide (a.gaddr < b.gaddr))) ns
  (order.flatMap (fun n => (List.range n.groups).map (fun i => spanNorm (codeAt s n.caddr i) (groupVals s n.gaddr i)))).foldl add64 0

/-- REDUCTION_START (R328): with every layer ready, leaves begin in the reduction order, and the copies of replicated
tables send their merged rows (R345). -/
def opReductionStart (s : State) : State :=
  if s.step.phase = .attempt ∧ !s.reduce.started ∧ layersReady s ∧ (s.life = .running ∨ s.life = .spare) then
    let gs := groupsNorm s (s.job.nodes.filter (fun n => n.leaf))
    let s := { s with reduce := { s.reduce with started := true }, step := { s.step with gs := gs } }
    let order := (sortBy (fun (a b : LayerEntry) => decide (a.order < b.order)) s.job.layers).map (fun l => l.layer)
    let ixs := order.flatMap (fun l => (List.range s.job.nodes.length).filter (fun j => match s.job.nodes[j]? with
      | some n => startingLeaf s n && n.layer == l
      | none => false))
    let s := allOf ixs (fun j s => match s.job.nodes[j]? with
      | some n =>
        let s := leafStart j n s
        if s.life = .spare then bumpReg (dieKey n.die 0x81A00A) 1 s else s
      | none => s) s
    let tabs := s.tables.shards.filter (fun p => p.2.mergedBy.isSome && decide (p.1 = shardKey p.2.table 0 p.2.die)
      && (match readTable { s := s, remote := [] } p.2.die p.2.table with
          | .ok t => t.replicated && t.opt != 0
          | .error _ => false))
    let s := if s.life = .spare then s else allOf tabs (fun p s => sendTable p.2.table p.2.die p.2.merged s) s
    drainReduce reduceFuel s
  else s

def execReductionStart (s : State) : Host.Outcome State Fault Refusal := .next (powered opReductionStart s)

/-- A REDUCE message reaches a die of the running package. -/
def opReduceMsg (op : Nat) (d : Fin 4) (m : ReduceMsg) (s : State) : State :=
  if tilesLive s then arriveReduce d { m with op := op } s else s

/-- CODES (R329). -/
def execCodes (d : Fin 4) (m : ReduceMsg) (s : State) : Host.Outcome State Fault Refusal := .next (powered (opReduceMsg 1 d m) s)

/-- AGREED (R329, R330). -/
def execAgreed (d : Fin 4) (m : ReduceMsg) (s : State) : Host.Outcome State Fault Refusal := .next (powered (opReduceMsg 2 d m) s)

/-- SUM (R331). -/
def execSum (d : Fin 4) (m : ReduceMsg) (s : State) : Host.Outcome State Fault Refusal := .next (powered (opReduceMsg 3 d m) s)

/-- ONEBIT (R337). -/
def execOnebit (d : Fin 4) (m : ReduceMsg) (s : State) : Host.Outcome State Fault Refusal := .next (powered (opReduceMsg 4 d m) s)

/-- HASH (R342). -/
def execHash (d : Fin 4) (m : ReduceMsg) (s : State) : Host.Outcome State Fault Refusal := .next (powered (opReduceMsg 5 d m) s)

/-- RAW (R336). -/
def execRaw (d : Fin 4) (m : ReduceMsg) (s : State) : Host.Outcome State Fault Refusal := .next (powered (opReduceMsg 6 d m) s)

/-- RESEND (R334). -/
def execResend (d : Fin 4) (m : ReduceMsg) (s : State) : Host.Outcome State Fault Refusal := .next (powered (opReduceMsg 7 d m) s)

/-! ### Catchers -/

/-- Take the Catcher copy of a child (R340): counted, 0x9005. -/
def takeCatcher (i : Nat) (n : Node) (c : ChildIn) (s : State) : State :=
  let r := s.nodeRt i
  let s := raiseAt 0x9005 n.die 768 0 (atBit 16 n.layer + n.shard) (bumpReg 0x502005 1 s)
  let s := if c.lost then bumpReg 0x502008 1 s else s
  progress i n (setNodeRt i { r with taken := r.taken ++ [c.csrc] } s)

/-- The first complete copy of a child, when its real input is not complete (R340). -/
def catcherCopy (s : State) (n : Node) (r : NodeRt) (csrc : Nat) : Option ChildIn :=
  r.children.find? (fun x => x.catch_ && x.csrc == csrc && (inputFull s n x || (!r.codesSent && !n.flat && codesFull n x)))

/-- CATCHER_DEADLINE (R340): every other child is complete and the deadline has passed. -/
def opCatcherDeadline (d : Fin 4) (layer shard : BitVec 16) (s : State) : State :=
  match (nodeAt s d layer.toNat shard.toNat).bind (fun i => (s.job.nodes[i]?).map (fun n => (i, n))) with
  | none => s
  | some (i, n) =>
    let r := s.nodeRt i
    let copies := r.children.filter (fun x => x.catch_ && !r.taken.contains x.csrc)
    let late := copies.filter (fun x => match r.children.find? (fun y => !y.catch_ && y.leafin && y.csrc == x.csrc) with
      | none => true
      | some y => !inputFull s n y)
    let others := (effective r).filter (fun c => !(late.any (fun x => x.csrc == c.csrc)))
    let ready := others.all (fun c => if n.flat || r.codesSent then inputFull s n c else codesFull n c)
    if r.sent || !ready then s
    else
      drainReduce reduceFuel (allOf late (fun x s =>
        match catcherCopy s n (s.nodeRt i) x.csrc with
        | none => s
        | some _ => takeCatcher i n x s) s)

def execCatcherDeadline (d : Fin 4) (layer shard : BitVec 16) (s : State) : Host.Outcome State Fault Refusal :=
  .next (powered (fun s => drainReduce reduceFuel (opCatcherDeadline d layer shard s)) s)

/-- The inputs of children on another package are lost: its route epoch has ended or its flow has failed (R340, R343). A
complete Catcher copy is taken at once; without one the attempt is aborted with cause 8. -/
def loseInputs (lostCoord : Nat → Bool) (s : State) : State :=
  if s.step.phase ≠ .attempt then s
  else
    allOf (List.range s.job.nodes.length) (fun i s =>
      match s.job.nodes[i]? with
      | none => s
      | some n =>
        let r := s.nodeRt i
        if n.leaf || r.sent then s
        else
          let gone := r.children.filter (fun c => !c.catch_ && lostCoord (epCoord c.src) && !inputFull s n c)
          allOf gone (fun c s =>
            let c := { c with lost := true }
            let s := setNodeRt i (putChild (s.nodeRt i) c) s
            match catcherCopy s n (s.nodeRt i) c.csrc with
            | some _ => takeCatcher i n c s
            | none => abortAttempt 8 s) s) s

/-- Comparisons that are still owed before the vote (R342): a Catcher copy was taken and the real HASH is neither applied
nor lost. -/
def owesComparison (s : State) : Bool :=
  s.reduce.nodes.any (fun p => p.2.taken.any (fun c =>
    match p.2.children.find? (fun x => !x.catch_ && x.leafin && x.csrc == c) with
    | none => true
    | some x => x.hash.isNone && !x.lost))

/-- Is every reduction of the package complete: each root written, and each replicated table reduced (R235)? -/
def reductionDone (s : State) : Bool :=
  (List.range s.job.nodes.length).all (fun i => match s.job.nodes[i]? with
    | some n => !n.root || (s.nodeRt i).sent
    | none => true)
  && (s.job.nodes = [] || s.reduce.started)
  && s.reduce.tables.all (fun p => decide (contributorCount s ≤ p.2.roots.length))

/-- What an abort or a new attempt discards (R349). -/
def clearReduce (s : State) : State := { s with reduce := { held := s.reduce.held } }

end Sys2Proof.Machine
end

