-- ==== Sys2Proof/Machine/Steps.lean ====
section
/-!
DEFINITION. Attempts of a step (R62, R86, R90, R223-R228, R246, R370, R371): when one starts, what a tile takes at its step
start, the forward barrier, the watchdog, and the serving interval.
-/

namespace Sys2Proof.Machine

/-! ### When an attempt starts -/

/-- The contexts that hold a binding, or on a spare a Catcher copy of the member it covers (R370, R372). -/
def boundContexts (s : State) : List (Nat × Option Nat) :=
  if s.life = .spare then
    match catchMember s with
    | none => []
    | some m => (s.host.catches.filter (fun p => decide (p.1 / 64 = m))).map (fun p => (p.1 % 64, some m))
  else s.host.bindings.map (fun p => (p.1, none))

/-- Does a context hold its bytes for the present step (R370)? -/
def holdsBytes (s : State) (c : Nat × Option Nat) : Bool :=
  s.host.open_.any (fun r => r.op == 2 && r.ctx == c.1 && decide (r.member = c.2) && r.step == s.stepNo && r.data.isSome)

/-- Records of contexts ready for a decode step (R371): bytes present and the window taken; one for each context. -/
def readyDecodes (s : State) : List OpenRec :=
  let rs := s.host.open_.filter (fun r => r.op == 3 && r.taken && r.data.isSome)
  rs.filter (fun r => decide ((s.host.open_.find? (fun x => x.op == 3 && x.ctx == r.ctx)).map (fun x => x.cseq) = some r.cseq))

/-- Is the input of the step here (R370, R371)? A re-run has it already. -/
def inputReady (s : State) : Bool :=
  decide (0 < s.step.attempt)
    || (if s.job.serving then decide (readyDecodes s ≠ []) || s.step.intervalDue else (boundContexts s).all (holdsBytes s))

/-- Is the capture of the last checkpoint still to complete before this step (R414)? -/
def captureBlocks (s : State) : Bool := s.recov.gens.any (fun g => g.st == 1 && decide (g.step < s.stepNo))

/-- May an attempt begin (R55, R317, R339, R370, R371, R414, R424, R425)? With a HOLD asked for no new step begins (R407). -/
def startAllowed (s : State) : Bool :=
  runsTiles s && (s.step.phase == .idle || s.step.phase == .decided) && s.retireQ.isEmpty && !s.step.epochWait
    && !captureBlocks s && !journalLags s && !undoWaits s && inputReady s && !anyTransfer s && !(s.step.holdAsked && s.step.attempt == 0)
    && s.recov.asking.isNone && !s.recov.adopting

/-- Bits 15:0 of the mode word but for CTXON (R225). -/
def modeBits (s : State) : Nat :=
  atBit 10 s.step.bsel.toNat + atBit 9 (boolNat s.step.wide) + atBit 8 (boolNat s.step.par) + s.step.bits.toNat

/-- The mode word of a tile (R72, R225, R371). -/
def modeWord (s : State) (k : Nat) : BitVec 32 :=
  let on := s.job.serving && s.host.open_.any (fun r => r.running && r.ctx == Config.tileContext s.job.digest k)
  BitVec.ofNat 32 (atBit 16 s.job.flags.toNat + atBit 12 (boolNat on) + modeBits s)

/-- The records that take part in the step (R371). -/
def markRunning (s : State) : State :=
  let ready := (readyDecodes s).map (fun r => r.cseq)
  { s with host := { s.host with open_ := s.host.open_.map (fun r => { r with running := r.op == 3 && ready.contains r.cseq }) } }

/-- A shard's inbox and merge of an earlier attempt go (R219). -/
def clearShard (sh : Shard) : Shard := { sh with inbox := [], pages := 0, mergedBy := none, merged := [] }

/-- Apply the early arrivals that belong to a whole die: signals to its control cores, and gradient entries (R86, R240). -/
def applyEarlyDie (d : Nat) (tag : BitVec 12) (s : State) : State :=
  let q := s.early.getD d []
  let mine := q.filter (fun i => match i with
    | .core _ _ _ _ => true
    | .grad _ _ _ _ => true
    | _ => false)
  let s := { s with early := setAt s.early d (q.filter (fun i => !mine.contains i)) }
  allOf mine (fun i s => match i with
    | .core c tk cnt src => coreSignal d c tk cnt src tag s
    | .grad key gk vals src => inboxEntry key gk vals src s
    | _ => s) s

/-- The step engine at the start of an attempt. -/
def openStep (s : State) : StepState :=
  { s.step with phase := .attempt, sinceQuiet := s.step.sinceQuiet + 1, causes := [], stopped := false, barrier := false,
                loss := none, gradNF := false, gathers := [], ownVote := none, combined := none, voteSent := false,
                decision := none, sat := 0, nonfin := 0, missing := false, since := s.now, engine := none, gs := 0,
                intervalDue := false, heldMid := false }

/-- What the last attempt left is discarded, and the tags change. -/
def openState (s : State) : State :=
  { s with step := openStep s, dieTags := List.replicate 4 (stepTag s.stepNo s.step.attempt), layerReady := [],
           tiles := s.tiles.map (fun p => (p.1, { p.2 with run := .idle })), reduce := {},
           tables := { s.tables with looks := [], repLooks := [], shards := s.tables.shards.map (fun p => (p.1, clearShard p.2)) } }

/-- Open an attempt (R91, R224, R225), and show its number and mode. -/
def openAttempt (s : State) : State :=
  let s := openState (if s.step.attempt = 0 then returnPlanes (markRunning s) else s)
  setReg 0x500002 (s.step.sinceQuiet - 1) (setReg 0x500009 (atBit 16 s.job.flags.toNat + modeBits s) (setReg 0x501003 s.step.bits.toNat s))

/-- Apply what was held for the attempt now open: early arrivals, and contributions to reductions (R86, R240, R333). -/
def applyHeld (held : List (Nat × ReduceMsg)) (s : State) : State :=
  let s := if s.step.attempt = 0 then allOf (List.range 4) (fun d s => applyEarlyDie d (stepTag s.stepNo s.step.attempt) s) s else s
  allOf held (fun p s => arriveReduce p.1 p.2 s) s

/-- Begin an attempt. -/
def beginAttempt (s : State) : State :=
  let s := applyHeld s.reduce.held (openAttempt s)
  let s := if s.step.attempt = 0 then { s with recov := { s.recov with interval := s.reg 0x600001 } } else s
  if s.gal.unresolved then abortAttempt 10 s else s

/-! ### A tile's step start -/

/-- Reload a half of the instruction store from the step-start image where another segment was loaded last (R90). -/
def reloadHalf (k half : Nat) (s : State) : State :=
  let t := s.tile k
  if nth t.lastSeg half = nth t.startSeg half then s
  else
    let lo := k * 8192 + 4096 * half
    let img := s.startImg.filter (fun p => decide (lo ≤ p.1) && decide (p.1 < lo + 4096))
    let st := s.store.takeWhile (fun p => decide (p.1 < lo)) ++ img ++ s.store.filter (fun p => decide (lo + 4096 ≤ p.1))
    bumpReg (dieKey (keyDie k) 0x806007) 1 (setTile k { t with lastSeg := setAt t.lastSeg half (nth t.startSeg half) } { s with store := st })

/-- The program-visible state of a tile at its step start (R62, R112, R157). -/
def freshTile (t : Tile) (tag : BitVec 12) (mode : BitVec 32) : Tile :=
  { t with run := .active, tag := tag, ia := t.entry, ptr := Vector.replicate 16 0, xreg := Vector.replicate 8 0,
           loops := Vector.replicate 4 {}, calls := [], tok := Vector.replicate 64 0, mode := mode, planes := Vector.replicate 8 {},
           groups := [], tables := Vector.replicate 4 [], flags := {}, encore := 0, atBarrier := false, outside := [] }

/-- Apply the lines and tokens held for a tile, in arrival order (R86). -/
def applyEarlyTile (k : Nat) (s : State) : State :=
  let d := keyDie k
  let q := s.early.getD d []
  let mine := q.filter (fun i => match i with
    | .line t _ _ => t == keyTile k
    | .token t _ _ => t == keyTile k
    | _ => false)
  let s := { s with early := setAt s.early d (q.filter (fun i => !mine.contains i)) }
  allOf mine (fun i s => match i with
    | .line _ a bs => putLine k a bs s
    | .token _ tk cnt => addToken k tk cnt s
    | _ => s) s

/-- STEP_START (R62, R86, R89, R90): the first tile of the package begins the attempt; each tile enters it once. A tile
whose Shooting Gallery test is under way waits for it (R445). -/
def opStepStart (k : Nat) (s : State) : State :=
  let s := if startAllowed s then beginAttempt s else s
  let t := s.tile k
  if runsTiles s ∧ s.step.phase = .attempt ∧ s.step.causes = [] ∧ t.run = .idle ∧ t.xfers = [] ∧ !(s.gal.runs.any (fun g => g.key == k)) then
    let s := reloadHalf k 1 (reloadHalf k 0 s)
    let s := setTile k (freshTile (s.tile k) (s.dieTags.getD (keyDie k) 0) (modeWord s k)) s
    if s.step.attempt = 0 then applyEarlyTile k s else s
  else s

def execStepStart (r : TileRef) (s : State) : Host.Outcome State Fault Refusal := .next (powered (opStepStart (tileKey r)) s)

/-! ### Barrier, watchdog, interval -/

/-- Has a tile reached its backward entry with every earlier instruction complete (R227)? -/
def atBackward (t : Tile) : Bool := t.run == .active && t.ia == t.backEntry && t.xfers.isEmpty

/-- FORWARD_BARRIER (R227, R228): every tile has reported; the loss is read. -/
def opForwardBarrier (s : State) : State :=
  if runsTiles s ∧ s.step.phase = .attempt ∧ !s.step.barrier ∧ s.step.causes = [] ∧ allTiles.all (fun k => atBackward (s.tile k)) then
    let k := s.job.lossTile / 1024 * 768 + s.job.lossTile % 1024
    let loss := BitVec.ofNat 32 (s.le (tileBase k + localAddr s.job.lossAddr) 4)
    mapTiles (fun t => { t with atBarrier := true }) { s with step := { s.step with barrier := true, loss := some loss, barrierAt := s.now } }
  else s

def execForwardBarrier (s : State) : Host.Outcome State Fault Refusal := .next (powered opForwardBarrier s)

/-- STEP_WATCHDOG_EXPIRY (R246): cause 4. It is stopped in HELD and disabled at 0. -/
def opWatchdog (s : State) : State :=
  if s.life = .running ∧ s.step.phase = .attempt ∧ s.reg 0x500008 ≠ 0 then abortAttempt 4 s else s

def execStepWatchdogExpiry (s : State) : Host.Outcome State Fault Refusal := .next (powered opWatchdog s)

/-- SERVING_STEP_INTERVAL (R371): a step may start although no context is ready. -/
def opServingInterval (s : State) : State :=
  if s.life = .running ∧ s.job.serving ∧ (s.step.phase = .idle ∨ s.step.phase = .decided) then
    { s with step := { s.step with intervalDue := true } }
  else s

def execServingStepInterval (s : State) : Host.Outcome State Fault Refusal := .next (powered opServingInterval s)

/-- An attempt ends without a decision of its own (R91, R427): its tiles stop, and the step runs again as the next
attempt. -/
def dropAttempt (s : State) : State :=
  let s := mapTiles stopTile s
  clearReduce { s with step := { s.step with phase := .decided, attempt := s.step.attempt + 1, childVotes := [], ownVote := none, combined := none, heldMid := false } }

/-- Enter HELD at a step boundary: a quiescent point (R224). -/
def enterHeld (cause : Nat) (s : State) : State :=
  enter .held cause { s with step := { s.step with sinceQuiet := 0 } }

/-- MISSING_DECISION (R246, R427): 0x9004; the attempt is aborted and the package enters HELD. -/
def opMissingDecision (s : State) : State :=
  if s.life = .running ∧ s.step.phase = .voted ∧ s.reg 0x500008 ≠ 0 then
    enterHeld 0x9004 (dropAttempt (raise_ 0x9004 { s with step := { s.step with missing := true } }))
  else s

def execMissingDecision (s : State) : Host.Outcome State Fault Refusal := .next (powered opMissingDecision s)

end Sys2Proof.Machine
end

