-- ==== Sys2Proof/Machine/Gallery.lean ====
section
/-!
DEFINITION. The Shooting Gallery (R440-R446): windows, the targeted run, full runs, and what a finished test leads to.
-/

namespace Sys2Proof.Machine

/-- First byte of the gallery region in a tile's SRAM (R443). -/
def galleryBase : Nat := 0x1F_0000

/-- Is a tile's gallery region free in the job's image (R443)? -/
def galleryMarked (s : State) (k : Nat) : Bool := s.job.gallery.contains (keyDie k * 1024 + keyTile k)

/-- The segment number that the tile remembers for H1 while a test's program stands there (R90, R445). -/
def gallerySegment : Nat := 2 ^ 44

/-- Load a tile's test (R445): its program into H1, its input image into the gallery region, and the pack's scale map. -/
def loadTest (g : GalleryRun) (s : State) : State :=
  match s.gal.pack[g.test]? with
  | none => s
  | some t =>
    let s := { s with store := storeRun s.store (g.key * 8192 + 4096) t.words.length t.words }
    let s := putMem (tileBase g.key + galleryBase) t.image s
    modTile g.key (fun x => { x with lastSeg := setAt x.lastSeg 1 gallerySegment, scaleMap := t.scale }) s

/-- Give a tile tests to run; a tile that has tests already runs them after those. -/
def addTests (why k : Nat) (tests : List Nat) (s : State) : State :=
  match tests with
  | [] => s
  | t :: rest =>
    if s.gal.runs.any (fun g => g.key == k) then
      { s with gal := { s.gal with runs := s.gal.runs.map (fun g => if g.key = k then { g with todo := g.todo ++ t :: rest, why := max g.why why } else g) } }
    else
      let g : GalleryRun := { key := k, test := t, why := why, todo := rest, scale := (s.tile k).scaleMap }
      loadTest g { s with gal := { s.gal with runs := s.gal.runs ++ [g] } }

/-- The tiles of a column of a die that a window selects (R443, R444). -/
def columnTiles (s : State) (d g : Nat) : List Nat :=
  ((List.range 24).map (fun r => d * 768 + r * 32 + g)).filter (galleryMarked s)

/-- The window of some dies at a count `n` of commits (R444). -/
def galleryWindow (dies : List Nat) (n : Nat) (s : State) : State :=
  let i := s.reg 0x701002
  if s.reg 0x701001 = 0 ∨ s.gal.pack = [] ∨ n % i ≠ 0 then s
  else
    let test := n / i / 32 % s.gal.pack.length
    let tooLong := decide (s.reg 0x701003 < ((s.gal.pack[test]?).map (fun t => t.beats)).getD 0)
    let s := bumpReg 0x701006 1 s
    if tooLong then bumpReg 0x70100C 1 s
    else allOf dies (fun d s => allOf (columnTiles s d (n / i % 32)) (fun k s => addTests 0 k [test] s) s) s

/-- Windows at the commit point or skip that makes the step number `n` (R444): in a serving job each die counts the commits
of context 12d. `ran` names the contexts that this commit includes. -/
def windowsAt (n : Nat) (ran : List Nat) (s : State) : State :=
  if s.job.serving then
    allOf ((List.range 4).filter (fun d => ran.contains (12 * d))) (fun d s =>
      let c := nth s.gal.counts d + 1
      galleryWindow [d] c { s with gal := { s.gal with counts := setAt s.gal.counts d c } }) s
  else galleryWindow (List.range 4) n s

/-! ### Catcher mismatches -/

/-- The dies of this package among two named senders. -/
def namedDies (s : State) (a b : Nat) : List Nat :=
  (([a, b].filter (fun e => decide (epCoord e = s.coord))).map epDie).dedup

/-- The package votes HOLD for the step, and 0x7006 names both senders (R441). -/
def unresolved (a b op : Nat) (s : State) : State :=
  raiseUnit 0x7006 b 0 op (raiseUnit 0x7006 a 0 op { s with gal := { s.gal with named := none, unresolved := true } })

/-- A Catcher mismatch found again (R441): every tile of the named dies that has a gallery region runs every test. Where no
such tile is on this package, no test fails. -/
def targetedRun (a b op : Nat) (s : State) : State :=
  let ks := (namedDies s a b).flatMap (fun d => ((List.range 768).map (fun t => d * 768 + t)).filter (galleryMarked s))
  let tests := List.range s.gal.pack.length
  if ks = [] ∨ tests = [] then unresolved a b op s
  else allOf ks (fun k s => addTests 1 k tests s) { s with gal := { s.gal with named := some (a, b, op), failed := false } }

/-- At the end of an attempt the mismatches of earlier attempts are judged (R439, R441): one found again leads to the
targeted run; one whose repetition passed is transient at both named dies; one whose repetition was aborted for another
cause stands. -/
def judgeMismatches (cause : Nat) (s : State) : State :=
  let now := s.step.mismatches.filter (fun m => decide (m.attempt = s.step.attempt ∧ m.step = s.stepNo))
  let old := s.step.mismatches.filter (fun m => !now.contains m)
  let again := now.filter (fun m => old.any (fun o => o.step == m.step && o.real == m.real && o.copy == m.copy && o.op == m.op))
  let passed := if cause = 0 ∨ cause = 8 then old.filter (fun o => !again.any (fun m => o.real == m.real && o.copy == m.copy && o.op == m.op)) else []
  let kept := s.step.mismatches.filter (fun m => !passed.contains m)
  let s := { s with step := { s.step with mismatches := kept } }
  let s := allOf passed (fun m s => judgePassed (m.copy / 1024 * 1024 + 768) 0x7005 (judgePassed (m.real / 1024 * 1024 + 768) 0x7005 s)) s
  match again with
  | [] => s
  | m :: _ => targetedRun (m.real / 1024 * 1024 + 768) (m.copy / 1024 * 1024 + 768) m.op s

/-! ### A finished test -/

/-- The next test of a tile, or the end of its run: the job's scale map is restored (R445). -/
def nextTest (g : GalleryRun) (s : State) : State :=
  let others := s.gal.runs.filter (fun x => decide (x.key ≠ g.key))
  match g.todo with
  | [] =>
    modTile g.key (fun x => { x with scaleMap := g.scale }) { s with gal := { s.gal with runs := others } }
  | t :: rest =>
    let g := { g with test := t, rep := 0, todo := rest }
    loadTest g { s with gal := { s.gal with runs := others ++ [g] } }

/-- Repeat the test of a tile (R440). -/
def repeatTest (g : GalleryRun) (s : State) : State :=
  let g := { g with rep := g.rep + 1 }
  loadTest g { s with gal := { s.gal with runs := s.gal.runs.map (fun x => if x.key = g.key then g else x) } }

/-- What follows when no test of a targeted run is left (R441), and a HOLD that waited for the window (R453). -/
def galleryIdle (s : State) : State :=
  if s.gal.runs = [] then
    let s := match s.gal.named with
      | some (a, b, op) => if s.gal.failed then { s with gal := { s.gal with named := none } } else unresolved a b op s
      | none => s
    if s.step.holdAsked ∧ s.life = .running ∧ s.step.attempt = 0 ∧ (s.step.phase = .idle ∨ s.step.phase = .decided) then enterHeld 0xFF04 s else s
  else s

/-- GALLERY_TEST_COMPLETE (R440, R445): the test under way on a tile ends with the hash of its result lines, none where it
has not reached STEPEND within four times its declared beats. What it wrote to the result lines is undefined here. -/
def opGalleryTest (k : Nat) (hash : Option (BitVec 64)) (s : State) : State :=
  match s.gal.runs.find? (fun g => g.key == k) with
  | none => s
  | some g =>
    match s.gal.pack[g.test]? with
    | none => s
    | some t =>
      let unit := tileEp s k
      let r := freeBytes (64 * t.lines) s
      let s := modTile k (fun x => { x with groups := [] }) (putMem (tileBase k + galleryBase) r.1 r.2)
      if hash = some t.hash then
        let s := bumpReg 0x701007 1 s
        if g.rep = 0 then galleryIdle (nextTest g s)
        else if g.rep = 1 then repeatTest g s
        else galleryIdle (nextTest g (judgePassed unit 0x7007 s))
      else
        let s := raiseAt 0x7007 (keyDie k) (keyTile k) g.rep t.number (bumpReg 0x701008 1 s)
        let s := { s with gal := { s.gal with failed := true } }
        if g.rep = 0 then repeatTest g s
        else galleryIdle (nextTest { g with todo := [] } (judgePermanent unit 0x7007 s))

def execGalleryTestComplete (r : TileRef) (hash : Option (BitVec 64)) (s : State) : Host.Outcome State Fault Refusal :=
  .next (powered (opGalleryTest (tileKey r) hash) s)

/-! ### Full runs -/

/-- Is a full run in progress (R446)? -/
def fullRunning (s : State) : Bool := s.reg 0x70100B == 1

/-- RUN_FULL_PACK (R446): accepted in STANDBY, READY and HELD with a valid pack; in HELD it uses only marked tiles. -/
def opFullPack (mask : BitVec 8) (s : State) : State :=
  if fullRunning s then s
  else if (s.life = .standby ∨ s.life = .ready ∨ s.life = .held) ∧ s.gal.pack ≠ [] then
    let ks := (List.range 4).flatMap (fun d => if mask.getLsbD d then (List.range 768).map (fun t => d * 768 + t) else [])
    let ks := if s.life = .held then ks.filter (galleryMarked s) else ks
    let s := setReg 0x70100B 1 { s with gal := { s.gal with failed := false } }
    allOf ks (fun k s => addTests 2 k (List.range s.gal.pack.length) s) s
  else powered (setReg 0x70100B 4) s

def execRunFullPack (mask : BitVec 8) (s : State) : Host.Outcome State Fault Refusal := .next (powered (opFullPack mask) s)

/-- FULL_RUN_COMPLETE (R446): every test of the full run has ended. -/
def opFullRun (s : State) : State :=
  if fullRunning s ∧ !(s.gal.runs.any (fun g => g.why == 2)) then setReg 0x70100B (if s.gal.failed then 3 else 2) s else s

def execFullRunComplete (s : State) : Host.Outcome State Fault Refusal := .next (powered opFullRun s)

end Sys2Proof.Machine
end

