-- ==== Sys2Proof/Machine/Votes.lean ====
section
/-!
DEFINITION. The commit vote and the decision (R235-R239, R241, R244, R159, R161, R248, R249): forming and combining votes,
Encore, the step guard, batch steering, and the decision record.
-/

namespace Sys2Proof.Machine

/-! ### Row gradients -/

/-- The gradient of a row of a replicated table from its reduced chunks (R345): F32 values. -/
def reducedRow (r : TableRed) (row : Nat) : List Nat :=
  let cs := sortBy (fun (a b : TableChunk) => decide (a.group < b.group)) (r.reduced.filter (fun c => c.group / 16 == row))
  cs.flatMap (fun c => c.vals.map (fun v => (roundTo ffF32 .even (if c.code = 0xFF then .nan else ofInt v ((c.code : Int) - 127) false)).1))

/-- The merged gradients that a commit applies to a shard or copy, by row (R206, R208, R345). -/
def mergedRows (s : State) (sh : Shard) (t : TableDesc) : List (Nat × List Nat) :=
  if t.opt = 0 then []
  else if t.replicated then
    let r := s.tableRed sh.table sh.die
    (sortNats ((r.reduced.map (fun c => c.group / 16)).dedup)).map (fun row => (row, reducedRow r row))
  else sh.merged

/-- Learning rate and epsilon of a table (R191), as F32 bits. -/
def hyperOf (s : State) (t : TableDesc) : Nat × Nat :=
  match rdN { s := s, remote := [] } t.hyper 8 with
  | .ok n => (n % 2 ^ 32, n / 2 ^ 32)
  | .error _ => (0, 0)

/-- What the optimiser makes of a present row (R208): its slot, and the new record, none where it is not written (R209). -/
def updatedRow (s : State) (t : TableDesc) (sh : Shard) (cb : List Num) (row : Nat) (g : List Nat) : Option (Nat × Option (List Byte)) :=
  let e := s.le (entryAddr s t sh row true) 8
  if entryPresent e then
    let slot := e % 2 ^ 40
    let h := hyperOf s t
    some (slot, rowUpdate t cb h.1 h.2 (s.bytes (slotAddr s t sh slot) (recordSize t)) g)
  else none

/-- Rows that the commit would leave unwritten under R209. -/
def unwrittenRows (s : State) : Nat :=
  let skip := replacedRows s.stepNo s
  (s.tables.shards.flatMap (fun p =>
    let t := tableOf s p.2.die p.2.table
    let cb := codebookOf s t
    (mergedRows s p.2 t).filter (fun q => !skip.contains (rowKey p.2.table q.1)
      && (match updatedRow s t p.2 cb q.1 q.2 with
          | some (_, none) => true
          | _ => false)))).length

/-! ### The package's vote -/

/-- The exception flags as the field EXC (R235). -/
def excBits (f : ExcFlags) : BitVec 5 :=
  BitVec.ofNat 5 (16 * boolNat f.invalid + 8 * boolNat f.divZero + 4 * boolNat f.overflow + 2 * boolNat f.underflow + boolNat f.inexact)

/-- Is an F32 NaN or infinite? -/
def nonFinite32 (b : BitVec 32) : Bool := bitField b.toNat 30 23 == 0xFF

/-- The vote's fields from the package (R235). -/
def formVote (s : State) : Vote :=
  let rows := unwrittenRows s
  let bad := (s.tiles.filter (fun p => p.2.flags.invalid)).length
  let cause := s.step.causes.foldl (fun a c => if a = 0 then c else min a c) 0
  { step := s.stepNo, attempt := s.step.attempt % 16,
    encore := (s.tiles.map (fun p => p.2.encore)).foldl (· ||| ·) 0, exc := (s.tiles.map (fun p => excBits p.2.flags)).foldl (· ||| ·) 0,
    lossNF := (s.step.loss.map nonFinite32).getD false, gradNF := s.step.gradNF, rowNF := decide (0 < rows),
    abort := decide (s.step.causes ≠ []), cause := cause, suspV := s.step.engine.isSome,
    suspect := BitVec.ofNat 12 ((s.step.engine.map (fun e => e.1)).getD 0), susDie := BitVec.ofNat 2 ((s.step.engine.map (fun e => e.2)).getD 0),
    invalid := min (bad + rows) (2 ^ 32 - 1), gs := BitVec.ofNat 64 s.step.gs,
    gb := BitVec.ofNat 64 (groupsNorm s (s.job.nodes.filter (fun n => n.root))) }

/-- A vote as the 256 bits of R235. -/
def voteBits (v : Vote) : BitVec 256 :=
  BitVec.ofNat 256 (atBit 208 (v.step % 2 ^ 48) + atBit 204 (v.attempt % 16) + atBit 196 v.encore.toNat + atBit 191 v.exc.toNat + atBit 190 (boolNat v.lossNF)
    + atBit 189 (boolNat v.gradNF) + atBit 188 (boolNat v.rowNF) + atBit 187 (boolNat v.abort) + atBit 183 v.cause
    + atBit 182 (boolNat v.suspV) + atBit 170 v.suspect.toNat + atBit 168 v.susDie.toNat + atBit 128 v.invalid + atBit 64 v.gs.toNat + v.gb.toNat)

/-- The vote in 256 bits (R235). -/
def voteOf (b : BitVec 256) : Vote :=
  let n := b.toNat
  { step := bitField n 255 208, attempt := bitField n 207 204, encore := BitVec.ofNat 8 (bitField n 203 196), exc := BitVec.ofNat 5 (bitField n 195 191),
    lossNF := bitAt n 190, gradNF := bitAt n 189, rowNF := bitAt n 188, abort := bitAt n 187, cause := bitField n 186 183, suspV := bitAt n 182,
    suspect := BitVec.ofNat 12 (bitField n 181 170), susDie := BitVec.ofNat 2 (bitField n 169 168), invalid := bitField n 159 128,
    gs := BitVec.ofNat 64 (bitField n 127 64), gb := BitVec.ofNat 64 (bitField n 63 0) }

/-- A decision as the 128 bits of R238. -/
def decisionBits (d : Decision) : Nat :=
  atBit 80 (d.step % 2 ^ 48) + atBit 76 (d.attempt % 16) + atBit 72 d.action + atBit 56 d.nextmode.toNat + atBit 52 d.cause
  + atBit 51 (boolNat d.suspV) + atBit 39 d.suspect.toNat + atBit 37 d.susDie.toNat

/-- The decision in 128 bits (R238). -/
def decisionOf (n : Nat) : Decision :=
  { step := bitField n 127 80, attempt := bitField n 79 76, action := bitField n 75 72, nextmode := BitVec.ofNat 16 (bitField n 71 56),
    cause := bitField n 55 52, suspV := bitAt n 51, suspect := BitVec.ofNat 12 (bitField n 50 39), susDie := BitVec.ofNat 2 (bitField n 38 37) }

/-! ### The vote tree (R236) -/

/-- Coordinates of the z, y and x child of this package, where the torus has them. -/
def voteChildren (s : State) : List (Nat × Nat) :=
  let d := s.descr
  let c := s.coord
  let x := coordDim c 0
  let y := coordDim c 1
  let z := coordDim c 2
  (if z + 1 < d.nz then [(0, c + 1)] else []) ++ (if z = 0 ∧ y + 1 < d.ny then [(1, c + 16)] else [])
    ++ (if y = 0 ∧ z = 0 ∧ x + 1 < d.nx then [(2, c + 256)] else [])

/-- Coordinate of the parent; none at the coordinator. -/
def voteParent (s : State) : Option Nat :=
  let c := s.coord
  if coordDim c 2 ≠ 0 then some (c - 1) else if coordDim c 1 ≠ 0 then some (c - 16) else if coordDim c 0 ≠ 0 then some (c - 256) else none

/-- The smallest non-zero cause. -/
def minCause (a b : Nat) : Nat := if a = 0 then b else if b = 0 then a else min a b

/-- Combine a child's vote into the combiner's (R236). -/
def combineVotes (a b : Vote) : Vote :=
  let wrong := b.step != a.step || b.attempt != a.attempt
  { a with encore := a.encore ||| b.encore, exc := a.exc ||| b.exc, lossNF := a.lossNF || b.lossNF, gradNF := a.gradNF || b.gradNF,
           rowNF := a.rowNF || b.rowNF, abort := a.abort || b.abort || wrong,
           cause := minCause (minCause a.cause b.cause) (if wrong then 7 else 0),
           invalid := min (a.invalid + b.invalid) (2 ^ 32 - 1),
           gs := BitVec.ofNat 64 (add64 a.gs.toNat b.gs.toNat), gb := BitVec.ofNat 64 (add64 a.gb.toNat b.gb.toNat),
           suspV := a.suspV || b.suspV, suspect := if a.suspV then a.suspect else b.suspect, susDie := if a.suspV then a.susDie else b.susDie }

/-- Send a VOTE or DECISION message from D0 (R311). -/
def sendControl (type : BitVec 4) (coord : Nat) (body : BitVec 256) (s : State) : State :=
  sendMsg 0 none { type := type, dst := BitVec.ofNat 24 (coord * 4096 + 768), src := BitVec.ofNat 24 (endpoint s 0 768), stag := s.dieTags.getD 0 0, body := body } s

/-! ### Records of the decision -/

/-- The lowest-addressed tile of this package that flagged (R161). -/
def firstFlagged (s : State) : Nat :=
  match s.tiles.find? (fun p => p.2.encore != 0) with
  | none => 0xFFFFFF
  | some p => tileEp s p.1

/-- An entry of the main ring with a 32-byte record as its payload (R449). -/
def postRecord (kind record : Nat) (s : State) : State := trunkPost 1 kind 0 (record % 2 ^ 256) s

/-- Write an Encore record and raise its event (R161). -/
def encoreRecord (v : Vote) (outcome code : Nat) (s : State) : State :=
  let r := atBit 192 v.step + atBit 188 v.attempt + atBit 180 v.encore.toNat + atBit 172 s.step.bits.toNat + atBit 168 outcome
    + atBit 144 (firstFlagged s) + atBit 112 (min s.step.sat (2 ^ 32 - 1)) + atBit 80 (min s.step.nonfin (2 ^ 32 - 1)) + atBit 64 code
  raise_ code (setBlob 0x501006 (leBytes 32 r) (postRecord 2 r s))

/-- Write a guard record and raise 0x9003 (R241). -/
def guardRecord (v : Vote) (triggers action : Nat) (s : State) : State :=
  let r := atBit 192 v.step + atBit 188 v.attempt + atBit 183 triggers + atBit 179 action + atBit 171 s.step.bits.toNat + atBit 139 v.invalid + atBit 64 0x9003
  raise_ 0x9003 (bumpReg 0x500406 1 (setBlob 0x500407 (leBytes 32 r) (postRecord 3 r s)))

/-! ### Batch steering (R249) -/

/-- Operations of F64, to nearest with ties to even. -/
def op64 (f : Num → Num → Num) (a b : Nat) : Nat := (roundTo ffF64 .even (f (decodeFloat ffF64 a) (decodeFloat ffF64 b))).1

/-- F64 difference. -/
def sub64 (a b : Nat) : Nat := op64 (fun x y => addNum .even x (negNum y)) a b

/-- F64 of a natural number. -/
def nat64 (n : Nat) : Nat := (roundTo ffF64 .even (natNum n)).1

/-- Is an F64 finite? -/
def finite64 (a : Nat) : Bool := bitField a 62 52 != 0x7FF

/-- Is an F64 above 0? -/
def positive64 (a : Nat) : Bool := gtNum (decodeFloat ffF64 a) (natNum 0)

/-- Take a committed step's sums into the averages (R249). -/
def steerStats (v : Vote) (s : State) : State :=
  if !finite64 v.gs.toNat || !finite64 v.gb.toNat || s.job.shapeFree then s
  else
    let p := s.descr.nx * s.descr.ny * s.descr.nz
    let bigB := s.job.batches.getD s.step.bsel.toNat 0
    let b := bigB / p
    let gs := op64 divNum v.gs.toNat (nat64 (p * b * b))
    let gB := op64 divNum v.gb.toNat (nat64 (bigB * bigB))
    let g := op64 divNum (sub64 (op64 mulNum (nat64 bigB) gB) (op64 mulNum (nat64 b) gs)) (nat64 (bigB - b))
    let sg := op64 divNum (sub64 gs gB) (sub64 (op64 divNum (nat64 1) (nat64 b)) (op64 divNum (nat64 1) (nat64 bigB)))
    let k := s.reg 0x500804
    let avg := fun (old new : Nat) => add64 old (op64 mulNum (sub64 new old) (roundTo ffF64 .even (.fin false 1 (-(k : Int)))).1)
    let st := { s.steer with gAvg := avg s.steer.gAvg g, sAvg := avg s.steer.sAvg sg, steps := s.steer.steps + 1 }
    let noise := if positive64 st.gAvg then (roundTo ffF32 .even (divNum (decodeFloat ffF64 st.sAvg) (decodeFloat ffF64 st.gAvg))).1 else 0
    setReg 0x500807 noise (setReg 0x500805 (st.steps % 2 ^ 32) { s with steer := st })

/-- The variant of the next step (R249). -/
def chooseVariant (s : State) : BitVec 2 :=
  let st := s.steer
  if s.reg 0x500801 = 1 ∧ !s.job.shapeFree ∧ 200 ≤ st.steps ∧ positive64 st.gAvg ∧ s.reg 0x500803 ≤ st.since then
    let bn := op64 divNum st.sAvg st.gAvg
    let target := decodeFloat ffF64 (op64 mulNum ((roundTo ffF64 .even (decodeFloat ffF32 (s.reg 0x500802))).1) bn)
    let n := s.job.variants
    BitVec.ofNat 2 (((List.range n).find? (fun i => leNum target (natNum (s.job.batches.getD i 0)))).getD (n - 1))
  else s.step.bsel

/-! ### The decision (R237) -/

/-- The Encore bits and the hold count that follow a commit (R159): a step whose bits go beyond a hold under way starts a
hold of its own; otherwise the step counts towards the one under way. -/
def encoreAfterCommit (s : State) : BitVec 8 × Nat × BitVec 8 :=
  let b := s.step.bits
  let running := if s.step.holdLeft = 0 then 0 else s.step.holdBits
  if b ≠ 0 ∧ b ≠ running then
    let h := s.reg 0x501002
    (if h = 0 then 0 else b, h, b)
  else
    let left := s.step.holdLeft - 1
    (if left = 0 then 0 else s.step.holdBits, left, s.step.holdBits)

/-- The Encore bits of the step after a SKIP (R243). -/
def encoreAfterSkip (s : State) : BitVec 8 := if s.step.holdLeft = 0 then 0 else s.step.holdBits

/-- NEXTMODE from its parts (R225, R238). -/
def nextMode (bsel : BitVec 2) (wide par : Bool) (bits : BitVec 8) : BitVec 16 :=
  BitVec.ofNat 16 (atBit 10 bsel.toNat + atBit 9 (boolNat wide) + atBit 8 (boolNat par) + bits.toNat)

/-- The decision's fixed part. -/
def decisionBase (v : Vote) : Decision :=
  { step := v.step, attempt := v.attempt, cause := v.cause, suspV := v.suspV, suspect := v.suspect, susDie := v.susDie }

/-- COMMIT: steering, then the next step's mode (R238). -/
def decideCommit (v : Vote) (s : State) : Decision × State :=
  let s := steerStats v s
  let bsel := chooseVariant s
  ({ decisionBase v with action := 1, nextmode := nextMode bsel false (!s.step.par) (encoreAfterCommit s).1 }, s)

/-- SKIP. -/
def decideSkip (v : Vote) (s : State) : Decision × State :=
  ({ decisionBase v with action := 3, nextmode := nextMode s.step.bsel false s.step.par (encoreAfterSkip s) }, s)

/-- HOLD: the mode of the attempt stands. -/
def decideHold (v : Vote) (s : State) : Decision × State :=
  ({ decisionBase v with action := 4, nextmode := nextMode s.step.bsel s.step.wide s.step.par s.step.bits }, s)

/-- RERUN with its bits and WIDE. -/
def decideRerun (v : Vote) (wide : Bool) (bits : BitVec 8) (s : State) : Decision × State :=
  ({ decisionBase v with action := 2, nextmode := nextMode s.step.bsel wide s.step.par bits }, s)

/-- Would the next attempt break R224? -/
def attemptsSpent (s : State) : Bool := decide (16 ≤ s.step.sinceQuiet)

/-- The step guard (R241, R244): `t` is the set of triggers. -/
def guard (v : Vote) (t : Nat) (s : State) : Decision × State :=
  let skip := fun (s : State) =>
    if s.reg 0x500404 < s.reg 0x500408 + 1 then decideHold v (guardRecord v t 4 s) else decideSkip v (guardRecord v t 2 s)
  let hold := fun (s : State) => decideHold v (guardRecord v t 3 s)
  let policy := s.reg 0x500401
  if policy = 0 ∧ !s.step.wide then
    if attemptsSpent s then hold s else decideRerun v true 0xFF (guardRecord v t 1 s)
  else
    let p := if policy = 0 then s.reg 0x500402 else policy
    if p = 1 then skip s else hold s

/-- Classes that are flagged, not yet in the attempt's bits, and have a wider path (R159). -/
def newClasses (s : State) (v : Vote) : Bool :=
  (List.range 8).any (fun i => v.encore.getLsbD i && !s.step.bits.getLsbD i && Config.widerPath s.job.digest i)

/-- The triggers, masked (R237, R251): LOSSNF, GRADNF, ROWNF, OVF, INVALID from bit 0 up. -/
def triggers (s : State) (v : Vote) (ovf : Bool) : Nat :=
  (boolNat v.lossNF + 2 * boolNat v.gradNF + 4 * boolNat v.rowNF + 8 * boolNat ovf + 16 * boolNat (decide (v.invalid ≠ 0))) &&& s.reg 0x500403

/-- The decision from the combined vote (R237). -/
def decideVote (v : Vote) (s : State) : Decision × State :=
  let enabled := s.reg 0x501001 == 1
  if v.abort then
    if v.cause = 6 ∨ v.cause = 9 ∨ v.cause = 10 ∨ attemptsSpent s then decideHold v s else decideRerun v s.step.wide s.step.bits s
  else if enabled && newClasses s v then
    if attemptsSpent s then decideHold v (encoreRecord v 4 0x1008 s)
    else decideRerun v s.step.wide (s.step.bits ||| v.encore) (bumpReg 0x501004 1 (encoreRecord v 1 0x1001 s))
  else
    let flagged := decide (v.encore ≠ 0)
    let s := if !flagged then s else if enabled then bumpReg 0x501005 1 (encoreRecord v 2 0x1002 s) else encoreRecord v 3 0x1007 s
    let t := triggers s v (enabled && flagged)
    if t = 0 then decideCommit v s else guard v t s

/-- Send a decision to the children (R238). -/
def sendDecision (d : Decision) (s : State) : State :=
  allOf (voteChildren s) (fun c s => sendControl 7 c.2 (BitVec.ofNat 256 (atBit 128 (decisionBits d))) s) s

/-- With its own vote and all its children's, a package sends the combined vote on (R236); the coordinator decides. -/
def tryCombine (s : State) : State :=
  match s.step.ownVote with
  | none => s
  | some own =>
    let kids := (voteChildren s).map (fun c => smFind s.step.childVotes c.1)
    if s.step.voteSent || kids.any Option.isNone then s
    else
      let v := (kids.filterMap id).foldl combineVotes own
      let s := { s with step := { s.step with combined := some v, voteSent := true, since := s.now } }
      match voteParent s with
      | some p => sendControl 6 p (voteBits v) s
      | none =>
        let r := decideVote v s
        sendDecision r.1 { r.2 with step := { r.2.step with decision := some r.1 } }

/-- Is everything of the attempt complete on the package (R235)? -/
def attemptComplete (s : State) : Bool :=
  s.step.causes.isEmpty && allTiles.all (fun k => (s.tile k).run == .done) && !anyTransfer s && reductionDone s && !owesComparison s

/-- Have the tiles of an aborted attempt stopped (R91)? -/
def attemptStopped (s : State) : Bool :=
  !s.step.causes.isEmpty && s.tiles.all (fun p => p.2.run != .active) && !anyTransfer s

/-- PACKAGE_VOTE (R235): the package forms its vote. -/
def opPackageVote (s : State) : State :=
  if s.life = .running ∧ s.step.phase = .attempt ∧ (attemptComplete s ∨ attemptStopped s) then
    tryCombine { s with step := { s.step with phase := .voted, ownVote := some (formVote s), endedAt := s.now } }
  else s

def execPackageVote (s : State) : Host.Outcome State Fault Refusal := .next (powered opPackageVote s)

/-- VOTE (R236): a child's vote arrives; it waits for the package's own. -/
def opVote (child : Nat) (v : Vote) (s : State) : State :=
  if (s.life = .running ∨ s.life = .held) ∧ (voteChildren s).any (fun c => c.1 == child) then
    tryCombine { s with step := { s.step with childVotes := smPut s.step.childVotes child v } }
  else s

def execVote (child : Fin 3) (v : Vote) (s : State) : Host.Outcome State Fault Refusal := .next (powered (opVote child v) s)

end Sys2Proof.Machine
end

