-- ==== Sys2Proof/Machine/Commit.lean ====
section
/-!
DEFINITION. The decisions COMMIT, RERUN, SKIP and HOLD (R238-R245, R249, R233, R366, R370, R371), the checkpoint they start
(R413-R416, R420), and retirement (R55-R59).
-/

namespace Sys2Proof.Machine

/-! ### Rows -/

/-- Apply the merged gradient of one row (R208, R209, R219): replaced rows and rows that cannot be written keep what they
have and are counted. -/
def commitRow (sh : Shard) (t : TableDesc) (cb : List Num) (skip : List Nat) (row : Nat) (g : List Nat) (s : State) : State × List Nat :=
  let lost := bumpReg (dieKey sh.die 0x81200B) 1
  if skip.contains (rowKey sh.table row) then (lost s, [])
  else
    match updatedRow s t sh cb row g with
    | none => (s, [])
    | some (_, none) => (raiseAt 0xA009 sh.die 768 0 (row % 2 ^ 32) (lost s), [])
    | some (slot, some bs) => (bumpReg (dieKey sh.die 0x81200A) 1 (writeRow sh t sh.table row none slot (some bs) s), [rowKey sh.table row])

/-- The rows of one shard. -/
def commitShard (skip : List Nat) (sh : Shard) (s : State) : State × List Nat :=
  let t := tableOf s sh.die sh.table
  let cb := codebookOf s t
  (mergedRows s sh t).foldl (fun a q =>
    let r := commitRow sh t cb skip q.1 q.2 a.1
    (r.1, a.2 ++ r.2)) (s, [])

/-- The rows of every shard; the second part names the rows written. -/
def commitRows (skip : List Nat) (s : State) : State × List Nat :=
  s.tables.shards.foldl (fun a p =>
    let r := commitShard skip p.2 a.1
    (r.1, a.2 ++ r.2)) (s, [])

/-! ### Dense shards -/

/-- Is the tensor at an address marked FROZEN (R231)? -/
def frozenAt (s : State) (a : Nat) : Bool :=
  s.job.marks.any (fun m => decide (m.first ≤ a) && decide (a < m.first + m.bytes) && !m.trained)

/-- The versions of the trained shards (R233, R323): the pending half's header takes the live half's with VERSION increased. -/
def commitVersions (s : State) : State :=
  allOf (s.job.shards.filter (fun e => !frozenAt s e.half0)) (fun e s =>
    let live := if s.step.par then e.half1 else e.half0
    let pend := if s.step.par then e.half0 else e.half1
    let h := s.le live 8
    putMem pend (leBytes 8 (h - h % 2 ^ 32 + (h + 1) % 2 ^ 32)) s) s

/-! ### Contexts, cursors and windows -/

/-- The contexts that a commit includes (R177, R371). -/
def stepContexts (s : State) : List Nat :=
  if s.job.serving then (s.host.open_.filter (fun r => r.running)).map (fun r => r.ctx)
  else (List.range 48).filter (fun c => decide ((s.ctx c).keys ≠ []))

/-- A context's step counter advances; a new epoch derives new keys (R174, R177). -/
def advanceContext (seed : BitVec 64) (c : Context) : Context :=
  let c := { c with counter := c.counter + 1 }
  if BitVec.ofNat 24 (c.counter.toNat / 2 ^ 24) = c.epoch then c else deriveKeys seed c

/-- Count the derivations of some contexts' keys on their dies (R188). -/
def countDerived (cs : List Nat) (s : State) : State := allOf cs (fun c => bumpReg (dieKey (c / 12) 0x810008) 1) s

/-- Advance the contexts of a step. -/
def advanceContexts (cs : List Nat) (s : State) : State :=
  let derives := fun (c : Nat) => decide (BitVec.ofNat 24 (((s.ctx c).counter + 1).toNat / 2 ^ 24) ≠ (s.ctx c).epoch)
  let s := countDerived (cs.filter derives) s
  { s with ctxs := (List.range s.ctxs.length).map (fun i => if cs.contains i then advanceContext s.job.seed (s.ctx i) else s.ctx i) }

/-- A cursor advances past a batch (R370, R372). -/
def advanceCursor (r : OpenRec) (s : State) : State :=
  let move := fun (b : Binding) => { b with cursor := (b.cursor + r.bytes) % 2 ^ 64 }
  match r.member with
  | none =>
    match smFind s.host.bindings r.ctx with
    | none => s
    | some b => { s with host := { s.host with bindings := smPut s.host.bindings r.ctx (move b) } }
  | some m =>
    match smFind s.host.catches (m * 64 + r.ctx) with
    | none => s
    | some b => { s with host := { s.host with catches := smPut s.host.catches (m * 64 + r.ctx) (move b) } }

/-- A BATCH of the step completes (R363, R364): detail bit 0 SKIP, bits 2:1 BSEL of the next step. -/
def finishBatch (skip : Bool) (bsel : BitVec 2) (r : OpenRec) (s : State) : State :=
  complete r.cseq 2 0 r.step (boolNat skip + 2 * bsel.toNat) (advanceCursor r s)

/-- A DECODE of the step completes (R366, R367, R371): its window is DONE, with no valid byte where the step was skipped. -/
def finishDecode (skip : Bool) (r : OpenRec) (s : State) : State :=
  let n := (s.ctx r.ctx).counter.toNat
  match s.windows[r.win]? with
  | none => s
  | some w => complete r.cseq 3 0 n (windowSeq s w) (putWindow w (windowSeq s w) 2 n (if skip then 0 else w.bytes) r.cseq (advanceCursor r s))

/-- The command records whose step has ended, their contexts and cursors. -/
def finishRecords (skip : Bool) (bsel : BitVec 2) (s : State) : State :=
  let mine := s.host.open_.filter (fun r => if r.op = 3 then r.running else r.op == 2 && r.step == s.stepNo)
  let s := { s with host := { s.host with open_ := s.host.open_.filter (fun r => !mine.contains r) } }
  allOf mine (fun r s => if r.op = 3 then finishDecode skip r s else finishBatch skip bsel r s) s

/-! ### Checkpoints -/

/-- The small committed state of a checkpoint (R416). -/
def smallState (n : Nat) (s : State) : SmallState :=
  { step := n, skips := s.reg 0x500408, par := s.step.par, bsel := s.step.bsel, steer := s.steer, encore := s.step.bits, holdLeft := s.step.holdLeft,
    holdBits := s.step.holdBits, ctxs := s.ctxs, bindings := s.host.bindings, tables := s.tables,
    banks := s.tables.shards.map (fun p => (p.2.header, s.le (p.2.header + 40) 8 % 2)),
    windows := (s.windows.filter (fun w => windowState s w == 2)).map (fun w => (w.addr, s.bytes w.addr (64 + w.bytes))), base := s.reg 0x600408 }

/-- The MIRROR ranges of the job (R411). -/
def mirrorRanges (s : State) : List (Nat × Nat) := (s.job.marks.filter (fun m => m.cls == 0)).map (fun m => (m.first, m.bytes))

/-- The listed bytes of some ranges. -/
def cellsIn (rs : List (Nat × Nat)) (m : Memory) : Memory := m.filter (fun c => rs.any (fun r => decide (r.1 ≤ c.1) && decide (c.1 < r.1 + r.2)))

/-- Is the new generation still capturing, draining or awaiting COMPLETE (R420)? -/
def generationBusy (s : State) : Bool := s.recov.gens.any (fun g => decide (g.st < 4) && !g.stopped)

/-- Show the new generation's state and size. -/
def showGeneration (s : State) : State :=
  let new := s.recov.gens.find? (fun g => decide (g.st < 4))
  setReg 0x600004 ((new.map (fun g => g.st)).getD 0) (setReg 0x600005 ((new.map (fun g => (g.ranges.map (fun r => r.2)).foldl (· + ·) 0)).getD (s.reg 0x600005)) s)

/-- A checkpoint at the commit or skip that makes `n` current (R413, R414, R417, R420). -/
def checkpoint (n : Nat) (s : State) : State :=
  let k := s.recov.interval
  if k = 0 ∨ n % k ≠ 0 then s
  else if generationBusy s then raise_ 0x9007 (bumpReg 0x600007 1 s)
  else
    let rs := mirrorRanges s
    let g : Generation := { gen := s.recov.lastGen + 1, step := n, repoch := s.reg 0x400006, coord := s.coord, st := 1, ranges := rs,
                            cells := cellsIn rs s.mem, small := smallState n s }
    let held := s.recov.gens.filter (fun x => x.st == 4)
    let mirrors := s.recov.mirrors.filter (fun m => m.st != 2)
    showGeneration { s with recov := { s.recov with lastGen := g.gen, gens := held ++ [g], mirrors := mirrors } }

/-! ### The end of a step -/

/-- Take the mode of NEXTMODE (R225, R238). -/
def takeMode (d : Decision) (s : State) : State :=
  let n := d.nextmode.toNat
  { s with step := { s.step with bits := BitVec.ofNat 8 n, par := bitAt n 8, wide := bitAt n 9, bsel := BitVec.ofNat 2 (n / 1024) } }

/-- The state at the boundary before step `n`: nothing of the step that ended is left in the step engine or the table slices. -/
def boundary (n : Nat) (s : State) : State :=
  let s := setReg 0x500001 n s
  clearReduce { s with step := { s.step with phase := .decided, attempt := 0, sinceQuiet := 0, childVotes := [], ownVote := none, combined := none, wide := false },
                       tables := { s.tables with looks := [], repLooks := [], shards := s.tables.shards.map (fun p => (p.1, clearShard p.2)) } }

/-- What COMMIT and SKIP share once their own items are done, before step `n` (R223, R238, R407, R413): the mode and the step
number, the checkpoint, windows, HELD asked for. -/
def endStep (n : Nat) (d : Decision) (ran : List Nat) (s : State) : State :=
  let s := windowsAt n ran (checkpoint n (boundary n (takeMode d s)))
  if s.step.holdAsked && s.gal.runs.isEmpty then enterHeld 0xFF04 s else s

/-- The engine that a decision names, where this package holds it, is detected in the decided attempt (R519). -/
def takeSuspect (d : Decision) (s : State) : State :=
  if d.suspV ∧ d.suspect.toNat = s.coord then suspectUnit 0x7004 (endpoint s d.susDie.toNat 768) s else s

/-- What every decision does first: the engine named, and the judgement of earlier suspects (R439, R441, R519). -/
def judgeStep (cause : Nat) (d : Decision) (s : State) : State := judgeMismatches cause (judgeAttempt cause (takeSuspect d s))

/-- The part of a commit that only a package with persistent state has: rows, replacements, the Hall of Mirrors, versions,
and the journal (R208, R215, R210, R233, R423, R426). -/
def commitState (s : State) : State :=
  let n := s.stepNo
  let skip := replacedRows n s
  let flips := flippedRows n s
  let r := commitRows skip s
  let s := applyReplacements n r.1
  let s := commitVersions (commitHall (r.2 ++ skip ++ flips) s)
  let s := finishImage (n + 1) (endCommit (n + 1) s)
  if s.reg 0x600405 ≠ 0 ∧ (n + 1) % s.reg 0x600405 = 0 then startImage (n + 1) s else s

/-- Batch steering after a commit (R249): committed steps since the last change of variant, and the change itself. -/
def takeVariant (bsel : BitVec 2) (s : State) : State :=
  if bsel = s.step.bsel then { s with steer := { s.steer with since := s.steer.since + 1 } }
  else setReg 0x500806 bsel.toNat (bumpReg 0x500808 1 { s with steer := { s.steer with since := 0 } })

/-- Durations of the phases of the step just committed (R460, R466). -/
def phaseTimes (s : State) : State :=
  let p := s.board.power
  let d := [s.step.barrierAt - s.step.since, s.step.endedAt - s.step.barrierAt, s.now - s.step.endedAt]
  { s with board := { s.board with power := { p with durations := d } } }

/-- COMMIT (R240). A spare follows it and commits nothing (R339). -/
def commitStep (d : Decision) (s : State) : State :=
  let n := (s.stepNo + 1) % 2 ^ 48
  let s := judgeStep 0 d s
  let bsel := BitVec.ofNat 2 (d.nextmode.toNat / 1024)
  let ran := stepContexts s
  let s := if s.life = .spare then s else commitState s
  let s := takeVariant bsel s
  let h := encoreAfterCommit s
  let s := { s with step := { s.step with holdLeft := h.2.1, holdBits := h.2.2 } }
  let s := advanceContexts ran (finishRecords false bsel s)
  let s := setReg 0x500408 0 (bumpReg 0x500003 1 (phaseTimes s))
  endStep n d ran s

/-- A SKIP that no replacement takes part in has no marker of its own: a journal durable to the step before is durable to
it (R423, R424). -/
def skipMarker (step : Nat) (s : State) : State :=
  showDurable (allOf (List.range 4) (fun d s =>
    let j := s.journal d
    match j.marks.reverse with
    | [] => setJournal d { j with durable := step } s
    | m :: ms => setJournal d { j with marks := (ms.reverse) ++ [(m.1, step)] } s) s)

/-- SKIP (R243). -/
def skipStep (d : Decision) (s : State) : State :=
  let next := (s.stepNo + 1) % 2 ^ 48
  let s := judgeStep d.cause d s
  let n := s.stepNo
  let due := decide (dueRequests n s ≠ [])
  let ran := stepContexts s
  let changed := replacedRows n s ++ flippedRows n s
  let s := if s.life = .spare then s
    else if due then endCommit (n + 1) (refreshReplicas changed (applyReplacements n s)) else skipMarker (n + 1) s
  let s := advanceContexts ran (finishRecords true s.step.bsel s)
  let s := bumpReg 0x500408 1 (bumpReg 0x500004 1 s)
  endStep next d ran s

/-- RERUN (R238): the next attempt of the step with its mode bits. -/
def rerunStep (d : Decision) (s : State) : State :=
  let s := takeMode d (judgeStep d.cause d s)
  dropAttempt s

/-- The cause shown at 0x1000.09 when a HOLD decision of an abort cause takes the package to HELD. -/
def holdCause (cause : Nat) : Nat :=
  if cause = 0 then 0x9003 else if cause = 6 then 0xA008 else if cause = 9 then 0x4008 else if cause = 10 then 0x7006 else 0

/-- HOLD (R241, R245): the attempt is aborted, and the package enters HELD; the job resumes with the next attempt. A spare
does not leave SPARE. -/
def holdStep (d : Decision) (s : State) : State :=
  let s := dropAttempt (judgeStep d.cause d s)
  let s := { s with step := { s.step with heldGuard := d.cause == 0, heldCause := d.cause }, gal := { s.gal with unresolved := false } }
  if s.life = .running then enterHeld (holdCause d.cause) s else s

/-! ### Who acts on a decision -/

/-- The decision this package acts on (R238): the coordinator on its own, another package on the one that reaches it for its
attempt, a spare on every one for its step. -/
def actsOn (action : Nat) (d : Decision) (s : State) : Option Decision :=
  let mine := d.step == s.stepNo && d.attempt == s.step.attempt % 16
  if s.life = .spare then (if mine && (s.step.phase == .attempt || s.step.phase == .voted) then some { d with action := action } else none)
  else if s.life = .running && s.step.phase == .voted then
    match voteParent s with
    | none => s.step.decision.filter (fun x => x.action == action)
    | some _ => if mine then some { d with action := action } else none
  else none

/-- A decision reaches the package: it is forwarded, then acted on (R238). -/
def opDecision (action : Nat) (d : Decision) (s : State) : State :=
  match actsOn action d s with
  | none => s
  | some d =>
    let s := if s.life = .spare ∨ voteParent s = none then s else sendDecision d s
    if action = 1 then commitStep d s else if action = 2 then rerunStep d s else if action = 3 then skipStep d s
    else if action = 4 then holdStep d s else s

def execCommit (d : Decision) (s : State) : Host.Outcome State Fault Refusal := .next (powered (opDecision 1 d) s)

def execRerun (d : Decision) (s : State) : Host.Outcome State Fault Refusal := .next (powered (opDecision 2 d) s)

def execSkip (d : Decision) (s : State) : Host.Outcome State Fault Refusal := .next (powered (opDecision 3 d) s)

def execHoldDecision (d : Decision) (s : State) : Host.Outcome State Fault Refusal := .next (powered (opDecision 4 d) s)

/-! ### Retirement -/

/-- Physical rows that the queued retirements of a die take, by column. -/
def wantedRows (s : State) (d : Nat) : List (Nat × Nat) :=
  (s.retireQ.filter (fun q => decide (keyDie q.1 = d))).map (fun q => tilePlace s d (keyTile q.1))

/-- May a retirement take effect now (R55)? -/
def retireTime (s : State) : Bool :=
  s.life = .standby || s.life = .ready || s.life = .loaded || s.life = .spare || s.life = .held
    || (s.life = .running && (s.step.phase == .idle || s.step.phase == .decided))

/-- A retirement at a HELD in the middle of a step aborts the held attempt first (R55): cause 5. -/
def abortHeld (s : State) : State :=
  if s.life = .held ∧ s.step.heldMid then
    dropAttempt (setReg 0x500006 5 (bumpReg 0x500005 1 s))
  else s

/-- A package that has become short (R59): with a job it enters FAULT, from READY it returns to STANDBY. -/
def becomeShort (d : Nat) (s : State) : State :=
  let s := raiseAt 0x9001 d 768 0 0 (setReg (dieKey d 0x804009) 1 s)
  if holdsJob s then enterFault 0x9001 s else if s.life = .ready then enter .standby 0x9001 s else s

/-- A retirement takes effect (R54, R56): the column map changes. The contents of the logical tiles below move with them, so
their state stays as it was; the retired logical tile is rebuilt: its program is loaded again at its next step start, and
its SRAM keeps the bytes it has (assumption 90). -/
def applyRetirement (k : Nat) (s : State) : State :=
  let d := keyDie k
  let p := tilePlace s d (keyTile k)
  let s := { s with retired := smPut s.retired (d * 32 + p.1) p.2, gal := { s.gal with runs := s.gal.runs.filter (fun g => decide (g.key ≠ k)) } }
  if holdsJob s then
    modTile k (fun t => { t with run := .idle, groups := [], prefetch := [], xfers := [], outside := [], lastSeg := [2 ^ 45, 2 ^ 45] }) s
  else s

end Sys2Proof.Machine
end

