-- ==== Sys2Proof/Machine/Epoch.lean ====
section
/-!
DEFINITION. Delivery failures (R314, R315), the re-shard's abandonment (R348), and the route epoch (R317).
-/

namespace Sys2Proof.Machine

/-! ### Reads that get no answer -/

/-- A READ fails (R315): what waits for it completes without effect. -/
def dropRead (r : ReadReq) (s : State) : State :=
  let s := { s with reads := s.reads.erase r }
  match r.who with
  | .tile k id _ => answerXfer k id s
  | .slice k id _ => modXfer k id (fun x => { x with slice := none, waits := x.waits - 1 }) s
  | .paging k _ => setPager k { s.pager k with inflight := (s.pager k).inflight.map (fun p => (p.1, p.2.1, p.2.2 - 1)) } s
  | .core d c => emit (.coreFault d c 0 r.addr) s
  | .carry _ => s

/-! ### Re-shard -/

/-- Owner of the messages of a re-shard (R348). -/
def reshardOwner : Nat := 5000

/-- Owner of the messages of a control core's access. -/
def coreOwner (d c : Nat) : Nat := 6000 + d * 8 + c

/-- The permuting collective is abandoned (R348): the old layout stays, 0x9006; a step that runs is aborted (R343). -/
def abandonReShard (s : State) : State :=
  if s.reg 0x502403 = 1 then abortAttempt 8 (raise_ 0x9006 (setReg 0x502403 3 { s with recov := { s.recov with reshard := {} } })) else s

/-! ### Failed messages -/

/-- A sequenced message that is not delivered (R315, R343, R421); `loud` says whether a flow failed, not its epoch. -/
def failMessage (loud : Bool) (w : Waiting) (s : State) : State :=
  let m := w.msg
  let resend := fun (s : State) => { s with resendNext := s.resendNext ++ [w] }
  let t := m.type.toNat
  let failed := match w.owner with
    | none => s
    | some o =>
      if o.1 < 3072 then answerXfer o.1 o.2 s
      else if 4096 ≤ o.1 ∧ o.1 < 4100 then stopDrain s
      else if o.1 = reshardOwner then abandonReShard s
      else if 6000 ≤ o.1 then emit (.coreFault ((o.1 - 6000) / 8) ((o.1 - 6000) % 8) 1 m.addr.toNat) s
      else s
  if t = 8 then abortAttempt 8 s
  else if t = 9 then resend s
  else if t = 6 ∨ t = 7 then s
  else if t = 1 ∧ recoveryArea ≤ m.addr.toNat ∧ m.addr.toNat < recoveryArea + 0x1_0000 then
    resend ((postItem 0 7 (itemBits 7 7 m.src.toNat m.stag.toNat 0) s).1)
  else
    let s := if t = 2 then
        match s.reads.find? (fun r => decide (r.addr = m.addr.toNat) && decide (r.dst = m.dst.toNat) && decide (r.src = m.src.toNat)) with
        | none => s
        | some r => dropRead r s
      else failed
    let tileTraffic := match w.owner with
      | none => decide (epTile m.src.toNat < 768) || t == 3
      | some o => decide (o.1 < 3072)
    if loud && tileTraffic then abortAttempt 9 s else s

/-- A flow fails (R314): its messages are dropped, 0x4008, and it is closed until the next route epoch. -/
def failFlow (key : Nat) (s : State) : State :=
  let f := s.flowTx key
  let d := key / 16384
  let closed : FlowTx := { f with unacked := [], closed := true }
  let s := raiseAt 0x4008 d 768 0 (key % 16384) (bumpReg (dieKey d 0x81800D) 1 (setTx key closed s))
  retryWaiting (allOf f.unacked (fun u s => failMessage true ({ die := d, owner := u.owner, msg := u.msg } : Waiting) s) s)

/-! ### The route epoch -/

/-- The slots of a queue that belong to messages already begun: those before the next header of their channel (R317). -/
def begunSlots : List Nat → List Slot → List Slot
  | _, [] => []
  | seen, x :: xs =>
    if seen.contains x.vc.toNat ∨ x.kind = 1 then begunSlots (x.vc.toNat :: seen) xs else x :: begunSlots seen xs

/-- Is an epoch newer than the package's, in the half of the count ahead of it? -/
def newerEpoch (s : State) (e : Nat) : Bool := decide (0 < (e + 256 - s.epoch) % 256) && decide ((e + 256 - s.epoch) % 256 < 128)

/-- Take a route epoch (R317): the adopted coordinate enters the route table, messages of older epochs go, flows start again
at ESEQ 0, and what they had not delivered is reported without 0x4008. -/
def takeEpoch (e pos coord : Nat) (s : State) : State :=
  let lost := s.flowsTx.flatMap (fun p => p.2.unacked.map (fun u => ({ die := p.1 / 16384, owner := u.owner, msg := u.msg } : Waiting)))
  let waiting := s.txWait
  let again := s.resendNext
  let adopted := if pos = 0xFFFF then s.adopted else s.adopted.filter (fun a => decide (a.1 ≠ coord)) ++ [(coord, pos)]
  let s := setReg 0x400006 (e % 256) { s with flowsTx := [], flowsRx := [], txWait := [], resendNext := [], adopted := adopted }
  let cut := fun (p : MidPort) => { p with link := { p.link with txq := begunSlots [] p.link.txq } }
  let step := { s.step with epochWait := false, heldCause := 0 }
  let recov := { s.recov with accepted := [] }
  let s := { s with ports := s.ports.map cut, step := step, recov := recov }
  let s := loseInputs (fun c => decide (c ≠ s.coord)) (stopDrain s)
  let s := allOf (lost ++ waiting) (failMessage false) s
  let s := allOf s.reads dropRead s
  let s := { s with resendNext := [], txWait := s.txWait ++ again ++ s.resendNext }
  retryWaiting s

/-- A ROUTE body (R311). -/
def routeBody (e pos coord : Nat) : BitVec 256 := BitVec.ofNat 256 (atBit 248 (e % 256) + atBit 232 pos + atBit 220 coord)

/-- The coordinator advances the route epoch (R317): it takes it itself and sends ROUTE to every other member. -/
def startEpoch (pos coord : Nat) (s : State) : State :=
  let e := (s.epoch + 1) % 256
  let s := takeEpoch e pos coord s
  allOf ((memberCoords s).filter (fun c => decide (c ≠ s.coord))) (fun c s => sendControl 9 c (routeBody e pos coord) s) s

end Sys2Proof.Machine
end

