-- ==== Sys2Proof/Machine/Recovery.lean ====
section
/-!
DEFINITION. Draining a captured generation (R414, R418), adoption by a spare (R428), the choice of a target (R429), and the
restore (R430, R431).
-/

namespace Sys2Proof.Machine

/-! ### Capture and drain -/

/-- Address of a page of a generation in the partner's staging pool (R418). -/
def mirrorPage (d gen page : Nat) : Nat := (Config.mirrorPlace d gen page % 0x4_8000) * 0x1_0000 + dieBytes * d

/-- The 64 KiB pages of a die's part of a generation, from its MIRROR items (R415). -/
def generationPages (g : Generation) (d : Nat) : List (List Byte) :=
  let rs := g.ranges.filter (fun r => decide (r.1 / dieBytes = d))
  let bs := rs.flatMap (fun r => readBytes g.cells r.1 r.2)
  (chunksOf 0x1_0000 bs).map (fun c => sliceBytes c 0 0x1_0000)

/-- The header of a die's part, and the CRC list after it (R415). -/
def generationHeader (g : Generation) (pages : List (List Byte)) : List Byte :=
  let list := pages.flatMap (fun p => leBytes 4 (crc32c p).toNat)
  leBytes 64 (atBit 480 g.gen + atBit 432 g.step + atBit 400 pages.length + atBit 368 (crc32c list).toNat + atBit 356 g.coord
    + atBit 348 g.repoch + atBit 344 g.st)

/-- Send lines to the partner's die of the same number. -/
def drainLines (d a : Nat) (bs : List Byte) (s : State) : State :=
  allOf (messageSplit (ceilDiv bs.length 64)) (fun p s =>
    let at_ := a + 64 * p.1
    sendMsg d (some (drainOwner d, 0))
      { type := 1, dst := BitVec.ofNat 24 (s.reg 0x102402 * 4096 + d * 1024 + 800), src := BitVec.ofNat 24 (endpoint s d 768),
        stag := s.dieTags.getD d 0, addr := BitVec.ofNat 44 at_, data := sliceBytes bs (64 * p.1) (64 * p.2) } s) s

/-- A die drains its part (R418): the pages in ascending order, its list, its header last. -/
def drainDie (g : Generation) (d : Nat) (s : State) : State :=
  let pages := generationPages g d
  let list := pages.flatMap (fun p => leBytes 4 (crc32c p).toNat)
  let s := allOf ((List.range pages.length).zip pages) (fun q s => drainLines d (mirrorPage d g.gen (q.1 + 1)) q.2 s) s
  let s := drainLines d (mirrorPage d g.gen 0 + 64) list s
  drainLines d (mirrorPage d g.gen 0) (generationHeader g pages) s

/-- CAPTURE_COMPLETE (R414, R418): the dense state is captured, and the dies drain the generation to the partner. -/
def opCapture (s : State) : State :=
  match s.recov.gens.find? (fun g => g.st == 1) with
  | none => s
  | some g =>
    let g := { g with st := 2, drainFrom := s.now }
    let gens := s.recov.gens.map (fun x => if x.gen = g.gen then g else x)
    let s := setReg 0x600004 2 { s with recov := { s.recov with gens := gens } }
    let s := if s.desc.isSome ∧ s.reg 0x102402 ≠ s.coord then allOf (List.range 4) (drainDie g) s else s
    tryDrained s

def execCaptureComplete (s : State) : Host.Outcome State Fault Refusal := .next (powered opCapture s)

/-! ### Records that arrive -/

/-- Is a record's route epoch older than the package's (R422)? -/
def staleRecord (s : State) (r : RecRecord) : Bool := decide (0 < (s.epoch + 256 - r.repoch.toNat) % 256) && decide ((s.epoch + 256 - r.repoch.toNat) % 256 < 128)

/-- A record arrives (R422): one of an older epoch is discarded and counted; any other is an item of flow 7, is kept as the
last record, and has its effect. -/
def recArrives (type : Nat) (r : RecRecord) (act : State → State) (s : State) : State :=
  powered (fun s =>
    if staleRecord s r then bumpReg 0x600805 1 s
    else
      let s := (postItem 0 7 (itemBits 7 7 (r.coord.toNat * 4096 + 768) 0 0) s).1
      act (setBlob 0x600806 (recordBytes type r) s)) s

/-- DRAINED (R419) reaches the coordinator. -/
def opDrained (r : RecRecord) (s : State) : State :=
  recArrives 1 r (fun s => if isCoordinator s then takeDrained r.coord.toNat r.step.toNat s else s) s

def execDrained (r : RecRecord) (s : State) : Host.Outcome State Fault Refusal := .next (powered (opDrained r) s)

/-- COMPLETE (R419, R430) reaches a member. -/
def opComplete (r : RecRecord) (s : State) : State := recArrives 2 r (memberComplete r.step.toNat) s

def execComplete (r : RecRecord) (s : State) : Host.Outcome State Fault Refusal := .next (powered (opComplete r) s)

/-! ### Unreachable neighbours -/

/-- A position's entry. -/
def posEntry (s : State) (p : Nat) : PosEntry := s.descr.positions.getD p { ident := [], spare := true, coord := 0, partner := 0 }

/-- The coordinates of the members wired to a position's torus and partner ports (R428). -/
def memberNeighbours (s : State) (p : Nat) : List Nat :=
  let ws := (List.range 16).map (fun i => s.descr.wires.getD (16 * p + i) { pair := 15, farPos := 0, farPort := 0 })
  (((ws.filter (fun w => decide (w.pair ≤ 6) && !(posEntry s w.farPos).spare && decide (w.farPos ≠ p))).map (fun w => (posEntry s w.farPos).coord))).dedup

/-- Coordinate of the deputy (R428): the member of lowest position, other than the coordinator, that nobody has reported
unreachable. -/
def deputy (s : State) : Option Nat :=
  let ps := List.range s.descr.positions.length
  (ps.find? (fun p => !(posEntry s p).spare && (posEntry s p).coord != 0 && !s.recov.unreach.any (fun u => u.2 == p))).map (fun p => (posEntry s p).coord)

/-- Coordinate of a position's acceptor (R428). -/
def acceptor (s : State) (p : Nat) : Option Nat := if (posEntry s p).coord = 0 then deputy s else some 0

/-- A member has reported a neighbour unreachable, or reachable again. -/
def noteReach (reachable : Bool) (coord p : Nat) (s : State) : State :=
  let rest := s.recov.unreach.filter (fun u => !(u.1 == coord && u.2 == p))
  { s with recov := { s.recov with unreach := if reachable then rest else rest ++ [(coord, p)] } }

/-- This package reports its neighbour at a position to the acceptor (R428). -/
def reportReach (reachable : Bool) (p : Nat) (s : State) : State :=
  match acceptor s p with
  | none => s
  | some c =>
    if c = s.coord then noteReach reachable s.coord p s
    else sendRecord (if reachable then 10 else 9) c { ownRecord s with pos := BitVec.ofNat 13 p } s

/-- UNREACHABLE (R428). -/
def opUnreachable (r : RecRecord) (s : State) : State := recArrives 9 r (noteReach false r.coord.toNat r.pos.toNat) s

def execUnreachable (r : RecRecord) (s : State) : Host.Outcome State Fault Refusal := .next (powered (opUnreachable r) s)

/-- REACHABLE (R428). -/
def opReachable (r : RecRecord) (s : State) : State := recArrives 10 r (noteReach true r.coord.toNat r.pos.toNat) s

def execReachable (r : RecRecord) (s : State) : Host.Outcome State Fault Refusal := .next (powered (opReachable r) s)

/-! ### Restore -/

/-- Write restored bytes over ranges: what is not listed reads as 0. -/
def restoreCells (rs : List (Nat × Nat)) (cells : Memory) (s : State) : State :=
  let inside := fun (a : Nat) => rs.any (fun r => decide (r.1 ≤ a) && decide (a < r.1 + r.2))
  { s with mem := cells.foldl (fun m c => writeByte m c.1 c.2) (s.mem.filter (fun c => !inside c.1)), bad := s.bad.filter (fun w => !inside w) }

/-- Every restored shard header adds 1 to VERSION (R233, R430). -/
def restoreVersions (s : State) : State :=
  allOf (s.job.shards.filter (fun e => !frozenAt s e.half0)) (fun e s =>
    let a := if s.step.par then e.half1 else e.half0
    let h := s.le a 8
    putMem a (leBytes 8 (h - h % 2 ^ 32 + (h + 1) % 2 ^ 32)) s) s

/-- Result windows after a restore (R416): those DONE at the checkpoint hold their bytes; every other one is FREE. -/
def restoreWindows (ws : List (Nat × List Byte)) (s : State) : State :=
  allOf s.windows (fun w s =>
    match ws.find? (fun p => p.1 == w.addr) with
    | some p => putMem w.addr p.2 s
    | none => if windowState s w = 0 then s else putWindow w (windowSeq s w) 0 0 0 0 s) s

/-- Replica pairs are rebuilt from the home records (R430). -/
def rebuildReplicas (s : State) : State :=
  let fix := fun (r : Replica) =>
    match s.tables.hot.find? (fun h => h.table == r.table && h.row == r.row) with
    | none => r
    | some h => { r with recs := setAt r.recs (boolNat r.act) (rowRecord s h.table h.row h.die) }
  { s with tables := { s.tables with replicas := s.tables.replicas.map fix } }

/-- What no restore keeps (R430, R431): the attempt, command records, pagers' frames, prefetch state, early arrivals. -/
def clearForRestore (s : State) : State :=
  let pager := fun (p : Pager) => { p with frames := p.frames.map (fun f => { f with page := none, dirty := false }), queue := [], inflight := none }
  let tile := fun (t : Tile) => { t with run := .idle, groups := [], xfers := [], prefetch := [], streams := Vector.replicate 8 (0, 0, 0), outside := [] }
  let s := clearReduce (mapTiles tile s)
  { s with pagers := s.pagers.map (fun p => (p.1, pager p.2)), early := [[], [], [], []], host := { s.host with open_ := [] }, reads := [] }

/-- The items of the state record (R416); keys are derived again (R174). -/
def restoreSmall (n : Nat) (m : SmallState) (s : State) : State :=
  let step : StepState := { bits := m.encore, par := m.par, bsel := m.bsel, holdLeft := m.holdLeft, holdBits := m.holdBits }
  let reqs := m.tables.reqs.filter (fun r => (r.mode == 0 || r.mode == 3) && decide (r.step = n))
  let s := { s with step := step, ctxs := m.ctxs.map (fun (c : Context) => if c.keys = [] then c else deriveKeys s.job.seed c), steer := m.steer }
  let s := countDerived ((List.range 48).filter (fun c => decide ((s.ctx c).keys ≠ []))) s
  let s := { s with tables := { m.tables with reqs := reqs }, host := { s.host with bindings := m.bindings } }
  let s := setReg 0x500001 n (setReg 0x500408 m.skips (setReg 0x500806 m.bsel.toNat (setReg 0x500805 (m.steer.steps % 2 ^ 32) s)))
  let s := allOf m.banks (fun b s => putMem (b.1 + 40) (leBytes 8 (s.le (b.1 + 40) 8 / 2 * 2 + b.2)) s) s
  setReg 0x600408 m.base (restoreWindows m.windows s)

/-- Rows of JOURNAL tables roll back (R425, R430): before-images in descending step order. -/
def rollBack (n : Nat) (s : State) : State :=
  let back := (s.recov.undo.filter (fun u => decide (n < u.step))).reverse
  let s := allOf back (fun u s => putMem u.addr u.bytes s) s
  { s with recov := { s.recov with undo := s.recov.undo.filter (fun u => decide (u.step ≤ n)) } }

/-- A surviving member restores its own generation (R430): 0x900B. -/
def restoreOwn (g : Generation) (s : State) : State :=
  let s := rollBack g.step (restoreCells g.ranges g.cells (clearForRestore s))
  let s := restoreVersions (restoreSmall g.step g.small s)
  let s := rebuildReplicas { s with recov := { s.recov with lastGen := g.gen } }
  raise_ 0x900B (bumpReg 0x600804 1 s)

/-- The coordinator has a RESTORED (R430); with all of them in, it sends COMPLETE. -/
def takeRestored (coord n : Nat) (s : State) : State :=
  let s := { s with recov := { s.recov with restored := (s.recov.restored.filter (fun c => decide (c ≠ coord))) ++ [coord] } }
  if s.recov.target = some n ∧ (memberCoords s).all (fun c => s.recov.restored.contains c) then
    let s := { s with recov := { s.recov with restored := [] } }
    memberComplete n (sendToMembers 2 { ownRecord s with step := BitVec.ofNat 48 n } s)
  else s

/-- The restore is done (R430, R431): RESTORED goes to the coordinator; an adopted coordinate is now in HELD and its ADOPT is
done. -/
def restoreDone (n : Nat) (s : State) : State :=
  let s := setReg 0x600802 4 { s with recov := { s.recov with restoring := false } }
  let s := if s.recov.adopting then
      let small := smallState n s
      let g : Generation := { gen := s.recov.lastGen, step := n, repoch := s.epoch, coord := s.coord, st := 4, ranges := mirrorRanges s, cells := cellsIn (mirrorRanges s) s.mem, small := small }
      enter .held 0xFF07 (setReg 0x100102 2 { s with recov := { s.recov with adopting := false, gens := [g] } })
    else s
  if isCoordinator s then takeRestored s.coord n s
  else sendRecord 7 0 { ownRecord s with step := BitVec.ofNat 48 n } s

/-- The state record that an adopted coordinate reads from its partner (R416). -/
def adoptedSmall (n : Nat) (s : State) : SmallState :=
  let item := fun (i : Nat) => Config.mirrorItem s.coord n i
  { step := n, skips := item 0 % 2 ^ 16, par := bitAt (item 1) 0, bsel := BitVec.ofNat 2 (item 2), encore := BitVec.ofNat 8 (item 3), holdLeft := item 4,
    holdBits := BitVec.ofNat 8 (item 5), base := item 6, steer := { gAvg := item 7, sAvg := item 8, steps := item 9, since := item 10 },
    ctxs := (List.range s.ctxs.length).map (fun i => { s.ctx i with slot := BitVec.ofNat 24 (item (100 + i)), counter := BitVec.ofNat 48 (item (200 + i)) }),
    bindings := s.host.bindings, tables := { s.tables with hot := [], replicas := [], sketch := [], cands := [] } }

/-- An adopted coordinate restores (R430): it reads its MIRROR items from the partner; journalled and replicated tables come
from the host and a survivor, whose bytes this package does not hold. -/
def restoreAdopted (n gen : Nat) (s : State) : State :=
  let s := restoreSmall n (adoptedSmall n s) (clearForRestore s)
  let s := { s with recov := { s.recov with lastGen := gen } }
  let s := allOf (s.job.marks.filter (fun m => m.cls == 1 || m.cls == 2)) (fun m s =>
    let r := freeBytes m.bytes s
    putMem m.first r.1 r.2) s
  allOf (List.range 4) (fun d s =>
    let rs := (mirrorRanges s).filter (fun r => decide (r.1 / dieBytes = d))
    let lines := rs.flatMap (fun r => (List.range (ceilDiv r.2 64)).map (fun i => r.1 + 64 * i))
    allOf ((List.range lines.length).zip lines) (fun q s =>
      let a := mirrorPage d gen (q.1 / 1024 + 1) + 64 * (q.1 % 1024)
      let dst := s.reg 0x102402 * 4096 + d * 1024 + 800
      let s := { s with reads := s.reads ++ [{ who := .carry q.2, src := endpoint s d 768, dst := dst, addr := a, lines := 1 }] }
      sendMsg d none { type := 2, dst := BitVec.ofNat 24 dst, src := BitVec.ofNat 24 (endpoint s d 768), stag := s.dieTags.getD d 0, addr := BitVec.ofNat 44 a } s) s) s

/-- Has every line of an adopted coordinate's restore come? -/
def carriesDone (s : State) : Bool := s.reads.all (fun r => match r.who with
  | .carry _ => false
  | _ => true)

/-- With the last line in, the restore is done. -/
def tryRestored (s : State) : State :=
  match s.recov.target with
  | some n => if s.recov.restoring && carriesDone s then restoreDone n (if s.recov.adopting then restoreVersions s else s) else s
  | none => s

/-- A member takes the target (R430). One that still runs stops first; one without the generation waits in HELD. -/
def takeTarget (n gen : Nat) (s : State) : State :=
  let s := if s.life = .running then enterHeld 0x900B (dropAttempt s) else s
  let s := setReg 0x600803 n (setReg 0x600802 3 { s with recov := { s.recov with target := some n, restoring := true } })
  if s.recov.adopting then tryRestored (restoreAdopted n gen s)
  else
    match s.recov.gens.find? (fun g => g.step == n && decide (3 ≤ g.st)) with
    | none => s
    | some g => tryRestored (restoreOwn g s)

/-- TARGET (R430). -/
def opTarget (r : RecRecord) (s : State) : State :=
  recArrives 6 r (fun s => if s.life = .running ∨ s.life = .held ∨ s.recov.adopting then takeTarget r.step.toNat r.gen.toNat s else s) s

def execTarget (r : RecRecord) (s : State) : Host.Outcome State Fault Refusal := .next (powered (opTarget r) s)

/-- RESTORED (R430) reaches the coordinator. -/
def opRestored (r : RecRecord) (s : State) : State :=
  recArrives 7 r (fun s => if isCoordinator s then takeRestored r.coord.toNat r.step.toNat s else s) s

def execRestored (r : RecRecord) (s : State) : Host.Outcome State Fault Refusal := .next (powered (opRestored r) s)

/-! ### Reports and the target -/

/-- The REPORT of this package (R422, R428). -/
def ownReport (s : State) : RecRecord :=
  if s.recov.adopting then
    { (recordOf (leBytes 64 (Config.spareReport s.coord s.epoch))).2 with repoch := BitVec.ofNat 8 s.epoch, coord := BitVec.ofNat 12 s.coord }
  else
    let held := s.recov.gens.find? (fun g => g.st == 4)
    let ret := s.recov.gens.find? (fun g => g.st == 5)
    let new := s.recov.gens.find? (fun g => g.st == 3)
    let r := { ownRecord s with step := BitVec.ofNat 48 ((held.map Generation.step).getD 0), gen := BitVec.ofNat 32 ((held.map Generation.gen).getD 0) }
    let r := { r with jstep := BitVec.ofNat 48 (durableStep s), bstep := BitVec.ofNat 48 (s.reg 0x600408), ret := ret.isSome, new := new.isSome }
    { r with inc := s.recov.mirrors.any (fun m => m.st == 0), rstep := BitVec.ofNat 48 ((ret.map Generation.step).getD 0),
             nstep := BitVec.ofNat 48 ((new.map Generation.step).getD 0) }

/-- The steps that a REPORT says its sender has (R429); GEN 0 means no held generation. -/
def reportSteps (r : RecRecord) : List Nat :=
  (if r.gen = 0 then [] else [r.step.toNat]) ++ (if r.ret then [r.rstep.toNat] else []) ++ (if r.new then [r.nstep.toNat] else [])

/-- Is a coordinate's state at a step available (R429)? The adopted one also needs its journal and base image. -/
def availableAt (s : State) (n : Nat) (r : ReportRec) : Bool :=
  r.steps.contains n
    && (!s.adopted.any (fun a => a.1 == r.coord) || !s.job.marks.any (fun m => m.cls == 1) || (decide (n ≤ r.jstep) && decide (r.bstep ≤ n)))

/-- The largest step that every report has (R429). -/
def chooseTarget (s : State) : Option Nat :=
  let steps := ((s.recov.reports.flatMap (fun r => r.steps)).dedup).filter (fun n => s.recov.reports.all (availableAt s n))
  match steps with
  | [] => none
  | x :: xs => some (xs.foldl max x)

/-- A REPORT is in (R429); with all of them the coordinator chooses the target, or raises 0x900C. -/
def takeReport (r : RecRecord) (s : State) : State :=
  let rest := s.recov.reports.filter (fun x => decide (x.coord ≠ r.coord.toNat))
  let rec_ : ReportRec := { coord := r.coord.toNat, steps := reportSteps r, jstep := r.jstep.toNat, bstep := r.bstep.toNat }
  let s := { s with recov := { s.recov with reports := rest ++ [rec_] } }
  if (memberCoords s).all (fun c => s.recov.reports.any (fun x => x.coord == c)) then
    match chooseTarget s with
    | none => raise_ 0x900C (setReg 0x600802 0 { s with recov := { s.recov with reports := [] } })
    | some n =>
      let gen := ((s.recov.gens.find? (fun g => g.step == n)).map (fun g => g.gen)).getD r.gen.toNat
      let s := { s with recov := { s.recov with reports := [], restored := [] } }
      takeTarget n gen (sendToMembers 6 { ownRecord s with step := BitVec.ofNat 48 n, gen := BitVec.ofNat 32 gen } s)
  else s

/-- REPORT (R429) reaches the coordinator. -/
def opReport (r : RecRecord) (s : State) : State := recArrives 5 r (fun s => if isCoordinator s then takeReport r s else s) s

def execReport (r : RecRecord) (s : State) : Host.Outcome State Fault Refusal := .next (powered (opReport r) s)

/-- QUERY (R428): the member answers with its REPORT. -/
def opQuery (r : RecRecord) (s : State) : State :=
  recArrives 4 r (fun s => sendRecord 5 r.coord.toNat (ownReport s) (setReg 0x600802 2 s)) s

def execQuery (r : RecRecord) (s : State) : Host.Outcome State Fault Refusal := .next (powered (opQuery r) s)

/-- The coordinator asks every member, itself included (R428). -/
def startQuery (s : State) : State :=
  let s := setReg 0x600802 2 { s with recov := { s.recov with reports := [], restored := [] } }
  takeReport (ownReport s) (sendToMembers 4 (ownRecord s) s)

/-! ### Adoption -/

/-- A spare takes a coordinate (R428): its role is 3, and 0x900A. -/
def takeCoordinate (p : Nat) (s : State) : State :=
  let e := posEntry s p
  let s := setReg 0x102401 e.coord (setReg 0x102402 e.partner (setReg 0x102403 3 s))
  let s := setReg 0x600801 p (setReg 0x600802 1 { s with recov := { s.recov with asking := none, adopting := true } })
  raise_ 0x900A s

/-- The position of the spare whose record this is (R422): the one with its coordinate, else the first spare of a ring that
holds the position asked for. -/
def sparePosition (s : State) (r : RecRecord) : Nat :=
  let ps := List.range s.descr.positions.length
  match ps.find? (fun p => (posEntry s p).spare && (posEntry s p).coord == r.coord.toNat) with
  | some p => p
  | none => ((s.descr.rings.find? (fun q => q.contains r.pos.toNat)).bind (fun q => q.find? (fun p => (posEntry s p).spare))).getD 0

/-- Does the acceptor accept a position (R428)? -/
def acceptsPosition (s : State) (p : Nat) : Bool :=
  let ns := memberNeighbours s p
  acceptor s p == some s.coord && ns != [] && ns.all (fun c => s.recov.unreach.any (fun u => u.1 == c && u.2 == p)) && !s.recov.accepted.contains p

/-- ADOPTING (R428): at the acceptor a spare's request; at a spare that asks, the deputy's acceptance. -/
def opAdopting (r : RecRecord) (s : State) : State :=
  recArrives 3 r (fun s =>
    let p := r.pos.toNat
    if s.life = .spare then
      if s.recov.asking = some p then startQuery (startEpoch s.pos (posEntry s p).coord (takeCoordinate p s)) else s
    else if acceptsPosition s p then
      let unreach := s.recov.unreach.filter (fun u => u.2 != p)
      if isCoordinator s then
        let s := startEpoch (sparePosition s r) (posEntry s p).coord { s with recov := { s.recov with unreach := unreach } }
        startQuery { s with recov := { s.recov with accepted := s.recov.accepted ++ [p] } }
      else sendRecord 3 r.coord.toNat { ownRecord s with pos := r.pos } { s with recov := { s.recov with accepted := s.recov.accepted ++ [p] } }
    else sendRecord 8 r.coord.toNat { ownRecord s with pos := r.pos } s) s

def execAdopting (r : RecRecord) (s : State) : Host.Outcome State Fault Refusal := .next (powered (opAdopting r) s)

/-- REJECT (R428): the spare refuses its ADOPT with reason 0x000B and stays in SPARE. -/
def opReject (r : RecRecord) (s : State) : State :=
  recArrives 8 r (fun s =>
    if s.recov.asking = some r.pos.toNat then
      setReg 0x100102 3 (setReg 0x100103 0x000B (setReg 0x600802 0 { s with recov := { s.recov with asking := none } }))
    else s) s

def execReject (r : RecRecord) (s : State) : Host.Outcome State Fault Refusal := .next (powered (opReject r) s)

/-- ROUTE (R317): a spare that the message names takes the coordinate first. -/
def opRoute (e pos coord : Nat) (s : State) : State :=
  powered (fun s =>
    if newerEpoch s e then
      let mine := s.recov.asking.isSome && pos == s.pos && s.life = .spare
      let s := if mine then takeCoordinate (s.recov.asking.getD 0) s else s
      takeEpoch e pos coord s
    else s) s

def execRoute (epoch : BitVec 8) (pos : BitVec 16) (coord : BitVec 12) (s : State) : Host.Outcome State Fault Refusal :=
  .next (powered (opRoute epoch.toNat pos.toNat coord.toNat) s)

/-- Dispatch a recovery record that arrives as a WRITE (R422); a reserved TYPE is discarded and counted. -/
def takeRecRecord (bs : List Byte) (s : State) : State :=
  let r := recordOf bs
  match r.1 with
  | 1 => opDrained r.2 s
  | 2 => opComplete r.2 s
  | 3 => opAdopting r.2 s
  | 4 => opQuery r.2 s
  | 5 => opReport r.2 s
  | 6 => opTarget r.2 s
  | 7 => opRestored r.2 s
  | 8 => opReject r.2 s
  | 9 => opUnreachable r.2 s
  | 10 => opReachable r.2 s
  | _ => bumpReg 0x600805 1 s

end Sys2Proof.Machine
end

