-- ==== Sys2Proof/Machine/MidLink.lean ====
section
/-!
DEFINITION. Midway ports (R295-R303, R316): flits and their retry, link resets, training and the neighbour check, ports that
go down, and PROBE.
-/

namespace Sys2Proof.Machine

/-! ### Entries -/

/-- Do the Midway ports run: powered, and not in FAULT (R316)? -/
def netLive (s : State) : Bool := !(s.life = .off || s.life = .fault)

/-- A mask of the ports that satisfy a test. -/
def portMask (f : Nat → Bool) (n : Nat) : Nat := ((List.range n).filter f).foldl (fun a i => a + 2 ^ i) 0

/-- Show ports up, ports miswired and unreachable neighbours (R321). -/
def showPorts (s : State) : State :=
  let s := setReg 0x400007 (portMask (portUp s) 16) s
  let s := setReg 0x400008 (portMask (fun p => (s.port p).st == .miswired) 16) s
  setReg 0x400009 (portMask (fun c => pairUnreachable s c) 8) s

/-- Add to counter `i` of a port (R322): .03 is counter 0. -/
def countPort (p i n : Nat) (s : State) : State := modPort p (fun q => { q with counters := setAt q.counters i ((nth q.counters i + n) % 2 ^ 64) }) s

/-- Raise an event of a port: its unit is control core 0 of the port's die, its SUBUNIT the port. -/
def raisePort (code p : Nat) (s : State) : State := raiseAt code (portDie p) 768 p 0 s

/-! ### Identity records -/

/-- First 128 bits of the descriptor digest, as a number (R302). -/
def digest128 (s : State) : Nat := beNat ((s.blob 0x102002).take 16)

/-- An identity record in its 64 bytes (R302). -/
def identityRecord (s : State) (pos port role : Nat) : List Byte :=
  leBytes 64 (atBit 384 (digest128 s) + atBit 368 pos + atBit 364 port + atBit 360 role)

/-- The record expected at the far end of a port (R303). -/
def expectedRecord (s : State) (p : Nat) : List Byte :=
  let w := wireOf s p
  identityRecord s w.farPos w.farPort (s.descr.wires.getD (16 * w.farPos + w.farPort) { pair := 15, farPos := 0, farPort := 0 }).pair

/-- DIGEST, POS and PORT of a record: what the check compares. -/
def recordKey (bs : List Byte) : Nat := bitField (leAt bs 0 64) 511 364

/-! ### Link resets and training -/

/-- The test flit of a port (R302). -/
def testFlit (s : State) (p : Nat) : Flit :=
  let f : Flit := { test := true, slots := [{ kind := 0, vc := 0, data := identityRecord s s.pos p (wireOf s p).pair }] }
  { f with crc := midwayCrc f }

/-- Begin a training attempt (R301): 16 test flits go out. -/
def startTraining (p : Nat) (s : State) : State :=
  let s := modPort p (fun q => { q with st := .training, record := [], link := { q.link with tests := 0, refusing := false } }) s
  allOf (List.range 16) (fun _ s => emit (.midway (Fin.ofNat 16 p) (testFlit s p)) s) s

/-- A link reset of this end (R299): replay buffer, sequence numbers and credits stay; the port retrains. -/
def linkReset (p : Nat) (s : State) : State := showPorts (startTraining p (raisePort 0x400A p (countPort p 6 1 s)))

/-- The messages of a port's transmit queue, by channel, from their first header on. -/
def queuedMessages : Nat → List Slot → List (Nat × Msg)
  | 0, _ => []
  | n + 1, q =>
    match q with
    | [] => []
    | x :: rest =>
      if x.kind = 1 then
        match takeMessage x.vc.toNat q with
        | none => queuedMessages n rest
        | some r => (x.vc.toNat, r.1) :: queuedMessages n r.2
      else queuedMessages n rest

/-- The slots of a queue that belong to messages not yet begun. -/
def laterSlots : List Nat → List Slot → List Slot
  | _, [] => []
  | seen, x :: xs =>
    if seen.contains x.vc.toNat ∨ x.kind = 1 then x :: laterSlots (x.vc.toNat :: seen) xs else laterSlots seen xs

/-- Messages queued for a port that no longer runs take another route (R308, R316). A message already begun stays. -/
def requeue (p : Nat) (s : State) : State :=
  let q := (s.port p).link.txq
  let pair := (wireOf s p).pair
  let ms := queuedMessages (q.length + 1) (laterSlots [] q)
  let s := modPort p (fun m => { m with link := { m.link with txq := begunSlots [] q } }) s
  allOf ms (fun m s => routeOut (portDie p) (if pair = 6 then none else some (pair, m.1)) { m.2 with hops := m.2.hops - 1 } s) s

/-- A neighbour that has become unreachable is reported (R428): `before` says whether it was unreachable already. -/
def noteUnreachable (before : Bool) (p : Nat) (s : State) : State :=
  let pair := (wireOf s p).pair
  if !before && pairUnreachable s pair && decide (pair ≤ 6) && !isSpare s then reportReach false (wireOf s p).farPos s else s

/-- The other port of a port's pair. -/
def otherPort (s : State) (p : Nat) : Option Nat := (pairPorts s (wireOf s p).pair).find? (fun q => decide (q ≠ p))

/-- A neighbour whose ports have all lost lock is unreachable at once (R316): what the replay buffers hold is dropped and the
links start afresh. -/
def loseNeighbour (p : Nat) (s : State) : State :=
  let ps := pairPorts s (wireOf s p).pair
  if ps.all (fun q => !portUp s q) ∧ ps.any (fun q => (s.port q).st == .training) ∧ !(ps.all (fun q => (s.port q).lost)) then
    let fresh : LinkEnd := { credits := List.replicate 6 1024, owed := List.replicate 6 0 }
    let s := allOf ps (fun q s => modPort q (fun m => { m with lost := true, link := { fresh with txq := m.link.txq, tests := m.link.tests } }) s) s
    showPorts (allOf ps requeue s)
  else s

/-- CODEWORD_LOCK_LOSS (R299, R316). -/
def opLockLoss (p : Nat) (s : State) : State :=
  if netLive s ∧ portUp s p then noteUnreachable (pairUnreachable s (wireOf s p).pair) p (loseNeighbour p (linkReset p s)) else s

def execCodewordLockLoss (p : Fin 16) (s : State) : Host.Outcome State Fault Refusal := .next (powered (opLockLoss p) s)

/-- A port is up (R301, R308): the replay buffer is sent again, and a pair that comes back restores its routes. -/
def portComesUp (p : Nat) (s : State) : State :=
  let pair := (wireOf s p).pair
  let back := pairUnreachable s pair
  let s := modPort p (fun q => { q with st := .up, fails := 0, lost := false, record := [] }) s
  let replay := (s.port p).link.replay
  let s := countPort p 5 replay.length (allOf replay (fun f => emit (.midway (Fin.ofNat 16 p) f)) s)
  let s := if back then
      let s := { raisePort 0x400B p s with rounded := s.rounded.filter (fun c => decide (c ≠ pair)) }
      if pair ≤ 6 ∧ !isSpare s then reportReach true (wireOf s p).farPos s else s
    else s
  pumpPort p false (showPorts s)

/-- A port is miswired (R303): it carries no traffic, 0x4002, and both records are kept. -/
def portMiswired (p : Nat) (s : State) : State :=
  let before := pairUnreachable s (wireOf s p).pair
  let s := setBlob 0x400011 (expectedRecord s p ++ sliceBytes (s.port p).record 0 64) s
  noteUnreachable before p (requeue p (showPorts (raisePort 0x4002 p (modPort p (fun q => { q with st := .miswired }) s))))

/-- MIDWAY_TRAINING (R301, R303): the attempt succeeds when every lane holds lock and 16 test flits have arrived at both ends;
then the identity records are compared. -/
def opMidwayTraining (p : Nat) (lock far : Bool) (s : State) : State :=
  if netLive s ∧ s.desc.isSome ∧ (s.port p).st = .training ∧ lock ∧ far ∧ 16 ≤ (s.port p).link.tests then
    if recordKey (s.port p).record = recordKey (expectedRecord s p) then portComesUp p s else portMiswired p s
  else s

def execMidwayTraining (p : Fin 16) (lock far : Bool) (s : State) : Host.Outcome State Fault Refusal := .next (powered (opMidwayTraining p lock far) s)

/-- PROBE (R316) to the other port of a pair: the SEQ of the last flit accepted on the port that went down. -/
def sendProbe (p q : Nat) (s : State) : State :=
  let far := (s.descr.positions[(wireOf s p).farPos]?).map (fun e => e.coord)
  let m : Msg := { type := 0xB, dst := BitVec.ofNat 24 (far.getD 0 * 4096 + 768), src := BitVec.ofNat 24 (endpoint s (portDie q) 768),
                   body := BitVec.ofNat 256 (atBit 244 (s.port p).link.accepted.toNat), repoch := BitVec.ofNat 8 s.epoch }
  handToPort q 0 (msgSeal m) s

/-- A port goes down after three failed attempts (R301, R316): 0x4001; queued messages take other routes, and the other port of
the pair carries a PROBE. -/
def portGoesDown (p : Nat) (s : State) : State :=
  let before := pairUnreachable s (wireOf s p).pair
  let s := showPorts (raisePort 0x4001 p (modPort p (fun q => { q with st := .down, fails := 0 }) s))
  let s := noteUnreachable before p (requeue p s)
  match otherPort s p with
  | none => s
  | some q => if portUp s q ∧ (wireOf s p).pair ≠ 7 then sendProbe p q s else s

/-- MIDWAY_TRAINING_EXPIRY (R301): the attempt has failed. -/
def opTrainingExpiry (p : Nat) (s : State) : State :=
  if netLive s ∧ (s.port p).st = .training then
    let n := (s.port p).fails + 1
    if 3 ≤ n then portGoesDown p s else startTraining p (modPort p (fun q => { q with fails := n }) s)
  else s

def execMidwayTrainingExpiry (p : Fin 16) (s : State) : Host.Outcome State Fault Refusal := .next (powered (opTrainingExpiry p) s)

/-- RETRAIN_PORT (R321, R303): accepted in STANDBY, READY and HELD, and only with a descriptor (R301). -/
def retrainAllowed (s : State) : Bool := (s.life = .standby || s.life = .ready || s.life = .held) && s.desc.isSome

/-- Retrain a port. -/
def opRetrainPort (p : Nat) (s : State) : State :=
  if retrainAllowed s then linkReset p (modPort p (fun q => { q with fails := 0 }) s) else s

def execRetrainPort (p : Fin 16) (s : State) : Host.Outcome State Fault Refusal := .next (powered (opRetrainPort p) s)

/-! ### Flits -/

/-- Count the corrections of a codeword, or one that cannot be corrected (R296, R321). -/
def codeword (p : Nat) (c : Option (Fin 16)) (s : State) : State :=
  match c with
  | some n => if n.val = 0 then s else countPort p 1 n.val (countPort p 0 1 s)
  | none =>
    let s := countPort p 2 1 s
    let sec := s.now / 10 ^ 9
    let u := (s.port p).uncorr
    let n := if u.1 = sec then u.2 + 1 else 1
    let s := modPort p (fun q => { q with uncorr := (sec, n) }) s
    if n = s.reg 0x40000D + 1 then raisePort 0x4004 p s else s

/-- Does a flit pass its checks (R298)? -/
def flitIntact (f : Flit) (c0 c1 : Option (Fin 16)) : Bool :=
  c0.isSome && c1.isSome && f.crc == midwayCrc f && f.slots.all (fun x => x.kind != 3 && decide (x.vc.toNat < 6))

/-- Sample the headers of an accepted flit (R319). -/
def sampleFlit (p : Nat) (f : Flit) (s : State) : State :=
  allOf (f.slots.filter (fun x => x.kind == 1)) (fun x s =>
    let v := x.vc.toNat
    sampleHeader p false v ((s.port p).link.rx.filter (fun y => decide (y.vc.toNat = v))).length (nth (s.port p).link.credits v) (slotMsg x.data []) s) s

/-- A flit that is not a test flit arrives at a port that is up (R281, R298, R299). -/
def takeFlit (p : Nat) (f : Flit) (intact : Bool) (s : State) : State :=
  let l := (s.port p).link
  let r := receiveFlit f intact l
  let again := if intact then replayAfter f r.2 else []
  let s := modPort p (fun q => { q with link := r.2 }) s
  let s := countPort p 5 again.length (allOf again (fun g => emit (.midway (Fin.ofNat 16 p) g)) s)
  match r.1 with
  | .accepted => pumpPort p (decide (liveSlots f ≠ [])) (sampleFlit p f s)
  | .discarded _ => pumpPort p true (countPort p 4 1 s)
  | .replayLimit => linkReset p (raisePort 0x4003 p (countPort p 4 1 s))

/-- MIDWAY_FLIT (R296-R302): two codewords, each with its corrected symbols or uncorrectable. -/
def opMidwayFlit (p : Nat) (f : Flit) (c0 c1 : Option (Fin 16)) (s : State) : State :=
  if netLive s then
    let st := (s.port p).st
    if st = .up ∨ st = .training then
      let s := codeword p c1 (codeword p c0 s)
      let ok := flitIntact f c0 c1
      if st = .training then
        if f.test ∧ ok then
          modPort p (fun q => { q with record := ((f.slots.head?).map (fun x => x.data)).getD [], link := { q.link with tests := q.link.tests + 1 } }) s
        else s
      else if f.test then (if ok then s else countPort p 4 1 s)
      else takeFlit p f ok s
    else s
  else s

def execMidwayFlit (p : Fin 16) (f : Flit) (c0 c1 : Option (Fin 16)) (s : State) : Host.Outcome State Fault Refusal :=
  .next (powered (opMidwayFlit p f c0 c1) s)

/-! ### PROBE -/

/-- Slots of whole messages: those from the first header of each channel on. -/
def wholeSlots : List Nat → List Slot → List Slot
  | _, [] => []
  | seen, x :: xs =>
    if x.kind = 1 then x :: wholeSlots (x.vc.toNat :: seen) xs
    else if seen.contains x.vc.toNat then x :: wholeSlots seen xs else wholeSlots seen xs

/-- PROBE on port `p` (R316): the flits of the pair's other port after the SEQ go out again on this one, in SEQ order, before new
traffic. -/
def opProbe (p : Nat) (seq : BitVec 12) (s : State) : State :=
  if netLive s ∧ portUp s p then
    match otherPort s p with
    | none => s
    | some q =>
      if portUp s q then s
      else
        let later := (s.port q).link.replay.filter (fun g => !seqCovers seq g.seq)
        let slots := wholeSlots [] (later.flatMap liveSlots)
        let s := modPort q (fun m => { m with link := { m.link with replay := [] } }) s
        let s := modPort p (fun m => { m with link := { m.link with txq := begunSlots [] m.link.txq ++ slots ++ laterSlots [] m.link.txq } }) s
        pumpPort p false s
  else s

def execProbe (p : Fin 16) (seq : BitVec 12) (s : State) : Host.Outcome State Fault Refusal := .next (powered (opProbe p seq) s)

end Sys2Proof.Machine
end

