-- ==== Sys2Proof/Machine/Reshard.lean ====
section
/-!
DEFINITION. The permuting collective (R347, R348): reading a plan, sending its entries, and the switch to the new layout.
-/

namespace Sys2Proof.Machine

/-- An entry of a re-shard plan (R347): source and destination words, bytes, layer, and shard of the new layout. -/
structure PlanEntry where
  src : Nat
  dst : Nat
  len : Nat
  layer : Nat
  shard : Nat
deriving DecidableEq, Repr

/-- An entry from its 32 bytes. -/
def planEntry (n : Nat) : PlanEntry :=
  { src := bitField n 255 192, dst := bitField n 191 128, len := bitField n 127 96, layer := bitField n 95 80, shard := bitField n 79 64 }

/-- The entries from an address up to an entry of zeros; `fuel` bounds them. -/
def planFrom (s : State) : Nat → Nat → List PlanEntry
  | 0, _ => []
  | n + 1, a =>
    let v := s.le a 32
    if v = 0 then [] else planEntry v :: planFrom s n (a + 32)

/-- The plan of this package: at most 2^24 entries, and one more to tell a plan that is too long. -/
def planOf (s : State) : List PlanEntry := planFrom s (2 ^ 24 + 1) (wordAddr (s.reg 0x502401))

/-- Does a destination lie on this package? -/
def localWord (s : State) (w : Nat) : Bool := !isRemote w || remoteCoord w == s.coord

/-- Do two ranges at words meet? -/
def wordsMeet (s : State) (a la b lb : Nat) : Bool :=
  (if localWord s a then localWord s b else !localWord s b && remoteCoord a == remoteCoord b) && meet (wordAddr a) (wordAddr b) la lb

/-- Is a plan refused (R347)? Lengths are whole lines; sources lie on this package. -/
def planRefused (s : State) (es : List PlanEntry) : Bool :=
  let ix := (List.range es.length).zip es
  decide (2 ^ 24 < es.length) || es.any (fun e => e.len == 0 || decide (e.len % 64 ≠ 0) || !localWord s e.src)
    || ix.any (fun p => ix.any (fun q => decide (p.1 < q.1) && wordsMeet s p.2.dst p.2.len q.2.dst q.2.len))
    || es.any (fun e => localWord s e.dst && es.any (fun f => meet (wordAddr e.dst) (wordAddr f.src) e.len f.len))

/-- Send one entry (R348): a copy on this package, or WRITE messages. -/
def sendEntryOf (e : PlanEntry) (s : State) : State :=
  let a := wordAddr e.src
  let b := wordAddr e.dst
  let s := bumpReg 0x502404 e.len s
  if localWord s e.dst then putMem b (s.bytes a e.len) s
  else
    let d := a / dieBytes % 4
    allOf (messageSplit (e.len / 64)) (fun p s =>
      sendMsg d (some (reshardOwner, 0))
        { type := 1, dst := remoteEp (remoteCoord e.dst) (b + 64 * p.1), src := BitVec.ofNat 24 (endpoint s d 768), stag := s.dieTags.getD d 0,
          addr := BitVec.ofNat 44 (b + 64 * p.1), data := s.bytes (a + 64 * p.1) (64 * p.2) } s) s

/-- RUN_RE_SHARD (R348): accepted in HELD and LOADED. A command that finds the collective running abandons it. -/
def opRunReShard (s : State) : State :=
  if s.reg 0x502403 = 1 then abandonReShard s
  else if s.life ≠ .held ∧ s.life ≠ .loaded then powered (setReg 0x502403 4) s
  else
    let es := planOf s
    if isRemote (s.reg 0x502401) ∨ planRefused s es then setReg 0x502403 4 s
    else
      let rs : ReShard := { entries := es.map (fun e => (e.src, e.dst, e.len, e.layer, e.shard)) }
      allOf es sendEntryOf (setReg 0x502403 1 { s with recov := { s.recov with reshard := rs } })

def execRunReShard (s : State) : Host.Outcome State Fault Refusal := .next (powered opRunReShard s)

/-- The new layout of a dense shard half that an entry moves with its header (R233, R348): on this package the header is
written with VERSION increased; elsewhere the shard leaves this package's catalogue. -/
def switchDense (e : Nat × Nat × Nat × Nat × Nat) (s : State) : State :=
  let src := wordAddr e.1
  let dst := wordAddr e.2.1
  let here := localWord s e.2.1
  let hit := fun (x : ShardEntry) => x.half0 == src || x.half1 == src
  if e.2.2.2.1 < 0x8000 ∧ s.job.shards.any hit then
    let move := fun (x : ShardEntry) =>
      if hit x then { x with shard := e.2.2.2.2, die := dst / dieBytes, half0 := (if x.half0 = src then dst else x.half0), half1 := (if x.half1 = src then dst else x.half1) } else x
    let shards := if here then s.job.shards.map move else s.job.shards.filter (fun x => !hit x)
    let s := { s with job := { s.job with shards := shards } }
    if here then
      let h := s.le dst 8
      putMem dst (leBytes 8 (atBit 48 e.2.2.2.1 + atBit 32 e.2.2.2.2 + (h + 1) % 2 ^ 32)) s
    else s
  else s

/-- The new place of a table shard that an entry moves whole. -/
def switchTable (e : Nat × Nat × Nat × Nat × Nat) (s : State) : State :=
  let src := wordAddr e.1
  let dst := wordAddr e.2.1
  let here := localWord s e.2.1
  if 0x8000 ≤ e.2.2.2.1 then
    allOf (s.tables.shards.filter (fun p => p.2.header == src)) (fun p s =>
      let rest := smDel s.tables.shards p.1
      let moved : Shard := { p.2 with shard := e.2.2.2.2, die := dst / dieBytes, header := dst }
      let shards := if here then smPut rest (shardKey p.2.table e.2.2.2.2 0) moved else rest
      { s with tables := { s.tables with shards := shards } }) s
  else s

/-- RE_SHARD_SWITCH (R348, R435): the new layout is live; every generation and mirror is discarded, and the Hall of Mirrors
starts cold (R213, R346). -/
def opSwitch (s : State) : State :=
  if s.reg 0x502403 = 1 ∧ !ownerOwes s reshardOwner then
    let es := s.recov.reshard.entries
    let s := allOf es (fun e s => switchTable e (switchDense e s)) s
    let recov := { s.recov with reshard := {}, gens := [], mirrors := [], undo := [] }
    let tables := { s.tables with hot := [], replicas := [], sketch := [], cands := [], looks := [], repLooks := [], winSteps := [0, 0, 0, 0] }
    let s := { s with recov := recov, tables := tables }
    setReg 0x502403 2 (setReg 0x60000A 0 (setReg 0x600004 0 (setReg 0x340006 0 (showLevels s))))
  else s

def execReShardSwitch (s : State) : Host.Outcome State Fault Refusal := .next (powered opSwitch s)

end Sys2Proof.Machine
end

