-- ==== Sys2Proof/Machine/Deliver.lean ====
section
/-!
DEFINITION. End-to-end delivery at the destination (R310-R313, R317) and at the source (R314), and the router's share of a
received message (R305-R311).
-/

namespace Sys2Proof.Machine

/-! ### Applying a message -/

/-- Die a message is for. -/
def msgDie (m : Msg) : Nat := epDie m.dst.toNat

/-- One line of a WRITE (R86, R311): a tile's window under its step tag, a stack line at once; a page that is backing of a
paged region is refused with 0x2004 (R262), and nothing is written outside the ranges (R16). -/
def writeLine (m : Msg) (a : Nat) (bs : List Byte) (s : State) : State :=
  match placeOf a with
  | .stack _ =>
    if bitAt (pageAttr s a) 3 then raiseAt 0x2004 (msgDie m) (epTile m.dst.toNat) 0 (bitField a 43 12) s else putMem a bs s
  | .window k l => if tilesLive s then arriveLine k m.stag l bs s else s
  | _ => s

/-- A generation header from the partner reaches the staging pool (R415, R418): its part of the partner's generation is in. -/
def noteMirror (m : Msg) (s : State) : State :=
  let a := m.addr.toNat
  if m.data.length = 64 ∧ inStaging s a ∧ epCoord m.src.toNat = s.reg 0x102402 then
    let n := leAt m.data 0 64
    let g : MirrorGen := { gen := bitField n 511 480, step := bitField n 479 432, die := msgDie m, header := a }
    { s with recov := { s.recov with mirrors := s.recov.mirrors.filter (fun x => !(x.die == g.die && x.st == 0)) ++ [g] } }
  else s

/-- The shard of this package whose header a gradient entry names (R206). -/
def entryShard (s : State) (a : Nat) : Option Nat := (s.tables.shards.find? (fun p => decide (p.2.header = a))).map (fun p => p.1)

/-- WRITE (R311): a recovery record (R422), a gradient entry (R204), or lines and then the token. -/
def applyWrite (m : Msg) (s : State) : State :=
  let a := m.addr.toNat
  if recoveryArea ≤ a ∧ a < recoveryArea + 0x1_0000 then
    if m.dst.toNat % 4096 = 768 then allOf (chunksOf 64 m.data) takeRecRecord s else s
  else
    match entryShard s a with
    | some key =>
      let n := (m.data.length - 16) / 4
      if tilesLive s then
        arriveEntry (msgDie m) m.stag key (BitVec.ofNat 128 (leAt m.data 0 16)) ((List.range n).map (fun i => leAt m.data (16 + 4 * i) 4)) m.src.toNat s
      else s
    | none =>
      let s := allOf (List.range (m.data.length / 64)) (fun i => writeLine m ((a + 64 * i) % 2 ^ 44) (sliceBytes m.data (64 * i) 64)) s
      let s := noteMirror m s
      match placeOf a with
      | .window k _ => if m.dte && tilesLive s then arriveToken k m.stag m.dtk 1 s else s
      | _ => s

/-- A line read for another package (R16, R46, R255, R262): what cannot be read gives undefined bytes. -/
def readLine (m : Msg) (a : Nat) (r : List Byte × State) : List Byte × State :=
  let s := r.2
  let undef := fun (s : State) => let b := freeBytes 64 s; (r.1 ++ b.1, b.2)
  match placeOf a with
  | .stack d =>
    if bitAt (pageAttr s a) 3 then undef (raiseAt 0x2004 (msgDie m) (epTile m.dst.toNat) 0 (bitField a 43 12) s)
    else if badStack s a 64 then undef (stackUncorrectable d (800 + (stackPlace a).1 % 4) a s)
    else (r.1 ++ s.bytes a 64, s)
  | .window k _ => if badSram s a 64 then undef (sramUncorrectable k a s) else (r.1 ++ s.bytes a 64, s)
  | _ => (r.1 ++ List.replicate 64 0, s)

/-- READ (R311): the lines, or zeros with the error bit where one lies outside every range (R16). -/
def applyRead (m : Msg) (s : State) : State :=
  let n := bitField m.body.toNat 255 250 + 1
  let as := (List.range n).map (fun i => (m.addr.toNat + 64 * i) % 2 ^ 44)
  let err := as.any (fun a => !isMemory a)
  let r := if err then (List.replicate (64 * n) 0, s) else as.foldl (fun r a => readLine m a r) ([], s)
  let rsp : Msg := { type := 3, dst := m.src, src := m.dst, stag := s.dieTags.getD (msgDie m) 0, addr := m.addr,
                     body := BitVec.ofNat 256 (atBit 255 (boolNat err)), data := r.1 }
  sendMsg (msgDie m) none rsp r.2

/-- Lines read reach a tile's SRAM. -/
def fillTile (k local_ : Nat) (bs : List Byte) (s : State) : State :=
  allOf (List.range (bs.length / 64)) (fun i => putMem (tileBase k + localAddr (local_ + 64 * i)) (sliceBytes bs (64 * i) 64)) s

/-- What a READRSP does for the reader (R16, R82, R234, R262). -/
def answerRead (r : ReadReq) (err : Bool) (m : Msg) (s : State) : State :=
  match r.who with
  | .tile k id local_ =>
    let s := if err then outOfRange k r.addr s else if (findXfer (s.tile k) id).isSome then fillTile k local_ m.data s else s
    let s := if r.gather && !err then gatherHeader (keyDie k) (leAt m.data 0 8) s else s
    answerXfer k id s
  | .core d c => if err then emit (.coreFault d c 0 r.addr) s else emit (.coreData d c m.data) s
  | .paging k local_ =>
    let s := if err then outOfRange k r.addr s else fillTile k local_ m.data s
    setPager k { s.pager k with inflight := (s.pager k).inflight.map (fun p => (p.1, p.2.1, p.2.2 - 1)) } s
  | .slice k id w => answerSlice k id w err m.data s
  | .carry a => tryRestored (if err then s else putMem a (sliceBytes m.data 0 64) s)

/-- READRSP (R311): it answers the READ of its endpoints and address. -/
def applyReadRsp (m : Msg) (s : State) : State :=
  match s.reads.find? (fun r => r.addr == m.addr.toNat && r.dst == m.src.toNat && r.src == m.dst.toNat) with
  | none => s
  | some r => answerRead r (bitAt m.body.toNat 255) m { s with reads := s.reads.erase r }

/-- SIGNAL (R84, R311, R386). -/
def applySignal (m : Msg) (s : State) : State :=
  let cnt := bitField m.body.toNat 255 240
  let tk := Fin.ofNat 64 (bitField m.body.toNat 239 234)
  let t := epTile m.dst.toNat
  if t < 768 then (if tilesLive s then arriveToken (msgDie m * 768 + t) m.stag tk cnt s else s)
  else if t < 776 then arriveCore (msgDie m) (t - 768) m.stag tk cnt m.src.toNat s
  else s

/-- Apply a sequenced message at its destination (R311). -/
def applyMsg (m : Msg) (s : State) : State :=
  match m.type.toNat with
  | 1 => applyWrite m s
  | 2 => applyRead m s
  | 3 => applyReadRsp m s
  | 4 => applySignal m s
  | 6 =>
    match (voteChildren s).find? (fun c => c.2 == epCoord m.src.toNat) with
    | none => s
    | some c => opVote c.1 (voteOf m.body) s
  | 7 => let d := decisionOf (m.body.toNat / 2 ^ 128); opDecision d.action d s
  | 8 => arriveReduce (msgDie m) (reduceOf m) s
  | 9 => opRoute (bitField m.body.toNat 255 248) (bitField m.body.toNat 247 232) (bitField m.body.toNat 231 220) s
  | _ => s

/-! ### Order and acknowledgement -/

/-- Key of the receiving flow of a message (R312): destination die and source endpoint die. -/
def rxKey (m : Msg) : Nat := msgDie m * 16384 + m.src.toNat / 1024

/-- Acknowledge a flow up to the message before the next expected (R313); nothing is acknowledged before the first. -/
def sendAck (key : Nat) (s : State) : State :=
  let f := s.flowRx key
  let d := key / 16384
  if f.expected = 0 then s
  else
    sendBare d { type := 5, dst := BitVec.ofNat 24 (key % 16384 * 1024 + 768), src := BitVec.ofNat 24 (endpoint s d 768), stag := s.dieTags.getD d 0,
                 body := BitVec.ofNat 256 (atBit 224 (f.expected - 1).toNat) } (setRx key { f with owed := 0 } s)

/-- Must a message wait (R86, R387): a full early-arrival queue, or a full job flow, withholds credits? -/
def mustWait (s : State) (m : Msg) : Bool :=
  let d := msgDie m
  let full := fun (k need : Nat) => m.stag == nextTag (s.tile k).tag && decide (4096 < (s.early.getD (keyDie k) []).length + need)
  match m.type.toNat with
  | 1 => (match placeOf m.addr.toNat with
      | .window k _ => tilesLive s && full k (m.data.length / 64 + boolNat m.dte)
      | _ => (entryShard s m.addr.toNat).isSome && m.stag == nextTag (s.dieTags.getD d 0) && decide (4096 ≤ (s.early.getD d []).length))
  | 4 =>
    let t := epTile m.dst.toNat
    if t < 768 then tilesLive s && full (d * 768 + t) 1
    else decide (t < 776) && (if m.stag = s.dieTags.getD d 0 then coreFlowFull s d (t - 768) (Fin.ofNat 64 (bitField m.body.toNat 239 234))
      else m.stag == nextTag (s.dieTags.getD d 0) && decide (4096 ≤ (s.early.getD d []).length))
  | _ => false

/-- Apply the message a flow expects, and count it towards the next ACK. A ROUTE may have restarted the flow (R317): the flow
then continues after the ROUTE itself. -/
def applyNext (key : Nat) (m : Msg) (s : State) : State :=
  let e := s.epoch
  let s := applyMsg m s
  let f := s.flowRx key
  if s.epoch = e ∨ m.type = 9 then setRx key { f with expected := m.eseq + 1, owed := f.owed + 1 } s else s

/-- Apply held messages that have become next in turn. -/
def drainHeld : Nat → Nat → State → State
  | 0, _, s => s
  | n + 1, key, s =>
    let f := s.flowRx key
    match f.held.find? (fun m => decide (m.eseq = f.expected)) with
    | none => s
    | some m =>
      if mustWait s m then s
      else drainHeld n key (applyNext key m (setRx key { f with held := f.held.filter (fun x => decide (x.eseq ≠ m.eseq)) } s))

/-- Messages held for order by a die (R313). -/
def heldCount (s : State) (d : Nat) : Nat :=
  ((s.flowsRx.filter (fun p => decide (p.1 / 16384 = d))).map (fun p => p.2.held.length)).foldl (· + ·) 0

/-- A sequenced message in the order of its flow (R313). -/
def inOrder (m : Msg) (s : State) : State :=
  let key := rxKey m
  let d := msgDie m
  let f := s.flowRx key
  let ahead := (m.eseq - f.expected).toNat
  if ahead = 0 then
    if mustWait s m then s
    else
      let s := applyNext key m s
      let s := drainHeld ((s.flowRx key).held.length) key s
      if 16 ≤ (s.flowRx key).owed then sendAck key s else s
  else if ahead ≤ 4095 then
    if f.held.any (fun x => decide (x.eseq = m.eseq)) then bumpReg (dieKey d 0x81800E) 1 s
    else if 4096 ≤ heldCount s d then bumpReg (dieKey d 0x818010) 1 s
    else bumpReg (dieKey d 0x81800F) 1 (setRx key { f with held := f.held ++ [m] } s)
  else sendAck key (bumpReg (dieKey d 0x81800E) 1 s)

/-- ACK (R313, R314): what it covers leaves the retransmit store; transfers are answered and waiting messages admitted. -/
def applyAck (m : Msg) (s : State) : State :=
  let key := txKey (msgDie m) m.src.toNat
  let a := BitVec.ofNat 32 (bitField m.body.toNat 255 224)
  let f := s.flowTx key
  let covered := fun (u : Unacked) => decide ((a - u.msg.eseq).toNat < 2 ^ 31)
  let done := f.unacked.filter covered
  if done = [] then s
  else
    let s := setTx key { f with unacked := f.unacked.filter (fun u => !covered u) } s
    let s := allOf done (fun u s => match u.owner with
      | none => s
      | some o => if o.1 < 3072 then answerXfer o.1 o.2 s else s) s
    tryDrained (retryWaiting s)

/-- A message has reached its destination (R310, R313, R317). -/
def deliver (m : Msg) (s : State) : State :=
  let d := msgDie m
  if !typeDefined m.type then discardMsg 0x4006 d m s
  else if !endpointDefined d (epTile m.dst.toNat) then discardMsg 0x4005 d m s
  else if !msgIntact m then raiseAt 0x4009 d 768 0 m.type.toNat (bumpReg (dieKey d 0x818013) 1 s)
  else if m.repoch.toNat = s.epoch ∨ (m.type = 9 ∧ newerEpoch s m.repoch.toNat) then
    if m.type = 5 then applyAck m s
    else if m.type = 9 ∧ m.repoch.toNat ≠ s.epoch then applyNext (rxKey m) m s
    else inOrder m s
  else s

/-! ### The commands of a destination -/

/-- A message of a type arrives at this package. One addressed to another package is no such command: a router forwards it. -/
def opArrive (type : BitVec 4) (m : Msg) (s : State) : State :=
  if netLive s ∧ epCoord m.dst.toNat = s.coord then deliver { m with type := type } s else s

/-- MIDWAY_WRITE (R311). -/
def execMidwayWrite (m : Msg) (s : State) : Host.Outcome State Fault Refusal := .next (powered (opArrive 1 m) s)

/-- MIDWAY_READ (R311). -/
def execMidwayRead (m : Msg) (s : State) : Host.Outcome State Fault Refusal := .next (powered (opArrive 2 m) s)

/-- READRSP (R311). -/
def execReadrsp (m : Msg) (s : State) : Host.Outcome State Fault Refusal := .next (powered (opArrive 3 m) s)

/-- SIGNAL (R311). -/
def execSignalMessage (m : Msg) (s : State) : Host.Outcome State Fault Refusal := .next (powered (opArrive 4 m) s)

/-- ACK (R311, R313). -/
def execAck (m : Msg) (s : State) : Host.Outcome State Fault Refusal := .next (powered (opArrive 5 m) s)

/-- ACK_TIMER (R313): messages of a flow of die `d` from an endpoint die `src` have stood unacknowledged for 2 µs. -/
def opAckTimer (d : Nat) (src : Nat) (s : State) : State :=
  let key := d * 16384 + src
  if netLive s ∧ 0 < (s.flowRx key).owed then sendAck key s else s

def execAckTimer (d : Fin 4) (src : Fin 16384) (s : State) : Host.Outcome State Fault Refusal := .next (powered (opAckTimer d.val src.val) s)

/-- END_TO_END_TIMEOUT (R314) of the flow from die `d` to an endpoint die: everything unacknowledged is sent again in ESEQ order,
or the flow fails once a message has been sent the retransmit limit of times. -/
def opEndToEnd (d dst : Nat) (s : State) : State :=
  let key := d * 16384 + dst
  let f := s.flowTx key
  if netLive s ∧ f.unacked ≠ [] then
    if f.unacked.any (fun u => decide (s.reg 0x40000B ≤ u.sends)) then failFlow key s
    else
      let s := setTx key { f with unacked := f.unacked.map (fun u => { u with sends := u.sends + 1 }) } s
      let s := bumpReg (dieKey d 0x81800C) f.unacked.length s
      allOf f.unacked (fun u => routeOut d none u.msg) s
  else s

def execEndToEndTimeout (d : Fin 4) (dst : Fin 16384) (s : State) : Host.Outcome State Fault Refusal := .next (powered (opEndToEnd d.val dst.val) s)

/-! ### The router -/

/-- Does a message end at this package: its coordinate is this package's, or it is the ROUTE that gives this spare its coordinate
(R309, R317)? -/
def endsHere (s : State) (m : Msg) : Bool :=
  epCoord m.dst.toNat == s.coord
    || (isSpare s && m.type == 9 && bitField m.body.toNat 247 232 == s.pos && s.recov.asking.isSome)

/-- MESSAGE_FORWARD (R305-R311): the first complete message of a port's channel leaves the receive buffer, whose credits are owed
to the sender (R300); it is delivered here, or leaves by the route table. One whose destination withholds credits stays. -/
def opForward (p vc : Nat) (s : State) : State :=
  if netLive s then
    match takeMessage vc (s.port p).link.rx with
    | none => s
    | some (m, rest) =>
      let here := endsHere s m && m.type != 0xB
      if here && mustWait s m && m.eseq == (s.flowRx (rxKey m)).expected then s
      else
        let gone := (s.port p).link.rx.length - rest.length
        let owe := fun (q : MidPort) => { q with link := { q.link with rx := rest, owed := setAt q.link.owed vc (nth q.link.owed vc + gone) } }
        let s := modPort p owe s
        let s := if !typeDefined m.type then discardMsg 0x4006 (portDie p) m s
          else if m.type = 0xB then opProbe p (BitVec.ofNat 12 (bitField m.body.toNat 255 244)) s
          else if here then deliver m s
          else routeOut (portDie p) (some ((wireOf s p).pair, vc)) m s
        pumpPort p false s
  else s

def execMessageForward (p : Fin 16) (vc : Fin 6) (s : State) : Host.Outcome State Fault Refusal := .next (powered (opForward p.val vc.val) s)

end Sys2Proof.Machine
end

