-- ==== Sys2Proof/Machine/Security.lean ====
section
/-!
DEFINITION. Verification of signed objects (R475, R476), security version minima (R486), owner and management key (R481, R482), the installation
descriptor (R483), attestation (R480, R484) and updates (R485, R486).
-/

namespace Sys2Proof.Machine

/-! ### Verification -/

/-- The signer role that a kind requires (R476). -/
def kindRole (kind : Nat) : Nat :=
  if kind ∈ [1, 2, 3, 0x10, 0x11, 0x12, 0x13] then 1 else if kind ∈ [4, 6, 0x15, 0x16] then 2 else if kind ∈ [5, 0x14, 0x17] then 3 else 0

/-- Are the signer's keys trusted for its role (R475)? -/
def keysTrusted (s : State) (o : List Byte) : Bool :=
  match objRole o with
  | 1 => Config.romKeys.contains (sha384 (objKeys o))
  | 2 => s.board.boot.owner == some (objKeys o)
  | 3 => objKeys o == Config.deviceKeys
  | _ => false

/-- Do both signatures verify under the keys the object carries (R475)? -/
def signaturesHold (o : List Byte) : Bool :=
  let ecdsa := Config.ecdsaValid (sliceBytes o 24 97) (sha384 (objSigned o)) (sliceBytes o (184 + objBodyLen o) 96)
  let hss := Config.hssValid (sliceBytes o 121 60) (objSigned o) (sliceBytes o (280 + objBodyLen o) (leAt o 20 4))
  ecdsa && hss

/-- What a verification finds (R475). -/
inductive Verdict where
  | ok | signature | version
deriving DecidableEq, Repr

/-- Verify an object of a kind (R475). -/
def verifyObject (s : State) (kind : Nat) (o : List Byte) : Verdict :=
  if !objFramed o || objKind o != kind || objRole o != kindRole kind || !keysTrusted s o || !signaturesHold o then .signature
  else if objVersion o < smGetD s.board.boot.minima kind 0 then .version else .ok

/-- The event of a refusal (R475). -/
def refuseEvent (v : Verdict) (s : State) : State :=
  match v with
  | .ok => s
  | .signature => raise_ 0x8007 s
  | .version => raise_ 0x8008 s

/-- Show the slots (R490). -/
def showSlots (s : State) : State :=
  let f := s.board.flash
  setReg 0x104403 f.active (setReg 0x104404 (nth f.slots 0 + 4 * nth f.slots 1) s)

/-! ### Security version minima -/

/-- Body of record 0x17 (assumption 92): the minima of kinds 1 to 6, U32 each. -/
def minimaBody (s : State) : List Byte := (List.range 6).flatMap (fun i => leBytes 4 (smGetD s.board.boot.minima (i + 1) 0))

/-- Minima from a body of record 0x17. -/
def parseMinima (b : List Byte) : SMap Nat := (List.range 6).map (fun i => (i + 1, leAt b (4 * i) 4))

/-- Write the record of the minima: not where no signature remains (R480). -/
def writeMinima (s : State) : State :=
  if canSign s then
    let r := deviceSign 0x17 (max (objSeq (flashRecord s 0x17 0)) (objSeq (flashRecord s 0x17 1)) + 1) (minimaBody s) s
    writeRecord 0x17 r.1 r.2
  else s

/-- Raise the minimum of a kind (R486): it never falls. -/
def raiseMinimum (kind ver : Nat) (s : State) : State :=
  if ver ≤ smGetD s.board.boot.minima kind 0 then s
  else
    let s := modBoot (fun b => { b with minima := smPut b.minima kind ver }) s
    writeMinima (if kind = 1 then setReg 0x104405 ver s else s)

/-! ### The installation descriptor -/

/-- This package's identity (R483). -/
def ownIdentity : List Byte := (sha256 (Config.deviceKeys.take 97)).take 16

/-- Spare rings from a byte offset: a count, then per ring a length and its positions. -/
def ringsFrom (b : List Byte) : Nat → Nat → List (List Nat) × Nat
  | 0, off => ([], off)
  | n + 1, off =>
    let len := leAt b off 2
    let r := (List.range len).map (fun i => leAt b (off + 2 + 2 * i) 2)
    let rest := ringsFrom b n (off + 2 + 2 * len)
    (r :: rest.1, rest.2)

/-- A descriptor body taken apart (R483). -/
def parseDesc (b : List Byte) : Desc :=
  let members := leAt b 8 2
  let spares := leAt b 10 2
  let n := members + spares
  let posAt := fun (i : Nat) =>
    let o := 12 + 32 * i
    ({ ident := sliceBytes b o 16, spare := leAt b (o + 16) 1 == 1, coord := leAt b (o + 18) 2 % 4096, partner := leAt b (o + 20) 2 % 4096 } : PosEntry)
  let wireAt := fun (i : Nat) =>
    let o := 12 + 32 * n + 4 * i
    ({ pair := leAt b o 1, farPort := leAt b (o + 1) 1, farPos := leAt b (o + 2) 2 } : Wire)
  let ringOff := 12 + 32 * n + 64 * n
  let rings := ringsFrom b (leAt b ringOff 2) (ringOff + 2)
  let mgmt := (List.range (leAt b rings.2 2)).map (fun i => (sliceBytes b (rings.2 + 2 + 18 * i) 16, leAt b (rings.2 + 18 + 18 * i) 1))
  { version := leAt b 0 4, nx := leAt b 4 1, ny := leAt b 5 1, nz := leAt b 6 1, wrap := leAt b 7 1,
    positions := (List.range n).map posAt, wires := (List.range (16 * n)).map wireAt, rings := rings.1, mgmt := mgmt }

/-- Does a descriptor keep the bounds of R304 and R483? -/
def descInRange (d : Desc) : Bool :=
  let size := fun (n : Nat) => decide (1 ≤ n) && decide (n ≤ 16)
  size d.nx && size d.ny && size d.nz && decide (d.positions.length ≤ 8192) && decide (d.mgmt.length ≤ 16)

/-- Positions whose identity is this package's. -/
def ownPositions (d : Desc) : List Nat :=
  (List.range d.positions.length).filter (fun i => ((d.positions[i]?).map (fun p => p.ident == ownIdentity)).getD false)

/-- Does a port have a role (R305)? -/
def portWired (s : State) (p : Nat) : Bool := decide ((wireOf s p).pair ≤ 7)

/-- Every wired port trains; the others stay idle (R301, R485). -/
def trainPorts (s : State) : State :=
  showPorts (allOf (List.range 16) (fun p s => if portWired s p then startTraining p s else modPort p stopPort s) s)

/-- Put a verified descriptor into force at a position (R304, R396, R483). -/
def useDescriptor (o : List Byte) (d : Desc) (pos : Nat) (s : State) : State :=
  let e := d.positions.getD pos { ident := [], spare := false, coord := 0, partner := 0 }
  let s := setBlob 0x102001 o (setBlob 0x102002 (sha256 o) { s with desc := some d })
  let s := setReg 0x102003 d.version (setReg 0x102004 1 (setReg 0x400005 pos s))
  let s := setReg 0x400001 d.nx (setReg 0x400002 d.ny (setReg 0x400003 d.nz (setReg 0x400004 d.wrap s)))
  let s := setReg 0x102401 e.coord (setReg 0x102402 e.partner (setReg 0x102403 (if e.spare then 2 else 1) s))
  trainPorts s

/-- The package holds no verified descriptor: it has no role, and its ports send nothing (R301). -/
def dropDescriptor (s : State) : State :=
  let s := setReg 0x102004 0 (setReg 0x102403 0 { s with desc := none })
  showPorts { s with ports := s.ports.map stopPort }

/-- Take a descriptor whose signatures have been verified: one that names this package in no entry or in two raises 0x8009 and is
not verified. -/
def takeDescriptor (o : List Byte) (s : State) : State :=
  let d := parseDesc (objBody o)
  match ownPositions d with
  | [p] => if descInRange d then useDescriptor o d p s else dropDescriptor (raise_ 0x8009 s)
  | _ => dropDescriptor (raise_ 0x8009 s)

/-! ### Owner and management key -/

/-- Is an owner record accepted (R481): signed by the keys it carries while there is no owner, on M0; or by the owner's keys? -/
def ownerAccepted (s : State) (viaM0 : Bool) (o : List Byte) : Bool :=
  objFramed o && objKind o == 0x15 && objRole o == 2 && decide (objBodyLen o = 157) && signaturesHold o
    && (match s.board.boot.owner with
        | none => viaM0 && objKeys o == objBody o
        | some k => objKeys o == k)

/-- An owner record (R481): a change of owner raises 0x800B, and what the previous owner signed is no longer accepted. -/
def takeOwner (viaM0 : Bool) (o : List Byte) (s : State) : Nat × State :=
  if ownerAccepted s viaM0 o then
    let new := objBody o
    let old := s.board.boot.owner
    let s := setBlob 0x104004 o (writeRecord 0x15 o (modBoot (fun b => { b with owner := some new }) s))
    if old = some new ∨ old = none then (0, s)
    else (0, raise_ 0x800B (dropDescriptor (setBlob 0x104005 [] (modBoot (fun b => { b with mgmtKey := none }) s))))
  else (7, raise_ 0x8007 s)

/-- The management record as it reads: its ciphertext, after the ephemeral key of 97 bytes, replaced by zeros (R482). -/
def blindRecord (o : List Byte) : List Byte := o.take 281 ++ List.replicate (o.length - 281) 0

/-- A management record (R482). -/
def takeManagement (o : List Byte) (s : State) : Nat × State :=
  match verifyObject s 0x16 o with
  | .ok =>
    match Config.unwrapKey (objBody o) with
    | none => (7, s)
    | some k => (0, setBlob 0x104005 (blindRecord o) (writeRecord 0x16 o (modBoot (fun b => { b with mgmtKey := some (sliceBytes k 0 32) }) s)))
  | v => (7, refuseEvent v s)

/-- May an RWL entry be written (R393)? Answers the status: 0, or 6 once the package has been in READY since its reset. -/
def rwlStatus (s : State) : Nat := if s.board.boot.wasReady then 6 else 0

/-- OWNER_RECORD (R481): a write of 0x1040.04, by M0 or by an Ethernet port. -/
def opOwner (viaM0 : Bool) (o : List Byte) (s : State) : Nat × State := if rwlStatus s = 0 then takeOwner viaM0 o s else (6, s)

def execOwnerRecord (viaM0 : Bool) (o : List Byte) (s : State) : Host.Outcome State Fault Refusal :=
  .next (powered (fun s => (opOwner viaM0 o s).2) s)

/-- MANAGEMENT_RECORD (R482): a write of 0x1040.05. -/
def opManagement (o : List Byte) (s : State) : Nat × State := if rwlStatus s = 0 then takeManagement o s else (6, s)

def execManagementRecord (o : List Byte) (s : State) : Host.Outcome State Fault Refusal := .next (powered (fun s => (opManagement o s).2) s)

/-! ### Attestation -/

/-- Retired tiles of a die (R61). -/
def retiredCount (s : State) (d : Nat) : Nat := (s.retired.filter (fun p => decide (p.1 / 32 = d))).length

/-- The body of an attestation report (R484). -/
def reportBody (s : State) : List Byte :=
  let f := flashObject s 1 s.board.flash.active
  let pack := if s.gal.pack = [] then List.replicate 48 0 else sha384 (flashObject s 2 0)
  sliceBytes (s.blob 0x104006) 0 32 ++ leBytes 8 s.now ++ leBytes 8 (s.reg 0x104406) ++ sha384 f ++ pack
    ++ sliceBytes (s.blob 0x102002) 0 32 ++ leBytes 2 s.pos ++ leBytes 1 (s.reg 0x102403) ++ leBytes 1 (s.reg 0x101005)
    ++ (List.range 4).flatMap (fun d => leBytes 1 (s.reg (0x101001 + d))) ++ (List.range 4).flatMap (fun d => leBytes 1 (retiredCount s d))
    ++ leBytes 4 (objVersion f) ++ leBytes 8 s.trunk.nextSeq ++ leBytes 1 (stateCode s.life) ++ leBytes 1 (boolNat s.board.boot.suitesPassed)
    ++ List.replicate 6 0 ++ sliceBytes (if holdsJob s then s.job.digest else []) 0 48

/-- Form an attestation report (R484) where the device can sign. -/
def formReport (s : State) : State :=
  if canSign s then
    let r := deviceSign 5 (s.board.boot.nextIndex + 1) (reportBody s) s
    modBoot (fun b => { b with reportAt := some s.now }) (setBlob 0x104007 r.1 r.2)
  else s

/-- ATTESTATION_NONCE (R484): a write of 0x1040.06; one within 1 s of the last report is refused with 0x0A. -/
def opNonce (n : List Byte) (s : State) : Nat × State :=
  let soon := match s.board.boot.reportAt with
    | none => false
    | some t => decide (s.now < t + 10 ^ 9)
  if soon then (0x0A, s)
  else
    let s := setBlob 0x104006 (sliceBytes n 0 32) s
    (0, if s.life = .ready ∨ holdsJob s then formReport s else s)

def execAttestationNonce (n : BitVec 256) (s : State) : Host.Outcome State Fault Refusal :=
  .next (powered (fun s => (opNonce (leBytes 32 n.toNat) s).2) s)

/-! ### Updates -/

/-- Tests of a pack body (R442); `fuel` bounds them. No bytes follow the input image: a scale map's lines lie in it. -/
def packTests (b : List Byte) : Nat → Nat → List GalleryTest
  | 0, _ => []
  | n + 1, off =>
    if b.length ≤ off then []
    else
      let words := leAt b (off + 8) 2
      let lines := leAt b (off + 10) 2
      let w := off + 280
      { number := leAt b off 2, beats := leAt b (off + 4) 4, words := (List.range words).map (fun i => leAt b (w + 8 * i) 8),
        image := sliceBytes b (w + 8 * words) (64 * lines), lines := leAt b (off + 12) 2, hash := BitVec.ofNat 64 (leAt b (off + 16) 8),
        scale := (List.range 16).map (fun i => BitVec.ofNat 128 (leAt b (off + 24 + 16 * i) 16)) } :: packTests b n (w + 8 * words + 64 * lines)

/-- Put a verified pack into force (R442, R455, R485). -/
def usePack (o : List Byte) (s : State) : State :=
  let tests := packTests (objBody o) 256 0
  setReg 0x701004 (Config.bodyVersion 2 (objBody o)) (setReg 0x701005 tests.length { s with gal := { s.gal with pack := tests } })

/-- May an object of a kind be written in the present state (R485)? -/
def updateAllowed (s : State) (kind : Nat) : Bool :=
  if s.board.boot.recovery then kind == 1
  else match kind with
    | 1 => s.life != .off && s.life != .fault
    | 2 => s.life = .standby || s.life = .ready
    | 3 => s.life = .standby || s.life = .ready
    | 4 => s.life = .standby
    | _ => s.life != .off && s.life != .fault

/-- UPDATE_OBJECT (R485): the final segment of a write of 0x1044.01 begins the verification. -/
def opUpdateObject (o : List Byte) (s : State) : Nat × State :=
  if s.board.boot.update.isSome then (0x0A, s)
  else if !updateAllowed s (objKind o) then (5, s)
  else (0, setReg 0x104402 1 (modBoot (fun b => { b with update := some o }) s))

def execUpdateObject (o : List Byte) (s : State) : Host.Outcome State Fault Refusal := .next (powered (fun s => (opUpdateObject o s).2) s)

/-- An update is refused. -/
def updateRefused (v : Verdict) (s : State) : State := refuseEvent v (setReg 0x104402 3 s)

/-- A verified update takes effect (R485). -/
def applyUpdate (kind : Nat) (o : List Byte) (s : State) : State :=
  match kind with
  | 1 =>
    let slot := if s.board.boot.recovery then 0 else 1 - s.board.flash.active
    showSlots (modFlash (fun f => { f with objects := smPut f.objects (2 + slot) o, slots := setAt f.slots slot 1, trials := setAt f.trials slot 0 }) s)
  | 2 => usePack o (modFlash (fun f => { f with objects := smPut f.objects 4 o }) s)
  | 3 => setReg 0x501806 (Config.bodyVersion 3 (objBody o)) (modFlash (fun f => { f with objects := smPut f.objects 6 o }) s)
  | _ => takeDescriptor o (modFlash (fun f => { f with objects := smPut f.objects 8 o }) s)

/-- Is a descriptor old, or of the same version and another digest (R485)? -/
def descriptorStale (s : State) (o : List Byte) : Bool :=
  let v := leAt (objBody o) 0 4
  decide (v < s.reg 0x102003) || (decide (v = s.reg 0x102003) && s.desc.isSome && sha256 o != s.blob 0x102002)

/-- UPDATE_VERIFICATION_COMPLETE (R475, R485, R486). The minimum for firmware rises only once its slot is confirmed. -/
def opUpdateComplete (s : State) : State :=
  match s.board.boot.update with
  | none => s
  | some o =>
    let kind := objKind o
    let s := modBoot (fun b => { b with update := none }) s
    if kind = 0 ∨ 4 < kind then updateRefused .signature s
    else
      match verifyObject s kind o with
      | .ok =>
        if !updateAllowed s kind then setReg 0x104402 3 s
        else if kind = 4 ∧ descriptorStale s o then updateRefused .version s
        else
          let s := raise_ 0x800C (setReg 0x104402 2 (applyUpdate kind o s))
          if kind = 1 then s else raiseMinimum kind (objVersion o) s
      | v => updateRefused v s

def execUpdateVerificationComplete (s : State) : Host.Outcome State Fault Refusal := .next (powered opUpdateComplete s)

end Sys2Proof.Machine
end

