-- ==== Sys2Proof/Machine/Image.lean ====
section
/-!
DEFINITION. The job image (R515 to R517): manifest, sections, what a section holds, the rules of R516 on sections, and the
checks of R68 on programs.
-/

namespace Sys2Proof.Machine

/-! ### Refusals -/

/-- A refused image (R396, R409): reason, detail, section, byte offset. -/
structure LoadFail where
  reason : Nat
  detail : Nat := 0xFFFFFFFF
  section_ : Nat := 0xFFFFFFFF
  offset : Nat := 0xFFFFFFFFFFFFFFFF
deriving DecidableEq, Repr

/-- A manifest section entry (R515) with its number. -/
structure Section where
  no : Nat
  kind : Nat
  die : Nat
  half : Nat
  tile : Nat
  addr : Nat
  len : Nat
  digest : List Byte
  reserved : Bool
deriving DecidableEq, Repr

/-- A failing item of a section: its byte offset, its unit (die x 1,024 + logical tile) and its place in the unit (R396). -/
def failItem (x : Section) (off unit place : Nat) : LoadFail := { reason := 8, detail := unit * 65536 + place, section_ := x.no, offset := off }

/-- A failing section. -/
def failSection (x : Section) : LoadFail := { reason := 8, section_ := x.no }

/-- A failing item that belongs to no tile. -/
def failOffset (x : Section) (off : Nat) : LoadFail := failItem x off 0xFFFF 0xFFFF

/-- The first failure of a list of checks. -/
def firstFail (cs : List (Option LoadFail)) : Option LoadFail := (cs.find? Option.isSome).getD none

/-- A check: a failure where the condition holds. -/
def failIf (bad : Bool) (f : LoadFail) : Option LoadFail := if bad then some f else none

/-- The first failure of a check over a list. -/
def eachOf {α : Type} (xs : List α) (f : α → Option LoadFail) : Option LoadFail := xs.findSome? f

/-! ### The envelope and the manifest -/

/-- Envelope bytes at an address (R474, R515): their number follows from B and L. -/
def envelopeBytes (s : State) (a : Nat) : Nat := 280 + s.le (a + 16) 4 + s.le (a + 20) 4

/-- The envelope at the image address. -/
def envelope (s : State) : List Byte := s.bytes (s.reg 0x100106) (envelopeBytes s (s.reg 0x100106))

/-- Is the image address 64-byte aligned and the envelope within the stacks (R515)? -/
def envelopePlaced (s : State) : Bool :=
  let a := s.reg 0x100106
  a % 64 == 0 && decide (a + 24 ≤ stackEnd) && decide (a + envelopeBytes s a ≤ stackEnd)

/-- Section entry `i` of a manifest body (R515). -/
def sectionAt (b : List Byte) (i : Nat) : Section :=
  let o := 64 + 80 * i
  { no := i, kind := leAt b o 2, die := leAt b (o + 2) 1, half := leAt b (o + 3) 1, tile := leAt b (o + 4) 2, addr := leAt b (o + 8) 8,
    len := leAt b (o + 16) 8, digest := sliceBytes b (o + 32) 48, reserved := leAt b (o + 6) 2 != 0 || leAt b (o + 24) 8 != 0 }

/-- The sections of a manifest body. -/
def sectionsOf (b : List Byte) : List Section := (List.range (leAt b 4 4)).map (sectionAt b)

/-- Is an entry outside what its fields may hold (R515)? -/
def sectionBad (x : Section) : Bool :=
  x.reserved || x.addr % 64 != 0 || x.len == 0 || decide (2 ^ 40 < x.len) || decide (stackEnd < x.addr + x.len)

/-- Check the manifest and the digest of every section (R515). -/
def manifestFail (s : State) (b : List Byte) : Option LoadFail :=
  let n := leAt b 4 4
  if leAt b 0 4 ≠ 1 ∨ n = 0 ∨ 2 ^ 20 < n ∨ b.length ≠ 64 + 80 * n ∨ leAt b 8 56 ≠ 0 then some { reason := 8 }
  else
    let bad := fun (x : Section) => sectionBad x || badStack s x.addr x.len || sha384 (s.bytes x.addr x.len) != x.digest
    eachOf (sectionsOf b) (fun x => failIf (bad x) (failSection x))

/-! ### What sections hold -/

/-- The bytes of a section. -/
def sectionBytes (s : State) (x : Section) : List Byte := s.bytes x.addr x.len

/-- Sections of a kind. -/
def ofKind (xs : List Section) (k : Nat) : List Section := xs.filter (fun x => decide (x.kind = k))

/-- Records of a section: the section, the record's offset, and its bytes. -/
def recordsOf (s : State) (n : Nat) (x : Section) : List (Section × Nat × List Byte) :=
  ((chunksOf n (sectionBytes s x)).zipIdx).map (fun p => (x, n * p.2, p.1))

/-- Records of all sections of a kind. -/
def kindRecords (s : State) (xs : List Section) (k n : Nat) : List (Section × Nat × List Byte) := (ofKind xs k).flatMap (recordsOf s n)

/-- Bytes of a record of a kind, where its sections are whole records: the size, and whether there is exactly one (R516, R517). -/
def recordSizeOf (kind : Nat) : Option (Nat × Bool) :=
  match kind with
  | 1 => some (256, true) | 5 => some (256, true) | 6 => some (8, false) | 7 => some (768, true) | 8 => some (1024, true)
  | 9 => some (96, true) | 10 => some (32, false) | 11 => some (32768, true) | 12 => some (32, false) | 13 => some (16, false)
  | 14 => some (32, false) | 15 => some (16, false) | 17 => some (64, true) | 18 => some (32, false)
  | _ => none

/-- Where a section of a kind belongs: 0 the package, 1 a die, 2 a tile, 3 the package or a die (R516). -/
def kindScope (kind : Nat) : Nat :=
  if kind ∈ [2, 4, 5, 6] then 2 else if kind ∈ [3, 7, 8, 9, 10, 11, 12] then 1 else if kind = 19 then 3 else 0

/-- Do DIE, HALF and TILE fit the kind? -/
def scopeOk (x : Section) : Bool :=
  let half := x.half == 0 || (x.kind == 3 && x.half == 1)
  let die := decide (x.die < 4)
  half && (match kindScope x.kind with
    | 0 => x.die == 0xFF && x.tile == 0xFFFF
    | 1 => die && x.tile == 0xFFFF
    | 2 => die && decide (x.tile < 768)
    | _ => (die || x.die == 0xFF) && x.tile == 0xFFFF)

/-- A number of sections of a kind with a die and a tile. -/
def countOf (xs : List Section) (kind die tile : Nat) : Nat :=
  (xs.filter (fun x => x.kind == kind && x.die == die && x.tile == tile)).length

/-- Is a once-only kind missing or repeated (R516)? Kinds 0x0F and 0x10 are required only where the job serves and has spares. -/
def onceBad (xs : List Section) (serving : Bool) : Bool :=
  let tile := (List.range 4).any (fun d => (List.range 768).any (fun t => [2, 5, 6].any (fun k => countOf xs k d t != 1)))
  let die := (List.range 4).any (fun d => [7, 8, 9, 10, 11, 12].any (fun k => countOf xs k d 0xFFFF != 1))
  let package := [1, 13, 14, 18].any (fun k => countOf xs k 0xFF 0xFFFF != 1)
  let most := [15, 16, 17].any (fun k => decide (1 < countOf xs k 0xFF 0xFFFF))
  tile || die || package || most || (serving && countOf xs 15 0xFF 0xFFFF != 1)

/-- Do two ranges share a byte? -/
def overlaps (a n b m : Nat) : Bool := decide (a < b + m) && decide (b < a + n)

/-- Does a range touch the command window (R356)? -/
def onCommandWindow (a n : Nat) : Bool := overlaps a n 0x47_FFFC_0000 0x4_0000

/-- Is a section's length wrong for its kind? -/
def lengthBad (s : State) (x : Section) : Bool :=
  let b := sliceBytes (s.bytes x.addr (min x.len 64)) 0 64
  match recordSizeOf x.kind with
  | some (n, true) => x.len != n
  | some (n, false) => x.len % n != 0
  | none =>
    match x.kind with
    | 2 => decide (4096 < leAt b 4 2) || decide (4096 < leAt b 6 2) || leAt b 8 8 != 0 || x.len != 16 + 8 * (leAt b 4 2 + leAt b 6 2)
    | 3 => decide (x.len ≤ 96) || x.len % 8 != 0 || decide (96 + 8 * 4096 < x.len)
    | 4 => decide (x.len ≤ 8) || decide (2 ^ 21 ≤ leAt b 0 8) || leAt b 0 8 % 64 != 0 || decide (sramSize < leAt b 0 8 + (x.len - 8))
    | _ => false

/-- The rules of R516 on sections, in the manifest's order. -/
def sectionsFail (s : State) (xs : List Section) (serving : Bool) (env : Nat) (envLen : Nat) : Option LoadFail :=
  let one := fun (x : Section) =>
    !(decide (1 ≤ x.kind) && decide (x.kind ≤ 19)) || !scopeOk x || overlaps x.addr x.len env envLen || onCommandWindow x.addr x.len
      || lengthBad s x || xs.any (fun y => decide (y.no < x.no) && overlaps x.addr x.len y.addr y.len)
  (eachOf xs (fun x => failIf (one x) (failSection x))).orElse (fun _ => failIf (onceBad xs serving) { reason := 8 })

/-! ### Programs -/

/-- A program: the first instruction address, the words, and the byte offset of the first word in its section. -/
structure Program where
  sec : Section
  unit : Nat
  base : Nat
  off : Nat
  words : List Nat

/-- Words of a section from a byte offset. -/
def wordsAt (b : List Byte) (off n : Nat) : List Nat := (List.range n).map (fun i => leAt b (off + 8 * i) 8)

/-- The two halves of a tile program section (R516 kind 2). -/
def tilePrograms (s : State) (x : Section) : List Program :=
  let b := sectionBytes s x
  let unit := x.die * 1024 + x.tile
  let h0 := leAt b 4 2
  [{ sec := x, unit := unit, base := 0, off := 16, words := wordsAt b 16 h0 },
   { sec := x, unit := unit, base := 4096, off := 16 + 8 * h0, words := wordsAt b (16 + 8 * h0) (leAt b 6 2) }]

/-- A program segment section (kind 3). -/
def segmentProgram (s : State) (x : Section) : Program :=
  { sec := x, unit := 0xFFFF, base := 4096 * x.half, off := 96, words := wordsAt (sectionBytes s x) 96 ((x.len - 96) / 8) }

/-- A loop of a program: the address of its LOOP, its end, its level. -/
abbrev LoopAt := Nat × Nat × Nat

/-- Does an address lie in a loop's body (R71)? -/
def inBody (x : Nat) (l : LoopAt) : Bool := decide (l.1 < x) && decide (x ≤ l.2.1)

/-- The operations of a program with their addresses; none for a word that does not decode. -/
def programOps (p : Program) : List (Nat × Option TileOp) :=
  (p.words.zipIdx).map (fun w => (p.base + w.2, (decodeTileWord (BitVec.ofNat 64 w.1)).map (fun d => d.1)))

/-- The loops of a program. -/
def loopsOf (ops : List (Nat × Option TileOp)) : List LoopAt :=
  ops.filterMap (fun o => match o.2 with
    | some (.loop lvl _ stop) => some (o.1, stop.toNat, lvl.val)
    | _ => none)

/-- The routine that a CALL reaches: the instructions from its target to its RET. -/
def routineFrom (ops : List (Nat × Option TileOp)) (t : Nat) : List (Nat × Option TileOp) :=
  (ops.dropWhile (fun o => decide (o.1 < t))).takeWhile (fun o => decide (o.2 ≠ some .ret))

/-- Does a routine called from inside loops start a LOOP on one of their levels, or branch into one of their bodies (R68)? -/
def routineBad (ops : List (Nat × Option TileOp)) (around : List LoopAt) (t : Nat) : Bool :=
  let enters := fun (a b : Nat) => around.any (fun l => inBody b l && !inBody a l)
  !around.isEmpty && (routineFrom ops t).any (fun o => match o.2 with
    | some (.loop lvl _ _) => around.any (fun l => l.2.2 == lvl.val)
    | some (.jump b) => enters o.1 b.toNat
    | some (.brm _ _ b) => enters o.1 b.toNat
    | _ => false)

/-- Does an instruction of a program break R68 on a die? -/
def instrBad (die : Nat) (ops : List (Nat × Option TileOp)) (loops : List LoopAt) (o : Nat × Option TileOp) : Bool :=
  match o.2 with
  | none => true
  | some op =>
    !tileOpOk die o.1 op || (match op with
      | .loop lvl _ stop => loops.any (fun l => decide (l.1 < o.1) && decide (o.1 ≤ l.2.1) && (decide (l.2.1 < stop.toNat) || l.2.2 == lvl.val))
      | .jump t => loops.any (fun l => inBody o.1 l != inBody t.toNat l)
      | .brm _ _ t => loops.any (fun l => inBody o.1 l != inBody t.toNat l)
      | .call t => loops.any (fun l => inBody t.toNat l && !inBody o.1 l) || routineBad ops (loops.filter (inBody o.1)) t.toNat
      | _ => false)

/-- Check a program (R68) for a die: the first failing instruction. -/
def programFail (p : Program) (die : Nat) : Option LoadFail :=
  let ops := programOps p
  let loops := loopsOf ops
  (ops.find? (instrBad die ops loops)).map (fun o => failItem p.sec (p.off + 8 * (o.1 - p.base)) p.unit o.1)

/-- The entry addresses of a tile program: the entry is an instruction address, and the backward entry names a word of the
step-start image (R227). -/
def entryFail (s : State) (x : Section) : Option LoadFail :=
  let b := sectionBytes s x
  let back := leAt b 2 2
  let named := decide (back < leAt b 4 2) || (decide (4096 ≤ back) && decide (back < 4096 + leAt b 6 2))
  (failIf (decide (8191 < leAt b 0 2)) (failItem x 0 (x.die * 1024 + x.tile) 0xFFFF)).orElse
    (fun _ => failIf (!named) (failItem x 2 (x.die * 1024 + x.tile) back))

/-- Check every program and segment of an image (R68). -/
def programsFail (s : State) (xs : List Section) : Option LoadFail :=
  let tiles := eachOf (ofKind xs 2) (fun x => (eachOf (tilePrograms s x) (fun p => programFail p x.die)).orElse (fun _ => entryFail s x))
  tiles.orElse (fun _ => eachOf (ofKind xs 3) (fun x => programFail (segmentProgram s x) x.die))

end Sys2Proof.Machine
end

