-- ==== Sys2Proof/Machine/Load.lean ====
section
/-!
DEFINITION. What LOAD takes from an image (R516, R517, R487), and the checks of its items (R68 and every rule that refuses an
image as under R68).
-/

namespace Sys2Proof.Machine

/-! ### Items -/

/-- The job record's fields (R517). -/
def parseJob (b : List Byte) : Job :=
  { held := true, seed := BitVec.ofNat 64 (leAt b 0 8), flags := BitVec.ofNat 16 (leAt b 8 2), level := leAt b 10 1, serving := bitAt (leAt b 11 1) 0,
    shapeFree := bitAt (leAt b 11 1) 1, batchUnit := leAt b 12 2, bsel0 := BitVec.ofNat 2 (leAt b 14 1), variants := leAt b 15 1,
    batches := (List.range 4).map (fun i => leAt b (16 + 8 * i) 8), lossTile := leAt b 48 2, lossAddr := leAt b 52 4, shape := leAt b 56 8 }

/-- A layer table entry (kind 0x0D). -/
def parseLayer (b : List Byte) : LayerEntry :=
  { layer := leAt b 0 2, ready := (List.range 4).map (fun i => leAt b (2 + 2 * i) 2), contributors := leAt b 10 2, order := leAt b 12 2 }

/-- A shard catalogue entry (kind 0x0E). -/
def parseShard (b : List Byte) : ShardEntry :=
  { layer := leAt b 0 2, shard := leAt b 2 2, die := leAt b 4 1, half0 := leAt b 8 8, half1 := leAt b 16 8 }

/-- A memory declaration of a die (kind 0x0A). -/
def parseDecl (die : Nat) (b : List Byte) : MemDecl :=
  { die := die, kind := leAt b 0 1, sub := leAt b 1 1, tile := leAt b 2 2, first := leAt b 8 8, pages := leAt b 16 4 }

/-- A mark (kind 0x12). -/
def parseMark (b : List Byte) : MarkEntry := { first := leAt b 0 8, bytes := leAt b 8 8, trained := leAt b 16 1 == 1, cls := leAt b 17 1 }

/-- A node entry of a die (R326). -/
def parseNode (die : Nat) (b : List Byte) : Node :=
  let n := leAt b 0 32
  { die := die, layer := bitField n 255 240, shard := bitField n 239 224, parent := bitField n 223 200, nodeId := bitField n 199 184,
    nchild := bitField n 183 168, contrib := bitField n 167 152, leaf := bitAt n 151, root := bitAt n 150, onebit := bitAt n 149,
    flat := bitAt n 148, notify := bitField n 147 124, ntk := Fin.ofNat 64 (bitField n 123 118), gaddr := bitField n 111 68,
    caddr := bitField n 67 24, groups := bitField n 23 0 }

/-- A result window (kind 0x0F). -/
def parseWindow (b : List Byte) : Window := { ctx := leAt b 0 1, bytes := leAt b 4 4, addr := leAt b 8 8 }

/-- A context record (kind 7): its keys are derived for the first epoch (R174). -/
def parseContext (seed : BitVec 64) (b : List Byte) : Context :=
  deriveKeys seed { slot := BitVec.ofNat 24 (leAt b 0 4), streams := leAt b 4 1, hops := leAt b 5 1,
                    frontier := (List.range 8).map (fun i => leAt b (16 + 4 * i) 4), longest := leAt b 8 4 }

/-- The lists of a Catcher plan (kind 0x10). -/
def parseCatchers (b : List Byte) : Nat → Nat → List CatcherEntry
  | 0, _ => []
  | n + 1, off =>
    if b.length ≤ off then []
    else
      let len := leAt b (off + 2) 2
      { spare := leAt b off 2, members := (List.range len).map (fun i => leAt b (off + 4 + 2 * i) 2) } :: parseCatchers b n (off + 4 + 2 * len)

/-- Logical tiles whose bit is set in a 96-byte tile map. -/
def mapTilesOf (b : List Byte) : List Nat := (List.range 768).filter (fun t => bitAt (leAt b 0 96) t)

/-- The job of an image. -/
def jobOf (s : State) (xs : List Section) (env : List Byte) : Job :=
  let all := fun (k n : Nat) => kindRecords s xs k n
  let one := fun (k : Nat) => ((ofKind xs k).head?.map (sectionBytes s)).getD []
  let segment := fun (x : Section) =>
    ({ die := x.die, half := x.half, addr := x.addr + 96, words := (x.len - 96) / 8, map := leNat (s.bytes x.addr 96) } : Segment)
  let catalogue := fun (d : Nat) => (((ofKind xs 11).find? (fun x => decide (x.die = d))).map (fun x => x.addr)).getD 0
  { parseJob (one 1) with
    image := s.reg 0x100106, digest := sha384 (objSigned env), segments := (ofKind xs 3).map segment,
    layers := (all 13 16).map (fun r => parseLayer r.2.2), shards := (all 14 32).map (fun r => parseShard r.2.2),
    decls := (all 10 32).map (fun r => parseDecl r.1.die r.2.2), marks := (all 18 32).map (fun r => parseMark r.2.2),
    catcher := parseCatchers (one 16) (one 16).length 0, nodes := (all 12 32).map (fun r => parseNode r.1.die r.2.2), profile := one 17,
    gallery := (ofKind xs 9).flatMap (fun x => (mapTilesOf (sectionBytes s x)).map (fun t => x.die * 1024 + t)),
    catalogue := (List.range 4).map catalogue, dataSections := (ofKind xs 19).map (fun x => (x.addr, x.len, x.digest)) }

/-! ### Installing -/

/-- Page attributes that a declaration sets (R258, R259, R417). -/
def declAttr (d : MemDecl) : Nat :=
  match d.kind with
  | 1 => d.sub &&& 0x27
  | 2 => if d.sub = 4 then 0x11 else 0x10
  | 3 => 8
  | 5 => 0x11
  | _ => 1

/-- Set attribute bits on pages. -/
def setPages (first n bits : Nat) (s : State) : State :=
  allOf (List.range n) (fun i s => let p := first / 0x1_0000 + i; { s with pages := smPut s.pages p (smGetD s.pages p 0 ||| bits) }) s

/-- The attributes of every page at load (R258, R356): declarations, the command window and the result windows. -/
def loadPages (s : State) : State :=
  let s := setPages 0x47_FFFC_0000 4 1 { s with pages := [] }
  let s := allOf (s.job.decls.filter (fun d => !(d.kind == 3 && isRemote (xword s (BitVec.ofNat 64 d.first)))))
    (fun d s => setPages (wordAddr d.first) d.pages (declAttr d) s) s
  allOf s.windows (fun w s => setPages w.addr ((w.addr % 0x1_0000 + 64 + w.bytes + 0xFFFF) / 0x1_0000) 1 s) s

/-- The pagers (R261): a tile's regions, and as many frames as its largest declaration names. -/
def loadPagers (s : State) : State :=
  let ds := s.job.decls.filter (fun d => d.kind == 3)
  let keys := (ds.map (fun d => d.die * 768 + d.tile)).dedup
  { s with pagers := keys.foldl (fun m k =>
      let mine := ds.filter (fun d => d.die * 768 + d.tile == k)
      let regions := mine.map (fun d => ({ backing := xword s (BitVec.ofNat 64 d.first), pages := d.pages } : Region))
      smPut m k { regions := regions, frames := (List.range ((mine.map (fun d => d.sub)).foldl max 0)).map (fun f => { frame := f }) }) [] }

/-- Load a tile: its program into both halves and its step-start image, its entries and its scale map (R62, R90, R148). -/
def loadTile (xs : List Section) (x : Section) (s : State) : State :=
  let k := x.die * 768 + x.tile
  let b := sectionBytes s x
  let scale := ((xs.find? (fun y => y.kind == 5 && y.die == x.die && y.tile == x.tile)).map (fun y => (chunksOf 16 (sectionBytes s y)).map
    (fun e => BitVec.ofNat 128 (leNat e)))).getD []
  let put := fun (p : Program) (m : SMap Nat) => (p.words.zipIdx).foldl (fun m w => if w.1 = 0 then m else smPut m (k * 8192 + p.base + w.2) w.1) m
  let ps := tilePrograms s x
  let t : Tile := { entry := BitVec.ofNat 13 (leAt b 0 2), backEntry := BitVec.ofNat 13 (leAt b 2 2), scaleMap := scale, tag := tagBefore 0 }
  setTile k t { s with store := ps.foldl (fun m p => put p m) s.store, startImg := ps.foldl (fun m p => put p m) s.startImg }

/-- Copy a tile SRAM image (kind 4). -/
def loadSram (x : Section) (s : State) : State :=
  let b := sectionBytes s x
  putMem (tileBase (x.die * 768 + x.tile) + leAt b 0 8) (b.drop 8) s

/-- Slots that a directory bank of a shard names. -/
def bankSlots (s : State) (header loc : Nat) (active : Bool) : List Nat :=
  let h := s.bytes header 64
  ((List.range loc).map (fun i => s.le (directoryWord header h active i) 8)).filterMap (fun e => if entryPresent e then some (e % 2 ^ 40) else none)

/-- Local rows of a shard (R193). -/
def localRows (t : TableDesc) (shard : Nat) : Nat := if t.replicated then t.nrows else ceilDiv (t.nrows - shard) t.nshard

/-- The shards and copies of a table that lie on this package, as a die's catalogue names them (R192): shard or copy, and header
address. -/
def shardHeaders (s : State) (t : TableDesc) : List (Nat × Nat) :=
  (List.range (if t.replicated then 4 else t.nshard)).filterMap (fun i =>
    match readHeaderWord { s := s, remote := [] } t i with
    | .ok w => if isRemote w then none else some (i, w)
    | .error _ => none)

/-- The shards of the job with their free pools (R193). -/
def loadShards (s : State) : SMap Shard :=
  (List.range 4).foldl (fun m d => (List.range 4096).foldl (fun m n =>
    let t := tableOf s d n
    if !t.present then m
    else (shardHeaders s t).foldl (fun m p =>
      let loc := localRows t p.1
      let used := bankSlots s p.2 loc true ++ (if t.staged then bankSlots s p.2 loc false else [])
      let free := (List.range (s.le (p.2 + 32) 8)).filter (fun x => !used.contains x)
      let sh : Shard := { table := n, shard := if t.replicated then 0 else p.1, die := p.2 / dieBytes, header := p.2, free := free }
      smPut m (if t.replicated then shardKey n 0 p.1 else shardKey n p.1 0) sh) m) m) []

/-- Error memory is zero when a job is loaded (R338): both halves of each one-bit leaf, with their codes. -/
def clearErrorMemory (s : State) : State :=
  allOf (s.job.nodes.filter (fun n => n.leaf && n.onebit)) (fun n s =>
    putMem (n.gaddr + 128 * n.groups) (List.replicate (256 * n.groups) 0) (putMem (n.caddr + n.groups) (List.replicate (2 * n.groups) 0) s)) s

/-- Tiles of a new job: idle, with the counters that only the clear entry zeroes (R275). -/
def keepCounts (s : State) : SMap Tile := s.tiles.map (fun p => (p.1, ({ pfRead := p.2.pfRead, pfUsed := p.2.pfUsed } : Tile)))

/-- Every mechanism that depends on history starts as R487 says; the job is in force. -/
def loadJob (xs : List Section) (job : Job) (s : State) : State :=
  let s := { s with job := job, store := [], startImg := [], tiles := keepCounts s, early := [[], [], [], []], reads := [], adopted := [], rounded := [],
                    layerReady := [], dieTags := List.replicate 4 (tagBefore 0), reduce := {}, steer := {}, recov := { interval := s.reg 0x600001 },
                    step := { bsel := job.bsel0 }, badSeen := [], rewritten := [],
                    tables := { hall := (List.range 5).map (fun i => s.reg (0x340001 + i)) },
                    gal := { s.gal with runs := [], named := none, failed := false, unresolved := false, counts := [0, 0, 0, 0] } }
  let s := allOf (ofKind xs 2) (loadTile xs) s
  let s := allOf (ofKind xs 4) loadSram s
  let ctxs := (List.range 4).flatMap (fun d =>
    ((kindRecords s (xs.filter (fun x => decide (x.die = d))) 7 64).map (fun r => parseContext job.seed r.2.2)))
  let maps := (List.range 4).map (fun d => (((ofKind xs 8).find? (fun x => decide (x.die = d))).map (fun x => (chunksOf 2 (sectionBytes s x)).map leNat)).getD [])
  let s := { s with ctxs := ctxs, windows := (kindRecords s xs 15 16).map (fun r => parseWindow r.2.2),
                    rings := (s.rings.zipIdx).map (fun r => { r.1 with signalMap := setAt (maps.getD r.2 []) 511 0 }) }
  let s := countDerived ((List.range 48).filter (fun c => decide ((s.ctx c).keys ≠ []))) s
  let s := clearErrorMemory (loadPagers (loadPages s))
  let s := { s with tables := { s.tables with shards := loadShards s } }
  let tables := ((s.tables.shards.map (fun p => p.2.table)).dedup).length
  let s := setReg 0x340806 tables (setReg 0x348001 job.seed.toNat (setReg 0x502001 (boolNat job.shapeFree) (setReg 0x400006 0 s)))
  let s := allOf (List.range 4) (fun d s => setReg (dieKey d 0x808007) (job.flags.toNat % 16) s) s
  let s := setReg 0x500001 0 (setReg 0x500002 0 (setReg 0x500408 0 (setReg 0x500805 0 (setReg 0x500806 job.bsel0.toNat (setReg 0x500807 0 s)))))
  setReg 0x600002 0 (setReg 0x600003 0 (setReg 0x600004 0 (setReg 0x600009 0 (setReg 0x60000A 0 (setReg 0x600407 0 (setReg 0x600408 0
    (setReg 0x600801 0xFFFF (setReg 0x600802 0 s))))))))

/-! ### Checks of the job record and the package's lists -/

/-- Are the declared batches strictly ascending, the others 0 (R517)? -/
def batchesOk (j : Job) : Bool :=
  (List.range 4).all (fun i =>
    let b := nth j.batches i
    if i < j.variants then i == 0 || decide (nth j.batches (i - 1) < b) else b == 0)

/-- The job record's own rules (R111, R346, R517). -/
def jobFail (s : State) (xs : List Section) : Option LoadFail :=
  eachOf (ofKind xs 1) (fun x =>
    let b := sectionBytes s x
    let j := parseJob b
    let units := (List.range j.variants).all (fun i => j.batchUnit != 0 && nth j.batches i % j.batchUnit == 0 && decide (nth j.batches i / j.batchUnit ≤ 65535))
    firstFail [failIf (decide (4 < j.flags.toNat % 8)) (failOffset x 8), failIf (j.level == 0 || decide (3 < j.level)) (failOffset x 10),
      failIf (decide (3 < leAt b 11 1)) (failOffset x 11), failIf (if j.shapeFree then !units else j.batchUnit != 0) (failOffset x 12),
      failIf (decide (3 < leAt b 14 1) || decide (j.variants ≤ leAt b 14 1)) (failOffset x 14),
      failIf (j.variants == 0 || decide (4 < j.variants)) (failOffset x 15), failIf (!batchesOk j) (failOffset x 16),
      failIf (decide (4 ≤ j.lossTile / 1024) || decide (768 ≤ j.lossTile % 1024)) (failOffset x 48),
      failIf (leAt b 50 2 != 0) (failOffset x 50), failIf (decide (sramSize < j.lossAddr + 4)) (failOffset x 52),
      failIf (!j.shapeFree && j.shape != 0 || decide (2 ^ 57 ≤ j.shape)) (failOffset x 56), failIf (leAt b 64 192 != 0) (failOffset x 64)])

/-- Layer table, shard catalogue, marks and result windows (R16, R323, R328, R366, R411, R516). -/
def listsFail (s : State) (xs : List Section) : Option LoadFail :=
  let layers := fun (r : Section × Nat × List Byte) => failIf (leAt r.2.2 14 2 != 0) (failOffset r.1 r.2.1)
  let shards := fun (r : Section × Nat × List Byte) =>
    let e := parseShard r.2.2
    let inDie := fun (a : Nat) => decide (a < stackEnd) && decide (a / dieBytes = e.die)
    let known := s.job.layers.any (fun l => l.layer == e.layer)
    failIf (decide (32767 < e.layer) || decide (65534 < e.shard) || leAt r.2.2 5 3 != 0 || leAt r.2.2 24 8 != 0 || !inDie e.half0 || !inDie e.half1
      || !known) (failOffset r.1 r.2.1)
  let marks := fun (r : Section × Nat × List Byte) =>
    let m := parseMark r.2.2
    failIf (decide (1 < leAt r.2.2 16 1) || decide (4 < m.cls) || leAt r.2.2 18 14 != 0 || (m.trained && (m.cls == 3 || m.cls == 4))
      || decide (stackEnd < m.first + m.bytes)) (failOffset r.1 r.2.1)
  let windows := fun (r : Section × Nat × List Byte) =>
    let w := parseWindow r.2.2
    failIf (decide (47 < w.ctx) || leAt r.2.2 1 3 != 0 || decide (w.bytes < 64) || decide (2 ^ 20 < w.bytes) || decide (w.addr / dieBytes ≠ w.ctx / 12)
      || decide (dieBytes * (w.ctx / 12 + 1) < w.addr + 64 + w.bytes) || onCommandWindow w.addr (64 + w.bytes) || decide (16 * 1023 < r.2.1))
      (failOffset r.1 r.2.1)
  firstFail [eachOf (kindRecords s xs 13 16) layers, eachOf (kindRecords s xs 14 32) shards, eachOf (kindRecords s xs 18 32) marks,
    eachOf (kindRecords s xs 15 16) windows]

/-- Context records (R188, R247, R516). -/
def contextsFail (s : State) (xs : List Section) : Option LoadFail :=
  eachOf (kindRecords s xs 7 64) (fun r =>
    let b := r.2.2
    let sum := ((List.range (leAt b 5 1)).map (fun i => leAt b (16 + 4 * i) 4)).foldl (· + ·) 0
    failIf (leAt b 3 1 != 0 || leAt b 4 1 == 0 || decide (16 < leAt b 4 1) || decide (8 < leAt b 5 1) || leAt b 6 2 != 0
      || decide (1048576 < leAt b 8 4) || leAt b 12 4 != 0 || decide (2 ^ 22 < sum) || leAt b 48 16 != 0) (failOffset r.1 r.2.1))

/-- The power profile (R460): no phase of zero beats, no die above 1,000 W. -/
def profileFail (s : State) (xs : List Section) : Option LoadFail :=
  eachOf (kindRecords s xs 17 64) (fun r => eachOf (chunksOf 16 r.2.2).zipIdx (fun p =>
    failIf (leAt p.1 0 4 == 0 || (List.range 4).any (fun d => decide (1000 < leAt p.1 (4 + 2 * d) 2)) || leAt p.1 14 2 != 0) (failOffset r.1 (16 * p.2))))

/-- The Catcher plan's lists end with its section (R339, R516). -/
def catcherFail (s : State) (xs : List Section) : Option LoadFail :=
  eachOf (ofKind xs 16) (fun x =>
    let used := ((parseCatchers (sectionBytes s x) x.len 0).map (fun c => 4 + 2 * c.members.length)).foldl (· + ·) 0
    failIf (used != x.len) (failSection x))

/-! ### Scale maps and pagers -/

/-- Bytes of an entry's element region and of its code range (R149, R150). -/
def entryRanges (e : ScaleEntry) : List (Nat × Nat) :=
  let n := e.limit + 1 - e.base
  (e.base, n) :: (if isCoded e then [(e.cbase, n * 2 / fmtNibbles e.kind / spanLen e)] else [])

/-- Does an entry break R149 beside those before it? -/
def scaleBad (before : List ScaleEntry) (w : Nat) : Bool :=
  let e := scaleEntry (BitVec.ofNat 128 w)
  let hit := before.any (fun o => o.kind != 0 && (entryRanges e).any (fun p => (entryRanges o).any (fun q => overlaps p.1 p.2 q.1 q.2)))
  let own := match entryRanges e with
    | [p, q] => overlaps p.1 p.2 q.1 q.2
    | _ => false
  w % 64 != 0 || (e.kind != 0 && (!(isCoded e || e.kind == 15) || decide (e.limit < e.base) || e.base % 64 != 0 || hit
    || (isCoded e && (own || (e.limit + 1 - e.base) * 2 % (spanLen e * fmtNibbles e.kind) != 0 || (e.pen && decide (e.kind < 8))))))

/-- Scale maps (R149). -/
def scalesFail (s : State) (xs : List Section) : Option LoadFail :=
  eachOf (ofKind xs 5) (fun x =>
    let ws := (chunksOf 16 (sectionBytes s x)).map leNat
    eachOf ws.zipIdx (fun p =>
      failIf (scaleBad ((ws.take p.2).map (fun w => scaleEntry (BitVec.ofNat 128 w))) p.1) (failItem x (16 * p.2) (x.die * 1024 + x.tile) 0xFFFF)))

/-- Does a tile's scale map name a byte of a local range? -/
def mapNames (s : State) (k lo n : Nat) : Bool :=
  (scaleEntries (s.tile k)).any (fun e => e.kind != 0 && ((entryRanges e).any (fun p => overlaps p.1 p.2 lo n)
    || (e.pen && (overlaps e.pmask 1 lo n || overlaps e.side 1 lo n))))

/-- Gallery marks (R443): no byte of the region in a pager frame or a scale-map entry. -/
def galleryFail (s : State) (xs : List Section) : Option LoadFail :=
  eachOf (ofKind xs 9) (fun x => eachOf (mapTilesOf (sectionBytes s x)) (fun t =>
    let k := x.die * 768 + t
    failIf (mapNames s k galleryBase 0x1_0000 || (s.pager k).frames.any (fun f => f.frame == 31)) (failItem x (t / 8) (x.die * 1024 + t) 0xFFFF)))

/-! ### Memory declarations -/

/-- Does a declaration break the rule of its kind (R16, R259 to R261, R516)? -/
def declBad (s : State) (d : MemDecl) (b : List Byte) : Bool :=
  let far := d.kind == 3 && isRemote (xword s (BitVec.ofNat 64 d.first))
  let bytes := 0x1_0000 * d.pages
  let own := decide (d.first / dieBytes = d.die) && decide (d.first + bytes ≤ dieBytes * (d.die + 1))
  let placed := far || (decide (wordAddr d.first + bytes ≤ stackEnd) && !onCommandWindow (wordAddr d.first) bytes)
  let same := s.job.decls.filter (fun e => e.kind == 3 && e.die == d.die && e.tile == d.tile)
  let clash := fun (e : MemDecl) => overlaps (wordAddr d.first) bytes (wordAddr e.first) (0x1_0000 * e.pages)
    && (bitAt (declAttr e) 4 || bitAt (declAttr e) 5)
  leAt b 4 4 != 0 || leAt b 20 12 != 0 || d.first % 0x1_0000 != 0 || !placed || (match d.kind with
    | 1 => d.tile != 0xFFFF || d.sub &&& 0xD8 != 0 || decide (2 ^ 44 ≤ d.first)
    | 2 => d.tile != 0xFFFF || d.sub == 0 || decide (4 < d.sub) || !own
        || decide (256 < (s.job.decls.filter (fun e => e.die == d.die && (e.kind == 2 || e.kind == 5))).length)
    | 3 => decide (767 < d.tile) || decide (d.sub < 2) || decide (30 < d.sub) || d.pages == 0 || decide (65536 < d.pages) || decide (2 ^ 57 ≤ d.first)
        || decide (4 < same.length) || mapNames s (d.die * 768 + d.tile) 0 (0x1_0000 * d.sub) || (!far && s.job.decls.any clash)
    | 0 => true
    | k => decide (7 < k) || d.tile != 0xFFFF || d.sub != 0 || !own)

/-- Memory declarations, and no section in pages the package keeps for itself (R356). -/
def declsFail (s : State) (xs : List Section) : Option LoadFail :=
  let kept := s.job.decls.filter (fun d => decide (4 ≤ d.kind))
  (eachOf (kindRecords s xs 10 32) (fun r => failIf (declBad s (parseDecl r.1.die r.2.2) r.2.2) (failOffset r.1 r.2.1))).orElse
    (fun _ => eachOf xs (fun x => failIf (kept.any (fun d => overlaps x.addr x.len d.first (0x1_0000 * d.pages))) (failSection x)))

/-- Pages of a die that declarations of some kinds hold. -/
def declPages (s : State) (die : Nat) (p : MemDecl → Bool) : Nat :=
  ((s.job.decls.filter (fun d => decide (d.die = die) && p d)).map (fun d => d.pages)).foldl (· + ·) 0

/-- Pages of this package's generation on a die (R411, R415): its MIRROR items, and the header with the list of CRCs. -/
def ownPages (s : State) (die : Nat) : Nat :=
  let n := ((s.job.marks.filter (fun m => m.cls == 0 && decide (m.first / dieBytes = die))).map (fun m => ceilDiv m.bytes 0x1_0000)).foldl (· + ·) 0
  n + ceilDiv (64 + 4 * n) 0x1_0000

/-- Is a die's staging pool large enough (R417)? -/
def stagingOk (s : State) (die : Nat) : Bool :=
  decide (2 * ownPages s die + 2 * Config.partnerPages s.job.digest die + declPages s die (fun d => d.kind == 6 || d.kind == 7)
    ≤ declPages s die isStaging)

/-! ### Reduction nodes -/

/-- Is a node the child of another on this package (R326)? -/
def isChild (s : State) (c p : Node) : Bool :=
  !c.root && !p.leaf && c.layer == p.layer && c.shard == p.shard && epCoord c.parent == s.coord && epDie c.parent == p.die

/-- Does the way up from a node come back to it? -/
def nodeCycle (s : State) (start : Node) : Nat → Node → Bool
  | 0, _ => false
  | n + 1, c =>
    match s.job.nodes.find? (isChild s c) with
    | none => false
    | some p => decide (p = start) || nodeCycle s start n p

/-- Does a node break the rules of R326, R328 and R337? -/
def nodeBad (s : State) (n : Node) (b : List Byte) : Bool :=
  let mine := s.job.nodes
  let layer := s.job.layers.find? (fun l => l.layer == n.layer)
  let kids := mine.filter (fun c => isChild s c n)
  let twins := mine.filter (fun o => !o.leaf && o.die == n.die && o.layer == n.layer && o.shard == n.shard)
  let parent := mine.find? (isChild s n)
  let outside := fun (a len : Nat) => decide (placeOf a = .outside) || decide (placeOf (a + len - 1) = .outside)
  bitField (leAt b 0 32) 117 112 != 0 || n.contrib == 0 || n.groups == 0 || (n.leaf && n.nchild != 0) || (!n.leaf && n.nodeId == 65535)
    || (!n.leaf && decide (1 < twins.length)) || decide (n.nchild < kids.length) || nodeCycle s n mine.length n
    || layer.isNone || (n.root && decide (layer.map (fun l => l.contributors) ≠ some n.contrib))
    || (n.root && n.flat && n.contrib != n.nchild) || (n.leaf && n.flat && (parent.map (fun p => !(p.root && p.flat))).getD false)
    || (n.root && n.flat && kids.any (fun c => !c.leaf)) || outside n.gaddr (128 * n.groups) || outside n.caddr n.groups || (n.onebit && s.job.shapeFree)

/-- Reduction nodes, and the fit of each die's buffer (R325, R326). -/
def nodesFail (s : State) (xs : List Section) : Option LoadFail :=
  let need := fun (d : Nat) => ((s.job.nodes.filter (fun n => decide (n.die = d))).map
    (fun n => Config.nodeNeed n.nchild n.groups n.leaf n.root n.onebit)).foldl (· + ·) 0
  (eachOf (kindRecords s xs 12 32) (fun r => failIf (nodeBad s (parseNode r.1.die r.2.2) r.2.2) (failOffset r.1 r.2.1))).orElse
    (fun _ => eachOf (ofKind xs 12) (fun x => failIf (decide (0x1_0000 * declPages s x.die (fun d => d.kind == 4) < need x.die)) (failSection x)))

/-! ### Tables, descriptors, sparse tiles -/

/-- Is a table of the job trained: does a TRAINED mark hold its header (R516)? -/
def trainedAt (s : State) (a : Nat) : Bool := s.job.marks.any (fun m => m.trained && decide (m.first ≤ a) && decide (a < m.first + m.bytes))

/-- Does a shard's directory break R192? -/
def directoryBad (s : State) (t : TableDesc) (shard header : Nat) : Bool :=
  let loc := localRows t shard
  let slots := s.le (header + 32) 8
  (if t.staged then [true, false] else [true]).any (fun bank =>
    let es := (List.range loc).map (fun i => s.le (directoryWord header (s.bytes header 64) bank i) 8)
    let named := (es.filter entryPresent).map (fun e => e % 2 ^ 40)
    es.any (fun e => bitField e 63 62 == 3 || bitField e 47 40 != 0) || named.any (fun x => decide (slots ≤ x)) || decide (named.dedup.length ≠ named.length))

/-- Does a table of a die's catalogue break R192, R345 or R346? -/
def tableBad (s : State) (die n : Nat) : Bool :=
  match readTable { s := s, remote := [] } die n with
  | .error _ => true
  | .ok t =>
    let hs := shardHeaders s t
    let trained := hs.any (fun p => trainedAt s p.2)
    let placed := fun (p : Nat × Nat) => decide (p.2 + 64 ≤ stackEnd) && (!t.replicated || decide (p.2 / dieBytes = p.1))
    t.present && (t.reserved || t.nshard == 0 || decide (16384 < t.nshard) || !hs.all placed
      || (t.replicated && (t.nshard != 1 || decide (2 ^ 24 < t.nrows) || t.hoten || t.staged || decide (hs.length ≠ 4)))
      || (t.replicated && trained && (decide (t.w < 64) || s.job.shapeFree))
      || (s.job.shapeFree && t.nshard != Config.shapeShards s.job.digest n) || hs.any (fun p => directoryBad s t p.1 p.2))

/-- Table catalogues (R191, R192). -/
def tablesFail (s : State) (xs : List Section) : Option LoadFail :=
  eachOf (ofKind xs 11) (fun x => eachOf (List.range 4096) (fun n => failIf (tableBad s x.die n) (failOffset x (8 * n))))

/-- Does a declared descriptor break R179, R188 or R198? -/
def descriptorBad (s : State) (k : Nat) (n : Nat) : Bool :=
  let v : View := { s := s, remote := [] }
  let ps := n % 2 ^ 21
  let words := fun (m : Nat) => (List.range m).map (fun i => s.le (tileBase k + ps + 8 * i) 8)
  bitField n 63 40 != 0 || bitAt n 21 || (match bitField n 23 22 with
    | 0 =>
      let w := words 2
      bitField n 39 36 != 0 || decide (sramSize < ps + 16) || (List.range 12).any (fun c =>
        bitAt n (24 + c) && sampMalformed (sampDesc (nth w 0) (nth w 1)) ps (s.ctx (k / 768 * 12 + c)).streams)
    | 1 =>
      let w := words 3
      let bad := fun (f : Nat) => match tblMalformed v k f ps (tblDesc (nth w 0) (nth w 1) (nth w 2)) with
        | .ok b => b
        | .error _ => true
      bitField n 35 24 != 0 || decide (sramSize < ps + 24) || (List.range 4).any (fun f => bitAt n (36 + f) && bad f)
    | _ => true)

/-- Descriptor declarations (R516). -/
def descriptorsFail (s : State) (xs : List Section) : Option LoadFail :=
  eachOf (kindRecords s xs 6 8) (fun r =>
    let n := leNat r.2.2
    failIf (descriptorBad s (r.1.die * 768 + r.1.tile) n) (failItem r.1 r.2.1 (r.1.die * 1024 + r.1.tile) (n % 2 ^ 21 / 64)))

/-- Does a sparse tile break R134 or R135? -/
def sparseBad (s : State) (h : Nat) : Bool :=
  let n := s.le h 8
  let fmt := bitField n 62 59
  let nr := bitField n 58 43 + 1
  let nc := bitField n 42 27 + 1
  let nnz := bitField n 26 0
  let v := 128 * fmtNibbles fmt
  let d := nr * nc * v
  let body := nnz * v + 8 * ceilDiv nnz 4 + 8 * nr
  let start := h - body
  let col := fun (b : Nat) => s.le (start + nnz * v + 2 * b) 2
  let row := fun (r : Nat) => s.le (start + nnz * v + 8 * ceilDiv nnz 4 + 8 * r) 8
  let rises := fun (f c : Nat) => (List.range c).all (fun i => decide (col (f + i) < nc) && (i == 0 || decide (col (f + i - 1) < col (f + i))))
  let rowOk := fun (r : Nat) =>
    let e := row r
    let first := e % 2 ^ 32
    let count := bitField e 55 32
    let want := if r = 0 then 0 else row (r - 1) % 2 ^ 32 + bitField (row (r - 1)) 55 32
    bitField e 63 56 == 0 && first == want && rises first count && (decide (r + 1 < nr) || first + count == nnz)
  decide (9 < fmt) || !isMemory h || (if bitAt n 63 then nnz != 0 || decide (h < d) || (h - d) % 64 != 0
    else decide (d < body) || decide (h < body) || start % 64 != 0 || !(List.range nr).all rowOk)

/-! ### The verdict -/

/-- The checks of step 3 after the job record and the sections: `t` is the package with the job in force. -/
def itemsFail (t : State) (xs : List Section) : Option LoadFail :=
  firstFail [programsFail t xs, scalesFail t xs, contextsFail t xs, listsFail t xs, profileFail t xs, catcherFail t xs, declsFail t xs,
    galleryFail t xs, nodesFail t xs, tablesFail t xs, descriptorsFail t xs,
    failIf ((Config.sparseTiles t.job.digest).any (sparseBad t)) { reason := 8 },
    failIf (!(List.range 4).all (stagingOk t)) { reason := 8 },
    failIf (!Config.gathersFit t.job.digest || (t.job.shapeFree && !Config.statisticsFit t.job.digest)) { reason := 8 }]

/-- LOAD's treatment of the image at the image address (R515): the refusal, or the package with the job. -/
def loadVerdict (s : State) : Except LoadFail State :=
  if !envelopePlaced s then .error { reason := 7 }
  else
    let o := envelope s
    let b := objBody o
    if badStack s (s.reg 0x100106) o.length ∨ verifyObject s 6 o ≠ .ok then .error { reason := 7 }
    else
      match manifestFail s b with
      | some f => .error f
      | none =>
        let xs := sectionsOf b
        let job := jobOf s xs o
        if s.reg 0x101005 < job.level then .error { reason := 9 }
        else
          match (sectionsFail s xs job.serving (s.reg 0x100106) o.length).orElse (fun _ => jobFail s xs) with
          | some f => .error f
          | none =>
            let t := loadJob xs job s
            match itemsFail t xs with
            | some f => .error f
            | none => .ok t

end Sys2Proof.Machine
end

