-- ==== Sys2Proof/Machine/Power.lean ====
section
/-!
DEFINITION. Power and cooling (R29, R36 to R40, R456 to R469): regulators, the budget setting, loans, throttling, region samples,
and the coolant loop.
-/

namespace Sys2Proof.Machine

/-! ### The guaranteed beat rate -/

/-- Rows of the table of R29: core voltage in mV, and the rate in 10 M beats/s at 40, 70 and 95 degrees. -/
def rateRows : List (Nat × List Nat) :=
  [(620, [100, 105, 109]), (650, [112, 116, 119]), (700, [137, 138, 139]), (750, [162, 160, 158]), (800, [179, 175, 172]),
   (850, [193, 188, 184]), (900, [206, 200, 195])]

/-- The bilinear interpolation of R29 in units of 10 M beats/s / 180,000, at a voltage in mV and a temperature in 0.125 degree;
outside the table its nearest edge is taken. -/
def beatRate (mv : Nat) (t : Int) : Nat :=
  let v := min 900 (max 620 mv)
  let t := (min 760 (max 320 t)).toNat
  let i := ((List.range 6).find? (fun i => decide (v ≤ ((rateRows.getD (i + 1) (0, [])).1)))).getD 5
  let lo := rateRows.getD i (0, [])
  let hi := rateRows.getD (i + 1) (0, [])
  let c := if t ≤ 560 then 0 else 1
  let t0 := nth [320, 560] c
  let t1 := nth [560, 760] c
  let at_ := fun (r : Nat × List Nat) => (nth r.2 c * (t1 - t) + nth r.2 (c + 1) * (t - t0)) * (1200 / (t1 - t0))
  (at_ lo * (hi.1 - v) + at_ hi * (v - lo.1)) * (150 / (hi.1 - lo.1))

/-- The hottest region of a die in 0.125 degree, as the last sample shows it. -/
def dieTemp (s : State) (d : Nat) : Int := hottest s d

/-- Is the predicted core power at a setpoint within a budget (R461)? -/
def withinBudget (s : State) (d v budget : Nat) : Bool :=
  let now := s.reg (0x200405 + d)
  decide (s.reg (0x200409 + d) * v * v * beatRate v (dieTemp s d) ≤ budget * now * now * beatRate now (dieTemp s d))

/-! ### Setpoints -/

/-- Ring neighbours of a die (R37). -/
def ringNeighbours (d : Nat) : List Nat := [d ^^^ 1, d ^^^ 2]

/-- Move a die's core setpoint through its AVSBus (R456). -/
def moveSetpoint (d v : Nat) (s : State) : State :=
  if s.reg (0x200405 + d) = v then s else emit (.regulator d 0 v) (setReg (0x200405 + d) v s)

/-- The highest setpoint that the throttling level permits (R463). -/
def levelCap (s : State) : Nat := if 4 ≤ s.reg 0x200005 then 620 else if 2 ≤ s.reg 0x200005 then 800 else 900

/-- The highest 5 mV step that meets the three conditions of R461 for a die. -/
def pickSetpoint (s : State) (d : Nat) : Option Nat :=
  let near := fun (v : Nat) => (ringNeighbours d).all (fun n => decide (v ≤ s.reg (0x200405 + n) + 150) && decide (s.reg (0x200405 + n) ≤ v + 150))
  ((List.range 57).map (fun i => 900 - 5 * i)).find? (fun v => decide (v ≤ levelCap s) && near v && withinBudget s d v (s.reg (0x200401 + d)))

/-- One die falls to 0.62 V, and every other die above 0.77 V to 0.77 V, in one act (R461, R464). -/
def dropSetpoints (d : Nat) (s : State) : State :=
  allOf (List.range 4) (fun n s => if n = d then moveSetpoint n 620 s else moveSetpoint n (min 770 (s.reg (0x200405 + n))) s) s

/-- Set the setpoints of the dies, in die order (R461). -/
def setSetpoints (s : State) : State :=
  if 4 ≤ s.reg 0x200005 then allOf (List.range 4) (fun d s => moveSetpoint d 620 s) s
  else allOf (List.range 4) (fun d s =>
    match pickSetpoint s d with
    | some v => moveSetpoint d v s
    | none => dropSetpoints d s) s

/-! ### Phases and budgets -/

/-- The phase of the profile (R460): 0 IDLE, 1 FORWARD, 2 BACKWARD, 3 REDUCE. -/
def phaseNow (s : State) : Nat :=
  if s.life = .running ∨ s.life = .spare then
    if s.step.phase = .attempt then (if !s.step.barrier then 1 else if s.tiles.any (fun p => p.2.run == .active) then 2 else 3)
    else if s.step.phase = .idle then 0 else 3
  else 0

/-- Does a profile apply? -/
def profiled (s : State) : Bool := holdsJob s && !s.job.profile.isEmpty

/-- Core power that the profile declares for a die in a phase, W (R460). -/
def phaseCore (s : State) (p d : Nat) : Nat := leAt s.job.profile (16 * p + 4 + 2 * d) 2

/-- Declared package power of a phase, W. -/
def phasePower (s : State) (p : Nat) : Nat :=
  ((List.range 4).map (phaseCore s p)).foldl (· + ·) 0 + leAt s.job.profile (16 * p + 12) 2

/-- The power limit in force (R467). -/
def powerLimit (s : State) : Nat := if s.board.power.flowLow then min 1000 (s.reg 0x200001) else s.reg 0x200001

/-- The core pool (R459, R463, R467). -/
def corePool (s : State) : Nat := powerLimit s - (s.reg 0x200003 + 40 + s.board.power.cut + s.board.power.inletCut)

/-- The core budget that R459 gives a die, before what its temperatures take from it. -/
def baseBudget (s : State) (pool d : Nat) : Nat :=
  let p := phaseNow s
  let sum := ((List.range 4).map (phaseCore s p)).foldl (· + ·) 0
  if !profiled s then pool / 4
  else if sum ≤ pool then phaseCore s p d + (pool - sum) / 4
  else phaseCore s p d * pool / sum

/-- Post a budget to flow 8 of its die: the newest replaces the queued one (R387). -/
def postBudget (d : Nat) (s : State) : State :=
  let item := itemBits 8 0 (endpoint s 0 768) 0 (s.reg (0x200401 + d))
  let r := postItem d 8 item s
  if r.2 = 1 then
    let g := s.ring d
    match smFind g.flows 8 with
    | none => s
    | some f => if f.items = [] then s else setRing d { g with flows := smPut g.flows 8 { f with items := [item] } } s
  else r.1

/-- Set the budgets (R459): every loan lapses (R462). -/
def setBudgets (s : State) : State :=
  let pool := corePool s
  let s := setReg 0x200008 (phaseNow s) (setReg 0x200004 pool (modPower (fun p => { p with quarter := pool / 4, loans := [] }) s))
  allOf (List.range 4) (fun d s =>
    postBudget d (setReg (0x200401 + d) (baseBudget s pool d - (nth s.board.power.tempCut d + nth s.board.power.regionCut d)) s)) s

/-- What a die lacks for its next 5 mV step (R462). -/
def shortfall (s : State) (d : Nat) : Nat :=
  let now := s.reg (0x200405 + d)
  let v := now + 5
  let need := ceilDiv (s.reg (0x200409 + d) * v * v * beatRate v (dieTemp s d)) (max 1 (now * now * beatRate now (dieTemp s d)))
  if 900 < v then 0 else need - s.reg (0x200401 + d)

/-- Throttling levels (R463): an excess raises the level by one at each setting, and 10 settings 50 W below lower it by one at a
time. The first setting after a change of the limit raises no 0x6001 (R469). -/
def setLevel (s : State) : State :=
  let p := s.board.power
  let power := s.reg 0x200002
  let lim := powerLimit s
  let level := s.reg 0x200005
  if lim < power ∧ !p.limitNew then
    let s := if level = 0 then raise_ 0x6001 s else s
    if 4 ≤ level then
      let n := p.atFour + 1
      let s := modPower (fun p => { p with excess := true, calm := 0, atFour := n }) s
      if n < 100 then s else holdNow 0x6001 (setReg 0x200005 5 s)
    else
      let cut := if level + 1 = 3 then power - lim else p.cut
      setReg 0x200005 (level + 1) (modPower (fun p => { p with excess := true, calm := 0, atFour := 0, cut := cut }) s)
  else
    let calm := if power + 50 ≤ lim then p.calm + 1 else 0
    let down := decide (0 < level) && decide (10 ≤ calm)
    let level := if down then level - 1 else level
    setReg 0x200005 level (modPower (fun p => { p with excess := false, calm := calm, atFour := 0, cut := if level < 3 then 0 else p.cut, limitNew := false }) s)

/-- What a die's temperatures take from its budget at a setting (R38, R464): 10 W more while hot, 10 W less once 2 degrees below
the throttle temperature; a region clamp takes 10 W at each setting while it lasts. -/
def setCuts (s : State) : State :=
  allOf (List.range 4) (fun d s =>
    let p := s.board.power
    let cool := decide (dieTemp s d ≤ ((8 * s.reg 0x200006 : Nat) : Int) - 16)
    let t := nth p.tempCut d
    let t := if p.hot.getD d false then t + 10 else if cool then t - 10 else t
    let g := if p.tempDie = some d then nth p.regionCut d + 10 else 0
    let s := if p.tempDie = some d then raiseAt 0x6002 d 768 0 0 (bumpReg (dieKey d 0x802009) 1 s) else s
    modPower (fun p => { p with tempCut := setAt p.tempCut d t, regionCut := setAt p.regionCut d g }) s) s

/-- A voltage clamp (R38): the two setpoints are moved until they lie within 150 mV, the higher one first. -/
def clampVoltage (s : State) : State :=
  match s.board.power.voltPair with
  | none => s
  | some (a, b) =>
    let va := s.reg (0x200405 + a)
    let vb := s.reg (0x200405 + b)
    let hi := if va < vb then b else a
    let s := raiseAt 0x6002 hi 768 0 0 (bumpReg (dieKey hi 0x802008) 1 (modPower (fun p => { p with voltPair := none }) s))
    moveSetpoint hi (min (max va vb) (min va vb + 150)) s

/-- BUDGET_SETTING (R459 to R464): in FAULT every setpoint stays at 0.62 V (R468). -/
def opBudgetSetting (s : State) : State :=
  if s.life = .fault then s
  else
    let s := setBudgets (setCuts (setLevel s))
    let s := modPower (fun p => { p with shortfall := (List.range 4).map (shortfall s), lowering := [false, false, false, false] }) s
    clampVoltage (setSetpoints s)

def execBudgetSetting (s : State) : Host.Outcome State Fault Refusal := .next (powered opBudgetSetting s)

/-! ### Between settings -/

/-- Does a die hold a loan, given or taken (R462)? -/
def holdsLoan (s : State) (d : Nat) : Bool := s.board.power.loans.any (fun l => l.1 == d || l.2.1 == d)

/-- The neighbour that a loan goes to: the larger shortfall, and the lower number on a tie. -/
def borrowerOf (s : State) (d : Nat) : Nat :=
  let a := min (d ^^^ 1) (d ^^^ 2)
  let b := max (d ^^^ 1) (d ^^^ 2)
  if nth s.board.power.shortfall a < nth s.board.power.shortfall b then b else a

/-- Lend what a die does not use, less 10 W, in multiples of 5 W (R462). -/
def lend (d est : Nat) (s : State) : State :=
  let b := borrowerOf s d
  let spare := s.reg (0x200401 + d) - est
  let w := (spare - 10) / 5 * 5
  if spare ≤ 15 ∨ w = 0 ∨ nth s.board.power.shortfall b = 0 ∨ holdsLoan s d ∨ holdsLoan s b ∨ s.reg 0x200007 = 0 ∨ 0 < s.reg 0x200005 then s
  else
    let s := setReg (0x200401 + d) (s.reg (0x200401 + d) - w) s
    let s := setReg (0x200401 + b) (s.reg (0x200401 + b) + w) (modPower (fun p => { p with loans := p.loans ++ [(d, b, w)] }) s)
    let s := postBudget b (bumpReg 0x20040D 1 s)
    match pickSetpoint s b with
    | some v => moveSetpoint b (max v (s.reg (0x200405 + b))) s
    | none => s

/-- BUDGET_ESTIMATE (R461, R462): a die's 100 us estimate. From 5 % above its budget the setpoint falls by 5 mV at each estimate
until one is within it; the setpoint stays within 150 mV of its neighbours (R37). -/
def opBudgetEstimate (d : Fin 4) (watts : BitVec 16) (s : State) : State :=
  let est := watts.toNat
  let budget := s.reg (0x200401 + d.val)
  let low := decide (budget * 105 < est * 100) || (s.board.power.lowering.getD d false && decide (budget < est))
  let s := modPower (fun p => { p with lowering := setAt p.lowering d low }) s
  if s.life = .fault then s
  else if low then
    let v := max 620 (s.reg (0x200405 + d.val) - 5)
    if (ringNeighbours d.val).all (fun n => decide (s.reg (0x200405 + n) ≤ v + 150)) then moveSetpoint d v s else s
  else lend d est s

def execBudgetEstimate (d : Fin 4) (watts : BitVec 16) (s : State) : Host.Outcome State Fault Refusal :=
  .next (powered (powered (opBudgetEstimate d watts)) s)

/-- BUDGET_TIMEOUT (R459): a die without a budget for 3 ms keeps the least of its last budget and pool / 4. -/
def opBudgetTimeout (d : Fin 4) (s : State) : State :=
  setReg (0x200401 + d.val) (min (s.reg (0x200401 + d.val)) s.board.power.quarter) s

def execBudgetTimeout (d : Fin 4) (s : State) : Host.Outcome State Fault Refusal := .next (powered (opBudgetTimeout d) s)

/-! ### Region samples -/

/-- Pairs of adjacent regions of a die (R36): 8 to a row. -/
def regionPairs : List (Nat × Nat) :=
  (List.range 40).flatMap (fun i => (if i % 8 < 7 then [(i, i + 1)] else []) ++ (if i < 32 then [(i, i + 8)] else []))

/-- Pairs of adjacent dies (R36). -/
def diePairs : List (Nat × Nat) := [(0, 1), (0, 2), (1, 3), (2, 3)]

/-- The greater difference of two values. -/
def apart (a b : Int) : Nat := (a - b).natAbs

/-- Every measured temperature difference of R36: its size in 0.125 degree, and the die of the hotter side. -/
def tempDiffs (s : State) : List (Nat × Nat) :=
  let t := fun (d i : Nat) => signExt 16 (s.reg (dieKey d (0x802401 + i)))
  (List.range 4).flatMap (fun d => regionPairs.map (fun p => (apart (t d p.1) (t d p.2), d)))
    ++ diePairs.map (fun p => (apart (dieTemp s p.1) (dieTemp s p.2), if dieTemp s p.1 < dieTemp s p.2 then p.2 else p.1))

/-- Every measured voltage difference, with its pair. -/
def voltDiffs (s : State) : List (Nat × (Nat × Nat)) :=
  diePairs.map (fun p => (apart (nth s.board.power.volts p.1) (nth s.board.power.volts p.2), p))

/-- Differences of a sample (R38, R39): a clamp at the next setting, and HELD after two samples beyond the hard limits. -/
def compareRegions (s : State) : State :=
  let ts := tempDiffs s
  let vs := voltDiffs s
  let hardT := ts.any (fun x => decide (320 < x.1))
  let hardV := vs.any (fun x => decide (200 < x.1))
  let p := s.board.power
  let trip := (hardT && p.prevTemp) || (hardV && p.prevVolt)
  let s := modPower (fun p => { p with prevTemp := hardT, prevVolt := hardV,
                                       voltPair := (vs.find? (fun x => decide (150 < x.1))).map (fun x => x.2),
                                       tempDie := (ts.find? (fun x => decide (240 < x.1))).map (fun x => x.2) }) s
  if trip ∧ s.life = .running then holdNow 0x6003 (raise_ 0x6003 s) else s

/-- The junction temperature of a die (R464). -/
def compareJunction (d : Nat) (s : State) : State :=
  let t := dieTemp s d
  let p := s.board.power
  let hot := decide (((8 * s.reg 0x200006 : Nat) : Int) < t)
  let critical := decide (800 < t)
  let s := if hot ∧ !p.hot.getD d false then raiseAt 0x6004 d 768 0 0 s else s
  let both := critical && p.critical.getD d false
  let s := modPower (fun p => { p with hot := setAt p.hot d hot, critical := setAt p.critical d critical }) s
  let s := if both then holdNow 0x6005 (raiseAt 0x6005 d 768 0 0 (dropSetpoints d s)) else s
  if 880 < t ∧ s.life ≠ .fault then
    let s := modPins (fun p => { p with thermtrip := true, trips := p.trips + 1 }) (bumpReg 0x104805 1 s)
    enterFault 0x6006 (raiseAt 0x6006 d 768 0 0 s)
  else s

/-- REGION_SAMPLE (R36): the regions and core voltages of every die. -/
def opRegionSample (r : RegionReading) (s : State) : State :=
  let s := allOf (List.range 4) (fun d s => allOf (List.range 40) (fun i s =>
    setReg (dieKey d (0x802401 + i)) (((r.temps.toList.getD d (Vector.replicate 40 0)).toList.getD i 0).toNat) s) s) s
  let s := modPower (fun p => { p with volts := r.volts.toList.map (fun v => v.toNat) }) s
  allOf (List.range 4) compareJunction (compareRegions s)

def execRegionSample (r : RegionReading) (s : State) : Host.Outcome State Fault Refusal := .next (powered (opRegionSample r) s)

/-! ### Regulators -/

/-- A regulator reports a fault (R469): 0x600B, with the regulator as its subunit. -/
def regulatorFault (i : Nat) (s : State) : State := raiseAt 0x600B (if i < 4 then i else 0) 768 i 0 s

/-- A core rail is lost: its die needs a reset (R278, R469). -/
def railLost (s : State) : State :=
  if holdsJob s then enterFault 0x600B s
  else modBoot (fun b => { b with barred := true }) (if s.life = .ready then enter .standby 0x600B s else s)

/-- REGULATOR_TELEMETRY (R456, R458, R503): a regulator that does not answer reads as zero and reports a fault. -/
def opTelemetry (t : Telemetry) (s : State) : State :=
  let regs := t.regs.toList
  let watts := fun (i : Nat) => (((regs.getD i none).map (fun r => r.watts.toNat)).getD 0)
  let total := ((List.range 8).map watts).foldl (· + ·) 0
  let fixed := ((List.range 4).map (fun i => watts (4 + i))).foldl (· + ·) 0
  let s := setReg 0x200002 (min 65535 total) (setReg 0x200003 (min 65535 fixed) s)
  let s := allOf (List.range 4) (fun d s => setReg (0x200409 + d) (watts d) s) s
  let s := setReg 0x104803 (((regs.getD 7 none).map (fun r => r.volts.toNat)).getD 0) s
  let bad := fun (i : Nat) => (regs.getD i none).isNone || ((t.status.map (fun v => v.toList.getD i 0 != 0)).getD false)
  let s := allOf ((List.range 8).filter bad) regulatorFault s
  if (List.range 4).any (fun d => ((regs.getD d none).map (fun r => r.volts == 0)).getD false) then railLost s else s

def execRegulatorTelemetry (t : Telemetry) (s : State) : Host.Outcome State Fault Refusal := .next (powered (opTelemetry t) s)

/-- ALERT_N (R503): the package reads STATUS_WORD of the four regulators of a segment; one that does not answer reports a fault. -/
def opAlert (segment : Fin 2) (status : Vector (Option (BitVec 16)) 4) (s : State) : State :=
  let bad := fun (i : Nat) => match status.toList.getD i none with
    | none => true
    | some w => w != 0
  let s := allOf (List.range 4) (fun i s => emit (.regulator (4 * segment.val + i) 0x79 0) s) s
  allOf ((List.range 4).filter bad) (fun i s => regulatorFault (4 * segment.val + i) s) s

def execAlertN (segment : Fin 2) (status : Vector (Option (BitVec 16)) 4) (s : State) : Host.Outcome State Fault Refusal :=
  .next (powered (powered (opAlert segment status)) s)

/-- AVSBUS_TIMEOUT (R469): the die keeps its last setpoint. -/
def execAvsbusTimeout (d : Fin 4) (s : State) : Host.Outcome State Fault Refusal := .next (powered (raiseAt 0x600C d 768 0 0) s)

/-! ### The coolant loop -/

/-- Durations of FORWARD, BACKWARD and REDUCE, ns (R466): of the last committed step, or from typical beats at N0. -/
def phaseDurations (s : State) : List Nat :=
  let d := s.board.power.durations
  if d.all (· == 0) then (List.range 3).map (fun i => leAt s.job.profile (16 * (i + 1)) 4 * 5 / 8) else d

/-- Energy in W ns of the repeating phases, from the beginning of a step to a time. -/
def phaseEnergy (s : State) (t : Nat) : Nat :=
  let ds := phaseDurations s
  let whole := ds.foldl (· + ·) 0
  let part := fun (x : Nat) =>
    ((List.range 3).map (fun i => phasePower s (i + 1) * (min x ((ds.take (i + 1)).foldl (· + ·) 0) - min x ((ds.take i).foldl (· + ·) 0)))).foldl (· + ·) 0
  if whole = 0 then 0 else t / whole * part whole + part (t % whole)

/-- Time since the running step began, with each phase at its expected length (R466). -/
def stepPosition (s : State) : Nat :=
  let ds := phaseDurations s
  match phaseNow s with
  | 1 => min (nth ds 0) (s.now - s.step.since)
  | 2 => nth ds 0 + min (nth ds 1) (s.now - s.step.barrierAt)
  | 3 => nth ds 0 + nth ds 1 + min (nth ds 2) (s.now - s.step.endedAt)
  | _ => 0

/-- P_exp (R466): the average of the declared power over the next lead-time window; in LOADED over one step; without a profile, the
measured power. -/
def expectedPower (s : State) : Nat :=
  let whole := (phaseDurations s).foldl (· + ·) 0
  let window := s.reg 0x20080D * 10 ^ 6
  if !profiled s then s.reg 0x200002
  else if whole = 0 then phasePower s 0
  else if s.life = .loaded then phaseEnergy s whole / whole
  else if window = 0 then phasePower s (max 1 (phaseNow s))
  else (phaseEnergy s (stepPosition s + window) - phaseEnergy s (stepPosition s)) / window

/-- Duty of the valve curve at a flow in 0.01 L/min, interpolated (R466); a curve that has not been written gives the idle duty. -/
def curveDuty (s : State) (flow : Nat) : Nat :=
  let b := s.blob 0x20080A
  let duty := fun (i : Nat) => leAt b (4 * i) 2
  let at_ := fun (i : Nat) => leAt b (4 * i + 2) 2
  if b = [] then s.reg 0x20080E
  else if flow ≤ at_ 0 then duty 0
  else match (List.range 7).find? (fun i => decide (flow ≤ at_ (i + 1))) with
    | none => duty 7
    | some i => duty i + (duty (i + 1) - duty i) * (flow - at_ i) / max 1 (at_ (i + 1) - at_ i)

/-- Feed-forward duty of a power in W (R466). -/
def feedForward (s : State) (watts : Nat) : Nat := curveDuty s (watts * 6000 / (4180 * max 1 (s.reg 0x20080B)))

/-- The feed-forward in force: the idle duty before a job (R468); in HELD the last running value for the hold timeout, then the
IDLE phase (R466). -/
def feedNow (s : State) : Nat :=
  if !holdsJob s then s.reg 0x20080E
  else if s.life = .held then
    if s.now < s.reg 0x100008 + s.reg 0x200811 * 10 ^ 9 then s.board.power.lastFF
    else feedForward s (if profiled s then phasePower s 0 else s.reg 0x200002)
  else feedForward s (expectedPower s)

/-- The hottest junction of the four dies. -/
def hottestDie (s : State) : Int := ((List.range 4).map (dieTemp s)).foldl max (dieTemp s 0)

/-- The valve duty in 0.1 % (R466), clamped to 0 to 1,000; the integral stands still while it is clamped. -/
def setValve (s : State) : State :=
  let e := hottestDie s - ((8 * s.reg 0x20080C : Nat) : Int)
  let p := s.board.power
  let sum := if p.clamped then p.integral else p.integral + e
  let ff := feedNow s
  let u : Int := (ff : Int) + (100 * e + sum) / 80
  let s := modPower (fun p => { p with integral := sum, clamped := decide (u < 0) || decide (1000 < u), lastFF := if s.life = .running then ff else p.lastFF }) s
  setReg 0x200801 (min 1000 u.toNat) s

/-- The coolant inputs (R465): flows in 0.01 L/min, temperatures with a failed input replaced by its partner. -/
def readCoolant (r : CoolantReading) (s : State) : State :=
  let flow := fun (i : Nat) => min 65535 ((r.pulses.toList.getD i 0).toNat * 60000 / max 1 (s.reg (0x200808 + i)))
  let lo := min (flow 0) (flow 1)
  let hi := max (flow 0) (flow 1)
  let s := setReg 0x200802 (flow 0) (setReg 0x200803 (flow 1) s)
  let s := if hi * 80 ≤ lo * 100 then s else raise_ 0x6009 s
  let ct := fun (i : Nat) => r.temps.toList.getD i none
  let s := allOf (List.range 4) (fun i s =>
    let v := (ct i).or (ct ((i + 2) % 4))
    let s := match v with
      | none => s
      | some t => setReg (0x200804 + i) t.toNat s
    if (ct i).isNone then raiseAt 0x600A 0 768 i 0 s else s) s
  let s := if s.reg 0x20080F ≤ lo then modPower (fun p => { p with flowLow := false }) s else s
  match (ct 0).or (ct 2) with
  | none => s
  | some t =>
    if signExt 16 t.toNat ≤ ((8 * s.reg 0x200810 : Nat) : Int) then modPower (fun p => { p with inletCut := 0, inletTold := false }) s else s

/-- VALVE_CONTROL (R465, R466): with both inputs of a pair failed the valve is fully open, and so it is in FAULT (R468). -/
def opValve (r : CoolantReading) (s : State) : State :=
  let s := readCoolant r s
  let ct := fun (i : Nat) => (r.temps.toList.getD i none).isNone
  if s.life = .fault ∨ (ct 0 ∧ ct 2) ∨ (ct 1 ∧ ct 3) then setReg 0x200801 1000 s else setValve s

def execValveControl (r : CoolantReading) (s : State) : Host.Outcome State Fault Refusal := .next (powered (opValve r) s)

/-- COOLANT_FLOW_LOW (R467): below the minimum for 1 s; the limit is 1,000 W until a reading shows the flow recovered. -/
def opFlowLow (s : State) : State := raise_ 0x6007 (modPower (fun p => { p with flowLow := true }) s)

def execCoolantFlowLow (s : State) : Host.Outcome State Fault Refusal := .next (powered opFlowLow s)

/-- COOLANT_FLOW_CRITICAL (R467): below a quarter of the minimum for 5 s. -/
def execCoolantFlowCritical (s : State) : Host.Outcome State Fault Refusal := .next (powered (holdNow 0x6007) s)

/-- INLET_TEMPERATURE_HIGH (R467): one second above the maximum; the pool falls by 100 W until nothing is left of it. -/
def opInletHigh (s : State) : State :=
  let s := if s.board.power.inletTold then s else raise_ 0x6008 s
  modPower (fun p => { p with inletTold := true, inletCut := if corePool s = 0 then p.inletCut else p.inletCut + 100 }) s

def execInletTemperatureHigh (s : State) : Host.Outcome State Fault Refusal := .next (powered opInletHigh s)

/-- PROFILE_DEPARTURE (R469): 0x600D once per job. -/
def opProfileDeparture (s : State) : State :=
  if profiled s ∧ !s.board.power.departed then raise_ 0x600D (modPower (fun p => { p with departed := true }) s) else s

def execProfileDeparture (s : State) : Host.Outcome State Fault Refusal := .next (powered opProfileDeparture s)

/-- Power and valve at LOAD (R468): the budgets of the IDLE phase, and the trim from zero. -/
def startPower (s : State) : State :=
  setBudgets (modPower (fun p => { p with integral := 0, clamped := false, departed := false, durations := [0, 0, 0] }) s)

end Sys2Proof.Machine
end

