-- ==== Sys2Proof/Machine/Retire.lean ====
section
/-!
DEFINITION. When retirements take effect (R55, R56, R59), and the software request for one (R60).
-/

namespace Sys2Proof.Machine

/-- A tile judged faulty whose retirement would make its die short stays recorded in the repair map (R59). -/
def recordJudged (k : Nat) (s : State) : State :=
  let d := keyDie k
  let p := tilePlace s d (keyTile k)
  let place := d * 1024 + p.2 * 32 + p.1
  if s.board.flash.judged.contains place then s else modFlash (fun f => { f with judged := f.judged ++ [place] }) s

/-- Every queued retirement takes effect, or none on a package that would be short (R56, R59). The repair map in flash follows. -/
def retireAll (s : State) : State :=
  let bad := (List.range 4).filter (fun d => wantedRows s d != [] && shortWith s d (wantedRows s d))
  match bad with
  | [] =>
    let s := allOf s.retireQ (fun q => applyRetirement q.1) (abortHeld s)
    writeRepairMap { s with retireQ := [] }
  | d :: _ =>
    let judged := s.retireQ.filter (fun q => decide (q.2 ≠ 0))
    let s := allOf judged (fun q s =>
      recordJudged q.1 (raiseAt 0x700A (keyDie q.1) (keyTile q.1) q.2 q.2 (bumpReg 0x701406 1 (judgeEntry (tileEp s q.1) q.2 3 s)))) s
    becomeShort d (writeRepairMap { s with retireQ := [] })

/-- RETIREMENT (R55, R56, R59): the judged or requested retirements of a boundary. -/
def opRetirement (s : State) : State := if s.retireQ = [] ∨ !retireTime s then s else retireAll s

def execRetirement (s : State) : Host.Outcome State Fault Refusal := .next (powered opRetirement s)

/-- RETIRE_LOGICAL_TILE (R60): status 0x05 in another state than STANDBY, READY or HELD, 0x07 where the die would be short. -/
def opRetireTile (k : Nat) (s : State) : Nat × State :=
  if s.life ≠ .standby ∧ s.life ≠ .ready ∧ s.life ≠ .held then (5, s)
  else
    let d := keyDie k
    let want := wantedRows s d ++ [tilePlace s d (keyTile k)]
    if s.retireQ.any (fun q => q.1 == k) then (0, s)
    else if shortWith s d want then (7, s)
    else (0, { s with retireQ := s.retireQ ++ [(k, 0)] })

def execRetireLogicalTile (r : TileRef) (s : State) : Host.Outcome State Fault Refusal := .next (powered (fun s => (opRetireTile (tileKey r) s).2) s)

end Sys2Proof.Machine
end

