-- ==== Sys2Proof/Machine/Tightrope.lean ====
section
/-!
DEFINITION. Tightrope edges (R276-R294): flits and their retry, link resets, training and the agreement on a width, edges that
go down, and the hand-over of what their replay buffers hold.
-/

namespace Sys2Proof.Machine

/-! ### Edges and their ends -/

/-- An edge. -/
def State.edge (s : State) (e : Nat) : Edge := s.edges.getD e {}

/-- Change an edge. -/
def modEdge (e : Nat) (f : Edge → Edge) (s : State) : State := { s with edges := setAt s.edges e (f (s.edge e)) }

/-- The dies an edge joins, the lower-numbered first (R17, R277): T0 D0-D1, T1 D1-D3, T2 D3-D2, T3 D2-D0. -/
def edgeDies (e : Nat) : Nat × Nat := if e = 0 then (0, 1) else if e = 1 then (1, 3) else if e = 2 then (2, 3) else (0, 2)

/-- Die of an end: `high` names the end on the higher-numbered die. -/
def endDie (e : Nat) (high : Bool) : Nat := if high then (edgeDies e).2 else (edgeDies e).1

/-- The other edge of a die. -/
def otherEdge (e d : Nat) : Nat := ((List.range 4).find? (fun f => decide (f ≠ e) && ((edgeDies f).1 == d || (edgeDies f).2 == d))).getD e

/-- An end of an edge. -/
def edgeEnd (x : Edge) (high : Bool) : LinkEnd := x.ends.getD (boolNat high) {}

/-- Change an end. -/
def modEnd (e : Nat) (high : Bool) (f : LinkEnd → LinkEnd) (s : State) : State :=
  modEdge e (fun x => { x with ends := setAt x.ends (boolNat high) (f (edgeEnd x high)) }) s

/-- Width of a counter of R294: attempts, failed attempts and link resets wrap at 2^32, the others at 2^64. -/
def edgeCounterBits (i : Nat) : Nat := if 3 ≤ i ∧ i ≤ 5 then 32 else 64

/-- Add to a counter of an end (R294): 0 sent, 1 CRC failures, 2 resent, 3 attempts, 4 failed, 5 link resets, 6 reinjected. -/
def countEnd (e : Nat) (high : Bool) (i n : Nat) (s : State) : State :=
  let add := fun (c : List Nat) => setAt c i ((nth c i + n) % 2 ^ edgeCounterBits i)
  modEdge e (fun x => { x with counters := setAt x.counters (boolNat high) (add (x.counters.getD (boolNat high) [])) }) s

/-- Both ends of an edge. -/
def bothEnds (f : Bool → State → State) (s : State) : State := f true (f false s)

/-- Raise an event of an end: its unit is control core 0 of the end's die, its SUBUNIT the edge. -/
def raiseEdge (code e : Nat) (high : Bool) (s : State) : State := raiseAt code (endDie e high) 768 e 0 s

/-- Is an edge trained? -/
def edgeTrained (x : Edge) : Bool := x.st == .full || x.st == .halfLow || x.st == .halfHigh

/-- Edges down, as 0x1010.07 shows them (R293). -/
def showEdges (s : State) : State :=
  setReg 0x101007 (((List.range 4).filter (fun e => (s.edge e).st == .down)).foldl (fun a e => a + 2 ^ e) 0) s

/-- Send what an end can send. -/
def pumpEnd (e : Nat) (high reply : Bool) (s : State) : State :=
  if edgeTrained (s.edge e) then
    let r := pump tropeLink reply (edgeEnd (s.edge e) high)
    let s := countEnd e high 0 r.1.length (modEnd e high (fun _ => r.2) s)
    allOf r.1 (fun f => emit (.trope (Fin.ofNat 4 e) high f)) s
  else s

/-! ### Down, and up again -/

/-- An edge goes down (R287): 0x3003; a second one divides the ring: 0x3004, and FAULT where a job is held, else STANDBY. -/
def edgeDown (e : Nat) (s : State) : State :=
  let x := fun (x : Edge) => { x with st := .down, attempt := false, fails := 0, handed := [false, false] }
  let s := showEdges (raiseAt 0x3003 0 768 e 0 (modEdge e x s))
  if 2 ≤ ((List.range 4).filter (fun f => (s.edge f).st == .down)).length then
    let s := raiseAt 0x3004 0 768 e 0 s
    if holdsJob s then enterFault 0x3004 s
    else
      let b := s.board
      let s := { s with board := { b with boot := { b.boot with barred := true } } }
      if s.life = .ready then enter .standby 0x3004 s else s
  else s

/-- A training attempt fails (R285): 0x3002; after three in succession the edge goes down, and a retrain of a down edge leaves it
down with 0x3008 (R294). -/
def attemptFails (e : Nat) (s : State) : State :=
  let s := raiseAt 0x3002 0 768 e 0 (bothEnds (fun h => countEnd e h 4 1) s)
  let n := (s.edge e).fails + 1
  if 3 ≤ n then
    if (s.edge e).byCommand then
      showEdges (raiseAt 0x3008 0 768 e 0 (modEdge e (fun x => { x with st := .down, attempt := false, fails := 0, byCommand := false }) s))
    else edgeDown e s
  else modEdge e (fun x => { x with attempt := false, fails := n, adverts := [none, none], agreed := 0 }) s

/-- The state that an agreed half mask gives (R285). -/
def widthOf (mask : Nat) : EdgeState := if mask = 3 then .full else if mask = 1 then .halfLow else if mask = 2 then .halfHigh else .down

/-- An attempt succeeds (R285, R286): the width is the agreed one, half width raises 0x3001, and each end sends its replay buffer
again. -/
def edgeUp (e : Nat) (s : State) : State :=
  let mask := (s.edge e).agreed
  let s := modEdge e (fun x => { x with st := widthOf mask, attempt := false, fails := 0, byCommand := false, adverts := [none, none] }) s
  let s := showEdges (if mask = 3 then s else raiseAt 0x3001 0 768 e 0 s)
  bothEnds (fun h s =>
    let q := (edgeEnd (s.edge e) h).replay
    pumpEnd e h false (countEnd e h 2 q.length (allOf q (fun f => emit (.trope (Fin.ofNat 4 e) h f)) s))) s

/-- A link reset of one end (R278, R286): replay buffer, sequence numbers and credits stay; both ends retrain. One that arrives
during an attempt ends that attempt as failed. -/
def edgeReset (e : Nat) (high : Bool) (s : State) : State :=
  let s := raiseEdge 0x3007 e high (countEnd e high 5 1 s)
  let s := modEnd e high (fun l => { l with refusing := false, refusals := 0 }) s
  let s := if (s.edge e).attempt then attemptFails e s else s
  if (s.edge e).st = .down then s else modEdge e (fun x => { x with st := .training, attempt := false }) s

/-- TIGHTROPE_LINK_RESET (R278): a PHY error burst at an end. An edge that is down stays down (R287). -/
def opTightropeReset (e : Nat) (high : Bool) (s : State) : State := powered (edgeReset e high) s

def execTightropeLinkReset (e : Fin 4) (high : Bool) (s : State) : Host.Outcome State Fault Refusal := .next (powered (opTightropeReset e.val high) s)

/-- TIGHTROPE_TRAINING (R284, R286): D0 starts an attempt on an edge that has to train. -/
def opTightropeTraining (e : Nat) (s : State) : State :=
  powered (fun s =>
    if (s.edge e).st = .training ∧ !(s.edge e).attempt then
      let s := modEdge e (fun x => { x with attempt := true, adverts := [none, none], agreed := 0 }) s
      bothEnds (fun h s => countEnd e h 3 1 (modEnd e h (fun l => { l with tests := 0 }) s)) s
    else s) s

def execTightropeTraining (e : Fin 4) (s : State) : Host.Outcome State Fault Refusal := .next (powered (opTightropeTraining e.val) s)

/-- A word on the die management bus (R276). -/
def busWord (e : Nat) (high : Bool) (w : Nat) (s : State) : State := emit (.bus (endDie e high) w) s

/-- The test flit of an end (R280). -/
def tropeTest : Flit :=
  let f : Flit := { test := true }
  { f with crc := tropeCrc f }

/-- HALF_MASK_ADVERTISEMENT (R284, R285): with both advertisements D0 agrees the width, and each end sends 16 test flits. -/
def opAdvertise (e : Nat) (high : Bool) (mask : BitVec 2) (s : State) : State :=
  powered (fun s =>
    if (s.edge e).attempt ∧ (s.edge e).adverts.getD (boolNat high) none = none then
      let s := modEdge e (fun x => { x with adverts := setAt x.adverts (boolNat high) (some mask.toNat) }) s
      match (s.edge e).adverts with
      | [some a, some b] =>
        let m := a &&& b
        if m = 0 then attemptFails e s
        else
          let s := modEdge e (fun x => { x with agreed := m }) s
          bothEnds (fun h s => allOf (List.range 16) (fun _ => emit (.trope (Fin.ofNat 4 e) h tropeTest)) (busWord e h m s)) s
      | _ => s
    else s) s

def execHalfMaskAdvertisement (e : Fin 4) (high : Bool) (mask : BitVec 2) (s : State) : Host.Outcome State Fault Refusal :=
  .next (powered (opAdvertise e.val high mask) s)

/-- ADVERTISEMENT_TIMEOUT (R285): an advertisement is missing 100 µs after the attempt began. -/
def opAdvertTimeout (e : Nat) (s : State) : State :=
  powered (fun s => if (s.edge e).attempt ∧ (s.edge e).agreed = 0 then attemptFails e s else s) s

def execAdvertisementTimeout (e : Fin 4) (s : State) : Host.Outcome State Fault Refusal := .next (powered (opAdvertTimeout e.val) s)

/-! ### Flits -/

/-- Does a flit pass its checks (R280, R281)? -/
def tropeIntact (f : Flit) : Bool := f.crc == tropeCrc f && f.slots.all (fun x => x.kind != 3 && decide (x.vc.toNat < 2))

/-- A test flit of a running attempt (R285): the attempt succeeds once both ends have 16 intact, and fails on one that is not. -/
def takeTest (e : Nat) (high : Bool) (f : Flit) (s : State) : State :=
  if (s.edge e).attempt ∧ (s.edge e).agreed ≠ 0 then
    if tropeIntact f then
      let s := modEnd e high (fun l => { l with tests := l.tests + 1 }) s
      if 16 ≤ (edgeEnd (s.edge e) false).tests ∧ 16 ≤ (edgeEnd (s.edge e) true).tests then edgeUp e s else s
    else attemptFails e (countEnd e high 1 1 s)
  else s

/-- The mesh takes what the crossing FIFO holds; its slots are owed to the sender (R283). -/
def freeFifo (e : Nat) (high : Bool) (s : State) : State :=
  modEnd e high (fun l =>
    let n := fun (v : Nat) => (l.rx.filter (fun x => decide (x.vc.toNat = v))).length
    { l with rx := [], owed := (List.range l.owed.length).map (fun v => nth l.owed v + n v) }) s

/-- TIGHTROPE_FLIT (R280-R283): a flit arrives at an end. -/
def opTightropeFlit (e : Nat) (high : Bool) (f : Flit) (s : State) : State :=
  powered (fun s =>
    if f.test then takeTest e high f s
    else if edgeTrained (s.edge e) then
      let ok := tropeIntact f
      let r := receiveFlit f ok (edgeEnd (s.edge e) high)
      let again := if ok then replayAfter f r.2 else []
      let s := modEnd e high (fun _ => r.2) s
      let s := countEnd e high 2 again.length (allOf again (fun g => emit (.trope (Fin.ofNat 4 e) high g)) s)
      match r.1 with
      | .accepted => pumpEnd e high (decide (liveSlots f ≠ [])) (freeFifo e high s)
      | .discarded bad => pumpEnd e high true (if bad then countEnd e high 1 1 s else s)
      | .replayLimit => edgeReset e high (raiseEdge 0x3006 e high (countEnd e high 1 1 s))
    else s) s

def execTightropeFlit (e : Fin 4) (high : Bool) (f : Flit) (s : State) : Host.Outcome State Fault Refusal :=
  .next (powered (opTightropeFlit e.val high f) s)

/-! ### Hand-over and retrain -/

/-- HAND_OVER_REPORT (R288): the end `high` of a down edge reports the SEQ it last accepted; the other end reinjects the slots of
every later flit into its die's other edge, in SEQ order and before new traffic. -/
def opHandOver (e : Nat) (high : Bool) (s : State) : State :=
  powered (fun s =>
    let x := s.edge e
    if x.st = .down ∧ x.handed.getD (boolNat high) true = false then
      let rx := edgeEnd x high
      let tx := edgeEnd x (!high)
      let later := if rx.accV then tx.replay.filter (fun g => !seqCovers rx.accepted g.seq) else tx.replay
      let slots := later.flatMap liveSlots ++ tx.txq
      let d := endDie e (!high)
      let f := otherEdge e d
      let fh := decide ((edgeDies f).2 = d)
      let s := busWord e (!high) rx.accepted.toNat s
      let s := modEdge e (fun x => { x with handed := setAt x.handed (boolNat high) true }) s
      let s := modEnd e (!high) (fun l => { l with replay := [], txq := [] }) (countEnd e (!high) 6 later.length s)
      pumpEnd f fh false (modEnd f fh (fun l => { l with txq := slots ++ l.txq }) s)
    else s) s

def execHandOverReport (e : Fin 4) (high : Bool) (s : State) : Host.Outcome State Fault Refusal := .next (powered (opHandOver e.val high) s)

/-- May an edge be retrained by command (R294)? -/
def edgeRetrainAllowed (s : State) : Bool := s.life = .standby || s.life = .ready || s.life = .held

/-- RETRAIN_SELECTED_EDGE (R294) of die `d`: a link reset of its end; a down edge trains again by command. -/
def opRetrainEdge (d : Nat) (s : State) : State :=
  if edgeRetrainAllowed s then
    let e := s.reg (dieKey d 0x816001)
    let high := decide ((edgeDies e).2 = d)
    let s := if (s.edge e).st = .down then modEdge e (fun x => { x with st := .training, byCommand := true, fails := 0 }) s else s
    edgeReset e high s
  else s

def execRetrainSelectedEdge (d : Fin 4) (s : State) : Host.Outcome State Fault Refusal := .next (powered (opRetrainEdge d.val) s)

end Sys2Proof.Machine
end

