-- ==== Sys2Proof/Machine/Boot.lean ====
section
/-!
DEFINITION. The supplies and resets (R451, R497-R501), and the boot (R472, R473, R477-R479, R486, R277).
-/

namespace Sys2Proof.Machine

/-! ### The Trunk Record across a reset -/

/-- A field of a Trunk Record entry. -/
def entryField (e : List Byte) (hi lo : Nat) : Nat := bitField (leNat e) hi lo

/-- Does an entry's CRC hold (R449)? -/
def entryIntact (e : List Byte) : Bool :=
  let n := leNat e
  decide (n % 2 ^ 32 = (crc32c (leBytes 64 (n - n % 2 ^ 32))).toNat)

/-- An entry of a ring. -/
def entryAt (m : Memory) (ring slot : Nat) : List Byte := readBytes m (ringBase ring + 64 * slot) 64

/-- The generation of a header copy with a valid CRC (R448). -/
def headerGen (m : Memory) (copy : Nat) : Option Nat :=
  let b := readBytes m (0x1000 * copy) 40
  if leAt b 36 4 = (crc32c (b.take 36)).toNat then some (leAt b 0 4) else none

/-- Scan a ring forward from a slot for entries of later SEQ (R448); `fuel` bounds them. Answers the slot, the next SEQ and how many
boot entries were found. -/
def scanRing (m : Memory) (ring : Nat) : Nat → Nat → Nat → Nat → Nat × Nat × Nat
  | 0, slot, next, boots => (slot, next, boots)
  | n + 1, slot, next, boots =>
    let e := entryAt m ring slot
    if entryIntact e && decide (next ≤ entryField e 511 448) then
      scanRing m ring n ((slot + 1) % ringSize ring) (entryField e 511 448 + 1) (boots + boolNat (entryField e 383 368 == 6))
    else (slot, next, boots)

/-- The Trunk Record as a boot finds it in the MRAM (R448). -/
def recoverTrunk (m : Memory) : Trunk :=
  let from_ := fun (copy gen : Nat) =>
    let b := readBytes m (0x1000 * copy) 40
    let next := leAt b 4 8
    let r := (List.range 3).map (fun ring => scanRing m ring 256 (leAt b (12 + 4 * ring) 4) next 0)
    let seq := (r.map (fun x => x.2.1)).foldl max next
    ({ mram := m, gen := gen, nextSeq := seq, slots := r.map (fun x => x.1), boots := leAt b 24 4 + (r.map (fun x => x.2.2)).foldl (· + ·) 0,
       losses := leAt b 28 4, lost := leAt b 32 4, sinceHeader := min 255 (seq - next) } : Trunk)
  match headerGen m 0, headerGen m 1 with
  | some a, some b => if a < b then from_ 1 b else from_ 0 a
  | some a, none => from_ 0 a
  | none, some b => from_ 1 b
  | none, none => { mram := m }

/-- Entries lost at the power loss that came last, where nothing has been written since (R451). -/
def lossReported (t : Trunk) : Nat :=
  let e := entryAt t.mram 2 ((nth t.slots 2 + ringSize 2 - 1) % ringSize 2)
  if entryIntact e ∧ entryField e 383 368 = 7 ∧ entryField e 511 448 + 1 = t.nextSeq then entryField e 287 256 else 0

/-- Write every entry queued in flow 10 (R500). -/
def flushTrunk (t : Trunk) : Trunk := t.queue.foldl (fun t _ => drainTrunk t) t

/-- What power-good's fall leaves in the MRAM (R451): up to 64 queued entries, a power-loss entry and the header. -/
def holdUp (written : Nat) (s : State) : Trunk :=
  let t := s.trunk
  let n := min written t.queue.length
  let lost := t.queue.length - n
  let t := (t.queue.take n).foldl (fun t q => writeEntry t 2 q.2) { t with queue := [] }
  let e := trunkEntry t.nextSeq s.now 7 0 (stateCode s.life) (atBit 224 lost)
  let t := writeEntry { t with nextSeq := t.nextSeq + 1 } 2 e
  writeHeader { t with losses := t.losses + 1, lost := t.lost + lost }

/-! ### OFF -/

/-- The package after a reset of every die: in OFF with every entry at its default. What keeps its contents is the MRAM, the flash, the
fault history (R439), the supply monitor, the lands and the test access port. -/
def offState (s : State) : State :=
  let p := s.board.pins
  let b : Board := { flash := s.board.flash, pins := { p with valve := false }, tap := s.board.tap }
  let r : State := { trunk := recoverTrunk s.trunk.mram, history := s.history, board := b, out := s.out, pending := s.pending, free := s.free }
  setReg 0x104804 p.orderFaults (setReg 0x104805 p.trips r)

/-- A reset with the supplies good (R500): the change to OFF is recorded, every queued entry reaches the MRAM, and every die resets. -/
def resetAll (cause : Nat) (s : State) : State :=
  let s := enter .off cause s
  offState { s with trunk := flushTrunk s.trunk }

/-- Does a boot wait for a die (R277)? -/
def bootWaits (s : State) : Bool := s.board.boot.waiting.isSome

/-- PWRGD_ASSERT (R497): the supply monitor has seen the rails arrive in order, or a core rail before a fixed one. -/
def opPwrgd (order : Bool) (s : State) : State :=
  let s := modPins (fun p => { p with pwrgd := true, orderFault := order, orderFaults := p.orderFaults + boolNat order }) s
  setReg 0x104804 s.board.pins.orderFaults s

/-- `order`: a core rail reached half its VBOOT before every fixed rail was within tolerance. -/
def execPwrgdAssert (order : Bool) (s : State) : Host.Outcome State Fault Refusal :=
  .next (if s.board.pins.pwrgd then s else opPwrgd order s)

/-- PWRGD_FALL (R451, R498-R501): flow 10 closes, the hold-up sequence runs and the package is in OFF. With HOLDUP read below 11.4 V
how many of the entries are written is free (R499). -/
def opPwrgdFall (s : State) : State :=
  let s := modPins (fun p => { p with pwrgd := false, thermtrip := false, orderFault := false }) s
  if s.life = .off ∧ !bootWaits s then s
  else
    let r := if s.reg 0x104802 = 1 then (64, s) else
      let f := freeBytes 1 s
      (leNat f.1 % 65, f.2)
    offState { r.2 with trunk := holdUp r.1 r.2 }

def execPwrgdFall (s : State) : Host.Outcome State Fault Refusal := .next (opPwrgdFall s)

/-- RESET_N_ASSERT (R500): for at least 10 µs with PWRGD high. -/
def opResetN (s : State) : State :=
  let s := modPins (fun p => { p with resetN := false }) s
  if s.life = .off ∧ !bootWaits s then s else if s.board.pins.pwrgd then resetAll 0 s else s

def execResetNAssert (s : State) : Host.Outcome State Fault Refusal := .next (opResetN s)

/-- HOLDUP_READ (R499): once per second. -/
def opHoldup (mv : BitVec 16) (s : State) : State := setReg 0x104801 mv.toNat (setReg 0x104802 (boolNat (decide (11400 ≤ mv.toNat))) s)

def execHoldupRead (mv : BitVec 16) (s : State) : Host.Outcome State Fault Refusal := .next (powered (opHoldup mv) s)

/-! ### Boot stages: a stage answers the state it leaves, or the state in which the boot has ended. -/

/-- A boot that goes on, or has ended. -/
abbrev Stage := Except State State

/-- The boot ends in STANDBY at a stage; `shown` is what 0x1044.08 shows. -/
def endBoot (shown : Nat) (s : State) : Stage := .error (enter .standby 0 (setReg 0x104408 shown s))

/-- Recovery mode (R473). -/
def recoveryMode (stage code : Nat) (s : State) : Stage :=
  endBoot (0x80 + stage) (raise_ code (modBoot (fun b => { b with recovery := true }) s))

/-- A start-up check fails: the package stays in STANDBY (R277). -/
def startUpFails (s : State) : Stage := endBoot 6 (modBoot (fun b => { b with barred := true }) s)

/-- The verified copies of a record (R477): those that hold one and have not failed. -/
def goodCopies (f : BootFound) (s : State) (kind : Nat) : List Nat :=
  (List.range 2).filter (fun c => flashRecord s kind c != [] && !f.badCopies.contains (kind, c))

/-- Has a record no copy left: a copy has failed and no other serves (R478)? -/
def recordLost (f : BootFound) (s : State) (kind : Nat) : Bool :=
  f.badCopies.any (fun x => x.1 == kind) && (goodCopies f s kind).isEmpty

/-- The record that boot uses: the verified copy with the higher sequence (R477); absent, an empty one. -/
def usedRecord (f : BootFound) (s : State) (kind : Nat) : List Byte :=
  (goodCopies f s kind).foldl (fun o c => if o = [] ∨ objSeq o < objSeq (flashRecord s kind c) then flashRecord s kind c else o) []

/-- The kinds of configuration records. -/
def recordKinds : List Nat := [0x10, 0x11, 0x12, 0x13, 0x14, 0x15, 0x16, 0x17]

/-- B2: the records are read and verified (R472, R477, R478); the valve is driven from its end (R504). -/
def bootB2 (f : BootFound) (s : State) : Stage :=
  let s := allOf recordKinds (fun k s =>
    if recordLost f s k then s else allOf (f.badCopies.filter (fun x => x.1 == k)) (fun _ => raise_ 0x8001) s) s
  let s := modPins (fun p => { p with valve := true }) s
  if [0x10, 0x11, 0x12].any (recordLost f s) then recoveryMode 2 0x8002 s
  else
    let s := allOf ([0x14, 0x15, 0x16, 0x17].filter (recordLost f s)) (fun _ => raise_ 0x800D) s
    let owner := usedRecord f s 0x15
    .ok (modBoot (fun b => { b with noFieldMap := recordLost f s 0x14, owner := if owner = [] then none else some (objBody owner) })
      (setBlob 0x104004 owner s))

/-- The highest security version among the verified objects of a kind in flash (R478). -/
def heldVersion (f : BootFound) (s : State) (kind : Nat) : Nat :=
  if kind = 1 then (((List.range 2).filter (fun i => nth s.board.flash.slots i != 3 && !f.badSlots.contains i)).map
    (fun i => objVersion (flashObject s 1 i))).foldl max 0
  else if 2 ≤ kind ∧ kind ≤ 4 ∧ verifyObject s kind (flashObject s kind 0) = .ok then objVersion (flashObject s kind 0) else 0

/-- B3: the root secret, the device keys and what they guard (R479, R480, R482, R478). -/
def bootB3 (f : BootFound) (s : State) : Stage :=
  let s := modBoot (fun b => { b with identity := f.puf, nextIndex := s.board.flash.counter }) s
  let s := if f.puf then s else raise_ 0x8003 s
  let s := setBlob 0x104001 (sliceBytes Config.deviceKeys 0 97) (setBlob 0x104002 (sliceBytes Config.deviceKeys 97 60) s)
  let s := setReg 0x104008 (signaturesLeft s) (setBlob 0x104003 (usedRecord f s 0x10) s)
  let minima := if recordLost f s 0x17 then (List.range 6).map (fun i => (i + 1, heldVersion f s (i + 1))) else parseMinima (objBody (usedRecord f s 0x17))
  let s := modBoot (fun b => { b with minima := minima }) s
  let s := setReg 0x104405 (smGetD minima 1 0) (if recordLost f s 0x17 then writeMinima s else s)
  let m := usedRecord f s 0x16
  if m ≠ [] ∧ verifyObject s 0x16 m = .ok then
    .ok (modBoot (fun b => { b with mgmtKey := (Config.unwrapKey (objBody m)).map (fun k => sliceBytes k 0 32) }) (setBlob 0x104005 (blindRecord m) s))
  else .ok s

/-- The slot boot tries first: a trial slot, else the active one. -/
def firstSlot (fl : Flash) : Nat := if nth fl.slots 0 = 1 then 0 else if nth fl.slots 1 = 1 then 1 else fl.active

/-- Try a slot (R486): empty and failed slots are passed over, a trial slot's attempts are counted, and a slot that fails verification
raises 0x8004. -/
def trySlot (f : BootFound) (i : Nat) (s : State) : Bool × State :=
  let fl := s.board.flash
  let st := nth fl.slots i
  if st = 2 ∨ st = 3 then (false, s)
  else if st = 1 ∧ 3 ≤ nth fl.trials i then (false, raise_ 0x8005 (modFlash (fun x => { x with slots := setAt x.slots i 2 }) s))
  else
    let s := if st = 1 then modFlash (fun x => { x with trials := setAt x.trials i (nth x.trials i + 1) }) s else s
    if f.badSlots.contains i then (false, raise_ 0x8004 s)
    else (true, setReg 0x100005 (Config.bodyVersion 1 (objBody (flashObject s 1 i))) (setReg 0x104403 i s))

/-- B4: a firmware slot (R472, R486). While it boots, 0x1044.03 shows the slot in use. -/
def bootB4 (f : BootFound) (s : State) : Stage :=
  let i := firstSlot s.board.flash
  let r := trySlot f i s
  let r := if r.1 then r else trySlot f (1 - i) r.2
  let s := setReg 0x104404 (nth r.2.board.flash.slots 0 + 4 * nth r.2.board.flash.slots 1) r.2
  if r.1 then .ok s else recoveryMode 4 0x8006 s

/-- Nominal voltages of the regulators D0 to D3, VSTACK, VMW, VETH and VAUX at boot, mV (R28, R456). -/
def bootVolts : List Nat := [750, 750, 750, 750, 1100, 900, 900, 1800]

/-- The rails: the fixed ones are commanded once, and the core setpoints start at VBOOT (R456, R461). -/
def bootRails (s : State) : State :=
  let s := allOf (List.range 4) (fun i => emit (.regulator (4 + i) 0x21 (nth bootVolts (4 + i)))) s
  allOf (List.range 4) (fun d => setReg (0x200405 + d) 750) s

/-- B5 and the like of B7: the maps in force (R51, R58, R477), the factory's and the field's together; a spare newly found unusable enters
the field map (R476). -/
def bootMaps (f : BootFound) (s : State) : State :=
  let fac := parseRepair (objBody (usedRecord f s 0x13))
  let fld := parseRepair (objBody (usedRecord f s 0x14))
  let tiles := (fac.1 ++ fld.1).dedup
  let spares := (fac.2.1 ++ fld.2.1 ++ f.spares.map (fun (x : Fin 4 × Fin 32) => x.1.val * 32 + x.2.val)).dedup
  let rows := (fac.2.2.2 ++ fld.2.2.2).dedup
  let ret := tiles.foldl (fun m p => smPut m (p / 1024 * 32 + p % 32) (p / 32 % 32)) ([] : SMap Nat)
  let counts := rows.foldl (fun m r => smPut m (r / 2 ^ 40 * 4 + 2) (smGetD m (r / 2 ^ 40 * 4 + 2) 0 + 1)) ([] : SMap Nat)
  let bypass := f.bypasses.map (fun (x : Fin 4 × Fin 25 × Fin 32) => x.1.val * 1024 + x.2.1.val * 32 + x.2.2.val)
  let s := { s with retired := ret, spareBad := spares, bypassBad := bypass, repairRows := rows, stackCounts := counts }
  if spares.all (fun x => fac.2.1.contains x || fld.2.1.contains x) then s else writeRepairMap s

/-- B5. -/
def bootB5 (f : BootFound) (s : State) : Stage := .ok (setReg 0x104408 6 (bootMaps f (bootRails s)))

/-- The feature level of a revision (R290); 0 for a code that is not shipped. -/
def revisionLevel (r : Nat) : Nat := if r = 0xB0 then 1 else if r = 0xB1 then 2 else if r = 0xC0 then 3 else 0

/-- Are four revisions allowed pairwise (R289)? -/
def pairingAllowed (rs : List Nat) : Bool :=
  rs.all (fun r => revisionLevel r != 0) && !(rs.contains 0xB0 && rs.contains 0xC0)

/-- An edge as its boot training leaves it (R277, R285). -/
def bootEdge (f : BootFound) (e : Nat) (s : State) : State :=
  let m := (f.masks.toList.getD e 0).toNat
  if m = 0 then
    let s := allOf (List.range 3) (fun _ s => raiseAt 0x3002 0 768 e 0 (bothEnds (fun h => countEnd e h 4 1) s)) s
    showEdges (raiseAt 0x3003 0 768 e 0 (modEdge e (fun x => { x with st := .down }) s))
  else
    let s := modEdge e (fun x => { x with st := widthOf m, agreed := m }) s
    if m = 3 then s else raiseAt 0x3001 0 768 e 0 s

/-- B6: the other dies report, their revisions agree, and the edges train (R277). -/
def bootB6 (f : BootFound) (s : State) : Stage :=
  let rs := (List.range 4).map (fun d => (Config.revision d).toNat)
  let s := allOf (List.range 4) (fun d => setReg (0x101001 + d) (nth rs d)) s
  let level := (rs.map revisionLevel).foldl min 3
  let s := setReg 0x101005 level (setReg 0x101006 (boolNat (pairingAllowed rs)) s)
  if !pairingAllowed rs then startUpFails (raise_ 0x3005 s)
  else
    let s := bootEdge f 2 (bootEdge f 1 (bootEdge f 3 (bootEdge f 0 s)))
    if 2 ≤ ((List.range 4).filter (fun e => (s.edge e).st == .down)).length then startUpFails (raise_ 0x3004 s) else .ok s

/-- Columns and rows that the maps retire on a die. -/
def mapWants (f : BootFound) (s : State) (d : Nat) : List (Nat × Nat) :=
  let tiles := ((parseRepair (objBody (usedRecord f s 0x13))).1 ++ (parseRepair (objBody (usedRecord f s 0x14))).1).dedup
  (tiles.filter (fun p => decide (p / 1024 = d))).map (fun p => (p % 32, p / 32 % 32))

/-- B7: dies that are short (R59). -/
def bootB7 (f : BootFound) (s : State) : Stage :=
  .ok (allOf (List.range 4) (fun d s => if shortWith { s with retired := [] } d (mapWants f s d) then becomeShort d s else s) s)

/-- The result of a test run (R164, R165): suites and dies that failed, 0 for none. -/
def suiteResult (suites dies : Nat) (s : State) : State :=
  let pass := decide (suites = 0) || decide (dies = 0)
  let s := bumpReg 0x501807 1 (setReg 0x501803 (if pass then 2 else 3) (setReg 0x501804 (if pass then 0 else suites) (setReg 0x501805 (if pass then 0 else dies) s)))
  if pass then s else
    allOf ((List.range 4).filter (bitAt dies)) (fun d => raiseAt 0x1005 d 768 0 0) (modBoot (fun b => { b with suitesPassed := false }) s)

/-- B8: every suite on every die (R165). -/
def bootB8 (f : BootFound) (s : State) : Stage :=
  let o := flashObject s 3 0
  let s := if verifyObject s 3 o = .ok then setReg 0x501806 (Config.bodyVersion 3 (objBody o)) s else s
  let s := suiteResult f.suites.toNat f.dies.toNat s
  .ok (if s.reg 0x501803 = 2 then modBoot (fun b => { b with suitesPassed := true }) s else s)

/-- B9: the pack (R442). -/
def bootB9 (s : State) : Stage :=
  let o := flashObject s 2 0
  .ok (if verifyObject s 2 o = .ok then usePack o s else raise_ 0x700B s)

/-- B10: the installation descriptor (R483). -/
def bootB10 (s : State) : Stage :=
  let o := flashObject s 4 0
  .ok (if o = [] then s else if verifyObject s 4 o = .ok then takeDescriptor o s else refuseEvent (verifyObject s 4 o) s)

/-- The full run after a lost field map (R478): what fails is judged and retired, and the map is written afresh. -/
def bootFullRun (f : BootFound) (s : State) : State :=
  if s.board.boot.noFieldMap ∧ s.gal.pack ≠ [] then
    let s := allOf f.galleryFails (fun r => judgePermanent (tileEp s (tileKey r)) 0x7007) s
    let s := setReg 0x70100B (if f.galleryFails = [] then 2 else 3) s
    if s.retireQ = [] then writeRepairMap s else retireAll s
  else s

/-- A trial slot that reaches STANDBY is confirmed and active (R486). -/
def confirmSlot (s : State) : State :=
  let i := s.reg 0x104403
  let s := modFlash (fun x => { x with slots := setAt x.slots i 0, trials := setAt x.trials i 0, active := i }) s
  showSlots (raiseMinimum 1 (objVersion (flashObject s 1 i)) s)

/-- B11: the boot entry, and STANDBY (R472). -/
def bootB11 (f : BootFound) (s : State) : State :=
  let revs := ((List.range 4).map (fun d => s.reg (0x101001 + d) * 2 ^ (8 * (3 - d)))).foldl (· + ·) 0
  let s := trunkPost 0 6 0 (atBit 224 (s.reg 0x100005) + atBit 192 revs) s
  let t := s.trunk
  let s := { s with trunk := { t with boots := t.boots + 1 } }
  let s := setReg 0x104406 s.trunk.boots (setReg 0x104407 f.millis.toNat (setReg 0x104408 11 s))
  confirmSlot (setBudgets (enter .standby 0 s))

/-- The stages from B6 on, once every die has reported. -/
def bootRest (f : BootFound) (s : State) : Stage := do
  let s ← bootB6 f (modBoot (fun b => { b with waiting := none }) s)
  let s ← bootB7 f s
  let s ← bootB8 f s
  let s ← bootB9 s
  let s ← bootB10 s
  pure (bootB11 f (bootFullRun f s))

/-- The boot up to the reports of the dies (R277): where one is missing it waits for DIE_REPORT_TIMEOUT. -/
def bootAll (f : BootFound) (s : State) : Stage := do
  let s ← bootB2 f s
  let s ← bootB3 f s
  let s ← bootB4 f s
  let s ← bootB5 f s
  if f.reports = 15 then bootRest f s else .error (modBoot (fun b => { b with waiting := some f }) s)

/-- The state a stage has come to. -/
def stageState (r : Stage) : State :=
  match r with
  | .ok s => s
  | .error s => s

/-- What the Trunk Record tells at boot (R451, R455). -/
def bootTrunk (s : State) : State :=
  let t := s.trunk
  let s := setReg 0x702005 t.losses (setReg 0x702006 t.lost (setReg 0x104406 t.boots s))
  if lossReported t = 0 then s else raise_ 0x700D s

/-- BOOT (R472, R500): RESET_N is released with the supplies good. -/
def opBoot (f : BootFound) (s : State) : State :=
  let s := modPins (fun p => { p with resetN := true }) s
  let p := s.board.pins
  if s.life = .off ∧ p.pwrgd ∧ !p.orderFault ∧ !bootWaits s then stageState (bootAll f (bootTrunk { s with now := 0 })) else s

def execBoot (f : BootFound) (s : State) : Host.Outcome State Fault Refusal := .next (opBoot f s)

/-- DIE_REPORT_TIMEOUT (R277): a die has not reported within 50 ms. -/
def opDieTimeout (d : Nat) (s : State) : State :=
  if bootWaits s then stageState (startUpFails (raiseAt 0x3009 d 768 0 0 (modBoot (fun b => { b with waiting := none }) s))) else s

def execDieReportTimeout (d : Fin 4) (s : State) : Host.Outcome State Fault Refusal := .next (opDieTimeout d.val s)

end Sys2Proof.Machine
end

