-- ==== Sys2Proof/Machine/Commands.lean ====
section
/-!
DEFINITION. The package commands of 0x1001.01 (R407-R410): what the present state allows, what each does, and its outcome.
-/

namespace Sys2Proof.Machine

/-! ### The frame of a command -/

/-- A command is accepted (R407): counted, in progress, with no refusal. -/
def acceptCommand (s : State) : State :=
  bumpReg 0x100105 1 (setReg 0x100102 1 (setReg 0x100103 0 (setReg 0x100104 0 (setReg 0x100107 0xFFFFFFFF (setReg 0x100108 0xFFFFFFFFFFFFFFFF s)))))

/-- A command is done. -/
def commandDone (s : State) : State := setReg 0x100102 2 s

/-- A command is refused with a reason of R409. -/
def commandRefused (reason : Nat) (s : State) : State := setReg 0x100102 3 (setReg 0x100103 reason s)

/-- A WRITE of a command (R407, R473): 0x0A while another is in progress, 0x05 with reason 0x0001 where the present state does not
allow it, 0x00 otherwise. An argument out of range is refused with reason 0x000C. -/
def takeCommand (allowed : Bool) (inRange : Bool) (act : State → State) (s : State) : Nat × State :=
  if s.life = .off then (5, s)
  else if s.reg 0x100102 = 1 then (0x0A, s)
  else if !allowed then (5, commandRefused 1 s)
  else if !inRange then (0, commandRefused 0x0C (acceptCommand s))
  else (0, act (acceptCommand s))

/-- Is a test run or a full run in progress (R165, R446)? -/
def testsRun (s : State) : Bool := s.board.boot.testRun.isSome || fullRunning s

/-! ### ATTEST and LOAD -/

/-- Why ATTEST is refused (R407, R479, R480, R478); 0 where it is not. -/
def attestReason (s : State) : Nat :=
  if testsRun s then 0x0E
  else if s.reg 0x102004 = 0 then 2
  else if s.reg 0x101006 = 0 then 3
  else if (List.range 4).any (fun d => s.reg (dieKey d 0x804009) != 0) then 4
  else if !s.board.boot.suitesPassed then 5
  else if !canSign s || s.board.boot.noFieldMap then 6
  else 0

/-- A command with an outcome of its own waits for it, unless it is refused at once. -/
def beginCommand (code reason : Nat) (s : State) : State :=
  if reason = 0 then modBoot (fun b => { b with command := some (code, 0) }) s else commandRefused reason s

/-- ATTEST (R407): a package that a start-up check keeps from READY does not take it (R277). -/
def opAttest (arg : BitVec 24) (s : State) : Nat × State :=
  takeCommand (s.life = .standby && !s.board.boot.recovery && !(s.board.boot.barred && s.reg 0x101006 == 1)) (arg == 0)
    (fun s => beginCommand 1 (attestReason s) s) s

def execAttest (arg : BitVec 24) (s : State) : Host.Outcome State Fault Refusal := .next (powered (fun s => (opAttest arg s).2) s)

/-- LOAD (R407, R515). -/
def opLoad (arg : BitVec 24) (s : State) : Nat × State :=
  takeCommand (s.life = .ready) (arg == 0) (fun s => beginCommand 2 (if testsRun s then 0x0E else 0) s) s

def execLoad (arg : BitVec 24) (s : State) : Host.Outcome State Fault Refusal := .next (powered (fun s => (opLoad arg s).2) s)

/-- The report is formed, and the package is READY. -/
def finishAttest (s : State) : State :=
  let r := attestReason s
  if s.life ≠ .standby then commandRefused 1 s
  else if r ≠ 0 then commandRefused r s
  else
    let s := formReport s
    commandDone (enter .ready 0xFF01 (modBoot (fun b => { b with wasReady := true }) s))

/-- The image is verified and checked, and the job installed (R515, R468). -/
def finishLoad (s : State) : State :=
  if s.life ≠ .ready then commandRefused 1 s
  else
    match loadVerdict s with
    | .error f => setReg 0x100104 f.detail (setReg 0x100107 f.section_ (setReg 0x100108 f.offset (commandRefused f.reason s)))
    | .ok t => commandDone (startPower (enter (if t.reg 0x102403 = 2 then .spare else .loaded) 0xFF02 t))

/-- COMMAND_OUTCOME (R407): the ATTEST or LOAD in progress comes to its end. -/
def opOutcome (s : State) : State :=
  match s.board.boot.command with
  | none => s
  | some c =>
    let s := modBoot (fun b => { b with command := none }) s
    if s.reg 0x100102 ≠ 1 then s else if c.1 = 1 then finishAttest s else finishLoad s

def execCommandOutcome (s : State) : Host.Outcome State Fault Refusal := .next (powered opOutcome s)

/-! ### RUN, HOLD and RESUME -/

/-- RUN (R407). -/
def opRun (arg : BitVec 24) (s : State) : Nat × State :=
  takeCommand (s.life = .loaded) (arg == 0) (fun s => commandDone (enter .running 0xFF03 (abandonReShard s))) s

def execRun (arg : BitVec 24) (s : State) : Host.Outcome State Fault Refusal := .next (powered (fun s => (opRun arg s).2) s)

/-- HOLD with argument 0 (R407, R453): at a boundary already reached, at once; else at the next commit or skip. -/
def holdAtBoundary (s : State) : State :=
  let s := { s with step := { s.step with holdAsked := true } }
  if s.step.attempt = 0 ∧ (s.step.phase = .idle ∨ s.step.phase = .decided) ∧ s.gal.runs = [] then enterHeld 0xFF04 s else s

/-- HOLD with argument 1 (R407, R427): at once; after the vote the attempt is aborted. -/
def holdAtOnce (s : State) : State :=
  commandDone (if s.step.phase = .voted then enterHeld 0xFF04 (dropAttempt s) else holdNow 0xFF04 s)

/-- HOLD (R407). -/
def opHold (arg : BitVec 24) (s : State) : Nat × State :=
  takeCommand (s.life = .running) (decide (arg.toNat ≤ 1)) (if arg = 0 then holdAtBoundary else holdAtOnce) s

def execHold (arg : BitVec 24) (s : State) : Host.Outcome State Fault Refusal := .next (powered (fun s => (opHold arg s).2) s)

/-- Do the IMAGE items match their digests (R431, R516)? -/
def imageItemsMatch (s : State) : Bool :=
  let trained := fun (x : Nat × Nat × List Byte) => s.job.marks.any (fun m => m.cls != 3 && decide (m.first < x.1 + x.2.1) && decide (x.1 < m.first + m.bytes))
  s.job.dataSections.all (fun x => trained x || sha384 (s.bytes x.1 x.2.1) == x.2.2)

/-- The decision that skips the held step (R245). -/
def skipDecision (s : State) : Decision :=
  { step := s.stepNo, attempt := s.step.attempt % 16, action := 3, nextmode := nextMode s.step.bsel false s.step.par (encoreAfterSkip s) }

/-- How a step held by the guard goes on (R245). -/
def resumeGuard (s : State) : State :=
  if !s.step.heldGuard then s
  else
    let action := s.reg 0x500405
    let s := { s with step := { s.step with heldGuard := false, sinceQuiet := 0 } }
    if action = 1 then { s with step := { s.step with wide := true, bits := 0xFF } }
    else if action = 2 then skipStep (skipDecision s) s
    else s

/-- After a HOLD of cause 9 the coordinator starts a new route epoch, and another package waits for it (R317). -/
def resumeEpoch (s : State) : State :=
  if s.step.heldCause ≠ 9 then s
  else
    let s := { s with step := { s.step with heldCause := 0 } }
    if isCoordinator s then startEpoch 0xFFFF 0 s else { s with step := { s.step with epochWait := true } }

/-- The package runs again (R92, R410): a limit that persists needs another pair of samples. -/
def resume (s : State) : State :=
  let s := modPower (fun p => { p with prevVolt := false, prevTemp := false }) (abandonReShard s)
  resumeEpoch (resumeGuard (commandDone (enter .running 0xFF05 s)))

/-- RESUME (R407, R431): an adopted coordinate needs its IMAGE items first. -/
def opResume (arg : BitVec 24) (s : State) : Nat × State :=
  takeCommand (s.life = .held) (arg == 0)
    (fun s => if s.reg 0x102403 = 3 ∧ !imageItemsMatch s then commandRefused 8 s else resume s) s

def execResume (arg : BitVec 24) (s : State) : Host.Outcome State Fault Refusal := .next (powered (fun s => (opResume arg s).2) s)

/-! ### RELEASE, ADOPT, STANDBY and RESET -/

/-- The job is discarded (R375, R407): stacks and SRAM keep their bytes, and nothing of the job stays in force. -/
def discardJob (s : State) : State :=
  let s := releaseHost s
  { s with job := {}, step := {}, ctxs := List.replicate 48 {}, pagers := [], tiles := keepCounts s, store := [], startImg := [], early := [[], [], [], []],
           pages := [], reduce := {}, tables := {}, steer := {}, recov := { interval := s.reg 0x600001 }, reads := [], layerReady := [],
           gal := { s.gal with runs := [], named := none, failed := false, unresolved := false, counts := [0, 0, 0, 0] }, badSeen := [], rewritten := [] }

/-- RELEASE (R407). -/
def opReleaseJob (arg : BitVec 24) (s : State) : Nat × State :=
  takeCommand (s.life = .loaded || s.life = .held || s.life = .spare) (arg == 0)
    (fun s => commandDone (enter .ready 0xFF06 (discardJob (abandonReShard s)))) s

def execRelease (arg : BitVec 24) (s : State) : Host.Outcome State Fault Refusal := .next (powered (fun s => (opReleaseJob arg s).2) s)

/-- Is a position in one of this spare's rings (R309, R428)? -/
def inOwnRings (s : State) (p : Nat) : Bool := s.descr.rings.any (fun q => q.contains s.pos && q.contains p) && !(posEntry s p).spare

/-- ADOPT (R428): the spare abandons its Catcher work and asks the acceptor of the position; 0x000B where the position is not in its
rings, or has none. -/
def startAdoption (p : Nat) (s : State) : State :=
  match acceptor s p with
  | none => commandRefused 0x0B s
  | some a =>
    if !inOwnRings s p then commandRefused 0x0B s
    else
      let s := setReg 0x600802 1 (dropAttempt { s with recov := { s.recov with asking := some p } })
      sendRecord 3 a { ownRecord s with pos := BitVec.ofNat 13 p } s

/-- ADOPT (R407). -/
def opAdopt (arg : BitVec 24) (s : State) : Nat × State :=
  takeCommand (s.life = .spare) (decide (arg.toNat ≤ 8191)) (startAdoption arg.toNat) s

def execAdopt (arg : BitVec 24) (s : State) : Host.Outcome State Fault Refusal := .next (powered (fun s => (opAdopt arg s).2) s)

/-- STANDBY (R407). -/
def opStandby (arg : BitVec 24) (s : State) : Nat × State :=
  takeCommand (s.life = .ready) (arg == 0) (fun s => commandDone (enter .standby 0xFF08 s)) s

def execStandby (arg : BitVec 24) (s : State) : Host.Outcome State Fault Refusal := .next (powered (fun s => (opStandby arg s).2) s)

/-- RESET (R407, R500): the package resets as for RESET_N; a boot follows. -/
def opReset (arg : BitVec 24) (s : State) : Nat × State :=
  takeCommand true (arg == 0) (resetAll 0xFF09) s

def execReset (arg : BitVec 24) (s : State) : Host.Outcome State Fault Refusal := .next (powered (fun s => (opReset arg s).2) s)

/-- A WRITE of 0x1001.01 (R407): the code in bits 7:0 and the argument in bits 31:8; a code that names no command is out of range. -/
def opCommand (w : Nat) (s : State) : Nat × State :=
  let arg := BitVec.ofNat 24 (w / 256)
  match w % 256 with
  | 1 => opAttest arg s
  | 2 => opLoad arg s
  | 3 => opRun arg s
  | 4 => opHold arg s
  | 5 => opResume arg s
  | 6 => opReleaseJob arg s
  | 7 => opAdopt arg s
  | 8 => opStandby arg s
  | 9 => opReset arg s
  | _ => (7, s)

end Sys2Proof.Machine
end

