-- ==== Sys2Proof/Machine/ControlCores.lean ====
section
/-!
DEFINITION. The core-port commands of the control cores (R381-R385, R389): NEXT, POST, DONE, WAIT, YIELD, SLEEP,
THREAD, FLOW, the machine check, and the telemetry timer of flow 5.
-/

namespace Sys2Proof.Machine

/-- A core-port access: only an online core that runs a thread has one to act on. -/
def withThread (d : Fin 4) (c : Fin 8) (f : Nat → Thread → State → State) (s : State) : State :=
  powered (fun s =>
    if (ringCore (s.ring d) c).online then
      match runningOn (s.ring d) c with
      | none => s
      | some p => f p.1 p.2 s
    else s) s

/-- NEXT (R382, R384): the core blocks, and dispatch follows. A core that still runs a thread reads nothing new. -/
def opNext (d : Fin 4) (c : Fin 8) (s : State) : State :=
  powered (fun s =>
    let p := ringCore (s.ring d) c
    if p.online ∧ p.running = none then settle d (setRing d (modCore c (fun p => { p with blocked := true }) (s.ring d)) s) else s) s

def execNext (d : Fin 4) (c : Fin 8) (s : State) : Host.Outcome State Fault Refusal := .next (powered (opNext d c) s)

/-- POST (R384): the Ringmaster fills SRCKIND 0 and SRC; the outcome stands in POST status. -/
def opPost (d : Fin 4) (c : Fin 8) (item : BitVec 256) (s : State) : State :=
  powered (fun s =>
    if (ringCore (s.ring d) c).online then
      let flow := bitField item.toNat 255 244
      let it := itemBits flow 0 (endpoint s d (768 + c.val)) (bitField item.toNat 215 200) (bitField item.toNat 191 0)
      let r := postItem d flow it s
      let s := setRing d (modCore c (fun p => { p with postStatus := r.2 }) (r.1.ring d)) r.1
      if r.2 = 1 then bumpReg (dieKey d 0x81C00A) 1 s else s
    else s) s

def execPost (d : Fin 4) (c : Fin 8) (item : BitVec 256) (s : State) : Host.Outcome State Fault Refusal :=
  .next (powered (opPost d c item) s)

/-- DONE (R381, R384): the item in service is complete, and an atomic flow releases its next item. -/
def opDone (d : Fin 4) (c : Fin 8) (s : State) : State :=
  withThread d c (fun n _ s => settle d (setRing d (endService n (s.ring d)) s)) s

def execDone (d : Fin 4) (c : Fin 8) (s : State) : Host.Outcome State Fault Refusal := .next (powered (opDone d c) s)

/-- WAIT (R382, R384): the running thread completes its item if it holds one, waits on the flow and leaves the core. -/
def opCorePortWait (d : Fin 4) (c : Fin 8) (flow : BitVec 12) (s : State) : State :=
  withThread d c (fun n _ s =>
    let r := endService n (s.ring d)
    match smFind r.threads n with
    | none => s
    | some t => settle d (setRing d (leaveCore c n { t with at_ := .waiting flow.toNat } r) s)) s

def execCorePortWait (d : Fin 4) (c : Fin 8) (flow : BitVec 12) (s : State) : Host.Outcome State Fault Refusal :=
  .next (powered (opCorePortWait d c flow) s)

/-- YIELD (R383, R384): the running thread becomes READY, keeping its item, and leaves the core. -/
def opYield (d : Fin 4) (c : Fin 8) (s : State) : State :=
  withThread d c (fun n t s => settle d (setRing d (leaveCore c n { t with at_ := .ready, reason := 1, fresh := true } (s.ring d)) s)) s

def execYield (d : Fin 4) (c : Fin 8) (s : State) : Host.Outcome State Fault Refusal := .next (powered (opYield d c) s)

/-- SLEEP (R384): the running thread leaves the core until a package time. -/
def opSleep (d : Fin 4) (c : Fin 8) (until_ : BitVec 64) (s : State) : State :=
  withThread d c (fun n t s => settle d (setRing d (leaveCore c n { t with at_ := .sleeping until_.toNat } (s.ring d)) s)) s

def execSleep (d : Fin 4) (c : Fin 8) (until_ : BitVec 64) (s : State) : Host.Outcome State Fault Refusal :=
  .next (powered (opSleep d c until_) s)

/-- The time of a sleeping thread has passed: READY with reason 2 (R384). -/
def opSleepExpiry (d : Fin 4) (n : Fin 1024) (s : State) : State :=
  powered (fun s =>
    match smFind (s.ring d).threads n with
    | none => s
    | some t =>
      match t.at_ with
      | .sleeping _ => settle d (setRing d (putThread n { t with at_ := .ready, reason := 2, fresh := true } (s.ring d)) s)
      | _ => s) s

def execSleepExpiry (d : Fin 4) (n : Fin 1024) (s : State) : Host.Outcome State Fault Refusal := .next (powered (opSleepExpiry d n) s)

/-- The outcome of a configuration write: CONFIG status 0 done, 1 refused (R384). -/
def configDone (d : Fin 4) (c : Fin 8) (r : Option Ring) (s : State) : State :=
  match r with
  | none => setRing d (modCore c (fun p => { p with configStatus := 1 }) (s.ring d)) s
  | some r => settle d (setRing d (modCore c (fun p => { p with configStatus := 0 }) r) s)

/-- THREAD (R385): what the word makes of the Ringmaster; none where the write is refused. -/
def threadConfig (w : Nat) (r : Ring) : Option Ring :=
  let n := bitField w 127 118
  let mask := bitField w 111 104
  match bitField w 103 102 with
  | 0 =>
    if mask = 0 then none
    else
      match smFind r.threads n with
      | none => some (putThread n { prio := bitField w 117 112, cores := mask, fresh := true } r)
      | some t => some { r with threads := smPut r.threads n { t with prio := bitField w 117 112, cores := mask } }
  | 1 =>
    match smFind r.threads n with
    | none => some r
    | some t =>
      let busy := match t.at_ with
        | .running _ => true
        | _ => false
      if busy || t.item.isSome then none else some { r with threads := smDel r.threads n }
  | _ => none

/-- THREAD (R384, R385): accepted from supervisor mode only. -/
def opThread (d : Fin 4) (c : Fin 8) (supervisor : Bool) (w : BitVec 128) (s : State) : State :=
  powered (fun s =>
    if (ringCore (s.ring d) c).online then
      configDone d c (if supervisor then threadConfig w.toNat (s.ring d) else none) s
    else s) s

def execThread (d : Fin 4) (c : Fin 8) (supervisor : Bool) (w : BitVec 128) (s : State) : Host.Outcome State Fault Refusal :=
  .next (powered (opThread d c supervisor w) s)

/-- Sum of the LIMITs of a die's flows (R385). -/
def limitSum (r : Ring) : Nat := (r.flows.map (fun p => p.2.limit)).foldl (· + ·) 0

/-- FLOW (R385): what the word makes of the Ringmaster; none where the write is refused. -/
def flowConfig (w : Nat) (r : Ring) : Option Ring :=
  let n := bitField w 127 116
  let limit := bitField w 113 99
  let old := smFind r.flows n
  if n < 64 then none
  else
    match bitField w 115 114 with
    | 3 => none
    | 2 =>
      match old with
      | none => some r
      | some f =>
        if f.items ≠ [] ∨ r.threads.any (fun p => decide (p.2.at_ = .waiting n)) then none
        else some { r with flows := smDel r.flows n }
    | k =>
      let before := limitSum r - (old.map (fun f => f.limit)).getD 0
      if limit = 0 ∨ 16384 < limit ∨ 16384 < before + limit then none
      else
        let kind : FlowKind := if k = 0 then .atomic else .parallel
        match old with
        | none => some { r with flows := smPut r.flows n { kind := kind, limit := limit } }
        | some f => some { r with flows := smPut r.flows n { f with kind := kind, limit := limit } }

/-- FLOW (R384, R385): accepted from supervisor mode only. -/
def opFlow (d : Fin 4) (c : Fin 8) (supervisor : Bool) (w : BitVec 128) (s : State) : State :=
  powered (fun s =>
    if (ringCore (s.ring d) c).online then
      configDone d c (if supervisor then flowConfig w.toNat (s.ring d) else none) s
    else s) s

def execFlow (d : Fin 4) (c : Fin 8) (supervisor : Bool) (w : BitVec 128) (s : State) : Host.Outcome State Fault Refusal :=
  .next (powered (opFlow d c supervisor w) s)

/-- The item of a stopped thread returns to the head of its flow (R389). -/
def returnItem (n : Nat) (r : Ring) : Ring :=
  match smFind r.threads n with
  | none => r
  | some t =>
    let r := { r with threads := smPut r.threads n { t with at_ := .stopped, item := none, flow := none } }
    match t.flow, t.item with
    | some f, some it =>
      match smFind r.flows f with
      | none => r
      | some fl => { r with flows := smPut r.flows f { fl with items := it :: fl.items, inService := fl.inService - 1 } }
    | _, _ => r

/-- MACHINE_CHECK (R389): the core goes offline, its thread stops, 0x700C with the core and mcause (R447); fewer than
two cores online on a die take the package to FAULT. -/
def opMachineCheck (d : Fin 4) (c : Fin 8) (mcause : BitVec 32) (s : State) : State :=
  powered (fun s =>
    if (ringCore (s.ring d) c).online then
      let r := s.ring d
      let r := match (ringCore r c).running with
        | none => r
        | some n => returnItem n r
      let r := modCore c (fun p => { p with online := false, blocked := false, running := none, preempt := false }) r
      let s := raiseAt 0x700C d (768 + c.val) c mcause.toNat (settle d (setRing d r s))
      let s := setReg (dieKey d 0x81C001) (((List.range 8).filter (fun c => (ringCore (s.ring d) c).online)).foldl (fun a c => a + 2 ^ c) 0) s
      if coresOnline s d < 2 ∧ s.life ≠ .fault then enterFault 0x700C s else s
    else s) s

def execMachineCheck (d : Fin 4) (c : Fin 8) (mcause : BitVec 32) (s : State) : Host.Outcome State Fault Refusal :=
  .next (powered (opMachineCheck d c mcause) s)

/-- TELEMETRY_TIMER (R387): an item of flow 5; a tick that finds the flow full is dropped and counted. -/
def opTelemetryTimer (d : Fin 4) (tag : BitVec 16) (s : State) : State :=
  powered (fun s =>
    let r := postItem d 5 (itemBits 5 5 (endpoint s d 768) tag.toNat 0) s
    if r.2 = 1 then bumpReg (dieKey d 0x81C00A) 1 r.1 else r.1) s

def execTelemetryTimer (d : Fin 4) (tag : BitVec 16) (s : State) : Host.Outcome State Fault Refusal :=
  .next (powered (opTelemetryTimer d tag) s)

end Sys2Proof.Machine
end

