-- ==== Sys2Proof/Machine/CoreAccess.lean ====
section
/-!
DEFINITION. Loads, stores and fetches of the control cores (R16, R17, R378, R384): stacks and tile windows of the package, core ports,
and other packages over Midway.
-/

namespace Sys2Proof.Machine

/-- Kind of an access for the exception it raises: 0 load, 1 store, 2 fetch. -/
def accessKind : CoreAccess → Nat
  | .load _ => 0
  | .store _ => 1
  | .fetch _ => 2

/-- Bytes of an access. -/
def accessBytes : CoreAccess → Nat
  | .load n => n.val + 1
  | .store bs => max 1 (min 64 bs.length)
  | .fetch wide => if wide then 4 else 2

/-- An access-fault exception (R16): nothing is written. -/
def coreFaults (d : Fin 4) (c : Fin 8) (a : CoreAccess) (addr : Nat) (s : State) : State := emit (.coreFault d c (accessKind a) addr) s

/-- An access outside every range (R16): 0x2001, counted, and the exception. -/
def coreOutside (d : Fin 4) (c : Fin 8) (a : CoreAccess) (addr : Nat) (s : State) : State :=
  coreFaults d c a addr (raiseAt 0x2001 d (768 + c.val) 0 (bitField addr 43 12) (bumpReg (dieKey d 0x81400E) 1 s))

/-- A load or fetch is answered. -/
def coreAnswer (d : Fin 4) (c : Fin 8) (bs : List Byte) (s : State) : State := emit (.coreData d c bs) s

/-- An access to a stack (R255, R262): a page that is backing of a paged region raises 0x2004, and a load of it gets free bytes; a line
that reads uncorrectably gives no data. -/
def coreStack (d : Fin 4) (c : Fin 8) (a : CoreAccess) (addr : Nat) (s : State) : State :=
  let n := accessBytes a
  let paged := bitAt (pageAttr s addr) 3
  let s := if paged then raiseAt 0x2004 d (768 + c.val) 0 (bitField addr 43 12) s else s
  match a with
  | .store bs => if paged then s else putMem addr (bs.take 64) s
  | _ =>
    if paged then let r := freeBytes n s; coreAnswer d c r.1 r.2
    else if badStack s addr n then coreFaults d c a addr (stackUncorrectable d (768 + c.val) addr s)
    else coreAnswer d c (s.bytes addr n) s

/-- An access to a tile's SRAM window (R17, R45, R46). -/
def coreWindow (d : Fin 4) (c : Fin 8) (a : CoreAccess) (k addr : Nat) (s : State) : State :=
  let n := accessBytes a
  match a with
  | .store bs => putLine k (addr % sramSize) (bs.take 64) s
  | _ => if badSram s addr n then coreFaults d c a addr (sramUncorrectable k addr s) else coreAnswer d c (s.bytes addr n) s

/-- Base of a core's port (R384). -/
def corePortBase (d c : Nat) : Nat := 0x3F0_0100_0000 + d * 0x10_0000 + c * 0x1000

/-- An access to the core's own port (R384): a register at its offset with its length; none where the spec gives no register for it. -/
def corePortAccess (d : Fin 4) (c : Fin 8) (super : Bool) (off : Nat) (a : CoreAccess) (s : State) : Option State :=
  let p := ringCore (s.ring d) c
  let value := fun (n : Nat) => some (coreAnswer d c (leBytes 8 n) s)
  match a, off with
  | .load 63, 0x000 => some (opNext d c s)
  | .load 7, 0x060 => value p.postStatus
  | .load 7, 0x088 => value ((p.running).getD 0)
  | .load 7, 0x120 => value p.configStatus
  | .store bs, 0x040 => if bs.length = 32 then some (opPost d c (BitVec.ofNat 256 (leNat bs)) s) else none
  | .store bs, 0x068 => if bs.length = 8 then some (opDone d c s) else none
  | .store bs, 0x070 => if bs.length = 8 then some (opCorePortWait d c (BitVec.ofNat 12 (leNat bs)) s) else none
  | .store bs, 0x078 => if bs.length = 8 then some (opYield d c s) else none
  | .store bs, 0x080 => if bs.length = 8 then some (opSleep d c (BitVec.ofNat 64 (leNat bs)) s) else none
  | .store bs, 0x100 => if bs.length = 16 then some (opThread d c super (BitVec.ofNat 128 (leNat bs)) s) else none
  | .store bs, 0x110 => if bs.length = 16 then some (opFlow d c super (BitVec.ofNat 128 (leNat bs)) s) else none
  | _, _ => none

/-- Does an address lie in the core ports? -/
def inCorePorts (addr : Nat) : Bool := decide (0x3F0_0100_0000 ≤ addr) && decide (addr < 0x3F0_0140_0000) && decide (addr % 0x10_0000 < 0x8000)

/-- An access to another package (R17, R63, R311): a READ of its line, or a WRITE of its line, whose bytes that the core does not store
are free. -/
def coreRemote (d : Fin 4) (c : Fin 8) (a : CoreAccess) (w : Nat) (s : State) : State :=
  let addr := wordAddr w
  let line := addr / 64 * 64
  let dst := remoteEp (remoteCoord w) line
  let src := endpoint s d (768 + c.val)
  let tag := s.dieTags.getD d 0
  match a with
  | .store bs =>
    let r := freeBytes 64 s
    let data := (r.1.take (addr % 64) ++ bs ++ r.1.drop (addr % 64 + bs.length)).take 64
    sendMsg d (some (coreOwner d c, 0)) { type := 1, dst := dst, src := BitVec.ofNat 24 src, stag := tag, addr := BitVec.ofNat 44 line, data := data } r.2
  | _ =>
    let req : ReadReq := { who := .core d c, src := src, dst := dst.toNat, addr := line, lines := 1 }
    sendMsg d none { type := 2, dst := dst, src := BitVec.ofNat 24 src, stag := tag, addr := BitVec.ofNat 44 line }
      { s with reads := s.reads ++ [req] }

/-- An access to an address of the package; none where it acts on control space whose contents the spec does not give. -/
def coreLocal (d : Fin 4) (c : Fin 8) (super : Bool) (addr : Nat) (a : CoreAccess) (s : State) : Option State :=
  match placeOf addr with
  | .stack _ => some (coreStack d c a addr s)
  | .window k _ => some (coreWindow d c a k addr s)
  | .outside => some (coreOutside d c a addr s)
  | .control =>
    let base := corePortBase d c
    if base ≤ addr ∧ addr < base + 0x1000 then corePortAccess d c super (addr - base) a s
    else if inCorePorts addr then some (coreOutside d c a addr s)
    else none

/-- CONTROL_CORE_ACCESS (R16): an online core's access to a word of the layout of R63. -/
def opCoreAccess (d : Fin 4) (c : Fin 8) (super : Bool) (addr : BitVec 57) (a : CoreAccess) (s : State) : Option State :=
  if s.life = .off ∨ !(ringCore (s.ring d) c).online then some s
  else
    let w := xword s (addr.setWidth 64)
    if isRemote w then some (coreRemote d c a w s) else coreLocal d c super (wordAddr w) a s

def execControlCoreAccess (d : Fin 4) (c : Fin 8) (super : Bool) (addr : BitVec 57) (a : CoreAccess) (s : State) : Host.Outcome State Fault Refusal :=
  match opCoreAccess d c super addr a s with
  | some t => .next t
  | none => .fault .controlSpace

end Sys2Proof.Machine
end

