-- ==== Sys2Proof/Machine/Scrub.lean ====
section
/-!
DEFINITION. The scrubbers of the tile SRAM (R46) and of the stacks (R255, R256).
-/

namespace Sys2Proof.Machine

/-- A word that the SRAM scrubber finds with one wrong bit is corrected, written back and counted (R46). -/
def scrubWord (k a : Nat) (s : State) : State :=
  sramCorrected k a { s with bad := s.bad.filter (fun b => decide (b ≠ a)) }

/-- A word that it finds with two wrong bits stays uncorrectable until it is written (R46). -/
def scrubBad (k a : Nat) (s : State) : State :=
  sramUncorrectable k a { s with bad := if s.bad.contains a then s.bad else s.bad ++ [a] }

/-- SRAM_SCRUB (R46): the words of a tile's SRAM that the scrubber corrects, and those it finds uncorrectable. -/
def opSramScrub (k : Nat) (fixed broken : List (Fin 262144)) (s : State) : State :=
  let s := allOf fixed (fun w => scrubWord k (tileBase k + 8 * w.val)) s
  allOf broken (fun w => scrubBad k (tileBase k + 8 * w.val)) s

def execSramScrub (r : TileRef) (fixed broken : List (Fin 262144)) (s : State) : Host.Outcome State Fault Refusal :=
  .next (powered (opSramScrub (tileKey r) fixed broken) s)

/-- A line that the patrol scrubber corrects (R256): it is written back, or a write has prevailed over it. -/
def patrolFix (a : Nat) (s : State) : State := stackCorrected a { s with bad := s.bad.filter (fun b => decide (b ≠ a)) }

/-- A line that it finds uncorrectable (R255), reported by the stack's controller. -/
def patrolBad (a : Nat) (s : State) : State :=
  stackUncorrectable (a / dieBytes) (800 + (stackPlace a).1 % 4) a { s with bad := if s.bad.contains a then s.bad else s.bad ++ [a] }

/-- PATROL_SCRUB (R256): stack lines corrected and found uncorrectable, as line numbers. -/
def opPatrolScrub (fixed broken : List (BitVec 35)) (s : State) : State :=
  let lines := fun (xs : List (BitVec 35)) => (xs.map (fun l => 64 * l.toNat)).filter inStacks
  allOf (lines broken) patrolBad (allOf (lines fixed) patrolFix s)

def execPatrolScrub (fixed broken : List (BitVec 35)) (s : State) : Host.Outcome State Fault Refusal :=
  .next (powered (powered (opPatrolScrub fixed broken)) s)

end Sys2Proof.Machine
end

