-- ==== Sys2Proof/Machine/Sequencer.lean ====
section
/-!
DEFINITION. The tile instructions that stay within their tile: sequencing (R70-R72, R85, R89), address registers (R73),
arrays and groups (R74-R79), and the vector functions (R80, R81, R155).
-/

namespace Sys2Proof.Machine

/-! ### Sequencing -/

/-- LOOP (R70, R71): the level counts CNT + 1 passes of the body after it. -/
def effLoop (lvl : Fin 4) (cnt : BitVec 16) (stop : BitVec 13) (c : TCtx) : TCtx :=
  { c with tile := { c.tile with loops := c.tile.loops.set lvl { active := true, left := cnt.toNat + 1, start := c.tile.ia + 1, stop := stop } } }

/-- JUMP (R70). -/
def effJump (t : BitVec 13) (c : TCtx) : TCtx := { c with target := some t.toNat }

/-- CALL (R71): pushes the address that would follow it, loops counted; four entries on the stack are a program fault. -/
def effCall (t : BitVec 13) (c : TCtx) : TCtx :=
  if 4 ≤ c.tile.calls.length then tcProgFault c
  else
    let r := afterAddr 4 c.tile.ia.toNat c.tile
    { c with tile := { r.2 with calls := r.2.calls ++ [r.1] }, target := some t.toNat }

/-- RET (R71): pops; an empty stack is a program fault (R69). -/
def effRet (c : TCtx) : TCtx :=
  match c.tile.calls.getLast? with
  | none => tcProgFault c
  | some a => { c with tile := { c.tile with calls := c.tile.calls.dropLast }, target := some a }

/-- BRM (R72): branches when the mode-word bit equals SENSE. -/
def effBrm (mbit : Fin 32) (sense : Bool) (t : BitVec 13) (c : TCtx) : TCtx :=
  if c.tile.mode.getLsbD mbit = sense then { c with target := some t.toNat } else c

/-- STEPEND (R69, R89, R157): with a group open or a token left it is a program fault; else the tile's share is done and
its Encore flags are handed on. -/
def effStepend (c : TCtx) : TCtx :=
  if c.tile.groups ≠ [] ∨ c.tile.tok.toList.any (fun v => v != 0) then tcProgFault c
  else
    let n := ((List.range 8).filter (fun i => c.tile.encore.getLsbD i)).length
    tcBump { c with tile := { c.tile with run := .done } } .scale 7 n

/-! ### Address registers -/

/-- SETP (R73). -/
def effSetp (pn : Fin 16) (imm : BitVec 21) (c : TCtx) : TCtx := { c with tile := { c.tile with ptr := c.tile.ptr.set pn imm } }

/-- ADDP (R73): modulo 2^21. -/
def effAddp (pn : Fin 16) (simm : BitVec 21) (c : TCtx) : TCtx := { c with tile := ptrAdd c.tile pn (simm.toInt) }

/-- SETX (R73): loads one of the four 16-bit slices. -/
def effSetx (xn : Fin 8) (sl : Fin 4) (imm : BitVec 16) (c : TCtx) : TCtx :=
  let v := c.tile.xreg[xn]
  let mask : BitVec 64 := (0xFFFF : BitVec 64) <<< (16 * sl.val)
  { c with tile := { c.tile with xreg := c.tile.xreg.set xn ((v &&& ~~~ mask) ||| ((imm.setWidth 64) <<< (16 * sl.val))) } }

/-- ADDX (R73): adds 64-byte units to ADDR, modulo 2^44. -/
def effAddx (xn : Fin 8) (simm : BitVec 32) (c : TCtx) : TCtx := { c with tile := xregAdd c.tile xn simm.toInt }

/-! ### The commands -/

/-- NOP (R70). -/
def execNop (r : TileRef) (w : WaitField) (s : State) : Host.Outcome State Fault Refusal :=
  .next (powered (issueTile .nop r w id) s)

/-- LOOP (R71). -/
def execLoop (r : TileRef) (w : WaitField) (lvl : Fin 4) (cnt : BitVec 16) (stop : BitVec 13) (s : State) : Host.Outcome State Fault Refusal :=
  .next (powered (issueTile (.loop lvl cnt stop) r w (effLoop lvl cnt stop)) s)

/-- JUMP (R70). -/
def execJump (r : TileRef) (w : WaitField) (t : BitVec 13) (s : State) : Host.Outcome State Fault Refusal :=
  .next (powered (issueTile (.jump t) r w (effJump t)) s)

/-- CALL (R71). -/
def execCall (r : TileRef) (w : WaitField) (t : BitVec 13) (s : State) : Host.Outcome State Fault Refusal :=
  .next (powered (issueTile (.call t) r w (effCall t)) s)

/-- RET (R71). -/
def execRet (r : TileRef) (w : WaitField) (s : State) : Host.Outcome State Fault Refusal :=
  .next (powered (issueTile .ret r w effRet) s)

/-- BRM (R72). -/
def execBrm (r : TileRef) (w : WaitField) (mbit : Fin 32) (sense : Bool) (t : BitVec 13) (s : State) : Host.Outcome State Fault Refusal :=
  .next (powered (issueTile (.brm mbit sense t) r w (effBrm mbit sense t)) s)

/-- WAIT (R85): its count is taken at issue. -/
def execWait (r : TileRef) (w : WaitField) (tk : Fin 64) (cnt : BitVec 16) (s : State) : Host.Outcome State Fault Refusal :=
  .next (powered (issueTile (.wait tk cnt) r w id) s)

/-- STEPEND (R89). -/
def execStepend (r : TileRef) (w : WaitField) (s : State) : Host.Outcome State Fault Refusal :=
  .next (powered (issueTile .stepend r w effStepend) s)

/-- SETP (R73). -/
def execSetp (r : TileRef) (w : WaitField) (pn : Fin 16) (imm : BitVec 21) (s : State) : Host.Outcome State Fault Refusal :=
  .next (powered (issueTile (.setp pn imm) r w (effSetp pn imm)) s)

/-- ADDP (R73). -/
def execAddp (r : TileRef) (w : WaitField) (pn : Fin 16) (simm : BitVec 21) (s : State) : Host.Outcome State Fault Refusal :=
  .next (powered (issueTile (.addp pn simm) r w (effAddp pn simm)) s)

/-- SETX (R73). -/
def execSetx (r : TileRef) (w : WaitField) (xn : Fin 8) (sl : Fin 4) (imm : BitVec 16) (s : State) : Host.Outcome State Fault Refusal :=
  .next (powered (issueTile (.setx xn sl imm) r w (effSetx xn sl imm)) s)

/-- ADDX (R73). -/
def execAddx (r : TileRef) (w : WaitField) (xn : Fin 8) (simm : BitVec 32) (s : State) : Host.Outcome State Fault Refusal :=
  .next (powered (issueTile (.addx xn simm) r w (effAddx xn simm)) s)

/-- LDW (R74). -/
def execLdw (r : TileRef) (w : WaitField) (a : LdwArgs) (s : State) : Host.Outcome State Fault Refusal :=
  .next (powered (issueTile (.ldw a) r w (effLdw a)) s)

/-- MM (R75, R76). -/
def execMm (r : TileRef) (w : WaitField) (a : MmArgs) (s : State) : Host.Outcome State Fault Refusal :=
  .next (powered (issueTile (.mm a) r w (effMm a)) s)

/-- GOPEN (R79). -/
def execGopen (r : TileRef) (w : WaitField) (a : GroupArgs) (s : State) : Host.Outcome State Fault Refusal :=
  .next (powered (issueTile (.gopen a) r w (effGopen a)) s)

/-- GCLOSE (R79, R127, R151). -/
def execGclose (r : TileRef) (w : WaitField) (a : GroupArgs) (s : State) : Host.Outcome State Fault Refusal :=
  .next (powered (issueTile (.gclose a) r w (effGclose a)) s)

/-- GSPILL (R79). -/
def execGspill (r : TileRef) (w : WaitField) (a : GroupArgs) (s : State) : Host.Outcome State Fault Refusal :=
  .next (powered (issueTile (.gspill a) r w (effGspill a)) s)

/-- GFILL (R79). -/
def execGfill (r : TileRef) (w : WaitField) (a : GroupArgs) (s : State) : Host.Outcome State Fault Refusal :=
  .next (powered (issueTile (.gfill a) r w (effGfill a)) s)

/-- GDROP (R79). -/
def execGdrop (r : TileRef) (w : WaitField) (a : GroupArgs) (s : State) : Host.Outcome State Fault Refusal :=
  .next (powered (issueTile (.gdrop a) r w (effGdrop a)) s)

/-- MOV, VFN 0x00 (R81, R110). -/
def execMov (r : TileRef) (w : WaitField) (a : VopArgs) (s : State) : Host.Outcome State Fault Refusal :=
  .next (powered (issueTile (.vop 0x00 a) r w (effMov a)) s)

/-- ADD, VFN 0x01 (R81, R110). -/
def execAdd (r : TileRef) (w : WaitField) (a : VopArgs) (s : State) : Host.Outcome State Fault Refusal :=
  .next (powered (issueTile (.vop 0x01 a) r w (effAdd a)) s)

/-- SUB, VFN 0x02 (R81, R110). -/
def execSub (r : TileRef) (w : WaitField) (a : VopArgs) (s : State) : Host.Outcome State Fault Refusal :=
  .next (powered (issueTile (.vop 0x02 a) r w (effSub a)) s)

/-- MUL, VFN 0x03 (R81, R110). -/
def execMul (r : TileRef) (w : WaitField) (a : VopArgs) (s : State) : Host.Outcome State Fault Refusal :=
  .next (powered (issueTile (.vop 0x03 a) r w (effMul a)) s)

/-- FMA, VFN 0x04 (R81, R110). -/
def execFma (r : TileRef) (w : WaitField) (a : VopArgs) (s : State) : Host.Outcome State Fault Refusal :=
  .next (powered (issueTile (.vop 0x04 a) r w (effFma a)) s)

/-- MAX, VFN 0x05 (R81, R110). -/
def execMax (r : TileRef) (w : WaitField) (a : VopArgs) (s : State) : Host.Outcome State Fault Refusal :=
  .next (powered (issueTile (.vop 0x05 a) r w (effMax a)) s)

/-- MIN, VFN 0x06 (R81, R110). -/
def execMin (r : TileRef) (w : WaitField) (a : VopArgs) (s : State) : Host.Outcome State Fault Refusal :=
  .next (powered (issueTile (.vop 0x06 a) r w (effMin a)) s)

/-- ABS, VFN 0x07 (R81, R110). -/
def execAbs (r : TileRef) (w : WaitField) (a : VopArgs) (s : State) : Host.Outcome State Fault Refusal :=
  .next (powered (issueTile (.vop 0x07 a) r w (effAbs a)) s)

/-- NEG, VFN 0x08 (R81, R110). -/
def execNeg (r : TileRef) (w : WaitField) (a : VopArgs) (s : State) : Host.Outcome State Fault Refusal :=
  .next (powered (issueTile (.vop 0x08 a) r w (effNeg a)) s)

/-- CMPGT, VFN 0x09 (R81, R110). -/
def execCmpgt (r : TileRef) (w : WaitField) (a : VopArgs) (s : State) : Host.Outcome State Fault Refusal :=
  .next (powered (issueTile (.vop 0x09 a) r w (effCmpgt a)) s)

/-- CVT, VFN 0x10 (R114-R117). -/
def execCvt (r : TileRef) (w : WaitField) (a : VopArgs) (s : State) : Host.Outcome State Fault Refusal :=
  .next (powered (issueTile (.vop 0x10 a) r w (effCvt a)) s)

/-- RSUM, VFN 0x18 (R47). -/
def execRsum (r : TileRef) (w : WaitField) (a : VopArgs) (s : State) : Host.Outcome State Fault Refusal :=
  .next (powered (issueTile (.vop 0x18 a) r w (effRsum a)) s)

/-- RMAX, VFN 0x19 (R47). -/
def execRmax (r : TileRef) (w : WaitField) (a : VopArgs) (s : State) : Host.Outcome State Fault Refusal :=
  .next (powered (issueTile (.vop 0x19 a) r w (effRmax a)) s)

/-- EXP, VFN 0x20 (R48). -/
def execExp (r : TileRef) (w : WaitField) (a : VopArgs) (s : State) : Host.Outcome State Fault Refusal :=
  .next (powered (issueTile (.vop 0x20 a) r w (effSpecial 0 a)) s)

/-- EXP2, VFN 0x21 (R48). -/
def execExp2 (r : TileRef) (w : WaitField) (a : VopArgs) (s : State) : Host.Outcome State Fault Refusal :=
  .next (powered (issueTile (.vop 0x21 a) r w (effSpecial 1 a)) s)

/-- LOG, VFN 0x22 (R48). -/
def execLog (r : TileRef) (w : WaitField) (a : VopArgs) (s : State) : Host.Outcome State Fault Refusal :=
  .next (powered (issueTile (.vop 0x22 a) r w (effSpecial 2 a)) s)

/-- LOG2, VFN 0x23 (R48). -/
def execLog2 (r : TileRef) (w : WaitField) (a : VopArgs) (s : State) : Host.Outcome State Fault Refusal :=
  .next (powered (issueTile (.vop 0x23 a) r w (effSpecial 3 a)) s)

/-- RCP, VFN 0x24 (R81, R110). -/
def execRcp (r : TileRef) (w : WaitField) (a : VopArgs) (s : State) : Host.Outcome State Fault Refusal :=
  .next (powered (issueTile (.vop 0x24 a) r w (effRcp a)) s)

/-- SQRT, VFN 0x25 (R81, R110). -/
def execSqrt (r : TileRef) (w : WaitField) (a : VopArgs) (s : State) : Host.Outcome State Fault Refusal :=
  .next (powered (issueTile (.vop 0x25 a) r w (effSqrt a)) s)

/-- RSQRT, VFN 0x26 (R48). -/
def execRsqrt (r : TileRef) (w : WaitField) (a : VopArgs) (s : State) : Host.Outcome State Fault Refusal :=
  .next (powered (issueTile (.vop 0x26 a) r w (effSpecial 6 a)) s)

/-- TANH, VFN 0x27 (R48). -/
def execTanh (r : TileRef) (w : WaitField) (a : VopArgs) (s : State) : Host.Outcome State Fault Refusal :=
  .next (powered (issueTile (.vop 0x27 a) r w (effSpecial 7 a)) s)

/-- SIGM, VFN 0x28 (R48). -/
def execSigm (r : TileRef) (w : WaitField) (a : VopArgs) (s : State) : Host.Outcome State Fault Refusal :=
  .next (powered (issueTile (.vop 0x28 a) r w (effSpecial 8 a)) s)

/-- ERF, VFN 0x29 (R48). -/
def execErf (r : TileRef) (w : WaitField) (a : VopArgs) (s : State) : Host.Outcome State Fault Refusal :=
  .next (powered (issueTile (.vop 0x29 a) r w (effSpecial 9 a)) s)

/-- SIN, VFN 0x2A (R48). -/
def execSin (r : TileRef) (w : WaitField) (a : VopArgs) (s : State) : Host.Outcome State Fault Refusal :=
  .next (powered (issueTile (.vop 0x2A a) r w (effSpecial 10 a)) s)

/-- COS, VFN 0x2B (R48). -/
def execCos (r : TileRef) (w : WaitField) (a : VopArgs) (s : State) : Host.Outcome State Fault Refusal :=
  .next (powered (issueTile (.vop 0x2B a) r w (effSpecial 11 a)) s)

/-- LDQ, VFN 0x30 (R155). -/
def execLdq (r : TileRef) (w : WaitField) (a : VopArgs) (s : State) : Host.Outcome State Fault Refusal :=
  .next (powered (issueTile (.vop 0x30 a) r w (effLdq a)) s)

end Sys2Proof.Machine
end

