-- ==== Sys2Proof/Machine/Suites.lean ====
section
/-!
DEFINITION. Test runs on command (R164, R165), and the clear entry of the counters (R41).
-/

namespace Sys2Proof.Machine

/-! ### Test runs -/

/-- RUN_TEST_SUITES (R165): a write of 0x5018.01, for the dies of 0x5018.02. -/
def opRunSuites (mask : Nat) (s : State) : Nat × State :=
  if s.board.boot.testRun.isSome then (0x0A, s)
  else if 1024 ≤ mask then (7, s)
  else if s.life ≠ .standby ∧ s.life ≠ .ready then (5, setReg 0x501803 4 s)
  else (0, setReg 0x501803 1 (modBoot (fun b => { b with testRun := some (mask, s.reg 0x501802) }) s))

def execRunTestSuites (mask : BitVec 16) (s : State) : Host.Outcome State Fault Refusal :=
  .next (powered (fun s => (opRunSuites mask.toNat s).2) s)

/-- TEST_RUN_COMPLETE (R165): the suites that failed, and on which dies. A pass of every suite on every die lifts what a failure had
barred. -/
def opTestRun (suites : BitVec 10) (dies : BitVec 4) (s : State) : State :=
  match s.board.boot.testRun with
  | none => s
  | some r =>
    let s := suiteResult (suites.toNat &&& r.1) (dies.toNat &&& r.2) (modBoot (fun b => { b with testRun := none }) s)
    if s.reg 0x501803 = 3 then (if s.life = .ready then enter .standby 0x1005 s else s)
    else if r.1 = 1023 ∧ r.2 = 15 then modBoot (fun b => { b with suitesPassed := true }) s
    else s

def execTestRunComplete (suites : BitVec 10) (dies : BitVec 4) (s : State) : Host.Outcome State Fault Refusal :=
  .next (powered (powered (opTestRun suites dies)) s)

/-! ### The clear entry -/

/-- The per-die counts that the clear entry zeroes, as index and subindices on die 0 (R41, R61, R98, R118, R131, R147, R167, R188, R222,
R275, R322, R351, R390). -/
def clearedEntries : List (Nat × List Nat) :=
  [(0x8020, [3, 4, 5, 6, 7, 8, 9]), (0x8040, [7, 8]), (0x8060, [1, 2, 3, 4, 5, 6, 7, 8]), (0x8080, [1, 2, 3, 4, 5, 6]),
   (0x80A0, [1, 2, 3, 4, 5, 6, 7]), (0x80C0, [1, 2, 3, 4, 5, 6, 7]), (0x80E0, [1, 2, 3, 4, 5, 6, 7]), (0x8100, [1, 2, 3, 4, 5, 6, 7, 8]),
   (0x8120, [1, 2, 3, 4, 5, 6, 7, 8, 9, 10, 11, 12, 13, 14]), (0x8140, [1, 2, 3, 4, 5, 6, 7, 8, 9, 10, 11, 12, 13, 14]),
   (0x8180, [12, 13, 14, 15, 16, 17, 18, 19, 20, 21]), (0x81A0, [1, 2, 3, 4, 5, 6, 7, 8, 9, 10, 11]), (0x81C0, [5, 6, 7, 8, 9, 10, 11])]

/-- The keys that the clear entry of a die zeroes. -/
def clearedKeys (d : Nat) : List Nat := clearedEntries.flatMap (fun p => p.2.map (fun sub => dieKey d (p.1 * 256 + sub)))

/-- Zero the counters of an end of an edge that lies on the die (R294). -/
def clearEdge (d e : Nat) (s : State) : State :=
  let hit := fun (high : Bool) => decide (endDie e high = d)
  modEdge e (fun x => { x with counters := [false, true].map (fun h => if hit h then List.replicate 8 0 else x.counters.getD (boolNat h) []) }) s

/-- CLEAR_COUNTERS (R41): writing 1 to the clear entry of a die. Writing 0 does nothing. -/
def opClear (d : Nat) (s : State) : State :=
  let s := allOf (clearedKeys d) (fun k => setReg k 0) s
  let s := allOf (List.range 4) (clearEdge d) s
  let s := allOf (List.range 4) (fun i => modPort (d + 4 * i) (fun q => { q with counters := List.replicate 9 0 })) s
  let r := s.ring d
  let s := setRing d { r with flows := r.flows.map (fun p => (p.1, { p.2 with served := 0 })) } s
  let clear := fun (p : Nat × Tile) => if keyDie p.1 = d then (p.1, { p.2 with pfRead := 0, pfUsed := 0 }) else p
  { s with tiles := s.tiles.map clear }

def execClearCounters (d : Fin 4) (one : Bool) (s : State) : Host.Outcome State Fault Refusal :=
  .next (powered (fun s => if one then opClear d.val s else s) s)

end Sys2Proof.Machine
end

