-- ==== Sys2Proof/Machine/Entries.lean ====
section
/-!
DEFINITION. What the dictionary reads (R12, R391-R396, and the entry tables of every chapter): entries kept as registers or bytes, and
entries that show other state at the moment of the read.
-/

namespace Sys2Proof.Machine

/-! ### Where an entry's die is -/

/-- Can D0 reach a die over Tightrope, directly or round the ring (R395)? -/
def dieReached (s : State) (d : Nat) : Bool :=
  let up := fun (e : Nat) => (s.edge e).st != .down
  match d with
  | 0 => true
  | 1 => up 0 || (up 3 && up 2 && up 1)
  | 2 => up 3 || (up 0 && up 1 && up 2)
  | _ => (up 0 && up 1) || (up 3 && up 2)

/-! ### The Trunk Record -/

/-- MRAM slots that hold anything, as byte addresses. -/
def trunkPlaces (m : Memory) : List Nat := ((m.map (fun c => c.1 / 64)).filter (fun a => decide (0x80 ≤ a))).dedup.map (fun a => 64 * a)

/-- The entry of a SEQ as it stands in MRAM (R452). -/
def entryOf (m : Memory) (seq : Nat) : Option (List Byte) :=
  ((trunkPlaces m).map (fun a => readBytes m a 64)).find? (fun e => entryField e 511 448 == seq)

/-- Read the entry of a SEQ (R451, R452): 64 zero bytes where there is none. One whose CRC fails is skipped, counted, and raises 0x700E
once per boot. -/
def readTrunk (seq : Nat) (s : State) : List Byte × State :=
  match entryOf s.trunk.mram seq with
  | none => (List.replicate 64 0, s)
  | some e =>
    if entryIntact e then (e, s)
    else
      let s := bumpReg 0x702007 1 s
      (List.replicate 64 0, if s.board.boot.tornTold then s else raise_ 0x700E (modBoot (fun b => { b with tornTold := true }) s))

/-- The 16 entries of the read window (R452). -/
def readWindow (s : State) : List Byte × State :=
  (List.range 16).foldl (fun r i =>
    let x := readTrunk ((s.reg 0x702003 + i) % 2 ^ 64) r.2
    (r.1 ++ x.1, x.2)) ([], s)

/-- The oldest SEQ that any ring holds; 0 where none does. -/
def oldestSeq (m : Memory) : Nat :=
  let es := ((trunkPlaces m).map (fun a => readBytes m a 64)).filter entryIntact
  match es.map (fun e => entryField e 511 448) with
  | [] => 0
  | x :: xs => xs.foldl min x

/-! ### Entries that show other state -/

/-- A port's or edge's state as its number (R294, R322). -/
def portCode (p : MidPort) : Nat :=
  match p.st with
  | .idle => 0 | .training => 1 | .up => 2 | .down => 3 | .miswired => 4

/-- State of an edge, as 0x8160.02 shows it. -/
def edgeCode (x : Edge) : Nat :=
  match x.st with
  | .down => 0 | .halfLow => 1 | .halfHigh => 2 | .full => 3 | .training => 4

/-- The error reporting level in force (R447): 0 COMPACT, 1 FULL. -/
def levelInForce (s : State) : Nat :=
  let v := s.reg 0x700001
  if v < 2 then v
  else match s.desc with
    | none => 0
    | some d => if d.positions.length ≤ 16 then 0 else 1

/-- Usable spares of a die that no retirement has used (R61). -/
def freeSpares (s : State) (d : Nat) : Nat :=
  ((List.range 32).filter (fun c => spareUsable s d c && (retiredRow s d c).isNone)).length

/-- A per-die entry that shows other state, by its key on die 0; none for one kept as a register. -/
def shownDie (s : State) (d k : Nat) : Option Nat :=
  let tile := s.tile (d * 768 + s.reg (dieKey d 0x802002))
  let col := s.reg (dieKey d 0x804003)
  let ctx := s.ctx (s.reg (dieKey d 0x810009))
  let e := s.reg (dieKey d 0x816001)
  let edge := fun (i : Nat) => some (nth ((s.edge e).counters.getD (boolNat (decide ((edgeDies e).2 = d))) []) i)
  let port := s.port (s.reg (dieKey d 0x818001))
  let ring := s.ring d
  let flow := (smFind ring.flows (s.reg (dieKey d 0x81C00C))).getD { kind := .atomic, limit := 0 }
  match k with
  | 0x804001 => some (retiredCount s d)
  | 0x804002 => some (freeSpares s d)
  | 0x804004 => some ((retiredRow s d col).getD 0xFF)
  | 0x804005 => some (boolNat (spareUsable s d col))
  | 0x806009 => some tile.ia.toNat
  | 0x80600A => some ((tile.groups.map (fun g => 2 ^ g.1)).foldl (· + ·) 0)
  | 0x80600C => some ((tile.tok.toList.getD (s.reg (dieKey d 0x80600B)) 0).toNat)
  | 0x81000A => some ctx.slot.toNat
  | 0x81000B => some ctx.counter.toNat
  | 0x81400F => some tile.pfRead
  | 0x814010 => some tile.pfUsed
  | 0x814011 => some tile.pfUsed
  | 0x816002 => some (edgeCode (s.edge e))
  | 0x816003 => edge 0
  | 0x816004 => edge 1
  | 0x816005 => edge 2
  | 0x816006 => edge 3
  | 0x816007 => edge 4
  | 0x816008 => edge 5
  | 0x81600A => edge 6
  | 0x818002 => some (portCode port)
  | 0x818003 => some (nth port.counters 0)
  | 0x818004 => some (nth port.counters 1)
  | 0x818005 => some (nth port.counters 2)
  | 0x818006 => some (nth port.counters 3)
  | 0x818007 => some (nth port.counters 4)
  | 0x818008 => some (nth port.counters 5)
  | 0x818009 => some (nth port.counters 6)
  | 0x81800A => some (nth port.counters 7)
  | 0x81800B => some (nth port.counters 8)
  | 0x81C001 => some (((List.range 8).map (fun c => boolNat (ringCore ring c).online * 2 ^ c)).foldl (· + ·) 0)
  | 0x81C002 => some ring.threads.length
  | 0x81C003 => some ring.flows.length
  | 0x81C004 => some (limitSum ring)
  | 0x81C00D => some flow.items.length
  | 0x81C00E => some flow.served
  | 0x81C00F => some (ring.threads.filter (fun p => p.2.at_ == .stopped)).length
  | _ => none

/-- A package entry that shows other state; none for one kept as a register. -/
def shown (s : State) (k : Nat) : Option Nat :=
  let stack := s.reg 0x300401
  let eth := s.eth (s.reg 0x440401)
  match k with
  | 0x100006 => some Config.macBase
  | 0x100007 => some (stateCode s.life)
  | 0x103006 => some s.evFrames.length
  | 0x300402 => some (smGetD s.stackCounts (4 * stack) 0)
  | 0x300403 => some (smGetD s.stackCounts (4 * stack + 1) 0)
  | 0x300404 => some (smGetD s.stackCounts (4 * stack + 2) 0)
  | 0x400010 => some (routeEntry s (s.reg 0x40000F))
  | 0x440402 => some (if !eth.up then 0 else if eth.sentPause = [] then 1 else 2)
  | 0x440404 => some (nth eth.counters 0)
  | 0x440405 => some (nth eth.counters 1)
  | 0x440406 => some (nth eth.counters 2)
  | 0x440407 => some (nth eth.counters 3)
  | 0x440408 => some (nth eth.counters 4)
  | 0x440409 => some (nth eth.counters 5)
  | 0x44080D => some (((smFind s.host.bindings (s.reg 0x44080C)).map (fun b => b.cursor)).getD 0)
  | 0x44080E => some s.host.next
  | 0x440C01 => some s.now
  | 0x700002 => some (levelInForce s)
  | 0x701009 => some (if holdsJob s then 3072 - s.job.gallery.length else 0)
  | 0x702001 => some (oldestSeq s.trunk.mram)
  | 0x702002 => some s.trunk.nextSeq
  | _ => none

/-- The bytes of a text. -/
def textBytes (t : String) : List Byte := t.toList.map (fun c => BitVec.ofNat 8 c.toNat)

/-- The telemetry ring of a die (R319): its records, oldest first, and zeros for what it has not yet recorded. -/
def ringBytes (s : State) (d : Nat) : List Byte :=
  sliceBytes ((s.samples.getD d []).flatMap (fun r => leBytes 64 r.toNat)) 0 262144

/-- The value of a STR, BLOB or DOMAIN entry; `d` and `k` are its die and its key on die 0. -/
def readBlob (d k key : Nat) (t : EType) (s : State) : List Byte × State :=
  match k with
  | 0x100001 => (textBytes "Raneken", s)
  | 0x100002 => (textBytes "GC4-1152", s)
  | 0x100003 => (textBytes "RNK-GC4-1152-L", s)
  | 0x100004 => (Config.serial, s)
  | 0x440403 => ((s.eth (s.reg 0x440401)).table, s)
  | 0x702004 => readWindow s
  | 0x818016 => (ringBytes s d, s)
  | 0x81C010 => ((s.ring d).signalMap.flatMap (leBytes 2), s)
  | _ =>
    match t with
    | .blob n => (sliceBytes (s.blob key) 0 n, s)
    | _ => (s.blob key, s)

/-- The value of a defined entry. The present beat rate is a measurement that no rule gives: its bytes are free. -/
def entryValue (r : DictRow) (index sub : Nat) (s : State) : List Byte × State :=
  let d := (dieOfIndex index).1
  let k := r.index * 256 + sub
  let key := index * 256 + sub
  let fixed := fun (n : Nat) =>
    if k = 0x802001 then freeBytes 4 s
    else (leBytes n (((if 0x8000 ≤ index then shownDie s d k else shown s k)).getD (s.reg key)), s)
  match r.typ with
  | .bool => fixed 1
  | .u n => fixed n
  | .i n => fixed n
  | .f32 => fixed 4
  | t => readBlob d k key t s

/-- Read an entry (R12, R393, R395): the status, and the value. Subindex 0 reads as the highest subindex in use. -/
def readEntry (index sub : Nat) (s : State) : Nat × List Byte × State :=
  if !indexDefined index then (1, [], s)
  else if sub = 0 then (0, leBytes 1 (highestSub index), s)
  else
    match dictRow index sub with
    | none => (2, [], s)
    | some r =>
      if r.acc = .wo then (3, [], s)
      else if !dieReached s (dieOfIndex index).1 then (0x0D, [], s)
      else
        let v := entryValue r index sub s
        (0, v.1, v.2)

end Sys2Proof.Machine
end

