-- ==== Sys2Proof/Machine/Tap.lean ====
section
/-!
DEFINITION. The test access port (R506-R508, R513): an instruction of one die's wrapper, and the scan of the register it selects.
-/

namespace Sys2Proof.Machine

/-- Load a die's instruction register. -/
def setIr (d code : Nat) (s : State) : State := modTap (fun t => { t with ir := setAt t.ir d code }) s

/-- Bits of a die's boundary register (R507). -/
def boundaryBits (d : Nat) : Nat := if d = 0 then 26 else 6

/-- A scan through the bypass register: it captures 0. -/
def scanBypass (s : State) : State := emit (.tdo 0 1) s

/-- TRST_N (R506): the port resets asynchronously; Test-Logic-Reset selects IDCODE on every die. -/
def opTrst (s : State) : State := modTap (fun t => { t with ir := [1, 1, 1, 1] }) s

def execTrstN (s : State) : Host.Outcome State Fault Refusal := .next (opTrst s)

/-- BYPASS (R507), which every undefined code selects too. -/
def opBypass (d code : Nat) (s : State) : State := scanBypass (setIr d code s)

def execBypass (d : Fin 4) (s : State) : Host.Outcome State Fault Refusal := .next (opBypass d 0xFF s)

/-- The IDCODE of a die (R507). The version of a revision that is not shipped reads as 0xF. -/
def idcode (d : Nat) : Nat :=
  let l := revisionLevel (Config.revision d).toNat
  atBit 28 (if l = 0 then 0xF else l - 1) + atBit 12 (0xC411 + d) + atBit 1 0x2B7 + 1

/-- IDCODE (R507). -/
def opIdcode (d : Nat) (s : State) : State := emit (.tdo (idcode d) 32) (setIr d 1 s)

def execIdcode (d : Fin 4) (s : State) : Host.Outcome State Fault Refusal := .next (opIdcode d s)

/-- A scan of the boundary register: what the cells sample goes out, and what is shifted in is held. -/
def scanBoundary (d : Nat) (sampled preload : BitVec 26) (s : State) : State :=
  let n := boundaryBits d
  emit (.tdo (sampled.toNat % 2 ^ n) n) (modTap (fun t => { t with boundary := setAt t.boundary d (preload.toNat % 2 ^ n) }) s)

/-- SAMPLE/PRELOAD (R507). -/
def opSample (d : Nat) (sampled preload : BitVec 26) (s : State) : State := scanBoundary d sampled preload (setIr d 2 s)

def execSamplePreload (d : Fin 4) (sampled preload : BitVec 26) (s : State) : Host.Outcome State Fault Refusal :=
  .next (opSample d sampled preload s)

/-- EXTEST (R507, R513): while RESET_N is asserted the lands are driven from the boundary register; otherwise as BYPASS. -/
def opExtest (d : Nat) (sampled preload : BitVec 26) (s : State) : State :=
  if s.board.pins.resetN then opBypass d 3 s else scanBoundary d sampled preload (setIr d 3 s)

def execExtest (d : Fin 4) (sampled preload : BitVec 26) (s : State) : Host.Outcome State Fault Refusal :=
  .next (opExtest d sampled preload s)

/-- CLAMP (R507): the bypass register is selected; while RESET_N is asserted the boundary register holds the lands. -/
def execClamp (d : Fin 4) (s : State) : Host.Outcome State Fault Refusal := .next (opBypass d 4 s)

/-- The lands of a die that the test access port drives, if it does (R507, R513): the held boundary values under EXTEST and CLAMP
while RESET_N is asserted. -/
def drivenLands (s : State) (d : Nat) : Option Nat :=
  let ir := nth s.board.tap.ir d
  if !s.board.pins.resetN && (ir == 3 || ir == 4) then some (nth s.board.tap.boundary d) else none

/-- The entry of a SEQ for the Trunk Record register (R508, R452): 0 where there is none with a valid CRC. -/
def tapEntry (s : State) (seq : Nat) : Nat :=
  match entryOf s.trunk.mram seq with
  | none => 0
  | some e => if entryIntact e then leNat e else 0

/-- TRUNKREAD (R507, R508): Capture-DR takes the entry of the SEQ last updated, zeros sooner than 10 µs after it; the scan shifts it out
and updates SEQ. On D1 to D3, and without D0's supplies, as BYPASS. -/
def opTrunkread (d : Nat) (seq : BitVec 64) (soon : Bool) (s : State) : State :=
  if d ≠ 0 ∨ !s.board.pins.pwrgd then opBypass d 0x40 s
  else
    let asked := s.board.tap.seq
    let e := if soon then 0 else tapEntry s asked
    let out := if e = 0 then 0 else atBit 512 asked + e
    emit (.tdo out 576) (modTap (fun t => { t with seq := seq.toNat }) (setIr d 0x40 s))

def execTrunkread (d : Fin 4) (seq : BitVec 64) (soon : Bool) (s : State) : Host.Outcome State Fault Refusal :=
  .next (opTrunkread d seq soon s)

end Sys2Proof.Machine
end

