-- ==== Sys2Proof/Machine/Writes.lean ====
section
/-!
DEFINITION. Writes of dictionary entries (R391-R396): access, state, length and range, the entries whose writes do something of their
own, and the plain ones (REGISTER_WRITE).
-/

namespace Sys2Proof.Machine

/-! ### Checks -/

/-- The access and state checks of R393: 0, or the status. -/
def accessStatus (r : DictRow) (s : State) : Nat :=
  match r.acc with
  | .ro => 4
  | .rws => if s.life = .running then 5 else 0
  | .rwl => rwlStatus s
  | _ => 0

/-- Does a value have the length of its type (R392)? -/
def lengthOk (r : DictRow) (v : List Byte) : Bool :=
  match r.typ with
  | .str => decide (v.length ≤ 255)
  | .domain => true
  | t => decide (v.length = typeBytes t)

/-- Is a numeric value in its range (R392)? -/
def rangeOk (r : DictRow) (v : List Byte) : Bool :=
  match r.typ with
  | .str => true
  | .blob _ => true
  | .domain => true
  | _ => decide (r.least ≤ leNat v) && decide (leNat v ≤ r.most)

/-- Does a valve curve ascend in duty, with flows that do not fall (R471)? -/
def curveOk (v : List Byte) : Bool :=
  (List.range 7).all (fun i => decide (leAt v (4 * i) 2 < leAt v (4 * i + 4) 2) && decide (leAt v (4 * i + 2) 2 ≤ leAt v (4 * i + 6) 2))

/-- What a home rule asks of a value beyond its range, by the key on die 0. -/
def homeRangeOk (d k : Nat) (v : List Byte) (s : State) : Bool :=
  let n := leNat v
  match k with
  | 0x20080A => curveOk v
  | 0x40000C => n == 0 || decide (8 ≤ n)
  | 0x440006 => n == 1024 || n == 2048 || n == 4096
  | 0x440807 => (List.range 17).any (fun i => n == 2 ^ i)
  | 0x440403 => v.length == 2048
  | 0x600405 => decide (s.reg 0x600001 ≤ n) && n % max 1 (s.reg 0x600001) == 0
  | 0x816001 => decide (n < 4) && ((edgeDies n).1 == d || (edgeDies n).2 == d)
  | 0x818001 => decide (n < 16) && n % 4 == d
  | 0x810009 => decide (12 * d ≤ n) && decide (n < 12 * d + 12)
  | _ => true

/-! ### Entries with behaviour -/

/-- The entries whose write does something of its own, by the key on die 0. -/
def actingEntries : List Nat :=
  [0x100101, 0x104004, 0x104005, 0x104006, 0x104401, 0x200001, 0x40000E, 0x440403, 0x500801, 0x501801, 0x501802, 0x502402, 0x70100A, 0x80200A,
   0x804006, 0x816009]

/-- Is the write of an entry plain (R394)? -/
def plainEntry (index sub : Nat) : Bool := !actingEntries.contains ((dieOfIndex index).2 * 256 + sub)

/-- Replace the value of an entry whole (R394). -/
def putEntry (r : DictRow) (key : Nat) (v : List Byte) (s : State) : State :=
  match r.typ with
  | .str => setBlob key v s
  | .blob _ => setBlob key v s
  | .domain => setBlob key v s
  | _ => setReg key (leNat v) s

/-- The write of an entry with behaviour: the status and the state. -/
def actEntry (viaM0 : Bool) (d k : Nat) (r : DictRow) (v : List Byte) (s : State) : Nat × State :=
  let n := leNat v
  match k with
  | 0x100101 => opCommand n s
  | 0x104004 => opOwner viaM0 v s
  | 0x104005 => opManagement v s
  | 0x104006 => opNonce v s
  | 0x104401 => opUpdateObject v s
  | 0x200001 => (0, modPower (fun p => { p with limitNew := true }) (putEntry r k v s))
  | 0x40000E => if retrainAllowed s then (0, opRetrainPort n s) else (5, s)
  | 0x440403 => (0, modEth (s.reg 0x440401) (fun q => { q with table := v }) s)
  | 0x500801 => if s.reg 0x502001 = 1 then (5, s) else (0, putEntry r k v s)
  | 0x501801 => opRunSuites n s
  | 0x501802 => if s.board.boot.testRun.isSome then (0x0A, s) else (0, putEntry r k v s)
  | 0x502402 => if n = 0 then (0, s) else (if s.life = .held ∨ s.life = .loaded then 0 else 5, opRunReShard s)
  | 0x70100A =>
    if fullRunning s then (0x0A, s)
    else (if s.life = .standby ∨ s.life = .ready ∨ s.life = .held then 0 else 5, opFullPack (BitVec.ofNat 8 n) s)
  | 0x80200A => (0, if n = 1 then opClear d s else s)
  | 0x804006 => opRetireTile (d * 768 + n) s
  | 0x816009 => if n = 0 then (0, s) else if edgeRetrainAllowed s then (0, opRetrainEdge d s) else (5, s)
  | _ => (0, s)

/-- Write an entry (R391-R395): the status, and the state. A refused write leaves the entry unchanged. -/
def writeDict (viaM0 : Bool) (index sub : Nat) (v : List Byte) (s : State) : Nat × State :=
  if !indexDefined index then (1, s)
  else
    match dictRow index sub with
    | none => (if sub = 0 then 4 else 2, s)
    | some r =>
      let d := (dieOfIndex index).1
      let k := r.index * 256 + sub
      let acc := accessStatus r s
      if acc ≠ 0 then (acc, s)
      else if !dieReached s d then (0x0D, s)
      else if !lengthOk r v then (8, s)
      else if !rangeOk r v || !homeRangeOk d k v s then (7, s)
      else if plainEntry index sub then (0, putEntry r (index * 256 + sub) v s)
      else actEntry viaM0 d k r v s

/-- REGISTER_WRITE (R394): a write of an entry without behaviour of its own replaces its value whole. In OFF, and in recovery mode
(R473), nothing is written. -/
def opRegisterWrite (index sub : Nat) (v : List Byte) (s : State) : State :=
  if s.board.boot.recovery || !plainEntry index sub then s else (writeDict true index sub v s).2

def execRegisterWrite (index : BitVec 16) (sub : BitVec 8) (value : List Byte) (s : State) : Host.Outcome State Fault Refusal :=
  .next (powered (powered (opRegisterWrite index.toNat sub.toNat value)) s)

end Sys2Proof.Machine
end

