-- ==== Sys2Proof/Machine/TarvyOps.lean ====
section
/-!
DEFINITION. Tarvy at the Ticket Booth (R397-R405): frames, authorisation, repeats, snapshots, stagings, and event frames.
-/

namespace Sys2Proof.Machine

/-! ### Frames (R398) -/

/-- TYPE. -/
def frType (b : List Byte) : Nat := leAt b 1 1

/-- FLAGS. -/
def frFlags (b : List Byte) : Nat := leAt b 2 2

/-- TXID. -/
def frTxid (b : List Byte) : Nat := leAt b 4 4

/-- INDEX. -/
def frIndex (b : List Byte) : Nat := leAt b 8 2

/-- SUB. -/
def frSub (b : List Byte) : Nat := leAt b 10 1

/-- OFFSET. -/
def frOffset (b : List Byte) : Nat := leAt b 12 4

/-- LENGTH. -/
def frLength (b : List Byte) : Nat := leAt b 16 4

/-- DLEN. -/
def frDlen (b : List Byte) : Nat := leAt b 20 2

/-- The data. -/
def frData (b : List Byte) : List Byte := b.drop 40

/-- A frame of the package: FLAGS, and no AUTH. -/
def makeFrame (type flags txid index sub status offset length : Nat) (data : List Byte) : List Byte :=
  leBytes 1 0x10 ++ leBytes 1 type ++ leBytes 2 flags ++ leBytes 4 txid ++ leBytes 2 index ++ leBytes 1 sub ++ leBytes 1 status
    ++ leBytes 4 offset ++ leBytes 4 length ++ leBytes 2 data.length ++ leBytes 2 0 ++ leBytes 16 0 ++ data

/-- Frames that are discarded unanswered (R398). -/
def discarded (b : List Byte) : Bool := decide (b.length < 40) || b.length != 40 + frDlen b || leAt b 0 1 / 16 != 1

/-- Frames that are malformed (R398): a TYPE that no request has, a reserved field, or a DLEN above 1,024. -/
def malformed (b : List Byte) : Bool :=
  !(([1, 3, 6, 7] : List Nat).contains (frType b)) || leAt b 0 1 % 16 != 0 || decide (2 ≤ frFlags b) || leAt b 22 2 != 0 || decide (1024 < frDlen b)

/-- The TYPE of the answer to a request; a TYPE that no request has is answered with STATUS only. -/
def answerType (t : Nat) : Nat := if t = 1 then 2 else if t = 7 then 8 else 4

/-! ### Sources (R401) -/

/-- The number of an address of 16 bytes, the first byte the most significant. -/
def addrNat (bs : List Byte) : Nat := leNat bs.reverse

/-- Does a source qualify: on M0, or within the management addresses of the descriptor? -/
def sourceQualifies (s : State) (src : Source) : Bool :=
  src.via.val == 8
    || s.descr.mgmt.any (fun m => decide (m.2 ≤ 128) && addrNat (sliceBytes m.1 0 16) / 2 ^ (128 - m.2) == src.addr.toNat / 2 ^ (128 - m.2))

/-- The frame with AUTH taken as zero. -/
def authZero (b : List Byte) : List Byte := b.take 24 ++ List.replicate 16 0 ++ b.drop 40

/-- Is a WRITE authorised? -/
def writeAuthorised (s : State) (src : Source) (b : List Byte) : Bool :=
  match s.board.boot.mgmtKey with
  | none => src.via.val == 8
  | some key =>
    let fresh := match smFind s.tarvy.highest src.addr.toNat with
      | none => true
      | some h => decide (1 ≤ (frTxid b + 2 ^ 32 - h) % 2 ^ 32) && decide ((frTxid b + 2 ^ 32 - h) % 2 ^ 32 ≤ 2 ^ 31)
    sourceQualifies s src && frFlags b % 2 == 1 && sliceBytes b 24 16 == (hmacSha256 key (authZero b)).take 16 && (frOffset b != 0 || fresh)

/-- An authenticated WRITE at OFFSET 0 sets the source's highest TXID. -/
def noteTxid (src : Source) (b : List Byte) (s : State) : State :=
  if s.board.boot.mgmtKey.isSome ∧ frOffset b = 0 then { s with tarvy := { s.tarvy with highest := smPut s.tarvy.highest src.addr.toNat (frTxid b) } } else s

/-! ### Answers -/

/-- Change the Ticket Booth. -/
def modTarvy (f : Tarvy → Tarvy) (s : State) : State := { s with tarvy := f s.tarvy }

/-- Send a frame by a port (R397). -/
def sendFrame (via addr port : Nat) (b : List Byte) (s : State) : State :=
  emit (.frame via addr port b) (if via < 8 then bumpEth via 1 1 s else s)

/-- The kept responses with one more: the last 1,024, and every one for 2 s (R402). -/
def keepResponse (now : Nat) (k : Kept) (ks : List Kept) : List Kept :=
  let all := ks ++ [k]
  let old := all.take (all.length - 1024)
  old.filter (fun x => decide (now < x.time + 2 * 10 ^ 9)) ++ all.drop (all.length - 1024)

/-- Answer a request (R397, R402): refusals are counted, and the response is kept. -/
def answer (src : Source) (b : List Byte) (status length : Nat) (data : List Byte) (s : State) : State :=
  let r := makeFrame (answerType (frType b)) 0 (frTxid b) (frIndex b) (frSub b) status (frOffset b) length data
  let k : Kept := { addr := src.addr.toNat, port := src.port.toNat, txid := frTxid b, offset := frOffset b, frame := r, time := s.now }
  let s := if status = 0 then s else bumpReg 0x103009 1 s
  let s := if status = 9 then bumpReg 0x10300C 1 s else s
  sendFrame src.via.val src.addr.toNat src.port.toNat r (modTarvy (fun t => { t with kept := keepResponse s.now k t.kept }) s)

/-- Is flow 2 full (R387)? -/
def requestsFull (s : State) : Bool :=
  match smFind (s.ring 0).flows 2 with
  | none => false
  | some f => decide (f.limit ≤ f.items.length)

/-- A frame of a TYPE arrives (R397, R398, R402); a frame of another request's TYPE is not this command's. -/
def frameArrives (type : Nat) (src : Source) (b : List Byte) (act : State → State) (s : State) : State :=
  let other := [1, 3, 6, 7].contains (frType b) && frType b != type
  powered (fun s =>
    if !discarded b && other then s
    else
      let s := if src.via.val < 8 then bumpEth src.via.val 0 1 s else s
      if discarded b || requestsFull s then bumpReg 0x10300B 1 s
      else
        let s := bumpReg 0x103008 1 s
        let same := fun (k : Kept) => k.addr == src.addr.toNat && k.port == src.port.toNat && k.txid == frTxid b && k.offset == frOffset b
        match s.tarvy.kept.find? same with
        | some k => if type = 6 ∧ !malformed b then act s else sendFrame src.via.val src.addr.toNat src.port.toNat k.frame (bumpReg 0x10300A 1 s)
        | none => if malformed b then answer src b 0x0C 0 [] s else act s) s

/-! ### READ (R401, R403) -/

/-- May a request reach an index in recovery mode (R473)? -/
def recoveryReads (src : Source) (index : Nat) : Bool := src.via.val == 8 && [0x1000, 0x1040, 0x1044, 0x7020].contains index

/-- Is a snapshot the one of a request? -/
def snapOf (src : Source) (txid : Nat) (x : Snapshot) : Bool := x.addr == src.addr.toNat && x.port == src.port.toNat && x.txid == txid

/-- The READ at OFFSET 0: the whole value, or its first segment with a snapshot taken. -/
def readFirst (src : Source) (b : List Byte) (s : State) : State :=
  let r := readEntry (frIndex b) (frSub b) s
  let v := r.2.1
  if r.1 ≠ 0 then answer src b r.1 0 [] r.2.2
  else if v.length ≤ 1024 then answer src b 0 v.length v r.2.2
  else
    let others := s.tarvy.snaps.filter (fun x => !snapOf src (frTxid b) x)
    let held := (others.map (fun x => x.value.length)).foldl (· + ·) 0
    if 16 ≤ others.length ∨ 2 ^ 28 < held + v.length then answer src b 0x0A 0 [] s
    else
      let x : Snapshot := { addr := src.addr.toNat, port := src.port.toNat, txid := frTxid b, entry := frIndex b * 256 + frSub b, value := v, used := s.now }
      answer src b 0 v.length (v.take 1024) (modTarvy (fun t => { t with snaps := others ++ [x] }) r.2.2)

/-- A READ of a later segment, from its snapshot. -/
def readLater (src : Source) (b : List Byte) (s : State) : State :=
  match s.tarvy.snaps.find? (snapOf src (frTxid b)) with
  | none => answer src b 0x0B 0 [] s
  | some x =>
    let off := frOffset b
    let n := x.value.length
    if off % 1024 ≠ 0 ∨ n ≤ off ∨ x.entry ≠ frIndex b * 256 + frSub b then answer src b 0x0B 0 [] s
    else
      let last := decide (n ≤ off + 1024)
      let x' := { x with used := s.now, done := if last then some s.now else x.done }
      let put := fun (y : Snapshot) => if snapOf src (frTxid b) y then x' else y
      answer src b 0 n (sliceBytes x.value off (min 1024 (n - off))) (modTarvy (fun t => { t with snaps := t.snaps.map put }) s)

/-- TARVY_READ. A source that does not qualify gets no answer, and is counted. -/
def opRead (src : Source) (b : List Byte) (s : State) : State :=
  if s.board.boot.recovery ∧ !recoveryReads src (frIndex b) then answer src b 5 0 [] s
  else if !sourceQualifies s src then bumpReg 0x10300C 1 s
  else if frOffset b = 0 then readFirst src b s
  else readLater src b s

def execTarvyRead (src : Source) (frame : List Byte) (s : State) : Host.Outcome State Fault Refusal :=
  .next (powered (frameArrives 1 src frame (opRead src frame)) s)

/-! ### WRITE (R401, R404) -/

/-- Is a staging the one of a request? -/
def stageOf (src : Source) (txid : Nat) (x : Staging) : Bool := x.addr == src.addr.toNat && x.port == src.port.toNat && x.txid == txid

/-- Discard a request's staging. -/
def dropStage (src : Source) (txid : Nat) (s : State) : State := modTarvy (fun t => { t with stages := t.stages.filter (fun x => !stageOf src txid x) }) s

/-- Writes that recovery mode lets through (R473): an update object, and RESET, on M0. -/
def recoveryWrites (src : Source) (index sub : Nat) (v : List Byte) : Bool :=
  src.via.val == 8 && ((index == 0x1044 && sub == 1) || (index == 0x1001 && sub == 1 && v.length == 4 && leNat v % 256 == 9))

/-- The whole value is there: it is written, and the request answered. A reset answers first (R407). -/
def applyValue (src : Source) (b v : List Byte) (s : State) : State :=
  let index := frIndex b
  let sub := frSub b
  let r := if s.board.boot.recovery ∧ !recoveryWrites src index sub v then (5, s) else writeDict (src.via.val == 8) index sub v s
  if r.2.life = .off then
    sendFrame src.via.val src.addr.toNat src.port.toNat (makeFrame 4 0 (frTxid b) index sub r.1 (frOffset b) 0 []) r.2
  else answer src b r.1 0 [] r.2

/-- What stands against a staging for an entry (R404): its access and state, without a value. -/
def openStatus (s : State) (index sub : Nat) : Nat :=
  if !indexDefined index then 1
  else match dictRow index sub with
    | none => if sub = 0 then 4 else 2
    | some r => accessStatus r s

/-- The WRITE at OFFSET 0: of the whole value, or the first segment of a staging. -/
def writeFirst (src : Source) (b : List Byte) (s : State) : State :=
  let n := frLength b
  if frDlen b = n then applyValue src b (frData b) s
  else if n ≤ 1024 then answer src b 8 0 [] s
  else
    let st := openStatus s (frIndex b) (frSub b)
    let others := s.tarvy.stages.filter (fun x => !stageOf src (frTxid b) x)
    if st ≠ 0 then answer src b st 0 [] s
    else if 16 ≤ others.length then answer src b 0x0A 0 [] s
    else
      let x : Staging := { addr := src.addr.toNat, port := src.port.toNat, txid := frTxid b, entry := frIndex b * 256 + frSub b, value := frData b,
                           total := n, used := s.now }
      answer src b 0 0 [] (modTarvy (fun t => { t with stages := others ++ [x] }) s)

/-- A later segment: the next in order, or the staging is discarded. -/
def writeLater (src : Source) (b : List Byte) (s : State) : State :=
  match s.tarvy.stages.find? (stageOf src (frTxid b)) with
  | none => answer src b 0x0B 0 [] s
  | some x =>
    let off := frOffset b
    if off ≠ x.value.length ∨ frLength b ≠ x.total ∨ x.total < off + frDlen b ∨ x.entry ≠ frIndex b * 256 + frSub b then
      answer src b 0x0B 0 [] (dropStage src (frTxid b) s)
    else if off + frDlen b = x.total then applyValue src b (x.value ++ frData b) (dropStage src (frTxid b) s)
    else
      let x' := { x with value := x.value ++ frData b, used := s.now }
      let put := fun (y : Staging) => if stageOf src (frTxid b) y then x' else y
      answer src b 0 0 [] (modTarvy (fun t => { t with stages := t.stages.map put }) s)

/-- TARVY_WRITE. -/
def opWrite (src : Source) (b : List Byte) (s : State) : State :=
  if !writeAuthorised s src b then answer src b 9 0 [] s
  else
    let s := noteTxid src b s
    if frOffset b = 0 then writeFirst src b s else writeLater src b s

def execTarvyWrite (src : Source) (frame : List Byte) (s : State) : Host.Outcome State Fault Refusal :=
  .next (powered (frameArrives 3 src frame (opWrite src frame)) s)

/-! ### ECHO -/

/-- ECHO (R399): the package state, then the serial number. -/
def opEcho (src : Source) (b : List Byte) (s : State) : State :=
  if s.board.boot.recovery then answer src b 5 0 [] s
  else if !sourceQualifies s src then bumpReg 0x10300C 1 s
  else
    let v := leBytes 1 (stateCode s.life) ++ Config.serial
    answer src b 0 v.length v s

def execEcho (src : Source) (frame : List Byte) (s : State) : Host.Outcome State Fault Refusal :=
  .next (powered (frameArrives 7 src frame (opEcho src frame)) s)

/-! ### Releases -/

/-- SNAPSHOT_RELEASE (R403): 2 s after the last byte was served, or 5 s without a READ. -/
def opSnapshotRelease (src : Source) (txid : BitVec 32) (s : State) : State :=
  modTarvy (fun t => { t with snaps := t.snaps.filter (fun x => !snapOf src txid.toNat x) }) s

def execSnapshotRelease (src : Source) (txid : BitVec 32) (s : State) : Host.Outcome State Fault Refusal := .next (powered (opSnapshotRelease src txid) s)

/-- STAGING_DISCARD (R404): 5 s without a segment. -/
def execStagingDiscard (src : Source) (txid : BitVec 32) (s : State) : Host.Outcome State Fault Refusal := .next (powered (dropStage src txid.toNat) s)

/-! ### Event frames (R405) -/

/-- The destinations: their number, address and UDP port; an all-zero one is unused. -/
def destinations (s : State) : List (Nat × Nat × Nat) :=
  ((List.range 4).map (fun i =>
    let v := sliceBytes (s.blob (0x103001 + i)) 0 18
    (i, addrNat (v.take 16), leAt v 16 2))).filter (fun x => x.2.1 != 0 || x.2.2 != 0)

/-- The port by which event frames leave: M0, else E0, else E4. -/
def eventPort (s : State) : Option Nat :=
  if s.tarvy.m0 then some 8 else if (s.eth 0).up then some 0 else if (s.eth 4).up then some 4 else none

/-- The data of a frame: FULL records of 32 bytes, or COMPACT ones of 16. -/
def eventData (f : EventFrame) : List Byte :=
  f.recs.flatMap (fun e => if f.full then leBytes 32 (eventBits e) else leBytes 16 (atBit 48 (eventBits e / 2 ^ 176)))

/-- Send a frame to a destination. -/
def sendEvent (f : EventFrame) (x : Nat × Nat × Nat) (s : State) : State :=
  let d := eventData f
  match eventPort s with
  | none => s
  | some p => sendFrame p x.2.1 x.2.2 (makeFrame 5 (if f.full then 2 else 0) f.number 0 0 0 0 d.length d) s

/-- EVENT_FRAME_SEND: up to 32 records leave as the next frame. With no destination nobody receives them; while 256 frames wait,
none is sent. -/
def opEventSend (s : State) : State :=
  if s.evBatch = [] ∨ 256 ≤ s.evFrames.length then s
  else
    let rest := s.evBatch.drop 32
    let ds := destinations s
    if ds = [] then { s with evBatch := rest }
    else
      let sends := (List.range 4).map (fun i => boolNat (ds.any (fun x => x.1 == i)))
      let f : EventFrame := { number := s.reg 0x103005, full := levelInForce s == 1, recs := s.evBatch.take 32, sends := sends }
      allOf ds (sendEvent f) (bumpReg 0x103005 1 { s with evBatch := rest, evFrames := s.evFrames ++ [f] })

def execEventFrameSend (s : State) : Host.Outcome State Fault Refusal := .next (powered opEventSend s)

/-- EVENT_FRAME_RESEND: 100 ms later, to each destination that has not acknowledged; after ten sendings it is dropped and counted. -/
def opEventResend (n : Nat) (s : State) : State :=
  match s.evFrames.find? (fun f => f.number == n) with
  | none => s
  | some f =>
    let due := fun (x : Nat × Nat × Nat) => decide (0 < nth f.sends x.1) && decide (nth f.sends x.1 < 10)
    let gone := (f.sends.filter (fun c => decide (10 ≤ c))).length
    let f' := { f with sends := f.sends.map (fun c => if c = 0 ∨ 10 ≤ c then 0 else c + 1) }
    let s := allOf ((destinations s).filter due) (sendEvent f) (bumpReg 0x103007 gone s)
    let put := fun (y : EventFrame) => if y.number = n then f' else y
    { s with evFrames := (s.evFrames.map put).filter (fun y => y.sends.any (fun c => decide (0 < c))) }

def execEventFrameResend (number : BitVec 32) (s : State) : Host.Outcome State Fault Refusal := .next (powered (opEventResend number.toNat) s)

/-- EVENT_ACK: the destination with the frame's source address acknowledges. In recovery mode it is not served. -/
def opEventAck (src : Source) (b : List Byte) (s : State) : State :=
  if s.board.boot.recovery then answer src b 5 0 [] s
  else if !sourceQualifies s src then bumpReg 0x10300C 1 s
  else
    let mine := ((destinations s).filter (fun x => x.2.1 == src.addr.toNat)).map (fun x => x.1)
    let ack := fun (f : EventFrame) =>
      if f.number = frTxid b then { f with sends := f.sends.zipIdx.map (fun c => if mine.contains c.2 then 0 else c.1) } else f
    { s with evFrames := (s.evFrames.map ack).filter (fun f => f.sends.any (fun c => decide (0 < c))) }

def execEventAck (src : Source) (frame : List Byte) (s : State) : Host.Outcome State Fault Refusal :=
  .next (powered (frameArrives 6 src frame (opEventAck src frame)) s)

/-- M0_LINK_LOSS: event frames leave by E0, or E4. -/
def execM0LinkLoss (s : State) : Host.Outcome State Fault Refusal := .next (powered (modTarvy (fun t => { t with m0 := false })) s)

/-- M0_LINK_REGAIN. -/
def execM0LinkRegain (s : State) : Host.Outcome State Fault Refusal := .next (powered (modTarvy (fun t => { t with m0 := true })) s)

end Sys2Proof.Machine
end

