-- ==== Sys2Proof/Machine/Dispatch.lean ====
section
/-!
DEFINITION. One arm per command: a direct call of its meaning.
-/

namespace Sys2Proof.Machine
open Sys2Proof

def exec (i : Instr) (s : State) : Host.Outcome State Fault Refusal :=
  match i with
  | .nop r w => Sys2Proof.Machine.execNop r w s
  | .loop r w lvl cnt stop => Sys2Proof.Machine.execLoop r w lvl cnt stop s
  | .jump r w t => Sys2Proof.Machine.execJump r w t s
  | .call r w t => Sys2Proof.Machine.execCall r w t s
  | .ret r w => Sys2Proof.Machine.execRet r w s
  | .brm r w mbit sense t => Sys2Proof.Machine.execBrm r w mbit sense t s
  | .wait r w tk cnt => Sys2Proof.Machine.execWait r w tk cnt s
  | .stepend r w => Sys2Proof.Machine.execStepend r w s
  | .swap r w a => Sys2Proof.Machine.execSwap r w a s
  | .setp r w pn imm => Sys2Proof.Machine.execSetp r w pn imm s
  | .addp r w pn simm => Sys2Proof.Machine.execAddp r w pn simm s
  | .setx r w xn sl imm => Sys2Proof.Machine.execSetx r w xn sl imm s
  | .addx r w xn simm => Sys2Proof.Machine.execAddx r w xn simm s
  | .ldw r w a => Sys2Proof.Machine.execLdw r w a s
  | .mm r w a => Sys2Proof.Machine.execMm r w a s
  | .gopen r w a => Sys2Proof.Machine.execGopen r w a s
  | .gclose r w a => Sys2Proof.Machine.execGclose r w a s
  | .gspill r w a => Sys2Proof.Machine.execGspill r w a s
  | .gfill r w a => Sys2Proof.Machine.execGfill r w a s
  | .gdrop r w a => Sys2Proof.Machine.execGdrop r w a s
  | .mov r w a => Sys2Proof.Machine.execMov r w a s
  | .add r w a => Sys2Proof.Machine.execAdd r w a s
  | .sub r w a => Sys2Proof.Machine.execSub r w a s
  | .mul r w a => Sys2Proof.Machine.execMul r w a s
  | .fma r w a => Sys2Proof.Machine.execFma r w a s
  | .max r w a => Sys2Proof.Machine.execMax r w a s
  | .min r w a => Sys2Proof.Machine.execMin r w a s
  | .abs r w a => Sys2Proof.Machine.execAbs r w a s
  | .neg r w a => Sys2Proof.Machine.execNeg r w a s
  | .cmpgt r w a => Sys2Proof.Machine.execCmpgt r w a s
  | .cvt r w a => Sys2Proof.Machine.execCvt r w a s
  | .rsum r w a => Sys2Proof.Machine.execRsum r w a s
  | .rmax r w a => Sys2Proof.Machine.execRmax r w a s
  | .exp r w a => Sys2Proof.Machine.execExp r w a s
  | .exp2 r w a => Sys2Proof.Machine.execExp2 r w a s
  | .log r w a => Sys2Proof.Machine.execLog r w a s
  | .log2 r w a => Sys2Proof.Machine.execLog2 r w a s
  | .rcp r w a => Sys2Proof.Machine.execRcp r w a s
  | .sqrt r w a => Sys2Proof.Machine.execSqrt r w a s
  | .rsqrt r w a => Sys2Proof.Machine.execRsqrt r w a s
  | .tanh r w a => Sys2Proof.Machine.execTanh r w a s
  | .sigm r w a => Sys2Proof.Machine.execSigm r w a s
  | .erf r w a => Sys2Proof.Machine.execErf r w a s
  | .sin r w a => Sys2Proof.Machine.execSin r w a s
  | .cos r w a => Sys2Proof.Machine.execCos r w a s
  | .ldq r w a => Sys2Proof.Machine.execLdq r w a s
  | .get r w a => Sys2Proof.Machine.execGet r w a s
  | .put r w a => Sys2Proof.Machine.execPut r w a s
  | .signal r w a => Sys2Proof.Machine.execSignal r w a s
  | .sample r w a => Sys2Proof.Machine.execSample r w a s
  | .gather r w a => Sys2Proof.Machine.execGather r w a s
  | .gatherAndPool r w a => Sys2Proof.Machine.execGatherAndPool r w a s
  | .scatterAdd r w a => Sys2Proof.Machine.execScatterAdd r w a s
  | .sortAndMerge r w a => Sys2Proof.Machine.execSortAndMerge r w a s
  | .gradientEntry d tag table shard gk vals src => Sys2Proof.Machine.execGradientEntry d tag table shard gk vals src s
  | .getComplete r id => Sys2Proof.Machine.execGetComplete r id s
  | .putComplete r id => Sys2Proof.Machine.execPutComplete r id s
  | .swapComplete r id => Sys2Proof.Machine.execSwapComplete r id s
  | .descriptorComplete r id => Sys2Proof.Machine.execDescriptorComplete r id s
  | .tokenArrival r tag item => Sys2Proof.Machine.execTokenArrival r tag item s
  | .pageInComplete r => Sys2Proof.Machine.execPageInComplete r s
  | .stepStart r => Sys2Proof.Machine.execStepStart r s
  | .forwardBarrier => Sys2Proof.Machine.execForwardBarrier s
  | .stepWatchdogExpiry => Sys2Proof.Machine.execStepWatchdogExpiry s
  | .missingDecision => Sys2Proof.Machine.execMissingDecision s
  | .packageVote => Sys2Proof.Machine.execPackageVote s
  | .vote child v => Sys2Proof.Machine.execVote child v s
  | .commit d => Sys2Proof.Machine.execCommit d s
  | .rerun d => Sys2Proof.Machine.execRerun d s
  | .skip d => Sys2Proof.Machine.execSkip d s
  | .holdDecision d => Sys2Proof.Machine.execHoldDecision d s
  | .retirement => Sys2Proof.Machine.execRetirement s
  | .servingStepInterval => Sys2Proof.Machine.execServingStepInterval s
  | .releaseWaitExpiry cseq => Sys2Proof.Machine.execReleaseWaitExpiry cseq s
  | .tightropeFlit e high f => Sys2Proof.Machine.execTightropeFlit e high f s
  | .tightropeLinkReset e high => Sys2Proof.Machine.execTightropeLinkReset e high s
  | .tightropeTraining e => Sys2Proof.Machine.execTightropeTraining e s
  | .halfMaskAdvertisement e high mask => Sys2Proof.Machine.execHalfMaskAdvertisement e high mask s
  | .advertisementTimeout e => Sys2Proof.Machine.execAdvertisementTimeout e s
  | .handOverReport e high => Sys2Proof.Machine.execHandOverReport e high s
  | .retrainSelectedEdge d => Sys2Proof.Machine.execRetrainSelectedEdge d s
  | .midwayFlit p f c0 c1 => Sys2Proof.Machine.execMidwayFlit p f c0 c1 s
  | .codewordLockLoss p => Sys2Proof.Machine.execCodewordLockLoss p s
  | .midwayTraining p lock far => Sys2Proof.Machine.execMidwayTraining p lock far s
  | .retrainPort p => Sys2Proof.Machine.execRetrainPort p s
  | .messageForward p vc => Sys2Proof.Machine.execMessageForward p vc s
  | .midwayWrite m => Sys2Proof.Machine.execMidwayWrite m s
  | .midwayRead m => Sys2Proof.Machine.execMidwayRead m s
  | .readrsp m => Sys2Proof.Machine.execReadrsp m s
  | .signalMessage m => Sys2Proof.Machine.execSignalMessage m s
  | .ack m => Sys2Proof.Machine.execAck m s
  | .ackTimer d src => Sys2Proof.Machine.execAckTimer d src s
  | .endToEndTimeout d dst => Sys2Proof.Machine.execEndToEndTimeout d dst s
  | .probe p seq => Sys2Proof.Machine.execProbe p seq s
  | .route epoch pos coord => Sys2Proof.Machine.execRoute epoch pos coord s
  | .reductionStart => Sys2Proof.Machine.execReductionStart s
  | .codes d m => Sys2Proof.Machine.execCodes d m s
  | .agreed d m => Sys2Proof.Machine.execAgreed d m s
  | .sum d m => Sys2Proof.Machine.execSum d m s
  | .raw d m => Sys2Proof.Machine.execRaw d m s
  | .onebit d m => Sys2Proof.Machine.execOnebit d m s
  | .hash d m => Sys2Proof.Machine.execHash d m s
  | .resend d m => Sys2Proof.Machine.execResend d m s
  | .catcherDeadline d layer shard => Sys2Proof.Machine.execCatcherDeadline d layer shard s
  | .runReShard => Sys2Proof.Machine.execRunReShard s
  | .reShardSwitch => Sys2Proof.Machine.execReShardSwitch s
  | .doorbell w => Sys2Proof.Machine.execDoorbell w s
  | .nopRecord => Sys2Proof.Machine.execNopRecord s
  | .input => Sys2Proof.Machine.execInput s
  | .batch => Sys2Proof.Machine.execBatch s
  | .decode => Sys2Proof.Machine.execDecode s
  | .replace => Sys2Proof.Machine.execReplace s
  | .releaseRecord => Sys2Proof.Machine.execReleaseRecord s
  | .sourceCopyComplete cseq entry => Sys2Proof.Machine.execSourceCopyComplete cseq entry s
  | .drainEpochEnd r => Sys2Proof.Machine.execDrainEpochEnd r s
  | .bankCopyComplete table shard copy => Sys2Proof.Machine.execBankCopyComplete table shard copy s
  | .rdmaWrite p qp gid rkey va bytes => Sys2Proof.Machine.execRdmaWrite p qp gid rkey va bytes s
  | .rdmaRead p qp gid rkey va len => Sys2Proof.Machine.execRdmaRead p qp gid rkey va len s
  | .send p qp gid bytes => Sys2Proof.Machine.execSend p qp gid bytes s
  | .inputReadComplete c m bytes => Sys2Proof.Machine.execInputReadComplete c m bytes s
  | .journalAck d upTo image => Sys2Proof.Machine.execJournalAck d upTo image s
  | .blockLockLoss p => Sys2Proof.Machine.execBlockLockLoss p s
  | .blockLockRegain p => Sys2Proof.Machine.execBlockLockRegain p s
  | .pauseReceived p prio quanta => Sys2Proof.Machine.execPauseReceived p prio quanta s
  | .receiveFifoThreshold p prio above => Sys2Proof.Machine.execReceiveFifoThreshold p prio above s
  | .pausePersistence p prio => Sys2Proof.Machine.execPausePersistence p prio s
  | .ceMarkedPacket p qp => Sys2Proof.Machine.execCeMarkedPacket p qp s
  | .congestionNotificationPacket p qp => Sys2Proof.Machine.execCongestionNotificationPacket p qp s
  | .rateRecovery p qp => Sys2Proof.Machine.execRateRecovery p qp s
  | .ptpMessage p domain time offset => Sys2Proof.Machine.execPtpMessage p domain time offset s
  | .holdover => Sys2Proof.Machine.execHoldover s
  | .next d c => Sys2Proof.Machine.execNext d c s
  | .post d c item => Sys2Proof.Machine.execPost d c item s
  | .done d c => Sys2Proof.Machine.execDone d c s
  | .corePortWait d c flow => Sys2Proof.Machine.execCorePortWait d c flow s
  | .yield d c => Sys2Proof.Machine.execYield d c s
  | .sleep d c until_ => Sys2Proof.Machine.execSleep d c until_ s
  | .sleepExpiry d n => Sys2Proof.Machine.execSleepExpiry d n s
  | .thread d c supervisor w => Sys2Proof.Machine.execThread d c supervisor w s
  | .flow d c supervisor w => Sys2Proof.Machine.execFlow d c supervisor w s
  | .machineCheck d c mcause => Sys2Proof.Machine.execMachineCheck d c mcause s
  | .tarvyRead src frame => Sys2Proof.Machine.execTarvyRead src frame s
  | .tarvyWrite src frame => Sys2Proof.Machine.execTarvyWrite src frame s
  | .echo src frame => Sys2Proof.Machine.execEcho src frame s
  | .eventAck src frame => Sys2Proof.Machine.execEventAck src frame s
  | .eventFrameSend => Sys2Proof.Machine.execEventFrameSend s
  | .eventFrameResend number => Sys2Proof.Machine.execEventFrameResend number s
  | .snapshotRelease src txid => Sys2Proof.Machine.execSnapshotRelease src txid s
  | .stagingDiscard src txid => Sys2Proof.Machine.execStagingDiscard src txid s
  | .attest arg => Sys2Proof.Machine.execAttest arg s
  | .load arg => Sys2Proof.Machine.execLoad arg s
  | .run arg => Sys2Proof.Machine.execRun arg s
  | .hold arg => Sys2Proof.Machine.execHold arg s
  | .resume arg => Sys2Proof.Machine.execResume arg s
  | .release arg => Sys2Proof.Machine.execRelease arg s
  | .adopt arg => Sys2Proof.Machine.execAdopt arg s
  | .standby arg => Sys2Proof.Machine.execStandby arg s
  | .reset arg => Sys2Proof.Machine.execReset arg s
  | .clearCounters d one => Sys2Proof.Machine.execClearCounters d one s
  | .retireLogicalTile r => Sys2Proof.Machine.execRetireLogicalTile r s
  | .runTestSuites mask => Sys2Proof.Machine.execRunTestSuites mask s
  | .testRunComplete suites dies => Sys2Proof.Machine.execTestRunComplete suites dies s
  | .runFullPack mask => Sys2Proof.Machine.execRunFullPack mask s
  | .fullRunComplete => Sys2Proof.Machine.execFullRunComplete s
  | .galleryTestComplete r hash => Sys2Proof.Machine.execGalleryTestComplete r hash s
  | .attestationNonce n => Sys2Proof.Machine.execAttestationNonce n s
  | .updateObject o => Sys2Proof.Machine.execUpdateObject o s
  | .ownerRecord viaM0 o => Sys2Proof.Machine.execOwnerRecord viaM0 o s
  | .managementRecord o => Sys2Proof.Machine.execManagementRecord o s
  | .referenceOutput => Sys2Proof.Machine.execReferenceOutput s
  | .registerWrite index sub value => Sys2Proof.Machine.execRegisterWrite index sub value s
  | .captureComplete => Sys2Proof.Machine.execCaptureComplete s
  | .drained r => Sys2Proof.Machine.execDrained r s
  | .complete r => Sys2Proof.Machine.execComplete r s
  | .unreachable r => Sys2Proof.Machine.execUnreachable r s
  | .reachable r => Sys2Proof.Machine.execReachable r s
  | .adopting r => Sys2Proof.Machine.execAdopting r s
  | .reject r => Sys2Proof.Machine.execReject r s
  | .query r => Sys2Proof.Machine.execQuery r s
  | .report r => Sys2Proof.Machine.execReport r s
  | .target r => Sys2Proof.Machine.execTarget r s
  | .restored r => Sys2Proof.Machine.execRestored r s
  | .sramScrub r fixed broken => Sys2Proof.Machine.execSramScrub r fixed broken s
  | .patrolScrub fixed broken => Sys2Proof.Machine.execPatrolScrub fixed broken s
  | .budgetSetting => Sys2Proof.Machine.execBudgetSetting s
  | .budgetEstimate d watts => Sys2Proof.Machine.execBudgetEstimate d watts s
  | .budgetTimeout d => Sys2Proof.Machine.execBudgetTimeout d s
  | .regionSample r => Sys2Proof.Machine.execRegionSample r s
  | .valveControl r => Sys2Proof.Machine.execValveControl r s
  | .regulatorTelemetry t => Sys2Proof.Machine.execRegulatorTelemetry t s
  | .alertN segment status => Sys2Proof.Machine.execAlertN segment status s
  | .avsbusTimeout d => Sys2Proof.Machine.execAvsbusTimeout d s
  | .coolantFlowLow => Sys2Proof.Machine.execCoolantFlowLow s
  | .coolantFlowCritical => Sys2Proof.Machine.execCoolantFlowCritical s
  | .inletTemperatureHigh => Sys2Proof.Machine.execInletTemperatureHigh s
  | .profileDeparture => Sys2Proof.Machine.execProfileDeparture s
  | .holdupRead mv => Sys2Proof.Machine.execHoldupRead mv s
  | .pwrgdAssert order => Sys2Proof.Machine.execPwrgdAssert order s
  | .pwrgdFall => Sys2Proof.Machine.execPwrgdFall s
  | .resetNAssert => Sys2Proof.Machine.execResetNAssert s
  | .boot f => Sys2Proof.Machine.execBoot f s
  | .dieReportTimeout d => Sys2Proof.Machine.execDieReportTimeout d s
  | .trstN => Sys2Proof.Machine.execTrstN s
  | .bypass d => Sys2Proof.Machine.execBypass d s
  | .idcode d => Sys2Proof.Machine.execIdcode d s
  | .samplePreload d sampled preload => Sys2Proof.Machine.execSamplePreload d sampled preload s
  | .extest d sampled preload => Sys2Proof.Machine.execExtest d sampled preload s
  | .clamp d => Sys2Proof.Machine.execClamp d s
  | .trunkread d seq soon => Sys2Proof.Machine.execTrunkread d seq soon s
  | .journalWaitExpiry => Sys2Proof.Machine.execJournalWaitExpiry s
  | .midwayTrainingExpiry p => Sys2Proof.Machine.execMidwayTrainingExpiry p s
  | .queuePairErrorState p pair => Sys2Proof.Machine.execQueuePairErrorState p pair s
  | .controlCoreAccess d c super addr a => Sys2Proof.Machine.execControlCoreAccess d c super addr a s
  | .prefetchReadComplete r x line => Sys2Proof.Machine.execPrefetchReadComplete r x line s
  | .commandOutcome => Sys2Proof.Machine.execCommandOutcome s
  | .updateVerificationComplete => Sys2Proof.Machine.execUpdateVerificationComplete s
  | .m0LinkLoss => Sys2Proof.Machine.execM0LinkLoss s
  | .m0LinkRegain => Sys2Proof.Machine.execM0LinkRegain s
  | .telemetryTimer d tag => Sys2Proof.Machine.execTelemetryTimer d tag s

end Sys2Proof.Machine
end

