-- ==== Sys2Proof/Machine/Tick.lean ====
section
/-!
DEFINITION. What happens while no command waits: package time runs on, and one entry of flow 10 reaches the MRAM.
-/

namespace Sys2Proof.Machine

/-- A microsecond of an idle package (R359, R450): time runs, and one Trunk Record entry that waits is written. In OFF
nothing runs. -/
def tick (s : State) : State := powered (fun s => { s with now := (s.now + 1000) % 2 ^ 64, trunk := drainTrunk s.trunk }) s

end Sys2Proof.Machine
end

