-- ==== Sys2Proof/Machine/Claims.lean ====
section
/-!
DEFINITION. Terms that the statements about messages, commands and records use: which command brings what, and when it is taken.
-/

namespace Sys2Proof.Machine
open Sys2Proof

/-- The command that brings a message of types 1 to 5 (R311). -/
def arrival (m : Msg) : Option Instr :=
  match m.type.toNat with
  | 1 => some (.midwayWrite m)
  | 2 => some (.midwayRead m)
  | 3 => some (.readrsp m)
  | 4 => some (.signalMessage m)
  | 5 => some (.ack m)
  | _ => none

/-- A message is for a defined endpoint of this package, whose network is live (R310, R316). -/
def forThis (m : Msg) (s : State) : Prop :=
  netLive s = true ∧ epCoord m.dst.toNat = s.coord ∧ endpointDefined (msgDie m) (epTile m.dst.toNat) = true

/-- A message is applied when it arrives (R310, R313, R317): intact, of this route epoch, the next of its flow, nothing held
behind it, and no queue it needs full (R86, R387). -/
def nextInFlow (m : Msg) (s : State) : Prop :=
  forThis m s ∧ msgIntact m = true ∧ m.repoch.toNat = s.epoch ∧ m.eseq = (s.flowRx (rxKey m)).expected ∧ (s.flowRx (rxKey m)).held = [] ∧
    mustWait s m = false

/-- State `u` once the flow of a message that has been applied expects the one after it: the sixteenth message not yet
acknowledged is acknowledged at once (R313). -/
def received (m : Msg) (u : State) : State :=
  let f := u.flowRx (rxKey m)
  let v := setRx (rxKey m) { f with expected := m.eseq + 1, owed := f.owed + 1 } u
  if 16 ≤ f.owed + 1 then sendAck (rxKey m) v else v

/-- The command that brings a REDUCE message to a die (R335). -/
def reduceCommand (d : Fin 4) (m : ReduceMsg) : Option Instr :=
  match m.op with
  | 1 => some (.codes d m)
  | 2 => some (.agreed d m)
  | 3 => some (.sum d m)
  | 4 => some (.onebit d m)
  | 5 => some (.hash d m)
  | 6 => some (.raw d m)
  | 7 => some (.resend d m)
  | _ => none

end Sys2Proof.Machine
end

