-- ==== Sys2Proof/Safety.lean ====
section
/-!
DEFINITION. What counts as safe, in the terms the claims use: when a step goes on, which commands act on a package in OFF,
and the forms that the state keeps.
-/

namespace Sys2Proof.Machine
open Sys2Proof

/-- The outcome is a next state. -/
def goesOn : Host.Outcome State Fault Refusal → Bool
  | .next _ => true
  | _ => false

/-- The commands that act while the supplies are off (R13, R408, R472, R511): pins, boot and test access. -/
def actsInOff : Instr → Bool
  | .pwrgdAssert _ => true
  | .pwrgdFall => true
  | .resetNAssert => true
  | .boot _ => true
  | .dieReportTimeout _ => true
  | .trstN => true
  | .bypass _ => true
  | .idcode _ => true
  | .samplePreload _ _ _ => true
  | .extest _ _ _ => true
  | .clamp _ => true
  | .trunkread _ _ _ => true
  | _ => false

/-- A tile instruction issues with its own effect (R46, R67, R68): it may issue now, its word is one R68 accepts at that
address, and nothing it reads is uncorrectable. -/
structure Issues (op : TileOp) (r : TileRef) (w : WaitField) (s : State) : Prop where
  can : canIssue op (tileKey r) w s = true
  ok : tileOpOk (keyDie (tileKey r)) (s.tile (tileKey r)).ia.toNat op = true
  sound : ∀ x ∈ footprint (s.tile (tileKey r)) op, x.wr = false → badSram s (tileBase (tileKey r) + x.lo) x.len = false

/-- The state in which the effect of an instruction that issues begins (R45, R85): its tokens are taken, it is counted,
and lines from outside that it touches without an ordering token hold free bytes. -/
def issued (op : TileOp) (r : TileRef) (w : WaitField) (s : State) : State :=
  raceLines (tileKey r) (footprint (s.tile (tileKey r)) op) (beginIssue op (tileKey r) w s)

/-- The address after the one a tile stands at, loops counted (R71). -/
def nextInOrder (t : Tile) : Nat := (afterAddr 4 t.ia.toNat t).1

/-- The tile after its sequencer has moved on in program order (R71). -/
def movedOn (t : Tile) : Tile := { (afterAddr 4 t.ia.toNat t).2 with ia := BitVec.ofNat 13 (nextInOrder t) }

/-- The outcome of an instruction that changes its own tile by `T` and moves on in program order (R71): beyond what issue
itself changes, nothing else changes. An order that leads past 8,191 is not meant (R518). -/
def changesTile (op : TileOp) (r : TileRef) (w : WaitField) (s : State) (T : Tile → Tile) (o : Host.Outcome State Fault Refusal) : Prop :=
  Issues op r w s → nextInOrder (T ((issued op r w s).tile (tileKey r))) < 8192 →
    o = .next (setTile (tileKey r) (movedOn (T ((issued op r w s).tile (tileKey r)))) (issued op r w s))

/-- The outcome of an instruction that goes to instruction address `a`, changing its tile by `T` besides. -/
def goesToAddress (op : TileOp) (r : TileRef) (w : WaitField) (s : State) (T : Tile → Tile) (a : BitVec 13)
    (o : Host.Outcome State Fault Refusal) : Prop :=
  Issues op r w s → o = .next (setTile (tileKey r) { T ((issued op r w s).tile (tileKey r)) with ia := a } (issued op r w s))

/-- Memory `m` as the effects of a tile see it. -/
def plainCtx (m : Memory) (t : Tile) (base : Nat) : TCtx := { mem := m, tile := t, base := base, free := 0 }

/-- One beat of an element-wise function (R47, R80): every lane is read, then every result written. -/
def beatMem (a : VopArgs) (lane : Nat → Nat → Nat → Nat) (t : Tile) (base : Nat) (m : Memory) (b : Nat) : Memory :=
  let c := plainCtx m t base
  let f := a.fmt.toNat
  let elems := fun (p : Fin 16) => tcElems c f (vopAddr a (t.ptr[p]).toNat b) (a.lanes.toNat + 1)
  (tcPutBits c ((List.range (a.lanes.toNat + 1)).map (fun i =>
    { na := 2 * vopAddr a (t.ptr[a.pd]).toNat b + i * fmtNibbles f, nibs := fmtNibbles f,
      bits := lane (nth (elems a.pa) i) (nth (elems (pbPtr a)) i) (nth (elems a.pd) i) }))).mem

/-- One beat of a lane reduction (R47): lane 0 as it stands, then every further lane upwards; one result. -/
def reduceMem (a : VopArgs) (lane : Nat → Nat → Nat) (t : Tile) (base : Nat) (m : Memory) (b : Nat) : Memory :=
  let c := plainCtx m t base
  let f := a.fmt.toNat
  let xs := tcElems c f (vopAddr a (t.ptr[a.pa]).toNat b) (a.lanes.toNat + 1)
  (tcWriteNib c (2 * localAddr ((t.ptr[a.pd]).toNat + b * (fmtNibbles f / 2))) (fmtNibbles f) (xs.tail.foldl lane (nth xs 0))).mem

/-- The counters that a tile instruction of die `d` counts in (R13): of its SRAM, its sequencer, its vector unit, its
arrays, its scale map and its prefetch, and the waits of the Trunk Record. -/
def counts (d q : Nat) : Bool :=
  q == 0x702008 || [0x8040, 0x8060, 0x8080, 0x80A0, 0x80E0, 0x8140].any (fun i => q / 256 == i + 0x400 * d)

/-- No dictionary register differs beyond the counters of a tile instruction of die `d`. -/
def countsOnly (d : Nat) (s t : State) : Prop := ∀ q, counts d q = false → t.reg q = s.reg q

/-- The outcome of an instruction that changes memory to `M` and, of its tile, the exception flags alone, moving on in
program order. Counters may have counted. -/
def computesInMemory (op : TileOp) (r : TileRef) (w : WaitField) (s : State) (M : Memory → Memory)
    (o : Host.Outcome State Fault Refusal) : Prop :=
  Issues op r w s → nextInOrder (s.tile (tileKey r)) < 8192 →
    ∃ t fl, o = .next t ∧ t.mem = M (issued op r w s).mem ∧
      t.tile (tileKey r) = movedOn { (issued op r w s).tile (tileKey r) with flags := fl } ∧
      (∀ j, j ≠ tileKey r → t.tile j = s.tile j) ∧ countsOnly r.die.val s t ∧
      t = { issued op r w s with mem := t.mem, tiles := t.tiles, regs := t.regs, bad := t.bad }

/-- The outcome of an element-wise vector function (R80, R81) whose lanes compute `lane` under the rounding direction. -/
def elementWise (vfn : BitVec 8) (a : VopArgs) (r : TileRef) (w : WaitField) (s : State) (lane : RMode → Nat → Nat → Nat → Nat)
    (o : Host.Outcome State Fault Refusal) : Prop :=
  let t := s.tile (tileKey r)
  computesInMemory (.vop vfn a) r w s (fun m => (List.range (a.cnt.toNat + 1)).foldl
    (beatMem a (lane (vecMode a.fmt.toNat (rdirOf t))) t (tileBase (tileKey r))) m) o

/-- The outcome of an instruction that works on its tile and on memory, moving on in program order: the tile `T` before
the sequencer moves and the memory meet `P`. Beyond what issue itself changes, only the tile, memory, counters and events
of the scale map change. -/
def worksOnTile (op : TileOp) (r : TileRef) (w : WaitField) (s : State) (P : Tile → Memory → Prop)
    (o : Host.Outcome State Fault Refusal) : Prop :=
  let u := issued op r w s
  ∃ t T, o = .next t ∧ P T t.mem ∧ t.tile (tileKey r) = movedOn T ∧ (∀ j, j ≠ tileKey r → t.tile j = s.tile j) ∧
    countsOnly r.die.val s t ∧
    t = { u with mem := t.mem, tiles := t.tiles, regs := t.regs, trunk := t.trunk, evBatch := t.evBatch, bad := t.bad,
                 step := { u.step with sat := t.step.sat, nonfin := t.step.nonfin } }

/-- A line of this package that an access can read: in a page that is backing of no paged region, and not uncorrectable
(R46, R255, R262). -/
def lineReadable (s : State) (a : Nat) : Prop :=
  match placeOf a with
  | .stack _ => bitAt (pageAttr s a) 3 = false ∧ badStack s a 64 = false
  | .window _ _ => badSram s a 64 = false
  | _ => False

/-- Memory after lines are copied one after another, from address `src i` to address `dst i`. -/
def copiedLines (src dst : Nat → Nat) (n : Nat) (m : Memory) : Memory :=
  (List.range n).foldl (fun m i => writeBytes m (dst i) (readBytes m (src i) 64)) m

/-- The outcome of a GET or PUT that opens transfer `x` and leaves memory `M` (R82): its tile's extended register takes
the value `e`, the tile moves on, and the fields of stream prefetch may change; nothing else does. -/
def opensTransfer (op : TileOp) (r : TileRef) (w : WaitField) (s : State) (x : Xfer) (xr : Fin 8) (e : BitVec 64) (M : Memory)
    (o : Host.Outcome State Fault Refusal) : Prop :=
  let u := issued op r w s
  let t := u.tile (tileKey r)
  ∃ v p n q, o = .next v ∧ v.mem = M ∧ v.tile (tileKey r) = movedOn { t with
      xreg := t.xreg.set xr e, nextXfer := t.nextXfer + 1, xfers := t.xfers ++ [{ x with id := t.nextXfer }],
      prefetch := p, pfUsed := n, streams := q } ∧
    (∀ j, j ≠ tileKey r → v.tile j = s.tile j) ∧ countsOnly r.die.val s v ∧
    v = { u with mem := v.mem, bad := v.bad, tiles := v.tiles, regs := v.regs }

/-- An extended register advanced by a count of 64-byte units (R73): its upper 20 bits stay. -/
def xregAdvanced (v : BitVec 64) (n : Int) : BitVec 64 := v.extractLsb' 44 20 ++ (v.extractLsb' 0 44 + BitVec.ofInt 44 (64 * n))

/-- The outcome of a SAMPLE or TBL whose descriptor can be worked off at once (R88): every line is there and readable, it
raises no event, sends no gradient entry, merges nothing and stores in this package alone. Its outputs and stores are
written, its transfer is opened and waits for its end, and its counters have counted. -/
def runsSlice (op : TileOp) (fn ctx : Nat) (ps : Fin 16) (tk : Option (Fin 64)) (r : TileRef) (w : WaitField) (s : State)
    (o : Host.Outcome State Fault Refusal) : Prop :=
  let k := tileKey r
  let u := issued op r w s
  let p := ((s.tile k).ptr[ps]).toNat
  let j := sliceJobAt k fn ps ctx (opBits op w) u
  let rs := sliceRanges { s := u, remote := [] } k p j
  let n := (u.tile k).nextXfer
  let x := fun (z : Option SliceJob) => { sliceXfer fn tk rs z with id := n }
  let q := setTile k { u.tile k with nextXfer := n + 1, xfers := (u.tile k).xfers ++ [x (some j)] } u
  ∀ out, Issues op r w s → sliceReady s k fn ps ctx = true → nextInOrder (s.tile k) < 8192 →
    (s.tile k).outside = [] → (∀ y ∈ (s.tile k).xfers, y.id ≠ n) →
    evalSlice { s := q, remote := [] } k p j = .ok (some out) →
    out.evs = [] → out.entries = [] → out.merges = [] → (∀ y ∈ out.stores, isRemote y.1 = false) →
    ∃ v, o = .next v ∧
      v.mem = out.stores.foldl (fun m y => writeBytes m (wordAddr y.1) y.2)
        (out.puts.foldl (fun m y => writeBytes m (tileBase k + y.1) y.2) u.mem) ∧
      v.tile k = movedOn { u.tile k with nextXfer := n + 1, xfers := (u.tile k).xfers ++ [x none] } ∧
      (∀ i, i ≠ k → v.tile i = s.tile i) ∧
      (∀ a, counts r.die.val a = false → (∀ y ∈ out.cnt, dieKey r.die.val y.1 ≠ a) → v.reg a = s.reg a) ∧
      v = { u with mem := v.mem, bad := v.bad, tiles := v.tiles, regs := v.regs, tables := v.tables }

/-- An event of the code is among the records not yet in a frame (R405). -/
def raised (code : Nat) (s : State) : Prop := ∃ e ∈ s.evBatch, e.code = code

/-- A package acts on a decision (R238, R339): the coordinator on its own, another package in RUNNING that has voted on the
one for its attempt, and a spare on every one for its attempt. -/
def obeys (action : Nat) (d : Decision) (s : State) : Prop :=
  d.action = action ∧
  ((s.life = .running ∧ s.step.phase = .voted ∧ voteParent s = none ∧ s.step.decision = some d) ∨
   (s.life = .running ∧ s.step.phase = .voted ∧ voteParent s ≠ none ∧ d.step = s.stepNo ∧ d.attempt = s.step.attempt % 16) ∨
   (s.life = .spare ∧ (s.step.phase = .attempt ∨ s.step.phase = .voted) ∧ d.step = s.stepNo ∧ d.attempt = s.step.attempt % 16))

/-- How long the lists are that hold a fixed number of like things: the early-arrival queues, step tags and Ringmasters of the
dies, the Midway ports, the Ethernet ports, and the two ends of each Tightrope edge (R15, R17, R86, R352, R379, R386). -/
def partSizes (s : State) : List Nat × List Nat :=
  ([s.early.length, s.dieTags.length, s.rings.length, s.ports.length, s.host.ports.length], s.edges.map (fun x => x.ends.length))

/-- The canonical form: the memory and the MRAM list rising addresses and no byte that an unlisted address reads as, the
register and tile maps list rising keys, and the lists of like parts have one member for each part. Equal contents are then
equal data. -/
structure Canonical (s : State) : Prop where
  mem : memWf s.mem = true
  mram : memWf s.trunk.mram = true
  regs : smSorted s.regs = true
  tiles : smSorted s.tiles = true
  sizes : partSizes s = ([4, 4, 4, 16, 8], [2, 2, 2, 2])

/-- The canonical form of the memory that a tile operation works on. -/
def CtxCanonical (c : TCtx) : Prop := memWf c.mem = true

/-- The canonical form of the state that a boot stage answers, whether the boot goes on from it or ends in it. -/
def StageCanonical (r : Stage) : Prop := Canonical (stageState r)

end Sys2Proof.Machine
end

