-- ==== Sys2Proof/WellFormed.lean ====
section
/-!
DEFINITION. Which commands are well formed: what the encodings of the spec can carry and the checks of R68 that do not
depend on where an instruction stands.
-/

namespace Sys2Proof
open Sys2Proof.Machine

/-- A slot of a flit (R280, R297): KIND is not the reserved value, and a slot that is not idle holds 64 bytes. -/
def slotOk (vcs : Nat) (x : Slot) : Bool :=
  x.kind != 3 && decide (x.vc.toNat < vcs) && (x.kind == 0 || x.data.length == 64)

/-- A flit with at most `slots` message slots, `vcs` channels and at most `most` credits returned per channel. -/
def flitOk (slots vcs most : Nat) (f : Flit) : Bool :=
  decide (f.slots.length ≤ slots) && f.slots.all (slotOk vcs) && decide (f.credits.length ≤ vcs)
    && f.credits.all (fun c => decide (c ≤ most))

/-- A message (R310): LEN data slots, 0 to 64, of 64 bytes each, and the type
of R311 that the command serves. -/
def msgOk (type : Nat) (m : Msg) : Bool :=
  decide (m.data.length % 64 = 0) && decide (m.data.length ≤ 4096) && m.type.toNat == type

/-- A vote's fields fit the layout of R235. -/
def voteOk (v : Vote) : Bool :=
  decide (v.step < 2 ^ 48) && decide (v.attempt < 16) && decide (v.cause ≤ 10) && decide (v.invalid < 2 ^ 32)
    && (v.abort || v.cause == 0)

/-- A decision's fields fit the layout of R238. -/
def decisionOk (d : Decision) (action : Nat) : Bool :=
  decide (d.step < 2 ^ 48) && decide (d.attempt < 16) && decide (d.action = action) && decide (d.cause ≤ 10)

/-- A REDUCE message's fields fit the BODY of R335, and its OP is the command's. -/
def reduceOk (op : Nat) (m : ReduceMsg) : Bool := m.op == op && decide (m.data.length % 64 = 0) && decide (m.data.length ≤ 4096)

/-- What arrives at a tile (R86): a line is 64 bytes. -/
def itemOk : TileItem → Bool
  | .line _ bytes => bytes.length == 64
  | .token _ _ => true

/-- An access of a control core (R16): a store writes 1 to 64 bytes. -/
def coreAccessOk : CoreAccess → Bool
  | .load _ => true
  | .store bytes => decide (1 ≤ bytes.length) && decide (bytes.length ≤ 64)
  | .fetch _ => true

/-- What a scrubber found: no word is both corrected and uncorrectable. -/
def scrubOk {α : Type} [BEq α] (fixed broken : List α) : Bool := fixed.all (fun x => !broken.contains x)

/-- The format check of a vector function (R81), by its VFN. -/
def vopOk (vfn : Nat) (a : VopArgs) : Bool := vopFmtOk vfn a

/-- A well-formed command. -/
def WellFormed : Instr → Bool
  | .nop _ _ => true
  | .loop _ _ _ _ _ => true
  | .jump _ _ _ => true
  | .call _ _ _ => true
  | .ret _ _ => true
  | .brm _ _ _ _ _ => true
  | .wait _ _ _ cnt => cnt != 0
  | .stepend _ _ => true
  | .swap _ _ _ => true
  | .setp _ _ _ _ => true
  | .addp _ _ _ _ => true
  | .setx _ _ _ _ _ => true
  | .addx _ _ _ _ => true
  | .ldw _ _ a => ldwOk a
  | .mm _ _ a => mmOk a
  | .gopen _ _ a => gopenOk a
  | .gclose _ _ a => gcloseOk a
  | .gspill _ _ a => gspillOk a
  | .gfill _ _ a => gspillOk a
  | .gdrop _ _ a => gdropOk a
  | .mov _ _ a => vopOk 0x00 a
  | .add _ _ a => vopOk 0x01 a
  | .sub _ _ a => vopOk 0x02 a
  | .mul _ _ a => vopOk 0x03 a
  | .fma _ _ a => vopOk 0x04 a
  | .max _ _ a => vopOk 0x05 a
  | .min _ _ a => vopOk 0x06 a
  | .abs _ _ a => vopOk 0x07 a
  | .neg _ _ a => vopOk 0x08 a
  | .cmpgt _ _ a => vopOk 0x09 a
  | .cvt _ _ a => vopOk 0x10 a
  | .rsum _ _ a => vopOk 0x18 a
  | .rmax _ _ a => vopOk 0x19 a
  | .exp _ _ a => vopOk 0x20 a
  | .exp2 _ _ a => vopOk 0x21 a
  | .log _ _ a => vopOk 0x22 a
  | .log2 _ _ a => vopOk 0x23 a
  | .rcp _ _ a => vopOk 0x24 a
  | .sqrt _ _ a => vopOk 0x25 a
  | .rsqrt _ _ a => vopOk 0x26 a
  | .tanh _ _ a => vopOk 0x27 a
  | .sigm _ _ a => vopOk 0x28 a
  | .erf _ _ a => vopOk 0x29 a
  | .sin _ _ a => vopOk 0x2A a
  | .cos _ _ a => vopOk 0x2B a
  | .ldq _ _ a => vopOk 0x30 a
  | .get _ _ a => !a.dte
  | .put _ _ _ => true
  | .signal _ _ a => a.cnt != 0 && decide (a.ep.toNat % 1024 < 776)
  | .sample r _ a => decide (12 * r.die.val ≤ a.ctx.toNat) && decide (a.ctx.toNat < 12 * r.die.val + 12)
  | .gather _ _ _ => true
  | .gatherAndPool _ _ _ => true
  | .scatterAdd _ _ _ => true
  | .sortAndMerge _ _ _ => true
  | .gradientEntry _ _ _ _ _ vals _ => decide (1 ≤ vals.length) && decide (vals.length ≤ 1024)
  | .getComplete _ _ => true
  | .putComplete _ _ => true
  | .swapComplete _ _ => true
  | .descriptorComplete _ _ => true
  | .tokenArrival _ _ item => itemOk item
  | .pageInComplete _ => true
  | .stepStart _ => true
  | .forwardBarrier => true
  | .stepWatchdogExpiry => true
  | .missingDecision => true
  | .packageVote => true
  | .vote _ v => voteOk v
  | .commit d => decisionOk d 1
  | .rerun d => decisionOk d 2
  | .skip d => decisionOk d 3
  | .holdDecision d => decisionOk d 4
  | .retirement => true
  | .servingStepInterval => true
  | .releaseWaitExpiry _ => true
  | .tightropeFlit _ _ f => flitOk 15 2 480 f
  | .tightropeLinkReset _ _ => true
  | .tightropeTraining _ => true
  | .halfMaskAdvertisement _ _ _ => true
  | .advertisementTimeout _ => true
  | .handOverReport _ _ => true
  | .retrainSelectedEdge _ => true
  | .midwayFlit _ f _ _ => flitOk 19 6 1023 f
  | .codewordLockLoss _ => true
  | .midwayTraining _ _ _ => true
  | .retrainPort _ => true
  | .messageForward _ _ => true
  | .midwayWrite m => msgOk 1 m
  | .midwayRead m => msgOk 2 m
  | .readrsp m => msgOk 3 m
  | .signalMessage m => msgOk 4 m
  | .ack m => msgOk 5 m
  | .ackTimer _ _ => true
  | .endToEndTimeout _ _ => true
  | .probe _ _ => true
  | .route _ _ _ => true
  | .reductionStart => true
  | .codes _ m => reduceOk 1 m
  | .agreed _ m => reduceOk 2 m
  | .sum _ m => reduceOk 3 m
  | .raw _ m => reduceOk 6 m
  | .onebit _ m => reduceOk 4 m
  | .hash _ m => reduceOk 5 m
  | .resend _ m => reduceOk 7 m
  | .catcherDeadline _ _ _ => true
  | .runReShard => true
  | .reShardSwitch => true
  | .doorbell _ => true
  | .nopRecord => true
  | .input => true
  | .batch => true
  | .decode => true
  | .replace => true
  | .releaseRecord => true
  | .sourceCopyComplete _ _ => true
  | .drainEpochEnd _ => true
  | .bankCopyComplete _ _ _ => true
  | .rdmaWrite _ _ _ _ _ _ => true
  | .rdmaRead _ _ _ _ _ _ => true
  | .send _ _ _ _ => true
  | .inputReadComplete _ _ _ => true
  | .journalAck _ _ _ => true
  | .blockLockLoss _ => true
  | .blockLockRegain _ => true
  | .pauseReceived _ _ _ => true
  | .receiveFifoThreshold _ _ _ => true
  | .pausePersistence _ _ => true
  | .ceMarkedPacket _ _ => true
  | .congestionNotificationPacket _ _ => true
  | .rateRecovery _ _ => true
  | .ptpMessage _ _ _ _ => true
  | .holdover => true
  | .next _ _ => true
  | .post _ _ _ => true
  | .done _ _ => true
  | .corePortWait _ _ _ => true
  | .yield _ _ => true
  | .sleep _ _ _ => true
  | .sleepExpiry _ _ => true
  | .thread _ _ _ _ => true
  | .flow _ _ _ _ => true
  | .machineCheck _ _ _ => true
  | .tarvyRead _ frame => decide (frame.length ≤ 65507)
  | .tarvyWrite _ frame => decide (frame.length ≤ 65507)
  | .echo _ frame => decide (frame.length ≤ 65507)
  | .eventAck _ frame => decide (frame.length ≤ 65507)
  | .eventFrameSend => true
  | .eventFrameResend _ => true
  | .snapshotRelease _ _ => true
  | .stagingDiscard _ _ => true
  | .attest _ => true
  | .load _ => true
  | .run _ => true
  | .hold _ => true
  | .resume _ => true
  | .release _ => true
  | .adopt _ => true
  | .standby _ => true
  | .reset _ => true
  | .clearCounters _ _ => true
  | .retireLogicalTile _ => true
  | .runTestSuites _ => true
  | .testRunComplete _ _ => true
  | .runFullPack _ => true
  | .fullRunComplete => true
  | .galleryTestComplete _ _ => true
  | .attestationNonce _ => true
  | .updateObject _ => true
  | .ownerRecord _ _ => true
  | .managementRecord _ => true
  | .referenceOutput => true
  | .registerWrite _ _ _ => true
  | .captureComplete => true
  | .drained _ => true
  | .complete _ => true
  | .unreachable _ => true
  | .reachable _ => true
  | .adopting _ => true
  | .reject _ => true
  | .query _ => true
  | .report _ => true
  | .target _ => true
  | .restored _ => true
  | .sramScrub _ fixed broken => scrubOk fixed broken
  | .patrolScrub fixed broken => scrubOk fixed broken
  | .budgetSetting => true
  | .budgetEstimate _ _ => true
  | .budgetTimeout _ => true
  | .regionSample _ => true
  | .valveControl _ => true
  | .regulatorTelemetry _ => true
  | .alertN _ _ => true
  | .avsbusTimeout _ => true
  | .coolantFlowLow => true
  | .coolantFlowCritical => true
  | .inletTemperatureHigh => true
  | .profileDeparture => true
  | .holdupRead _ => true
  | .pwrgdAssert _ => true
  | .pwrgdFall => true
  | .resetNAssert => true
  | .boot _ => true
  | .dieReportTimeout _ => true
  | .trstN => true
  | .bypass _ => true
  | .idcode _ => true
  | .samplePreload _ _ _ => true
  | .extest _ _ _ => true
  | .clamp _ => true
  | .trunkread _ _ _ => true
  | .journalWaitExpiry => true
  | .midwayTrainingExpiry _ => true
  | .queuePairErrorState _ _ => true
  | .controlCoreAccess _ _ _ _ a => coreAccessOk a
  | .prefetchReadComplete _ _ _ => true
  | .commandOutcome => true
  | .updateVerificationComplete => true
  | .m0LinkLoss => true
  | .m0LinkRegain => true
  | .telemetryTimer _ _ => true

end Sys2Proof
end

