-- ==== Sys2Proof/Certificates/Slice0/Obligations.lean ====
section
/-!
DEFINITION. The statements about the model.
-/

open Sys2Proof
open Sys2Proof.Machine

/-! ### The command queue -/

/-- Step takes the command at the front of the queue: the model's own rule for a block. -/
def Obligations.StepRunsFront : Prop :=
  ∀ (c : Instr) (rest : List Instr) (s : State), step { s with pending := c :: rest } = exec c { s with pending := rest }

/-! ### Tile instructions -/

/-- NOP, WAIT, LOOP, SETP, ADDP, SETX and ADDX (R70, R71, R73, R85): each changes its own tile as given and goes on in program
order; nothing else changes. -/
def Obligations.SequenceAndAddress : Prop :=
  ∀ (r : TileRef) (w : WaitField) (s : State),
    changesTile .nop r w s id (exec (.nop r w) s) ∧
    (∀ tk cnt, changesTile (.wait tk cnt) r w s id (exec (.wait r w tk cnt) s)) ∧
    (∀ lvl cnt stop, changesTile (.loop lvl cnt stop) r w s
      (fun t => { t with loops := t.loops.set lvl { active := true, left := cnt.toNat + 1, start := t.ia + 1, stop := stop } })
      (exec (.loop r w lvl cnt stop) s)) ∧
    (∀ pn imm, changesTile (.setp pn imm) r w s (fun t => { t with ptr := t.ptr.set pn imm }) (exec (.setp r w pn imm) s)) ∧
    (∀ pn simm, changesTile (.addp pn simm) r w s (fun t => { t with ptr := t.ptr.set pn (t.ptr[pn] + simm) })
      (exec (.addp r w pn simm) s)) ∧
    (∀ xn sl imm, ∃ f : BitVec 64 → BitVec 64,
      (∀ v (j : Fin 4), (f v).extractLsb' (16 * j.val) 16 = if j = sl then imm else v.extractLsb' (16 * j.val) 16) ∧
      changesTile (.setx xn sl imm) r w s (fun t => { t with xreg := t.xreg.set xn (f t.xreg[xn]) }) (exec (.setx r w xn sl imm) s)) ∧
    (∀ xn simm, changesTile (.addx xn simm) r w s
      (fun t => { t with xreg := t.xreg.set xn (t.xreg[xn].extractLsb' 44 20 ++ (t.xreg[xn].extractLsb' 0 44 + BitVec.ofInt 44 (64 * simm.toInt))) })
      (exec (.addx r w xn simm) s))

/-- JUMP, BRM, CALL and RET (R70, R72): where each goes, and the call list. -/
def Obligations.Branches : Prop :=
  ∀ (r : TileRef) (w : WaitField) (s : State),
    (∀ t, goesToAddress (.jump t) r w s id t (exec (.jump r w t) s)) ∧
    (∀ mbit sense t, (s.tile (tileKey r)).mode.getLsbD mbit.val = sense →
      goesToAddress (.brm mbit sense t) r w s id t (exec (.brm r w mbit sense t) s)) ∧
    (∀ mbit sense t, (s.tile (tileKey r)).mode.getLsbD mbit.val ≠ sense →
      changesTile (.brm mbit sense t) r w s id (exec (.brm r w mbit sense t) s)) ∧
    (∀ t, (s.tile (tileKey r)).calls.length < 4 → goesToAddress (.call t) r w s
      (fun x => { (afterAddr 4 x.ia.toNat x).2 with calls := x.calls ++ [nextInOrder x] }) t (exec (.call r w t) s)) ∧
    (∀ a : BitVec 13, (s.tile (tileKey r)).calls.getLast? = some a.toNat →
      goesToAddress .ret r w s (fun x => { x with calls := x.calls.dropLast }) a (exec (.ret r w) s))

/-- The element-wise functions 0x00 to 0x09, 0x24 and 0x25 (R80): each lane of each beat is the function of its operands. -/
def Obligations.VectorArithmetic : Prop :=
  ∀ (r : TileRef) (w : WaitField) (a : VopArgs) (s : State),
    let f := a.fmt.toNat
    elementWise 0x00 a r w s (fun _ x _ _ => x) (exec (.mov r w a) s) ∧
    elementWise 0x01 a r w s (fun m x y z => (laneAdd f false m x y z).1.bits) (exec (.add r w a) s) ∧
    elementWise 0x02 a r w s (fun m x y z => (laneAdd f true m x y z).1.bits) (exec (.sub r w a) s) ∧
    elementWise 0x03 a r w s (fun m x y _ => (opMul (vopFloat f) m x y).bits) (exec (.mul r w a) s) ∧
    elementWise 0x04 a r w s (fun m x y z => (opFma (vopFloat f) m x y z).bits) (exec (.fma r w a) s) ∧
    elementWise 0x05 a r w s (fun _ x y z => (laneMaxMin f true x y z).1.bits) (exec (.max r w a) s) ∧
    elementWise 0x06 a r w s (fun _ x y z => (laneMaxMin f false x y z).1.bits) (exec (.min r w a) s) ∧
    elementWise 0x07 a r w s (fun _ x y z => (laneAbs f x y z).1.bits) (exec (.abs r w a) s) ∧
    elementWise 0x08 a r w s (fun _ x y z => (laneNeg f x y z).1.bits) (exec (.neg r w a) s) ∧
    elementWise 0x09 a r w s (fun _ x y _ => (opCmpGt (vopFloat f) x y).bits) (exec (.cmpgt r w a) s) ∧
    elementWise 0x24 a r w s (fun m x _ _ => (opRcp (vopFloat f) m x).bits) (exec (.rcp r w a) s) ∧
    elementWise 0x25 a r w s (fun m x _ _ => (opSqrt (vopFloat f) m x).bits) (exec (.sqrt r w a) s)

/-- The special functions 0x20 to 0x2B (R81): each lane of each beat is the function of its operand. -/
def Obligations.VectorSpecial : Prop :=
  ∀ (r : TileRef) (w : WaitField) (a : VopArgs) (s : State),
    let f := vopFloat a.fmt.toNat
    elementWise 0x20 a r w s (fun m x _ _ => (opSpecial 0 f m x).bits) (exec (.exp r w a) s) ∧
    elementWise 0x21 a r w s (fun m x _ _ => (opSpecial 1 f m x).bits) (exec (.exp2 r w a) s) ∧
    elementWise 0x22 a r w s (fun m x _ _ => (opSpecial 2 f m x).bits) (exec (.log r w a) s) ∧
    elementWise 0x23 a r w s (fun m x _ _ => (opSpecial 3 f m x).bits) (exec (.log2 r w a) s) ∧
    elementWise 0x26 a r w s (fun m x _ _ => (opSpecial 6 f m x).bits) (exec (.rsqrt r w a) s) ∧
    elementWise 0x27 a r w s (fun m x _ _ => (opSpecial 7 f m x).bits) (exec (.tanh r w a) s) ∧
    elementWise 0x28 a r w s (fun m x _ _ => (opSpecial 8 f m x).bits) (exec (.sigm r w a) s) ∧
    elementWise 0x29 a r w s (fun m x _ _ => (opSpecial 9 f m x).bits) (exec (.erf r w a) s) ∧
    elementWise 0x2A a r w s (fun m x _ _ => (opSpecial 10 f m x).bits) (exec (.sin r w a) s) ∧
    elementWise 0x2B a r w s (fun m x _ _ => (opSpecial 11 f m x).bits) (exec (.cos r w a) s)

/-- RSUM and RMAX (R80): lane 0 as it stands, then each further lane in ascending order, one result a beat. -/
def Obligations.VectorReductions : Prop :=
  ∀ (r : TileRef) (w : WaitField) (a : VopArgs) (s : State),
    let t := s.tile (tileKey r)
    let f := vopFloat a.fmt.toNat
    let beats := List.range (a.cnt.toNat + 1)
    computesInMemory (.vop 0x18 a) r w s
      (fun m => beats.foldl (reduceMem a (fun x y => (opAdd f (rdirOf t) false x y).bits) t (tileBase (tileKey r))) m) (exec (.rsum r w a) s) ∧
    computesInMemory (.vop 0x19 a) r w s
      (fun m => beats.foldl (reduceMem a (fun x y => (opMaxMin f true x y).bits) t (tileBase (tileKey r))) m) (exec (.rmax r w a) s)

/-- LDW (R74, R76, R77): the plane half of each enabled array takes the weights read, expanded; the pointer is postincremented. -/
def Obligations.LoadWeights : Prop :=
  ∀ (r : TileRef) (w : WaitField) (a : LdwArgs) (s : State),
    let k := tileKey r
    let t := (issued (.ldw a) r w s).tile k
    let m := (issued (.ldw a) r w s).mem
    Issues (.ldw a) r w s → nextInOrder (s.tile k) < 8192 →
    worksOnTile (.ldw a) r w s (fun T M => M = m ∧
      T = { t with ptr := t.ptr.set a.pa (t.ptr[a.pa] + BitVec.ofInt 21 (8 * a.pinc.toInt)), planes := T.planes } ∧
      ∃ p : Plane, p.loaded = true ∧ p.fmt = a.fw.toNat ∧
        p.elems = ((List.range 16).flatMap (fun i => tcElems (plainCtx m t (tileBase k)) a.fw.toNat
          (localAddr ((t.ptr[a.pa]).toNat + i * a.stride.toNat * 8)) 16)).map (fun e => (expandElem t a.fw.toNat e).1) ∧
        ∀ (j : Fin 4) (half : Bool), T.planes[planeIx j half] =
          if a.amask.getLsbD j.val = true ∧ half = a.plane then p else t.planes[planeIx j half])
      (exec (.ldw r w a) s)

/-- MM (R74, R75): every open group of the range takes the sum of its value and the row products of its array; no other
group changes; the pointer is postincremented. -/
def Obligations.MatrixMultiply : Prop :=
  ∀ (r : TileRef) (w : WaitField) (a : MmArgs) (s : State),
    let k := tileKey r
    let t := (issued (.mm a) r w s).tile k
    let m := (issued (.mm a) r w s).mem
    let js := enabledArrays a.amask
    let n := a.nrow.toNat + 1
    Issues (.mm a) r w s → nextInOrder (s.tile k) < 8192 → (∀ j ∈ js, (s.tile k).planes[planeIx j a.plane].loaded = true) →
    (∀ x < js.length * n, (smFind (s.tile k).groups (a.gbase.toNat + x)).isSome = true) →
    worksOnTile (.mm a) r w s (fun T M => M = m ∧
      T = { t with ptr := t.ptr.set a.pa (t.ptr[a.pa] + BitVec.ofInt 21 (8 * a.pinc.toInt)), groups := T.groups } ∧
      (∀ g, ¬(a.gbase.toNat ≤ g ∧ g < a.gbase.toNat + js.length * n) → smFind T.groups g = smFind t.groups g) ∧
      ∀ x < js.length * n, ∃ j, js[x / n]? = some j ∧ smFind T.groups (a.gbase.toNat + x) = some ((List.range 16).map (fun i =>
        encW40 (addNum .even (decW40 ((smGetD t.groups (a.gbase.toNat + x) []).getD i 0))
          ((rowUpdates (plainCtx m t (tileBase k)) t.planes[planeIx j a.plane] a.fx.toNat
            (localAddr ((t.ptr[a.pa]).toNat + x * a.stride.toNat * 8))).2.getD i (natNum 0))))))
      (exec (.mm r w a) s)

/-- GOPEN, GFILL, GSPILL, GDROP and GCLOSE (R79): the groups of the range open or close with the values given, and no
other group changes. -/
def Obligations.Groups : Prop :=
  ∀ (r : TileRef) (w : WaitField) (a : GroupArgs) (s : State),
    let k := tileKey r
    let G := (s.tile k).groups
    let lo := a.gbase.toNat
    let n := a.gcnt.toNat + 1
    let others := fun (T : Tile) => ∀ g, ¬(lo ≤ g ∧ g < lo + n) → smFind T.groups g = smFind G g
    let closed := fun (T : Tile) => others T ∧ ∀ i < n, smFind T.groups (lo + i) = none
    let isOpen := ∀ i < n, (smFind G (lo + i)).isSome = true
    let isClosed := ∀ i < n, smFind G (lo + i) = none
    let row := fun (t : Tile) (i : Nat) => localAddr ((t.ptr[a.pa]).toNat + i * a.stride.toNat * 8)
    nextInOrder (s.tile k) < 8192 →
    (Issues (.gopen a) r w s → isClosed → worksOnTile (.gopen a) r w s (fun T M => M = (issued (.gopen a) r w s).mem ∧
        (∃ fl, T = { (issued (.gopen a) r w s).tile k with groups := T.groups, flags := fl }) ∧ others T ∧
        ∀ i < n, ∃ vs, smFind T.groups (lo + i) = some vs ∧ vs.length = 16 ∧ (a.mode = 0 → vs = List.replicate 16 0))
      (exec (.gopen r w a) s)) ∧
    (Issues (.gfill a) r w s → isClosed → worksOnTile (.gfill a) r w s (fun T M => M = (issued (.gfill a) r w s).mem ∧
        T = { (issued (.gfill a) r w s).tile k with groups := T.groups } ∧ others T ∧
        ∀ i < n, smFind T.groups (lo + i) = some ((List.range 16).map (fun e => BitVec.ofNat 40 (leNat
          (tcRead (plainCtx M ((issued (.gfill a) r w s).tile k) (tileBase k)) (row ((issued (.gfill a) r w s).tile k) i + 5 * e) 5)))))
      (exec (.gfill r w a) s)) ∧
    (Issues (.gspill a) r w s → isOpen → worksOnTile (.gspill a) r w s (fun T M =>
        T = { (issued (.gspill a) r w s).tile k with groups := T.groups } ∧ closed T ∧
        M = (List.range n).foldl (fun m i => (tcWrite (plainCtx m ((issued (.gspill a) r w s).tile k) (tileBase k)) (row ((issued (.gspill a) r w s).tile k) i)
          ((smGetD G (lo + i) []).flatMap (fun v => leBytes 5 v.toNat))).mem) (issued (.gspill a) r w s).mem)
      (exec (.gspill r w a) s)) ∧
    (Issues (.gdrop a) r w s → isOpen → worksOnTile (.gdrop a) r w s (fun T M => M = (issued (.gdrop a) r w s).mem ∧
        T = { (issued (.gdrop a) r w s).tile k with groups := T.groups } ∧ closed T)
      (exec (.gdrop r w a) s)) ∧
    (Issues (.gclose a) r w s → isOpen → worksOnTile (.gclose a) r w s (fun T M =>
        (∃ fl en, T = { (issued (.gclose a) r w s).tile k with groups := T.groups, flags := fl, encore := en }) ∧ closed T ∧
        (∀ x, ¬(tileBase k ≤ x ∧ x < tileBase k + sramSize) → readByte M x = readByte (issued (.gclose a) r w s).mem x) ∧
        (n = 1 → a.mode.getLsbD 1 = false → a.fmt.toNat ≠ 0xA → a.fmt.toNat ≠ 2 →
          M = (tcPutBits (plainCtx (issued (.gclose a) r w s).mem ((issued (.gclose a) r w s).tile k) (tileBase k)) ((List.range 16).map (fun e =>
            { na := (2 * row ((issued (.gclose a) r w s).tile k) 0 + e * fmtNibbles a.fmt.toNat) % (2 * sramSize), nibs := fmtNibbles a.fmt.toNat,
              bits := (convTo a.fmt.toNat .even (satFlag ((issued (.gclose a) r w s).tile k)) false (decW40 ((smGetD G lo []).getD e 0))).bits }))).mem))
      (exec (.gclose r w a) s))

/-- CVT and LDQ (R80, R82): a conversion between formats that use no scale map writes each element converted; a table load
reads the table named by the format. -/
def Obligations.ConvertAndTables : Prop :=
  ∀ (r : TileRef) (w : WaitField) (a : VopArgs) (s : State),
    let k := tileKey r
    nextInOrder (s.tile k) < 8192 →
    (Issues (.vop 0x10 a) r w s →
      let u := issued (.vop 0x10 a) r w s
      let t := u.tile k
      let f := a.fmt.toNat
      let g := a.pb.toNat
      let c := plainCtx u.mem t (tileBase k)
      worksOnTile (.vop 0x10 a) r w s (fun T M =>
        (∃ fl en, T = { t with flags := fl, encore := en }) ∧
        (∀ x, ¬(tileBase k ≤ x ∧ x < tileBase k + sramSize) → readByte M x = readByte u.mem x) ∧
        (f ≠ g → f ≠ 0xA → g ≠ 0xA → g ≠ 2 → M = (tcPutBits c ((List.range ((a.lanes.toNat + 1) * (a.cnt.toNat + 1))).map (fun i =>
          let raw := tcReadNib c (2 * (t.ptr[a.pa]).toNat + i * fmtNibbles f) (fmtNibbles f)
          let snan := match fmtFloat f with
            | some ff => isSignalling ff raw
            | none => false
          { na := (2 * (t.ptr[a.pd]).toNat + i * fmtNibbles g) % (2 * sramSize), nibs := fmtNibbles g,
            bits := (convTo g (vecMode g (rdirOf t)) (satFlag t) snan (decodeElem f raw 0x7F)).bits }))).mem))
        (exec (.cvt r w a) s)) ∧
    (Issues (.vop 0x30 a) r w s → ((s.tile k).ptr[a.pa]).toNat % 64 = 0 →
      let u := issued (.vop 0x30 a) r w s
      worksOnTile (.vop 0x30 a) r w s (fun T M => M = u.mem ∧
        T = { u.tile k with tables := (u.tile k).tables.set (tableIx a.fmt.toNat) (tcRead (plainCtx u.mem (u.tile k) (tileBase k))
          ((s.tile k).ptr[a.pa]).toNat (tableSize a.fmt.toNat)) })
        (exec (.ldq r w a) s))

/-- GET and PUT inside the package (R82, R83). -/
def Obligations.GetAndPut : Prop :=
  ∀ (r : TileRef) (w : WaitField) (a : XferArgs) (s : State),
    let k := tileKey r
    let x := (s.tile k).xreg[a.xr]
    let addr := wordAddr (xword s x)
    let lines := a.len.toNat + 1
    let line := fun i => (addr + 64 * i) % 2 ^ 44
    let sram := fun i => tileBase k + localAddr (((s.tile k).ptr[a.pl]).toNat + 64 * i)
    let tk := if a.lte then some a.ltk else none
    ((s.tile k).ptr[a.pl]).toNat % 64 = 0 → isRemote (xword s x) = false → inRegions (s.pager k) (xword s x) = false →
    nextInOrder (s.tile k) < 8192 →
    (Issues (.get a) r w s → isShardHeader s (xword s x) = false → (∀ i < lines, lineReadable (issued (.get a) r w s) (line i)) →
      opensTransfer (.get a) r w s { id := 0, kind := .get, lo := ((s.tile k).ptr[a.pl]).toNat, len := 64 * lines, writes := true, tk := tk }
        a.xr (xregAdvanced x a.xinc.toInt) (copiedLines line sram lines (issued (.get a) r w s).mem) (exec (.get r w a) s)) ∧
    (Issues (.put a) r w s → a.dte = false → (∀ i < lines, line i < stackEnd ∧ bitAt (pageAttr s (line i)) 3 = false) →
      opensTransfer (.put a) r w s { id := 0, kind := .put, lo := ((s.tile k).ptr[a.pl]).toNat, len := 64 * lines, writes := false, tk := tk }
        a.xr (xregAdvanced x a.xinc.toInt) (copiedLines sram line lines (issued (.put a) r w s).mem) (exec (.put r w a) s))

/-- SIGNAL (R84, R328). -/
def Obligations.Signal : Prop :=
  ∀ (r : TileRef) (w : WaitField) (a : SignalArgs) (s : State),
    let k := tileKey r
    let u := issued (.signal a) r w s
    let ep := a.ep.toNat
    let dst := epDie ep * 768 + epTile ep
    let goes := fun (v : State) => exec (.signal r w a) s = .next (setTile k (movedOn (v.tile k)) v)
    Issues (.signal a) r w s → nextInOrder (s.tile k) < 8192 →
    (epCoord ep = s.coord → epTile ep < 768 → (s.tile dst).tag = (s.tile k).tag → (((u.tile dst).tok[a.tk]).toNat + a.cnt.toNat < 65536) →
      goes (setTile dst { u.tile dst with tok := (u.tile dst).tok.set a.tk ((u.tile dst).tok[a.tk] + a.cnt),
                                          outside := (u.tile dst).outside.map (fun o => { o with by_ := a.tk.val :: o.by_ }) } u)) ∧
    (epCoord ep = s.coord → epTile ep = 775 → a.tk = 63 → s.dieTags.getD (epDie ep) 0 = (s.tile k).tag →
      let key := epDie ep * 65536 + (a.cnt.toNat - 1)
      goes { u with layerReady := smPut u.layerReady key (smGetD u.layerReady key 0 + 1) }) ∧
    (epCoord ep ≠ s.coord →
      goes (sendMsg r.die.val (some (k, (u.tile k).nextXfer))
        { type := 4, dst := a.ep, src := BitVec.ofNat 24 (endpoint s r.die.val r.tile.val), stag := (s.tile k).tag,
          body := BitVec.ofNat 256 (a.cnt.toNat * 2 ^ 240 + a.tk.val * 2 ^ 234) }
        (setTile k { u.tile k with nextXfer := (u.tile k).nextXfer + 1,
                                   xfers := (u.tile k).xfers ++ [{ id := (u.tile k).nextXfer, kind := .signal, waits := 1 }] } u)))

/-- SWAP (R93, R94). -/
def Obligations.SwapSegment : Prop :=
  ∀ (r : TileRef) (w : WaitField) (a : SwapArgs) (s : State) (g : Segment),
    let k := tileKey r
    let u := issued (.swap a) r w s
    let t := u.tile k
    let addr := wordAddr (xword s (s.tile k).xreg[a.xr])
    let words := a.len.toNat + 1
    let half := boolNat a.half
    Issues (.swap a) r w s → nextInOrder (s.tile k) < 8192 → isRemote (xword s (s.tile k).xreg[a.xr]) = false →
    addr + 8 * words ≤ stackEnd → segmentFor s k addr half words = some g → badStack u addr (8 * words) = false →
    ∃ v p n q, exec (.swap r w a) s = .next v ∧
      v.store = storeRun s.store (k * 8192 + 4096 * half) words ((List.range words).map (fun i => readLE u.mem (addr + 8 * i) 8)) ∧
      v.tile k = movedOn { t with
        lastSeg := setAt t.lastSeg half addr, nextXfer := t.nextXfer + 1,
        xfers := t.xfers ++ [{ id := t.nextXfer, kind := .swap, tk := if a.te then some a.tk else none, half := half }],
        prefetch := p, pfUsed := n, streams := q } ∧
      (∀ j, j ≠ k → v.tile j = s.tile j) ∧ countsOnly r.die.val s v ∧
      v = { u with store := v.store, tiles := v.tiles, regs := v.regs }

/-- The ends of transfers (R67, R83, R88, R94). -/
def Obligations.TransfersEnd : Prop :=
  ∀ (r : TileRef) (id : BitVec 32) (s : State) (x : Xfer),
    let k := tileKey r
    let t := { s.tile k with xfers := (s.tile k).xfers.filter (fun y => decide (y.id ≠ id.toNat)) }
    let ends := fun (o : Host.Outcome State Fault Refusal) =>
      (x.tk = none → o = .next (setTile k t s)) ∧
      ∀ tk, x.tk = some tk → (t.tok[tk]).toNat < 65535 →
        o = .next (setTile k { t with tok := t.tok.set tk (t.tok[tk] + 1),
                                      outside := t.outside.map (fun y => { y with by_ := tk.val :: y.by_ }) } s)
    s.life ≠ .off → findXfer (s.tile k) id.toNat = some x → x.waits = 0 → x.slice = none → firstOfUnit (s.tile k) x = true →
    (x.kind = .get → ends (exec (.getComplete r id) s)) ∧
    (x.kind = .put ∨ x.kind = .signal → ends (exec (.putComplete r id) s)) ∧
    (x.kind = .swap → ends (exec (.swapComplete r id) s)) ∧
    (x.kind = .sample ∨ x.kind = .table → ends (exec (.descriptorComplete r id) s))

/-- Lines and tokens that reach a tile (R45, R85, R86). -/
def Obligations.TokenArrival : Prop :=
  ∀ (r : TileRef) (tag : BitVec 12) (s : State),
    let k := tileKey r
    let t := s.tile k
    let q := s.early.getD r.die.val []
    let waits := fun (item : EarlyItem) => highReg (dieKey r.die.val 0x806005) (q.length + 1)
      (bumpReg (dieKey r.die.val 0x806004) 1 { s with early := setAt s.early r.die.val (q ++ [item]) })
    s.life = .running ∨ s.life = .spare ∨ s.life = .held ∨ s.life = .loaded →
    (∀ tk cnt, tag = t.tag → (t.tok[tk]).toNat + cnt.toNat < 65536 →
      exec (.tokenArrival r tag (.token tk cnt)) s = .next (setTile k { t with tok := t.tok.set tk (t.tok[tk] + cnt), outside := t.outside.map (fun y => { y with by_ := tk.val :: y.by_ }) } s)) ∧
    (∀ l bs, tag = t.tag → ∃ v, exec (.tokenArrival r tag (.line l bs)) s = .next v ∧
      v.mem = writeBytes s.mem (tileBase k + localAddr (64 * l.val)) (sliceBytes bs 0 64) ∧
      v.tile k = { t with outside := t.outside.filter (fun o => decide (o.line ≠ localAddr (64 * l.val) / 64)) ++ [{ line := localAddr (64 * l.val) / 64 }] } ∧
      v = { s with mem := v.mem, bad := v.bad, tiles := smPut s.tiles k (v.tile k) }) ∧
    (∀ tk cnt, tag = nextTag t.tag → q.length < 4096 →
      exec (.tokenArrival r tag (.token tk cnt)) s = .next (waits (.token r.tile.val tk cnt.toNat))) ∧
    (∀ l bs, tag = nextTag t.tag → q.length < 4096 →
      exec (.tokenArrival r tag (.line l bs)) s = .next (waits (.line r.tile.val (64 * l.val) (sliceBytes bs 0 64)))) ∧
    (∀ i, tag ≠ t.tag → tag ≠ nextTag t.tag → exec (.tokenArrival r tag i) s = .next (bumpReg (dieKey r.die.val 0x806003) 1 s))

/-- Page-in and stream prefetch (R262, R265). -/
def Obligations.PagesAndStreams : Prop :=
  ∀ (r : TileRef) (s : State),
    let k := tileKey r
    (∀ page frame, s.life ≠ .off → (s.pager k).inflight = some (page, frame, 0) → (s.pager k).queue = [] → isRemote page = false →
      badStack s (wordAddr page) 0x1_0000 = false →
      exec (.pageInComplete r) s = .next (setPager k { putFrame (s.pager k) { frame := frame, page := some page, dirty := false, lastUse := (s.pager k).clock } with inflight := none, clock := (s.pager k).clock + 1 }
        (putMem (tileBase k + 0x1_0000 * frame) (readBytes s.mem (wordAddr page) 0x1_0000) s))) ∧
    (∀ x line, (s.life = .running ∨ s.life = .spare) →
      let e := (s.tile k).streams[x]
      let a := 64 * line.val
      e.1 = 2 → s.reg 0x300002 = 1 → e.2.1 ≤ a → a < e.2.1 + 64 * s.reg 0x300003 → e.2.1 % 64 = 0 → a ∉ (s.tile k).prefetch →
      (s.tile k).prefetch.length < 512 → streamBlock s (e.2.1 - 64) a = 0 → badStack s a 64 = false →
      exec (.prefetchReadComplete r x line) s = .next (bumpReg (dieKey r.die.val 0x814005) 1
        (setTile k { s.tile k with prefetch := (s.tile k).prefetch ++ [a], pfRead := (s.tile k).pfRead + 1 } s)))

/-- A gradient entry for a shard of this package (R206). -/
def Obligations.GradientEntry : Prop :=
  ∀ (d : Fin 4) (tag : BitVec 12) (table : Fin 4096) (shard : Fin 16384) (gk : BitVec 128) (vals : List (BitVec 32)) (src : BitVec 24)
    (s : State) (sh : Shard),
    let key := shardKey table.val shard.val 0
    let size := 16 + 4 * vals.length
    let per := 65536 / size
    let i := sh.inbox.length
    let vs := vals.map BitVec.toNat
    s.life = .running ∨ s.life = .spare ∨ s.life = .held ∨ s.life = .loaded →
    tag = s.dieTags.getD d.val 0 → smFind s.tables.shards key = some sh → sh.mergedBy = none →
    i / per < readLE s.mem (sh.header + 56) 8 →
    ∃ v, exec (.gradientEntry d tag table shard gk vals src) s = .next v ∧
      v.mem = writeBytes s.mem (readLE s.mem (sh.header + 48) 8 + 65536 * (i / per) + i % per * size)
        (leBytes 16 gk.toNat ++ vs.flatMap (leBytes 4)) ∧
      v.tables = { s.tables with shards := smPut s.tables.shards key { sh with inbox := sh.inbox ++ [{ key := gk, vals := vs }], pages := i / per + 1 } } ∧
      v.reg (dieKey sh.die 0x812008) = (s.reg (dieKey sh.die 0x812008) + 1) % 2 ^ counterBits (dieKey sh.die 0x812008) ∧
      v = { s with mem := v.mem, bad := v.bad, regs := v.regs, tables := v.tables }

/-- STEPEND (R89, R157). -/
def Obligations.StepEnd : Prop :=
  ∀ (r : TileRef) (w : WaitField) (s : State),
    let k := tileKey r
    let u := issued .stepend r w s
    Issues .stepend r w s → (s.tile k).groups = [] → (∀ tk : Fin 64, ((u.tile k).tok[tk]) = 0) →
    let n := ((List.range 8).filter (fun i => (s.tile k).encore.getLsbD i)).length
    let q := dieKey r.die.val 0x80E007
    ∃ v, exec (.stepend r w) s = .next v ∧ v = setTile k { u.tile k with run := .done } { u with regs := v.regs } ∧
      v.reg q = (if n = 0 then u.reg q else (u.reg q + n) % 2 ^ counterBits q) ∧ (∀ x, x ≠ q → v.reg x = u.reg x)

/-- Program faults of CALL, RET and STEPEND (R69). -/
def Obligations.ProgramFaults : Prop :=
  ∀ (r : TileRef) (w : WaitField) (s : State),
    let k := tileKey r
    let faults := fun (o : Host.Outcome State Fault Refusal) => ∃ v, o = .next v ∧ 2 ∈ v.step.causes ∧ (v.tile k).run = .stopped ∧
      ∃ e ∈ v.evBatch, e.code = 0x7003 ∧ e.unit = endpoint s r.die.val r.tile.val
    s.step.phase = .attempt → s.step.causes = [] → (∀ x ∈ s.step.suspects, x.unit ≠ endpoint s r.die.val r.tile.val) →
    (∀ t, Issues (.call t) r w s → 4 ≤ (s.tile k).calls.length → faults (exec (.call r w t) s)) ∧
    (Issues .ret r w s → (s.tile k).calls = [] → faults (exec (.ret r w) s)) ∧
    (Issues .stepend r w s → (s.tile k).groups ≠ [] → faults (exec (.stepend r w) s))

/-- What aborting an attempt does (R91, R239). -/
def Obligations.AbortStops : Prop :=
  ∀ (cause : Nat) (s : State), s.step.phase = .attempt →
    let t := abortAttempt cause s
    cause ∈ t.step.causes ∧ (∀ c ∈ s.step.causes, c ∈ t.step.causes) ∧ t.mem = s.mem ∧ t.life = s.life ∧
    t.reg 0x500006 = t.step.causes.foldl min 15 ∧
    (s.step.causes = [] → t.step.stopped = true ∧ ∀ k, (t.tile k) = stopTile (s.tile k)) ∧
    (s.step.causes ≠ [] → t.tiles = s.tiles)

/-- SAMPLE and TBL (R88): a descriptor that meets no obstacle is worked off as it is evaluated, and the transfer then waits
for DESCRIPTOR_COMPLETE. -/
def Obligations.SliceDescriptors : Prop :=
  ∀ (r : TileRef) (w : WaitField) (s : State),
    (∀ a, runsSlice (.sample a) 4 a.ctx.toNat a.ps (if a.te then some a.tk else none) r w s (exec (.sample r w a) s)) ∧
    (∀ a, runsSlice (.tbl 0 a) 0 0 a.ps (if a.te then some a.tk else none) r w s (exec (.gather r w a) s)) ∧
    (∀ a, runsSlice (.tbl 1 a) 1 0 a.ps (if a.te then some a.tk else none) r w s (exec (.gatherAndPool r w a) s)) ∧
    (∀ a, runsSlice (.tbl 2 a) 2 0 a.ps (if a.te then some a.tk else none) r w s (exec (.scatterAdd r w a) s)) ∧
    (∀ a, runsSlice (.tbl 3 a) 3 0 a.ps (if a.te then some a.tk else none) r w s (exec (.sortAndMerge r w a) s))

/-! ### The package as a whole -/

/-- On an empty queue package time runs on (R359) and one waiting entry of the Trunk Record is written (R450); in OFF nothing
happens. That the block idles so is the model's choice (assumption 3). -/
def Obligations.IdleStep : Prop :=
  ∀ (s : State), s.pending = [] →
    (s.life = .off → step s = .next s) ∧
    (s.life ≠ .off → ∃ t, step s = .next t ∧ t = { s with now := t.now, trunk := t.trunk } ∧ t.now = (s.now + 1000) % 2 ^ 64 ∧
      t.trunk.queue = s.trunk.queue.tail ∧ (s.trunk.queue = [] → t.trunk = s.trunk))

/-- The state right after reset (R13, R67, R252, R258, R396, R405): OFF, no stack byte but zero, no page attribute, no tile
running, and the entries whose default the dictionary gives. -/
def Obligations.ResetValues : Prop :=
  State.reset.life = .off ∧ State.reset.pending = [] ∧ State.reset.out = [] ∧ (∀ a, readByte State.reset.mem a = 0) ∧
  (∀ a, pageAttr State.reset a = 0) ∧ (∀ k, (State.reset.tile k).run = .idle) ∧ State.reset.evFrames = [] ∧ State.reset.desc = none ∧
  State.reset.reg 0x500008 = 30000 ∧ State.reset.reg 0x501002 = 16 ∧ State.reset.reg 0x200801 = 200 ∧ State.reset.reg 0x702002 = 1 ∧
  State.reset.reg 0x702003 = 1 ∧ State.reset.reg 0x600001 = 100 ∧ State.reset.reg 0x100101 = 0

/-- The canonical form holds at reset. -/
def Obligations.ResetCanonical : Prop := Canonical State.reset

/-- Every step keeps the canonical form. -/
def Obligations.CanonicalKept : Prop := ∀ s t : State, Canonical s → step s = .next t → Canonical t

/-- A tile instruction's word holds every bit of the instruction (R64, R65, R70 to R94): decoding the word of any operation
with any wait field gives them back. -/
def Obligations.TileWordRoundTrip : Prop := ∀ (op : TileOp) (w : WaitField), decodeTileWord (encodeTileWord op w) = some (op, w)

/-- Each instruction has one word (R64, R68): a word that decodes is the word of what it decodes to. -/
def Obligations.TileWordReencode : Prop :=
  ∀ (x : Word) (op : TileOp) (w : WaitField), decodeTileWord x = some (op, w) → encodeTileWord op w = x

/-- In OFF only pins, boot and test access act (R13, R408, R472). Which commands those are is the model's reading (assumption 4). -/
def Obligations.OffInert : Prop :=
  ∀ (c : Instr) (s : State), s.life = .off → actsInOff c = false → exec c s = .next s

/-- The one stop: a control core at an address of the control space that the spec gives no contents (R16). Every other
command answers a next state in every state. -/
def Obligations.OneStop : Prop :=
  ∀ (c : Instr) (s : State), goesOn (exec c s) = true ∨
    ∃ d core super addr a, c = .controlCoreAccess d core super addr a ∧ exec c s = .fault .controlSpace ∧ s.life ≠ .off ∧
      (ringCore (s.ring d) core).online = true ∧ placeOf (wordAddr (xword s (addr.setWidth 64))) = .control

/-- Memory (R43, R99, R252): what is written is what is read, and no other byte changes. -/
def Obligations.MemoryReadsBack : Prop :=
  ∀ (a : Nat) (bs : List Byte) (s : State),
    let t := putMem a bs s
    t.bytes a bs.length = bs ∧ (∀ x, ¬(a ≤ x ∧ x < a + bs.length) → readByte t.mem x = readByte s.mem x) ∧
    (∀ v n, leNat ((putMem a (leBytes n v) s).bytes a n) = v % 256 ^ n) ∧
    (∀ w ∈ t.bad, w ∈ s.bad) ∧ (∀ w ∈ s.bad, w + 64 ≤ a → w ∈ t.bad) ∧ t = { s with mem := t.mem, bad := t.bad }

/-- Raising an event (R405, R447, R449, R450): one FULL record in an entry of the main ring, and one record for the event
destinations. -/
def Obligations.EventRaised : Prop :=
  ∀ (code die tile sub op : Nat) (s : State),
    code < 2 ^ 16 → die < 4 → tile < 1024 → s.trunk.closed = false → s.trunk.queue.length < 256 → s.evFrames.length < 256 →
    s.trunk.nextSeq < 2 ^ 64 → s.reg 0x102401 < 4096 →
    ∃ (e : EventRec) (entry : List Byte),
      raiseAt code die tile sub op s = { s with trunk := { s.trunk with nextSeq := s.trunk.nextSeq + 1, queue := s.trunk.queue ++ [(1, entry)] }, evBatch := s.evBatch ++ [e] } ∧
      e.code = code ∧ e.unit = s.reg 0x102401 * 4096 + die * 1024 + tile ∧ e.subunit = sub % 256 ∧ e.operation = op % 2 ^ 32 ∧ e.count = 1 ∧
      e.time = s.now ∧ entry.length = 64 ∧
      let n := leNat entry
      bitField n 511 448 = s.trunk.nextSeq ∧ bitField n 447 384 = s.now % 2 ^ 64 ∧ bitField n 383 368 = 1 ∧ bitField n 367 366 = die ∧
      bitField n 365 362 = stateCode s.life ∧ bitField n 361 288 = 0 ∧
      bitField n 287 272 = code ∧ bitField n 271 264 = e.subunit ∧ bitField n 263 240 = e.unit ∧ bitField n 239 208 = 1 ∧
      bitField n 207 176 = e.operation ∧ bitField n 175 112 = s.now % 2 ^ 64

/-- An instruction at the last word of the store that goes on in program order: a program error (R94, R518). -/
def Obligations.EndOfStore : Prop :=
  ∀ (r : TileRef) (w : WaitField) (s : State),
    Issues .nop r w s → nextInOrder (s.tile (tileKey r)) = 8192 → s.step.phase = .attempt → s.step.causes = [] →
    ∃ v, exec (.nop r w) s = .next v ∧ v.step.causes = [10] ∧ v.reg 0x500006 = 10 ∧ v.mem = (issued .nop r w s).mem ∧
      (∀ k, (v.tile k).run ≠ .active) ∧ ∃ e ∈ v.evBatch, e.code = 0x2008 ∧ e.unit = endpoint s r.die.val r.tile.val

/-- Words written out bit by bit from the layouts of R64, R70 to R88 and R93 decode to the instructions they stand for. -/
def Obligations.TileWordExamples : Prop :=
  decodeTileWord 0x0101091A2AF00000 = some (.loop 2 0x1234 0xABC, none) ∧
  decodeTileWord 0x028A000000000123 = some (.jump 0x123, some 5) ∧
  decodeTileWord 0x0501180000001FFF = some (.brm 17 true 0x1FFF, none) ∧
  decodeTileWord 0x0801610184000000 = some (.swap { xr := 5, half := true, len := 0x80, te := true, tk := 33 }, none) ∧
  decodeTileWord 0x1201ABEEF0000000 = some (.setx 6 2 0xBEEF, none) ∧
  decodeTileWord 0x21004620F3040040 = some (.mm { pa := 2, amask := 3, plane := false, gbase := 8, nrow := 15, fx := 3, stride := 4, pinc := 0x40 }, none) ∧
  decodeTileWord 0x31012606B0400000 = some (.gclose { pa := 9, gbase := 12, gcnt := 3, fmt := 5, mode := 2, stride := 8 }, none) ∧
  decodeTileWord 0x400002A247F87F80 = some (.vop 1 { fmt := 5, pa := 1, pb := 2, pd := 3, lanes := 63, cnt := 0xFF }, none) ∧
  decodeTileWord 0x500028403400FFFF = some (.get { pl := 1, xr := 2, len := 0x100, lte := true, ltk := 40, dte := false, dtk := 0, xinc := 0xFFFF }, none) ∧
  decodeTileWord 0x52002468AC8C0008 = some (.signal { ep := 0x123456, tk := 17, cnt := 0x8001 }, none) ∧
  decodeTileWord 0x6000A6C200000000 = some (.sample { ps := 5, ctx := 13, te := true, tk := 2 }, none) ∧
  decodeTileWord 0x7000CF9000000000 = some (.tbl 3 { ps := 6, te := true, tk := 50 }, none)

/-! ### Steps, votes and decisions -/

/-- STEP_START (R62, R86, R89, R90, R224, R225): the first tile begins the attempt, and each tile enters it at its entry
address with fresh program-visible state. Nothing is held for the step from an early arrival, and no segment was swapped. -/
def Obligations.StepStart : Prop :=
  ∀ (r : TileRef) (s : State),
    let k := tileKey r
    let tag := stepTag s.stepNo s.step.attempt
    (∀ h, nth (s.tile k).lastSeg h = nth (s.tile k).startSeg h) → (s.tile k).xfers = [] → s.gal.runs.any (fun g => g.key == k) = false →
    (∀ d, s.early.getD d [] = []) → s.early.length = 4 → s.reduce.held = [] → s.gal.unresolved = false →
    (startAllowed s = true → ∃ t m, exec (.stepStart r) s = .next t ∧ t.tile k = freshTile (s.tile k) tag m ∧ t.step.phase = .attempt ∧
      t.step.causes = [] ∧ t.step.attempt = s.step.attempt ∧ t.step.sinceQuiet = s.step.sinceQuiet + 1 ∧ t.dieTags = List.replicate 4 tag ∧
      (∀ j, j ≠ k → (t.tile j).run = .idle) ∧ t.mem = s.mem ∧ t.life = s.life ∧ t.stepNo = s.stepNo ∧ t.out = s.out) ∧
    ((s.life = .running ∨ s.life = .spare) → s.step.phase = .attempt → s.step.causes = [] → (s.tile k).run = .idle →
      exec (.stepStart r) s = .next (setTile k (freshTile (s.tile k) (s.dieTags.getD r.die.val 0) (modeWord s k)) s))

/-- The forward barrier, the watchdog, a decision that does not come, and the serving interval (R227, R228, R246, R371, R427). -/
def Obligations.StepTimers : Prop :=
  ∀ (s : State),
    (s.life = .running ∨ s.life = .spare → s.step.phase = .attempt → s.step.barrier = false → s.step.causes = [] →
      (∀ k < 3072, atBackward (s.tile k) = true) →
      let k := s.job.lossTile / 1024 * 768 + s.job.lossTile % 1024
      exec .forwardBarrier s = .next { s with
        tiles := s.tiles.map (fun p => (p.1, { p.2 with atBarrier := true })),
        step := { s.step with barrier := true, loss := some (BitVec.ofNat 32 (readLE s.mem (tileBase k + localAddr s.job.lossAddr) 4)), barrierAt := s.now } }) ∧
    (s.life = .running → s.step.phase = .attempt → s.reg 0x500008 ≠ 0 → exec .stepWatchdogExpiry s = .next (abortAttempt 4 s)) ∧
    (s.life = .running → s.step.phase = .voted → s.reg 0x500008 ≠ 0 → ∃ t, exec .missingDecision s = .next t ∧ t.life = .held ∧
      t.reg 0x100009 = 0x9004 ∧ t.reg 0x100008 = s.now ∧ t.step.phase = .decided ∧ t.step.attempt = s.step.attempt + 1 ∧ t.stepNo = s.stepNo ∧ t.mem = s.mem ∧
      (∀ k, t.tile k = stopTile (s.tile k)) ∧ ∃ e ∈ t.evBatch, e.code = 0x9004) ∧
    (s.life = .running → s.job.serving = true → s.step.phase = .idle ∨ s.step.phase = .decided →
      exec .servingStepInterval s = .next { s with step := { s.step with intervalDue := true } })

/-- A vote and a decision keep every field in their 256 and 128 bits (R235, R238). -/
def Obligations.VoteLayout : Prop :=
  (∀ v : Vote, voteOk v = true → voteOf (voteBits v) = v) ∧
  (∀ (d : Decision) (k : Nat), decisionOk d k = true → k < 16 → decisionOf (decisionBits d) = d)

/-- PACKAGE_VOTE and VOTE (R235, R236): a package whose attempt is complete, or has stopped after an abort, forms its vote;
once every child's vote is there the combined vote goes to the parent, and the coordinator decides. How votes combine. -/
def Obligations.Votes : Prop :=
  ∀ (s : State),
    let kids := (voteChildren s).map (fun c => smFind s.step.childVotes c.1)
    let own := formVote s
    let u := { s with step := { s.step with phase := .voted, ownVote := some own, endedAt := s.now } }
    let v := (kids.filterMap id).foldl combineVotes own
    let w := { u with step := { u.step with combined := some v, voteSent := true, since := s.now } }
    (s.life = .running → s.step.phase = .attempt → attemptComplete s = true ∨ attemptStopped s = true →
      (kids.any Option.isNone = true → exec .packageVote s = .next u) ∧
      (kids.any Option.isNone = false → s.step.voteSent = false →
        (∀ p, voteParent s = some p → exec .packageVote s = .next (sendMsg 0 none { type := 6, dst := BitVec.ofNat 24 (p * 4096 + 768), src := BitVec.ofNat 24 (endpoint s 0 768), stag := s.dieTags.getD 0 0, body := voteBits v } w)) ∧
        (voteParent s = none → let r := decideVote v w
          exec .packageVote s = .next (sendDecision r.1 { r.2 with step := { r.2.step with decision := some r.1 } })))) ∧
    (∀ (c : Fin 3) (b : Vote), (s.life = .running ∨ s.life = .held) → (∃ x ∈ voteChildren s, x.1 = c.val) → s.step.ownVote = none →
      exec (.vote c b) s = .next { s with step := { s.step with childVotes := smPut s.step.childVotes c.val b } }) ∧
    (∀ a b : Vote, let r := combineVotes a b
      r.step = a.step ∧ r.attempt = a.attempt ∧ (∀ i, r.encore.getLsbD i = (a.encore.getLsbD i || b.encore.getLsbD i)) ∧
      (r.abort = true ↔ a.abort = true ∨ b.abort = true ∨ b.step ≠ a.step ∨ b.attempt ≠ a.attempt) ∧
      (r.lossNF = true ↔ a.lossNF = true ∨ b.lossNF = true) ∧ (a.invalid + b.invalid < 2 ^ 32 → r.invalid = a.invalid + b.invalid) ∧
      (a.cause ≠ 0 → r.cause ≠ 0 ∧ r.cause ≤ a.cause) ∧ (b.cause ≠ 0 → r.cause ≠ 0 ∧ r.cause ≤ b.cause))

/-- The coordinator's decision (R224, R237, R238, R241): after an abort, on a new Encore class, on a trigger, and otherwise. -/
def Obligations.DecisionRules : Prop :=
  ∀ (v : Vote) (s : State),
    let same := nextMode s.step.bsel s.step.wide s.step.par s.step.bits
    let d := (decideVote v s).1
    let t := (decideVote v s).2
    let raised := fun (code : Nat) => ∃ e ∈ t.evBatch, e.code = code
    (d.step = v.step ∧ d.attempt = v.attempt ∧ d.cause = v.cause ∧ d.suspV = v.suspV ∧ d.suspect = v.suspect ∧ d.susDie = v.susDie) ∧
    (v.abort = true → t = s ∧ d.nextmode = same ∧ d.action = if v.cause = 6 ∨ v.cause = 9 ∨ v.cause = 10 ∨ 16 ≤ s.step.sinceQuiet then 4 else 2) ∧
    (v.abort = false → s.reg 0x501001 = 1 →
      (∃ i < 8, v.encore.getLsbD i = true ∧ s.step.bits.getLsbD i = false ∧ Config.widerPath s.job.digest i = true) →
      (s.step.sinceQuiet < 16 → d.action = 2 ∧ d.nextmode = nextMode s.step.bsel s.step.wide s.step.par (s.step.bits ||| v.encore) ∧ raised 0x1001) ∧
      (16 ≤ s.step.sinceQuiet → d.action = 4 ∧ d.nextmode = same ∧ raised 0x1008)) ∧
    (v.abort = false → v.encore = 0 → v.lossNF = false → v.gradNF = false → v.rowNF = false → v.invalid = 0 →
      d.action = 1 ∧ d.nextmode.getLsbD 8 = !s.step.par ∧ d.nextmode.getLsbD 9 = false) ∧
    (v.abort = false → v.encore = 0 → v.lossNF = true → (s.reg 0x500403).testBit 0 = true →
      raised 0x9003 ∧ t.reg 0x500406 = (s.reg 0x500406 + 1) % 2 ^ counterBits 0x500406 ∧
      (s.reg 0x500401 = 0 → s.step.wide = false → s.step.sinceQuiet < 16 → d.action = 2 ∧ d.nextmode = nextMode s.step.bsel true s.step.par 0xFF) ∧
      (s.reg 0x500401 = 0 → s.step.wide = false → 16 ≤ s.step.sinceQuiet → d.action = 4) ∧
      (s.reg 0x500401 = 1 → s.reg 0x500408 + 1 ≤ s.reg 0x500404 → d.action = 3) ∧
      (s.reg 0x500401 = 1 → s.reg 0x500404 < s.reg 0x500408 + 1 → d.action = 4 ∧ d.nextmode = same) ∧
      (s.reg 0x500401 = 2 → d.action = 4 ∧ d.nextmode = same))

/-- COMMIT, RERUN, SKIP and HOLD on a package that acts on the decision (R223, R224, R225, R238, R240, R243, R245). -/
def Obligations.Decisions : Prop :=
  ∀ (d : Decision) (s : State),
    let bitsOf := BitVec.ofNat 8 d.nextmode.toNat
    let ended := fun (t : State) => t.stepNo = (s.stepNo + 1) % 2 ^ 48 ∧ t.step.phase = .decided ∧ t.step.attempt = 0 ∧ t.step.bits = bitsOf ∧
      t.step.par = d.nextmode.getLsbD 8 ∧ t.step.wide = false ∧ t.step.childVotes = [] ∧ t.step.ownVote = none ∧ t.tables.looks = [] ∧ t.reduce = { held := t.reduce.held }
    let quiet := s.step.suspects = [] ∧ s.step.mismatches = [] ∧ d.suspV = false
    let again := fun (t : State) => t.stepNo = s.stepNo ∧ t.step.phase = .decided ∧ t.step.attempt = s.step.attempt + 1 ∧ t.mem = s.mem ∧
      t.tables = s.tables ∧ t.ctxs = s.ctxs ∧ ∀ k, t.tile k = stopTile (s.tile k)
    (obeys 1 d s → ∃ t, exec (.commit d) s = .next t ∧ ended t ∧ t.reg 0x500408 = 0) ∧
    (obeys 3 d s → ∃ t, exec (.skip d) s = .next t ∧ ended t) ∧
    (obeys 2 d s → quiet → ∃ t, exec (.rerun d) s = .next t ∧ again t ∧ t.life = s.life ∧ t.step.bits = bitsOf ∧ t.step.par = d.nextmode.getLsbD 8 ∧
      t.step.wide = d.nextmode.getLsbD 9) ∧
    (obeys 4 d s → quiet → s.life = .running → ∃ t, exec (.holdDecision d) s = .next t ∧ again t ∧ t.life = .held ∧ t.reg 0x100009 = holdCause d.cause ∧
      t.step.bits = s.step.bits ∧ t.step.sinceQuiet = 0)

/-! ### Tightrope -/

/-- A flit on a trained edge (R280-R283): accepted in SEQ order and intact; out of order it is discarded; one that fails its check
is refused and answered by a NAK, and the eighth refusal in succession resets the link. -/
def Obligations.EdgeFlits : Prop :=
  ∀ (e : Fin 4) (high : Bool) (f : Flit) (s : State), Canonical s → s.life ≠ .off → f.test = false → edgeTrained (s.edge e) = true →
    let l := edgeEnd (s.edge e) high
    ∃ t, exec (.tightropeFlit e high f) s = .next t ∧
      let m := edgeEnd (t.edge e) high
      (tropeIntact f = true → f.seq = l.accepted + 1 → m.accepted = f.seq ∧ m.accV = true ∧ m.refusing = false ∧ m.refusals = 0 ∧ m.rx = [] ∧
        t = { s with edges := t.edges, out := t.out }) ∧
      (tropeIntact f = true → f.seq ≠ l.accepted + 1 → m.accepted = l.accepted ∧ m.refusing = l.refusing ∧ m.rx = l.rx ∧
        t = { s with edges := t.edges, out := t.out }) ∧
      (tropeIntact f = false → l.refusals < 7 → m.accepted = l.accepted ∧ m.refusing = true ∧ m.refusals = l.refusals + 1 ∧
        (l.replay.length < 64 → ∃ g, .trope e high g ∈ t.out ∧ g.nak = true ∧ g.ack = l.accepted) ∧ t = { s with edges := t.edges, out := t.out }) ∧
      (tropeIntact f = false → 7 ≤ l.refusals → (s.edge e).attempt = false → (t.edge e).st = .training ∧ m.refusals = 0 ∧ m.accepted = l.accepted ∧
        m.replay = l.replay ∧ m.next = l.next ∧ m.credits = l.credits ∧ raised 0x3006 t ∧ raised 0x3007 t)

/-- Link resets, training, the agreement on a width, and edges that go down (R278, R284-R288, R294). -/
def Obligations.EdgeTraining : Prop :=
  ∀ (e : Fin 4) (high : Bool) (s : State), Canonical s → s.life ≠ .off →
    let x := s.edge e
    let same := fun (t : State) (h : Bool) => let l := edgeEnd x h; let m := edgeEnd (t.edge e) h
      m.next = l.next ∧ m.accepted = l.accepted ∧ m.accV = l.accV ∧ m.replay = l.replay ∧ m.credits = l.credits ∧ m.txq = l.txq
    let fails := fun (t : State) => raised 0x3002 t ∧
      (x.fails < 2 → (t.edge e).st = x.st ∧ (t.edge e).fails = x.fails + 1 ∧ (t.edge e).attempt = false) ∧
      (2 ≤ x.fails → (t.edge e).st = .down ∧ (t.edge e).attempt = false ∧ (t.edge e).fails = 0 ∧ raised (if x.byCommand then 0x3008 else 0x3003) t)
    (x.st ≠ .down → x.attempt = false → ∃ t, exec (.tightropeLinkReset e high) s = .next t ∧ (t.edge e).st = .training ∧ raised 0x3007 t ∧ ∀ h, same t h) ∧
    (x.st = .training → x.attempt = false → ∃ t, exec (.tightropeTraining e) s = .next t ∧ (t.edge e).attempt = true ∧ (t.edge e).adverts = [none, none] ∧
      (t.edge e).agreed = 0 ∧ (∀ h, (edgeEnd (t.edge e) h).tests = 0 ∧ same t h) ∧ t = { s with edges := t.edges }) ∧
    (∀ m, x.attempt = true → x.adverts = [none, none] → ∃ t, exec (.halfMaskAdvertisement e high m) s = .next t ∧
      (t.edge e).adverts = (if high then [none, some m.toNat] else [some m.toNat, none]) ∧ t = { s with edges := t.edges }) ∧
    (∀ (m : BitVec 2) a, x.attempt = true → x.adverts = [some a, none] → ∃ t, exec (.halfMaskAdvertisement e true m) s = .next t ∧
      (a &&& m.toNat ≠ 0 → (t.edge e).agreed = a &&& m.toNat ∧ t = { s with edges := t.edges, out := t.out } ∧
        ∃ sent, t.out = s.out ++ sent ∧ ∀ h, sent.count (.trope e h tropeTest) = 16 ∧ .bus (endDie e h) (a &&& m.toNat) ∈ sent) ∧
      (a &&& m.toNat = 0 → fails t)) ∧
    (x.attempt = true → x.agreed = 0 → ∃ t, exec (.advertisementTimeout e) s = .next t ∧ fails t)

/-- The hand-over of a down edge, and a retrain by command (R287, R288, R294). -/
def Obligations.EdgeHandOver : Prop :=
  ∀ (e : Fin 4) (high : Bool) (s : State), Canonical s → s.life ≠ .off →
    let x := s.edge e
    let rx := edgeEnd x high
    let tx := edgeEnd x (!high)
    let d := endDie e (!high)
    let f := otherEdge e d
    let fh := decide ((edgeDies f).2 = d)
    (x.st = .down → x.handed.getD (boolNat high) true = false → ∃ u, exec (.handOverReport e high) s = .next (pumpEnd f fh false u) ∧
      f ≠ e ∧ (edgeEnd (u.edge f) fh).txq = (if rx.accV then tx.replay.filter (fun g => !seqCovers rx.accepted g.seq) else tx.replay).flatMap liveSlots ++ tx.txq ++
        (edgeEnd (s.edge f) fh).txq ∧
      (edgeEnd (u.edge e) (!high)).replay = [] ∧ (edgeEnd (u.edge e) (!high)).txq = [] ∧ (u.edge e).handed = setAt x.handed (boolNat high) true ∧
      u.out = s.out ++ [.bus d rx.accepted.toNat] ∧ u = { s with edges := u.edges, out := u.out }) ∧
    (∀ d : Fin 4, edgeRetrainAllowed s = true → s.reg (dieKey d 0x816001) = e.val → x.attempt = false →
      ∃ t, exec (.retrainSelectedEdge d) s = .next t ∧ (t.edge e).st = .training ∧ (x.st = .down → (t.edge e).byCommand = true ∧ (t.edge e).fails = 0) ∧ raised 0x3007 t)

/-! ### Midway ports -/

/-- A flit at a Midway port that is up or trains (R281, R298, R299, R301, R302), and Booth port M0. -/
def Obligations.PortFlits : Prop :=
  ∀ (p : Fin 16) (f : Flit) (c0 c1 : Option (Fin 16)) (s : State), Canonical s → netLive s = true →
    let l := (s.port p).link
    let ok := flitIntact f c0 c1
    ((s.port p).st = .up → f.test = false → ∃ t, exec (.midwayFlit p f c0 c1) s = .next t ∧
      let m := (t.port p).link
      t.mem = s.mem ∧ t.tiles = s.tiles ∧ t.step = s.step ∧
      (ok = true → f.seq = l.accepted + 1 → m.accepted = f.seq ∧ m.accV = true ∧ m.refusing = false ∧ m.refusals = 0 ∧ m.rx = l.rx ++ liveSlots f) ∧
      (ok = true → f.seq ≠ l.accepted + 1 → m.accepted = l.accepted ∧ m.refusing = l.refusing ∧ m.rx = l.rx) ∧
      (ok = false → l.refusals < 7 → m.accepted = l.accepted ∧ m.refusing = true ∧ m.refusals = l.refusals + 1 ∧ m.rx = l.rx ∧
        (l.replay.length < 256 → ∃ g, .midway p g ∈ t.out ∧ g.nak = true ∧ g.ack = l.accepted)) ∧
      (ok = false → 7 ≤ l.refusals → (t.port p).st = .training ∧ m.accepted = l.accepted ∧ m.replay = l.replay ∧ m.next = l.next ∧ m.credits = l.credits ∧
        raised 0x4003 t ∧ raised 0x400A t)) ∧
    ((s.port p).st = .training → f.test = true → ok = true → ∃ t, exec (.midwayFlit p f c0 c1) s = .next t ∧ (t.port p).link = { l with tests := l.tests + 1 } ∧
      (t.port p).record = ((f.slots.head?).map (fun x => x.data)).getD [] ∧ (t.port p).st = .training ∧ t.mem = s.mem ∧ t.tiles = s.tiles) ∧
    exec .m0LinkLoss s = .next { s with tarvy := { s.tarvy with m0 := false } } ∧
    exec .m0LinkRegain s = .next { s with tarvy := { s.tarvy with m0 := true } }

/-- Link resets, training, the neighbour check and ports that go down (R299, R301-R303, R316, R321), for a port whose pair has its
other port up and that has nothing queued. -/
def Obligations.PortTraining : Prop :=
  ∀ (p : Fin 16) (s : State), Canonical s → netLive s = true → (s.port p).link.txq = [] →
    (∃ q, otherPort s p = some q ∧ q < 16 ∧ portUp s q = true ∧ (s.port q).lost = false) →
    let x := s.port p
    let retrains := fun (t : State) => (t.port p).st = .training ∧ (t.port p).record = [] ∧ (t.port p).link = { x.link with tests := 0, refusing := false } ∧
      raised 0x400A t ∧ t.out = s.out ++ List.replicate 16 (.midway p (testFlit s p)) ∧
      t = { s with regs := t.regs, trunk := t.trunk, evBatch := t.evBatch, ports := t.ports, out := t.out }
    (x.st = .up → ∃ t, exec (.codewordLockLoss p) s = .next t ∧ retrains t) ∧
    (retrainAllowed s = true → ∃ t, exec (.retrainPort p) s = .next t ∧ retrains t ∧ (t.port p).fails = 0) ∧
    (s.desc.isSome = true → x.st = .training → 16 ≤ x.link.tests → recordKey x.record = recordKey (expectedRecord s p) →
      ∃ t, exec (.midwayTraining p true true) s = .next t ∧ (t.port p).st = .up ∧ (t.port p).fails = 0 ∧ (t.port p).lost = false ∧
        t = { s with regs := t.regs, ports := t.ports, out := t.out } ∧ ∀ g ∈ x.link.replay, .midway p g ∈ t.out) ∧
    (s.desc.isSome = true → x.st = .training → 16 ≤ x.link.tests → recordKey x.record ≠ recordKey (expectedRecord s p) →
      ∃ t, exec (.midwayTraining p true true) s = .next t ∧ (t.port p).st = .miswired ∧ raised 0x4002 t ∧
        t.blob 0x400011 = expectedRecord s p ++ sliceBytes x.record 0 64) ∧
    (x.st = .training → x.fails < 2 → ∃ t, exec (.midwayTrainingExpiry p) s = .next t ∧ (t.port p).st = .training ∧ (t.port p).fails = x.fails + 1 ∧
      t = { s with ports := t.ports, out := t.out }) ∧
    (x.st = .training → 2 ≤ x.fails → ∃ t, exec (.midwayTrainingExpiry p) s = .next t ∧ (t.port p).st = .down ∧ (t.port p).fails = 0 ∧ raised 0x4001 t)

/-! ### Sampling -/

/-- Draws with replacement (R181): slot j takes draw j. A uniform draw takes the exact product shifted right by 64; a weighted
draw takes the smallest position whose running sum of weights exceeds t, so no position of weight 0; an input of weight sum 0
in mode 1 yields F invalid slots. The weighted clauses hold for an ordinary node and for a hub whose stored sums are those of
its weights. -/
def Obligations.ReplacementDraws : Prop :=
  (∀ u d, u < 2 ^ 64 → 0 < d → uniformPos u d = u * d / 2 ^ 64 ∧ uniformPos u d < d) ∧
  (∀ n ws u, u < 2 ^ 64 → 0 < ws.sum →
    (match n with
      | .hub _ _ deg totw segs => deg = ws.length ∧ totw = ws.sum ∧ segs.length = ceilDiv ws.length 4096 ∧ ∀ i < segs.length, (segs.getD i (0, 0)).2 = (ws.take (4096 * i)).sum
      | _ => True) →
    weightTotal n ws = ws.sum ∧
    let p := weightedPos n ws u
    let t := u * ws.sum / 2 ^ 64
    p < ws.length ∧ t < (ws.take (p + 1)).sum ∧ (∀ q < p, (ws.take (q + 1)).sum ≤ t) ∧ 0 < nth ws p) ∧
  (∀ v d g draw i slot n, d.repl = true → d.mode ≤ 1 → bitAt slot 63 = true → readNode v g (slot % 2 ^ 40) = .ok n → nodeDegree n ≠ 0 →
    (∀ ns, d.mode = 0 → rdAll (readNeighbour v n) ((List.range d.fan).map (fun j => uniformPos (draw i j) (nodeDegree n))) = .ok ns →
      ∃ o, sampleInput v d g draw i slot = .ok (ns.map validSlot, o)) ∧
    (∀ ws ns, d.mode = 1 → nodeWeights v n = .ok ws → weightTotal n ws ≠ 0 → rdAll (readNeighbour v n) ((List.range d.fan).map (fun j => weightedPos n ws (draw i j))) = .ok ns →
      ∃ o, sampleInput v d g draw i slot = .ok (ns.map validSlot, o)) ∧
    (∀ ws, d.mode = 1 → nodeWeights v n = .ok ws → weightTotal n ws = 0 → ∃ o, sampleInput v d g draw i slot = .ok (List.replicate d.fan 0, o)))

/-! ### The Shooting Gallery and test runs -/

/-- GALLERY_TEST_COMPLETE on a tile whose test number is in the pack (R440, R445): a failed test is repeated on the same tile, up
to two times; the first repeat that fails is permanent and queues the tile for retirement; when both repeats pass the fault is
transient. A judgement counts as transient below the history limit of R439 alone. A test that passes at once gives way to the
next one of the tile. -/
def Obligations.GalleryTests : Prop :=
  ∀ (r : TileRef) (hash : Option (BitVec 64)) (g : GalleryRun) (p : GalleryTest) (s : State), let k := tileKey r
    s.life ≠ .off → s.gal.runs.find? (fun x => x.key == k) = some g → s.gal.pack[g.test]? = some p →
    let now := fun (t : State) => t.gal.runs.find? (fun x => x.key == k)
    (hash ≠ some p.hash → g.rep = 0 → ∃ t, exec (.galleryTestComplete r hash) s = .next t ∧ now t = some { g with rep := 1 } ∧ raised 0x7007 t ∧
      t.retireQ = s.retireQ ∧ t.gal.failed = true) ∧
    (hash = some p.hash → g.rep = 1 → ∃ t, exec (.galleryTestComplete r hash) s = .next t ∧ now t = some { g with rep := 2 } ∧ t.evBatch = s.evBatch ∧ t.retireQ = s.retireQ) ∧
    (hash ≠ some p.hash → g.rep ≠ 0 → ∃ t, exec (.galleryTestComplete r hash) s = .next t ∧ now t = none ∧ raised 0x7007 t ∧ raised 0x7009 t ∧
      ∃ q ∈ t.retireQ, q.1 = k) ∧
    (hash = some p.hash → 2 ≤ g.rep → transientCount s (tileEp s k) < s.reg 0x701402 → ∃ t, exec (.galleryTestComplete r hash) s = .next t ∧
      now t = (match g.todo with | [] => none | n :: rest => some { g with test := n, rep := 0, todo := rest }) ∧ raised 0x7008 t ∧ t.retireQ = s.retireQ) ∧
    (hash = some p.hash → g.rep = 0 → ∃ t, exec (.galleryTestComplete r hash) s = .next t ∧
      now t = (match g.todo with | [] => none | n :: rest => some { g with test := n, rep := 0, todo := rest }) ∧ t.retireQ = s.retireQ)

/-- Full runs of the pack and runs of the test suites on command (R164, R165, R446): where each is accepted, refused and in
progress, and what its end shows. -/
def Obligations.TestRuns : Prop :=
  (∀ (m : BitVec 8) (s : State), s.life ≠ .off → s.reg 0x70100B ≠ 1 →
    ((s.life = .standby ∨ s.life = .ready ∨ s.life = .held) → s.gal.pack ≠ [] → ∃ t, exec (.runFullPack m) s = .next t ∧ t.reg 0x70100B = 1 ∧ t.gal.failed = false ∧
      (∀ d < 4, ∀ n < 768, m.getLsbD d = true → (s.life = .held → galleryMarked s (d * 768 + n) = true) → ∃ g ∈ t.gal.runs, g.key = d * 768 + n) ∧
      t = { s with store := t.store, mem := t.mem, bad := t.bad, tiles := t.tiles, gal := t.gal, regs := t.regs }) ∧
    ((s.life ≠ .standby ∧ s.life ≠ .ready ∧ s.life ≠ .held ∨ s.gal.pack = []) → exec (.runFullPack m) s = .next (setReg 0x70100B 4 s))) ∧
  (∀ s : State, s.life ≠ .off → s.reg 0x70100B = 1 → (∀ g ∈ s.gal.runs, g.why ≠ 2) →
    exec .fullRunComplete s = .next (setReg 0x70100B (if s.gal.failed = true then 3 else 2) s)) ∧
  (∀ (m : BitVec 16) (s : State), s.life ≠ .off → s.board.boot.testRun = none → m.toNat < 1024 →
    ((s.life = .standby ∨ s.life = .ready) → ∃ t, exec (.runTestSuites m) s = .next t ∧ t.reg 0x501803 = 1 ∧
      t.board.boot.testRun = some (m.toNat, s.reg 0x501802) ∧ t = { s with regs := t.regs, board := t.board }) ∧
    (s.life ≠ .standby → s.life ≠ .ready → exec (.runTestSuites m) s = .next (setReg 0x501803 4 s))) ∧
  (∀ (m : BitVec 16) (s : State), s.board.boot.testRun ≠ none → exec (.runTestSuites m) s = .next s) ∧
  (∀ (su : BitVec 10) (di : BitVec 4) (m dm : Nat) (s : State), s.life ≠ .off → s.board.boot.testRun = some (m, dm) →
    let bad := su.toNat &&& m
    let on := di.toNat &&& dm
    ∃ t, exec (.testRunComplete su di) s = .next t ∧ t.board.boot.testRun = none ∧
      ((bad = 0 ∨ on = 0) → t.reg 0x501803 = 2 ∧ t.reg 0x501804 = 0 ∧ t.reg 0x501805 = 0 ∧ t.life = s.life) ∧
      (bad ≠ 0 → on ≠ 0 → t.reg 0x501803 = 3 ∧ t.reg 0x501804 = bad ∧ t.reg 0x501805 = on ∧ t.board.boot.suitesPassed = false ∧
        (on < 16 → raised 0x1005 t) ∧ (s.life = .ready → t.life = .standby) ∧ (s.life ≠ .ready → t.life = s.life)))

/-! ### Midway messages -/

/-- Messages of types 1 to 4 that are the next of their flow (R84, R86, R310, R311, R313): a WRITE stores its lines and then its token,
a READ is answered with a READRSP, a READRSP fills the lines of its reader, a SIGNAL counts; each is counted as received. One that
fails its check, is for no endpoint, is ahead of its turn or repeats an old one has none of these effects. -/
def Obligations.MessageArrival : Prop :=
  ∀ (m : Msg) (s : State), let a := m.addr.toNat; let d := msgDie m
    (∀ n, m.type = 1 → nextInFlow m s → m.data.length = 64 * n → a + 64 * n ≤ stackEnd → (∀ i < n, bitAt (pageAttr s (a + 64 * i)) 3 = false) →
      entryShard s a = none → (n ≠ 1 ∨ inStaging s a = false) →
      exec (.midwayWrite m) s = .next (received m (allOf (List.range n) (fun i => putMem (a + 64 * i) (sliceBytes m.data (64 * i) 64)) s))) ∧
    (∀ k l, m.type = 1 → nextInFlow m s → m.data.length = 64 → placeOf a = .window k l → entryShard s a = none → inStaging s a = false →
      tilesLive s = true → m.dte = true → m.stag = (s.tile k).tag → ((s.tile k).tok[m.dtk]).toNat < 65535 →
      exec (.midwayWrite m) s = .next (received m (addToken k m.dtk 1 (putLine k l m.data s)))) ∧
    (m.type = 2 → nextInFlow m s → let n := bitField m.body.toNat 255 250 + 1
      a + 64 * n ≤ stackEnd → (∀ i < n, bitAt (pageAttr s (a + 64 * i)) 3 = false ∧ badStack s (a + 64 * i) 64 = false) →
      exec (.midwayRead m) s = .next (received m (sendMsg d none
        { type := 3, dst := m.src, src := m.dst, stag := s.dieTags.getD d 0, addr := m.addr, data := (List.range n).flatMap (fun i => s.bytes (a + 64 * i) 64) } s))) ∧
    (∀ r k id l, m.type = 3 → nextInFlow m s → s.reads.find? (fun r => r.addr == a && r.dst == m.src.toNat && r.src == m.dst.toNat) = some r →
      r.who = .tile k id l → r.gather = false → bitAt m.body.toNat 255 = false → (findXfer (s.tile k) id).isSome = true →
      exec (.readrsp m) s = .next (received m (answerXfer k id (fillTile k l m.data { s with reads := s.reads.erase r })))) ∧
    (∀ k, m.type = 4 → nextInFlow m s → k = d * 768 + epTile m.dst.toNat → epTile m.dst.toNat < 768 → tilesLive s = true → m.stag = (s.tile k).tag →
      let cnt := bitField m.body.toNat 255 240; let tk := Fin.ofNat 64 (bitField m.body.toNat 239 234)
      ((s.tile k).tok[tk]).toNat + cnt ≤ 65535 → exec (.signalMessage m) s = .next (received m (addToken k tk cnt s))) ∧
    (∀ c, arrival m = some c → m.type ≠ 5 →
      (forThis m s → msgIntact m = false → ∃ t, exec c s = .next t ∧ raised 0x4009 t ∧ t.reg (dieKey d 0x818013) = (s.reg (dieKey d 0x818013) + 1) % 2 ^ counterBits (dieKey d 0x818013) ∧
        t = { s with regs := t.regs, trunk := t.trunk, evBatch := t.evBatch }) ∧
      (netLive s = true → epCoord m.dst.toNat = s.coord → endpointDefined d (epTile m.dst.toNat) = false → ∃ t, exec c s = .next t ∧ raised 0x4005 t ∧
        t = { s with regs := t.regs, trunk := t.trunk, evBatch := t.evBatch }) ∧
      (forThis m s → msgIntact m = true → m.repoch.toNat = s.epoch → let f := s.flowRx (rxKey m); let ahead := (m.eseq - f.expected).toNat
        (ahead ≠ 0 → ahead ≤ 4095 → (∀ x ∈ f.held, x.eseq ≠ m.eseq) → heldCount s d < 4096 →
          exec c s = .next (bumpReg (dieKey d 0x81800F) 1 (setRx (rxKey m) { f with held := f.held ++ [m] } s))) ∧
        (4095 < ahead → exec c s = .next (sendAck (rxKey m) (bumpReg (dieKey d 0x81800E) 1 s)))) ∧
      (forThis m s → msgIntact m = true → m.repoch.toNat ≠ s.epoch → exec c s = .next s))

/-- Acknowledgements, retransmission, probes, route epochs and the router (R305, R309, R313, R314, R316, R317): what an ACK covers
leaves the store, an owed ACK is sent, what stands unacknowledged goes out again or its flow is closed, a PROBE moves the flits of
the pair's other port, a newer ROUTE starts every flow afresh, and a message leaves a port's buffer for here or for its next hop. -/
def Obligations.MessageFlow : Prop :=
  (∀ (m : Msg) (s : State), m.type = 5 → forThis m s → msgIntact m = true → m.repoch.toNat = s.epoch →
    let key := txKey (msgDie m) m.src.toNat
    let f := s.flowTx key
    let covered := fun (u : Unacked) => decide ((BitVec.ofNat 32 (bitField m.body.toNat 255 224) - u.msg.eseq).toNat < 2 ^ 31)
    (f.unacked.filter covered = [] → exec (.ack m) s = .next s) ∧
    (f.unacked.filter covered ≠ [] → s.txWait = [] → (∀ g ∈ s.recov.gens, g.st ≠ 2) → (∀ u ∈ f.unacked, ∀ o, u.owner = some o → o.1 < 3072) →
      ∃ t, exec (.ack m) s = .next t ∧ (t.flowTx key).unacked = f.unacked.filter (fun u => !covered u) ∧
        t = allOf ((f.unacked.filter covered).filterMap (fun u => u.owner)) (fun o => answerXfer o.1 o.2) { s with flowsTx := t.flowsTx })) ∧
  (∀ (d : Fin 4) (src : Fin 16384) (s : State), let key := d.val * 16384 + src.val; let f := s.flowRx key
    netLive s = true → 0 < f.owed → f.expected ≠ 0 → exec (.ackTimer d src) s = .next (sendBare d.val
      { type := 5, dst := BitVec.ofNat 24 (src.val * 1024 + 768), src := BitVec.ofNat 24 (endpoint s d.val 768), stag := s.dieTags.getD d.val 0,
        body := BitVec.ofNat 256 (atBit 224 (f.expected - 1).toNat) } (setRx key { f with owed := 0 } s))) ∧
  (∀ (d : Fin 4) (dst : Fin 16384) (s : State), let key := d.val * 16384 + dst.val; let f := s.flowTx key
    netLive s = true → f.unacked ≠ [] →
    ((∀ u ∈ f.unacked, u.sends < s.reg 0x40000B) → exec (.endToEndTimeout d dst) s = .next (allOf f.unacked (fun u => routeOut d.val none u.msg)
      (bumpReg (dieKey d.val 0x81800C) f.unacked.length (setTx key { f with unacked := f.unacked.map (fun u => { u with sends := u.sends + 1 }) } s)))) ∧
    ((∃ u ∈ f.unacked, s.reg 0x40000B ≤ u.sends) → ∃ v, exec (.endToEndTimeout d dst) s = .next (retryWaiting
        (allOf f.unacked (fun u => failMessage true { die := d.val, owner := u.owner, msg := u.msg }) v)) ∧
      raised 0x4008 v ∧ v.flowTx key = { f with unacked := [], closed := true } ∧ v = { s with flowsTx := v.flowsTx, regs := v.regs, trunk := v.trunk, evBatch := v.evBatch })) ∧
  (∀ (p q : Fin 16) (seq : BitVec 12) (s : State), netLive s = true → portUp s p = true → otherPort s p = some q.val → portUp s q = false →
    let x := s.port p
    let slots := wholeSlots [] (((s.port q).link.replay.filter (fun g => !seqCovers seq g.seq)).flatMap liveSlots)
    exec (.probe p seq) s = .next (pumpPort p false (modPort p (fun _ => { x with link := { x.link with txq := begunSlots [] x.link.txq ++ slots ++ laterSlots [] x.link.txq } })
      (modPort q (fun m => { m with link := { m.link with replay := [] } }) s)))) ∧
  (∀ (e : BitVec 8) (pos : BitVec 16) (c : BitVec 12) (s : State), s.life ≠ .off →
    (newerEpoch s e.toNat = false → exec (.route e pos c) s = .next s) ∧
    (newerEpoch s e.toNat = true → s.life ≠ .spare → s.flowsTx = [] → s.txWait = [] → s.resendNext = [] → s.reads = [] → s.step.phase ≠ .attempt →
      (∀ g ∈ s.recov.gens, g.st ≠ 2) → ∃ t, exec (.route e pos c) s = .next t ∧ t.epoch = e.toNat ∧ t.flowsRx = [] ∧ t.step.epochWait = false ∧
        t.adopted = (if pos.toNat = 0xFFFF then s.adopted else s.adopted.filter (fun a => decide (a.1 ≠ c.toNat)) ++ [(c.toNat, pos.toNat)]) ∧
        t = { s with regs := t.regs, flowsRx := [], adopted := t.adopted, ports := t.ports, step := t.step, recov := t.recov })) ∧
  (∀ (p : Fin 16) (vc : Fin 6) (s : State), netLive s = true → let x := s.port p
    (takeMessage vc.val x.link.rx = none → exec (.messageForward p vc) s = .next s) ∧
    (∀ m rest, takeMessage vc.val x.link.rx = some (m, rest) → typeDefined m.type = true → m.type ≠ 0xB →
      let u := modPort p (fun q => { q with link := { q.link with rx := rest, owed := setAt q.link.owed vc (nth q.link.owed vc + (x.link.rx.length - rest.length)) } }) s
      (endsHere s m = false → exec (.messageForward p vc) s = .next (pumpPort p false (routeOut (portDie p) (some ((wireOf s p).pair, vc.val)) m u))) ∧
      (endsHere s m = true → mustWait s m = false → exec (.messageForward p vc) s = .next (pumpPort p false (deliver m u))) ∧
      (endsHere s m = true → mustWait s m = true → m.eseq = (s.flowRx (rxKey m)).expected → exec (.messageForward p vc) s = .next s)))

/-! ### Gradient reduction -/

/-- The arithmetic of a reduction (R330, R331, R333): a value re-expressed at the agreed code is rounded to nearest, ties to even, and stays
within 32,768; the sum of the inputs is the same in every order, fits 32 bits and has the sum of their tallies, modulo 255, as its tally. -/
def Obligations.ReductionArithmetic : Prop :=
  (∀ (e a : Nat) (g : Int), e ≤ a → a < 255 → let q := reexpress e a g
    2 * |q * 2 ^ (a - e) - g| ≤ 2 ^ (a - e) ∧ (2 * |q * 2 ^ (a - e) - g| = 2 ^ (a - e) → q % 2 = 0) ∧
    (|g| ≤ 32768 → |q| ≤ 32768 ∧ (q = -32768 → g = -32768 ∧ e = a) ∧ (e + 16 ≤ a → q = 0))) ∧
  (∀ e g, reexpress e 0xFF g = 0) ∧
  (∀ xs : List Int, tally xs < 255 ∧ (255 : Int) ∣ xs.sum - tally xs) ∧
  (∀ xss : List (List Int), (∀ xs ∈ xss, xs.length = 64) → let total := xss.foldl addInts (List.replicate 64 0)
    (∀ yss : List (List Int), yss.Perm xss → yss.foldl addInts (List.replicate 64 0) = total) ∧ tally total = (xss.map tally).sum % 255 ∧
    (xss.length ≤ 65535 → (∀ xs ∈ xss, ∀ x ∈ xs, |x| ≤ 32768) → ∀ x ∈ total, |x| ≤ 2147450880))

/-- REDUCE messages of the current step at a position of a tree (R325, R328, R329, R331, R334, R335, R340, R342): codes, values and hashes are kept
for the position, which then moves on as far as its inputs allow; a wrong tally asks once for the range again and then names the
sender; a hash that differs from the Catcher copy's aborts the attempt. A message of the next step is held, another is counted. -/
def Obligations.Reductions : Prop :=
  (∀ (d : Fin 4) (m : ReduceMsg) (i : Nat) (n : Node) (s : State), tilesLive s = true → m.stag = s.dieTags.getD d 0 → m.layer.toNat < 0x8000 →
    nodeAt s d m.layer.toNat m.shard.toNat = some i → s.job.nodes[i]? = some n → beyondChildren n (s.nodeRt i) m = false →
    let r := s.nodeRt i
    let c := childFor r m
    let on := fun (u : State) => Host.Outcome.next (drainReduce reduceFuel (progress i n u))
    (m.op = 1 → exec (.codes d m) s = on (setNodeRt i (putChild r { c with codes := (List.range (min m.data.length (n.groups - m.group.toNat))).foldl (fun cs j => smPut cs (m.group.toNat + j) (leAt m.data j 1)) c.codes }) s)) ∧
    (∀ cmd, (cmd = .sum d m ∧ m.op = 3 ∨ cmd = .onebit d m ∧ m.op = 4) → let gs := (List.range m.ngrp).zip (msgGroups m)
      ((∀ p ∈ gs, tally p.2.1 = p.2.2) → let fresh := gs.filter (fun p => (smFind c.vals (m.group.toNat + p.1)).isNone && decide (m.group.toNat + p.1 < n.groups))
        let u := setNodeRt i (putChild r { c with vals := fresh.foldl (fun v p => smPut v (m.group.toNat + p.1) p.2) c.vals }) (bumpReg (dieKey n.die 0x81A001) fresh.length s)
        exec cmd s = on (highReg (dieKey n.die 0x81A008) (bufferKiB u n.die) u)) ∧
      ((∃ p ∈ gs, tally p.2.1 ≠ p.2.2) → m.group.toNat ∉ c.retried → exec cmd s = .next (drainReduce reduceFuel (sendReduce n.die m.src.toNat { m with op := 7, width := false, data := [] }
        (setNodeRt i (putChild r { c with retried := c.retried ++ [m.group.toNat] }) (bumpReg (dieKey n.die 0x81A004) m.ngrp (bumpReg (dieKey n.die 0x81A002) 1 s)))))) ∧
      ((∃ p ∈ gs, tally p.2.1 ≠ p.2.2) → m.group.toNat ∈ c.retried → s.reduce.queue = [] → ∃ t, exec cmd s = .next t ∧ raised 0x7004 t ∧
        t.step.engine = some (epCoord m.src.toNat, epDie m.src.toNat) ∧ (s.step.phase = .attempt → 8 ∈ t.step.causes) ∧ t.reduce = s.reduce)) ∧
    (m.op = 6 → (∀ p ∈ (List.range m.ngrp).zip (msgGroups m), tally p.2.1 = p.2.2) →
      ∃ u k, exec (.raw d m) s = on u ∧ u = { s with regs := u.regs, reduce := u.reduce } ∧ u.nodeRt i = putChild r k ∧
        k.vals = (((List.range m.ngrp).zip (msgGroups m)).filter (fun p => (smFind c.vals (m.group.toNat + p.1)).isNone && decide (m.group.toNat + p.1 < n.groups))).foldl
          (fun v p => smPut v (m.group.toNat + p.1) p.2) c.vals ∧
        k.codes = (List.range m.ngrp).foldl (fun cs j => smPut cs (m.group.toNat + j) (leAt m.data (m.ngrp * 128 + 64 + j) 1)) c.codes) ∧
    (m.op = 5 → let k := { c with hash := some (leAt m.data 0 8) }
      let other := r.children.find? (fun x => x.leafin == k.leafin && x.csrc == k.csrc && x.catch_ != k.catch_ && x.hash.isSome)
      (other = none → exec (.hash d m) s = on (setNodeRt i (putChild r k) s)) ∧
      (∀ o, other = some o → o.hash = k.hash → exec (.hash d m) s = on (bumpReg 0x502006 1 (setNodeRt i (putChild r k) s))) ∧
      (∀ o, other = some o → o.hash ≠ k.hash → ∃ u, exec (.hash d m) s = on u ∧ raised 0x7005 u ∧ u.reg 0x502007 = (s.reg 0x502007 + 1) % 2 ^ counterBits 0x502007 ∧
        (s.step.phase = .attempt → 8 ∈ u.step.causes) ∧ u.nodeRt i = putChild r k)) ∧
    ((effective r).length < n.nchild → progress i n s = s)) ∧
  (∀ (d : Fin 4) (m : ReduceMsg) (j : Nat) (n : Node) (s : State), m.op = 7 → tilesLive s = true → m.stag = s.dieTags.getD d 0 → m.layer.toNat < 0x8000 →
    (List.range s.job.nodes.length).find? (fun j => match s.job.nodes[j]? with
      | some n => n.die == d && n.layer == m.layer.toNat && n.shard == m.shard.toNat && n.leaf == m.leafin && n.nodeId == m.csrc.toNat
      | none => false) = some j → s.job.nodes[j]? = some n →
    exec (.resend d m) s = .next (drainReduce reduceFuel (allOf ((s.nodeRt j).kept.filter (fun k => (k.op == 3 || k.op == 4 || k.op == 6) && decide (k.group.toNat < m.group.toNat + m.ngrp)
      && decide (m.group.toNat < k.group.toNat + k.ngrp))) (fun k => sendReduce n.die m.src.toNat k) s))) ∧
  (∀ (d : Fin 4) (m : ReduceMsg) (j : Nat) (n : Node) (s : State), m.op = 2 → tilesLive s = true → m.stag = s.dieTags.getD d 0 → m.layer.toNat < 0x8000 →
    (List.range s.job.nodes.length).filter (fun j => match s.job.nodes[j]? with
      | some n => n.die == d && n.layer == m.layer.toNat && n.shard == m.shard.toNat && !n.root && n.parent / 1024 == m.src.toNat / 1024
      | none => false) = [j] → s.job.nodes[j]? = some n →
    let r := s.nodeRt j
    let a := (List.range (min m.data.length (n.groups - m.group.toNat))).foldl (fun cs k => smPut cs (m.group.toNat + k) (leAt m.data k 1)) r.agreed
    let u := setNodeRt j { r with agreed := a } s
    ((∃ g < n.groups, smFind a g = none) → exec (.agreed d m) s = .next (drainReduce reduceFuel u)) ∧
    ((∀ g < n.groups, (smFind a g).isSome = true) → r.sent = false →
      (n.leaf = true → exec (.agreed d m) s = .next (drainReduce reduceFuel (leafSums j n (fun g => smGetD a g 0) (setNodeRt j { r with agreed := a, sent := true } u)))) ∧
      (n.leaf = false → exec (.agreed d m) s = .next (drainReduce reduceFuel (progress j n (sendAgreed n r ((List.range n.groups).map (fun g => smGetD a g 0)) u)))))) ∧
  (∀ (d : Fin 4) (m : ReduceMsg) (cmd : Instr) (s : State), tilesLive s = true → reduceCommand d m = some cmd →
    (m.stag = nextTag (s.dieTags.getD d 0) → m.stag ≠ s.dieTags.getD d 0 → exec cmd s = .next { s with reduce := { s.reduce with held := s.reduce.held ++ [(d.val, m)] } }) ∧
    (m.stag ≠ nextTag (s.dieTags.getD d 0) → m.stag ≠ s.dieTags.getD d 0 → exec cmd s = .next (bumpReg (dieKey d 0x806003) 1 s))) ∧
  (∀ s : State, s.life = .running → s.step.phase = .attempt → s.reduce.started = false → layersReady s = true → s.job.nodes = [] → s.tables.shards = [] → s.reduce.queue = [] →
    exec .reductionStart s = .next { s with reduce := { s.reduce with started := true }, step := { s.step with gs := 0 } }) ∧
  (∀ (d : Fin 4) (layer shard : BitVec 16) (i : Nat) (n : Node) (x y : ChildIn) (s : State), s.life ≠ .off → nodeAt s d layer.toNat shard.toNat = some i → s.job.nodes[i]? = some n →
    let r := s.nodeRt i
    r.sent = false → r.children = [x] → x.catch_ = true → r.taken = [] → catcherCopy s n r x.csrc = some y →
    ∃ u, exec (.catcherDeadline d layer shard) s = .next (drainReduce reduceFuel (drainReduce reduceFuel (progress i n u))) ∧ raised 0x9005 u ∧
      (u.nodeRt i).taken = [x.csrc] ∧ u.reg 0x502005 = (s.reg 0x502005 + 1) % 2 ^ counterBits 0x502005)
end

