-- ==== Sys2Proof/Laws/Maps.lean ====
section
/-!
SUPPORT. Laws of the sparse stores and of the byte memory: a read after a write, and the canonical form kept by every
memory operation.
-/

namespace Sys2Proof.Machine

/-! ### Sparse stores -/

@[simp] theorem smFind_smPut_self {α : Type} (m : SMap α) (a : Nat) (v : α) : smFind (smPut m a v) a = some v := by
  induction m with
  | nil => simp [smPut, smFind]
  | cons c m ih =>
    obtain ⟨k, w⟩ := c
    simp only [smPut]
    by_cases h1 : a < k
    · simp [h1, smFind]
    · by_cases h2 : a = k
      · subst h2; simp [smFind]
      · have h3 : ¬ k = a := fun h => h2 h.symm
        simp [h1, h2, h3, smFind, ih]

theorem smFind_smPut_ne {α : Type} (m : SMap α) (a b : Nat) (v : α) (h : a ≠ b) : smFind (smPut m a v) b = smFind m b := by
  induction m with
  | nil => simp [smPut, smFind, h]
  | cons c m ih =>
    obtain ⟨k, w⟩ := c
    simp only [smPut]
    by_cases h1 : a < k
    · simp [h1, smFind, h]
    · by_cases h2 : a = k
      · subst h2; simp [smFind, h]
      · simp only [h1, h2, if_false, smFind, ih]

theorem smFind_smPut {α : Type} (m : SMap α) (a b : Nat) (v : α) :
    smFind (smPut m a v) b = if a = b then some v else smFind m b := by
  by_cases h : a = b
  · subst h; simp
  · rw [if_neg h, smFind_smPut_ne m a b v h]

@[simp] theorem smGetD_smPut_self {α : Type} (m : SMap α) (a : Nat) (v d : α) : smGetD (smPut m a v) a d = v := by
  simp [smGetD]

theorem smGetD_smPut_ne {α : Type} (m : SMap α) (a b : Nat) (v d : α) (h : a ≠ b) :
    smGetD (smPut m a v) b d = smGetD m b d := by
  simp [smGetD, smFind_smPut_ne m a b v h]

theorem smGetD_smPut {α : Type} (m : SMap α) (a b : Nat) (v d : α) :
    smGetD (smPut m a v) b d = if a = b then v else smGetD m b d := by
  by_cases h : a = b
  · subst h; simp
  · simp [h, smGetD_smPut_ne m a b v d h]

theorem smSortedFrom_smPut {α : Type} (m : SMap α) (a : Nat) (v : α) (lo : Option Nat)
    (h : smSortedFrom lo m = true) (ha : ∀ l, lo = some l → l < a) : smSortedFrom lo (smPut m a v) = true := by
  induction m generalizing lo with
  | nil => cases lo <;> simp_all [smPut, smSortedFrom]
  | cons c m ih =>
    obtain ⟨k, w⟩ := c
    simp only [smPut]
    by_cases h1 : a < k
    · cases lo <;> simp_all [smSortedFrom]
    · by_cases h2 : a = k
      · subst h2; cases lo <;> simp_all [smSortedFrom]
      · have hs : smSortedFrom (some k) (smPut m a v) = true := by
          refine ih (some k) ?_ ?_
          · cases lo <;> simp_all [smSortedFrom]
          · intro l hl; cases hl; omega
        simp only [h1, h2, if_false]
        cases lo <;> simp_all [smSortedFrom]

theorem smSorted_smPut {α : Type} (m : SMap α) (a : Nat) (v : α) (h : smSorted m = true) :
    smSorted (smPut m a v) = true := smSortedFrom_smPut m a v none h (by simp)

theorem smSortedFrom_weaken {α : Type} (m : SMap α) (k l : Nat) (h : smSortedFrom (some k) m = true) (hl : l ≤ k) :
    smSortedFrom (some l) m = true := by
  cases m with
  | nil => simp [smSortedFrom]
  | cons c m => simp_all [smSortedFrom]; omega

theorem smSortedFrom_none {α : Type} (m : SMap α) (k : Nat) (h : smSortedFrom (some k) m = true) :
    smSortedFrom none m = true := by
  cases m <;> simp_all [smSortedFrom]

theorem smSortedFrom_smDel {α : Type} (m : SMap α) (a : Nat) (lo : Option Nat) (h : smSortedFrom lo m = true) :
    smSortedFrom lo (smDel m a) = true := by
  induction m generalizing lo with
  | nil => simp [smDel, smSortedFrom]
  | cons c m ih =>
    obtain ⟨k, w⟩ := c
    simp only [smDel]
    by_cases h1 : k = a
    · simp only [h1, if_true]
      refine ih lo ?_
      cases lo with
      | none => exact smSortedFrom_none m k (by simp_all [smSortedFrom])
      | some l =>
        simp only [smSortedFrom, Bool.and_eq_true, decide_eq_true_eq] at h
        exact smSortedFrom_weaken m k l h.2 (by omega)
    · simp only [h1, if_false]
      cases lo <;> simp_all [smSortedFrom]

theorem smSorted_smDel {α : Type} (m : SMap α) (a : Nat) (h : smSorted m = true) : smSorted (smDel m a) = true :=
  smSortedFrom_smDel m a none h

@[simp] theorem smFind_smDel_self {α : Type} (m : SMap α) (a : Nat) : smFind (smDel m a) a = none := by
  induction m with
  | nil => rfl
  | cons c m ih =>
    obtain ⟨k, w⟩ := c
    simp only [smDel]
    by_cases h1 : k = a <;> simp [h1, smFind, ih]

theorem smFind_smDel {α : Type} (m : SMap α) (a b : Nat) : smFind (smDel m a) b = if a = b then none else smFind m b := by
  by_cases h : a = b
  · subst h; simp
  · rw [if_neg h]
    induction m with
    | nil => rfl
    | cons c m ih =>
      obtain ⟨k, w⟩ := c
      simp only [smDel]
      by_cases h1 : k = a
      · have h2 : ¬ k = b := fun e => h (h1.symm.trans e)
        simp only [h1, if_true, smFind, ih]
        rw [if_neg h]
      · simp only [h1, if_false, smFind, ih]

/-! ### The byte memory -/

theorem all_smPut {α : Type} (m : SMap α) (a : Nat) (v : α) (p : Nat × α → Bool) (hm : m.all p = true) (hv : p (a, v) = true) :
    (smPut m a v).all p = true := by
  induction m with
  | nil => simp [smPut, hv]
  | cons c m ih =>
    obtain ⟨k, w⟩ := c
    simp only [List.all_cons, Bool.and_eq_true] at hm
    simp only [smPut]
    by_cases h1 : a < k
    · simp [h1, hv, hm.1, hm.2]
    · by_cases h2 : a = k
      · simp [h2, hm.2]; rw [← h2]; exact hv
      · simp [h1, h2, hm.1, ih hm.2]

theorem all_smDel {α : Type} (m : SMap α) (a : Nat) (p : Nat × α → Bool) (hm : m.all p = true) :
    (smDel m a).all p = true := by
  induction m with
  | nil => simp [smDel]
  | cons c m ih =>
    obtain ⟨k, w⟩ := c
    simp only [List.all_cons, Bool.and_eq_true] at hm
    simp only [smDel]
    by_cases h1 : k = a
    · simp [h1, ih hm.2]
    · simp [h1, hm.1, ih hm.2]

/-- Writing a byte keeps the canonical form. -/
theorem memWf_writeByte (m : Memory) (a : Nat) (b : Byte) (h : memWf m = true) : memWf (writeByte m a b) = true := by
  simp only [memWf, Bool.and_eq_true] at h ⊢
  unfold writeByte
  by_cases hb : b = 0
  · simp only [hb, if_true]
    exact ⟨smSorted_smDel m a h.1, all_smDel m a _ h.2⟩
  · simp only [hb, if_false]
    exact ⟨smSorted_smPut m a b h.1, all_smPut m a b _ h.2 (by simpa using hb)⟩

/-- Writing bytes keeps the canonical form. -/
theorem memWf_writeBytes (m : Memory) (a : Nat) (bs : List Byte) (h : memWf m = true) :
    memWf (writeBytes m a bs) = true := by
  induction bs generalizing m a with
  | nil => exact h
  | cons b bs ih => exact ih (writeByte m a b) (a + 1) (memWf_writeByte m a b h)

/-- Writing a number keeps the canonical form. -/
theorem memWf_writeLE (m : Memory) (a n v : Nat) (h : memWf m = true) : memWf (writeLE m a n v) = true :=
  memWf_writeBytes m a (leBytes n v) h

/-- What is read after one byte was written. -/
theorem readByte_writeByte (m : Memory) (a x : Nat) (b : Byte) :
    readByte (writeByte m a b) x = if a = x then b else readByte m x := by
  unfold writeByte readByte smGetD
  by_cases hb : b = 0
  · simp only [hb, if_true, smFind_smDel m a x]
    by_cases hx : a = x <;> simp [hx]
  · simp only [hb, if_false, smFind_smPut m a x b]
    by_cases hx : a = x <;> simp [hx]

theorem readByte_writeByte_ne (m : Memory) (a x : Nat) (b : Byte) (hx : a ≠ x) :
    readByte (writeByte m a b) x = readByte m x := by
  rw [readByte_writeByte m a x b]; simp [hx]

/-- What is read after bytes were written: inside the range the byte written, outside it what was there. -/
theorem readByte_writeBytes (m : Memory) (a x : Nat) (bs : List Byte) :
    readByte (writeBytes m a bs) x = if a ≤ x ∧ x < a + bs.length then bs.getD (x - a) 0 else readByte m x := by
  induction bs generalizing m a with
  | nil =>
    have : ¬ (a ≤ x ∧ x < a + ([] : List Byte).length) := by simp
    simp only [writeBytes, this, if_false]
  | cons b bs ih =>
    simp only [writeBytes, List.length_cons]
    rw [ih (writeByte m a b) (a + 1), readByte_writeByte m a x b]
    by_cases h1 : a = x
    · subst h1
      have : ¬ (a + 1 ≤ a ∧ a < a + 1 + bs.length) := by omega
      simp only [this, if_false, if_true]
      have h2 : a ≤ a ∧ a < a + (bs.length + 1) := by omega
      simp [h2]
    · by_cases h2 : a + 1 ≤ x ∧ x < a + 1 + bs.length
      · have h3 : a ≤ x ∧ x < a + (bs.length + 1) := by omega
        simp only [h2, and_self, if_true, h3]
        have h4 : x - a = (x - (a + 1)) + 1 := by omega
        rw [h4]; simp
      · have h3 : ¬ (a ≤ x ∧ x < a + (bs.length + 1)) := by omega
        simp only [h2, if_false, h1, h3]

theorem readByte_writeBytes_outside (m : Memory) (a x : Nat) (bs : List Byte)
    (hx : x < a ∨ a + bs.length ≤ x) : readByte (writeBytes m a bs) x = readByte m x := by
  rw [readByte_writeBytes m a x bs]
  have : ¬ (a ≤ x ∧ x < a + bs.length) := by omega
  simp only [this, if_false]

@[simp] theorem length_readBytes (m : Memory) (a n : Nat) : (readBytes m a n).length = n := by
  induction n generalizing a with
  | zero => rfl
  | succ n ih => simp [readBytes, ih]

theorem getElem?_readBytes (m : Memory) (a n i : Nat) (hi : i < n) : (readBytes m a n)[i]? = some (readByte m (a + i)) := by
  induction n generalizing a i with
  | zero => omega
  | succ n ih =>
    cases i with
    | zero => simp [readBytes]
    | succ i =>
      simp only [readBytes, List.getElem?_cons_succ]
      rw [ih (a + 1) i (by omega)]
      congr 2; omega

/-- Bytes read after they were written. -/
theorem readBytes_writeBytes (m : Memory) (a : Nat) (bs : List Byte) :
    readBytes (writeBytes m a bs) a bs.length = bs := by
  apply List.ext_getElem?
  intro i
  by_cases hi : i < bs.length
  · rw [getElem?_readBytes _ _ _ _ hi, readByte_writeBytes m a (a + i) bs]
    have : a ≤ a + i ∧ a + i < a + bs.length := by omega
    simp [this, hi]
  · rw [List.getElem?_eq_none (by simpa using hi), List.getElem?_eq_none (by simpa using hi)]

/-- Reading elsewhere after bytes were written. -/
theorem readBytes_writeBytes_outside (m : Memory) (a x n : Nat) (bs : List Byte)
    (hx : x + n ≤ a ∨ a + bs.length ≤ x) : readBytes (writeBytes m a bs) x n = readBytes m x n := by
  induction n generalizing x with
  | zero => rfl
  | succ n ih =>
    simp only [readBytes]
    rw [readByte_writeBytes_outside m a x bs (by omega), ih (x + 1) (by omega)]

/-! ### Little-endian numbers -/

@[simp] theorem length_leBytes (n v : Nat) : (leBytes n v).length = n := by
  induction n generalizing v with
  | zero => rfl
  | succ n ih => simp [leBytes, ih]

theorem leNat_leBytes (n v : Nat) : leNat (leBytes n v) = v % 256 ^ n := by
  induction n generalizing v with
  | zero => simp [leBytes, leNat, Nat.mod_one]
  | succ n ih =>
    simp only [leBytes, leNat, ih, BitVec.toNat_ofNat]
    rw [show (2 : Nat) ^ 8 = 256 from rfl, Nat.pow_succ' (m := 256), Nat.mod_mul]

end Sys2Proof.Machine
end

