-- ==== Sys2Proof/Laws/State.lean ====
section
/-!
SUPPORT. What each update of one part of the state leaves alone: one lemma per field per update. Generated by a script from the
list of fields; every lemma holds by unfolding.
-/

namespace Sys2Proof.Machine

@[simp] theorem setReg_life (k v : Nat) (s : State) : (setReg k v s).life = s.life := rfl
@[simp] theorem setReg_now (k v : Nat) (s : State) : (setReg k v s).now = s.now := rfl
@[simp] theorem setReg_blobs (k v : Nat) (s : State) : (setReg k v s).blobs = s.blobs := rfl
@[simp] theorem setReg_mem (k v : Nat) (s : State) : (setReg k v s).mem = s.mem := rfl
@[simp] theorem setReg_bad (k v : Nat) (s : State) : (setReg k v s).bad = s.bad := rfl
@[simp] theorem setReg_tiles (k v : Nat) (s : State) : (setReg k v s).tiles = s.tiles := rfl
@[simp] theorem setReg_store (k v : Nat) (s : State) : (setReg k v s).store = s.store := rfl
@[simp] theorem setReg_startImg (k v : Nat) (s : State) : (setReg k v s).startImg = s.startImg := rfl
@[simp] theorem setReg_pages (k v : Nat) (s : State) : (setReg k v s).pages = s.pages := rfl
@[simp] theorem setReg_early (k v : Nat) (s : State) : (setReg k v s).early = s.early := rfl
@[simp] theorem setReg_job (k v : Nat) (s : State) : (setReg k v s).job = s.job := rfl
@[simp] theorem setReg_step (k v : Nat) (s : State) : (setReg k v s).step = s.step := rfl
@[simp] theorem setReg_ctxs (k v : Nat) (s : State) : (setReg k v s).ctxs = s.ctxs := rfl
@[simp] theorem setReg_pagers (k v : Nat) (s : State) : (setReg k v s).pagers = s.pagers := rfl
@[simp] theorem setReg_trunk (k v : Nat) (s : State) : (setReg k v s).trunk = s.trunk := rfl
@[simp] theorem setReg_evBatch (k v : Nat) (s : State) : (setReg k v s).evBatch = s.evBatch := rfl
@[simp] theorem setReg_evFrames (k v : Nat) (s : State) : (setReg k v s).evFrames = s.evFrames := rfl
@[simp] theorem setReg_flowsTx (k v : Nat) (s : State) : (setReg k v s).flowsTx = s.flowsTx := rfl
@[simp] theorem setReg_flowsRx (k v : Nat) (s : State) : (setReg k v s).flowsRx = s.flowsRx := rfl
@[simp] theorem setReg_reads (k v : Nat) (s : State) : (setReg k v s).reads = s.reads := rfl
@[simp] theorem setReg_txWait (k v : Nat) (s : State) : (setReg k v s).txWait = s.txWait := rfl
@[simp] theorem setReg_resendNext (k v : Nat) (s : State) : (setReg k v s).resendNext = s.resendNext := rfl
@[simp] theorem setReg_desc (k v : Nat) (s : State) : (setReg k v s).desc = s.desc := rfl
@[simp] theorem setReg_adopted (k v : Nat) (s : State) : (setReg k v s).adopted = s.adopted := rfl
@[simp] theorem setReg_ports (k v : Nat) (s : State) : (setReg k v s).ports = s.ports := rfl
@[simp] theorem setReg_rounded (k v : Nat) (s : State) : (setReg k v s).rounded = s.rounded := rfl
@[simp] theorem setReg_edges (k v : Nat) (s : State) : (setReg k v s).edges = s.edges := rfl
@[simp] theorem setReg_samples (k v : Nat) (s : State) : (setReg k v s).samples = s.samples := rfl
@[simp] theorem setReg_layerReady (k v : Nat) (s : State) : (setReg k v s).layerReady = s.layerReady := rfl
@[simp] theorem setReg_dieTags (k v : Nat) (s : State) : (setReg k v s).dieTags = s.dieTags := rfl
@[simp] theorem setReg_rings (k v : Nat) (s : State) : (setReg k v s).rings = s.rings := rfl
@[simp] theorem setReg_retired (k v : Nat) (s : State) : (setReg k v s).retired = s.retired := rfl
@[simp] theorem setReg_spareBad (k v : Nat) (s : State) : (setReg k v s).spareBad = s.spareBad := rfl
@[simp] theorem setReg_bypassBad (k v : Nat) (s : State) : (setReg k v s).bypassBad = s.bypassBad := rfl
@[simp] theorem setReg_retireQ (k v : Nat) (s : State) : (setReg k v s).retireQ = s.retireQ := rfl
@[simp] theorem setReg_history (k v : Nat) (s : State) : (setReg k v s).history = s.history := rfl
@[simp] theorem setReg_stackCounts (k v : Nat) (s : State) : (setReg k v s).stackCounts = s.stackCounts := rfl
@[simp] theorem setReg_bankHours (k v : Nat) (s : State) : (setReg k v s).bankHours = s.bankHours := rfl
@[simp] theorem setReg_tileHours (k v : Nat) (s : State) : (setReg k v s).tileHours = s.tileHours := rfl
@[simp] theorem setReg_repairRows (k v : Nat) (s : State) : (setReg k v s).repairRows = s.repairRows := rfl
@[simp] theorem setReg_badSeen (k v : Nat) (s : State) : (setReg k v s).badSeen = s.badSeen := rfl
@[simp] theorem setReg_rewritten (k v : Nat) (s : State) : (setReg k v s).rewritten = s.rewritten := rfl
@[simp] theorem setReg_tables (k v : Nat) (s : State) : (setReg k v s).tables = s.tables := rfl
@[simp] theorem setReg_host (k v : Nat) (s : State) : (setReg k v s).host = s.host := rfl
@[simp] theorem setReg_windows (k v : Nat) (s : State) : (setReg k v s).windows = s.windows := rfl
@[simp] theorem setReg_reduce (k v : Nat) (s : State) : (setReg k v s).reduce = s.reduce := rfl
@[simp] theorem setReg_gal (k v : Nat) (s : State) : (setReg k v s).gal = s.gal := rfl
@[simp] theorem setReg_steer (k v : Nat) (s : State) : (setReg k v s).steer = s.steer := rfl
@[simp] theorem setReg_recov (k v : Nat) (s : State) : (setReg k v s).recov = s.recov := rfl
@[simp] theorem setReg_tarvy (k v : Nat) (s : State) : (setReg k v s).tarvy = s.tarvy := rfl
@[simp] theorem setReg_board (k v : Nat) (s : State) : (setReg k v s).board = s.board := rfl
@[simp] theorem setReg_free (k v : Nat) (s : State) : (setReg k v s).free = s.free := rfl
@[simp] theorem setReg_out (k v : Nat) (s : State) : (setReg k v s).out = s.out := rfl
@[simp] theorem setReg_pending (k v : Nat) (s : State) : (setReg k v s).pending = s.pending := rfl
@[simp] theorem setReg_tile_of (k v : Nat) (s : State) (j : Nat) : (setReg k v s).tile j = s.tile j := by simp only [State.tile, setReg_tiles]
@[simp] theorem setReg_blob_of (k v : Nat) (s : State) (j : Nat) : (setReg k v s).blob j = s.blob j := by simp only [State.blob, setReg_blobs]
@[simp] theorem setReg_bytes_of (k v : Nat) (s : State) (x m : Nat) : (setReg k v s).bytes x m = s.bytes x m := by simp only [State.bytes, setReg_mem]
@[simp] theorem setReg_le_of (k v : Nat) (s : State) (x m : Nat) : (setReg k v s).le x m = s.le x m := by simp only [State.le, setReg_mem]

@[simp] theorem bumpReg_life (k n : Nat) (s : State) : (bumpReg k n s).life = s.life := rfl
@[simp] theorem bumpReg_now (k n : Nat) (s : State) : (bumpReg k n s).now = s.now := rfl
@[simp] theorem bumpReg_blobs (k n : Nat) (s : State) : (bumpReg k n s).blobs = s.blobs := rfl
@[simp] theorem bumpReg_mem (k n : Nat) (s : State) : (bumpReg k n s).mem = s.mem := rfl
@[simp] theorem bumpReg_bad (k n : Nat) (s : State) : (bumpReg k n s).bad = s.bad := rfl
@[simp] theorem bumpReg_tiles (k n : Nat) (s : State) : (bumpReg k n s).tiles = s.tiles := rfl
@[simp] theorem bumpReg_store (k n : Nat) (s : State) : (bumpReg k n s).store = s.store := rfl
@[simp] theorem bumpReg_startImg (k n : Nat) (s : State) : (bumpReg k n s).startImg = s.startImg := rfl
@[simp] theorem bumpReg_pages (k n : Nat) (s : State) : (bumpReg k n s).pages = s.pages := rfl
@[simp] theorem bumpReg_early (k n : Nat) (s : State) : (bumpReg k n s).early = s.early := rfl
@[simp] theorem bumpReg_job (k n : Nat) (s : State) : (bumpReg k n s).job = s.job := rfl
@[simp] theorem bumpReg_step (k n : Nat) (s : State) : (bumpReg k n s).step = s.step := rfl
@[simp] theorem bumpReg_ctxs (k n : Nat) (s : State) : (bumpReg k n s).ctxs = s.ctxs := rfl
@[simp] theorem bumpReg_pagers (k n : Nat) (s : State) : (bumpReg k n s).pagers = s.pagers := rfl
@[simp] theorem bumpReg_trunk (k n : Nat) (s : State) : (bumpReg k n s).trunk = s.trunk := rfl
@[simp] theorem bumpReg_evBatch (k n : Nat) (s : State) : (bumpReg k n s).evBatch = s.evBatch := rfl
@[simp] theorem bumpReg_evFrames (k n : Nat) (s : State) : (bumpReg k n s).evFrames = s.evFrames := rfl
@[simp] theorem bumpReg_flowsTx (k n : Nat) (s : State) : (bumpReg k n s).flowsTx = s.flowsTx := rfl
@[simp] theorem bumpReg_flowsRx (k n : Nat) (s : State) : (bumpReg k n s).flowsRx = s.flowsRx := rfl
@[simp] theorem bumpReg_reads (k n : Nat) (s : State) : (bumpReg k n s).reads = s.reads := rfl
@[simp] theorem bumpReg_txWait (k n : Nat) (s : State) : (bumpReg k n s).txWait = s.txWait := rfl
@[simp] theorem bumpReg_resendNext (k n : Nat) (s : State) : (bumpReg k n s).resendNext = s.resendNext := rfl
@[simp] theorem bumpReg_desc (k n : Nat) (s : State) : (bumpReg k n s).desc = s.desc := rfl
@[simp] theorem bumpReg_adopted (k n : Nat) (s : State) : (bumpReg k n s).adopted = s.adopted := rfl
@[simp] theorem bumpReg_ports (k n : Nat) (s : State) : (bumpReg k n s).ports = s.ports := rfl
@[simp] theorem bumpReg_rounded (k n : Nat) (s : State) : (bumpReg k n s).rounded = s.rounded := rfl
@[simp] theorem bumpReg_edges (k n : Nat) (s : State) : (bumpReg k n s).edges = s.edges := rfl
@[simp] theorem bumpReg_samples (k n : Nat) (s : State) : (bumpReg k n s).samples = s.samples := rfl
@[simp] theorem bumpReg_layerReady (k n : Nat) (s : State) : (bumpReg k n s).layerReady = s.layerReady := rfl
@[simp] theorem bumpReg_dieTags (k n : Nat) (s : State) : (bumpReg k n s).dieTags = s.dieTags := rfl
@[simp] theorem bumpReg_rings (k n : Nat) (s : State) : (bumpReg k n s).rings = s.rings := rfl
@[simp] theorem bumpReg_retired (k n : Nat) (s : State) : (bumpReg k n s).retired = s.retired := rfl
@[simp] theorem bumpReg_spareBad (k n : Nat) (s : State) : (bumpReg k n s).spareBad = s.spareBad := rfl
@[simp] theorem bumpReg_bypassBad (k n : Nat) (s : State) : (bumpReg k n s).bypassBad = s.bypassBad := rfl
@[simp] theorem bumpReg_retireQ (k n : Nat) (s : State) : (bumpReg k n s).retireQ = s.retireQ := rfl
@[simp] theorem bumpReg_history (k n : Nat) (s : State) : (bumpReg k n s).history = s.history := rfl
@[simp] theorem bumpReg_stackCounts (k n : Nat) (s : State) : (bumpReg k n s).stackCounts = s.stackCounts := rfl
@[simp] theorem bumpReg_bankHours (k n : Nat) (s : State) : (bumpReg k n s).bankHours = s.bankHours := rfl
@[simp] theorem bumpReg_tileHours (k n : Nat) (s : State) : (bumpReg k n s).tileHours = s.tileHours := rfl
@[simp] theorem bumpReg_repairRows (k n : Nat) (s : State) : (bumpReg k n s).repairRows = s.repairRows := rfl
@[simp] theorem bumpReg_badSeen (k n : Nat) (s : State) : (bumpReg k n s).badSeen = s.badSeen := rfl
@[simp] theorem bumpReg_rewritten (k n : Nat) (s : State) : (bumpReg k n s).rewritten = s.rewritten := rfl
@[simp] theorem bumpReg_tables (k n : Nat) (s : State) : (bumpReg k n s).tables = s.tables := rfl
@[simp] theorem bumpReg_host (k n : Nat) (s : State) : (bumpReg k n s).host = s.host := rfl
@[simp] theorem bumpReg_windows (k n : Nat) (s : State) : (bumpReg k n s).windows = s.windows := rfl
@[simp] theorem bumpReg_reduce (k n : Nat) (s : State) : (bumpReg k n s).reduce = s.reduce := rfl
@[simp] theorem bumpReg_gal (k n : Nat) (s : State) : (bumpReg k n s).gal = s.gal := rfl
@[simp] theorem bumpReg_steer (k n : Nat) (s : State) : (bumpReg k n s).steer = s.steer := rfl
@[simp] theorem bumpReg_recov (k n : Nat) (s : State) : (bumpReg k n s).recov = s.recov := rfl
@[simp] theorem bumpReg_tarvy (k n : Nat) (s : State) : (bumpReg k n s).tarvy = s.tarvy := rfl
@[simp] theorem bumpReg_board (k n : Nat) (s : State) : (bumpReg k n s).board = s.board := rfl
@[simp] theorem bumpReg_free (k n : Nat) (s : State) : (bumpReg k n s).free = s.free := rfl
@[simp] theorem bumpReg_out (k n : Nat) (s : State) : (bumpReg k n s).out = s.out := rfl
@[simp] theorem bumpReg_pending (k n : Nat) (s : State) : (bumpReg k n s).pending = s.pending := rfl
@[simp] theorem bumpReg_tile_of (k n : Nat) (s : State) (j : Nat) : (bumpReg k n s).tile j = s.tile j := by simp only [State.tile, bumpReg_tiles]
@[simp] theorem bumpReg_blob_of (k n : Nat) (s : State) (j : Nat) : (bumpReg k n s).blob j = s.blob j := by simp only [State.blob, bumpReg_blobs]
@[simp] theorem bumpReg_bytes_of (k n : Nat) (s : State) (x m : Nat) : (bumpReg k n s).bytes x m = s.bytes x m := by simp only [State.bytes, bumpReg_mem]
@[simp] theorem bumpReg_le_of (k n : Nat) (s : State) (x m : Nat) : (bumpReg k n s).le x m = s.le x m := by simp only [State.le, bumpReg_mem]

@[simp] theorem satReg_life (k n : Nat) (s : State) : (satReg k n s).life = s.life := rfl
@[simp] theorem satReg_now (k n : Nat) (s : State) : (satReg k n s).now = s.now := rfl
@[simp] theorem satReg_blobs (k n : Nat) (s : State) : (satReg k n s).blobs = s.blobs := rfl
@[simp] theorem satReg_mem (k n : Nat) (s : State) : (satReg k n s).mem = s.mem := rfl
@[simp] theorem satReg_bad (k n : Nat) (s : State) : (satReg k n s).bad = s.bad := rfl
@[simp] theorem satReg_tiles (k n : Nat) (s : State) : (satReg k n s).tiles = s.tiles := rfl
@[simp] theorem satReg_store (k n : Nat) (s : State) : (satReg k n s).store = s.store := rfl
@[simp] theorem satReg_startImg (k n : Nat) (s : State) : (satReg k n s).startImg = s.startImg := rfl
@[simp] theorem satReg_pages (k n : Nat) (s : State) : (satReg k n s).pages = s.pages := rfl
@[simp] theorem satReg_early (k n : Nat) (s : State) : (satReg k n s).early = s.early := rfl
@[simp] theorem satReg_job (k n : Nat) (s : State) : (satReg k n s).job = s.job := rfl
@[simp] theorem satReg_step (k n : Nat) (s : State) : (satReg k n s).step = s.step := rfl
@[simp] theorem satReg_ctxs (k n : Nat) (s : State) : (satReg k n s).ctxs = s.ctxs := rfl
@[simp] theorem satReg_pagers (k n : Nat) (s : State) : (satReg k n s).pagers = s.pagers := rfl
@[simp] theorem satReg_trunk (k n : Nat) (s : State) : (satReg k n s).trunk = s.trunk := rfl
@[simp] theorem satReg_evBatch (k n : Nat) (s : State) : (satReg k n s).evBatch = s.evBatch := rfl
@[simp] theorem satReg_evFrames (k n : Nat) (s : State) : (satReg k n s).evFrames = s.evFrames := rfl
@[simp] theorem satReg_flowsTx (k n : Nat) (s : State) : (satReg k n s).flowsTx = s.flowsTx := rfl
@[simp] theorem satReg_flowsRx (k n : Nat) (s : State) : (satReg k n s).flowsRx = s.flowsRx := rfl
@[simp] theorem satReg_reads (k n : Nat) (s : State) : (satReg k n s).reads = s.reads := rfl
@[simp] theorem satReg_txWait (k n : Nat) (s : State) : (satReg k n s).txWait = s.txWait := rfl
@[simp] theorem satReg_resendNext (k n : Nat) (s : State) : (satReg k n s).resendNext = s.resendNext := rfl
@[simp] theorem satReg_desc (k n : Nat) (s : State) : (satReg k n s).desc = s.desc := rfl
@[simp] theorem satReg_adopted (k n : Nat) (s : State) : (satReg k n s).adopted = s.adopted := rfl
@[simp] theorem satReg_ports (k n : Nat) (s : State) : (satReg k n s).ports = s.ports := rfl
@[simp] theorem satReg_rounded (k n : Nat) (s : State) : (satReg k n s).rounded = s.rounded := rfl
@[simp] theorem satReg_edges (k n : Nat) (s : State) : (satReg k n s).edges = s.edges := rfl
@[simp] theorem satReg_samples (k n : Nat) (s : State) : (satReg k n s).samples = s.samples := rfl
@[simp] theorem satReg_layerReady (k n : Nat) (s : State) : (satReg k n s).layerReady = s.layerReady := rfl
@[simp] theorem satReg_dieTags (k n : Nat) (s : State) : (satReg k n s).dieTags = s.dieTags := rfl
@[simp] theorem satReg_rings (k n : Nat) (s : State) : (satReg k n s).rings = s.rings := rfl
@[simp] theorem satReg_retired (k n : Nat) (s : State) : (satReg k n s).retired = s.retired := rfl
@[simp] theorem satReg_spareBad (k n : Nat) (s : State) : (satReg k n s).spareBad = s.spareBad := rfl
@[simp] theorem satReg_bypassBad (k n : Nat) (s : State) : (satReg k n s).bypassBad = s.bypassBad := rfl
@[simp] theorem satReg_retireQ (k n : Nat) (s : State) : (satReg k n s).retireQ = s.retireQ := rfl
@[simp] theorem satReg_history (k n : Nat) (s : State) : (satReg k n s).history = s.history := rfl
@[simp] theorem satReg_stackCounts (k n : Nat) (s : State) : (satReg k n s).stackCounts = s.stackCounts := rfl
@[simp] theorem satReg_bankHours (k n : Nat) (s : State) : (satReg k n s).bankHours = s.bankHours := rfl
@[simp] theorem satReg_tileHours (k n : Nat) (s : State) : (satReg k n s).tileHours = s.tileHours := rfl
@[simp] theorem satReg_repairRows (k n : Nat) (s : State) : (satReg k n s).repairRows = s.repairRows := rfl
@[simp] theorem satReg_badSeen (k n : Nat) (s : State) : (satReg k n s).badSeen = s.badSeen := rfl
@[simp] theorem satReg_rewritten (k n : Nat) (s : State) : (satReg k n s).rewritten = s.rewritten := rfl
@[simp] theorem satReg_tables (k n : Nat) (s : State) : (satReg k n s).tables = s.tables := rfl
@[simp] theorem satReg_host (k n : Nat) (s : State) : (satReg k n s).host = s.host := rfl
@[simp] theorem satReg_windows (k n : Nat) (s : State) : (satReg k n s).windows = s.windows := rfl
@[simp] theorem satReg_reduce (k n : Nat) (s : State) : (satReg k n s).reduce = s.reduce := rfl
@[simp] theorem satReg_gal (k n : Nat) (s : State) : (satReg k n s).gal = s.gal := rfl
@[simp] theorem satReg_steer (k n : Nat) (s : State) : (satReg k n s).steer = s.steer := rfl
@[simp] theorem satReg_recov (k n : Nat) (s : State) : (satReg k n s).recov = s.recov := rfl
@[simp] theorem satReg_tarvy (k n : Nat) (s : State) : (satReg k n s).tarvy = s.tarvy := rfl
@[simp] theorem satReg_board (k n : Nat) (s : State) : (satReg k n s).board = s.board := rfl
@[simp] theorem satReg_free (k n : Nat) (s : State) : (satReg k n s).free = s.free := rfl
@[simp] theorem satReg_out (k n : Nat) (s : State) : (satReg k n s).out = s.out := rfl
@[simp] theorem satReg_pending (k n : Nat) (s : State) : (satReg k n s).pending = s.pending := rfl
@[simp] theorem satReg_tile_of (k n : Nat) (s : State) (j : Nat) : (satReg k n s).tile j = s.tile j := by simp only [State.tile, satReg_tiles]
@[simp] theorem satReg_blob_of (k n : Nat) (s : State) (j : Nat) : (satReg k n s).blob j = s.blob j := by simp only [State.blob, satReg_blobs]
@[simp] theorem satReg_bytes_of (k n : Nat) (s : State) (x m : Nat) : (satReg k n s).bytes x m = s.bytes x m := by simp only [State.bytes, satReg_mem]
@[simp] theorem satReg_le_of (k n : Nat) (s : State) (x m : Nat) : (satReg k n s).le x m = s.le x m := by simp only [State.le, satReg_mem]

@[simp] theorem highReg_life (k n : Nat) (s : State) : (highReg k n s).life = s.life := rfl
@[simp] theorem highReg_now (k n : Nat) (s : State) : (highReg k n s).now = s.now := rfl
@[simp] theorem highReg_blobs (k n : Nat) (s : State) : (highReg k n s).blobs = s.blobs := rfl
@[simp] theorem highReg_mem (k n : Nat) (s : State) : (highReg k n s).mem = s.mem := rfl
@[simp] theorem highReg_bad (k n : Nat) (s : State) : (highReg k n s).bad = s.bad := rfl
@[simp] theorem highReg_tiles (k n : Nat) (s : State) : (highReg k n s).tiles = s.tiles := rfl
@[simp] theorem highReg_store (k n : Nat) (s : State) : (highReg k n s).store = s.store := rfl
@[simp] theorem highReg_startImg (k n : Nat) (s : State) : (highReg k n s).startImg = s.startImg := rfl
@[simp] theorem highReg_pages (k n : Nat) (s : State) : (highReg k n s).pages = s.pages := rfl
@[simp] theorem highReg_early (k n : Nat) (s : State) : (highReg k n s).early = s.early := rfl
@[simp] theorem highReg_job (k n : Nat) (s : State) : (highReg k n s).job = s.job := rfl
@[simp] theorem highReg_step (k n : Nat) (s : State) : (highReg k n s).step = s.step := rfl
@[simp] theorem highReg_ctxs (k n : Nat) (s : State) : (highReg k n s).ctxs = s.ctxs := rfl
@[simp] theorem highReg_pagers (k n : Nat) (s : State) : (highReg k n s).pagers = s.pagers := rfl
@[simp] theorem highReg_trunk (k n : Nat) (s : State) : (highReg k n s).trunk = s.trunk := rfl
@[simp] theorem highReg_evBatch (k n : Nat) (s : State) : (highReg k n s).evBatch = s.evBatch := rfl
@[simp] theorem highReg_evFrames (k n : Nat) (s : State) : (highReg k n s).evFrames = s.evFrames := rfl
@[simp] theorem highReg_flowsTx (k n : Nat) (s : State) : (highReg k n s).flowsTx = s.flowsTx := rfl
@[simp] theorem highReg_flowsRx (k n : Nat) (s : State) : (highReg k n s).flowsRx = s.flowsRx := rfl
@[simp] theorem highReg_reads (k n : Nat) (s : State) : (highReg k n s).reads = s.reads := rfl
@[simp] theorem highReg_txWait (k n : Nat) (s : State) : (highReg k n s).txWait = s.txWait := rfl
@[simp] theorem highReg_resendNext (k n : Nat) (s : State) : (highReg k n s).resendNext = s.resendNext := rfl
@[simp] theorem highReg_desc (k n : Nat) (s : State) : (highReg k n s).desc = s.desc := rfl
@[simp] theorem highReg_adopted (k n : Nat) (s : State) : (highReg k n s).adopted = s.adopted := rfl
@[simp] theorem highReg_ports (k n : Nat) (s : State) : (highReg k n s).ports = s.ports := rfl
@[simp] theorem highReg_rounded (k n : Nat) (s : State) : (highReg k n s).rounded = s.rounded := rfl
@[simp] theorem highReg_edges (k n : Nat) (s : State) : (highReg k n s).edges = s.edges := rfl
@[simp] theorem highReg_samples (k n : Nat) (s : State) : (highReg k n s).samples = s.samples := rfl
@[simp] theorem highReg_layerReady (k n : Nat) (s : State) : (highReg k n s).layerReady = s.layerReady := rfl
@[simp] theorem highReg_dieTags (k n : Nat) (s : State) : (highReg k n s).dieTags = s.dieTags := rfl
@[simp] theorem highReg_rings (k n : Nat) (s : State) : (highReg k n s).rings = s.rings := rfl
@[simp] theorem highReg_retired (k n : Nat) (s : State) : (highReg k n s).retired = s.retired := rfl
@[simp] theorem highReg_spareBad (k n : Nat) (s : State) : (highReg k n s).spareBad = s.spareBad := rfl
@[simp] theorem highReg_bypassBad (k n : Nat) (s : State) : (highReg k n s).bypassBad = s.bypassBad := rfl
@[simp] theorem highReg_retireQ (k n : Nat) (s : State) : (highReg k n s).retireQ = s.retireQ := rfl
@[simp] theorem highReg_history (k n : Nat) (s : State) : (highReg k n s).history = s.history := rfl
@[simp] theorem highReg_stackCounts (k n : Nat) (s : State) : (highReg k n s).stackCounts = s.stackCounts := rfl
@[simp] theorem highReg_bankHours (k n : Nat) (s : State) : (highReg k n s).bankHours = s.bankHours := rfl
@[simp] theorem highReg_tileHours (k n : Nat) (s : State) : (highReg k n s).tileHours = s.tileHours := rfl
@[simp] theorem highReg_repairRows (k n : Nat) (s : State) : (highReg k n s).repairRows = s.repairRows := rfl
@[simp] theorem highReg_badSeen (k n : Nat) (s : State) : (highReg k n s).badSeen = s.badSeen := rfl
@[simp] theorem highReg_rewritten (k n : Nat) (s : State) : (highReg k n s).rewritten = s.rewritten := rfl
@[simp] theorem highReg_tables (k n : Nat) (s : State) : (highReg k n s).tables = s.tables := rfl
@[simp] theorem highReg_host (k n : Nat) (s : State) : (highReg k n s).host = s.host := rfl
@[simp] theorem highReg_windows (k n : Nat) (s : State) : (highReg k n s).windows = s.windows := rfl
@[simp] theorem highReg_reduce (k n : Nat) (s : State) : (highReg k n s).reduce = s.reduce := rfl
@[simp] theorem highReg_gal (k n : Nat) (s : State) : (highReg k n s).gal = s.gal := rfl
@[simp] theorem highReg_steer (k n : Nat) (s : State) : (highReg k n s).steer = s.steer := rfl
@[simp] theorem highReg_recov (k n : Nat) (s : State) : (highReg k n s).recov = s.recov := rfl
@[simp] theorem highReg_tarvy (k n : Nat) (s : State) : (highReg k n s).tarvy = s.tarvy := rfl
@[simp] theorem highReg_board (k n : Nat) (s : State) : (highReg k n s).board = s.board := rfl
@[simp] theorem highReg_free (k n : Nat) (s : State) : (highReg k n s).free = s.free := rfl
@[simp] theorem highReg_out (k n : Nat) (s : State) : (highReg k n s).out = s.out := rfl
@[simp] theorem highReg_pending (k n : Nat) (s : State) : (highReg k n s).pending = s.pending := rfl
@[simp] theorem highReg_tile_of (k n : Nat) (s : State) (j : Nat) : (highReg k n s).tile j = s.tile j := by simp only [State.tile, highReg_tiles]
@[simp] theorem highReg_blob_of (k n : Nat) (s : State) (j : Nat) : (highReg k n s).blob j = s.blob j := by simp only [State.blob, highReg_blobs]
@[simp] theorem highReg_bytes_of (k n : Nat) (s : State) (x m : Nat) : (highReg k n s).bytes x m = s.bytes x m := by simp only [State.bytes, highReg_mem]
@[simp] theorem highReg_le_of (k n : Nat) (s : State) (x m : Nat) : (highReg k n s).le x m = s.le x m := by simp only [State.le, highReg_mem]

@[simp] theorem setBlob_life (k : Nat) (v : List Byte) (s : State) : (setBlob k v s).life = s.life := rfl
@[simp] theorem setBlob_now (k : Nat) (v : List Byte) (s : State) : (setBlob k v s).now = s.now := rfl
@[simp] theorem setBlob_regs (k : Nat) (v : List Byte) (s : State) : (setBlob k v s).regs = s.regs := rfl
@[simp] theorem setBlob_mem (k : Nat) (v : List Byte) (s : State) : (setBlob k v s).mem = s.mem := rfl
@[simp] theorem setBlob_bad (k : Nat) (v : List Byte) (s : State) : (setBlob k v s).bad = s.bad := rfl
@[simp] theorem setBlob_tiles (k : Nat) (v : List Byte) (s : State) : (setBlob k v s).tiles = s.tiles := rfl
@[simp] theorem setBlob_store (k : Nat) (v : List Byte) (s : State) : (setBlob k v s).store = s.store := rfl
@[simp] theorem setBlob_startImg (k : Nat) (v : List Byte) (s : State) : (setBlob k v s).startImg = s.startImg := rfl
@[simp] theorem setBlob_pages (k : Nat) (v : List Byte) (s : State) : (setBlob k v s).pages = s.pages := rfl
@[simp] theorem setBlob_early (k : Nat) (v : List Byte) (s : State) : (setBlob k v s).early = s.early := rfl
@[simp] theorem setBlob_job (k : Nat) (v : List Byte) (s : State) : (setBlob k v s).job = s.job := rfl
@[simp] theorem setBlob_step (k : Nat) (v : List Byte) (s : State) : (setBlob k v s).step = s.step := rfl
@[simp] theorem setBlob_ctxs (k : Nat) (v : List Byte) (s : State) : (setBlob k v s).ctxs = s.ctxs := rfl
@[simp] theorem setBlob_pagers (k : Nat) (v : List Byte) (s : State) : (setBlob k v s).pagers = s.pagers := rfl
@[simp] theorem setBlob_trunk (k : Nat) (v : List Byte) (s : State) : (setBlob k v s).trunk = s.trunk := rfl
@[simp] theorem setBlob_evBatch (k : Nat) (v : List Byte) (s : State) : (setBlob k v s).evBatch = s.evBatch := rfl
@[simp] theorem setBlob_evFrames (k : Nat) (v : List Byte) (s : State) : (setBlob k v s).evFrames = s.evFrames := rfl
@[simp] theorem setBlob_flowsTx (k : Nat) (v : List Byte) (s : State) : (setBlob k v s).flowsTx = s.flowsTx := rfl
@[simp] theorem setBlob_flowsRx (k : Nat) (v : List Byte) (s : State) : (setBlob k v s).flowsRx = s.flowsRx := rfl
@[simp] theorem setBlob_reads (k : Nat) (v : List Byte) (s : State) : (setBlob k v s).reads = s.reads := rfl
@[simp] theorem setBlob_txWait (k : Nat) (v : List Byte) (s : State) : (setBlob k v s).txWait = s.txWait := rfl
@[simp] theorem setBlob_resendNext (k : Nat) (v : List Byte) (s : State) : (setBlob k v s).resendNext = s.resendNext := rfl
@[simp] theorem setBlob_desc (k : Nat) (v : List Byte) (s : State) : (setBlob k v s).desc = s.desc := rfl
@[simp] theorem setBlob_adopted (k : Nat) (v : List Byte) (s : State) : (setBlob k v s).adopted = s.adopted := rfl
@[simp] theorem setBlob_ports (k : Nat) (v : List Byte) (s : State) : (setBlob k v s).ports = s.ports := rfl
@[simp] theorem setBlob_rounded (k : Nat) (v : List Byte) (s : State) : (setBlob k v s).rounded = s.rounded := rfl
@[simp] theorem setBlob_edges (k : Nat) (v : List Byte) (s : State) : (setBlob k v s).edges = s.edges := rfl
@[simp] theorem setBlob_samples (k : Nat) (v : List Byte) (s : State) : (setBlob k v s).samples = s.samples := rfl
@[simp] theorem setBlob_layerReady (k : Nat) (v : List Byte) (s : State) : (setBlob k v s).layerReady = s.layerReady := rfl
@[simp] theorem setBlob_dieTags (k : Nat) (v : List Byte) (s : State) : (setBlob k v s).dieTags = s.dieTags := rfl
@[simp] theorem setBlob_rings (k : Nat) (v : List Byte) (s : State) : (setBlob k v s).rings = s.rings := rfl
@[simp] theorem setBlob_retired (k : Nat) (v : List Byte) (s : State) : (setBlob k v s).retired = s.retired := rfl
@[simp] theorem setBlob_spareBad (k : Nat) (v : List Byte) (s : State) : (setBlob k v s).spareBad = s.spareBad := rfl
@[simp] theorem setBlob_bypassBad (k : Nat) (v : List Byte) (s : State) : (setBlob k v s).bypassBad = s.bypassBad := rfl
@[simp] theorem setBlob_retireQ (k : Nat) (v : List Byte) (s : State) : (setBlob k v s).retireQ = s.retireQ := rfl
@[simp] theorem setBlob_history (k : Nat) (v : List Byte) (s : State) : (setBlob k v s).history = s.history := rfl
@[simp] theorem setBlob_stackCounts (k : Nat) (v : List Byte) (s : State) : (setBlob k v s).stackCounts = s.stackCounts := rfl
@[simp] theorem setBlob_bankHours (k : Nat) (v : List Byte) (s : State) : (setBlob k v s).bankHours = s.bankHours := rfl
@[simp] theorem setBlob_tileHours (k : Nat) (v : List Byte) (s : State) : (setBlob k v s).tileHours = s.tileHours := rfl
@[simp] theorem setBlob_repairRows (k : Nat) (v : List Byte) (s : State) : (setBlob k v s).repairRows = s.repairRows := rfl
@[simp] theorem setBlob_badSeen (k : Nat) (v : List Byte) (s : State) : (setBlob k v s).badSeen = s.badSeen := rfl
@[simp] theorem setBlob_rewritten (k : Nat) (v : List Byte) (s : State) : (setBlob k v s).rewritten = s.rewritten := rfl
@[simp] theorem setBlob_tables (k : Nat) (v : List Byte) (s : State) : (setBlob k v s).tables = s.tables := rfl
@[simp] theorem setBlob_host (k : Nat) (v : List Byte) (s : State) : (setBlob k v s).host = s.host := rfl
@[simp] theorem setBlob_windows (k : Nat) (v : List Byte) (s : State) : (setBlob k v s).windows = s.windows := rfl
@[simp] theorem setBlob_reduce (k : Nat) (v : List Byte) (s : State) : (setBlob k v s).reduce = s.reduce := rfl
@[simp] theorem setBlob_gal (k : Nat) (v : List Byte) (s : State) : (setBlob k v s).gal = s.gal := rfl
@[simp] theorem setBlob_steer (k : Nat) (v : List Byte) (s : State) : (setBlob k v s).steer = s.steer := rfl
@[simp] theorem setBlob_recov (k : Nat) (v : List Byte) (s : State) : (setBlob k v s).recov = s.recov := rfl
@[simp] theorem setBlob_tarvy (k : Nat) (v : List Byte) (s : State) : (setBlob k v s).tarvy = s.tarvy := rfl
@[simp] theorem setBlob_board (k : Nat) (v : List Byte) (s : State) : (setBlob k v s).board = s.board := rfl
@[simp] theorem setBlob_free (k : Nat) (v : List Byte) (s : State) : (setBlob k v s).free = s.free := rfl
@[simp] theorem setBlob_out (k : Nat) (v : List Byte) (s : State) : (setBlob k v s).out = s.out := rfl
@[simp] theorem setBlob_pending (k : Nat) (v : List Byte) (s : State) : (setBlob k v s).pending = s.pending := rfl
@[simp] theorem setBlob_reg_of (k : Nat) (v : List Byte) (s : State) (j : Nat) : (setBlob k v s).reg j = s.reg j := by simp only [State.reg, setBlob_regs]
@[simp] theorem setBlob_tile_of (k : Nat) (v : List Byte) (s : State) (j : Nat) : (setBlob k v s).tile j = s.tile j := by simp only [State.tile, setBlob_tiles]
@[simp] theorem setBlob_bytes_of (k : Nat) (v : List Byte) (s : State) (x m : Nat) : (setBlob k v s).bytes x m = s.bytes x m := by simp only [State.bytes, setBlob_mem]
@[simp] theorem setBlob_le_of (k : Nat) (v : List Byte) (s : State) (x m : Nat) : (setBlob k v s).le x m = s.le x m := by simp only [State.le, setBlob_mem]
@[simp] theorem setBlob_coord_of (k : Nat) (v : List Byte) (s : State)  : (setBlob k v s).coord  = s.coord  := by simp only [State.coord, State.reg, setBlob_regs]

@[simp] theorem emit_life (o : Out) (s : State) : (emit o s).life = s.life := rfl
@[simp] theorem emit_now (o : Out) (s : State) : (emit o s).now = s.now := rfl
@[simp] theorem emit_regs (o : Out) (s : State) : (emit o s).regs = s.regs := rfl
@[simp] theorem emit_blobs (o : Out) (s : State) : (emit o s).blobs = s.blobs := rfl
@[simp] theorem emit_mem (o : Out) (s : State) : (emit o s).mem = s.mem := rfl
@[simp] theorem emit_bad (o : Out) (s : State) : (emit o s).bad = s.bad := rfl
@[simp] theorem emit_tiles (o : Out) (s : State) : (emit o s).tiles = s.tiles := rfl
@[simp] theorem emit_store (o : Out) (s : State) : (emit o s).store = s.store := rfl
@[simp] theorem emit_startImg (o : Out) (s : State) : (emit o s).startImg = s.startImg := rfl
@[simp] theorem emit_pages (o : Out) (s : State) : (emit o s).pages = s.pages := rfl
@[simp] theorem emit_early (o : Out) (s : State) : (emit o s).early = s.early := rfl
@[simp] theorem emit_job (o : Out) (s : State) : (emit o s).job = s.job := rfl
@[simp] theorem emit_step (o : Out) (s : State) : (emit o s).step = s.step := rfl
@[simp] theorem emit_ctxs (o : Out) (s : State) : (emit o s).ctxs = s.ctxs := rfl
@[simp] theorem emit_pagers (o : Out) (s : State) : (emit o s).pagers = s.pagers := rfl
@[simp] theorem emit_trunk (o : Out) (s : State) : (emit o s).trunk = s.trunk := rfl
@[simp] theorem emit_evBatch (o : Out) (s : State) : (emit o s).evBatch = s.evBatch := rfl
@[simp] theorem emit_evFrames (o : Out) (s : State) : (emit o s).evFrames = s.evFrames := rfl
@[simp] theorem emit_flowsTx (o : Out) (s : State) : (emit o s).flowsTx = s.flowsTx := rfl
@[simp] theorem emit_flowsRx (o : Out) (s : State) : (emit o s).flowsRx = s.flowsRx := rfl
@[simp] theorem emit_reads (o : Out) (s : State) : (emit o s).reads = s.reads := rfl
@[simp] theorem emit_txWait (o : Out) (s : State) : (emit o s).txWait = s.txWait := rfl
@[simp] theorem emit_resendNext (o : Out) (s : State) : (emit o s).resendNext = s.resendNext := rfl
@[simp] theorem emit_desc (o : Out) (s : State) : (emit o s).desc = s.desc := rfl
@[simp] theorem emit_adopted (o : Out) (s : State) : (emit o s).adopted = s.adopted := rfl
@[simp] theorem emit_ports (o : Out) (s : State) : (emit o s).ports = s.ports := rfl
@[simp] theorem emit_rounded (o : Out) (s : State) : (emit o s).rounded = s.rounded := rfl
@[simp] theorem emit_edges (o : Out) (s : State) : (emit o s).edges = s.edges := rfl
@[simp] theorem emit_samples (o : Out) (s : State) : (emit o s).samples = s.samples := rfl
@[simp] theorem emit_layerReady (o : Out) (s : State) : (emit o s).layerReady = s.layerReady := rfl
@[simp] theorem emit_dieTags (o : Out) (s : State) : (emit o s).dieTags = s.dieTags := rfl
@[simp] theorem emit_rings (o : Out) (s : State) : (emit o s).rings = s.rings := rfl
@[simp] theorem emit_retired (o : Out) (s : State) : (emit o s).retired = s.retired := rfl
@[simp] theorem emit_spareBad (o : Out) (s : State) : (emit o s).spareBad = s.spareBad := rfl
@[simp] theorem emit_bypassBad (o : Out) (s : State) : (emit o s).bypassBad = s.bypassBad := rfl
@[simp] theorem emit_retireQ (o : Out) (s : State) : (emit o s).retireQ = s.retireQ := rfl
@[simp] theorem emit_history (o : Out) (s : State) : (emit o s).history = s.history := rfl
@[simp] theorem emit_stackCounts (o : Out) (s : State) : (emit o s).stackCounts = s.stackCounts := rfl
@[simp] theorem emit_bankHours (o : Out) (s : State) : (emit o s).bankHours = s.bankHours := rfl
@[simp] theorem emit_tileHours (o : Out) (s : State) : (emit o s).tileHours = s.tileHours := rfl
@[simp] theorem emit_repairRows (o : Out) (s : State) : (emit o s).repairRows = s.repairRows := rfl
@[simp] theorem emit_badSeen (o : Out) (s : State) : (emit o s).badSeen = s.badSeen := rfl
@[simp] theorem emit_rewritten (o : Out) (s : State) : (emit o s).rewritten = s.rewritten := rfl
@[simp] theorem emit_tables (o : Out) (s : State) : (emit o s).tables = s.tables := rfl
@[simp] theorem emit_host (o : Out) (s : State) : (emit o s).host = s.host := rfl
@[simp] theorem emit_windows (o : Out) (s : State) : (emit o s).windows = s.windows := rfl
@[simp] theorem emit_reduce (o : Out) (s : State) : (emit o s).reduce = s.reduce := rfl
@[simp] theorem emit_gal (o : Out) (s : State) : (emit o s).gal = s.gal := rfl
@[simp] theorem emit_steer (o : Out) (s : State) : (emit o s).steer = s.steer := rfl
@[simp] theorem emit_recov (o : Out) (s : State) : (emit o s).recov = s.recov := rfl
@[simp] theorem emit_tarvy (o : Out) (s : State) : (emit o s).tarvy = s.tarvy := rfl
@[simp] theorem emit_board (o : Out) (s : State) : (emit o s).board = s.board := rfl
@[simp] theorem emit_free (o : Out) (s : State) : (emit o s).free = s.free := rfl
@[simp] theorem emit_pending (o : Out) (s : State) : (emit o s).pending = s.pending := rfl
@[simp] theorem emit_reg_of (o : Out) (s : State) (j : Nat) : (emit o s).reg j = s.reg j := by simp only [State.reg, emit_regs]
@[simp] theorem emit_tile_of (o : Out) (s : State) (j : Nat) : (emit o s).tile j = s.tile j := by simp only [State.tile, emit_tiles]
@[simp] theorem emit_blob_of (o : Out) (s : State) (j : Nat) : (emit o s).blob j = s.blob j := by simp only [State.blob, emit_blobs]
@[simp] theorem emit_bytes_of (o : Out) (s : State) (x m : Nat) : (emit o s).bytes x m = s.bytes x m := by simp only [State.bytes, emit_mem]
@[simp] theorem emit_le_of (o : Out) (s : State) (x m : Nat) : (emit o s).le x m = s.le x m := by simp only [State.le, emit_mem]
@[simp] theorem emit_coord_of (o : Out) (s : State)  : (emit o s).coord  = s.coord  := by simp only [State.coord, State.reg, emit_regs]

@[simp] theorem setTile_life (k : Nat) (t : Tile) (s : State) : (setTile k t s).life = s.life := rfl
@[simp] theorem setTile_now (k : Nat) (t : Tile) (s : State) : (setTile k t s).now = s.now := rfl
@[simp] theorem setTile_regs (k : Nat) (t : Tile) (s : State) : (setTile k t s).regs = s.regs := rfl
@[simp] theorem setTile_blobs (k : Nat) (t : Tile) (s : State) : (setTile k t s).blobs = s.blobs := rfl
@[simp] theorem setTile_mem (k : Nat) (t : Tile) (s : State) : (setTile k t s).mem = s.mem := rfl
@[simp] theorem setTile_bad (k : Nat) (t : Tile) (s : State) : (setTile k t s).bad = s.bad := rfl
@[simp] theorem setTile_store (k : Nat) (t : Tile) (s : State) : (setTile k t s).store = s.store := rfl
@[simp] theorem setTile_startImg (k : Nat) (t : Tile) (s : State) : (setTile k t s).startImg = s.startImg := rfl
@[simp] theorem setTile_pages (k : Nat) (t : Tile) (s : State) : (setTile k t s).pages = s.pages := rfl
@[simp] theorem setTile_early (k : Nat) (t : Tile) (s : State) : (setTile k t s).early = s.early := rfl
@[simp] theorem setTile_job (k : Nat) (t : Tile) (s : State) : (setTile k t s).job = s.job := rfl
@[simp] theorem setTile_step (k : Nat) (t : Tile) (s : State) : (setTile k t s).step = s.step := rfl
@[simp] theorem setTile_ctxs (k : Nat) (t : Tile) (s : State) : (setTile k t s).ctxs = s.ctxs := rfl
@[simp] theorem setTile_pagers (k : Nat) (t : Tile) (s : State) : (setTile k t s).pagers = s.pagers := rfl
@[simp] theorem setTile_trunk (k : Nat) (t : Tile) (s : State) : (setTile k t s).trunk = s.trunk := rfl
@[simp] theorem setTile_evBatch (k : Nat) (t : Tile) (s : State) : (setTile k t s).evBatch = s.evBatch := rfl
@[simp] theorem setTile_evFrames (k : Nat) (t : Tile) (s : State) : (setTile k t s).evFrames = s.evFrames := rfl
@[simp] theorem setTile_flowsTx (k : Nat) (t : Tile) (s : State) : (setTile k t s).flowsTx = s.flowsTx := rfl
@[simp] theorem setTile_flowsRx (k : Nat) (t : Tile) (s : State) : (setTile k t s).flowsRx = s.flowsRx := rfl
@[simp] theorem setTile_reads (k : Nat) (t : Tile) (s : State) : (setTile k t s).reads = s.reads := rfl
@[simp] theorem setTile_txWait (k : Nat) (t : Tile) (s : State) : (setTile k t s).txWait = s.txWait := rfl
@[simp] theorem setTile_resendNext (k : Nat) (t : Tile) (s : State) : (setTile k t s).resendNext = s.resendNext := rfl
@[simp] theorem setTile_desc (k : Nat) (t : Tile) (s : State) : (setTile k t s).desc = s.desc := rfl
@[simp] theorem setTile_adopted (k : Nat) (t : Tile) (s : State) : (setTile k t s).adopted = s.adopted := rfl
@[simp] theorem setTile_ports (k : Nat) (t : Tile) (s : State) : (setTile k t s).ports = s.ports := rfl
@[simp] theorem setTile_rounded (k : Nat) (t : Tile) (s : State) : (setTile k t s).rounded = s.rounded := rfl
@[simp] theorem setTile_edges (k : Nat) (t : Tile) (s : State) : (setTile k t s).edges = s.edges := rfl
@[simp] theorem setTile_samples (k : Nat) (t : Tile) (s : State) : (setTile k t s).samples = s.samples := rfl
@[simp] theorem setTile_layerReady (k : Nat) (t : Tile) (s : State) : (setTile k t s).layerReady = s.layerReady := rfl
@[simp] theorem setTile_dieTags (k : Nat) (t : Tile) (s : State) : (setTile k t s).dieTags = s.dieTags := rfl
@[simp] theorem setTile_rings (k : Nat) (t : Tile) (s : State) : (setTile k t s).rings = s.rings := rfl
@[simp] theorem setTile_retired (k : Nat) (t : Tile) (s : State) : (setTile k t s).retired = s.retired := rfl
@[simp] theorem setTile_spareBad (k : Nat) (t : Tile) (s : State) : (setTile k t s).spareBad = s.spareBad := rfl
@[simp] theorem setTile_bypassBad (k : Nat) (t : Tile) (s : State) : (setTile k t s).bypassBad = s.bypassBad := rfl
@[simp] theorem setTile_retireQ (k : Nat) (t : Tile) (s : State) : (setTile k t s).retireQ = s.retireQ := rfl
@[simp] theorem setTile_history (k : Nat) (t : Tile) (s : State) : (setTile k t s).history = s.history := rfl
@[simp] theorem setTile_stackCounts (k : Nat) (t : Tile) (s : State) : (setTile k t s).stackCounts = s.stackCounts := rfl
@[simp] theorem setTile_bankHours (k : Nat) (t : Tile) (s : State) : (setTile k t s).bankHours = s.bankHours := rfl
@[simp] theorem setTile_tileHours (k : Nat) (t : Tile) (s : State) : (setTile k t s).tileHours = s.tileHours := rfl
@[simp] theorem setTile_repairRows (k : Nat) (t : Tile) (s : State) : (setTile k t s).repairRows = s.repairRows := rfl
@[simp] theorem setTile_badSeen (k : Nat) (t : Tile) (s : State) : (setTile k t s).badSeen = s.badSeen := rfl
@[simp] theorem setTile_rewritten (k : Nat) (t : Tile) (s : State) : (setTile k t s).rewritten = s.rewritten := rfl
@[simp] theorem setTile_tables (k : Nat) (t : Tile) (s : State) : (setTile k t s).tables = s.tables := rfl
@[simp] theorem setTile_host (k : Nat) (t : Tile) (s : State) : (setTile k t s).host = s.host := rfl
@[simp] theorem setTile_windows (k : Nat) (t : Tile) (s : State) : (setTile k t s).windows = s.windows := rfl
@[simp] theorem setTile_reduce (k : Nat) (t : Tile) (s : State) : (setTile k t s).reduce = s.reduce := rfl
@[simp] theorem setTile_gal (k : Nat) (t : Tile) (s : State) : (setTile k t s).gal = s.gal := rfl
@[simp] theorem setTile_steer (k : Nat) (t : Tile) (s : State) : (setTile k t s).steer = s.steer := rfl
@[simp] theorem setTile_recov (k : Nat) (t : Tile) (s : State) : (setTile k t s).recov = s.recov := rfl
@[simp] theorem setTile_tarvy (k : Nat) (t : Tile) (s : State) : (setTile k t s).tarvy = s.tarvy := rfl
@[simp] theorem setTile_board (k : Nat) (t : Tile) (s : State) : (setTile k t s).board = s.board := rfl
@[simp] theorem setTile_free (k : Nat) (t : Tile) (s : State) : (setTile k t s).free = s.free := rfl
@[simp] theorem setTile_out (k : Nat) (t : Tile) (s : State) : (setTile k t s).out = s.out := rfl
@[simp] theorem setTile_pending (k : Nat) (t : Tile) (s : State) : (setTile k t s).pending = s.pending := rfl
@[simp] theorem setTile_reg_of (k : Nat) (t : Tile) (s : State) (j : Nat) : (setTile k t s).reg j = s.reg j := by simp only [State.reg, setTile_regs]
@[simp] theorem setTile_blob_of (k : Nat) (t : Tile) (s : State) (j : Nat) : (setTile k t s).blob j = s.blob j := by simp only [State.blob, setTile_blobs]
@[simp] theorem setTile_bytes_of (k : Nat) (t : Tile) (s : State) (x m : Nat) : (setTile k t s).bytes x m = s.bytes x m := by simp only [State.bytes, setTile_mem]
@[simp] theorem setTile_le_of (k : Nat) (t : Tile) (s : State) (x m : Nat) : (setTile k t s).le x m = s.le x m := by simp only [State.le, setTile_mem]
@[simp] theorem setTile_coord_of (k : Nat) (t : Tile) (s : State)  : (setTile k t s).coord  = s.coord  := by simp only [State.coord, State.reg, setTile_regs]

@[simp] theorem modTile_life (k : Nat) (f : Tile → Tile) (s : State) : (modTile k f s).life = s.life := rfl
@[simp] theorem modTile_now (k : Nat) (f : Tile → Tile) (s : State) : (modTile k f s).now = s.now := rfl
@[simp] theorem modTile_regs (k : Nat) (f : Tile → Tile) (s : State) : (modTile k f s).regs = s.regs := rfl
@[simp] theorem modTile_blobs (k : Nat) (f : Tile → Tile) (s : State) : (modTile k f s).blobs = s.blobs := rfl
@[simp] theorem modTile_mem (k : Nat) (f : Tile → Tile) (s : State) : (modTile k f s).mem = s.mem := rfl
@[simp] theorem modTile_bad (k : Nat) (f : Tile → Tile) (s : State) : (modTile k f s).bad = s.bad := rfl
@[simp] theorem modTile_store (k : Nat) (f : Tile → Tile) (s : State) : (modTile k f s).store = s.store := rfl
@[simp] theorem modTile_startImg (k : Nat) (f : Tile → Tile) (s : State) : (modTile k f s).startImg = s.startImg := rfl
@[simp] theorem modTile_pages (k : Nat) (f : Tile → Tile) (s : State) : (modTile k f s).pages = s.pages := rfl
@[simp] theorem modTile_early (k : Nat) (f : Tile → Tile) (s : State) : (modTile k f s).early = s.early := rfl
@[simp] theorem modTile_job (k : Nat) (f : Tile → Tile) (s : State) : (modTile k f s).job = s.job := rfl
@[simp] theorem modTile_step (k : Nat) (f : Tile → Tile) (s : State) : (modTile k f s).step = s.step := rfl
@[simp] theorem modTile_ctxs (k : Nat) (f : Tile → Tile) (s : State) : (modTile k f s).ctxs = s.ctxs := rfl
@[simp] theorem modTile_pagers (k : Nat) (f : Tile → Tile) (s : State) : (modTile k f s).pagers = s.pagers := rfl
@[simp] theorem modTile_trunk (k : Nat) (f : Tile → Tile) (s : State) : (modTile k f s).trunk = s.trunk := rfl
@[simp] theorem modTile_evBatch (k : Nat) (f : Tile → Tile) (s : State) : (modTile k f s).evBatch = s.evBatch := rfl
@[simp] theorem modTile_evFrames (k : Nat) (f : Tile → Tile) (s : State) : (modTile k f s).evFrames = s.evFrames := rfl
@[simp] theorem modTile_flowsTx (k : Nat) (f : Tile → Tile) (s : State) : (modTile k f s).flowsTx = s.flowsTx := rfl
@[simp] theorem modTile_flowsRx (k : Nat) (f : Tile → Tile) (s : State) : (modTile k f s).flowsRx = s.flowsRx := rfl
@[simp] theorem modTile_reads (k : Nat) (f : Tile → Tile) (s : State) : (modTile k f s).reads = s.reads := rfl
@[simp] theorem modTile_txWait (k : Nat) (f : Tile → Tile) (s : State) : (modTile k f s).txWait = s.txWait := rfl
@[simp] theorem modTile_resendNext (k : Nat) (f : Tile → Tile) (s : State) : (modTile k f s).resendNext = s.resendNext := rfl
@[simp] theorem modTile_desc (k : Nat) (f : Tile → Tile) (s : State) : (modTile k f s).desc = s.desc := rfl
@[simp] theorem modTile_adopted (k : Nat) (f : Tile → Tile) (s : State) : (modTile k f s).adopted = s.adopted := rfl
@[simp] theorem modTile_ports (k : Nat) (f : Tile → Tile) (s : State) : (modTile k f s).ports = s.ports := rfl
@[simp] theorem modTile_rounded (k : Nat) (f : Tile → Tile) (s : State) : (modTile k f s).rounded = s.rounded := rfl
@[simp] theorem modTile_edges (k : Nat) (f : Tile → Tile) (s : State) : (modTile k f s).edges = s.edges := rfl
@[simp] theorem modTile_samples (k : Nat) (f : Tile → Tile) (s : State) : (modTile k f s).samples = s.samples := rfl
@[simp] theorem modTile_layerReady (k : Nat) (f : Tile → Tile) (s : State) : (modTile k f s).layerReady = s.layerReady := rfl
@[simp] theorem modTile_dieTags (k : Nat) (f : Tile → Tile) (s : State) : (modTile k f s).dieTags = s.dieTags := rfl
@[simp] theorem modTile_rings (k : Nat) (f : Tile → Tile) (s : State) : (modTile k f s).rings = s.rings := rfl
@[simp] theorem modTile_retired (k : Nat) (f : Tile → Tile) (s : State) : (modTile k f s).retired = s.retired := rfl
@[simp] theorem modTile_spareBad (k : Nat) (f : Tile → Tile) (s : State) : (modTile k f s).spareBad = s.spareBad := rfl
@[simp] theorem modTile_bypassBad (k : Nat) (f : Tile → Tile) (s : State) : (modTile k f s).bypassBad = s.bypassBad := rfl
@[simp] theorem modTile_retireQ (k : Nat) (f : Tile → Tile) (s : State) : (modTile k f s).retireQ = s.retireQ := rfl
@[simp] theorem modTile_history (k : Nat) (f : Tile → Tile) (s : State) : (modTile k f s).history = s.history := rfl
@[simp] theorem modTile_stackCounts (k : Nat) (f : Tile → Tile) (s : State) : (modTile k f s).stackCounts = s.stackCounts := rfl
@[simp] theorem modTile_bankHours (k : Nat) (f : Tile → Tile) (s : State) : (modTile k f s).bankHours = s.bankHours := rfl
@[simp] theorem modTile_tileHours (k : Nat) (f : Tile → Tile) (s : State) : (modTile k f s).tileHours = s.tileHours := rfl
@[simp] theorem modTile_repairRows (k : Nat) (f : Tile → Tile) (s : State) : (modTile k f s).repairRows = s.repairRows := rfl
@[simp] theorem modTile_badSeen (k : Nat) (f : Tile → Tile) (s : State) : (modTile k f s).badSeen = s.badSeen := rfl
@[simp] theorem modTile_rewritten (k : Nat) (f : Tile → Tile) (s : State) : (modTile k f s).rewritten = s.rewritten := rfl
@[simp] theorem modTile_tables (k : Nat) (f : Tile → Tile) (s : State) : (modTile k f s).tables = s.tables := rfl
@[simp] theorem modTile_host (k : Nat) (f : Tile → Tile) (s : State) : (modTile k f s).host = s.host := rfl
@[simp] theorem modTile_windows (k : Nat) (f : Tile → Tile) (s : State) : (modTile k f s).windows = s.windows := rfl
@[simp] theorem modTile_reduce (k : Nat) (f : Tile → Tile) (s : State) : (modTile k f s).reduce = s.reduce := rfl
@[simp] theorem modTile_gal (k : Nat) (f : Tile → Tile) (s : State) : (modTile k f s).gal = s.gal := rfl
@[simp] theorem modTile_steer (k : Nat) (f : Tile → Tile) (s : State) : (modTile k f s).steer = s.steer := rfl
@[simp] theorem modTile_recov (k : Nat) (f : Tile → Tile) (s : State) : (modTile k f s).recov = s.recov := rfl
@[simp] theorem modTile_tarvy (k : Nat) (f : Tile → Tile) (s : State) : (modTile k f s).tarvy = s.tarvy := rfl
@[simp] theorem modTile_board (k : Nat) (f : Tile → Tile) (s : State) : (modTile k f s).board = s.board := rfl
@[simp] theorem modTile_free (k : Nat) (f : Tile → Tile) (s : State) : (modTile k f s).free = s.free := rfl
@[simp] theorem modTile_out (k : Nat) (f : Tile → Tile) (s : State) : (modTile k f s).out = s.out := rfl
@[simp] theorem modTile_pending (k : Nat) (f : Tile → Tile) (s : State) : (modTile k f s).pending = s.pending := rfl
@[simp] theorem modTile_reg_of (k : Nat) (f : Tile → Tile) (s : State) (j : Nat) : (modTile k f s).reg j = s.reg j := by simp only [State.reg, modTile_regs]
@[simp] theorem modTile_blob_of (k : Nat) (f : Tile → Tile) (s : State) (j : Nat) : (modTile k f s).blob j = s.blob j := by simp only [State.blob, modTile_blobs]
@[simp] theorem modTile_bytes_of (k : Nat) (f : Tile → Tile) (s : State) (x m : Nat) : (modTile k f s).bytes x m = s.bytes x m := by simp only [State.bytes, modTile_mem]
@[simp] theorem modTile_le_of (k : Nat) (f : Tile → Tile) (s : State) (x m : Nat) : (modTile k f s).le x m = s.le x m := by simp only [State.le, modTile_mem]
@[simp] theorem modTile_coord_of (k : Nat) (f : Tile → Tile) (s : State)  : (modTile k f s).coord  = s.coord  := by simp only [State.coord, State.reg, modTile_regs]

@[simp] theorem mapTiles_life (f : Tile → Tile) (s : State) : (mapTiles f s).life = s.life := rfl
@[simp] theorem mapTiles_now (f : Tile → Tile) (s : State) : (mapTiles f s).now = s.now := rfl
@[simp] theorem mapTiles_regs (f : Tile → Tile) (s : State) : (mapTiles f s).regs = s.regs := rfl
@[simp] theorem mapTiles_blobs (f : Tile → Tile) (s : State) : (mapTiles f s).blobs = s.blobs := rfl
@[simp] theorem mapTiles_mem (f : Tile → Tile) (s : State) : (mapTiles f s).mem = s.mem := rfl
@[simp] theorem mapTiles_bad (f : Tile → Tile) (s : State) : (mapTiles f s).bad = s.bad := rfl
@[simp] theorem mapTiles_store (f : Tile → Tile) (s : State) : (mapTiles f s).store = s.store := rfl
@[simp] theorem mapTiles_startImg (f : Tile → Tile) (s : State) : (mapTiles f s).startImg = s.startImg := rfl
@[simp] theorem mapTiles_pages (f : Tile → Tile) (s : State) : (mapTiles f s).pages = s.pages := rfl
@[simp] theorem mapTiles_early (f : Tile → Tile) (s : State) : (mapTiles f s).early = s.early := rfl
@[simp] theorem mapTiles_job (f : Tile → Tile) (s : State) : (mapTiles f s).job = s.job := rfl
@[simp] theorem mapTiles_step (f : Tile → Tile) (s : State) : (mapTiles f s).step = s.step := rfl
@[simp] theorem mapTiles_ctxs (f : Tile → Tile) (s : State) : (mapTiles f s).ctxs = s.ctxs := rfl
@[simp] theorem mapTiles_pagers (f : Tile → Tile) (s : State) : (mapTiles f s).pagers = s.pagers := rfl
@[simp] theorem mapTiles_trunk (f : Tile → Tile) (s : State) : (mapTiles f s).trunk = s.trunk := rfl
@[simp] theorem mapTiles_evBatch (f : Tile → Tile) (s : State) : (mapTiles f s).evBatch = s.evBatch := rfl
@[simp] theorem mapTiles_evFrames (f : Tile → Tile) (s : State) : (mapTiles f s).evFrames = s.evFrames := rfl
@[simp] theorem mapTiles_flowsTx (f : Tile → Tile) (s : State) : (mapTiles f s).flowsTx = s.flowsTx := rfl
@[simp] theorem mapTiles_flowsRx (f : Tile → Tile) (s : State) : (mapTiles f s).flowsRx = s.flowsRx := rfl
@[simp] theorem mapTiles_reads (f : Tile → Tile) (s : State) : (mapTiles f s).reads = s.reads := rfl
@[simp] theorem mapTiles_txWait (f : Tile → Tile) (s : State) : (mapTiles f s).txWait = s.txWait := rfl
@[simp] theorem mapTiles_resendNext (f : Tile → Tile) (s : State) : (mapTiles f s).resendNext = s.resendNext := rfl
@[simp] theorem mapTiles_desc (f : Tile → Tile) (s : State) : (mapTiles f s).desc = s.desc := rfl
@[simp] theorem mapTiles_adopted (f : Tile → Tile) (s : State) : (mapTiles f s).adopted = s.adopted := rfl
@[simp] theorem mapTiles_ports (f : Tile → Tile) (s : State) : (mapTiles f s).ports = s.ports := rfl
@[simp] theorem mapTiles_rounded (f : Tile → Tile) (s : State) : (mapTiles f s).rounded = s.rounded := rfl
@[simp] theorem mapTiles_edges (f : Tile → Tile) (s : State) : (mapTiles f s).edges = s.edges := rfl
@[simp] theorem mapTiles_samples (f : Tile → Tile) (s : State) : (mapTiles f s).samples = s.samples := rfl
@[simp] theorem mapTiles_layerReady (f : Tile → Tile) (s : State) : (mapTiles f s).layerReady = s.layerReady := rfl
@[simp] theorem mapTiles_dieTags (f : Tile → Tile) (s : State) : (mapTiles f s).dieTags = s.dieTags := rfl
@[simp] theorem mapTiles_rings (f : Tile → Tile) (s : State) : (mapTiles f s).rings = s.rings := rfl
@[simp] theorem mapTiles_retired (f : Tile → Tile) (s : State) : (mapTiles f s).retired = s.retired := rfl
@[simp] theorem mapTiles_spareBad (f : Tile → Tile) (s : State) : (mapTiles f s).spareBad = s.spareBad := rfl
@[simp] theorem mapTiles_bypassBad (f : Tile → Tile) (s : State) : (mapTiles f s).bypassBad = s.bypassBad := rfl
@[simp] theorem mapTiles_retireQ (f : Tile → Tile) (s : State) : (mapTiles f s).retireQ = s.retireQ := rfl
@[simp] theorem mapTiles_history (f : Tile → Tile) (s : State) : (mapTiles f s).history = s.history := rfl
@[simp] theorem mapTiles_stackCounts (f : Tile → Tile) (s : State) : (mapTiles f s).stackCounts = s.stackCounts := rfl
@[simp] theorem mapTiles_bankHours (f : Tile → Tile) (s : State) : (mapTiles f s).bankHours = s.bankHours := rfl
@[simp] theorem mapTiles_tileHours (f : Tile → Tile) (s : State) : (mapTiles f s).tileHours = s.tileHours := rfl
@[simp] theorem mapTiles_repairRows (f : Tile → Tile) (s : State) : (mapTiles f s).repairRows = s.repairRows := rfl
@[simp] theorem mapTiles_badSeen (f : Tile → Tile) (s : State) : (mapTiles f s).badSeen = s.badSeen := rfl
@[simp] theorem mapTiles_rewritten (f : Tile → Tile) (s : State) : (mapTiles f s).rewritten = s.rewritten := rfl
@[simp] theorem mapTiles_tables (f : Tile → Tile) (s : State) : (mapTiles f s).tables = s.tables := rfl
@[simp] theorem mapTiles_host (f : Tile → Tile) (s : State) : (mapTiles f s).host = s.host := rfl
@[simp] theorem mapTiles_windows (f : Tile → Tile) (s : State) : (mapTiles f s).windows = s.windows := rfl
@[simp] theorem mapTiles_reduce (f : Tile → Tile) (s : State) : (mapTiles f s).reduce = s.reduce := rfl
@[simp] theorem mapTiles_gal (f : Tile → Tile) (s : State) : (mapTiles f s).gal = s.gal := rfl
@[simp] theorem mapTiles_steer (f : Tile → Tile) (s : State) : (mapTiles f s).steer = s.steer := rfl
@[simp] theorem mapTiles_recov (f : Tile → Tile) (s : State) : (mapTiles f s).recov = s.recov := rfl
@[simp] theorem mapTiles_tarvy (f : Tile → Tile) (s : State) : (mapTiles f s).tarvy = s.tarvy := rfl
@[simp] theorem mapTiles_board (f : Tile → Tile) (s : State) : (mapTiles f s).board = s.board := rfl
@[simp] theorem mapTiles_free (f : Tile → Tile) (s : State) : (mapTiles f s).free = s.free := rfl
@[simp] theorem mapTiles_out (f : Tile → Tile) (s : State) : (mapTiles f s).out = s.out := rfl
@[simp] theorem mapTiles_pending (f : Tile → Tile) (s : State) : (mapTiles f s).pending = s.pending := rfl
@[simp] theorem mapTiles_reg_of (f : Tile → Tile) (s : State) (j : Nat) : (mapTiles f s).reg j = s.reg j := by simp only [State.reg, mapTiles_regs]
@[simp] theorem mapTiles_blob_of (f : Tile → Tile) (s : State) (j : Nat) : (mapTiles f s).blob j = s.blob j := by simp only [State.blob, mapTiles_blobs]
@[simp] theorem mapTiles_bytes_of (f : Tile → Tile) (s : State) (x m : Nat) : (mapTiles f s).bytes x m = s.bytes x m := by simp only [State.bytes, mapTiles_mem]
@[simp] theorem mapTiles_le_of (f : Tile → Tile) (s : State) (x m : Nat) : (mapTiles f s).le x m = s.le x m := by simp only [State.le, mapTiles_mem]
@[simp] theorem mapTiles_coord_of (f : Tile → Tile) (s : State)  : (mapTiles f s).coord  = s.coord  := by simp only [State.coord, State.reg, mapTiles_regs]

@[simp] theorem putMem_life (a : Nat) (bs : List Byte) (s : State) : (putMem a bs s).life = s.life := rfl
@[simp] theorem putMem_now (a : Nat) (bs : List Byte) (s : State) : (putMem a bs s).now = s.now := rfl
@[simp] theorem putMem_regs (a : Nat) (bs : List Byte) (s : State) : (putMem a bs s).regs = s.regs := rfl
@[simp] theorem putMem_blobs (a : Nat) (bs : List Byte) (s : State) : (putMem a bs s).blobs = s.blobs := rfl
@[simp] theorem putMem_tiles (a : Nat) (bs : List Byte) (s : State) : (putMem a bs s).tiles = s.tiles := rfl
@[simp] theorem putMem_store (a : Nat) (bs : List Byte) (s : State) : (putMem a bs s).store = s.store := rfl
@[simp] theorem putMem_startImg (a : Nat) (bs : List Byte) (s : State) : (putMem a bs s).startImg = s.startImg := rfl
@[simp] theorem putMem_pages (a : Nat) (bs : List Byte) (s : State) : (putMem a bs s).pages = s.pages := rfl
@[simp] theorem putMem_early (a : Nat) (bs : List Byte) (s : State) : (putMem a bs s).early = s.early := rfl
@[simp] theorem putMem_job (a : Nat) (bs : List Byte) (s : State) : (putMem a bs s).job = s.job := rfl
@[simp] theorem putMem_step (a : Nat) (bs : List Byte) (s : State) : (putMem a bs s).step = s.step := rfl
@[simp] theorem putMem_ctxs (a : Nat) (bs : List Byte) (s : State) : (putMem a bs s).ctxs = s.ctxs := rfl
@[simp] theorem putMem_pagers (a : Nat) (bs : List Byte) (s : State) : (putMem a bs s).pagers = s.pagers := rfl
@[simp] theorem putMem_trunk (a : Nat) (bs : List Byte) (s : State) : (putMem a bs s).trunk = s.trunk := rfl
@[simp] theorem putMem_evBatch (a : Nat) (bs : List Byte) (s : State) : (putMem a bs s).evBatch = s.evBatch := rfl
@[simp] theorem putMem_evFrames (a : Nat) (bs : List Byte) (s : State) : (putMem a bs s).evFrames = s.evFrames := rfl
@[simp] theorem putMem_flowsTx (a : Nat) (bs : List Byte) (s : State) : (putMem a bs s).flowsTx = s.flowsTx := rfl
@[simp] theorem putMem_flowsRx (a : Nat) (bs : List Byte) (s : State) : (putMem a bs s).flowsRx = s.flowsRx := rfl
@[simp] theorem putMem_reads (a : Nat) (bs : List Byte) (s : State) : (putMem a bs s).reads = s.reads := rfl
@[simp] theorem putMem_txWait (a : Nat) (bs : List Byte) (s : State) : (putMem a bs s).txWait = s.txWait := rfl
@[simp] theorem putMem_resendNext (a : Nat) (bs : List Byte) (s : State) : (putMem a bs s).resendNext = s.resendNext := rfl
@[simp] theorem putMem_desc (a : Nat) (bs : List Byte) (s : State) : (putMem a bs s).desc = s.desc := rfl
@[simp] theorem putMem_adopted (a : Nat) (bs : List Byte) (s : State) : (putMem a bs s).adopted = s.adopted := rfl
@[simp] theorem putMem_ports (a : Nat) (bs : List Byte) (s : State) : (putMem a bs s).ports = s.ports := rfl
@[simp] theorem putMem_rounded (a : Nat) (bs : List Byte) (s : State) : (putMem a bs s).rounded = s.rounded := rfl
@[simp] theorem putMem_edges (a : Nat) (bs : List Byte) (s : State) : (putMem a bs s).edges = s.edges := rfl
@[simp] theorem putMem_samples (a : Nat) (bs : List Byte) (s : State) : (putMem a bs s).samples = s.samples := rfl
@[simp] theorem putMem_layerReady (a : Nat) (bs : List Byte) (s : State) : (putMem a bs s).layerReady = s.layerReady := rfl
@[simp] theorem putMem_dieTags (a : Nat) (bs : List Byte) (s : State) : (putMem a bs s).dieTags = s.dieTags := rfl
@[simp] theorem putMem_rings (a : Nat) (bs : List Byte) (s : State) : (putMem a bs s).rings = s.rings := rfl
@[simp] theorem putMem_retired (a : Nat) (bs : List Byte) (s : State) : (putMem a bs s).retired = s.retired := rfl
@[simp] theorem putMem_spareBad (a : Nat) (bs : List Byte) (s : State) : (putMem a bs s).spareBad = s.spareBad := rfl
@[simp] theorem putMem_bypassBad (a : Nat) (bs : List Byte) (s : State) : (putMem a bs s).bypassBad = s.bypassBad := rfl
@[simp] theorem putMem_retireQ (a : Nat) (bs : List Byte) (s : State) : (putMem a bs s).retireQ = s.retireQ := rfl
@[simp] theorem putMem_history (a : Nat) (bs : List Byte) (s : State) : (putMem a bs s).history = s.history := rfl
@[simp] theorem putMem_stackCounts (a : Nat) (bs : List Byte) (s : State) : (putMem a bs s).stackCounts = s.stackCounts := rfl
@[simp] theorem putMem_bankHours (a : Nat) (bs : List Byte) (s : State) : (putMem a bs s).bankHours = s.bankHours := rfl
@[simp] theorem putMem_tileHours (a : Nat) (bs : List Byte) (s : State) : (putMem a bs s).tileHours = s.tileHours := rfl
@[simp] theorem putMem_repairRows (a : Nat) (bs : List Byte) (s : State) : (putMem a bs s).repairRows = s.repairRows := rfl
@[simp] theorem putMem_badSeen (a : Nat) (bs : List Byte) (s : State) : (putMem a bs s).badSeen = s.badSeen := rfl
@[simp] theorem putMem_rewritten (a : Nat) (bs : List Byte) (s : State) : (putMem a bs s).rewritten = s.rewritten := rfl
@[simp] theorem putMem_tables (a : Nat) (bs : List Byte) (s : State) : (putMem a bs s).tables = s.tables := rfl
@[simp] theorem putMem_host (a : Nat) (bs : List Byte) (s : State) : (putMem a bs s).host = s.host := rfl
@[simp] theorem putMem_windows (a : Nat) (bs : List Byte) (s : State) : (putMem a bs s).windows = s.windows := rfl
@[simp] theorem putMem_reduce (a : Nat) (bs : List Byte) (s : State) : (putMem a bs s).reduce = s.reduce := rfl
@[simp] theorem putMem_gal (a : Nat) (bs : List Byte) (s : State) : (putMem a bs s).gal = s.gal := rfl
@[simp] theorem putMem_steer (a : Nat) (bs : List Byte) (s : State) : (putMem a bs s).steer = s.steer := rfl
@[simp] theorem putMem_recov (a : Nat) (bs : List Byte) (s : State) : (putMem a bs s).recov = s.recov := rfl
@[simp] theorem putMem_tarvy (a : Nat) (bs : List Byte) (s : State) : (putMem a bs s).tarvy = s.tarvy := rfl
@[simp] theorem putMem_board (a : Nat) (bs : List Byte) (s : State) : (putMem a bs s).board = s.board := rfl
@[simp] theorem putMem_free (a : Nat) (bs : List Byte) (s : State) : (putMem a bs s).free = s.free := rfl
@[simp] theorem putMem_out (a : Nat) (bs : List Byte) (s : State) : (putMem a bs s).out = s.out := rfl
@[simp] theorem putMem_pending (a : Nat) (bs : List Byte) (s : State) : (putMem a bs s).pending = s.pending := rfl
@[simp] theorem putMem_reg_of (a : Nat) (bs : List Byte) (s : State) (j : Nat) : (putMem a bs s).reg j = s.reg j := by simp only [State.reg, putMem_regs]
@[simp] theorem putMem_tile_of (a : Nat) (bs : List Byte) (s : State) (j : Nat) : (putMem a bs s).tile j = s.tile j := by simp only [State.tile, putMem_tiles]
@[simp] theorem putMem_blob_of (a : Nat) (bs : List Byte) (s : State) (j : Nat) : (putMem a bs s).blob j = s.blob j := by simp only [State.blob, putMem_blobs]
@[simp] theorem putMem_coord_of (a : Nat) (bs : List Byte) (s : State)  : (putMem a bs s).coord  = s.coord  := by simp only [State.coord, State.reg, putMem_regs]

theorem trunkPost_parts (ring kind die payload : Nat) (s : State) :
    ∃ a b, trunkPost ring kind die payload s = { s with trunk := a, regs := b } := by
  unfold trunkPost
  dsimp only
  split
  · exact ⟨s.trunk, s.regs, rfl⟩
  · split
    · exact ⟨_, _, rfl⟩
    · exact ⟨_, s.regs, rfl⟩

@[simp] theorem trunkPost_life (ring kind die payload : Nat) (s : State) : (trunkPost ring kind die payload s).life = s.life := by obtain ⟨_, _, h⟩ := trunkPost_parts ring kind die payload s; rw [h]
@[simp] theorem trunkPost_now (ring kind die payload : Nat) (s : State) : (trunkPost ring kind die payload s).now = s.now := by obtain ⟨_, _, h⟩ := trunkPost_parts ring kind die payload s; rw [h]
@[simp] theorem trunkPost_blobs (ring kind die payload : Nat) (s : State) : (trunkPost ring kind die payload s).blobs = s.blobs := by obtain ⟨_, _, h⟩ := trunkPost_parts ring kind die payload s; rw [h]
@[simp] theorem trunkPost_mem (ring kind die payload : Nat) (s : State) : (trunkPost ring kind die payload s).mem = s.mem := by obtain ⟨_, _, h⟩ := trunkPost_parts ring kind die payload s; rw [h]
@[simp] theorem trunkPost_bad (ring kind die payload : Nat) (s : State) : (trunkPost ring kind die payload s).bad = s.bad := by obtain ⟨_, _, h⟩ := trunkPost_parts ring kind die payload s; rw [h]
@[simp] theorem trunkPost_tiles (ring kind die payload : Nat) (s : State) : (trunkPost ring kind die payload s).tiles = s.tiles := by obtain ⟨_, _, h⟩ := trunkPost_parts ring kind die payload s; rw [h]
@[simp] theorem trunkPost_store (ring kind die payload : Nat) (s : State) : (trunkPost ring kind die payload s).store = s.store := by obtain ⟨_, _, h⟩ := trunkPost_parts ring kind die payload s; rw [h]
@[simp] theorem trunkPost_startImg (ring kind die payload : Nat) (s : State) : (trunkPost ring kind die payload s).startImg = s.startImg := by obtain ⟨_, _, h⟩ := trunkPost_parts ring kind die payload s; rw [h]
@[simp] theorem trunkPost_pages (ring kind die payload : Nat) (s : State) : (trunkPost ring kind die payload s).pages = s.pages := by obtain ⟨_, _, h⟩ := trunkPost_parts ring kind die payload s; rw [h]
@[simp] theorem trunkPost_early (ring kind die payload : Nat) (s : State) : (trunkPost ring kind die payload s).early = s.early := by obtain ⟨_, _, h⟩ := trunkPost_parts ring kind die payload s; rw [h]
@[simp] theorem trunkPost_job (ring kind die payload : Nat) (s : State) : (trunkPost ring kind die payload s).job = s.job := by obtain ⟨_, _, h⟩ := trunkPost_parts ring kind die payload s; rw [h]
@[simp] theorem trunkPost_step (ring kind die payload : Nat) (s : State) : (trunkPost ring kind die payload s).step = s.step := by obtain ⟨_, _, h⟩ := trunkPost_parts ring kind die payload s; rw [h]
@[simp] theorem trunkPost_ctxs (ring kind die payload : Nat) (s : State) : (trunkPost ring kind die payload s).ctxs = s.ctxs := by obtain ⟨_, _, h⟩ := trunkPost_parts ring kind die payload s; rw [h]
@[simp] theorem trunkPost_pagers (ring kind die payload : Nat) (s : State) : (trunkPost ring kind die payload s).pagers = s.pagers := by obtain ⟨_, _, h⟩ := trunkPost_parts ring kind die payload s; rw [h]
@[simp] theorem trunkPost_evBatch (ring kind die payload : Nat) (s : State) : (trunkPost ring kind die payload s).evBatch = s.evBatch := by obtain ⟨_, _, h⟩ := trunkPost_parts ring kind die payload s; rw [h]
@[simp] theorem trunkPost_evFrames (ring kind die payload : Nat) (s : State) : (trunkPost ring kind die payload s).evFrames = s.evFrames := by obtain ⟨_, _, h⟩ := trunkPost_parts ring kind die payload s; rw [h]
@[simp] theorem trunkPost_flowsTx (ring kind die payload : Nat) (s : State) : (trunkPost ring kind die payload s).flowsTx = s.flowsTx := by obtain ⟨_, _, h⟩ := trunkPost_parts ring kind die payload s; rw [h]
@[simp] theorem trunkPost_flowsRx (ring kind die payload : Nat) (s : State) : (trunkPost ring kind die payload s).flowsRx = s.flowsRx := by obtain ⟨_, _, h⟩ := trunkPost_parts ring kind die payload s; rw [h]
@[simp] theorem trunkPost_reads (ring kind die payload : Nat) (s : State) : (trunkPost ring kind die payload s).reads = s.reads := by obtain ⟨_, _, h⟩ := trunkPost_parts ring kind die payload s; rw [h]
@[simp] theorem trunkPost_txWait (ring kind die payload : Nat) (s : State) : (trunkPost ring kind die payload s).txWait = s.txWait := by obtain ⟨_, _, h⟩ := trunkPost_parts ring kind die payload s; rw [h]
@[simp] theorem trunkPost_resendNext (ring kind die payload : Nat) (s : State) : (trunkPost ring kind die payload s).resendNext = s.resendNext := by obtain ⟨_, _, h⟩ := trunkPost_parts ring kind die payload s; rw [h]
@[simp] theorem trunkPost_desc (ring kind die payload : Nat) (s : State) : (trunkPost ring kind die payload s).desc = s.desc := by obtain ⟨_, _, h⟩ := trunkPost_parts ring kind die payload s; rw [h]
@[simp] theorem trunkPost_adopted (ring kind die payload : Nat) (s : State) : (trunkPost ring kind die payload s).adopted = s.adopted := by obtain ⟨_, _, h⟩ := trunkPost_parts ring kind die payload s; rw [h]
@[simp] theorem trunkPost_ports (ring kind die payload : Nat) (s : State) : (trunkPost ring kind die payload s).ports = s.ports := by obtain ⟨_, _, h⟩ := trunkPost_parts ring kind die payload s; rw [h]
@[simp] theorem trunkPost_rounded (ring kind die payload : Nat) (s : State) : (trunkPost ring kind die payload s).rounded = s.rounded := by obtain ⟨_, _, h⟩ := trunkPost_parts ring kind die payload s; rw [h]
@[simp] theorem trunkPost_edges (ring kind die payload : Nat) (s : State) : (trunkPost ring kind die payload s).edges = s.edges := by obtain ⟨_, _, h⟩ := trunkPost_parts ring kind die payload s; rw [h]
@[simp] theorem trunkPost_samples (ring kind die payload : Nat) (s : State) : (trunkPost ring kind die payload s).samples = s.samples := by obtain ⟨_, _, h⟩ := trunkPost_parts ring kind die payload s; rw [h]
@[simp] theorem trunkPost_layerReady (ring kind die payload : Nat) (s : State) : (trunkPost ring kind die payload s).layerReady = s.layerReady := by obtain ⟨_, _, h⟩ := trunkPost_parts ring kind die payload s; rw [h]
@[simp] theorem trunkPost_dieTags (ring kind die payload : Nat) (s : State) : (trunkPost ring kind die payload s).dieTags = s.dieTags := by obtain ⟨_, _, h⟩ := trunkPost_parts ring kind die payload s; rw [h]
@[simp] theorem trunkPost_rings (ring kind die payload : Nat) (s : State) : (trunkPost ring kind die payload s).rings = s.rings := by obtain ⟨_, _, h⟩ := trunkPost_parts ring kind die payload s; rw [h]
@[simp] theorem trunkPost_retired (ring kind die payload : Nat) (s : State) : (trunkPost ring kind die payload s).retired = s.retired := by obtain ⟨_, _, h⟩ := trunkPost_parts ring kind die payload s; rw [h]
@[simp] theorem trunkPost_spareBad (ring kind die payload : Nat) (s : State) : (trunkPost ring kind die payload s).spareBad = s.spareBad := by obtain ⟨_, _, h⟩ := trunkPost_parts ring kind die payload s; rw [h]
@[simp] theorem trunkPost_bypassBad (ring kind die payload : Nat) (s : State) : (trunkPost ring kind die payload s).bypassBad = s.bypassBad := by obtain ⟨_, _, h⟩ := trunkPost_parts ring kind die payload s; rw [h]
@[simp] theorem trunkPost_retireQ (ring kind die payload : Nat) (s : State) : (trunkPost ring kind die payload s).retireQ = s.retireQ := by obtain ⟨_, _, h⟩ := trunkPost_parts ring kind die payload s; rw [h]
@[simp] theorem trunkPost_history (ring kind die payload : Nat) (s : State) : (trunkPost ring kind die payload s).history = s.history := by obtain ⟨_, _, h⟩ := trunkPost_parts ring kind die payload s; rw [h]
@[simp] theorem trunkPost_stackCounts (ring kind die payload : Nat) (s : State) : (trunkPost ring kind die payload s).stackCounts = s.stackCounts := by obtain ⟨_, _, h⟩ := trunkPost_parts ring kind die payload s; rw [h]
@[simp] theorem trunkPost_bankHours (ring kind die payload : Nat) (s : State) : (trunkPost ring kind die payload s).bankHours = s.bankHours := by obtain ⟨_, _, h⟩ := trunkPost_parts ring kind die payload s; rw [h]
@[simp] theorem trunkPost_tileHours (ring kind die payload : Nat) (s : State) : (trunkPost ring kind die payload s).tileHours = s.tileHours := by obtain ⟨_, _, h⟩ := trunkPost_parts ring kind die payload s; rw [h]
@[simp] theorem trunkPost_repairRows (ring kind die payload : Nat) (s : State) : (trunkPost ring kind die payload s).repairRows = s.repairRows := by obtain ⟨_, _, h⟩ := trunkPost_parts ring kind die payload s; rw [h]
@[simp] theorem trunkPost_badSeen (ring kind die payload : Nat) (s : State) : (trunkPost ring kind die payload s).badSeen = s.badSeen := by obtain ⟨_, _, h⟩ := trunkPost_parts ring kind die payload s; rw [h]
@[simp] theorem trunkPost_rewritten (ring kind die payload : Nat) (s : State) : (trunkPost ring kind die payload s).rewritten = s.rewritten := by obtain ⟨_, _, h⟩ := trunkPost_parts ring kind die payload s; rw [h]
@[simp] theorem trunkPost_tables (ring kind die payload : Nat) (s : State) : (trunkPost ring kind die payload s).tables = s.tables := by obtain ⟨_, _, h⟩ := trunkPost_parts ring kind die payload s; rw [h]
@[simp] theorem trunkPost_host (ring kind die payload : Nat) (s : State) : (trunkPost ring kind die payload s).host = s.host := by obtain ⟨_, _, h⟩ := trunkPost_parts ring kind die payload s; rw [h]
@[simp] theorem trunkPost_windows (ring kind die payload : Nat) (s : State) : (trunkPost ring kind die payload s).windows = s.windows := by obtain ⟨_, _, h⟩ := trunkPost_parts ring kind die payload s; rw [h]
@[simp] theorem trunkPost_reduce (ring kind die payload : Nat) (s : State) : (trunkPost ring kind die payload s).reduce = s.reduce := by obtain ⟨_, _, h⟩ := trunkPost_parts ring kind die payload s; rw [h]
@[simp] theorem trunkPost_gal (ring kind die payload : Nat) (s : State) : (trunkPost ring kind die payload s).gal = s.gal := by obtain ⟨_, _, h⟩ := trunkPost_parts ring kind die payload s; rw [h]
@[simp] theorem trunkPost_steer (ring kind die payload : Nat) (s : State) : (trunkPost ring kind die payload s).steer = s.steer := by obtain ⟨_, _, h⟩ := trunkPost_parts ring kind die payload s; rw [h]
@[simp] theorem trunkPost_recov (ring kind die payload : Nat) (s : State) : (trunkPost ring kind die payload s).recov = s.recov := by obtain ⟨_, _, h⟩ := trunkPost_parts ring kind die payload s; rw [h]
@[simp] theorem trunkPost_tarvy (ring kind die payload : Nat) (s : State) : (trunkPost ring kind die payload s).tarvy = s.tarvy := by obtain ⟨_, _, h⟩ := trunkPost_parts ring kind die payload s; rw [h]
@[simp] theorem trunkPost_board (ring kind die payload : Nat) (s : State) : (trunkPost ring kind die payload s).board = s.board := by obtain ⟨_, _, h⟩ := trunkPost_parts ring kind die payload s; rw [h]
@[simp] theorem trunkPost_free (ring kind die payload : Nat) (s : State) : (trunkPost ring kind die payload s).free = s.free := by obtain ⟨_, _, h⟩ := trunkPost_parts ring kind die payload s; rw [h]
@[simp] theorem trunkPost_out (ring kind die payload : Nat) (s : State) : (trunkPost ring kind die payload s).out = s.out := by obtain ⟨_, _, h⟩ := trunkPost_parts ring kind die payload s; rw [h]
@[simp] theorem trunkPost_pending (ring kind die payload : Nat) (s : State) : (trunkPost ring kind die payload s).pending = s.pending := by obtain ⟨_, _, h⟩ := trunkPost_parts ring kind die payload s; rw [h]
@[simp] theorem trunkPost_tile_of (ring kind die payload : Nat) (s : State) (j : Nat) : (trunkPost ring kind die payload s).tile j = s.tile j := by simp only [State.tile, trunkPost_tiles]
@[simp] theorem trunkPost_blob_of (ring kind die payload : Nat) (s : State) (j : Nat) : (trunkPost ring kind die payload s).blob j = s.blob j := by simp only [State.blob, trunkPost_blobs]
@[simp] theorem trunkPost_bytes_of (ring kind die payload : Nat) (s : State) (x m : Nat) : (trunkPost ring kind die payload s).bytes x m = s.bytes x m := by simp only [State.bytes, trunkPost_mem]
@[simp] theorem trunkPost_le_of (ring kind die payload : Nat) (s : State) (x m : Nat) : (trunkPost ring kind die payload s).le x m = s.le x m := by simp only [State.le, trunkPost_mem]

@[simp] theorem batchEvent_life (e : EventRec) (s : State) : (batchEvent e s).life = s.life := by unfold batchEvent; split <;> rfl
@[simp] theorem batchEvent_now (e : EventRec) (s : State) : (batchEvent e s).now = s.now := by unfold batchEvent; split <;> rfl
@[simp] theorem batchEvent_regs (e : EventRec) (s : State) : (batchEvent e s).regs = s.regs := by unfold batchEvent; split <;> rfl
@[simp] theorem batchEvent_blobs (e : EventRec) (s : State) : (batchEvent e s).blobs = s.blobs := by unfold batchEvent; split <;> rfl
@[simp] theorem batchEvent_mem (e : EventRec) (s : State) : (batchEvent e s).mem = s.mem := by unfold batchEvent; split <;> rfl
@[simp] theorem batchEvent_bad (e : EventRec) (s : State) : (batchEvent e s).bad = s.bad := by unfold batchEvent; split <;> rfl
@[simp] theorem batchEvent_tiles (e : EventRec) (s : State) : (batchEvent e s).tiles = s.tiles := by unfold batchEvent; split <;> rfl
@[simp] theorem batchEvent_store (e : EventRec) (s : State) : (batchEvent e s).store = s.store := by unfold batchEvent; split <;> rfl
@[simp] theorem batchEvent_startImg (e : EventRec) (s : State) : (batchEvent e s).startImg = s.startImg := by unfold batchEvent; split <;> rfl
@[simp] theorem batchEvent_pages (e : EventRec) (s : State) : (batchEvent e s).pages = s.pages := by unfold batchEvent; split <;> rfl
@[simp] theorem batchEvent_early (e : EventRec) (s : State) : (batchEvent e s).early = s.early := by unfold batchEvent; split <;> rfl
@[simp] theorem batchEvent_job (e : EventRec) (s : State) : (batchEvent e s).job = s.job := by unfold batchEvent; split <;> rfl
@[simp] theorem batchEvent_step (e : EventRec) (s : State) : (batchEvent e s).step = s.step := by unfold batchEvent; split <;> rfl
@[simp] theorem batchEvent_ctxs (e : EventRec) (s : State) : (batchEvent e s).ctxs = s.ctxs := by unfold batchEvent; split <;> rfl
@[simp] theorem batchEvent_pagers (e : EventRec) (s : State) : (batchEvent e s).pagers = s.pagers := by unfold batchEvent; split <;> rfl
@[simp] theorem batchEvent_trunk (e : EventRec) (s : State) : (batchEvent e s).trunk = s.trunk := by unfold batchEvent; split <;> rfl
@[simp] theorem batchEvent_evFrames (e : EventRec) (s : State) : (batchEvent e s).evFrames = s.evFrames := by unfold batchEvent; split <;> rfl
@[simp] theorem batchEvent_flowsTx (e : EventRec) (s : State) : (batchEvent e s).flowsTx = s.flowsTx := by unfold batchEvent; split <;> rfl
@[simp] theorem batchEvent_flowsRx (e : EventRec) (s : State) : (batchEvent e s).flowsRx = s.flowsRx := by unfold batchEvent; split <;> rfl
@[simp] theorem batchEvent_reads (e : EventRec) (s : State) : (batchEvent e s).reads = s.reads := by unfold batchEvent; split <;> rfl
@[simp] theorem batchEvent_txWait (e : EventRec) (s : State) : (batchEvent e s).txWait = s.txWait := by unfold batchEvent; split <;> rfl
@[simp] theorem batchEvent_resendNext (e : EventRec) (s : State) : (batchEvent e s).resendNext = s.resendNext := by unfold batchEvent; split <;> rfl
@[simp] theorem batchEvent_desc (e : EventRec) (s : State) : (batchEvent e s).desc = s.desc := by unfold batchEvent; split <;> rfl
@[simp] theorem batchEvent_adopted (e : EventRec) (s : State) : (batchEvent e s).adopted = s.adopted := by unfold batchEvent; split <;> rfl
@[simp] theorem batchEvent_ports (e : EventRec) (s : State) : (batchEvent e s).ports = s.ports := by unfold batchEvent; split <;> rfl
@[simp] theorem batchEvent_rounded (e : EventRec) (s : State) : (batchEvent e s).rounded = s.rounded := by unfold batchEvent; split <;> rfl
@[simp] theorem batchEvent_edges (e : EventRec) (s : State) : (batchEvent e s).edges = s.edges := by unfold batchEvent; split <;> rfl
@[simp] theorem batchEvent_samples (e : EventRec) (s : State) : (batchEvent e s).samples = s.samples := by unfold batchEvent; split <;> rfl
@[simp] theorem batchEvent_layerReady (e : EventRec) (s : State) : (batchEvent e s).layerReady = s.layerReady := by unfold batchEvent; split <;> rfl
@[simp] theorem batchEvent_dieTags (e : EventRec) (s : State) : (batchEvent e s).dieTags = s.dieTags := by unfold batchEvent; split <;> rfl
@[simp] theorem batchEvent_rings (e : EventRec) (s : State) : (batchEvent e s).rings = s.rings := by unfold batchEvent; split <;> rfl
@[simp] theorem batchEvent_retired (e : EventRec) (s : State) : (batchEvent e s).retired = s.retired := by unfold batchEvent; split <;> rfl
@[simp] theorem batchEvent_spareBad (e : EventRec) (s : State) : (batchEvent e s).spareBad = s.spareBad := by unfold batchEvent; split <;> rfl
@[simp] theorem batchEvent_bypassBad (e : EventRec) (s : State) : (batchEvent e s).bypassBad = s.bypassBad := by unfold batchEvent; split <;> rfl
@[simp] theorem batchEvent_retireQ (e : EventRec) (s : State) : (batchEvent e s).retireQ = s.retireQ := by unfold batchEvent; split <;> rfl
@[simp] theorem batchEvent_history (e : EventRec) (s : State) : (batchEvent e s).history = s.history := by unfold batchEvent; split <;> rfl
@[simp] theorem batchEvent_stackCounts (e : EventRec) (s : State) : (batchEvent e s).stackCounts = s.stackCounts := by unfold batchEvent; split <;> rfl
@[simp] theorem batchEvent_bankHours (e : EventRec) (s : State) : (batchEvent e s).bankHours = s.bankHours := by unfold batchEvent; split <;> rfl
@[simp] theorem batchEvent_tileHours (e : EventRec) (s : State) : (batchEvent e s).tileHours = s.tileHours := by unfold batchEvent; split <;> rfl
@[simp] theorem batchEvent_repairRows (e : EventRec) (s : State) : (batchEvent e s).repairRows = s.repairRows := by unfold batchEvent; split <;> rfl
@[simp] theorem batchEvent_badSeen (e : EventRec) (s : State) : (batchEvent e s).badSeen = s.badSeen := by unfold batchEvent; split <;> rfl
@[simp] theorem batchEvent_rewritten (e : EventRec) (s : State) : (batchEvent e s).rewritten = s.rewritten := by unfold batchEvent; split <;> rfl
@[simp] theorem batchEvent_tables (e : EventRec) (s : State) : (batchEvent e s).tables = s.tables := by unfold batchEvent; split <;> rfl
@[simp] theorem batchEvent_host (e : EventRec) (s : State) : (batchEvent e s).host = s.host := by unfold batchEvent; split <;> rfl
@[simp] theorem batchEvent_windows (e : EventRec) (s : State) : (batchEvent e s).windows = s.windows := by unfold batchEvent; split <;> rfl
@[simp] theorem batchEvent_reduce (e : EventRec) (s : State) : (batchEvent e s).reduce = s.reduce := by unfold batchEvent; split <;> rfl
@[simp] theorem batchEvent_gal (e : EventRec) (s : State) : (batchEvent e s).gal = s.gal := by unfold batchEvent; split <;> rfl
@[simp] theorem batchEvent_steer (e : EventRec) (s : State) : (batchEvent e s).steer = s.steer := by unfold batchEvent; split <;> rfl
@[simp] theorem batchEvent_recov (e : EventRec) (s : State) : (batchEvent e s).recov = s.recov := by unfold batchEvent; split <;> rfl
@[simp] theorem batchEvent_tarvy (e : EventRec) (s : State) : (batchEvent e s).tarvy = s.tarvy := by unfold batchEvent; split <;> rfl
@[simp] theorem batchEvent_board (e : EventRec) (s : State) : (batchEvent e s).board = s.board := by unfold batchEvent; split <;> rfl
@[simp] theorem batchEvent_free (e : EventRec) (s : State) : (batchEvent e s).free = s.free := by unfold batchEvent; split <;> rfl
@[simp] theorem batchEvent_out (e : EventRec) (s : State) : (batchEvent e s).out = s.out := by unfold batchEvent; split <;> rfl
@[simp] theorem batchEvent_pending (e : EventRec) (s : State) : (batchEvent e s).pending = s.pending := by unfold batchEvent; split <;> rfl
@[simp] theorem batchEvent_reg_of (e : EventRec) (s : State) (j : Nat) : (batchEvent e s).reg j = s.reg j := by simp only [State.reg, batchEvent_regs]
@[simp] theorem batchEvent_tile_of (e : EventRec) (s : State) (j : Nat) : (batchEvent e s).tile j = s.tile j := by simp only [State.tile, batchEvent_tiles]
@[simp] theorem batchEvent_blob_of (e : EventRec) (s : State) (j : Nat) : (batchEvent e s).blob j = s.blob j := by simp only [State.blob, batchEvent_blobs]
@[simp] theorem batchEvent_bytes_of (e : EventRec) (s : State) (x m : Nat) : (batchEvent e s).bytes x m = s.bytes x m := by simp only [State.bytes, batchEvent_mem]
@[simp] theorem batchEvent_le_of (e : EventRec) (s : State) (x m : Nat) : (batchEvent e s).le x m = s.le x m := by simp only [State.le, batchEvent_mem]
@[simp] theorem batchEvent_coord_of (e : EventRec) (s : State)  : (batchEvent e s).coord  = s.coord  := by simp only [State.coord, State.reg, batchEvent_regs]

@[simp] theorem raiseUnit_life (code unit sub op : Nat) (s : State) : (raiseUnit code unit sub op s).life = s.life := by simp [raiseUnit]
@[simp] theorem raiseUnit_now (code unit sub op : Nat) (s : State) : (raiseUnit code unit sub op s).now = s.now := by simp [raiseUnit]
@[simp] theorem raiseUnit_blobs (code unit sub op : Nat) (s : State) : (raiseUnit code unit sub op s).blobs = s.blobs := by simp [raiseUnit]
@[simp] theorem raiseUnit_mem (code unit sub op : Nat) (s : State) : (raiseUnit code unit sub op s).mem = s.mem := by simp [raiseUnit]
@[simp] theorem raiseUnit_bad (code unit sub op : Nat) (s : State) : (raiseUnit code unit sub op s).bad = s.bad := by simp [raiseUnit]
@[simp] theorem raiseUnit_tiles (code unit sub op : Nat) (s : State) : (raiseUnit code unit sub op s).tiles = s.tiles := by simp [raiseUnit]
@[simp] theorem raiseUnit_store (code unit sub op : Nat) (s : State) : (raiseUnit code unit sub op s).store = s.store := by simp [raiseUnit]
@[simp] theorem raiseUnit_startImg (code unit sub op : Nat) (s : State) : (raiseUnit code unit sub op s).startImg = s.startImg := by simp [raiseUnit]
@[simp] theorem raiseUnit_pages (code unit sub op : Nat) (s : State) : (raiseUnit code unit sub op s).pages = s.pages := by simp [raiseUnit]
@[simp] theorem raiseUnit_early (code unit sub op : Nat) (s : State) : (raiseUnit code unit sub op s).early = s.early := by simp [raiseUnit]
@[simp] theorem raiseUnit_job (code unit sub op : Nat) (s : State) : (raiseUnit code unit sub op s).job = s.job := by simp [raiseUnit]
@[simp] theorem raiseUnit_step (code unit sub op : Nat) (s : State) : (raiseUnit code unit sub op s).step = s.step := by simp [raiseUnit]
@[simp] theorem raiseUnit_ctxs (code unit sub op : Nat) (s : State) : (raiseUnit code unit sub op s).ctxs = s.ctxs := by simp [raiseUnit]
@[simp] theorem raiseUnit_pagers (code unit sub op : Nat) (s : State) : (raiseUnit code unit sub op s).pagers = s.pagers := by simp [raiseUnit]
@[simp] theorem raiseUnit_evFrames (code unit sub op : Nat) (s : State) : (raiseUnit code unit sub op s).evFrames = s.evFrames := by simp [raiseUnit]
@[simp] theorem raiseUnit_flowsTx (code unit sub op : Nat) (s : State) : (raiseUnit code unit sub op s).flowsTx = s.flowsTx := by simp [raiseUnit]
@[simp] theorem raiseUnit_flowsRx (code unit sub op : Nat) (s : State) : (raiseUnit code unit sub op s).flowsRx = s.flowsRx := by simp [raiseUnit]
@[simp] theorem raiseUnit_reads (code unit sub op : Nat) (s : State) : (raiseUnit code unit sub op s).reads = s.reads := by simp [raiseUnit]
@[simp] theorem raiseUnit_txWait (code unit sub op : Nat) (s : State) : (raiseUnit code unit sub op s).txWait = s.txWait := by simp [raiseUnit]
@[simp] theorem raiseUnit_resendNext (code unit sub op : Nat) (s : State) : (raiseUnit code unit sub op s).resendNext = s.resendNext := by simp [raiseUnit]
@[simp] theorem raiseUnit_desc (code unit sub op : Nat) (s : State) : (raiseUnit code unit sub op s).desc = s.desc := by simp [raiseUnit]
@[simp] theorem raiseUnit_adopted (code unit sub op : Nat) (s : State) : (raiseUnit code unit sub op s).adopted = s.adopted := by simp [raiseUnit]
@[simp] theorem raiseUnit_ports (code unit sub op : Nat) (s : State) : (raiseUnit code unit sub op s).ports = s.ports := by simp [raiseUnit]
@[simp] theorem raiseUnit_rounded (code unit sub op : Nat) (s : State) : (raiseUnit code unit sub op s).rounded = s.rounded := by simp [raiseUnit]
@[simp] theorem raiseUnit_edges (code unit sub op : Nat) (s : State) : (raiseUnit code unit sub op s).edges = s.edges := by simp [raiseUnit]
@[simp] theorem raiseUnit_samples (code unit sub op : Nat) (s : State) : (raiseUnit code unit sub op s).samples = s.samples := by simp [raiseUnit]
@[simp] theorem raiseUnit_layerReady (code unit sub op : Nat) (s : State) : (raiseUnit code unit sub op s).layerReady = s.layerReady := by simp [raiseUnit]
@[simp] theorem raiseUnit_dieTags (code unit sub op : Nat) (s : State) : (raiseUnit code unit sub op s).dieTags = s.dieTags := by simp [raiseUnit]
@[simp] theorem raiseUnit_rings (code unit sub op : Nat) (s : State) : (raiseUnit code unit sub op s).rings = s.rings := by simp [raiseUnit]
@[simp] theorem raiseUnit_retired (code unit sub op : Nat) (s : State) : (raiseUnit code unit sub op s).retired = s.retired := by simp [raiseUnit]
@[simp] theorem raiseUnit_spareBad (code unit sub op : Nat) (s : State) : (raiseUnit code unit sub op s).spareBad = s.spareBad := by simp [raiseUnit]
@[simp] theorem raiseUnit_bypassBad (code unit sub op : Nat) (s : State) : (raiseUnit code unit sub op s).bypassBad = s.bypassBad := by simp [raiseUnit]
@[simp] theorem raiseUnit_retireQ (code unit sub op : Nat) (s : State) : (raiseUnit code unit sub op s).retireQ = s.retireQ := by simp [raiseUnit]
@[simp] theorem raiseUnit_history (code unit sub op : Nat) (s : State) : (raiseUnit code unit sub op s).history = s.history := by simp [raiseUnit]
@[simp] theorem raiseUnit_stackCounts (code unit sub op : Nat) (s : State) : (raiseUnit code unit sub op s).stackCounts = s.stackCounts := by simp [raiseUnit]
@[simp] theorem raiseUnit_bankHours (code unit sub op : Nat) (s : State) : (raiseUnit code unit sub op s).bankHours = s.bankHours := by simp [raiseUnit]
@[simp] theorem raiseUnit_tileHours (code unit sub op : Nat) (s : State) : (raiseUnit code unit sub op s).tileHours = s.tileHours := by simp [raiseUnit]
@[simp] theorem raiseUnit_repairRows (code unit sub op : Nat) (s : State) : (raiseUnit code unit sub op s).repairRows = s.repairRows := by simp [raiseUnit]
@[simp] theorem raiseUnit_badSeen (code unit sub op : Nat) (s : State) : (raiseUnit code unit sub op s).badSeen = s.badSeen := by simp [raiseUnit]
@[simp] theorem raiseUnit_rewritten (code unit sub op : Nat) (s : State) : (raiseUnit code unit sub op s).rewritten = s.rewritten := by simp [raiseUnit]
@[simp] theorem raiseUnit_tables (code unit sub op : Nat) (s : State) : (raiseUnit code unit sub op s).tables = s.tables := by simp [raiseUnit]
@[simp] theorem raiseUnit_host (code unit sub op : Nat) (s : State) : (raiseUnit code unit sub op s).host = s.host := by simp [raiseUnit]
@[simp] theorem raiseUnit_windows (code unit sub op : Nat) (s : State) : (raiseUnit code unit sub op s).windows = s.windows := by simp [raiseUnit]
@[simp] theorem raiseUnit_reduce (code unit sub op : Nat) (s : State) : (raiseUnit code unit sub op s).reduce = s.reduce := by simp [raiseUnit]
@[simp] theorem raiseUnit_gal (code unit sub op : Nat) (s : State) : (raiseUnit code unit sub op s).gal = s.gal := by simp [raiseUnit]
@[simp] theorem raiseUnit_steer (code unit sub op : Nat) (s : State) : (raiseUnit code unit sub op s).steer = s.steer := by simp [raiseUnit]
@[simp] theorem raiseUnit_recov (code unit sub op : Nat) (s : State) : (raiseUnit code unit sub op s).recov = s.recov := by simp [raiseUnit]
@[simp] theorem raiseUnit_tarvy (code unit sub op : Nat) (s : State) : (raiseUnit code unit sub op s).tarvy = s.tarvy := by simp [raiseUnit]
@[simp] theorem raiseUnit_board (code unit sub op : Nat) (s : State) : (raiseUnit code unit sub op s).board = s.board := by simp [raiseUnit]
@[simp] theorem raiseUnit_free (code unit sub op : Nat) (s : State) : (raiseUnit code unit sub op s).free = s.free := by simp [raiseUnit]
@[simp] theorem raiseUnit_out (code unit sub op : Nat) (s : State) : (raiseUnit code unit sub op s).out = s.out := by simp [raiseUnit]
@[simp] theorem raiseUnit_pending (code unit sub op : Nat) (s : State) : (raiseUnit code unit sub op s).pending = s.pending := by simp [raiseUnit]
@[simp] theorem raiseUnit_tile_of (code unit sub op : Nat) (s : State) (j : Nat) : (raiseUnit code unit sub op s).tile j = s.tile j := by simp only [State.tile, raiseUnit_tiles]
@[simp] theorem raiseUnit_blob_of (code unit sub op : Nat) (s : State) (j : Nat) : (raiseUnit code unit sub op s).blob j = s.blob j := by simp only [State.blob, raiseUnit_blobs]
@[simp] theorem raiseUnit_bytes_of (code unit sub op : Nat) (s : State) (x m : Nat) : (raiseUnit code unit sub op s).bytes x m = s.bytes x m := by simp only [State.bytes, raiseUnit_mem]
@[simp] theorem raiseUnit_le_of (code unit sub op : Nat) (s : State) (x m : Nat) : (raiseUnit code unit sub op s).le x m = s.le x m := by simp only [State.le, raiseUnit_mem]

@[simp] theorem raiseAt_life (code die tile sub op : Nat) (s : State) : (raiseAt code die tile sub op s).life = s.life := by simp [raiseAt]
@[simp] theorem raiseAt_now (code die tile sub op : Nat) (s : State) : (raiseAt code die tile sub op s).now = s.now := by simp [raiseAt]
@[simp] theorem raiseAt_blobs (code die tile sub op : Nat) (s : State) : (raiseAt code die tile sub op s).blobs = s.blobs := by simp [raiseAt]
@[simp] theorem raiseAt_mem (code die tile sub op : Nat) (s : State) : (raiseAt code die tile sub op s).mem = s.mem := by simp [raiseAt]
@[simp] theorem raiseAt_bad (code die tile sub op : Nat) (s : State) : (raiseAt code die tile sub op s).bad = s.bad := by simp [raiseAt]
@[simp] theorem raiseAt_tiles (code die tile sub op : Nat) (s : State) : (raiseAt code die tile sub op s).tiles = s.tiles := by simp [raiseAt]
@[simp] theorem raiseAt_store (code die tile sub op : Nat) (s : State) : (raiseAt code die tile sub op s).store = s.store := by simp [raiseAt]
@[simp] theorem raiseAt_startImg (code die tile sub op : Nat) (s : State) : (raiseAt code die tile sub op s).startImg = s.startImg := by simp [raiseAt]
@[simp] theorem raiseAt_pages (code die tile sub op : Nat) (s : State) : (raiseAt code die tile sub op s).pages = s.pages := by simp [raiseAt]
@[simp] theorem raiseAt_early (code die tile sub op : Nat) (s : State) : (raiseAt code die tile sub op s).early = s.early := by simp [raiseAt]
@[simp] theorem raiseAt_job (code die tile sub op : Nat) (s : State) : (raiseAt code die tile sub op s).job = s.job := by simp [raiseAt]
@[simp] theorem raiseAt_step (code die tile sub op : Nat) (s : State) : (raiseAt code die tile sub op s).step = s.step := by simp [raiseAt]
@[simp] theorem raiseAt_ctxs (code die tile sub op : Nat) (s : State) : (raiseAt code die tile sub op s).ctxs = s.ctxs := by simp [raiseAt]
@[simp] theorem raiseAt_pagers (code die tile sub op : Nat) (s : State) : (raiseAt code die tile sub op s).pagers = s.pagers := by simp [raiseAt]
@[simp] theorem raiseAt_evFrames (code die tile sub op : Nat) (s : State) : (raiseAt code die tile sub op s).evFrames = s.evFrames := by simp [raiseAt]
@[simp] theorem raiseAt_flowsTx (code die tile sub op : Nat) (s : State) : (raiseAt code die tile sub op s).flowsTx = s.flowsTx := by simp [raiseAt]
@[simp] theorem raiseAt_flowsRx (code die tile sub op : Nat) (s : State) : (raiseAt code die tile sub op s).flowsRx = s.flowsRx := by simp [raiseAt]
@[simp] theorem raiseAt_reads (code die tile sub op : Nat) (s : State) : (raiseAt code die tile sub op s).reads = s.reads := by simp [raiseAt]
@[simp] theorem raiseAt_txWait (code die tile sub op : Nat) (s : State) : (raiseAt code die tile sub op s).txWait = s.txWait := by simp [raiseAt]
@[simp] theorem raiseAt_resendNext (code die tile sub op : Nat) (s : State) : (raiseAt code die tile sub op s).resendNext = s.resendNext := by simp [raiseAt]
@[simp] theorem raiseAt_desc (code die tile sub op : Nat) (s : State) : (raiseAt code die tile sub op s).desc = s.desc := by simp [raiseAt]
@[simp] theorem raiseAt_adopted (code die tile sub op : Nat) (s : State) : (raiseAt code die tile sub op s).adopted = s.adopted := by simp [raiseAt]
@[simp] theorem raiseAt_ports (code die tile sub op : Nat) (s : State) : (raiseAt code die tile sub op s).ports = s.ports := by simp [raiseAt]
@[simp] theorem raiseAt_rounded (code die tile sub op : Nat) (s : State) : (raiseAt code die tile sub op s).rounded = s.rounded := by simp [raiseAt]
@[simp] theorem raiseAt_edges (code die tile sub op : Nat) (s : State) : (raiseAt code die tile sub op s).edges = s.edges := by simp [raiseAt]
@[simp] theorem raiseAt_samples (code die tile sub op : Nat) (s : State) : (raiseAt code die tile sub op s).samples = s.samples := by simp [raiseAt]
@[simp] theorem raiseAt_layerReady (code die tile sub op : Nat) (s : State) : (raiseAt code die tile sub op s).layerReady = s.layerReady := by simp [raiseAt]
@[simp] theorem raiseAt_dieTags (code die tile sub op : Nat) (s : State) : (raiseAt code die tile sub op s).dieTags = s.dieTags := by simp [raiseAt]
@[simp] theorem raiseAt_rings (code die tile sub op : Nat) (s : State) : (raiseAt code die tile sub op s).rings = s.rings := by simp [raiseAt]
@[simp] theorem raiseAt_retired (code die tile sub op : Nat) (s : State) : (raiseAt code die tile sub op s).retired = s.retired := by simp [raiseAt]
@[simp] theorem raiseAt_spareBad (code die tile sub op : Nat) (s : State) : (raiseAt code die tile sub op s).spareBad = s.spareBad := by simp [raiseAt]
@[simp] theorem raiseAt_bypassBad (code die tile sub op : Nat) (s : State) : (raiseAt code die tile sub op s).bypassBad = s.bypassBad := by simp [raiseAt]
@[simp] theorem raiseAt_retireQ (code die tile sub op : Nat) (s : State) : (raiseAt code die tile sub op s).retireQ = s.retireQ := by simp [raiseAt]
@[simp] theorem raiseAt_history (code die tile sub op : Nat) (s : State) : (raiseAt code die tile sub op s).history = s.history := by simp [raiseAt]
@[simp] theorem raiseAt_stackCounts (code die tile sub op : Nat) (s : State) : (raiseAt code die tile sub op s).stackCounts = s.stackCounts := by simp [raiseAt]
@[simp] theorem raiseAt_bankHours (code die tile sub op : Nat) (s : State) : (raiseAt code die tile sub op s).bankHours = s.bankHours := by simp [raiseAt]
@[simp] theorem raiseAt_tileHours (code die tile sub op : Nat) (s : State) : (raiseAt code die tile sub op s).tileHours = s.tileHours := by simp [raiseAt]
@[simp] theorem raiseAt_repairRows (code die tile sub op : Nat) (s : State) : (raiseAt code die tile sub op s).repairRows = s.repairRows := by simp [raiseAt]
@[simp] theorem raiseAt_badSeen (code die tile sub op : Nat) (s : State) : (raiseAt code die tile sub op s).badSeen = s.badSeen := by simp [raiseAt]
@[simp] theorem raiseAt_rewritten (code die tile sub op : Nat) (s : State) : (raiseAt code die tile sub op s).rewritten = s.rewritten := by simp [raiseAt]
@[simp] theorem raiseAt_tables (code die tile sub op : Nat) (s : State) : (raiseAt code die tile sub op s).tables = s.tables := by simp [raiseAt]
@[simp] theorem raiseAt_host (code die tile sub op : Nat) (s : State) : (raiseAt code die tile sub op s).host = s.host := by simp [raiseAt]
@[simp] theorem raiseAt_windows (code die tile sub op : Nat) (s : State) : (raiseAt code die tile sub op s).windows = s.windows := by simp [raiseAt]
@[simp] theorem raiseAt_reduce (code die tile sub op : Nat) (s : State) : (raiseAt code die tile sub op s).reduce = s.reduce := by simp [raiseAt]
@[simp] theorem raiseAt_gal (code die tile sub op : Nat) (s : State) : (raiseAt code die tile sub op s).gal = s.gal := by simp [raiseAt]
@[simp] theorem raiseAt_steer (code die tile sub op : Nat) (s : State) : (raiseAt code die tile sub op s).steer = s.steer := by simp [raiseAt]
@[simp] theorem raiseAt_recov (code die tile sub op : Nat) (s : State) : (raiseAt code die tile sub op s).recov = s.recov := by simp [raiseAt]
@[simp] theorem raiseAt_tarvy (code die tile sub op : Nat) (s : State) : (raiseAt code die tile sub op s).tarvy = s.tarvy := by simp [raiseAt]
@[simp] theorem raiseAt_board (code die tile sub op : Nat) (s : State) : (raiseAt code die tile sub op s).board = s.board := by simp [raiseAt]
@[simp] theorem raiseAt_free (code die tile sub op : Nat) (s : State) : (raiseAt code die tile sub op s).free = s.free := by simp [raiseAt]
@[simp] theorem raiseAt_out (code die tile sub op : Nat) (s : State) : (raiseAt code die tile sub op s).out = s.out := by simp [raiseAt]
@[simp] theorem raiseAt_pending (code die tile sub op : Nat) (s : State) : (raiseAt code die tile sub op s).pending = s.pending := by simp [raiseAt]
@[simp] theorem raiseAt_tile_of (code die tile sub op : Nat) (s : State) (j : Nat) : (raiseAt code die tile sub op s).tile j = s.tile j := by simp only [State.tile, raiseAt_tiles]
@[simp] theorem raiseAt_blob_of (code die tile sub op : Nat) (s : State) (j : Nat) : (raiseAt code die tile sub op s).blob j = s.blob j := by simp only [State.blob, raiseAt_blobs]
@[simp] theorem raiseAt_bytes_of (code die tile sub op : Nat) (s : State) (x m : Nat) : (raiseAt code die tile sub op s).bytes x m = s.bytes x m := by simp only [State.bytes, raiseAt_mem]
@[simp] theorem raiseAt_le_of (code die tile sub op : Nat) (s : State) (x m : Nat) : (raiseAt code die tile sub op s).le x m = s.le x m := by simp only [State.le, raiseAt_mem]

@[simp] theorem raise_life (code : Nat) (s : State) : (raise_ code s).life = s.life := by simp [raise_]
@[simp] theorem raise_now (code : Nat) (s : State) : (raise_ code s).now = s.now := by simp [raise_]
@[simp] theorem raise_blobs (code : Nat) (s : State) : (raise_ code s).blobs = s.blobs := by simp [raise_]
@[simp] theorem raise_mem (code : Nat) (s : State) : (raise_ code s).mem = s.mem := by simp [raise_]
@[simp] theorem raise_bad (code : Nat) (s : State) : (raise_ code s).bad = s.bad := by simp [raise_]
@[simp] theorem raise_tiles (code : Nat) (s : State) : (raise_ code s).tiles = s.tiles := by simp [raise_]
@[simp] theorem raise_store (code : Nat) (s : State) : (raise_ code s).store = s.store := by simp [raise_]
@[simp] theorem raise_startImg (code : Nat) (s : State) : (raise_ code s).startImg = s.startImg := by simp [raise_]
@[simp] theorem raise_pages (code : Nat) (s : State) : (raise_ code s).pages = s.pages := by simp [raise_]
@[simp] theorem raise_early (code : Nat) (s : State) : (raise_ code s).early = s.early := by simp [raise_]
@[simp] theorem raise_job (code : Nat) (s : State) : (raise_ code s).job = s.job := by simp [raise_]
@[simp] theorem raise_step (code : Nat) (s : State) : (raise_ code s).step = s.step := by simp [raise_]
@[simp] theorem raise_ctxs (code : Nat) (s : State) : (raise_ code s).ctxs = s.ctxs := by simp [raise_]
@[simp] theorem raise_pagers (code : Nat) (s : State) : (raise_ code s).pagers = s.pagers := by simp [raise_]
@[simp] theorem raise_evFrames (code : Nat) (s : State) : (raise_ code s).evFrames = s.evFrames := by simp [raise_]
@[simp] theorem raise_flowsTx (code : Nat) (s : State) : (raise_ code s).flowsTx = s.flowsTx := by simp [raise_]
@[simp] theorem raise_flowsRx (code : Nat) (s : State) : (raise_ code s).flowsRx = s.flowsRx := by simp [raise_]
@[simp] theorem raise_reads (code : Nat) (s : State) : (raise_ code s).reads = s.reads := by simp [raise_]
@[simp] theorem raise_txWait (code : Nat) (s : State) : (raise_ code s).txWait = s.txWait := by simp [raise_]
@[simp] theorem raise_resendNext (code : Nat) (s : State) : (raise_ code s).resendNext = s.resendNext := by simp [raise_]
@[simp] theorem raise_desc (code : Nat) (s : State) : (raise_ code s).desc = s.desc := by simp [raise_]
@[simp] theorem raise_adopted (code : Nat) (s : State) : (raise_ code s).adopted = s.adopted := by simp [raise_]
@[simp] theorem raise_ports (code : Nat) (s : State) : (raise_ code s).ports = s.ports := by simp [raise_]
@[simp] theorem raise_rounded (code : Nat) (s : State) : (raise_ code s).rounded = s.rounded := by simp [raise_]
@[simp] theorem raise_edges (code : Nat) (s : State) : (raise_ code s).edges = s.edges := by simp [raise_]
@[simp] theorem raise_samples (code : Nat) (s : State) : (raise_ code s).samples = s.samples := by simp [raise_]
@[simp] theorem raise_layerReady (code : Nat) (s : State) : (raise_ code s).layerReady = s.layerReady := by simp [raise_]
@[simp] theorem raise_dieTags (code : Nat) (s : State) : (raise_ code s).dieTags = s.dieTags := by simp [raise_]
@[simp] theorem raise_rings (code : Nat) (s : State) : (raise_ code s).rings = s.rings := by simp [raise_]
@[simp] theorem raise_retired (code : Nat) (s : State) : (raise_ code s).retired = s.retired := by simp [raise_]
@[simp] theorem raise_spareBad (code : Nat) (s : State) : (raise_ code s).spareBad = s.spareBad := by simp [raise_]
@[simp] theorem raise_bypassBad (code : Nat) (s : State) : (raise_ code s).bypassBad = s.bypassBad := by simp [raise_]
@[simp] theorem raise_retireQ (code : Nat) (s : State) : (raise_ code s).retireQ = s.retireQ := by simp [raise_]
@[simp] theorem raise_history (code : Nat) (s : State) : (raise_ code s).history = s.history := by simp [raise_]
@[simp] theorem raise_stackCounts (code : Nat) (s : State) : (raise_ code s).stackCounts = s.stackCounts := by simp [raise_]
@[simp] theorem raise_bankHours (code : Nat) (s : State) : (raise_ code s).bankHours = s.bankHours := by simp [raise_]
@[simp] theorem raise_tileHours (code : Nat) (s : State) : (raise_ code s).tileHours = s.tileHours := by simp [raise_]
@[simp] theorem raise_repairRows (code : Nat) (s : State) : (raise_ code s).repairRows = s.repairRows := by simp [raise_]
@[simp] theorem raise_badSeen (code : Nat) (s : State) : (raise_ code s).badSeen = s.badSeen := by simp [raise_]
@[simp] theorem raise_rewritten (code : Nat) (s : State) : (raise_ code s).rewritten = s.rewritten := by simp [raise_]
@[simp] theorem raise_tables (code : Nat) (s : State) : (raise_ code s).tables = s.tables := by simp [raise_]
@[simp] theorem raise_host (code : Nat) (s : State) : (raise_ code s).host = s.host := by simp [raise_]
@[simp] theorem raise_windows (code : Nat) (s : State) : (raise_ code s).windows = s.windows := by simp [raise_]
@[simp] theorem raise_reduce (code : Nat) (s : State) : (raise_ code s).reduce = s.reduce := by simp [raise_]
@[simp] theorem raise_gal (code : Nat) (s : State) : (raise_ code s).gal = s.gal := by simp [raise_]
@[simp] theorem raise_steer (code : Nat) (s : State) : (raise_ code s).steer = s.steer := by simp [raise_]
@[simp] theorem raise_recov (code : Nat) (s : State) : (raise_ code s).recov = s.recov := by simp [raise_]
@[simp] theorem raise_tarvy (code : Nat) (s : State) : (raise_ code s).tarvy = s.tarvy := by simp [raise_]
@[simp] theorem raise_board (code : Nat) (s : State) : (raise_ code s).board = s.board := by simp [raise_]
@[simp] theorem raise_free (code : Nat) (s : State) : (raise_ code s).free = s.free := by simp [raise_]
@[simp] theorem raise_out (code : Nat) (s : State) : (raise_ code s).out = s.out := by simp [raise_]
@[simp] theorem raise_pending (code : Nat) (s : State) : (raise_ code s).pending = s.pending := by simp [raise_]
@[simp] theorem raise_tile_of (code : Nat) (s : State) (j : Nat) : (raise_ code s).tile j = s.tile j := by simp only [State.tile, raise_tiles]
@[simp] theorem raise_blob_of (code : Nat) (s : State) (j : Nat) : (raise_ code s).blob j = s.blob j := by simp only [State.blob, raise_blobs]
@[simp] theorem raise_bytes_of (code : Nat) (s : State) (x m : Nat) : (raise_ code s).bytes x m = s.bytes x m := by simp only [State.bytes, raise_mem]
@[simp] theorem raise_le_of (code : Nat) (s : State) (x m : Nat) : (raise_ code s).le x m = s.le x m := by simp only [State.le, raise_mem]

@[simp] theorem modPort_life (p : Nat) (f : MidPort → MidPort) (s : State) : (modPort p f s).life = s.life := rfl
@[simp] theorem modPort_now (p : Nat) (f : MidPort → MidPort) (s : State) : (modPort p f s).now = s.now := rfl
@[simp] theorem modPort_regs (p : Nat) (f : MidPort → MidPort) (s : State) : (modPort p f s).regs = s.regs := rfl
@[simp] theorem modPort_blobs (p : Nat) (f : MidPort → MidPort) (s : State) : (modPort p f s).blobs = s.blobs := rfl
@[simp] theorem modPort_mem (p : Nat) (f : MidPort → MidPort) (s : State) : (modPort p f s).mem = s.mem := rfl
@[simp] theorem modPort_bad (p : Nat) (f : MidPort → MidPort) (s : State) : (modPort p f s).bad = s.bad := rfl
@[simp] theorem modPort_tiles (p : Nat) (f : MidPort → MidPort) (s : State) : (modPort p f s).tiles = s.tiles := rfl
@[simp] theorem modPort_store (p : Nat) (f : MidPort → MidPort) (s : State) : (modPort p f s).store = s.store := rfl
@[simp] theorem modPort_startImg (p : Nat) (f : MidPort → MidPort) (s : State) : (modPort p f s).startImg = s.startImg := rfl
@[simp] theorem modPort_pages (p : Nat) (f : MidPort → MidPort) (s : State) : (modPort p f s).pages = s.pages := rfl
@[simp] theorem modPort_early (p : Nat) (f : MidPort → MidPort) (s : State) : (modPort p f s).early = s.early := rfl
@[simp] theorem modPort_job (p : Nat) (f : MidPort → MidPort) (s : State) : (modPort p f s).job = s.job := rfl
@[simp] theorem modPort_step (p : Nat) (f : MidPort → MidPort) (s : State) : (modPort p f s).step = s.step := rfl
@[simp] theorem modPort_ctxs (p : Nat) (f : MidPort → MidPort) (s : State) : (modPort p f s).ctxs = s.ctxs := rfl
@[simp] theorem modPort_pagers (p : Nat) (f : MidPort → MidPort) (s : State) : (modPort p f s).pagers = s.pagers := rfl
@[simp] theorem modPort_trunk (p : Nat) (f : MidPort → MidPort) (s : State) : (modPort p f s).trunk = s.trunk := rfl
@[simp] theorem modPort_evBatch (p : Nat) (f : MidPort → MidPort) (s : State) : (modPort p f s).evBatch = s.evBatch := rfl
@[simp] theorem modPort_evFrames (p : Nat) (f : MidPort → MidPort) (s : State) : (modPort p f s).evFrames = s.evFrames := rfl
@[simp] theorem modPort_flowsTx (p : Nat) (f : MidPort → MidPort) (s : State) : (modPort p f s).flowsTx = s.flowsTx := rfl
@[simp] theorem modPort_flowsRx (p : Nat) (f : MidPort → MidPort) (s : State) : (modPort p f s).flowsRx = s.flowsRx := rfl
@[simp] theorem modPort_reads (p : Nat) (f : MidPort → MidPort) (s : State) : (modPort p f s).reads = s.reads := rfl
@[simp] theorem modPort_txWait (p : Nat) (f : MidPort → MidPort) (s : State) : (modPort p f s).txWait = s.txWait := rfl
@[simp] theorem modPort_resendNext (p : Nat) (f : MidPort → MidPort) (s : State) : (modPort p f s).resendNext = s.resendNext := rfl
@[simp] theorem modPort_desc (p : Nat) (f : MidPort → MidPort) (s : State) : (modPort p f s).desc = s.desc := rfl
@[simp] theorem modPort_adopted (p : Nat) (f : MidPort → MidPort) (s : State) : (modPort p f s).adopted = s.adopted := rfl
@[simp] theorem modPort_rounded (p : Nat) (f : MidPort → MidPort) (s : State) : (modPort p f s).rounded = s.rounded := rfl
@[simp] theorem modPort_edges (p : Nat) (f : MidPort → MidPort) (s : State) : (modPort p f s).edges = s.edges := rfl
@[simp] theorem modPort_samples (p : Nat) (f : MidPort → MidPort) (s : State) : (modPort p f s).samples = s.samples := rfl
@[simp] theorem modPort_layerReady (p : Nat) (f : MidPort → MidPort) (s : State) : (modPort p f s).layerReady = s.layerReady := rfl
@[simp] theorem modPort_dieTags (p : Nat) (f : MidPort → MidPort) (s : State) : (modPort p f s).dieTags = s.dieTags := rfl
@[simp] theorem modPort_rings (p : Nat) (f : MidPort → MidPort) (s : State) : (modPort p f s).rings = s.rings := rfl
@[simp] theorem modPort_retired (p : Nat) (f : MidPort → MidPort) (s : State) : (modPort p f s).retired = s.retired := rfl
@[simp] theorem modPort_spareBad (p : Nat) (f : MidPort → MidPort) (s : State) : (modPort p f s).spareBad = s.spareBad := rfl
@[simp] theorem modPort_bypassBad (p : Nat) (f : MidPort → MidPort) (s : State) : (modPort p f s).bypassBad = s.bypassBad := rfl
@[simp] theorem modPort_retireQ (p : Nat) (f : MidPort → MidPort) (s : State) : (modPort p f s).retireQ = s.retireQ := rfl
@[simp] theorem modPort_history (p : Nat) (f : MidPort → MidPort) (s : State) : (modPort p f s).history = s.history := rfl
@[simp] theorem modPort_stackCounts (p : Nat) (f : MidPort → MidPort) (s : State) : (modPort p f s).stackCounts = s.stackCounts := rfl
@[simp] theorem modPort_bankHours (p : Nat) (f : MidPort → MidPort) (s : State) : (modPort p f s).bankHours = s.bankHours := rfl
@[simp] theorem modPort_tileHours (p : Nat) (f : MidPort → MidPort) (s : State) : (modPort p f s).tileHours = s.tileHours := rfl
@[simp] theorem modPort_repairRows (p : Nat) (f : MidPort → MidPort) (s : State) : (modPort p f s).repairRows = s.repairRows := rfl
@[simp] theorem modPort_badSeen (p : Nat) (f : MidPort → MidPort) (s : State) : (modPort p f s).badSeen = s.badSeen := rfl
@[simp] theorem modPort_rewritten (p : Nat) (f : MidPort → MidPort) (s : State) : (modPort p f s).rewritten = s.rewritten := rfl
@[simp] theorem modPort_tables (p : Nat) (f : MidPort → MidPort) (s : State) : (modPort p f s).tables = s.tables := rfl
@[simp] theorem modPort_host (p : Nat) (f : MidPort → MidPort) (s : State) : (modPort p f s).host = s.host := rfl
@[simp] theorem modPort_windows (p : Nat) (f : MidPort → MidPort) (s : State) : (modPort p f s).windows = s.windows := rfl
@[simp] theorem modPort_reduce (p : Nat) (f : MidPort → MidPort) (s : State) : (modPort p f s).reduce = s.reduce := rfl
@[simp] theorem modPort_gal (p : Nat) (f : MidPort → MidPort) (s : State) : (modPort p f s).gal = s.gal := rfl
@[simp] theorem modPort_steer (p : Nat) (f : MidPort → MidPort) (s : State) : (modPort p f s).steer = s.steer := rfl
@[simp] theorem modPort_recov (p : Nat) (f : MidPort → MidPort) (s : State) : (modPort p f s).recov = s.recov := rfl
@[simp] theorem modPort_tarvy (p : Nat) (f : MidPort → MidPort) (s : State) : (modPort p f s).tarvy = s.tarvy := rfl
@[simp] theorem modPort_board (p : Nat) (f : MidPort → MidPort) (s : State) : (modPort p f s).board = s.board := rfl
@[simp] theorem modPort_free (p : Nat) (f : MidPort → MidPort) (s : State) : (modPort p f s).free = s.free := rfl
@[simp] theorem modPort_out (p : Nat) (f : MidPort → MidPort) (s : State) : (modPort p f s).out = s.out := rfl
@[simp] theorem modPort_pending (p : Nat) (f : MidPort → MidPort) (s : State) : (modPort p f s).pending = s.pending := rfl
@[simp] theorem modPort_reg_of (p : Nat) (f : MidPort → MidPort) (s : State) (j : Nat) : (modPort p f s).reg j = s.reg j := by simp only [State.reg, modPort_regs]
@[simp] theorem modPort_tile_of (p : Nat) (f : MidPort → MidPort) (s : State) (j : Nat) : (modPort p f s).tile j = s.tile j := by simp only [State.tile, modPort_tiles]
@[simp] theorem modPort_blob_of (p : Nat) (f : MidPort → MidPort) (s : State) (j : Nat) : (modPort p f s).blob j = s.blob j := by simp only [State.blob, modPort_blobs]
@[simp] theorem modPort_bytes_of (p : Nat) (f : MidPort → MidPort) (s : State) (x m : Nat) : (modPort p f s).bytes x m = s.bytes x m := by simp only [State.bytes, modPort_mem]
@[simp] theorem modPort_le_of (p : Nat) (f : MidPort → MidPort) (s : State) (x m : Nat) : (modPort p f s).le x m = s.le x m := by simp only [State.le, modPort_mem]
@[simp] theorem modPort_coord_of (p : Nat) (f : MidPort → MidPort) (s : State)  : (modPort p f s).coord  = s.coord  := by simp only [State.coord, State.reg, modPort_regs]

@[simp] theorem setTx_life (k : Nat) (f : FlowTx) (s : State) : (setTx k f s).life = s.life := rfl
@[simp] theorem setTx_now (k : Nat) (f : FlowTx) (s : State) : (setTx k f s).now = s.now := rfl
@[simp] theorem setTx_regs (k : Nat) (f : FlowTx) (s : State) : (setTx k f s).regs = s.regs := rfl
@[simp] theorem setTx_blobs (k : Nat) (f : FlowTx) (s : State) : (setTx k f s).blobs = s.blobs := rfl
@[simp] theorem setTx_mem (k : Nat) (f : FlowTx) (s : State) : (setTx k f s).mem = s.mem := rfl
@[simp] theorem setTx_bad (k : Nat) (f : FlowTx) (s : State) : (setTx k f s).bad = s.bad := rfl
@[simp] theorem setTx_tiles (k : Nat) (f : FlowTx) (s : State) : (setTx k f s).tiles = s.tiles := rfl
@[simp] theorem setTx_store (k : Nat) (f : FlowTx) (s : State) : (setTx k f s).store = s.store := rfl
@[simp] theorem setTx_startImg (k : Nat) (f : FlowTx) (s : State) : (setTx k f s).startImg = s.startImg := rfl
@[simp] theorem setTx_pages (k : Nat) (f : FlowTx) (s : State) : (setTx k f s).pages = s.pages := rfl
@[simp] theorem setTx_early (k : Nat) (f : FlowTx) (s : State) : (setTx k f s).early = s.early := rfl
@[simp] theorem setTx_job (k : Nat) (f : FlowTx) (s : State) : (setTx k f s).job = s.job := rfl
@[simp] theorem setTx_step (k : Nat) (f : FlowTx) (s : State) : (setTx k f s).step = s.step := rfl
@[simp] theorem setTx_ctxs (k : Nat) (f : FlowTx) (s : State) : (setTx k f s).ctxs = s.ctxs := rfl
@[simp] theorem setTx_pagers (k : Nat) (f : FlowTx) (s : State) : (setTx k f s).pagers = s.pagers := rfl
@[simp] theorem setTx_trunk (k : Nat) (f : FlowTx) (s : State) : (setTx k f s).trunk = s.trunk := rfl
@[simp] theorem setTx_evBatch (k : Nat) (f : FlowTx) (s : State) : (setTx k f s).evBatch = s.evBatch := rfl
@[simp] theorem setTx_evFrames (k : Nat) (f : FlowTx) (s : State) : (setTx k f s).evFrames = s.evFrames := rfl
@[simp] theorem setTx_flowsRx (k : Nat) (f : FlowTx) (s : State) : (setTx k f s).flowsRx = s.flowsRx := rfl
@[simp] theorem setTx_reads (k : Nat) (f : FlowTx) (s : State) : (setTx k f s).reads = s.reads := rfl
@[simp] theorem setTx_txWait (k : Nat) (f : FlowTx) (s : State) : (setTx k f s).txWait = s.txWait := rfl
@[simp] theorem setTx_resendNext (k : Nat) (f : FlowTx) (s : State) : (setTx k f s).resendNext = s.resendNext := rfl
@[simp] theorem setTx_desc (k : Nat) (f : FlowTx) (s : State) : (setTx k f s).desc = s.desc := rfl
@[simp] theorem setTx_adopted (k : Nat) (f : FlowTx) (s : State) : (setTx k f s).adopted = s.adopted := rfl
@[simp] theorem setTx_ports (k : Nat) (f : FlowTx) (s : State) : (setTx k f s).ports = s.ports := rfl
@[simp] theorem setTx_rounded (k : Nat) (f : FlowTx) (s : State) : (setTx k f s).rounded = s.rounded := rfl
@[simp] theorem setTx_edges (k : Nat) (f : FlowTx) (s : State) : (setTx k f s).edges = s.edges := rfl
@[simp] theorem setTx_samples (k : Nat) (f : FlowTx) (s : State) : (setTx k f s).samples = s.samples := rfl
@[simp] theorem setTx_layerReady (k : Nat) (f : FlowTx) (s : State) : (setTx k f s).layerReady = s.layerReady := rfl
@[simp] theorem setTx_dieTags (k : Nat) (f : FlowTx) (s : State) : (setTx k f s).dieTags = s.dieTags := rfl
@[simp] theorem setTx_rings (k : Nat) (f : FlowTx) (s : State) : (setTx k f s).rings = s.rings := rfl
@[simp] theorem setTx_retired (k : Nat) (f : FlowTx) (s : State) : (setTx k f s).retired = s.retired := rfl
@[simp] theorem setTx_spareBad (k : Nat) (f : FlowTx) (s : State) : (setTx k f s).spareBad = s.spareBad := rfl
@[simp] theorem setTx_bypassBad (k : Nat) (f : FlowTx) (s : State) : (setTx k f s).bypassBad = s.bypassBad := rfl
@[simp] theorem setTx_retireQ (k : Nat) (f : FlowTx) (s : State) : (setTx k f s).retireQ = s.retireQ := rfl
@[simp] theorem setTx_history (k : Nat) (f : FlowTx) (s : State) : (setTx k f s).history = s.history := rfl
@[simp] theorem setTx_stackCounts (k : Nat) (f : FlowTx) (s : State) : (setTx k f s).stackCounts = s.stackCounts := rfl
@[simp] theorem setTx_bankHours (k : Nat) (f : FlowTx) (s : State) : (setTx k f s).bankHours = s.bankHours := rfl
@[simp] theorem setTx_tileHours (k : Nat) (f : FlowTx) (s : State) : (setTx k f s).tileHours = s.tileHours := rfl
@[simp] theorem setTx_repairRows (k : Nat) (f : FlowTx) (s : State) : (setTx k f s).repairRows = s.repairRows := rfl
@[simp] theorem setTx_badSeen (k : Nat) (f : FlowTx) (s : State) : (setTx k f s).badSeen = s.badSeen := rfl
@[simp] theorem setTx_rewritten (k : Nat) (f : FlowTx) (s : State) : (setTx k f s).rewritten = s.rewritten := rfl
@[simp] theorem setTx_tables (k : Nat) (f : FlowTx) (s : State) : (setTx k f s).tables = s.tables := rfl
@[simp] theorem setTx_host (k : Nat) (f : FlowTx) (s : State) : (setTx k f s).host = s.host := rfl
@[simp] theorem setTx_windows (k : Nat) (f : FlowTx) (s : State) : (setTx k f s).windows = s.windows := rfl
@[simp] theorem setTx_reduce (k : Nat) (f : FlowTx) (s : State) : (setTx k f s).reduce = s.reduce := rfl
@[simp] theorem setTx_gal (k : Nat) (f : FlowTx) (s : State) : (setTx k f s).gal = s.gal := rfl
@[simp] theorem setTx_steer (k : Nat) (f : FlowTx) (s : State) : (setTx k f s).steer = s.steer := rfl
@[simp] theorem setTx_recov (k : Nat) (f : FlowTx) (s : State) : (setTx k f s).recov = s.recov := rfl
@[simp] theorem setTx_tarvy (k : Nat) (f : FlowTx) (s : State) : (setTx k f s).tarvy = s.tarvy := rfl
@[simp] theorem setTx_board (k : Nat) (f : FlowTx) (s : State) : (setTx k f s).board = s.board := rfl
@[simp] theorem setTx_free (k : Nat) (f : FlowTx) (s : State) : (setTx k f s).free = s.free := rfl
@[simp] theorem setTx_out (k : Nat) (f : FlowTx) (s : State) : (setTx k f s).out = s.out := rfl
@[simp] theorem setTx_pending (k : Nat) (f : FlowTx) (s : State) : (setTx k f s).pending = s.pending := rfl
@[simp] theorem setTx_reg_of (k : Nat) (f : FlowTx) (s : State) (j : Nat) : (setTx k f s).reg j = s.reg j := by simp only [State.reg, setTx_regs]
@[simp] theorem setTx_tile_of (k : Nat) (f : FlowTx) (s : State) (j : Nat) : (setTx k f s).tile j = s.tile j := by simp only [State.tile, setTx_tiles]
@[simp] theorem setTx_blob_of (k : Nat) (f : FlowTx) (s : State) (j : Nat) : (setTx k f s).blob j = s.blob j := by simp only [State.blob, setTx_blobs]
@[simp] theorem setTx_bytes_of (k : Nat) (f : FlowTx) (s : State) (x m : Nat) : (setTx k f s).bytes x m = s.bytes x m := by simp only [State.bytes, setTx_mem]
@[simp] theorem setTx_le_of (k : Nat) (f : FlowTx) (s : State) (x m : Nat) : (setTx k f s).le x m = s.le x m := by simp only [State.le, setTx_mem]
@[simp] theorem setTx_coord_of (k : Nat) (f : FlowTx) (s : State)  : (setTx k f s).coord  = s.coord  := by simp only [State.coord, State.reg, setTx_regs]

@[simp] theorem setRx_life (k : Nat) (f : FlowRx) (s : State) : (setRx k f s).life = s.life := rfl
@[simp] theorem setRx_now (k : Nat) (f : FlowRx) (s : State) : (setRx k f s).now = s.now := rfl
@[simp] theorem setRx_regs (k : Nat) (f : FlowRx) (s : State) : (setRx k f s).regs = s.regs := rfl
@[simp] theorem setRx_blobs (k : Nat) (f : FlowRx) (s : State) : (setRx k f s).blobs = s.blobs := rfl
@[simp] theorem setRx_mem (k : Nat) (f : FlowRx) (s : State) : (setRx k f s).mem = s.mem := rfl
@[simp] theorem setRx_bad (k : Nat) (f : FlowRx) (s : State) : (setRx k f s).bad = s.bad := rfl
@[simp] theorem setRx_tiles (k : Nat) (f : FlowRx) (s : State) : (setRx k f s).tiles = s.tiles := rfl
@[simp] theorem setRx_store (k : Nat) (f : FlowRx) (s : State) : (setRx k f s).store = s.store := rfl
@[simp] theorem setRx_startImg (k : Nat) (f : FlowRx) (s : State) : (setRx k f s).startImg = s.startImg := rfl
@[simp] theorem setRx_pages (k : Nat) (f : FlowRx) (s : State) : (setRx k f s).pages = s.pages := rfl
@[simp] theorem setRx_early (k : Nat) (f : FlowRx) (s : State) : (setRx k f s).early = s.early := rfl
@[simp] theorem setRx_job (k : Nat) (f : FlowRx) (s : State) : (setRx k f s).job = s.job := rfl
@[simp] theorem setRx_step (k : Nat) (f : FlowRx) (s : State) : (setRx k f s).step = s.step := rfl
@[simp] theorem setRx_ctxs (k : Nat) (f : FlowRx) (s : State) : (setRx k f s).ctxs = s.ctxs := rfl
@[simp] theorem setRx_pagers (k : Nat) (f : FlowRx) (s : State) : (setRx k f s).pagers = s.pagers := rfl
@[simp] theorem setRx_trunk (k : Nat) (f : FlowRx) (s : State) : (setRx k f s).trunk = s.trunk := rfl
@[simp] theorem setRx_evBatch (k : Nat) (f : FlowRx) (s : State) : (setRx k f s).evBatch = s.evBatch := rfl
@[simp] theorem setRx_evFrames (k : Nat) (f : FlowRx) (s : State) : (setRx k f s).evFrames = s.evFrames := rfl
@[simp] theorem setRx_flowsTx (k : Nat) (f : FlowRx) (s : State) : (setRx k f s).flowsTx = s.flowsTx := rfl
@[simp] theorem setRx_reads (k : Nat) (f : FlowRx) (s : State) : (setRx k f s).reads = s.reads := rfl
@[simp] theorem setRx_txWait (k : Nat) (f : FlowRx) (s : State) : (setRx k f s).txWait = s.txWait := rfl
@[simp] theorem setRx_resendNext (k : Nat) (f : FlowRx) (s : State) : (setRx k f s).resendNext = s.resendNext := rfl
@[simp] theorem setRx_desc (k : Nat) (f : FlowRx) (s : State) : (setRx k f s).desc = s.desc := rfl
@[simp] theorem setRx_adopted (k : Nat) (f : FlowRx) (s : State) : (setRx k f s).adopted = s.adopted := rfl
@[simp] theorem setRx_ports (k : Nat) (f : FlowRx) (s : State) : (setRx k f s).ports = s.ports := rfl
@[simp] theorem setRx_rounded (k : Nat) (f : FlowRx) (s : State) : (setRx k f s).rounded = s.rounded := rfl
@[simp] theorem setRx_edges (k : Nat) (f : FlowRx) (s : State) : (setRx k f s).edges = s.edges := rfl
@[simp] theorem setRx_samples (k : Nat) (f : FlowRx) (s : State) : (setRx k f s).samples = s.samples := rfl
@[simp] theorem setRx_layerReady (k : Nat) (f : FlowRx) (s : State) : (setRx k f s).layerReady = s.layerReady := rfl
@[simp] theorem setRx_dieTags (k : Nat) (f : FlowRx) (s : State) : (setRx k f s).dieTags = s.dieTags := rfl
@[simp] theorem setRx_rings (k : Nat) (f : FlowRx) (s : State) : (setRx k f s).rings = s.rings := rfl
@[simp] theorem setRx_retired (k : Nat) (f : FlowRx) (s : State) : (setRx k f s).retired = s.retired := rfl
@[simp] theorem setRx_spareBad (k : Nat) (f : FlowRx) (s : State) : (setRx k f s).spareBad = s.spareBad := rfl
@[simp] theorem setRx_bypassBad (k : Nat) (f : FlowRx) (s : State) : (setRx k f s).bypassBad = s.bypassBad := rfl
@[simp] theorem setRx_retireQ (k : Nat) (f : FlowRx) (s : State) : (setRx k f s).retireQ = s.retireQ := rfl
@[simp] theorem setRx_history (k : Nat) (f : FlowRx) (s : State) : (setRx k f s).history = s.history := rfl
@[simp] theorem setRx_stackCounts (k : Nat) (f : FlowRx) (s : State) : (setRx k f s).stackCounts = s.stackCounts := rfl
@[simp] theorem setRx_bankHours (k : Nat) (f : FlowRx) (s : State) : (setRx k f s).bankHours = s.bankHours := rfl
@[simp] theorem setRx_tileHours (k : Nat) (f : FlowRx) (s : State) : (setRx k f s).tileHours = s.tileHours := rfl
@[simp] theorem setRx_repairRows (k : Nat) (f : FlowRx) (s : State) : (setRx k f s).repairRows = s.repairRows := rfl
@[simp] theorem setRx_badSeen (k : Nat) (f : FlowRx) (s : State) : (setRx k f s).badSeen = s.badSeen := rfl
@[simp] theorem setRx_rewritten (k : Nat) (f : FlowRx) (s : State) : (setRx k f s).rewritten = s.rewritten := rfl
@[simp] theorem setRx_tables (k : Nat) (f : FlowRx) (s : State) : (setRx k f s).tables = s.tables := rfl
@[simp] theorem setRx_host (k : Nat) (f : FlowRx) (s : State) : (setRx k f s).host = s.host := rfl
@[simp] theorem setRx_windows (k : Nat) (f : FlowRx) (s : State) : (setRx k f s).windows = s.windows := rfl
@[simp] theorem setRx_reduce (k : Nat) (f : FlowRx) (s : State) : (setRx k f s).reduce = s.reduce := rfl
@[simp] theorem setRx_gal (k : Nat) (f : FlowRx) (s : State) : (setRx k f s).gal = s.gal := rfl
@[simp] theorem setRx_steer (k : Nat) (f : FlowRx) (s : State) : (setRx k f s).steer = s.steer := rfl
@[simp] theorem setRx_recov (k : Nat) (f : FlowRx) (s : State) : (setRx k f s).recov = s.recov := rfl
@[simp] theorem setRx_tarvy (k : Nat) (f : FlowRx) (s : State) : (setRx k f s).tarvy = s.tarvy := rfl
@[simp] theorem setRx_board (k : Nat) (f : FlowRx) (s : State) : (setRx k f s).board = s.board := rfl
@[simp] theorem setRx_free (k : Nat) (f : FlowRx) (s : State) : (setRx k f s).free = s.free := rfl
@[simp] theorem setRx_out (k : Nat) (f : FlowRx) (s : State) : (setRx k f s).out = s.out := rfl
@[simp] theorem setRx_pending (k : Nat) (f : FlowRx) (s : State) : (setRx k f s).pending = s.pending := rfl
@[simp] theorem setRx_reg_of (k : Nat) (f : FlowRx) (s : State) (j : Nat) : (setRx k f s).reg j = s.reg j := by simp only [State.reg, setRx_regs]
@[simp] theorem setRx_tile_of (k : Nat) (f : FlowRx) (s : State) (j : Nat) : (setRx k f s).tile j = s.tile j := by simp only [State.tile, setRx_tiles]
@[simp] theorem setRx_blob_of (k : Nat) (f : FlowRx) (s : State) (j : Nat) : (setRx k f s).blob j = s.blob j := by simp only [State.blob, setRx_blobs]
@[simp] theorem setRx_bytes_of (k : Nat) (f : FlowRx) (s : State) (x m : Nat) : (setRx k f s).bytes x m = s.bytes x m := by simp only [State.bytes, setRx_mem]
@[simp] theorem setRx_le_of (k : Nat) (f : FlowRx) (s : State) (x m : Nat) : (setRx k f s).le x m = s.le x m := by simp only [State.le, setRx_mem]
@[simp] theorem setRx_coord_of (k : Nat) (f : FlowRx) (s : State)  : (setRx k f s).coord  = s.coord  := by simp only [State.coord, State.reg, setRx_regs]

@[simp] theorem setRing_life (d : Nat) (r : Ring) (s : State) : (setRing d r s).life = s.life := rfl
@[simp] theorem setRing_now (d : Nat) (r : Ring) (s : State) : (setRing d r s).now = s.now := rfl
@[simp] theorem setRing_regs (d : Nat) (r : Ring) (s : State) : (setRing d r s).regs = s.regs := rfl
@[simp] theorem setRing_blobs (d : Nat) (r : Ring) (s : State) : (setRing d r s).blobs = s.blobs := rfl
@[simp] theorem setRing_mem (d : Nat) (r : Ring) (s : State) : (setRing d r s).mem = s.mem := rfl
@[simp] theorem setRing_bad (d : Nat) (r : Ring) (s : State) : (setRing d r s).bad = s.bad := rfl
@[simp] theorem setRing_tiles (d : Nat) (r : Ring) (s : State) : (setRing d r s).tiles = s.tiles := rfl
@[simp] theorem setRing_store (d : Nat) (r : Ring) (s : State) : (setRing d r s).store = s.store := rfl
@[simp] theorem setRing_startImg (d : Nat) (r : Ring) (s : State) : (setRing d r s).startImg = s.startImg := rfl
@[simp] theorem setRing_pages (d : Nat) (r : Ring) (s : State) : (setRing d r s).pages = s.pages := rfl
@[simp] theorem setRing_early (d : Nat) (r : Ring) (s : State) : (setRing d r s).early = s.early := rfl
@[simp] theorem setRing_job (d : Nat) (r : Ring) (s : State) : (setRing d r s).job = s.job := rfl
@[simp] theorem setRing_step (d : Nat) (r : Ring) (s : State) : (setRing d r s).step = s.step := rfl
@[simp] theorem setRing_ctxs (d : Nat) (r : Ring) (s : State) : (setRing d r s).ctxs = s.ctxs := rfl
@[simp] theorem setRing_pagers (d : Nat) (r : Ring) (s : State) : (setRing d r s).pagers = s.pagers := rfl
@[simp] theorem setRing_trunk (d : Nat) (r : Ring) (s : State) : (setRing d r s).trunk = s.trunk := rfl
@[simp] theorem setRing_evBatch (d : Nat) (r : Ring) (s : State) : (setRing d r s).evBatch = s.evBatch := rfl
@[simp] theorem setRing_evFrames (d : Nat) (r : Ring) (s : State) : (setRing d r s).evFrames = s.evFrames := rfl
@[simp] theorem setRing_flowsTx (d : Nat) (r : Ring) (s : State) : (setRing d r s).flowsTx = s.flowsTx := rfl
@[simp] theorem setRing_flowsRx (d : Nat) (r : Ring) (s : State) : (setRing d r s).flowsRx = s.flowsRx := rfl
@[simp] theorem setRing_reads (d : Nat) (r : Ring) (s : State) : (setRing d r s).reads = s.reads := rfl
@[simp] theorem setRing_txWait (d : Nat) (r : Ring) (s : State) : (setRing d r s).txWait = s.txWait := rfl
@[simp] theorem setRing_resendNext (d : Nat) (r : Ring) (s : State) : (setRing d r s).resendNext = s.resendNext := rfl
@[simp] theorem setRing_desc (d : Nat) (r : Ring) (s : State) : (setRing d r s).desc = s.desc := rfl
@[simp] theorem setRing_adopted (d : Nat) (r : Ring) (s : State) : (setRing d r s).adopted = s.adopted := rfl
@[simp] theorem setRing_ports (d : Nat) (r : Ring) (s : State) : (setRing d r s).ports = s.ports := rfl
@[simp] theorem setRing_rounded (d : Nat) (r : Ring) (s : State) : (setRing d r s).rounded = s.rounded := rfl
@[simp] theorem setRing_edges (d : Nat) (r : Ring) (s : State) : (setRing d r s).edges = s.edges := rfl
@[simp] theorem setRing_samples (d : Nat) (r : Ring) (s : State) : (setRing d r s).samples = s.samples := rfl
@[simp] theorem setRing_layerReady (d : Nat) (r : Ring) (s : State) : (setRing d r s).layerReady = s.layerReady := rfl
@[simp] theorem setRing_dieTags (d : Nat) (r : Ring) (s : State) : (setRing d r s).dieTags = s.dieTags := rfl
@[simp] theorem setRing_retired (d : Nat) (r : Ring) (s : State) : (setRing d r s).retired = s.retired := rfl
@[simp] theorem setRing_spareBad (d : Nat) (r : Ring) (s : State) : (setRing d r s).spareBad = s.spareBad := rfl
@[simp] theorem setRing_bypassBad (d : Nat) (r : Ring) (s : State) : (setRing d r s).bypassBad = s.bypassBad := rfl
@[simp] theorem setRing_retireQ (d : Nat) (r : Ring) (s : State) : (setRing d r s).retireQ = s.retireQ := rfl
@[simp] theorem setRing_history (d : Nat) (r : Ring) (s : State) : (setRing d r s).history = s.history := rfl
@[simp] theorem setRing_stackCounts (d : Nat) (r : Ring) (s : State) : (setRing d r s).stackCounts = s.stackCounts := rfl
@[simp] theorem setRing_bankHours (d : Nat) (r : Ring) (s : State) : (setRing d r s).bankHours = s.bankHours := rfl
@[simp] theorem setRing_tileHours (d : Nat) (r : Ring) (s : State) : (setRing d r s).tileHours = s.tileHours := rfl
@[simp] theorem setRing_repairRows (d : Nat) (r : Ring) (s : State) : (setRing d r s).repairRows = s.repairRows := rfl
@[simp] theorem setRing_badSeen (d : Nat) (r : Ring) (s : State) : (setRing d r s).badSeen = s.badSeen := rfl
@[simp] theorem setRing_rewritten (d : Nat) (r : Ring) (s : State) : (setRing d r s).rewritten = s.rewritten := rfl
@[simp] theorem setRing_tables (d : Nat) (r : Ring) (s : State) : (setRing d r s).tables = s.tables := rfl
@[simp] theorem setRing_host (d : Nat) (r : Ring) (s : State) : (setRing d r s).host = s.host := rfl
@[simp] theorem setRing_windows (d : Nat) (r : Ring) (s : State) : (setRing d r s).windows = s.windows := rfl
@[simp] theorem setRing_reduce (d : Nat) (r : Ring) (s : State) : (setRing d r s).reduce = s.reduce := rfl
@[simp] theorem setRing_gal (d : Nat) (r : Ring) (s : State) : (setRing d r s).gal = s.gal := rfl
@[simp] theorem setRing_steer (d : Nat) (r : Ring) (s : State) : (setRing d r s).steer = s.steer := rfl
@[simp] theorem setRing_recov (d : Nat) (r : Ring) (s : State) : (setRing d r s).recov = s.recov := rfl
@[simp] theorem setRing_tarvy (d : Nat) (r : Ring) (s : State) : (setRing d r s).tarvy = s.tarvy := rfl
@[simp] theorem setRing_board (d : Nat) (r : Ring) (s : State) : (setRing d r s).board = s.board := rfl
@[simp] theorem setRing_free (d : Nat) (r : Ring) (s : State) : (setRing d r s).free = s.free := rfl
@[simp] theorem setRing_out (d : Nat) (r : Ring) (s : State) : (setRing d r s).out = s.out := rfl
@[simp] theorem setRing_pending (d : Nat) (r : Ring) (s : State) : (setRing d r s).pending = s.pending := rfl
@[simp] theorem setRing_reg_of (d : Nat) (r : Ring) (s : State) (j : Nat) : (setRing d r s).reg j = s.reg j := by simp only [State.reg, setRing_regs]
@[simp] theorem setRing_tile_of (d : Nat) (r : Ring) (s : State) (j : Nat) : (setRing d r s).tile j = s.tile j := by simp only [State.tile, setRing_tiles]
@[simp] theorem setRing_blob_of (d : Nat) (r : Ring) (s : State) (j : Nat) : (setRing d r s).blob j = s.blob j := by simp only [State.blob, setRing_blobs]
@[simp] theorem setRing_bytes_of (d : Nat) (r : Ring) (s : State) (x m : Nat) : (setRing d r s).bytes x m = s.bytes x m := by simp only [State.bytes, setRing_mem]
@[simp] theorem setRing_le_of (d : Nat) (r : Ring) (s : State) (x m : Nat) : (setRing d r s).le x m = s.le x m := by simp only [State.le, setRing_mem]
@[simp] theorem setRing_coord_of (d : Nat) (r : Ring) (s : State)  : (setRing d r s).coord  = s.coord  := by simp only [State.coord, State.reg, setRing_regs]

@[simp] theorem modTarvy_life (f : Tarvy → Tarvy) (s : State) : (modTarvy f s).life = s.life := rfl
@[simp] theorem modTarvy_now (f : Tarvy → Tarvy) (s : State) : (modTarvy f s).now = s.now := rfl
@[simp] theorem modTarvy_regs (f : Tarvy → Tarvy) (s : State) : (modTarvy f s).regs = s.regs := rfl
@[simp] theorem modTarvy_blobs (f : Tarvy → Tarvy) (s : State) : (modTarvy f s).blobs = s.blobs := rfl
@[simp] theorem modTarvy_mem (f : Tarvy → Tarvy) (s : State) : (modTarvy f s).mem = s.mem := rfl
@[simp] theorem modTarvy_bad (f : Tarvy → Tarvy) (s : State) : (modTarvy f s).bad = s.bad := rfl
@[simp] theorem modTarvy_tiles (f : Tarvy → Tarvy) (s : State) : (modTarvy f s).tiles = s.tiles := rfl
@[simp] theorem modTarvy_store (f : Tarvy → Tarvy) (s : State) : (modTarvy f s).store = s.store := rfl
@[simp] theorem modTarvy_startImg (f : Tarvy → Tarvy) (s : State) : (modTarvy f s).startImg = s.startImg := rfl
@[simp] theorem modTarvy_pages (f : Tarvy → Tarvy) (s : State) : (modTarvy f s).pages = s.pages := rfl
@[simp] theorem modTarvy_early (f : Tarvy → Tarvy) (s : State) : (modTarvy f s).early = s.early := rfl
@[simp] theorem modTarvy_job (f : Tarvy → Tarvy) (s : State) : (modTarvy f s).job = s.job := rfl
@[simp] theorem modTarvy_step (f : Tarvy → Tarvy) (s : State) : (modTarvy f s).step = s.step := rfl
@[simp] theorem modTarvy_ctxs (f : Tarvy → Tarvy) (s : State) : (modTarvy f s).ctxs = s.ctxs := rfl
@[simp] theorem modTarvy_pagers (f : Tarvy → Tarvy) (s : State) : (modTarvy f s).pagers = s.pagers := rfl
@[simp] theorem modTarvy_trunk (f : Tarvy → Tarvy) (s : State) : (modTarvy f s).trunk = s.trunk := rfl
@[simp] theorem modTarvy_evBatch (f : Tarvy → Tarvy) (s : State) : (modTarvy f s).evBatch = s.evBatch := rfl
@[simp] theorem modTarvy_evFrames (f : Tarvy → Tarvy) (s : State) : (modTarvy f s).evFrames = s.evFrames := rfl
@[simp] theorem modTarvy_flowsTx (f : Tarvy → Tarvy) (s : State) : (modTarvy f s).flowsTx = s.flowsTx := rfl
@[simp] theorem modTarvy_flowsRx (f : Tarvy → Tarvy) (s : State) : (modTarvy f s).flowsRx = s.flowsRx := rfl
@[simp] theorem modTarvy_reads (f : Tarvy → Tarvy) (s : State) : (modTarvy f s).reads = s.reads := rfl
@[simp] theorem modTarvy_txWait (f : Tarvy → Tarvy) (s : State) : (modTarvy f s).txWait = s.txWait := rfl
@[simp] theorem modTarvy_resendNext (f : Tarvy → Tarvy) (s : State) : (modTarvy f s).resendNext = s.resendNext := rfl
@[simp] theorem modTarvy_desc (f : Tarvy → Tarvy) (s : State) : (modTarvy f s).desc = s.desc := rfl
@[simp] theorem modTarvy_adopted (f : Tarvy → Tarvy) (s : State) : (modTarvy f s).adopted = s.adopted := rfl
@[simp] theorem modTarvy_ports (f : Tarvy → Tarvy) (s : State) : (modTarvy f s).ports = s.ports := rfl
@[simp] theorem modTarvy_rounded (f : Tarvy → Tarvy) (s : State) : (modTarvy f s).rounded = s.rounded := rfl
@[simp] theorem modTarvy_edges (f : Tarvy → Tarvy) (s : State) : (modTarvy f s).edges = s.edges := rfl
@[simp] theorem modTarvy_samples (f : Tarvy → Tarvy) (s : State) : (modTarvy f s).samples = s.samples := rfl
@[simp] theorem modTarvy_layerReady (f : Tarvy → Tarvy) (s : State) : (modTarvy f s).layerReady = s.layerReady := rfl
@[simp] theorem modTarvy_dieTags (f : Tarvy → Tarvy) (s : State) : (modTarvy f s).dieTags = s.dieTags := rfl
@[simp] theorem modTarvy_rings (f : Tarvy → Tarvy) (s : State) : (modTarvy f s).rings = s.rings := rfl
@[simp] theorem modTarvy_retired (f : Tarvy → Tarvy) (s : State) : (modTarvy f s).retired = s.retired := rfl
@[simp] theorem modTarvy_spareBad (f : Tarvy → Tarvy) (s : State) : (modTarvy f s).spareBad = s.spareBad := rfl
@[simp] theorem modTarvy_bypassBad (f : Tarvy → Tarvy) (s : State) : (modTarvy f s).bypassBad = s.bypassBad := rfl
@[simp] theorem modTarvy_retireQ (f : Tarvy → Tarvy) (s : State) : (modTarvy f s).retireQ = s.retireQ := rfl
@[simp] theorem modTarvy_history (f : Tarvy → Tarvy) (s : State) : (modTarvy f s).history = s.history := rfl
@[simp] theorem modTarvy_stackCounts (f : Tarvy → Tarvy) (s : State) : (modTarvy f s).stackCounts = s.stackCounts := rfl
@[simp] theorem modTarvy_bankHours (f : Tarvy → Tarvy) (s : State) : (modTarvy f s).bankHours = s.bankHours := rfl
@[simp] theorem modTarvy_tileHours (f : Tarvy → Tarvy) (s : State) : (modTarvy f s).tileHours = s.tileHours := rfl
@[simp] theorem modTarvy_repairRows (f : Tarvy → Tarvy) (s : State) : (modTarvy f s).repairRows = s.repairRows := rfl
@[simp] theorem modTarvy_badSeen (f : Tarvy → Tarvy) (s : State) : (modTarvy f s).badSeen = s.badSeen := rfl
@[simp] theorem modTarvy_rewritten (f : Tarvy → Tarvy) (s : State) : (modTarvy f s).rewritten = s.rewritten := rfl
@[simp] theorem modTarvy_tables (f : Tarvy → Tarvy) (s : State) : (modTarvy f s).tables = s.tables := rfl
@[simp] theorem modTarvy_host (f : Tarvy → Tarvy) (s : State) : (modTarvy f s).host = s.host := rfl
@[simp] theorem modTarvy_windows (f : Tarvy → Tarvy) (s : State) : (modTarvy f s).windows = s.windows := rfl
@[simp] theorem modTarvy_reduce (f : Tarvy → Tarvy) (s : State) : (modTarvy f s).reduce = s.reduce := rfl
@[simp] theorem modTarvy_gal (f : Tarvy → Tarvy) (s : State) : (modTarvy f s).gal = s.gal := rfl
@[simp] theorem modTarvy_steer (f : Tarvy → Tarvy) (s : State) : (modTarvy f s).steer = s.steer := rfl
@[simp] theorem modTarvy_recov (f : Tarvy → Tarvy) (s : State) : (modTarvy f s).recov = s.recov := rfl
@[simp] theorem modTarvy_board (f : Tarvy → Tarvy) (s : State) : (modTarvy f s).board = s.board := rfl
@[simp] theorem modTarvy_free (f : Tarvy → Tarvy) (s : State) : (modTarvy f s).free = s.free := rfl
@[simp] theorem modTarvy_out (f : Tarvy → Tarvy) (s : State) : (modTarvy f s).out = s.out := rfl
@[simp] theorem modTarvy_pending (f : Tarvy → Tarvy) (s : State) : (modTarvy f s).pending = s.pending := rfl
@[simp] theorem modTarvy_reg_of (f : Tarvy → Tarvy) (s : State) (j : Nat) : (modTarvy f s).reg j = s.reg j := by simp only [State.reg, modTarvy_regs]
@[simp] theorem modTarvy_tile_of (f : Tarvy → Tarvy) (s : State) (j : Nat) : (modTarvy f s).tile j = s.tile j := by simp only [State.tile, modTarvy_tiles]
@[simp] theorem modTarvy_blob_of (f : Tarvy → Tarvy) (s : State) (j : Nat) : (modTarvy f s).blob j = s.blob j := by simp only [State.blob, modTarvy_blobs]
@[simp] theorem modTarvy_bytes_of (f : Tarvy → Tarvy) (s : State) (x m : Nat) : (modTarvy f s).bytes x m = s.bytes x m := by simp only [State.bytes, modTarvy_mem]
@[simp] theorem modTarvy_le_of (f : Tarvy → Tarvy) (s : State) (x m : Nat) : (modTarvy f s).le x m = s.le x m := by simp only [State.le, modTarvy_mem]
@[simp] theorem modTarvy_coord_of (f : Tarvy → Tarvy) (s : State)  : (modTarvy f s).coord  = s.coord  := by simp only [State.coord, State.reg, modTarvy_regs]

@[simp] theorem modEdge_life (e : Nat) (f : Edge → Edge) (s : State) : (modEdge e f s).life = s.life := rfl
@[simp] theorem modEdge_now (e : Nat) (f : Edge → Edge) (s : State) : (modEdge e f s).now = s.now := rfl
@[simp] theorem modEdge_regs (e : Nat) (f : Edge → Edge) (s : State) : (modEdge e f s).regs = s.regs := rfl
@[simp] theorem modEdge_blobs (e : Nat) (f : Edge → Edge) (s : State) : (modEdge e f s).blobs = s.blobs := rfl
@[simp] theorem modEdge_mem (e : Nat) (f : Edge → Edge) (s : State) : (modEdge e f s).mem = s.mem := rfl
@[simp] theorem modEdge_bad (e : Nat) (f : Edge → Edge) (s : State) : (modEdge e f s).bad = s.bad := rfl
@[simp] theorem modEdge_tiles (e : Nat) (f : Edge → Edge) (s : State) : (modEdge e f s).tiles = s.tiles := rfl
@[simp] theorem modEdge_store (e : Nat) (f : Edge → Edge) (s : State) : (modEdge e f s).store = s.store := rfl
@[simp] theorem modEdge_startImg (e : Nat) (f : Edge → Edge) (s : State) : (modEdge e f s).startImg = s.startImg := rfl
@[simp] theorem modEdge_pages (e : Nat) (f : Edge → Edge) (s : State) : (modEdge e f s).pages = s.pages := rfl
@[simp] theorem modEdge_early (e : Nat) (f : Edge → Edge) (s : State) : (modEdge e f s).early = s.early := rfl
@[simp] theorem modEdge_job (e : Nat) (f : Edge → Edge) (s : State) : (modEdge e f s).job = s.job := rfl
@[simp] theorem modEdge_step (e : Nat) (f : Edge → Edge) (s : State) : (modEdge e f s).step = s.step := rfl
@[simp] theorem modEdge_ctxs (e : Nat) (f : Edge → Edge) (s : State) : (modEdge e f s).ctxs = s.ctxs := rfl
@[simp] theorem modEdge_pagers (e : Nat) (f : Edge → Edge) (s : State) : (modEdge e f s).pagers = s.pagers := rfl
@[simp] theorem modEdge_trunk (e : Nat) (f : Edge → Edge) (s : State) : (modEdge e f s).trunk = s.trunk := rfl
@[simp] theorem modEdge_evBatch (e : Nat) (f : Edge → Edge) (s : State) : (modEdge e f s).evBatch = s.evBatch := rfl
@[simp] theorem modEdge_evFrames (e : Nat) (f : Edge → Edge) (s : State) : (modEdge e f s).evFrames = s.evFrames := rfl
@[simp] theorem modEdge_flowsTx (e : Nat) (f : Edge → Edge) (s : State) : (modEdge e f s).flowsTx = s.flowsTx := rfl
@[simp] theorem modEdge_flowsRx (e : Nat) (f : Edge → Edge) (s : State) : (modEdge e f s).flowsRx = s.flowsRx := rfl
@[simp] theorem modEdge_reads (e : Nat) (f : Edge → Edge) (s : State) : (modEdge e f s).reads = s.reads := rfl
@[simp] theorem modEdge_txWait (e : Nat) (f : Edge → Edge) (s : State) : (modEdge e f s).txWait = s.txWait := rfl
@[simp] theorem modEdge_resendNext (e : Nat) (f : Edge → Edge) (s : State) : (modEdge e f s).resendNext = s.resendNext := rfl
@[simp] theorem modEdge_desc (e : Nat) (f : Edge → Edge) (s : State) : (modEdge e f s).desc = s.desc := rfl
@[simp] theorem modEdge_adopted (e : Nat) (f : Edge → Edge) (s : State) : (modEdge e f s).adopted = s.adopted := rfl
@[simp] theorem modEdge_ports (e : Nat) (f : Edge → Edge) (s : State) : (modEdge e f s).ports = s.ports := rfl
@[simp] theorem modEdge_rounded (e : Nat) (f : Edge → Edge) (s : State) : (modEdge e f s).rounded = s.rounded := rfl
@[simp] theorem modEdge_samples (e : Nat) (f : Edge → Edge) (s : State) : (modEdge e f s).samples = s.samples := rfl
@[simp] theorem modEdge_layerReady (e : Nat) (f : Edge → Edge) (s : State) : (modEdge e f s).layerReady = s.layerReady := rfl
@[simp] theorem modEdge_dieTags (e : Nat) (f : Edge → Edge) (s : State) : (modEdge e f s).dieTags = s.dieTags := rfl
@[simp] theorem modEdge_rings (e : Nat) (f : Edge → Edge) (s : State) : (modEdge e f s).rings = s.rings := rfl
@[simp] theorem modEdge_retired (e : Nat) (f : Edge → Edge) (s : State) : (modEdge e f s).retired = s.retired := rfl
@[simp] theorem modEdge_spareBad (e : Nat) (f : Edge → Edge) (s : State) : (modEdge e f s).spareBad = s.spareBad := rfl
@[simp] theorem modEdge_bypassBad (e : Nat) (f : Edge → Edge) (s : State) : (modEdge e f s).bypassBad = s.bypassBad := rfl
@[simp] theorem modEdge_retireQ (e : Nat) (f : Edge → Edge) (s : State) : (modEdge e f s).retireQ = s.retireQ := rfl
@[simp] theorem modEdge_history (e : Nat) (f : Edge → Edge) (s : State) : (modEdge e f s).history = s.history := rfl
@[simp] theorem modEdge_stackCounts (e : Nat) (f : Edge → Edge) (s : State) : (modEdge e f s).stackCounts = s.stackCounts := rfl
@[simp] theorem modEdge_bankHours (e : Nat) (f : Edge → Edge) (s : State) : (modEdge e f s).bankHours = s.bankHours := rfl
@[simp] theorem modEdge_tileHours (e : Nat) (f : Edge → Edge) (s : State) : (modEdge e f s).tileHours = s.tileHours := rfl
@[simp] theorem modEdge_repairRows (e : Nat) (f : Edge → Edge) (s : State) : (modEdge e f s).repairRows = s.repairRows := rfl
@[simp] theorem modEdge_badSeen (e : Nat) (f : Edge → Edge) (s : State) : (modEdge e f s).badSeen = s.badSeen := rfl
@[simp] theorem modEdge_rewritten (e : Nat) (f : Edge → Edge) (s : State) : (modEdge e f s).rewritten = s.rewritten := rfl
@[simp] theorem modEdge_tables (e : Nat) (f : Edge → Edge) (s : State) : (modEdge e f s).tables = s.tables := rfl
@[simp] theorem modEdge_host (e : Nat) (f : Edge → Edge) (s : State) : (modEdge e f s).host = s.host := rfl
@[simp] theorem modEdge_windows (e : Nat) (f : Edge → Edge) (s : State) : (modEdge e f s).windows = s.windows := rfl
@[simp] theorem modEdge_reduce (e : Nat) (f : Edge → Edge) (s : State) : (modEdge e f s).reduce = s.reduce := rfl
@[simp] theorem modEdge_gal (e : Nat) (f : Edge → Edge) (s : State) : (modEdge e f s).gal = s.gal := rfl
@[simp] theorem modEdge_steer (e : Nat) (f : Edge → Edge) (s : State) : (modEdge e f s).steer = s.steer := rfl
@[simp] theorem modEdge_recov (e : Nat) (f : Edge → Edge) (s : State) : (modEdge e f s).recov = s.recov := rfl
@[simp] theorem modEdge_tarvy (e : Nat) (f : Edge → Edge) (s : State) : (modEdge e f s).tarvy = s.tarvy := rfl
@[simp] theorem modEdge_board (e : Nat) (f : Edge → Edge) (s : State) : (modEdge e f s).board = s.board := rfl
@[simp] theorem modEdge_free (e : Nat) (f : Edge → Edge) (s : State) : (modEdge e f s).free = s.free := rfl
@[simp] theorem modEdge_out (e : Nat) (f : Edge → Edge) (s : State) : (modEdge e f s).out = s.out := rfl
@[simp] theorem modEdge_pending (e : Nat) (f : Edge → Edge) (s : State) : (modEdge e f s).pending = s.pending := rfl
@[simp] theorem modEdge_reg_of (e : Nat) (f : Edge → Edge) (s : State) (j : Nat) : (modEdge e f s).reg j = s.reg j := by simp only [State.reg, modEdge_regs]
@[simp] theorem modEdge_tile_of (e : Nat) (f : Edge → Edge) (s : State) (j : Nat) : (modEdge e f s).tile j = s.tile j := by simp only [State.tile, modEdge_tiles]
@[simp] theorem modEdge_blob_of (e : Nat) (f : Edge → Edge) (s : State) (j : Nat) : (modEdge e f s).blob j = s.blob j := by simp only [State.blob, modEdge_blobs]
@[simp] theorem modEdge_bytes_of (e : Nat) (f : Edge → Edge) (s : State) (x m : Nat) : (modEdge e f s).bytes x m = s.bytes x m := by simp only [State.bytes, modEdge_mem]
@[simp] theorem modEdge_le_of (e : Nat) (f : Edge → Edge) (s : State) (x m : Nat) : (modEdge e f s).le x m = s.le x m := by simp only [State.le, modEdge_mem]
@[simp] theorem modEdge_coord_of (e : Nat) (f : Edge → Edge) (s : State)  : (modEdge e f s).coord  = s.coord  := by simp only [State.coord, State.reg, modEdge_regs]

@[simp] theorem modEth_life (p : Nat) (f : EthPort → EthPort) (s : State) : (modEth p f s).life = s.life := rfl
@[simp] theorem modEth_now (p : Nat) (f : EthPort → EthPort) (s : State) : (modEth p f s).now = s.now := rfl
@[simp] theorem modEth_regs (p : Nat) (f : EthPort → EthPort) (s : State) : (modEth p f s).regs = s.regs := rfl
@[simp] theorem modEth_blobs (p : Nat) (f : EthPort → EthPort) (s : State) : (modEth p f s).blobs = s.blobs := rfl
@[simp] theorem modEth_mem (p : Nat) (f : EthPort → EthPort) (s : State) : (modEth p f s).mem = s.mem := rfl
@[simp] theorem modEth_bad (p : Nat) (f : EthPort → EthPort) (s : State) : (modEth p f s).bad = s.bad := rfl
@[simp] theorem modEth_tiles (p : Nat) (f : EthPort → EthPort) (s : State) : (modEth p f s).tiles = s.tiles := rfl
@[simp] theorem modEth_store (p : Nat) (f : EthPort → EthPort) (s : State) : (modEth p f s).store = s.store := rfl
@[simp] theorem modEth_startImg (p : Nat) (f : EthPort → EthPort) (s : State) : (modEth p f s).startImg = s.startImg := rfl
@[simp] theorem modEth_pages (p : Nat) (f : EthPort → EthPort) (s : State) : (modEth p f s).pages = s.pages := rfl
@[simp] theorem modEth_early (p : Nat) (f : EthPort → EthPort) (s : State) : (modEth p f s).early = s.early := rfl
@[simp] theorem modEth_job (p : Nat) (f : EthPort → EthPort) (s : State) : (modEth p f s).job = s.job := rfl
@[simp] theorem modEth_step (p : Nat) (f : EthPort → EthPort) (s : State) : (modEth p f s).step = s.step := rfl
@[simp] theorem modEth_ctxs (p : Nat) (f : EthPort → EthPort) (s : State) : (modEth p f s).ctxs = s.ctxs := rfl
@[simp] theorem modEth_pagers (p : Nat) (f : EthPort → EthPort) (s : State) : (modEth p f s).pagers = s.pagers := rfl
@[simp] theorem modEth_trunk (p : Nat) (f : EthPort → EthPort) (s : State) : (modEth p f s).trunk = s.trunk := rfl
@[simp] theorem modEth_evBatch (p : Nat) (f : EthPort → EthPort) (s : State) : (modEth p f s).evBatch = s.evBatch := rfl
@[simp] theorem modEth_evFrames (p : Nat) (f : EthPort → EthPort) (s : State) : (modEth p f s).evFrames = s.evFrames := rfl
@[simp] theorem modEth_flowsTx (p : Nat) (f : EthPort → EthPort) (s : State) : (modEth p f s).flowsTx = s.flowsTx := rfl
@[simp] theorem modEth_flowsRx (p : Nat) (f : EthPort → EthPort) (s : State) : (modEth p f s).flowsRx = s.flowsRx := rfl
@[simp] theorem modEth_reads (p : Nat) (f : EthPort → EthPort) (s : State) : (modEth p f s).reads = s.reads := rfl
@[simp] theorem modEth_txWait (p : Nat) (f : EthPort → EthPort) (s : State) : (modEth p f s).txWait = s.txWait := rfl
@[simp] theorem modEth_resendNext (p : Nat) (f : EthPort → EthPort) (s : State) : (modEth p f s).resendNext = s.resendNext := rfl
@[simp] theorem modEth_desc (p : Nat) (f : EthPort → EthPort) (s : State) : (modEth p f s).desc = s.desc := rfl
@[simp] theorem modEth_adopted (p : Nat) (f : EthPort → EthPort) (s : State) : (modEth p f s).adopted = s.adopted := rfl
@[simp] theorem modEth_ports (p : Nat) (f : EthPort → EthPort) (s : State) : (modEth p f s).ports = s.ports := rfl
@[simp] theorem modEth_rounded (p : Nat) (f : EthPort → EthPort) (s : State) : (modEth p f s).rounded = s.rounded := rfl
@[simp] theorem modEth_edges (p : Nat) (f : EthPort → EthPort) (s : State) : (modEth p f s).edges = s.edges := rfl
@[simp] theorem modEth_samples (p : Nat) (f : EthPort → EthPort) (s : State) : (modEth p f s).samples = s.samples := rfl
@[simp] theorem modEth_layerReady (p : Nat) (f : EthPort → EthPort) (s : State) : (modEth p f s).layerReady = s.layerReady := rfl
@[simp] theorem modEth_dieTags (p : Nat) (f : EthPort → EthPort) (s : State) : (modEth p f s).dieTags = s.dieTags := rfl
@[simp] theorem modEth_rings (p : Nat) (f : EthPort → EthPort) (s : State) : (modEth p f s).rings = s.rings := rfl
@[simp] theorem modEth_retired (p : Nat) (f : EthPort → EthPort) (s : State) : (modEth p f s).retired = s.retired := rfl
@[simp] theorem modEth_spareBad (p : Nat) (f : EthPort → EthPort) (s : State) : (modEth p f s).spareBad = s.spareBad := rfl
@[simp] theorem modEth_bypassBad (p : Nat) (f : EthPort → EthPort) (s : State) : (modEth p f s).bypassBad = s.bypassBad := rfl
@[simp] theorem modEth_retireQ (p : Nat) (f : EthPort → EthPort) (s : State) : (modEth p f s).retireQ = s.retireQ := rfl
@[simp] theorem modEth_history (p : Nat) (f : EthPort → EthPort) (s : State) : (modEth p f s).history = s.history := rfl
@[simp] theorem modEth_stackCounts (p : Nat) (f : EthPort → EthPort) (s : State) : (modEth p f s).stackCounts = s.stackCounts := rfl
@[simp] theorem modEth_bankHours (p : Nat) (f : EthPort → EthPort) (s : State) : (modEth p f s).bankHours = s.bankHours := rfl
@[simp] theorem modEth_tileHours (p : Nat) (f : EthPort → EthPort) (s : State) : (modEth p f s).tileHours = s.tileHours := rfl
@[simp] theorem modEth_repairRows (p : Nat) (f : EthPort → EthPort) (s : State) : (modEth p f s).repairRows = s.repairRows := rfl
@[simp] theorem modEth_badSeen (p : Nat) (f : EthPort → EthPort) (s : State) : (modEth p f s).badSeen = s.badSeen := rfl
@[simp] theorem modEth_rewritten (p : Nat) (f : EthPort → EthPort) (s : State) : (modEth p f s).rewritten = s.rewritten := rfl
@[simp] theorem modEth_tables (p : Nat) (f : EthPort → EthPort) (s : State) : (modEth p f s).tables = s.tables := rfl
@[simp] theorem modEth_windows (p : Nat) (f : EthPort → EthPort) (s : State) : (modEth p f s).windows = s.windows := rfl
@[simp] theorem modEth_reduce (p : Nat) (f : EthPort → EthPort) (s : State) : (modEth p f s).reduce = s.reduce := rfl
@[simp] theorem modEth_gal (p : Nat) (f : EthPort → EthPort) (s : State) : (modEth p f s).gal = s.gal := rfl
@[simp] theorem modEth_steer (p : Nat) (f : EthPort → EthPort) (s : State) : (modEth p f s).steer = s.steer := rfl
@[simp] theorem modEth_recov (p : Nat) (f : EthPort → EthPort) (s : State) : (modEth p f s).recov = s.recov := rfl
@[simp] theorem modEth_tarvy (p : Nat) (f : EthPort → EthPort) (s : State) : (modEth p f s).tarvy = s.tarvy := rfl
@[simp] theorem modEth_board (p : Nat) (f : EthPort → EthPort) (s : State) : (modEth p f s).board = s.board := rfl
@[simp] theorem modEth_free (p : Nat) (f : EthPort → EthPort) (s : State) : (modEth p f s).free = s.free := rfl
@[simp] theorem modEth_out (p : Nat) (f : EthPort → EthPort) (s : State) : (modEth p f s).out = s.out := rfl
@[simp] theorem modEth_pending (p : Nat) (f : EthPort → EthPort) (s : State) : (modEth p f s).pending = s.pending := rfl
@[simp] theorem modEth_reg_of (p : Nat) (f : EthPort → EthPort) (s : State) (j : Nat) : (modEth p f s).reg j = s.reg j := by simp only [State.reg, modEth_regs]
@[simp] theorem modEth_tile_of (p : Nat) (f : EthPort → EthPort) (s : State) (j : Nat) : (modEth p f s).tile j = s.tile j := by simp only [State.tile, modEth_tiles]
@[simp] theorem modEth_blob_of (p : Nat) (f : EthPort → EthPort) (s : State) (j : Nat) : (modEth p f s).blob j = s.blob j := by simp only [State.blob, modEth_blobs]
@[simp] theorem modEth_bytes_of (p : Nat) (f : EthPort → EthPort) (s : State) (x m : Nat) : (modEth p f s).bytes x m = s.bytes x m := by simp only [State.bytes, modEth_mem]
@[simp] theorem modEth_le_of (p : Nat) (f : EthPort → EthPort) (s : State) (x m : Nat) : (modEth p f s).le x m = s.le x m := by simp only [State.le, modEth_mem]
@[simp] theorem modEth_coord_of (p : Nat) (f : EthPort → EthPort) (s : State)  : (modEth p f s).coord  = s.coord  := by simp only [State.coord, State.reg, modEth_regs]

@[simp] theorem setShard_life (k : Nat) (sh : Shard) (s : State) : (setShard k sh s).life = s.life := rfl
@[simp] theorem setShard_now (k : Nat) (sh : Shard) (s : State) : (setShard k sh s).now = s.now := rfl
@[simp] theorem setShard_regs (k : Nat) (sh : Shard) (s : State) : (setShard k sh s).regs = s.regs := rfl
@[simp] theorem setShard_blobs (k : Nat) (sh : Shard) (s : State) : (setShard k sh s).blobs = s.blobs := rfl
@[simp] theorem setShard_mem (k : Nat) (sh : Shard) (s : State) : (setShard k sh s).mem = s.mem := rfl
@[simp] theorem setShard_bad (k : Nat) (sh : Shard) (s : State) : (setShard k sh s).bad = s.bad := rfl
@[simp] theorem setShard_tiles (k : Nat) (sh : Shard) (s : State) : (setShard k sh s).tiles = s.tiles := rfl
@[simp] theorem setShard_store (k : Nat) (sh : Shard) (s : State) : (setShard k sh s).store = s.store := rfl
@[simp] theorem setShard_startImg (k : Nat) (sh : Shard) (s : State) : (setShard k sh s).startImg = s.startImg := rfl
@[simp] theorem setShard_pages (k : Nat) (sh : Shard) (s : State) : (setShard k sh s).pages = s.pages := rfl
@[simp] theorem setShard_early (k : Nat) (sh : Shard) (s : State) : (setShard k sh s).early = s.early := rfl
@[simp] theorem setShard_job (k : Nat) (sh : Shard) (s : State) : (setShard k sh s).job = s.job := rfl
@[simp] theorem setShard_step (k : Nat) (sh : Shard) (s : State) : (setShard k sh s).step = s.step := rfl
@[simp] theorem setShard_ctxs (k : Nat) (sh : Shard) (s : State) : (setShard k sh s).ctxs = s.ctxs := rfl
@[simp] theorem setShard_pagers (k : Nat) (sh : Shard) (s : State) : (setShard k sh s).pagers = s.pagers := rfl
@[simp] theorem setShard_trunk (k : Nat) (sh : Shard) (s : State) : (setShard k sh s).trunk = s.trunk := rfl
@[simp] theorem setShard_evBatch (k : Nat) (sh : Shard) (s : State) : (setShard k sh s).evBatch = s.evBatch := rfl
@[simp] theorem setShard_evFrames (k : Nat) (sh : Shard) (s : State) : (setShard k sh s).evFrames = s.evFrames := rfl
@[simp] theorem setShard_flowsTx (k : Nat) (sh : Shard) (s : State) : (setShard k sh s).flowsTx = s.flowsTx := rfl
@[simp] theorem setShard_flowsRx (k : Nat) (sh : Shard) (s : State) : (setShard k sh s).flowsRx = s.flowsRx := rfl
@[simp] theorem setShard_reads (k : Nat) (sh : Shard) (s : State) : (setShard k sh s).reads = s.reads := rfl
@[simp] theorem setShard_txWait (k : Nat) (sh : Shard) (s : State) : (setShard k sh s).txWait = s.txWait := rfl
@[simp] theorem setShard_resendNext (k : Nat) (sh : Shard) (s : State) : (setShard k sh s).resendNext = s.resendNext := rfl
@[simp] theorem setShard_desc (k : Nat) (sh : Shard) (s : State) : (setShard k sh s).desc = s.desc := rfl
@[simp] theorem setShard_adopted (k : Nat) (sh : Shard) (s : State) : (setShard k sh s).adopted = s.adopted := rfl
@[simp] theorem setShard_ports (k : Nat) (sh : Shard) (s : State) : (setShard k sh s).ports = s.ports := rfl
@[simp] theorem setShard_rounded (k : Nat) (sh : Shard) (s : State) : (setShard k sh s).rounded = s.rounded := rfl
@[simp] theorem setShard_edges (k : Nat) (sh : Shard) (s : State) : (setShard k sh s).edges = s.edges := rfl
@[simp] theorem setShard_samples (k : Nat) (sh : Shard) (s : State) : (setShard k sh s).samples = s.samples := rfl
@[simp] theorem setShard_layerReady (k : Nat) (sh : Shard) (s : State) : (setShard k sh s).layerReady = s.layerReady := rfl
@[simp] theorem setShard_dieTags (k : Nat) (sh : Shard) (s : State) : (setShard k sh s).dieTags = s.dieTags := rfl
@[simp] theorem setShard_rings (k : Nat) (sh : Shard) (s : State) : (setShard k sh s).rings = s.rings := rfl
@[simp] theorem setShard_retired (k : Nat) (sh : Shard) (s : State) : (setShard k sh s).retired = s.retired := rfl
@[simp] theorem setShard_spareBad (k : Nat) (sh : Shard) (s : State) : (setShard k sh s).spareBad = s.spareBad := rfl
@[simp] theorem setShard_bypassBad (k : Nat) (sh : Shard) (s : State) : (setShard k sh s).bypassBad = s.bypassBad := rfl
@[simp] theorem setShard_retireQ (k : Nat) (sh : Shard) (s : State) : (setShard k sh s).retireQ = s.retireQ := rfl
@[simp] theorem setShard_history (k : Nat) (sh : Shard) (s : State) : (setShard k sh s).history = s.history := rfl
@[simp] theorem setShard_stackCounts (k : Nat) (sh : Shard) (s : State) : (setShard k sh s).stackCounts = s.stackCounts := rfl
@[simp] theorem setShard_bankHours (k : Nat) (sh : Shard) (s : State) : (setShard k sh s).bankHours = s.bankHours := rfl
@[simp] theorem setShard_tileHours (k : Nat) (sh : Shard) (s : State) : (setShard k sh s).tileHours = s.tileHours := rfl
@[simp] theorem setShard_repairRows (k : Nat) (sh : Shard) (s : State) : (setShard k sh s).repairRows = s.repairRows := rfl
@[simp] theorem setShard_badSeen (k : Nat) (sh : Shard) (s : State) : (setShard k sh s).badSeen = s.badSeen := rfl
@[simp] theorem setShard_rewritten (k : Nat) (sh : Shard) (s : State) : (setShard k sh s).rewritten = s.rewritten := rfl
@[simp] theorem setShard_host (k : Nat) (sh : Shard) (s : State) : (setShard k sh s).host = s.host := rfl
@[simp] theorem setShard_windows (k : Nat) (sh : Shard) (s : State) : (setShard k sh s).windows = s.windows := rfl
@[simp] theorem setShard_reduce (k : Nat) (sh : Shard) (s : State) : (setShard k sh s).reduce = s.reduce := rfl
@[simp] theorem setShard_gal (k : Nat) (sh : Shard) (s : State) : (setShard k sh s).gal = s.gal := rfl
@[simp] theorem setShard_steer (k : Nat) (sh : Shard) (s : State) : (setShard k sh s).steer = s.steer := rfl
@[simp] theorem setShard_recov (k : Nat) (sh : Shard) (s : State) : (setShard k sh s).recov = s.recov := rfl
@[simp] theorem setShard_tarvy (k : Nat) (sh : Shard) (s : State) : (setShard k sh s).tarvy = s.tarvy := rfl
@[simp] theorem setShard_board (k : Nat) (sh : Shard) (s : State) : (setShard k sh s).board = s.board := rfl
@[simp] theorem setShard_free (k : Nat) (sh : Shard) (s : State) : (setShard k sh s).free = s.free := rfl
@[simp] theorem setShard_out (k : Nat) (sh : Shard) (s : State) : (setShard k sh s).out = s.out := rfl
@[simp] theorem setShard_pending (k : Nat) (sh : Shard) (s : State) : (setShard k sh s).pending = s.pending := rfl
@[simp] theorem setShard_reg_of (k : Nat) (sh : Shard) (s : State) (j : Nat) : (setShard k sh s).reg j = s.reg j := by simp only [State.reg, setShard_regs]
@[simp] theorem setShard_tile_of (k : Nat) (sh : Shard) (s : State) (j : Nat) : (setShard k sh s).tile j = s.tile j := by simp only [State.tile, setShard_tiles]
@[simp] theorem setShard_blob_of (k : Nat) (sh : Shard) (s : State) (j : Nat) : (setShard k sh s).blob j = s.blob j := by simp only [State.blob, setShard_blobs]
@[simp] theorem setShard_bytes_of (k : Nat) (sh : Shard) (s : State) (x m : Nat) : (setShard k sh s).bytes x m = s.bytes x m := by simp only [State.bytes, setShard_mem]
@[simp] theorem setShard_le_of (k : Nat) (sh : Shard) (s : State) (x m : Nat) : (setShard k sh s).le x m = s.le x m := by simp only [State.le, setShard_mem]
@[simp] theorem setShard_coord_of (k : Nat) (sh : Shard) (s : State)  : (setShard k sh s).coord  = s.coord  := by simp only [State.coord, State.reg, setShard_regs]

@[simp] theorem setPager_life (k : Nat) (p : Pager) (s : State) : (setPager k p s).life = s.life := rfl
@[simp] theorem setPager_now (k : Nat) (p : Pager) (s : State) : (setPager k p s).now = s.now := rfl
@[simp] theorem setPager_regs (k : Nat) (p : Pager) (s : State) : (setPager k p s).regs = s.regs := rfl
@[simp] theorem setPager_blobs (k : Nat) (p : Pager) (s : State) : (setPager k p s).blobs = s.blobs := rfl
@[simp] theorem setPager_mem (k : Nat) (p : Pager) (s : State) : (setPager k p s).mem = s.mem := rfl
@[simp] theorem setPager_bad (k : Nat) (p : Pager) (s : State) : (setPager k p s).bad = s.bad := rfl
@[simp] theorem setPager_tiles (k : Nat) (p : Pager) (s : State) : (setPager k p s).tiles = s.tiles := rfl
@[simp] theorem setPager_store (k : Nat) (p : Pager) (s : State) : (setPager k p s).store = s.store := rfl
@[simp] theorem setPager_startImg (k : Nat) (p : Pager) (s : State) : (setPager k p s).startImg = s.startImg := rfl
@[simp] theorem setPager_pages (k : Nat) (p : Pager) (s : State) : (setPager k p s).pages = s.pages := rfl
@[simp] theorem setPager_early (k : Nat) (p : Pager) (s : State) : (setPager k p s).early = s.early := rfl
@[simp] theorem setPager_job (k : Nat) (p : Pager) (s : State) : (setPager k p s).job = s.job := rfl
@[simp] theorem setPager_step (k : Nat) (p : Pager) (s : State) : (setPager k p s).step = s.step := rfl
@[simp] theorem setPager_ctxs (k : Nat) (p : Pager) (s : State) : (setPager k p s).ctxs = s.ctxs := rfl
@[simp] theorem setPager_trunk (k : Nat) (p : Pager) (s : State) : (setPager k p s).trunk = s.trunk := rfl
@[simp] theorem setPager_evBatch (k : Nat) (p : Pager) (s : State) : (setPager k p s).evBatch = s.evBatch := rfl
@[simp] theorem setPager_evFrames (k : Nat) (p : Pager) (s : State) : (setPager k p s).evFrames = s.evFrames := rfl
@[simp] theorem setPager_flowsTx (k : Nat) (p : Pager) (s : State) : (setPager k p s).flowsTx = s.flowsTx := rfl
@[simp] theorem setPager_flowsRx (k : Nat) (p : Pager) (s : State) : (setPager k p s).flowsRx = s.flowsRx := rfl
@[simp] theorem setPager_reads (k : Nat) (p : Pager) (s : State) : (setPager k p s).reads = s.reads := rfl
@[simp] theorem setPager_txWait (k : Nat) (p : Pager) (s : State) : (setPager k p s).txWait = s.txWait := rfl
@[simp] theorem setPager_resendNext (k : Nat) (p : Pager) (s : State) : (setPager k p s).resendNext = s.resendNext := rfl
@[simp] theorem setPager_desc (k : Nat) (p : Pager) (s : State) : (setPager k p s).desc = s.desc := rfl
@[simp] theorem setPager_adopted (k : Nat) (p : Pager) (s : State) : (setPager k p s).adopted = s.adopted := rfl
@[simp] theorem setPager_ports (k : Nat) (p : Pager) (s : State) : (setPager k p s).ports = s.ports := rfl
@[simp] theorem setPager_rounded (k : Nat) (p : Pager) (s : State) : (setPager k p s).rounded = s.rounded := rfl
@[simp] theorem setPager_edges (k : Nat) (p : Pager) (s : State) : (setPager k p s).edges = s.edges := rfl
@[simp] theorem setPager_samples (k : Nat) (p : Pager) (s : State) : (setPager k p s).samples = s.samples := rfl
@[simp] theorem setPager_layerReady (k : Nat) (p : Pager) (s : State) : (setPager k p s).layerReady = s.layerReady := rfl
@[simp] theorem setPager_dieTags (k : Nat) (p : Pager) (s : State) : (setPager k p s).dieTags = s.dieTags := rfl
@[simp] theorem setPager_rings (k : Nat) (p : Pager) (s : State) : (setPager k p s).rings = s.rings := rfl
@[simp] theorem setPager_retired (k : Nat) (p : Pager) (s : State) : (setPager k p s).retired = s.retired := rfl
@[simp] theorem setPager_spareBad (k : Nat) (p : Pager) (s : State) : (setPager k p s).spareBad = s.spareBad := rfl
@[simp] theorem setPager_bypassBad (k : Nat) (p : Pager) (s : State) : (setPager k p s).bypassBad = s.bypassBad := rfl
@[simp] theorem setPager_retireQ (k : Nat) (p : Pager) (s : State) : (setPager k p s).retireQ = s.retireQ := rfl
@[simp] theorem setPager_history (k : Nat) (p : Pager) (s : State) : (setPager k p s).history = s.history := rfl
@[simp] theorem setPager_stackCounts (k : Nat) (p : Pager) (s : State) : (setPager k p s).stackCounts = s.stackCounts := rfl
@[simp] theorem setPager_bankHours (k : Nat) (p : Pager) (s : State) : (setPager k p s).bankHours = s.bankHours := rfl
@[simp] theorem setPager_tileHours (k : Nat) (p : Pager) (s : State) : (setPager k p s).tileHours = s.tileHours := rfl
@[simp] theorem setPager_repairRows (k : Nat) (p : Pager) (s : State) : (setPager k p s).repairRows = s.repairRows := rfl
@[simp] theorem setPager_badSeen (k : Nat) (p : Pager) (s : State) : (setPager k p s).badSeen = s.badSeen := rfl
@[simp] theorem setPager_rewritten (k : Nat) (p : Pager) (s : State) : (setPager k p s).rewritten = s.rewritten := rfl
@[simp] theorem setPager_tables (k : Nat) (p : Pager) (s : State) : (setPager k p s).tables = s.tables := rfl
@[simp] theorem setPager_host (k : Nat) (p : Pager) (s : State) : (setPager k p s).host = s.host := rfl
@[simp] theorem setPager_windows (k : Nat) (p : Pager) (s : State) : (setPager k p s).windows = s.windows := rfl
@[simp] theorem setPager_reduce (k : Nat) (p : Pager) (s : State) : (setPager k p s).reduce = s.reduce := rfl
@[simp] theorem setPager_gal (k : Nat) (p : Pager) (s : State) : (setPager k p s).gal = s.gal := rfl
@[simp] theorem setPager_steer (k : Nat) (p : Pager) (s : State) : (setPager k p s).steer = s.steer := rfl
@[simp] theorem setPager_recov (k : Nat) (p : Pager) (s : State) : (setPager k p s).recov = s.recov := rfl
@[simp] theorem setPager_tarvy (k : Nat) (p : Pager) (s : State) : (setPager k p s).tarvy = s.tarvy := rfl
@[simp] theorem setPager_board (k : Nat) (p : Pager) (s : State) : (setPager k p s).board = s.board := rfl
@[simp] theorem setPager_free (k : Nat) (p : Pager) (s : State) : (setPager k p s).free = s.free := rfl
@[simp] theorem setPager_out (k : Nat) (p : Pager) (s : State) : (setPager k p s).out = s.out := rfl
@[simp] theorem setPager_pending (k : Nat) (p : Pager) (s : State) : (setPager k p s).pending = s.pending := rfl
@[simp] theorem setPager_reg_of (k : Nat) (p : Pager) (s : State) (j : Nat) : (setPager k p s).reg j = s.reg j := by simp only [State.reg, setPager_regs]
@[simp] theorem setPager_tile_of (k : Nat) (p : Pager) (s : State) (j : Nat) : (setPager k p s).tile j = s.tile j := by simp only [State.tile, setPager_tiles]
@[simp] theorem setPager_blob_of (k : Nat) (p : Pager) (s : State) (j : Nat) : (setPager k p s).blob j = s.blob j := by simp only [State.blob, setPager_blobs]
@[simp] theorem setPager_bytes_of (k : Nat) (p : Pager) (s : State) (x m : Nat) : (setPager k p s).bytes x m = s.bytes x m := by simp only [State.bytes, setPager_mem]
@[simp] theorem setPager_le_of (k : Nat) (p : Pager) (s : State) (x m : Nat) : (setPager k p s).le x m = s.le x m := by simp only [State.le, setPager_mem]
@[simp] theorem setPager_coord_of (k : Nat) (p : Pager) (s : State)  : (setPager k p s).coord  = s.coord  := by simp only [State.coord, State.reg, setPager_regs]

@[simp] theorem setNodeRt_life (i : Nat) (r : NodeRt) (s : State) : (setNodeRt i r s).life = s.life := rfl
@[simp] theorem setNodeRt_now (i : Nat) (r : NodeRt) (s : State) : (setNodeRt i r s).now = s.now := rfl
@[simp] theorem setNodeRt_regs (i : Nat) (r : NodeRt) (s : State) : (setNodeRt i r s).regs = s.regs := rfl
@[simp] theorem setNodeRt_blobs (i : Nat) (r : NodeRt) (s : State) : (setNodeRt i r s).blobs = s.blobs := rfl
@[simp] theorem setNodeRt_mem (i : Nat) (r : NodeRt) (s : State) : (setNodeRt i r s).mem = s.mem := rfl
@[simp] theorem setNodeRt_bad (i : Nat) (r : NodeRt) (s : State) : (setNodeRt i r s).bad = s.bad := rfl
@[simp] theorem setNodeRt_tiles (i : Nat) (r : NodeRt) (s : State) : (setNodeRt i r s).tiles = s.tiles := rfl
@[simp] theorem setNodeRt_store (i : Nat) (r : NodeRt) (s : State) : (setNodeRt i r s).store = s.store := rfl
@[simp] theorem setNodeRt_startImg (i : Nat) (r : NodeRt) (s : State) : (setNodeRt i r s).startImg = s.startImg := rfl
@[simp] theorem setNodeRt_pages (i : Nat) (r : NodeRt) (s : State) : (setNodeRt i r s).pages = s.pages := rfl
@[simp] theorem setNodeRt_early (i : Nat) (r : NodeRt) (s : State) : (setNodeRt i r s).early = s.early := rfl
@[simp] theorem setNodeRt_job (i : Nat) (r : NodeRt) (s : State) : (setNodeRt i r s).job = s.job := rfl
@[simp] theorem setNodeRt_step (i : Nat) (r : NodeRt) (s : State) : (setNodeRt i r s).step = s.step := rfl
@[simp] theorem setNodeRt_ctxs (i : Nat) (r : NodeRt) (s : State) : (setNodeRt i r s).ctxs = s.ctxs := rfl
@[simp] theorem setNodeRt_pagers (i : Nat) (r : NodeRt) (s : State) : (setNodeRt i r s).pagers = s.pagers := rfl
@[simp] theorem setNodeRt_trunk (i : Nat) (r : NodeRt) (s : State) : (setNodeRt i r s).trunk = s.trunk := rfl
@[simp] theorem setNodeRt_evBatch (i : Nat) (r : NodeRt) (s : State) : (setNodeRt i r s).evBatch = s.evBatch := rfl
@[simp] theorem setNodeRt_evFrames (i : Nat) (r : NodeRt) (s : State) : (setNodeRt i r s).evFrames = s.evFrames := rfl
@[simp] theorem setNodeRt_flowsTx (i : Nat) (r : NodeRt) (s : State) : (setNodeRt i r s).flowsTx = s.flowsTx := rfl
@[simp] theorem setNodeRt_flowsRx (i : Nat) (r : NodeRt) (s : State) : (setNodeRt i r s).flowsRx = s.flowsRx := rfl
@[simp] theorem setNodeRt_reads (i : Nat) (r : NodeRt) (s : State) : (setNodeRt i r s).reads = s.reads := rfl
@[simp] theorem setNodeRt_txWait (i : Nat) (r : NodeRt) (s : State) : (setNodeRt i r s).txWait = s.txWait := rfl
@[simp] theorem setNodeRt_resendNext (i : Nat) (r : NodeRt) (s : State) : (setNodeRt i r s).resendNext = s.resendNext := rfl
@[simp] theorem setNodeRt_desc (i : Nat) (r : NodeRt) (s : State) : (setNodeRt i r s).desc = s.desc := rfl
@[simp] theorem setNodeRt_adopted (i : Nat) (r : NodeRt) (s : State) : (setNodeRt i r s).adopted = s.adopted := rfl
@[simp] theorem setNodeRt_ports (i : Nat) (r : NodeRt) (s : State) : (setNodeRt i r s).ports = s.ports := rfl
@[simp] theorem setNodeRt_rounded (i : Nat) (r : NodeRt) (s : State) : (setNodeRt i r s).rounded = s.rounded := rfl
@[simp] theorem setNodeRt_edges (i : Nat) (r : NodeRt) (s : State) : (setNodeRt i r s).edges = s.edges := rfl
@[simp] theorem setNodeRt_samples (i : Nat) (r : NodeRt) (s : State) : (setNodeRt i r s).samples = s.samples := rfl
@[simp] theorem setNodeRt_layerReady (i : Nat) (r : NodeRt) (s : State) : (setNodeRt i r s).layerReady = s.layerReady := rfl
@[simp] theorem setNodeRt_dieTags (i : Nat) (r : NodeRt) (s : State) : (setNodeRt i r s).dieTags = s.dieTags := rfl
@[simp] theorem setNodeRt_rings (i : Nat) (r : NodeRt) (s : State) : (setNodeRt i r s).rings = s.rings := rfl
@[simp] theorem setNodeRt_retired (i : Nat) (r : NodeRt) (s : State) : (setNodeRt i r s).retired = s.retired := rfl
@[simp] theorem setNodeRt_spareBad (i : Nat) (r : NodeRt) (s : State) : (setNodeRt i r s).spareBad = s.spareBad := rfl
@[simp] theorem setNodeRt_bypassBad (i : Nat) (r : NodeRt) (s : State) : (setNodeRt i r s).bypassBad = s.bypassBad := rfl
@[simp] theorem setNodeRt_retireQ (i : Nat) (r : NodeRt) (s : State) : (setNodeRt i r s).retireQ = s.retireQ := rfl
@[simp] theorem setNodeRt_history (i : Nat) (r : NodeRt) (s : State) : (setNodeRt i r s).history = s.history := rfl
@[simp] theorem setNodeRt_stackCounts (i : Nat) (r : NodeRt) (s : State) : (setNodeRt i r s).stackCounts = s.stackCounts := rfl
@[simp] theorem setNodeRt_bankHours (i : Nat) (r : NodeRt) (s : State) : (setNodeRt i r s).bankHours = s.bankHours := rfl
@[simp] theorem setNodeRt_tileHours (i : Nat) (r : NodeRt) (s : State) : (setNodeRt i r s).tileHours = s.tileHours := rfl
@[simp] theorem setNodeRt_repairRows (i : Nat) (r : NodeRt) (s : State) : (setNodeRt i r s).repairRows = s.repairRows := rfl
@[simp] theorem setNodeRt_badSeen (i : Nat) (r : NodeRt) (s : State) : (setNodeRt i r s).badSeen = s.badSeen := rfl
@[simp] theorem setNodeRt_rewritten (i : Nat) (r : NodeRt) (s : State) : (setNodeRt i r s).rewritten = s.rewritten := rfl
@[simp] theorem setNodeRt_tables (i : Nat) (r : NodeRt) (s : State) : (setNodeRt i r s).tables = s.tables := rfl
@[simp] theorem setNodeRt_host (i : Nat) (r : NodeRt) (s : State) : (setNodeRt i r s).host = s.host := rfl
@[simp] theorem setNodeRt_windows (i : Nat) (r : NodeRt) (s : State) : (setNodeRt i r s).windows = s.windows := rfl
@[simp] theorem setNodeRt_gal (i : Nat) (r : NodeRt) (s : State) : (setNodeRt i r s).gal = s.gal := rfl
@[simp] theorem setNodeRt_steer (i : Nat) (r : NodeRt) (s : State) : (setNodeRt i r s).steer = s.steer := rfl
@[simp] theorem setNodeRt_recov (i : Nat) (r : NodeRt) (s : State) : (setNodeRt i r s).recov = s.recov := rfl
@[simp] theorem setNodeRt_tarvy (i : Nat) (r : NodeRt) (s : State) : (setNodeRt i r s).tarvy = s.tarvy := rfl
@[simp] theorem setNodeRt_board (i : Nat) (r : NodeRt) (s : State) : (setNodeRt i r s).board = s.board := rfl
@[simp] theorem setNodeRt_free (i : Nat) (r : NodeRt) (s : State) : (setNodeRt i r s).free = s.free := rfl
@[simp] theorem setNodeRt_out (i : Nat) (r : NodeRt) (s : State) : (setNodeRt i r s).out = s.out := rfl
@[simp] theorem setNodeRt_pending (i : Nat) (r : NodeRt) (s : State) : (setNodeRt i r s).pending = s.pending := rfl
@[simp] theorem setNodeRt_reg_of (i : Nat) (r : NodeRt) (s : State) (j : Nat) : (setNodeRt i r s).reg j = s.reg j := by simp only [State.reg, setNodeRt_regs]
@[simp] theorem setNodeRt_tile_of (i : Nat) (r : NodeRt) (s : State) (j : Nat) : (setNodeRt i r s).tile j = s.tile j := by simp only [State.tile, setNodeRt_tiles]
@[simp] theorem setNodeRt_blob_of (i : Nat) (r : NodeRt) (s : State) (j : Nat) : (setNodeRt i r s).blob j = s.blob j := by simp only [State.blob, setNodeRt_blobs]
@[simp] theorem setNodeRt_bytes_of (i : Nat) (r : NodeRt) (s : State) (x m : Nat) : (setNodeRt i r s).bytes x m = s.bytes x m := by simp only [State.bytes, setNodeRt_mem]
@[simp] theorem setNodeRt_le_of (i : Nat) (r : NodeRt) (s : State) (x m : Nat) : (setNodeRt i r s).le x m = s.le x m := by simp only [State.le, setNodeRt_mem]
@[simp] theorem setNodeRt_coord_of (i : Nat) (r : NodeRt) (s : State)  : (setNodeRt i r s).coord  = s.coord  := by simp only [State.coord, State.reg, setNodeRt_regs]

theorem abortAttempt_parts (cause : Nat) (s : State) :
    ∃ a b c, abortAttempt cause s = { s with step := a, regs := b, tiles := c } := by
  unfold abortAttempt
  dsimp only
  split
  · split
    · exact ⟨_, _, _, rfl⟩
    · exact ⟨_, _, s.tiles, rfl⟩
  · exact ⟨s.step, s.regs, s.tiles, rfl⟩

@[simp] theorem abortAttempt_life (cause : Nat) (s : State) : (abortAttempt cause s).life = s.life := by obtain ⟨_, _, _, h⟩ := abortAttempt_parts cause s; rw [h]
@[simp] theorem abortAttempt_now (cause : Nat) (s : State) : (abortAttempt cause s).now = s.now := by obtain ⟨_, _, _, h⟩ := abortAttempt_parts cause s; rw [h]
@[simp] theorem abortAttempt_blobs (cause : Nat) (s : State) : (abortAttempt cause s).blobs = s.blobs := by obtain ⟨_, _, _, h⟩ := abortAttempt_parts cause s; rw [h]
@[simp] theorem abortAttempt_mem (cause : Nat) (s : State) : (abortAttempt cause s).mem = s.mem := by obtain ⟨_, _, _, h⟩ := abortAttempt_parts cause s; rw [h]
@[simp] theorem abortAttempt_bad (cause : Nat) (s : State) : (abortAttempt cause s).bad = s.bad := by obtain ⟨_, _, _, h⟩ := abortAttempt_parts cause s; rw [h]
@[simp] theorem abortAttempt_store (cause : Nat) (s : State) : (abortAttempt cause s).store = s.store := by obtain ⟨_, _, _, h⟩ := abortAttempt_parts cause s; rw [h]
@[simp] theorem abortAttempt_startImg (cause : Nat) (s : State) : (abortAttempt cause s).startImg = s.startImg := by obtain ⟨_, _, _, h⟩ := abortAttempt_parts cause s; rw [h]
@[simp] theorem abortAttempt_pages (cause : Nat) (s : State) : (abortAttempt cause s).pages = s.pages := by obtain ⟨_, _, _, h⟩ := abortAttempt_parts cause s; rw [h]
@[simp] theorem abortAttempt_early (cause : Nat) (s : State) : (abortAttempt cause s).early = s.early := by obtain ⟨_, _, _, h⟩ := abortAttempt_parts cause s; rw [h]
@[simp] theorem abortAttempt_job (cause : Nat) (s : State) : (abortAttempt cause s).job = s.job := by obtain ⟨_, _, _, h⟩ := abortAttempt_parts cause s; rw [h]
@[simp] theorem abortAttempt_ctxs (cause : Nat) (s : State) : (abortAttempt cause s).ctxs = s.ctxs := by obtain ⟨_, _, _, h⟩ := abortAttempt_parts cause s; rw [h]
@[simp] theorem abortAttempt_pagers (cause : Nat) (s : State) : (abortAttempt cause s).pagers = s.pagers := by obtain ⟨_, _, _, h⟩ := abortAttempt_parts cause s; rw [h]
@[simp] theorem abortAttempt_trunk (cause : Nat) (s : State) : (abortAttempt cause s).trunk = s.trunk := by obtain ⟨_, _, _, h⟩ := abortAttempt_parts cause s; rw [h]
@[simp] theorem abortAttempt_evBatch (cause : Nat) (s : State) : (abortAttempt cause s).evBatch = s.evBatch := by obtain ⟨_, _, _, h⟩ := abortAttempt_parts cause s; rw [h]
@[simp] theorem abortAttempt_evFrames (cause : Nat) (s : State) : (abortAttempt cause s).evFrames = s.evFrames := by obtain ⟨_, _, _, h⟩ := abortAttempt_parts cause s; rw [h]
@[simp] theorem abortAttempt_flowsTx (cause : Nat) (s : State) : (abortAttempt cause s).flowsTx = s.flowsTx := by obtain ⟨_, _, _, h⟩ := abortAttempt_parts cause s; rw [h]
@[simp] theorem abortAttempt_flowsRx (cause : Nat) (s : State) : (abortAttempt cause s).flowsRx = s.flowsRx := by obtain ⟨_, _, _, h⟩ := abortAttempt_parts cause s; rw [h]
@[simp] theorem abortAttempt_reads (cause : Nat) (s : State) : (abortAttempt cause s).reads = s.reads := by obtain ⟨_, _, _, h⟩ := abortAttempt_parts cause s; rw [h]
@[simp] theorem abortAttempt_txWait (cause : Nat) (s : State) : (abortAttempt cause s).txWait = s.txWait := by obtain ⟨_, _, _, h⟩ := abortAttempt_parts cause s; rw [h]
@[simp] theorem abortAttempt_resendNext (cause : Nat) (s : State) : (abortAttempt cause s).resendNext = s.resendNext := by obtain ⟨_, _, _, h⟩ := abortAttempt_parts cause s; rw [h]
@[simp] theorem abortAttempt_desc (cause : Nat) (s : State) : (abortAttempt cause s).desc = s.desc := by obtain ⟨_, _, _, h⟩ := abortAttempt_parts cause s; rw [h]
@[simp] theorem abortAttempt_adopted (cause : Nat) (s : State) : (abortAttempt cause s).adopted = s.adopted := by obtain ⟨_, _, _, h⟩ := abortAttempt_parts cause s; rw [h]
@[simp] theorem abortAttempt_ports (cause : Nat) (s : State) : (abortAttempt cause s).ports = s.ports := by obtain ⟨_, _, _, h⟩ := abortAttempt_parts cause s; rw [h]
@[simp] theorem abortAttempt_rounded (cause : Nat) (s : State) : (abortAttempt cause s).rounded = s.rounded := by obtain ⟨_, _, _, h⟩ := abortAttempt_parts cause s; rw [h]
@[simp] theorem abortAttempt_edges (cause : Nat) (s : State) : (abortAttempt cause s).edges = s.edges := by obtain ⟨_, _, _, h⟩ := abortAttempt_parts cause s; rw [h]
@[simp] theorem abortAttempt_samples (cause : Nat) (s : State) : (abortAttempt cause s).samples = s.samples := by obtain ⟨_, _, _, h⟩ := abortAttempt_parts cause s; rw [h]
@[simp] theorem abortAttempt_layerReady (cause : Nat) (s : State) : (abortAttempt cause s).layerReady = s.layerReady := by obtain ⟨_, _, _, h⟩ := abortAttempt_parts cause s; rw [h]
@[simp] theorem abortAttempt_dieTags (cause : Nat) (s : State) : (abortAttempt cause s).dieTags = s.dieTags := by obtain ⟨_, _, _, h⟩ := abortAttempt_parts cause s; rw [h]
@[simp] theorem abortAttempt_rings (cause : Nat) (s : State) : (abortAttempt cause s).rings = s.rings := by obtain ⟨_, _, _, h⟩ := abortAttempt_parts cause s; rw [h]
@[simp] theorem abortAttempt_retired (cause : Nat) (s : State) : (abortAttempt cause s).retired = s.retired := by obtain ⟨_, _, _, h⟩ := abortAttempt_parts cause s; rw [h]
@[simp] theorem abortAttempt_spareBad (cause : Nat) (s : State) : (abortAttempt cause s).spareBad = s.spareBad := by obtain ⟨_, _, _, h⟩ := abortAttempt_parts cause s; rw [h]
@[simp] theorem abortAttempt_bypassBad (cause : Nat) (s : State) : (abortAttempt cause s).bypassBad = s.bypassBad := by obtain ⟨_, _, _, h⟩ := abortAttempt_parts cause s; rw [h]
@[simp] theorem abortAttempt_retireQ (cause : Nat) (s : State) : (abortAttempt cause s).retireQ = s.retireQ := by obtain ⟨_, _, _, h⟩ := abortAttempt_parts cause s; rw [h]
@[simp] theorem abortAttempt_history (cause : Nat) (s : State) : (abortAttempt cause s).history = s.history := by obtain ⟨_, _, _, h⟩ := abortAttempt_parts cause s; rw [h]
@[simp] theorem abortAttempt_stackCounts (cause : Nat) (s : State) : (abortAttempt cause s).stackCounts = s.stackCounts := by obtain ⟨_, _, _, h⟩ := abortAttempt_parts cause s; rw [h]
@[simp] theorem abortAttempt_bankHours (cause : Nat) (s : State) : (abortAttempt cause s).bankHours = s.bankHours := by obtain ⟨_, _, _, h⟩ := abortAttempt_parts cause s; rw [h]
@[simp] theorem abortAttempt_tileHours (cause : Nat) (s : State) : (abortAttempt cause s).tileHours = s.tileHours := by obtain ⟨_, _, _, h⟩ := abortAttempt_parts cause s; rw [h]
@[simp] theorem abortAttempt_repairRows (cause : Nat) (s : State) : (abortAttempt cause s).repairRows = s.repairRows := by obtain ⟨_, _, _, h⟩ := abortAttempt_parts cause s; rw [h]
@[simp] theorem abortAttempt_badSeen (cause : Nat) (s : State) : (abortAttempt cause s).badSeen = s.badSeen := by obtain ⟨_, _, _, h⟩ := abortAttempt_parts cause s; rw [h]
@[simp] theorem abortAttempt_rewritten (cause : Nat) (s : State) : (abortAttempt cause s).rewritten = s.rewritten := by obtain ⟨_, _, _, h⟩ := abortAttempt_parts cause s; rw [h]
@[simp] theorem abortAttempt_tables (cause : Nat) (s : State) : (abortAttempt cause s).tables = s.tables := by obtain ⟨_, _, _, h⟩ := abortAttempt_parts cause s; rw [h]
@[simp] theorem abortAttempt_host (cause : Nat) (s : State) : (abortAttempt cause s).host = s.host := by obtain ⟨_, _, _, h⟩ := abortAttempt_parts cause s; rw [h]
@[simp] theorem abortAttempt_windows (cause : Nat) (s : State) : (abortAttempt cause s).windows = s.windows := by obtain ⟨_, _, _, h⟩ := abortAttempt_parts cause s; rw [h]
@[simp] theorem abortAttempt_reduce (cause : Nat) (s : State) : (abortAttempt cause s).reduce = s.reduce := by obtain ⟨_, _, _, h⟩ := abortAttempt_parts cause s; rw [h]
@[simp] theorem abortAttempt_gal (cause : Nat) (s : State) : (abortAttempt cause s).gal = s.gal := by obtain ⟨_, _, _, h⟩ := abortAttempt_parts cause s; rw [h]
@[simp] theorem abortAttempt_steer (cause : Nat) (s : State) : (abortAttempt cause s).steer = s.steer := by obtain ⟨_, _, _, h⟩ := abortAttempt_parts cause s; rw [h]
@[simp] theorem abortAttempt_recov (cause : Nat) (s : State) : (abortAttempt cause s).recov = s.recov := by obtain ⟨_, _, _, h⟩ := abortAttempt_parts cause s; rw [h]
@[simp] theorem abortAttempt_tarvy (cause : Nat) (s : State) : (abortAttempt cause s).tarvy = s.tarvy := by obtain ⟨_, _, _, h⟩ := abortAttempt_parts cause s; rw [h]
@[simp] theorem abortAttempt_board (cause : Nat) (s : State) : (abortAttempt cause s).board = s.board := by obtain ⟨_, _, _, h⟩ := abortAttempt_parts cause s; rw [h]
@[simp] theorem abortAttempt_free (cause : Nat) (s : State) : (abortAttempt cause s).free = s.free := by obtain ⟨_, _, _, h⟩ := abortAttempt_parts cause s; rw [h]
@[simp] theorem abortAttempt_out (cause : Nat) (s : State) : (abortAttempt cause s).out = s.out := by obtain ⟨_, _, _, h⟩ := abortAttempt_parts cause s; rw [h]
@[simp] theorem abortAttempt_pending (cause : Nat) (s : State) : (abortAttempt cause s).pending = s.pending := by obtain ⟨_, _, _, h⟩ := abortAttempt_parts cause s; rw [h]
@[simp] theorem abortAttempt_blob_of (cause : Nat) (s : State) (j : Nat) : (abortAttempt cause s).blob j = s.blob j := by simp only [State.blob, abortAttempt_blobs]
@[simp] theorem abortAttempt_bytes_of (cause : Nat) (s : State) (x m : Nat) : (abortAttempt cause s).bytes x m = s.bytes x m := by simp only [State.bytes, abortAttempt_mem]
@[simp] theorem abortAttempt_le_of (cause : Nat) (s : State) (x m : Nat) : (abortAttempt cause s).le x m = s.le x m := by simp only [State.le, abortAttempt_mem]

theorem enter_parts (p : PkgState) (cause : Nat) (s : State) :
    ∃ a b c e, enter p cause s = { s with life := a, regs := b, step := c, trunk := e } := by
  unfold enter
  dsimp only
  split <;> split <;> (obtain ⟨_, _, h⟩ := trunkPost_parts 0 4 0 (atBit 248 (stateCode s.life) + atBit 240 (stateCode p) + atBit 224 cause) _; exact ⟨_, _, _, _, h⟩)

@[simp] theorem enter_now (p : PkgState) (cause : Nat) (s : State) : (enter p cause s).now = s.now := by obtain ⟨_, _, _, _, h⟩ := enter_parts p cause s; rw [h]
@[simp] theorem enter_blobs (p : PkgState) (cause : Nat) (s : State) : (enter p cause s).blobs = s.blobs := by obtain ⟨_, _, _, _, h⟩ := enter_parts p cause s; rw [h]
@[simp] theorem enter_mem (p : PkgState) (cause : Nat) (s : State) : (enter p cause s).mem = s.mem := by obtain ⟨_, _, _, _, h⟩ := enter_parts p cause s; rw [h]
@[simp] theorem enter_bad (p : PkgState) (cause : Nat) (s : State) : (enter p cause s).bad = s.bad := by obtain ⟨_, _, _, _, h⟩ := enter_parts p cause s; rw [h]
@[simp] theorem enter_tiles (p : PkgState) (cause : Nat) (s : State) : (enter p cause s).tiles = s.tiles := by obtain ⟨_, _, _, _, h⟩ := enter_parts p cause s; rw [h]
@[simp] theorem enter_store (p : PkgState) (cause : Nat) (s : State) : (enter p cause s).store = s.store := by obtain ⟨_, _, _, _, h⟩ := enter_parts p cause s; rw [h]
@[simp] theorem enter_startImg (p : PkgState) (cause : Nat) (s : State) : (enter p cause s).startImg = s.startImg := by obtain ⟨_, _, _, _, h⟩ := enter_parts p cause s; rw [h]
@[simp] theorem enter_pages (p : PkgState) (cause : Nat) (s : State) : (enter p cause s).pages = s.pages := by obtain ⟨_, _, _, _, h⟩ := enter_parts p cause s; rw [h]
@[simp] theorem enter_early (p : PkgState) (cause : Nat) (s : State) : (enter p cause s).early = s.early := by obtain ⟨_, _, _, _, h⟩ := enter_parts p cause s; rw [h]
@[simp] theorem enter_job (p : PkgState) (cause : Nat) (s : State) : (enter p cause s).job = s.job := by obtain ⟨_, _, _, _, h⟩ := enter_parts p cause s; rw [h]
@[simp] theorem enter_ctxs (p : PkgState) (cause : Nat) (s : State) : (enter p cause s).ctxs = s.ctxs := by obtain ⟨_, _, _, _, h⟩ := enter_parts p cause s; rw [h]
@[simp] theorem enter_pagers (p : PkgState) (cause : Nat) (s : State) : (enter p cause s).pagers = s.pagers := by obtain ⟨_, _, _, _, h⟩ := enter_parts p cause s; rw [h]
@[simp] theorem enter_evBatch (p : PkgState) (cause : Nat) (s : State) : (enter p cause s).evBatch = s.evBatch := by obtain ⟨_, _, _, _, h⟩ := enter_parts p cause s; rw [h]
@[simp] theorem enter_evFrames (p : PkgState) (cause : Nat) (s : State) : (enter p cause s).evFrames = s.evFrames := by obtain ⟨_, _, _, _, h⟩ := enter_parts p cause s; rw [h]
@[simp] theorem enter_flowsTx (p : PkgState) (cause : Nat) (s : State) : (enter p cause s).flowsTx = s.flowsTx := by obtain ⟨_, _, _, _, h⟩ := enter_parts p cause s; rw [h]
@[simp] theorem enter_flowsRx (p : PkgState) (cause : Nat) (s : State) : (enter p cause s).flowsRx = s.flowsRx := by obtain ⟨_, _, _, _, h⟩ := enter_parts p cause s; rw [h]
@[simp] theorem enter_reads (p : PkgState) (cause : Nat) (s : State) : (enter p cause s).reads = s.reads := by obtain ⟨_, _, _, _, h⟩ := enter_parts p cause s; rw [h]
@[simp] theorem enter_txWait (p : PkgState) (cause : Nat) (s : State) : (enter p cause s).txWait = s.txWait := by obtain ⟨_, _, _, _, h⟩ := enter_parts p cause s; rw [h]
@[simp] theorem enter_resendNext (p : PkgState) (cause : Nat) (s : State) : (enter p cause s).resendNext = s.resendNext := by obtain ⟨_, _, _, _, h⟩ := enter_parts p cause s; rw [h]
@[simp] theorem enter_desc (p : PkgState) (cause : Nat) (s : State) : (enter p cause s).desc = s.desc := by obtain ⟨_, _, _, _, h⟩ := enter_parts p cause s; rw [h]
@[simp] theorem enter_adopted (p : PkgState) (cause : Nat) (s : State) : (enter p cause s).adopted = s.adopted := by obtain ⟨_, _, _, _, h⟩ := enter_parts p cause s; rw [h]
@[simp] theorem enter_ports (p : PkgState) (cause : Nat) (s : State) : (enter p cause s).ports = s.ports := by obtain ⟨_, _, _, _, h⟩ := enter_parts p cause s; rw [h]
@[simp] theorem enter_rounded (p : PkgState) (cause : Nat) (s : State) : (enter p cause s).rounded = s.rounded := by obtain ⟨_, _, _, _, h⟩ := enter_parts p cause s; rw [h]
@[simp] theorem enter_edges (p : PkgState) (cause : Nat) (s : State) : (enter p cause s).edges = s.edges := by obtain ⟨_, _, _, _, h⟩ := enter_parts p cause s; rw [h]
@[simp] theorem enter_samples (p : PkgState) (cause : Nat) (s : State) : (enter p cause s).samples = s.samples := by obtain ⟨_, _, _, _, h⟩ := enter_parts p cause s; rw [h]
@[simp] theorem enter_layerReady (p : PkgState) (cause : Nat) (s : State) : (enter p cause s).layerReady = s.layerReady := by obtain ⟨_, _, _, _, h⟩ := enter_parts p cause s; rw [h]
@[simp] theorem enter_dieTags (p : PkgState) (cause : Nat) (s : State) : (enter p cause s).dieTags = s.dieTags := by obtain ⟨_, _, _, _, h⟩ := enter_parts p cause s; rw [h]
@[simp] theorem enter_rings (p : PkgState) (cause : Nat) (s : State) : (enter p cause s).rings = s.rings := by obtain ⟨_, _, _, _, h⟩ := enter_parts p cause s; rw [h]
@[simp] theorem enter_retired (p : PkgState) (cause : Nat) (s : State) : (enter p cause s).retired = s.retired := by obtain ⟨_, _, _, _, h⟩ := enter_parts p cause s; rw [h]
@[simp] theorem enter_spareBad (p : PkgState) (cause : Nat) (s : State) : (enter p cause s).spareBad = s.spareBad := by obtain ⟨_, _, _, _, h⟩ := enter_parts p cause s; rw [h]
@[simp] theorem enter_bypassBad (p : PkgState) (cause : Nat) (s : State) : (enter p cause s).bypassBad = s.bypassBad := by obtain ⟨_, _, _, _, h⟩ := enter_parts p cause s; rw [h]
@[simp] theorem enter_retireQ (p : PkgState) (cause : Nat) (s : State) : (enter p cause s).retireQ = s.retireQ := by obtain ⟨_, _, _, _, h⟩ := enter_parts p cause s; rw [h]
@[simp] theorem enter_history (p : PkgState) (cause : Nat) (s : State) : (enter p cause s).history = s.history := by obtain ⟨_, _, _, _, h⟩ := enter_parts p cause s; rw [h]
@[simp] theorem enter_stackCounts (p : PkgState) (cause : Nat) (s : State) : (enter p cause s).stackCounts = s.stackCounts := by obtain ⟨_, _, _, _, h⟩ := enter_parts p cause s; rw [h]
@[simp] theorem enter_bankHours (p : PkgState) (cause : Nat) (s : State) : (enter p cause s).bankHours = s.bankHours := by obtain ⟨_, _, _, _, h⟩ := enter_parts p cause s; rw [h]
@[simp] theorem enter_tileHours (p : PkgState) (cause : Nat) (s : State) : (enter p cause s).tileHours = s.tileHours := by obtain ⟨_, _, _, _, h⟩ := enter_parts p cause s; rw [h]
@[simp] theorem enter_repairRows (p : PkgState) (cause : Nat) (s : State) : (enter p cause s).repairRows = s.repairRows := by obtain ⟨_, _, _, _, h⟩ := enter_parts p cause s; rw [h]
@[simp] theorem enter_badSeen (p : PkgState) (cause : Nat) (s : State) : (enter p cause s).badSeen = s.badSeen := by obtain ⟨_, _, _, _, h⟩ := enter_parts p cause s; rw [h]
@[simp] theorem enter_rewritten (p : PkgState) (cause : Nat) (s : State) : (enter p cause s).rewritten = s.rewritten := by obtain ⟨_, _, _, _, h⟩ := enter_parts p cause s; rw [h]
@[simp] theorem enter_tables (p : PkgState) (cause : Nat) (s : State) : (enter p cause s).tables = s.tables := by obtain ⟨_, _, _, _, h⟩ := enter_parts p cause s; rw [h]
@[simp] theorem enter_host (p : PkgState) (cause : Nat) (s : State) : (enter p cause s).host = s.host := by obtain ⟨_, _, _, _, h⟩ := enter_parts p cause s; rw [h]
@[simp] theorem enter_windows (p : PkgState) (cause : Nat) (s : State) : (enter p cause s).windows = s.windows := by obtain ⟨_, _, _, _, h⟩ := enter_parts p cause s; rw [h]
@[simp] theorem enter_reduce (p : PkgState) (cause : Nat) (s : State) : (enter p cause s).reduce = s.reduce := by obtain ⟨_, _, _, _, h⟩ := enter_parts p cause s; rw [h]
@[simp] theorem enter_gal (p : PkgState) (cause : Nat) (s : State) : (enter p cause s).gal = s.gal := by obtain ⟨_, _, _, _, h⟩ := enter_parts p cause s; rw [h]
@[simp] theorem enter_steer (p : PkgState) (cause : Nat) (s : State) : (enter p cause s).steer = s.steer := by obtain ⟨_, _, _, _, h⟩ := enter_parts p cause s; rw [h]
@[simp] theorem enter_recov (p : PkgState) (cause : Nat) (s : State) : (enter p cause s).recov = s.recov := by obtain ⟨_, _, _, _, h⟩ := enter_parts p cause s; rw [h]
@[simp] theorem enter_tarvy (p : PkgState) (cause : Nat) (s : State) : (enter p cause s).tarvy = s.tarvy := by obtain ⟨_, _, _, _, h⟩ := enter_parts p cause s; rw [h]
@[simp] theorem enter_board (p : PkgState) (cause : Nat) (s : State) : (enter p cause s).board = s.board := by obtain ⟨_, _, _, _, h⟩ := enter_parts p cause s; rw [h]
@[simp] theorem enter_free (p : PkgState) (cause : Nat) (s : State) : (enter p cause s).free = s.free := by obtain ⟨_, _, _, _, h⟩ := enter_parts p cause s; rw [h]
@[simp] theorem enter_out (p : PkgState) (cause : Nat) (s : State) : (enter p cause s).out = s.out := by obtain ⟨_, _, _, _, h⟩ := enter_parts p cause s; rw [h]
@[simp] theorem enter_pending (p : PkgState) (cause : Nat) (s : State) : (enter p cause s).pending = s.pending := by obtain ⟨_, _, _, _, h⟩ := enter_parts p cause s; rw [h]
@[simp] theorem enter_tile_of (p : PkgState) (cause : Nat) (s : State) (j : Nat) : (enter p cause s).tile j = s.tile j := by simp only [State.tile, enter_tiles]
@[simp] theorem enter_blob_of (p : PkgState) (cause : Nat) (s : State) (j : Nat) : (enter p cause s).blob j = s.blob j := by simp only [State.blob, enter_blobs]
@[simp] theorem enter_bytes_of (p : PkgState) (cause : Nat) (s : State) (x m : Nat) : (enter p cause s).bytes x m = s.bytes x m := by simp only [State.bytes, enter_mem]
@[simp] theorem enter_le_of (p : PkgState) (cause : Nat) (s : State) (x m : Nat) : (enter p cause s).le x m = s.le x m := by simp only [State.le, enter_mem]

@[simp] theorem modPins_life (f : Pins → Pins) (s : State) : (modPins f s).life = s.life := rfl
@[simp] theorem modPins_now (f : Pins → Pins) (s : State) : (modPins f s).now = s.now := rfl
@[simp] theorem modPins_regs (f : Pins → Pins) (s : State) : (modPins f s).regs = s.regs := rfl
@[simp] theorem modPins_blobs (f : Pins → Pins) (s : State) : (modPins f s).blobs = s.blobs := rfl
@[simp] theorem modPins_mem (f : Pins → Pins) (s : State) : (modPins f s).mem = s.mem := rfl
@[simp] theorem modPins_bad (f : Pins → Pins) (s : State) : (modPins f s).bad = s.bad := rfl
@[simp] theorem modPins_tiles (f : Pins → Pins) (s : State) : (modPins f s).tiles = s.tiles := rfl
@[simp] theorem modPins_store (f : Pins → Pins) (s : State) : (modPins f s).store = s.store := rfl
@[simp] theorem modPins_startImg (f : Pins → Pins) (s : State) : (modPins f s).startImg = s.startImg := rfl
@[simp] theorem modPins_pages (f : Pins → Pins) (s : State) : (modPins f s).pages = s.pages := rfl
@[simp] theorem modPins_early (f : Pins → Pins) (s : State) : (modPins f s).early = s.early := rfl
@[simp] theorem modPins_job (f : Pins → Pins) (s : State) : (modPins f s).job = s.job := rfl
@[simp] theorem modPins_step (f : Pins → Pins) (s : State) : (modPins f s).step = s.step := rfl
@[simp] theorem modPins_ctxs (f : Pins → Pins) (s : State) : (modPins f s).ctxs = s.ctxs := rfl
@[simp] theorem modPins_pagers (f : Pins → Pins) (s : State) : (modPins f s).pagers = s.pagers := rfl
@[simp] theorem modPins_trunk (f : Pins → Pins) (s : State) : (modPins f s).trunk = s.trunk := rfl
@[simp] theorem modPins_evBatch (f : Pins → Pins) (s : State) : (modPins f s).evBatch = s.evBatch := rfl
@[simp] theorem modPins_evFrames (f : Pins → Pins) (s : State) : (modPins f s).evFrames = s.evFrames := rfl
@[simp] theorem modPins_flowsTx (f : Pins → Pins) (s : State) : (modPins f s).flowsTx = s.flowsTx := rfl
@[simp] theorem modPins_flowsRx (f : Pins → Pins) (s : State) : (modPins f s).flowsRx = s.flowsRx := rfl
@[simp] theorem modPins_reads (f : Pins → Pins) (s : State) : (modPins f s).reads = s.reads := rfl
@[simp] theorem modPins_txWait (f : Pins → Pins) (s : State) : (modPins f s).txWait = s.txWait := rfl
@[simp] theorem modPins_resendNext (f : Pins → Pins) (s : State) : (modPins f s).resendNext = s.resendNext := rfl
@[simp] theorem modPins_desc (f : Pins → Pins) (s : State) : (modPins f s).desc = s.desc := rfl
@[simp] theorem modPins_adopted (f : Pins → Pins) (s : State) : (modPins f s).adopted = s.adopted := rfl
@[simp] theorem modPins_ports (f : Pins → Pins) (s : State) : (modPins f s).ports = s.ports := rfl
@[simp] theorem modPins_rounded (f : Pins → Pins) (s : State) : (modPins f s).rounded = s.rounded := rfl
@[simp] theorem modPins_edges (f : Pins → Pins) (s : State) : (modPins f s).edges = s.edges := rfl
@[simp] theorem modPins_samples (f : Pins → Pins) (s : State) : (modPins f s).samples = s.samples := rfl
@[simp] theorem modPins_layerReady (f : Pins → Pins) (s : State) : (modPins f s).layerReady = s.layerReady := rfl
@[simp] theorem modPins_dieTags (f : Pins → Pins) (s : State) : (modPins f s).dieTags = s.dieTags := rfl
@[simp] theorem modPins_rings (f : Pins → Pins) (s : State) : (modPins f s).rings = s.rings := rfl
@[simp] theorem modPins_retired (f : Pins → Pins) (s : State) : (modPins f s).retired = s.retired := rfl
@[simp] theorem modPins_spareBad (f : Pins → Pins) (s : State) : (modPins f s).spareBad = s.spareBad := rfl
@[simp] theorem modPins_bypassBad (f : Pins → Pins) (s : State) : (modPins f s).bypassBad = s.bypassBad := rfl
@[simp] theorem modPins_retireQ (f : Pins → Pins) (s : State) : (modPins f s).retireQ = s.retireQ := rfl
@[simp] theorem modPins_history (f : Pins → Pins) (s : State) : (modPins f s).history = s.history := rfl
@[simp] theorem modPins_stackCounts (f : Pins → Pins) (s : State) : (modPins f s).stackCounts = s.stackCounts := rfl
@[simp] theorem modPins_bankHours (f : Pins → Pins) (s : State) : (modPins f s).bankHours = s.bankHours := rfl
@[simp] theorem modPins_tileHours (f : Pins → Pins) (s : State) : (modPins f s).tileHours = s.tileHours := rfl
@[simp] theorem modPins_repairRows (f : Pins → Pins) (s : State) : (modPins f s).repairRows = s.repairRows := rfl
@[simp] theorem modPins_badSeen (f : Pins → Pins) (s : State) : (modPins f s).badSeen = s.badSeen := rfl
@[simp] theorem modPins_rewritten (f : Pins → Pins) (s : State) : (modPins f s).rewritten = s.rewritten := rfl
@[simp] theorem modPins_tables (f : Pins → Pins) (s : State) : (modPins f s).tables = s.tables := rfl
@[simp] theorem modPins_host (f : Pins → Pins) (s : State) : (modPins f s).host = s.host := rfl
@[simp] theorem modPins_windows (f : Pins → Pins) (s : State) : (modPins f s).windows = s.windows := rfl
@[simp] theorem modPins_reduce (f : Pins → Pins) (s : State) : (modPins f s).reduce = s.reduce := rfl
@[simp] theorem modPins_gal (f : Pins → Pins) (s : State) : (modPins f s).gal = s.gal := rfl
@[simp] theorem modPins_steer (f : Pins → Pins) (s : State) : (modPins f s).steer = s.steer := rfl
@[simp] theorem modPins_recov (f : Pins → Pins) (s : State) : (modPins f s).recov = s.recov := rfl
@[simp] theorem modPins_tarvy (f : Pins → Pins) (s : State) : (modPins f s).tarvy = s.tarvy := rfl
@[simp] theorem modPins_free (f : Pins → Pins) (s : State) : (modPins f s).free = s.free := rfl
@[simp] theorem modPins_out (f : Pins → Pins) (s : State) : (modPins f s).out = s.out := rfl
@[simp] theorem modPins_pending (f : Pins → Pins) (s : State) : (modPins f s).pending = s.pending := rfl
@[simp] theorem modPins_reg_of (f : Pins → Pins) (s : State) (j : Nat) : (modPins f s).reg j = s.reg j := by simp only [State.reg, modPins_regs]
@[simp] theorem modPins_tile_of (f : Pins → Pins) (s : State) (j : Nat) : (modPins f s).tile j = s.tile j := by simp only [State.tile, modPins_tiles]
@[simp] theorem modPins_blob_of (f : Pins → Pins) (s : State) (j : Nat) : (modPins f s).blob j = s.blob j := by simp only [State.blob, modPins_blobs]
@[simp] theorem modPins_bytes_of (f : Pins → Pins) (s : State) (x m : Nat) : (modPins f s).bytes x m = s.bytes x m := by simp only [State.bytes, modPins_mem]
@[simp] theorem modPins_le_of (f : Pins → Pins) (s : State) (x m : Nat) : (modPins f s).le x m = s.le x m := by simp only [State.le, modPins_mem]
@[simp] theorem modPins_coord_of (f : Pins → Pins) (s : State)  : (modPins f s).coord  = s.coord  := by simp only [State.coord, State.reg, modPins_regs]

@[simp] theorem modTap_life (f : Tap → Tap) (s : State) : (modTap f s).life = s.life := rfl
@[simp] theorem modTap_now (f : Tap → Tap) (s : State) : (modTap f s).now = s.now := rfl
@[simp] theorem modTap_regs (f : Tap → Tap) (s : State) : (modTap f s).regs = s.regs := rfl
@[simp] theorem modTap_blobs (f : Tap → Tap) (s : State) : (modTap f s).blobs = s.blobs := rfl
@[simp] theorem modTap_mem (f : Tap → Tap) (s : State) : (modTap f s).mem = s.mem := rfl
@[simp] theorem modTap_bad (f : Tap → Tap) (s : State) : (modTap f s).bad = s.bad := rfl
@[simp] theorem modTap_tiles (f : Tap → Tap) (s : State) : (modTap f s).tiles = s.tiles := rfl
@[simp] theorem modTap_store (f : Tap → Tap) (s : State) : (modTap f s).store = s.store := rfl
@[simp] theorem modTap_startImg (f : Tap → Tap) (s : State) : (modTap f s).startImg = s.startImg := rfl
@[simp] theorem modTap_pages (f : Tap → Tap) (s : State) : (modTap f s).pages = s.pages := rfl
@[simp] theorem modTap_early (f : Tap → Tap) (s : State) : (modTap f s).early = s.early := rfl
@[simp] theorem modTap_job (f : Tap → Tap) (s : State) : (modTap f s).job = s.job := rfl
@[simp] theorem modTap_step (f : Tap → Tap) (s : State) : (modTap f s).step = s.step := rfl
@[simp] theorem modTap_ctxs (f : Tap → Tap) (s : State) : (modTap f s).ctxs = s.ctxs := rfl
@[simp] theorem modTap_pagers (f : Tap → Tap) (s : State) : (modTap f s).pagers = s.pagers := rfl
@[simp] theorem modTap_trunk (f : Tap → Tap) (s : State) : (modTap f s).trunk = s.trunk := rfl
@[simp] theorem modTap_evBatch (f : Tap → Tap) (s : State) : (modTap f s).evBatch = s.evBatch := rfl
@[simp] theorem modTap_evFrames (f : Tap → Tap) (s : State) : (modTap f s).evFrames = s.evFrames := rfl
@[simp] theorem modTap_flowsTx (f : Tap → Tap) (s : State) : (modTap f s).flowsTx = s.flowsTx := rfl
@[simp] theorem modTap_flowsRx (f : Tap → Tap) (s : State) : (modTap f s).flowsRx = s.flowsRx := rfl
@[simp] theorem modTap_reads (f : Tap → Tap) (s : State) : (modTap f s).reads = s.reads := rfl
@[simp] theorem modTap_txWait (f : Tap → Tap) (s : State) : (modTap f s).txWait = s.txWait := rfl
@[simp] theorem modTap_resendNext (f : Tap → Tap) (s : State) : (modTap f s).resendNext = s.resendNext := rfl
@[simp] theorem modTap_desc (f : Tap → Tap) (s : State) : (modTap f s).desc = s.desc := rfl
@[simp] theorem modTap_adopted (f : Tap → Tap) (s : State) : (modTap f s).adopted = s.adopted := rfl
@[simp] theorem modTap_ports (f : Tap → Tap) (s : State) : (modTap f s).ports = s.ports := rfl
@[simp] theorem modTap_rounded (f : Tap → Tap) (s : State) : (modTap f s).rounded = s.rounded := rfl
@[simp] theorem modTap_edges (f : Tap → Tap) (s : State) : (modTap f s).edges = s.edges := rfl
@[simp] theorem modTap_samples (f : Tap → Tap) (s : State) : (modTap f s).samples = s.samples := rfl
@[simp] theorem modTap_layerReady (f : Tap → Tap) (s : State) : (modTap f s).layerReady = s.layerReady := rfl
@[simp] theorem modTap_dieTags (f : Tap → Tap) (s : State) : (modTap f s).dieTags = s.dieTags := rfl
@[simp] theorem modTap_rings (f : Tap → Tap) (s : State) : (modTap f s).rings = s.rings := rfl
@[simp] theorem modTap_retired (f : Tap → Tap) (s : State) : (modTap f s).retired = s.retired := rfl
@[simp] theorem modTap_spareBad (f : Tap → Tap) (s : State) : (modTap f s).spareBad = s.spareBad := rfl
@[simp] theorem modTap_bypassBad (f : Tap → Tap) (s : State) : (modTap f s).bypassBad = s.bypassBad := rfl
@[simp] theorem modTap_retireQ (f : Tap → Tap) (s : State) : (modTap f s).retireQ = s.retireQ := rfl
@[simp] theorem modTap_history (f : Tap → Tap) (s : State) : (modTap f s).history = s.history := rfl
@[simp] theorem modTap_stackCounts (f : Tap → Tap) (s : State) : (modTap f s).stackCounts = s.stackCounts := rfl
@[simp] theorem modTap_bankHours (f : Tap → Tap) (s : State) : (modTap f s).bankHours = s.bankHours := rfl
@[simp] theorem modTap_tileHours (f : Tap → Tap) (s : State) : (modTap f s).tileHours = s.tileHours := rfl
@[simp] theorem modTap_repairRows (f : Tap → Tap) (s : State) : (modTap f s).repairRows = s.repairRows := rfl
@[simp] theorem modTap_badSeen (f : Tap → Tap) (s : State) : (modTap f s).badSeen = s.badSeen := rfl
@[simp] theorem modTap_rewritten (f : Tap → Tap) (s : State) : (modTap f s).rewritten = s.rewritten := rfl
@[simp] theorem modTap_tables (f : Tap → Tap) (s : State) : (modTap f s).tables = s.tables := rfl
@[simp] theorem modTap_host (f : Tap → Tap) (s : State) : (modTap f s).host = s.host := rfl
@[simp] theorem modTap_windows (f : Tap → Tap) (s : State) : (modTap f s).windows = s.windows := rfl
@[simp] theorem modTap_reduce (f : Tap → Tap) (s : State) : (modTap f s).reduce = s.reduce := rfl
@[simp] theorem modTap_gal (f : Tap → Tap) (s : State) : (modTap f s).gal = s.gal := rfl
@[simp] theorem modTap_steer (f : Tap → Tap) (s : State) : (modTap f s).steer = s.steer := rfl
@[simp] theorem modTap_recov (f : Tap → Tap) (s : State) : (modTap f s).recov = s.recov := rfl
@[simp] theorem modTap_tarvy (f : Tap → Tap) (s : State) : (modTap f s).tarvy = s.tarvy := rfl
@[simp] theorem modTap_free (f : Tap → Tap) (s : State) : (modTap f s).free = s.free := rfl
@[simp] theorem modTap_out (f : Tap → Tap) (s : State) : (modTap f s).out = s.out := rfl
@[simp] theorem modTap_pending (f : Tap → Tap) (s : State) : (modTap f s).pending = s.pending := rfl
@[simp] theorem modTap_reg_of (f : Tap → Tap) (s : State) (j : Nat) : (modTap f s).reg j = s.reg j := by simp only [State.reg, modTap_regs]
@[simp] theorem modTap_tile_of (f : Tap → Tap) (s : State) (j : Nat) : (modTap f s).tile j = s.tile j := by simp only [State.tile, modTap_tiles]
@[simp] theorem modTap_blob_of (f : Tap → Tap) (s : State) (j : Nat) : (modTap f s).blob j = s.blob j := by simp only [State.blob, modTap_blobs]
@[simp] theorem modTap_bytes_of (f : Tap → Tap) (s : State) (x m : Nat) : (modTap f s).bytes x m = s.bytes x m := by simp only [State.bytes, modTap_mem]
@[simp] theorem modTap_le_of (f : Tap → Tap) (s : State) (x m : Nat) : (modTap f s).le x m = s.le x m := by simp only [State.le, modTap_mem]
@[simp] theorem modTap_coord_of (f : Tap → Tap) (s : State)  : (modTap f s).coord  = s.coord  := by simp only [State.coord, State.reg, modTap_regs]

@[simp] theorem bumpEth_life (p which n : Nat) (s : State) : (bumpEth p which n s).life = s.life := rfl
@[simp] theorem bumpEth_now (p which n : Nat) (s : State) : (bumpEth p which n s).now = s.now := rfl
@[simp] theorem bumpEth_regs (p which n : Nat) (s : State) : (bumpEth p which n s).regs = s.regs := rfl
@[simp] theorem bumpEth_blobs (p which n : Nat) (s : State) : (bumpEth p which n s).blobs = s.blobs := rfl
@[simp] theorem bumpEth_mem (p which n : Nat) (s : State) : (bumpEth p which n s).mem = s.mem := rfl
@[simp] theorem bumpEth_bad (p which n : Nat) (s : State) : (bumpEth p which n s).bad = s.bad := rfl
@[simp] theorem bumpEth_tiles (p which n : Nat) (s : State) : (bumpEth p which n s).tiles = s.tiles := rfl
@[simp] theorem bumpEth_store (p which n : Nat) (s : State) : (bumpEth p which n s).store = s.store := rfl
@[simp] theorem bumpEth_startImg (p which n : Nat) (s : State) : (bumpEth p which n s).startImg = s.startImg := rfl
@[simp] theorem bumpEth_pages (p which n : Nat) (s : State) : (bumpEth p which n s).pages = s.pages := rfl
@[simp] theorem bumpEth_early (p which n : Nat) (s : State) : (bumpEth p which n s).early = s.early := rfl
@[simp] theorem bumpEth_job (p which n : Nat) (s : State) : (bumpEth p which n s).job = s.job := rfl
@[simp] theorem bumpEth_step (p which n : Nat) (s : State) : (bumpEth p which n s).step = s.step := rfl
@[simp] theorem bumpEth_ctxs (p which n : Nat) (s : State) : (bumpEth p which n s).ctxs = s.ctxs := rfl
@[simp] theorem bumpEth_pagers (p which n : Nat) (s : State) : (bumpEth p which n s).pagers = s.pagers := rfl
@[simp] theorem bumpEth_trunk (p which n : Nat) (s : State) : (bumpEth p which n s).trunk = s.trunk := rfl
@[simp] theorem bumpEth_evBatch (p which n : Nat) (s : State) : (bumpEth p which n s).evBatch = s.evBatch := rfl
@[simp] theorem bumpEth_evFrames (p which n : Nat) (s : State) : (bumpEth p which n s).evFrames = s.evFrames := rfl
@[simp] theorem bumpEth_flowsTx (p which n : Nat) (s : State) : (bumpEth p which n s).flowsTx = s.flowsTx := rfl
@[simp] theorem bumpEth_flowsRx (p which n : Nat) (s : State) : (bumpEth p which n s).flowsRx = s.flowsRx := rfl
@[simp] theorem bumpEth_reads (p which n : Nat) (s : State) : (bumpEth p which n s).reads = s.reads := rfl
@[simp] theorem bumpEth_txWait (p which n : Nat) (s : State) : (bumpEth p which n s).txWait = s.txWait := rfl
@[simp] theorem bumpEth_resendNext (p which n : Nat) (s : State) : (bumpEth p which n s).resendNext = s.resendNext := rfl
@[simp] theorem bumpEth_desc (p which n : Nat) (s : State) : (bumpEth p which n s).desc = s.desc := rfl
@[simp] theorem bumpEth_adopted (p which n : Nat) (s : State) : (bumpEth p which n s).adopted = s.adopted := rfl
@[simp] theorem bumpEth_ports (p which n : Nat) (s : State) : (bumpEth p which n s).ports = s.ports := rfl
@[simp] theorem bumpEth_rounded (p which n : Nat) (s : State) : (bumpEth p which n s).rounded = s.rounded := rfl
@[simp] theorem bumpEth_edges (p which n : Nat) (s : State) : (bumpEth p which n s).edges = s.edges := rfl
@[simp] theorem bumpEth_samples (p which n : Nat) (s : State) : (bumpEth p which n s).samples = s.samples := rfl
@[simp] theorem bumpEth_layerReady (p which n : Nat) (s : State) : (bumpEth p which n s).layerReady = s.layerReady := rfl
@[simp] theorem bumpEth_dieTags (p which n : Nat) (s : State) : (bumpEth p which n s).dieTags = s.dieTags := rfl
@[simp] theorem bumpEth_rings (p which n : Nat) (s : State) : (bumpEth p which n s).rings = s.rings := rfl
@[simp] theorem bumpEth_retired (p which n : Nat) (s : State) : (bumpEth p which n s).retired = s.retired := rfl
@[simp] theorem bumpEth_spareBad (p which n : Nat) (s : State) : (bumpEth p which n s).spareBad = s.spareBad := rfl
@[simp] theorem bumpEth_bypassBad (p which n : Nat) (s : State) : (bumpEth p which n s).bypassBad = s.bypassBad := rfl
@[simp] theorem bumpEth_retireQ (p which n : Nat) (s : State) : (bumpEth p which n s).retireQ = s.retireQ := rfl
@[simp] theorem bumpEth_history (p which n : Nat) (s : State) : (bumpEth p which n s).history = s.history := rfl
@[simp] theorem bumpEth_stackCounts (p which n : Nat) (s : State) : (bumpEth p which n s).stackCounts = s.stackCounts := rfl
@[simp] theorem bumpEth_bankHours (p which n : Nat) (s : State) : (bumpEth p which n s).bankHours = s.bankHours := rfl
@[simp] theorem bumpEth_tileHours (p which n : Nat) (s : State) : (bumpEth p which n s).tileHours = s.tileHours := rfl
@[simp] theorem bumpEth_repairRows (p which n : Nat) (s : State) : (bumpEth p which n s).repairRows = s.repairRows := rfl
@[simp] theorem bumpEth_badSeen (p which n : Nat) (s : State) : (bumpEth p which n s).badSeen = s.badSeen := rfl
@[simp] theorem bumpEth_rewritten (p which n : Nat) (s : State) : (bumpEth p which n s).rewritten = s.rewritten := rfl
@[simp] theorem bumpEth_tables (p which n : Nat) (s : State) : (bumpEth p which n s).tables = s.tables := rfl
@[simp] theorem bumpEth_windows (p which n : Nat) (s : State) : (bumpEth p which n s).windows = s.windows := rfl
@[simp] theorem bumpEth_reduce (p which n : Nat) (s : State) : (bumpEth p which n s).reduce = s.reduce := rfl
@[simp] theorem bumpEth_gal (p which n : Nat) (s : State) : (bumpEth p which n s).gal = s.gal := rfl
@[simp] theorem bumpEth_steer (p which n : Nat) (s : State) : (bumpEth p which n s).steer = s.steer := rfl
@[simp] theorem bumpEth_recov (p which n : Nat) (s : State) : (bumpEth p which n s).recov = s.recov := rfl
@[simp] theorem bumpEth_tarvy (p which n : Nat) (s : State) : (bumpEth p which n s).tarvy = s.tarvy := rfl
@[simp] theorem bumpEth_board (p which n : Nat) (s : State) : (bumpEth p which n s).board = s.board := rfl
@[simp] theorem bumpEth_free (p which n : Nat) (s : State) : (bumpEth p which n s).free = s.free := rfl
@[simp] theorem bumpEth_out (p which n : Nat) (s : State) : (bumpEth p which n s).out = s.out := rfl
@[simp] theorem bumpEth_pending (p which n : Nat) (s : State) : (bumpEth p which n s).pending = s.pending := rfl
@[simp] theorem bumpEth_reg_of (p which n : Nat) (s : State) (j : Nat) : (bumpEth p which n s).reg j = s.reg j := by simp only [State.reg, bumpEth_regs]
@[simp] theorem bumpEth_tile_of (p which n : Nat) (s : State) (j : Nat) : (bumpEth p which n s).tile j = s.tile j := by simp only [State.tile, bumpEth_tiles]
@[simp] theorem bumpEth_blob_of (p which n : Nat) (s : State) (j : Nat) : (bumpEth p which n s).blob j = s.blob j := by simp only [State.blob, bumpEth_blobs]
@[simp] theorem bumpEth_bytes_of (p which n : Nat) (s : State) (x m : Nat) : (bumpEth p which n s).bytes x m = s.bytes x m := by simp only [State.bytes, bumpEth_mem]
@[simp] theorem bumpEth_le_of (p which n : Nat) (s : State) (x m : Nat) : (bumpEth p which n s).le x m = s.le x m := by simp only [State.le, bumpEth_mem]
@[simp] theorem bumpEth_coord_of (p which n : Nat) (s : State)  : (bumpEth p which n s).coord  = s.coord  := by simp only [State.coord, State.reg, bumpEth_regs]

@[simp] theorem raiseEth_life (code p : Nat) (s : State) : (raiseEth code p s).life = s.life := by simp [raiseEth]
@[simp] theorem raiseEth_now (code p : Nat) (s : State) : (raiseEth code p s).now = s.now := by simp [raiseEth]
@[simp] theorem raiseEth_blobs (code p : Nat) (s : State) : (raiseEth code p s).blobs = s.blobs := by simp [raiseEth]
@[simp] theorem raiseEth_mem (code p : Nat) (s : State) : (raiseEth code p s).mem = s.mem := by simp [raiseEth]
@[simp] theorem raiseEth_bad (code p : Nat) (s : State) : (raiseEth code p s).bad = s.bad := by simp [raiseEth]
@[simp] theorem raiseEth_tiles (code p : Nat) (s : State) : (raiseEth code p s).tiles = s.tiles := by simp [raiseEth]
@[simp] theorem raiseEth_store (code p : Nat) (s : State) : (raiseEth code p s).store = s.store := by simp [raiseEth]
@[simp] theorem raiseEth_startImg (code p : Nat) (s : State) : (raiseEth code p s).startImg = s.startImg := by simp [raiseEth]
@[simp] theorem raiseEth_pages (code p : Nat) (s : State) : (raiseEth code p s).pages = s.pages := by simp [raiseEth]
@[simp] theorem raiseEth_early (code p : Nat) (s : State) : (raiseEth code p s).early = s.early := by simp [raiseEth]
@[simp] theorem raiseEth_job (code p : Nat) (s : State) : (raiseEth code p s).job = s.job := by simp [raiseEth]
@[simp] theorem raiseEth_step (code p : Nat) (s : State) : (raiseEth code p s).step = s.step := by simp [raiseEth]
@[simp] theorem raiseEth_ctxs (code p : Nat) (s : State) : (raiseEth code p s).ctxs = s.ctxs := by simp [raiseEth]
@[simp] theorem raiseEth_pagers (code p : Nat) (s : State) : (raiseEth code p s).pagers = s.pagers := by simp [raiseEth]
@[simp] theorem raiseEth_evFrames (code p : Nat) (s : State) : (raiseEth code p s).evFrames = s.evFrames := by simp [raiseEth]
@[simp] theorem raiseEth_flowsTx (code p : Nat) (s : State) : (raiseEth code p s).flowsTx = s.flowsTx := by simp [raiseEth]
@[simp] theorem raiseEth_flowsRx (code p : Nat) (s : State) : (raiseEth code p s).flowsRx = s.flowsRx := by simp [raiseEth]
@[simp] theorem raiseEth_reads (code p : Nat) (s : State) : (raiseEth code p s).reads = s.reads := by simp [raiseEth]
@[simp] theorem raiseEth_txWait (code p : Nat) (s : State) : (raiseEth code p s).txWait = s.txWait := by simp [raiseEth]
@[simp] theorem raiseEth_resendNext (code p : Nat) (s : State) : (raiseEth code p s).resendNext = s.resendNext := by simp [raiseEth]
@[simp] theorem raiseEth_desc (code p : Nat) (s : State) : (raiseEth code p s).desc = s.desc := by simp [raiseEth]
@[simp] theorem raiseEth_adopted (code p : Nat) (s : State) : (raiseEth code p s).adopted = s.adopted := by simp [raiseEth]
@[simp] theorem raiseEth_ports (code p : Nat) (s : State) : (raiseEth code p s).ports = s.ports := by simp [raiseEth]
@[simp] theorem raiseEth_rounded (code p : Nat) (s : State) : (raiseEth code p s).rounded = s.rounded := by simp [raiseEth]
@[simp] theorem raiseEth_edges (code p : Nat) (s : State) : (raiseEth code p s).edges = s.edges := by simp [raiseEth]
@[simp] theorem raiseEth_samples (code p : Nat) (s : State) : (raiseEth code p s).samples = s.samples := by simp [raiseEth]
@[simp] theorem raiseEth_layerReady (code p : Nat) (s : State) : (raiseEth code p s).layerReady = s.layerReady := by simp [raiseEth]
@[simp] theorem raiseEth_dieTags (code p : Nat) (s : State) : (raiseEth code p s).dieTags = s.dieTags := by simp [raiseEth]
@[simp] theorem raiseEth_rings (code p : Nat) (s : State) : (raiseEth code p s).rings = s.rings := by simp [raiseEth]
@[simp] theorem raiseEth_retired (code p : Nat) (s : State) : (raiseEth code p s).retired = s.retired := by simp [raiseEth]
@[simp] theorem raiseEth_spareBad (code p : Nat) (s : State) : (raiseEth code p s).spareBad = s.spareBad := by simp [raiseEth]
@[simp] theorem raiseEth_bypassBad (code p : Nat) (s : State) : (raiseEth code p s).bypassBad = s.bypassBad := by simp [raiseEth]
@[simp] theorem raiseEth_retireQ (code p : Nat) (s : State) : (raiseEth code p s).retireQ = s.retireQ := by simp [raiseEth]
@[simp] theorem raiseEth_history (code p : Nat) (s : State) : (raiseEth code p s).history = s.history := by simp [raiseEth]
@[simp] theorem raiseEth_stackCounts (code p : Nat) (s : State) : (raiseEth code p s).stackCounts = s.stackCounts := by simp [raiseEth]
@[simp] theorem raiseEth_bankHours (code p : Nat) (s : State) : (raiseEth code p s).bankHours = s.bankHours := by simp [raiseEth]
@[simp] theorem raiseEth_tileHours (code p : Nat) (s : State) : (raiseEth code p s).tileHours = s.tileHours := by simp [raiseEth]
@[simp] theorem raiseEth_repairRows (code p : Nat) (s : State) : (raiseEth code p s).repairRows = s.repairRows := by simp [raiseEth]
@[simp] theorem raiseEth_badSeen (code p : Nat) (s : State) : (raiseEth code p s).badSeen = s.badSeen := by simp [raiseEth]
@[simp] theorem raiseEth_rewritten (code p : Nat) (s : State) : (raiseEth code p s).rewritten = s.rewritten := by simp [raiseEth]
@[simp] theorem raiseEth_tables (code p : Nat) (s : State) : (raiseEth code p s).tables = s.tables := by simp [raiseEth]
@[simp] theorem raiseEth_host (code p : Nat) (s : State) : (raiseEth code p s).host = s.host := by simp [raiseEth]
@[simp] theorem raiseEth_windows (code p : Nat) (s : State) : (raiseEth code p s).windows = s.windows := by simp [raiseEth]
@[simp] theorem raiseEth_reduce (code p : Nat) (s : State) : (raiseEth code p s).reduce = s.reduce := by simp [raiseEth]
@[simp] theorem raiseEth_gal (code p : Nat) (s : State) : (raiseEth code p s).gal = s.gal := by simp [raiseEth]
@[simp] theorem raiseEth_steer (code p : Nat) (s : State) : (raiseEth code p s).steer = s.steer := by simp [raiseEth]
@[simp] theorem raiseEth_recov (code p : Nat) (s : State) : (raiseEth code p s).recov = s.recov := by simp [raiseEth]
@[simp] theorem raiseEth_tarvy (code p : Nat) (s : State) : (raiseEth code p s).tarvy = s.tarvy := by simp [raiseEth]
@[simp] theorem raiseEth_board (code p : Nat) (s : State) : (raiseEth code p s).board = s.board := by simp [raiseEth]
@[simp] theorem raiseEth_free (code p : Nat) (s : State) : (raiseEth code p s).free = s.free := by simp [raiseEth]
@[simp] theorem raiseEth_out (code p : Nat) (s : State) : (raiseEth code p s).out = s.out := by simp [raiseEth]
@[simp] theorem raiseEth_pending (code p : Nat) (s : State) : (raiseEth code p s).pending = s.pending := by simp [raiseEth]
@[simp] theorem raiseEth_tile_of (code p : Nat) (s : State) (j : Nat) : (raiseEth code p s).tile j = s.tile j := by simp only [State.tile, raiseEth_tiles]
@[simp] theorem raiseEth_blob_of (code p : Nat) (s : State) (j : Nat) : (raiseEth code p s).blob j = s.blob j := by simp only [State.blob, raiseEth_blobs]
@[simp] theorem raiseEth_bytes_of (code p : Nat) (s : State) (x m : Nat) : (raiseEth code p s).bytes x m = s.bytes x m := by simp only [State.bytes, raiseEth_mem]
@[simp] theorem raiseEth_le_of (code p : Nat) (s : State) (x m : Nat) : (raiseEth code p s).le x m = s.le x m := by simp only [State.le, raiseEth_mem]

@[simp] theorem setJournal_life (d : Nat) (q : JournalDie) (s : State) : (setJournal d q s).life = s.life := rfl
@[simp] theorem setJournal_now (d : Nat) (q : JournalDie) (s : State) : (setJournal d q s).now = s.now := rfl
@[simp] theorem setJournal_regs (d : Nat) (q : JournalDie) (s : State) : (setJournal d q s).regs = s.regs := rfl
@[simp] theorem setJournal_blobs (d : Nat) (q : JournalDie) (s : State) : (setJournal d q s).blobs = s.blobs := rfl
@[simp] theorem setJournal_mem (d : Nat) (q : JournalDie) (s : State) : (setJournal d q s).mem = s.mem := rfl
@[simp] theorem setJournal_bad (d : Nat) (q : JournalDie) (s : State) : (setJournal d q s).bad = s.bad := rfl
@[simp] theorem setJournal_tiles (d : Nat) (q : JournalDie) (s : State) : (setJournal d q s).tiles = s.tiles := rfl
@[simp] theorem setJournal_store (d : Nat) (q : JournalDie) (s : State) : (setJournal d q s).store = s.store := rfl
@[simp] theorem setJournal_startImg (d : Nat) (q : JournalDie) (s : State) : (setJournal d q s).startImg = s.startImg := rfl
@[simp] theorem setJournal_pages (d : Nat) (q : JournalDie) (s : State) : (setJournal d q s).pages = s.pages := rfl
@[simp] theorem setJournal_early (d : Nat) (q : JournalDie) (s : State) : (setJournal d q s).early = s.early := rfl
@[simp] theorem setJournal_job (d : Nat) (q : JournalDie) (s : State) : (setJournal d q s).job = s.job := rfl
@[simp] theorem setJournal_step (d : Nat) (q : JournalDie) (s : State) : (setJournal d q s).step = s.step := rfl
@[simp] theorem setJournal_ctxs (d : Nat) (q : JournalDie) (s : State) : (setJournal d q s).ctxs = s.ctxs := rfl
@[simp] theorem setJournal_pagers (d : Nat) (q : JournalDie) (s : State) : (setJournal d q s).pagers = s.pagers := rfl
@[simp] theorem setJournal_trunk (d : Nat) (q : JournalDie) (s : State) : (setJournal d q s).trunk = s.trunk := rfl
@[simp] theorem setJournal_evBatch (d : Nat) (q : JournalDie) (s : State) : (setJournal d q s).evBatch = s.evBatch := rfl
@[simp] theorem setJournal_evFrames (d : Nat) (q : JournalDie) (s : State) : (setJournal d q s).evFrames = s.evFrames := rfl
@[simp] theorem setJournal_flowsTx (d : Nat) (q : JournalDie) (s : State) : (setJournal d q s).flowsTx = s.flowsTx := rfl
@[simp] theorem setJournal_flowsRx (d : Nat) (q : JournalDie) (s : State) : (setJournal d q s).flowsRx = s.flowsRx := rfl
@[simp] theorem setJournal_reads (d : Nat) (q : JournalDie) (s : State) : (setJournal d q s).reads = s.reads := rfl
@[simp] theorem setJournal_txWait (d : Nat) (q : JournalDie) (s : State) : (setJournal d q s).txWait = s.txWait := rfl
@[simp] theorem setJournal_resendNext (d : Nat) (q : JournalDie) (s : State) : (setJournal d q s).resendNext = s.resendNext := rfl
@[simp] theorem setJournal_desc (d : Nat) (q : JournalDie) (s : State) : (setJournal d q s).desc = s.desc := rfl
@[simp] theorem setJournal_adopted (d : Nat) (q : JournalDie) (s : State) : (setJournal d q s).adopted = s.adopted := rfl
@[simp] theorem setJournal_ports (d : Nat) (q : JournalDie) (s : State) : (setJournal d q s).ports = s.ports := rfl
@[simp] theorem setJournal_rounded (d : Nat) (q : JournalDie) (s : State) : (setJournal d q s).rounded = s.rounded := rfl
@[simp] theorem setJournal_edges (d : Nat) (q : JournalDie) (s : State) : (setJournal d q s).edges = s.edges := rfl
@[simp] theorem setJournal_samples (d : Nat) (q : JournalDie) (s : State) : (setJournal d q s).samples = s.samples := rfl
@[simp] theorem setJournal_layerReady (d : Nat) (q : JournalDie) (s : State) : (setJournal d q s).layerReady = s.layerReady := rfl
@[simp] theorem setJournal_dieTags (d : Nat) (q : JournalDie) (s : State) : (setJournal d q s).dieTags = s.dieTags := rfl
@[simp] theorem setJournal_rings (d : Nat) (q : JournalDie) (s : State) : (setJournal d q s).rings = s.rings := rfl
@[simp] theorem setJournal_retired (d : Nat) (q : JournalDie) (s : State) : (setJournal d q s).retired = s.retired := rfl
@[simp] theorem setJournal_spareBad (d : Nat) (q : JournalDie) (s : State) : (setJournal d q s).spareBad = s.spareBad := rfl
@[simp] theorem setJournal_bypassBad (d : Nat) (q : JournalDie) (s : State) : (setJournal d q s).bypassBad = s.bypassBad := rfl
@[simp] theorem setJournal_retireQ (d : Nat) (q : JournalDie) (s : State) : (setJournal d q s).retireQ = s.retireQ := rfl
@[simp] theorem setJournal_history (d : Nat) (q : JournalDie) (s : State) : (setJournal d q s).history = s.history := rfl
@[simp] theorem setJournal_stackCounts (d : Nat) (q : JournalDie) (s : State) : (setJournal d q s).stackCounts = s.stackCounts := rfl
@[simp] theorem setJournal_bankHours (d : Nat) (q : JournalDie) (s : State) : (setJournal d q s).bankHours = s.bankHours := rfl
@[simp] theorem setJournal_tileHours (d : Nat) (q : JournalDie) (s : State) : (setJournal d q s).tileHours = s.tileHours := rfl
@[simp] theorem setJournal_repairRows (d : Nat) (q : JournalDie) (s : State) : (setJournal d q s).repairRows = s.repairRows := rfl
@[simp] theorem setJournal_badSeen (d : Nat) (q : JournalDie) (s : State) : (setJournal d q s).badSeen = s.badSeen := rfl
@[simp] theorem setJournal_rewritten (d : Nat) (q : JournalDie) (s : State) : (setJournal d q s).rewritten = s.rewritten := rfl
@[simp] theorem setJournal_tables (d : Nat) (q : JournalDie) (s : State) : (setJournal d q s).tables = s.tables := rfl
@[simp] theorem setJournal_host (d : Nat) (q : JournalDie) (s : State) : (setJournal d q s).host = s.host := rfl
@[simp] theorem setJournal_windows (d : Nat) (q : JournalDie) (s : State) : (setJournal d q s).windows = s.windows := rfl
@[simp] theorem setJournal_reduce (d : Nat) (q : JournalDie) (s : State) : (setJournal d q s).reduce = s.reduce := rfl
@[simp] theorem setJournal_gal (d : Nat) (q : JournalDie) (s : State) : (setJournal d q s).gal = s.gal := rfl
@[simp] theorem setJournal_steer (d : Nat) (q : JournalDie) (s : State) : (setJournal d q s).steer = s.steer := rfl
@[simp] theorem setJournal_tarvy (d : Nat) (q : JournalDie) (s : State) : (setJournal d q s).tarvy = s.tarvy := rfl
@[simp] theorem setJournal_board (d : Nat) (q : JournalDie) (s : State) : (setJournal d q s).board = s.board := rfl
@[simp] theorem setJournal_free (d : Nat) (q : JournalDie) (s : State) : (setJournal d q s).free = s.free := rfl
@[simp] theorem setJournal_out (d : Nat) (q : JournalDie) (s : State) : (setJournal d q s).out = s.out := rfl
@[simp] theorem setJournal_pending (d : Nat) (q : JournalDie) (s : State) : (setJournal d q s).pending = s.pending := rfl
@[simp] theorem setJournal_reg_of (d : Nat) (q : JournalDie) (s : State) (j : Nat) : (setJournal d q s).reg j = s.reg j := by simp only [State.reg, setJournal_regs]
@[simp] theorem setJournal_tile_of (d : Nat) (q : JournalDie) (s : State) (j : Nat) : (setJournal d q s).tile j = s.tile j := by simp only [State.tile, setJournal_tiles]
@[simp] theorem setJournal_blob_of (d : Nat) (q : JournalDie) (s : State) (j : Nat) : (setJournal d q s).blob j = s.blob j := by simp only [State.blob, setJournal_blobs]
@[simp] theorem setJournal_bytes_of (d : Nat) (q : JournalDie) (s : State) (x m : Nat) : (setJournal d q s).bytes x m = s.bytes x m := by simp only [State.bytes, setJournal_mem]
@[simp] theorem setJournal_le_of (d : Nat) (q : JournalDie) (s : State) (x m : Nat) : (setJournal d q s).le x m = s.le x m := by simp only [State.le, setJournal_mem]
@[simp] theorem setJournal_coord_of (d : Nat) (q : JournalDie) (s : State)  : (setJournal d q s).coord  = s.coord  := by simp only [State.coord, State.reg, setJournal_regs]

end Sys2Proof.Machine
end

