-- ==== Sys2Proof/Laws/Registers.lean ====
section
/-!
SUPPORT. What the operations over registers, tiles and memory do to what they change: the value read after it.
-/

namespace Sys2Proof.Machine

@[simp] theorem setReg_reg_self (k v : Nat) (s : State) : (setReg k v s).reg k = v := by simp [State.reg, setReg]

theorem setReg_reg (k v j : Nat) (s : State) : (setReg k v s).reg j = if k = j then v else s.reg j := by
  simp only [State.reg, setReg]; exact smGetD_smPut s.regs k j v 0

theorem setReg_reg_ne (k v j : Nat) (s : State) (h : k ≠ j) : (setReg k v s).reg j = s.reg j := by
  simp [setReg_reg, h]

@[simp] theorem bumpReg_reg_self (k n : Nat) (s : State) : (bumpReg k n s).reg k = (s.reg k + n) % 2 ^ counterBits k := by
  simp [bumpReg]

theorem bumpReg_reg (k n j : Nat) (s : State) :
    (bumpReg k n s).reg j = if k = j then (s.reg k + n) % 2 ^ counterBits k else s.reg j := by
  simp only [bumpReg, setReg_reg]

theorem bumpReg_reg_ne (k n j : Nat) (s : State) (h : k ≠ j) : (bumpReg k n s).reg j = s.reg j := by
  simp [bumpReg_reg, h]

@[simp] theorem setBlob_blob_self (k : Nat) (v : List Byte) (s : State) : (setBlob k v s).blob k = v := by
  simp [State.blob, setBlob]

@[simp] theorem setTile_tile_self (k : Nat) (t : Tile) (s : State) : (setTile k t s).tile k = t := by
  simp [State.tile, setTile]

theorem setTile_tile (k j : Nat) (t : Tile) (s : State) : (setTile k t s).tile j = if k = j then t else s.tile j := by
  simp only [State.tile, setTile]; exact smGetD_smPut s.tiles k j t {}

theorem setTile_tile_ne (k j : Nat) (t : Tile) (s : State) (h : k ≠ j) : (setTile k t s).tile j = s.tile j := by
  simp [setTile_tile, h]

@[simp] theorem modTile_tile_self (k : Nat) (f : Tile → Tile) (s : State) : (modTile k f s).tile k = f (s.tile k) := by
  simp [modTile]

theorem modTile_tile_ne (k j : Nat) (f : Tile → Tile) (s : State) (h : k ≠ j) : (modTile k f s).tile j = s.tile j := by
  simp [modTile, setTile_tile_ne k j _ s h]

@[simp] theorem emit_out (o : Out) (s : State) : (emit o s).out = s.out ++ [o] := rfl

@[simp] theorem modTarvy_tarvy (f : Tarvy → Tarvy) (s : State) : (modTarvy f s).tarvy = f s.tarvy := rfl

@[simp] theorem putMem_mem (a : Nat) (bs : List Byte) (s : State) : (putMem a bs s).mem = writeBytes s.mem a bs := rfl

/-- Writing the package's memory keeps its canonical form. -/
theorem putMem_memWf (a : Nat) (bs : List Byte) (s : State) (h : memWf s.mem = true) : memWf (putMem a bs s).mem = true :=
  memWf_writeBytes s.mem a bs h

/-- Bytes read back after `putMem`. -/
theorem putMem_bytes (a : Nat) (bs : List Byte) (s : State) :
    (putMem a bs s).bytes a bs.length = bs := readBytes_writeBytes s.mem a bs

/-- Bytes outside what `putMem` writes. -/
theorem putMem_bytes_outside (a x n : Nat) (bs : List Byte) (s : State)
    (hx : x + n ≤ a ∨ a + bs.length ≤ x) : (putMem a bs s).bytes x n = s.bytes x n :=
  readBytes_writeBytes_outside s.mem a x n bs hx

/-- In OFF an operation that needs power does nothing. -/
theorem powered_off (f : State → State) (s : State) (h : s.life = .off) : powered f s = s := by simp [powered, h]

theorem powered_on (f : State → State) (s : State) (h : s.life ≠ .off) : powered f s = f s := by simp [powered, h]

end Sys2Proof.Machine
end

