-- ==== Sys2Proof/Laws/Canonical.lean ====
section
/-!
SUPPORT. The canonical form of the memories and the maps (Safety.lean) under the elementary updates of State.
-/

set_option linter.all false

namespace Sys2Proof.Machine
open Sys2Proof

theorem Canonical.upd {s t : State} (h : Canonical s) (h1 : t.mem = s.mem) (h2 : t.trunk.mram = s.trunk.mram) (h3 : t.regs = s.regs)
      (h4 : t.tiles = s.tiles) (h5 : (t.early, t.dieTags, t.rings, t.ports, t.host.ports, t.edges) =
      (s.early, s.dieTags, s.rings, s.ports, s.host.ports, s.edges)) : Canonical t := by
  simp only [Prod.mk.injEq] at h5
  obtain ⟨a, b, c, d, e, f⟩ := h5
  refine ⟨h1 ▸ h.mem, h2 ▸ h.mram, h3 ▸ h.regs, h4 ▸ h.tiles, ?_⟩
  unfold partSizes
  rw [a, b, c, d, e, f]
  exact h.sizes

theorem CtxCanonical.upd {s t : TCtx} (h : CtxCanonical s) (h1 : t.mem = s.mem) : CtxCanonical t := by unfold CtxCanonical; rw [h1]; exact h

theorem Canonical.of_mk {v_life v_now v_regs v_blobs v_mem v_bad v_tiles v_store v_startImg v_pages v_early v_job v_step v_ctxs v_pagers v_trunk
      v_evBatch v_evFrames v_flowsTx v_flowsRx v_reads v_txWait v_resendNext v_desc v_adopted v_ports v_rounded v_edges v_samples v_layerReady
      v_dieTags v_rings v_retired v_spareBad v_bypassBad v_retireQ v_history v_stackCounts v_bankHours v_tileHours v_repairRows v_badSeen v_rewritten
      v_tables v_host v_windows v_reduce v_gal v_steer v_recov v_tarvy v_board v_free v_out v_pending} {s : State} (h : Canonical s)
      (h1 : v_mem = s.mem) (h2 : Trunk.mram v_trunk = s.trunk.mram) (h3 : v_regs = s.regs) (h4 : v_tiles = s.tiles) (h5 :
      (v_early, v_dieTags, v_rings, v_ports, HostPort.ports v_host, v_edges) = (s.early, s.dieTags, s.rings, s.ports, s.host.ports, s.edges)) :
    Canonical (State.mk v_life v_now v_regs v_blobs v_mem v_bad v_tiles v_store v_startImg v_pages v_early v_job v_step v_ctxs v_pagers v_trunk
      v_evBatch v_evFrames v_flowsTx v_flowsRx v_reads v_txWait v_resendNext v_desc v_adopted v_ports v_rounded v_edges v_samples v_layerReady
      v_dieTags v_rings v_retired v_spareBad v_bypassBad v_retireQ v_history v_stackCounts v_bankHours v_tileHours v_repairRows v_badSeen v_rewritten
      v_tables v_host v_windows v_reduce v_gal v_steer v_recov v_tarvy v_board v_free v_out v_pending) := Canonical.upd h h1 h2 h3 h4 h5

theorem CtxCanonical.of_mk {v_mem v_tile v_base v_cnt v_evs v_aborts v_free v_satCount v_nonfinCount v_bad v_target} {s : TCtx} (h : CtxCanonical s)
      (h1 : v_mem = s.mem) : CtxCanonical
      (TCtx.mk v_mem v_tile v_base v_cnt v_evs v_aborts v_free v_satCount v_nonfinCount v_bad v_target) := by subst h1; have hc := h; exact hc

theorem Canonical.sized {s t : State} (h : Canonical s) (h1 : t.mem = s.mem) (h2 : t.trunk.mram = s.trunk.mram) (h3 : t.regs = s.regs)
      (h4 : smSorted t.tiles = true) (h5 : partSizes t = ([4, 4, 4, 16, 8], [2, 2, 2, 2])) : Canonical t :=
  ⟨h1 ▸ h.mem, h2 ▸ h.mram, h3 ▸ h.regs, h4, h5⟩

theorem parts_of_sizes {s : State} (h : partSizes s =
      ([4, 4, 4, 16, 8], [2, 2, 2, 2])) : s.early.length = 4 ∧ s.dieTags.length = 4 ∧ s.rings.length = 4 ∧ s.ports.length = 16 ∧ s.host.ports.length
      = 8 ∧ s.edges.map (fun x => x.ends.length) = [2, 2, 2, 2] := by
  unfold partSizes at h
  simp only [Prod.mk.injEq, List.cons.injEq, and_true] at h
  obtain ⟨⟨a, b, c, d, e⟩, f⟩ := h
  exact ⟨a, b, c, d, e, f⟩

theorem sizes_of_parts {s : State} (h1 : s.early.length = 4) (h2 : s.dieTags.length = 4) (h3 : s.rings.length = 4) (h4 : s.ports.length = 16)
      (h5 : s.host.ports.length = 8) (h6 : s.edges.map (fun x => x.ends.length) = [2, 2, 2, 2]) : partSizes s = ([4, 4, 4, 16, 8], [2, 2, 2, 2]) := by
  unfold partSizes
  rw [h1, h2, h3, h4, h5, h6]

theorem map_setAt_same {α β : Type} (g : α → β) (xs : List α) (i : Nat) (a d : α) (h : g a = g (xs.getD i d)) : (setAt xs i a).map g = xs.map g := by
  unfold setAt
  apply List.ext_getElem?
  intro j
  rw [List.getElem?_map, List.getElem?_map, List.getElem?_set]
  split
  · rename_i hj
    subst hj
    split
    · rename_i hl
      rw [List.getElem?_eq_getElem hl, Option.map_some, Option.map_some, h, List.getD_eq_getElem?_getD, List.getElem?_eq_getElem hl]
      simp only [Option.getD_some]
    · rename_i hl
      rw [List.getElem?_eq_none (by omega)]
  · rfl

theorem foldl_canon {α : Type} (g : State → α → State) (xs : List α) (s : State) (hg : ∀ s x, Canonical s → Canonical (g s x))
      (h : Canonical s) : Canonical (xs.foldl g s) := by
  induction xs generalizing s with
  | nil => exact h
  | cons x xs ih => exact ih _ (hg _ _ h)

theorem foldl_canon1 {α β : Type} (g : State × β → α → State × β) (xs : List α) (s : State × β) (hg : ∀ s x, Canonical s.1 → Canonical (g s x).1)
      (h : Canonical s.1) : Canonical (xs.foldl g s).1 := by
  induction xs generalizing s with
  | nil => exact h
  | cons x xs ih => exact ih _ (hg _ _ h)

theorem foldl_canon2 {α β : Type} (g : β × State → α → β × State) (xs : List α) (s : β × State) (hg : ∀ s x, Canonical s.2 → Canonical (g s x).2)
      (h : Canonical s.2) : Canonical (xs.foldl g s).2 := by
  induction xs generalizing s with
  | nil => exact h
  | cons x xs ih => exact ih _ (hg _ _ h)

theorem foldl_ctx {α : Type} (g : TCtx → α → TCtx) (xs : List α) (s : TCtx) (hg : ∀ s x, CtxCanonical s → CtxCanonical (g s x))
      (h : CtxCanonical s) : CtxCanonical (xs.foldl g s) := by
  induction xs generalizing s with
  | nil => exact h
  | cons x xs ih => exact ih _ (hg _ _ h)

theorem foldl_ctx1 {α β : Type} (g : TCtx × β → α → TCtx × β) (xs : List α) (s : TCtx × β) (hg : ∀ s x, CtxCanonical s.1 → CtxCanonical (g s x).1)
      (h : CtxCanonical s.1) : CtxCanonical (xs.foldl g s).1 := by
  induction xs generalizing s with
  | nil => exact h
  | cons x xs ih => exact ih _ (hg _ _ h)

theorem setReg_canon (k v : Nat) (s : State) (h : Canonical s) : Canonical
      (setReg k v s) := ⟨h.mem, h.mram, smSorted_smPut _ _ _ h.regs, h.tiles, h.sizes⟩

theorem early_canon (d : Nat) (q : List EarlyItem) (s : State) (h_s : Canonical s) : Canonical { s with early := setAt s.early d q } := by
  obtain ⟨a, b, c, d, e, f⟩ := parts_of_sizes h_s.sizes
  exact Canonical.sized h_s rfl rfl rfl h_s.tiles (sizes_of_parts ((List.length_set ..).trans a) b c d e f)

theorem setTile_canon (k : Nat) (t : Tile) (s : State) (h : Canonical s) : Canonical
      (setTile k t s) := ⟨h.mem, h.mram, h.regs, smSorted_smPut _ _ _ h.tiles, h.sizes⟩

theorem putMem_canon (a : Nat) (bs : List Byte) (s : State) (h : Canonical s) : Canonical
      (putMem a bs s) := ⟨memWf_writeBytes _ _ _ h.mem, h.mram, h.regs, h.tiles, h.sizes⟩

theorem smSortedFrom_map {α : Type} (f : Nat × α → Nat × α) (hf : ∀ p, (f p).1 = p.1) (m : SMap α) (lo : Option Nat)
      (h : smSortedFrom lo m = true) : smSortedFrom lo (m.map f) = true := by
  induction m generalizing lo with
  | nil => cases lo <;> rfl
  | cons c m ih =>
    obtain ⟨k, w⟩ := c
    have : f (k, w) = (k, (f (k, w)).2) := Prod.ext (hf (k, w)) rfl
    rw [List.map_cons, this]
    cases lo <;> simp_all [smSortedFrom]

theorem smSorted_map {α : Type} (f : Nat × α → Nat × α) (hf : ∀ p, (f p).1 = p.1) (m : SMap α) (h : smSorted m = true) : smSorted
      (m.map f) = true := smSortedFrom_map f hf m none h

theorem tilesMap_canon (f : Nat × Tile → Nat × Tile) (hf : ∀ p, (f p).1 = p.1) (s : State)
      (h : Canonical s) : Canonical { s with tiles := s.tiles.map f } :=
  ⟨h.mem, h.mram, h.regs, smSorted_map f hf _ h.tiles, h.sizes⟩

theorem Canonical.of_map {v_life v_now v_regs v_blobs v_mem v_bad v_tiles v_store v_startImg v_pages v_early v_job v_step v_ctxs v_pagers v_trunk
      v_evBatch v_evFrames v_flowsTx v_flowsRx v_reads v_txWait v_resendNext v_desc v_adopted v_ports v_rounded v_edges v_samples v_layerReady
      v_dieTags v_rings v_retired v_spareBad v_bypassBad v_retireQ v_history v_stackCounts v_bankHours v_tileHours v_repairRows v_badSeen v_rewritten
      v_tables v_host v_windows v_reduce v_gal v_steer v_recov v_tarvy v_board v_free v_out v_pending} {s : State} {g : Nat × Tile → Nat × Tile}
      (h : Canonical s) (h1 : v_mem = s.mem) (h2 : Trunk.mram v_trunk = s.trunk.mram) (h3 : v_regs = s.regs) (h4 : v_tiles = s.tiles.map g) (h6 :
      (v_early, v_dieTags, v_rings, v_ports, HostPort.ports v_host, v_edges) = (s.early, s.dieTags, s.rings, s.ports, s.host.ports, s.edges))
      (h5 : ∀ p, (g p).1 = p.1) :
    Canonical (State.mk v_life v_now v_regs v_blobs v_mem v_bad v_tiles v_store v_startImg v_pages v_early v_job v_step v_ctxs v_pagers v_trunk
      v_evBatch v_evFrames v_flowsTx v_flowsRx v_reads v_txWait v_resendNext v_desc v_adopted v_ports v_rounded v_edges v_samples v_layerReady
      v_dieTags v_rings v_retired v_spareBad v_bypassBad v_retireQ v_history v_stackCounts v_bankHours v_tileHours v_repairRows v_badSeen v_rewritten
      v_tables v_host v_windows v_reduce v_gal v_steer v_recov v_tarvy v_board v_free v_out v_pending) := by
  have h7 : Canonical { s with tiles := s.tiles.map g } := ⟨h.mem, h.mram, h.regs, smSorted_map g h5 _ h.tiles, h.sizes⟩
  exact Canonical.upd h7 h1 h2 h3 h4 h6

theorem powered_canon (f : State → State) (s : State) (hf : ∀ s, Canonical s → Canonical (f s)) (h : Canonical s) : Canonical (powered f s) := by
  unfold powered; split; exact h; exact hf _ h

theorem allOf_canon {α : Type} (xs : List α) (f : α → State → State) (s : State) (hf : ∀ x s, Canonical s → Canonical (f x s))
      (h : Canonical s) : Canonical (allOf xs f s) := by
  unfold allOf; exact foldl_canon _ _ _ (fun s x hs => hf x s hs) h

theorem tcWrite_canon (c : TCtx) (a : Nat) (bs : List Byte) (h : CtxCanonical c) : CtxCanonical (tcWrite c a bs) := by
  induction bs generalizing c a with
  | nil => exact h
  | cons b bs ih => exact ih _ _ (memWf_writeByte _ _ _ h)

theorem drainTrunk_mram (t : Trunk) (h : memWf t.mram = true) : memWf (drainTrunk t).mram = true := by
  unfold drainTrunk
  split
  · exact h
  · unfold writeEntry; dsimp only; split
    · unfold writeHeader; exact memWf_writeBytes _ _ _ (memWf_writeBytes _ _ _ h)
    · exact memWf_writeBytes _ _ _ h

theorem trunkPost_canon (ring kind die payload : Nat) (s : State) (h : Canonical s) : Canonical (trunkPost ring kind die payload s) := by
  unfold trunkPost
  by_cases h1 : s.trunk.closed = true
  · simp [h1, h]
  · by_cases h2 : 256 ≤ s.trunk.queue.length
    · simp only [h1, h2, decide_true, if_true]
      exact ⟨h.mem, drainTrunk_mram _ h.mram, smSorted_smPut _ _ _ h.regs, h.tiles, h.sizes⟩
    · simp only [h1, h2, decide_false]
      exact ⟨h.mem, h.mram, h.regs, h.tiles, h.sizes⟩

theorem tileCtx_canon (k : Nat) (s : State) (h : Canonical s) : CtxCanonical (tileCtx k s) := h.mem

theorem bumpReg_canon (k n : Nat) (s : State) (h : Canonical s) : Canonical (bumpReg k n s) := setReg_canon _ _ _ h

theorem mapTiles_canon (f : Tile → Tile) (s : State) (h : Canonical s) : Canonical (mapTiles f s) := tilesMap_canon (fun p => (p.1, f p.2))
      (fun _ => rfl) _ h

theorem StageCanonical.bind (r : Stage) (k : State → Stage) (h : StageCanonical r) (hk : ∀ s, Canonical s → StageCanonical (k s)) : StageCanonical
      (r >>= k) := by
  cases r with
  | ok s => exact hk s h
  | error s => exact h

theorem StageCanonical.ok (s : State) (h : Canonical s) : StageCanonical (.ok s) := h

theorem StageCanonical.pure (s : State) (h : Canonical s) : StageCanonical (Pure.pure s) := h

theorem StageCanonical.error (s : State) (h : Canonical s) : StageCanonical (.error s) := h

theorem stageState_canon (r : Stage) (h : StageCanonical r) : Canonical (stageState r) := h

theorem foldl_memWf (cells : Memory) (m : Memory) (h : memWf m = true) : memWf (cells.foldl (fun m c => writeByte m c.1 c.2) m) = true := by
  induction cells generalizing m with
  | nil => exact h
  | cons c cs ih => exact ih _ (memWf_writeByte _ _ _ h)

theorem smSortedFrom_filter {α : Type} (p : Nat × α → Bool) (m : SMap α) (lo : Option Nat) (h : smSortedFrom lo m = true) : smSortedFrom lo
      (m.filter p) = true := by
  induction m generalizing lo with
  | nil => cases lo <;> rfl
  | cons c m ih =>
    obtain ⟨k, w⟩ := c
    have h1 : smSortedFrom (some k) m = true := by cases lo <;> simp_all [smSortedFrom]
    by_cases hp : p (k, w) = true
    · rw [List.filter_cons_of_pos hp]
      have := ih (some k) h1
      cases lo <;> simp_all [smSortedFrom]
    · rw [List.filter_cons_of_neg hp]
      have h2 := ih (some k) h1
      cases lo with
      | none => exact smSortedFrom_none _ k h2
      | some l =>
        simp only [smSortedFrom, Bool.and_eq_true, decide_eq_true_eq] at h
        exact smSortedFrom_weaken _ k l h2 (by omega)

theorem memWf_filter (p : Host.Cell → Bool) (m : Memory) (h : memWf m = true) : memWf (m.filter p) = true := by
  simp only [memWf, Bool.and_eq_true] at h ⊢
  refine ⟨smSortedFrom_filter p m none h.1, ?_⟩
  rw [List.all_eq_true] at h ⊢
  intro x hx
  exact h.2 x (List.mem_of_mem_filter hx)

theorem writeEntry_mram (t : Trunk) (ring : Nat) (e : List Byte) (h : memWf t.mram = true) : memWf (writeEntry t ring e).mram = true := by
  unfold writeEntry; dsimp only; split
  · unfold writeHeader; exact memWf_writeBytes _ _ _ (memWf_writeBytes _ _ _ h)
  · exact memWf_writeBytes _ _ _ h

theorem flushTrunk_mram (t : Trunk) (h : memWf t.mram = true) : memWf (flushTrunk t).mram = true := by
  unfold flushTrunk
  generalize t.queue = q
  induction q generalizing t with
  | nil => exact h
  | cons x q ih => exact ih _ (drainTrunk_mram _ h)

theorem recoverTrunk_mram (m : Memory) (h : memWf m = true) : memWf (recoverTrunk m).mram = true := by
  unfold recoverTrunk; dsimp only; repeat' split
  all_goals exact h

theorem foldl_writeEntry (q : List (Nat × List Byte)) (t : Trunk) (h : memWf t.mram = true) : memWf (q.foldl
      (fun t q => writeEntry t 2 q.2) t).mram = true := by
  induction q generalizing t with
  | nil => exact h
  | cons x q ih => exact ih _ (writeEntry_mram _ _ _ h)

theorem holdUp_mram (n : Nat) (s : State) (h : Canonical s) : memWf (holdUp n s).mram = true := by
  unfold holdUp writeHeader; dsimp only
  exact memWf_writeBytes _ _ _ (writeEntry_mram _ _ _ (foldl_writeEntry _ _ h.mram))

theorem dictDefaults_sorted : smSorted dictDefaults = true := by decide +kernel

theorem keepCounts_sorted (s : State) (h : smSorted s.tiles = true) : smSorted (keepCounts s) = true := by
  unfold keepCounts
  exact smSorted_map (fun (p : Nat × Tile) => (p.1, ({ pfRead := p.2.pfRead, pfUsed := p.2.pfUsed } : Tile))) (fun _ => rfl) s.tiles h

end Sys2Proof.Machine
end

