-- ==== Sys2Proof/Laws/CanonicalShared.lean ====
section
/-!
SUPPORT. The canonical form is kept by the shared operations: registers, events, flow 10, judging, the ring, the links and the network.
-/

set_option linter.all false

namespace Sys2Proof.Machine
open Sys2Proof

theorem tcBump_canon (c : TCtx) (idx : Tally) (sub k : Nat) (h_c : CtxCanonical c) : CtxCanonical (tcBump c idx sub k) := by
  unfold tcBump
  try dsimp only
  repeat' first | with_reducible assumption | split | with_reducible refine CtxCanonical.of_mk ?_ rfl

theorem tcEvent_canon (c : TCtx) (code : Nat) (h_c : CtxCanonical c) : CtxCanonical (tcEvent c code) := by
  unfold tcEvent
  try dsimp only
  repeat' first | with_reducible assumption | with_reducible refine CtxCanonical.of_mk ?_ rfl

theorem tcProgFault_canon (c : TCtx) (h_c : CtxCanonical c) : CtxCanonical (tcProgFault c) := by
  unfold tcProgFault
  try dsimp only
  repeat' first | with_reducible assumption | with_reducible apply tcBump_canon | with_reducible refine CtxCanonical.of_mk ?_ rfl

theorem tcProgError_canon (c : TCtx) (code : Nat) (h_c : CtxCanonical c) : CtxCanonical (tcProgError c code) := by
  unfold tcProgError
  try dsimp only
  repeat' first | with_reducible assumption | with_reducible refine CtxCanonical.of_mk ?_ rfl

theorem tcWriteNib_canon (c : TCtx) (na nibs bits : Nat) (h_c : CtxCanonical c) : CtxCanonical (tcWriteNib c na nibs bits) := by
  unfold tcWriteNib
  try dsimp only
  repeat' first | with_reducible assumption | with_reducible apply tcWrite_canon | split

theorem tcUncorrectable_canon (c : TCtx) (h_c : CtxCanonical c) : CtxCanonical (tcUncorrectable c) := by
  unfold tcUncorrectable
  try dsimp only
  repeat' first | with_reducible assumption | with_reducible apply tcBump_canon | with_reducible refine CtxCanonical.of_mk ?_ rfl

theorem tcFlags_canon (c : TCtx) (fl : ExcFlags) (h_c : CtxCanonical c) : CtxCanonical (tcFlags c fl) := by
  unfold tcFlags
  try dsimp only
  repeat' first | with_reducible assumption | with_reducible apply tcBump_canon | with_reducible refine CtxCanonical.of_mk ?_ rfl

theorem tcLane_canon (c : TCtx) (r : LaneRes) (h_c : CtxCanonical c) : CtxCanonical (tcLane c r) := by
  unfold tcLane
  try dsimp only
  repeat' first | with_reducible assumption | with_reducible (first | apply tcBump_canon | apply tcFlags_canon)

theorem tcConv_canon (c : TCtx) (r : Conv) (h_c : CtxCanonical c) : CtxCanonical (tcConv c r) := by
  unfold tcConv
  try dsimp only
  repeat' first | with_reducible assumption | with_reducible (first | apply tcBump_canon | apply tcFlags_canon)

theorem tcPutByte_canon (c : TCtx) (a v : Nat) (h_c : CtxCanonical c) : CtxCanonical (tcPutByte c a v) := by
  unfold tcPutByte
  try dsimp only
  repeat' first | with_reducible assumption | with_reducible apply tcWrite_canon

theorem tcOutside_canon (c : TCtx) (n : Nat) (h_c : CtxCanonical c) : CtxCanonical (tcOutside c n) := by
  unfold tcOutside
  try dsimp only
  repeat' first | with_reducible assumption | with_reducible (first | apply tcBump_canon | apply tcEvent_canon)

theorem tcEncore_canon (c : TCtx) (k sat nonfin : Nat) (h_c : CtxCanonical c) : CtxCanonical (tcEncore c k sat nonfin) := by
  unfold tcEncore
  try dsimp only
  repeat' first | with_reducible assumption | with_reducible refine CtxCanonical.of_mk ?_ rfl

theorem tcWatch_canon (c : TCtx) (na : Nat) (ovf nonfin : Bool) (h_c : CtxCanonical c) : CtxCanonical (tcWatch c na ovf nonfin) := by
  unfold tcWatch
  try dsimp only
  repeat' first | with_reducible assumption | with_reducible (first | apply tcEncore_canon | apply foldl_ctx | apply foldl_ctx1) | split | intro _

theorem tcSide_canon (c : TCtx) (e : ScaleEntry) (i : Nat) (o : OutElem) (h_c : CtxCanonical c) : CtxCanonical (tcSide c e i o) := by
  unfold tcSide
  try dsimp only
  repeat' first
    | with_reducible assumption
    | with_reducible
        first | apply tcBump_canon | apply tcConv_canon | apply tcWatch_canon | apply tcWrite_canon

theorem tcCodedElem_canon (e : ScaleEntry) (code : Nat) (st : TCtx × List OutBits) (o : OutElem) (h_st : CtxCanonical st.1) : CtxCanonical
      (tcCodedElem e code st o).1 := by
  unfold tcCodedElem
  try dsimp only
  repeat' first | with_reducible assumption | with_reducible (first | apply tcConv_canon | apply tcSide_canon | apply tcWatch_canon) | split | intro _

theorem tcSpan_canon (e : ScaleEntry) (os : List OutElem) (st : TCtx × List OutBits) (n : Nat) (h_st : CtxCanonical st.1) : CtxCanonical
      (tcSpan e os st n).1 := by
  unfold tcSpan
  try dsimp only
  repeat' first
    | with_reducible assumption
    | with_reducible
        first | apply tcBump_canon | apply tcCodedElem_canon | apply tcEncore_canon | apply tcEvent_canon | apply tcPutByte_canon | apply foldl_ctx
              | apply foldl_ctx1
    | split | intro _

theorem tcPlainElem_canon (fmt : Nat) (mode : RMode) (satF : Bool) (st : TCtx × List OutBits) (o : OutElem)
      (h_st : CtxCanonical st.1) : CtxCanonical (tcPlainElem fmt mode satF st o).1 := by
  unfold tcPlainElem
  try dsimp only
  repeat' first
    | with_reducible assumption
    | with_reducible
        first | apply tcConv_canon | apply tcOutside_canon | apply tcWatch_canon
    | split | intro _

theorem tcEncodeAll_canon (c : TCtx) (fmt : Nat) (mode : RMode) (satF : Bool) (os : List OutElem) (h_c : CtxCanonical c) : CtxCanonical
      (tcEncodeAll c fmt mode satF os).1 := by
  unfold tcEncodeAll
  try dsimp only
  repeat' first
    | with_reducible assumption
    | with_reducible
        first | apply tcPlainElem_canon | apply tcSpan_canon | apply foldl_ctx | apply foldl_ctx1
    | split | intro _

theorem tcPutBits_canon (c : TCtx) (bs : List OutBits) (h_c : CtxCanonical c) : CtxCanonical (tcPutBits c bs) := by
  unfold tcPutBits
  try dsimp only
  repeat' first | with_reducible assumption | with_reducible (first | apply tcWriteNib_canon | apply foldl_ctx | apply foldl_ctx1) | intro _

theorem satReg_canon (k n : Nat) (s : State) (h_s : Canonical s) : Canonical (satReg k n s) := by
  unfold satReg
  try dsimp only
  repeat' first | with_reducible assumption | with_reducible apply setReg_canon

theorem highReg_canon (k n : Nat) (s : State) (h_s : Canonical s) : Canonical (highReg k n s) := by
  unfold highReg
  try dsimp only
  repeat' first | with_reducible assumption | with_reducible apply setReg_canon

theorem setBlob_canon (k : Nat) (v : List Byte) (s : State) (h_s : Canonical s) : Canonical (setBlob k v s) := by
  unfold setBlob
  try dsimp only
  repeat' first | with_reducible assumption | with_reducible refine Canonical.of_mk ?_ rfl rfl rfl rfl rfl

theorem emit_canon (o : Out) (s : State) (h_s : Canonical s) : Canonical (emit o s) := by
  unfold emit
  try dsimp only
  repeat' first | with_reducible assumption | with_reducible refine Canonical.of_mk ?_ rfl rfl rfl rfl rfl

theorem freeBytes_canon (n : Nat) (s : State) (h_s : Canonical s) : Canonical (freeBytes n s).2 := by
  unfold freeBytes
  try dsimp only
  repeat' first | with_reducible assumption | intro _ | with_reducible refine Canonical.of_mk ?_ rfl rfl rfl rfl rfl

theorem modTile_canon (k : Nat) (f : Tile → Tile) (s : State) (h_s : Canonical s) : Canonical (modTile k f s) := by
  unfold modTile
  try dsimp only
  repeat' first | with_reducible assumption | with_reducible apply setTile_canon

theorem batchEvent_canon (e : EventRec) (s : State) (h_s : Canonical s) : Canonical (batchEvent e s) := by
  unfold batchEvent
  try dsimp only
  repeat' first | with_reducible assumption | split | intro _ | with_reducible refine Canonical.of_mk ?_ rfl rfl rfl rfl rfl

theorem raiseUnit_canon (code unit sub op : Nat) (s : State) (h_s : Canonical s) : Canonical (raiseUnit code unit sub op s) := by
  unfold raiseUnit
  try dsimp only
  repeat' first | with_reducible assumption | with_reducible (first | apply batchEvent_canon | apply trunkPost_canon)

theorem raiseAt_canon (code die tile sub op : Nat) (s : State) (h_s : Canonical s) : Canonical (raiseAt code die tile sub op s) := by
  unfold raiseAt
  try dsimp only
  repeat' first | with_reducible assumption | with_reducible apply raiseUnit_canon

theorem raise__canon (code : Nat) (s : State) (h_s : Canonical s) : Canonical (raise_ code s) := by
  unfold raise_
  try dsimp only
  repeat' first | with_reducible assumption | with_reducible apply raiseAt_canon

theorem enter_canon (p : PkgState) (cause : Nat) (s : State) (h_s : Canonical s) : Canonical (enter p cause s) := by
  unfold enter
  try dsimp only
  repeat' first
    | with_reducible assumption
    | with_reducible
        first | apply setReg_canon | apply trunkPost_canon
    | split | with_reducible refine Canonical.of_mk ?_ rfl rfl rfl rfl rfl

theorem abortAttempt_canon (cause : Nat) (s : State) (h_s : Canonical s) : Canonical (abortAttempt cause s) := by
  unfold abortAttempt
  try dsimp only
  repeat' first
    | with_reducible assumption
    | with_reducible
        first | apply bumpReg_canon | apply setReg_canon | apply foldl_canon | apply foldl_canon1 | apply foldl_canon2
    | split | intro _ | with_reducible refine Canonical.of_mk ?_ rfl rfl rfl rfl rfl | with_reducible refine Canonical.of_map ?_ rfl rfl rfl rfl rfl (fun _ => rfl)

theorem holdNow_canon (cause : Nat) (s : State) (h_s : Canonical s) : Canonical (holdNow cause s) := by
  unfold holdNow
  try dsimp only
  repeat' first | with_reducible assumption | with_reducible apply enter_canon | split | with_reducible refine Canonical.of_mk ?_ rfl rfl rfl rfl rfl

theorem setRing_canon (d : Nat) (r : Ring) (s : State) (h_s : Canonical s) : Canonical (setRing d r s) := by
  obtain ⟨a, b, c, d, e, f⟩ := parts_of_sizes h_s.sizes
  exact Canonical.sized h_s rfl rfl rfl h_s.tiles (sizes_of_parts a b ((List.length_set ..).trans c) d e f)


theorem dispatchOne_canon (d : Nat) (s t : State) (h_s : Canonical s) (h : dispatchOne d s = some t) : Canonical t := by
  unfold dispatchOne at h
  dsimp only at h
  split at h
  · cases h
  · split at h
    · cases h
    · cases h
      exact emit_canon _ _ (bumpReg_canon _ _ _ (setRing_canon _ _ _ h_s))


theorem preemptAll_canon (d : Nat) (s : State) (h_s : Canonical s) : Canonical (preemptAll d s) := by
  unfold preemptAll
  try dsimp only
  repeat' first
    | with_reducible assumption
    | with_reducible
        first | apply bumpReg_canon | apply setRing_canon | apply foldl_canon | apply foldl_canon1 | apply foldl_canon2
    | split | intro _ | with_reducible refine Canonical.of_mk ?_ rfl rfl rfl rfl rfl

theorem settleFuel_canon (d n : Nat) (s : State) (h_s : Canonical s) : Canonical (settleFuel d n s) := by
  induction n generalizing s with
  | zero => exact h_s
  | succ n ih =>
    simp only [settleFuel]
    split
    · exact ih _ (setRing_canon _ _ _ h_s)
    · split
      · exact ih _ (dispatchOne_canon _ _ _ h_s ‹_›)
      · exact h_s


theorem settle_canon (d : Nat) (s : State) (h_s : Canonical s) : Canonical (settle d s) := by
  unfold settle
  try dsimp only
  repeat' first | with_reducible assumption | with_reducible (first | apply preemptAll_canon | apply settleFuel_canon)

theorem postItem_canon (d flow : Nat) (item : BitVec 256) (s : State) (h_s : Canonical s) : Canonical (postItem d flow item s).1 := by
  unfold postItem
  try dsimp only
  repeat' first
    | with_reducible assumption
    | with_reducible
        first | apply highReg_canon | apply setRing_canon | apply settle_canon
    | split | with_reducible refine Canonical.of_mk ?_ rfl rfl rfl rfl rfl

theorem enterFault_canon (cause : Nat) (s : State) (h_s : Canonical s) : Canonical (enterFault cause s) := by
  unfold enterFault
  dsimp only
  have h : Canonical (allOf [0x200405, 0x200406, 0x200407, 0x200408] (fun k => setReg k 620) (setReg 0x200801 1000 (setReg 0x400007 0
      (enter .fault cause s)))) :=
    allOf_canon _ _ _ (fun x s hs => setReg_canon _ _ s hs) (setReg_canon _ _ _ (setReg_canon _ _ _ (enter_canon _ _ _ h_s)))
  generalize allOf _ _ _ = u at h
  obtain ⟨a, b, c, d, e, f⟩ := parts_of_sizes h.sizes
  exact Canonical.sized h rfl rfl rfl h.tiles (sizes_of_parts a b ((List.length_map ..).trans c) ((List.length_map ..).trans d) e f)


theorem judgeEntry_canon (unit source outcome : Nat) (s : State) (h_s : Canonical s) : Canonical (judgeEntry unit source outcome s) := by
  unfold judgeEntry
  try dsimp only
  repeat' first | with_reducible assumption | with_reducible (first | apply setBlob_canon | apply trunkPost_canon)

theorem judgePermanent_canon (unit source : Nat) (s : State) (h_s : Canonical s) : Canonical (judgePermanent unit source s) := by
  unfold judgePermanent
  try dsimp only
  repeat' first
    | with_reducible assumption
    | with_reducible
        first | apply abortAttempt_canon | apply bumpReg_canon | apply enterFault_canon | apply judgeEntry_canon | apply raiseAt_canon
    | split | intro _ | with_reducible refine Canonical.of_mk ?_ rfl rfl rfl rfl rfl

theorem judgePassed_canon (unit source : Nat) (s : State) (h_s : Canonical s) : Canonical (judgePassed unit source s) := by
  unfold judgePassed
  try dsimp only
  repeat' first
    | with_reducible assumption
    | with_reducible
        first | apply bumpReg_canon | apply judgeEntry_canon | apply judgePermanent_canon | apply raiseAt_canon
    | split | with_reducible refine Canonical.of_mk ?_ rfl rfl rfl rfl rfl

theorem suspectUnit_canon (source unit : Nat) (s : State) (h_s : Canonical s) : Canonical (suspectUnit source unit s) := by
  unfold suspectUnit
  try dsimp only
  repeat' first
    | with_reducible assumption | with_reducible apply judgePermanent_canon | split | intro _ | with_reducible refine Canonical.of_mk ?_ rfl rfl rfl rfl rfl

theorem judgeAttempt_canon (cause : Nat) (s : State) (h_s : Canonical s) : Canonical (judgeAttempt cause s) := by
  unfold judgeAttempt
  try dsimp only
  repeat' first
    | with_reducible assumption
    | with_reducible
        first | apply allOf_canon | apply judgePassed_canon
    | intro _ | with_reducible refine Canonical.of_mk ?_ rfl rfl rfl rfl rfl

theorem modPort_canon (p : Nat) (f : MidPort → MidPort) (s : State) (h_s : Canonical s) : Canonical (modPort p f s) := by
  obtain ⟨a, b, c, d, e, f⟩ := parts_of_sizes h_s.sizes
  exact Canonical.sized h_s rfl rfl rfl h_s.tiles (sizes_of_parts a b c ((List.length_set ..).trans d) e f)


theorem discardMsg_canon (code d : Nat) (m : Msg) (s : State) (h_s : Canonical s) : Canonical (discardMsg code d m s) := by
  unfold discardMsg
  try dsimp only
  repeat' first | with_reducible assumption | with_reducible (first | apply bumpReg_canon | apply raiseAt_canon) | split

theorem sampleHeader_canon (p : Nat) (sent : Bool) (vc qocc cred : Nat) (m : Msg) (s : State) (h_s : Canonical s) : Canonical
      (sampleHeader p sent vc qocc cred m s) := by
  unfold sampleHeader
  try dsimp only
  repeat' first
    | with_reducible assumption | with_reducible apply modPort_canon | split | intro _ | with_reducible refine Canonical.of_mk ?_ rfl rfl rfl rfl rfl

theorem pumpPort_canon (p : Nat) (reply : Bool) (s : State) (h_s : Canonical s) : Canonical (pumpPort p reply s) := by
  unfold pumpPort
  try dsimp only
  repeat' first
    | with_reducible assumption
    | with_reducible
        first | apply allOf_canon | apply emit_canon | apply modPort_canon
    | split | intro _ | with_reducible refine Canonical.of_mk ?_ rfl rfl rfl rfl rfl

theorem handToPort_canon (p vc : Nat) (m : Msg) (s : State) (h_s : Canonical s) : Canonical (handToPort p vc m s) := by
  unfold handToPort
  try dsimp only
  repeat' first
    | with_reducible assumption
    | with_reducible
        first | apply modPort_canon | apply pumpPort_canon | apply sampleHeader_canon
    | intro _ | with_reducible refine Canonical.of_mk ?_ rfl rfl rfl rfl rfl

theorem leaveBy_canon (pair base cls : Nat) (m : Msg) (d : Nat) (s : State) (h_s : Canonical s) : Canonical (leaveBy pair base cls m d s) := by
  unfold leaveBy
  try dsimp only
  repeat' first
    | with_reducible assumption
    | with_reducible
        first | apply discardMsg_canon | apply handToPort_canon
    | split | with_reducible refine Canonical.of_mk ?_ rfl rfl rfl rfl rfl

theorem routeOut_canon (d : Nat) (inPair : Option (Nat × Nat)) (m : Msg) (s : State) (h_s : Canonical s) : Canonical (routeOut d inPair m s) := by
  unfold routeOut
  extract_lets desc dst partner alt base nextPair inCls sameDim ringIn k here minus cls n far isFar
  clear_value alt base nextPair inCls sameDim ringIn cls isFar
  repeat' first
    | with_reducible assumption
    | with_reducible
        first | apply discardMsg_canon | apply leaveBy_canon | apply bumpReg_canon | apply raiseAt_canon
    | split | intro _ | with_reducible refine Canonical.of_mk ?_ rfl rfl rfl rfl rfl


theorem setTx_canon (k : Nat) (f : FlowTx) (s : State) (h_s : Canonical s) : Canonical (setTx k f s) := by
  unfold setTx
  try dsimp only
  repeat' first | with_reducible assumption | with_reducible refine Canonical.of_mk ?_ rfl rfl rfl rfl rfl

theorem setRx_canon (k : Nat) (f : FlowRx) (s : State) (h_s : Canonical s) : Canonical (setRx k f s) := by
  unfold setRx
  try dsimp only
  repeat' first | with_reducible assumption | with_reducible refine Canonical.of_mk ?_ rfl rfl rfl rfl rfl

theorem sendWaiting_canon (w : Waiting) (s : State) (h_s : Canonical s) : Canonical (sendWaiting w s) := by
  unfold sendWaiting
  try dsimp only
  repeat' first
    | with_reducible assumption
    | with_reducible
        first | apply highReg_canon | apply routeOut_canon | apply setTx_canon
    | with_reducible refine Canonical.of_mk ?_ rfl rfl rfl rfl rfl

theorem sendMsg_canon (die : Nat) (owner : Option (Nat × Nat)) (m : Msg) (s : State) (h_s : Canonical s) : Canonical (sendMsg die owner m s) := by
  unfold sendMsg
  try dsimp only
  repeat' first
    | with_reducible assumption | with_reducible apply sendWaiting_canon | split | intro _ | with_reducible refine Canonical.of_mk ?_ rfl rfl rfl rfl rfl

theorem sendBare_canon (die : Nat) (m : Msg) (s : State) (h_s : Canonical s) : Canonical (sendBare die m s) := by
  unfold sendBare
  try dsimp only
  repeat' first | with_reducible assumption | with_reducible apply routeOut_canon | with_reducible refine Canonical.of_mk ?_ rfl rfl rfl rfl rfl

theorem admitWaiting_canon (ws : List Waiting) (s : State) (h_s : Canonical s) : Canonical (admitWaiting ws s) := by
  induction ws generalizing s with
  | nil => exact h_s
  | cons w ws ih =>
    simp only [admitWaiting]
    split
    · exact ih _ (Canonical.upd h_s rfl rfl rfl rfl rfl)
    · exact ih _ (sendWaiting_canon _ _ h_s)


theorem retryWaiting_canon (s : State) (h_s : Canonical s) : Canonical (retryWaiting s) := by
  unfold retryWaiting
  try dsimp only
  repeat' first | with_reducible assumption | with_reducible apply admitWaiting_canon | with_reducible refine Canonical.of_mk ?_ rfl rfl rfl rfl rfl

theorem progFault_canon (k op : Nat) (s : State) (h_s : Canonical s) : Canonical (progFault k op s) := by
  unfold progFault
  try dsimp only
  repeat' first
    | with_reducible assumption
    | with_reducible
        first | apply abortAttempt_canon | apply bumpReg_canon | apply raiseAt_canon | apply suspectUnit_canon

theorem progError_canon (k code op : Nat) (s : State) (h_s : Canonical s) : Canonical (progError k code op s) := by
  unfold progError
  try dsimp only
  repeat' first | with_reducible assumption | with_reducible (first | apply abortAttempt_canon | apply bumpReg_canon | apply raiseAt_canon) | split

theorem outOfRange_canon (k : Nat) (a : Nat) (s : State) (h_s : Canonical s) : Canonical (outOfRange k a s) := by
  unfold outOfRange
  try dsimp only
  repeat' first | with_reducible assumption | with_reducible apply progError_canon

theorem sramUncorrectable_canon (k : Nat) (a : Nat) (s : State) (h_s : Canonical s) : Canonical (sramUncorrectable k a s) := by
  unfold sramUncorrectable
  try dsimp only
  repeat' first
    | with_reducible assumption
    | with_reducible
        first | apply abortAttempt_canon | apply bumpReg_canon | apply raiseAt_canon | apply suspectUnit_canon

theorem addToken_canon (k : Nat) (tk : Fin 64) (cnt : Nat) (s : State) (h_s : Canonical s) : Canonical (addToken k tk cnt s) := by
  unfold addToken
  try dsimp only
  repeat' first
    | with_reducible assumption
    | with_reducible
        first | apply progFault_canon | apply setTile_canon
    | split | intro _ | with_reducible refine Canonical.of_mk ?_ rfl rfl rfl rfl rfl

theorem putLine_canon (k local_ : Nat) (bs : List Byte) (s : State) (h_s : Canonical s) : Canonical (putLine k local_ bs s) := by
  unfold putLine
  try dsimp only
  repeat' first
    | with_reducible assumption
    | with_reducible
        first | apply modTile_canon | apply putMem_canon
    | intro _ | with_reducible refine Canonical.of_mk ?_ rfl rfl rfl rfl rfl

theorem byTag_canon (d : Nat) (cur tag : BitVec 12) (item : EarlyItem) (apply : State → State) (s : State) (h_apply : ∀
      (x0 : State), Canonical x0 → Canonical (apply x0)) (h_s : Canonical s) : Canonical (byTag d cur tag item apply s) := by
  unfold byTag
  dsimp only
  repeat' first
    | exact early_canon _ _ _ h_s | with_reducible assumption
    | with_reducible
        first | apply h_apply | apply bumpReg_canon | apply highReg_canon | apply early_canon
    | split


theorem arriveLine_canon (k : Nat) (tag : BitVec 12) (local_ : Nat) (bs : List Byte) (s : State) (h_s : Canonical s) : Canonical
      (arriveLine k tag local_ bs s) := by
  unfold arriveLine
  try dsimp only
  repeat' first | with_reducible assumption | with_reducible (first | apply byTag_canon | apply putLine_canon)

theorem arriveToken_canon (k : Nat) (tag : BitVec 12) (tk : Fin 64) (cnt : Nat) (s : State) (h_s : Canonical s) : Canonical
      (arriveToken k tag tk cnt s) := by
  unfold arriveToken
  try dsimp only
  repeat' first | with_reducible assumption | with_reducible (first | apply addToken_canon | apply byTag_canon)

theorem coreSignal_canon (d c : Nat) (tk : Fin 64) (cnt src : Nat) (tag : BitVec 12) (s : State) (h_s : Canonical s) : Canonical
      (coreSignal d c tk cnt src tag s) := by
  unfold coreSignal
  try dsimp only
  repeat' first
    | with_reducible assumption
    | with_reducible
        first | apply bumpReg_canon | apply postItem_canon
    | split | with_reducible refine Canonical.of_mk ?_ rfl rfl rfl rfl rfl

theorem arriveCore_canon (d c : Nat) (tag : BitVec 12) (tk : Fin 64) (cnt src : Nat) (s : State) (h_s : Canonical s) : Canonical
      (arriveCore d c tag tk cnt src s) := by
  unfold arriveCore
  try dsimp only
  repeat' first | with_reducible assumption | with_reducible (first | apply byTag_canon | apply coreSignal_canon)

theorem modXfer_canon (k id : Nat) (f : Xfer → Xfer) (s : State) (h_s : Canonical s) : Canonical (modXfer k id f s) := by
  unfold modXfer
  try dsimp only
  repeat' first
    | with_reducible assumption | with_reducible apply modTile_canon | split | intro _ | with_reducible refine Canonical.of_mk ?_ rfl rfl rfl rfl rfl

theorem answerXfer_canon (k id : Nat) (s : State) (h_s : Canonical s) : Canonical (answerXfer k id s) := by
  unfold answerXfer
  try dsimp only
  repeat' first
    | with_reducible assumption | with_reducible apply modXfer_canon | intro _ | with_reducible refine Canonical.of_mk ?_ rfl rfl rfl rfl rfl

theorem completeXfer_canon (k id : Nat) (kinds : List XferKind) (s : State) (h_s : Canonical s) : Canonical (completeXfer k id kinds s) := by
  unfold completeXfer
  try dsimp only
  repeat' first
    | with_reducible assumption
    | with_reducible
        first | apply addToken_canon | apply modTile_canon
    | split | intro _ | with_reducible refine Canonical.of_mk ?_ rfl rfl rfl rfl rfl

theorem modBoot_canon (f : Boot → Boot) (s : State) (h_s : Canonical s) : Canonical (modBoot f s) := by
  unfold modBoot
  try dsimp only
  repeat' first | with_reducible assumption | with_reducible refine Canonical.of_mk ?_ rfl rfl rfl rfl rfl

theorem modFlash_canon (f : Flash → Flash) (s : State) (h_s : Canonical s) : Canonical (modFlash f s) := by
  unfold modFlash
  try dsimp only
  repeat' first | with_reducible assumption | with_reducible refine Canonical.of_mk ?_ rfl rfl rfl rfl rfl

theorem modPower_canon (f : PowerMan → PowerMan) (s : State) (h_s : Canonical s) : Canonical (modPower f s) := by
  unfold modPower
  try dsimp only
  repeat' first | with_reducible assumption | with_reducible refine Canonical.of_mk ?_ rfl rfl rfl rfl rfl

theorem modPins_canon (f : Pins → Pins) (s : State) (h_s : Canonical s) : Canonical (modPins f s) := by
  unfold modPins
  try dsimp only
  repeat' first | with_reducible assumption | with_reducible refine Canonical.of_mk ?_ rfl rfl rfl rfl rfl

theorem modTap_canon (f : Tap → Tap) (s : State) (h_s : Canonical s) : Canonical (modTap f s) := by
  unfold modTap
  try dsimp only
  repeat' first | with_reducible assumption | with_reducible refine Canonical.of_mk ?_ rfl rfl rfl rfl rfl

theorem writeRecord_canon (kind : Nat) (o : List Byte) (s : State) (h_s : Canonical s) : Canonical (writeRecord kind o s) := by
  unfold writeRecord
  try dsimp only
  repeat' first
    | with_reducible assumption | with_reducible apply modFlash_canon | split | intro _ | with_reducible refine Canonical.of_mk ?_ rfl rfl rfl rfl rfl

theorem useIndex_canon (s : State) (h_s : Canonical s) : Canonical (useIndex s) := by
  unfold useIndex
  try dsimp only
  repeat' first
    | with_reducible assumption
    | with_reducible
        first | apply modBoot_canon | apply modFlash_canon | apply raise__canon | apply setReg_canon
    | split | intro _ | with_reducible refine Canonical.of_mk ?_ rfl rfl rfl rfl rfl

theorem deviceSign_canon (kind seq : Nat) (body : List Byte) (s : State) (h_s : Canonical s) : Canonical (deviceSign kind seq body s).2 := by
  unfold deviceSign
  try dsimp only
  repeat' first | with_reducible assumption | with_reducible apply useIndex_canon

theorem writeRepairMap_canon (s : State) (h_s : Canonical s) : Canonical (writeRepairMap s) := by
  unfold writeRepairMap
  try dsimp only
  repeat' first
    | with_reducible assumption
    | with_reducible
        first | apply deviceSign_canon | apply modBoot_canon | apply writeRecord_canon
    | split | intro _ | with_reducible refine Canonical.of_mk ?_ rfl rfl rfl rfl rfl

end Sys2Proof.Machine
end

