-- ==== Sys2Proof/Laws/CanonicalTiles.lean ====
section
/-!
SUPPORT. The canonical form is kept by the tile operations: memory accesses, the arrays, the vector unit, transfers and the slices.
-/

set_option linter.all false

namespace Sys2Proof.Machine
open Sys2Proof

theorem bumpStack_canon (a : Nat) (which n : Nat) (s : State) (h_s : Canonical s) : Canonical (bumpStack a which n s) := by
  unfold bumpStack
  try dsimp only
  repeat' first | with_reducible assumption | with_reducible refine Canonical.of_mk ?_ rfl rfl rfl rfl rfl

theorem recordRow_canon (a : Nat) (s : State) (h_s : Canonical s) : Canonical (recordRow a s) := by
  unfold recordRow
  try dsimp only
  repeat' first
    | with_reducible assumption
    | with_reducible
        first | apply bumpStack_canon | apply writeRepairMap_canon
    | split | with_reducible refine Canonical.of_mk ?_ rfl rfl rfl rfl rfl

theorem repeatedLine_canon (die tile : Nat) (line : Nat) (s : State) (h_s : Canonical s) : Canonical (repeatedLine die tile line s) := by
  unfold repeatedLine
  try dsimp only
  repeat' first
    | with_reducible assumption
    | with_reducible
        first | apply enterFault_canon | apply holdNow_canon | apply putMem_canon | apply raiseAt_canon | apply recordRow_canon
    | split | with_reducible refine Canonical.of_mk ?_ rfl rfl rfl rfl rfl

theorem stackUncorrectable_canon (die tile : Nat) (a : Nat) (s : State) (h_s : Canonical s) : Canonical (stackUncorrectable die tile a s) := by
  unfold stackUncorrectable
  try dsimp only
  repeat' first
    | with_reducible assumption
    | with_reducible
        first | apply abortAttempt_canon | apply bumpStack_canon | apply raiseAt_canon | apply repeatedLine_canon
    | split | intro _ | with_reducible refine Canonical.of_mk ?_ rfl rfl rfl rfl rfl

theorem stackCorrected_canon (a : Nat) (s : State) (h_s : Canonical s) : Canonical (stackCorrected a s) := by
  unfold stackCorrected
  try dsimp only
  repeat' first
    | with_reducible assumption
    | with_reducible
        first | apply bumpStack_canon | apply raiseAt_canon | apply recordRow_canon
    | split | with_reducible refine Canonical.of_mk ?_ rfl rfl rfl rfl rfl

theorem sramCorrected_canon (k : Nat) (a : Nat) (s : State) (h_s : Canonical s) : Canonical (sramCorrected k a s) := by
  unfold sramCorrected
  try dsimp only
  repeat' first
    | with_reducible assumption
    | with_reducible
        first | apply bumpReg_canon | apply judgePermanent_canon | apply raiseAt_canon
    | split | with_reducible refine Canonical.of_mk ?_ rfl rfl rfl rfl rfl

theorem setPager_canon (k : Nat) (p : Pager) (s : State) (h_s : Canonical s) : Canonical (setPager k p s) := by
  unfold setPager
  try dsimp only
  repeat' first | with_reducible assumption | with_reducible refine Canonical.of_mk ?_ rfl rfl rfl rfl rfl

theorem pagerCase_canon (k : Nat) (page : Nat) (s : State) (h_s : Canonical s) : Canonical (pagerCase k page s) := by
  unfold pagerCase
  try dsimp only
  repeat' first | with_reducible assumption | with_reducible (first | apply bumpReg_canon | apply postItem_canon)

theorem writePage_canon (k w local_ : Nat) (s : State) (h_s : Canonical s) : Canonical (writePage k w local_ s) := by
  unfold writePage
  try dsimp only
  repeat' first | with_reducible assumption | with_reducible (first | apply allOf_canon | apply sendMsg_canon) | intro _

theorem writeBack_canon (k : Nat) (f : Frame) (s : State) (h_s : Canonical s) : Canonical (writeBack k f s) := by
  unfold writeBack
  try dsimp only
  repeat' first
    | with_reducible assumption
    | with_reducible
        first | apply bumpReg_canon | apply pagerCase_canon | apply putMem_canon | apply writePage_canon
    | split | with_reducible refine Canonical.of_mk ?_ rfl rfl rfl rfl rfl

theorem startPageIn_canon (k page frame : Nat) (s : State) (h_s : Canonical s) : Canonical (startPageIn k page frame s) := by
  unfold startPageIn
  try dsimp only
  repeat' first
    | with_reducible assumption
    | with_reducible
        first | apply allOf_canon | apply bumpReg_canon | apply pagerCase_canon | apply sendMsg_canon | apply setPager_canon
    | split | intro _ | with_reducible refine Canonical.of_mk ?_ rfl rfl rfl rfl rfl

theorem copyLines_canon (k frame off local_ n : Nat) (put : Bool) (s : State) (h_s : Canonical s) : Canonical
      (copyLines k frame off local_ n put s) := by
  unfold copyLines
  try dsimp only
  repeat' first | with_reducible assumption | with_reducible (first | apply allOf_canon | apply putMem_canon) | split | intro _

theorem servePager_canon (k n : Nat) (s : State) (h_s : Canonical s) : Canonical (servePager k n s) := by
  induction n generalizing s with
  | zero => exact h_s
  | succ n ih =>
    simp only [servePager]
    repeat' first
      | with_reducible assumption
      | with_reducible
          first | apply ih | apply answerXfer_canon | apply setPager_canon | apply copyLines_canon | apply bumpReg_canon | apply startPageIn_canon
                | apply writeBack_canon
      | split


theorem pageAccess_canon (k : Nat) (a : PageAccess) (s : State) (h_s : Canonical s) : Canonical (pageAccess k a s) := by
  unfold pageAccess
  try dsimp only
  repeat' first
    | with_reducible assumption
    | with_reducible
        first | apply servePager_canon | apply setPager_canon
    | with_reducible refine Canonical.of_mk ?_ rfl rfl rfl rfl rfl

theorem opPageIn_canon (k : Nat) (s : State) (h_s : Canonical s) : Canonical (opPageIn k s) := by
  unfold opPageIn
  try dsimp only
  repeat' first
    | with_reducible assumption
    | with_reducible
        first | apply putMem_canon | apply servePager_canon | apply setPager_canon | apply stackUncorrectable_canon
    | split | intro _ | with_reducible refine Canonical.of_mk ?_ rfl rfl rfl rfl rfl

theorem tcG16RowCode_canon (c : TCtx) (fmt a : Nat) (h_c : CtxCanonical c) : CtxCanonical (tcG16RowCode c fmt a).1 := by
  unfold tcG16RowCode
  try dsimp only
  repeat' first | with_reducible assumption | with_reducible apply tcOutside_canon | split | with_reducible refine CtxCanonical.of_mk ?_ rfl

theorem loadPlane_canon (c : TCtx) (a : LdwArgs) (h_c : CtxCanonical c) : CtxCanonical (loadPlane c a).1 := by
  unfold loadPlane
  try dsimp only
  repeat' first | with_reducible assumption | with_reducible (first | apply tcG16RowCode_canon | apply foldl_ctx | apply foldl_ctx1) | intro _

theorem effLdw_canon (a : LdwArgs) (c : TCtx) (h_c : CtxCanonical c) : CtxCanonical (effLdw a c) := by
  unfold effLdw
  try dsimp only
  repeat' first
    | with_reducible assumption
    | with_reducible
        first | apply loadPlane_canon | apply tcProgFault_canon | apply foldl_ctx | apply foldl_ctx1
    | split | intro _ | with_reducible refine CtxCanonical.of_mk ?_ rfl

theorem operandScale_canon (c : TCtx) (fmt a : Nat) (h_c : CtxCanonical c) : CtxCanonical (operandScale c fmt a).1 := by
  unfold operandScale
  try dsimp only
  repeat' first | with_reducible assumption | with_reducible apply tcOutside_canon | split | with_reducible refine CtxCanonical.of_mk ?_ rfl

theorem rowUpdates_canon (c : TCtx) (p : Plane) (fx a : Nat) (h_c : CtxCanonical c) : CtxCanonical (rowUpdates c p fx a).1 := by
  unfold rowUpdates
  try dsimp only
  repeat' first
    | with_reducible assumption
    | with_reducible
        first | apply operandScale_canon | apply tcBump_canon | apply tcG16RowCode_canon
    | split | intro _

theorem mmArray_canon (a : MmArgs) (p0 : Nat) (c : TCtx) (jr : Fin 4 × Nat) (h_c : CtxCanonical c) : CtxCanonical (mmArray a p0 c jr) := by
  unfold mmArray
  try dsimp only
  repeat' first
    | with_reducible assumption
    | with_reducible
        first | apply rowUpdates_canon | apply tcBump_canon | apply foldl_ctx | apply foldl_ctx1
    | intro _ | with_reducible refine CtxCanonical.of_mk ?_ rfl

theorem effMm_canon (a : MmArgs) (c : TCtx) (h_c : CtxCanonical c) : CtxCanonical (effMm a c) := by
  unfold effMm
  try dsimp only
  repeat' first
    | with_reducible assumption
    | with_reducible
        first | apply mmArray_canon | apply tcProgFault_canon | apply foldl_ctx | apply foldl_ctx1
    | split | intro _ | with_reducible refine CtxCanonical.of_mk ?_ rfl

theorem gopenRow_canon (c : TCtx) (fmt a : Nat) (h_c : CtxCanonical c) : CtxCanonical (gopenRow c fmt a).1 := by
  unfold gopenRow
  try dsimp only
  repeat' first
    | with_reducible assumption
    | with_reducible
        first | apply tcConv_canon | apply tcOutside_canon | apply foldl_ctx | apply foldl_ctx1
    | split | intro _ | with_reducible refine CtxCanonical.of_mk ?_ rfl

theorem effGopen_canon (a : GroupArgs) (c : TCtx) (h_c : CtxCanonical c) : CtxCanonical (effGopen a c) := by
  unfold effGopen
  try dsimp only
  repeat' first
    | with_reducible assumption
    | with_reducible
        first | apply gopenRow_canon | apply tcProgFault_canon | apply foldl_ctx | apply foldl_ctx1
    | split | intro _ | with_reducible refine CtxCanonical.of_mk ?_ rfl

theorem tcCountNonfinite_canon (c : TCtx) (g : Nat) (h_c : CtxCanonical c) : CtxCanonical (tcCountNonfinite c g) := by
  unfold tcCountNonfinite
  try dsimp only
  repeat' first | with_reducible assumption | with_reducible apply tcBump_canon | intro _

theorem gcloseRow_canon (a : GroupArgs) (bits : List OutBits) (c : TCtx) (i : Nat) (h_c : CtxCanonical c) : CtxCanonical (gcloseRow a bits c i) := by
  unfold gcloseRow
  try dsimp only
  repeat' first
    | with_reducible assumption
    | with_reducible
        first | apply tcBump_canon | apply tcPutBits_canon | apply tcWrite_canon
    | split | intro _

theorem effGclose_canon (a : GroupArgs) (c : TCtx) (h_c : CtxCanonical c) : CtxCanonical (effGclose a c) := by
  unfold effGclose
  try dsimp only
  repeat' first
    | with_reducible assumption
    | with_reducible
        first | apply gcloseRow_canon | apply tcCountNonfinite_canon | apply tcEncodeAll_canon | apply tcProgFault_canon | apply foldl_ctx
              | apply foldl_ctx1
    | split | intro _ | with_reducible refine CtxCanonical.of_mk ?_ rfl

theorem effGspill_canon (a : GroupArgs) (c : TCtx) (h_c : CtxCanonical c) : CtxCanonical (effGspill a c) := by
  unfold effGspill
  try dsimp only
  repeat' first
    | with_reducible assumption
    | with_reducible
        first | apply tcCountNonfinite_canon | apply tcProgFault_canon | apply tcWrite_canon | apply foldl_ctx | apply foldl_ctx1
    | split | intro _ | with_reducible refine CtxCanonical.of_mk ?_ rfl

theorem effGfill_canon (a : GroupArgs) (c : TCtx) (h_c : CtxCanonical c) : CtxCanonical (effGfill a c) := by
  unfold effGfill
  try dsimp only
  repeat' first
    | with_reducible assumption
    | with_reducible
        first | apply tcProgFault_canon | apply foldl_ctx | apply foldl_ctx1
    | split | intro _ | with_reducible refine CtxCanonical.of_mk ?_ rfl

theorem effGdrop_canon (a : GroupArgs) (c : TCtx) (h_c : CtxCanonical c) : CtxCanonical (effGdrop a c) := by
  unfold effGdrop
  try dsimp only
  repeat' first | with_reducible assumption | with_reducible apply tcProgFault_canon | split | with_reducible refine CtxCanonical.of_mk ?_ rfl

theorem vopBeat_canon (a : VopArgs) (op : LaneOp) (c : TCtx) (b : Nat) (h_c : CtxCanonical c) : CtxCanonical (vopBeat a op c b) := by
  unfold vopBeat
  try dsimp only
  repeat' first
    | with_reducible assumption
    | with_reducible
        first | apply tcBump_canon | apply tcLane_canon | apply tcPutBits_canon | apply foldl_ctx | apply foldl_ctx1
    | intro _

theorem effVop_canon (vfn : Nat) (a : VopArgs) (op : RMode → LaneOp) (c : TCtx) (h_c : CtxCanonical c) : CtxCanonical (effVop vfn a op c) := by
  unfold effVop
  try dsimp only
  repeat' first
    | with_reducible assumption
    | with_reducible
        first | apply tcProgFault_canon | apply vopBeat_canon | apply foldl_ctx | apply foldl_ctx1
    | split | intro _

theorem effMov_canon (a : VopArgs) (c : TCtx) (h_c : CtxCanonical c) : CtxCanonical (effMov a c) := by
  unfold effMov
  try dsimp only
  repeat' first | with_reducible assumption | with_reducible apply effVop_canon | intro _

theorem effAdd_canon (a : VopArgs) (c : TCtx) (h_c : CtxCanonical c) : CtxCanonical (effAdd a c) := by
  unfold effAdd
  try dsimp only
  repeat' first | with_reducible assumption | with_reducible apply effVop_canon

theorem effSub_canon (a : VopArgs) (c : TCtx) (h_c : CtxCanonical c) : CtxCanonical (effSub a c) := by
  unfold effSub
  try dsimp only
  repeat' first | with_reducible assumption | with_reducible apply effVop_canon

theorem effMul_canon (a : VopArgs) (c : TCtx) (h_c : CtxCanonical c) : CtxCanonical (effMul a c) := by
  unfold effMul
  try dsimp only
  repeat' first | with_reducible assumption | with_reducible apply effVop_canon | intro _

theorem effFma_canon (a : VopArgs) (c : TCtx) (h_c : CtxCanonical c) : CtxCanonical (effFma a c) := by
  unfold effFma
  try dsimp only
  repeat' first | with_reducible assumption | with_reducible apply effVop_canon

theorem effMax_canon (a : VopArgs) (c : TCtx) (h_c : CtxCanonical c) : CtxCanonical (effMax a c) := by
  unfold effMax
  try dsimp only
  repeat' first | with_reducible assumption | with_reducible apply effVop_canon | intro _

theorem effMin_canon (a : VopArgs) (c : TCtx) (h_c : CtxCanonical c) : CtxCanonical (effMin a c) := by
  unfold effMin
  try dsimp only
  repeat' first | with_reducible assumption | with_reducible apply effVop_canon | intro _

theorem effAbs_canon (a : VopArgs) (c : TCtx) (h_c : CtxCanonical c) : CtxCanonical (effAbs a c) := by
  unfold effAbs
  try dsimp only
  repeat' first | with_reducible assumption | with_reducible apply effVop_canon | intro _

theorem effNeg_canon (a : VopArgs) (c : TCtx) (h_c : CtxCanonical c) : CtxCanonical (effNeg a c) := by
  unfold effNeg
  try dsimp only
  repeat' first | with_reducible assumption | with_reducible apply effVop_canon | intro _

theorem effCmpgt_canon (a : VopArgs) (c : TCtx) (h_c : CtxCanonical c) : CtxCanonical (effCmpgt a c) := by
  unfold effCmpgt
  try dsimp only
  repeat' first | with_reducible assumption | with_reducible apply effVop_canon | intro _

theorem effRcp_canon (a : VopArgs) (c : TCtx) (h_c : CtxCanonical c) : CtxCanonical (effRcp a c) := by
  unfold effRcp
  try dsimp only
  repeat' first | with_reducible assumption | with_reducible apply effVop_canon | intro _

theorem effSqrt_canon (a : VopArgs) (c : TCtx) (h_c : CtxCanonical c) : CtxCanonical (effSqrt a c) := by
  unfold effSqrt
  try dsimp only
  repeat' first | with_reducible assumption | with_reducible apply effVop_canon | intro _

theorem effSpecial_canon (fn : SpecialFn) (a : VopArgs) (c : TCtx) (h_c : CtxCanonical c) : CtxCanonical (effSpecial fn a c) := by
  unfold effSpecial
  try dsimp only
  repeat' first | with_reducible assumption | with_reducible apply effVop_canon | intro _

theorem vopReduceBeat_canon (a : VopArgs) (op : Nat → Nat → LaneRes) (c : TCtx) (b : Nat) (h_c : CtxCanonical c) : CtxCanonical
      (vopReduceBeat a op c b) := by
  unfold vopReduceBeat
  try dsimp only
  repeat' first
    | with_reducible assumption
    | with_reducible
        first | apply tcLane_canon | apply tcWriteNib_canon | apply foldl_ctx | apply foldl_ctx1
    | intro _

theorem effRsum_canon (a : VopArgs) (c : TCtx) (h_c : CtxCanonical c) : CtxCanonical (effRsum a c) := by
  unfold effRsum
  try dsimp only
  repeat' first
    | with_reducible assumption
    | with_reducible
        first | apply tcProgFault_canon | apply vopReduceBeat_canon | apply foldl_ctx | apply foldl_ctx1
    | split | intro _

theorem effRmax_canon (a : VopArgs) (c : TCtx) (h_c : CtxCanonical c) : CtxCanonical (effRmax a c) := by
  unfold effRmax
  try dsimp only
  repeat' first
    | with_reducible assumption
    | with_reducible
        first | apply tcProgFault_canon | apply vopReduceBeat_canon | apply foldl_ctx | apply foldl_ctx1
    | split | intro _

theorem cvtSource_canon (f : Nat) (st : TCtx × List (Num × Bool)) (na : Nat) (h_st : CtxCanonical st.1) : CtxCanonical (cvtSource f st na).1 := by
  unfold cvtSource
  try dsimp only
  repeat' first | with_reducible assumption | with_reducible apply tcOutside_canon | split | with_reducible refine CtxCanonical.of_mk ?_ rfl

theorem effCvt_canon (a : VopArgs) (c : TCtx) (h_c : CtxCanonical c) : CtxCanonical (effCvt a c) := by
  unfold effCvt
  try dsimp only
  repeat' first
    | with_reducible assumption
    | with_reducible
        first | apply cvtSource_canon | apply tcEncodeAll_canon | apply tcProgFault_canon | apply tcPutBits_canon | apply tcWatch_canon
              | apply foldl_ctx | apply foldl_ctx1
    | split | intro _

theorem effLdq_canon (a : VopArgs) (c : TCtx) (h_c : CtxCanonical c) : CtxCanonical (effLdq a c) := by
  unfold effLdq
  try dsimp only
  repeat' first | with_reducible assumption | with_reducible apply tcProgFault_canon | split | with_reducible refine CtxCanonical.of_mk ?_ rfl

theorem consumeToken_canon (k : Nat) (tk : Fin 64) (n : Nat) (s : State) (h_s : Canonical s) : Canonical (consumeToken k tk n s) := by
  unfold consumeToken
  try dsimp only
  repeat' first
    | with_reducible assumption
    | with_reducible
        first | apply bumpReg_canon | apply setTile_canon
    | intro _ | with_reducible refine Canonical.of_mk ?_ rfl rfl rfl rfl rfl

theorem beginIssue_canon (op : TileOp) (k : Nat) (w : WaitField) (s : State) (h_s : Canonical s) : Canonical (beginIssue op k w s) := by
  unfold beginIssue
  try dsimp only
  repeat' first
    | with_reducible assumption
    | with_reducible
        first | apply bumpReg_canon | apply consumeToken_canon
    | split | with_reducible refine Canonical.of_mk ?_ rfl rfl rfl rfl rfl

theorem raceLines_canon (k : Nat) (spans : List Span) (s : State) (h_s : Canonical s) : Canonical (raceLines k spans s) := by
  unfold raceLines
  try dsimp only
  repeat' first
    | with_reducible assumption
    | with_reducible
        first | apply freeBytes_canon | apply modTile_canon | apply putMem_canon | apply foldl_canon | apply foldl_canon1 | apply foldl_canon2
    | intro _ | with_reducible refine Canonical.of_mk ?_ rfl rfl rfl rfl rfl

theorem goTo_canon (k addr : Nat) (s : State) (h_s : Canonical s) : Canonical (goTo k addr s) := by
  unfold goTo
  try dsimp only
  repeat' first
    | with_reducible assumption
    | with_reducible
        first | apply modTile_canon | apply progError_canon
    | split | intro _ | with_reducible refine Canonical.of_mk ?_ rfl rfl rfl rfl rfl

theorem advance_canon (k : Nat) (target : Option Nat) (s : State) (h_s : Canonical s) : Canonical (advance k target s) := by
  unfold advance
  try dsimp only
  repeat' first
    | with_reducible assumption
    | with_reducible
        first | apply goTo_canon | apply setTile_canon
    | split | with_reducible refine Canonical.of_mk ?_ rfl rfl rfl rfl rfl

theorem issue_canon (op : TileOp) (k : Nat) (w : WaitField) (eff : State → State × Option Nat) (s : State) (h_eff : ∀
      (x0 : State), Canonical x0 → Canonical (eff x0).1) (h_s : Canonical s) : Canonical (issue op k w eff s) := by
  unfold issue
  try dsimp only
  repeat' first
    | with_reducible assumption
    | with_reducible
        first | apply h_eff | apply advance_canon | apply beginIssue_canon | apply progFault_canon | apply raceLines_canon
              | apply sramUncorrectable_canon
    | split | intro _ | with_reducible refine Canonical.of_mk ?_ rfl rfl rfl rfl rfl

theorem takeCtx_canon (k op : Nat) (c : TCtx) (s : State) (h_c : CtxCanonical c) (h_s : Canonical s) : Canonical (takeCtx k op c s) := by
  unfold takeCtx
  dsimp only
  refine allOf_canon _ _ _ (fun x s hs => abortAttempt_canon x s hs) ?_
  have h1 : Canonical (allOf c.evs (fun e => raiseAt e (keyDie k) (keyTile k) 0 op)
      (allOf c.cnt (fun p => bumpReg (dieKey (keyDie k) (tallyKey p)) p.2.2)
        (setTile k c.tile { s with mem := c.mem, free := c.free, step := { s.step with sat := s.step.sat + c.satCount, nonfin := s.step.nonfin +
      c.nonfinCount } }))) := by
    refine allOf_canon _ _ _ (fun x s hs => raiseAt_canon _ _ _ _ _ s hs) (allOf_canon _ _ _ (fun x s hs => bumpReg_canon _ _ s hs)
      (setTile_canon _ _ _ ?_))
    exact ⟨h_c, h_s.mram, h_s.regs, h_s.tiles, h_s.sizes⟩
  generalize allOf c.evs _ _ = u at h1
  have h2 : Canonical (if c.aborts.contains 2 then suspectUnit 0x7003 (tileEp u k) u else u) := by
    split
    · exact suspectUnit_canon _ _ _ h1
    · exact h1
  generalize (if c.aborts.contains 2 then suspectUnit 0x7003 (tileEp u k) u else u) = v at h2
  split
  · exact suspectUnit_canon _ _ _ h2
  · exact h2


theorem runTile_canon (k : Nat) (op : TileOp) (w : WaitField) (eff : TCtx → TCtx) (s : State) (h_eff : ∀ (x0 : TCtx), CtxCanonical x0 → CtxCanonical
      (eff x0)) (h_s : Canonical s) : Canonical (runTile k op w eff s).1 := by
  unfold runTile
  try dsimp only
  repeat' first
    | with_reducible assumption
    | with_reducible
        first | apply h_eff | apply takeCtx_canon | apply tileCtx_canon
    | intro _ | with_reducible refine Canonical.of_mk ?_ rfl rfl rfl rfl rfl | with_reducible refine CtxCanonical.of_mk ?_ rfl

theorem issueTile_canon (op : TileOp) (r : TileRef) (w : WaitField) (eff : TCtx → TCtx) (s : State) (h_eff : ∀
      (x0 : TCtx), CtxCanonical x0 → CtxCanonical (eff x0)) (h_s : Canonical s) : Canonical (issueTile op r w eff s) := by
  unfold issueTile
  try dsimp only
  repeat' first | with_reducible assumption | with_reducible (first | apply h_eff | apply issue_canon | apply runTile_canon) | intro _

theorem usePrefetched_canon (k a n : Nat) (s : State) (h_s : Canonical s) : Canonical (usePrefetched k a n s) := by
  unfold usePrefetched
  try dsimp only
  repeat' first
    | with_reducible assumption
    | with_reducible
        first | apply bumpReg_canon | apply setTile_canon
    | intro _ | with_reducible refine Canonical.of_mk ?_ rfl rfl rfl rfl rfl

theorem trainStream_canon (k : Nat) (x : Fin 8) (a len next : Nat) (s : State) (h_s : Canonical s) : Canonical (trainStream k x a len next s) := by
  unfold trainStream
  try dsimp only
  repeat' first
    | with_reducible assumption
    | with_reducible
        first | apply bumpReg_canon | apply setTile_canon
    | split | intro _ | with_reducible refine Canonical.of_mk ?_ rfl rfl rfl rfl rfl

theorem opPrefetchRead_canon (k : Nat) (x : Fin 8) (line : Nat) (s : State) (h_s : Canonical s) : Canonical (opPrefetchRead k x line s) := by
  unfold opPrefetchRead
  try dsimp only
  repeat' first
    | with_reducible assumption
    | with_reducible
        first | apply bumpReg_canon | apply setTile_canon
    | split | with_reducible refine Canonical.of_mk ?_ rfl rfl rfl rfl rfl

theorem dropPage_canon (page : Nat) (s : State) (h_s : Canonical s) : Canonical (dropPage page s) := by
  unfold dropPage
  try dsimp only
  repeat' first
    | with_reducible assumption | intro _ | with_reducible refine Canonical.of_mk ?_ rfl rfl rfl rfl rfl | with_reducible refine Canonical.of_map ?_ rfl rfl rfl rfl rfl (fun _ => rfl)

theorem gatherHeader_canon (d : Nat) (h : Nat) (s : State) (h_s : Canonical s) : Canonical (gatherHeader d h s) := by
  unfold gatherHeader
  try dsimp only
  repeat' first
    | with_reducible assumption
    | with_reducible
        first | apply abortAttempt_canon | apply bumpReg_canon | apply raiseAt_canon
    | split | intro _ | with_reducible refine Canonical.of_mk ?_ rfl rfl rfl rfl rfl

theorem getLine_canon (k a local_ : Nat) (s : State) (h_s : Canonical s) : Canonical (getLine k a local_ s) := by
  unfold getLine
  try dsimp only
  repeat' first
    | with_reducible assumption
    | with_reducible
        first | apply freeBytes_canon | apply putMem_canon | apply raiseAt_canon | apply sramUncorrectable_canon | apply stackUncorrectable_canon
    | split | intro _ | with_reducible refine Canonical.of_mk ?_ rfl rfl rfl rfl rfl

theorem openXfer_canon (k : Nat) (x : Xfer) (s : State) (h_s : Canonical s) : Canonical (openXfer k x s).2 := by
  unfold openXfer
  try dsimp only
  repeat' first | with_reducible assumption | with_reducible apply setTile_canon | with_reducible refine Canonical.of_mk ?_ rfl rfl rfl rfl rfl

theorem getRemote_canon (k id w local_ lines : Nat) (gather : Bool) (s : State) (h_s : Canonical s) : Canonical
      (getRemote k id w local_ lines gather s) := by
  unfold getRemote
  try dsimp only
  repeat' first
    | with_reducible assumption
    | with_reducible
        first | apply allOf_canon | apply sendMsg_canon
    | intro _ | with_reducible refine Canonical.of_mk ?_ rfl rfl rfl rfl rfl

theorem effGet_canon (k : Nat) (a : XferArgs) (s : State) (h_s : Canonical s) : Canonical (effGet k a s).1 := by
  unfold effGet
  try dsimp only
  repeat' first
    | with_reducible assumption
    | with_reducible
        first | apply allOf_canon | apply gatherHeader_canon | apply getLine_canon | apply getRemote_canon | apply modTile_canon
              | apply openXfer_canon | apply outOfRange_canon | apply pageAccess_canon | apply progFault_canon | apply trainStream_canon
              | apply usePrefetched_canon
    | split | intro _ | with_reducible refine Canonical.of_mk ?_ rfl rfl rfl rfl rfl

theorem putDest_canon (k : Nat) (tag : BitVec 12) (a : Nat) (bs : List Byte) (s : State) (h_s : Canonical s) : Canonical (putDest k tag a bs s) := by
  unfold putDest
  try dsimp only
  repeat' first
    | with_reducible assumption
    | with_reducible
        first | apply arriveLine_canon | apply modTile_canon | apply putMem_canon | apply raiseAt_canon
    | split | intro _ | with_reducible refine Canonical.of_mk ?_ rfl rfl rfl rfl rfl

theorem putRemote_canon (k id w local_ lines : Nat) (a : XferArgs) (token : Bool) (s : State) (h_s : Canonical s) : Canonical
      (putRemote k id w local_ lines a token s) := by
  unfold putRemote
  try dsimp only
  repeat' first | with_reducible assumption | with_reducible (first | apply allOf_canon | apply sendMsg_canon) | split | intro _

theorem effPut_canon (k : Nat) (a : XferArgs) (s : State) (h_s : Canonical s) : Canonical (effPut k a s).1 := by
  unfold effPut
  extract_lets t local_ lines w addr s1 paged waits o s2 win noWin s3 s4 s5
  clear_value local_ addr waits win noWin
  split
  · exact progFault_canon _ _ _ h_s
  have h1 : Canonical s1 := modTile_canon _ _ _ h_s
  have h2 : Canonical s2 := openXfer_canon _ _ _ h1
  have h3 : Canonical s3 := allOf_canon _ _ _ (fun x s hs => putDest_canon _ _ _ _ s hs) h2
  have h4 : Canonical s4 := by
    simp only [s4]
    repeat' first
      | with_reducible assumption
      | with_reducible
          first | apply pageAccess_canon | apply putRemote_canon | apply arriveToken_canon | apply putDest_canon | apply allOf_canon
      | split | intro _
  have h5 : Canonical s5 := by
    simp only [s5]
    split
    · exact outOfRange_canon _ _ _ h4
    · exact h4
  clear_value s5
  dsimp only
  split
  · exact progError_canon _ _ _ _ h5
  · exact h5


theorem effSignal_canon (k : Nat) (a : SignalArgs) (s : State) (h_s : Canonical s) : Canonical (effSignal k a s).1 := by
  unfold effSignal
  try dsimp only
  repeat' first
    | with_reducible assumption
    | with_reducible
        first | apply arriveCore_canon | apply arriveToken_canon | apply openXfer_canon | apply sendMsg_canon
    | split

theorem effSwap_canon (k : Nat) (a : SwapArgs) (s : State) (h_s : Canonical s) : Canonical (effSwap k a s).1 := by
  unfold effSwap
  try dsimp only
  repeat' first
    | with_reducible assumption
    | with_reducible
        first | apply bumpReg_canon | apply modTile_canon | apply openXfer_canon | apply outOfRange_canon | apply progError_canon
              | apply stackUncorrectable_canon | apply trainStream_canon | apply usePrefetched_canon
    | split | intro _ | with_reducible refine Canonical.of_mk ?_ rfl rfl rfl rfl rfl

theorem opTokenArrival_canon (k : Nat) (tag : BitVec 12) (item : TileItem) (s : State) (h_s : Canonical s) : Canonical
      (opTokenArrival k tag item s) := by
  unfold opTokenArrival
  try dsimp only
  repeat' first
    | with_reducible assumption
    | with_reducible
        first | apply arriveLine_canon | apply arriveToken_canon
    | split | with_reducible refine Canonical.of_mk ?_ rfl rfl rfl rfl rfl

theorem inboxEntry_canon (key : Nat) (gk : BitVec 128) (vals : List Nat) (src : Nat) (s : State) (h_s : Canonical s) : Canonical
      (inboxEntry key gk vals src s) := by
  unfold inboxEntry
  try dsimp only
  repeat' first
    | with_reducible assumption
    | with_reducible
        first | apply abortAttempt_canon | apply bumpReg_canon | apply progError_canon | apply putMem_canon | apply raiseAt_canon
    | split | with_reducible refine Canonical.of_mk ?_ rfl rfl rfl rfl rfl

theorem arriveEntry_canon (d : Nat) (tag : BitVec 12) (key : Nat) (gk : BitVec 128) (vals : List Nat) (src : Nat) (s : State)
      (h_s : Canonical s) : Canonical (arriveEntry d tag key gk vals src s) := by
  unfold arriveEntry
  try dsimp only
  repeat' first | with_reducible assumption | with_reducible (first | apply byTag_canon | apply inboxEntry_canon)

theorem opGradientEntry_canon (d : Fin 4) (tag : BitVec 12) (table : Fin 4096) (shard : Fin 16384) (gk : BitVec 128) (vals : List (BitVec 32))
      (src : BitVec 24) (s : State) (h_s : Canonical s) : Canonical (opGradientEntry d tag table shard gk vals src s) := by
  unfold opGradientEntry
  try dsimp only
  repeat' first | with_reducible assumption | with_reducible apply arriveEntry_canon | split

theorem storeWord_canon (k id w : Nat) (bs : List Byte) (s : State) (h_s : Canonical s) : Canonical (storeWord k id w bs s) := by
  unfold storeWord
  try dsimp only
  repeat' first
    | with_reducible assumption
    | with_reducible
        first | apply allOf_canon | apply modXfer_canon | apply putMem_canon | apply sendMsg_canon
    | split | intro _ | with_reducible refine Canonical.of_mk ?_ rfl rfl rfl rfl rfl

theorem sendEntry_canon (k id : Nat) (e : Nat × Nat × Nat × List Nat) (s : State) (h_s : Canonical s) : Canonical (sendEntry k id e s) := by
  unfold sendEntry
  try dsimp only
  repeat' first
    | with_reducible assumption
    | with_reducible
        first | apply arriveEntry_canon | apply modXfer_canon | apply sendMsg_canon
    | split | intro _ | with_reducible refine Canonical.of_mk ?_ rfl rfl rfl rfl rfl

theorem applySlice_canon (k id op : Nat) (o : SliceOut) (s : State) (h_s : Canonical s) : Canonical (applySlice k id op o s) := by
  unfold applySlice
  try dsimp only
  repeat' first
    | with_reducible assumption
    | with_reducible
        first | apply allOf_canon | apply bumpReg_canon | apply putMem_canon | apply raiseAt_canon | apply sendEntry_canon | apply storeWord_canon
    | split | intro _ | with_reducible refine Canonical.of_mk ?_ rfl rfl rfl rfl rfl

theorem freeOutputs_canon (k : Nat) (rs : List (Nat × Nat × Bool)) (s : State) (h_s : Canonical s) : Canonical (freeOutputs k rs s) := by
  unfold freeOutputs
  try dsimp only
  repeat' first | with_reducible assumption | with_reducible (first | apply allOf_canon | apply freeBytes_canon | apply putMem_canon) | intro _

theorem readForSlice_canon (k id w : Nat) (s : State) (h_s : Canonical s) : Canonical (readForSlice k id w s) := by
  unfold readForSlice
  try dsimp only
  repeat' first | with_reducible assumption | with_reducible apply sendMsg_canon | with_reducible refine Canonical.of_mk ?_ rfl rfl rfl rfl rfl

theorem readStopped_canon (k : Nat) (e : ReadStop) (s : State) (h_s : Canonical s) : Canonical (readStopped k e s) := by
  unfold readStopped
  try dsimp only
  repeat' first
    | with_reducible assumption
    | with_reducible
        first | apply outOfRange_canon | apply raiseAt_canon | apply sramUncorrectable_canon | apply stackUncorrectable_canon
    | split | intro _ | with_reducible refine Canonical.of_mk ?_ rfl rfl rfl rfl rfl

theorem runSlice_canon (k id ps : Nat) (s : State) (h_s : Canonical s) : Canonical (runSlice k id ps s) := by
  unfold runSlice
  try dsimp only
  repeat' first
    | with_reducible assumption
    | with_reducible
        first | apply applySlice_canon | apply bumpReg_canon | apply freeOutputs_canon | apply modXfer_canon | apply raiseAt_canon
              | apply readForSlice_canon | apply readStopped_canon
    | split | intro _ | with_reducible refine Canonical.of_mk ?_ rfl rfl rfl rfl rfl

theorem effSlice_canon (k fn : Nat) (ps : Fin 16) (ctx : Nat) (tk : Option (Fin 64)) (op : Nat) (s : State) (h_s : Canonical s) : Canonical
      (effSlice k fn ps ctx tk op s).1 := by
  unfold effSlice
  try dsimp only
  repeat' first | with_reducible assumption | with_reducible (first | apply openXfer_canon | apply raceLines_canon | apply runSlice_canon) | intro _

theorem opTbl_canon (fn : Fin 4) (r : TileRef) (w : WaitField) (a : TblArgs) (s : State) (h_s : Canonical s) : Canonical (opTbl fn r w a s) := by
  unfold opTbl
  try dsimp only
  repeat' first | with_reducible assumption | with_reducible (first | apply effSlice_canon | apply issue_canon) | split

theorem answerSlice_canon (k id w : Nat) (err : Bool) (bs : List Byte) (s : State) (h_s : Canonical s) : Canonical (answerSlice k id w err bs s) := by
  unfold answerSlice
  try dsimp only
  repeat' first
    | with_reducible assumption
    | with_reducible
        first | apply freeOutputs_canon | apply modXfer_canon | apply outOfRange_canon | apply runSlice_canon
    | split | intro _ | with_reducible refine Canonical.of_mk ?_ rfl rfl rfl rfl rfl

end Sys2Proof.Machine
end

