-- ==== Sys2Proof/Laws/CanonicalHost.lean ====
section
/-!
SUPPORT. The canonical form is kept by the host interface, checkpoints, journals, replacement and the lookup tables.
-/

set_option linter.all false

namespace Sys2Proof.Machine
open Sys2Proof

theorem modEth_canon (p : Nat) (f : EthPort → EthPort) (s : State) (h_s : Canonical s) : Canonical (modEth p f s) := by
  obtain ⟨a, b, c, d, e, f⟩ := parts_of_sizes h_s.sizes
  exact Canonical.sized h_s rfl rfl rfl h_s.tiles (sizes_of_parts a b c d ((List.length_set ..).trans e) f)


theorem bumpEth_canon (p which n : Nat) (s : State) (h_s : Canonical s) : Canonical (bumpEth p which n s) := by
  unfold bumpEth
  try dsimp only
  repeat' first
    | with_reducible assumption | with_reducible apply modEth_canon | intro _ | with_reducible refine Canonical.of_mk ?_ rfl rfl rfl rfl rfl

theorem raiseEth_canon (code p : Nat) (s : State) (h_s : Canonical s) : Canonical (raiseEth code p s) := by
  unfold raiseEth
  try dsimp only
  repeat' first | with_reducible assumption | with_reducible apply raiseAt_canon

theorem qpError_canon (p i : Nat) (s : State) (h_s : Canonical s) : Canonical (qpError p i s) := by
  unfold qpError
  try dsimp only
  repeat' first
    | with_reducible assumption | with_reducible apply modEth_canon | intro _ | with_reducible refine Canonical.of_mk ?_ rfl rfl rfl rfl rfl

theorem flushFuel_canon (n : Nat) (s : State) (h_s : Canonical s) : Canonical (flushFuel n s) := by
  induction n generalizing s with
  | zero => exact h_s
  | succ n ih =>
    simp only [flushFuel]
    repeat' first
      | with_reducible assumption
      | with_reducible
          first | apply ih | apply emit_canon | apply bumpEth_canon
      | split | with_reducible refine Canonical.of_mk ?_ rfl rfl rfl rfl rfl


theorem flushCompletions_canon (s : State) (h_s : Canonical s) : Canonical (flushCompletions s) := by
  unfold flushCompletions
  try dsimp only
  repeat' first | with_reducible assumption | with_reducible apply flushFuel_canon

theorem complete_canon (cseq op status step detail : Nat) (s : State) (h_s : Canonical s) : Canonical (complete cseq op status step detail s) := by
  unfold complete
  try dsimp only
  repeat' first
    | with_reducible assumption
    | with_reducible
        first | apply flushCompletions_canon | apply raise__canon
    | split | with_reducible refine Canonical.of_mk ?_ rfl rfl rfl rfl rfl

theorem setJournal_canon (d : Nat) (j : JournalDie) (s : State) (h_s : Canonical s) : Canonical (setJournal d j s) := by
  unfold setJournal
  try dsimp only
  repeat' first | with_reducible assumption | with_reducible refine Canonical.of_mk ?_ rfl rfl rfl rfl rfl

theorem writeRing_canon (d qp : Nat) (bs : List Byte) (s : State) (h_s : Canonical s) : Canonical (writeRing d qp bs s) := by
  unfold writeRing
  try dsimp only
  repeat' first
    | with_reducible assumption
    | with_reducible
        first | apply bumpReg_canon | apply emit_canon | apply setJournal_canon
    | split | with_reducible refine Canonical.of_mk ?_ rfl rfl rfl rfl rfl

theorem flushRing_canon (d n : Nat) (s : State) (h_s : Canonical s) : Canonical (flushRing d n s) := by
  induction n generalizing s with
  | zero => exact h_s
  | succ n ih =>
    simp only [flushRing]
    repeat' first
      | with_reducible assumption
      | with_reducible
          first | apply ih | apply writeRing_canon | apply bumpEth_canon | apply setJournal_canon
      | split


theorem flushJournals_canon (s : State) (h_s : Canonical s) : Canonical (flushJournals s) := by
  unfold flushJournals
  try dsimp only
  repeat' first | with_reducible assumption | with_reducible (first | apply allOf_canon | apply flushRing_canon) | intro _

theorem readInput_canon (t : Nat) (b : Binding) (r : OpenRec) (s : State) (h_s : Canonical s) : Canonical (readInput t b r s) := by
  unfold readInput
  try dsimp only
  repeat' first
    | with_reducible assumption
    | with_reducible
        first | apply allOf_canon | apply bumpEth_canon | apply emit_canon
    | split | intro _ | with_reducible refine Canonical.of_mk ?_ rfl rfl rfl rfl rfl

theorem failover_canon (s : State) (h_s : Canonical s) : Canonical (failover s) := by
  unfold failover
  try dsimp only
  repeat' first
    | with_reducible assumption
    | with_reducible
        first | apply allOf_canon | apply flushCompletions_canon | apply raiseEth_canon | apply readInput_canon
    | split | intro _ | with_reducible refine Canonical.of_mk ?_ rfl rfl rfl rfl rfl

theorem returnPlanes_canon (s : State) (h_s : Canonical s) : Canonical (returnPlanes s) := by
  unfold returnPlanes
  try dsimp only
  repeat' first | with_reducible assumption | intro _ | with_reducible refine Canonical.of_mk ?_ rfl rfl rfl rfl rfl

theorem opQpError_canon (p : Fin 8) (i : Fin 64) (s : State) (h_s : Canonical s) : Canonical (opQpError p i s) := by
  unfold opQpError
  try dsimp only
  repeat' first | with_reducible assumption | with_reducible (first | apply failover_canon | apply qpError_canon | apply raiseEth_canon) | split

theorem putWindow_canon (w : Window) (wseq st step len cseq : Nat) (s : State) (h_s : Canonical s) : Canonical
      (putWindow w wseq st step len cseq s) := by
  unfold putWindow
  try dsimp only
  repeat' first | with_reducible assumption | with_reducible apply putMem_canon

theorem takeWindows_canon (s : State) (h_s : Canonical s) : Canonical (takeWindows s) := by
  unfold takeWindows
  try dsimp only
  repeat' first
    | with_reducible assumption
    | with_reducible
        first | apply allOf_canon | apply putWindow_canon
    | split | intro _ | with_reducible refine Canonical.of_mk ?_ rfl rfl rfl rfl rfl

theorem consumeRecord_canon (s : State) (h_s : Canonical s) : Canonical (consumeRecord s) := by
  unfold consumeRecord
  try dsimp only
  repeat' first | with_reducible assumption | with_reducible apply setReg_canon | with_reducible refine Canonical.of_mk ?_ rfl rfl rfl rfl rfl

theorem refuseRecord_canon (n status : Nat) (s : State) (h_s : Canonical s) : Canonical (refuseRecord n status s) := by
  unfold refuseRecord
  try dsimp only
  repeat' first | with_reducible assumption | with_reducible (first | apply bumpReg_canon | apply complete_canon)

theorem takeRecord_canon (op : Nat) (act : Nat → State → State) (s : State) (h_act : ∀ (x0 : Nat) (x1 : State), Canonical x1 → Canonical
      (act x0 x1)) (h_s : Canonical s) : Canonical (takeRecord op act s) := by
  unfold takeRecord
  try dsimp only
  repeat' first
    | with_reducible assumption
    | with_reducible
        first | apply h_act | apply consumeRecord_canon | apply refuseRecord_canon
    | split | intro _

theorem opInput_canon (n : Nat) (s : State) (h_s : Canonical s) : Canonical (opInput n s) := by
  unfold opInput
  try dsimp only
  repeat' first
    | with_reducible assumption
    | with_reducible
        first | apply bumpReg_canon | apply complete_canon
    | split | with_reducible refine Canonical.of_mk ?_ rfl rfl rfl rfl rfl

theorem opBatch_canon (op n : Nat) (s : State) (h_s : Canonical s) : Canonical (opBatch op n s) := by
  unfold opBatch
  try dsimp only
  repeat' first
    | with_reducible assumption
    | with_reducible
        first | apply bumpReg_canon | apply readInput_canon | apply refuseRecord_canon | apply takeWindows_canon
    | split | intro _ | with_reducible refine Canonical.of_mk ?_ rfl rfl rfl rfl rfl

theorem opRelease_canon (n : Nat) (s : State) (h_s : Canonical s) : Canonical (opRelease n s) := by
  unfold opRelease
  try dsimp only
  repeat' first
    | with_reducible assumption
    | with_reducible
        first | apply bumpReg_canon | apply complete_canon | apply putWindow_canon | apply refuseRecord_canon | apply takeWindows_canon
    | split | with_reducible refine Canonical.of_mk ?_ rfl rfl rfl rfl rfl

theorem opReleaseWait_canon (cseq : BitVec 32) (s : State) (h_s : Canonical s) : Canonical (opReleaseWait cseq s) := by
  unfold opReleaseWait
  try dsimp only
  repeat' first
    | with_reducible assumption | with_reducible apply raise__canon | split | intro _ | with_reducible refine Canonical.of_mk ?_ rfl rfl rfl rfl rfl

theorem opInputRead_canon (c : Fin 48) (m : Option (BitVec 16)) (bytes : List Byte) (s : State) (h_s : Canonical s) : Canonical
      (opInputRead c m bytes s) := by
  unfold opInputRead
  try dsimp only
  repeat' first | with_reducible assumption | split | intro _ | with_reducible refine Canonical.of_mk ?_ rfl rfl rfl rfl rfl

theorem opDoorbell_canon (w : BitVec 64) (s : State) (h_s : Canonical s) : Canonical (opDoorbell w s) := by
  unfold opDoorbell
  try dsimp only
  repeat' first
    | with_reducible assumption
    | with_reducible
        first | apply flushCompletions_canon | apply raise__canon
    | split | intro _ | with_reducible refine Canonical.of_mk ?_ rfl rfl rfl rfl rfl

theorem roceArrives_canon (p qp gid : Nat) (act : Nat → State → State) (s : State) (h_act : ∀ (x0 : Nat) (x1 : State), Canonical x1 → Canonical
      (act x0 x1)) (h_s : Canonical s) : Canonical (roceArrives p qp gid act s) := by
  unfold roceArrives
  try dsimp only
  repeat' first
    | with_reducible assumption
    | with_reducible
        first | apply h_act | apply bumpEth_canon | apply powered_canon | apply raiseEth_canon
    | split | intro _ | with_reducible refine Canonical.of_mk ?_ rfl rfl rfl rfl rfl

theorem refuseRdma_canon (p i qp : Nat) (s : State) (h_s : Canonical s) : Canonical (refuseRdma p i qp s) := by
  unfold refuseRdma
  try dsimp only
  repeat' first
    | with_reducible assumption
    | with_reducible
        first | apply bumpEth_canon | apply emit_canon | apply failover_canon | apply qpError_canon | apply raiseEth_canon

theorem opRdmaWrite_canon (p : Fin 8) (qp : BitVec 24) (gid : BitVec 128) (rkey : BitVec 32) (va : BitVec 64) (bytes : List Byte) (s : State)
      (h_s : Canonical s) : Canonical (opRdmaWrite p qp gid rkey va bytes s) := by
  unfold opRdmaWrite
  try dsimp only
  repeat' first
    | with_reducible assumption
    | with_reducible
        first | apply bumpEth_canon | apply emit_canon | apply opDoorbell_canon | apply putMem_canon | apply refuseRdma_canon
              | apply roceArrives_canon
    | split | intro _ | with_reducible refine Canonical.of_mk ?_ rfl rfl rfl rfl rfl

theorem windowRead_canon (a n : Nat) (s : State) (h_s : Canonical s) : Canonical (windowRead a n s).2 := by
  unfold windowRead
  try dsimp only
  repeat' first
    | with_reducible assumption | with_reducible apply freeBytes_canon | split | intro _ | with_reducible refine Canonical.of_mk ?_ rfl rfl rfl rfl rfl

theorem opRdmaRead_canon (p : Fin 8) (qp : BitVec 24) (gid : BitVec 128) (rkey : BitVec 32) (va : BitVec 64) (len : BitVec 32) (s : State)
      (h_s : Canonical s) : Canonical (opRdmaRead p qp gid rkey va len s) := by
  unfold opRdmaRead
  try dsimp only
  repeat' first
    | with_reducible assumption
    | with_reducible
        first | apply bumpEth_canon | apply emit_canon | apply failover_canon | apply qpError_canon | apply raiseEth_canon | apply refuseRdma_canon
              | apply roceArrives_canon | apply stackUncorrectable_canon | apply windowRead_canon
    | split | intro _

theorem opPause_canon (p : Fin 8) (prio : Fin 8) (quanta : BitVec 16) (s : State) (h_s : Canonical s) : Canonical (opPause p prio quanta s) := by
  unfold opPause
  try dsimp only
  repeat' first
    | with_reducible assumption
    | with_reducible
        first | apply bumpEth_canon | apply modEth_canon | apply powered_canon
    | split | intro _ | with_reducible refine Canonical.of_mk ?_ rfl rfl rfl rfl rfl

theorem opFifo_canon (p : Fin 8) (prio : Fin 8) (above : Bool) (s : State) (h_s : Canonical s) : Canonical (opFifo p prio above s) := by
  unfold opFifo
  try dsimp only
  repeat' first
    | with_reducible assumption
    | with_reducible
        first | apply bumpEth_canon | apply emit_canon | apply modEth_canon | apply powered_canon
    | split | intro _ | with_reducible refine Canonical.of_mk ?_ rfl rfl rfl rfl rfl

theorem opPausePersistence_canon (p : Fin 8) (prio : Fin 8) (s : State) (h_s : Canonical s) : Canonical (opPausePersistence p prio s) := by
  unfold opPausePersistence
  try dsimp only
  repeat' first
    | with_reducible assumption
    | with_reducible
        first | apply modEth_canon | apply raiseEth_canon
    | split | intro _ | with_reducible refine Canonical.of_mk ?_ rfl rfl rfl rfl rfl

theorem opCeMarked_canon (p : Fin 8) (qp : BitVec 24) (s : State) (h_s : Canonical s) : Canonical (opCeMarked p qp s) := by
  unfold opCeMarked
  try dsimp only
  repeat' first
    | with_reducible assumption
    | with_reducible
        first | apply bumpEth_canon | apply emit_canon | apply modEth_canon | apply powered_canon
    | split | intro _ | with_reducible refine Canonical.of_mk ?_ rfl rfl rfl rfl rfl

theorem opCnp_canon (p : Fin 8) (qp : BitVec 24) (s : State) (h_s : Canonical s) : Canonical (opCnp p qp s) := by
  unfold opCnp
  try dsimp only
  repeat' first
    | with_reducible assumption
    | with_reducible
        first | apply bumpEth_canon | apply modEth_canon | apply powered_canon
    | intro _ | with_reducible refine Canonical.of_mk ?_ rfl rfl rfl rfl rfl

theorem opRateRecovery_canon (p : Fin 8) (qp : BitVec 24) (s : State) (h_s : Canonical s) : Canonical (opRateRecovery p qp s) := by
  unfold opRateRecovery
  try dsimp only
  repeat' first
    | with_reducible assumption
    | with_reducible
        first | apply modEth_canon | apply powered_canon
    | intro _ | with_reducible refine Canonical.of_mk ?_ rfl rfl rfl rfl rfl

theorem opPtp_canon (p : Fin 8) (domain : BitVec 7) (time : BitVec 64) (offset : BitVec 32) (s : State) (h_s : Canonical s) : Canonical
      (opPtp p domain time offset s) := by
  unfold opPtp
  try dsimp only
  repeat' first
    | with_reducible assumption
    | with_reducible
        first | apply bumpEth_canon | apply powered_canon | apply setReg_canon
    | split | intro _ | with_reducible refine Canonical.of_mk ?_ rfl rfl rfl rfl rfl

theorem releaseHost_canon (s : State) (h_s : Canonical s) : Canonical (releaseHost s) := by
  unfold releaseHost
  try dsimp only
  repeat' first
    | with_reducible assumption
    | with_reducible
        first | apply allOf_canon | apply complete_canon
    | intro _ | with_reducible refine Canonical.of_mk ?_ rfl rfl rfl rfl rfl

theorem sendRecord_canon (type coord : Nat) (r : RecRecord) (s : State) (h_s : Canonical s) : Canonical (sendRecord type coord r s) := by
  unfold sendRecord
  try dsimp only
  repeat' first | with_reducible assumption | with_reducible apply sendMsg_canon

theorem sendToMembers_canon (type : Nat) (r : RecRecord) (s : State) (h_s : Canonical s) : Canonical (sendToMembers type r s) := by
  unfold sendToMembers
  try dsimp only
  repeat' first | with_reducible assumption | with_reducible (first | apply allOf_canon | apply sendRecord_canon) | intro _

theorem showDurable_canon (s : State) (h_s : Canonical s) : Canonical (showDurable s) := by
  unfold showDurable
  try dsimp only
  repeat' first | with_reducible assumption | with_reducible apply setReg_canon

theorem holdGeneration_canon (n : Nat) (s : State) (h_s : Canonical s) : Canonical (holdGeneration n s) := by
  unfold holdGeneration
  try dsimp only
  repeat' first
    | with_reducible assumption
    | with_reducible
        first | apply bumpReg_canon | apply setReg_canon
    | split | intro _ | with_reducible refine Canonical.of_mk ?_ rfl rfl rfl rfl rfl

theorem holdTarget_canon (n : Nat) (s : State) (h_s : Canonical s) : Canonical (holdTarget n s) := by
  unfold holdTarget
  try dsimp only
  repeat' first
    | with_reducible assumption | with_reducible apply setReg_canon | intro _ | with_reducible refine Canonical.of_mk ?_ rfl rfl rfl rfl rfl

theorem memberComplete_canon (n : Nat) (s : State) (h_s : Canonical s) : Canonical (memberComplete n s) := by
  unfold memberComplete
  try dsimp only
  repeat' first | with_reducible assumption | with_reducible (first | apply holdGeneration_canon | apply holdTarget_canon) | split

theorem takeDrained_canon (coord n : Nat) (s : State) (h_s : Canonical s) : Canonical (takeDrained coord n s) := by
  unfold takeDrained
  try dsimp only
  repeat' first
    | with_reducible assumption
    | with_reducible
        first | apply memberComplete_canon | apply sendToMembers_canon
    | split | intro _ | with_reducible refine Canonical.of_mk ?_ rfl rfl rfl rfl rfl

theorem tryDrained_canon (s : State) (h_s : Canonical s) : Canonical (tryDrained s) := by
  unfold tryDrained
  try dsimp only
  repeat' first
    | with_reducible assumption
    | with_reducible
        first | apply sendRecord_canon | apply setReg_canon | apply takeDrained_canon
    | split | intro _ | with_reducible refine Canonical.of_mk ?_ rfl rfl rfl rfl rfl

theorem stopDrain_canon (s : State) (h_s : Canonical s) : Canonical (stopDrain s) := by
  unfold stopDrain
  try dsimp only
  repeat' first
    | with_reducible assumption
    | with_reducible
        first | apply raise__canon | apply setReg_canon
    | split | intro _ | with_reducible refine Canonical.of_mk ?_ rfl rfl rfl rfl rfl

theorem setShard_canon (k : Nat) (sh : Shard) (s : State) (h_s : Canonical s) : Canonical (setShard k sh s) := by
  unfold setShard
  try dsimp only
  repeat' first | with_reducible assumption | with_reducible refine Canonical.of_mk ?_ rfl rfl rfl rfl rfl

theorem stageJournal_canon (d : Nat) (bs : List Byte) (s : State) (h_s : Canonical s) : Canonical (stageJournal d bs s) := by
  unfold stageJournal
  try dsimp only
  repeat' first
    | with_reducible assumption | with_reducible apply setJournal_canon | split | with_reducible refine Canonical.of_mk ?_ rfl rfl rfl rfl rfl

theorem keepUndo_canon (d addr n : Nat) (s : State) (h_s : Canonical s) : Canonical (keepUndo d addr n s) := by
  unfold keepUndo
  try dsimp only
  repeat' first | with_reducible assumption | intro _ | with_reducible refine Canonical.of_mk ?_ rfl rfl rfl rfl rfl

theorem writeRow_canon (sh : Shard) (t : TableDesc) (table row : Nat) (entry : Option Nat) (slot : Nat) (rec_ : Option (List Byte)) (s : State)
      (h_s : Canonical s) : Canonical (writeRow sh t table row entry slot rec_ s) := by
  unfold writeRow
  try dsimp only
  repeat' first
    | with_reducible assumption
    | with_reducible
        first | apply keepUndo_canon | apply putMem_canon | apply stageJournal_canon
    | split | intro _ | with_reducible refine Canonical.of_mk ?_ rfl rfl rfl rfl rfl

theorem endCommit_canon (step : Nat) (s : State) (h_s : Canonical s) : Canonical (endCommit step s) := by
  unfold endCommit
  try dsimp only
  repeat' first
    | with_reducible assumption
    | with_reducible
        first | apply allOf_canon | apply flushJournals_canon | apply setJournal_canon | apply showDurable_canon | apply stageJournal_canon
              | apply foldl_canon | apply foldl_canon1 | apply foldl_canon2
    | split | intro _ | with_reducible refine Canonical.of_mk ?_ rfl rfl rfl rfl rfl

theorem startImage_canon (step : Nat) (s : State) (h_s : Canonical s) : Canonical (startImage step s) := by
  unfold startImage
  try dsimp only
  repeat' first
    | with_reducible assumption
    | with_reducible
        first | apply allOf_canon | apply emit_canon | apply flushJournals_canon | apply setJournal_canon | apply stageJournal_canon
              | apply foldl_canon | apply foldl_canon1 | apply foldl_canon2
    | split | intro _ | with_reducible refine Canonical.of_mk ?_ rfl rfl rfl rfl rfl

theorem finishImage_canon (step : Nat) (s : State) (h_s : Canonical s) : Canonical (finishImage step s) := by
  unfold finishImage
  try dsimp only
  repeat' first
    | with_reducible assumption | with_reducible apply setReg_canon | split | intro _ | with_reducible refine Canonical.of_mk ?_ rfl rfl rfl rfl rfl

theorem opJournalAck_canon (d : Fin 4) (upTo : BitVec 64) (image : Bool) (s : State) (h_s : Canonical s) : Canonical
      (opJournalAck d upTo image s) := by
  unfold opJournalAck
  try dsimp only
  repeat' first
    | with_reducible assumption
    | with_reducible
        first | apply flushJournals_canon | apply powered_canon | apply setJournal_canon | apply showDurable_canon | apply tryDrained_canon
              | apply foldl_canon | apply foldl_canon1 | apply foldl_canon2
    | split | intro _ | with_reducible refine Canonical.of_mk ?_ rfl rfl rfl rfl rfl

theorem opJournalWait_canon (s : State) (h_s : Canonical s) : Canonical (opJournalWait s) := by
  unfold opJournalWait
  try dsimp only
  repeat' first
    | with_reducible assumption
    | with_reducible
        first | apply holdNow_canon | apply raise__canon
    | split | intro _ | with_reducible refine Canonical.of_mk ?_ rfl rfl rfl rfl rfl

theorem holdPage_canon (page : Nat) (up : Bool) (s : State) (h_s : Canonical s) : Canonical (holdPage page up s) := by
  unfold holdPage
  try dsimp only
  repeat' first
    | with_reducible assumption | with_reducible apply dropPage_canon | split | with_reducible refine Canonical.of_mk ?_ rfl rfl rfl rfl rfl

theorem takeSlot_canon (k slot : Nat) (s : State) (h_s : Canonical s) : Canonical (takeSlot k slot s) := by
  unfold takeSlot
  try dsimp only
  repeat' first
    | with_reducible assumption
    | with_reducible
        first | apply holdPage_canon | apply setShard_canon
    | split | intro _ | with_reducible refine Canonical.of_mk ?_ rfl rfl rfl rfl rfl

theorem returnSlot_canon (k slot : Nat) (s : State) (h_s : Canonical s) : Canonical (returnSlot k slot s) := by
  unfold returnSlot
  try dsimp only
  repeat' first
    | with_reducible assumption
    | with_reducible
        first | apply holdPage_canon | apply setShard_canon
    | split | intro _ | with_reducible refine Canonical.of_mk ?_ rfl rfl rfl rfl rfl

theorem showDrains_canon (s : State) (h_s : Canonical s) : Canonical (showDrains s) := by
  unfold showDrains
  try dsimp only
  repeat' first
    | with_reducible assumption | with_reducible apply setReg_canon | split | intro _ | with_reducible refine Canonical.of_mk ?_ rfl rfl rfl rfl rfl

theorem drainSlot_canon (k slot : Nat) (s : State) (h_s : Canonical s) : Canonical (drainSlot k slot s) := by
  unfold drainSlot
  try dsimp only
  repeat' first | with_reducible assumption | with_reducible apply showDrains_canon | with_reducible refine Canonical.of_mk ?_ rfl rfl rfl rfl rfl

theorem opDrainEnd_canon (r : DrainRef) (s : State) (h_s : Canonical s) : Canonical (opDrainEnd r s) := by
  unfold opDrainEnd
  try dsimp only
  repeat' first
    | with_reducible assumption
    | with_reducible
        first | apply returnSlot_canon | apply showDrains_canon
    | split | intro _ | with_reducible refine Canonical.of_mk ?_ rfl rfl rfl rfl rfl

theorem copySource_canon (e : ReplEntry) (s : State) (h_s : Canonical s) : Canonical (copySource e s) := by
  unfold copySource
  try dsimp only
  repeat' first | with_reducible assumption | with_reducible apply putMem_canon | split | with_reducible refine Canonical.of_mk ?_ rfl rfl rfl rfl rfl

theorem applyEntry_canon (atCommit : Bool) (e : ReplEntry) (s : State) (h_s : Canonical s) : Canonical (applyEntry atCommit e s) := by
  unfold applyEntry
  try dsimp only
  repeat' first
    | with_reducible assumption
    | with_reducible
        first | apply bumpReg_canon | apply drainSlot_canon | apply putMem_canon | apply writeRow_canon
    | split | with_reducible refine Canonical.of_mk ?_ rfl rfl rfl rfl rfl

theorem stageEntry_canon (e : ReplEntry) (s : State) (h_s : Canonical s) : Canonical (stageEntry e s) := by
  unfold stageEntry
  try dsimp only
  repeat' first
    | with_reducible assumption
    | with_reducible
        first | apply allOf_canon | apply bumpReg_canon | apply putMem_canon | apply returnSlot_canon | apply setShard_canon
    | split | intro _ | with_reducible refine Canonical.of_mk ?_ rfl rfl rfl rfl rfl

theorem setEntry_canon (cseq i : Nat) (e : ReplEntry) (s : State) (h_s : Canonical s) : Canonical (setEntry cseq i e s) := by
  unfold setEntry
  try dsimp only
  repeat' first | with_reducible assumption | split | intro _ | with_reducible refine Canonical.of_mk ?_ rfl rfl rfl rfl rfl

theorem finishRequests_canon (s : State) (h_s : Canonical s) : Canonical (finishRequests s) := by
  unfold finishRequests
  try dsimp only
  repeat' first
    | with_reducible assumption
    | with_reducible
        first | apply allOf_canon | apply complete_canon
    | intro _ | with_reducible refine Canonical.of_mk ?_ rfl rfl rfl rfl rfl

theorem afterCopy_canon (r : ReplReq) (i : Nat) (e : ReplEntry) (s : State) (h_s : Canonical s) : Canonical (afterCopy r i e s) := by
  unfold afterCopy
  try dsimp only
  repeat' first
    | with_reducible assumption
    | with_reducible
        first | apply applyEntry_canon | apply setEntry_canon | apply stageEntry_canon
    | split | with_reducible refine Canonical.of_mk ?_ rfl rfl rfl rfl rfl

theorem opSourceCopy_canon (cseq : BitVec 32) (i : BitVec 24) (s : State) (h_s : Canonical s) : Canonical (opSourceCopy cseq i s) := by
  unfold opSourceCopy
  try dsimp only
  repeat' first
    | with_reducible assumption
    | with_reducible
        first | apply afterCopy_canon | apply copySource_canon | apply finishRequests_canon
    | split | intro _ | with_reducible refine Canonical.of_mk ?_ rfl rfl rfl rfl rfl

theorem copyBank_canon (k : Nat) (s : State) (h_s : Canonical s) : Canonical (copyBank k s) := by
  unfold copyBank
  try dsimp only
  repeat' first
    | with_reducible assumption
    | with_reducible
        first | apply putMem_canon | apply setShard_canon
    | split | with_reducible refine Canonical.of_mk ?_ rfl rfl rfl rfl rfl

theorem acceptEntry_canon (e : ListEntry) (s : State) (p : List ReplEntry × State) (h_s : Canonical s)
      (h : acceptEntry e s = some p) : Canonical p.2 := by
  unfold acceptEntry at h
  dsimp only at h
  split at h
  · cases h
  · cases h
    dsimp only
    split
    · exact h_s
    · exact allOf_canon _ _ _ (fun x s hs => takeSlot_canon _ _ s hs) h_s


theorem acceptEntries_canon (es : List ListEntry) (s : State) (h_s : Canonical s) : Canonical (acceptEntries es s).2.2 := by
  induction es generalizing s with
  | nil => exact h_s
  | cons e es ih =>
    simp only [acceptEntries]
    split
    · exact ih _ (raise__canon _ _ (bumpReg_canon _ _ _ h_s))
    · exact ih _ (acceptEntry_canon _ _ _ h_s ‹_›)


theorem startRequest_canon (r : ReplReq) (s : State) (h_s : Canonical s) : Canonical (startRequest r s) := by
  unfold startRequest
  try dsimp only
  repeat' first
    | with_reducible assumption
    | with_reducible
        first | apply afterCopy_canon | apply allOf_canon | apply finishRequests_canon | apply setEntry_canon
    | split | intro _ | with_reducible refine Canonical.of_mk ?_ rfl rfl rfl rfl rfl

theorem opReplace_canon (n : Nat) (s : State) (h_s : Canonical s) : Canonical (opReplace n s) := by
  unfold opReplace
  try dsimp only
  repeat' first
    | with_reducible assumption
    | with_reducible
        first | apply acceptEntries_canon | apply bumpReg_canon | apply raise__canon | apply refuseRecord_canon | apply startRequest_canon
    | split | intro _ | with_reducible refine Canonical.of_mk ?_ rfl rfl rfl rfl rfl

theorem flipTable_canon (table : Nat) (s : State) (h_s : Canonical s) : Canonical (flipTable table s) := by
  unfold flipTable
  try dsimp only
  repeat' first
    | with_reducible assumption
    | with_reducible
        first | apply allOf_canon | apply bumpReg_canon | apply drainSlot_canon | apply keepUndo_canon | apply putMem_canon | apply setShard_canon
              | apply stageJournal_canon
    | split | intro _ | with_reducible refine Canonical.of_mk ?_ rfl rfl rfl rfl rfl

theorem finishStaged_canon (table : Nat) (s : State) (h_s : Canonical s) : Canonical (finishStaged table s) := by
  unfold finishStaged
  try dsimp only
  repeat' first
    | with_reducible assumption
    | with_reducible
        first | apply afterCopy_canon | apply allOf_canon | apply copyBank_canon | apply copySource_canon | apply finishRequests_canon
    | split | intro _

theorem applyReplacements_canon (step : Nat) (s : State) (h_s : Canonical s) : Canonical (applyReplacements step s) := by
  unfold applyReplacements
  try dsimp only
  repeat' first
    | with_reducible assumption
    | with_reducible
        first | apply allOf_canon | apply applyEntry_canon | apply complete_canon | apply copySource_canon | apply finishStaged_canon
              | apply flipTable_canon
    | split | intro _ | with_reducible refine Canonical.of_mk ?_ rfl rfl rfl rfl rfl

theorem sendReplica_canon (h : HotRow) (bs : List Byte) (s : State) (h_s : Canonical s) : Canonical (sendReplica h bs s) := by
  unfold sendReplica
  try dsimp only
  repeat' first | with_reducible assumption | with_reducible (first | apply allOf_canon | apply sendMsg_canon) | intro _

theorem markHot_canon (h : HotRow) (hot : Bool) (s : State) (h_s : Canonical s) : Canonical (markHot h hot s) := by
  unfold markHot
  try dsimp only
  repeat' first
    | with_reducible assumption
    | with_reducible
        first | apply allOf_canon | apply putMem_canon
    | split | intro _ | with_reducible refine Canonical.of_mk ?_ rfl rfl rfl rfl rfl

theorem refreshReplicas_canon (written : List Nat) (s : State) (h_s : Canonical s) : Canonical (refreshReplicas written s) := by
  unfold refreshReplicas
  try dsimp only
  repeat' first
    | with_reducible assumption
    | with_reducible
        first | apply allOf_canon | apply bumpReg_canon | apply markHot_canon | apply sendReplica_canon
    | split | intro _ | with_reducible refine Canonical.of_mk ?_ rfl rfl rfl rfl rfl

theorem showLevels_canon (s : State) (h_s : Canonical s) : Canonical (showLevels s) := by
  unfold showLevels
  try dsimp only
  repeat' first | with_reducible assumption | with_reducible apply setReg_canon | intro _

theorem endWindow_canon (die : Nat) (s : State) (h_s : Canonical s) : Canonical (endWindow die s) := by
  unfold endWindow
  try dsimp only
  repeat' first
    | with_reducible assumption
    | with_reducible
        first | apply allOf_canon | apply bumpReg_canon | apply markHot_canon | apply raiseAt_canon | apply showLevels_canon | apply foldl_canon
              | apply foldl_canon1 | apply foldl_canon2
    | split | intro _ | with_reducible refine Canonical.of_mk ?_ rfl rfl rfl rfl rfl

theorem stepWindow_canon (die : Nat) (s : State) (h_s : Canonical s) : Canonical (stepWindow die s) := by
  unfold stepWindow
  try dsimp only
  repeat' first
    | with_reducible assumption
    | with_reducible
        first | apply bumpReg_canon | apply endWindow_canon | apply setReg_canon
    | split | intro _ | with_reducible refine Canonical.of_mk ?_ rfl rfl rfl rfl rfl

theorem commitHall_canon (written : List Nat) (s : State) (h_s : Canonical s) : Canonical (commitHall written s) := by
  unfold commitHall
  try dsimp only
  repeat' first
    | with_reducible assumption
    | with_reducible
        first | apply allOf_canon | apply refreshReplicas_canon | apply stepWindow_canon
    | intro _ | with_reducible refine Canonical.of_mk ?_ rfl rfl rfl rfl rfl

end Sys2Proof.Machine
end

