-- ==== Sys2Proof/Laws/CanonicalSteps.lean ====
section
/-!
SUPPORT. The canonical form is kept by gradient reduction, steps, the gallery, votes, decisions and recovery.
-/

set_option linter.all false

namespace Sys2Proof.Machine
open Sys2Proof

theorem sendReduce_canon (d ep : Nat) (m : ReduceMsg) (s : State) (h_s : Canonical s) : Canonical (sendReduce d ep m s) := by
  unfold sendReduce
  try dsimp only
  repeat' first
    | with_reducible assumption | with_reducible apply sendMsg_canon | split | with_reducible refine Canonical.of_mk ?_ rfl rfl rfl rfl rfl

theorem setNodeRt_canon (i : Nat) (r : NodeRt) (s : State) (h_s : Canonical s) : Canonical (setNodeRt i r s) := by
  unfold setNodeRt
  try dsimp only
  repeat' first | with_reducible assumption | with_reducible refine Canonical.of_mk ?_ rfl rfl rfl rfl rfl

theorem sendUp_canon (i : Nat) (n : Node) (ms : List ReduceMsg) (s : State) (h_s : Canonical s) : Canonical (sendUp i n ms s) := by
  unfold sendUp
  try dsimp only
  repeat' first
    | with_reducible assumption
    | with_reducible
        first | apply allOf_canon | apply sendReduce_canon | apply setNodeRt_canon
    | intro _ | with_reducible refine Canonical.of_mk ?_ rfl rfl rfl rfl rfl

theorem writeGroup_canon (n : Node) (i : Nat) (sums : List Int) (a : Nat) (s : State) (h_s : Canonical s) : Canonical (writeGroup n i sums a s) := by
  unfold writeGroup
  try dsimp only
  repeat' first
    | with_reducible assumption
    | with_reducible
        first | apply bumpReg_canon | apply modTile_canon | apply putMem_canon | apply raiseAt_canon
    | split | intro _ | with_reducible refine Canonical.of_mk ?_ rfl rfl rfl rfl rfl

theorem signalUnit_canon (d ep : Nat) (tk : Fin 64) (s : State) (h_s : Canonical s) : Canonical (signalUnit d ep tk s) := by
  unfold signalUnit
  try dsimp only
  repeat' first | with_reducible assumption | with_reducible (first | apply arriveCore_canon | apply arriveToken_canon | apply sendMsg_canon) | split

theorem rootDone_canon (i : Nat) (n : Node) (groups : List (List Int × Nat)) (s : State) (h_s : Canonical s) : Canonical (rootDone i n groups s) := by
  unfold rootDone
  try dsimp only
  repeat' first
    | with_reducible assumption
    | with_reducible
        first | apply allOf_canon | apply bumpReg_canon | apply setNodeRt_canon | apply signalUnit_canon | apply writeGroup_canon
    | split | intro _ | with_reducible refine Canonical.of_mk ?_ rfl rfl rfl rfl rfl

theorem leafSums_canon (i : Nat) (n : Node) (a : Nat → Nat) (s : State) (h_s : Canonical s) : Canonical (leafSums i n a s) := by
  unfold leafSums
  try dsimp only
  repeat' first
    | with_reducible assumption
    | with_reducible
        first | apply allOf_canon | apply bumpReg_canon | apply putMem_canon | apply sendUp_canon
    | split | intro _

theorem leafStart_canon (i : Nat) (n : Node) (s : State) (h_s : Canonical s) : Canonical (leafStart i n s) := by
  unfold leafStart
  try dsimp only
  repeat' first
    | with_reducible assumption
    | with_reducible
        first | apply rootDone_canon | apply sendUp_canon | apply stackUncorrectable_canon
    | split | intro _ | with_reducible refine Canonical.of_mk ?_ rfl rfl rfl rfl rfl

theorem sendAgreed_canon (n : Node) (r : NodeRt) (a : List Nat) (s : State) (h_s : Canonical s) : Canonical (sendAgreed n r a s) := by
  unfold sendAgreed
  try dsimp only
  repeat' first
    | with_reducible assumption
    | with_reducible
        first | apply allOf_canon | apply sendReduce_canon
    | intro _ | with_reducible refine Canonical.of_mk ?_ rfl rfl rfl rfl rfl

theorem progress_canon (i : Nat) (n : Node) (s : State) (h_s : Canonical s) : Canonical (progress i n s) := by
  unfold progress
  try dsimp only
  repeat' first
    | with_reducible assumption
    | with_reducible
        first | apply bumpReg_canon | apply rootDone_canon | apply sendAgreed_canon | apply sendUp_canon | apply setNodeRt_canon | apply foldl_canon
              | apply foldl_canon1 | apply foldl_canon2
    | split | intro _ | with_reducible refine Canonical.of_mk ?_ rfl rfl rfl rfl rfl

theorem noPosition_canon (d : Nat) (s : State) (h_s : Canonical s) : Canonical (noPosition d s) := by
  unfold noPosition
  try dsimp only
  repeat' first | with_reducible assumption | with_reducible (first | apply bumpReg_canon | apply raiseAt_canon)

theorem residueFailed_canon (src : Nat) (layer shard : Nat) (s : State) (h_s : Canonical s) : Canonical (residueFailed src layer shard s) := by
  unfold residueFailed
  try dsimp only
  repeat' first
    | with_reducible assumption
    | with_reducible
        first | apply abortAttempt_canon | apply raiseUnit_canon
    | with_reducible refine Canonical.of_mk ?_ rfl rfl rfl rfl rfl

theorem takeCodes_canon (i : Nat) (n : Node) (m : ReduceMsg) (s : State) (h_s : Canonical s) : Canonical (takeCodes i n m s) := by
  unfold takeCodes
  try dsimp only
  repeat' first
    | with_reducible assumption
    | with_reducible
        first | apply noPosition_canon | apply progress_canon | apply setNodeRt_canon | apply foldl_canon | apply foldl_canon1 | apply foldl_canon2
    | split | intro _ | with_reducible refine Canonical.of_mk ?_ rfl rfl rfl rfl rfl

theorem takeValues_canon (i : Nat) (n : Node) (m : ReduceMsg) (s : State) (h_s : Canonical s) : Canonical (takeValues i n m s) := by
  unfold takeValues
  try dsimp only
  repeat' first
    | with_reducible assumption
    | with_reducible
        first | apply bumpReg_canon | apply highReg_canon | apply noPosition_canon | apply progress_canon | apply residueFailed_canon
              | apply sendReduce_canon | apply setNodeRt_canon | apply foldl_canon | apply foldl_canon1 | apply foldl_canon2
    | split | intro _ | with_reducible refine Canonical.of_mk ?_ rfl rfl rfl rfl rfl

theorem takeHash_canon (i : Nat) (n : Node) (m : ReduceMsg) (s : State) (h_s : Canonical s) : Canonical (takeHash i n m s) := by
  unfold takeHash
  try dsimp only
  repeat' first
    | with_reducible assumption
    | with_reducible
        first | apply abortAttempt_canon | apply bumpReg_canon | apply noPosition_canon | apply progress_canon | apply raiseUnit_canon
              | apply setNodeRt_canon
    | split | intro _ | with_reducible refine Canonical.of_mk ?_ rfl rfl rfl rfl rfl

theorem takeAgreed_canon (d : Nat) (m : ReduceMsg) (s : State) (h_s : Canonical s) : Canonical (takeAgreed d m s) := by
  unfold takeAgreed
  try dsimp only
  repeat' first
    | with_reducible assumption
    | with_reducible
        first | apply allOf_canon | apply leafSums_canon | apply noPosition_canon | apply progress_canon | apply sendAgreed_canon
              | apply setNodeRt_canon | apply foldl_canon | apply foldl_canon1 | apply foldl_canon2
    | split | intro _ | with_reducible refine Canonical.of_mk ?_ rfl rfl rfl rfl rfl

theorem takeResend_canon (d : Nat) (m : ReduceMsg) (s : State) (h_s : Canonical s) : Canonical (takeResend d m s) := by
  unfold takeResend
  try dsimp only
  repeat' first
    | with_reducible assumption
    | with_reducible
        first | apply allOf_canon | apply noPosition_canon | apply sendReduce_canon
    | split | intro _ | with_reducible refine Canonical.of_mk ?_ rfl rfl rfl rfl rfl

theorem setTableRed_canon (table d : Nat) (r : TableRed) (s : State) (h_s : Canonical s) : Canonical (setTableRed table d r s) := by
  unfold setTableRed
  try dsimp only
  repeat' first | with_reducible assumption | with_reducible refine Canonical.of_mk ?_ rfl rfl rfl rfl rfl

theorem sendTable_canon (table d : Nat) (merged : List (Nat × List Nat)) (s : State) (h_s : Canonical s) : Canonical
      (sendTable table d merged s) := by
  unfold sendTable
  try dsimp only
  repeat' first
    | with_reducible assumption
    | with_reducible
        first | apply allOf_canon | apply sendReduce_canon
    | intro _ | with_reducible refine Canonical.of_mk ?_ rfl rfl rfl rfl rfl

theorem finishTable_canon (table d : Nat) (r : TableRed) (s : State) (h_s : Canonical s) : Canonical (finishTable table d r s) := by
  unfold finishTable
  try dsimp only
  repeat' first
    | with_reducible assumption
    | with_reducible
        first | apply allOf_canon | apply sendReduce_canon | apply foldl_canon | apply foldl_canon1 | apply foldl_canon2
    | intro _ | with_reducible refine Canonical.of_mk ?_ rfl rfl rfl rfl rfl

theorem takeTable_canon (d : Nat) (m : ReduceMsg) (s : State) (h_s : Canonical s) : Canonical (takeTable d m s) := by
  unfold takeTable
  try dsimp only
  repeat' first
    | with_reducible assumption
    | with_reducible
        first | apply bumpReg_canon | apply finishTable_canon | apply residueFailed_canon | apply setTableRed_canon
    | split | intro _ | with_reducible refine Canonical.of_mk ?_ rfl rfl rfl rfl rfl

theorem applyReduce_canon (d : Nat) (m : ReduceMsg) (s : State) (h_s : Canonical s) : Canonical (applyReduce d m s) := by
  unfold applyReduce
  try dsimp only
  repeat' first
    | with_reducible assumption
    | with_reducible
        first | apply noPosition_canon | apply takeAgreed_canon | apply takeCodes_canon | apply takeHash_canon | apply takeResend_canon
              | apply takeTable_canon | apply takeValues_canon
    | split | intro _ | with_reducible refine Canonical.of_mk ?_ rfl rfl rfl rfl rfl

theorem drainReduce_canon (n : Nat) (s : State) (h_s : Canonical s) : Canonical (drainReduce n s) := by
  induction n generalizing s with
  | zero => exact h_s
  | succ n ih =>
    simp only [drainReduce]
    split
    · exact h_s
    · exact ih _ (applyReduce_canon _ _ _ (Canonical.upd h_s rfl rfl rfl rfl rfl))


theorem arriveReduce_canon (d : Nat) (m : ReduceMsg) (s : State) (h_s : Canonical s) : Canonical (arriveReduce d m s) := by
  unfold arriveReduce
  try dsimp only
  repeat' first
    | with_reducible assumption
    | with_reducible
        first | apply applyReduce_canon | apply bumpReg_canon | apply drainReduce_canon
    | split | with_reducible refine Canonical.of_mk ?_ rfl rfl rfl rfl rfl

theorem opReductionStart_canon (s : State) (h_s : Canonical s) : Canonical (opReductionStart s) := by
  unfold opReductionStart
  try dsimp only
  repeat' first
    | with_reducible assumption
    | with_reducible
        first | apply allOf_canon | apply bumpReg_canon | apply drainReduce_canon | apply leafStart_canon | apply sendTable_canon
    | split | intro _ | with_reducible refine Canonical.of_mk ?_ rfl rfl rfl rfl rfl

theorem opReduceMsg_canon (op : Nat) (d : Fin 4) (m : ReduceMsg) (s : State) (h_s : Canonical s) : Canonical (opReduceMsg op d m s) := by
  unfold opReduceMsg
  try dsimp only
  repeat' first
    | with_reducible assumption | with_reducible apply arriveReduce_canon | split | with_reducible refine Canonical.of_mk ?_ rfl rfl rfl rfl rfl

theorem takeCatcher_canon (i : Nat) (n : Node) (c : ChildIn) (s : State) (h_s : Canonical s) : Canonical (takeCatcher i n c s) := by
  unfold takeCatcher
  try dsimp only
  repeat' first
    | with_reducible assumption
    | with_reducible
        first | apply bumpReg_canon | apply progress_canon | apply raiseAt_canon | apply setNodeRt_canon
    | split | with_reducible refine Canonical.of_mk ?_ rfl rfl rfl rfl rfl

theorem opCatcherDeadline_canon (d : Fin 4) (layer shard : BitVec 16) (s : State) (h_s : Canonical s) : Canonical
      (opCatcherDeadline d layer shard s) := by
  unfold opCatcherDeadline
  try dsimp only
  repeat' first
    | with_reducible assumption
    | with_reducible
        first | apply allOf_canon | apply drainReduce_canon | apply takeCatcher_canon
    | split | intro _ | with_reducible refine Canonical.of_mk ?_ rfl rfl rfl rfl rfl

theorem loseInputs_canon (lostCoord : Nat → Bool) (s : State) (h_s : Canonical s) : Canonical (loseInputs lostCoord s) := by
  unfold loseInputs
  try dsimp only
  repeat' first
    | with_reducible assumption
    | with_reducible
        first | apply abortAttempt_canon | apply allOf_canon | apply setNodeRt_canon | apply takeCatcher_canon
    | split | intro _ | with_reducible refine Canonical.of_mk ?_ rfl rfl rfl rfl rfl

theorem clearReduce_canon (s : State) (h_s : Canonical s) : Canonical (clearReduce s) := by
  unfold clearReduce
  try dsimp only
  repeat' first | with_reducible assumption | with_reducible refine Canonical.of_mk ?_ rfl rfl rfl rfl rfl

theorem markRunning_canon (s : State) (h_s : Canonical s) : Canonical (markRunning s) := by
  unfold markRunning
  try dsimp only
  repeat' first | with_reducible assumption | intro _ | with_reducible refine Canonical.of_mk ?_ rfl rfl rfl rfl rfl

theorem applyEarlyDie_canon (d : Nat) (tag : BitVec 12) (s : State) (h_s : Canonical s) : Canonical (applyEarlyDie d tag s) := by
  unfold applyEarlyDie
  dsimp only
  refine allOf_canon _ _ _ (fun x s hs => ?_) (early_canon _ _ _ h_s)
  repeat' first | with_reducible assumption | with_reducible (first | apply coreSignal_canon | apply inboxEntry_canon) | split


theorem openState_canon (s : State) (h_s : Canonical s) : Canonical (openState s) := by
  obtain ⟨a, b, c, d, e, f⟩ := parts_of_sizes h_s.sizes
  exact Canonical.sized h_s rfl rfl rfl (smSorted_map (fun (p : Nat × Tile) => (p.1, { p.2 with run := .idle })) (fun _ => rfl) _ h_s.tiles)
      (sizes_of_parts a (List.length_replicate ..) c d e f)


theorem openAttempt_canon (s : State) (h_s : Canonical s) : Canonical (openAttempt s) := by
  unfold openAttempt
  try dsimp only
  repeat' first
    | with_reducible assumption
    | with_reducible
        first | apply markRunning_canon | apply openState_canon | apply returnPlanes_canon | apply setReg_canon
    | split

theorem applyHeld_canon (held : List (Nat × ReduceMsg)) (s : State) (h_s : Canonical s) : Canonical (applyHeld held s) := by
  unfold applyHeld
  try dsimp only
  repeat' first
    | with_reducible assumption
    | with_reducible
        first | apply allOf_canon | apply applyEarlyDie_canon | apply arriveReduce_canon
    | split | intro _

theorem beginAttempt_canon (s : State) (h_s : Canonical s) : Canonical (beginAttempt s) := by
  unfold beginAttempt
  try dsimp only
  repeat' first
    | with_reducible assumption
    | with_reducible
        first | apply abortAttempt_canon | apply applyHeld_canon | apply openAttempt_canon
    | split | with_reducible refine Canonical.of_mk ?_ rfl rfl rfl rfl rfl

theorem reloadHalf_canon (k half : Nat) (s : State) (h_s : Canonical s) : Canonical (reloadHalf k half s) := by
  unfold reloadHalf
  try dsimp only
  repeat' first
    | with_reducible assumption
    | with_reducible
        first | apply bumpReg_canon | apply setTile_canon
    | split | intro _ | with_reducible refine Canonical.of_mk ?_ rfl rfl rfl rfl rfl

theorem applyEarlyTile_canon (k : Nat) (s : State) (h_s : Canonical s) : Canonical (applyEarlyTile k s) := by
  unfold applyEarlyTile
  dsimp only
  refine allOf_canon _ _ _ (fun x s hs => ?_) (early_canon _ _ _ h_s)
  repeat' first | with_reducible assumption | with_reducible (first | apply putLine_canon | apply addToken_canon) | split


theorem opStepStart_canon (k : Nat) (s : State) (h_s : Canonical s) : Canonical (opStepStart k s) := by
  unfold opStepStart
  try dsimp only
  repeat' first
    | with_reducible assumption
    | with_reducible
        first | apply applyEarlyTile_canon | apply beginAttempt_canon | apply reloadHalf_canon | apply setTile_canon
    | split | intro _

theorem opForwardBarrier_canon (s : State) (h_s : Canonical s) : Canonical (opForwardBarrier s) := by
  unfold opForwardBarrier
  try dsimp only
  repeat' first
    | with_reducible assumption | with_reducible apply mapTiles_canon | split | intro _ | with_reducible refine Canonical.of_mk ?_ rfl rfl rfl rfl rfl

theorem opWatchdog_canon (s : State) (h_s : Canonical s) : Canonical (opWatchdog s) := by
  unfold opWatchdog
  try dsimp only
  repeat' first | with_reducible assumption | with_reducible apply abortAttempt_canon | split

theorem opServingInterval_canon (s : State) (h_s : Canonical s) : Canonical (opServingInterval s) := by
  unfold opServingInterval
  try dsimp only
  repeat' first | with_reducible assumption | split | with_reducible refine Canonical.of_mk ?_ rfl rfl rfl rfl rfl

theorem dropAttempt_canon (s : State) (h_s : Canonical s) : Canonical (dropAttempt s) := by
  unfold dropAttempt
  try dsimp only
  repeat' first
    | with_reducible assumption
    | with_reducible
        first | apply clearReduce_canon | apply mapTiles_canon
    | with_reducible refine Canonical.of_mk ?_ rfl rfl rfl rfl rfl

theorem enterHeld_canon (cause : Nat) (s : State) (h_s : Canonical s) : Canonical (enterHeld cause s) := by
  unfold enterHeld
  try dsimp only
  repeat' first | with_reducible assumption | with_reducible apply enter_canon | with_reducible refine Canonical.of_mk ?_ rfl rfl rfl rfl rfl

theorem opMissingDecision_canon (s : State) (h_s : Canonical s) : Canonical (opMissingDecision s) := by
  unfold opMissingDecision
  try dsimp only
  repeat' first
    | with_reducible assumption
    | with_reducible
        first | apply dropAttempt_canon | apply enterHeld_canon | apply raise__canon
    | split | with_reducible refine Canonical.of_mk ?_ rfl rfl rfl rfl rfl

theorem loadTest_canon (g : GalleryRun) (s : State) (h_s : Canonical s) : Canonical (loadTest g s) := by
  unfold loadTest
  try dsimp only
  repeat' first
    | with_reducible assumption
    | with_reducible
        first | apply modTile_canon | apply putMem_canon
    | split | intro _ | with_reducible refine Canonical.of_mk ?_ rfl rfl rfl rfl rfl

theorem addTests_canon (why k : Nat) (tests : List Nat) (s : State) (h_s : Canonical s) : Canonical (addTests why k tests s) := by
  unfold addTests
  try dsimp only
  repeat' first
    | with_reducible assumption | with_reducible apply loadTest_canon | split | intro _ | with_reducible refine Canonical.of_mk ?_ rfl rfl rfl rfl rfl

theorem galleryWindow_canon (dies : List Nat) (n : Nat) (s : State) (h_s : Canonical s) : Canonical (galleryWindow dies n s) := by
  unfold galleryWindow
  try dsimp only
  repeat' first
    | with_reducible assumption
    | with_reducible
        first | apply addTests_canon | apply allOf_canon | apply bumpReg_canon
    | split | intro _

theorem windowsAt_canon (n : Nat) (ran : List Nat) (s : State) (h_s : Canonical s) : Canonical (windowsAt n ran s) := by
  unfold windowsAt
  try dsimp only
  repeat' first
    | with_reducible assumption
    | with_reducible
        first | apply allOf_canon | apply galleryWindow_canon
    | split | intro _ | with_reducible refine Canonical.of_mk ?_ rfl rfl rfl rfl rfl

theorem unresolved_canon (a b op : Nat) (s : State) (h_s : Canonical s) : Canonical (unresolved a b op s) := by
  unfold unresolved
  try dsimp only
  repeat' first | with_reducible assumption | with_reducible apply raiseUnit_canon | with_reducible refine Canonical.of_mk ?_ rfl rfl rfl rfl rfl

theorem targetedRun_canon (a b op : Nat) (s : State) (h_s : Canonical s) : Canonical (targetedRun a b op s) := by
  unfold targetedRun
  try dsimp only
  repeat' first
    | with_reducible assumption
    | with_reducible
        first | apply addTests_canon | apply allOf_canon | apply unresolved_canon
    | split | intro _ | with_reducible refine Canonical.of_mk ?_ rfl rfl rfl rfl rfl

theorem judgeMismatches_canon (cause : Nat) (s : State) (h_s : Canonical s) : Canonical (judgeMismatches cause s) := by
  unfold judgeMismatches
  try dsimp only
  repeat' first
    | with_reducible assumption
    | with_reducible
        first | apply allOf_canon | apply judgePassed_canon | apply targetedRun_canon
    | split | intro _ | with_reducible refine Canonical.of_mk ?_ rfl rfl rfl rfl rfl

theorem nextTest_canon (g : GalleryRun) (s : State) (h_s : Canonical s) : Canonical (nextTest g s) := by
  unfold nextTest
  try dsimp only
  repeat' first
    | with_reducible assumption
    | with_reducible
        first | apply loadTest_canon | apply modTile_canon
    | split | intro _ | with_reducible refine Canonical.of_mk ?_ rfl rfl rfl rfl rfl

theorem repeatTest_canon (g : GalleryRun) (s : State) (h_s : Canonical s) : Canonical (repeatTest g s) := by
  unfold repeatTest
  try dsimp only
  repeat' first
    | with_reducible assumption | with_reducible apply loadTest_canon | split | intro _ | with_reducible refine Canonical.of_mk ?_ rfl rfl rfl rfl rfl

theorem galleryIdle_canon (s : State) (h_s : Canonical s) : Canonical (galleryIdle s) := by
  unfold galleryIdle
  try dsimp only
  repeat' first
    | with_reducible assumption
    | with_reducible
        first | apply enterHeld_canon | apply unresolved_canon
    | split | with_reducible refine Canonical.of_mk ?_ rfl rfl rfl rfl rfl

theorem opGalleryTest_canon (k : Nat) (hash : Option (BitVec 64)) (s : State) (h_s : Canonical s) : Canonical (opGalleryTest k hash s) := by
  unfold opGalleryTest
  try dsimp only
  repeat' first
    | with_reducible assumption
    | with_reducible
        first | apply bumpReg_canon | apply freeBytes_canon | apply galleryIdle_canon | apply judgePassed_canon | apply judgePermanent_canon
              | apply modTile_canon | apply nextTest_canon | apply putMem_canon | apply raiseAt_canon | apply repeatTest_canon
    | split | intro _ | with_reducible refine Canonical.of_mk ?_ rfl rfl rfl rfl rfl

theorem opFullPack_canon (mask : BitVec 8) (s : State) (h_s : Canonical s) : Canonical (opFullPack mask s) := by
  unfold opFullPack
  try dsimp only
  repeat' first
    | with_reducible assumption
    | with_reducible
        first | apply addTests_canon | apply allOf_canon | apply powered_canon | apply setReg_canon
    | split | intro _ | with_reducible refine Canonical.of_mk ?_ rfl rfl rfl rfl rfl

theorem opFullRun_canon (s : State) (h_s : Canonical s) : Canonical (opFullRun s) := by
  unfold opFullRun
  try dsimp only
  repeat' first | with_reducible assumption | with_reducible apply setReg_canon | split | intro _

theorem sendControl_canon (type : BitVec 4) (coord : Nat) (body : BitVec 256) (s : State) (h_s : Canonical s) : Canonical
      (sendControl type coord body s) := by
  unfold sendControl
  try dsimp only
  repeat' first | with_reducible assumption | with_reducible apply sendMsg_canon

theorem postRecord_canon (kind record : Nat) (s : State) (h_s : Canonical s) : Canonical (postRecord kind record s) := by
  unfold postRecord
  try dsimp only
  repeat' first | with_reducible assumption | with_reducible apply trunkPost_canon

theorem encoreRecord_canon (v : Vote) (outcome code : Nat) (s : State) (h_s : Canonical s) : Canonical (encoreRecord v outcome code s) := by
  unfold encoreRecord
  try dsimp only
  repeat' first | with_reducible assumption | with_reducible (first | apply postRecord_canon | apply raise__canon | apply setBlob_canon)

theorem guardRecord_canon (v : Vote) (triggers action : Nat) (s : State) (h_s : Canonical s) : Canonical (guardRecord v triggers action s) := by
  unfold guardRecord
  try dsimp only
  repeat' first
    | with_reducible assumption
    | with_reducible
        first | apply bumpReg_canon | apply postRecord_canon | apply raise__canon | apply setBlob_canon

theorem steerStats_canon (v : Vote) (s : State) (h_s : Canonical s) : Canonical (steerStats v s) := by
  unfold steerStats
  try dsimp only
  repeat' first
    | with_reducible assumption | with_reducible apply setReg_canon | split | intro _ | with_reducible refine Canonical.of_mk ?_ rfl rfl rfl rfl rfl

theorem decideCommit_canon (v : Vote) (s : State) (h_s : Canonical s) : Canonical (decideCommit v s).2 := by
  unfold decideCommit
  try dsimp only
  repeat' first | with_reducible assumption | with_reducible apply steerStats_canon | with_reducible refine Canonical.of_mk ?_ rfl rfl rfl rfl rfl

theorem decideSkip_canon (v : Vote) (s : State) (h_s : Canonical s) : Canonical (decideSkip v s).2 := by
  unfold decideSkip
  try dsimp only
  repeat' first | with_reducible assumption | with_reducible refine Canonical.of_mk ?_ rfl rfl rfl rfl rfl

theorem decideHold_canon (v : Vote) (s : State) (h_s : Canonical s) : Canonical (decideHold v s).2 := by
  unfold decideHold
  try dsimp only
  repeat' first | with_reducible assumption | with_reducible refine Canonical.of_mk ?_ rfl rfl rfl rfl rfl

theorem decideRerun_canon (v : Vote) (wide : Bool) (bits : BitVec 8) (s : State) (h_s : Canonical s) : Canonical (decideRerun v wide bits s).2 := by
  unfold decideRerun
  try dsimp only
  repeat' first | with_reducible assumption | with_reducible refine Canonical.of_mk ?_ rfl rfl rfl rfl rfl

theorem guard_canon (v : Vote) (t : Nat) (s : State) (h_s : Canonical s) : Canonical (guard v t s).2 := by
  unfold guard
  try dsimp only
  repeat' first
    | with_reducible assumption
    | with_reducible
        first | apply decideHold_canon | apply decideRerun_canon | apply decideSkip_canon | apply guardRecord_canon
    | split | intro _

theorem decideVote_canon (v : Vote) (s : State) (h_s : Canonical s) : Canonical (decideVote v s).2 := by
  unfold decideVote
  try dsimp only
  repeat' first
    | with_reducible assumption
    | with_reducible
        first | apply bumpReg_canon | apply decideCommit_canon | apply decideHold_canon | apply decideRerun_canon | apply encoreRecord_canon
              | apply guard_canon
    | split

theorem sendDecision_canon (d : Decision) (s : State) (h_s : Canonical s) : Canonical (sendDecision d s) := by
  unfold sendDecision
  try dsimp only
  repeat' first | with_reducible assumption | with_reducible (first | apply allOf_canon | apply sendControl_canon) | intro _

theorem tryCombine_canon (s : State) (h_s : Canonical s) : Canonical (tryCombine s) := by
  unfold tryCombine
  try dsimp only
  repeat' first
    | with_reducible assumption
    | with_reducible
        first | apply decideVote_canon | apply sendControl_canon | apply sendDecision_canon | apply foldl_canon | apply foldl_canon1
              | apply foldl_canon2
    | split | intro _ | with_reducible refine Canonical.of_mk ?_ rfl rfl rfl rfl rfl

theorem opPackageVote_canon (s : State) (h_s : Canonical s) : Canonical (opPackageVote s) := by
  unfold opPackageVote
  try dsimp only
  repeat' first
    | with_reducible assumption | with_reducible apply tryCombine_canon | split | with_reducible refine Canonical.of_mk ?_ rfl rfl rfl rfl rfl

theorem opVote_canon (child : Nat) (v : Vote) (s : State) (h_s : Canonical s) : Canonical (opVote child v s) := by
  unfold opVote
  try dsimp only
  repeat' first
    | with_reducible assumption | with_reducible apply tryCombine_canon | split | intro _ | with_reducible refine Canonical.of_mk ?_ rfl rfl rfl rfl rfl

theorem commitRow_canon (sh : Shard) (t : TableDesc) (cb : List Num) (skip : List Nat) (row : Nat) (g : List Nat) (s : State)
      (h_s : Canonical s) : Canonical (commitRow sh t cb skip row g s).1 := by
  unfold commitRow
  try dsimp only
  repeat' first
    | with_reducible assumption
    | with_reducible
        first | apply bumpReg_canon | apply raiseAt_canon | apply writeRow_canon
    | split | with_reducible refine Canonical.of_mk ?_ rfl rfl rfl rfl rfl

theorem commitShard_canon (skip : List Nat) (sh : Shard) (s : State) (h_s : Canonical s) : Canonical (commitShard skip sh s).1 := by
  unfold commitShard
  try dsimp only
  repeat' first
    | with_reducible assumption
    | with_reducible
        first | apply commitRow_canon | apply foldl_canon | apply foldl_canon1 | apply foldl_canon2
    | intro _

theorem commitRows_canon (skip : List Nat) (s : State) (h_s : Canonical s) : Canonical (commitRows skip s).1 := by
  unfold commitRows
  try dsimp only
  repeat' first
    | with_reducible assumption
    | with_reducible
        first | apply commitShard_canon | apply foldl_canon | apply foldl_canon1 | apply foldl_canon2
    | intro _

theorem commitVersions_canon (s : State) (h_s : Canonical s) : Canonical (commitVersions s) := by
  unfold commitVersions
  try dsimp only
  repeat' first | with_reducible assumption | with_reducible (first | apply allOf_canon | apply putMem_canon) | split | intro _

theorem countDerived_canon (cs : List Nat) (s : State) (h_s : Canonical s) : Canonical (countDerived cs s) := by
  unfold countDerived
  try dsimp only
  repeat' first | with_reducible assumption | with_reducible (first | apply allOf_canon | apply bumpReg_canon) | intro _

theorem advanceContexts_canon (cs : List Nat) (s : State) (h_s : Canonical s) : Canonical (advanceContexts cs s) := by
  unfold advanceContexts
  try dsimp only
  repeat' first
    | with_reducible assumption | with_reducible apply countDerived_canon | split | intro _ | with_reducible refine Canonical.of_mk ?_ rfl rfl rfl rfl rfl

theorem advanceCursor_canon (r : OpenRec) (s : State) (h_s : Canonical s) : Canonical (advanceCursor r s) := by
  unfold advanceCursor
  try dsimp only
  repeat' first | with_reducible assumption | split | intro _ | with_reducible refine Canonical.of_mk ?_ rfl rfl rfl rfl rfl

theorem finishBatch_canon (skip : Bool) (bsel : BitVec 2) (r : OpenRec) (s : State) (h_s : Canonical s) : Canonical (finishBatch skip bsel r s) := by
  unfold finishBatch
  try dsimp only
  repeat' first | with_reducible assumption | with_reducible (first | apply advanceCursor_canon | apply complete_canon)

theorem finishDecode_canon (skip : Bool) (r : OpenRec) (s : State) (h_s : Canonical s) : Canonical (finishDecode skip r s) := by
  unfold finishDecode
  try dsimp only
  repeat' first
    | with_reducible assumption
    | with_reducible
        first | apply advanceCursor_canon | apply complete_canon | apply putWindow_canon
    | split | with_reducible refine Canonical.of_mk ?_ rfl rfl rfl rfl rfl

theorem finishRecords_canon (skip : Bool) (bsel : BitVec 2) (s : State) (h_s : Canonical s) : Canonical (finishRecords skip bsel s) := by
  unfold finishRecords
  try dsimp only
  repeat' first
    | with_reducible assumption
    | with_reducible
        first | apply allOf_canon | apply finishBatch_canon | apply finishDecode_canon
    | split | intro _ | with_reducible refine Canonical.of_mk ?_ rfl rfl rfl rfl rfl

theorem showGeneration_canon (s : State) (h_s : Canonical s) : Canonical (showGeneration s) := by
  unfold showGeneration
  try dsimp only
  repeat' first
    | with_reducible assumption
    | with_reducible
        first | apply setReg_canon | apply foldl_canon | apply foldl_canon1 | apply foldl_canon2
    | intro _

theorem checkpoint_canon (n : Nat) (s : State) (h_s : Canonical s) : Canonical (checkpoint n s) := by
  unfold checkpoint
  try dsimp only
  repeat' first
    | with_reducible assumption
    | with_reducible
        first | apply bumpReg_canon | apply raise__canon | apply showGeneration_canon
    | split | intro _ | with_reducible refine Canonical.of_mk ?_ rfl rfl rfl rfl rfl

theorem takeMode_canon (d : Decision) (s : State) (h_s : Canonical s) : Canonical (takeMode d s) := by
  unfold takeMode
  try dsimp only
  repeat' first | with_reducible assumption | with_reducible refine Canonical.of_mk ?_ rfl rfl rfl rfl rfl

theorem boundary_canon (n : Nat) (s : State) (h_s : Canonical s) : Canonical (boundary n s) := by
  unfold boundary
  try dsimp only
  repeat' first
    | with_reducible assumption
    | with_reducible
        first | apply clearReduce_canon | apply setReg_canon
    | intro _ | with_reducible refine Canonical.of_mk ?_ rfl rfl rfl rfl rfl

theorem endStep_canon (n : Nat) (d : Decision) (ran : List Nat) (s : State) (h_s : Canonical s) : Canonical (endStep n d ran s) := by
  unfold endStep
  try dsimp only
  repeat' first
    | with_reducible assumption
    | with_reducible
        first | apply boundary_canon | apply checkpoint_canon | apply enterHeld_canon | apply takeMode_canon | apply windowsAt_canon
    | split

theorem takeSuspect_canon (d : Decision) (s : State) (h_s : Canonical s) : Canonical (takeSuspect d s) := by
  unfold takeSuspect
  try dsimp only
  repeat' first | with_reducible assumption | with_reducible apply suspectUnit_canon | split

theorem judgeStep_canon (cause : Nat) (d : Decision) (s : State) (h_s : Canonical s) : Canonical (judgeStep cause d s) := by
  unfold judgeStep
  try dsimp only
  repeat' first
    | with_reducible assumption
    | with_reducible
        first | apply judgeAttempt_canon | apply judgeMismatches_canon | apply takeSuspect_canon

theorem commitState_canon (s : State) (h_s : Canonical s) : Canonical (commitState s) := by
  unfold commitState
  try dsimp only
  repeat' first
    | with_reducible assumption
    | with_reducible
        first | apply applyReplacements_canon | apply commitHall_canon | apply commitRows_canon | apply commitVersions_canon | apply endCommit_canon
              | apply finishImage_canon | apply startImage_canon
    | split

theorem takeVariant_canon (bsel : BitVec 2) (s : State) (h_s : Canonical s) : Canonical (takeVariant bsel s) := by
  unfold takeVariant
  try dsimp only
  repeat' first
    | with_reducible assumption
    | with_reducible
        first | apply bumpReg_canon | apply setReg_canon
    | split | with_reducible refine Canonical.of_mk ?_ rfl rfl rfl rfl rfl

theorem phaseTimes_canon (s : State) (h_s : Canonical s) : Canonical (phaseTimes s) := by
  unfold phaseTimes
  try dsimp only
  repeat' first | with_reducible assumption | with_reducible refine Canonical.of_mk ?_ rfl rfl rfl rfl rfl

theorem commitStep_canon (d : Decision) (s : State) (h_s : Canonical s) : Canonical (commitStep d s) := by
  unfold commitStep
  try dsimp only
  repeat' first
    | with_reducible assumption
    | with_reducible
        first | apply advanceContexts_canon | apply bumpReg_canon | apply commitState_canon | apply endStep_canon | apply finishRecords_canon
              | apply judgeStep_canon | apply phaseTimes_canon | apply setReg_canon | apply takeVariant_canon
    | split | with_reducible refine Canonical.of_mk ?_ rfl rfl rfl rfl rfl

theorem skipMarker_canon (step : Nat) (s : State) (h_s : Canonical s) : Canonical (skipMarker step s) := by
  unfold skipMarker
  try dsimp only
  repeat' first
    | with_reducible assumption
    | with_reducible
        first | apply allOf_canon | apply setJournal_canon | apply showDurable_canon
    | split | intro _ | with_reducible refine Canonical.of_mk ?_ rfl rfl rfl rfl rfl

theorem skipStep_canon (d : Decision) (s : State) (h_s : Canonical s) : Canonical (skipStep d s) := by
  unfold skipStep
  try dsimp only
  repeat' first
    | with_reducible assumption
    | with_reducible
        first | apply advanceContexts_canon | apply applyReplacements_canon | apply bumpReg_canon | apply endCommit_canon | apply endStep_canon
              | apply finishRecords_canon | apply judgeStep_canon | apply refreshReplicas_canon | apply skipMarker_canon
    | split

theorem rerunStep_canon (d : Decision) (s : State) (h_s : Canonical s) : Canonical (rerunStep d s) := by
  unfold rerunStep
  try dsimp only
  repeat' first | with_reducible assumption | with_reducible (first | apply dropAttempt_canon | apply judgeStep_canon | apply takeMode_canon)

theorem holdStep_canon (d : Decision) (s : State) (h_s : Canonical s) : Canonical (holdStep d s) := by
  unfold holdStep
  try dsimp only
  repeat' first
    | with_reducible assumption
    | with_reducible
        first | apply dropAttempt_canon | apply enterHeld_canon | apply judgeStep_canon | apply unresolved_canon
    | split | with_reducible refine Canonical.of_mk ?_ rfl rfl rfl rfl rfl

theorem opDecision_canon (action : Nat) (d : Decision) (s : State) (h_s : Canonical s) : Canonical (opDecision action d s) := by
  unfold opDecision
  try dsimp only
  repeat' first
    | with_reducible assumption
    | with_reducible
        first | apply commitStep_canon | apply holdStep_canon | apply rerunStep_canon | apply sendDecision_canon | apply skipStep_canon
    | split | with_reducible refine Canonical.of_mk ?_ rfl rfl rfl rfl rfl

theorem abortHeld_canon (s : State) (h_s : Canonical s) : Canonical (abortHeld s) := by
  unfold abortHeld
  try dsimp only
  repeat' first | with_reducible assumption | with_reducible (first | apply bumpReg_canon | apply dropAttempt_canon | apply setReg_canon) | split

theorem becomeShort_canon (d : Nat) (s : State) (h_s : Canonical s) : Canonical (becomeShort d s) := by
  unfold becomeShort
  try dsimp only
  repeat' first
    | with_reducible assumption
    | with_reducible
        first | apply enter_canon | apply enterFault_canon | apply raiseAt_canon | apply setReg_canon
    | split

theorem applyRetirement_canon (k : Nat) (s : State) (h_s : Canonical s) : Canonical (applyRetirement k s) := by
  unfold applyRetirement
  try dsimp only
  repeat' first
    | with_reducible assumption | with_reducible apply modTile_canon | split | intro _ | with_reducible refine Canonical.of_mk ?_ rfl rfl rfl rfl rfl

theorem dropRead_canon (r : ReadReq) (s : State) (h_s : Canonical s) : Canonical (dropRead r s) := by
  unfold dropRead
  try dsimp only
  repeat' first
    | with_reducible assumption
    | with_reducible
        first | apply answerXfer_canon | apply emit_canon | apply modXfer_canon | apply setPager_canon
    | split | intro _ | with_reducible refine Canonical.of_mk ?_ rfl rfl rfl rfl rfl

theorem abandonReShard_canon (s : State) (h_s : Canonical s) : Canonical (abandonReShard s) := by
  unfold abandonReShard
  try dsimp only
  repeat' first
    | with_reducible assumption
    | with_reducible
        first | apply abortAttempt_canon | apply raise__canon | apply setReg_canon
    | split | with_reducible refine Canonical.of_mk ?_ rfl rfl rfl rfl rfl

theorem failMessage_canon (loud : Bool) (w : Waiting) (s : State) (h_s : Canonical s) : Canonical (failMessage loud w s) := by
  unfold failMessage
  extract_lets m resend t failed s1 tt
  have hr : ∀ s, Canonical s → Canonical (resend s) := fun s hs => Canonical.upd hs rfl rfl rfl rfl rfl
  have hf : Canonical failed := by
    simp only [failed]
    repeat' first
      | with_reducible assumption
      | with_reducible
          first | apply answerXfer_canon | apply stopDrain_canon | apply abandonReShard_canon | apply emit_canon
      | split
  clear_value failed resend
  have h1 : Canonical s1 := by
    simp only [s1]
    repeat' first | with_reducible assumption | with_reducible apply dropRead_canon | split
  clear_value s1 tt
  repeat' first
    | with_reducible assumption
    | with_reducible
        first | apply hr | apply abortAttempt_canon | apply postItem_canon | apply dropRead_canon
    | split


theorem failFlow_canon (key : Nat) (s : State) (h_s : Canonical s) : Canonical (failFlow key s) := by
  unfold failFlow
  try dsimp only
  repeat' first
    | with_reducible assumption
    | with_reducible
        first | apply allOf_canon | apply bumpReg_canon | apply failMessage_canon | apply raiseAt_canon | apply retryWaiting_canon
              | apply setTx_canon
    | intro _ | with_reducible refine Canonical.of_mk ?_ rfl rfl rfl rfl rfl

theorem takeEpoch_canon (e pos coord : Nat) (s : State) (h_s : Canonical s) : Canonical (takeEpoch e pos coord s) := by
  unfold takeEpoch
  extract_lets lost waiting again adopted s1 cut x1 st1 rc1 y1 s2 s3 s4 s5 s6
  have h1 : Canonical s1 := setReg_canon _ _ _ (Canonical.upd h_s rfl rfl rfl rfl rfl)
  clear_value s1 lost waiting again adopted
  have h2 : Canonical s2 := by
    obtain ⟨a, b, c, d, e, f⟩ := parts_of_sizes h1.sizes
    exact Canonical.sized h1 rfl rfl rfl h1.tiles (sizes_of_parts a b c ((List.length_map ..).trans d) e f)
  clear_value s2
  have h3 : Canonical s3 := loseInputs_canon _ _ (stopDrain_canon _ h2)
  clear_value s3
  have h4 : Canonical s4 := allOf_canon _ _ _ (fun x s hs => failMessage_canon _ x s hs) h3
  clear_value s4
  have h5 : Canonical s5 := allOf_canon _ _ _ (fun x s hs => dropRead_canon x s hs) h4
  clear_value s5
  exact retryWaiting_canon _ (Canonical.upd h5 rfl rfl rfl rfl rfl)


theorem startEpoch_canon (pos coord : Nat) (s : State) (h_s : Canonical s) : Canonical (startEpoch pos coord s) := by
  unfold startEpoch
  try dsimp only
  repeat' first | with_reducible assumption | with_reducible (first | apply allOf_canon | apply sendControl_canon | apply takeEpoch_canon) | intro _

theorem drainLines_canon (d a : Nat) (bs : List Byte) (s : State) (h_s : Canonical s) : Canonical (drainLines d a bs s) := by
  unfold drainLines
  try dsimp only
  repeat' first | with_reducible assumption | with_reducible (first | apply allOf_canon | apply sendMsg_canon) | intro _

theorem drainDie_canon (g : Generation) (d : Nat) (s : State) (h_s : Canonical s) : Canonical (drainDie g d s) := by
  unfold drainDie
  try dsimp only
  repeat' first | with_reducible assumption | with_reducible (first | apply allOf_canon | apply drainLines_canon) | intro _

theorem opCapture_canon (s : State) (h_s : Canonical s) : Canonical (opCapture s) := by
  unfold opCapture
  try dsimp only
  repeat' first
    | with_reducible assumption
    | with_reducible
        first | apply allOf_canon | apply drainDie_canon | apply setReg_canon | apply tryDrained_canon
    | split | intro _ | with_reducible refine Canonical.of_mk ?_ rfl rfl rfl rfl rfl

theorem recArrives_canon (type : Nat) (r : RecRecord) (act : State → State) (s : State) (h_act : ∀ (x0 : State), Canonical x0 → Canonical (act x0))
      (h_s : Canonical s) : Canonical (recArrives type r act s) := by
  unfold recArrives
  try dsimp only
  repeat' first
    | with_reducible assumption
    | with_reducible
        first | apply h_act | apply bumpReg_canon | apply postItem_canon | apply powered_canon | apply setBlob_canon
    | split | intro _

theorem opDrained_canon (r : RecRecord) (s : State) (h_s : Canonical s) : Canonical (opDrained r s) := by
  unfold opDrained
  try dsimp only
  repeat' first | with_reducible assumption | with_reducible (first | apply recArrives_canon | apply takeDrained_canon) | split | intro _

theorem opComplete_canon (r : RecRecord) (s : State) (h_s : Canonical s) : Canonical (opComplete r s) := by
  unfold opComplete
  try dsimp only
  repeat' first | with_reducible assumption | with_reducible (first | apply memberComplete_canon | apply recArrives_canon)

theorem noteReach_canon (reachable : Bool) (coord p : Nat) (s : State) (h_s : Canonical s) : Canonical (noteReach reachable coord p s) := by
  unfold noteReach
  try dsimp only
  repeat' first | with_reducible assumption | split | intro _ | with_reducible refine Canonical.of_mk ?_ rfl rfl rfl rfl rfl

theorem reportReach_canon (reachable : Bool) (p : Nat) (s : State) (h_s : Canonical s) : Canonical (reportReach reachable p s) := by
  unfold reportReach
  try dsimp only
  repeat' first
    | with_reducible assumption
    | with_reducible
        first | apply noteReach_canon | apply sendRecord_canon
    | split | with_reducible refine Canonical.of_mk ?_ rfl rfl rfl rfl rfl

theorem opUnreachable_canon (r : RecRecord) (s : State) (h_s : Canonical s) : Canonical (opUnreachable r s) := by
  unfold opUnreachable
  try dsimp only
  repeat' first | with_reducible assumption | with_reducible (first | apply noteReach_canon | apply recArrives_canon)

theorem opReachable_canon (r : RecRecord) (s : State) (h_s : Canonical s) : Canonical (opReachable r s) := by
  unfold opReachable
  try dsimp only
  repeat' first | with_reducible assumption | with_reducible (first | apply noteReach_canon | apply recArrives_canon)

theorem restoreCells_canon (rs : List (Nat × Nat)) (cells : Memory) (s : State) (h_s : Canonical s) : Canonical (restoreCells rs cells s) := by
  refine ⟨?_, h_s.mram, h_s.regs, h_s.tiles, h_s.sizes⟩
  exact foldl_memWf cells _ (memWf_filter _ _ h_s.mem)


theorem restoreVersions_canon (s : State) (h_s : Canonical s) : Canonical (restoreVersions s) := by
  unfold restoreVersions
  try dsimp only
  repeat' first | with_reducible assumption | with_reducible (first | apply allOf_canon | apply putMem_canon) | split | intro _

theorem restoreWindows_canon (ws : List (Nat × List Byte)) (s : State) (h_s : Canonical s) : Canonical (restoreWindows ws s) := by
  unfold restoreWindows
  try dsimp only
  repeat' first
    | with_reducible assumption
    | with_reducible
        first | apply allOf_canon | apply putMem_canon | apply putWindow_canon
    | split | intro _ | with_reducible refine Canonical.of_mk ?_ rfl rfl rfl rfl rfl

theorem rebuildReplicas_canon (s : State) (h_s : Canonical s) : Canonical (rebuildReplicas s) := by
  unfold rebuildReplicas
  try dsimp only
  repeat' first | with_reducible assumption | split | intro _ | with_reducible refine Canonical.of_mk ?_ rfl rfl rfl rfl rfl

theorem clearForRestore_canon (s : State) (h_s : Canonical s) : Canonical (clearForRestore s) := by
  unfold clearForRestore
  dsimp only
  have h := clearReduce_canon _ (mapTiles_canon
      (fun t => { t with run := .idle, groups := [], xfers := [], prefetch := [], streams := Vector.replicate 8 (0, 0, 0), outside := [] }) s h_s)
  generalize clearReduce _ = u at h
  obtain ⟨a, b, c, d, e, f⟩ := parts_of_sizes h.sizes
  exact Canonical.sized h rfl rfl rfl h.tiles (sizes_of_parts rfl b c d e f)


theorem restoreSmall_canon (n : Nat) (m : SmallState) (s : State) (h_s : Canonical s) : Canonical (restoreSmall n m s) := by
  unfold restoreSmall
  try dsimp only
  repeat' first
    | with_reducible assumption
    | with_reducible
        first | apply allOf_canon | apply countDerived_canon | apply putMem_canon | apply restoreWindows_canon | apply setReg_canon
    | split | intro _ | with_reducible refine Canonical.of_mk ?_ rfl rfl rfl rfl rfl

theorem rollBack_canon (n : Nat) (s : State) (h_s : Canonical s) : Canonical (rollBack n s) := by
  unfold rollBack
  try dsimp only
  repeat' first
    | with_reducible assumption
    | with_reducible
        first | apply allOf_canon | apply putMem_canon
    | intro _ | with_reducible refine Canonical.of_mk ?_ rfl rfl rfl rfl rfl

theorem restoreOwn_canon (g : Generation) (s : State) (h_s : Canonical s) : Canonical (restoreOwn g s) := by
  unfold restoreOwn
  try dsimp only
  repeat' first
    | with_reducible assumption
    | with_reducible
        first | apply bumpReg_canon | apply clearForRestore_canon | apply raise__canon | apply rebuildReplicas_canon | apply restoreCells_canon
              | apply restoreSmall_canon | apply restoreVersions_canon | apply rollBack_canon
    | with_reducible refine Canonical.of_mk ?_ rfl rfl rfl rfl rfl

theorem takeRestored_canon (coord n : Nat) (s : State) (h_s : Canonical s) : Canonical (takeRestored coord n s) := by
  unfold takeRestored
  try dsimp only
  repeat' first
    | with_reducible assumption
    | with_reducible
        first | apply memberComplete_canon | apply sendToMembers_canon
    | split | intro _ | with_reducible refine Canonical.of_mk ?_ rfl rfl rfl rfl rfl

theorem restoreDone_canon (n : Nat) (s : State) (h_s : Canonical s) : Canonical (restoreDone n s) := by
  unfold restoreDone
  try dsimp only
  repeat' first
    | with_reducible assumption
    | with_reducible
        first | apply enter_canon | apply sendRecord_canon | apply setReg_canon | apply takeRestored_canon
    | split | with_reducible refine Canonical.of_mk ?_ rfl rfl rfl rfl rfl

theorem restoreAdopted_canon (n gen : Nat) (s : State) (h_s : Canonical s) : Canonical (restoreAdopted n gen s) := by
  unfold restoreAdopted
  try dsimp only
  repeat' first
    | with_reducible assumption
    | with_reducible
        first | apply allOf_canon | apply clearForRestore_canon | apply freeBytes_canon | apply putMem_canon | apply restoreSmall_canon
              | apply sendMsg_canon
    | intro _ | with_reducible refine Canonical.of_mk ?_ rfl rfl rfl rfl rfl

theorem tryRestored_canon (s : State) (h_s : Canonical s) : Canonical (tryRestored s) := by
  unfold tryRestored
  try dsimp only
  repeat' first
    | with_reducible assumption
    | with_reducible
        first | apply restoreDone_canon | apply restoreVersions_canon
    | split | with_reducible refine Canonical.of_mk ?_ rfl rfl rfl rfl rfl

theorem takeTarget_canon (n gen : Nat) (s : State) (h_s : Canonical s) : Canonical (takeTarget n gen s) := by
  unfold takeTarget
  try dsimp only
  repeat' first
    | with_reducible assumption
    | with_reducible
        first | apply dropAttempt_canon | apply enterHeld_canon | apply restoreAdopted_canon | apply restoreOwn_canon | apply setReg_canon
              | apply tryRestored_canon
    | split | intro _ | with_reducible refine Canonical.of_mk ?_ rfl rfl rfl rfl rfl

theorem opTarget_canon (r : RecRecord) (s : State) (h_s : Canonical s) : Canonical (opTarget r s) := by
  unfold opTarget
  try dsimp only
  repeat' first | with_reducible assumption | with_reducible (first | apply recArrives_canon | apply takeTarget_canon) | split | intro _

theorem opRestored_canon (r : RecRecord) (s : State) (h_s : Canonical s) : Canonical (opRestored r s) := by
  unfold opRestored
  try dsimp only
  repeat' first | with_reducible assumption | with_reducible (first | apply recArrives_canon | apply takeRestored_canon) | split | intro _

theorem takeReport_canon (r : RecRecord) (s : State) (h_s : Canonical s) : Canonical (takeReport r s) := by
  unfold takeReport
  try dsimp only
  repeat' first
    | with_reducible assumption
    | with_reducible
        first | apply raise__canon | apply sendToMembers_canon | apply setReg_canon | apply takeTarget_canon
    | split | intro _ | with_reducible refine Canonical.of_mk ?_ rfl rfl rfl rfl rfl

theorem opReport_canon (r : RecRecord) (s : State) (h_s : Canonical s) : Canonical (opReport r s) := by
  unfold opReport
  try dsimp only
  repeat' first | with_reducible assumption | with_reducible (first | apply recArrives_canon | apply takeReport_canon) | split | intro _

theorem opQuery_canon (r : RecRecord) (s : State) (h_s : Canonical s) : Canonical (opQuery r s) := by
  unfold opQuery
  try dsimp only
  repeat' first | with_reducible assumption | with_reducible (first | apply recArrives_canon | apply sendRecord_canon | apply setReg_canon) | intro _

theorem startQuery_canon (s : State) (h_s : Canonical s) : Canonical (startQuery s) := by
  unfold startQuery
  try dsimp only
  repeat' first
    | with_reducible assumption
    | with_reducible
        first | apply sendToMembers_canon | apply setReg_canon | apply takeReport_canon
    | with_reducible refine Canonical.of_mk ?_ rfl rfl rfl rfl rfl

theorem takeCoordinate_canon (p : Nat) (s : State) (h_s : Canonical s) : Canonical (takeCoordinate p s) := by
  unfold takeCoordinate
  try dsimp only
  repeat' first
    | with_reducible assumption
    | with_reducible
        first | apply raise__canon | apply setReg_canon
    | with_reducible refine Canonical.of_mk ?_ rfl rfl rfl rfl rfl

theorem opAdopting_canon (r : RecRecord) (s : State) (h_s : Canonical s) : Canonical (opAdopting r s) := by
  unfold opAdopting
  try dsimp only
  repeat' first
    | with_reducible assumption
    | with_reducible
        first | apply recArrives_canon | apply sendRecord_canon | apply startEpoch_canon | apply startQuery_canon | apply takeCoordinate_canon
    | split | intro _ | with_reducible refine Canonical.of_mk ?_ rfl rfl rfl rfl rfl

theorem opReject_canon (r : RecRecord) (s : State) (h_s : Canonical s) : Canonical (opReject r s) := by
  unfold opReject
  try dsimp only
  repeat' first
    | with_reducible assumption
    | with_reducible
        first | apply recArrives_canon | apply setReg_canon
    | split | intro _ | with_reducible refine Canonical.of_mk ?_ rfl rfl rfl rfl rfl

theorem opRoute_canon (e pos coord : Nat) (s : State) (h_s : Canonical s) : Canonical (opRoute e pos coord s) := by
  unfold opRoute
  try dsimp only
  repeat' first
    | with_reducible assumption
    | with_reducible
        first | apply powered_canon | apply takeCoordinate_canon | apply takeEpoch_canon
    | split | intro _

theorem takeRecRecord_canon (bs : List Byte) (s : State) (h_s : Canonical s) : Canonical (takeRecRecord bs s) := by
  unfold takeRecRecord
  try dsimp only
  repeat' first
    | with_reducible assumption
    | with_reducible
        first | apply bumpReg_canon | apply opAdopting_canon | apply opComplete_canon | apply opDrained_canon | apply opQuery_canon
              | apply opReachable_canon | apply opReject_canon | apply opReport_canon | apply opRestored_canon | apply opTarget_canon
              | apply opUnreachable_canon
    | split | with_reducible refine Canonical.of_mk ?_ rfl rfl rfl rfl rfl

end Sys2Proof.Machine
end

