-- ==== Sys2Proof/Laws/CanonicalNetwork.lean ====
section
/-!
SUPPORT. The canonical form is kept by the Midway link, re-sharding, deliveries, security and job images.
-/

set_option linter.all false

namespace Sys2Proof.Machine
open Sys2Proof

theorem showPorts_canon (s : State) (h_s : Canonical s) : Canonical (showPorts s) := by
  unfold showPorts
  try dsimp only
  repeat' first | with_reducible assumption | with_reducible apply setReg_canon | intro _

theorem countPort_canon (p i n : Nat) (s : State) (h_s : Canonical s) : Canonical (countPort p i n s) := by
  unfold countPort
  try dsimp only
  repeat' first
    | with_reducible assumption | with_reducible apply modPort_canon | intro _ | with_reducible refine Canonical.of_mk ?_ rfl rfl rfl rfl rfl

theorem raisePort_canon (code p : Nat) (s : State) (h_s : Canonical s) : Canonical (raisePort code p s) := by
  unfold raisePort
  try dsimp only
  repeat' first | with_reducible assumption | with_reducible apply raiseAt_canon

theorem startTraining_canon (p : Nat) (s : State) (h_s : Canonical s) : Canonical (startTraining p s) := by
  unfold startTraining
  try dsimp only
  repeat' first
    | with_reducible assumption
    | with_reducible
        first | apply allOf_canon | apply emit_canon | apply modPort_canon
    | intro _ | with_reducible refine Canonical.of_mk ?_ rfl rfl rfl rfl rfl

theorem linkReset_canon (p : Nat) (s : State) (h_s : Canonical s) : Canonical (linkReset p s) := by
  unfold linkReset
  try dsimp only
  repeat' first
    | with_reducible assumption
    | with_reducible
        first | apply countPort_canon | apply raisePort_canon | apply showPorts_canon | apply startTraining_canon

theorem requeue_canon (p : Nat) (s : State) (h_s : Canonical s) : Canonical (requeue p s) := by
  unfold requeue
  try dsimp only
  repeat' first
    | with_reducible assumption
    | with_reducible
        first | apply allOf_canon | apply modPort_canon | apply routeOut_canon
    | split | intro _ | with_reducible refine Canonical.of_mk ?_ rfl rfl rfl rfl rfl

theorem noteUnreachable_canon (before : Bool) (p : Nat) (s : State) (h_s : Canonical s) : Canonical (noteUnreachable before p s) := by
  unfold noteUnreachable
  try dsimp only
  repeat' first | with_reducible assumption | with_reducible apply reportReach_canon | split

theorem loseNeighbour_canon (p : Nat) (s : State) (h_s : Canonical s) : Canonical (loseNeighbour p s) := by
  unfold loseNeighbour
  try dsimp only
  repeat' first
    | with_reducible assumption
    | with_reducible
        first | apply allOf_canon | apply modPort_canon | apply requeue_canon | apply showPorts_canon
    | split | intro _ | with_reducible refine Canonical.of_mk ?_ rfl rfl rfl rfl rfl

theorem opLockLoss_canon (p : Nat) (s : State) (h_s : Canonical s) : Canonical (opLockLoss p s) := by
  unfold opLockLoss
  try dsimp only
  repeat' first
    | with_reducible assumption
    | with_reducible
        first | apply linkReset_canon | apply loseNeighbour_canon | apply noteUnreachable_canon
    | split

theorem portComesUp_canon (p : Nat) (s : State) (h_s : Canonical s) : Canonical (portComesUp p s) := by
  unfold portComesUp
  try dsimp only
  repeat' first
    | with_reducible assumption
    | with_reducible
        first | apply allOf_canon | apply countPort_canon | apply emit_canon | apply modPort_canon | apply pumpPort_canon | apply raisePort_canon
              | apply reportReach_canon | apply showPorts_canon
    | split | intro _ | with_reducible refine Canonical.of_mk ?_ rfl rfl rfl rfl rfl

theorem portMiswired_canon (p : Nat) (s : State) (h_s : Canonical s) : Canonical (portMiswired p s) := by
  unfold portMiswired
  try dsimp only
  repeat' first
    | with_reducible assumption
    | with_reducible
        first | apply modPort_canon | apply noteUnreachable_canon | apply raisePort_canon | apply requeue_canon | apply setBlob_canon
              | apply showPorts_canon
    | intro _ | with_reducible refine Canonical.of_mk ?_ rfl rfl rfl rfl rfl

theorem opMidwayTraining_canon (p : Nat) (lock far : Bool) (s : State) (h_s : Canonical s) : Canonical (opMidwayTraining p lock far s) := by
  unfold opMidwayTraining
  try dsimp only
  repeat' first | with_reducible assumption | with_reducible (first | apply portComesUp_canon | apply portMiswired_canon) | split

theorem sendProbe_canon (p q : Nat) (s : State) (h_s : Canonical s) : Canonical (sendProbe p q s) := by
  unfold sendProbe
  try dsimp only
  repeat' first | with_reducible assumption | with_reducible apply handToPort_canon | intro _

theorem portGoesDown_canon (p : Nat) (s : State) (h_s : Canonical s) : Canonical (portGoesDown p s) := by
  unfold portGoesDown
  try dsimp only
  repeat' first
    | with_reducible assumption
    | with_reducible
        first | apply modPort_canon | apply noteUnreachable_canon | apply raisePort_canon | apply requeue_canon | apply sendProbe_canon
              | apply showPorts_canon
    | split | intro _ | with_reducible refine Canonical.of_mk ?_ rfl rfl rfl rfl rfl

theorem opTrainingExpiry_canon (p : Nat) (s : State) (h_s : Canonical s) : Canonical (opTrainingExpiry p s) := by
  unfold opTrainingExpiry
  try dsimp only
  repeat' first
    | with_reducible assumption
    | with_reducible
        first | apply modPort_canon | apply portGoesDown_canon | apply startTraining_canon
    | split | intro _ | with_reducible refine Canonical.of_mk ?_ rfl rfl rfl rfl rfl

theorem opRetrainPort_canon (p : Nat) (s : State) (h_s : Canonical s) : Canonical (opRetrainPort p s) := by
  unfold opRetrainPort
  try dsimp only
  repeat' first
    | with_reducible assumption
    | with_reducible
        first | apply linkReset_canon | apply modPort_canon
    | split | intro _ | with_reducible refine Canonical.of_mk ?_ rfl rfl rfl rfl rfl

theorem codeword_canon (p : Nat) (c : Option (Fin 16)) (s : State) (h_s : Canonical s) : Canonical (codeword p c s) := by
  unfold codeword
  try dsimp only
  repeat' first
    | with_reducible assumption
    | with_reducible
        first | apply countPort_canon | apply modPort_canon | apply raisePort_canon
    | split | intro _ | with_reducible refine Canonical.of_mk ?_ rfl rfl rfl rfl rfl

theorem sampleFlit_canon (p : Nat) (f : Flit) (s : State) (h_s : Canonical s) : Canonical (sampleFlit p f s) := by
  unfold sampleFlit
  try dsimp only
  repeat' first | with_reducible assumption | with_reducible (first | apply allOf_canon | apply sampleHeader_canon) | intro _

theorem takeFlit_canon (p : Nat) (f : Flit) (intact : Bool) (s : State) (h_s : Canonical s) : Canonical (takeFlit p f intact s) := by
  unfold takeFlit
  try dsimp only
  repeat' first
    | with_reducible assumption
    | with_reducible
        first | apply allOf_canon | apply countPort_canon | apply emit_canon | apply linkReset_canon | apply modPort_canon | apply pumpPort_canon
              | apply raisePort_canon | apply sampleFlit_canon
    | split | intro _ | with_reducible refine Canonical.of_mk ?_ rfl rfl rfl rfl rfl

theorem opMidwayFlit_canon (p : Nat) (f : Flit) (c0 c1 : Option (Fin 16)) (s : State) (h_s : Canonical s) : Canonical (opMidwayFlit p f c0 c1 s) := by
  unfold opMidwayFlit
  try dsimp only
  repeat' first
    | with_reducible assumption
    | with_reducible
        first | apply codeword_canon | apply countPort_canon | apply modPort_canon | apply takeFlit_canon
    | split | intro _ | with_reducible refine Canonical.of_mk ?_ rfl rfl rfl rfl rfl

theorem opProbe_canon (p : Nat) (seq : BitVec 12) (s : State) (h_s : Canonical s) : Canonical (opProbe p seq s) := by
  unfold opProbe
  try dsimp only
  repeat' first
    | with_reducible assumption
    | with_reducible
        first | apply modPort_canon | apply pumpPort_canon
    | split | intro _ | with_reducible refine Canonical.of_mk ?_ rfl rfl rfl rfl rfl

theorem sendEntryOf_canon (e : PlanEntry) (s : State) (h_s : Canonical s) : Canonical (sendEntryOf e s) := by
  unfold sendEntryOf
  try dsimp only
  repeat' first
    | with_reducible assumption
    | with_reducible
        first | apply allOf_canon | apply bumpReg_canon | apply putMem_canon | apply sendMsg_canon
    | split | intro _

theorem opRunReShard_canon (s : State) (h_s : Canonical s) : Canonical (opRunReShard s) := by
  unfold opRunReShard
  try dsimp only
  repeat' first
    | with_reducible assumption
    | with_reducible
        first | apply abandonReShard_canon | apply allOf_canon | apply powered_canon | apply sendEntryOf_canon | apply setReg_canon
    | split | intro _ | with_reducible refine Canonical.of_mk ?_ rfl rfl rfl rfl rfl

theorem switchDense_canon (e : Nat × Nat × Nat × Nat × Nat) (s : State) (h_s : Canonical s) : Canonical (switchDense e s) := by
  unfold switchDense
  try dsimp only
  repeat' first
    | with_reducible assumption | with_reducible apply putMem_canon | split | intro _ | with_reducible refine Canonical.of_mk ?_ rfl rfl rfl rfl rfl

theorem switchTable_canon (e : Nat × Nat × Nat × Nat × Nat) (s : State) (h_s : Canonical s) : Canonical (switchTable e s) := by
  unfold switchTable
  try dsimp only
  repeat' first
    | with_reducible assumption | with_reducible apply allOf_canon | split | intro _ | with_reducible refine Canonical.of_mk ?_ rfl rfl rfl rfl rfl

theorem opSwitch_canon (s : State) (h_s : Canonical s) : Canonical (opSwitch s) := by
  unfold opSwitch
  try dsimp only
  repeat' first
    | with_reducible assumption
    | with_reducible
        first | apply allOf_canon | apply setReg_canon | apply showLevels_canon | apply switchDense_canon | apply switchTable_canon
    | split | intro _ | with_reducible refine Canonical.of_mk ?_ rfl rfl rfl rfl rfl

theorem writeLine_canon (m : Msg) (a : Nat) (bs : List Byte) (s : State) (h_s : Canonical s) : Canonical (writeLine m a bs s) := by
  unfold writeLine
  try dsimp only
  repeat' first
    | with_reducible assumption
    | with_reducible
        first | apply arriveLine_canon | apply putMem_canon | apply raiseAt_canon
    | split | with_reducible refine Canonical.of_mk ?_ rfl rfl rfl rfl rfl

theorem noteMirror_canon (m : Msg) (s : State) (h_s : Canonical s) : Canonical (noteMirror m s) := by
  unfold noteMirror
  try dsimp only
  repeat' first | with_reducible assumption | split | intro _ | with_reducible refine Canonical.of_mk ?_ rfl rfl rfl rfl rfl

theorem applyWrite_canon (m : Msg) (s : State) (h_s : Canonical s) : Canonical (applyWrite m s) := by
  unfold applyWrite
  try dsimp only
  repeat' first
    | with_reducible assumption
    | with_reducible
        first | apply allOf_canon | apply arriveEntry_canon | apply arriveToken_canon | apply noteMirror_canon | apply takeRecRecord_canon
              | apply writeLine_canon
    | split | intro _ | with_reducible refine Canonical.of_mk ?_ rfl rfl rfl rfl rfl

theorem readLine_canon (m : Msg) (a : Nat) (r : List Byte × State) (h : Canonical r.2) : Canonical (readLine m a r).2 := by
  unfold readLine
  dsimp only
  repeat' first
    | with_reducible assumption
    | with_reducible
        first | apply freeBytes_canon | apply raiseAt_canon | apply stackUncorrectable_canon | apply sramUncorrectable_canon
    | split


theorem applyRead_canon (m : Msg) (s : State) (h_s : Canonical s) : Canonical (applyRead m s) := by
  unfold applyRead
  dsimp only
  refine sendMsg_canon _ _ _ _ ?_
  split
  · exact h_s
  · exact foldl_canon2 _ _ _ (fun r a hr => readLine_canon m a r hr) h_s


theorem fillTile_canon (k local_ : Nat) (bs : List Byte) (s : State) (h_s : Canonical s) : Canonical (fillTile k local_ bs s) := by
  unfold fillTile
  try dsimp only
  repeat' first | with_reducible assumption | with_reducible (first | apply allOf_canon | apply putMem_canon) | intro _

theorem answerRead_canon (r : ReadReq) (err : Bool) (m : Msg) (s : State) (h_s : Canonical s) : Canonical (answerRead r err m s) := by
  unfold answerRead
  try dsimp only
  repeat' first
    | with_reducible assumption
    | with_reducible
        first | apply answerSlice_canon | apply answerXfer_canon | apply emit_canon | apply fillTile_canon | apply gatherHeader_canon
              | apply outOfRange_canon | apply putMem_canon | apply setPager_canon | apply tryRestored_canon
    | split | intro _ | with_reducible refine Canonical.of_mk ?_ rfl rfl rfl rfl rfl

theorem applyReadRsp_canon (m : Msg) (s : State) (h_s : Canonical s) : Canonical (applyReadRsp m s) := by
  unfold applyReadRsp
  try dsimp only
  repeat' first
    | with_reducible assumption | with_reducible apply answerRead_canon | split | intro _ | with_reducible refine Canonical.of_mk ?_ rfl rfl rfl rfl rfl

theorem applySignal_canon (m : Msg) (s : State) (h_s : Canonical s) : Canonical (applySignal m s) := by
  unfold applySignal
  try dsimp only
  repeat' first | with_reducible assumption | with_reducible (first | apply arriveCore_canon | apply arriveToken_canon) | split

theorem applyMsg_canon (m : Msg) (s : State) (h_s : Canonical s) : Canonical (applyMsg m s) := by
  unfold applyMsg
  try dsimp only
  repeat' first
    | with_reducible assumption
    | with_reducible
        first | apply applyRead_canon | apply applyReadRsp_canon | apply applySignal_canon | apply applyWrite_canon | apply arriveReduce_canon
              | apply opDecision_canon | apply opRoute_canon | apply opVote_canon
    | split | intro _ | with_reducible refine Canonical.of_mk ?_ rfl rfl rfl rfl rfl

theorem sendAck_canon (key : Nat) (s : State) (h_s : Canonical s) : Canonical (sendAck key s) := by
  unfold sendAck
  try dsimp only
  repeat' first
    | with_reducible assumption
    | with_reducible
        first | apply sendBare_canon | apply setRx_canon
    | split | with_reducible refine Canonical.of_mk ?_ rfl rfl rfl rfl rfl

theorem applyNext_canon (key : Nat) (m : Msg) (s : State) (h_s : Canonical s) : Canonical (applyNext key m s) := by
  unfold applyNext
  try dsimp only
  repeat' first
    | with_reducible assumption
    | with_reducible
        first | apply applyMsg_canon | apply setRx_canon
    | split | with_reducible refine Canonical.of_mk ?_ rfl rfl rfl rfl rfl

theorem drainHeld_canon (n key : Nat) (s : State) (h_s : Canonical s) : Canonical (drainHeld n key s) := by
  induction n generalizing s with
  | zero => exact h_s
  | succ n ih =>
    simp only [drainHeld]
    split
    · exact h_s
    · split
      · exact h_s
      · exact ih _ (applyNext_canon _ _ _ (setRx_canon _ _ _ h_s))


theorem inOrder_canon (m : Msg) (s : State) (h_s : Canonical s) : Canonical (inOrder m s) := by
  have h1 : Canonical (drainHeld (((applyNext (rxKey m) m s).flowRx (rxKey m)).held.length) (rxKey m) (applyNext (rxKey m) m s)) :=
    drainHeld_canon _ _ _ (applyNext_canon _ _ _ h_s)
  unfold inOrder
  dsimp only
  generalize drainHeld _ _ (applyNext (rxKey m) m s) = u at h1
  repeat' first | with_reducible assumption | with_reducible (first | apply sendAck_canon | apply bumpReg_canon | apply setRx_canon) | split


theorem applyAck_canon (m : Msg) (s : State) (h_s : Canonical s) : Canonical (applyAck m s) := by
  unfold applyAck
  try dsimp only
  repeat' first
    | with_reducible assumption
    | with_reducible
        first | apply allOf_canon | apply answerXfer_canon | apply retryWaiting_canon | apply setTx_canon | apply tryDrained_canon
    | split | intro _ | with_reducible refine Canonical.of_mk ?_ rfl rfl rfl rfl rfl

theorem deliver_canon (m : Msg) (s : State) (h_s : Canonical s) : Canonical (deliver m s) := by
  unfold deliver
  try dsimp only
  repeat' first
    | with_reducible assumption
    | with_reducible
        first | apply applyAck_canon | apply applyNext_canon | apply bumpReg_canon | apply discardMsg_canon | apply inOrder_canon
              | apply raiseAt_canon
    | split

theorem opArrive_canon (type : BitVec 4) (m : Msg) (s : State) (h_s : Canonical s) : Canonical (opArrive type m s) := by
  unfold opArrive
  try dsimp only
  repeat' first
    | with_reducible assumption | with_reducible apply deliver_canon | split | with_reducible refine Canonical.of_mk ?_ rfl rfl rfl rfl rfl

theorem opAckTimer_canon (d : Nat) (src : Nat) (s : State) (h_s : Canonical s) : Canonical (opAckTimer d src s) := by
  unfold opAckTimer
  try dsimp only
  repeat' first | with_reducible assumption | with_reducible apply sendAck_canon | split

theorem opEndToEnd_canon (d dst : Nat) (s : State) (h_s : Canonical s) : Canonical (opEndToEnd d dst s) := by
  unfold opEndToEnd
  try dsimp only
  repeat' first
    | with_reducible assumption
    | with_reducible
        first | apply allOf_canon | apply bumpReg_canon | apply failFlow_canon | apply routeOut_canon | apply setTx_canon
    | split | intro _ | with_reducible refine Canonical.of_mk ?_ rfl rfl rfl rfl rfl

theorem opForward_canon (p vc : Nat) (s : State) (h_s : Canonical s) : Canonical (opForward p vc s) := by
  unfold opForward
  try dsimp only
  repeat' first
    | with_reducible assumption
    | with_reducible
        first | apply deliver_canon | apply discardMsg_canon | apply modPort_canon | apply opProbe_canon | apply pumpPort_canon
              | apply routeOut_canon
    | split | intro _ | with_reducible refine Canonical.of_mk ?_ rfl rfl rfl rfl rfl

theorem refuseEvent_canon (v : Verdict) (s : State) (h_s : Canonical s) : Canonical (refuseEvent v s) := by
  unfold refuseEvent
  try dsimp only
  repeat' first | with_reducible assumption | with_reducible apply raise__canon | split | with_reducible refine Canonical.of_mk ?_ rfl rfl rfl rfl rfl

theorem showSlots_canon (s : State) (h_s : Canonical s) : Canonical (showSlots s) := by
  unfold showSlots
  try dsimp only
  repeat' first | with_reducible assumption | with_reducible apply setReg_canon

theorem writeMinima_canon (s : State) (h_s : Canonical s) : Canonical (writeMinima s) := by
  unfold writeMinima
  try dsimp only
  repeat' first | with_reducible assumption | with_reducible (first | apply deviceSign_canon | apply writeRecord_canon) | split

theorem raiseMinimum_canon (kind ver : Nat) (s : State) (h_s : Canonical s) : Canonical (raiseMinimum kind ver s) := by
  unfold raiseMinimum
  try dsimp only
  repeat' first
    | with_reducible assumption
    | with_reducible
        first | apply modBoot_canon | apply setReg_canon | apply writeMinima_canon
    | split | intro _ | with_reducible refine Canonical.of_mk ?_ rfl rfl rfl rfl rfl

theorem trainPorts_canon (s : State) (h_s : Canonical s) : Canonical (trainPorts s) := by
  unfold trainPorts
  try dsimp only
  repeat' first
    | with_reducible assumption
    | with_reducible
        first | apply allOf_canon | apply modPort_canon | apply showPorts_canon | apply startTraining_canon
    | split | intro _

theorem useDescriptor_canon (o : List Byte) (d : Desc) (pos : Nat) (s : State) (h_s : Canonical s) : Canonical (useDescriptor o d pos s) := by
  unfold useDescriptor
  try dsimp only
  repeat' first
    | with_reducible assumption
    | with_reducible
        first | apply setBlob_canon | apply setReg_canon | apply trainPorts_canon
    | split | with_reducible refine Canonical.of_mk ?_ rfl rfl rfl rfl rfl

theorem dropDescriptor_canon (s : State) (h_s : Canonical s) : Canonical (dropDescriptor s) := by
  unfold dropDescriptor
  have h : Canonical (setReg 0x102004 0 (setReg 0x102403 0 { s with desc := none })) := setReg_canon _ _ _ (setReg_canon _ _ _
      (Canonical.upd h_s rfl rfl rfl rfl rfl))
  dsimp only
  generalize setReg 0x102004 0 (setReg 0x102403 0 { s with desc := none }) = u at h
  obtain ⟨a, b, c, d, e, f⟩ := parts_of_sizes h.sizes
  exact showPorts_canon _ (Canonical.sized h rfl rfl rfl h.tiles (sizes_of_parts a b c ((List.length_map ..).trans d) e f))


theorem takeDescriptor_canon (o : List Byte) (s : State) (h_s : Canonical s) : Canonical (takeDescriptor o s) := by
  unfold takeDescriptor
  try dsimp only
  repeat' first
    | with_reducible assumption
    | with_reducible
        first | apply dropDescriptor_canon | apply raise__canon | apply useDescriptor_canon
    | split | with_reducible refine Canonical.of_mk ?_ rfl rfl rfl rfl rfl

theorem takeOwner_canon (viaM0 : Bool) (o : List Byte) (s : State) (h_s : Canonical s) : Canonical (takeOwner viaM0 o s).2 := by
  unfold takeOwner
  try dsimp only
  repeat' first
    | with_reducible assumption
    | with_reducible
        first | apply dropDescriptor_canon | apply modBoot_canon | apply raise__canon | apply setBlob_canon | apply writeRecord_canon
    | split | intro _ | with_reducible refine Canonical.of_mk ?_ rfl rfl rfl rfl rfl

theorem takeManagement_canon (o : List Byte) (s : State) (h_s : Canonical s) : Canonical (takeManagement o s).2 := by
  unfold takeManagement
  try dsimp only
  repeat' first
    | with_reducible assumption
    | with_reducible
        first | apply modBoot_canon | apply refuseEvent_canon | apply setBlob_canon | apply writeRecord_canon
    | split | intro _ | with_reducible refine Canonical.of_mk ?_ rfl rfl rfl rfl rfl

theorem opOwner_canon (viaM0 : Bool) (o : List Byte) (s : State) (h_s : Canonical s) : Canonical (opOwner viaM0 o s).2 := by
  unfold opOwner
  try dsimp only
  repeat' first | with_reducible assumption | with_reducible apply takeOwner_canon | split

theorem opManagement_canon (o : List Byte) (s : State) (h_s : Canonical s) : Canonical (opManagement o s).2 := by
  unfold opManagement
  try dsimp only
  repeat' first | with_reducible assumption | with_reducible apply takeManagement_canon | split

theorem formReport_canon (s : State) (h_s : Canonical s) : Canonical (formReport s) := by
  unfold formReport
  try dsimp only
  repeat' first
    | with_reducible assumption
    | with_reducible
        first | apply deviceSign_canon | apply modBoot_canon | apply setBlob_canon
    | split | intro _ | with_reducible refine Canonical.of_mk ?_ rfl rfl rfl rfl rfl

theorem opNonce_canon (n : List Byte) (s : State) (h_s : Canonical s) : Canonical (opNonce n s).2 := by
  unfold opNonce
  try dsimp only
  repeat' first
    | with_reducible assumption
    | with_reducible
        first | apply formReport_canon | apply setBlob_canon
    | split | with_reducible refine Canonical.of_mk ?_ rfl rfl rfl rfl rfl

theorem usePack_canon (o : List Byte) (s : State) (h_s : Canonical s) : Canonical (usePack o s) := by
  unfold usePack
  try dsimp only
  repeat' first | with_reducible assumption | with_reducible apply setReg_canon | with_reducible refine Canonical.of_mk ?_ rfl rfl rfl rfl rfl

theorem opUpdateObject_canon (o : List Byte) (s : State) (h_s : Canonical s) : Canonical (opUpdateObject o s).2 := by
  unfold opUpdateObject
  try dsimp only
  repeat' first
    | with_reducible assumption
    | with_reducible
        first | apply modBoot_canon | apply setReg_canon
    | split | intro _ | with_reducible refine Canonical.of_mk ?_ rfl rfl rfl rfl rfl

theorem updateRefused_canon (v : Verdict) (s : State) (h_s : Canonical s) : Canonical (updateRefused v s) := by
  unfold updateRefused
  try dsimp only
  repeat' first | with_reducible assumption | with_reducible (first | apply refuseEvent_canon | apply setReg_canon)

theorem applyUpdate_canon (kind : Nat) (o : List Byte) (s : State) (h_s : Canonical s) : Canonical (applyUpdate kind o s) := by
  unfold applyUpdate
  try dsimp only
  repeat' first
    | with_reducible assumption
    | with_reducible
        first | apply modFlash_canon | apply setReg_canon | apply showSlots_canon | apply takeDescriptor_canon | apply usePack_canon
    | split | intro _ | with_reducible refine Canonical.of_mk ?_ rfl rfl rfl rfl rfl

theorem opUpdateComplete_canon (s : State) (h_s : Canonical s) : Canonical (opUpdateComplete s) := by
  unfold opUpdateComplete
  try dsimp only
  repeat' first
    | with_reducible assumption
    | with_reducible
        first | apply applyUpdate_canon | apply modBoot_canon | apply raiseMinimum_canon | apply raise__canon | apply setReg_canon
              | apply updateRefused_canon
    | split | intro _ | with_reducible refine Canonical.of_mk ?_ rfl rfl rfl rfl rfl

theorem setPages_canon (first n bits : Nat) (s : State) (h_s : Canonical s) : Canonical (setPages first n bits s) := by
  unfold setPages
  try dsimp only
  repeat' first
    | with_reducible assumption | with_reducible apply allOf_canon | intro _ | with_reducible refine Canonical.of_mk ?_ rfl rfl rfl rfl rfl

theorem loadPages_canon (s : State) (h_s : Canonical s) : Canonical (loadPages s) := by
  unfold loadPages
  try dsimp only
  repeat' first
    | with_reducible assumption
    | with_reducible
        first | apply allOf_canon | apply setPages_canon
    | intro _ | with_reducible refine Canonical.of_mk ?_ rfl rfl rfl rfl rfl

theorem loadPagers_canon (s : State) (h_s : Canonical s) : Canonical (loadPagers s) := by
  unfold loadPagers
  try dsimp only
  repeat' first
    | with_reducible assumption
    | with_reducible
        first | apply foldl_canon | apply foldl_canon1 | apply foldl_canon2
    | intro _ | with_reducible refine Canonical.of_mk ?_ rfl rfl rfl rfl rfl

theorem loadTile_canon (xs : List Section) (x : Section) (s : State) (h_s : Canonical s) : Canonical (loadTile xs x s) := by
  unfold loadTile
  try dsimp only
  repeat' first
    | with_reducible assumption
    | with_reducible
        first | apply setTile_canon | apply foldl_canon | apply foldl_canon1 | apply foldl_canon2
    | split | intro _ | with_reducible refine Canonical.of_mk ?_ rfl rfl rfl rfl rfl

theorem loadSram_canon (x : Section) (s : State) (h_s : Canonical s) : Canonical (loadSram x s) := by
  unfold loadSram
  try dsimp only
  repeat' first | with_reducible assumption | with_reducible apply putMem_canon

theorem clearErrorMemory_canon (s : State) (h_s : Canonical s) : Canonical (clearErrorMemory s) := by
  unfold clearErrorMemory
  try dsimp only
  repeat' first | with_reducible assumption | with_reducible (first | apply allOf_canon | apply putMem_canon) | intro _

theorem loadJob_canon (xs : List Section) (job : Job) (s : State) (h_s : Canonical s) : Canonical (loadJob xs job s) := by
  unfold loadJob
  extract_lets r1 s1 s2 s3 ctxs maps s4 s5 s6 r2 s7 tables s8 s9 s10
  obtain ⟨a, b, c, d, e, f⟩ := parts_of_sizes h_s.sizes
  have h1 : Canonical s1 := ⟨h_s.mem, h_s.mram, h_s.regs, keepCounts_sorted _ h_s.tiles, sizes_of_parts rfl (List.length_replicate ..) c d e f⟩
  clear_value s1
  have h2 : Canonical s2 := allOf_canon _ _ _ (fun x s hs => loadTile_canon _ x s hs) h1
  clear_value s2
  have h3 : Canonical s3 := allOf_canon _ _ _ (fun x s hs => loadSram_canon x s hs) h2
  clear_value ctxs maps s3
  obtain ⟨a, b, c, d, e, f⟩ := parts_of_sizes h3.sizes
  have h4 : Canonical s4 := Canonical.sized h3 rfl rfl rfl h3.tiles (sizes_of_parts a b ((List.length_map ..).trans
      ((List.length_zipIdx ..).trans c)) d e f)
  clear_value s4
  have h5 : Canonical s5 := countDerived_canon _ _ h4
  clear_value s5
  have h6 : Canonical s6 := clearErrorMemory_canon _ (loadPagers_canon _ (loadPages_canon _ h5))
  clear_value s6
  have h7 : Canonical s7 := Canonical.upd h6 rfl rfl rfl rfl rfl
  clear_value tables s7
  have h8 : Canonical s8 := setReg_canon _ _ _ (setReg_canon _ _ _ (setReg_canon _ _ _ (setReg_canon _ _ _ h7)))
  clear_value s8
  have h9 : Canonical s9 := allOf_canon _ _ _ (fun x s hs => setReg_canon _ _ s hs) h8
  clear_value s9
  have h10 : Canonical s10 := by
    simp only [s10]
    repeat' with_reducible first | assumption | apply setReg_canon
  clear_value s10
  repeat' with_reducible first | assumption | apply setReg_canon


theorem loadVerdict_canon (s t : State) (h_s : Canonical s) (h : loadVerdict s = .ok t) : Canonical t := by
  unfold loadVerdict at h
  split at h
  · cases h
  dsimp only at h
  split at h
  · cases h
  split at h
  · cases h
  split at h
  · cases h
  split at h
  · cases h
  split at h
  · cases h
  · rw [← Except.ok.inj h]
    exact loadJob_canon _ _ _ h_s


end Sys2Proof.Machine
end

