-- ==== Sys2Proof/Laws/CanonicalPackage.lean ====
section
/-!
SUPPORT. The canonical form is kept by power, retirement, Tightrope, boot, commands and the control cores.
-/

set_option linter.all false

namespace Sys2Proof.Machine
open Sys2Proof

theorem moveSetpoint_canon (d v : Nat) (s : State) (h_s : Canonical s) : Canonical (moveSetpoint d v s) := by
  unfold moveSetpoint
  try dsimp only
  repeat' first | with_reducible assumption | with_reducible (first | apply emit_canon | apply setReg_canon) | split

theorem dropSetpoints_canon (d : Nat) (s : State) (h_s : Canonical s) : Canonical (dropSetpoints d s) := by
  unfold dropSetpoints
  try dsimp only
  repeat' first | with_reducible assumption | with_reducible (first | apply allOf_canon | apply moveSetpoint_canon) | split | intro _

theorem setSetpoints_canon (s : State) (h_s : Canonical s) : Canonical (setSetpoints s) := by
  unfold setSetpoints
  try dsimp only
  repeat' first
    | with_reducible assumption
    | with_reducible
        first | apply allOf_canon | apply dropSetpoints_canon | apply moveSetpoint_canon
    | split | intro _ | with_reducible refine Canonical.of_mk ?_ rfl rfl rfl rfl rfl

theorem postBudget_canon (d : Nat) (s : State) (h_s : Canonical s) : Canonical (postBudget d s) := by
  unfold postBudget
  try dsimp only
  repeat' first
    | with_reducible assumption
    | with_reducible
        first | apply postItem_canon | apply setRing_canon
    | split | with_reducible refine Canonical.of_mk ?_ rfl rfl rfl rfl rfl

theorem setBudgets_canon (s : State) (h_s : Canonical s) : Canonical (setBudgets s) := by
  unfold setBudgets
  try dsimp only
  repeat' first
    | with_reducible assumption
    | with_reducible
        first | apply allOf_canon | apply modPower_canon | apply postBudget_canon | apply setReg_canon
    | intro _ | with_reducible refine Canonical.of_mk ?_ rfl rfl rfl rfl rfl

theorem setLevel_canon (s : State) (h_s : Canonical s) : Canonical (setLevel s) := by
  unfold setLevel
  try dsimp only
  repeat' first
    | with_reducible assumption
    | with_reducible
        first | apply holdNow_canon | apply modPower_canon | apply raise__canon | apply setReg_canon
    | split | intro _ | with_reducible refine Canonical.of_mk ?_ rfl rfl rfl rfl rfl

theorem setCuts_canon (s : State) (h_s : Canonical s) : Canonical (setCuts s) := by
  unfold setCuts
  try dsimp only
  repeat' first
    | with_reducible assumption
    | with_reducible
        first | apply allOf_canon | apply bumpReg_canon | apply modPower_canon | apply raiseAt_canon
    | split | intro _ | with_reducible refine Canonical.of_mk ?_ rfl rfl rfl rfl rfl

theorem clampVoltage_canon (s : State) (h_s : Canonical s) : Canonical (clampVoltage s) := by
  unfold clampVoltage
  try dsimp only
  repeat' first
    | with_reducible assumption
    | with_reducible
        first | apply bumpReg_canon | apply modPower_canon | apply moveSetpoint_canon | apply raiseAt_canon
    | split | intro _ | with_reducible refine Canonical.of_mk ?_ rfl rfl rfl rfl rfl

theorem opBudgetSetting_canon (s : State) (h_s : Canonical s) : Canonical (opBudgetSetting s) := by
  unfold opBudgetSetting
  try dsimp only
  repeat' first
    | with_reducible assumption
    | with_reducible
        first | apply clampVoltage_canon | apply modPower_canon | apply setBudgets_canon | apply setCuts_canon | apply setLevel_canon
              | apply setSetpoints_canon
    | split | intro _ | with_reducible refine Canonical.of_mk ?_ rfl rfl rfl rfl rfl

theorem lend_canon (d est : Nat) (s : State) (h_s : Canonical s) : Canonical (lend d est s) := by
  unfold lend
  try dsimp only
  repeat' first
    | with_reducible assumption
    | with_reducible
        first | apply bumpReg_canon | apply modPower_canon | apply moveSetpoint_canon | apply postBudget_canon | apply setReg_canon
    | split | intro _ | with_reducible refine Canonical.of_mk ?_ rfl rfl rfl rfl rfl

theorem opBudgetEstimate_canon (d : Fin 4) (watts : BitVec 16) (s : State) (h_s : Canonical s) : Canonical (opBudgetEstimate d watts s) := by
  unfold opBudgetEstimate
  try dsimp only
  repeat' first
    | with_reducible assumption
    | with_reducible
        first | apply lend_canon | apply modPower_canon | apply moveSetpoint_canon
    | split | intro _ | with_reducible refine Canonical.of_mk ?_ rfl rfl rfl rfl rfl

theorem opBudgetTimeout_canon (d : Fin 4) (s : State) (h_s : Canonical s) : Canonical (opBudgetTimeout d s) := by
  unfold opBudgetTimeout
  try dsimp only
  repeat' first | with_reducible assumption | with_reducible apply setReg_canon

theorem compareRegions_canon (s : State) (h_s : Canonical s) : Canonical (compareRegions s) := by
  unfold compareRegions
  try dsimp only
  repeat' first
    | with_reducible assumption
    | with_reducible
        first | apply holdNow_canon | apply modPower_canon | apply raise__canon
    | split | intro _ | with_reducible refine Canonical.of_mk ?_ rfl rfl rfl rfl rfl

theorem compareJunction_canon (d : Nat) (s : State) (h_s : Canonical s) : Canonical (compareJunction d s) := by
  unfold compareJunction
  try dsimp only
  repeat' first
    | with_reducible assumption
    | with_reducible
        first | apply bumpReg_canon | apply dropSetpoints_canon | apply enterFault_canon | apply holdNow_canon | apply modPins_canon
              | apply modPower_canon | apply raiseAt_canon
    | split | intro _ | with_reducible refine Canonical.of_mk ?_ rfl rfl rfl rfl rfl

theorem opRegionSample_canon (r : RegionReading) (s : State) (h_s : Canonical s) : Canonical (opRegionSample r s) := by
  unfold opRegionSample
  try dsimp only
  repeat' first
    | with_reducible assumption
    | with_reducible
        first | apply allOf_canon | apply compareJunction_canon | apply compareRegions_canon | apply modPower_canon | apply setReg_canon
    | intro _ | with_reducible refine Canonical.of_mk ?_ rfl rfl rfl rfl rfl

theorem regulatorFault_canon (i : Nat) (s : State) (h_s : Canonical s) : Canonical (regulatorFault i s) := by
  unfold regulatorFault
  try dsimp only
  repeat' first | with_reducible assumption | with_reducible apply raiseAt_canon | split

theorem railLost_canon (s : State) (h_s : Canonical s) : Canonical (railLost s) := by
  unfold railLost
  try dsimp only
  repeat' first
    | with_reducible assumption
    | with_reducible
        first | apply enter_canon | apply enterFault_canon | apply modBoot_canon
    | split | intro _ | with_reducible refine Canonical.of_mk ?_ rfl rfl rfl rfl rfl

theorem opTelemetry_canon (t : Telemetry) (s : State) (h_s : Canonical s) : Canonical (opTelemetry t s) := by
  unfold opTelemetry
  try dsimp only
  repeat' first
    | with_reducible assumption
    | with_reducible
        first | apply allOf_canon | apply railLost_canon | apply regulatorFault_canon | apply setReg_canon | apply foldl_canon | apply foldl_canon1
              | apply foldl_canon2
    | split | intro _

theorem opAlert_canon (segment : Fin 2) (status : Vector (Option (BitVec 16)) 4) (s : State) (h_s : Canonical s) : Canonical
      (opAlert segment status s) := by
  unfold opAlert
  try dsimp only
  repeat' first
    | with_reducible assumption
    | with_reducible
        first | apply allOf_canon | apply emit_canon | apply regulatorFault_canon
    | split | intro _ | with_reducible refine Canonical.of_mk ?_ rfl rfl rfl rfl rfl

theorem setValve_canon (s : State) (h_s : Canonical s) : Canonical (setValve s) := by
  unfold setValve
  try dsimp only
  repeat' first
    | with_reducible assumption
    | with_reducible
        first | apply modPower_canon | apply setReg_canon
    | split | intro _ | with_reducible refine Canonical.of_mk ?_ rfl rfl rfl rfl rfl

theorem readCoolant_canon (r : CoolantReading) (s : State) (h_s : Canonical s) : Canonical (readCoolant r s) := by
  unfold readCoolant
  try dsimp only
  repeat' first
    | with_reducible assumption
    | with_reducible
        first | apply allOf_canon | apply modPower_canon | apply raiseAt_canon | apply raise__canon | apply setReg_canon
    | split | intro _ | with_reducible refine Canonical.of_mk ?_ rfl rfl rfl rfl rfl

theorem opValve_canon (r : CoolantReading) (s : State) (h_s : Canonical s) : Canonical (opValve r s) := by
  unfold opValve
  try dsimp only
  repeat' first
    | with_reducible assumption
    | with_reducible
        first | apply readCoolant_canon | apply setReg_canon | apply setValve_canon
    | split | intro _

theorem opFlowLow_canon (s : State) (h_s : Canonical s) : Canonical (opFlowLow s) := by
  unfold opFlowLow
  try dsimp only
  repeat' first
    | with_reducible assumption
    | with_reducible
        first | apply modPower_canon | apply raise__canon
    | intro _ | with_reducible refine Canonical.of_mk ?_ rfl rfl rfl rfl rfl

theorem opInletHigh_canon (s : State) (h_s : Canonical s) : Canonical (opInletHigh s) := by
  unfold opInletHigh
  try dsimp only
  repeat' first
    | with_reducible assumption
    | with_reducible
        first | apply modPower_canon | apply raise__canon
    | split | intro _ | with_reducible refine Canonical.of_mk ?_ rfl rfl rfl rfl rfl

theorem opProfileDeparture_canon (s : State) (h_s : Canonical s) : Canonical (opProfileDeparture s) := by
  unfold opProfileDeparture
  try dsimp only
  repeat' first
    | with_reducible assumption
    | with_reducible
        first | apply modPower_canon | apply raise__canon
    | split | intro _ | with_reducible refine Canonical.of_mk ?_ rfl rfl rfl rfl rfl

theorem startPower_canon (s : State) (h_s : Canonical s) : Canonical (startPower s) := by
  unfold startPower
  try dsimp only
  repeat' first
    | with_reducible assumption
    | with_reducible
        first | apply modPower_canon | apply setBudgets_canon
    | intro _ | with_reducible refine Canonical.of_mk ?_ rfl rfl rfl rfl rfl

theorem recordJudged_canon (k : Nat) (s : State) (h_s : Canonical s) : Canonical (recordJudged k s) := by
  unfold recordJudged
  try dsimp only
  repeat' first
    | with_reducible assumption | with_reducible apply modFlash_canon | split | intro _ | with_reducible refine Canonical.of_mk ?_ rfl rfl rfl rfl rfl

theorem retireAll_canon (s : State) (h_s : Canonical s) : Canonical (retireAll s) := by
  unfold retireAll
  try dsimp only
  repeat' first
    | with_reducible assumption
    | with_reducible
        first | apply abortHeld_canon | apply allOf_canon | apply applyRetirement_canon | apply becomeShort_canon | apply bumpReg_canon
              | apply judgeEntry_canon | apply raiseAt_canon | apply recordJudged_canon | apply writeRepairMap_canon
    | split | intro _ | with_reducible refine Canonical.of_mk ?_ rfl rfl rfl rfl rfl

theorem opRetirement_canon (s : State) (h_s : Canonical s) : Canonical (opRetirement s) := by
  unfold opRetirement
  try dsimp only
  repeat' first | with_reducible assumption | with_reducible apply retireAll_canon | split

theorem opRetireTile_canon (k : Nat) (s : State) (h_s : Canonical s) : Canonical (opRetireTile k s).2 := by
  unfold opRetireTile
  try dsimp only
  repeat' first | with_reducible assumption | split | intro _ | with_reducible refine Canonical.of_mk ?_ rfl rfl rfl rfl rfl

theorem modEdge_canon (e : Nat) (f : Edge → Edge) (s : State) (hf : ∀ x, (f x).ends.length = x.ends.length) (h_s : Canonical s) : Canonical
      (modEdge e f s) := by
  obtain ⟨a, b, c, d, e, g⟩ := parts_of_sizes h_s.sizes
  exact Canonical.sized h_s rfl rfl rfl h_s.tiles (sizes_of_parts a b c d e ((map_setAt_same _ _ _ _ _ (hf _)).trans g))


theorem modEnd_canon (e : Nat) (high : Bool) (f : LinkEnd → LinkEnd) (s : State) (h_s : Canonical s) : Canonical (modEnd e high f s) := by
  exact modEdge_canon _ _ _ (fun _ => List.length_set ..) h_s


theorem countEnd_canon (e : Nat) (high : Bool) (i n : Nat) (s : State) (h_s : Canonical s) : Canonical (countEnd e high i n s) := by
  unfold countEnd
  try dsimp only
  repeat' first
    | with_reducible assumption | with_reducible apply modEdge_canon | with_reducible rfl | intro _ | with_reducible refine Canonical.of_mk ?_ rfl rfl rfl rfl rfl

theorem bothEnds_canon (f : Bool → State → State) (s : State) (h_f : ∀ (x0 : Bool) (x1 : State), Canonical x1 → Canonical (f x0 x1))
      (h_s : Canonical s) : Canonical (bothEnds f s) := by
  unfold bothEnds
  try dsimp only
  repeat' first | with_reducible assumption | with_reducible apply h_f | intro _

theorem raiseEdge_canon (code e : Nat) (high : Bool) (s : State) (h_s : Canonical s) : Canonical (raiseEdge code e high s) := by
  unfold raiseEdge
  try dsimp only
  repeat' first | with_reducible assumption | with_reducible apply raiseAt_canon

theorem showEdges_canon (s : State) (h_s : Canonical s) : Canonical (showEdges s) := by
  unfold showEdges
  try dsimp only
  repeat' first
    | with_reducible assumption
    | with_reducible
        first | apply setReg_canon | apply foldl_canon | apply foldl_canon1 | apply foldl_canon2
    | intro _

theorem pumpEnd_canon (e : Nat) (high reply : Bool) (s : State) (h_s : Canonical s) : Canonical (pumpEnd e high reply s) := by
  unfold pumpEnd
  try dsimp only
  repeat' first
    | with_reducible assumption
    | with_reducible
        first | apply allOf_canon | apply countEnd_canon | apply emit_canon | apply modEnd_canon
    | split | intro _

theorem edgeDown_canon (e : Nat) (s : State) (h_s : Canonical s) : Canonical (edgeDown e s) := by
  unfold edgeDown
  try dsimp only
  repeat' first
    | with_reducible assumption | with_reducible apply modEdge_canon | with_reducible rfl
    | with_reducible
        first | apply enter_canon | apply enterFault_canon | apply raiseAt_canon | apply showEdges_canon
    | split | intro _ | with_reducible refine Canonical.of_mk ?_ rfl rfl rfl rfl rfl

theorem attemptFails_canon (e : Nat) (s : State) (h_s : Canonical s) : Canonical (attemptFails e s) := by
  unfold attemptFails
  try dsimp only
  repeat' first
    | with_reducible assumption | with_reducible apply modEdge_canon | with_reducible rfl
    | with_reducible
        first | apply bothEnds_canon | apply countEnd_canon | apply edgeDown_canon | apply raiseAt_canon | apply showEdges_canon
    | split | intro _ | with_reducible refine Canonical.of_mk ?_ rfl rfl rfl rfl rfl

theorem edgeUp_canon (e : Nat) (s : State) (h_s : Canonical s) : Canonical (edgeUp e s) := by
  unfold edgeUp
  try dsimp only
  repeat' first
    | with_reducible assumption | with_reducible apply modEdge_canon | with_reducible rfl
    | with_reducible
        first | apply allOf_canon | apply bothEnds_canon | apply countEnd_canon | apply emit_canon | apply pumpEnd_canon | apply raiseAt_canon
              | apply showEdges_canon
    | split | intro _ | with_reducible refine Canonical.of_mk ?_ rfl rfl rfl rfl rfl

theorem edgeReset_canon (e : Nat) (high : Bool) (s : State) (h_s : Canonical s) : Canonical (edgeReset e high s) := by
  unfold edgeReset
  try dsimp only
  repeat' first
    | with_reducible assumption | with_reducible apply modEdge_canon | with_reducible rfl
    | with_reducible
        first | apply attemptFails_canon | apply countEnd_canon | apply modEnd_canon | apply raiseEdge_canon
    | split | intro _ | with_reducible refine Canonical.of_mk ?_ rfl rfl rfl rfl rfl

theorem opTightropeReset_canon (e : Nat) (high : Bool) (s : State) (h_s : Canonical s) : Canonical (opTightropeReset e high s) := by
  unfold opTightropeReset
  try dsimp only
  repeat' first | with_reducible assumption | with_reducible (first | apply edgeReset_canon | apply powered_canon) | intro _

theorem opTightropeTraining_canon (e : Nat) (s : State) (h_s : Canonical s) : Canonical (opTightropeTraining e s) := by
  unfold opTightropeTraining
  try dsimp only
  repeat' first
    | with_reducible assumption | with_reducible apply modEdge_canon | with_reducible rfl
    | with_reducible
        first | apply bothEnds_canon | apply countEnd_canon | apply modEnd_canon | apply powered_canon
    | split | intro _ | with_reducible refine Canonical.of_mk ?_ rfl rfl rfl rfl rfl

theorem busWord_canon (e : Nat) (high : Bool) (w : Nat) (s : State) (h_s : Canonical s) : Canonical (busWord e high w s) := by
  unfold busWord
  try dsimp only
  repeat' first | with_reducible assumption | with_reducible apply emit_canon

theorem opAdvertise_canon (e : Nat) (high : Bool) (mask : BitVec 2) (s : State) (h_s : Canonical s) : Canonical (opAdvertise e high mask s) := by
  unfold opAdvertise
  try dsimp only
  repeat' first
    | with_reducible assumption | with_reducible apply modEdge_canon | with_reducible rfl
    | with_reducible
        first | apply allOf_canon | apply attemptFails_canon | apply bothEnds_canon | apply busWord_canon | apply emit_canon | apply powered_canon
    | split | intro _ | with_reducible refine Canonical.of_mk ?_ rfl rfl rfl rfl rfl

theorem opAdvertTimeout_canon (e : Nat) (s : State) (h_s : Canonical s) : Canonical (opAdvertTimeout e s) := by
  unfold opAdvertTimeout
  try dsimp only
  repeat' first | with_reducible assumption | with_reducible (first | apply attemptFails_canon | apply powered_canon) | split | intro _

theorem takeTest_canon (e : Nat) (high : Bool) (f : Flit) (s : State) (h_s : Canonical s) : Canonical (takeTest e high f s) := by
  unfold takeTest
  try dsimp only
  repeat' first
    | with_reducible assumption
    | with_reducible
        first | apply attemptFails_canon | apply countEnd_canon | apply edgeUp_canon | apply modEnd_canon
    | split | intro _ | with_reducible refine Canonical.of_mk ?_ rfl rfl rfl rfl rfl

theorem freeFifo_canon (e : Nat) (high : Bool) (s : State) (h_s : Canonical s) : Canonical (freeFifo e high s) := by
  unfold freeFifo
  try dsimp only
  repeat' first
    | with_reducible assumption | with_reducible apply modEnd_canon | intro _ | with_reducible refine Canonical.of_mk ?_ rfl rfl rfl rfl rfl

theorem opTightropeFlit_canon (e : Nat) (high : Bool) (f : Flit) (s : State) (h_s : Canonical s) : Canonical (opTightropeFlit e high f s) := by
  unfold opTightropeFlit
  try dsimp only
  repeat' first
    | with_reducible assumption
    | with_reducible
        first | apply allOf_canon | apply countEnd_canon | apply edgeReset_canon | apply emit_canon | apply freeFifo_canon | apply modEnd_canon
              | apply powered_canon | apply pumpEnd_canon | apply raiseEdge_canon | apply takeTest_canon
    | split | intro _ | with_reducible refine Canonical.of_mk ?_ rfl rfl rfl rfl rfl

theorem opHandOver_canon (e : Nat) (high : Bool) (s : State) (h_s : Canonical s) : Canonical (opHandOver e high s) := by
  unfold opHandOver
  try dsimp only
  repeat' first
    | with_reducible assumption | with_reducible apply modEdge_canon | with_reducible rfl
    | with_reducible
        first | apply busWord_canon | apply countEnd_canon | apply modEnd_canon | apply powered_canon | apply pumpEnd_canon
    | split | intro _ | with_reducible refine Canonical.of_mk ?_ rfl rfl rfl rfl rfl

theorem opRetrainEdge_canon (d : Nat) (s : State) (h_s : Canonical s) : Canonical (opRetrainEdge d s) := by
  unfold opRetrainEdge
  try dsimp only
  repeat' first
    | with_reducible assumption | with_reducible apply modEdge_canon | with_reducible rfl | with_reducible apply edgeReset_canon | split | intro _ | with_reducible refine Canonical.of_mk ?_ rfl rfl rfl rfl rfl

theorem offState_canon (s : State) (h : Canonical s) : Canonical (offState s) := by
  unfold offState
  refine setReg_canon _ _ _ (setReg_canon _ _ _ ?_)
  constructor
  · show memWf [] = true
    rfl
  · show memWf (recoverTrunk s.trunk.mram).mram = true
    exact recoverTrunk_mram _ h.mram
  · show smSorted dictDefaults = true
    exact dictDefaults_sorted
  · show smSorted ([] : SMap Tile) = true
    rfl
  · exact sizes_of_parts rfl rfl rfl rfl rfl rfl


theorem resetAll_canon (cause : Nat) (s : State) (h_s : Canonical s) : Canonical (resetAll cause s) := by
  unfold resetAll
  have h := enter_canon .off cause s h_s
  exact offState_canon _ ⟨h.mem, flushTrunk_mram _ h.mram, h.regs, h.tiles, h.sizes⟩


theorem opPwrgd_canon (order : Bool) (s : State) (h_s : Canonical s) : Canonical (opPwrgd order s) := by
  unfold opPwrgd
  try dsimp only
  repeat' first
    | with_reducible assumption
    | with_reducible
        first | apply modPins_canon | apply setReg_canon
    | intro _ | with_reducible refine Canonical.of_mk ?_ rfl rfl rfl rfl rfl

theorem opPwrgdFall_canon (s : State) (h_s : Canonical s) : Canonical (opPwrgdFall s) := by
  unfold opPwrgdFall
  have h := modPins_canon (fun p => { p with pwrgd := false, thermtrip := false, orderFault := false }) s h_s
  generalize modPins (fun p => { p with pwrgd := false, thermtrip := false, orderFault := false }) s = u at h
  dsimp only
  split
  · exact h
  · have h2 : Canonical (if u.reg 0x104802 = 1 then (64, u) else (leNat (freeBytes 1 u).1 % 65, (freeBytes 1 u).2)).2 := by
      split
      · exact h
      · exact freeBytes_canon _ _ h
    generalize (if u.reg 0x104802 = 1 then (64, u) else (leNat (freeBytes 1 u).1 % 65, (freeBytes 1 u).2)) = r at h2
    exact offState_canon _ ⟨h2.mem, holdUp_mram _ _ h2, h2.regs, h2.tiles, h2.sizes⟩


theorem opResetN_canon (s : State) (h_s : Canonical s) : Canonical (opResetN s) := by
  unfold opResetN
  try dsimp only
  repeat' first
    | with_reducible assumption
    | with_reducible
        first | apply modPins_canon | apply resetAll_canon
    | split | intro _ | with_reducible refine Canonical.of_mk ?_ rfl rfl rfl rfl rfl

theorem opHoldup_canon (mv : BitVec 16) (s : State) (h_s : Canonical s) : Canonical (opHoldup mv s) := by
  unfold opHoldup
  try dsimp only
  repeat' first | with_reducible assumption | with_reducible apply setReg_canon

theorem endBoot_canon (shown : Nat) (s : State) (h_s : Canonical s) : StageCanonical (endBoot shown s) := by
  unfold endBoot
  try dsimp only
  repeat' first
    | with_reducible assumption
    | with_reducible
        first | apply enter_canon | apply setReg_canon
    | with_reducible
        first | apply StageCanonical.bind | apply StageCanonical.ok | apply StageCanonical.error | apply StageCanonical.pure

theorem recoveryMode_canon (stage code : Nat) (s : State) (h_s : Canonical s) : StageCanonical (recoveryMode stage code s) := by
  unfold recoveryMode
  try dsimp only
  repeat' first
    | with_reducible assumption
    | with_reducible
        first | apply endBoot_canon | apply modBoot_canon | apply raise__canon
    | intro _ | with_reducible refine Canonical.of_mk ?_ rfl rfl rfl rfl rfl
    | with_reducible
        first | apply StageCanonical.bind | apply StageCanonical.ok | apply StageCanonical.error | apply StageCanonical.pure

theorem startUpFails_canon (s : State) (h_s : Canonical s) : StageCanonical (startUpFails s) := by
  unfold startUpFails
  try dsimp only
  repeat' first
    | with_reducible assumption
    | with_reducible
        first | apply endBoot_canon | apply modBoot_canon
    | intro _ | with_reducible refine Canonical.of_mk ?_ rfl rfl rfl rfl rfl
    | with_reducible
        first | apply StageCanonical.bind | apply StageCanonical.ok | apply StageCanonical.error | apply StageCanonical.pure

theorem bootB2_canon (f : BootFound) (s : State) (h_s : Canonical s) : StageCanonical (bootB2 f s) := by
  unfold bootB2
  try dsimp only
  repeat' first
    | with_reducible assumption
    | with_reducible
        first | apply allOf_canon | apply modBoot_canon | apply modPins_canon | apply raise__canon | apply recoveryMode_canon | apply setBlob_canon
    | split | intro _ | with_reducible refine Canonical.of_mk ?_ rfl rfl rfl rfl rfl
    | with_reducible
        first | apply StageCanonical.bind | apply StageCanonical.ok | apply StageCanonical.error | apply StageCanonical.pure

theorem bootB3_canon (f : BootFound) (s : State) (h_s : Canonical s) : StageCanonical (bootB3 f s) := by
  unfold bootB3
  try dsimp only
  repeat' first
    | with_reducible assumption
    | with_reducible
        first | apply modBoot_canon | apply raise__canon | apply setBlob_canon | apply setReg_canon | apply writeMinima_canon
    | split | intro _ | with_reducible refine Canonical.of_mk ?_ rfl rfl rfl rfl rfl
    | with_reducible
        first | apply StageCanonical.bind | apply StageCanonical.ok | apply StageCanonical.error | apply StageCanonical.pure

theorem trySlot_canon (f : BootFound) (i : Nat) (s : State) (h_s : Canonical s) : Canonical (trySlot f i s).2 := by
  unfold trySlot
  try dsimp only
  repeat' first
    | with_reducible assumption
    | with_reducible
        first | apply modFlash_canon | apply raise__canon | apply setReg_canon
    | split | intro _ | with_reducible refine Canonical.of_mk ?_ rfl rfl rfl rfl rfl

theorem bootB4_canon (f : BootFound) (s : State) (h_s : Canonical s) : StageCanonical (bootB4 f s) := by
  unfold bootB4
  try dsimp only
  repeat' first
    | with_reducible assumption
    | with_reducible
        first | apply recoveryMode_canon | apply setReg_canon | apply trySlot_canon
    | split
    | with_reducible
        first | apply StageCanonical.bind | apply StageCanonical.ok | apply StageCanonical.error | apply StageCanonical.pure

theorem bootRails_canon (s : State) (h_s : Canonical s) : Canonical (bootRails s) := by
  unfold bootRails
  try dsimp only
  repeat' first | with_reducible assumption | with_reducible (first | apply allOf_canon | apply emit_canon | apply setReg_canon) | intro _

theorem bootMaps_canon (f : BootFound) (s : State) (h_s : Canonical s) : Canonical (bootMaps f s) := by
  unfold bootMaps
  try dsimp only
  repeat' first
    | with_reducible assumption
    | with_reducible
        first | apply writeRepairMap_canon | apply foldl_canon | apply foldl_canon1 | apply foldl_canon2
    | split | intro _ | with_reducible refine Canonical.of_mk ?_ rfl rfl rfl rfl rfl | with_reducible refine Canonical.of_map ?_ rfl rfl rfl rfl rfl (fun _ => rfl)

theorem bootB5_canon (f : BootFound) (s : State) (h_s : Canonical s) : StageCanonical (bootB5 f s) := by
  unfold bootB5
  try dsimp only
  repeat' first
    | with_reducible assumption
    | with_reducible
        first | apply bootMaps_canon | apply bootRails_canon | apply setReg_canon
    | with_reducible
        first | apply StageCanonical.bind | apply StageCanonical.ok | apply StageCanonical.error | apply StageCanonical.pure

theorem bootEdge_canon (f : BootFound) (e : Nat) (s : State) (h_s : Canonical s) : Canonical (bootEdge f e s) := by
  unfold bootEdge
  try dsimp only
  repeat' first
    | with_reducible assumption | with_reducible apply modEdge_canon | with_reducible rfl
    | with_reducible
        first | apply allOf_canon | apply bothEnds_canon | apply countEnd_canon | apply raiseAt_canon | apply showEdges_canon
    | split | intro _ | with_reducible refine Canonical.of_mk ?_ rfl rfl rfl rfl rfl

theorem bootB6_canon (f : BootFound) (s : State) (h_s : Canonical s) : StageCanonical (bootB6 f s) := by
  unfold bootB6
  try dsimp only
  repeat' first
    | with_reducible assumption
    | with_reducible
        first | apply allOf_canon | apply bootEdge_canon | apply raise__canon | apply setReg_canon | apply startUpFails_canon | apply foldl_canon
              | apply foldl_canon1 | apply foldl_canon2
    | split | intro _
    | with_reducible
        first | apply StageCanonical.bind | apply StageCanonical.ok | apply StageCanonical.error | apply StageCanonical.pure

theorem bootB7_canon (f : BootFound) (s : State) (h_s : Canonical s) : StageCanonical (bootB7 f s) := by
  unfold bootB7
  try dsimp only
  repeat' first
    | with_reducible assumption
    | with_reducible
        first | apply allOf_canon | apply becomeShort_canon
    | split | intro _ | with_reducible refine Canonical.of_mk ?_ rfl rfl rfl rfl rfl
    | with_reducible
        first | apply StageCanonical.bind | apply StageCanonical.ok | apply StageCanonical.error | apply StageCanonical.pure

theorem suiteResult_canon (suites dies : Nat) (s : State) (h_s : Canonical s) : Canonical (suiteResult suites dies s) := by
  unfold suiteResult
  try dsimp only
  repeat' first
    | with_reducible assumption
    | with_reducible
        first | apply allOf_canon | apply bumpReg_canon | apply modBoot_canon | apply raiseAt_canon | apply setReg_canon
    | split | intro _ | with_reducible refine Canonical.of_mk ?_ rfl rfl rfl rfl rfl

theorem bootB8_canon (f : BootFound) (s : State) (h_s : Canonical s) : StageCanonical (bootB8 f s) := by
  unfold bootB8
  try dsimp only
  repeat' first
    | with_reducible assumption
    | with_reducible
        first | apply modBoot_canon | apply setReg_canon | apply suiteResult_canon
    | split | intro _ | with_reducible refine Canonical.of_mk ?_ rfl rfl rfl rfl rfl
    | with_reducible
        first | apply StageCanonical.bind | apply StageCanonical.ok | apply StageCanonical.error | apply StageCanonical.pure

theorem bootB9_canon (s : State) (h_s : Canonical s) : StageCanonical (bootB9 s) := by
  unfold bootB9
  try dsimp only
  repeat' first
    | with_reducible assumption
    | with_reducible
        first | apply raise__canon | apply usePack_canon
    | split
    | with_reducible
        first | apply StageCanonical.bind | apply StageCanonical.ok | apply StageCanonical.error | apply StageCanonical.pure

theorem bootB10_canon (s : State) (h_s : Canonical s) : StageCanonical (bootB10 s) := by
  unfold bootB10
  try dsimp only
  repeat' first
    | with_reducible assumption
    | with_reducible
        first | apply refuseEvent_canon | apply takeDescriptor_canon
    | split
    | with_reducible
        first | apply StageCanonical.bind | apply StageCanonical.ok | apply StageCanonical.error | apply StageCanonical.pure

theorem bootFullRun_canon (f : BootFound) (s : State) (h_s : Canonical s) : Canonical (bootFullRun f s) := by
  unfold bootFullRun
  try dsimp only
  repeat' first
    | with_reducible assumption
    | with_reducible
        first | apply allOf_canon | apply judgePermanent_canon | apply retireAll_canon | apply setReg_canon | apply writeRepairMap_canon
    | split | intro _

theorem confirmSlot_canon (s : State) (h_s : Canonical s) : Canonical (confirmSlot s) := by
  unfold confirmSlot
  try dsimp only
  repeat' first
    | with_reducible assumption
    | with_reducible
        first | apply modFlash_canon | apply raiseMinimum_canon | apply showSlots_canon
    | intro _ | with_reducible refine Canonical.of_mk ?_ rfl rfl rfl rfl rfl

theorem bootB11_canon (f : BootFound) (s : State) (h_s : Canonical s) : Canonical (bootB11 f s) := by
  unfold bootB11
  try dsimp only
  repeat' first
    | with_reducible assumption
    | with_reducible
        first | apply confirmSlot_canon | apply enter_canon | apply setBudgets_canon | apply setReg_canon | apply trunkPost_canon
              | apply foldl_canon | apply foldl_canon1 | apply foldl_canon2
    | intro _ | with_reducible refine Canonical.of_mk ?_ rfl rfl rfl rfl rfl

theorem bootRest_canon (f : BootFound) (s : State) (h_s : Canonical s) : StageCanonical (bootRest f s) := by
  unfold bootRest
  try dsimp only
  repeat' first
    | with_reducible assumption
    | with_reducible
        first | apply bootB10_canon | apply bootB11_canon | apply bootB6_canon | apply bootB7_canon | apply bootB8_canon | apply bootB9_canon
              | apply bootFullRun_canon | apply modBoot_canon
    | intro _ | with_reducible refine Canonical.of_mk ?_ rfl rfl rfl rfl rfl
    | with_reducible
        first | apply StageCanonical.bind | apply StageCanonical.ok | apply StageCanonical.error | apply StageCanonical.pure

theorem bootAll_canon (f : BootFound) (s : State) (h_s : Canonical s) : StageCanonical (bootAll f s) := by
  unfold bootAll
  try dsimp only
  repeat' first
    | with_reducible assumption
    | with_reducible
        first | apply bootB2_canon | apply bootB3_canon | apply bootB4_canon | apply bootB5_canon | apply bootRest_canon | apply modBoot_canon
    | split | intro _ | with_reducible refine Canonical.of_mk ?_ rfl rfl rfl rfl rfl
    | with_reducible
        first | apply StageCanonical.bind | apply StageCanonical.ok | apply StageCanonical.error | apply StageCanonical.pure

theorem bootTrunk_canon (s : State) (h_s : Canonical s) : Canonical (bootTrunk s) := by
  unfold bootTrunk
  try dsimp only
  repeat' first | with_reducible assumption | with_reducible (first | apply raise__canon | apply setReg_canon) | split

theorem opBoot_canon (f : BootFound) (s : State) (h_s : Canonical s) : Canonical (opBoot f s) := by
  unfold opBoot
  try dsimp only
  repeat' first
    | with_reducible assumption
    | with_reducible
        first | apply bootAll_canon | apply bootTrunk_canon | apply modPins_canon | apply stageState_canon
    | split | intro _ | with_reducible refine Canonical.of_mk ?_ rfl rfl rfl rfl rfl

theorem opDieTimeout_canon (d : Nat) (s : State) (h_s : Canonical s) : Canonical (opDieTimeout d s) := by
  unfold opDieTimeout
  try dsimp only
  repeat' first
    | with_reducible assumption
    | with_reducible
        first | apply modBoot_canon | apply raiseAt_canon | apply stageState_canon | apply startUpFails_canon
    | split | intro _ | with_reducible refine Canonical.of_mk ?_ rfl rfl rfl rfl rfl

theorem acceptCommand_canon (s : State) (h_s : Canonical s) : Canonical (acceptCommand s) := by
  unfold acceptCommand
  try dsimp only
  repeat' first | with_reducible assumption | with_reducible (first | apply bumpReg_canon | apply setReg_canon)

theorem commandDone_canon (s : State) (h_s : Canonical s) : Canonical (commandDone s) := by
  unfold commandDone
  try dsimp only
  repeat' first | with_reducible assumption | with_reducible apply setReg_canon

theorem commandRefused_canon (reason : Nat) (s : State) (h_s : Canonical s) : Canonical (commandRefused reason s) := by
  unfold commandRefused
  try dsimp only
  repeat' first | with_reducible assumption | with_reducible apply setReg_canon

theorem takeCommand_canon (allowed : Bool) (inRange : Bool) (act : State → State) (s : State) (h_act : ∀ (x0 : State), Canonical x0 → Canonical
      (act x0)) (h_s : Canonical s) : Canonical (takeCommand allowed inRange act s).2 := by
  unfold takeCommand
  try dsimp only
  repeat' first
    | with_reducible assumption
    | with_reducible
        first | apply h_act | apply acceptCommand_canon | apply commandRefused_canon
    | split | intro _

theorem beginCommand_canon (code reason : Nat) (s : State) (h_s : Canonical s) : Canonical (beginCommand code reason s) := by
  unfold beginCommand
  try dsimp only
  repeat' first
    | with_reducible assumption
    | with_reducible
        first | apply commandRefused_canon | apply modBoot_canon
    | split | intro _ | with_reducible refine Canonical.of_mk ?_ rfl rfl rfl rfl rfl

theorem opAttest_canon (arg : BitVec 24) (s : State) (h_s : Canonical s) : Canonical (opAttest arg s).2 := by
  unfold opAttest
  try dsimp only
  repeat' first | with_reducible assumption | with_reducible (first | apply beginCommand_canon | apply takeCommand_canon) | intro _

theorem opLoad_canon (arg : BitVec 24) (s : State) (h_s : Canonical s) : Canonical (opLoad arg s).2 := by
  unfold opLoad
  try dsimp only
  repeat' first | with_reducible assumption | with_reducible (first | apply beginCommand_canon | apply takeCommand_canon) | split | intro _

theorem finishAttest_canon (s : State) (h_s : Canonical s) : Canonical (finishAttest s) := by
  unfold finishAttest
  try dsimp only
  repeat' first
    | with_reducible assumption
    | with_reducible
        first | apply commandDone_canon | apply commandRefused_canon | apply enter_canon | apply formReport_canon | apply modBoot_canon
    | split | intro _ | with_reducible refine Canonical.of_mk ?_ rfl rfl rfl rfl rfl

theorem finishLoad_canon (s : State) (h_s : Canonical s) : Canonical (finishLoad s) := by
  unfold finishLoad
  split
  · exact commandRefused_canon _ _ h_s
  split
  · exact setReg_canon _ _ _ (setReg_canon _ _ _ (setReg_canon _ _ _ (commandRefused_canon _ _ h_s)))
  · exact commandDone_canon _ (startPower_canon _ (enter_canon _ _ _ (loadVerdict_canon _ _ h_s ‹_›)))


theorem opOutcome_canon (s : State) (h_s : Canonical s) : Canonical (opOutcome s) := by
  unfold opOutcome
  try dsimp only
  repeat' first
    | with_reducible assumption
    | with_reducible
        first | apply finishAttest_canon | apply finishLoad_canon | apply modBoot_canon
    | split | intro _ | with_reducible refine Canonical.of_mk ?_ rfl rfl rfl rfl rfl

theorem opRun_canon (arg : BitVec 24) (s : State) (h_s : Canonical s) : Canonical (opRun arg s).2 := by
  unfold opRun
  try dsimp only
  repeat' first
    | with_reducible assumption
    | with_reducible
        first | apply abandonReShard_canon | apply commandDone_canon | apply enter_canon | apply takeCommand_canon
    | intro _

theorem holdAtBoundary_canon (s : State) (h_s : Canonical s) : Canonical (holdAtBoundary s) := by
  unfold holdAtBoundary
  try dsimp only
  repeat' first
    | with_reducible assumption | with_reducible apply enterHeld_canon | split | with_reducible refine Canonical.of_mk ?_ rfl rfl rfl rfl rfl

theorem holdAtOnce_canon (s : State) (h_s : Canonical s) : Canonical (holdAtOnce s) := by
  unfold holdAtOnce
  try dsimp only
  repeat' first
    | with_reducible assumption
    | with_reducible
        first | apply commandDone_canon | apply dropAttempt_canon | apply enterHeld_canon | apply holdNow_canon
    | split

theorem opHold_canon (arg : BitVec 24) (s : State) (h_s : Canonical s) : Canonical (opHold arg s).2 := by
  unfold opHold
  try dsimp only
  repeat' first
    | with_reducible assumption
    | with_reducible
        first | apply holdAtBoundary_canon | apply holdAtOnce_canon | apply takeCommand_canon
    | split

theorem resumeGuard_canon (s : State) (h_s : Canonical s) : Canonical (resumeGuard s) := by
  unfold resumeGuard
  try dsimp only
  repeat' first
    | with_reducible assumption | with_reducible apply skipStep_canon | split | with_reducible refine Canonical.of_mk ?_ rfl rfl rfl rfl rfl

theorem resumeEpoch_canon (s : State) (h_s : Canonical s) : Canonical (resumeEpoch s) := by
  unfold resumeEpoch
  try dsimp only
  repeat' first
    | with_reducible assumption | with_reducible apply startEpoch_canon | split | with_reducible refine Canonical.of_mk ?_ rfl rfl rfl rfl rfl

theorem resume_canon (s : State) (h_s : Canonical s) : Canonical (resume s) := by
  unfold resume
  try dsimp only
  repeat' first
    | with_reducible assumption
    | with_reducible
        first | apply abandonReShard_canon | apply commandDone_canon | apply enter_canon | apply modPower_canon | apply resumeEpoch_canon
              | apply resumeGuard_canon
    | intro _ | with_reducible refine Canonical.of_mk ?_ rfl rfl rfl rfl rfl

theorem opResume_canon (arg : BitVec 24) (s : State) (h_s : Canonical s) : Canonical (opResume arg s).2 := by
  unfold opResume
  try dsimp only
  repeat' first
    | with_reducible assumption
    | with_reducible
        first | apply commandRefused_canon | apply resume_canon | apply takeCommand_canon
    | split | intro _

theorem discardJob_canon (s : State) (h : Canonical s) : Canonical (discardJob s) := by
  unfold discardJob
  have h := releaseHost_canon s h
  obtain ⟨a, b, c, d, e, f⟩ := parts_of_sizes h.sizes
  exact ⟨h.mem, h.mram, h.regs, keepCounts_sorted _ h.tiles, sizes_of_parts rfl b c d e f⟩


theorem opReleaseJob_canon (arg : BitVec 24) (s : State) (h_s : Canonical s) : Canonical (opReleaseJob arg s).2 := by
  unfold opReleaseJob
  try dsimp only
  repeat' first
    | with_reducible assumption
    | with_reducible
        first | apply abandonReShard_canon | apply commandDone_canon | apply discardJob_canon | apply enter_canon | apply takeCommand_canon
    | intro _

theorem startAdoption_canon (p : Nat) (s : State) (h_s : Canonical s) : Canonical (startAdoption p s) := by
  unfold startAdoption
  try dsimp only
  repeat' first
    | with_reducible assumption
    | with_reducible
        first | apply commandRefused_canon | apply dropAttempt_canon | apply sendRecord_canon | apply setReg_canon
    | split | with_reducible refine Canonical.of_mk ?_ rfl rfl rfl rfl rfl

theorem opAdopt_canon (arg : BitVec 24) (s : State) (h_s : Canonical s) : Canonical (opAdopt arg s).2 := by
  unfold opAdopt
  try dsimp only
  repeat' first | with_reducible assumption | with_reducible (first | apply startAdoption_canon | apply takeCommand_canon)

theorem opStandby_canon (arg : BitVec 24) (s : State) (h_s : Canonical s) : Canonical (opStandby arg s).2 := by
  unfold opStandby
  try dsimp only
  repeat' first | with_reducible assumption | with_reducible (first | apply commandDone_canon | apply enter_canon | apply takeCommand_canon) | intro _

theorem opReset_canon (arg : BitVec 24) (s : State) (h_s : Canonical s) : Canonical (opReset arg s).2 := by
  unfold opReset
  try dsimp only
  repeat' first | with_reducible assumption | with_reducible (first | apply resetAll_canon | apply takeCommand_canon)

theorem opCommand_canon (w : Nat) (s : State) (h_s : Canonical s) : Canonical (opCommand w s).2 := by
  unfold opCommand
  try dsimp only
  repeat' first
    | with_reducible assumption
    | with_reducible
        first | apply opAdopt_canon | apply opAttest_canon | apply opHold_canon | apply opLoad_canon | apply opReleaseJob_canon
              | apply opReset_canon | apply opResume_canon | apply opRun_canon | apply opStandby_canon
    | split | with_reducible refine Canonical.of_mk ?_ rfl rfl rfl rfl rfl

theorem withThread_canon (d : Fin 4) (c : Fin 8) (f : Nat → Thread → State → State) (s : State) (h_f : ∀ (x0 : Nat) (x1 : Thread)
      (x2 : State), Canonical x2 → Canonical (f x0 x1 x2)) (h_s : Canonical s) : Canonical (withThread d c f s) := by
  unfold withThread
  try dsimp only
  repeat' first
    | with_reducible assumption | with_reducible (first | apply h_f | apply powered_canon) | split | intro _ | with_reducible refine Canonical.of_mk ?_ rfl rfl rfl rfl rfl

theorem opNext_canon (d : Fin 4) (c : Fin 8) (s : State) (h_s : Canonical s) : Canonical (opNext d c s) := by
  unfold opNext
  try dsimp only
  repeat' first
    | with_reducible assumption
    | with_reducible
        first | apply powered_canon | apply setRing_canon | apply settle_canon
    | split | intro _ | with_reducible refine Canonical.of_mk ?_ rfl rfl rfl rfl rfl

theorem opPost_canon (d : Fin 4) (c : Fin 8) (item : BitVec 256) (s : State) (h_s : Canonical s) : Canonical (opPost d c item s) := by
  unfold opPost
  try dsimp only
  repeat' first
    | with_reducible assumption
    | with_reducible
        first | apply bumpReg_canon | apply postItem_canon | apply powered_canon | apply setRing_canon
    | split | intro _ | with_reducible refine Canonical.of_mk ?_ rfl rfl rfl rfl rfl

theorem opDone_canon (d : Fin 4) (c : Fin 8) (s : State) (h_s : Canonical s) : Canonical (opDone d c s) := by
  unfold opDone
  try dsimp only
  repeat' first | with_reducible assumption | with_reducible (first | apply setRing_canon | apply settle_canon | apply withThread_canon) | intro _

theorem opCorePortWait_canon (d : Fin 4) (c : Fin 8) (flow : BitVec 12) (s : State) (h_s : Canonical s) : Canonical (opCorePortWait d c flow s) := by
  unfold opCorePortWait
  try dsimp only
  repeat' first
    | with_reducible assumption
    | with_reducible
        first | apply setRing_canon | apply settle_canon | apply withThread_canon
    | split | intro _ | with_reducible refine Canonical.of_mk ?_ rfl rfl rfl rfl rfl

theorem opYield_canon (d : Fin 4) (c : Fin 8) (s : State) (h_s : Canonical s) : Canonical (opYield d c s) := by
  unfold opYield
  try dsimp only
  repeat' first
    | with_reducible assumption
    | with_reducible
        first | apply setRing_canon | apply settle_canon | apply withThread_canon
    | intro _ | with_reducible refine Canonical.of_mk ?_ rfl rfl rfl rfl rfl

theorem opSleep_canon (d : Fin 4) (c : Fin 8) (until_ : BitVec 64) (s : State) (h_s : Canonical s) : Canonical (opSleep d c until_ s) := by
  unfold opSleep
  try dsimp only
  repeat' first
    | with_reducible assumption
    | with_reducible
        first | apply setRing_canon | apply settle_canon | apply withThread_canon
    | intro _ | with_reducible refine Canonical.of_mk ?_ rfl rfl rfl rfl rfl

theorem opSleepExpiry_canon (d : Fin 4) (n : Fin 1024) (s : State) (h_s : Canonical s) : Canonical (opSleepExpiry d n s) := by
  unfold opSleepExpiry
  try dsimp only
  repeat' first
    | with_reducible assumption
    | with_reducible
        first | apply powered_canon | apply setRing_canon | apply settle_canon
    | split | intro _ | with_reducible refine Canonical.of_mk ?_ rfl rfl rfl rfl rfl

theorem configDone_canon (d : Fin 4) (c : Fin 8) (r : Option Ring) (s : State) (h_s : Canonical s) : Canonical (configDone d c r s) := by
  unfold configDone
  try dsimp only
  repeat' first
    | with_reducible assumption
    | with_reducible
        first | apply setRing_canon | apply settle_canon
    | split | intro _ | with_reducible refine Canonical.of_mk ?_ rfl rfl rfl rfl rfl

theorem opThread_canon (d : Fin 4) (c : Fin 8) (supervisor : Bool) (w : BitVec 128) (s : State) (h_s : Canonical s) : Canonical
      (opThread d c supervisor w s) := by
  unfold opThread
  try dsimp only
  repeat' first | with_reducible assumption | with_reducible (first | apply configDone_canon | apply powered_canon) | split | intro _

theorem opFlow_canon (d : Fin 4) (c : Fin 8) (supervisor : Bool) (w : BitVec 128) (s : State) (h_s : Canonical s) : Canonical
      (opFlow d c supervisor w s) := by
  unfold opFlow
  try dsimp only
  repeat' first | with_reducible assumption | with_reducible (first | apply configDone_canon | apply powered_canon) | split | intro _

theorem opMachineCheck_canon (d : Fin 4) (c : Fin 8) (mcause : BitVec 32) (s : State) (h_s : Canonical s) : Canonical
      (opMachineCheck d c mcause s) := by
  unfold opMachineCheck
  try dsimp only
  repeat' first
    | with_reducible assumption
    | with_reducible
        first | apply enterFault_canon | apply powered_canon | apply raiseAt_canon | apply setReg_canon | apply setRing_canon | apply settle_canon
              | apply foldl_canon | apply foldl_canon1 | apply foldl_canon2
    | split | intro _ | with_reducible refine Canonical.of_mk ?_ rfl rfl rfl rfl rfl

theorem opTelemetryTimer_canon (d : Fin 4) (tag : BitVec 16) (s : State) (h_s : Canonical s) : Canonical (opTelemetryTimer d tag s) := by
  unfold opTelemetryTimer
  try dsimp only
  repeat' first
    | with_reducible assumption
    | with_reducible
        first | apply bumpReg_canon | apply postItem_canon | apply powered_canon
    | split | intro _

theorem coreFaults_canon (d : Fin 4) (c : Fin 8) (a : CoreAccess) (addr : Nat) (s : State) (h_s : Canonical s) : Canonical
      (coreFaults d c a addr s) := by
  unfold coreFaults
  try dsimp only
  repeat' first | with_reducible assumption | with_reducible apply emit_canon

theorem coreOutside_canon (d : Fin 4) (c : Fin 8) (a : CoreAccess) (addr : Nat) (s : State) (h_s : Canonical s) : Canonical
      (coreOutside d c a addr s) := by
  unfold coreOutside
  try dsimp only
  repeat' first | with_reducible assumption | with_reducible (first | apply bumpReg_canon | apply coreFaults_canon | apply raiseAt_canon)

theorem coreAnswer_canon (d : Fin 4) (c : Fin 8) (bs : List Byte) (s : State) (h_s : Canonical s) : Canonical (coreAnswer d c bs s) := by
  unfold coreAnswer
  try dsimp only
  repeat' first | with_reducible assumption | with_reducible apply emit_canon

theorem coreStack_canon (d : Fin 4) (c : Fin 8) (a : CoreAccess) (addr : Nat) (s : State) (h_s : Canonical s) : Canonical
      (coreStack d c a addr s) := by
  unfold coreStack
  try dsimp only
  repeat' first
    | with_reducible assumption
    | with_reducible
        first | apply coreAnswer_canon | apply coreFaults_canon | apply freeBytes_canon | apply putMem_canon | apply raiseAt_canon
              | apply stackUncorrectable_canon
    | split | with_reducible refine Canonical.of_mk ?_ rfl rfl rfl rfl rfl

theorem coreWindow_canon (d : Fin 4) (c : Fin 8) (a : CoreAccess) (k addr : Nat) (s : State) (h_s : Canonical s) : Canonical
      (coreWindow d c a k addr s) := by
  unfold coreWindow
  try dsimp only
  repeat' first
    | with_reducible assumption
    | with_reducible
        first | apply coreAnswer_canon | apply coreFaults_canon | apply putLine_canon | apply sramUncorrectable_canon
    | split | with_reducible refine Canonical.of_mk ?_ rfl rfl rfl rfl rfl

theorem coreRemote_canon (d : Fin 4) (c : Fin 8) (a : CoreAccess) (w : Nat) (s : State) (h_s : Canonical s) : Canonical (coreRemote d c a w s) := by
  unfold coreRemote
  try dsimp only
  repeat' first
    | with_reducible assumption
    | with_reducible
        first | apply freeBytes_canon | apply sendMsg_canon
    | split | with_reducible refine Canonical.of_mk ?_ rfl rfl rfl rfl rfl

end Sys2Proof.Machine
end

