-- ==== Sys2Proof/Laws/CanonicalEntries.lean ====
section
/-!
SUPPORT. The canonical form is kept by scrubbing, the sequencer, the test suites, control entries, the TAP and Tarvy.
-/

set_option linter.all false

namespace Sys2Proof.Machine
open Sys2Proof

theorem scrubWord_canon (k a : Nat) (s : State) (h_s : Canonical s) : Canonical (scrubWord k a s) := by
  unfold scrubWord
  try dsimp only
  repeat' first
    | with_reducible assumption | with_reducible apply sramCorrected_canon | intro _ | with_reducible refine Canonical.of_mk ?_ rfl rfl rfl rfl rfl

theorem scrubBad_canon (k a : Nat) (s : State) (h_s : Canonical s) : Canonical (scrubBad k a s) := by
  unfold scrubBad
  try dsimp only
  repeat' first
    | with_reducible assumption | with_reducible apply sramUncorrectable_canon | split | with_reducible refine Canonical.of_mk ?_ rfl rfl rfl rfl rfl

theorem opSramScrub_canon (k : Nat) (fixed broken : List (Fin 262144)) (s : State) (h_s : Canonical s) : Canonical
      (opSramScrub k fixed broken s) := by
  unfold opSramScrub
  try dsimp only
  repeat' first | with_reducible assumption | with_reducible (first | apply allOf_canon | apply scrubBad_canon | apply scrubWord_canon) | intro _

theorem patrolFix_canon (a : Nat) (s : State) (h_s : Canonical s) : Canonical (patrolFix a s) := by
  unfold patrolFix
  try dsimp only
  repeat' first
    | with_reducible assumption | with_reducible apply stackCorrected_canon | intro _ | with_reducible refine Canonical.of_mk ?_ rfl rfl rfl rfl rfl

theorem patrolBad_canon (a : Nat) (s : State) (h_s : Canonical s) : Canonical (patrolBad a s) := by
  unfold patrolBad
  try dsimp only
  repeat' first
    | with_reducible assumption | with_reducible apply stackUncorrectable_canon | split | with_reducible refine Canonical.of_mk ?_ rfl rfl rfl rfl rfl

theorem opPatrolScrub_canon (fixed broken : List (BitVec 35)) (s : State) (h_s : Canonical s) : Canonical (opPatrolScrub fixed broken s) := by
  unfold opPatrolScrub
  try dsimp only
  repeat' first | with_reducible assumption | with_reducible (first | apply allOf_canon | apply patrolBad_canon | apply patrolFix_canon) | intro _

theorem effLoop_canon (lvl : Fin 4) (cnt : BitVec 16) (stop : BitVec 13) (c : TCtx) (h_c : CtxCanonical c) : CtxCanonical
      (effLoop lvl cnt stop c) := by
  unfold effLoop
  try dsimp only
  repeat' first | with_reducible assumption | with_reducible refine CtxCanonical.of_mk ?_ rfl

theorem effJump_canon (t : BitVec 13) (c : TCtx) (h_c : CtxCanonical c) : CtxCanonical (effJump t c) := by
  unfold effJump
  try dsimp only
  repeat' first | with_reducible assumption | with_reducible refine CtxCanonical.of_mk ?_ rfl

theorem effCall_canon (t : BitVec 13) (c : TCtx) (h_c : CtxCanonical c) : CtxCanonical (effCall t c) := by
  unfold effCall
  try dsimp only
  repeat' first | with_reducible assumption | with_reducible apply tcProgFault_canon | split | with_reducible refine CtxCanonical.of_mk ?_ rfl

theorem effRet_canon (c : TCtx) (h_c : CtxCanonical c) : CtxCanonical (effRet c) := by
  unfold effRet
  try dsimp only
  repeat' first | with_reducible assumption | with_reducible apply tcProgFault_canon | split | with_reducible refine CtxCanonical.of_mk ?_ rfl

theorem effBrm_canon (mbit : Fin 32) (sense : Bool) (t : BitVec 13) (c : TCtx) (h_c : CtxCanonical c) : CtxCanonical (effBrm mbit sense t c) := by
  unfold effBrm
  try dsimp only
  repeat' first | with_reducible assumption | split | with_reducible refine CtxCanonical.of_mk ?_ rfl

theorem effStepend_canon (c : TCtx) (h_c : CtxCanonical c) : CtxCanonical (effStepend c) := by
  unfold effStepend
  try dsimp only
  repeat' first
    | with_reducible assumption
    | with_reducible
        first | apply tcBump_canon | apply tcProgFault_canon
    | split | intro _ | with_reducible refine CtxCanonical.of_mk ?_ rfl

theorem effSetp_canon (pn : Fin 16) (imm : BitVec 21) (c : TCtx) (h_c : CtxCanonical c) : CtxCanonical (effSetp pn imm c) := by
  unfold effSetp
  try dsimp only
  repeat' first | with_reducible assumption | with_reducible refine CtxCanonical.of_mk ?_ rfl

theorem effAddp_canon (pn : Fin 16) (simm : BitVec 21) (c : TCtx) (h_c : CtxCanonical c) : CtxCanonical (effAddp pn simm c) := by
  unfold effAddp
  try dsimp only
  repeat' first | with_reducible assumption | with_reducible refine CtxCanonical.of_mk ?_ rfl

theorem effSetx_canon (xn : Fin 8) (sl : Fin 4) (imm : BitVec 16) (c : TCtx) (h_c : CtxCanonical c) : CtxCanonical (effSetx xn sl imm c) := by
  unfold effSetx
  try dsimp only
  repeat' first | with_reducible assumption | with_reducible refine CtxCanonical.of_mk ?_ rfl

theorem effAddx_canon (xn : Fin 8) (simm : BitVec 32) (c : TCtx) (h_c : CtxCanonical c) : CtxCanonical (effAddx xn simm c) := by
  unfold effAddx
  try dsimp only
  repeat' first | with_reducible assumption | with_reducible refine CtxCanonical.of_mk ?_ rfl

theorem opRunSuites_canon (mask : Nat) (s : State) (h_s : Canonical s) : Canonical (opRunSuites mask s).2 := by
  unfold opRunSuites
  try dsimp only
  repeat' first
    | with_reducible assumption
    | with_reducible
        first | apply modBoot_canon | apply setReg_canon
    | split | intro _ | with_reducible refine Canonical.of_mk ?_ rfl rfl rfl rfl rfl

theorem opTestRun_canon (suites : BitVec 10) (dies : BitVec 4) (s : State) (h_s : Canonical s) : Canonical (opTestRun suites dies s) := by
  unfold opTestRun
  try dsimp only
  repeat' first
    | with_reducible assumption
    | with_reducible
        first | apply enter_canon | apply modBoot_canon | apply suiteResult_canon
    | split | intro _ | with_reducible refine Canonical.of_mk ?_ rfl rfl rfl rfl rfl

theorem clearEdge_canon (d e : Nat) (s : State) (h_s : Canonical s) : Canonical (clearEdge d e s) := by
  unfold clearEdge
  try dsimp only
  repeat' first
    | with_reducible assumption | with_reducible apply modEdge_canon | with_reducible rfl | split | intro _ | with_reducible refine Canonical.of_mk ?_ rfl rfl rfl rfl rfl

theorem opClear_canon (d : Nat) (s : State) (h_s : Canonical s) : Canonical (opClear d s) := by
  unfold opClear
  have h1 := allOf_canon (clearedKeys d) (fun k => setReg k 0) s (fun x s hs => setReg_canon _ _ s hs) h_s
  have h2 := allOf_canon (List.range 4) (clearEdge d) _ (fun x s hs => clearEdge_canon d x s hs) h1
  have h3 := allOf_canon (List.range 4) (fun i => modPort (d + 4 * i) (fun q => { q with counters := List.replicate 9 0 })) _
      (fun x s hs => modPort_canon _ _ s hs) h2
  dsimp only
  generalize allOf (List.range 4) (fun i => modPort (d + 4 * i) _) _ = u at h3
  have h4 := setRing_canon d { u.ring d with flows := (u.ring d).flows.map (fun p => (p.1, { p.2 with served := 0 })) } u h3
  refine tilesMap_canon _ (fun p => ?_) _ h4
  split <;> rfl


theorem readTrunk_canon (seq : Nat) (s : State) (h_s : Canonical s) : Canonical (readTrunk seq s).2 := by
  unfold readTrunk
  try dsimp only
  repeat' first
    | with_reducible assumption
    | with_reducible
        first | apply bumpReg_canon | apply modBoot_canon | apply raise__canon
    | split | intro _ | with_reducible refine Canonical.of_mk ?_ rfl rfl rfl rfl rfl

theorem readWindow_canon (s : State) (h_s : Canonical s) : Canonical (readWindow s).2 := by
  unfold readWindow
  try dsimp only
  repeat' first
    | with_reducible assumption
    | with_reducible
        first | apply readTrunk_canon | apply foldl_canon | apply foldl_canon1 | apply foldl_canon2
    | intro _

theorem readBlob_canon (d k key : Nat) (t : EType) (s : State) (h_s : Canonical s) : Canonical (readBlob d k key t s).2 := by
  unfold readBlob
  try dsimp only
  repeat' first
    | with_reducible assumption | with_reducible apply readWindow_canon | split | with_reducible refine Canonical.of_mk ?_ rfl rfl rfl rfl rfl

theorem entryValue_canon (r : DictRow) (index sub : Nat) (s : State) (h_s : Canonical s) : Canonical (entryValue r index sub s).2 := by
  unfold entryValue
  try dsimp only
  repeat' first
    | with_reducible assumption
    | with_reducible
        first | apply freeBytes_canon | apply readBlob_canon
    | split | intro _ | with_reducible refine Canonical.of_mk ?_ rfl rfl rfl rfl rfl

theorem readEntry_canon (index sub : Nat) (s : State) (h_s : Canonical s) : Canonical (readEntry index sub s).2.2 := by
  unfold readEntry
  try dsimp only
  repeat' first
    | with_reducible assumption | with_reducible apply entryValue_canon | split | with_reducible refine Canonical.of_mk ?_ rfl rfl rfl rfl rfl

theorem setIr_canon (d code : Nat) (s : State) (h_s : Canonical s) : Canonical (setIr d code s) := by
  unfold setIr
  try dsimp only
  repeat' first
    | with_reducible assumption | with_reducible apply modTap_canon | intro _ | with_reducible refine Canonical.of_mk ?_ rfl rfl rfl rfl rfl

theorem scanBypass_canon (s : State) (h_s : Canonical s) : Canonical (scanBypass s) := by
  unfold scanBypass
  try dsimp only
  repeat' first | with_reducible assumption | with_reducible apply emit_canon | intro _

theorem opTrst_canon (s : State) (h_s : Canonical s) : Canonical (opTrst s) := by
  unfold opTrst
  try dsimp only
  repeat' first
    | with_reducible assumption | with_reducible apply modTap_canon | intro _ | with_reducible refine Canonical.of_mk ?_ rfl rfl rfl rfl rfl

theorem opBypass_canon (d code : Nat) (s : State) (h_s : Canonical s) : Canonical (opBypass d code s) := by
  unfold opBypass
  try dsimp only
  repeat' first | with_reducible assumption | with_reducible (first | apply scanBypass_canon | apply setIr_canon)

theorem opIdcode_canon (d : Nat) (s : State) (h_s : Canonical s) : Canonical (opIdcode d s) := by
  unfold opIdcode
  try dsimp only
  repeat' first | with_reducible assumption | with_reducible (first | apply emit_canon | apply setIr_canon) | intro _

theorem scanBoundary_canon (d : Nat) (sampled preload : BitVec 26) (s : State) (h_s : Canonical s) : Canonical
      (scanBoundary d sampled preload s) := by
  unfold scanBoundary
  try dsimp only
  repeat' first
    | with_reducible assumption
    | with_reducible
        first | apply boundary_canon | apply emit_canon | apply modTap_canon
    | intro _ | with_reducible refine Canonical.of_mk ?_ rfl rfl rfl rfl rfl

theorem opSample_canon (d : Nat) (sampled preload : BitVec 26) (s : State) (h_s : Canonical s) : Canonical (opSample d sampled preload s) := by
  unfold opSample
  try dsimp only
  repeat' first | with_reducible assumption | with_reducible (first | apply scanBoundary_canon | apply setIr_canon)

theorem opExtest_canon (d : Nat) (sampled preload : BitVec 26) (s : State) (h_s : Canonical s) : Canonical (opExtest d sampled preload s) := by
  unfold opExtest
  try dsimp only
  repeat' first | with_reducible assumption | with_reducible (first | apply opBypass_canon | apply scanBoundary_canon | apply setIr_canon) | split

theorem opTrunkread_canon (d : Nat) (seq : BitVec 64) (soon : Bool) (s : State) (h_s : Canonical s) : Canonical (opTrunkread d seq soon s) := by
  unfold opTrunkread
  try dsimp only
  repeat' first
    | with_reducible assumption
    | with_reducible
        first | apply emit_canon | apply modTap_canon | apply opBypass_canon | apply setIr_canon
    | split | intro _ | with_reducible refine Canonical.of_mk ?_ rfl rfl rfl rfl rfl

theorem putEntry_canon (r : DictRow) (key : Nat) (v : List Byte) (s : State) (h_s : Canonical s) : Canonical (putEntry r key v s) := by
  unfold putEntry
  try dsimp only
  repeat' first
    | with_reducible assumption
    | with_reducible
        first | apply setBlob_canon | apply setReg_canon
    | split | with_reducible refine Canonical.of_mk ?_ rfl rfl rfl rfl rfl

theorem actEntry_canon (viaM0 : Bool) (d k : Nat) (r : DictRow) (v : List Byte) (s : State) (h_s : Canonical s) : Canonical
      (actEntry viaM0 d k r v s).2 := by
  unfold actEntry
  try dsimp only
  repeat' first
    | with_reducible assumption
    | with_reducible
        first | apply modEth_canon | apply modPower_canon | apply opClear_canon | apply opCommand_canon | apply opFullPack_canon
              | apply opManagement_canon | apply opNonce_canon | apply opOwner_canon | apply opRetireTile_canon | apply opRetrainEdge_canon
              | apply opRetrainPort_canon | apply opRunReShard_canon | apply opRunSuites_canon | apply opUpdateObject_canon | apply putEntry_canon
    | split | intro _ | with_reducible refine Canonical.of_mk ?_ rfl rfl rfl rfl rfl

theorem writeDict_canon (viaM0 : Bool) (index sub : Nat) (v : List Byte) (s : State) (h_s : Canonical s) : Canonical
      (writeDict viaM0 index sub v s).2 := by
  unfold writeDict
  try dsimp only
  repeat' first
    | with_reducible assumption
    | with_reducible
        first | apply actEntry_canon | apply putEntry_canon
    | split | with_reducible refine Canonical.of_mk ?_ rfl rfl rfl rfl rfl

theorem opRegisterWrite_canon (index sub : Nat) (v : List Byte) (s : State) (h_s : Canonical s) : Canonical (opRegisterWrite index sub v s) := by
  unfold opRegisterWrite
  try dsimp only
  repeat' first | with_reducible assumption | with_reducible apply writeDict_canon | split

theorem noteTxid_canon (src : Source) (b : List Byte) (s : State) (h_s : Canonical s) : Canonical (noteTxid src b s) := by
  unfold noteTxid
  try dsimp only
  repeat' first | with_reducible assumption | split | with_reducible refine Canonical.of_mk ?_ rfl rfl rfl rfl rfl

theorem modTarvy_canon (f : Tarvy → Tarvy) (s : State) (h_s : Canonical s) : Canonical (modTarvy f s) := by
  unfold modTarvy
  try dsimp only
  repeat' first | with_reducible assumption | with_reducible refine Canonical.of_mk ?_ rfl rfl rfl rfl rfl

theorem sendFrame_canon (via addr port : Nat) (b : List Byte) (s : State) (h_s : Canonical s) : Canonical (sendFrame via addr port b s) := by
  unfold sendFrame
  try dsimp only
  repeat' first | with_reducible assumption | with_reducible (first | apply bumpEth_canon | apply emit_canon) | split

theorem answer_canon (src : Source) (b : List Byte) (status length : Nat) (data : List Byte) (s : State) (h_s : Canonical s) : Canonical
      (answer src b status length data s) := by
  unfold answer
  try dsimp only
  repeat' first
    | with_reducible assumption
    | with_reducible
        first | apply bumpReg_canon | apply modTarvy_canon | apply sendFrame_canon
    | split | intro _ | with_reducible refine Canonical.of_mk ?_ rfl rfl rfl rfl rfl

theorem frameArrives_canon (type : Nat) (src : Source) (b : List Byte) (act : State → State) (s : State) (h_act : ∀
      (x0 : State), Canonical x0 → Canonical (act x0)) (h_s : Canonical s) : Canonical (frameArrives type src b act s) := by
  unfold frameArrives
  try dsimp only
  repeat' first
    | with_reducible assumption
    | with_reducible
        first | apply h_act | apply answer_canon | apply bumpEth_canon | apply bumpReg_canon | apply powered_canon | apply sendFrame_canon
    | split | intro _ | with_reducible refine Canonical.of_mk ?_ rfl rfl rfl rfl rfl

theorem readFirst_canon (src : Source) (b : List Byte) (s : State) (h_s : Canonical s) : Canonical (readFirst src b s) := by
  unfold readFirst
  try dsimp only
  repeat' first
    | with_reducible assumption
    | with_reducible
        first | apply answer_canon | apply modTarvy_canon | apply readEntry_canon | apply foldl_canon | apply foldl_canon1 | apply foldl_canon2
    | split | intro _ | with_reducible refine Canonical.of_mk ?_ rfl rfl rfl rfl rfl

theorem readLater_canon (src : Source) (b : List Byte) (s : State) (h_s : Canonical s) : Canonical (readLater src b s) := by
  unfold readLater
  try dsimp only
  repeat' first
    | with_reducible assumption
    | with_reducible
        first | apply answer_canon | apply modTarvy_canon
    | split | intro _ | with_reducible refine Canonical.of_mk ?_ rfl rfl rfl rfl rfl

theorem opRead_canon (src : Source) (b : List Byte) (s : State) (h_s : Canonical s) : Canonical (opRead src b s) := by
  unfold opRead
  try dsimp only
  repeat' first
    | with_reducible assumption
    | with_reducible
        first | apply answer_canon | apply bumpReg_canon | apply readFirst_canon | apply readLater_canon
    | split

theorem dropStage_canon (src : Source) (txid : Nat) (s : State) (h_s : Canonical s) : Canonical (dropStage src txid s) := by
  unfold dropStage
  try dsimp only
  repeat' first
    | with_reducible assumption | with_reducible apply modTarvy_canon | intro _ | with_reducible refine Canonical.of_mk ?_ rfl rfl rfl rfl rfl

theorem applyValue_canon (src : Source) (b v : List Byte) (s : State) (h_s : Canonical s) : Canonical (applyValue src b v s) := by
  unfold applyValue
  try dsimp only
  repeat' first | with_reducible assumption | with_reducible (first | apply answer_canon | apply sendFrame_canon | apply writeDict_canon) | split

theorem writeFirst_canon (src : Source) (b : List Byte) (s : State) (h_s : Canonical s) : Canonical (writeFirst src b s) := by
  unfold writeFirst
  try dsimp only
  repeat' first
    | with_reducible assumption
    | with_reducible
        first | apply answer_canon | apply applyValue_canon | apply modTarvy_canon
    | split | intro _ | with_reducible refine Canonical.of_mk ?_ rfl rfl rfl rfl rfl

theorem writeLater_canon (src : Source) (b : List Byte) (s : State) (h_s : Canonical s) : Canonical (writeLater src b s) := by
  unfold writeLater
  try dsimp only
  repeat' first
    | with_reducible assumption
    | with_reducible
        first | apply answer_canon | apply applyValue_canon | apply dropStage_canon | apply modTarvy_canon
    | split | intro _ | with_reducible refine Canonical.of_mk ?_ rfl rfl rfl rfl rfl

theorem opWrite_canon (src : Source) (b : List Byte) (s : State) (h_s : Canonical s) : Canonical (opWrite src b s) := by
  unfold opWrite
  try dsimp only
  repeat' first
    | with_reducible assumption
    | with_reducible
        first | apply answer_canon | apply noteTxid_canon | apply writeFirst_canon | apply writeLater_canon
    | split

theorem opEcho_canon (src : Source) (b : List Byte) (s : State) (h_s : Canonical s) : Canonical (opEcho src b s) := by
  unfold opEcho
  try dsimp only
  repeat' first | with_reducible assumption | with_reducible (first | apply answer_canon | apply bumpReg_canon) | split

theorem opSnapshotRelease_canon (src : Source) (txid : BitVec 32) (s : State) (h_s : Canonical s) : Canonical (opSnapshotRelease src txid s) := by
  unfold opSnapshotRelease
  try dsimp only
  repeat' first
    | with_reducible assumption | with_reducible apply modTarvy_canon | intro _ | with_reducible refine Canonical.of_mk ?_ rfl rfl rfl rfl rfl

theorem sendEvent_canon (f : EventFrame) (x : Nat × Nat × Nat) (s : State) (h_s : Canonical s) : Canonical (sendEvent f x s) := by
  unfold sendEvent
  try dsimp only
  repeat' first
    | with_reducible assumption | with_reducible apply sendFrame_canon | split | with_reducible refine Canonical.of_mk ?_ rfl rfl rfl rfl rfl

theorem opEventSend_canon (s : State) (h_s : Canonical s) : Canonical (opEventSend s) := by
  unfold opEventSend
  try dsimp only
  repeat' first
    | with_reducible assumption
    | with_reducible
        first | apply allOf_canon | apply bumpReg_canon | apply sendEvent_canon
    | split | intro _ | with_reducible refine Canonical.of_mk ?_ rfl rfl rfl rfl rfl

theorem opEventResend_canon (n : Nat) (s : State) (h_s : Canonical s) : Canonical (opEventResend n s) := by
  unfold opEventResend
  try dsimp only
  repeat' first
    | with_reducible assumption
    | with_reducible
        first | apply allOf_canon | apply bumpReg_canon | apply sendEvent_canon
    | split | intro _ | with_reducible refine Canonical.of_mk ?_ rfl rfl rfl rfl rfl

theorem opEventAck_canon (src : Source) (b : List Byte) (s : State) (h_s : Canonical s) : Canonical (opEventAck src b s) := by
  unfold opEventAck
  try dsimp only
  repeat' first
    | with_reducible assumption
    | with_reducible
        first | apply answer_canon | apply bumpReg_canon
    | split | intro _ | with_reducible refine Canonical.of_mk ?_ rfl rfl rfl rfl rfl

theorem tick_canon (s : State) (h : Canonical s) : Canonical (tick s) := by
  unfold tick
  refine powered_canon _ _ (fun s hs => ?_) h
  obtain ⟨a, b, c, d, e, f⟩ := parts_of_sizes hs.sizes
  exact ⟨hs.mem, drainTrunk_mram _ hs.mram, hs.regs, hs.tiles, sizes_of_parts a b c d e f⟩


theorem State_withFetchWord_canon (s : State) (nbits w : Nat) (h_s : Canonical s) : Canonical (State.withFetchWord s nbits w) := by
  unfold State.withFetchWord
  try dsimp only
  repeat' first | with_reducible assumption | split | with_reducible refine Canonical.of_mk ?_ rfl rfl rfl rfl rfl

end Sys2Proof.Machine
end

