-- ==== Sys2Proof/Laws/CanonicalCommands.lean ====
section
/-!
SUPPORT. The canonical form is kept by the meaning of each command.
-/

set_option linter.all false

namespace Sys2Proof.Machine
open Sys2Proof

theorem id_canon (c : TCtx) (h : CtxCanonical c) : CtxCanonical (id c) := h

theorem next_inj {a t : State} (h : (Host.Outcome.next a : Host.Outcome State Fault Refusal) = .next t) : a = t := by cases h; rfl

theorem corePortAccess_canon (d : Fin 4) (c : Fin 8) (super : Bool) (off : Nat) (a : CoreAccess) (s t : State) (h_s : Canonical s)
      (h : corePortAccess d c super off a s = some t) : Canonical t := by
  unfold corePortAccess at h
  extract_lets p value at h
  have hv : ∀ n, value n = some t → Canonical t := fun n hn => by
    rw [← Option.some.inj hn]
    exact coreAnswer_canon _ _ _ _ h_s
  clear_value value
  repeat' split at h
  all_goals first
    | (cases h; done)
    | exact hv _ h
    | (rw [← Option.some.inj h]
       with_reducible
         first | apply opNext_canon | apply opPost_canon | apply opDone_canon | apply opCorePortWait_canon | apply opYield_canon
               | apply opSleep_canon | apply opThread_canon | apply opFlow_canon
       with_reducible assumption)

theorem coreLocal_canon (d : Fin 4) (c : Fin 8) (super : Bool) (addr : Nat) (a : CoreAccess) (s t : State) (h_s : Canonical s)
      (h : coreLocal d c super addr a s = some t) : Canonical t := by
  unfold coreLocal at h
  dsimp only at h
  repeat' split at h
  all_goals first
    | exact corePortAccess_canon _ _ _ _ _ _ _ h_s h
    | (cases h; done)
    | (rw [← Option.some.inj h]; with_reducible first | apply coreStack_canon | apply coreWindow_canon | apply coreOutside_canon
       with_reducible assumption)

theorem opCoreAccess_canon (d : Fin 4) (c : Fin 8) (super : Bool) (addr : BitVec 57) (a : CoreAccess) (s t : State) (h_s : Canonical s)
      (h : opCoreAccess d c super addr a s = some t) : Canonical t := by
  unfold opCoreAccess at h
  dsimp only at h
  repeat' split at h
  · rw [← Option.some.inj h]; exact h_s
  · rw [← Option.some.inj h]; exact coreRemote_canon _ _ _ _ _ h_s
  · exact coreLocal_canon _ _ _ _ _ _ _ h_s h

theorem execPrefetchReadComplete_canon (r : TileRef) (x : Fin 8) (line : Fin (2 ^ 38)) (s : State) (t_ : State) (h_s : Canonical s)
      (h : execPrefetchReadComplete r x line s = .next t_) : Canonical t_ := by
  rw [← next_inj h]
  repeat' first
    | with_reducible assumption
    | with_reducible
        first | apply opPrefetchRead_canon | apply powered_canon
    | split | intro _ | with_reducible refine Canonical.of_mk ?_ rfl rfl rfl rfl rfl

theorem execGet_canon (r : TileRef) (w : WaitField) (a : XferArgs) (s : State) (t_ : State) (h_s : Canonical s)
      (h : execGet r w a s = .next t_) : Canonical t_ := by
  rw [← next_inj h]
  repeat' first
    | with_reducible assumption
    | with_reducible
        first | apply effGet_canon | apply issue_canon | apply powered_canon
    | split | intro _ | with_reducible refine Canonical.of_mk ?_ rfl rfl rfl rfl rfl

theorem execPut_canon (r : TileRef) (w : WaitField) (a : XferArgs) (s : State) (t_ : State) (h_s : Canonical s)
      (h : execPut r w a s = .next t_) : Canonical t_ := by
  rw [← next_inj h]
  repeat' first
    | with_reducible assumption
    | with_reducible
        first | apply effPut_canon | apply issue_canon | apply powered_canon
    | split | intro _ | with_reducible refine Canonical.of_mk ?_ rfl rfl rfl rfl rfl

theorem execSignal_canon (r : TileRef) (w : WaitField) (a : SignalArgs) (s : State) (t_ : State) (h_s : Canonical s)
      (h : execSignal r w a s = .next t_) : Canonical t_ := by
  rw [← next_inj h]
  repeat' first
    | with_reducible assumption
    | with_reducible
        first | apply effSignal_canon | apply issue_canon | apply powered_canon
    | split | intro _ | with_reducible refine Canonical.of_mk ?_ rfl rfl rfl rfl rfl

theorem execSwap_canon (r : TileRef) (w : WaitField) (a : SwapArgs) (s : State) (t_ : State) (h_s : Canonical s)
      (h : execSwap r w a s = .next t_) : Canonical t_ := by
  rw [← next_inj h]
  repeat' first
    | with_reducible assumption
    | with_reducible
        first | apply effSwap_canon | apply issue_canon | apply powered_canon
    | split | intro _ | with_reducible refine Canonical.of_mk ?_ rfl rfl rfl rfl rfl

theorem execGetComplete_canon (r : TileRef) (id : BitVec 32) (s : State) (t_ : State) (h_s : Canonical s)
      (h : execGetComplete r id s = .next t_) : Canonical t_ := by
  rw [← next_inj h]
  repeat' first
    | with_reducible assumption
    | with_reducible
        first | apply id_canon | apply completeXfer_canon | apply powered_canon
    | split | intro _ | with_reducible refine Canonical.of_mk ?_ rfl rfl rfl rfl rfl

theorem execPutComplete_canon (r : TileRef) (id : BitVec 32) (s : State) (t_ : State) (h_s : Canonical s)
      (h : execPutComplete r id s = .next t_) : Canonical t_ := by
  rw [← next_inj h]
  repeat' first
    | with_reducible assumption
    | with_reducible
        first | apply id_canon | apply completeXfer_canon | apply powered_canon
    | split | intro _ | with_reducible refine Canonical.of_mk ?_ rfl rfl rfl rfl rfl

theorem execSwapComplete_canon (r : TileRef) (id : BitVec 32) (s : State) (t_ : State) (h_s : Canonical s)
      (h : execSwapComplete r id s = .next t_) : Canonical t_ := by
  rw [← next_inj h]
  repeat' first
    | with_reducible assumption
    | with_reducible
        first | apply id_canon | apply completeXfer_canon | apply powered_canon
    | split | intro _ | with_reducible refine Canonical.of_mk ?_ rfl rfl rfl rfl rfl

theorem execDescriptorComplete_canon (r : TileRef) (id : BitVec 32) (s : State) (t_ : State) (h_s : Canonical s)
      (h : execDescriptorComplete r id s = .next t_) : Canonical t_ := by
  rw [← next_inj h]
  repeat' first
    | with_reducible assumption
    | with_reducible
        first | apply id_canon | apply completeXfer_canon | apply powered_canon
    | split | intro _ | with_reducible refine Canonical.of_mk ?_ rfl rfl rfl rfl rfl

theorem execTokenArrival_canon (r : TileRef) (tag : BitVec 12) (item : TileItem) (s : State) (t_ : State) (h_s : Canonical s)
      (h : execTokenArrival r tag item s = .next t_) : Canonical t_ := by
  rw [← next_inj h]
  repeat' first
    | with_reducible assumption
    | with_reducible
        first | apply opTokenArrival_canon | apply powered_canon
    | split | intro _ | with_reducible refine Canonical.of_mk ?_ rfl rfl rfl rfl rfl

theorem execPageInComplete_canon (r : TileRef) (s : State) (t_ : State) (h_s : Canonical s)
      (h : execPageInComplete r s = .next t_) : Canonical t_ := by
  rw [← next_inj h]
  repeat' first
    | with_reducible assumption
    | with_reducible
        first | apply opPageIn_canon | apply powered_canon
    | split | intro _ | with_reducible refine Canonical.of_mk ?_ rfl rfl rfl rfl rfl

theorem execGradientEntry_canon (d : Fin 4) (tag : BitVec 12) (table : Fin 4096) (shard : Fin 16384) (gk : BitVec 128) (vals : List (BitVec 32))
      (src : BitVec 24) (s : State) (t_ : State) (h_s : Canonical s)
      (h : execGradientEntry d tag table shard gk vals src s = .next t_) : Canonical t_ := by
  rw [← next_inj h]
  repeat' first
    | with_reducible assumption
    | with_reducible
        first | apply opGradientEntry_canon | apply powered_canon
    | split | intro _ | with_reducible refine Canonical.of_mk ?_ rfl rfl rfl rfl rfl

theorem execSample_canon (r : TileRef) (w : WaitField) (a : SampleArgs) (s : State) (t_ : State) (h_s : Canonical s)
      (h : execSample r w a s = .next t_) : Canonical t_ := by
  rw [← next_inj h]
  repeat' first
    | with_reducible assumption
    | with_reducible
        first | apply effSlice_canon | apply issue_canon | apply powered_canon
    | split | intro _ | with_reducible refine Canonical.of_mk ?_ rfl rfl rfl rfl rfl

theorem execGather_canon (r : TileRef) (w : WaitField) (a : TblArgs) (s : State) (t_ : State) (h_s : Canonical s)
      (h : execGather r w a s = .next t_) : Canonical t_ := by
  rw [← next_inj h]
  repeat' first
    | with_reducible assumption
    | with_reducible
        first | apply opTbl_canon | apply powered_canon
    | split | intro _ | with_reducible refine Canonical.of_mk ?_ rfl rfl rfl rfl rfl

theorem execGatherAndPool_canon (r : TileRef) (w : WaitField) (a : TblArgs) (s : State) (t_ : State) (h_s : Canonical s)
      (h : execGatherAndPool r w a s = .next t_) : Canonical t_ := by
  rw [← next_inj h]
  repeat' first
    | with_reducible assumption
    | with_reducible
        first | apply opTbl_canon | apply powered_canon
    | split | intro _ | with_reducible refine Canonical.of_mk ?_ rfl rfl rfl rfl rfl

theorem execScatterAdd_canon (r : TileRef) (w : WaitField) (a : TblArgs) (s : State) (t_ : State) (h_s : Canonical s)
      (h : execScatterAdd r w a s = .next t_) : Canonical t_ := by
  rw [← next_inj h]
  repeat' first
    | with_reducible assumption
    | with_reducible
        first | apply opTbl_canon | apply powered_canon
    | split | intro _ | with_reducible refine Canonical.of_mk ?_ rfl rfl rfl rfl rfl

theorem execSortAndMerge_canon (r : TileRef) (w : WaitField) (a : TblArgs) (s : State) (t_ : State) (h_s : Canonical s)
      (h : execSortAndMerge r w a s = .next t_) : Canonical t_ := by
  rw [← next_inj h]
  repeat' first
    | with_reducible assumption
    | with_reducible
        first | apply opTbl_canon | apply powered_canon
    | split | intro _ | with_reducible refine Canonical.of_mk ?_ rfl rfl rfl rfl rfl

theorem execReferenceOutput_canon (s : State) (t_ : State) (h_s : Canonical s) (h : execReferenceOutput s = .next t_) : Canonical t_ := by
  rw [← next_inj h]
  repeat' first
    | with_reducible assumption
    | with_reducible
        first | apply powered_canon | apply setReg_canon
    | split | intro _ | with_reducible refine Canonical.of_mk ?_ rfl rfl rfl rfl rfl

theorem execBlockLockLoss_canon (p : Fin 8) (s : State) (t_ : State) (h_s : Canonical s) (h : execBlockLockLoss p s = .next t_) : Canonical t_ := by
  rw [← next_inj h]
  repeat' first
    | with_reducible assumption
    | with_reducible
        first | apply failover_canon | apply modEth_canon | apply powered_canon | apply raiseEth_canon
    | split | intro _ | with_reducible refine Canonical.of_mk ?_ rfl rfl rfl rfl rfl

theorem execBlockLockRegain_canon (p : Fin 8) (s : State) (t_ : State) (h_s : Canonical s)
      (h : execBlockLockRegain p s = .next t_) : Canonical t_ := by
  rw [← next_inj h]
  repeat' first
    | with_reducible assumption
    | with_reducible
        first | apply flushCompletions_canon | apply flushJournals_canon | apply modEth_canon | apply powered_canon | apply raiseEth_canon
    | split | intro _ | with_reducible refine Canonical.of_mk ?_ rfl rfl rfl rfl rfl

theorem execQueuePairErrorState_canon (p : Fin 8) (pair : Fin 64) (s : State) (t_ : State) (h_s : Canonical s)
      (h : execQueuePairErrorState p pair s = .next t_) : Canonical t_ := by
  rw [← next_inj h]
  repeat' first
    | with_reducible assumption
    | with_reducible
        first | apply opQpError_canon | apply powered_canon
    | split | intro _ | with_reducible refine Canonical.of_mk ?_ rfl rfl rfl rfl rfl

theorem execNopRecord_canon (s : State) (t_ : State) (h_s : Canonical s) (h : execNopRecord s = .next t_) : Canonical t_ := by
  rw [← next_inj h]
  repeat' first
    | with_reducible assumption
    | with_reducible
        first | apply bumpReg_canon | apply complete_canon | apply powered_canon | apply takeRecord_canon
    | split | intro _ | with_reducible refine Canonical.of_mk ?_ rfl rfl rfl rfl rfl

theorem execInput_canon (s : State) (t_ : State) (h_s : Canonical s) (h : execInput s = .next t_) : Canonical t_ := by
  rw [← next_inj h]
  repeat' first
    | with_reducible assumption
    | with_reducible
        first | apply opInput_canon | apply powered_canon | apply takeRecord_canon
    | split | intro _ | with_reducible refine Canonical.of_mk ?_ rfl rfl rfl rfl rfl

theorem execBatch_canon (s : State) (t_ : State) (h_s : Canonical s) (h : execBatch s = .next t_) : Canonical t_ := by
  rw [← next_inj h]
  repeat' first
    | with_reducible assumption
    | with_reducible
        first | apply opBatch_canon | apply powered_canon | apply takeRecord_canon
    | split | intro _ | with_reducible refine Canonical.of_mk ?_ rfl rfl rfl rfl rfl

theorem execDecode_canon (s : State) (t_ : State) (h_s : Canonical s) (h : execDecode s = .next t_) : Canonical t_ := by
  rw [← next_inj h]
  repeat' first
    | with_reducible assumption
    | with_reducible
        first | apply opBatch_canon | apply powered_canon | apply takeRecord_canon
    | split | intro _ | with_reducible refine Canonical.of_mk ?_ rfl rfl rfl rfl rfl

theorem execReleaseRecord_canon (s : State) (t_ : State) (h_s : Canonical s) (h : execReleaseRecord s = .next t_) : Canonical t_ := by
  rw [← next_inj h]
  repeat' first
    | with_reducible assumption
    | with_reducible
        first | apply opRelease_canon | apply powered_canon | apply takeRecord_canon
    | split | intro _ | with_reducible refine Canonical.of_mk ?_ rfl rfl rfl rfl rfl

theorem execReleaseWaitExpiry_canon (cseq : BitVec 32) (s : State) (t_ : State) (h_s : Canonical s)
      (h : execReleaseWaitExpiry cseq s = .next t_) : Canonical t_ := by
  rw [← next_inj h]
  repeat' first
    | with_reducible assumption
    | with_reducible
        first | apply opReleaseWait_canon | apply powered_canon
    | split | intro _ | with_reducible refine Canonical.of_mk ?_ rfl rfl rfl rfl rfl

theorem execInputReadComplete_canon (c : Fin 48) (m : Option (BitVec 16)) (bytes : List Byte) (s : State) (t_ : State) (h_s : Canonical s)
      (h : execInputReadComplete c m bytes s = .next t_) : Canonical t_ := by
  rw [← next_inj h]
  repeat' first
    | with_reducible assumption
    | with_reducible
        first | apply opInputRead_canon | apply powered_canon
    | split | intro _ | with_reducible refine Canonical.of_mk ?_ rfl rfl rfl rfl rfl

theorem execDoorbell_canon (w : BitVec 64) (s : State) (t_ : State) (h_s : Canonical s) (h : execDoorbell w s = .next t_) : Canonical t_ := by
  rw [← next_inj h]
  repeat' first
    | with_reducible assumption
    | with_reducible
        first | apply opDoorbell_canon | apply powered_canon
    | split | intro _ | with_reducible refine Canonical.of_mk ?_ rfl rfl rfl rfl rfl

theorem execRdmaWrite_canon (p : Fin 8) (qp : BitVec 24) (gid : BitVec 128) (rkey : BitVec 32) (va : BitVec 64) (bytes : List Byte) (s : State)
      (t_ : State) (h_s : Canonical s) (h : execRdmaWrite p qp gid rkey va bytes s = .next t_) : Canonical t_ := by
  rw [← next_inj h]
  repeat' first
    | with_reducible assumption
    | with_reducible
        first | apply opRdmaWrite_canon | apply powered_canon
    | split | intro _ | with_reducible refine Canonical.of_mk ?_ rfl rfl rfl rfl rfl

theorem execRdmaRead_canon (p : Fin 8) (qp : BitVec 24) (gid : BitVec 128) (rkey : BitVec 32) (va : BitVec 64) (len : BitVec 32) (s : State)
      (t_ : State) (h_s : Canonical s) (h : execRdmaRead p qp gid rkey va len s = .next t_) : Canonical t_ := by
  rw [← next_inj h]
  repeat' first
    | with_reducible assumption
    | with_reducible
        first | apply opRdmaRead_canon | apply powered_canon
    | split | intro _ | with_reducible refine Canonical.of_mk ?_ rfl rfl rfl rfl rfl

theorem execSend_canon (p : Fin 8) (qp : BitVec 24) (gid : BitVec 128) (_bytes : List Byte) (s : State) (t_ : State) (h_s : Canonical s)
      (h : execSend p qp gid _bytes s = .next t_) : Canonical t_ := by
  rw [← next_inj h]
  repeat' first
    | with_reducible assumption
    | with_reducible
        first | apply bumpEth_canon | apply emit_canon | apply powered_canon | apply roceArrives_canon
    | split | intro _ | with_reducible refine Canonical.of_mk ?_ rfl rfl rfl rfl rfl

theorem execPauseReceived_canon (p : Fin 8) (prio : Fin 8) (quanta : BitVec 16) (s : State) (t_ : State) (h_s : Canonical s)
      (h : execPauseReceived p prio quanta s = .next t_) : Canonical t_ := by
  rw [← next_inj h]
  repeat' first
    | with_reducible assumption
    | with_reducible
        first | apply opPause_canon | apply powered_canon
    | split | intro _ | with_reducible refine Canonical.of_mk ?_ rfl rfl rfl rfl rfl

theorem execReceiveFifoThreshold_canon (p : Fin 8) (prio : Fin 8) (above : Bool) (s : State) (t_ : State) (h_s : Canonical s)
      (h : execReceiveFifoThreshold p prio above s = .next t_) : Canonical t_ := by
  rw [← next_inj h]
  repeat' first
    | with_reducible assumption
    | with_reducible
        first | apply opFifo_canon | apply powered_canon
    | split | intro _ | with_reducible refine Canonical.of_mk ?_ rfl rfl rfl rfl rfl

theorem execPausePersistence_canon (p : Fin 8) (prio : Fin 8) (s : State) (t_ : State) (h_s : Canonical s)
      (h : execPausePersistence p prio s = .next t_) : Canonical t_ := by
  rw [← next_inj h]
  repeat' first
    | with_reducible assumption
    | with_reducible
        first | apply opPausePersistence_canon | apply powered_canon
    | split | intro _ | with_reducible refine Canonical.of_mk ?_ rfl rfl rfl rfl rfl

theorem execCeMarkedPacket_canon (p : Fin 8) (qp : BitVec 24) (s : State) (t_ : State) (h_s : Canonical s)
      (h : execCeMarkedPacket p qp s = .next t_) : Canonical t_ := by
  rw [← next_inj h]
  repeat' first
    | with_reducible assumption
    | with_reducible
        first | apply opCeMarked_canon | apply powered_canon
    | split | intro _ | with_reducible refine Canonical.of_mk ?_ rfl rfl rfl rfl rfl

theorem execCongestionNotificationPacket_canon (p : Fin 8) (qp : BitVec 24) (s : State) (t_ : State) (h_s : Canonical s)
      (h : execCongestionNotificationPacket p qp s = .next t_) : Canonical t_ := by
  rw [← next_inj h]
  repeat' first
    | with_reducible assumption
    | with_reducible
        first | apply opCnp_canon | apply powered_canon
    | split | intro _ | with_reducible refine Canonical.of_mk ?_ rfl rfl rfl rfl rfl

theorem execRateRecovery_canon (p : Fin 8) (qp : BitVec 24) (s : State) (t_ : State) (h_s : Canonical s)
      (h : execRateRecovery p qp s = .next t_) : Canonical t_ := by
  rw [← next_inj h]
  repeat' first
    | with_reducible assumption
    | with_reducible
        first | apply opRateRecovery_canon | apply powered_canon
    | split | intro _ | with_reducible refine Canonical.of_mk ?_ rfl rfl rfl rfl rfl

theorem execPtpMessage_canon (p : Fin 8) (domain : BitVec 7) (time : BitVec 64) (offset : BitVec 32) (s : State) (t_ : State) (h_s : Canonical s)
      (h : execPtpMessage p domain time offset s = .next t_) : Canonical t_ := by
  rw [← next_inj h]
  repeat' first
    | with_reducible assumption
    | with_reducible
        first | apply opPtp_canon | apply powered_canon
    | split | intro _ | with_reducible refine Canonical.of_mk ?_ rfl rfl rfl rfl rfl

theorem execHoldover_canon (s : State) (t_ : State) (h_s : Canonical s) (h : execHoldover s = .next t_) : Canonical t_ := by
  rw [← next_inj h]
  repeat' first
    | with_reducible assumption
    | with_reducible
        first | apply powered_canon | apply raise__canon | apply setReg_canon
    | split | intro _ | with_reducible refine Canonical.of_mk ?_ rfl rfl rfl rfl rfl

theorem execJournalAck_canon (d : Fin 4) (upTo : BitVec 64) (image : Bool) (s : State) (t_ : State) (h_s : Canonical s)
      (h : execJournalAck d upTo image s = .next t_) : Canonical t_ := by
  rw [← next_inj h]
  repeat' first
    | with_reducible assumption
    | with_reducible
        first | apply opJournalAck_canon | apply powered_canon
    | split | intro _ | with_reducible refine Canonical.of_mk ?_ rfl rfl rfl rfl rfl

theorem execJournalWaitExpiry_canon (s : State) (t_ : State) (h_s : Canonical s) (h : execJournalWaitExpiry s = .next t_) : Canonical t_ := by
  rw [← next_inj h]
  repeat' first
    | with_reducible assumption
    | with_reducible
        first | apply opJournalWait_canon | apply powered_canon
    | split | intro _ | with_reducible refine Canonical.of_mk ?_ rfl rfl rfl rfl rfl

theorem execDrainEpochEnd_canon (r : DrainRef) (s : State) (t_ : State) (h_s : Canonical s)
      (h : execDrainEpochEnd r s = .next t_) : Canonical t_ := by
  rw [← next_inj h]
  repeat' first
    | with_reducible assumption
    | with_reducible
        first | apply opDrainEnd_canon | apply powered_canon
    | split | intro _ | with_reducible refine Canonical.of_mk ?_ rfl rfl rfl rfl rfl

theorem execSourceCopyComplete_canon (cseq : BitVec 32) (entry : BitVec 24) (s : State) (t_ : State) (h_s : Canonical s)
      (h : execSourceCopyComplete cseq entry s = .next t_) : Canonical t_ := by
  rw [← next_inj h]
  repeat' first
    | with_reducible assumption
    | with_reducible
        first | apply opSourceCopy_canon | apply powered_canon
    | split | intro _ | with_reducible refine Canonical.of_mk ?_ rfl rfl rfl rfl rfl

theorem execBankCopyComplete_canon (table : Fin 4096) (shard : Fin 16384) (copy : Fin 4) (s : State) (t_ : State) (h_s : Canonical s)
      (h : execBankCopyComplete table shard copy s = .next t_) : Canonical t_ := by
  rw [← next_inj h]
  repeat' first
    | with_reducible assumption
    | with_reducible
        first | apply copyBank_canon | apply powered_canon
    | split | intro _ | with_reducible refine Canonical.of_mk ?_ rfl rfl rfl rfl rfl

theorem execReplace_canon (s : State) (t_ : State) (h_s : Canonical s) (h : execReplace s = .next t_) : Canonical t_ := by
  rw [← next_inj h]
  repeat' first
    | with_reducible assumption
    | with_reducible
        first | apply opReplace_canon | apply powered_canon | apply takeRecord_canon
    | split | intro _ | with_reducible refine Canonical.of_mk ?_ rfl rfl rfl rfl rfl

theorem execReductionStart_canon (s : State) (t_ : State) (h_s : Canonical s) (h : execReductionStart s = .next t_) : Canonical t_ := by
  rw [← next_inj h]
  repeat' first
    | with_reducible assumption
    | with_reducible
        first | apply opReductionStart_canon | apply powered_canon
    | split | intro _ | with_reducible refine Canonical.of_mk ?_ rfl rfl rfl rfl rfl

theorem execCodes_canon (d : Fin 4) (m : ReduceMsg) (s : State) (t_ : State) (h_s : Canonical s) (h : execCodes d m s = .next t_) : Canonical t_ := by
  rw [← next_inj h]
  repeat' first
    | with_reducible assumption
    | with_reducible
        first | apply opReduceMsg_canon | apply powered_canon
    | split | intro _ | with_reducible refine Canonical.of_mk ?_ rfl rfl rfl rfl rfl

theorem execAgreed_canon (d : Fin 4) (m : ReduceMsg) (s : State) (t_ : State) (h_s : Canonical s)
      (h : execAgreed d m s = .next t_) : Canonical t_ := by
  rw [← next_inj h]
  repeat' first
    | with_reducible assumption
    | with_reducible
        first | apply opReduceMsg_canon | apply powered_canon
    | split | intro _ | with_reducible refine Canonical.of_mk ?_ rfl rfl rfl rfl rfl

theorem execSum_canon (d : Fin 4) (m : ReduceMsg) (s : State) (t_ : State) (h_s : Canonical s) (h : execSum d m s = .next t_) : Canonical t_ := by
  rw [← next_inj h]
  repeat' first
    | with_reducible assumption
    | with_reducible
        first | apply opReduceMsg_canon | apply powered_canon
    | split | intro _ | with_reducible refine Canonical.of_mk ?_ rfl rfl rfl rfl rfl

theorem execOnebit_canon (d : Fin 4) (m : ReduceMsg) (s : State) (t_ : State) (h_s : Canonical s)
      (h : execOnebit d m s = .next t_) : Canonical t_ := by
  rw [← next_inj h]
  repeat' first
    | with_reducible assumption
    | with_reducible
        first | apply opReduceMsg_canon | apply powered_canon
    | split | intro _ | with_reducible refine Canonical.of_mk ?_ rfl rfl rfl rfl rfl

theorem execHash_canon (d : Fin 4) (m : ReduceMsg) (s : State) (t_ : State) (h_s : Canonical s) (h : execHash d m s = .next t_) : Canonical t_ := by
  rw [← next_inj h]
  repeat' first
    | with_reducible assumption
    | with_reducible
        first | apply opReduceMsg_canon | apply powered_canon
    | split | intro _ | with_reducible refine Canonical.of_mk ?_ rfl rfl rfl rfl rfl

theorem execRaw_canon (d : Fin 4) (m : ReduceMsg) (s : State) (t_ : State) (h_s : Canonical s) (h : execRaw d m s = .next t_) : Canonical t_ := by
  rw [← next_inj h]
  repeat' first
    | with_reducible assumption
    | with_reducible
        first | apply opReduceMsg_canon | apply powered_canon
    | split | intro _ | with_reducible refine Canonical.of_mk ?_ rfl rfl rfl rfl rfl

theorem execResend_canon (d : Fin 4) (m : ReduceMsg) (s : State) (t_ : State) (h_s : Canonical s)
      (h : execResend d m s = .next t_) : Canonical t_ := by
  rw [← next_inj h]
  repeat' first
    | with_reducible assumption
    | with_reducible
        first | apply opReduceMsg_canon | apply powered_canon
    | split | intro _ | with_reducible refine Canonical.of_mk ?_ rfl rfl rfl rfl rfl

theorem execCatcherDeadline_canon (d : Fin 4) (layer shard : BitVec 16) (s : State) (t_ : State) (h_s : Canonical s)
      (h : execCatcherDeadline d layer shard s = .next t_) : Canonical t_ := by
  rw [← next_inj h]
  repeat' first
    | with_reducible assumption
    | with_reducible
        first | apply drainReduce_canon | apply opCatcherDeadline_canon | apply powered_canon
    | split | intro _ | with_reducible refine Canonical.of_mk ?_ rfl rfl rfl rfl rfl

theorem execStepStart_canon (r : TileRef) (s : State) (t_ : State) (h_s : Canonical s) (h : execStepStart r s = .next t_) : Canonical t_ := by
  rw [← next_inj h]
  repeat' first
    | with_reducible assumption
    | with_reducible
        first | apply opStepStart_canon | apply powered_canon
    | split | intro _ | with_reducible refine Canonical.of_mk ?_ rfl rfl rfl rfl rfl

theorem execForwardBarrier_canon (s : State) (t_ : State) (h_s : Canonical s) (h : execForwardBarrier s = .next t_) : Canonical t_ := by
  rw [← next_inj h]
  repeat' first
    | with_reducible assumption
    | with_reducible
        first | apply opForwardBarrier_canon | apply powered_canon
    | split | intro _ | with_reducible refine Canonical.of_mk ?_ rfl rfl rfl rfl rfl

theorem execStepWatchdogExpiry_canon (s : State) (t_ : State) (h_s : Canonical s) (h : execStepWatchdogExpiry s = .next t_) : Canonical t_ := by
  rw [← next_inj h]
  repeat' first
    | with_reducible assumption
    | with_reducible
        first | apply opWatchdog_canon | apply powered_canon
    | split | intro _ | with_reducible refine Canonical.of_mk ?_ rfl rfl rfl rfl rfl

theorem execServingStepInterval_canon (s : State) (t_ : State) (h_s : Canonical s) (h : execServingStepInterval s = .next t_) : Canonical t_ := by
  rw [← next_inj h]
  repeat' first
    | with_reducible assumption
    | with_reducible
        first | apply opServingInterval_canon | apply powered_canon
    | split | intro _ | with_reducible refine Canonical.of_mk ?_ rfl rfl rfl rfl rfl

theorem execMissingDecision_canon (s : State) (t_ : State) (h_s : Canonical s) (h : execMissingDecision s = .next t_) : Canonical t_ := by
  rw [← next_inj h]
  repeat' first
    | with_reducible assumption
    | with_reducible
        first | apply opMissingDecision_canon | apply powered_canon
    | split | intro _ | with_reducible refine Canonical.of_mk ?_ rfl rfl rfl rfl rfl

theorem execGalleryTestComplete_canon (r : TileRef) (hash : Option (BitVec 64)) (s : State) (t_ : State) (h_s : Canonical s)
      (h : execGalleryTestComplete r hash s = .next t_) : Canonical t_ := by
  rw [← next_inj h]
  repeat' first
    | with_reducible assumption
    | with_reducible
        first | apply opGalleryTest_canon | apply powered_canon
    | split | intro _ | with_reducible refine Canonical.of_mk ?_ rfl rfl rfl rfl rfl

theorem execRunFullPack_canon (mask : BitVec 8) (s : State) (t_ : State) (h_s : Canonical s)
      (h : execRunFullPack mask s = .next t_) : Canonical t_ := by
  rw [← next_inj h]
  repeat' first
    | with_reducible assumption
    | with_reducible
        first | apply opFullPack_canon | apply powered_canon
    | split | intro _ | with_reducible refine Canonical.of_mk ?_ rfl rfl rfl rfl rfl

theorem execFullRunComplete_canon (s : State) (t_ : State) (h_s : Canonical s) (h : execFullRunComplete s = .next t_) : Canonical t_ := by
  rw [← next_inj h]
  repeat' first
    | with_reducible assumption
    | with_reducible
        first | apply opFullRun_canon | apply powered_canon
    | split | intro _ | with_reducible refine Canonical.of_mk ?_ rfl rfl rfl rfl rfl

theorem execPackageVote_canon (s : State) (t_ : State) (h_s : Canonical s) (h : execPackageVote s = .next t_) : Canonical t_ := by
  rw [← next_inj h]
  repeat' first
    | with_reducible assumption
    | with_reducible
        first | apply opPackageVote_canon | apply powered_canon
    | split | intro _ | with_reducible refine Canonical.of_mk ?_ rfl rfl rfl rfl rfl

theorem execVote_canon (child : Fin 3) (v : Vote) (s : State) (t_ : State) (h_s : Canonical s)
      (h : execVote child v s = .next t_) : Canonical t_ := by
  rw [← next_inj h]
  repeat' first
    | with_reducible assumption
    | with_reducible
        first | apply opVote_canon | apply powered_canon
    | split | intro _ | with_reducible refine Canonical.of_mk ?_ rfl rfl rfl rfl rfl

theorem execCommit_canon (d : Decision) (s : State) (t_ : State) (h_s : Canonical s) (h : execCommit d s = .next t_) : Canonical t_ := by
  rw [← next_inj h]
  repeat' first
    | with_reducible assumption
    | with_reducible
        first | apply opDecision_canon | apply powered_canon
    | split | intro _ | with_reducible refine Canonical.of_mk ?_ rfl rfl rfl rfl rfl

theorem execRerun_canon (d : Decision) (s : State) (t_ : State) (h_s : Canonical s) (h : execRerun d s = .next t_) : Canonical t_ := by
  rw [← next_inj h]
  repeat' first
    | with_reducible assumption
    | with_reducible
        first | apply opDecision_canon | apply powered_canon
    | split | intro _ | with_reducible refine Canonical.of_mk ?_ rfl rfl rfl rfl rfl

theorem execSkip_canon (d : Decision) (s : State) (t_ : State) (h_s : Canonical s) (h : execSkip d s = .next t_) : Canonical t_ := by
  rw [← next_inj h]
  repeat' first
    | with_reducible assumption
    | with_reducible
        first | apply opDecision_canon | apply powered_canon
    | split | intro _ | with_reducible refine Canonical.of_mk ?_ rfl rfl rfl rfl rfl

theorem execHoldDecision_canon (d : Decision) (s : State) (t_ : State) (h_s : Canonical s) (h : execHoldDecision d s = .next t_) : Canonical t_ := by
  rw [← next_inj h]
  repeat' first
    | with_reducible assumption
    | with_reducible
        first | apply opDecision_canon | apply powered_canon
    | split | intro _ | with_reducible refine Canonical.of_mk ?_ rfl rfl rfl rfl rfl

theorem execCaptureComplete_canon (s : State) (t_ : State) (h_s : Canonical s) (h : execCaptureComplete s = .next t_) : Canonical t_ := by
  rw [← next_inj h]
  repeat' first
    | with_reducible assumption
    | with_reducible
        first | apply opCapture_canon | apply powered_canon
    | split | intro _ | with_reducible refine Canonical.of_mk ?_ rfl rfl rfl rfl rfl

theorem execDrained_canon (r : RecRecord) (s : State) (t_ : State) (h_s : Canonical s) (h : execDrained r s = .next t_) : Canonical t_ := by
  rw [← next_inj h]
  repeat' first
    | with_reducible assumption
    | with_reducible
        first | apply opDrained_canon | apply powered_canon
    | split | intro _ | with_reducible refine Canonical.of_mk ?_ rfl rfl rfl rfl rfl

theorem execComplete_canon (r : RecRecord) (s : State) (t_ : State) (h_s : Canonical s) (h : execComplete r s = .next t_) : Canonical t_ := by
  rw [← next_inj h]
  repeat' first
    | with_reducible assumption
    | with_reducible
        first | apply opComplete_canon | apply powered_canon
    | split | intro _ | with_reducible refine Canonical.of_mk ?_ rfl rfl rfl rfl rfl

theorem execUnreachable_canon (r : RecRecord) (s : State) (t_ : State) (h_s : Canonical s) (h : execUnreachable r s = .next t_) : Canonical t_ := by
  rw [← next_inj h]
  repeat' first
    | with_reducible assumption
    | with_reducible
        first | apply opUnreachable_canon | apply powered_canon
    | split | intro _ | with_reducible refine Canonical.of_mk ?_ rfl rfl rfl rfl rfl

theorem execReachable_canon (r : RecRecord) (s : State) (t_ : State) (h_s : Canonical s) (h : execReachable r s = .next t_) : Canonical t_ := by
  rw [← next_inj h]
  repeat' first
    | with_reducible assumption
    | with_reducible
        first | apply opReachable_canon | apply powered_canon
    | split | intro _ | with_reducible refine Canonical.of_mk ?_ rfl rfl rfl rfl rfl

theorem execTarget_canon (r : RecRecord) (s : State) (t_ : State) (h_s : Canonical s) (h : execTarget r s = .next t_) : Canonical t_ := by
  rw [← next_inj h]
  repeat' first
    | with_reducible assumption
    | with_reducible
        first | apply opTarget_canon | apply powered_canon
    | split | intro _ | with_reducible refine Canonical.of_mk ?_ rfl rfl rfl rfl rfl

theorem execRestored_canon (r : RecRecord) (s : State) (t_ : State) (h_s : Canonical s) (h : execRestored r s = .next t_) : Canonical t_ := by
  rw [← next_inj h]
  repeat' first
    | with_reducible assumption
    | with_reducible
        first | apply opRestored_canon | apply powered_canon
    | split | intro _ | with_reducible refine Canonical.of_mk ?_ rfl rfl rfl rfl rfl

theorem execReport_canon (r : RecRecord) (s : State) (t_ : State) (h_s : Canonical s) (h : execReport r s = .next t_) : Canonical t_ := by
  rw [← next_inj h]
  repeat' first
    | with_reducible assumption
    | with_reducible
        first | apply opReport_canon | apply powered_canon
    | split | intro _ | with_reducible refine Canonical.of_mk ?_ rfl rfl rfl rfl rfl

theorem execQuery_canon (r : RecRecord) (s : State) (t_ : State) (h_s : Canonical s) (h : execQuery r s = .next t_) : Canonical t_ := by
  rw [← next_inj h]
  repeat' first
    | with_reducible assumption
    | with_reducible
        first | apply opQuery_canon | apply powered_canon
    | split | intro _ | with_reducible refine Canonical.of_mk ?_ rfl rfl rfl rfl rfl

theorem execAdopting_canon (r : RecRecord) (s : State) (t_ : State) (h_s : Canonical s) (h : execAdopting r s = .next t_) : Canonical t_ := by
  rw [← next_inj h]
  repeat' first
    | with_reducible assumption
    | with_reducible
        first | apply opAdopting_canon | apply powered_canon
    | split | intro _ | with_reducible refine Canonical.of_mk ?_ rfl rfl rfl rfl rfl

theorem execReject_canon (r : RecRecord) (s : State) (t_ : State) (h_s : Canonical s) (h : execReject r s = .next t_) : Canonical t_ := by
  rw [← next_inj h]
  repeat' first
    | with_reducible assumption
    | with_reducible
        first | apply opReject_canon | apply powered_canon
    | split | intro _ | with_reducible refine Canonical.of_mk ?_ rfl rfl rfl rfl rfl

theorem execRoute_canon (epoch : BitVec 8) (pos : BitVec 16) (coord : BitVec 12) (s : State) (t_ : State) (h_s : Canonical s)
      (h : execRoute epoch pos coord s = .next t_) : Canonical t_ := by
  rw [← next_inj h]
  repeat' first
    | with_reducible assumption
    | with_reducible
        first | apply opRoute_canon | apply powered_canon
    | split | intro _ | with_reducible refine Canonical.of_mk ?_ rfl rfl rfl rfl rfl

theorem execCodewordLockLoss_canon (p : Fin 16) (s : State) (t_ : State) (h_s : Canonical s)
      (h : execCodewordLockLoss p s = .next t_) : Canonical t_ := by
  rw [← next_inj h]
  repeat' first
    | with_reducible assumption
    | with_reducible
        first | apply opLockLoss_canon | apply powered_canon
    | split | intro _ | with_reducible refine Canonical.of_mk ?_ rfl rfl rfl rfl rfl

theorem execMidwayTraining_canon (p : Fin 16) (lock far : Bool) (s : State) (t_ : State) (h_s : Canonical s)
      (h : execMidwayTraining p lock far s = .next t_) : Canonical t_ := by
  rw [← next_inj h]
  repeat' first
    | with_reducible assumption
    | with_reducible
        first | apply opMidwayTraining_canon | apply powered_canon
    | split | intro _ | with_reducible refine Canonical.of_mk ?_ rfl rfl rfl rfl rfl

theorem execMidwayTrainingExpiry_canon (p : Fin 16) (s : State) (t_ : State) (h_s : Canonical s)
      (h : execMidwayTrainingExpiry p s = .next t_) : Canonical t_ := by
  rw [← next_inj h]
  repeat' first
    | with_reducible assumption
    | with_reducible
        first | apply opTrainingExpiry_canon | apply powered_canon
    | split | intro _ | with_reducible refine Canonical.of_mk ?_ rfl rfl rfl rfl rfl

theorem execRetrainPort_canon (p : Fin 16) (s : State) (t_ : State) (h_s : Canonical s) (h : execRetrainPort p s = .next t_) : Canonical t_ := by
  rw [← next_inj h]
  repeat' first
    | with_reducible assumption
    | with_reducible
        first | apply opRetrainPort_canon | apply powered_canon
    | split | intro _ | with_reducible refine Canonical.of_mk ?_ rfl rfl rfl rfl rfl

theorem execMidwayFlit_canon (p : Fin 16) (f : Flit) (c0 c1 : Option (Fin 16)) (s : State) (t_ : State) (h_s : Canonical s)
      (h : execMidwayFlit p f c0 c1 s = .next t_) : Canonical t_ := by
  rw [← next_inj h]
  repeat' first
    | with_reducible assumption
    | with_reducible
        first | apply opMidwayFlit_canon | apply powered_canon
    | split | intro _ | with_reducible refine Canonical.of_mk ?_ rfl rfl rfl rfl rfl

theorem execProbe_canon (p : Fin 16) (seq : BitVec 12) (s : State) (t_ : State) (h_s : Canonical s)
      (h : execProbe p seq s = .next t_) : Canonical t_ := by
  rw [← next_inj h]
  repeat' first
    | with_reducible assumption
    | with_reducible
        first | apply opProbe_canon | apply powered_canon
    | split | intro _ | with_reducible refine Canonical.of_mk ?_ rfl rfl rfl rfl rfl

theorem execRunReShard_canon (s : State) (t_ : State) (h_s : Canonical s) (h : execRunReShard s = .next t_) : Canonical t_ := by
  rw [← next_inj h]
  repeat' first
    | with_reducible assumption
    | with_reducible
        first | apply opRunReShard_canon | apply powered_canon
    | split | intro _ | with_reducible refine Canonical.of_mk ?_ rfl rfl rfl rfl rfl

theorem execReShardSwitch_canon (s : State) (t_ : State) (h_s : Canonical s) (h : execReShardSwitch s = .next t_) : Canonical t_ := by
  rw [← next_inj h]
  repeat' first
    | with_reducible assumption
    | with_reducible
        first | apply opSwitch_canon | apply powered_canon
    | split | intro _ | with_reducible refine Canonical.of_mk ?_ rfl rfl rfl rfl rfl

theorem execMidwayWrite_canon (m : Msg) (s : State) (t_ : State) (h_s : Canonical s) (h : execMidwayWrite m s = .next t_) : Canonical t_ := by
  rw [← next_inj h]
  repeat' first
    | with_reducible assumption
    | with_reducible
        first | apply opArrive_canon | apply powered_canon
    | split | intro _ | with_reducible refine Canonical.of_mk ?_ rfl rfl rfl rfl rfl

theorem execMidwayRead_canon (m : Msg) (s : State) (t_ : State) (h_s : Canonical s) (h : execMidwayRead m s = .next t_) : Canonical t_ := by
  rw [← next_inj h]
  repeat' first
    | with_reducible assumption
    | with_reducible
        first | apply opArrive_canon | apply powered_canon
    | split | intro _ | with_reducible refine Canonical.of_mk ?_ rfl rfl rfl rfl rfl

theorem execReadrsp_canon (m : Msg) (s : State) (t_ : State) (h_s : Canonical s) (h : execReadrsp m s = .next t_) : Canonical t_ := by
  rw [← next_inj h]
  repeat' first
    | with_reducible assumption
    | with_reducible
        first | apply opArrive_canon | apply powered_canon
    | split | intro _ | with_reducible refine Canonical.of_mk ?_ rfl rfl rfl rfl rfl

theorem execSignalMessage_canon (m : Msg) (s : State) (t_ : State) (h_s : Canonical s) (h : execSignalMessage m s = .next t_) : Canonical t_ := by
  rw [← next_inj h]
  repeat' first
    | with_reducible assumption
    | with_reducible
        first | apply opArrive_canon | apply powered_canon
    | split | intro _ | with_reducible refine Canonical.of_mk ?_ rfl rfl rfl rfl rfl

theorem execAck_canon (m : Msg) (s : State) (t_ : State) (h_s : Canonical s) (h : execAck m s = .next t_) : Canonical t_ := by
  rw [← next_inj h]
  repeat' first
    | with_reducible assumption
    | with_reducible
        first | apply opArrive_canon | apply powered_canon
    | split | intro _ | with_reducible refine Canonical.of_mk ?_ rfl rfl rfl rfl rfl

theorem execAckTimer_canon (d : Fin 4) (src : Fin 16384) (s : State) (t_ : State) (h_s : Canonical s)
      (h : execAckTimer d src s = .next t_) : Canonical t_ := by
  rw [← next_inj h]
  repeat' first
    | with_reducible assumption
    | with_reducible
        first | apply opAckTimer_canon | apply powered_canon
    | split | intro _ | with_reducible refine Canonical.of_mk ?_ rfl rfl rfl rfl rfl

theorem execEndToEndTimeout_canon (d : Fin 4) (dst : Fin 16384) (s : State) (t_ : State) (h_s : Canonical s)
      (h : execEndToEndTimeout d dst s = .next t_) : Canonical t_ := by
  rw [← next_inj h]
  repeat' first
    | with_reducible assumption
    | with_reducible
        first | apply opEndToEnd_canon | apply powered_canon
    | split | intro _ | with_reducible refine Canonical.of_mk ?_ rfl rfl rfl rfl rfl

theorem execMessageForward_canon (p : Fin 16) (vc : Fin 6) (s : State) (t_ : State) (h_s : Canonical s)
      (h : execMessageForward p vc s = .next t_) : Canonical t_ := by
  rw [← next_inj h]
  repeat' first
    | with_reducible assumption
    | with_reducible
        first | apply opForward_canon | apply powered_canon
    | split | intro _ | with_reducible refine Canonical.of_mk ?_ rfl rfl rfl rfl rfl

theorem execOwnerRecord_canon (viaM0 : Bool) (o : List Byte) (s : State) (t_ : State) (h_s : Canonical s)
      (h : execOwnerRecord viaM0 o s = .next t_) : Canonical t_ := by
  rw [← next_inj h]
  repeat' first
    | with_reducible assumption
    | with_reducible
        first | apply opOwner_canon | apply powered_canon
    | split | intro _ | with_reducible refine Canonical.of_mk ?_ rfl rfl rfl rfl rfl

theorem execManagementRecord_canon (o : List Byte) (s : State) (t_ : State) (h_s : Canonical s)
      (h : execManagementRecord o s = .next t_) : Canonical t_ := by
  rw [← next_inj h]
  repeat' first
    | with_reducible assumption
    | with_reducible
        first | apply opManagement_canon | apply powered_canon
    | split | intro _ | with_reducible refine Canonical.of_mk ?_ rfl rfl rfl rfl rfl

theorem execAttestationNonce_canon (n : BitVec 256) (s : State) (t_ : State) (h_s : Canonical s)
      (h : execAttestationNonce n s = .next t_) : Canonical t_ := by
  rw [← next_inj h]
  repeat' first
    | with_reducible assumption
    | with_reducible
        first | apply opNonce_canon | apply powered_canon
    | split | intro _ | with_reducible refine Canonical.of_mk ?_ rfl rfl rfl rfl rfl

theorem execUpdateObject_canon (o : List Byte) (s : State) (t_ : State) (h_s : Canonical s) (h : execUpdateObject o s = .next t_) : Canonical t_ := by
  rw [← next_inj h]
  repeat' first
    | with_reducible assumption
    | with_reducible
        first | apply opUpdateObject_canon | apply powered_canon
    | split | intro _ | with_reducible refine Canonical.of_mk ?_ rfl rfl rfl rfl rfl

theorem execUpdateVerificationComplete_canon (s : State) (t_ : State) (h_s : Canonical s)
      (h : execUpdateVerificationComplete s = .next t_) : Canonical t_ := by
  rw [← next_inj h]
  repeat' first
    | with_reducible assumption
    | with_reducible
        first | apply opUpdateComplete_canon | apply powered_canon
    | split | intro _ | with_reducible refine Canonical.of_mk ?_ rfl rfl rfl rfl rfl

theorem execBudgetSetting_canon (s : State) (t_ : State) (h_s : Canonical s) (h : execBudgetSetting s = .next t_) : Canonical t_ := by
  rw [← next_inj h]
  repeat' first
    | with_reducible assumption
    | with_reducible
        first | apply opBudgetSetting_canon | apply powered_canon
    | split | intro _ | with_reducible refine Canonical.of_mk ?_ rfl rfl rfl rfl rfl

theorem execBudgetEstimate_canon (d : Fin 4) (watts : BitVec 16) (s : State) (t_ : State) (h_s : Canonical s)
      (h : execBudgetEstimate d watts s = .next t_) : Canonical t_ := by
  rw [← next_inj h]
  repeat' first
    | with_reducible assumption
    | with_reducible
        first | apply opBudgetEstimate_canon | apply powered_canon
    | split | intro _ | with_reducible refine Canonical.of_mk ?_ rfl rfl rfl rfl rfl

theorem execBudgetTimeout_canon (d : Fin 4) (s : State) (t_ : State) (h_s : Canonical s) (h : execBudgetTimeout d s = .next t_) : Canonical t_ := by
  rw [← next_inj h]
  repeat' first
    | with_reducible assumption
    | with_reducible
        first | apply opBudgetTimeout_canon | apply powered_canon
    | split | intro _ | with_reducible refine Canonical.of_mk ?_ rfl rfl rfl rfl rfl

theorem execRegionSample_canon (r : RegionReading) (s : State) (t_ : State) (h_s : Canonical s)
      (h : execRegionSample r s = .next t_) : Canonical t_ := by
  rw [← next_inj h]
  repeat' first
    | with_reducible assumption
    | with_reducible
        first | apply opRegionSample_canon | apply powered_canon
    | split | intro _ | with_reducible refine Canonical.of_mk ?_ rfl rfl rfl rfl rfl

theorem execRegulatorTelemetry_canon (t : Telemetry) (s : State) (t_ : State) (h_s : Canonical s)
      (h : execRegulatorTelemetry t s = .next t_) : Canonical t_ := by
  rw [← next_inj h]
  repeat' first
    | with_reducible assumption
    | with_reducible
        first | apply opTelemetry_canon | apply powered_canon
    | split | intro _ | with_reducible refine Canonical.of_mk ?_ rfl rfl rfl rfl rfl

theorem execAlertN_canon (segment : Fin 2) (status : Vector (Option (BitVec 16)) 4) (s : State) (t_ : State) (h_s : Canonical s)
      (h : execAlertN segment status s = .next t_) : Canonical t_ := by
  rw [← next_inj h]
  repeat' first
    | with_reducible assumption
    | with_reducible
        first | apply opAlert_canon | apply powered_canon
    | split | intro _ | with_reducible refine Canonical.of_mk ?_ rfl rfl rfl rfl rfl

theorem execAvsbusTimeout_canon (d : Fin 4) (s : State) (t_ : State) (h_s : Canonical s) (h : execAvsbusTimeout d s = .next t_) : Canonical t_ := by
  rw [← next_inj h]
  repeat' first
    | with_reducible assumption
    | with_reducible
        first | apply powered_canon | apply raiseAt_canon
    | split | intro _ | with_reducible refine Canonical.of_mk ?_ rfl rfl rfl rfl rfl

theorem execValveControl_canon (r : CoolantReading) (s : State) (t_ : State) (h_s : Canonical s)
      (h : execValveControl r s = .next t_) : Canonical t_ := by
  rw [← next_inj h]
  repeat' first
    | with_reducible assumption
    | with_reducible
        first | apply opValve_canon | apply powered_canon
    | split | intro _ | with_reducible refine Canonical.of_mk ?_ rfl rfl rfl rfl rfl

theorem execCoolantFlowLow_canon (s : State) (t_ : State) (h_s : Canonical s) (h : execCoolantFlowLow s = .next t_) : Canonical t_ := by
  rw [← next_inj h]
  repeat' first
    | with_reducible assumption
    | with_reducible
        first | apply opFlowLow_canon | apply powered_canon
    | split | intro _ | with_reducible refine Canonical.of_mk ?_ rfl rfl rfl rfl rfl

theorem execCoolantFlowCritical_canon (s : State) (t_ : State) (h_s : Canonical s) (h : execCoolantFlowCritical s = .next t_) : Canonical t_ := by
  rw [← next_inj h]
  repeat' first
    | with_reducible assumption
    | with_reducible
        first | apply holdNow_canon | apply powered_canon
    | split | intro _ | with_reducible refine Canonical.of_mk ?_ rfl rfl rfl rfl rfl

theorem execInletTemperatureHigh_canon (s : State) (t_ : State) (h_s : Canonical s) (h : execInletTemperatureHigh s = .next t_) : Canonical t_ := by
  rw [← next_inj h]
  repeat' first
    | with_reducible assumption
    | with_reducible
        first | apply opInletHigh_canon | apply powered_canon
    | split | intro _ | with_reducible refine Canonical.of_mk ?_ rfl rfl rfl rfl rfl

theorem execProfileDeparture_canon (s : State) (t_ : State) (h_s : Canonical s) (h : execProfileDeparture s = .next t_) : Canonical t_ := by
  rw [← next_inj h]
  repeat' first
    | with_reducible assumption
    | with_reducible
        first | apply opProfileDeparture_canon | apply powered_canon
    | split | intro _ | with_reducible refine Canonical.of_mk ?_ rfl rfl rfl rfl rfl

theorem execRetirement_canon (s : State) (t_ : State) (h_s : Canonical s) (h : execRetirement s = .next t_) : Canonical t_ := by
  rw [← next_inj h]
  repeat' first
    | with_reducible assumption
    | with_reducible
        first | apply opRetirement_canon | apply powered_canon
    | split | intro _ | with_reducible refine Canonical.of_mk ?_ rfl rfl rfl rfl rfl

theorem execRetireLogicalTile_canon (r : TileRef) (s : State) (t_ : State) (h_s : Canonical s)
      (h : execRetireLogicalTile r s = .next t_) : Canonical t_ := by
  rw [← next_inj h]
  repeat' first
    | with_reducible assumption
    | with_reducible
        first | apply opRetireTile_canon | apply powered_canon
    | split | intro _ | with_reducible refine Canonical.of_mk ?_ rfl rfl rfl rfl rfl

theorem execTightropeLinkReset_canon (e : Fin 4) (high : Bool) (s : State) (t_ : State) (h_s : Canonical s)
      (h : execTightropeLinkReset e high s = .next t_) : Canonical t_ := by
  rw [← next_inj h]
  repeat' first
    | with_reducible assumption
    | with_reducible
        first | apply opTightropeReset_canon | apply powered_canon
    | split | intro _ | with_reducible refine Canonical.of_mk ?_ rfl rfl rfl rfl rfl

theorem execTightropeTraining_canon (e : Fin 4) (s : State) (t_ : State) (h_s : Canonical s)
      (h : execTightropeTraining e s = .next t_) : Canonical t_ := by
  rw [← next_inj h]
  repeat' first
    | with_reducible assumption
    | with_reducible
        first | apply opTightropeTraining_canon | apply powered_canon
    | split | intro _ | with_reducible refine Canonical.of_mk ?_ rfl rfl rfl rfl rfl

theorem execHalfMaskAdvertisement_canon (e : Fin 4) (high : Bool) (mask : BitVec 2) (s : State) (t_ : State) (h_s : Canonical s)
      (h : execHalfMaskAdvertisement e high mask s = .next t_) : Canonical t_ := by
  rw [← next_inj h]
  repeat' first
    | with_reducible assumption
    | with_reducible
        first | apply opAdvertise_canon | apply powered_canon
    | split | intro _ | with_reducible refine Canonical.of_mk ?_ rfl rfl rfl rfl rfl

theorem execAdvertisementTimeout_canon (e : Fin 4) (s : State) (t_ : State) (h_s : Canonical s)
      (h : execAdvertisementTimeout e s = .next t_) : Canonical t_ := by
  rw [← next_inj h]
  repeat' first
    | with_reducible assumption
    | with_reducible
        first | apply opAdvertTimeout_canon | apply powered_canon
    | split | intro _ | with_reducible refine Canonical.of_mk ?_ rfl rfl rfl rfl rfl

theorem execTightropeFlit_canon (e : Fin 4) (high : Bool) (f : Flit) (s : State) (t_ : State) (h_s : Canonical s)
      (h : execTightropeFlit e high f s = .next t_) : Canonical t_ := by
  rw [← next_inj h]
  repeat' first
    | with_reducible assumption
    | with_reducible
        first | apply opTightropeFlit_canon | apply powered_canon
    | split | intro _ | with_reducible refine Canonical.of_mk ?_ rfl rfl rfl rfl rfl

theorem execHandOverReport_canon (e : Fin 4) (high : Bool) (s : State) (t_ : State) (h_s : Canonical s)
      (h : execHandOverReport e high s = .next t_) : Canonical t_ := by
  rw [← next_inj h]
  repeat' first
    | with_reducible assumption
    | with_reducible
        first | apply opHandOver_canon | apply powered_canon
    | split | intro _ | with_reducible refine Canonical.of_mk ?_ rfl rfl rfl rfl rfl

theorem execRetrainSelectedEdge_canon (d : Fin 4) (s : State) (t_ : State) (h_s : Canonical s)
      (h : execRetrainSelectedEdge d s = .next t_) : Canonical t_ := by
  rw [← next_inj h]
  repeat' first
    | with_reducible assumption
    | with_reducible
        first | apply opRetrainEdge_canon | apply powered_canon
    | split | intro _ | with_reducible refine Canonical.of_mk ?_ rfl rfl rfl rfl rfl

theorem execPwrgdAssert_canon (order : Bool) (s : State) (t_ : State) (h_s : Canonical s)
      (h : execPwrgdAssert order s = .next t_) : Canonical t_ := by
  rw [← next_inj h]
  repeat' first
    | with_reducible assumption | with_reducible (first | apply opPwrgd_canon) | split | intro _ | with_reducible refine Canonical.of_mk ?_ rfl rfl rfl rfl rfl

theorem execPwrgdFall_canon (s : State) (t_ : State) (h_s : Canonical s) (h : execPwrgdFall s = .next t_) : Canonical t_ := by
  rw [← next_inj h]
  repeat' first
    | with_reducible assumption | with_reducible (first | apply opPwrgdFall_canon) | split | intro _ | with_reducible refine Canonical.of_mk ?_ rfl rfl rfl rfl rfl

theorem execResetNAssert_canon (s : State) (t_ : State) (h_s : Canonical s) (h : execResetNAssert s = .next t_) : Canonical t_ := by
  rw [← next_inj h]
  repeat' first
    | with_reducible assumption | with_reducible (first | apply opResetN_canon) | split | intro _ | with_reducible refine Canonical.of_mk ?_ rfl rfl rfl rfl rfl

theorem execHoldupRead_canon (mv : BitVec 16) (s : State) (t_ : State) (h_s : Canonical s) (h : execHoldupRead mv s = .next t_) : Canonical t_ := by
  rw [← next_inj h]
  repeat' first
    | with_reducible assumption
    | with_reducible
        first | apply opHoldup_canon | apply powered_canon
    | split | intro _ | with_reducible refine Canonical.of_mk ?_ rfl rfl rfl rfl rfl

theorem execBoot_canon (f : BootFound) (s : State) (t_ : State) (h_s : Canonical s) (h : execBoot f s = .next t_) : Canonical t_ := by
  rw [← next_inj h]
  repeat' first
    | with_reducible assumption | with_reducible (first | apply opBoot_canon) | split | intro _ | with_reducible refine Canonical.of_mk ?_ rfl rfl rfl rfl rfl

theorem execDieReportTimeout_canon (d : Fin 4) (s : State) (t_ : State) (h_s : Canonical s)
      (h : execDieReportTimeout d s = .next t_) : Canonical t_ := by
  rw [← next_inj h]
  repeat' first
    | with_reducible assumption | with_reducible (first | apply opDieTimeout_canon) | split | intro _ | with_reducible refine Canonical.of_mk ?_ rfl rfl rfl rfl rfl

theorem execAttest_canon (arg : BitVec 24) (s : State) (t_ : State) (h_s : Canonical s) (h : execAttest arg s = .next t_) : Canonical t_ := by
  rw [← next_inj h]
  repeat' first
    | with_reducible assumption
    | with_reducible
        first | apply opAttest_canon | apply powered_canon
    | split | intro _ | with_reducible refine Canonical.of_mk ?_ rfl rfl rfl rfl rfl

theorem execLoad_canon (arg : BitVec 24) (s : State) (t_ : State) (h_s : Canonical s) (h : execLoad arg s = .next t_) : Canonical t_ := by
  rw [← next_inj h]
  repeat' first
    | with_reducible assumption
    | with_reducible
        first | apply opLoad_canon | apply powered_canon
    | split | intro _ | with_reducible refine Canonical.of_mk ?_ rfl rfl rfl rfl rfl

theorem execCommandOutcome_canon (s : State) (t_ : State) (h_s : Canonical s) (h : execCommandOutcome s = .next t_) : Canonical t_ := by
  rw [← next_inj h]
  repeat' first
    | with_reducible assumption
    | with_reducible
        first | apply opOutcome_canon | apply powered_canon
    | split | intro _ | with_reducible refine Canonical.of_mk ?_ rfl rfl rfl rfl rfl

theorem execRun_canon (arg : BitVec 24) (s : State) (t_ : State) (h_s : Canonical s) (h : execRun arg s = .next t_) : Canonical t_ := by
  rw [← next_inj h]
  repeat' first
    | with_reducible assumption
    | with_reducible
        first | apply opRun_canon | apply powered_canon
    | split | intro _ | with_reducible refine Canonical.of_mk ?_ rfl rfl rfl rfl rfl

theorem execHold_canon (arg : BitVec 24) (s : State) (t_ : State) (h_s : Canonical s) (h : execHold arg s = .next t_) : Canonical t_ := by
  rw [← next_inj h]
  repeat' first
    | with_reducible assumption
    | with_reducible
        first | apply opHold_canon | apply powered_canon
    | split | intro _ | with_reducible refine Canonical.of_mk ?_ rfl rfl rfl rfl rfl

theorem execResume_canon (arg : BitVec 24) (s : State) (t_ : State) (h_s : Canonical s) (h : execResume arg s = .next t_) : Canonical t_ := by
  rw [← next_inj h]
  repeat' first
    | with_reducible assumption
    | with_reducible
        first | apply opResume_canon | apply powered_canon
    | split | intro _ | with_reducible refine Canonical.of_mk ?_ rfl rfl rfl rfl rfl

theorem execRelease_canon (arg : BitVec 24) (s : State) (t_ : State) (h_s : Canonical s) (h : execRelease arg s = .next t_) : Canonical t_ := by
  rw [← next_inj h]
  repeat' first
    | with_reducible assumption
    | with_reducible
        first | apply opReleaseJob_canon | apply powered_canon
    | split | intro _ | with_reducible refine Canonical.of_mk ?_ rfl rfl rfl rfl rfl

theorem execAdopt_canon (arg : BitVec 24) (s : State) (t_ : State) (h_s : Canonical s) (h : execAdopt arg s = .next t_) : Canonical t_ := by
  rw [← next_inj h]
  repeat' first
    | with_reducible assumption
    | with_reducible
        first | apply opAdopt_canon | apply powered_canon
    | split | intro _ | with_reducible refine Canonical.of_mk ?_ rfl rfl rfl rfl rfl

theorem execStandby_canon (arg : BitVec 24) (s : State) (t_ : State) (h_s : Canonical s) (h : execStandby arg s = .next t_) : Canonical t_ := by
  rw [← next_inj h]
  repeat' first
    | with_reducible assumption
    | with_reducible
        first | apply opStandby_canon | apply powered_canon
    | split | intro _ | with_reducible refine Canonical.of_mk ?_ rfl rfl rfl rfl rfl

theorem execReset_canon (arg : BitVec 24) (s : State) (t_ : State) (h_s : Canonical s) (h : execReset arg s = .next t_) : Canonical t_ := by
  rw [← next_inj h]
  repeat' first
    | with_reducible assumption
    | with_reducible
        first | apply opReset_canon | apply powered_canon
    | split | intro _ | with_reducible refine Canonical.of_mk ?_ rfl rfl rfl rfl rfl

theorem execNext_canon (d : Fin 4) (c : Fin 8) (s : State) (t_ : State) (h_s : Canonical s) (h : execNext d c s = .next t_) : Canonical t_ := by
  rw [← next_inj h]
  repeat' first
    | with_reducible assumption
    | with_reducible
        first | apply opNext_canon | apply powered_canon
    | split | intro _ | with_reducible refine Canonical.of_mk ?_ rfl rfl rfl rfl rfl

theorem execPost_canon (d : Fin 4) (c : Fin 8) (item : BitVec 256) (s : State) (t_ : State) (h_s : Canonical s)
      (h : execPost d c item s = .next t_) : Canonical t_ := by
  rw [← next_inj h]
  repeat' first
    | with_reducible assumption
    | with_reducible
        first | apply opPost_canon | apply powered_canon
    | split | intro _ | with_reducible refine Canonical.of_mk ?_ rfl rfl rfl rfl rfl

theorem execDone_canon (d : Fin 4) (c : Fin 8) (s : State) (t_ : State) (h_s : Canonical s) (h : execDone d c s = .next t_) : Canonical t_ := by
  rw [← next_inj h]
  repeat' first
    | with_reducible assumption
    | with_reducible
        first | apply opDone_canon | apply powered_canon
    | split | intro _ | with_reducible refine Canonical.of_mk ?_ rfl rfl rfl rfl rfl

theorem execCorePortWait_canon (d : Fin 4) (c : Fin 8) (flow : BitVec 12) (s : State) (t_ : State) (h_s : Canonical s)
      (h : execCorePortWait d c flow s = .next t_) : Canonical t_ := by
  rw [← next_inj h]
  repeat' first
    | with_reducible assumption
    | with_reducible
        first | apply opCorePortWait_canon | apply powered_canon
    | split | intro _ | with_reducible refine Canonical.of_mk ?_ rfl rfl rfl rfl rfl

theorem execYield_canon (d : Fin 4) (c : Fin 8) (s : State) (t_ : State) (h_s : Canonical s) (h : execYield d c s = .next t_) : Canonical t_ := by
  rw [← next_inj h]
  repeat' first
    | with_reducible assumption
    | with_reducible
        first | apply opYield_canon | apply powered_canon
    | split | intro _ | with_reducible refine Canonical.of_mk ?_ rfl rfl rfl rfl rfl

theorem execSleep_canon (d : Fin 4) (c : Fin 8) (until_ : BitVec 64) (s : State) (t_ : State) (h_s : Canonical s)
      (h : execSleep d c until_ s = .next t_) : Canonical t_ := by
  rw [← next_inj h]
  repeat' first
    | with_reducible assumption
    | with_reducible
        first | apply opSleep_canon | apply powered_canon
    | split | intro _ | with_reducible refine Canonical.of_mk ?_ rfl rfl rfl rfl rfl

theorem execSleepExpiry_canon (d : Fin 4) (n : Fin 1024) (s : State) (t_ : State) (h_s : Canonical s)
      (h : execSleepExpiry d n s = .next t_) : Canonical t_ := by
  rw [← next_inj h]
  repeat' first
    | with_reducible assumption
    | with_reducible
        first | apply opSleepExpiry_canon | apply powered_canon
    | split | intro _ | with_reducible refine Canonical.of_mk ?_ rfl rfl rfl rfl rfl

theorem execThread_canon (d : Fin 4) (c : Fin 8) (supervisor : Bool) (w : BitVec 128) (s : State) (t_ : State) (h_s : Canonical s)
      (h : execThread d c supervisor w s = .next t_) : Canonical t_ := by
  rw [← next_inj h]
  repeat' first
    | with_reducible assumption
    | with_reducible
        first | apply opThread_canon | apply powered_canon
    | split | intro _ | with_reducible refine Canonical.of_mk ?_ rfl rfl rfl rfl rfl

theorem execFlow_canon (d : Fin 4) (c : Fin 8) (supervisor : Bool) (w : BitVec 128) (s : State) (t_ : State) (h_s : Canonical s)
      (h : execFlow d c supervisor w s = .next t_) : Canonical t_ := by
  rw [← next_inj h]
  repeat' first
    | with_reducible assumption
    | with_reducible
        first | apply opFlow_canon | apply powered_canon
    | split | intro _ | with_reducible refine Canonical.of_mk ?_ rfl rfl rfl rfl rfl

theorem execMachineCheck_canon (d : Fin 4) (c : Fin 8) (mcause : BitVec 32) (s : State) (t_ : State) (h_s : Canonical s)
      (h : execMachineCheck d c mcause s = .next t_) : Canonical t_ := by
  rw [← next_inj h]
  repeat' first
    | with_reducible assumption
    | with_reducible
        first | apply opMachineCheck_canon | apply powered_canon
    | split | intro _ | with_reducible refine Canonical.of_mk ?_ rfl rfl rfl rfl rfl

theorem execTelemetryTimer_canon (d : Fin 4) (tag : BitVec 16) (s : State) (t_ : State) (h_s : Canonical s)
      (h : execTelemetryTimer d tag s = .next t_) : Canonical t_ := by
  rw [← next_inj h]
  repeat' first
    | with_reducible assumption
    | with_reducible
        first | apply opTelemetryTimer_canon | apply powered_canon
    | split | intro _ | with_reducible refine Canonical.of_mk ?_ rfl rfl rfl rfl rfl

theorem execControlCoreAccess_canon (d : Fin 4) (c : Fin 8) (super : Bool) (addr : BitVec 57) (a : CoreAccess) (s : State) (t_ : State)
      (h_s : Canonical s) (h : execControlCoreAccess d c super addr a s = .next t_) : Canonical t_ := by
  unfold execControlCoreAccess at h
  split at h
  · rw [← next_inj h]
    exact opCoreAccess_canon _ _ _ _ _ _ _ h_s ‹_›
  · cases h

theorem execSramScrub_canon (r : TileRef) (fixed broken : List (Fin 262144)) (s : State) (t_ : State) (h_s : Canonical s)
      (h : execSramScrub r fixed broken s = .next t_) : Canonical t_ := by
  rw [← next_inj h]
  repeat' first
    | with_reducible assumption
    | with_reducible
        first | apply opSramScrub_canon | apply powered_canon
    | split | intro _ | with_reducible refine Canonical.of_mk ?_ rfl rfl rfl rfl rfl

theorem execPatrolScrub_canon (fixed broken : List (BitVec 35)) (s : State) (t_ : State) (h_s : Canonical s)
      (h : execPatrolScrub fixed broken s = .next t_) : Canonical t_ := by
  rw [← next_inj h]
  repeat' first
    | with_reducible assumption
    | with_reducible
        first | apply opPatrolScrub_canon | apply powered_canon
    | split | intro _ | with_reducible refine Canonical.of_mk ?_ rfl rfl rfl rfl rfl

theorem execNop_canon (r : TileRef) (w : WaitField) (s : State) (t_ : State) (h_s : Canonical s) (h : execNop r w s = .next t_) : Canonical t_ := by
  rw [← next_inj h]
  repeat' first
    | with_reducible assumption
    | with_reducible
        first | apply id_canon | apply issueTile_canon | apply powered_canon
    | split | intro _ | with_reducible refine Canonical.of_mk ?_ rfl rfl rfl rfl rfl

theorem execLoop_canon (r : TileRef) (w : WaitField) (lvl : Fin 4) (cnt : BitVec 16) (stop : BitVec 13) (s : State) (t_ : State) (h_s : Canonical s)
      (h : execLoop r w lvl cnt stop s = .next t_) : Canonical t_ := by
  rw [← next_inj h]
  repeat' first
    | with_reducible assumption
    | with_reducible
        first | apply effLoop_canon | apply issueTile_canon | apply powered_canon
    | split | intro _ | with_reducible refine Canonical.of_mk ?_ rfl rfl rfl rfl rfl

theorem execJump_canon (r : TileRef) (w : WaitField) (t : BitVec 13) (s : State) (t_ : State) (h_s : Canonical s)
      (h : execJump r w t s = .next t_) : Canonical t_ := by
  rw [← next_inj h]
  repeat' first
    | with_reducible assumption
    | with_reducible
        first | apply effJump_canon | apply issueTile_canon | apply powered_canon
    | split | intro _ | with_reducible refine Canonical.of_mk ?_ rfl rfl rfl rfl rfl

theorem execCall_canon (r : TileRef) (w : WaitField) (t : BitVec 13) (s : State) (t_ : State) (h_s : Canonical s)
      (h : execCall r w t s = .next t_) : Canonical t_ := by
  rw [← next_inj h]
  repeat' first
    | with_reducible assumption
    | with_reducible
        first | apply effCall_canon | apply issueTile_canon | apply powered_canon
    | split | intro _ | with_reducible refine Canonical.of_mk ?_ rfl rfl rfl rfl rfl

theorem execRet_canon (r : TileRef) (w : WaitField) (s : State) (t_ : State) (h_s : Canonical s) (h : execRet r w s = .next t_) : Canonical t_ := by
  rw [← next_inj h]
  repeat' first
    | with_reducible assumption
    | with_reducible
        first | apply effRet_canon | apply issueTile_canon | apply powered_canon
    | split | intro _ | with_reducible refine Canonical.of_mk ?_ rfl rfl rfl rfl rfl

theorem execBrm_canon (r : TileRef) (w : WaitField) (mbit : Fin 32) (sense : Bool) (t : BitVec 13) (s : State) (t_ : State) (h_s : Canonical s)
      (h : execBrm r w mbit sense t s = .next t_) : Canonical t_ := by
  rw [← next_inj h]
  repeat' first
    | with_reducible assumption
    | with_reducible
        first | apply effBrm_canon | apply issueTile_canon | apply powered_canon
    | split | intro _ | with_reducible refine Canonical.of_mk ?_ rfl rfl rfl rfl rfl

theorem execWait_canon (r : TileRef) (w : WaitField) (tk : Fin 64) (cnt : BitVec 16) (s : State) (t_ : State) (h_s : Canonical s)
      (h : execWait r w tk cnt s = .next t_) : Canonical t_ := by
  rw [← next_inj h]
  repeat' first
    | with_reducible assumption
    | with_reducible
        first | apply id_canon | apply issueTile_canon | apply powered_canon
    | split | intro _ | with_reducible refine Canonical.of_mk ?_ rfl rfl rfl rfl rfl

theorem execStepend_canon (r : TileRef) (w : WaitField) (s : State) (t_ : State) (h_s : Canonical s)
      (h : execStepend r w s = .next t_) : Canonical t_ := by
  rw [← next_inj h]
  repeat' first
    | with_reducible assumption
    | with_reducible
        first | apply effStepend_canon | apply issueTile_canon | apply powered_canon
    | split | intro _ | with_reducible refine Canonical.of_mk ?_ rfl rfl rfl rfl rfl

theorem execSetp_canon (r : TileRef) (w : WaitField) (pn : Fin 16) (imm : BitVec 21) (s : State) (t_ : State) (h_s : Canonical s)
      (h : execSetp r w pn imm s = .next t_) : Canonical t_ := by
  rw [← next_inj h]
  repeat' first
    | with_reducible assumption
    | with_reducible
        first | apply effSetp_canon | apply issueTile_canon | apply powered_canon
    | split | intro _ | with_reducible refine Canonical.of_mk ?_ rfl rfl rfl rfl rfl

theorem execAddp_canon (r : TileRef) (w : WaitField) (pn : Fin 16) (simm : BitVec 21) (s : State) (t_ : State) (h_s : Canonical s)
      (h : execAddp r w pn simm s = .next t_) : Canonical t_ := by
  rw [← next_inj h]
  repeat' first
    | with_reducible assumption
    | with_reducible
        first | apply effAddp_canon | apply issueTile_canon | apply powered_canon
    | split | intro _ | with_reducible refine Canonical.of_mk ?_ rfl rfl rfl rfl rfl

theorem execSetx_canon (r : TileRef) (w : WaitField) (xn : Fin 8) (sl : Fin 4) (imm : BitVec 16) (s : State) (t_ : State) (h_s : Canonical s)
      (h : execSetx r w xn sl imm s = .next t_) : Canonical t_ := by
  rw [← next_inj h]
  repeat' first
    | with_reducible assumption
    | with_reducible
        first | apply effSetx_canon | apply issueTile_canon | apply powered_canon
    | split | intro _ | with_reducible refine Canonical.of_mk ?_ rfl rfl rfl rfl rfl

theorem execAddx_canon (r : TileRef) (w : WaitField) (xn : Fin 8) (simm : BitVec 32) (s : State) (t_ : State) (h_s : Canonical s)
      (h : execAddx r w xn simm s = .next t_) : Canonical t_ := by
  rw [← next_inj h]
  repeat' first
    | with_reducible assumption
    | with_reducible
        first | apply effAddx_canon | apply issueTile_canon | apply powered_canon
    | split | intro _ | with_reducible refine Canonical.of_mk ?_ rfl rfl rfl rfl rfl

theorem execLdw_canon (r : TileRef) (w : WaitField) (a : LdwArgs) (s : State) (t_ : State) (h_s : Canonical s)
      (h : execLdw r w a s = .next t_) : Canonical t_ := by
  rw [← next_inj h]
  repeat' first
    | with_reducible assumption
    | with_reducible
        first | apply effLdw_canon | apply issueTile_canon | apply powered_canon
    | split | intro _ | with_reducible refine Canonical.of_mk ?_ rfl rfl rfl rfl rfl

theorem execMm_canon (r : TileRef) (w : WaitField) (a : MmArgs) (s : State) (t_ : State) (h_s : Canonical s)
      (h : execMm r w a s = .next t_) : Canonical t_ := by
  rw [← next_inj h]
  repeat' first
    | with_reducible assumption
    | with_reducible
        first | apply effMm_canon | apply issueTile_canon | apply powered_canon
    | split | intro _ | with_reducible refine Canonical.of_mk ?_ rfl rfl rfl rfl rfl

theorem execGopen_canon (r : TileRef) (w : WaitField) (a : GroupArgs) (s : State) (t_ : State) (h_s : Canonical s)
      (h : execGopen r w a s = .next t_) : Canonical t_ := by
  rw [← next_inj h]
  repeat' first
    | with_reducible assumption
    | with_reducible
        first | apply effGopen_canon | apply issueTile_canon | apply powered_canon
    | split | intro _ | with_reducible refine Canonical.of_mk ?_ rfl rfl rfl rfl rfl

theorem execGclose_canon (r : TileRef) (w : WaitField) (a : GroupArgs) (s : State) (t_ : State) (h_s : Canonical s)
      (h : execGclose r w a s = .next t_) : Canonical t_ := by
  rw [← next_inj h]
  repeat' first
    | with_reducible assumption
    | with_reducible
        first | apply effGclose_canon | apply issueTile_canon | apply powered_canon
    | split | intro _ | with_reducible refine Canonical.of_mk ?_ rfl rfl rfl rfl rfl

theorem execGspill_canon (r : TileRef) (w : WaitField) (a : GroupArgs) (s : State) (t_ : State) (h_s : Canonical s)
      (h : execGspill r w a s = .next t_) : Canonical t_ := by
  rw [← next_inj h]
  repeat' first
    | with_reducible assumption
    | with_reducible
        first | apply effGspill_canon | apply issueTile_canon | apply powered_canon
    | split | intro _ | with_reducible refine Canonical.of_mk ?_ rfl rfl rfl rfl rfl

theorem execGfill_canon (r : TileRef) (w : WaitField) (a : GroupArgs) (s : State) (t_ : State) (h_s : Canonical s)
      (h : execGfill r w a s = .next t_) : Canonical t_ := by
  rw [← next_inj h]
  repeat' first
    | with_reducible assumption
    | with_reducible
        first | apply effGfill_canon | apply issueTile_canon | apply powered_canon
    | split | intro _ | with_reducible refine Canonical.of_mk ?_ rfl rfl rfl rfl rfl

theorem execGdrop_canon (r : TileRef) (w : WaitField) (a : GroupArgs) (s : State) (t_ : State) (h_s : Canonical s)
      (h : execGdrop r w a s = .next t_) : Canonical t_ := by
  rw [← next_inj h]
  repeat' first
    | with_reducible assumption
    | with_reducible
        first | apply effGdrop_canon | apply issueTile_canon | apply powered_canon
    | split | intro _ | with_reducible refine Canonical.of_mk ?_ rfl rfl rfl rfl rfl

theorem execMov_canon (r : TileRef) (w : WaitField) (a : VopArgs) (s : State) (t_ : State) (h_s : Canonical s)
      (h : execMov r w a s = .next t_) : Canonical t_ := by
  rw [← next_inj h]
  repeat' first
    | with_reducible assumption
    | with_reducible
        first | apply effMov_canon | apply issueTile_canon | apply powered_canon
    | split | intro _ | with_reducible refine Canonical.of_mk ?_ rfl rfl rfl rfl rfl

theorem execAdd_canon (r : TileRef) (w : WaitField) (a : VopArgs) (s : State) (t_ : State) (h_s : Canonical s)
      (h : execAdd r w a s = .next t_) : Canonical t_ := by
  rw [← next_inj h]
  repeat' first
    | with_reducible assumption
    | with_reducible
        first | apply effAdd_canon | apply issueTile_canon | apply powered_canon
    | split | intro _ | with_reducible refine Canonical.of_mk ?_ rfl rfl rfl rfl rfl

theorem execSub_canon (r : TileRef) (w : WaitField) (a : VopArgs) (s : State) (t_ : State) (h_s : Canonical s)
      (h : execSub r w a s = .next t_) : Canonical t_ := by
  rw [← next_inj h]
  repeat' first
    | with_reducible assumption
    | with_reducible
        first | apply effSub_canon | apply issueTile_canon | apply powered_canon
    | split | intro _ | with_reducible refine Canonical.of_mk ?_ rfl rfl rfl rfl rfl

theorem execMul_canon (r : TileRef) (w : WaitField) (a : VopArgs) (s : State) (t_ : State) (h_s : Canonical s)
      (h : execMul r w a s = .next t_) : Canonical t_ := by
  rw [← next_inj h]
  repeat' first
    | with_reducible assumption
    | with_reducible
        first | apply effMul_canon | apply issueTile_canon | apply powered_canon
    | split | intro _ | with_reducible refine Canonical.of_mk ?_ rfl rfl rfl rfl rfl

theorem execFma_canon (r : TileRef) (w : WaitField) (a : VopArgs) (s : State) (t_ : State) (h_s : Canonical s)
      (h : execFma r w a s = .next t_) : Canonical t_ := by
  rw [← next_inj h]
  repeat' first
    | with_reducible assumption
    | with_reducible
        first | apply effFma_canon | apply issueTile_canon | apply powered_canon
    | split | intro _ | with_reducible refine Canonical.of_mk ?_ rfl rfl rfl rfl rfl

theorem execMax_canon (r : TileRef) (w : WaitField) (a : VopArgs) (s : State) (t_ : State) (h_s : Canonical s)
      (h : execMax r w a s = .next t_) : Canonical t_ := by
  rw [← next_inj h]
  repeat' first
    | with_reducible assumption
    | with_reducible
        first | apply effMax_canon | apply issueTile_canon | apply powered_canon
    | split | intro _ | with_reducible refine Canonical.of_mk ?_ rfl rfl rfl rfl rfl

theorem execMin_canon (r : TileRef) (w : WaitField) (a : VopArgs) (s : State) (t_ : State) (h_s : Canonical s)
      (h : execMin r w a s = .next t_) : Canonical t_ := by
  rw [← next_inj h]
  repeat' first
    | with_reducible assumption
    | with_reducible
        first | apply effMin_canon | apply issueTile_canon | apply powered_canon
    | split | intro _ | with_reducible refine Canonical.of_mk ?_ rfl rfl rfl rfl rfl

theorem execAbs_canon (r : TileRef) (w : WaitField) (a : VopArgs) (s : State) (t_ : State) (h_s : Canonical s)
      (h : execAbs r w a s = .next t_) : Canonical t_ := by
  rw [← next_inj h]
  repeat' first
    | with_reducible assumption
    | with_reducible
        first | apply effAbs_canon | apply issueTile_canon | apply powered_canon
    | split | intro _ | with_reducible refine Canonical.of_mk ?_ rfl rfl rfl rfl rfl

theorem execNeg_canon (r : TileRef) (w : WaitField) (a : VopArgs) (s : State) (t_ : State) (h_s : Canonical s)
      (h : execNeg r w a s = .next t_) : Canonical t_ := by
  rw [← next_inj h]
  repeat' first
    | with_reducible assumption
    | with_reducible
        first | apply effNeg_canon | apply issueTile_canon | apply powered_canon
    | split | intro _ | with_reducible refine Canonical.of_mk ?_ rfl rfl rfl rfl rfl

theorem execCmpgt_canon (r : TileRef) (w : WaitField) (a : VopArgs) (s : State) (t_ : State) (h_s : Canonical s)
      (h : execCmpgt r w a s = .next t_) : Canonical t_ := by
  rw [← next_inj h]
  repeat' first
    | with_reducible assumption
    | with_reducible
        first | apply effCmpgt_canon | apply issueTile_canon | apply powered_canon
    | split | intro _ | with_reducible refine Canonical.of_mk ?_ rfl rfl rfl rfl rfl

theorem execCvt_canon (r : TileRef) (w : WaitField) (a : VopArgs) (s : State) (t_ : State) (h_s : Canonical s)
      (h : execCvt r w a s = .next t_) : Canonical t_ := by
  rw [← next_inj h]
  repeat' first
    | with_reducible assumption
    | with_reducible
        first | apply effCvt_canon | apply issueTile_canon | apply powered_canon
    | split | intro _ | with_reducible refine Canonical.of_mk ?_ rfl rfl rfl rfl rfl

theorem execRsum_canon (r : TileRef) (w : WaitField) (a : VopArgs) (s : State) (t_ : State) (h_s : Canonical s)
      (h : execRsum r w a s = .next t_) : Canonical t_ := by
  rw [← next_inj h]
  repeat' first
    | with_reducible assumption
    | with_reducible
        first | apply effRsum_canon | apply issueTile_canon | apply powered_canon
    | split | intro _ | with_reducible refine Canonical.of_mk ?_ rfl rfl rfl rfl rfl

theorem execRmax_canon (r : TileRef) (w : WaitField) (a : VopArgs) (s : State) (t_ : State) (h_s : Canonical s)
      (h : execRmax r w a s = .next t_) : Canonical t_ := by
  rw [← next_inj h]
  repeat' first
    | with_reducible assumption
    | with_reducible
        first | apply effRmax_canon | apply issueTile_canon | apply powered_canon
    | split | intro _ | with_reducible refine Canonical.of_mk ?_ rfl rfl rfl rfl rfl

theorem execExp_canon (r : TileRef) (w : WaitField) (a : VopArgs) (s : State) (t_ : State) (h_s : Canonical s)
      (h : execExp r w a s = .next t_) : Canonical t_ := by
  rw [← next_inj h]
  repeat' first
    | with_reducible assumption
    | with_reducible
        first | apply effSpecial_canon | apply issueTile_canon | apply powered_canon
    | split | intro _ | with_reducible refine Canonical.of_mk ?_ rfl rfl rfl rfl rfl

theorem execExp2_canon (r : TileRef) (w : WaitField) (a : VopArgs) (s : State) (t_ : State) (h_s : Canonical s)
      (h : execExp2 r w a s = .next t_) : Canonical t_ := by
  rw [← next_inj h]
  repeat' first
    | with_reducible assumption
    | with_reducible
        first | apply effSpecial_canon | apply issueTile_canon | apply powered_canon
    | split | intro _ | with_reducible refine Canonical.of_mk ?_ rfl rfl rfl rfl rfl

theorem execLog_canon (r : TileRef) (w : WaitField) (a : VopArgs) (s : State) (t_ : State) (h_s : Canonical s)
      (h : execLog r w a s = .next t_) : Canonical t_ := by
  rw [← next_inj h]
  repeat' first
    | with_reducible assumption
    | with_reducible
        first | apply effSpecial_canon | apply issueTile_canon | apply powered_canon
    | split | intro _ | with_reducible refine Canonical.of_mk ?_ rfl rfl rfl rfl rfl

theorem execLog2_canon (r : TileRef) (w : WaitField) (a : VopArgs) (s : State) (t_ : State) (h_s : Canonical s)
      (h : execLog2 r w a s = .next t_) : Canonical t_ := by
  rw [← next_inj h]
  repeat' first
    | with_reducible assumption
    | with_reducible
        first | apply effSpecial_canon | apply issueTile_canon | apply powered_canon
    | split | intro _ | with_reducible refine Canonical.of_mk ?_ rfl rfl rfl rfl rfl

theorem execRcp_canon (r : TileRef) (w : WaitField) (a : VopArgs) (s : State) (t_ : State) (h_s : Canonical s)
      (h : execRcp r w a s = .next t_) : Canonical t_ := by
  rw [← next_inj h]
  repeat' first
    | with_reducible assumption
    | with_reducible
        first | apply effRcp_canon | apply issueTile_canon | apply powered_canon
    | split | intro _ | with_reducible refine Canonical.of_mk ?_ rfl rfl rfl rfl rfl

theorem execSqrt_canon (r : TileRef) (w : WaitField) (a : VopArgs) (s : State) (t_ : State) (h_s : Canonical s)
      (h : execSqrt r w a s = .next t_) : Canonical t_ := by
  rw [← next_inj h]
  repeat' first
    | with_reducible assumption
    | with_reducible
        first | apply effSqrt_canon | apply issueTile_canon | apply powered_canon
    | split | intro _ | with_reducible refine Canonical.of_mk ?_ rfl rfl rfl rfl rfl

theorem execRsqrt_canon (r : TileRef) (w : WaitField) (a : VopArgs) (s : State) (t_ : State) (h_s : Canonical s)
      (h : execRsqrt r w a s = .next t_) : Canonical t_ := by
  rw [← next_inj h]
  repeat' first
    | with_reducible assumption
    | with_reducible
        first | apply effSpecial_canon | apply issueTile_canon | apply powered_canon
    | split | intro _ | with_reducible refine Canonical.of_mk ?_ rfl rfl rfl rfl rfl

theorem execTanh_canon (r : TileRef) (w : WaitField) (a : VopArgs) (s : State) (t_ : State) (h_s : Canonical s)
      (h : execTanh r w a s = .next t_) : Canonical t_ := by
  rw [← next_inj h]
  repeat' first
    | with_reducible assumption
    | with_reducible
        first | apply effSpecial_canon | apply issueTile_canon | apply powered_canon
    | split | intro _ | with_reducible refine Canonical.of_mk ?_ rfl rfl rfl rfl rfl

theorem execSigm_canon (r : TileRef) (w : WaitField) (a : VopArgs) (s : State) (t_ : State) (h_s : Canonical s)
      (h : execSigm r w a s = .next t_) : Canonical t_ := by
  rw [← next_inj h]
  repeat' first
    | with_reducible assumption
    | with_reducible
        first | apply effSpecial_canon | apply issueTile_canon | apply powered_canon
    | split | intro _ | with_reducible refine Canonical.of_mk ?_ rfl rfl rfl rfl rfl

theorem execErf_canon (r : TileRef) (w : WaitField) (a : VopArgs) (s : State) (t_ : State) (h_s : Canonical s)
      (h : execErf r w a s = .next t_) : Canonical t_ := by
  rw [← next_inj h]
  repeat' first
    | with_reducible assumption
    | with_reducible
        first | apply effSpecial_canon | apply issueTile_canon | apply powered_canon
    | split | intro _ | with_reducible refine Canonical.of_mk ?_ rfl rfl rfl rfl rfl

theorem execSin_canon (r : TileRef) (w : WaitField) (a : VopArgs) (s : State) (t_ : State) (h_s : Canonical s)
      (h : execSin r w a s = .next t_) : Canonical t_ := by
  rw [← next_inj h]
  repeat' first
    | with_reducible assumption
    | with_reducible
        first | apply effSpecial_canon | apply issueTile_canon | apply powered_canon
    | split | intro _ | with_reducible refine Canonical.of_mk ?_ rfl rfl rfl rfl rfl

theorem execCos_canon (r : TileRef) (w : WaitField) (a : VopArgs) (s : State) (t_ : State) (h_s : Canonical s)
      (h : execCos r w a s = .next t_) : Canonical t_ := by
  rw [← next_inj h]
  repeat' first
    | with_reducible assumption
    | with_reducible
        first | apply effSpecial_canon | apply issueTile_canon | apply powered_canon
    | split | intro _ | with_reducible refine Canonical.of_mk ?_ rfl rfl rfl rfl rfl

theorem execLdq_canon (r : TileRef) (w : WaitField) (a : VopArgs) (s : State) (t_ : State) (h_s : Canonical s)
      (h : execLdq r w a s = .next t_) : Canonical t_ := by
  rw [← next_inj h]
  repeat' first
    | with_reducible assumption
    | with_reducible
        first | apply effLdq_canon | apply issueTile_canon | apply powered_canon
    | split | intro _ | with_reducible refine Canonical.of_mk ?_ rfl rfl rfl rfl rfl

theorem execRunTestSuites_canon (mask : BitVec 16) (s : State) (t_ : State) (h_s : Canonical s)
      (h : execRunTestSuites mask s = .next t_) : Canonical t_ := by
  rw [← next_inj h]
  repeat' first
    | with_reducible assumption
    | with_reducible
        first | apply opRunSuites_canon | apply powered_canon
    | split | intro _ | with_reducible refine Canonical.of_mk ?_ rfl rfl rfl rfl rfl

theorem execTestRunComplete_canon (suites : BitVec 10) (dies : BitVec 4) (s : State) (t_ : State) (h_s : Canonical s)
      (h : execTestRunComplete suites dies s = .next t_) : Canonical t_ := by
  rw [← next_inj h]
  repeat' first
    | with_reducible assumption
    | with_reducible
        first | apply opTestRun_canon | apply powered_canon
    | split | intro _ | with_reducible refine Canonical.of_mk ?_ rfl rfl rfl rfl rfl

theorem execClearCounters_canon (d : Fin 4) (one : Bool) (s : State) (t_ : State) (h_s : Canonical s)
      (h : execClearCounters d one s = .next t_) : Canonical t_ := by
  rw [← next_inj h]
  repeat' first
    | with_reducible assumption
    | with_reducible
        first | apply opClear_canon | apply powered_canon
    | split | intro _ | with_reducible refine Canonical.of_mk ?_ rfl rfl rfl rfl rfl

theorem execTrstN_canon (s : State) (t_ : State) (h_s : Canonical s) (h : execTrstN s = .next t_) : Canonical t_ := by
  rw [← next_inj h]
  repeat' first
    | with_reducible assumption | with_reducible (first | apply opTrst_canon) | split | intro _ | with_reducible refine Canonical.of_mk ?_ rfl rfl rfl rfl rfl

theorem execBypass_canon (d : Fin 4) (s : State) (t_ : State) (h_s : Canonical s) (h : execBypass d s = .next t_) : Canonical t_ := by
  rw [← next_inj h]
  repeat' first
    | with_reducible assumption | with_reducible (first | apply opBypass_canon) | split | intro _ | with_reducible refine Canonical.of_mk ?_ rfl rfl rfl rfl rfl

theorem execIdcode_canon (d : Fin 4) (s : State) (t_ : State) (h_s : Canonical s) (h : execIdcode d s = .next t_) : Canonical t_ := by
  rw [← next_inj h]
  repeat' first
    | with_reducible assumption | with_reducible (first | apply opIdcode_canon) | split | intro _ | with_reducible refine Canonical.of_mk ?_ rfl rfl rfl rfl rfl

theorem execSamplePreload_canon (d : Fin 4) (sampled preload : BitVec 26) (s : State) (t_ : State) (h_s : Canonical s)
      (h : execSamplePreload d sampled preload s = .next t_) : Canonical t_ := by
  rw [← next_inj h]
  repeat' first
    | with_reducible assumption | with_reducible (first | apply opSample_canon) | split | intro _ | with_reducible refine Canonical.of_mk ?_ rfl rfl rfl rfl rfl

theorem execExtest_canon (d : Fin 4) (sampled preload : BitVec 26) (s : State) (t_ : State) (h_s : Canonical s)
      (h : execExtest d sampled preload s = .next t_) : Canonical t_ := by
  rw [← next_inj h]
  repeat' first
    | with_reducible assumption | with_reducible (first | apply opExtest_canon) | split | intro _ | with_reducible refine Canonical.of_mk ?_ rfl rfl rfl rfl rfl

theorem execClamp_canon (d : Fin 4) (s : State) (t_ : State) (h_s : Canonical s) (h : execClamp d s = .next t_) : Canonical t_ := by
  rw [← next_inj h]
  repeat' first
    | with_reducible assumption | with_reducible (first | apply opBypass_canon) | split | intro _ | with_reducible refine Canonical.of_mk ?_ rfl rfl rfl rfl rfl

theorem execTrunkread_canon (d : Fin 4) (seq : BitVec 64) (soon : Bool) (s : State) (t_ : State) (h_s : Canonical s)
      (h : execTrunkread d seq soon s = .next t_) : Canonical t_ := by
  rw [← next_inj h]
  repeat' first
    | with_reducible assumption | with_reducible (first | apply opTrunkread_canon) | split | intro _ | with_reducible refine Canonical.of_mk ?_ rfl rfl rfl rfl rfl

theorem execRegisterWrite_canon (index : BitVec 16) (sub : BitVec 8) (value : List Byte) (s : State) (t_ : State) (h_s : Canonical s)
      (h : execRegisterWrite index sub value s = .next t_) : Canonical t_ := by
  rw [← next_inj h]
  repeat' first
    | with_reducible assumption
    | with_reducible
        first | apply opRegisterWrite_canon | apply powered_canon
    | split | intro _ | with_reducible refine Canonical.of_mk ?_ rfl rfl rfl rfl rfl

theorem execTarvyRead_canon (src : Source) (frame : List Byte) (s : State) (t_ : State) (h_s : Canonical s)
      (h : execTarvyRead src frame s = .next t_) : Canonical t_ := by
  rw [← next_inj h]
  repeat' first
    | with_reducible assumption
    | with_reducible
        first | apply frameArrives_canon | apply opRead_canon | apply powered_canon
    | split | intro _ | with_reducible refine Canonical.of_mk ?_ rfl rfl rfl rfl rfl

theorem execTarvyWrite_canon (src : Source) (frame : List Byte) (s : State) (t_ : State) (h_s : Canonical s)
      (h : execTarvyWrite src frame s = .next t_) : Canonical t_ := by
  rw [← next_inj h]
  repeat' first
    | with_reducible assumption
    | with_reducible
        first | apply frameArrives_canon | apply opWrite_canon | apply powered_canon
    | split | intro _ | with_reducible refine Canonical.of_mk ?_ rfl rfl rfl rfl rfl

theorem execEcho_canon (src : Source) (frame : List Byte) (s : State) (t_ : State) (h_s : Canonical s)
      (h : execEcho src frame s = .next t_) : Canonical t_ := by
  rw [← next_inj h]
  repeat' first
    | with_reducible assumption
    | with_reducible
        first | apply frameArrives_canon | apply opEcho_canon | apply powered_canon
    | split | intro _ | with_reducible refine Canonical.of_mk ?_ rfl rfl rfl rfl rfl

theorem execSnapshotRelease_canon (src : Source) (txid : BitVec 32) (s : State) (t_ : State) (h_s : Canonical s)
      (h : execSnapshotRelease src txid s = .next t_) : Canonical t_ := by
  rw [← next_inj h]
  repeat' first
    | with_reducible assumption
    | with_reducible
        first | apply opSnapshotRelease_canon | apply powered_canon
    | split | intro _ | with_reducible refine Canonical.of_mk ?_ rfl rfl rfl rfl rfl

theorem execStagingDiscard_canon (src : Source) (txid : BitVec 32) (s : State) (t_ : State) (h_s : Canonical s)
      (h : execStagingDiscard src txid s = .next t_) : Canonical t_ := by
  rw [← next_inj h]
  repeat' first
    | with_reducible assumption
    | with_reducible
        first | apply dropStage_canon | apply powered_canon
    | split | intro _ | with_reducible refine Canonical.of_mk ?_ rfl rfl rfl rfl rfl

theorem execEventFrameSend_canon (s : State) (t_ : State) (h_s : Canonical s) (h : execEventFrameSend s = .next t_) : Canonical t_ := by
  rw [← next_inj h]
  repeat' first
    | with_reducible assumption
    | with_reducible
        first | apply opEventSend_canon | apply powered_canon
    | split | intro _ | with_reducible refine Canonical.of_mk ?_ rfl rfl rfl rfl rfl

theorem execEventFrameResend_canon (number : BitVec 32) (s : State) (t_ : State) (h_s : Canonical s)
      (h : execEventFrameResend number s = .next t_) : Canonical t_ := by
  rw [← next_inj h]
  repeat' first
    | with_reducible assumption
    | with_reducible
        first | apply opEventResend_canon | apply powered_canon
    | split | intro _ | with_reducible refine Canonical.of_mk ?_ rfl rfl rfl rfl rfl

theorem execEventAck_canon (src : Source) (frame : List Byte) (s : State) (t_ : State) (h_s : Canonical s)
      (h : execEventAck src frame s = .next t_) : Canonical t_ := by
  rw [← next_inj h]
  repeat' first
    | with_reducible assumption
    | with_reducible
        first | apply frameArrives_canon | apply opEventAck_canon | apply powered_canon
    | split | intro _ | with_reducible refine Canonical.of_mk ?_ rfl rfl rfl rfl rfl

theorem execM0LinkLoss_canon (s : State) (t_ : State) (h_s : Canonical s) (h : execM0LinkLoss s = .next t_) : Canonical t_ := by
  rw [← next_inj h]
  repeat' first
    | with_reducible assumption
    | with_reducible
        first | apply modTarvy_canon | apply powered_canon
    | split | intro _ | with_reducible refine Canonical.of_mk ?_ rfl rfl rfl rfl rfl

theorem execM0LinkRegain_canon (s : State) (t_ : State) (h_s : Canonical s) (h : execM0LinkRegain s = .next t_) : Canonical t_ := by
  rw [← next_inj h]
  repeat' first
    | with_reducible assumption
    | with_reducible
        first | apply modTarvy_canon | apply powered_canon
    | split | intro _ | with_reducible refine Canonical.of_mk ?_ rfl rfl rfl rfl rfl

end Sys2Proof.Machine
end

