-- ==== Sys2Proof/Laws/TileWord.lean ====
section
/-!
SUPPORT. The fields of a tile instruction word (R64 to R94): what packing writes, extraction reads, for every operation.
-/

namespace Sys2Proof.Machine

/-- Bits of a run of fields. -/
def fieldBits (fs : List (Nat × Nat)) : Nat := (fs.map (fun f => f.1)).sum

theorem packFrom (fs : List (Nat × Nat)) (a : Nat) :
    fs.foldl (fun acc f => acc * 2 ^ f.1 + f.2 % 2 ^ f.1) a = a * 2 ^ fieldBits fs + packFields fs := by
  induction fs generalizing a with
  | nil => simp [fieldBits, packFields]
  | cons f fs ih =>
    unfold packFields
    rw [List.foldl_cons, List.foldl_cons, ih, ih (0 * 2 ^ f.1 + f.2 % 2 ^ f.1)]
    have : fieldBits (f :: fs) = f.1 + fieldBits fs := by simp [fieldBits]
    rw [this, pow_add]
    ring

theorem packFields_cons (f : Nat × Nat) (fs : List (Nat × Nat)) :
    packFields (f :: fs) = f.2 % 2 ^ f.1 * 2 ^ fieldBits fs + packFields fs := by
  conv_lhs => unfold packFields
  rw [List.foldl_cons, packFrom]
  simp

theorem packFields_lt (fs : List (Nat × Nat)) : packFields fs < 2 ^ fieldBits fs := by
  induction fs with
  | nil => simp [fieldBits, packFields]
  | cons f fs ih =>
    rw [packFields_cons]
    have : fieldBits (f :: fs) = f.1 + fieldBits fs := by simp [fieldBits]
    rw [this, pow_add]
    have h := Nat.mod_lt f.2 (Nat.two_pow_pos f.1)
    calc f.2 % 2 ^ f.1 * 2 ^ fieldBits fs + packFields fs < f.2 % 2 ^ f.1 * 2 ^ fieldBits fs + 2 ^ fieldBits fs := by omega
      _ = (f.2 % 2 ^ f.1 + 1) * 2 ^ fieldBits fs := by ring
      _ ≤ 2 ^ f.1 * 2 ^ fieldBits fs := Nat.mul_le_mul_right _ h

/-- A field of a packed word reads as it was packed. -/
theorem packFields_field (as bs : List (Nat × Nat)) (w v : Nat) :
    packFields (as ++ (w, v) :: bs) / 2 ^ fieldBits bs % 2 ^ w = v % 2 ^ w := by
  induction as with
  | nil =>
    rw [List.nil_append, packFields_cons]
    have h := packFields_lt bs
    rw [Nat.add_comm, Nat.add_mul_div_right _ _ (Nat.two_pow_pos _), Nat.div_eq_of_lt h, Nat.zero_add, Nat.mod_mod]
  | cons a as ih =>
    rw [List.cons_append, packFields_cons]
    have : fieldBits (as ++ (w, v) :: bs) = fieldBits as + w + fieldBits bs := by simp [fieldBits]; omega
    rw [this, pow_add, ← Nat.mul_assoc, Nat.add_comm, Nat.add_mul_div_right _ _ (Nat.two_pow_pos _), pow_add, ← Nat.mul_assoc,
      Nat.add_mul_mod_self_right]
    exact ih

/-- Bits `hi:lo` of a packed word are the field that lies there. -/
theorem bitField_pack (as bs : List (Nat × Nat)) (w v hi lo : Nat) (h1 : fieldBits bs = lo) (h2 : hi + 1 - lo = w) :
    bitField (packFields (as ++ (w, v) :: bs)) hi lo = v % 2 ^ w := by
  unfold bitField
  rw [Nat.shiftRight_eq_div_pow, h2, ← h1]
  exact packFields_field as bs w v

theorem bitField_pack_at (fs : List (Nat × Nat)) (i w v hi lo : Nat) (h : fs[i]? = some (w, v)) (h1 : fieldBits (fs.drop (i + 1)) = lo) (h2 : hi + 1 - lo = w) :
    bitField (packFields fs) hi lo = v % 2 ^ w := by
  have e : fs = fs.take i ++ (w, v) :: fs.drop (i + 1) := by
    have hi : i < fs.length := by
      by_contra hn
      rw [List.getElem?_eq_none (by omega)] at h
      cases h
    have := List.getElem?_eq_getElem hi
    rw [h] at this
    have hv : (w, v) = fs[i] := Option.some.inj this
    rw [hv, List.cons_getElem_drop_succ, List.take_append_drop]
  rw [e]
  exact bitField_pack _ _ w v hi lo h1 h2
theorem bitAt_field (n i : Nat) : bitAt n i = (bitField n i i == 1) := by
  unfold bitAt bitField
  rw [Nat.add_sub_cancel_left, pow_one]

theorem ofNat_fin {m : Nat} [NeZero m] (v : Fin m) : Fin.ofNat m v.val = v := by
  apply Fin.ext
  exact Nat.mod_eq_of_lt v.isLt


theorem decode_nop  (b k : Nat) :
    decodeTileOp (packFields ((4, 0) :: (4, 0) :: (1, b) :: (6, k) :: tileOpFields (.nop))) = some (.nop) := by
  obtain ⟨n, hn⟩ : ∃ n, n = packFields ((4, 0) :: (4, 0) :: (1, b) :: (6, k) :: tileOpFields (.nop)) := ⟨_, rfl⟩
  rw [← hn]
  have c1 : bitField n 63 60 = 0 := (hn ▸ bitField_pack_at _ 0 4 _ 63 60 rfl rfl rfl).trans rfl
  have c2 : bitField n 59 56 = 0 := (hn ▸ bitField_pack_at _ 1 4 _ 59 56 rfl rfl rfl).trans rfl
  have f0 : bitField n 48 0 = 0 := (hn ▸ bitField_pack_at _ 4 49 _ 48 0 rfl rfl rfl).trans rfl
  simp only [decodeTileOp, decodeClass0, zeroBits, c1, c2, f0, if_true]

theorem decode_loop (lvl : Fin 4) (cnt : BitVec 16) (stop : BitVec 13) (b k : Nat) :
    decodeTileOp (packFields ((4, 0) :: (4, 1) :: (1, b) :: (6, k) :: tileOpFields (.loop lvl cnt stop))) = some (.loop lvl cnt stop) := by
  obtain ⟨n, hn⟩ : ∃ n, n = packFields ((4, 0) :: (4, 1) :: (1, b) :: (6, k) :: tileOpFields (.loop lvl cnt stop)) := ⟨_, rfl⟩
  rw [← hn]
  have c1 : bitField n 63 60 = 0 := (hn ▸ bitField_pack_at _ 0 4 _ 63 60 rfl rfl rfl).trans rfl
  have c2 : bitField n 59 56 = 1 := (hn ▸ bitField_pack_at _ 1 4 _ 59 56 rfl rfl rfl).trans rfl
  have f0 : bitField n 48 47 = (lvl).val := (hn ▸ bitField_pack_at _ 4 2 _ 48 47 rfl rfl rfl).trans (Nat.mod_eq_of_lt ((lvl).isLt))
  have f1 : bitField n 46 31 = (cnt).toNat := (hn ▸ bitField_pack_at _ 5 16 _ 46 31 rfl rfl rfl).trans (Nat.mod_eq_of_lt (cnt).isLt)
  have f2 : bitField n 30 18 = (stop).toNat := (hn ▸ bitField_pack_at _ 6 13 _ 30 18 rfl rfl rfl).trans (Nat.mod_eq_of_lt (stop).isLt)
  have f3 : bitField n 17 0 = 0 := (hn ▸ bitField_pack_at _ 7 18 _ 17 0 rfl rfl rfl).trans rfl
  simp only [decodeTileOp, decodeClass0, zeroBits, c1, c2, f0, f1, f2, f3, if_true, ofNat_fin, BitVec.ofNat_toNat, BitVec.setWidth_eq]

theorem decode_jump (t : BitVec 13) (b k : Nat) :
    decodeTileOp (packFields ((4, 0) :: (4, 2) :: (1, b) :: (6, k) :: tileOpFields (.jump t))) = some (.jump t) := by
  obtain ⟨n, hn⟩ : ∃ n, n = packFields ((4, 0) :: (4, 2) :: (1, b) :: (6, k) :: tileOpFields (.jump t)) := ⟨_, rfl⟩
  rw [← hn]
  have c1 : bitField n 63 60 = 0 := (hn ▸ bitField_pack_at _ 0 4 _ 63 60 rfl rfl rfl).trans rfl
  have c2 : bitField n 59 56 = 2 := (hn ▸ bitField_pack_at _ 1 4 _ 59 56 rfl rfl rfl).trans rfl
  have f0 : bitField n 48 13 = 0 := (hn ▸ bitField_pack_at _ 4 36 _ 48 13 rfl rfl rfl).trans rfl
  have f1 : bitField n 12 0 = (t).toNat := (hn ▸ bitField_pack_at _ 5 13 _ 12 0 rfl rfl rfl).trans (Nat.mod_eq_of_lt (t).isLt)
  simp only [decodeTileOp, decodeClass0, zeroBits, c1, c2, f0, f1, if_true, BitVec.ofNat_toNat, BitVec.setWidth_eq]

theorem decode_call (t : BitVec 13) (b k : Nat) :
    decodeTileOp (packFields ((4, 0) :: (4, 3) :: (1, b) :: (6, k) :: tileOpFields (.call t))) = some (.call t) := by
  obtain ⟨n, hn⟩ : ∃ n, n = packFields ((4, 0) :: (4, 3) :: (1, b) :: (6, k) :: tileOpFields (.call t)) := ⟨_, rfl⟩
  rw [← hn]
  have c1 : bitField n 63 60 = 0 := (hn ▸ bitField_pack_at _ 0 4 _ 63 60 rfl rfl rfl).trans rfl
  have c2 : bitField n 59 56 = 3 := (hn ▸ bitField_pack_at _ 1 4 _ 59 56 rfl rfl rfl).trans rfl
  have f0 : bitField n 48 13 = 0 := (hn ▸ bitField_pack_at _ 4 36 _ 48 13 rfl rfl rfl).trans rfl
  have f1 : bitField n 12 0 = (t).toNat := (hn ▸ bitField_pack_at _ 5 13 _ 12 0 rfl rfl rfl).trans (Nat.mod_eq_of_lt (t).isLt)
  simp only [decodeTileOp, decodeClass0, zeroBits, c1, c2, f0, f1, if_true, BitVec.ofNat_toNat, BitVec.setWidth_eq]

theorem decode_ret  (b k : Nat) :
    decodeTileOp (packFields ((4, 0) :: (4, 4) :: (1, b) :: (6, k) :: tileOpFields (.ret))) = some (.ret) := by
  obtain ⟨n, hn⟩ : ∃ n, n = packFields ((4, 0) :: (4, 4) :: (1, b) :: (6, k) :: tileOpFields (.ret)) := ⟨_, rfl⟩
  rw [← hn]
  have c1 : bitField n 63 60 = 0 := (hn ▸ bitField_pack_at _ 0 4 _ 63 60 rfl rfl rfl).trans rfl
  have c2 : bitField n 59 56 = 4 := (hn ▸ bitField_pack_at _ 1 4 _ 59 56 rfl rfl rfl).trans rfl
  have f0 : bitField n 48 0 = 0 := (hn ▸ bitField_pack_at _ 4 49 _ 48 0 rfl rfl rfl).trans rfl
  simp only [decodeTileOp, decodeClass0, zeroBits, c1, c2, f0, if_true]

theorem decode_brm (mb : Fin 32) (se : Bool) (t : BitVec 13) (b k : Nat) :
    decodeTileOp (packFields ((4, 0) :: (4, 5) :: (1, b) :: (6, k) :: tileOpFields (.brm mb se t))) = some (.brm mb se t) := by
  obtain ⟨n, hn⟩ : ∃ n, n = packFields ((4, 0) :: (4, 5) :: (1, b) :: (6, k) :: tileOpFields (.brm mb se t)) := ⟨_, rfl⟩
  rw [← hn]
  have c1 : bitField n 63 60 = 0 := (hn ▸ bitField_pack_at _ 0 4 _ 63 60 rfl rfl rfl).trans rfl
  have c2 : bitField n 59 56 = 5 := (hn ▸ bitField_pack_at _ 1 4 _ 59 56 rfl rfl rfl).trans rfl
  have f0 : bitField n 48 44 = (mb).val := (hn ▸ bitField_pack_at _ 4 5 _ 48 44 rfl rfl rfl).trans (Nat.mod_eq_of_lt ((mb).isLt))
  have f1 : bitAt n 43 = se := (bitAt_field n 43).trans (by rw [show bitField n 43 43 = boolNat se % 2 ^ 1 from hn ▸ bitField_pack_at _ 5 1 _ 43 43 rfl rfl rfl]; cases se <;> rfl)
  have f2 : bitField n 42 13 = 0 := (hn ▸ bitField_pack_at _ 6 30 _ 42 13 rfl rfl rfl).trans rfl
  have f3 : bitField n 12 0 = (t).toNat := (hn ▸ bitField_pack_at _ 7 13 _ 12 0 rfl rfl rfl).trans (Nat.mod_eq_of_lt (t).isLt)
  simp only [decodeTileOp, decodeClass0, zeroBits, c1, c2, f0, f1, f2, f3, if_true, ofNat_fin, BitVec.ofNat_toNat, BitVec.setWidth_eq]

theorem decode_wait (tk : Fin 64) (cnt : BitVec 16) (b k : Nat) :
    decodeTileOp (packFields ((4, 0) :: (4, 6) :: (1, b) :: (6, k) :: tileOpFields (.wait tk cnt))) = some (.wait tk cnt) := by
  obtain ⟨n, hn⟩ : ∃ n, n = packFields ((4, 0) :: (4, 6) :: (1, b) :: (6, k) :: tileOpFields (.wait tk cnt)) := ⟨_, rfl⟩
  rw [← hn]
  have c1 : bitField n 63 60 = 0 := (hn ▸ bitField_pack_at _ 0 4 _ 63 60 rfl rfl rfl).trans rfl
  have c2 : bitField n 59 56 = 6 := (hn ▸ bitField_pack_at _ 1 4 _ 59 56 rfl rfl rfl).trans rfl
  have f0 : bitField n 48 43 = (tk).val := (hn ▸ bitField_pack_at _ 4 6 _ 48 43 rfl rfl rfl).trans (Nat.mod_eq_of_lt ((tk).isLt))
  have f1 : bitField n 42 27 = (cnt).toNat := (hn ▸ bitField_pack_at _ 5 16 _ 42 27 rfl rfl rfl).trans (Nat.mod_eq_of_lt (cnt).isLt)
  have f2 : bitField n 26 0 = 0 := (hn ▸ bitField_pack_at _ 6 27 _ 26 0 rfl rfl rfl).trans rfl
  simp only [decodeTileOp, decodeClass0, zeroBits, c1, c2, f0, f1, f2, if_true, ofNat_fin, BitVec.ofNat_toNat, BitVec.setWidth_eq]

theorem decode_stepend  (b k : Nat) :
    decodeTileOp (packFields ((4, 0) :: (4, 7) :: (1, b) :: (6, k) :: tileOpFields (.stepend))) = some (.stepend) := by
  obtain ⟨n, hn⟩ : ∃ n, n = packFields ((4, 0) :: (4, 7) :: (1, b) :: (6, k) :: tileOpFields (.stepend)) := ⟨_, rfl⟩
  rw [← hn]
  have c1 : bitField n 63 60 = 0 := (hn ▸ bitField_pack_at _ 0 4 _ 63 60 rfl rfl rfl).trans rfl
  have c2 : bitField n 59 56 = 7 := (hn ▸ bitField_pack_at _ 1 4 _ 59 56 rfl rfl rfl).trans rfl
  have f0 : bitField n 48 0 = 0 := (hn ▸ bitField_pack_at _ 4 49 _ 48 0 rfl rfl rfl).trans rfl
  simp only [decodeTileOp, decodeClass0, zeroBits, c1, c2, f0, if_true]

theorem decode_swap (a : SwapArgs) (b k : Nat) :
    decodeTileOp (packFields ((4, 0) :: (4, 8) :: (1, b) :: (6, k) :: tileOpFields (.swap a))) = some (.swap a) := by
  obtain ⟨n, hn⟩ : ∃ n, n = packFields ((4, 0) :: (4, 8) :: (1, b) :: (6, k) :: tileOpFields (.swap a)) := ⟨_, rfl⟩
  rw [← hn]
  have c1 : bitField n 63 60 = 0 := (hn ▸ bitField_pack_at _ 0 4 _ 63 60 rfl rfl rfl).trans rfl
  have c2 : bitField n 59 56 = 8 := (hn ▸ bitField_pack_at _ 1 4 _ 59 56 rfl rfl rfl).trans rfl
  have f0 : bitField n 48 46 = (a.xr).val := (hn ▸ bitField_pack_at _ 4 3 _ 48 46 rfl rfl rfl).trans (Nat.mod_eq_of_lt ((a.xr).isLt))
  have f1 : bitAt n 45 = a.half := (bitAt_field n 45).trans (by rw [show bitField n 45 45 = boolNat a.half % 2 ^ 1 from hn ▸ bitField_pack_at _ 5 1 _ 45 45 rfl rfl rfl]; cases a.half <;> rfl)
  have f2 : bitField n 44 33 = (a.len).toNat := (hn ▸ bitField_pack_at _ 6 12 _ 44 33 rfl rfl rfl).trans (Nat.mod_eq_of_lt (a.len).isLt)
  have f3 : bitAt n 32 = a.te := (bitAt_field n 32).trans (by rw [show bitField n 32 32 = boolNat a.te % 2 ^ 1 from hn ▸ bitField_pack_at _ 7 1 _ 32 32 rfl rfl rfl]; cases a.te <;> rfl)
  have f4 : bitField n 31 26 = (a.tk).val := (hn ▸ bitField_pack_at _ 8 6 _ 31 26 rfl rfl rfl).trans (Nat.mod_eq_of_lt ((a.tk).isLt))
  have f5 : bitField n 25 0 = 0 := (hn ▸ bitField_pack_at _ 9 26 _ 25 0 rfl rfl rfl).trans rfl
  simp only [decodeTileOp, decodeClass0, zeroBits, c1, c2, f0, f1, f2, f3, f4, f5, swapFields, if_true, ofNat_fin, BitVec.ofNat_toNat, BitVec.setWidth_eq]

theorem decode_setp (pn : Fin 16) (imm : BitVec 21) (b k : Nat) :
    decodeTileOp (packFields ((4, 1) :: (4, 0) :: (1, b) :: (6, k) :: tileOpFields (.setp pn imm))) = some (.setp pn imm) := by
  obtain ⟨n, hn⟩ : ∃ n, n = packFields ((4, 1) :: (4, 0) :: (1, b) :: (6, k) :: tileOpFields (.setp pn imm)) := ⟨_, rfl⟩
  rw [← hn]
  have c1 : bitField n 63 60 = 1 := (hn ▸ bitField_pack_at _ 0 4 _ 63 60 rfl rfl rfl).trans rfl
  have c2 : bitField n 59 56 = 0 := (hn ▸ bitField_pack_at _ 1 4 _ 59 56 rfl rfl rfl).trans rfl
  have f0 : bitField n 48 45 = (pn).val := (hn ▸ bitField_pack_at _ 4 4 _ 48 45 rfl rfl rfl).trans (Nat.mod_eq_of_lt ((pn).isLt))
  have f1 : bitField n 44 24 = (imm).toNat := (hn ▸ bitField_pack_at _ 5 21 _ 44 24 rfl rfl rfl).trans (Nat.mod_eq_of_lt (imm).isLt)
  have f2 : bitField n 23 0 = 0 := (hn ▸ bitField_pack_at _ 6 24 _ 23 0 rfl rfl rfl).trans rfl
  simp only [decodeTileOp, decodeClass1, zeroBits, c1, c2, f0, f1, f2, if_true, ofNat_fin, BitVec.ofNat_toNat, BitVec.setWidth_eq]

theorem decode_addp (pn : Fin 16) (imm : BitVec 21) (b k : Nat) :
    decodeTileOp (packFields ((4, 1) :: (4, 1) :: (1, b) :: (6, k) :: tileOpFields (.addp pn imm))) = some (.addp pn imm) := by
  obtain ⟨n, hn⟩ : ∃ n, n = packFields ((4, 1) :: (4, 1) :: (1, b) :: (6, k) :: tileOpFields (.addp pn imm)) := ⟨_, rfl⟩
  rw [← hn]
  have c1 : bitField n 63 60 = 1 := (hn ▸ bitField_pack_at _ 0 4 _ 63 60 rfl rfl rfl).trans rfl
  have c2 : bitField n 59 56 = 1 := (hn ▸ bitField_pack_at _ 1 4 _ 59 56 rfl rfl rfl).trans rfl
  have f0 : bitField n 48 45 = (pn).val := (hn ▸ bitField_pack_at _ 4 4 _ 48 45 rfl rfl rfl).trans (Nat.mod_eq_of_lt ((pn).isLt))
  have f1 : bitField n 44 24 = (imm).toNat := (hn ▸ bitField_pack_at _ 5 21 _ 44 24 rfl rfl rfl).trans (Nat.mod_eq_of_lt (imm).isLt)
  have f2 : bitField n 23 0 = 0 := (hn ▸ bitField_pack_at _ 6 24 _ 23 0 rfl rfl rfl).trans rfl
  simp only [decodeTileOp, decodeClass1, zeroBits, c1, c2, f0, f1, f2, if_true, ofNat_fin, BitVec.ofNat_toNat, BitVec.setWidth_eq]

theorem decode_setx (xn : Fin 8) (sl : Fin 4) (imm : BitVec 16) (b k : Nat) :
    decodeTileOp (packFields ((4, 1) :: (4, 2) :: (1, b) :: (6, k) :: tileOpFields (.setx xn sl imm))) = some (.setx xn sl imm) := by
  obtain ⟨n, hn⟩ : ∃ n, n = packFields ((4, 1) :: (4, 2) :: (1, b) :: (6, k) :: tileOpFields (.setx xn sl imm)) := ⟨_, rfl⟩
  rw [← hn]
  have c1 : bitField n 63 60 = 1 := (hn ▸ bitField_pack_at _ 0 4 _ 63 60 rfl rfl rfl).trans rfl
  have c2 : bitField n 59 56 = 2 := (hn ▸ bitField_pack_at _ 1 4 _ 59 56 rfl rfl rfl).trans rfl
  have f0 : bitField n 48 46 = (xn).val := (hn ▸ bitField_pack_at _ 4 3 _ 48 46 rfl rfl rfl).trans (Nat.mod_eq_of_lt ((xn).isLt))
  have f1 : bitField n 45 44 = (sl).val := (hn ▸ bitField_pack_at _ 5 2 _ 45 44 rfl rfl rfl).trans (Nat.mod_eq_of_lt ((sl).isLt))
  have f2 : bitField n 43 28 = (imm).toNat := (hn ▸ bitField_pack_at _ 6 16 _ 43 28 rfl rfl rfl).trans (Nat.mod_eq_of_lt (imm).isLt)
  have f3 : bitField n 27 0 = 0 := (hn ▸ bitField_pack_at _ 7 28 _ 27 0 rfl rfl rfl).trans rfl
  simp only [decodeTileOp, decodeClass1, zeroBits, c1, c2, f0, f1, f2, f3, if_true, ofNat_fin, BitVec.ofNat_toNat, BitVec.setWidth_eq]

theorem decode_addx (xn : Fin 8) (imm : BitVec 32) (b k : Nat) :
    decodeTileOp (packFields ((4, 1) :: (4, 3) :: (1, b) :: (6, k) :: tileOpFields (.addx xn imm))) = some (.addx xn imm) := by
  obtain ⟨n, hn⟩ : ∃ n, n = packFields ((4, 1) :: (4, 3) :: (1, b) :: (6, k) :: tileOpFields (.addx xn imm)) := ⟨_, rfl⟩
  rw [← hn]
  have c1 : bitField n 63 60 = 1 := (hn ▸ bitField_pack_at _ 0 4 _ 63 60 rfl rfl rfl).trans rfl
  have c2 : bitField n 59 56 = 3 := (hn ▸ bitField_pack_at _ 1 4 _ 59 56 rfl rfl rfl).trans rfl
  have f0 : bitField n 48 46 = (xn).val := (hn ▸ bitField_pack_at _ 4 3 _ 48 46 rfl rfl rfl).trans (Nat.mod_eq_of_lt ((xn).isLt))
  have f1 : bitField n 45 14 = (imm).toNat := (hn ▸ bitField_pack_at _ 5 32 _ 45 14 rfl rfl rfl).trans (Nat.mod_eq_of_lt (imm).isLt)
  have f2 : bitField n 13 0 = 0 := (hn ▸ bitField_pack_at _ 6 14 _ 13 0 rfl rfl rfl).trans rfl
  simp only [decodeTileOp, decodeClass1, zeroBits, c1, c2, f0, f1, f2, if_true, ofNat_fin, BitVec.ofNat_toNat, BitVec.setWidth_eq]

theorem decode_ldw (a : LdwArgs) (b k : Nat) :
    decodeTileOp (packFields ((4, 2) :: (4, 0) :: (1, b) :: (6, k) :: tileOpFields (.ldw a))) = some (.ldw a) := by
  obtain ⟨n, hn⟩ : ∃ n, n = packFields ((4, 2) :: (4, 0) :: (1, b) :: (6, k) :: tileOpFields (.ldw a)) := ⟨_, rfl⟩
  rw [← hn]
  have c1 : bitField n 63 60 = 2 := (hn ▸ bitField_pack_at _ 0 4 _ 63 60 rfl rfl rfl).trans rfl
  have c2 : bitField n 59 56 = 0 := (hn ▸ bitField_pack_at _ 1 4 _ 59 56 rfl rfl rfl).trans rfl
  have f0 : bitField n 48 45 = (a.pa).val := (hn ▸ bitField_pack_at _ 4 4 _ 48 45 rfl rfl rfl).trans (Nat.mod_eq_of_lt ((a.pa).isLt))
  have f1 : bitField n 44 41 = (a.amask).toNat := (hn ▸ bitField_pack_at _ 5 4 _ 44 41 rfl rfl rfl).trans (Nat.mod_eq_of_lt (a.amask).isLt)
  have f2 : bitAt n 40 = a.plane := (bitAt_field n 40).trans (by rw [show bitField n 40 40 = boolNat a.plane % 2 ^ 1 from hn ▸ bitField_pack_at _ 6 1 _ 40 40 rfl rfl rfl]; cases a.plane <;> rfl)
  have f3 : bitField n 39 36 = (a.fw).toNat := (hn ▸ bitField_pack_at _ 7 4 _ 39 36 rfl rfl rfl).trans (Nat.mod_eq_of_lt (a.fw).isLt)
  have f4 : bitField n 35 28 = (a.stride).toNat := (hn ▸ bitField_pack_at _ 8 8 _ 35 28 rfl rfl rfl).trans (Nat.mod_eq_of_lt (a.stride).isLt)
  have f5 : bitField n 27 16 = 0 := (hn ▸ bitField_pack_at _ 9 12 _ 27 16 rfl rfl rfl).trans rfl
  have f6 : bitField n 15 0 = (a.pinc).toNat := (hn ▸ bitField_pack_at _ 10 16 _ 15 0 rfl rfl rfl).trans (Nat.mod_eq_of_lt (a.pinc).isLt)
  simp only [decodeTileOp, decodeClass2, zeroBits, c1, c2, f0, f1, f2, f3, f4, f5, f6, ldwFields, if_true, ofNat_fin, BitVec.ofNat_toNat, BitVec.setWidth_eq]

theorem decode_mm (a : MmArgs) (b k : Nat) :
    decodeTileOp (packFields ((4, 2) :: (4, 1) :: (1, b) :: (6, k) :: tileOpFields (.mm a))) = some (.mm a) := by
  obtain ⟨n, hn⟩ : ∃ n, n = packFields ((4, 2) :: (4, 1) :: (1, b) :: (6, k) :: tileOpFields (.mm a)) := ⟨_, rfl⟩
  rw [← hn]
  have c1 : bitField n 63 60 = 2 := (hn ▸ bitField_pack_at _ 0 4 _ 63 60 rfl rfl rfl).trans rfl
  have c2 : bitField n 59 56 = 1 := (hn ▸ bitField_pack_at _ 1 4 _ 59 56 rfl rfl rfl).trans rfl
  have f0 : bitField n 48 45 = (a.pa).val := (hn ▸ bitField_pack_at _ 4 4 _ 48 45 rfl rfl rfl).trans (Nat.mod_eq_of_lt ((a.pa).isLt))
  have f1 : bitField n 44 41 = (a.amask).toNat := (hn ▸ bitField_pack_at _ 5 4 _ 44 41 rfl rfl rfl).trans (Nat.mod_eq_of_lt (a.amask).isLt)
  have f2 : bitAt n 40 = a.plane := (bitAt_field n 40).trans (by rw [show bitField n 40 40 = boolNat a.plane % 2 ^ 1 from hn ▸ bitField_pack_at _ 6 1 _ 40 40 rfl rfl rfl]; cases a.plane <;> rfl)
  have f3 : bitField n 39 34 = (a.gbase).toNat := (hn ▸ bitField_pack_at _ 7 6 _ 39 34 rfl rfl rfl).trans (Nat.mod_eq_of_lt (a.gbase).isLt)
  have f4 : bitField n 33 28 = (a.nrow).toNat := (hn ▸ bitField_pack_at _ 8 6 _ 33 28 rfl rfl rfl).trans (Nat.mod_eq_of_lt (a.nrow).isLt)
  have f5 : bitField n 27 24 = (a.fx).toNat := (hn ▸ bitField_pack_at _ 9 4 _ 27 24 rfl rfl rfl).trans (Nat.mod_eq_of_lt (a.fx).isLt)
  have f6 : bitField n 23 16 = (a.stride).toNat := (hn ▸ bitField_pack_at _ 10 8 _ 23 16 rfl rfl rfl).trans (Nat.mod_eq_of_lt (a.stride).isLt)
  have f7 : bitField n 15 0 = (a.pinc).toNat := (hn ▸ bitField_pack_at _ 11 16 _ 15 0 rfl rfl rfl).trans (Nat.mod_eq_of_lt (a.pinc).isLt)
  simp only [decodeTileOp, decodeClass2, zeroBits, c1, c2, f0, f1, f2, f3, f4, f5, f6, f7, mmFields, ofNat_fin, BitVec.ofNat_toNat, BitVec.setWidth_eq]

theorem decode_gopen (a : GroupArgs) (b k : Nat) :
    decodeTileOp (packFields ((4, 3) :: (4, 0) :: (1, b) :: (6, k) :: tileOpFields (.gopen a))) = some (.gopen a) := by
  obtain ⟨n, hn⟩ : ∃ n, n = packFields ((4, 3) :: (4, 0) :: (1, b) :: (6, k) :: tileOpFields (.gopen a)) := ⟨_, rfl⟩
  rw [← hn]
  have c1 : bitField n 63 60 = 3 := (hn ▸ bitField_pack_at _ 0 4 _ 63 60 rfl rfl rfl).trans rfl
  have c2 : bitField n 59 56 = 0 := (hn ▸ bitField_pack_at _ 1 4 _ 59 56 rfl rfl rfl).trans rfl
  have f0 : bitField n 48 45 = (a.pa).val := (hn ▸ bitField_pack_at _ 4 4 _ 48 45 rfl rfl rfl).trans (Nat.mod_eq_of_lt ((a.pa).isLt))
  have f1 : bitField n 44 39 = (a.gbase).toNat := (hn ▸ bitField_pack_at _ 5 6 _ 44 39 rfl rfl rfl).trans (Nat.mod_eq_of_lt (a.gbase).isLt)
  have f2 : bitField n 38 33 = (a.gcnt).toNat := (hn ▸ bitField_pack_at _ 6 6 _ 38 33 rfl rfl rfl).trans (Nat.mod_eq_of_lt (a.gcnt).isLt)
  have f3 : bitField n 32 29 = (a.fmt).toNat := (hn ▸ bitField_pack_at _ 7 4 _ 32 29 rfl rfl rfl).trans (Nat.mod_eq_of_lt (a.fmt).isLt)
  have f4 : bitField n 28 27 = (a.mode).toNat := (hn ▸ bitField_pack_at _ 8 2 _ 28 27 rfl rfl rfl).trans (Nat.mod_eq_of_lt (a.mode).isLt)
  have f5 : bitField n 26 19 = (a.stride).toNat := (hn ▸ bitField_pack_at _ 9 8 _ 26 19 rfl rfl rfl).trans (Nat.mod_eq_of_lt (a.stride).isLt)
  have f6 : bitField n 18 0 = 0 := (hn ▸ bitField_pack_at _ 10 19 _ 18 0 rfl rfl rfl).trans rfl
  simp only [decodeTileOp, decodeClass3, zeroBits, c1, c2, f0, f1, f2, f3, f4, f5, f6, groupFields, if_true, ofNat_fin, BitVec.ofNat_toNat, BitVec.setWidth_eq]

theorem decode_gclose (a : GroupArgs) (b k : Nat) :
    decodeTileOp (packFields ((4, 3) :: (4, 1) :: (1, b) :: (6, k) :: tileOpFields (.gclose a))) = some (.gclose a) := by
  obtain ⟨n, hn⟩ : ∃ n, n = packFields ((4, 3) :: (4, 1) :: (1, b) :: (6, k) :: tileOpFields (.gclose a)) := ⟨_, rfl⟩
  rw [← hn]
  have c1 : bitField n 63 60 = 3 := (hn ▸ bitField_pack_at _ 0 4 _ 63 60 rfl rfl rfl).trans rfl
  have c2 : bitField n 59 56 = 1 := (hn ▸ bitField_pack_at _ 1 4 _ 59 56 rfl rfl rfl).trans rfl
  have f0 : bitField n 48 45 = (a.pa).val := (hn ▸ bitField_pack_at _ 4 4 _ 48 45 rfl rfl rfl).trans (Nat.mod_eq_of_lt ((a.pa).isLt))
  have f1 : bitField n 44 39 = (a.gbase).toNat := (hn ▸ bitField_pack_at _ 5 6 _ 44 39 rfl rfl rfl).trans (Nat.mod_eq_of_lt (a.gbase).isLt)
  have f2 : bitField n 38 33 = (a.gcnt).toNat := (hn ▸ bitField_pack_at _ 6 6 _ 38 33 rfl rfl rfl).trans (Nat.mod_eq_of_lt (a.gcnt).isLt)
  have f3 : bitField n 32 29 = (a.fmt).toNat := (hn ▸ bitField_pack_at _ 7 4 _ 32 29 rfl rfl rfl).trans (Nat.mod_eq_of_lt (a.fmt).isLt)
  have f4 : bitField n 28 27 = (a.mode).toNat := (hn ▸ bitField_pack_at _ 8 2 _ 28 27 rfl rfl rfl).trans (Nat.mod_eq_of_lt (a.mode).isLt)
  have f5 : bitField n 26 19 = (a.stride).toNat := (hn ▸ bitField_pack_at _ 9 8 _ 26 19 rfl rfl rfl).trans (Nat.mod_eq_of_lt (a.stride).isLt)
  have f6 : bitField n 18 0 = 0 := (hn ▸ bitField_pack_at _ 10 19 _ 18 0 rfl rfl rfl).trans rfl
  simp only [decodeTileOp, decodeClass3, zeroBits, c1, c2, f0, f1, f2, f3, f4, f5, f6, groupFields, if_true, ofNat_fin, BitVec.ofNat_toNat, BitVec.setWidth_eq]

theorem decode_gspill (a : GroupArgs) (b k : Nat) :
    decodeTileOp (packFields ((4, 3) :: (4, 2) :: (1, b) :: (6, k) :: tileOpFields (.gspill a))) = some (.gspill a) := by
  obtain ⟨n, hn⟩ : ∃ n, n = packFields ((4, 3) :: (4, 2) :: (1, b) :: (6, k) :: tileOpFields (.gspill a)) := ⟨_, rfl⟩
  rw [← hn]
  have c1 : bitField n 63 60 = 3 := (hn ▸ bitField_pack_at _ 0 4 _ 63 60 rfl rfl rfl).trans rfl
  have c2 : bitField n 59 56 = 2 := (hn ▸ bitField_pack_at _ 1 4 _ 59 56 rfl rfl rfl).trans rfl
  have f0 : bitField n 48 45 = (a.pa).val := (hn ▸ bitField_pack_at _ 4 4 _ 48 45 rfl rfl rfl).trans (Nat.mod_eq_of_lt ((a.pa).isLt))
  have f1 : bitField n 44 39 = (a.gbase).toNat := (hn ▸ bitField_pack_at _ 5 6 _ 44 39 rfl rfl rfl).trans (Nat.mod_eq_of_lt (a.gbase).isLt)
  have f2 : bitField n 38 33 = (a.gcnt).toNat := (hn ▸ bitField_pack_at _ 6 6 _ 38 33 rfl rfl rfl).trans (Nat.mod_eq_of_lt (a.gcnt).isLt)
  have f3 : bitField n 32 29 = (a.fmt).toNat := (hn ▸ bitField_pack_at _ 7 4 _ 32 29 rfl rfl rfl).trans (Nat.mod_eq_of_lt (a.fmt).isLt)
  have f4 : bitField n 28 27 = (a.mode).toNat := (hn ▸ bitField_pack_at _ 8 2 _ 28 27 rfl rfl rfl).trans (Nat.mod_eq_of_lt (a.mode).isLt)
  have f5 : bitField n 26 19 = (a.stride).toNat := (hn ▸ bitField_pack_at _ 9 8 _ 26 19 rfl rfl rfl).trans (Nat.mod_eq_of_lt (a.stride).isLt)
  have f6 : bitField n 18 0 = 0 := (hn ▸ bitField_pack_at _ 10 19 _ 18 0 rfl rfl rfl).trans rfl
  simp only [decodeTileOp, decodeClass3, zeroBits, c1, c2, f0, f1, f2, f3, f4, f5, f6, groupFields, if_true, ofNat_fin, BitVec.ofNat_toNat, BitVec.setWidth_eq]

theorem decode_gfill (a : GroupArgs) (b k : Nat) :
    decodeTileOp (packFields ((4, 3) :: (4, 3) :: (1, b) :: (6, k) :: tileOpFields (.gfill a))) = some (.gfill a) := by
  obtain ⟨n, hn⟩ : ∃ n, n = packFields ((4, 3) :: (4, 3) :: (1, b) :: (6, k) :: tileOpFields (.gfill a)) := ⟨_, rfl⟩
  rw [← hn]
  have c1 : bitField n 63 60 = 3 := (hn ▸ bitField_pack_at _ 0 4 _ 63 60 rfl rfl rfl).trans rfl
  have c2 : bitField n 59 56 = 3 := (hn ▸ bitField_pack_at _ 1 4 _ 59 56 rfl rfl rfl).trans rfl
  have f0 : bitField n 48 45 = (a.pa).val := (hn ▸ bitField_pack_at _ 4 4 _ 48 45 rfl rfl rfl).trans (Nat.mod_eq_of_lt ((a.pa).isLt))
  have f1 : bitField n 44 39 = (a.gbase).toNat := (hn ▸ bitField_pack_at _ 5 6 _ 44 39 rfl rfl rfl).trans (Nat.mod_eq_of_lt (a.gbase).isLt)
  have f2 : bitField n 38 33 = (a.gcnt).toNat := (hn ▸ bitField_pack_at _ 6 6 _ 38 33 rfl rfl rfl).trans (Nat.mod_eq_of_lt (a.gcnt).isLt)
  have f3 : bitField n 32 29 = (a.fmt).toNat := (hn ▸ bitField_pack_at _ 7 4 _ 32 29 rfl rfl rfl).trans (Nat.mod_eq_of_lt (a.fmt).isLt)
  have f4 : bitField n 28 27 = (a.mode).toNat := (hn ▸ bitField_pack_at _ 8 2 _ 28 27 rfl rfl rfl).trans (Nat.mod_eq_of_lt (a.mode).isLt)
  have f5 : bitField n 26 19 = (a.stride).toNat := (hn ▸ bitField_pack_at _ 9 8 _ 26 19 rfl rfl rfl).trans (Nat.mod_eq_of_lt (a.stride).isLt)
  have f6 : bitField n 18 0 = 0 := (hn ▸ bitField_pack_at _ 10 19 _ 18 0 rfl rfl rfl).trans rfl
  simp only [decodeTileOp, decodeClass3, zeroBits, c1, c2, f0, f1, f2, f3, f4, f5, f6, groupFields, if_true, ofNat_fin, BitVec.ofNat_toNat, BitVec.setWidth_eq]

theorem decode_gdrop (a : GroupArgs) (b k : Nat) :
    decodeTileOp (packFields ((4, 3) :: (4, 4) :: (1, b) :: (6, k) :: tileOpFields (.gdrop a))) = some (.gdrop a) := by
  obtain ⟨n, hn⟩ : ∃ n, n = packFields ((4, 3) :: (4, 4) :: (1, b) :: (6, k) :: tileOpFields (.gdrop a)) := ⟨_, rfl⟩
  rw [← hn]
  have c1 : bitField n 63 60 = 3 := (hn ▸ bitField_pack_at _ 0 4 _ 63 60 rfl rfl rfl).trans rfl
  have c2 : bitField n 59 56 = 4 := (hn ▸ bitField_pack_at _ 1 4 _ 59 56 rfl rfl rfl).trans rfl
  have f0 : bitField n 48 45 = (a.pa).val := (hn ▸ bitField_pack_at _ 4 4 _ 48 45 rfl rfl rfl).trans (Nat.mod_eq_of_lt ((a.pa).isLt))
  have f1 : bitField n 44 39 = (a.gbase).toNat := (hn ▸ bitField_pack_at _ 5 6 _ 44 39 rfl rfl rfl).trans (Nat.mod_eq_of_lt (a.gbase).isLt)
  have f2 : bitField n 38 33 = (a.gcnt).toNat := (hn ▸ bitField_pack_at _ 6 6 _ 38 33 rfl rfl rfl).trans (Nat.mod_eq_of_lt (a.gcnt).isLt)
  have f3 : bitField n 32 29 = (a.fmt).toNat := (hn ▸ bitField_pack_at _ 7 4 _ 32 29 rfl rfl rfl).trans (Nat.mod_eq_of_lt (a.fmt).isLt)
  have f4 : bitField n 28 27 = (a.mode).toNat := (hn ▸ bitField_pack_at _ 8 2 _ 28 27 rfl rfl rfl).trans (Nat.mod_eq_of_lt (a.mode).isLt)
  have f5 : bitField n 26 19 = (a.stride).toNat := (hn ▸ bitField_pack_at _ 9 8 _ 26 19 rfl rfl rfl).trans (Nat.mod_eq_of_lt (a.stride).isLt)
  have f6 : bitField n 18 0 = 0 := (hn ▸ bitField_pack_at _ 10 19 _ 18 0 rfl rfl rfl).trans rfl
  simp only [decodeTileOp, decodeClass3, zeroBits, c1, c2, f0, f1, f2, f3, f4, f5, f6, groupFields, if_true, ofNat_fin, BitVec.ofNat_toNat, BitVec.setWidth_eq]

theorem decode_vop (vfn : BitVec 8) (a : VopArgs) (b k : Nat) :
    decodeTileOp (packFields ((4, 4) :: (4, 0) :: (1, b) :: (6, k) :: tileOpFields (.vop vfn a))) = some (.vop vfn a) := by
  obtain ⟨n, hn⟩ : ∃ n, n = packFields ((4, 4) :: (4, 0) :: (1, b) :: (6, k) :: tileOpFields (.vop vfn a)) := ⟨_, rfl⟩
  rw [← hn]
  have c1 : bitField n 63 60 = 4 := (hn ▸ bitField_pack_at _ 0 4 _ 63 60 rfl rfl rfl).trans rfl
  have c2 : bitField n 59 56 = 0 := (hn ▸ bitField_pack_at _ 1 4 _ 59 56 rfl rfl rfl).trans rfl
  have f0 : bitField n 48 41 = (vfn).toNat := (hn ▸ bitField_pack_at _ 4 8 _ 48 41 rfl rfl rfl).trans (Nat.mod_eq_of_lt (vfn).isLt)
  have f1 : bitField n 40 37 = (a.fmt).toNat := (hn ▸ bitField_pack_at _ 5 4 _ 40 37 rfl rfl rfl).trans (Nat.mod_eq_of_lt (a.fmt).isLt)
  have f2 : bitField n 36 33 = (a.pa).val := (hn ▸ bitField_pack_at _ 6 4 _ 36 33 rfl rfl rfl).trans (Nat.mod_eq_of_lt ((a.pa).isLt))
  have f3 : bitField n 32 29 = (a.pb).toNat := (hn ▸ bitField_pack_at _ 7 4 _ 32 29 rfl rfl rfl).trans (Nat.mod_eq_of_lt (a.pb).isLt)
  have f4 : bitField n 28 25 = (a.pd).val := (hn ▸ bitField_pack_at _ 8 4 _ 28 25 rfl rfl rfl).trans (Nat.mod_eq_of_lt ((a.pd).isLt))
  have f5 : bitField n 24 19 = (a.lanes).toNat := (hn ▸ bitField_pack_at _ 9 6 _ 24 19 rfl rfl rfl).trans (Nat.mod_eq_of_lt (a.lanes).isLt)
  have f6 : bitField n 18 7 = (a.cnt).toNat := (hn ▸ bitField_pack_at _ 10 12 _ 18 7 rfl rfl rfl).trans (Nat.mod_eq_of_lt (a.cnt).isLt)
  have f7 : bitField n 6 0 = 0 := (hn ▸ bitField_pack_at _ 11 7 _ 6 0 rfl rfl rfl).trans rfl
  simp only [decodeTileOp, decodeClass4to7, zeroBits, c1, c2, f0, f1, f2, f3, f4, f5, f6, f7, vopFields, if_true, ofNat_fin, BitVec.ofNat_toNat, BitVec.setWidth_eq]

theorem decode_get (a : XferArgs) (b k : Nat) :
    decodeTileOp (packFields ((4, 5) :: (4, 0) :: (1, b) :: (6, k) :: tileOpFields (.get a))) = some (.get a) := by
  obtain ⟨n, hn⟩ : ∃ n, n = packFields ((4, 5) :: (4, 0) :: (1, b) :: (6, k) :: tileOpFields (.get a)) := ⟨_, rfl⟩
  rw [← hn]
  have c1 : bitField n 63 60 = 5 := (hn ▸ bitField_pack_at _ 0 4 _ 63 60 rfl rfl rfl).trans rfl
  have c2 : bitField n 59 56 = 0 := (hn ▸ bitField_pack_at _ 1 4 _ 59 56 rfl rfl rfl).trans rfl
  have f0 : bitField n 48 45 = (a.pl).val := (hn ▸ bitField_pack_at _ 4 4 _ 48 45 rfl rfl rfl).trans (Nat.mod_eq_of_lt ((a.pl).isLt))
  have f1 : bitField n 44 42 = (a.xr).val := (hn ▸ bitField_pack_at _ 5 3 _ 44 42 rfl rfl rfl).trans (Nat.mod_eq_of_lt ((a.xr).isLt))
  have f2 : bitField n 41 30 = (a.len).toNat := (hn ▸ bitField_pack_at _ 6 12 _ 41 30 rfl rfl rfl).trans (Nat.mod_eq_of_lt (a.len).isLt)
  have f3 : bitAt n 29 = a.lte := (bitAt_field n 29).trans (by rw [show bitField n 29 29 = boolNat a.lte % 2 ^ 1 from hn ▸ bitField_pack_at _ 7 1 _ 29 29 rfl rfl rfl]; cases a.lte <;> rfl)
  have f4 : bitField n 28 23 = (a.ltk).val := (hn ▸ bitField_pack_at _ 8 6 _ 28 23 rfl rfl rfl).trans (Nat.mod_eq_of_lt ((a.ltk).isLt))
  have f5 : bitAt n 22 = a.dte := (bitAt_field n 22).trans (by rw [show bitField n 22 22 = boolNat a.dte % 2 ^ 1 from hn ▸ bitField_pack_at _ 9 1 _ 22 22 rfl rfl rfl]; cases a.dte <;> rfl)
  have f6 : bitField n 21 16 = (a.dtk).val := (hn ▸ bitField_pack_at _ 10 6 _ 21 16 rfl rfl rfl).trans (Nat.mod_eq_of_lt ((a.dtk).isLt))
  have f7 : bitField n 15 0 = (a.xinc).toNat := (hn ▸ bitField_pack_at _ 11 16 _ 15 0 rfl rfl rfl).trans (Nat.mod_eq_of_lt (a.xinc).isLt)
  simp only [decodeTileOp, decodeClass4to7, zeroBits, c1, c2, f0, f1, f2, f3, f4, f5, f6, f7, xferFields, ofNat_fin, BitVec.ofNat_toNat, BitVec.setWidth_eq]

theorem decode_put (a : XferArgs) (b k : Nat) :
    decodeTileOp (packFields ((4, 5) :: (4, 1) :: (1, b) :: (6, k) :: tileOpFields (.put a))) = some (.put a) := by
  obtain ⟨n, hn⟩ : ∃ n, n = packFields ((4, 5) :: (4, 1) :: (1, b) :: (6, k) :: tileOpFields (.put a)) := ⟨_, rfl⟩
  rw [← hn]
  have c1 : bitField n 63 60 = 5 := (hn ▸ bitField_pack_at _ 0 4 _ 63 60 rfl rfl rfl).trans rfl
  have c2 : bitField n 59 56 = 1 := (hn ▸ bitField_pack_at _ 1 4 _ 59 56 rfl rfl rfl).trans rfl
  have f0 : bitField n 48 45 = (a.pl).val := (hn ▸ bitField_pack_at _ 4 4 _ 48 45 rfl rfl rfl).trans (Nat.mod_eq_of_lt ((a.pl).isLt))
  have f1 : bitField n 44 42 = (a.xr).val := (hn ▸ bitField_pack_at _ 5 3 _ 44 42 rfl rfl rfl).trans (Nat.mod_eq_of_lt ((a.xr).isLt))
  have f2 : bitField n 41 30 = (a.len).toNat := (hn ▸ bitField_pack_at _ 6 12 _ 41 30 rfl rfl rfl).trans (Nat.mod_eq_of_lt (a.len).isLt)
  have f3 : bitAt n 29 = a.lte := (bitAt_field n 29).trans (by rw [show bitField n 29 29 = boolNat a.lte % 2 ^ 1 from hn ▸ bitField_pack_at _ 7 1 _ 29 29 rfl rfl rfl]; cases a.lte <;> rfl)
  have f4 : bitField n 28 23 = (a.ltk).val := (hn ▸ bitField_pack_at _ 8 6 _ 28 23 rfl rfl rfl).trans (Nat.mod_eq_of_lt ((a.ltk).isLt))
  have f5 : bitAt n 22 = a.dte := (bitAt_field n 22).trans (by rw [show bitField n 22 22 = boolNat a.dte % 2 ^ 1 from hn ▸ bitField_pack_at _ 9 1 _ 22 22 rfl rfl rfl]; cases a.dte <;> rfl)
  have f6 : bitField n 21 16 = (a.dtk).val := (hn ▸ bitField_pack_at _ 10 6 _ 21 16 rfl rfl rfl).trans (Nat.mod_eq_of_lt ((a.dtk).isLt))
  have f7 : bitField n 15 0 = (a.xinc).toNat := (hn ▸ bitField_pack_at _ 11 16 _ 15 0 rfl rfl rfl).trans (Nat.mod_eq_of_lt (a.xinc).isLt)
  simp only [decodeTileOp, decodeClass4to7, zeroBits, c1, c2, f0, f1, f2, f3, f4, f5, f6, f7, xferFields, ofNat_fin, BitVec.ofNat_toNat, BitVec.setWidth_eq]

theorem decode_signal (a : SignalArgs) (b k : Nat) :
    decodeTileOp (packFields ((4, 5) :: (4, 2) :: (1, b) :: (6, k) :: tileOpFields (.signal a))) = some (.signal a) := by
  obtain ⟨n, hn⟩ : ∃ n, n = packFields ((4, 5) :: (4, 2) :: (1, b) :: (6, k) :: tileOpFields (.signal a)) := ⟨_, rfl⟩
  rw [← hn]
  have c1 : bitField n 63 60 = 5 := (hn ▸ bitField_pack_at _ 0 4 _ 63 60 rfl rfl rfl).trans rfl
  have c2 : bitField n 59 56 = 2 := (hn ▸ bitField_pack_at _ 1 4 _ 59 56 rfl rfl rfl).trans rfl
  have f0 : bitField n 48 25 = (a.ep).toNat := (hn ▸ bitField_pack_at _ 4 24 _ 48 25 rfl rfl rfl).trans (Nat.mod_eq_of_lt (a.ep).isLt)
  have f1 : bitField n 24 19 = (a.tk).val := (hn ▸ bitField_pack_at _ 5 6 _ 24 19 rfl rfl rfl).trans (Nat.mod_eq_of_lt ((a.tk).isLt))
  have f2 : bitField n 18 3 = (a.cnt).toNat := (hn ▸ bitField_pack_at _ 6 16 _ 18 3 rfl rfl rfl).trans (Nat.mod_eq_of_lt (a.cnt).isLt)
  have f3 : bitField n 2 0 = 0 := (hn ▸ bitField_pack_at _ 7 3 _ 2 0 rfl rfl rfl).trans rfl
  simp only [decodeTileOp, decodeClass4to7, zeroBits, c1, c2, f0, f1, f2, f3, signalFields, if_true, ofNat_fin, BitVec.ofNat_toNat, BitVec.setWidth_eq]

theorem decode_sample (a : SampleArgs) (b k : Nat) :
    decodeTileOp (packFields ((4, 6) :: (4, 0) :: (1, b) :: (6, k) :: tileOpFields (.sample a))) = some (.sample a) := by
  obtain ⟨n, hn⟩ : ∃ n, n = packFields ((4, 6) :: (4, 0) :: (1, b) :: (6, k) :: tileOpFields (.sample a)) := ⟨_, rfl⟩
  rw [← hn]
  have c1 : bitField n 63 60 = 6 := (hn ▸ bitField_pack_at _ 0 4 _ 63 60 rfl rfl rfl).trans rfl
  have c2 : bitField n 59 56 = 0 := (hn ▸ bitField_pack_at _ 1 4 _ 59 56 rfl rfl rfl).trans rfl
  have f0 : bitField n 48 45 = (a.ps).val := (hn ▸ bitField_pack_at _ 4 4 _ 48 45 rfl rfl rfl).trans (Nat.mod_eq_of_lt ((a.ps).isLt))
  have f1 : bitField n 44 39 = (a.ctx).toNat := (hn ▸ bitField_pack_at _ 5 6 _ 44 39 rfl rfl rfl).trans (Nat.mod_eq_of_lt (a.ctx).isLt)
  have f2 : bitAt n 38 = a.te := (bitAt_field n 38).trans (by rw [show bitField n 38 38 = boolNat a.te % 2 ^ 1 from hn ▸ bitField_pack_at _ 6 1 _ 38 38 rfl rfl rfl]; cases a.te <;> rfl)
  have f3 : bitField n 37 32 = (a.tk).val := (hn ▸ bitField_pack_at _ 7 6 _ 37 32 rfl rfl rfl).trans (Nat.mod_eq_of_lt ((a.tk).isLt))
  have f4 : bitField n 31 0 = 0 := (hn ▸ bitField_pack_at _ 8 32 _ 31 0 rfl rfl rfl).trans rfl
  simp only [decodeTileOp, decodeClass4to7, zeroBits, c1, c2, f0, f1, f2, f3, f4, sampleFields, if_true, ofNat_fin, BitVec.ofNat_toNat, BitVec.setWidth_eq]

theorem decode_tbl (tf : Fin 4) (a : TblArgs) (b k : Nat) :
    decodeTileOp (packFields ((4, 7) :: (4, 0) :: (1, b) :: (6, k) :: tileOpFields (.tbl tf a))) = some (.tbl tf a) := by
  obtain ⟨n, hn⟩ : ∃ n, n = packFields ((4, 7) :: (4, 0) :: (1, b) :: (6, k) :: tileOpFields (.tbl tf a)) := ⟨_, rfl⟩
  rw [← hn]
  have c1 : bitField n 63 60 = 7 := (hn ▸ bitField_pack_at _ 0 4 _ 63 60 rfl rfl rfl).trans rfl
  have c2 : bitField n 59 56 = 0 := (hn ▸ bitField_pack_at _ 1 4 _ 59 56 rfl rfl rfl).trans rfl
  have f0 : bitField n 48 45 = (a.ps).val := (hn ▸ bitField_pack_at _ 4 4 _ 48 45 rfl rfl rfl).trans (Nat.mod_eq_of_lt ((a.ps).isLt))
  have f1 : bitField n 44 42 = (tf).val := (hn ▸ bitField_pack_at _ 5 3 _ 44 42 rfl rfl rfl).trans (Nat.mod_eq_of_lt (lt_of_lt_of_le (tf).isLt (by decide)))
  have f2 : bitAt n 41 = a.te := (bitAt_field n 41).trans (by rw [show bitField n 41 41 = boolNat a.te % 2 ^ 1 from hn ▸ bitField_pack_at _ 6 1 _ 41 41 rfl rfl rfl]; cases a.te <;> rfl)
  have f3 : bitField n 40 35 = (a.tk).val := (hn ▸ bitField_pack_at _ 7 6 _ 40 35 rfl rfl rfl).trans (Nat.mod_eq_of_lt ((a.tk).isLt))
  have f4 : bitField n 34 0 = 0 := (hn ▸ bitField_pack_at _ 8 35 _ 34 0 rfl rfl rfl).trans rfl
  simp only [decodeTileOp, decodeClass4to7, zeroBits, c1, c2, f0, f1, f2, f3, f4, tblFields, if_true, ofNat_fin]
  rw [if_pos tf.isLt]


/-- Every operation decodes from its fields. -/
theorem decode_pack (op : TileOp) (b k : Nat) :
    decodeTileOp (packFields ((4, (tileOpClass op).1) :: (4, (tileOpClass op).2) :: (1, b) :: (6, k) :: tileOpFields op)) = some op := by
  cases op with
  | nop => exact decode_nop  b k
  | loop lvl cnt stop => exact decode_loop lvl cnt stop b k
  | jump t => exact decode_jump t b k
  | call t => exact decode_call t b k
  | ret => exact decode_ret  b k
  | brm mb se t => exact decode_brm mb se t b k
  | wait tk cnt => exact decode_wait tk cnt b k
  | stepend => exact decode_stepend  b k
  | swap a => exact decode_swap a b k
  | setp pn imm => exact decode_setp pn imm b k
  | addp pn imm => exact decode_addp pn imm b k
  | setx xn sl imm => exact decode_setx xn sl imm b k
  | addx xn imm => exact decode_addx xn imm b k
  | ldw a => exact decode_ldw a b k
  | mm a => exact decode_mm a b k
  | gopen a => exact decode_gopen a b k
  | gclose a => exact decode_gclose a b k
  | gspill a => exact decode_gspill a b k
  | gfill a => exact decode_gfill a b k
  | gdrop a => exact decode_gdrop a b k
  | vop vfn a => exact decode_vop vfn a b k
  | get a => exact decode_get a b k
  | put a => exact decode_put a b k
  | signal a => exact decode_signal a b k
  | sample a => exact decode_sample a b k
  | tbl tf a => exact decode_tbl tf a b k

theorem tileOpFields_bits (op : TileOp) : fieldBits (tileOpFields op) = 49 := by cases op <;> rfl

/-- A word as a number: its fields, packed. -/
theorem encode_toNat (op : TileOp) (w : WaitField) : ∃ b k, (b = boolNat w.isSome ∧ k = (w.map (fun x => x.val)).getD 0) ∧
    (encodeTileWord op w).toNat = packFields ((4, (tileOpClass op).1) :: (4, (tileOpClass op).2) :: (1, b) :: (6, k) :: tileOpFields op) := by
  have hb : ∀ b k, packFields ((4, (tileOpClass op).1) :: (4, (tileOpClass op).2) :: (1, b) :: (6, k) :: tileOpFields op) < 2 ^ 64 := by
    intro b k
    refine lt_of_lt_of_eq (packFields_lt _) ?_
    congr 1
    show 4 + (4 + (1 + (6 + fieldBits (tileOpFields op)))) = 64
    rw [tileOpFields_bits]
  cases w with
  | none => exact ⟨0, 0, ⟨rfl, rfl⟩, Nat.mod_eq_of_lt (hb 0 0)⟩
  | some x => exact ⟨1, x.val, ⟨rfl, rfl⟩, Nat.mod_eq_of_lt (hb 1 x.val)⟩

/-- The fields of a run are the bits of a number, from bit 0 up. -/
def fitsIn (n : Nat) : List (Nat × Nat) → Prop
  | [] => True
  | f :: fs => f.2 % 2 ^ f.1 = n / 2 ^ fieldBits fs % 2 ^ f.1 ∧ fitsIn n fs

theorem packFields_fits (n : Nat) (fs : List (Nat × Nat)) (h : fitsIn n fs) : packFields fs = n % 2 ^ fieldBits fs := by
  induction fs with
  | nil => simp [packFields, fieldBits, Nat.mod_one]
  | cons f fs ih =>
    rw [packFields_cons, h.1, ih h.2]
    have : fieldBits (f :: fs) = fieldBits fs + f.1 := by simp [fieldBits]; omega
    rw [this, pow_add, Nat.mod_mul]
    ring

theorem zeroBits_some {n hi lo : Nat} {a op : TileOp} (h : zeroBits n hi lo a = some op) : bitField n hi lo = 0 ∧ a = op := by
  unfold zeroBits at h
  split at h
  · rename_i h0; exact ⟨h0, Option.some.inj h⟩
  · cases h

theorem boolNat_bitAt (n i : Nat) : boolNat (bitAt n i) = n / 2 ^ i % 2 := by
  unfold bitAt boolNat
  rw [Nat.shiftRight_eq_div_pow]
  rcases Nat.mod_two_eq_zero_or_one (n / 2 ^ i) with h | h <;> simp [h]

theorem fits_of_decode (n : Nat) (op : TileOp) (h : decodeTileOp n = some op) :
    (tileOpClass op).1 = bitField n 63 60 ∧ (tileOpClass op).2 = bitField n 59 56 ∧ fitsIn n (tileOpFields op) := by
  unfold decodeTileOp at h
  dsimp only at h
  obtain ⟨c, hc⟩ : ∃ c, c = bitField n 63 60 := ⟨_, rfl⟩
  obtain ⟨o, ho⟩ : ∃ o, o = bitField n 59 56 := ⟨_, rfl⟩
  rw [← hc, ← ho] at h ⊢
  clear hc ho
  split at h
  · unfold decodeClass0 at h
    split at h <;> first
      | (obtain ⟨h0, rfl⟩ := zeroBits_some h
         refine ⟨rfl, rfl, ?_⟩
         simp [tileOpFields, swapFields, fitsIn, fieldBits, bitField, Nat.shiftRight_eq_div_pow, boolNat_bitAt, Fin.ofNat] at h0 ⊢
         try omega)
      | cases h
  · unfold decodeClass1 at h
    split at h <;> first
      | (obtain ⟨h0, rfl⟩ := zeroBits_some h
         refine ⟨rfl, rfl, ?_⟩
         simp [tileOpFields, fitsIn, fieldBits, bitField, Nat.shiftRight_eq_div_pow, boolNat_bitAt, Fin.ofNat] at h0 ⊢
         try omega)
      | cases h
  · unfold decodeClass2 at h
    split at h
    · obtain ⟨h0, rfl⟩ := zeroBits_some h
      refine ⟨rfl, rfl, ?_⟩
      simp [tileOpFields, ldwFields, fitsIn, fieldBits, bitField, Nat.shiftRight_eq_div_pow, boolNat_bitAt, Fin.ofNat] at h0 ⊢
      try omega
    · obtain rfl := Option.some.inj h
      refine ⟨rfl, rfl, ?_⟩
      simp [tileOpFields, mmFields, fitsIn, fieldBits, bitField, Nat.shiftRight_eq_div_pow, boolNat_bitAt, Fin.ofNat]
    · cases h
  · unfold decodeClass3 at h
    split at h <;> first
      | (obtain ⟨h0, rfl⟩ := zeroBits_some h
         refine ⟨rfl, rfl, ?_⟩
         simp [tileOpFields, groupFields, fitsIn, fieldBits, bitField, Nat.shiftRight_eq_div_pow, boolNat_bitAt, Fin.ofNat] at h0 ⊢
         try omega)
      | cases h
  · unfold decodeClass4to7 at h
    split at h
    · obtain ⟨h0, rfl⟩ := zeroBits_some h
      refine ⟨rfl, rfl, ?_⟩
      simp [tileOpFields, vopFields, fitsIn, fieldBits, bitField, Nat.shiftRight_eq_div_pow, boolNat_bitAt, Fin.ofNat] at h0 ⊢
      try omega
    · obtain rfl := Option.some.inj h
      refine ⟨rfl, rfl, ?_⟩
      simp [tileOpFields, xferFields, fitsIn, fieldBits, bitField, Nat.shiftRight_eq_div_pow, boolNat_bitAt, Fin.ofNat]
    · obtain rfl := Option.some.inj h
      refine ⟨rfl, rfl, ?_⟩
      simp [tileOpFields, xferFields, fitsIn, fieldBits, bitField, Nat.shiftRight_eq_div_pow, boolNat_bitAt, Fin.ofNat]
    · obtain ⟨h0, rfl⟩ := zeroBits_some h
      refine ⟨rfl, rfl, ?_⟩
      simp [tileOpFields, signalFields, fitsIn, fieldBits, bitField, Nat.shiftRight_eq_div_pow, boolNat_bitAt, Fin.ofNat] at h0 ⊢
      try omega
    · obtain ⟨h0, rfl⟩ := zeroBits_some h
      refine ⟨rfl, rfl, ?_⟩
      simp [tileOpFields, sampleFields, fitsIn, fieldBits, bitField, Nat.shiftRight_eq_div_pow, boolNat_bitAt, Fin.ofNat] at h0 ⊢
      try omega
    · split at h
      · rename_i h4
        obtain ⟨h0, rfl⟩ := zeroBits_some h
        refine ⟨rfl, rfl, ?_⟩
        simp [tileOpFields, tblFields, fitsIn, fieldBits, bitField, Nat.shiftRight_eq_div_pow, boolNat_bitAt, Fin.ofNat] at h0 h4 ⊢
        try omega
      · cases h
    · cases h

end Sys2Proof.Machine
end

