-- ==== Sys2Proof/Laws/Events.lean ====
section
/-!
SUPPORT. The fields of a Trunk Record entry; what posting a Trunk Record entry and raising an event can do.
-/

namespace Sys2Proof.Machine

/-- Posting an entry changes the Trunk Record and, of the registers, the count of waits alone. -/
theorem trunkPost_regs (ring kind die payload : Nat) (s : State) :
    ∃ a b, trunkPost ring kind die payload s = { s with regs := a, trunk := b } ∧ (∀ q, q ≠ 0x702008 → smGetD a q 0 = s.reg q) := by
  unfold trunkPost
  dsimp only
  split
  · exact ⟨s.regs, s.trunk, rfl, fun _ _ => rfl⟩
  · split
    · exact ⟨_, _, rfl, fun q h => smGetD_smPut_ne _ _ _ _ _ (fun e => h e.symm)⟩
    · exact ⟨s.regs, _, rfl, fun _ _ => rfl⟩

/-- Raising an event changes the Trunk Record, the records not yet in a frame and, of the registers, the count of waits
alone. -/
theorem raiseAt_parts (e d t sub op : Nat) (s : State) :
    ∃ a b c, raiseAt e d t sub op s = { s with regs := a, trunk := b, evBatch := c } ∧
      (∀ q, q ≠ 0x702008 → smGetD a q 0 = s.reg q) := by
  obtain ⟨a2, b2, h2, h3⟩ := trunkPost_regs 1 1 (epDie (endpoint s d t)) (eventBits { code := e, subunit := sub % 256, unit := endpoint s d t, operation := op % 2 ^ 32, time := s.now, temp := wrapInt 16 (hottest s (epDie (endpoint s d t))), volt := s.reg (dieKey 0 (0x200405 + epDie (endpoint s d t))) % 65536 }) s
  unfold raiseAt raiseUnit
  dsimp only
  rw [h2]
  unfold batchEvent
  split
  · exact ⟨a2, b2, _, rfl, h3⟩
  · exact ⟨a2, b2, _, rfl, h3⟩

/-- Writing the head of flow 10 takes it off the queue. -/
theorem drainTrunk_queue (t : Trunk) : (drainTrunk t).queue = t.queue.tail := by
  unfold drainTrunk
  split
  · rename_i h; rw [h]; rfl
  · rename_i h
    rw [h]
    unfold writeEntry
    dsimp only
    split
    · rfl
    · rfl

/-- A field of a field. -/
theorem subField (n a hi lo W : Nat) (h : hi < W) :
    n >>> (a + lo) % 2 ^ (a + hi + 1 - (a + lo)) = (n >>> a % 2 ^ W) >>> lo % 2 ^ (hi + 1 - lo) := by
  simp only [Nat.shiftRight_eq_div_pow]
  by_cases hl : lo ≤ hi
  · have e1 : a + hi + 1 - (a + lo) = hi + 1 - lo := by omega
    rw [e1, pow_add, ← Nat.div_div_eq_div_mul]
    generalize n / 2 ^ a = y
    have e2 : (2 : Nat) ^ W = 2 ^ lo * 2 ^ (W - lo) := by rw [← pow_add]; congr 1; omega
    rw [e2, Nat.mod_mul_right_div_self]
    have e3 : (2 : Nat) ^ (W - lo) = 2 ^ (hi + 1 - lo) * 2 ^ (W - 1 - hi) := by rw [← pow_add]; congr 1; omega
    rw [e3, Nat.mod_mul_right_mod]
  · have e1 : a + hi + 1 - (a + lo) = 0 := by omega
    have e2 : hi + 1 - lo = 0 := by omega
    rw [e1, e2]; simp [Nat.mod_one]

/-- The fields of an entry (R449) under its CRC. -/
theorem trunkEntry_fields (seq time kind die st payload : Nat) (h1 : seq < 2 ^ 64) (h3 : kind < 2 ^ 16) (h4 : die < 4) (h5 : st < 16) (h6 : payload < 2 ^ 256) :
    leNat (trunkEntry seq time kind die st payload) = packFields [(64, seq), (64, time), (16, kind), (2, die), (4, st), (74, 0), (256, payload),
      (32, (crc32c (leBytes 64 (packFields [(64, seq), (64, time), (16, kind), (2, die), (4, st), (74, 0), (256, payload), (32, 0)]))).toNat)] := by
  have hpack : ∀ c, c < 2 ^ 32 → packFields [(64, seq), (64, time), (16, kind), (2, die), (4, st), (74, 0), (256, payload), (32, c)]
      = atBit 448 seq + atBit 384 (time % 2 ^ 64) + atBit 368 kind + atBit 366 die + atBit 362 st + atBit 32 payload + c := by
    intro c hc
    simp only [packFields_cons, fieldBits, List.map_cons, List.map_nil, List.sum_cons, List.sum_nil, Nat.mod_eq_of_lt h1, Nat.mod_eq_of_lt h3, Nat.mod_eq_of_lt (show die < 2 ^ 2 from h4),
      Nat.mod_eq_of_lt (show st < 2 ^ 4 from h5), Nat.mod_eq_of_lt h6, Nat.mod_eq_of_lt hc]
    simp only [atBit, packFields, List.foldl_nil]
    norm_num
    ring
  unfold trunkEntry
  dsimp only
  obtain ⟨N, hN⟩ : ∃ N, N = atBit 448 seq + atBit 384 (time % 2 ^ 64) + atBit 368 kind + atBit 366 die + atBit 362 st + atBit 32 payload := ⟨_, rfl⟩
  rw [hpack 0 (by norm_num), ← hN, Nat.add_zero]
  obtain ⟨c, hc⟩ : ∃ c, c = (crc32c (leBytes 64 N)).toNat := ⟨_, rfl⟩
  have hlt : c < 2 ^ 32 := by rw [hc]; exact (crc32c (leBytes 64 N)).isLt
  rw [← hc, hpack c hlt, ← hN, leNat_leBytes]
  have hl := packFields_lt [(64, seq), (64, time), (16, kind), (2, die), (4, st), (74, 0), (256, payload), (32, c)]
  rw [hpack c hlt, ← hN] at hl
  refine Nat.mod_eq_of_lt (lt_of_lt_of_eq hl ?_)
  have hw : fieldBits [(64, seq), (64, time), (16, kind), (2, die), (4, st), (74, 0), (256, payload), (32, c)] = 8 * 64 := by simp [fieldBits]
  rw [hw, pow_mul]
  exact congrArg (fun x => x ^ 64) (by norm_num)

end Sys2Proof.Machine
end

