-- ==== Sys2Proof/Laws/Network.lean ====
section
/-!
SUPPORT. What sending over Midway can change (R305-R315): ports, flows, what has left the package, events and counts; never
memory, tiles, the step or the package state.
-/

namespace Sys2Proof.Machine

/-- Between two states only what Midway works on, the events and the network's counts differ. -/
structure NetOnly (s t : State) : Prop where
  rest : t = { s with regs := t.regs, trunk := t.trunk, evBatch := t.evBatch, ports := t.ports, out := t.out, samples := t.samples,
                      rounded := t.rounded, flowsTx := t.flowsTx, resendNext := t.resendNext, txWait := t.txWait }
  low : ∀ q, q < 0x702008 → t.reg q = s.reg q

theorem NetOnly.refl (s : State) : NetOnly s s := ⟨rfl, fun _ _ => rfl⟩

theorem NetOnly.trans {s t u : State} (h : NetOnly s t) (g : NetOnly t u) : NetOnly s u := by
  refine ⟨?_, fun q hq => (g.low q hq).trans (h.low q hq)⟩
  have := g.rest
  rw [h.rest] at this
  exact this

theorem NetOnly.ite {s a b : State} {p : Prop} [Decidable p] (h : NetOnly s a) (g : NetOnly s b) : NetOnly s (if p then a else b) := by
  split
  · exact h
  · exact g

theorem NetOnly.of_rest {s t : State} (h : t = { s with ports := t.ports, out := t.out, samples := t.samples, rounded := t.rounded, flowsTx := t.flowsTx, resendNext := t.resendNext, txWait := t.txWait }) : NetOnly s t := by
  have hr : t.regs = s.regs := by rw [h]
  have ht : t.trunk = s.trunk := by rw [h]
  have he : t.evBatch = s.evBatch := by rw [h]
  refine ⟨?_, fun q _ => by unfold State.reg; rw [hr]⟩
  rw [hr, ht, he]
  exact h

theorem raiseAt_net (e d t sub op : Nat) (s : State) : NetOnly s (raiseAt e d t sub op s) := by
  obtain ⟨a, b, c, h, hr⟩ := raiseAt_parts e d t sub op s
  rw [h]
  exact ⟨rfl, fun q hq => hr q (by omega)⟩

theorem bumpReg_net (k n : Nat) (s : State) (h : 0x702008 ≤ k) : NetOnly s (bumpReg k n s) :=
  ⟨rfl, fun q hq => bumpReg_reg_ne _ _ _ _ (by omega)⟩

theorem highReg_net (k n : Nat) (s : State) (h : 0x702008 ≤ k) : NetOnly s (highReg k n s) :=
  ⟨rfl, fun q hq => setReg_reg_ne _ _ _ _ (by omega)⟩

theorem modPort_net (p : Nat) (f : MidPort → MidPort) (s : State) : NetOnly s (modPort p f s) := .of_rest rfl

theorem discardMsg_net (c d : Nat) (m : Msg) (s : State) : NetOnly s (discardMsg c d m s) := by
  unfold discardMsg
  dsimp only
  refine (bumpReg_net _ _ _ ?_).trans (raiseAt_net _ _ _ _ _ _)
  unfold dieKey
  split <;> omega

theorem allOf_net {α : Type} (xs : List α) (f : α → State → State) (h : ∀ x s, NetOnly s (f x s)) (s : State) : NetOnly s (allOf xs f s) := by
  unfold allOf
  induction xs generalizing s with
  | nil => exact .refl s
  | cons x xs ih => exact (h x s).trans (ih _)

theorem sampleHeader_net (p : Nat) (sent : Bool) (vc q c : Nat) (m : Msg) (s : State) : NetOnly s (sampleHeader p sent vc q c m s) := by
  unfold sampleHeader
  dsimp only
  refine NetOnly.ite (.of_rest rfl) (.of_rest rfl)

theorem pumpPort_net (p : Nat) (r : Bool) (s : State) : NetOnly s (pumpPort p r s) := by
  unfold pumpPort
  dsimp only
  split
  · exact (modPort_net _ _ _).trans (allOf_net _ _ (fun x s => NetOnly.of_rest (t := emit _ s) rfl) _)
  · exact .refl s

theorem handToPort_net (p vc : Nat) (m : Msg) (s : State) : NetOnly s (handToPort p vc m s) :=
  (sampleHeader_net _ _ _ _ _ _ _).trans ((modPort_net _ _ _).trans (pumpPort_net _ _ _))

theorem leaveBy_net (pair base cls : Nat) (m : Msg) (d : Nat) (s : State) : NetOnly s (leaveBy pair base cls m d s) := by
  unfold leaveBy
  split
  · exact discardMsg_net ..
  · split
    · exact discardMsg_net ..
    · split
      · exact discardMsg_net ..
      · exact handToPort_net ..

theorem routeOut_net (d : Nat) (i : Option (Nat × Nat)) (m : Msg) (s : State) : NetOnly s (routeOut d i m s) := by
  unfold routeOut
  dsimp only
  refine .ite (discardMsg_net ..) (.ite (discardMsg_net ..) (.ite (leaveBy_net ..) (.ite (leaveBy_net ..) (.ite (leaveBy_net ..)
    (.ite (discardMsg_net ..) ?_)))))
  split
  · exact discardMsg_net ..
  · refine .ite (discardMsg_net ..) (NetOnly.trans ?_ (leaveBy_net ..))
    refine (bumpReg_net (dieKey d 0x818014) 1 s (by unfold dieKey; omega)).trans (.ite (.refl _) ?_)
    refine NetOnly.trans ?_ (raiseAt_net ..)
    exact .of_rest rfl

theorem sendWaiting_net (w : Waiting) (s : State) : NetOnly s (sendWaiting w s) := by
  unfold sendWaiting
  dsimp only
  exact ((NetOnly.of_rest (t := setTx _ _ s) rfl).trans (highReg_net _ _ _ (by unfold dieKey; omega))).trans (routeOut_net ..)

theorem sendMsg_net (die : Nat) (o : Option (Nat × Nat)) (m : Msg) (s : State) : NetOnly s (sendMsg die o m s) := by
  unfold sendMsg
  dsimp only
  split
  · exact .of_rest rfl
  · split
    · exact .of_rest rfl
    · exact sendWaiting_net ..

theorem sendBare_net (die : Nat) (m : Msg) (s : State) : NetOnly s (sendBare die m s) := routeOut_net ..

theorem NetOnly.tiles {s t : State} (h : NetOnly s t) : t.tiles = s.tiles := by rw [h.rest]
theorem NetOnly.tile {s t : State} (h : NetOnly s t) (k : Nat) : t.tile k = s.tile k := by unfold State.tile; rw [h.tiles]
theorem NetOnly.mem {s t : State} (h : NetOnly s t) : t.mem = s.mem := by rw [h.rest]
theorem NetOnly.life {s t : State} (h : NetOnly s t) : t.life = s.life := by rw [h.rest]
theorem NetOnly.job {s t : State} (h : NetOnly s t) : t.job = s.job := by rw [h.rest]
theorem NetOnly.step {s t : State} (h : NetOnly s t) : t.step = s.step := by rw [h.rest]

end Sys2Proof.Machine
end

