-- ==== Sys2Proof/Laws/Tiles.lean ====
section
/-!
SUPPORT. What issue does, once for every tile instruction: the state its effect begins in, and the state it ends in when
the effect raises nothing and the sequencer moves on.
-/

namespace Sys2Proof.Machine
open Sys2Proof

theorem smPut_smPut {α : Type} (m : SMap α) (a : Nat) (v w : α) : smPut (smPut m a v) a w = smPut m a w := by
  induction m with
  | nil => simp [smPut]
  | cons c m ih =>
    obtain ⟨k, x⟩ := c
    by_cases h1 : a < k
    · simp [smPut, h1]
    · by_cases h2 : a = k
      · simp [smPut, h2]
      · simp [smPut, h1, h2, ih]

theorem setTile_setTile (k : Nat) (t u : Tile) (s : State) : setTile k u (setTile k t s) = setTile k u s := by
  simp only [setTile, smPut_smPut]

theorem canIssue_life {op : TileOp} {k : Nat} {w : WaitField} {s : State} (h : canIssue op k w s = true) : s.life ≠ .off := by
  intro h0
  simp [canIssue, runsTiles, h0] at h

theorem canIssue_active {op : TileOp} {k : Nat} {w : WaitField} {s : State} (h : canIssue op k w s = true) :
    (s.tile k).run = .active := by
  simp only [canIssue, Bool.and_eq_true, decide_eq_true_eq] at h
  exact h.1.1.1.1.1.2

@[simp] theorem consumeToken_ia (k : Nat) (tk : Fin 64) (n j : Nat) (s : State) : ((consumeToken k tk n s).tile j).ia = (s.tile j).ia := by
  unfold consumeToken
  dsimp only
  rw [setTile_tile]
  split
  · subst_vars; rfl
  · rfl

@[simp] theorem consumeToken_bad (k : Nat) (tk : Fin 64) (n : Nat) (s : State) : (consumeToken k tk n s).bad = s.bad := rfl

@[simp] theorem beginIssue_bad (op : TileOp) (k : Nat) (w : WaitField) (s : State) : (beginIssue op k w s).bad = s.bad := by
  unfold beginIssue
  cases op <;> cases w <;> rfl

@[simp] theorem beginIssue_ia (op : TileOp) (k j : Nat) (w : WaitField) (s : State) :
    ((beginIssue op k w s).tile j).ia = (s.tile j).ia := by
  unfold beginIssue
  cases op <;> cases w <;> simp

/-- What issue answers when the instruction issues with its own effect. -/
theorem issue_issues (op : TileOp) (r : TileRef) (w : WaitField) (eff : State → State × Option Nat) (s : State)
    (h : Issues op r w s) :
    issue op (tileKey r) w eff s =
      (if ((eff (issued op r w s)).1.tile (tileKey r)).run = .active then
        advance (tileKey r) (eff (issued op r w s)).2 (eff (issued op r w s)).1 else (eff (issued op r w s)).1) := by
  unfold issue
  rw [if_pos h.can]
  dsimp only
  rw [beginIssue_ia, h.ok]
  have hn : (footprint (s.tile (tileKey r)) op).find?
      (fun x => !x.wr && badSram (beginIssue op (tileKey r) w s) (tileBase (tileKey r) + x.lo) x.len) = none := by
    rw [List.find?_eq_none]
    intro x hx
    cases hw : x.wr with
    | true => simp
    | false =>
      have := h.sound x hx hw
      unfold badSram at this ⊢
      rw [beginIssue_bad]
      simp [this]
  rw [hn]
  rfl

theorem advance_inOrder (k : Nat) (s : State) (h : nextInOrder (s.tile k) < 8192) :
    advance k none s = setTile k (movedOn (s.tile k)) s := by
  have h2 : (afterAddr 4 (s.tile k).ia.toNat (s.tile k)).1 < 8192 := h
  simp only [advance, goTo, if_pos h2, modTile, setTile_tile_self, setTile_setTile]
  rfl

theorem advance_to (k a : Nat) (s : State) (h : a < 8192) :
    advance k (some a) s = setTile k { s.tile k with ia := BitVec.ofNat 13 a } s := by
  simp only [advance, goTo, if_pos h, modTile]

theorem filter_not_any_nil (xs : List Nat) (p : Span → Nat → Bool) : xs.filter (fun b => !([] : List Span).any (fun x => p x b)) = xs := by
  simp

/-- An effect that raises nothing and stays on its tile: what the package holds afterwards. -/
theorem takeCtx_quiet (k op : Nat) (c : TCtx) (s : State) (he : c.evs = []) (ha : c.aborts = []) :
    takeCtx k op c s = allOf c.cnt (fun p => bumpReg (dieKey (keyDie k) (tallyKey p)) p.2.2)
      (setTile k c.tile { s with mem := c.mem, free := c.free, step := { s.step with sat := s.step.sat + c.satCount, nonfin := s.step.nonfin + c.nonfinCount } }) := by
  unfold takeCtx
  simp [he, ha, allOf]

/-- A tile instruction whose effect is to change its tile alone. -/
theorem issueTile_tile (op : TileOp) (r : TileRef) (w : WaitField) (eff : TCtx → TCtx) (s : State) (T : Tile) (tgt : Option Nat)
    (h : Issues op r w s) (hw : (footprint ((issued op r w s).tile (tileKey r)) op).filter (fun x => x.wr) = [])
    (he : eff (tileCtx (tileKey r) (issued op r w s)) = { tileCtx (tileKey r) (issued op r w s) with tile := T, target := tgt }) :
    issueTile op r w eff s = (if T.run = .active then advance (tileKey r) tgt (setTile (tileKey r) T (issued op r w s))
      else setTile (tileKey r) T (issued op r w s)) := by
  unfold issueTile
  rw [issue_issues op r w _ s h]
  generalize issued op r w s = u at *
  have hr : runTile (tileKey r) op w eff u = (setTile (tileKey r) T u, tgt) := by
    unfold runTile
    rw [hw, he]
    dsimp only
    rw [takeCtx_quiet _ _ _ _ rfl rfl]
    simp only [tileCtx, allOf, List.foldl_nil, Nat.add_zero, List.any_nil, Bool.not_false, List.filter_true]
  rw [hr, setTile_tile_self]

@[simp] theorem consumeToken_run (k : Nat) (tk : Fin 64) (n j : Nat) (s : State) : ((consumeToken k tk n s).tile j).run = (s.tile j).run := by
  unfold consumeToken
  dsimp only
  rw [setTile_tile]
  split
  · subst_vars; rfl
  · rfl
@[simp] theorem beginIssue_run (op : TileOp) (k j : Nat) (w : WaitField) (s : State) :
    ((beginIssue op k w s).tile j).run = (s.tile j).run := by
  unfold beginIssue
  cases op <;> cases w <;> simp

theorem foldl_tiles {α : Type} (g : State → α → State) (xs : List α) (s : State) (hg : ∀ s x, (g s x).tiles = s.tiles) : (xs.foldl g s).tiles = s.tiles := by
  induction xs generalizing s with
  | nil => rfl
  | cons x xs ih => rw [List.foldl_cons, ih, hg]
@[simp] theorem raceLines_run (k j : Nat) (spans : List Span) (s : State) :
    ((raceLines k spans s).tile j).run = (s.tile j).run := by
  unfold raceLines
  dsimp only
  unfold modTile
  rw [setTile_tile]
  have h : ∀ (hit : List OutsideLine) (s : State), (hit.foldl (fun s o =>
    let r := freeBytes 64 s
    putMem (tileBase k + 64 * o.line) r.1 r.2) s).tiles = s.tiles := fun hit s => foldl_tiles _ _ _ (fun s x => rfl)
  split
  · subst_vars; simp only [State.tile, h]
  · simp only [State.tile, h]
@[simp] theorem issued_run (op : TileOp) (r : TileRef) (w : WaitField) (s : State) (j : Nat) :
  ((issued op r w s).tile j).run = (s.tile j).run := by
  unfold issued; simp

theorem consumeToken_tile_parts (k : Nat) (tk : Fin 64) (n j : Nat) (s : State) :
    ∃ a b c, (consumeToken k tk n s).tile j = { s.tile j with tok := a, prefetch := b, outside := c } := by
  unfold consumeToken
  dsimp only
  rw [setTile_tile]
  split
  · subst_vars; exact ⟨_, _, _, rfl⟩
  · exact ⟨(s.tile j).tok, (s.tile j).prefetch, (s.tile j).outside, rfl⟩

theorem beginIssue_tile_parts (op : TileOp) (k j : Nat) (w : WaitField) (s : State) :
    ∃ a b c, (beginIssue op k w s).tile j = { s.tile j with tok := a, prefetch := b, outside := c } := by
  unfold beginIssue
  cases w with
  | none =>
    cases op <;> first
      | exact ⟨(s.tile j).tok, (s.tile j).prefetch, (s.tile j).outside, rfl⟩
      | exact consumeToken_tile_parts k _ _ j s
  | some tk =>
    obtain ⟨a, b, c, h⟩ := consumeToken_tile_parts k tk 1 j s
    cases op with
    | wait tk2 cnt =>
      obtain ⟨a2, b2, c2, h2⟩ := consumeToken_tile_parts k tk2 cnt.toNat j (consumeToken k tk 1 s)
      exact ⟨a2, b2, c2, by simp only [bumpReg_tile_of]; rw [h2, h]⟩
    | _ => exact ⟨a, b, c, h⟩

theorem raceLines_tile_parts (k j : Nat) (spans : List Span) (s : State) :
    ∃ c, (raceLines k spans s).tile j = { s.tile j with outside := c } := by
  unfold raceLines
  dsimp only
  unfold modTile
  rw [setTile_tile]
  have h : ∀ (hit : List OutsideLine) (s : State) (i : Nat), (hit.foldl (fun s o =>
    let r := freeBytes 64 s
    putMem (tileBase k + 64 * o.line) r.1 r.2) s).tile i = s.tile i := fun hit s i => by
      have := foldl_tiles (fun s (o : OutsideLine) => let r := freeBytes 64 s; putMem (tileBase k + 64 * o.line) r.1 r.2) hit s (fun _ _ => rfl)
      unfold State.tile
      rw [this]
  split
  · subst_vars; exact ⟨_, by rw [h]⟩
  · exact ⟨(s.tile j).outside, by rw [h]⟩

/-- Issue takes tokens, and drops prefetched lines and marks of lines from outside; nothing else of a tile changes. -/
theorem issued_tile_parts (op : TileOp) (r : TileRef) (w : WaitField) (s : State) (j : Nat) :
    ∃ a b c, (issued op r w s).tile j = { s.tile j with tok := a, prefetch := b, outside := c } := by
  obtain ⟨a, b, c, h⟩ := beginIssue_tile_parts op (tileKey r) j w s
  obtain ⟨d, h2⟩ := raceLines_tile_parts (tileKey r) j (footprint (s.tile (tileKey r)) op) (beginIssue op (tileKey r) w s)
  exact ⟨a, b, d, by unfold issued; rw [h2, h]⟩

@[simp] theorem issued_mode (op : TileOp) (r : TileRef) (w : WaitField) (s : State) (j : Nat) : ((issued op r w s).tile j).mode = (s.tile j).mode := by
  obtain ⟨_, _, _, h⟩ := issued_tile_parts op r w s j; rw [h]
@[simp] theorem issued_ia (op : TileOp) (r : TileRef) (w : WaitField) (s : State) (j : Nat) : ((issued op r w s).tile j).ia = (s.tile j).ia := by
  obtain ⟨_, _, _, h⟩ := issued_tile_parts op r w s j; rw [h]
@[simp] theorem issued_calls (op : TileOp) (r : TileRef) (w : WaitField) (s : State) (j : Nat) : ((issued op r w s).tile j).calls = (s.tile j).calls := by
  obtain ⟨_, _, _, h⟩ := issued_tile_parts op r w s j; rw [h]
@[simp] theorem issued_loops (op : TileOp) (r : TileRef) (w : WaitField) (s : State) (j : Nat) : ((issued op r w s).tile j).loops = (s.tile j).loops := by
  obtain ⟨_, _, _, h⟩ := issued_tile_parts op r w s j; rw [h]
@[simp] theorem issued_ptr (op : TileOp) (r : TileRef) (w : WaitField) (s : State) (j : Nat) : ((issued op r w s).tile j).ptr = (s.tile j).ptr := by
  obtain ⟨_, _, _, h⟩ := issued_tile_parts op r w s j; rw [h]
@[simp] theorem issued_xreg (op : TileOp) (r : TileRef) (w : WaitField) (s : State) (j : Nat) : ((issued op r w s).tile j).xreg = (s.tile j).xreg := by
  obtain ⟨_, _, _, h⟩ := issued_tile_parts op r w s j; rw [h]
@[simp] theorem issued_groups (op : TileOp) (r : TileRef) (w : WaitField) (s : State) (j : Nat) : ((issued op r w s).tile j).groups = (s.tile j).groups := by
  obtain ⟨_, _, _, h⟩ := issued_tile_parts op r w s j; rw [h]
@[simp] theorem issued_planes (op : TileOp) (r : TileRef) (w : WaitField) (s : State) (j : Nat) : ((issued op r w s).tile j).planes = (s.tile j).planes := by
  obtain ⟨_, _, _, h⟩ := issued_tile_parts op r w s j; rw [h]
@[simp] theorem issued_encore (op : TileOp) (r : TileRef) (w : WaitField) (s : State) (j : Nat) : ((issued op r w s).tile j).encore = (s.tile j).encore := by
  obtain ⟨_, _, _, h⟩ := issued_tile_parts op r w s j; rw [h]

theorem afterAddr_parts (n ia : Nat) (t : Tile) : ∃ l, (afterAddr n ia t).2 = { t with loops := l } := by
  induction n generalizing t with
  | zero => exact ⟨t.loops, rfl⟩
  | succ n ih =>
    simp only [afterAddr]
    split
    · exact ⟨t.loops, rfl⟩
    · split
      · exact ⟨_, rfl⟩
      · obtain ⟨l, h⟩ := ih _
        exact ⟨l, h⟩

/-- An instruction whose effect is to change its tile alone, and which moves on in program order. -/
theorem changesTile_of (op : TileOp) (r : TileRef) (w : WaitField) (s : State) (eff : TCtx → TCtx) (T : Tile → Tile)
    (hw : ∀ t, (footprint t op).filter (fun x => x.wr) = [])
    (he : eff (tileCtx (tileKey r) (issued op r w s)) =
      { tileCtx (tileKey r) (issued op r w s) with tile := T ((issued op r w s).tile (tileKey r)) })
    (hr : ∀ t : Tile, (T t).run = t.run) :
    changesTile op r w s T (.next (powered (issueTile op r w eff) s)) := by
  intro h hn
  rw [powered_on _ _ (canIssue_life h.can)]
  rw [issueTile_tile op r w eff s (T ((issued op r w s).tile (tileKey r))) none h (hw _) (by rw [he]; rfl)]
  rw [hr]
  have hrun : ((issued op r w s).tile (tileKey r)).run = .active := by
    rw [issued_run]; exact canIssue_active h.can
  rw [if_pos hrun]
  rw [advance_inOrder _ _ (by rw [setTile_tile_self]; exact hn), setTile_tile_self, setTile_setTile]

/-- An instruction whose effect is to change its tile and name the next address. -/
theorem goesToAddress_of (op : TileOp) (r : TileRef) (w : WaitField) (s : State) (eff : TCtx → TCtx) (T : Tile → Tile) (a : BitVec 13)
    (hw : ∀ t, (footprint t op).filter (fun x => x.wr) = [])
    (he : eff (tileCtx (tileKey r) (issued op r w s)) =
      { tileCtx (tileKey r) (issued op r w s) with tile := T ((issued op r w s).tile (tileKey r)), target := some a.toNat })
    (hr : ∀ t : Tile, (T t).run = t.run) :
    goesToAddress op r w s T a (.next (powered (issueTile op r w eff) s)) := by
  intro h
  rw [powered_on _ _ (canIssue_life h.can)]
  rw [issueTile_tile op r w eff s (T ((issued op r w s).tile (tileKey r))) (some a.toNat) h (hw _) he, hr]
  have hrun : ((issued op r w s).tile (tileKey r)).run = .active := by
    rw [issued_run]; exact canIssue_active h.can
  rw [if_pos hrun, advance_to _ _ _ (by have := a.isLt; omega), setTile_tile_self, setTile_setTile]
  simp

theorem countsOnly_refl (d : Nat) (s : State) : countsOnly d s s := fun _ _ => rfl

theorem countsOnly.trans {d : Nat} {s t u : State} (h : countsOnly d s t) (g : countsOnly d t u) : countsOnly d s u :=
  fun q hq => (g q hq).trans (h q hq)

theorem countsOnly_regs {d : Nat} {s t : State} (h : t.regs = s.regs) : countsOnly d s t :=
  fun q _ => by unfold State.reg; rw [h]

theorem countsOnly_bumpReg (d k n : Nat) (s : State) (h : counts d k = true) : countsOnly d s (bumpReg k n s) := by
  intro q hq
  have hk : k ≠ q := by rintro rfl; rw [h] at hq; exact absurd hq (by decide)
  unfold State.reg bumpReg setReg
  exact smGetD_smPut_ne _ _ _ _ _ hk

theorem counts_group (d i sub : Nat) (h : sub < 256) (hi : i ∈ [0x8040, 0x8060, 0x8080, 0x80A0, 0x80E0, 0x8140]) :
    counts d (dieKey d (i * 256 + sub)) = true := by
  unfold counts dieKey
  rw [show (i * 256 + sub + 262144 * d) / 256 = i + 0x400 * d from by omega]
  simp only [Bool.or_eq_true, List.any_eq_true]
  exact Or.inr ⟨i, hi, by simp⟩

theorem counts_tally (d : Nat) (p : Tally × BitVec 8 × Nat) : counts d (dieKey d (tallyKey p)) = true := by
  unfold tallyKey
  exact counts_group d _ _ p.2.1.isLt (by cases p.1 <;> decide)

theorem bumps_parts (d : Nat) (cnt : List (Tally × BitVec 8 × Nat)) (s : State) :
    ∃ a, allOf cnt (fun p => bumpReg (dieKey d (tallyKey p)) p.2.2) s = { s with regs := a } ∧ countsOnly d s { s with regs := a } := by
  unfold allOf
  induction cnt generalizing s with
  | nil => exact ⟨s.regs, rfl, countsOnly_refl d s⟩
  | cons x xs ih =>
    obtain ⟨a, h, g⟩ := ih (bumpReg (dieKey d (tallyKey x)) x.2.2 s)
    exact ⟨a, h, (countsOnly_bumpReg d _ _ s (counts_tally d x)).trans g⟩

/-- The dictionary registers that issue itself changes are counters. -/
theorem issued_counts (op : TileOp) (r : TileRef) (w : WaitField) (s : State) : countsOnly r.die.val s (issued op r w s) := by
  have hd : keyDie (tileKey r) = r.die.val := by
    have := r.tile.isLt; have := r.die.isLt
    unfold keyDie tileKey; omega
  have hc : ∀ (tk : Fin 64) (n : Nat) (s : State), countsOnly r.die.val s (consumeToken (tileKey r) tk n s) := by
    intro tk n s
    unfold consumeToken
    dsimp only
    rw [hd]
    exact (countsOnly_bumpReg r.die.val _ _ s (counts_group r.die.val 0x8140 0x0A (by decide) (by decide))).trans (countsOnly_regs rfl)
  have h1 : ∀ s : State, countsOnly r.die.val s (bumpReg (dieKey (keyDie (tileKey r)) 0x806001) 1 s) := by
    intro s
    rw [hd]
    exact countsOnly_bumpReg r.die.val _ _ s (counts_group r.die.val 0x8060 1 (by decide) (by decide))
  have hb : countsOnly r.die.val s (beginIssue op (tileKey r) w s) := by
    unfold beginIssue
    cases w with
    | none => cases op <;> first | exact h1 _ | exact (hc _ _ _).trans (h1 _)
    | some tk => cases op <;> first | exact (hc _ _ _).trans (h1 _) | exact ((hc _ _ _).trans (hc _ _ _)).trans (h1 _)
  refine hb.trans (countsOnly_regs ?_)
  have h : ∀ (hit : List OutsideLine) (s : State), (hit.foldl (fun s o =>
    let r2 := freeBytes 64 s
    putMem (tileBase (tileKey r) + 64 * o.line) r2.1 r2.2) s).regs = s.regs := by
    intro hit
    induction hit with
    | nil => exact fun _ => rfl
    | cons x xs ih => exact fun s => ih _
  unfold issued raceLines modTile
  exact h _ _

theorem innerLoop_congr (t u : Tile) (ia : Nat) (h : t.loops = u.loops) : innerLoop t ia = innerLoop u ia := by
  unfold innerLoop
  rw [h]

theorem afterAddr_congr (n ia : Nat) (t u : Tile) (h : t.loops = u.loops) :
    (afterAddr n ia t).1 = (afterAddr n ia u).1 ∧ (afterAddr n ia t).2.loops = (afterAddr n ia u).2.loops := by
  induction n generalizing t u with
  | zero => exact ⟨rfl, h⟩
  | succ n ih =>
    simp only [afterAddr]
    rw [innerLoop_congr t u ia h]
    split
    · exact ⟨rfl, h⟩
    · rw [h]
      split
      · exact ⟨rfl, rfl⟩
      · exact ih _ _ rfl

theorem nextInOrder_congr (t u : Tile) (h : t.loops = u.loops) (hi : t.ia = u.ia) : nextInOrder t = nextInOrder u := by
  unfold nextInOrder
  rw [hi]
  exact (afterAddr_congr 4 _ t u h).1

/-- A tile instruction whose effect raises nothing and aborts nothing. -/
theorem issueTile_quiet (op : TileOp) (r : TileRef) (w : WaitField) (eff : TCtx → TCtx) (s : State) (c : TCtx)
    (h : Issues op r w s) (hc : eff (tileCtx (tileKey r) (issued op r w s)) = c) (he : c.evs = []) (ha : c.aborts = [])
    (ht : c.target = none) (hr : c.tile.run = .active) (hn : nextInOrder c.tile < 8192) :
    ∃ rg bd, (issueTile op r w eff s = { issued op r w s with
      mem := c.mem, free := c.free, bad := bd, regs := rg, tiles := smPut (issued op r w s).tiles (tileKey r) (movedOn c.tile),
      step := { (issued op r w s).step with sat := (issued op r w s).step.sat + c.satCount, nonfin := (issued op r w s).step.nonfin + c.nonfinCount } }) ∧
      countsOnly r.die.val s { s with regs := rg } := by
  have hi := issued_counts op r w s
  have hd : keyDie (tileKey r) = r.die.val := by
    have := r.tile.isLt; have := r.die.isLt
    unfold keyDie tileKey; omega
  unfold issueTile
  rw [issue_issues op r w _ s h]
  generalize issued op r w s = u at *
  have hrt : ∃ rg bd, runTile (tileKey r) op w eff u = ({ setTile (tileKey r) c.tile { u with mem := c.mem, free := c.free, bad := bd, step := { u.step with sat := u.step.sat + c.satCount, nonfin := u.step.nonfin + c.nonfinCount } } with regs := rg }, none) ∧
      countsOnly r.die.val u { u with regs := rg } := by
    unfold runTile
    rw [hc]
    dsimp only
    rw [takeCtx_quiet _ _ _ _ he ha, ht]
    rw [hd]
    obtain ⟨rg, hb, hcnt⟩ := bumps_parts r.die.val c.cnt (setTile (tileKey r) c.tile
      { u with mem := c.mem, free := c.free, bad := u.bad.filter (fun b => !(((footprint (u.tile (tileKey r)) op).filter (fun x => x.wr)).any (fun x => meet b (tileBase (tileKey r) + x.lo) 8 x.len))),
               step := { u.step with sat := u.step.sat + c.satCount, nonfin := u.step.nonfin + c.nonfinCount } })
    exact ⟨rg, _, congrArg (fun z => (z, none)) hb, hcnt⟩
  obtain ⟨rg, bd, hrt, hcnt⟩ := hrt
  rw [hrt]
  have e : ∀ (x : State) (g : SMap Nat), ({ setTile (tileKey r) c.tile x with regs := g } : State).tile (tileKey r) = c.tile := by
    intro x g
    unfold State.tile setTile
    exact smGetD_smPut_self _ _ _ _
  rw [if_pos (by rw [e]; exact hr), advance_inOrder _ _ (by rw [e]; exact hn), e]
  refine ⟨rg, bd, ?_, hi.trans hcnt⟩
  simp only [setTile, smPut_smPut]

end Sys2Proof.Machine
end

