-- ==== Sys2Proof/Laws/TileEffects.lean ====
section
/-!
SUPPORT. What the building blocks of the tile effects leave alone, and what an instruction that only computes in the
tile's memory ends in.
-/

namespace Sys2Proof.Machine
open Sys2Proof

/-- Contexts that differ in memory, counters and exception flags only. -/
structure SameCtx (c d : TCtx) : Prop where
  evs : d.evs = c.evs
  aborts : d.aborts = c.aborts
  target : d.target = c.target
  base : d.base = c.base
  free : d.free = c.free
  sat : d.satCount = c.satCount
  nonfin : d.nonfinCount = c.nonfinCount
  tile : ∃ fl, d.tile = { c.tile with flags := fl }

theorem SameCtx.refl (c : TCtx) : SameCtx c c := ⟨rfl, rfl, rfl, rfl, rfl, rfl, rfl, c.tile.flags, rfl⟩
theorem SameCtx.trans {a b c : TCtx} (h : SameCtx a b) (g : SameCtx b c) : SameCtx a c := by
  obtain ⟨f1, hf1⟩ := h.tile
  obtain ⟨f2, hf2⟩ := g.tile
  exact ⟨g.evs.trans h.evs, g.aborts.trans h.aborts, g.target.trans h.target, g.base.trans h.base, g.free.trans h.free,
    g.sat.trans h.sat, g.nonfin.trans h.nonfin, f2, by rw [hf2, hf1]⟩
theorem SameCtx.foldl {α : Type} (f : TCtx → α → TCtx) (xs : List α) (c : TCtx) (h : ∀ c x, SameCtx c (f c x)) : SameCtx c (xs.foldl f c) := by
  induction xs generalizing c with
  | nil => exact .refl c
  | cons x xs ih => exact (h c x).trans (ih _)
theorem tcBump_same (c : TCtx) (i : Tally) (j k : Nat) : SameCtx c (tcBump c i j k) := by
  unfold tcBump; split
  · exact .refl c
  · exact ⟨rfl, rfl, rfl, rfl, rfl, rfl, rfl, c.tile.flags, rfl⟩
@[simp] theorem tcBump_mem (c : TCtx) (i : Tally) (j k : Nat) : (tcBump c i j k).mem = c.mem := by unfold tcBump; split <;> rfl
theorem tcFlags_same (c : TCtx) (fl : ExcFlags) : SameCtx c (tcFlags c fl) := by
  unfold tcFlags
  refine SameCtx.trans ?_ (tcBump_same _ _ _ _)
  refine SameCtx.trans ?_ (tcBump_same _ _ _ _)
  refine SameCtx.trans ?_ (tcBump_same _ _ _ _)
  refine SameCtx.trans ?_ (tcBump_same _ _ _ _)
  exact ⟨rfl, rfl, rfl, rfl, rfl, rfl, rfl, _, rfl⟩
@[simp] theorem tcFlags_mem (c : TCtx) (fl : ExcFlags) : (tcFlags c fl).mem = c.mem := by simp [tcFlags]
theorem tcLane_same (c : TCtx) (x : LaneRes) : SameCtx c (tcLane c x) := (tcFlags_same _ _).trans (tcBump_same _ _ _ _)
@[simp] theorem tcLane_mem (c : TCtx) (x : LaneRes) : (tcLane c x).mem = c.mem := by simp [tcLane]
theorem tcWrite_same (c : TCtx) (a : Nat) (bs : List Byte) : SameCtx c (tcWrite c a bs) := by
  induction bs generalizing c a with
  | nil => exact .refl c
  | cons b bs ih =>
    exact SameCtx.trans (b := { c with mem := writeByte c.mem (c.base + localAddr a) b })
      ⟨rfl, rfl, rfl, rfl, rfl, rfl, rfl, c.tile.flags, rfl⟩ (ih _ _)
theorem tcWriteNib_same (c : TCtx) (a n v : Nat) : SameCtx c (tcWriteNib c a n v) := by
  unfold tcWriteNib; dsimp only; split <;> exact tcWrite_same _ _ _
theorem tcPutBits_same (c : TCtx) (bs : List OutBits) : SameCtx c (tcPutBits c bs) := SameCtx.foldl _ _ _ (fun c _ => tcWriteNib_same c _ _ _)
theorem tcWrite_mem_congr (c d : TCtx) (a : Nat) (bs : List Byte) (h : c.mem = d.mem) (hb : c.base = d.base) : (tcWrite c a bs).mem = (tcWrite d a bs).mem := by
  induction bs generalizing c d a with
  | nil => exact h
  | cons b bs ih => exact ih _ _ _ (by simp [h, hb]) hb
theorem tcWriteNib_mem_congr (c d : TCtx) (a n v : Nat) (h : c.mem = d.mem) (hb : c.base = d.base) : (tcWriteNib c a n v).mem = (tcWriteNib d a n v).mem := by
  unfold tcWriteNib; rw [h, hb]; dsimp only; split <;> exact tcWrite_mem_congr _ _ _ _ h hb
theorem tcPutBits_mem_congr (c d : TCtx) (bs : List OutBits) (h : c.mem = d.mem) (hb : c.base = d.base) : (tcPutBits c bs).mem = (tcPutBits d bs).mem := by
  induction bs generalizing c d with
  | nil => exact h
  | cons b bs ih =>
    exact ih _ _ (tcWriteNib_mem_congr _ _ _ _ _ h hb) (by rw [(tcWriteNib_same c _ _ _).base, (tcWriteNib_same d _ _ _).base, hb])
theorem tcRead_congr (c d : TCtx) (a n : Nat) (h : c.mem = d.mem) (hb : c.base = d.base) : tcRead c a n = tcRead d a n := by
  induction n generalizing a with
  | zero => rfl
  | succ n ih => simp only [tcRead]; rw [h, hb, ih]
theorem tcReadNib_congr (c d : TCtx) (a n : Nat) (h : c.mem = d.mem) (hb : c.base = d.base) : tcReadNib c a n = tcReadNib d a n := by
  unfold tcReadNib; rw [h, hb, tcRead_congr c d _ _ h hb]
theorem tcElems_congr (c d : TCtx) (f a n : Nat) (h : c.mem = d.mem) (hb : c.base = d.base) : tcElems c f a n = tcElems d f a n := by
  unfold tcElems; congr 1; funext i; exact tcReadNib_congr c d _ _ h hb

theorem foldl_mem {α : Type} (f : TCtx → α → TCtx) (xs : List α) (c : TCtx) (h : ∀ c x, (f c x).mem = c.mem) : (xs.foldl f c).mem = c.mem := by
  induction xs generalizing c with
  | nil => rfl
  | cons x xs ih => rw [List.foldl_cons, ih, h]

theorem vopBeat_same (a : VopArgs) (op : LaneOp) (c : TCtx) (b : Nat) : SameCtx c (vopBeat a op c b) := by
  unfold vopBeat
  dsimp only
  exact SameCtx.trans (SameCtx.foldl _ _ _ (fun c x => (tcLane_same _ _).trans (tcBump_same _ _ _ _))) (tcPutBits_same _ _)

theorem map_getD {α : Type} (n : Nat) (f : Nat → α) (d : α) (i : Nat) (h : i < n) : ((List.range n).map f).getD i d = f i := by
  simp [h]

theorem vopBeat_mem (a : VopArgs) (op : LaneOp) (c : TCtx) (b : Nat) (t : Tile) (hp : c.tile.ptr = t.ptr) :
    (vopBeat a op c b).mem = beatMem a (fun x y z => (op x y z).1.bits) t c.base c.mem b := by
  unfold vopBeat beatMem
  dsimp only
  rw [hp]
  refine (tcPutBits_mem_congr _ (plainCtx c.mem t c.base) _ ?_ ?_).trans ?_
  · exact foldl_mem _ _ _ (fun c x => by simp)
  · exact (SameCtx.foldl _ _ _ (fun c x => (tcLane_same _ _).trans (tcBump_same _ _ _ _))).base
  · congr 2
    apply List.map_congr_left
    intro i hi
    rw [map_getD _ _ _ _ (List.mem_range.mp hi)]
    rw [tcElems_congr c (plainCtx c.mem t c.base) _ _ _ rfl rfl, tcElems_congr c (plainCtx c.mem t c.base) _ _ _ rfl rfl, tcElems_congr c (plainCtx c.mem t c.base) _ _ _ rfl rfl]

theorem vopBeats_mem (a : VopArgs) (op : LaneOp) (xs : List Nat) (c : TCtx) (t : Tile) (hp : c.tile.ptr = t.ptr) :
    (xs.foldl (vopBeat a op) c).mem = xs.foldl (beatMem a (fun x y z => (op x y z).1.bits) t c.base) c.mem := by
  induction xs generalizing c with
  | nil => rfl
  | cons x xs ih =>
    simp only [List.foldl_cons]
    obtain ⟨fl, hf⟩ := (vopBeat_same a op c x).tile
    rw [ih _ (by rw [hf]; exact hp), vopBeat_mem a op c x t hp, (vopBeat_same a op c x).base]

theorem consumeToken_tile_ne (k : Nat) (tk : Fin 64) (n j : Nat) (s : State) (h : k ≠ j) : (consumeToken k tk n s).tile j = s.tile j := by
  unfold consumeToken
  dsimp only
  rw [setTile_tile_ne _ _ _ _ h, bumpReg_tile_of]

theorem issued_tile_ne (op : TileOp) (r : TileRef) (w : WaitField) (s : State) (j : Nat) (h : j ≠ tileKey r) :
    (issued op r w s).tile j = s.tile j := by
  have h2 : tileKey r ≠ j := fun e => h e.symm
  have h3 : ∀ (hit : List OutsideLine) (s : State), (hit.foldl (fun s o =>
    let r2 := freeBytes 64 s
    putMem (tileBase (tileKey r) + 64 * o.line) r2.1 r2.2) s).tile j = s.tile j := fun hit s => by
      have := foldl_tiles (fun s (o : OutsideLine) => let r2 := freeBytes 64 s; putMem (tileBase (tileKey r) + 64 * o.line) r2.1 r2.2) hit s (fun _ _ => rfl)
      unfold State.tile
      rw [this]
  unfold issued raceLines
  dsimp only
  rw [modTile_tile_ne _ _ _ _ h2, h3]
  unfold beginIssue
  cases w with
  | none => cases op <;> simp [consumeToken_tile_ne _ _ _ _ _ h2]
  | some tk => cases op <;> simp [consumeToken_tile_ne _ _ _ _ _ h2]

theorem computesInMemory_of (op : TileOp) (r : TileRef) (w : WaitField) (s : State) (eff : TCtx → TCtx) (M : Memory → Memory)
    (h1 : Issues op r w s → SameCtx (tileCtx (tileKey r) (issued op r w s)) (eff (tileCtx (tileKey r) (issued op r w s))))
    (h2 : Issues op r w s → (eff (tileCtx (tileKey r) (issued op r w s))).mem = M (issued op r w s).mem) :
    computesInMemory op r w s M (.next (powered (issueTile op r w eff) s)) := by
  intro h hn
  have hs := h1 h
  obtain ⟨fl, hf⟩ := hs.tile
  obtain ⟨rg, bd, hq, hcn⟩ := issueTile_quiet op r w eff s _ h rfl hs.evs hs.aborts hs.target
    (by rw [hf]; exact (issued_run op r w s _).trans (canIssue_active h.can))
    (by rw [hf]; exact lt_of_eq_of_lt (nextInOrder_congr _ _ (issued_loops op r w s _) (issued_ia op r w s _)) hn)
  rw [powered_on _ _ (canIssue_life h.can), hq, hf]
  refine ⟨_, fl, rfl, h2 h, ?_, ?_, hcn, ?_⟩
  · unfold State.tile; exact smGetD_smPut_self _ _ _ _
  · intro j hj
    unfold State.tile
    rw [smGetD_smPut_ne _ _ _ _ _ (fun e => hj e.symm)]
    exact issued_tile_ne op r w s j hj
  · rw [hs.sat, hs.nonfin, hs.free]; rfl
theorem effVop_same (vfn : Nat) (a : VopArgs) (op : RMode → LaneOp) (c : TCtx) (h : vopFmtOk vfn a = true) : SameCtx c (effVop vfn a op c) := by
  unfold effVop
  rw [if_pos h]
  exact SameCtx.foldl _ _ _ (fun c b => vopBeat_same a _ c b)

theorem elementWise_of (vfn : BitVec 8) (a : VopArgs) (r : TileRef) (w : WaitField) (s : State) (op : RMode → LaneOp) (eff : TCtx → TCtx)
    (he : ∀ c, eff c = effVop vfn.toNat a op c) :
    elementWise vfn a r w s (fun m x y z => (op m x y z).1.bits) (.next (powered (issueTile (.vop vfn a) r w eff) s)) := by
  unfold elementWise
  refine computesInMemory_of _ r w s eff _ (fun h => ?_) (fun h => ?_)
  · rw [he]; exact effVop_same _ _ _ _ h.ok
  · rw [he]
    unfold effVop
    rw [if_pos (show vopFmtOk vfn.toNat a = true from h.ok), vopBeats_mem a _ _ _ (s.tile (tileKey r)) (issued_ptr _ r w s _)]
    simp only [tileCtx, rdirOf, issued_mode]

theorem lanes_fold (op : Nat → Nat → LaneRes) (xs : List Nat) (c : TCtx) (v : Nat) :
    let r := xs.foldl (fun (st : TCtx × Nat) x => let o := op st.2 x; (tcLane st.1 o, o.bits)) (c, v)
    SameCtx c r.1 ∧ r.1.mem = c.mem ∧ r.2 = xs.foldl (fun x y => (op x y).bits) v := by
  induction xs generalizing c v with
  | nil => exact ⟨.refl c, rfl, rfl⟩
  | cons x xs ih =>
    obtain ⟨h1, h2, h3⟩ := ih (tcLane c (op v x)) (op v x).bits
    exact ⟨(tcLane_same _ _).trans h1, h2.trans (tcLane_mem _ _), h3⟩
theorem reduceBeat_same (a : VopArgs) (op : Nat → Nat → LaneRes) (c : TCtx) (b : Nat) : SameCtx c (vopReduceBeat a op c b) := by
  unfold vopReduceBeat
  dsimp only
  exact (lanes_fold op _ c _).1.trans (tcWriteNib_same _ _ _ _)
theorem reduceBeat_mem (a : VopArgs) (op : Nat → Nat → LaneRes) (c : TCtx) (b : Nat) (t : Tile) (hp : c.tile.ptr = t.ptr) :
    (vopReduceBeat a op c b).mem = reduceMem a (fun x y => (op x y).bits) t c.base c.mem b := by
  unfold vopReduceBeat reduceMem
  dsimp only
  obtain ⟨h1, h2, h3⟩ := lanes_fold op (tcElems c a.fmt.toNat (vopAddr a (c.tile.ptr[a.pa]).toNat b) (a.lanes.toNat + 1)).tail c
    (nth (tcElems c a.fmt.toNat (vopAddr a (c.tile.ptr[a.pa]).toNat b) (a.lanes.toNat + 1)) 0)
  rw [h3, tcWriteNib_mem_congr _ (plainCtx c.mem t c.base) _ _ _ h2 h1.base, hp, tcElems_congr c (plainCtx c.mem t c.base) _ _ _ rfl rfl]
theorem reduceBeats (a : VopArgs) (op : Nat → Nat → LaneRes) (xs : List Nat) (c : TCtx) (t : Tile) (hp : c.tile.ptr = t.ptr) :
    (xs.foldl (vopReduceBeat a op) c).mem = xs.foldl (reduceMem a (fun x y => (op x y).bits) t c.base) c.mem := by
  induction xs generalizing c with
  | nil => rfl
  | cons x xs ih =>
    simp only [List.foldl_cons]
    obtain ⟨fl, hf⟩ := (reduceBeat_same a op c x).tile
    rw [ih _ (by rw [hf]; exact hp), reduceBeat_mem a op c x t hp, (reduceBeat_same a op c x).base]
theorem raises_parts (d t op : Nat) (es : List Nat) (s : State) :
    ∃ a b c, allOf es (fun e => raiseAt e d t 0 op) s = { s with regs := a, trunk := b, evBatch := c } ∧
      (∀ q, q ≠ 0x702008 → smGetD a q 0 = s.reg q) := by
  unfold allOf
  induction es generalizing s with
  | nil => exact ⟨s.regs, s.trunk, s.evBatch, rfl, fun _ _ => rfl⟩
  | cons x xs ih =>
    obtain ⟨a, b, c, h, hq⟩ := ih (raiseAt x d t 0 op s)
    obtain ⟨a2, b2, c2, h2, hq2⟩ := raiseAt_parts x d t 0 op s
    refine ⟨a, b, c, ?_, fun q hn => (hq q hn).trans ?_⟩
    · rw [List.foldl_cons, h, h2]
    · rw [h2]; exact hq2 q hn

/-- A tile instruction whose effect aborts nothing; it may raise events of the scale map and the like. -/
theorem issueTile_noAbort (op : TileOp) (r : TileRef) (w : WaitField) (eff : TCtx → TCtx) (s : State) (c : TCtx)
    (h : Issues op r w s) (hc : eff (tileCtx (tileKey r) (issued op r w s)) = c) (he : c.evs.contains 0x7001 = false) (ha : c.aborts = [])
    (ht : c.target = none) (hr : c.tile.run = .active) (hn : nextInOrder c.tile < 8192) :
    ∃ rg bd tr eb, (issueTile op r w eff s = { issued op r w s with
      mem := c.mem, free := c.free, bad := bd, regs := rg, trunk := tr, evBatch := eb, tiles := smPut (issued op r w s).tiles (tileKey r) (movedOn c.tile),
      step := { (issued op r w s).step with sat := (issued op r w s).step.sat + c.satCount, nonfin := (issued op r w s).step.nonfin + c.nonfinCount } }) ∧
      countsOnly r.die.val s { s with regs := rg } := by
  have hi := issued_counts op r w s
  have hd : keyDie (tileKey r) = r.die.val := by
    have := r.tile.isLt; have := r.die.isLt
    unfold keyDie tileKey; omega
  unfold issueTile
  rw [issue_issues op r w _ s h]
  generalize issued op r w s = u at *
  have hrt : ∃ rg bd tr eb, runTile (tileKey r) op w eff u = ({ setTile (tileKey r) c.tile { u with mem := c.mem, free := c.free, bad := bd, step := { u.step with sat := u.step.sat + c.satCount, nonfin := u.step.nonfin + c.nonfinCount } } with regs := rg, trunk := tr, evBatch := eb }, none) ∧
      countsOnly r.die.val u { u with regs := rg } := by
    unfold runTile
    rw [hc]
    dsimp only
    unfold takeCtx
    dsimp only
    rw [ha, ht]
    have hne : c.evs.contains 28673 = false := he
    rw [if_neg (by rw [hne]; simp), if_neg (by simp)]
    rw [hd]
    obtain ⟨rg, hb, hcnt⟩ := bumps_parts r.die.val c.cnt (setTile (tileKey r) c.tile
      { u with mem := c.mem, free := c.free, bad := u.bad.filter (fun b => !(((footprint (u.tile (tileKey r)) op).filter (fun x => x.wr)).any (fun x => meet b (tileBase (tileKey r) + x.lo) 8 x.len))),
               step := { u.step with sat := u.step.sat + c.satCount, nonfin := u.step.nonfin + c.nonfinCount } })
    rw [hb]
    obtain ⟨a2, b2, c2, h2, hq2⟩ := raises_parts r.die.val (keyTile (tileKey r)) (opBits op w) c.evs ({ setTile (tileKey r) c.tile
      { u with mem := c.mem, free := c.free, bad := u.bad.filter (fun b => !(((footprint (u.tile (tileKey r)) op).filter (fun x => x.wr)).any (fun x => meet b (tileBase (tileKey r) + x.lo) 8 x.len))),
               step := { u.step with sat := u.step.sat + c.satCount, nonfin := u.step.nonfin + c.nonfinCount } } with regs := rg })
    exact ⟨a2, _, b2, c2, congrArg (fun z => (z, none)) h2, fun q hq => (hq2 q (by rintro rfl; simp [counts] at hq)).trans (hcnt q hq)⟩
  obtain ⟨rg, bd, tr, eb, hrt, hcnt⟩ := hrt
  rw [hrt]
  have e : ∀ (x : State) (g : SMap Nat) (tr : Trunk) (eb : List EventRec), ({ setTile (tileKey r) c.tile x with regs := g, trunk := tr, evBatch := eb } : State).tile (tileKey r) = c.tile := by
    intro x g _ _
    unfold State.tile setTile
    exact smGetD_smPut_self _ _ _ _
  rw [if_pos (by rw [e]; exact hr), advance_inOrder _ _ (by rw [e]; exact hn), e]
  refine ⟨rg, bd, tr, eb, ?_, hi.trans hcnt⟩
  simp only [setTile, smPut_smPut]
theorem worksOnTile_of (op : TileOp) (r : TileRef) (w : WaitField) (s : State) (eff : TCtx → TCtx) (P : Tile → Memory → Prop) (c : TCtx)
    (h : Issues op r w s) (hc : eff (tileCtx (tileKey r) (issued op r w s)) = c) (he : c.evs.contains 0x7001 = false) (ha : c.aborts = [])
    (ht : c.target = none) (hf : c.free = (issued op r w s).free) (hr : c.tile.run = .active) (hn : nextInOrder c.tile < 8192)
    (hP : P c.tile c.mem) :
    worksOnTile op r w s P (.next (powered (issueTile op r w eff) s)) := by
  obtain ⟨rg, bd, tr, eb, hq, hcn⟩ := issueTile_noAbort op r w eff s c h hc he ha ht hr hn
  rw [powered_on _ _ (canIssue_life h.can), hq, hf]
  refine ⟨_, c.tile, rfl, hP, ?_, ?_, hcn, ?_⟩
  · unfold State.tile; exact smGetD_smPut_self _ _ _ _
  · intro j hj
    unfold State.tile
    rw [smGetD_smPut_ne _ _ _ _ _ (fun e => hj e.symm)]
    exact issued_tile_ne op r w s j hj
  · rfl

/-- Contexts that differ in counters and in events other than 0x7001. -/
structure ScanCtx (c d : TCtx) : Prop where
  mem : d.mem = c.mem
  tile : d.tile = c.tile
  base : d.base = c.base
  aborts : d.aborts = c.aborts
  target : d.target = c.target
  free : d.free = c.free
  evs : d.evs.contains 0x7001 = c.evs.contains 0x7001

theorem ScanCtx.refl (c : TCtx) : ScanCtx c c := ⟨rfl, rfl, rfl, rfl, rfl, rfl, rfl⟩
theorem ScanCtx.trans {a b c : TCtx} (h : ScanCtx a b) (g : ScanCtx b c) : ScanCtx a c :=
  ⟨g.mem.trans h.mem, g.tile.trans h.tile, g.base.trans h.base, g.aborts.trans h.aborts, g.target.trans h.target, g.free.trans h.free, g.evs.trans h.evs⟩
theorem tcBump_scan (c : TCtx) (i : Tally) (j k : Nat) : ScanCtx c (tcBump c i j k) := by
  unfold tcBump; split <;> exact ⟨rfl, rfl, rfl, rfl, rfl, rfl, rfl⟩
theorem tcOutside_scan (c : TCtx) (n : Nat) : ScanCtx c (tcOutside c n) := by
  unfold tcOutside
  refine ScanCtx.trans (b := tcEvent c 0x1004) ⟨rfl, rfl, rfl, rfl, rfl, rfl, ?_⟩ (tcBump_scan _ _ _ _)
  simp [tcEvent]
theorem tcG16RowCode_scan (c : TCtx) (f a : Nat) : ScanCtx c (tcG16RowCode c f a).1 := by
  unfold tcG16RowCode
  split
  · split
    · exact .refl c
    · exact tcOutside_scan c 16
  · exact .refl c
theorem foldl_scan1 {α β : Type} (f : TCtx × β → α → TCtx × β) (xs : List α) (st : TCtx × β) (h : ∀ st x, ScanCtx st.1 (f st x).1) :
    ScanCtx st.1 (xs.foldl f st).1 := by
  induction xs generalizing st with
  | nil => exact .refl _
  | cons x xs ih => exact (h st x).trans (ih _)
theorem loadPlane_scan (c : TCtx) (a : LdwArgs) : ScanCtx c (loadPlane c a).1 := by
  unfold loadPlane
  exact foldl_scan1 _ _ (c, []) (fun st i => tcG16RowCode_scan _ _ _)
theorem signExt16 (v : BitVec 16) : signExt 16 v.toNat = v.toInt := by
  unfold signExt
  rw [BitVec.toInt_eq_toNat_cond]
  have := v.isLt
  dsimp only
  rw [Nat.mod_eq_of_lt this]
  split <;> split <;> omega

theorem planeIx_inj (i j : Fin 4) (g h : Bool) (e : planeIx i g = planeIx j h) : i = j ∧ g = h := by
  revert e; revert i j g h; decide

theorem setPlanes (p : Plane) (half : Bool) (js : List (Fin 4)) (t : Tile) :
    ∃ ps, js.foldl (fun (t : Tile) j => { t with planes := t.planes.set (planeIx j half) p }) t = { t with planes := ps } ∧
      ∀ (j : Fin 4) (h : Bool), ps[planeIx j h] = if j ∈ js ∧ h = half then p else t.planes[planeIx j h] := by
  induction js generalizing t with
  | nil => exact ⟨t.planes, rfl, by simp⟩
  | cons x xs ih =>
    obtain ⟨ps, h1, h2⟩ := ih { t with planes := t.planes.set (planeIx x half) p }
    refine ⟨ps, by rw [List.foldl_cons, h1], ?_⟩
    intro j h
    rw [h2]
    by_cases hx : j = x ∧ h = half
    · obtain ⟨rfl, rfl⟩ := hx
      simp
    · have h3 : planeIx x half ≠ planeIx j h := fun e => by
        obtain ⟨e1, e2⟩ := planeIx_inj _ _ _ _ e
        exact hx ⟨e1.symm, e2.symm⟩
      have h4 : (planeIx x half).val ≠ (planeIx j h).val := fun e => h3 (Fin.ext e)
      have h5 : (t.planes.set (planeIx x half) p)[planeIx j h] = t.planes[planeIx j h] := by
        exact Vector.getElem_set_ne _ _ h4
      rw [h5]
      by_cases h6 : h = half
      · have h7 : j ≠ x := fun e => hx ⟨e, h6⟩
        simp [h6, h7]
      · simp [h6]

theorem mem_enabledArrays (m : BitVec 4) (j : Fin 4) : j ∈ enabledArrays m ↔ m.getLsbD j.val = true := by
  unfold enabledArrays
  rw [List.mem_filter]
  constructor
  · exact fun h => h.2
  · intro h
    refine ⟨?_, h⟩
    clear h
    revert j; decide


end Sys2Proof.Machine
end

