-- ==== Sys2Proof/Laws/Transfers.lean ====
section
/-!
SUPPORT. What GET, PUT, SIGNAL and SWAP, the slices, and the ends of transfers do (R82-R88, R93, R94).
-/

namespace Sys2Proof.Machine
open Sys2Proof

theorem keyDie_tileKey (r : TileRef) : keyDie (tileKey r) = r.die.val := by
  have := r.tile.isLt; have := r.die.isLt
  unfold keyDie tileKey; omega

/-- Between two states only memory, uncorrectable marks, counters and the prefetch fields of one tile differ. -/
structure Streams (k : Nat) (s t : State) : Prop where
  frame : t = { s with mem := t.mem, bad := t.bad, tiles := t.tiles, regs := t.regs }
  others : ∀ j, j ≠ k → t.tile j = s.tile j
  tile : ∃ p n q, t.tile k = { s.tile k with prefetch := p, pfUsed := n, streams := q }
  cnt : countsOnly (keyDie k) s t

theorem Streams.refl (k : Nat) (s : State) : Streams k s s := ⟨rfl, fun _ _ => rfl, ⟨_, _, _, rfl⟩, countsOnly_refl _ _⟩

theorem Streams.trans {k : Nat} {s t u : State} (h : Streams k s t) (g : Streams k t u) : Streams k s u := by
  obtain ⟨a, b, c, e⟩ := h.tile
  obtain ⟨a2, b2, c2, e2⟩ := g.tile
  exact ⟨g.frame.trans (by rw [h.frame]), fun j hj => (g.others j hj).trans (h.others j hj), ⟨a2, b2, c2, by rw [e2, e]⟩, h.cnt.trans g.cnt⟩

theorem Streams.of_mem {k : Nat} {s t : State} (h : t = { s with mem := t.mem, bad := t.bad }) : Streams k s t := by
  have ht : t.tiles = s.tiles := by rw [h]
  have hr : t.regs = s.regs := by rw [h]
  refine ⟨h.trans (by rw [ht, hr]), fun j _ => ?_, ⟨(s.tile k).prefetch, (s.tile k).pfUsed, (s.tile k).streams, ?_⟩, countsOnly_regs hr⟩
  · unfold State.tile; rw [ht]
  · unfold State.tile; rw [ht]

theorem Streams.putMem (k a : Nat) (bs : List Byte) (s : State) : Streams k s (putMem a bs s) := .of_mem rfl

theorem Streams.bump (k g sub n : Nat) (s : State) (h : sub < 256) (hi : g ∈ [0x8040, 0x8060, 0x8080, 0x80A0, 0x80E0, 0x8140]) :
    Streams k s (bumpReg (dieKey (keyDie k) (g * 256 + sub)) n s) :=
  ⟨rfl, fun _ _ => rfl, ⟨_, _, _, rfl⟩, countsOnly_bumpReg _ _ _ _ (counts_group _ _ _ h hi)⟩

theorem Streams.setTile {k : Nat} {s : State} (T : Tile) (h : ∃ p n q, T = { s.tile k with prefetch := p, pfUsed := n, streams := q }) :
    Streams k s (setTile k T s) := by
  refine ⟨rfl, fun j hj => ?_, ?_, countsOnly_regs rfl⟩
  · exact setTile_tile_ne k j T s (fun e => hj e.symm)
  · rw [setTile_tile_self]; exact h

theorem Streams.allOf {α : Type} (k : Nat) (xs : List α) (f : α → State → State) (s : State) (h : ∀ x s, Streams k s (f x s)) :
    Streams k s (allOf xs f s) := by
  unfold Machine.allOf
  induction xs generalizing s with
  | nil => exact .refl k s
  | cons x xs ih => exact (h x s).trans (ih _)

theorem usePrefetched_streams (k a n : Nat) (s : State) : Streams k s (usePrefetched k a n s) := by
  unfold usePrefetched
  dsimp only
  generalize (s.tile k).prefetch.filter (fun l => decide (a ≤ l) && decide (l < a + 64 * n)) = hit
  exact ((Streams.bump k 0x8140 7 hit.length s (by decide) (by decide)).trans
    (Streams.bump k 0x8140 6 hit.length _ (by decide) (by decide))).trans (.setTile _ ⟨_, _, _, rfl⟩)

theorem trainStream_streams (k : Nat) (x : Fin 8) (a len next : Nat) (s : State) : Streams k s (trainStream k x a len next s) := by
  unfold trainStream
  dsimp only
  generalize hT : ({ s.tile k with streams := _ } : Tile) = T
  have h0 : Streams k s (setTile k T s) := .setTile _ ⟨_, _, _, hT.symm⟩
  split
  · refine h0.trans ?_
    exact (Streams.bump k 0x8140 9 _ _ (by decide) (by decide)).trans (Streams.bump k 0x8140 8 _ _ (by decide) (by decide))
  · exact h0

/-- A line of a GET that can be read. -/
theorem getLine_readable (k a l : Nat) (s : State) (h : lineReadable s a) :
    getLine k a l s = putMem (tileBase k + localAddr l) (s.bytes a 64) s := by
  unfold lineReadable at h
  unfold getLine
  split at h
  · rename_i d hp
    try rw [hp]
    dsimp only
    rw [h.1, h.2]
    rfl
  · rename_i o l hp
    try rw [hp]
    dsimp only
    rw [h]
    rfl
  · exact absurd h (by simp)

/-- A tile instruction whose effect on the package leaves its tile running. -/
theorem issue_next (op : TileOp) (r : TileRef) (w : WaitField) (eff : State → State × Option Nat) (s v : State) (h : Issues op r w s)
    (he : eff (issued op r w s) = (v, none)) (hr : (v.tile (tileKey r)).run = .active) (hn : nextInOrder (v.tile (tileKey r)) < 8192) :
    powered (fun s => issue op (tileKey r) w eff s) s = setTile (tileKey r) (movedOn (v.tile (tileKey r))) v := by
  rw [powered_on _ _ (canIssue_life h.can), issue_issues op r w eff s h, he]
  dsimp only
  rw [if_pos hr, advance_inOrder _ _ hn]

theorem opensTransfer_of (op : TileOp) (r : TileRef) (w : WaitField) (s v : State) (x : Xfer) (xr : Fin 8) (e : BitVec 64) (M : Memory)
    (eff : State → State × Option Nat) (h : Issues op r w s) (hn : nextInOrder (s.tile (tileKey r)) < 8192)
    (he : eff (issued op r w s) = (v, none)) (hm : v.mem = M)
    (hs : Streams (tileKey r) (setTile (tileKey r) { (issued op r w s).tile (tileKey r) with
      xreg := ((issued op r w s).tile (tileKey r)).xreg.set xr e, nextXfer := ((issued op r w s).tile (tileKey r)).nextXfer + 1,
      xfers := ((issued op r w s).tile (tileKey r)).xfers ++ [{ x with id := ((issued op r w s).tile (tileKey r)).nextXfer }] } (issued op r w s)) v) :
    opensTransfer op r w s x xr e M (.next (powered (fun s => issue op (tileKey r) w eff s) s)) := by
  obtain ⟨p, n, q, ht⟩ := hs.tile
  rw [setTile_tile_self] at ht
  have hc := hs.cnt
  rw [keyDie_tileKey] at hc
  refine ⟨_, p, n, q, congrArg Host.Outcome.next (issue_next op r w eff s v h he ?_ ?_), hm, ?_, fun j hj => ?_, ?_, ?_⟩
  · rw [ht]; exact (issued_run op r w s _).trans (canIssue_active h.can)
  · rw [ht]; exact lt_of_eq_of_lt (nextInOrder_congr _ (s.tile (tileKey r)) (issued_loops op r w s _) (issued_ia op r w s _)) hn
  · rw [setTile_tile_self, ht]
  · rw [setTile_tile_ne _ _ _ _ (fun e => hj e.symm), hs.others j hj, setTile_tile_ne _ _ _ _ (fun e => hj e.symm)]
    exact issued_tile_ne op r w s j hj
  · exact (issued_counts op r w s).trans (((countsOnly_regs rfl).trans hc).trans (countsOnly_regs rfl))
  · show setTile _ _ v = _
    have := hs.frame
    unfold Machine.setTile at this ⊢
    rw [this]

/-- Where an extended register leads does not change at issue. -/
theorem issued_xword (op : TileOp) (r : TileRef) (w : WaitField) (s : State) (x : BitVec 64) : xword (issued op r w s) x = xword s x := by
  unfold xword State.coord
  rw [issued_counts op r w s 0x102401 (by
    unfold counts
    have := r.die.isLt
    simp only [List.any_cons, List.any_nil, Bool.or_false, Bool.or_eq_false_iff, beq_eq_false_iff_ne]
    omega)]

/-- Copying lines one after another through the memory operation. -/
theorem copyLines_mem (n : Nat) (s : State) (f : Nat → State → State) (src dst : Nat → Nat)
    (h : ∀ i < n, ∀ s', s'.mem = s'.mem → (f i s').mem = writeBytes s'.mem (dst i) (readBytes s'.mem (src i) 64)) :
    (allOf (List.range n) f s).mem = copiedLines src dst n s.mem := by
  unfold allOf copiedLines
  have : ∀ (xs : List Nat) (s : State), (∀ i ∈ xs, i < n) → (xs.foldl (fun s x => f x s) s).mem =
      xs.foldl (fun m i => writeBytes m (dst i) (readBytes m (src i) 64)) s.mem := by
    intro xs
    induction xs with
    | nil => exact fun s _ => rfl
    | cons x xs ih =>
      intro s hx
      rw [List.foldl_cons, List.foldl_cons, ih _ (fun i hi => hx i (List.mem_cons_of_mem _ hi)), h x (hx x (List.mem_cons_self ..)) s rfl]
  exact this _ s (fun i hi => List.mem_range.mp hi)

/-- Writing bytes makes no line unreadable. -/
theorem lineReadable_putMem (s : State) (a b : Nat) (bs : List Byte) (h : lineReadable s a) : lineReadable (putMem b bs s) a := by
  have hf : ∀ p : Nat → Bool, s.bad.any p = false → (putMem b bs s).bad.any p = false := by
    intro p hp
    rw [List.any_eq_false] at hp ⊢
    exact fun x hx => hp x (List.mem_filter.mp hx).1
  unfold lineReadable at h ⊢
  split
  · rename_i hp; rw [hp] at h; exact ⟨h.1, hf _ h.2⟩
  · rename_i hp; rw [hp] at h; exact hf _ h
  · rename_i h1 h2
    split at h
    · rename_i d hp; exact h1 d hp
    · rename_i o l hp; exact h2 o l hp
    · exact h

/-- The lines of a GET, each readable, are copied one after another. -/
theorem getLines (k : Nat) (src loc : Nat → Nat) (xs : List Nat) (s : State) (h : ∀ i ∈ xs, lineReadable s (src i)) :
    Streams k s (allOf xs (fun i => getLine k (src i) (loc i)) s) ∧
    (allOf xs (fun i => getLine k (src i) (loc i)) s).mem =
      xs.foldl (fun m i => writeBytes m (tileBase k + localAddr (loc i)) (readBytes m (src i) 64)) s.mem := by
  unfold allOf
  induction xs generalizing s with
  | nil => exact ⟨.refl k s, rfl⟩
  | cons x xs ih =>
    rw [List.foldl_cons, List.foldl_cons]
    dsimp only
    rw [getLine_readable k _ _ s (h x (List.mem_cons_self ..))]
    obtain ⟨h1, h2⟩ := ih (putMem (tileBase k + localAddr (loc x)) (s.bytes (src x) 64) s)
      (fun i hi => lineReadable_putMem s _ _ _ (h i (List.mem_cons_of_mem _ hi)))
    exact ⟨(Streams.putMem k _ _ s).trans h1, h2⟩

/-- The lines of a PUT to stack pages that back no paged region. -/
theorem putLines (k : Nat) (tag : BitVec 12) (src dst : Nat → Nat) (xs : List Nat) (s : State)
    (h : ∀ i ∈ xs, dst i < stackEnd ∧ bitAt (pageAttr s (dst i)) 3 = false) :
    Streams k s (allOf xs (fun i s => putDest k tag (dst i) (s.bytes (src i) 64) s) s) ∧
    (allOf xs (fun i s => putDest k tag (dst i) (s.bytes (src i) 64) s) s).mem =
      xs.foldl (fun m i => writeBytes m (dst i) (readBytes m (src i) 64)) s.mem := by
  unfold allOf
  induction xs generalizing s with
  | nil => exact ⟨.refl k s, rfl⟩
  | cons x xs ih =>
    rw [List.foldl_cons, List.foldl_cons]
    obtain ⟨h1, h2⟩ := h x (List.mem_cons_self ..)
    have e : putDest k tag (dst x) (s.bytes (src x) 64) s = modTile k (fun t => { t with prefetch := t.prefetch.filter (fun l => decide (l ≠ dst x)) }) (putMem (dst x) (s.bytes (src x) 64) s) := by
      unfold putDest placeOf
      rw [if_pos h1]
      dsimp only
      rw [h2]
      rfl
    dsimp only
    rw [e]
    obtain ⟨g1, g2⟩ := ih (modTile k (fun t => { t with prefetch := t.prefetch.filter (fun l => decide (l ≠ dst x)) }) (putMem (dst x) (s.bytes (src x) 64) s))
      (fun i hi => h i (List.mem_cons_of_mem _ hi))
    exact ⟨((Streams.putMem k _ _ s).trans (.setTile _ ⟨_, _, _, rfl⟩)).trans g1, g2⟩

theorem lineReadable_memory {s : State} {a : Nat} (h : lineReadable s a) : isMemory a = true := by
  unfold lineReadable at h
  unfold isMemory
  split at h
  · rename_i hp; first | rw [hp] | rfl
  · rename_i hp; first | rw [hp] | rfl
  · exact absurd h (by simp)

theorem trainStream_same (k : Nat) (x : Fin 8) (a len next : Nat) (s : State) :
    (trainStream k x a len next s).mem = s.mem ∧ (trainStream k x a len next s).bad = s.bad ∧ (trainStream k x a len next s).pages = s.pages := by
  unfold trainStream
  dsimp only
  generalize ({ s.tile k with streams := _ } : Tile) = T
  split
  · exact ⟨rfl, rfl, rfl⟩
  · exact ⟨rfl, rfl, rfl⟩

/-- GET of lines of this package that are memory, no gather: what its effect is. -/
theorem effGet_local (k : Nat) (a : XferArgs) (s : State) (x : BitVec 64) (p addr lines : Nat) (hx : (s.tile k).xreg[a.xr] = x)
    (hp : ((s.tile k).ptr[a.pl]).toNat = p) (ha : wordAddr (xword s x) = addr) (hl : a.len.toNat + 1 = lines)
    (h1 : p % 64 = 0) (h2 : isRemote (xword s x) = false) (h3 : inRegions (s.pager k) (xword s x) = false) (h4 : isShardHeader s (xword s x) = false)
    (h5 : ∀ i < lines, isMemory ((addr + 64 * i) % 2 ^ 44) = true) :
    effGet k a s =
      (let u1 := usePrefetched k addr lines (setTile k { s.tile k with
          xreg := (s.tile k).xreg.set a.xr (xregAdvanced x a.xinc.toInt), nextXfer := (s.tile k).nextXfer + 1,
          xfers := (s.tile k).xfers ++ [{ id := (s.tile k).nextXfer, kind := .get, lo := p, len := 64 * lines, writes := true, tk := if a.lte then some a.ltk else none }] } s)
       let u2 := if inStacks addr then trainStream k a.xr addr lines ((addr + 64 * signExt 16 a.xinc.toNat) % 2 ^ 44).toNat u1 else u1
       (allOf (List.range lines) (fun i => getLine k ((addr + 64 * i) % 2 ^ 44) (p + 64 * i)) u2, none)) := by
  have hf : (List.range lines).find? (fun i => !isMemory ((addr + 64 * i) % 2 ^ 44)) = none := by
    rw [List.find?_eq_none]
    intro i hi
    rw [h5 i (List.mem_range.mp hi)]; decide
  have hsx : xregAdd (s.tile k) a.xr (signExt 16 a.xinc.toNat) = { s.tile k with xreg := (s.tile k).xreg.set a.xr (xregAdvanced x a.xinc.toInt) } := by
    unfold xregAdd xregAdvanced
    dsimp only
    rw [hx, signExt16]
  unfold effGet
  dsimp only
  rw [hx, hp, ha, hl, if_neg (by rw [h1]; simp)]
  have h3' : ∀ T, inRegions ((modTile k T s).pager k) (xword s x) = false := fun _ => h3
  have h4' : ∀ T, isShardHeader (modTile k T s) (xword s x) = false := fun _ => h4
  rw [h3', h4', h2, hf]
  dsimp only
  unfold modTile openXfer
  dsimp only
  rw [hsx, setTile_tile_self, setTile_setTile]
  rfl

theorem lineReadable_congr {s t : State} (hb : t.bad = s.bad) (hp : t.pages = s.pages) (a : Nat) (h : lineReadable s a) : lineReadable t a := by
  unfold lineReadable badStack badSram pageAttr at *
  rw [hb, hp]
  exact h

/-- GET of readable lines of this package, no gather: the lines are copied in order and the transfer opened. -/
theorem effGet_result (k : Nat) (a : XferArgs) (u : State) (x : BitVec 64) (p addr lines : Nat) (hx : (u.tile k).xreg[a.xr] = x)
    (hp : ((u.tile k).ptr[a.pl]).toNat = p) (ha : wordAddr (xword u x) = addr) (hl : a.len.toNat + 1 = lines)
    (h1 : p % 64 = 0) (h2 : isRemote (xword u x) = false) (h3 : inRegions (u.pager k) (xword u x) = false) (h4 : isShardHeader u (xword u x) = false)
    (h5 : ∀ i < lines, lineReadable u ((addr + 64 * i) % 2 ^ 44)) :
    ∃ v, effGet k a u = (v, none) ∧
      v.mem = copiedLines (fun i => (addr + 64 * i) % 2 ^ 44) (fun i => tileBase k + localAddr (p + 64 * i)) lines u.mem ∧
      Streams k (setTile k { u.tile k with
          xreg := (u.tile k).xreg.set a.xr (xregAdvanced x a.xinc.toInt), nextXfer := (u.tile k).nextXfer + 1,
          xfers := (u.tile k).xfers ++ [{ id := (u.tile k).nextXfer, kind := .get, lo := p, len := 64 * lines, writes := true, tk := if a.lte then some a.ltk else none }] } u) v := by
  rw [effGet_local k a u x p addr lines hx hp ha hl h1 h2 h3 h4 (fun i hi => lineReadable_memory (h5 i hi))]
  generalize ({ u.tile k with xreg := _, nextXfer := _, xfers := _ } : Tile) = T
  have hs1 := usePrefetched_streams k addr lines (setTile k T u)
  have e1 : (usePrefetched k addr lines (setTile k T u)).mem = u.mem := rfl
  have e2 : (usePrefetched k addr lines (setTile k T u)).bad = u.bad := rfl
  have e3 : (usePrefetched k addr lines (setTile k T u)).pages = u.pages := rfl
  dsimp only
  generalize usePrefetched k addr lines (setTile k T u) = u1 at *
  have h6 : Streams k u1 (if inStacks addr = true then trainStream k a.xr addr lines ((addr + 64 * signExt 16 a.xinc.toNat) % 2 ^ 44).toNat u1 else u1) ∧
      (if inStacks addr = true then trainStream k a.xr addr lines ((addr + 64 * signExt 16 a.xinc.toNat) % 2 ^ 44).toNat u1 else u1).mem = u1.mem ∧
      (if inStacks addr = true then trainStream k a.xr addr lines ((addr + 64 * signExt 16 a.xinc.toNat) % 2 ^ 44).toNat u1 else u1).bad = u1.bad ∧
      (if inStacks addr = true then trainStream k a.xr addr lines ((addr + 64 * signExt 16 a.xinc.toNat) % 2 ^ 44).toNat u1 else u1).pages = u1.pages := by
    split
    · exact ⟨trainStream_streams .., trainStream_same ..⟩
    · exact ⟨.refl _ _, rfl, rfl, rfl⟩
  generalize (if inStacks addr = true then _ else u1) = u2 at *
  obtain ⟨h6, h7, h8, h9⟩ := h6
  obtain ⟨g1, g2⟩ := getLines k (fun i => (addr + 64 * i) % 2 ^ 44) (fun i => p + 64 * i) (List.range lines) u2
    (fun i hi => lineReadable_congr (h8.trans e2) (h9.trans e3) _ (h5 i (List.mem_range.mp hi)))
  exact ⟨_, rfl, g2.trans (by rw [h7, e1]; rfl), (hs1.trans h6).trans g1⟩

/-- PUT to stack lines of this package, without a destination token: the lines are copied in order and the transfer
opened. -/
theorem effPut_result (k : Nat) (a : XferArgs) (u : State) (x : BitVec 64) (p addr lines : Nat) (hx : (u.tile k).xreg[a.xr] = x)
    (hp : ((u.tile k).ptr[a.pl]).toNat = p) (ha : wordAddr (xword u x) = addr) (hl : a.len.toNat + 1 = lines)
    (h1 : p % 64 = 0) (h2 : isRemote (xword u x) = false) (h3 : inRegions (u.pager k) (xword u x) = false) (h4 : a.dte = false)
    (h5 : ∀ i < lines, (addr + 64 * i) % 2 ^ 44 < stackEnd ∧ bitAt (pageAttr u ((addr + 64 * i) % 2 ^ 44)) 3 = false) :
    ∃ v, effPut k a u = (v, none) ∧
      v.mem = copiedLines (fun i => tileBase k + localAddr (p + 64 * i)) (fun i => (addr + 64 * i) % 2 ^ 44) lines u.mem ∧
      Streams k (setTile k { u.tile k with
          xreg := (u.tile k).xreg.set a.xr (xregAdvanced x a.xinc.toInt), nextXfer := (u.tile k).nextXfer + 1,
          xfers := (u.tile k).xfers ++ [{ id := (u.tile k).nextXfer, kind := .put, lo := p, len := 64 * lines, writes := false, tk := if a.lte then some a.ltk else none }] } u) v := by
  have hf : (List.range lines).find? (fun i => !isMemory ((addr + 64 * i) % 2 ^ 44)) = none := by
    rw [List.find?_eq_none]
    intro i hi
    have : isMemory ((addr + 64 * i) % 2 ^ 44) = true := by
      unfold isMemory placeOf
      rw [if_pos (h5 i (List.mem_range.mp hi)).1]
    rw [this]; decide
  have hsx : xregAdd (u.tile k) a.xr (signExt 16 a.xinc.toNat) = { u.tile k with xreg := (u.tile k).xreg.set a.xr (xregAdvanced x a.xinc.toInt) } := by
    unfold xregAdd xregAdvanced
    dsimp only
    rw [hx, signExt16]
  obtain ⟨T, hT⟩ : ∃ T : Tile, T = { u.tile k with
          xreg := (u.tile k).xreg.set a.xr (xregAdvanced x a.xinc.toInt), nextXfer := (u.tile k).nextXfer + 1,
          xfers := (u.tile k).xfers ++ [{ id := (u.tile k).nextXfer, kind := .put, lo := p, len := 64 * lines, writes := false, tk := if a.lte then some a.ltk else none }] } := ⟨_, rfl⟩
  obtain ⟨g1, g2⟩ := putLines k (u.tile k).tag (fun i => tileBase k + localAddr (p + 64 * i)) (fun i => (addr + 64 * i) % 2 ^ 44) (List.range lines) (setTile k T u)
    (fun i hi => h5 i (List.mem_range.mp hi))
  refine ⟨_, ?_, g2, hT ▸ g1⟩
  unfold effPut
  dsimp only
  rw [hx, hp, ha, hl, if_neg (by rw [h1]; simp)]
  have h3' : ∀ T, inRegions ((modTile k T u).pager k) (xword u x) = false := fun _ => h3
  rw [h3', h2, h4]
  unfold modTile openXfer
  dsimp only
  rw [hsx, setTile_tile_self, setTile_setTile]
  subst hT
  simp only [Bool.false_and, Bool.false_eq_true, if_false, hf]
  have : ∀ (o : Option Nat) (s : State), (match o with | some j => s | none => s) = s := by intro o s; cases o <;> rfl
  split <;> rfl

/-- What issue itself may change. -/
theorem issued_parts (op : TileOp) (r : TileRef) (w : WaitField) (s : State) :
    ∃ m b t g f, issued op r w s = { s with mem := m, bad := b, tiles := t, regs := g, free := f } := by
  have hb : ∃ t g, beginIssue op (tileKey r) w s = { s with tiles := t, regs := g } := by
    unfold beginIssue
    cases w <;> cases op <;> exact ⟨_, _, rfl⟩
  obtain ⟨t, g, hb⟩ := hb
  have h : ∀ (hit : List OutsideLine) (s : State), ∃ m b f, hit.foldl (fun s o =>
    let r2 := freeBytes 64 s
    putMem (tileBase (tileKey r) + 64 * o.line) r2.1 r2.2) s = { s with mem := m, bad := b, free := f } := by
    intro hit
    induction hit with
    | nil => exact fun s => ⟨s.mem, s.bad, s.free, rfl⟩
    | cons x xs ih =>
      intro s
      obtain ⟨m, b, f, e⟩ := ih (putMem (tileBase (tileKey r) + 64 * x.line) (freeBytes 64 s).1 (freeBytes 64 s).2)
      exact ⟨m, b, f, e⟩
  unfold issued raceLines modTile
  dsimp only
  obtain ⟨m, b, f, e⟩ := h (((beginIssue op (tileKey r) w s).tile (tileKey r)).outside.filter
    (fun o => (footprint (s.tile (tileKey r)) op).any (fun x => meet x.lo (64 * o.line) x.len 64))) (beginIssue op (tileKey r) w s)
  rw [e, hb]
  exact ⟨m, b, _, g, f, rfl⟩

@[simp] theorem issued_pager (op : TileOp) (r : TileRef) (w : WaitField) (s : State) (k : Nat) : (issued op r w s).pager k = s.pager k := by
  obtain ⟨_, _, _, _, _, h⟩ := issued_parts op r w s; rw [h]; rfl
@[simp] theorem issued_job (op : TileOp) (r : TileRef) (w : WaitField) (s : State) : (issued op r w s).job = s.job := by
  obtain ⟨_, _, _, _, _, h⟩ := issued_parts op r w s; rw [h]
@[simp] theorem issued_pages (op : TileOp) (r : TileRef) (w : WaitField) (s : State) : (issued op r w s).pages = s.pages := by
  obtain ⟨_, _, _, _, _, h⟩ := issued_parts op r w s; rw [h]
@[simp] theorem issued_coord (op : TileOp) (r : TileRef) (w : WaitField) (s : State) : (issued op r w s).coord = s.coord := by
  unfold State.coord
  rw [issued_counts op r w s 0x102401 (by
    unfold counts
    have := r.die.isLt
    simp only [List.any_cons, List.any_nil, Bool.or_false, Bool.or_eq_false_iff, beq_eq_false_iff_ne]
    omega)]

@[simp] theorem issued_tag (op : TileOp) (r : TileRef) (w : WaitField) (s : State) (j : Nat) : ((issued op r w s).tile j).tag = (s.tile j).tag := by
  obtain ⟨_, _, _, h⟩ := issued_tile_parts op r w s j; rw [h]
@[simp] theorem issued_dieTags (op : TileOp) (r : TileRef) (w : WaitField) (s : State) : (issued op r w s).dieTags = s.dieTags := by
  obtain ⟨_, _, _, _, _, h⟩ := issued_parts op r w s; rw [h]
/-- The tag of the next step is never the present one. -/
theorem nextTag_ne (t : BitVec 12) : t ≠ nextTag t := by
  intro h
  have h2 := congrArg BitVec.toNat h
  unfold nextTag at h2
  simp only [BitVec.toNat_ofNat] at h2
  have := t.isLt
  omega

/-- SWAP of a declared segment of this package: what its effect is. -/
theorem effSwap_result (k : Nat) (a : SwapArgs) (u : State) (w addr words half : Nat) (g : Segment) (hw : xword u (u.tile k).xreg[a.xr] = w)
    (ha : wordAddr w = addr) (hl : a.len.toNat + 1 = words) (hh : boolNat a.half = half) (h1 : isRemote w = false) (h2 : addr < stackEnd)
    (h3 : segmentFor u k addr half words = some g) (h4 : badStack u addr (8 * words) = false) :
    ∃ v v1, effSwap k a u = (v, none) ∧
      Streams k (setTile k { u.tile k with nextXfer := (u.tile k).nextXfer + 1, xfers := (u.tile k).xfers ++ [{ id := (u.tile k).nextXfer, kind := .swap, tk := if a.te then some a.tk else none, half := half }] } u) v1 ∧
      v1.mem = u.mem ∧ v1.bad = u.bad ∧
      v = modTile k (fun t => { t with lastSeg := setAt t.lastSeg half addr })
        { v1 with store := storeRun u.store (k * 8192 + 4096 * half) words ((List.range words).map (fun i => readLE u.mem (addr + 8 * i) 8)) } := by
  obtain ⟨T, hT⟩ : ∃ T : Tile, T = { u.tile k with nextXfer := (u.tile k).nextXfer + 1, xfers := (u.tile k).xfers ++ [{ id := (u.tile k).nextXfer, kind := .swap, tk := if a.te then some a.tk else none, half := half }] } := ⟨_, rfl⟩
  rw [← hT]
  have b1 : Streams k (setTile k T u) (bumpReg (dieKey (keyDie k) 0x806006) 1 (setTile k T u)) := Streams.bump k 0x8060 6 1 _ (by decide) (by decide)
  have b2 := usePrefetched_streams k addr (ceilDiv words 8) (bumpReg (dieKey (keyDie k) 0x806006) 1 (setTile k T u))
  have b3 := trainStream_streams k a.xr addr (ceilDiv words 8) addr (usePrefetched k addr (ceilDiv words 8) (bumpReg (dieKey (keyDie k) 0x806006) 1 (setTile k T u)))
  have c3 := trainStream_same k a.xr addr (ceilDiv words 8) addr (usePrefetched k addr (ceilDiv words 8) (bumpReg (dieKey (keyDie k) 0x806006) 1 (setTile k T u)))
  have b := (b1.trans b2).trans b3
  have hme : isMemory addr = true := by
    unfold isMemory placeOf
    rw [if_pos h2]
  have ho : openXfer k { id := 0, kind := .swap, tk := if a.te then some a.tk else none, half := half } u = ((u.tile k).nextXfer, setTile k T u) := by
    rw [hT]; rfl
  refine ⟨_, trainStream k a.xr addr (ceilDiv words 8) addr (usePrefetched k addr (ceilDiv words 8) (bumpReg (dieKey (keyDie k) 0x806006) 1 (setTile k T u))), ?_, b, c3.1, c3.2.1, rfl⟩
  unfold effSwap
  dsimp only
  rw [hw, ha, hl, hh, h1, h3, if_neg (by rw [hme]; simp), ho]
  dsimp only
  generalize hv : trainStream k a.xr addr (ceilDiv words 8) addr (usePrefetched k addr (ceilDiv words 8) (bumpReg (dieKey (keyDie k) 0x806006) 1 (setTile k T u))) = v1 at *
  have hbad : badStack v1 addr (8 * words) = false := by
    unfold badStack at h4 ⊢
    rw [c3.2.1]; exact h4
  have hst : v1.store = u.store := by rw [b.frame]; rfl
  rw [hbad, hst]
  have hle : (fun i => v1.le (addr + 8 * i) 8) = fun i => readLE u.mem (addr + 8 * i) 8 := by
    funext i; unfold State.le; rw [c3.1]; rfl
  rw [hle]
  simp

/-- A pager with no access waiting stays as it is. -/
theorem servePager_idle (k n : Nat) (s : State) (h : (s.pager k).queue = []) : servePager k n s = s := by
  cases n with
  | zero => rfl
  | succ n =>
    unfold servePager
    dsimp only
    split
    · rename_i h2; rw [h] at h2; exact absurd h2 (by simp)
    · rfl

theorem keyTile_tileKey (r : TileRef) : keyTile (tileKey r) = r.tile.val := by
  have := r.tile.isLt
  unfold keyTile tileKey; omega

/-- STEPEND with no group open and no token left. -/
theorem effStepend_done (c : TCtx) (h1 : c.tile.groups = []) (h2 : ∀ tk : Fin 64, c.tile.tok[tk] = 0) :
    effStepend c = tcBump { c with tile := { c.tile with run := .done } } .scale 7 (((List.range 8).filter (fun i => c.tile.encore.getLsbD i)).length) := by
  unfold effStepend
  have ht : c.tile.tok.toList.any (fun v => v != 0) = false := by
    rw [List.any_eq_false]
    intro x hx
    obtain ⟨i, hi, rfl⟩ := List.mem_iff_getElem.mp hx
    have := h2 ⟨i, by simpa using hi⟩
    simpa using this
  rw [if_neg (by
    rw [ht]
    rintro (h | h)
    · exact h h1
    · exact absurd h (by simp))]

/-- What one count of an effect leaves in the package. -/
theorem runTile_count (k : Nat) (op : TileOp) (w : WaitField) (eff : TCtx → TCtx) (u : State) (T : Tile) (i : Tally) (sub n : Nat)
    (hw : (footprint (u.tile k) op).filter (fun x => x.wr) = [])
    (he : eff (tileCtx k u) = tcBump { tileCtx k u with tile := T } i sub n) :
    runTile k op w eff u = (if n = 0 then setTile k T u else bumpReg (dieKey (keyDie k) (tallyKey (i, BitVec.ofNat 8 sub, n))) n (setTile k T u), none) := by
  unfold runTile
  rw [he, hw]
  dsimp only
  have hb : u.bad.filter (fun b => !([] : List Span).any (fun x => meet b (tileBase k + x.lo) 8 x.len)) = u.bad := by simp
  rw [hb]
  unfold tcBump
  by_cases hn : n = 0
  · rw [if_pos hn, if_pos hn]
    rfl
  · rw [if_neg hn, if_neg hn]
    rfl

/-- A map with every value changed. -/
theorem smFind_map {α : Type} (m : SMap α) (f : α → α) (k : Nat) : smFind (m.map (fun p => (p.1, f p.2))) k = (smFind m k).map f := by
  induction m with
  | nil => rfl
  | cons x xs ih =>
    obtain ⟨a, v⟩ := x
    simp only [List.map_cons, smFind]
    split
    · rfl
    · exact ih

/-- Every tile, listed or not, is stopped where the attempt is aborted. -/
theorem stopTiles_tile (s : State) (k : Nat) (t : State) (h : t.tiles = s.tiles.map (fun p => (p.1, stopTile p.2))) :
    t.tile k = stopTile (s.tile k) := by
  unfold State.tile smGetD
  rw [h, smFind_map]
  cases smFind s.tiles k with
  | none => rfl
  | some x => rfl

/-- Raising an event leaves a record of it among those not yet in a frame. -/
theorem raiseAt_record (e d t sub op : Nat) (s : State) :
    ∃ x ∈ (raiseAt e d t sub op s).evBatch, x.code = e ∧ x.unit = endpoint s d t := by
  unfold raiseAt raiseUnit
  dsimp only
  obtain ⟨a, b, h, _⟩ := trunkPost_regs 1 1 (epDie (endpoint s d t)) (eventBits { code := e, subunit := sub % 256, unit := endpoint s d t, operation := op % 2 ^ 32, time := s.now, temp := wrapInt 16 (hottest s (epDie (endpoint s d t))), volt := s.reg (dieKey 0 (0x200405 + epDie (endpoint s d t))) % 65536 }) s
  rw [h]
  unfold batchEvent
  dsimp only
  split
  · rename_i hc
    obtain ⟨x, hx, hm⟩ := List.any_eq_true.mp hc.2
    refine ⟨_, List.mem_map.mpr ⟨x, hx, rfl⟩, ?_⟩
    simp only [Bool.and_eq_true, beq_iff_eq] at hm
    rw [if_pos hm]
    exact hm
  · exact ⟨_, List.mem_append.mpr (Or.inr (List.mem_singleton.mpr rfl)), rfl, rfl⟩

/-- A program fault of a tile instruction that has written nothing (R69). -/
theorem takeCtx_progFault (k op : Nat) (u : State) (hp : u.step.phase = .attempt) (hc : u.step.causes = [])
    (hs : ∀ x ∈ u.step.suspects, x.unit ≠ tileEp u k) :
    let v := takeCtx k op (tcProgFault (tileCtx k u)) u
    2 ∈ v.step.causes ∧ v.tile k = stopTile (u.tile k) ∧ ∃ e ∈ v.evBatch, e.code = 0x7003 ∧ e.unit = tileEp u k := by
  have key : ∃ z0, takeCtx k op (tcProgFault (tileCtx k u)) u = allOf [2] abortAttempt (suspectUnit 0x7003
      (tileEp (allOf [0x7003] (fun e => raiseAt e (keyDie k) (keyTile k) 0 op) z0) k) (allOf [0x7003] (fun e => raiseAt e (keyDie k) (keyTile k) 0 op) z0)) ∧
      z0.step = { u.step with sat := u.step.sat + 0, nonfin := u.step.nonfin + 0 } ∧ z0.coord = u.coord ∧ z0.tile k = u.tile k ∧ z0.evBatch = u.evBatch := by
    have ec : tcProgFault (tileCtx k u) = { tileCtx k u with evs := [0x7003], aborts := [2], cnt := [(.issue, BitVec.ofNat 8 8, 1)] } := rfl
    rw [ec]
    unfold takeCtx
    dsimp only
    rw [show ([2] : List Nat).contains 2 = true from rfl, if_pos rfl, show ([0x7003] : List Nat).contains 0x7001 = false from by decide, if_neg Bool.false_ne_true]
    refine ⟨_, rfl, rfl, ?_, ?_, rfl⟩
    · unfold allOf State.coord
      rw [List.foldl_cons, List.foldl_nil, bumpReg_reg_ne _ _ _ _ (by unfold dieKey tallyKey Tally.index; norm_num; omega), setTile_reg_of]
      rfl
    · unfold allOf
      rw [List.foldl_cons, List.foldl_nil, bumpReg_tile_of, setTile_tile_self]
      rfl
  obtain ⟨z0, hv, e0⟩ := key
  have hep : endpoint z0 (keyDie k) (keyTile k) = tileEp u k := by unfold tileEp endpoint; rw [e0.2.1]
  obtain ⟨g, tr, eb, h1, hgq⟩ := raiseAt_parts 0x7003 (keyDie k) (keyTile k) 0 op z0
  have hr := raiseAt_record 0x7003 (keyDie k) (keyTile k) 0 op z0
  rw [hep] at hr
  obtain ⟨z1, hz1⟩ : ∃ z1, z1 = raiseAt 0x7003 (keyDie k) (keyTile k) 0 op z0 := ⟨_, rfl⟩
  rw [← hz1] at h1 hr
  have e1 : z1.step = z0.step := by rw [h1]
  have e2 : z1.tiles = z0.tiles := by rw [h1]
  have hsus : z1.step.suspects.find? (fun x => decide (x.source = 0x7003) && decide (x.unit = tileEp u k)) = none := by
    rw [List.find?_eq_none]
    intro x hx
    rw [e1, e0.1] at hx
    have := hs x hx
    simp [this]
  obtain ⟨z2, hz2⟩ : ∃ z2, z2 = suspectUnit 0x7003 (tileEp u k) z1 := ⟨_, rfl⟩
  have h2 : z2 = { z1 with step := { z1.step with suspects := z1.step.suspects ++ [{ source := 0x7003, unit := tileEp u k, step := z1.stepNo, attempt := z1.step.attempt }] } } := by
    rw [hz2]
    unfold suspectUnit
    rw [if_neg (by rw [e1, e0.1]; show ¬(u.step.phase = _ ∨ u.step.phase = _); rw [hp]; simp), hsus]
  rw [show allOf [0x7003] (fun e => raiseAt e (keyDie k) (keyTile k) 0 op) z0 = z1 from hz1.symm] at hv
  have hv2 : takeCtx k op (tcProgFault (tileCtx k u)) u = abortAttempt 2 z2 := by
    have et : tileEp z1 k = tileEp u k := by
      rw [← hep]; unfold tileEp endpoint State.coord State.reg
      rw [h1]
      dsimp only
      rw [hgq 0x102401 (by decide)]
      rfl
    rw [hv, et, ← hz2]
    rfl
  dsimp only
  rw [hv2]
  have hph : z2.step.phase = .attempt := by rw [h2]; show z1.step.phase = _; rw [e1, e0.1]; exact hp
  have hca : z2.step.causes = [] := by rw [h2]; show z1.step.causes = _; rw [e1, e0.1]; exact hc
  refine ⟨?_, ?_, ?_⟩
  · unfold abortAttempt
    rw [if_pos hph, hca]
    simp
  · have : (abortAttempt 2 z2).tile k = stopTile (z2.tile k) := by
      unfold abortAttempt
      rw [if_pos hph, hca]
      exact stopTiles_tile z2 k _ rfl
    rw [this]
    congr 1
    rw [h2]
    show z1.tile k = _
    unfold State.tile
    rw [e2]
    exact e0.2.2.1
  · rw [abortAttempt_evBatch, h2]
    exact hr

theorem applySlice_plain (k id op : Nat) (o : SliceOut) (s : State) (h1 : o.evs = []) (h2 : o.entries = []) (h3 : o.merges = [])
    (h4 : ∀ y ∈ o.stores, isRemote y.1 = false) :
    ∃ b g t, applySlice k id op o s = { s with
      mem := o.stores.foldl (fun m y => writeBytes m (wordAddr y.1) y.2) (o.puts.foldl (fun m y => writeBytes m (tileBase k + y.1) y.2) s.mem),
      bad := b, regs := g, tables := t } ∧
      (∀ a, (∀ y ∈ o.cnt, dieKey (keyDie k) y.1 ≠ a) → smGetD g a 0 = s.reg a) := by
  have hp : ∀ (xs : List (Nat × List Byte)) (s : State), ∃ b, allOf xs (fun p => putMem (tileBase k + p.1) p.2) s = { s with
      mem := xs.foldl (fun m y => writeBytes m (tileBase k + y.1) y.2) s.mem, bad := b } := by
    intro xs
    unfold allOf
    induction xs with
    | nil => exact fun s => ⟨s.bad, rfl⟩
    | cons x xs ih => intro s; obtain ⟨b, e⟩ := ih (putMem (tileBase k + x.1) x.2 s); exact ⟨b, e⟩
  have hc : ∀ (xs : List (Nat × Nat)) (s : State), ∃ g, allOf xs (fun p => bumpReg (dieKey (keyDie k) p.1) p.2) s = { s with regs := g } ∧
      (∀ a, (∀ y ∈ xs, dieKey (keyDie k) y.1 ≠ a) → smGetD g a 0 = s.reg a) := by
    intro xs
    unfold allOf
    induction xs with
    | nil => exact fun s => ⟨s.regs, rfl, fun _ _ => rfl⟩
    | cons x xs ih =>
      intro s
      obtain ⟨g, e, f⟩ := ih (bumpReg (dieKey (keyDie k) x.1) x.2 s)
      exact ⟨g, e, fun a ha => (f a (fun y hy => ha y (List.mem_cons_of_mem _ hy))).trans (bumpReg_reg_ne _ _ _ _ (ha x (List.mem_cons_self ..)))⟩
  have hs : ∀ (xs : List (Nat × List Byte)) (s : State), (∀ y ∈ xs, isRemote y.1 = false) → ∃ b, allOf xs (fun p => storeWord k id p.1 p.2) s = { s with
      mem := xs.foldl (fun m y => writeBytes m (wordAddr y.1) y.2) s.mem, bad := b } := by
    intro xs
    unfold allOf
    induction xs with
    | nil => exact fun s _ => ⟨s.bad, rfl⟩
    | cons x xs ih =>
      intro s hx
      have e0 : storeWord k id x.1 x.2 s = putMem (wordAddr x.1) x.2 s := by
        unfold storeWord; rw [hx x (List.mem_cons_self ..)]; rfl
      obtain ⟨b, e⟩ := ih (putMem (wordAddr x.1) x.2 s) (fun y hy => hx y (List.mem_cons_of_mem _ hy))
      refine ⟨b, ?_⟩
      rw [List.foldl_cons]
      dsimp only
      rw [e0]
      exact e
  unfold applySlice
  dsimp only
  rw [h1, h2, h3]
  obtain ⟨b1, e1⟩ := hp o.puts s
  rw [e1]
  obtain ⟨g, e2, f2⟩ := hc o.cnt { s with mem := o.puts.foldl (fun m y => writeBytes m (tileBase k + y.1) y.2) s.mem, bad := b1 }
  rw [e2]
  obtain ⟨b3, e3⟩ := hs o.stores ({ s with mem := o.puts.foldl (fun m y => writeBytes m (tileBase k + y.1) y.2) s.mem, bad := b1, regs := g, tables := { s.tables with looks := s.tables.looks ++ o.looks, repLooks := s.tables.repLooks ++ o.repLooks } }) h4
  refine ⟨b3, g, _, e3, f2⟩

@[simp] theorem issued_xfers (op : TileOp) (r : TileRef) (w : WaitField) (s : State) (j : Nat) : ((issued op r w s).tile j).xfers = (s.tile j).xfers := by
  obtain ⟨_, _, _, h⟩ := issued_tile_parts op r w s j; rw [h]

theorem issued_outside (op : TileOp) (r : TileRef) (w : WaitField) (s : State) (h : (s.tile (tileKey r)).outside = []) :
    ((issued op r w s).tile (tileKey r)).outside = [] := by
  have hc : ∀ (tk : Fin 64) (n : Nat) (s : State), (s.tile (tileKey r)).outside = [] → ((consumeToken (tileKey r) tk n s).tile (tileKey r)).outside = [] := by
    intro tk n s h
    unfold consumeToken
    dsimp only
    rw [setTile_tile_self]
    dsimp only
    rw [h]; rfl
  have hb : ((beginIssue op (tileKey r) w s).tile (tileKey r)).outside = [] := by
    unfold beginIssue
    cases w with
    | none => cases op <;> first | exact h | exact hc _ _ _ h
    | some tk => cases op <;> first | exact hc _ _ _ h | exact hc _ _ _ (hc _ _ _ h)
  unfold issued
  obtain ⟨c, e⟩ := raceLines_tile_parts (tileKey r) (tileKey r) (footprint (s.tile (tileKey r)) op) (beginIssue op (tileKey r) w s)
  unfold raceLines modTile
  dsimp only
  rw [setTile_tile_self, hb]
  dsimp only
  rw [List.filter_nil, List.foldl_nil, hb]
  rfl

theorem modXfer_last (k id : Nat) (f : Xfer → Xfer) (s : State) (t : Tile) (xs : List Xfer) (x : Xfer) (hx : x.id = id) (hn : ∀ y ∈ xs, y.id ≠ id) :
    modXfer k id f (setTile k { t with xfers := xs ++ [x] } s) = setTile k { t with xfers := xs ++ [f x] } s := by
  unfold modXfer modTile
  rw [setTile_tile_self, setTile_setTile]
  dsimp only
  congr 2
  rw [List.map_append]
  congr 1
  · conv_rhs => rw [← List.map_id xs]
    apply List.map_congr_left
    intro y hy
    rw [if_neg (hn y hy)]; rfl
  · simp [hx]

theorem effSlice_result (k fn : Nat) (ps : Fin 16) (ctx : Nat) (tk : Option (Fin 64)) (op : Nat) (u : State) (out : SliceOut)
    (p : Nat) (j : SliceJob) (rs : List (Nat × Nat × Bool)) (hp : ((u.tile k).ptr[ps]).toNat = p) (hj : sliceJobAt k fn ps ctx op u = j)
    (hr : sliceRanges { s := u, remote := [] } k p j = rs) (ho : (u.tile k).outside = [])
    (hn : ∀ y ∈ (u.tile k).xfers, y.id ≠ (u.tile k).nextXfer)
    (he : evalSlice { s := setTile k { u.tile k with nextXfer := (u.tile k).nextXfer + 1, xfers := (u.tile k).xfers ++ [{ sliceXfer fn tk rs (some j) with id := (u.tile k).nextXfer }] } u, remote := [] } k p j = .ok (some out))
    (hjr : j.remote = []) :
    effSlice k fn ps ctx tk op u = (applySlice k (u.tile k).nextXfer j.op out
      (setTile k { u.tile k with nextXfer := (u.tile k).nextXfer + 1, xfers := (u.tile k).xfers ++ [{ sliceXfer fn tk rs none with id := (u.tile k).nextXfer }] } u), none) := by
  have hrace : ∀ spans, raceLines k spans u = setTile k (u.tile k) u := by
    intro spans
    have h0 : (u.tile k).outside.filter (fun o => spans.any (fun x => meet x.lo (64 * o.line) x.len 64)) = [] := by rw [ho]; rfl
    unfold raceLines modTile
    rw [h0]
    show setTile k { u.tile k with outside := (u.tile k).outside.filter (fun o => !([] : List OutsideLine).contains o) } u = _
    have hx : (u.tile k).outside.filter (fun o => !([] : List OutsideLine).contains o) = (u.tile k).outside := by rw [ho]; rfl
    rw [hx]
  have hq : ∀ spans, openXfer k (sliceXfer fn tk rs (some j)) (raceLines k spans u) = ((u.tile k).nextXfer,
      setTile k { u.tile k with nextXfer := (u.tile k).nextXfer + 1, xfers := (u.tile k).xfers ++ [{ sliceXfer fn tk rs (some j) with id := (u.tile k).nextXfer }] } u) := by
    intro spans
    rw [hrace]
    unfold openXfer
    dsimp only
    rw [setTile_tile_self, setTile_setTile]
  unfold effSlice
  dsimp only
  rw [hp, hj, hr, hq]
  dsimp only
  congr 1
  generalize hQ : setTile k { u.tile k with nextXfer := (u.tile k).nextXfer + 1, xfers := (u.tile k).xfers ++ [{ sliceXfer fn tk rs (some j) with id := (u.tile k).nextXfer }] } u = q at *
  have hf : (findXfer (q.tile k) (u.tile k).nextXfer).bind (fun x => x.slice) = some j := by
    rw [← hQ, setTile_tile_self]
    unfold findXfer
    dsimp only
    rw [List.find?_append, List.find?_eq_none.mpr (fun y hy => by simpa using hn y hy)]
    simp [sliceXfer]
  unfold runSlice
  rw [hf]
  dsimp only
  rw [hjr, he]
  dsimp only
  rw [← hQ]
  congr 1
  exact modXfer_last k (u.tile k).nextXfer (fun x => { x with slice := none }) u { u.tile k with nextXfer := (u.tile k).nextXfer + 1 } (u.tile k).xfers { sliceXfer fn tk rs (some j) with id := (u.tile k).nextXfer } rfl hn

end Sys2Proof.Machine
end

