-- ==== Sys2Proof/Laws/Steps.lean ====
section
/-!
SUPPORT. What beginning an attempt, stopping tiles and a change of package state do.
-/

namespace Sys2Proof.Machine
open Sys2Proof

theorem allOf_same {α : Type} (xs : List α) (f : α → State → State) (s : State) (h : ∀ x ∈ xs, f x s = s) : allOf xs f s = s := by
  unfold allOf
  induction xs with
  | nil => rfl
  | cons x xs ih =>
    rw [List.foldl_cons, h x (List.mem_cons_self ..)]
    exact ih (fun y hy => h y (List.mem_cons_of_mem _ hy))

theorem setAt_same {α : Type} (xs : List α) (i : Nat) (a d : α) (h : xs.getD i d = a) (hi : i < xs.length) : setAt xs i a = xs := by
  unfold setAt
  apply List.ext_getElem?
  intro j
  by_cases e : i = j
  · subst e
    rw [List.getElem?_set_self hi]
    rw [List.getD_eq_getElem?_getD, List.getElem?_eq_getElem hi] at h
    rw [List.getElem?_eq_getElem hi]
    exact congrArg some h.symm
  · rw [List.getElem?_set_ne e]

theorem applyEarlyDie_none (d : Nat) (tag : BitVec 12) (s : State) (h : s.early.getD d [] = []) (hd : d < s.early.length) : applyEarlyDie d tag s = s := by
  unfold applyEarlyDie
  rw [h]
  dsimp only [List.filter]
  rw [setAt_same s.early d [] [] h hd]
  rfl

theorem applyEarlyTile_none (k : Nat) (s : State) (h : s.early.getD (keyDie k) [] = []) (hd : keyDie k < s.early.length) : applyEarlyTile k s = s := by
  unfold applyEarlyTile
  dsimp only
  rw [h]
  dsimp only [List.filter]
  rw [setAt_same s.early _ [] [] h hd]
  rfl

theorem reloadHalf_none (k half : Nat) (s : State) (h : nth (s.tile k).lastSeg half = nth (s.tile k).startSeg half) : reloadHalf k half s = s := by
  unfold reloadHalf
  dsimp only
  rw [if_pos h]

/-- What opening an attempt can change. -/
theorem openAttempt_parts (s : State) :
    let u := openAttempt s
    (∀ q, q ≠ 0x500002 → q ≠ 0x500009 → q ≠ 0x501003 → u.reg q = s.reg q) ∧ u.step.phase = .attempt ∧ u.step.causes = [] ∧ u.step.attempt = s.step.attempt ∧
      u.step.sinceQuiet = s.step.sinceQuiet + 1 ∧
      u = { s with step := u.step, dieTags := List.replicate 4 (stepTag s.stepNo s.step.attempt), layerReady := [], tiles := s.tiles.map (fun p => (p.1, { p.2 with run := .idle })), tables := u.tables, regs := u.regs, reduce := {}, host := u.host } := by
  obtain ⟨v, hv⟩ : ∃ v, v = (if s.step.attempt = 0 then returnPlanes (markRunning s) else s) := ⟨_, rfl⟩
  have h : v = { s with host := v.host } := by
    rw [hv]; split <;> rfl
  have hs : v.step = s.step := by rw [h]
  have hn : v.stepNo = s.stepNo := by rw [h]; rfl
  intro u
  have hu : u = setReg 0x500002 ((openState v).step.sinceQuiet - 1) (setReg 0x500009 (atBit 16 v.job.flags.toNat + modeBits (openState v)) (setReg 0x501003 v.step.bits.toNat (openState v))) := by
    show openAttempt s = _
    unfold openAttempt
    rw [← hv]
    rfl
  clear_value u
  refine ⟨fun q h1 h2 h3 => ?_, ?_, ?_, ?_, ?_, ?_⟩
  · rw [hu, setReg_reg_ne _ _ _ _ h1.symm, setReg_reg_ne _ _ _ _ h2.symm, setReg_reg_ne _ _ _ _ h3.symm, h]
    rfl
  · rw [hu]; rfl
  · rw [hu]; rfl
  · rw [hu, ← hs]; rfl
  · rw [hu, ← hs]; rfl
  · have ho : openState v = { v with step := openStep v, dieTags := List.replicate 4 (stepTag s.stepNo s.step.attempt), layerReady := [], tiles := s.tiles.map (fun p => (p.1, { p.2 with run := .idle })), reduce := {}, tables := (openState v).tables } := by
      rw [← hs, ← hn]
      have : v.tiles = s.tiles := by rw [h]
      rw [← this]
      rfl
    generalize openState v = w at ho hu
    rw [hu, ho, h]
    rfl

theorem applyHeld_none (s : State) (he : ∀ d, s.early.getD d [] = []) (hl : s.early.length = 4) : applyHeld [] s = s := by
  have h : allOf (List.range 4) (fun d s => applyEarlyDie d (stepTag s.stepNo s.step.attempt) s) s = s :=
    allOf_same (List.range 4) (fun d s => applyEarlyDie d (stepTag s.stepNo s.step.attempt) s) s
      (fun d hd => applyEarlyDie_none d _ _ (he d) (by rw [List.mem_range] at hd; exact lt_of_lt_of_eq hd hl.symm))
  show (if s.step.attempt = 0 then allOf (List.range 4) (fun d s => applyEarlyDie d (stepTag s.stepNo s.step.attempt) s) s else s) = s
  rw [h]
  split <;> rfl

/-- Beginning an attempt for which nothing was held. -/
theorem beginAttempt_plain (s : State) (he : ∀ d, s.early.getD d [] = []) (hl : s.early.length = 4) (hh : s.reduce.held = []) (hu : s.gal.unresolved = false) :
    let u := beginAttempt s
    (∀ q, q ≠ 0x500002 → q ≠ 0x500009 → q ≠ 0x501003 → u.reg q = s.reg q) ∧ u.step.phase = .attempt ∧ u.step.causes = [] ∧ u.step.attempt = s.step.attempt ∧
      u.step.sinceQuiet = s.step.sinceQuiet + 1 ∧
      u = { s with step := u.step, dieTags := List.replicate 4 (stepTag s.stepNo s.step.attempt), layerReady := [], tiles := s.tiles.map (fun p => (p.1, { p.2 with run := .idle })), tables := u.tables, regs := u.regs, reduce := {}, host := u.host, recov := u.recov } := by
  obtain ⟨h1, h2, h3, h4, h5, e⟩ := openAttempt_parts s
  obtain ⟨u, hu2⟩ : ∃ u, u = openAttempt s := ⟨_, rfl⟩
  rw [← hu2] at h1 h2 h3 h4 h5 e
  have hA : applyHeld s.reduce.held u = u := by
    rw [hh]
    exact applyHeld_none u (by rw [e]; exact he) (by rw [e]; exact hl)
  have hg : u.gal.unresolved = false := by rw [e]; exact hu
  obtain ⟨z, hz⟩ : ∃ z, z = beginAttempt s := ⟨_, rfl⟩
  show (∀ q, q ≠ 0x500002 → q ≠ 0x500009 → q ≠ 0x501003 → (beginAttempt s).reg q = s.reg q) ∧ _
  rw [← hz]
  have hz2 : z = { u with recov := z.recov } := by
    rw [hz]
    unfold beginAttempt
    rw [← hu2, hA]
    dsimp only
    split
    · rw [if_neg (by rw [hg]; exact Bool.false_ne_true)]
    · rw [if_neg (by rw [hg]; exact Bool.false_ne_true)]
  clear hz
  refine ⟨fun q a b c => ?_, ?_, ?_, ?_, ?_, ?_⟩
  · rw [hz2]; exact h1 q a b c
  · rw [hz2]; exact h2
  · rw [hz2]; exact h3
  · rw [hz2]; exact h4
  · rw [hz2]; exact h5
  · show z = { s with step := z.step, dieTags := _, layerReady := [], tiles := _, tables := z.tables, regs := z.regs, reduce := {}, host := z.host, recov := z.recov }
    have a1 : z.step = u.step := by rw [hz2]
    have a2 : z.tables = u.tables := by rw [hz2]
    have a3 : z.regs = u.regs := by rw [hz2]
    have a4 : z.host = u.host := by rw [hz2]
    rw [a1, a2, a3, a4]
    refine hz2.trans ?_
    generalize z.recov = rc
    conv_lhs => rw [e]

/-- A tile whose attempt is open enters it. -/
theorem stepStart_enters (k : Nat) (s : State) (hh : ∀ h, nth (s.tile k).lastSeg h = nth (s.tile k).startSeg h) (hx : (s.tile k).xfers = [])
    (hgal : s.gal.runs.any (fun g => g.key == k) = false) (he : ∀ d, s.early.getD d [] = []) (hl : keyDie k < s.early.length)
    (h1 : s.life = .running ∨ s.life = .spare) (h2 : s.step.phase = .attempt) (h3 : s.step.causes = []) (h4 : (s.tile k).run = .idle) :
    (let t := s.tile k
     if runsTiles s ∧ s.step.phase = .attempt ∧ s.step.causes = [] ∧ t.run = .idle ∧ t.xfers = [] ∧ !(s.gal.runs.any (fun g => g.key == k)) then
      let s := reloadHalf k 1 (reloadHalf k 0 s)
      let s := setTile k (freshTile (s.tile k) (s.dieTags.getD (keyDie k) 0) (modeWord s k)) s
      if s.step.attempt = 0 then applyEarlyTile k s else s
    else s) = setTile k (freshTile (s.tile k) (s.dieTags.getD (keyDie k) 0) (modeWord s k)) s := by
  have hr : runsTiles s = true := by unfold runsTiles; simpa using h1
  dsimp only
  rw [if_pos ⟨hr, h2, h3, h4, hx, by rw [hgal]; rfl⟩, reloadHalf_none k 0 s (hh 0), reloadHalf_none k 1 s (hh 1)]
  split
  · exact applyEarlyTile_none k _ (he _) hl
  · rfl
/-- What a change of package state can change (R396, R407, R410, R449). -/
theorem enter_result (p : PkgState) (cause : Nat) (s : State) :
    let t := enter p cause s
    t = { s with life := p, regs := t.regs, trunk := t.trunk, step := t.step } ∧ t.step = { s.step with holdAsked := t.step.holdAsked } ∧
    t.reg 0x100009 = cause ∧ t.reg 0x100008 = s.now ∧
    (∀ q, q ≠ 0x100008 → q ≠ 0x100009 → q ≠ 0x100102 → q ≠ 0x100103 → q ≠ 0x702008 → t.reg q = s.reg q) := by
  obtain ⟨v, hv⟩ : ∃ v, v = setReg 0x100008 s.now (setReg 0x100009 cause { s with life := p }) := ⟨_, rfl⟩
  obtain ⟨x, hx⟩ : ∃ x, x = (if p = .held ∧ v.step.holdAsked then setReg 0x100102 2 { v with step := { v.step with holdAsked := false } } else v) := ⟨_, rfl⟩
  obtain ⟨y, hy⟩ : ∃ y, y = (if (p = .fault ∨ p = .off) ∧ x.reg 0x100102 = 1 then setReg 0x100102 3 (setReg 0x100103 0x000D x) else x) := ⟨_, rfl⟩
  have hvr : ∀ q, q ≠ 0x100008 → q ≠ 0x100009 → v.reg q = s.reg q := by
    intro q h1 h2
    rw [hv, setReg_reg_ne _ _ _ _ h1.symm, setReg_reg_ne _ _ _ _ h2.symm]
    rfl
  have hx1 : x = { v with regs := x.regs, step := x.step } ∧ x.step = { v.step with holdAsked := x.step.holdAsked } ∧ ∀ q, q ≠ 0x100102 → x.reg q = v.reg q := by
    rw [hx]
    split
    · exact ⟨rfl, rfl, fun q h => setReg_reg_ne _ _ _ _ h.symm⟩
    · exact ⟨rfl, rfl, fun _ _ => rfl⟩
  have hy1 : y = { x with regs := y.regs } ∧ ∀ q, q ≠ 0x100102 → q ≠ 0x100103 → y.reg q = x.reg q := by
    rw [hy]
    split
    · exact ⟨rfl, fun q h h' => by rw [setReg_reg_ne _ _ _ _ h.symm, setReg_reg_ne _ _ _ _ h'.symm]⟩
    · exact ⟨rfl, fun _ _ _ => rfl⟩
  obtain ⟨a, b, hp, hr⟩ := trunkPost_regs 0 4 0 (atBit 248 (stateCode s.life) + atBit 240 (stateCode p) + atBit 224 cause) y
  obtain ⟨t, ht⟩ : ∃ t, t = trunkPost 0 4 0 (atBit 248 (stateCode s.life) + atBit 240 (stateCode p) + atBit 224 cause) y := ⟨_, rfl⟩
  have he : enter p cause s = t := by
    rw [ht, hy, hx, hv]
    rfl
  rw [← ht] at hp
  have hs : y.step = { s.step with holdAsked := y.step.holdAsked } := by
    have e1 : y.step = x.step := by rw [hy1.1]
    rw [e1, hx1.2.1, hv]
    rfl
  have hreg : ∀ q, q ≠ 0x702008 → t.reg q = y.reg q := fun q h => by
    rw [hp]; exact hr q h
  show enter p cause s = { s with life := p, regs := (enter p cause s).regs, trunk := (enter p cause s).trunk, step := (enter p cause s).step } ∧ (enter p cause s).step = { s.step with holdAsked := (enter p cause s).step.holdAsked } ∧ (enter p cause s).reg 0x100009 = cause ∧ (enter p cause s).reg 0x100008 = s.now ∧
    (∀ q, q ≠ 0x100008 → q ≠ 0x100009 → q ≠ 0x100102 → q ≠ 0x100103 → q ≠ 0x702008 → (enter p cause s).reg q = s.reg q)
  rw [he]
  refine ⟨?_, ?_, ?_, ?_, fun q h1 h2 h3 h4 h5 => ?_⟩
  · rw [hp]
    have e1 : y = { s with life := p, regs := y.regs, step := y.step } := by
      conv_lhs => rw [hy1.1, hx1.1, hv]
      have : y.step = x.step := by rw [hy1.1]
      rw [this]
      rfl
    conv_lhs => rw [e1]
  · rw [hp]; exact hs
  · rw [hreg _ (by norm_num), hy1.2 _ (by norm_num) (by norm_num), hx1.2.2 _ (by norm_num), hv, setReg_reg_ne _ _ _ _ (by norm_num)]
    exact setReg_reg_self _ _ _
  · rw [hreg _ (by norm_num), hy1.2 _ (by norm_num) (by norm_num), hx1.2.2 _ (by norm_num), hv]
    exact setReg_reg_self _ _ _
  · rw [hreg _ h5, hy1.2 _ h3 h4, hx1.2.2 _ h3, hvr _ h1 h2]

/-- Stopping every listed tile. -/
theorem mapTiles_tile (f : Tile → Tile) (hf : f {} = {}) (k : Nat) (s : State) : (mapTiles f s).tile k = f (s.tile k) := by
  unfold mapTiles State.tile smGetD
  dsimp only
  rw [smFind_map]
  cases smFind s.tiles k with
  | none => exact hf.symm
  | some t => rfl

end Sys2Proof.Machine
end

