-- ==== Sys2Proof/Laws/Decisions.lean ====
section
/-!
SUPPORT. Votes and decisions (R235-R243): how their fields are packed, what each decision's common part leaves, and who acts on one.
-/

namespace Sys2Proof.Machine
open Sys2Proof

theorem boolNat_lt (b : Bool) : boolNat b < 2 ^ 1 := by cases b <;> decide

theorem bitAt_pack (fs : List (Nat × Nat)) (i n hi : Nat) (b : Bool) (hn : n = packFields fs) (h : fs[i]? = some (1, boolNat b)) (h1 : fieldBits (fs.drop (i + 1)) = hi) :
    bitAt n hi = b := by
  rw [bitAt_field, hn, bitField_pack_at fs i 1 (boolNat b) hi hi h h1 (by omega)]
  cases b <;> rfl

theorem voteBits_pack (v : Vote) (h : voteOk v = true) : (voteBits v).toNat = packFields [(48, v.step), (4, v.attempt), (8, v.encore.toNat), (5, v.exc.toNat), (1, boolNat v.lossNF),
    (1, boolNat v.gradNF), (1, boolNat v.rowNF), (1, boolNat v.abort), (4, v.cause), (1, boolNat v.suspV), (12, v.suspect.toNat), (2, v.susDie.toNat), (8, 0), (32, v.invalid),
    (64, v.gs.toNat), (64, v.gb.toNat)] := by
  unfold voteOk at h
  simp only [Bool.and_eq_true, decide_eq_true_eq, Bool.or_eq_true, beq_iff_eq] at h
  obtain ⟨⟨⟨⟨h1, h2⟩, h3⟩, h4⟩, _⟩ := h
  have hs : atBit 208 (v.step % 2 ^ 48) + atBit 204 (v.attempt % 16) + atBit 196 v.encore.toNat + atBit 191 v.exc.toNat + atBit 190 (boolNat v.lossNF)
    + atBit 189 (boolNat v.gradNF) + atBit 188 (boolNat v.rowNF) + atBit 187 (boolNat v.abort) + atBit 183 v.cause
    + atBit 182 (boolNat v.suspV) + atBit 170 v.suspect.toNat + atBit 168 v.susDie.toNat + atBit 128 v.invalid + atBit 64 v.gs.toNat + v.gb.toNat = packFields [(48, v.step), (4, v.attempt), (8, v.encore.toNat), (5, v.exc.toNat), (1, boolNat v.lossNF),
    (1, boolNat v.gradNF), (1, boolNat v.rowNF), (1, boolNat v.abort), (4, v.cause), (1, boolNat v.suspV), (12, v.suspect.toNat), (2, v.susDie.toNat), (8, 0), (32, v.invalid),
    (64, v.gs.toNat), (64, v.gb.toNat)] := by
    simp only [packFields_cons, fieldBits, List.map_cons, List.map_nil, List.sum_cons, List.sum_nil, Nat.mod_eq_of_lt h1, Nat.mod_eq_of_lt h4, Nat.mod_eq_of_lt (boolNat_lt _),
      Nat.mod_eq_of_lt v.encore.isLt, Nat.mod_eq_of_lt v.exc.isLt, Nat.mod_eq_of_lt v.suspect.isLt, Nat.mod_eq_of_lt v.susDie.isLt, Nat.mod_eq_of_lt v.gs.isLt, Nat.mod_eq_of_lt v.gb.isLt,
      Nat.mod_eq_of_lt (show v.attempt < 2 ^ 4 from h2), Nat.mod_eq_of_lt (show v.cause < 2 ^ 4 by omega), Nat.mod_eq_of_lt (show v.attempt < 16 from h2)]
    simp only [atBit, packFields, List.foldl_nil]
    norm_num
    ring
  unfold voteBits
  rw [BitVec.toNat_ofNat, hs]
  refine Nat.mod_eq_of_lt (lt_of_lt_of_eq (packFields_lt _) ?_)
  exact congrArg (fun x => 2 ^ x) (show fieldBits _ = 256 by simp [fieldBits])

theorem decisionBits_pack (d : Decision) (k : Nat) (h : decisionOk d k = true) (hk : k < 16) : decisionBits d = packFields [(48, d.step), (4, d.attempt), (4, d.action), (16, d.nextmode.toNat),
    (4, d.cause), (1, boolNat d.suspV), (12, d.suspect.toNat), (2, d.susDie.toNat), (37, 0)] := by
  unfold decisionOk at h
  simp only [Bool.and_eq_true, decide_eq_true_eq] at h
  obtain ⟨⟨⟨h1, h2⟩, h3⟩, h4⟩ := h
  unfold decisionBits
  simp only [packFields_cons, fieldBits, List.map_cons, List.map_nil, List.sum_cons, List.sum_nil, Nat.mod_eq_of_lt h1, Nat.mod_eq_of_lt (boolNat_lt _),
      Nat.mod_eq_of_lt d.suspect.isLt, Nat.mod_eq_of_lt d.susDie.isLt, Nat.mod_eq_of_lt d.nextmode.isLt, Nat.mod_eq_of_lt (show d.action < 2 ^ 4 by omega),
      Nat.mod_eq_of_lt (show d.attempt < 2 ^ 4 from h2), Nat.mod_eq_of_lt (show d.cause < 2 ^ 4 by omega), Nat.mod_eq_of_lt (show d.attempt < 16 from h2)]
  simp only [atBit, packFields, List.foldl_nil]
  norm_num
  ring

theorem boolNat_le (b : Bool) : boolNat b ≤ 1 := by cases b <;> decide

theorem nextMode_par (bsel : BitVec 2) (wide par : Bool) (bits : BitVec 8) :
    (nextMode bsel wide par bits).getLsbD 8 = par ∧ (nextMode bsel wide par bits).getLsbD 9 = wide := by
  have h1 := bsel.isLt
  have h2 := bits.isLt
  have h3 := boolNat_le wide
  have h4 := boolNat_le par
  unfold nextMode
  rw [BitVec.getLsbD_ofNat, BitVec.getLsbD_ofNat, Nat.testBit_eq_decide_div_mod_eq, Nat.testBit_eq_decide_div_mod_eq]
  unfold atBit
  have e1 : (bsel.toNat * 2 ^ 10 + boolNat wide * 2 ^ 9 + boolNat par * 2 ^ 8 + bits.toNat) / 2 ^ 8 % 2 = boolNat par := by omega
  have e2 : (bsel.toNat * 2 ^ 10 + boolNat wide * 2 ^ 9 + boolNat par * 2 ^ 8 + bits.toNat) / 2 ^ 9 % 2 = boolNat wide := by omega
  rw [e1, e2]
  cases par <;> cases wide <;> decide

theorem encoreRecord_step (v : Vote) (o c : Nat) (s : State) : (encoreRecord v o c s).step = s.step := by
  unfold encoreRecord postRecord raise_
  dsimp only
  rw [raiseAt_step]
  show (trunkPost _ _ _ _ s).step = s.step
  rw [trunkPost_step]

theorem guardRecord_facts (v : Vote) (T a : Nat) (s : State) :
    (guardRecord v T a s).step = s.step ∧ (∃ e ∈ (guardRecord v T a s).evBatch, e.code = 0x9003) ∧
    (guardRecord v T a s).reg 0x500406 = (s.reg 0x500406 + 1) % 2 ^ counterBits 0x500406 := by
  unfold guardRecord postRecord raise_
  dsimp only
  generalize atBit 192 v.step + atBit 188 v.attempt + atBit 183 T + atBit 179 a + atBit 171 s.step.bits.toNat + atBit 139 v.invalid + atBit 64 0x9003 = r
  obtain ⟨x, hx⟩ : ∃ x, x = trunkPost 1 3 0 (r % 2 ^ 256) s := ⟨_, rfl⟩
  obtain ⟨a1, b1, hp, hr⟩ := trunkPost_regs 1 3 0 (r % 2 ^ 256) s
  rw [← hx] at hp ⊢
  refine ⟨?_, ?_, ?_⟩
  · rw [raiseAt_step]
    show x.step = _
    rw [hp]
  · obtain ⟨e, h, h', _⟩ := raiseAt_record 0x9003 0 768 0 0 (bumpReg 0x500406 1 (setBlob 0x500407 (leBytes 32 r) x))
    exact ⟨e, h, h'⟩
  · obtain ⟨a2, b2, c2, hq, hq2⟩ := raiseAt_parts 0x9003 0 768 0 0 (bumpReg 0x500406 1 (setBlob 0x500407 (leBytes 32 r) x))
    have h1 : (raiseAt 0x9003 0 768 0 0 (bumpReg 0x500406 1 (setBlob 0x500407 (leBytes 32 r) x))).reg 0x500406 = (bumpReg 0x500406 1 (setBlob 0x500407 (leBytes 32 r) x)).reg 0x500406 := by
      rw [hq]; exact hq2 _ (by norm_num)
    rw [h1, bumpReg_reg_self]
    have h2 : (setBlob 0x500407 (leBytes 32 r) x).reg 0x500406 = s.reg 0x500406 := by
      show x.reg _ = _
      rw [hp]; exact hr _ (by norm_num)
    rw [h2]

theorem decideVote_plain (v : Vote) (s : State) (ha : v.abort = false) (h1 : v.encore = 0) :
    decideVote v s = if triggers s v false = 0 then decideCommit v s else Machine.guard v (triggers s v false) s := by
  have hn : newClasses s v = false := by
    unfold newClasses
    rw [List.any_eq_false]
    intro i _
    rw [h1]
    simp
  have hf : (decide (v.encore ≠ 0)) = false := by rw [h1]; rfl
  unfold decideVote
  dsimp only
  rw [if_neg (by rw [ha]; exact Bool.false_ne_true), hn, Bool.and_false, if_neg Bool.false_ne_true, hf]
  simp only [Bool.not_false, if_true, Bool.and_false]

theorem steerStats_step (v : Vote) (s : State) : (steerStats v s).step = s.step := by
  unfold steerStats
  split
  · rfl
  · rfl

theorem judgeStep_quiet (cause : Nat) (d : Decision) (s : State) (h1 : s.step.suspects = []) (h2 : s.step.mismatches = []) (h3 : d.suspV = false) :
    judgeStep cause d s = s := by
  have e1 : takeSuspect d s = s := by unfold takeSuspect; rw [if_neg (by rw [h3]; simp)]
  have e2 : judgeAttempt cause s = s := by
    unfold judgeAttempt
    dsimp only
    rw [h1]
    show { s with step := { s.step with suspects := [] } } = s
    rw [← h1]
  have e3 : judgeMismatches cause s = s := by
    unfold judgeMismatches
    dsimp only
    rw [h2]
    have hl : allOf (if cause = 0 ∨ cause = 8 then ([] : List Mismatch) else []) (fun m s => judgePassed (m.copy / 1024 * 1024 + 768) 0x7005 (judgePassed (m.real / 1024 * 1024 + 768) 0x7005 s))
        { s with step := { s.step with mismatches := [] } } = s := by
      rw [ite_self]
      show { s with step := { s.step with mismatches := [] } } = s
      rw [← h2]
    exact hl
  unfold judgeStep
  rw [e1, e2, e3]

theorem checkpoint_boundary (n : Nat) (s : State) :
    (checkpoint n s).reg 0x500001 = s.reg 0x500001 ∧ (checkpoint n s).reg 0x500408 = s.reg 0x500408 ∧ (checkpoint n s).step = s.step ∧ (checkpoint n s).tables = s.tables ∧ (checkpoint n s).reduce = s.reduce ∧ (checkpoint n s).gal = s.gal := by
  have hg : ∀ u : State, (showGeneration u).step = u.step ∧ (showGeneration u).tables = u.tables ∧ (showGeneration u).reduce = u.reduce ∧ (showGeneration u).gal = u.gal ∧
      (∀ q, q ≠ 0x600004 → q ≠ 0x600005 → (showGeneration u).reg q = u.reg q) := by
    intro u
    refine ⟨rfl, rfl, rfl, rfl, fun q h1 h2 => ?_⟩
    unfold showGeneration
    dsimp only
    rw [setReg_reg_ne _ _ _ _ h1.symm, setReg_reg_ne _ _ _ _ h2.symm]
  unfold checkpoint
  dsimp only
  split
  · exact ⟨rfl, rfl, rfl, rfl, rfl, rfl⟩
  · split
    · obtain ⟨a, b, c, h, hr⟩ := raiseAt_parts 0x9007 0 768 0 0 (bumpReg 0x600007 1 s)
      have e : raise_ 0x9007 (bumpReg 0x600007 1 s) = _ := h
      refine ⟨?_, ?_, ?_, ?_, ?_, ?_⟩
      · rw [e]
        exact (hr _ (by norm_num)).trans (bumpReg_reg_ne _ _ _ _ (by norm_num))
      · rw [e]
        exact (hr _ (by norm_num)).trans (bumpReg_reg_ne _ _ _ _ (by norm_num))
      all_goals rw [e]; rfl
    · obtain ⟨a, b, c, d, e⟩ := hg { s with recov := { s.recov with lastGen := s.recov.lastGen + 1, gens := s.recov.gens.filter (fun x => x.st == 4) ++ [{ gen := s.recov.lastGen + 1, step := n, repoch := s.reg 0x400006, coord := s.coord, st := 1, ranges := mirrorRanges s, cells := cellsIn (mirrorRanges s) s.mem, small := smallState n s }], mirrors := s.recov.mirrors.filter (fun m => m.st != 2) } }
      exact ⟨e _ (by norm_num) (by norm_num), e _ (by norm_num) (by norm_num), a, b, c, d⟩
/-- What the Shooting Gallery's windows can change. -/
def GalleryOnly (s t : State) : Prop :=
  t = { s with store := t.store, mem := t.mem, bad := t.bad, tiles := t.tiles, gal := t.gal, regs := t.regs } ∧
  ∀ q, q ≠ 0x701006 → q ≠ 0x70100C → t.reg q = s.reg q

theorem GalleryOnly.refl (s : State) : GalleryOnly s s := ⟨rfl, fun _ _ _ => rfl⟩

theorem GalleryOnly.trans {s t u : State} (h : GalleryOnly s t) (g : GalleryOnly t u) : GalleryOnly s u := by
  refine ⟨?_, fun q a b => (g.2 q a b).trans (h.2 q a b)⟩
  have := g.1
  rw [h.1] at this
  exact this

theorem GalleryOnly.bump {s : State} (k n : Nat) (hk : k = 0x701006 ∨ k = 0x70100C) : GalleryOnly s (bumpReg k n s) := by
  refine ⟨rfl, fun q h1 h2 => bumpReg_reg_ne _ _ _ _ ?_⟩
  rintro rfl
  rcases hk with h | h
  · exact h1 h
  · exact h2 h

theorem GalleryOnly.of_rest {s t : State} (h : t = { s with store := t.store, mem := t.mem, bad := t.bad, tiles := t.tiles, gal := t.gal }) : GalleryOnly s t := by
  have hr : t.regs = s.regs := by rw [h]
  refine ⟨?_, fun q _ _ => by unfold State.reg; rw [hr]⟩
  rw [hr]
  exact h

theorem GalleryOnly.allOf {α : Type} (xs : List α) (f : α → State → State) (s : State) (h : ∀ x s, GalleryOnly s (f x s)) : GalleryOnly s (allOf xs f s) := by
  unfold Machine.allOf
  induction xs generalizing s with
  | nil => exact .refl s
  | cons x xs ih => exact (h x s).trans (ih _)

theorem loadTest_gallery (g : GalleryRun) (s : State) : GalleryOnly s (loadTest g s) := by
  unfold loadTest
  split
  · exact .refl s
  · exact .of_rest rfl

theorem addTests_gallery (why k : Nat) (ts : List Nat) (s : State) : GalleryOnly s (addTests why k ts s) := by
  unfold addTests
  split
  · exact .refl s
  · split
    · exact .of_rest rfl
    · exact GalleryOnly.trans (.of_rest rfl) (loadTest_gallery _ _)

theorem galleryWindow_gallery (ds : List Nat) (n : Nat) (s : State) : GalleryOnly s (galleryWindow ds n s) := by
  unfold galleryWindow
  dsimp only
  split
  · exact .refl s
  · split
    · exact (GalleryOnly.bump 0x701006 1 (.inl rfl)).trans (.bump 0x70100C 1 (.inr rfl))
    · exact (GalleryOnly.bump 0x701006 1 (.inl rfl)).trans (.allOf _ _ _ (fun d s => .allOf _ _ _ (fun k s => addTests_gallery _ _ _ s)))

theorem windowsAt_gallery (n : Nat) (ran : List Nat) (s : State) : GalleryOnly s (windowsAt n ran s) := by
  unfold windowsAt
  split
  · exact .allOf _ _ _ (fun d s => GalleryOnly.trans (.of_rest rfl) (galleryWindow_gallery _ _ _))
  · exact galleryWindow_gallery _ _ _

/-- The end of a step (R223, R225, R238). -/
theorem endStep_result (n : Nat) (d : Decision) (ran : List Nat) (s : State) :
    let t := endStep n d ran s
    t.stepNo = n ∧ t.step.phase = .decided ∧ t.step.attempt = 0 ∧ t.step.bits = BitVec.ofNat 8 d.nextmode.toNat ∧ t.step.par = d.nextmode.getLsbD 8 ∧ t.step.wide = false ∧
    t.step.childVotes = [] ∧ t.step.ownVote = none ∧ t.tables.looks = [] ∧ t.reduce = { held := s.reduce.held } ∧ t.reg 0x500408 = s.reg 0x500408 := by
  obtain ⟨b, hb⟩ : ∃ b, b = boundary n (takeMode d s) := ⟨_, rfl⟩
  obtain ⟨w, hw⟩ : ∃ w, w = windowsAt n ran (checkpoint n b) := ⟨_, rfl⟩
  obtain ⟨c1, c2, c3, c4, c5, _⟩ := checkpoint_boundary n b
  obtain ⟨g1, g2⟩ := windowsAt_gallery n ran (checkpoint n b)
  rw [← hw] at g1 g2
  have w1 : w.stepNo = n := by
    show w.reg 0x500001 = n
    rw [g2 _ (by norm_num) (by norm_num), c1, hb]
    exact setReg_reg_self _ _ _
  have w2 : w.reg 0x500408 = s.reg 0x500408 := by
    rw [g2 _ (by norm_num) (by norm_num), c2, hb]
    exact setReg_reg_ne _ _ _ _ (by norm_num)
  have w3 : w.step = b.step := by rw [g1]; exact c3
  have w4 : w.tables = b.tables := by rw [g1]; exact c4
  have w5 : w.reduce = b.reduce := by rw [g1]; exact c5
  have hpar : bitAt d.nextmode.toNat 8 = d.nextmode.getLsbD 8 := by
    unfold bitAt
    rw [BitVec.getLsbD, Nat.testBit_eq_decide_div_mod_eq, Nat.shiftRight_eq_div_pow]
    rfl
  have he : endStep n d ran s = if w.step.holdAsked && w.gal.runs.isEmpty then enterHeld 0xFF04 w else w := by rw [hw, hb]; rfl
  have base : w.stepNo = n ∧ w.step.phase = .decided ∧ w.step.attempt = 0 ∧ w.step.bits = BitVec.ofNat 8 d.nextmode.toNat ∧ w.step.par = d.nextmode.getLsbD 8 ∧ w.step.wide = false ∧
      w.step.childVotes = [] ∧ w.step.ownVote = none ∧ w.tables.looks = [] ∧ w.reduce = { held := s.reduce.held } ∧ w.reg 0x500408 = s.reg 0x500408 := by
    refine ⟨w1, ?_, ?_, ?_, ?_, ?_, ?_, ?_, ?_, ?_, w2⟩
    · rw [w3, hb]; rfl
    · rw [w3, hb]; rfl
    · rw [w3, hb]; rfl
    · rw [w3, hb]; exact hpar
    · rw [w3, hb]; rfl
    · rw [w3, hb]; rfl
    · rw [w3, hb]; rfl
    · rw [w4, hb]; rfl
    · rw [w5, hb]; rfl
  intro t
  have ht : t = if w.step.holdAsked && w.gal.runs.isEmpty then enterHeld 0xFF04 w else w := he
  clear_value t
  rw [ht]
  split
  · obtain ⟨e1, e2, _, _, e5⟩ := enter_result .held 0xFF04 { w with step := { w.step with sinceQuiet := 0 } }
    obtain ⟨x, hx⟩ : ∃ x, x = enterHeld 0xFF04 w := ⟨_, rfl⟩
    have hx2 : enter .held 0xFF04 { w with step := { w.step with sinceQuiet := 0 } } = x := hx.symm
    rw [hx2] at e1 e2 e5
    rw [← hx]
    obtain ⟨b1, b2, b3, b4, b5, b6, b7, b8, b9, b10, b11⟩ := base
    refine ⟨?_, ?_, ?_, ?_, ?_, ?_, ?_, ?_, ?_, ?_, ?_⟩
    · exact (e5 0x500001 (by norm_num) (by norm_num) (by norm_num) (by norm_num) (by norm_num)).trans b1
    · rw [e2]; exact b2
    · rw [e2]; exact b3
    · rw [e2]; exact b4
    · rw [e2]; exact b5
    · rw [e2]; exact b6
    · rw [e2]; exact b7
    · rw [e2]; exact b8
    · rw [e1]; exact b9
    · rw [e1]; exact b10
    · exact (e5 0x500408 (by norm_num) (by norm_num) (by norm_num) (by norm_num) (by norm_num)).trans b11
  · exact base

theorem sendDecision_net (d : Decision) (s : State) : NetOnly s (sendDecision d s) := allOf_net _ _ (fun _ _ => sendMsg_net ..) _

/-- A package that acts on a decision. -/
theorem opDecision_obeys (k : Nat) (d : Decision) (s : State) (h : obeys k d s) :
    ∃ u, NetOnly s u ∧ s.life ≠ .off ∧ opDecision k d s =
      if k = 1 then commitStep d u else if k = 2 then rerunStep d u else if k = 3 then skipStep d u else if k = 4 then holdStep d u else u := by
  obtain ⟨hk, hc⟩ := h
  have hd : ({ d with action := k } : Decision) = d := by rw [← hk]
  have ha : actsOn k d s = some d := by
    unfold actsOn
    dsimp only
    rcases hc with ⟨h1, h2, h3, h4⟩ | ⟨h1, h2, h3, h4, h5⟩ | ⟨h1, h2, h4, h5⟩
    · rw [if_neg (by rw [h1]; decide), if_pos (by rw [h1, h2]; decide), h3, h4]
      simp [Option.filter, hk]
    · rw [if_neg (by rw [h1]; decide), if_pos (by rw [h1, h2]; decide)]
      cases hp : voteParent s with
      | none => exact absurd hp h3
      | some p =>
        dsimp only
        rw [if_pos (by rw [h4, h5, beq_self_eq_true, beq_self_eq_true]; rfl), hd]
    · rw [if_pos h1, if_pos (by rw [h4, h5, beq_self_eq_true, beq_self_eq_true]; rcases h2 with h | h <;> rw [h] <;> decide), hd]
  refine ⟨if s.life = .spare ∨ voteParent s = none then s else sendDecision d s, NetOnly.ite (.refl s) (sendDecision_net d s), ?_, ?_⟩
  · rcases hc with ⟨h1, _⟩ | ⟨h1, _⟩ | ⟨h1, _⟩ <;> rw [h1] <;> decide
  · unfold opDecision
    rw [ha]

theorem NetOnly.tables {s t : State} (h : NetOnly s t) : t.tables = s.tables := by rw [h.rest]
theorem NetOnly.ctxs {s t : State} (h : NetOnly s t) : t.ctxs = s.ctxs := by rw [h.rest]

end Sys2Proof.Machine
end

