-- ==== Sys2Proof/Laws/Edges.lean ====
section
/-!
SUPPORT. Tightrope edges (R278-R288): what link resets, attempts, flits and sending leave of an edge and its two ends.
-/

namespace Sys2Proof.Machine
open Sys2Proof

theorem raised_raiseAt (code d t sub op : Nat) (s : State) : raised code (raiseAt code d t sub op s) := by
  obtain ⟨e, h, h', _⟩ := raiseAt_record code d t sub op s
  exact ⟨e, h, h'⟩

theorem raised_keep {c code d t sub op : Nat} {s : State} (h : raised c s) : raised c (raiseAt code d t sub op s) := by
  obtain ⟨e, he, hc⟩ := h
  unfold raiseAt raiseUnit
  dsimp only
  unfold batchEvent
  obtain ⟨a, b, hp, _⟩ := trunkPost_regs 1 1 (epDie (endpoint s d t)) (eventBits { code := code, subunit := sub % 256, unit := endpoint s d t, operation := op % 2 ^ 32, time := s.now, temp := wrapInt 16 (hottest s (epDie (endpoint s d t))), volt := s.reg (dieKey 0 (0x200405 + epDie (endpoint s d t))) % 65536 }) s
  rw [hp]
  split
  · refine ⟨_, List.mem_map.mpr ⟨e, he, rfl⟩, ?_⟩
    split <;> exact hc
  · exact ⟨e, List.mem_append_left _ he, hc⟩

theorem raised_of_batch {c : Nat} {s t : State} (h : raised c s) (e : t.evBatch = s.evBatch) : raised c t := by
  unfold raised; rw [e]; exact h

theorem edges_length {s : State} (h : Canonical s) : s.edges.length = 4 := by
  have := (parts_of_sizes h.sizes).2.2.2.2.2
  have := congrArg List.length this
  simpa using this

theorem edge_ends {s : State} (h : Canonical s) (e : Nat) (he : e < 4) : (s.edge e).ends.length = 2 := by
  have h4 := edges_length h
  have hm := (parts_of_sizes h.sizes).2.2.2.2.2
  unfold State.edge
  rw [List.getD_eq_getElem?_getD, List.getElem?_eq_getElem (by omega), Option.getD_some]
  have h2 : (s.edges.map (fun x => x.ends.length))[e]'(by rw [List.length_map]; omega) = 2 := by
    simp only [hm]
    interval_cases e <;> rfl
  rw [List.getElem_map] at h2
  exact h2

theorem getD_setAt_self {α : Type} (xs : List α) (i : Nat) (a d : α) (h : i < xs.length) : (setAt xs i a).getD i d = a := by
  unfold setAt
  rw [List.getD_eq_getElem?_getD, List.getElem?_set_self h]
  rfl

theorem getD_setAt_ne {α : Type} (xs : List α) (i j : Nat) (a d : α) (h : i ≠ j) : (setAt xs i a).getD j d = xs.getD j d := by
  unfold setAt
  rw [List.getD_eq_getElem?_getD, List.getElem?_set_ne h, List.getD_eq_getElem?_getD]

/-- Four edges of two ends each (R17). -/
def EdgeShape (s : State) : Prop := s.edges.map (fun x => x.ends.length) = [2, 2, 2, 2]

theorem EdgeShape.of_canonical {s : State} (h : Canonical s) : EdgeShape s := (parts_of_sizes h.sizes).2.2.2.2.2

theorem EdgeShape.length {s : State} (h : EdgeShape s) : s.edges.length = 4 := by
  have := congrArg List.length h
  simpa using this

theorem EdgeShape.modEdge {s : State} (h : EdgeShape s) (e : Nat) (f : Edge → Edge) (hf : ∀ x, (f x).ends.length = x.ends.length) : EdgeShape (modEdge e f s) :=
  (map_setAt_same (fun x : Edge => x.ends.length) s.edges e _ {} (hf _)).trans h

theorem EdgeShape.modEnd {s : State} (h : EdgeShape s) (e : Nat) (b : Bool) (f : LinkEnd → LinkEnd) : EdgeShape (modEnd e b f s) :=
  h.modEdge _ _ (fun _ => List.length_set ..)

theorem EdgeShape.countEnd {s : State} (h : EdgeShape s) (e : Nat) (b : Bool) (i n : Nat) : EdgeShape (countEnd e b i n s) := h.modEdge _ _ (fun _ => rfl)

theorem EdgeShape.ends {s : State} (h : EdgeShape s) (e : Nat) (he : e < 4) : (s.edge e).ends.length = 2 := by
  have h4 := h.length
  unfold State.edge
  rw [List.getD_eq_getElem?_getD, List.getElem?_eq_getElem (by omega), Option.getD_some]
  have h2 : (s.edges.map (fun x => x.ends.length))[e]'(by rw [List.length_map]; omega) = 2 := by
    simp only [show s.edges.map (fun x => x.ends.length) = [2, 2, 2, 2] from h]
    interval_cases e <;> rfl
  rw [List.getElem_map] at h2
  exact h2

theorem modEdge_edge {s : State} (h : EdgeShape s) (e : Nat) (he : e < 4) (f : Edge → Edge) : (modEdge e f s).edge e = f (s.edge e) :=
  getD_setAt_self _ _ _ _ (by rw [h.length]; exact he)

theorem modEdge_edge_ne (s : State) (e j : Nat) (h : e ≠ j) (f : Edge → Edge) : (modEdge e f s).edge j = s.edge j := getD_setAt_ne _ _ _ _ _ h

theorem modEnd_edge {s : State} (h : EdgeShape s) (e : Nat) (he : e < 4) (b : Bool) (f : LinkEnd → LinkEnd) :
    (modEnd e b f s).edge e = { s.edge e with ends := setAt (s.edge e).ends (boolNat b) (f (edgeEnd (s.edge e) b)) } := modEdge_edge h e he _

theorem modEnd_end {s : State} (h : EdgeShape s) (e : Nat) (he : e < 4) (b : Bool) (f : LinkEnd → LinkEnd) :
    edgeEnd ((modEnd e b f s).edge e) b = f (edgeEnd (s.edge e) b) ∧ edgeEnd ((modEnd e b f s).edge e) (!b) = edgeEnd (s.edge e) (!b) := by
  rw [modEnd_edge h e he]
  have h2 := h.ends e he
  constructor
  · exact getD_setAt_self _ _ _ _ (by rw [h2]; cases b <;> decide)
  · exact getD_setAt_ne _ _ _ _ _ (by cases b <;> decide)

theorem countEnd_edge {s : State} (h : EdgeShape s) (e : Nat) (he : e < 4) (b : Bool) (i n : Nat) :
    ∃ c, (countEnd e b i n s).edge e = { s.edge e with counters := c } := ⟨_, modEdge_edge h e he _⟩

theorem allOf_emit {α : Type} (xs : List α) (g : α → Out) (s : State) : allOf xs (fun x => emit (g x)) s = { s with out := s.out ++ xs.map g } := by
  unfold allOf
  induction xs generalizing s with
  | nil => simp
  | cons x xs ih => rw [List.foldl_cons, ih]; simp [emit, List.append_assoc]

theorem sendFlit_keeps (k : LinkKind) (p : List Slot) (l : LinkEnd) :
    (sendFlit k p l).2.accepted = l.accepted ∧ (sendFlit k p l).2.accV = l.accV ∧ (sendFlit k p l).2.refusing = l.refusing ∧ (sendFlit k p l).2.refusals = l.refusals ∧
    (sendFlit k p l).2.rx = l.rx ∧ (sendFlit k p l).1.nak = l.refusing ∧ (sendFlit k p l).1.ack = l.accepted := ⟨rfl, rfl, rfl, rfl, rfl, rfl, rfl⟩

theorem pumpFuel_keeps (k : LinkKind) (n : Nat) (r : Bool) (l : LinkEnd) :
    let m := (pumpFuel k n r l).2
    m.accepted = l.accepted ∧ m.accV = l.accV ∧ m.refusing = l.refusing ∧ m.refusals = l.refusals ∧ m.rx = l.rx := by
  induction n generalizing r l with
  | zero => exact ⟨rfl, rfl, rfl, rfl, rfl⟩
  | succ n ih =>
    unfold pumpFuel
    dsimp only
    split
    · exact ⟨rfl, rfl, rfl, rfl, rfl⟩
    · split
      · split
        · exact ⟨rfl, rfl, rfl, rfl, rfl⟩
        · exact ⟨rfl, rfl, rfl, rfl, rfl⟩
      · exact ih _ _

theorem pump_reply (k : LinkKind) (l : LinkEnd) (h : l.replay.length < k.replay) : ∃ g ∈ (pump k true l).1, g.nak = l.refusing ∧ g.ack = l.accepted := by
  unfold pump pumpFuel
  rw [if_neg (by omega)]
  dsimp only
  split
  · exact ⟨_, List.mem_singleton.mpr rfl, rfl, rfl⟩
  · exact ⟨_, List.mem_cons_self .., rfl, rfl⟩

/-- What sending on an end leaves. -/
theorem pumpEnd_result {s : State} (h : EdgeShape s) (e : Nat) (he : e < 4) (b r : Bool) :
    let t := pumpEnd e b r s
    let l := edgeEnd (s.edge e) b
    let m := edgeEnd (t.edge e) b
    t = { s with edges := t.edges, out := t.out } ∧ (t.edge e).st = (s.edge e).st ∧ (t.edge e).attempt = (s.edge e).attempt ∧
      m.accepted = l.accepted ∧ m.accV = l.accV ∧ m.refusing = l.refusing ∧ m.refusals = l.refusals ∧ m.rx = l.rx ∧
      (edgeTrained (s.edge e) = true → r = true → l.replay.length < 64 → ∃ g, .trope (Fin.ofNat 4 e) b g ∈ t.out ∧ g.nak = l.refusing ∧ g.ack = l.accepted) := by
  intro t l m
  unfold m t pumpEnd
  dsimp only
  by_cases ht : edgeTrained (s.edge e) = true
  · rw [if_pos ht, allOf_emit]
    obtain ⟨c, hc⟩ := countEnd_edge (h.modEnd e b (fun _ => (pump tropeLink r (edgeEnd (s.edge e) b)).2)) e he b 0 (pump tropeLink r (edgeEnd (s.edge e) b)).1.length
    have hx : State.edge { countEnd e b 0 (pump tropeLink r (edgeEnd (s.edge e) b)).1.length (modEnd e b (fun _ => (pump tropeLink r (edgeEnd (s.edge e) b)).2) s) with out := (countEnd e b 0 (pump tropeLink r (edgeEnd (s.edge e) b)).1.length (modEnd e b (fun _ => (pump tropeLink r (edgeEnd (s.edge e) b)).2) s)).out ++ (pump tropeLink r (edgeEnd (s.edge e) b)).1.map (fun f => Out.trope (Fin.ofNat 4 e) b f) } e =
        { (modEnd e b (fun _ => (pump tropeLink r (edgeEnd (s.edge e) b)).2) s).edge e with counters := c } := hc
    obtain ⟨k1, k2, k3, k4, k5⟩ := pumpFuel_keeps tropeLink ((edgeEnd (s.edge e) b).txq.length + 1) r (edgeEnd (s.edge e) b)
    have hend : edgeEnd ({ (modEnd e b (fun _ => (pump tropeLink r (edgeEnd (s.edge e) b)).2) s).edge e with counters := c }) b = (pump tropeLink r (edgeEnd (s.edge e) b)).2 :=
      (modEnd_end h e he b _).1
    refine ⟨rfl, ?_, ?_, ?_, ?_, ?_, ?_, ?_, ?_⟩
    · rw [hx, modEnd_edge h e he]
    · rw [hx, modEnd_edge h e he]
    · rw [hx, hend]; exact k1
    · rw [hx, hend]; exact k2
    · rw [hx, hend]; exact k3
    · rw [hx, hend]; exact k4
    · rw [hx, hend]; exact k5
    · intro _ hr hl
      subst hr
      obtain ⟨g, hg, g1, g2⟩ := pump_reply tropeLink l hl
      exact ⟨g, List.mem_append_right _ (List.mem_map.mpr ⟨g, hg, rfl⟩), g1, g2⟩
  · rw [if_neg ht]
    exact ⟨rfl, rfl, rfl, rfl, rfl, rfl, rfl, rfl, fun h => absurd h ht⟩
theorem takeReturns_keeps (f : Flit) (l : LinkEnd) :
    (takeReturns f l).accepted = l.accepted ∧ (takeReturns f l).refusing = l.refusing ∧ (takeReturns f l).refusals = l.refusals ∧ (takeReturns f l).rx = l.rx := by
  unfold takeReturns
  dsimp only
  split <;> exact ⟨rfl, rfl, rfl, rfl⟩

theorem freeFifo_end {s : State} (h : EdgeShape s) (e : Nat) (he : e < 4) (b : Bool) :
    let l := edgeEnd (s.edge e) b
    let m := edgeEnd ((freeFifo e b s).edge e) b
    m.accepted = l.accepted ∧ m.accV = l.accV ∧ m.refusing = l.refusing ∧ m.refusals = l.refusals ∧ m.rx = [] ∧ ((freeFifo e b s).edge e).st = (s.edge e).st ∧
      ((freeFifo e b s).edge e).attempt = (s.edge e).attempt := by
  intro l m
  unfold m freeFifo
  rw [(modEnd_end h e he b _).1, modEnd_edge h e he]
  exact ⟨rfl, rfl, rfl, rfl, rfl, rfl, rfl⟩

theorem raiseAt_frame (c d t sub op : Nat) (s : State) : (raiseAt c d t sub op s).edges = s.edges ∧ (raiseAt c d t sub op s).out = s.out := by
  obtain ⟨a, b, c2, h, _⟩ := raiseAt_parts c d t sub op s
  rw [h]
  exact ⟨rfl, rfl⟩

theorem EdgeShape.of_edges {s t : State} (h : EdgeShape s) (e : t.edges = s.edges) : EdgeShape t := by unfold EdgeShape; rw [e]; exact h

theorem edge_of_edges {s t : State} (e : t.edges = s.edges) (j : Nat) : t.edge j = s.edge j := by unfold State.edge; rw [e]

/-- A link reset of an end outside an attempt (R278, R286). -/
theorem edgeReset_result {s : State} (h : EdgeShape s) (e : Nat) (he : e < 4) (b : Bool) (h1 : (s.edge e).st ≠ .down) (h2 : (s.edge e).attempt = false) :
    let t := edgeReset e b s
    (t.edge e).st = .training ∧ (t.edge e).attempt = false ∧ raised 0x3007 t ∧ (∀ c, raised c s → raised c t) ∧ (t.edge e).byCommand = (s.edge e).byCommand ∧
      (t.edge e).fails = (s.edge e).fails ∧
      edgeEnd (t.edge e) b = { edgeEnd (s.edge e) b with refusing := false, refusals := 0 } ∧ edgeEnd (t.edge e) (!b) = edgeEnd (s.edge e) (!b) := by
  obtain ⟨v, hv⟩ : ∃ v, v = raiseEdge 0x3007 e b (countEnd e b 5 1 s) := ⟨_, rfl⟩
  have hve : v.edges = (countEnd e b 5 1 s).edges := by rw [hv]; exact (raiseAt_frame ..).1
  have hv1 : EdgeShape v := (h.countEnd e b 5 1).of_edges hve
  obtain ⟨c, hc⟩ := countEnd_edge h e he b 5 1
  have hv2 : v.edge e = { s.edge e with counters := c } := (edge_of_edges hve e).trans hc
  have hr : raised 0x3007 v := by rw [hv]; exact raised_raiseAt ..
  have hk : ∀ c, raised c s → raised c v := by intro c hc; rw [hv]; exact raised_keep (raised_of_batch hc rfl)
  obtain ⟨w, hw⟩ : ∃ w, w = modEnd e b (fun l => { l with refusing := false, refusals := 0 }) v := ⟨_, rfl⟩
  have hw1 : EdgeShape w := by rw [hw]; exact hv1.modEnd ..
  have hw2 := modEnd_edge hv1 e he b (fun l => { l with refusing := false, refusals := 0 })
  obtain ⟨hw3, hw4⟩ := modEnd_end hv1 e he b (fun l => { l with refusing := false, refusals := 0 })
  rw [← hw] at hw2 hw3 hw4
  rw [hv2] at hw2 hw3 hw4
  have ha : (w.edge e).attempt = false := by rw [hw2]; exact h2
  have hs : (w.edge e).st ≠ .down := by rw [hw2]; exact h1
  have ht : edgeReset e b s = modEdge e (fun x => { x with st := .training, attempt := false }) w := by
    unfold edgeReset
    dsimp only
    rw [← hv, ← hw, show (if (w.edge e).attempt = true then attemptFails e w else w) = w from if_neg (by rw [ha]; exact Bool.false_ne_true), if_neg hs]
  intro t
  have ht : t = modEdge e (fun x => { x with st := .training, attempt := false }) w := ht
  clear_value t
  have hte : t.edge e = { w.edge e with st := .training, attempt := false } := by rw [ht]; exact modEdge_edge hw1 e he _
  have hb : t.evBatch = v.evBatch := by rw [ht, hw]; rfl
  refine ⟨by rw [hte], by rw [hte], raised_of_batch hr hb, fun c hc => raised_of_batch (hk c hc) hb, ?_, ?_, ?_, ?_⟩
  · rw [hte, hw2]
  · rw [hte, hw2]
  · rw [hte]; exact hw3
  · rw [hte]; exact hw4

/-- What a flit does before the receiving end answers it. -/
theorem takeFlit_state {s : State} (h : EdgeShape s) (e : Nat) (he : e < 4) (b : Bool) (l : LinkEnd) (again : List Flit) :
    let v := countEnd e b 2 again.length (allOf again (fun g => emit (.trope (Fin.ofNat 4 e) b g)) (modEnd e b (fun _ => l) s))
    EdgeShape v ∧ edgeEnd (v.edge e) b = l ∧ (v.edge e).st = (s.edge e).st ∧ (v.edge e).attempt = (s.edge e).attempt ∧ v = { s with edges := v.edges, out := v.out } := by
  intro v
  obtain ⟨u, hu⟩ : ∃ u, u = allOf again (fun g => emit (.trope (Fin.ofNat 4 e) b g)) (modEnd e b (fun _ => l) s) := ⟨_, rfl⟩
  have hu2 := hu
  rw [allOf_emit] at hu2
  have hue : u.edges = (modEnd e b (fun _ => l) s).edges := by rw [hu2]
  have hus : EdgeShape u := (h.modEnd e b _).of_edges hue
  have hv : v = countEnd e b 2 again.length u := by rw [hu]
  clear_value v
  obtain ⟨c, hc⟩ := countEnd_edge hus e he b 2 again.length
  rw [← hv] at hc
  have hx : u.edge e = _ := (edge_of_edges hue e).trans (modEnd_edge h e he b (fun _ => l))
  have hl : edgeEnd (u.edge e) b = l := by rw [edge_of_edges hue e]; exact (modEnd_end h e he b (fun _ => l)).1
  refine ⟨by rw [hv]; exact hus.countEnd .., ?_, ?_, ?_, ?_⟩
  · rw [hc]; exact hl
  · rw [hc, hx]
  · rw [hc, hx]
  · have : u = { s with edges := u.edges, out := u.out } := by rw [hu2]; rfl
    rw [hv, this]; rfl
theorem enter_keeps (p : PkgState) (c : Nat) (s : State) : (enter p c s).edges = s.edges ∧ (enter p c s).evBatch = s.evBatch := by
  obtain ⟨h, _⟩ := enter_result p c s
  obtain ⟨v, hv⟩ : ∃ v, v = enter p c s := ⟨_, rfl⟩
  rw [← hv] at h ⊢
  rw [h]
  exact ⟨rfl, rfl⟩

theorem setRegs_edges (xs : List Nat) (v : Nat) (s : State) : (allOf xs (fun k => setReg k v) s).edges = s.edges ∧ (allOf xs (fun k => setReg k v) s).evBatch = s.evBatch := by
  unfold allOf
  induction xs generalizing s with
  | nil => exact ⟨rfl, rfl⟩
  | cons x xs ih => exact ih _

theorem enterFault_keeps (c : Nat) (s : State) : (enterFault c s).edges = s.edges ∧ (enterFault c s).evBatch = s.evBatch := by
  unfold enterFault
  dsimp only
  obtain ⟨h1, h2⟩ := setRegs_edges [0x200405, 0x200406, 0x200407, 0x200408] 620 (setReg 0x200801 1000 (setReg 0x400007 0 (enter .fault c s)))
  obtain ⟨g1, g2⟩ := enter_keeps .fault c s
  exact ⟨h1.trans g1, h2.trans g2⟩

/-- An edge that goes down (R287). -/
theorem edgeDown_result {s : State} (h : EdgeShape s) (e : Nat) (he : e < 4) :
    let t := edgeDown e s
    (t.edge e).st = .down ∧ (t.edge e).attempt = false ∧ (t.edge e).fails = 0 ∧ raised 0x3003 t ∧ ∀ c, raised c s → raised c t := by
  obtain ⟨v, hv⟩ : ∃ v, v = showEdges (raiseAt 0x3003 0 768 e 0 (modEdge e (fun x => { x with st := .down, attempt := false, fails := 0, handed := [false, false] }) s)) := ⟨_, rfl⟩
  have hve : v.edges = (modEdge e (fun x => { x with st := .down, attempt := false, fails := 0, handed := [false, false] }) s).edges := by rw [hv]; exact (raiseAt_frame ..).1
  have hv1 : v.edge e = { s.edge e with st := .down, attempt := false, fails := 0, handed := [false, false] } := (edge_of_edges hve e).trans (modEdge_edge h e he _)
  have hr : raised 0x3003 v := by rw [hv]; exact raised_of_batch (raised_raiseAt ..) rfl
  have hk : ∀ c, raised c s → raised c v := by intro c hc; rw [hv]; exact raised_of_batch (raised_keep (raised_of_batch (t := modEdge e _ s) hc rfl)) rfl
  have key : ∀ t : State, t.edges = v.edges → (∀ c, raised c v → raised c t) →
      (t.edge e).st = .down ∧ (t.edge e).attempt = false ∧ (t.edge e).fails = 0 ∧ raised 0x3003 t ∧ ∀ c, raised c s → raised c t := by
    intro t h1 h2
    rw [edge_of_edges h1, hv1]
    exact ⟨rfl, rfl, rfl, h2 _ hr, fun c hc => h2 c (hk c hc)⟩
  unfold edgeDown
  dsimp only
  rw [← hv]
  split
  · obtain ⟨w, hw⟩ : ∃ w, w = raiseAt 0x3004 0 768 e 0 v := ⟨_, rfl⟩
    have hwe : w.edges = v.edges := by rw [hw]; exact (raiseAt_frame ..).1
    have hwk : ∀ c, raised c v → raised c w := by intro c hc; rw [hw]; exact raised_keep hc
    rw [← hw]
    split
    · exact key _ ((enterFault_keeps _ w).1.trans hwe) (fun c hc => raised_of_batch (hwk c hc) (enterFault_keeps _ w).2)
    · split
      · exact key _ ((enter_keeps ..).1.trans hwe) (fun c hc => raised_of_batch (hwk c hc) (enter_keeps ..).2)
      · exact key _ hwe (fun c hc => raised_of_batch (hwk c hc) rfl)
  · exact key _ rfl (fun _ h => h)

/-- A training attempt that fails (R285, R287, R294). -/
theorem attemptFails_result {s : State} (h : EdgeShape s) (e : Nat) (he : e < 4) :
    let t := attemptFails e s
    raised 0x3002 t ∧
      ((s.edge e).fails < 2 → (t.edge e).st = (s.edge e).st ∧ (t.edge e).fails = (s.edge e).fails + 1 ∧ (t.edge e).attempt = false) ∧
      (2 ≤ (s.edge e).fails → (t.edge e).st = .down ∧ (t.edge e).attempt = false ∧ (t.edge e).fails = 0 ∧ raised (if (s.edge e).byCommand then 0x3008 else 0x3003) t) := by
  obtain ⟨u, hu⟩ : ∃ u, u = bothEnds (fun h => countEnd e h 4 1) s := ⟨_, rfl⟩
  have hu1 : EdgeShape u := by rw [hu]; exact (h.countEnd ..).countEnd ..
  have hu2 : ∃ c, u.edge e = { s.edge e with counters := c } := by
    obtain ⟨c, hc⟩ := countEnd_edge h e he false 4 1
    obtain ⟨c', hc'⟩ := countEnd_edge (h.countEnd e false 4 1) e he true 4 1
    refine ⟨c', ?_⟩
    rw [hu]
    exact hc'.trans (by rw [hc])
  obtain ⟨c, hc⟩ := hu2
  obtain ⟨v, hv⟩ : ∃ v, v = raiseAt 0x3002 0 768 e 0 u := ⟨_, rfl⟩
  have hve : v.edges = u.edges := by rw [hv]; exact (raiseAt_frame ..).1
  have hv1 : EdgeShape v := hu1.of_edges hve
  have hv2 : v.edge e = { s.edge e with counters := c } := (edge_of_edges hve e).trans hc
  have hr : raised 0x3002 v := by rw [hv]; exact raised_raiseAt ..
  have ht : attemptFails e s = (if 3 ≤ (v.edge e).fails + 1 then
      if (v.edge e).byCommand then showEdges (raiseAt 0x3008 0 768 e 0 (modEdge e (fun x => { x with st := .down, attempt := false, fails := 0, byCommand := false }) v))
      else edgeDown e v
    else modEdge e (fun x => { x with attempt := false, fails := (v.edge e).fails + 1, adverts := [none, none], agreed := 0 }) v) := by
    unfold attemptFails
    dsimp only
    rw [← hu, ← hv]
  intro t
  have ht : t = _ := ht
  clear_value t
  have hf : (v.edge e).fails = (s.edge e).fails := by rw [hv2]
  have hb : (v.edge e).byCommand = (s.edge e).byCommand := by rw [hv2]
  rw [hf, hb] at ht
  by_cases h3 : 3 ≤ (s.edge e).fails + 1
  · rw [if_pos h3] at ht
    by_cases hby : (s.edge e).byCommand = true
    · rw [if_pos hby] at ht
      rw [if_pos hby]
      have hte : t.edges = (modEdge e (fun x => { x with st := .down, attempt := false, fails := 0, byCommand := false }) v).edges := by rw [ht]; exact (raiseAt_frame ..).1
      have hx : t.edge e = { v.edge e with st := .down, attempt := false, fails := 0, byCommand := false } := (edge_of_edges hte e).trans (modEdge_edge hv1 e he _)
      refine ⟨?_, fun hh => by omega, fun _ => ⟨by rw [hx], by rw [hx], by rw [hx], ?_⟩⟩
      · rw [ht]; exact raised_of_batch (raised_keep (raised_of_batch (t := modEdge e _ v) hr rfl)) rfl
      · rw [ht]; exact raised_of_batch (raised_raiseAt ..) rfl
    · rw [if_neg hby] at ht
      rw [if_neg hby]
      obtain ⟨d1, d2, d3, d4, d5⟩ := edgeDown_result hv1 e he
      rw [← ht] at d1 d2 d3 d4 d5
      exact ⟨d5 _ hr, fun hh => by omega, fun _ => ⟨d1, d2, d3, d4⟩⟩
  · rw [if_neg h3] at ht
    have hx : t.edge e = { v.edge e with attempt := false, fails := (s.edge e).fails + 1, adverts := [none, none], agreed := 0 } := by rw [ht]; exact modEdge_edge hv1 e he _
    refine ⟨by rw [ht]; exact raised_of_batch hr rfl, fun _ => ⟨by rw [hx, hv2], by rw [hx], by rw [hx]⟩, fun hh => by omega⟩

end Sys2Proof.Machine
end

