-- ==== Sys2Proof/Laws/Gallery.lean ====
section
/-!
SUPPORT. What finished tests, judgements and full runs do (R438-R446).
-/

namespace Sys2Proof.Machine
open Sys2Proof

/-- An operation keeps the gallery, the tiles to retire and the events already raised. -/
structure KeepsGallery (s t : State) : Prop where
  gal : t.gal = s.gal
  retire : t.retireQ = s.retireQ
  events : ∀ c, raised c s → raised c t

theorem KeepsGallery.refl (s : State) : KeepsGallery s s := ⟨rfl, rfl, fun _ h => h⟩

theorem KeepsGallery.trans {s t u : State} (h : KeepsGallery s t) (g : KeepsGallery t u) : KeepsGallery s u :=
  ⟨g.gal.trans h.gal, g.retire.trans h.retire, fun c x => g.events c (h.events c x)⟩

theorem raiseAt_keepsGallery (e d t sub op : Nat) (s : State) : KeepsGallery s (raiseAt e d t sub op s) := by
  obtain ⟨a, b, c, h, _⟩ := raiseAt_parts e d t sub op s
  exact ⟨by rw [h], by rw [h], fun _ x => raised_keep x⟩

theorem judgeEntry_keepsGallery (unit source outcome : Nat) (s : State) : KeepsGallery s (judgeEntry unit source outcome s) := by
  unfold judgeEntry
  dsimp only
  obtain ⟨a, b, h, _⟩ := trunkPost_regs 0 5 (epDie unit) (atBit 232 unit + atBit 216 source + atBit 208 outcome + atBit 200 (transientCount s unit % 256)) s
  rw [h]
  exact ⟨rfl, rfl, fun _ x => x⟩

theorem abortAttempt_keepsGallery (c : Nat) (s : State) : KeepsGallery s (abortAttempt c s) := by
  unfold abortAttempt
  dsimp only
  split
  · split
    · exact ⟨rfl, rfl, fun _ x => x⟩
    · exact ⟨rfl, rfl, fun _ x => x⟩
  · exact .refl s

theorem bump_keepsGallery (k n : Nat) (s : State) : KeepsGallery s (bumpReg k n s) := ⟨rfl, rfl, fun _ x => x⟩

/-- A permanent judgement of a tile (R438, R439): 0x7009, and the tile waits for retirement. -/
theorem judgePermanent_tile (unit source : Nat) (s : State) (hs : source ≠ 0x7004) (ht : epTile unit < 768) :
    let t := judgePermanent unit source s
    t.gal = s.gal ∧ raised 0x7009 t ∧ (∀ c, raised c s → raised c t) ∧ ∃ q ∈ t.retireQ, q.1 = unitKey unit := by
  obtain ⟨u, hu⟩ : ∃ u, u = raiseAt 0x7009 (epDie unit) (epTile unit) source source (bumpReg 0x701405 1 (judgeEntry unit source 2 s)) := ⟨_, rfl⟩
  have hk : KeepsGallery s u := by
    rw [hu]
    exact (judgeEntry_keepsGallery unit source 2 s).trans (KeepsGallery.trans (bump_keepsGallery 0x701405 1 _) (raiseAt_keepsGallery _ _ _ _ _ _))
  have hr : raised 0x7009 u := by rw [hu]; exact raised_raiseAt ..
  obtain ⟨v, hv⟩ : ∃ v, v = { u with retireQ := if u.retireQ.any (fun q => q.1 == unitKey unit) then u.retireQ else u.retireQ ++ [(unitKey unit, source)] } := ⟨_, rfl⟩
  have he : judgePermanent unit source s = abortAttempt 5 v := by
    unfold judgePermanent
    dsimp only
    rw [← hu, if_neg hs, if_pos ht, ← hv]
  obtain ⟨h1, h2, h3⟩ := abortAttempt_keepsGallery 5 v
  intro t
  have hte : t = abortAttempt 5 v := he
  clear_value t
  rw [hte]
  refine ⟨?_, ?_, ?_, ?_⟩
  · rw [h1, hv]; exact hk.gal
  · exact h3 _ (by rw [hv]; exact hr)
  · exact fun c x => h3 _ (by rw [hv]; exact hk.events c x)
  · rw [h2, hv]
    dsimp only
    split
    · rename_i ha
      obtain ⟨q, hq, e⟩ := List.any_eq_true.mp ha
      exact ⟨q, hq, by simpa using e⟩
    · exact ⟨_, List.mem_append_right _ (List.mem_singleton_self _), rfl⟩

/-- A transient judgement below the history limit (R439): 0x7008. -/
theorem judgePassed_transient (unit source : Nat) (s : State) (h : transientCount s unit < s.reg 0x701402) :
    KeepsGallery s (judgePassed unit source s) ∧ raised 0x7008 (judgePassed unit source s) := by
  obtain ⟨w, hw⟩ : ∃ w, w = bumpReg 0x701404 1 (judgeEntry unit source 1 { s with history := s.history ++ [(unit, source, s.now)] }) := ⟨_, rfl⟩
  have he : judgePassed unit source s = raiseAt 0x7008 (epDie unit) (epTile unit) source source w := by
    unfold judgePassed
    dsimp only
    rw [if_neg (by omega), ← hw]
  rw [he]
  refine ⟨KeepsGallery.trans ?_ (raiseAt_keepsGallery _ _ _ _ _ w), raised_raiseAt ..⟩
  rw [hw]
  have h1 : KeepsGallery s { s with history := s.history ++ [(unit, source, s.now)] } := ⟨rfl, rfl, fun _ x => x⟩
  have h2 := h1.trans (judgeEntry_keepsGallery unit source 1 _)
  exact h2.trans ⟨rfl, rfl, fun _ x => x⟩

/-- The end of the last test keeps the runs and the tiles to retire. -/
theorem galleryIdle_keeps (s : State) : (galleryIdle s).gal.runs = s.gal.runs ∧ (galleryIdle s).retireQ = s.retireQ ∧ (∀ c, raised c s → raised c (galleryIdle s)) := by
  have hh : ∀ (c : Nat) (u : State), (enterHeld c u).gal.runs = u.gal.runs ∧ (enterHeld c u).retireQ = u.retireQ ∧ (∀ x, raised x u → raised x (enterHeld c u)) := by
    intro c u
    obtain ⟨h1, _⟩ := enter_result .held c { u with step := { u.step with sinceQuiet := 0 } }
    obtain ⟨x, hx⟩ : ∃ x, x = enterHeld c u := ⟨_, rfl⟩
    have hx2 : enter .held c { u with step := { u.step with sinceQuiet := 0 } } = x := hx.symm
    have hk := (enter_keeps .held c { u with step := { u.step with sinceQuiet := 0 } }).2
    rw [hx2] at h1 hk
    rw [← hx]
    exact ⟨by rw [h1], by rw [h1], fun q hq => raised_of_batch hq hk⟩
  have hu : ∀ (a b op : Nat) (u : State), (unresolved a b op u).gal.runs = u.gal.runs ∧ (unresolved a b op u).retireQ = u.retireQ ∧ (∀ x, raised x u → raised x (unresolved a b op u)) := by
    intro a b op u
    have hr : ∀ unit (w : State), (raiseUnit 0x7006 unit 0 op w).gal = w.gal ∧ (raiseUnit 0x7006 unit 0 op w).retireQ = w.retireQ ∧ (∀ x, raised x w → raised x (raiseUnit 0x7006 unit 0 op w)) := by
      intro unit w
      unfold raiseUnit
      dsimp only
      obtain ⟨a2, b2, h2, _⟩ := trunkPost_regs 1 1 (epDie unit) (eventBits { code := 0x7006, subunit := 0 % 256, unit := unit, operation := op % 2 ^ 32, time := w.now, temp := wrapInt 16 (hottest w (epDie unit)), volt := w.reg (dieKey 0 (0x200405 + epDie unit)) % 65536 }) w
      rw [h2]
      unfold batchEvent
      split
      · refine ⟨rfl, rfl, fun x hx => ?_⟩
        obtain ⟨y, hy, hc⟩ := hx
        refine ⟨_, List.mem_map.mpr ⟨y, hy, rfl⟩, ?_⟩
        split
        · exact hc
        · exact hc
      · refine ⟨rfl, rfl, fun x hx => ?_⟩
        obtain ⟨y, hy, hc⟩ := hx
        exact ⟨y, List.mem_append_left _ hy, hc⟩
    obtain ⟨a1, a2, a3⟩ := hr a { u with gal := { u.gal with named := none, unresolved := true } }
    obtain ⟨b1, b2, b3⟩ := hr b (raiseUnit 0x7006 a 0 op { u with gal := { u.gal with named := none, unresolved := true } })
    unfold unresolved
    exact ⟨by rw [b1, a1], by rw [b2, a2], fun x hx => b3 x (a3 x hx)⟩
  have hm : (match s.gal.named with
      | some (a, b, op) => if s.gal.failed then { s with gal := { s.gal with named := none } } else unresolved a b op s
      | none => s).gal.runs = s.gal.runs ∧ (match s.gal.named with
      | some (a, b, op) => if s.gal.failed then { s with gal := { s.gal with named := none } } else unresolved a b op s
      | none => s).retireQ = s.retireQ ∧ (∀ c, raised c s → raised c (match s.gal.named with
      | some (a, b, op) => if s.gal.failed then { s with gal := { s.gal with named := none } } else unresolved a b op s
      | none => s)) := by
    split
    · split
      · exact ⟨rfl, rfl, fun _ x => x⟩
      · exact hu ..
    · exact ⟨rfl, rfl, fun _ x => x⟩
  have hi : ∀ w : State, w.gal.runs = s.gal.runs ∧ w.retireQ = s.retireQ ∧ (∀ c, raised c s → raised c w) →
      (if w.step.holdAsked ∧ w.life = .running ∧ w.step.attempt = 0 ∧ (w.step.phase = .idle ∨ w.step.phase = .decided) then enterHeld 0xFF04 w else w).gal.runs = s.gal.runs ∧
      (if w.step.holdAsked ∧ w.life = .running ∧ w.step.attempt = 0 ∧ (w.step.phase = .idle ∨ w.step.phase = .decided) then enterHeld 0xFF04 w else w).retireQ = s.retireQ ∧
      (∀ c, raised c s → raised c (if w.step.holdAsked ∧ w.life = .running ∧ w.step.attempt = 0 ∧ (w.step.phase = .idle ∨ w.step.phase = .decided) then enterHeld 0xFF04 w else w)) := by
    intro w h
    split
    · obtain ⟨a, b, c⟩ := hh 0xFF04 w
      exact ⟨a.trans h.1, b.trans h.2.1, fun x hx => c x (h.2.2 x hx)⟩
    · exact h
  unfold galleryIdle
  by_cases hr : s.gal.runs = []
  · rw [if_pos hr]
    exact hi _ hm
  · rw [if_neg hr]
    exact ⟨rfl, rfl, fun _ x => x⟩

theorem loadTest_keeps (g : GalleryRun) (s : State) : (loadTest g s).gal = s.gal ∧ (loadTest g s).retireQ = s.retireQ ∧ (loadTest g s).evBatch = s.evBatch := by
  unfold loadTest
  split
  · exact ⟨rfl, rfl, rfl⟩
  · exact ⟨rfl, rfl, rfl⟩

/-- What tests a tile has left once one is done. -/
def testsLeft (g : GalleryRun) : Option GalleryRun := match g.todo with
  | [] => none
  | n :: rest => some { g with test := n, rep := 0, todo := rest }

theorem nextTest_keeps (g : GalleryRun) (s : State) :
    (nextTest g s).gal.runs.find? (fun x => x.key == g.key) = testsLeft g ∧ (nextTest g s).retireQ = s.retireQ ∧ (nextTest g s).evBatch = s.evBatch := by
  have hnone : (s.gal.runs.filter (fun x => decide (x.key ≠ g.key))).find? (fun x => x.key == g.key) = none := by
    rw [List.find?_eq_none]
    intro x hx
    have := (List.mem_filter.mp hx).2
    simpa using this
  unfold nextTest testsLeft
  dsimp only
  rcases he : g.todo with _ | ⟨n, rest⟩
  · exact ⟨hnone, rfl, rfl⟩
  · dsimp only
    obtain ⟨a, b, c⟩ := loadTest_keeps { g with test := n, rep := 0, todo := rest } { s with gal := { s.gal with runs := s.gal.runs.filter (fun x => decide (x.key ≠ g.key)) ++ [{ g with test := n, rep := 0, todo := rest }] } }
    refine ⟨?_, by rw [b], by rw [c]⟩
    rw [a]
    show List.find? _ (_ ++ _) = _
    rw [List.find?_append, hnone]
    simp

theorem repeatTest_keeps (g : GalleryRun) (s : State) (h : (s.gal.runs.find? (fun x => x.key == g.key)).isSome) :
    (repeatTest g s).gal.runs.find? (fun x => x.key == g.key) = some { g with rep := g.rep + 1 } ∧ (repeatTest g s).retireQ = s.retireQ ∧ (repeatTest g s).evBatch = s.evBatch ∧
      (repeatTest g s).gal.failed = s.gal.failed := by
  unfold repeatTest
  dsimp only
  obtain ⟨a, b, c⟩ := loadTest_keeps { g with rep := g.rep + 1 } { s with gal := { s.gal with runs := s.gal.runs.map (fun x => if x.key = g.key then { g with rep := g.rep + 1 } else x) } }
  refine ⟨?_, by rw [b], by rw [c], by rw [a]⟩
  rw [a]
  show List.find? _ (List.map _ _) = _
  revert h
  generalize s.gal.runs = xs
  intro h
  induction xs with
  | nil => simp at h
  | cons x xs ih =>
    by_cases hx : x.key = g.key
    · rw [List.map_cons, if_pos hx, List.find?_cons_of_pos (by simp)]
    · rw [List.map_cons, if_neg hx, List.find?_cons_of_neg (by simpa using hx)]
      rw [List.find?_cons_of_neg (by simpa using hx)] at h
      exact ih h

/-- Is some test queued for a tile? -/
def HasRun (k : Nat) (s : State) : Prop := ∃ g ∈ s.gal.runs, g.key = k

theorem addTests_run (why k : Nat) (ts : List Nat) (s : State) (h : ts ≠ []) :
    HasRun k (addTests why k ts s) ∧ (∀ j, HasRun j s → HasRun j (addTests why k ts s)) ∧ (addTests why k ts s).gal.failed = s.gal.failed ∧ (addTests why k ts s).gal.pack = s.gal.pack := by
  cases ts with
  | nil => exact absurd rfl h
  | cons t rest =>
    unfold addTests
    dsimp only
    split
    · rename_i ha
      obtain ⟨g, hg, hk⟩ := List.any_eq_true.mp ha
      have hk' : g.key = k := by simpa using hk
      refine ⟨⟨_, List.mem_map.mpr ⟨g, hg, rfl⟩, by rw [if_pos hk']; exact hk'⟩, fun j hj => ?_, rfl, rfl⟩
      obtain ⟨x, hx, e⟩ := hj
      refine ⟨_, List.mem_map.mpr ⟨x, hx, rfl⟩, ?_⟩
      split
      · exact e
      · exact e
    · obtain ⟨a, _, _⟩ := loadTest_keeps { key := k, test := t, why := why, todo := rest, scale := (s.tile k).scaleMap } { s with gal := { s.gal with runs := s.gal.runs ++ [{ key := k, test := t, why := why, todo := rest, scale := (s.tile k).scaleMap }] } }
      unfold HasRun
      rw [a]
      refine ⟨⟨_, List.mem_append_right _ (List.mem_singleton_self _), rfl⟩, fun j hj => ?_, rfl, rfl⟩
      obtain ⟨x, hx, e⟩ := hj
      exact ⟨x, List.mem_append_left _ hx, e⟩

theorem allOf_addTests (why : Nat) (ks : List Nat) (s : State) (h : s.gal.pack ≠ []) :
    let t := allOf ks (fun k s => addTests why k (List.range s.gal.pack.length) s) s
    (∀ k ∈ ks, HasRun k t) ∧ (∀ j, HasRun j s → HasRun j t) ∧ t.gal.failed = s.gal.failed ∧ GalleryOnly s t := by
  induction ks generalizing s with
  | nil => exact ⟨fun k hk => absurd hk List.not_mem_nil, fun _ x => x, rfl, .refl s⟩
  | cons k ks ih =>
    have hne : List.range s.gal.pack.length ≠ [] := by
      intro e
      rw [List.range_eq_nil, List.length_eq_zero_iff] at e
      exact h e
    obtain ⟨a, b, c, p⟩ := addTests_run why k (List.range s.gal.pack.length) s hne
    obtain ⟨d, e, f, g⟩ := ih (addTests why k (List.range s.gal.pack.length) s) (by rw [p]; exact h)
    refine ⟨fun j hj => ?_, fun j hj => e j (b j hj), f.trans c, (addTests_gallery why k _ s).trans g⟩
    rcases List.mem_cons.mp hj with rfl | hj
    · exact e _ a
    · exact d _ hj

end Sys2Proof.Machine
end

