-- ==== Sys2Proof/Laws/MatrixEngine.lean ====
section
/-!
SUPPORT. What the rows of an MM add into which group, and what the reads of the matrix engine depend on.
-/

namespace Sys2Proof.Machine
open Sys2Proof

/-- Contexts that differ in accumulation groups, counters and events other than 0x7001. -/
structure GroupCtx (c d : TCtx) : Prop where
  mem : d.mem = c.mem
  tile : ∃ gs, d.tile = { c.tile with groups := gs }
  base : d.base = c.base
  aborts : d.aborts = c.aborts
  target : d.target = c.target
  free : d.free = c.free
  evs : d.evs.contains 0x7001 = c.evs.contains 0x7001

theorem GroupCtx.refl (c : TCtx) : GroupCtx c c := ⟨rfl, ⟨c.tile.groups, rfl⟩, rfl, rfl, rfl, rfl, rfl⟩
theorem GroupCtx.trans {a b c : TCtx} (h : GroupCtx a b) (g : GroupCtx b c) : GroupCtx a c := by
  obtain ⟨x, hx⟩ := h.tile
  obtain ⟨y, hy⟩ := g.tile
  exact ⟨g.mem.trans h.mem, ⟨y, by rw [hy, hx]⟩, g.base.trans h.base, g.aborts.trans h.aborts, g.target.trans h.target, g.free.trans h.free, g.evs.trans h.evs⟩
theorem ScanCtx.group {c d : TCtx} (h : ScanCtx c d) : GroupCtx c d :=
  ⟨h.mem, ⟨c.tile.groups, by rw [h.tile]⟩, h.base, h.aborts, h.target, h.free, h.evs⟩

theorem g16Code_congr (c d : TCtx) (a : Nat) (hm : d.mem = c.mem) (hb : d.base = c.base) (ht : d.tile.scaleMap = c.tile.scaleMap) : g16Code d a = g16Code c a := by
  unfold g16Code codedEntryAt scaleEntries tcByte
  rw [hm, hb, ht]
theorem rowCode_congr (c d : TCtx) (a : Nat) (hm : d.mem = c.mem) (hb : d.base = c.base) (ht : d.tile.scaleMap = c.tile.scaleMap) : rowCode d a = rowCode c a := by
  unfold rowCode codedEntryAt scaleEntries tcByte
  rw [hm, hb, ht]
theorem tcG16RowCode_snd (c : TCtx) (f a : Nat) : (tcG16RowCode c f a).2 = if f = 0xA then (g16Code c a).getD 0x7F else 0x7F := by
  unfold tcG16RowCode
  split
  · split
    · rename_i h; simp [h]
    · rename_i h; simp [h]
  · rfl
theorem operandScale_scan (c : TCtx) (f a : Nat) : ScanCtx c (operandScale c f a).1 := by
  unfold operandScale
  dsimp only
  split
  · split
    · split
      · exact .refl c
      · exact tcOutside_scan c 16
    · exact .refl c
  · exact .refl c
theorem operandScale_snd_congr (c d : TCtx) (f a : Nat) (hm : d.mem = c.mem) (hb : d.base = c.base) (ht : d.tile.scaleMap = c.tile.scaleMap)
    (hq : d.tile.tables = c.tile.tables) : (operandScale d f a).2 = (operandScale c f a).2 := by
  unfold operandScale expTable
  rw [hq, rowCode_congr c d a hm hb ht]
  dsimp only
  split
  · split
    · split <;> rfl
    · rfl
  · rfl
theorem rowUpdates_scan (c : TCtx) (p : Plane) (fx a : Nat) : ScanCtx c (rowUpdates c p fx a).1 := by
  unfold rowUpdates
  dsimp only
  refine ScanCtx.trans (tcG16RowCode_scan c fx a) ?_
  refine ScanCtx.trans (operandScale_scan _ fx a) ?_
  split
  · exact tcBump_scan _ _ _ _
  · exact .refl _
theorem rowUpdates_snd_congr (c d : TCtx) (p : Plane) (fx a : Nat) (hm : d.mem = c.mem) (hb : d.base = c.base) (ht : d.tile.scaleMap = c.tile.scaleMap)
    (hq : d.tile.tables = c.tile.tables) : (rowUpdates d p fx a).2 = (rowUpdates c p fx a).2 := by
  unfold rowUpdates
  dsimp only
  rw [tcElems_congr d c _ _ _ hm hb, tcG16RowCode_snd, tcG16RowCode_snd, g16Code_congr c d a hm hb ht]
  have h1 := tcG16RowCode_scan c fx a
  have h2 := tcG16RowCode_scan d fx a
  have h3 : (operandScale (tcG16RowCode d fx a).1 fx a).2 = (operandScale (tcG16RowCode c fx a).1 fx a).2 :=
    operandScale_snd_congr _ _ fx a (by rw [h1.mem, h2.mem, hm]) (by rw [h1.base, h2.base, hb]) (by rw [h1.tile, h2.tile, ht]) (by rw [h1.tile, h2.tile, hq])
  have h4 : expandElem d.tile fx = expandElem c.tile fx := by
    funext raw; unfold expandElem expTable; rw [hq]
  have h5 : ∀ j, columnScale d.tile p.fmt j = columnScale c.tile p.fmt j := by
    intro j; unfold columnScale expTable; rw [hq]
  rw [h3]
  simp only [h4, h5]

/-- One group after an update. -/
def addedTo (old : List (BitVec 40)) (ups : List Num) : List (BitVec 40) :=
  (List.range 16).map (fun j => encW40 (addNum .even (decW40 (old.getD j 0)) (ups.getD j (natNum 0))))

theorem addToGroup_eq (t : Tile) (g : Nat) (ups : List Num) :
    addToGroup t g ups = { t with groups := smPut t.groups g (addedTo (smGetD t.groups g []) ups) } := rfl

theorem mmRows (a : MmArgs) (p0 jr n : Nat) (p : Plane) (k : Nat) (c : TCtx) :
    let d := (List.range k).foldl (fun c i =>
      let at_ := localAddr (p0 + (jr * n + i) * a.stride.toNat * 8)
      let r := rowUpdates c p a.fx.toNat at_
      { r.1 with tile := addToGroup r.1.tile (a.gbase.toNat + jr * n + i) r.2 }) c
    GroupCtx c d ∧ ∀ g, smFind d.tile.groups g =
      if a.gbase.toNat + jr * n ≤ g ∧ g < a.gbase.toNat + jr * n + k then
        some (addedTo (smGetD c.tile.groups g []) (rowUpdates c p a.fx.toNat (localAddr (p0 + (g - a.gbase.toNat) * a.stride.toNat * 8))).2)
      else smFind c.tile.groups g := by
  induction k with
  | zero =>
    refine ⟨.refl c, fun g => ?_⟩
    rw [if_neg (by omega)]; rfl
  | succ k ih =>
    rw [List.range_succ, List.foldl_append]
    obtain ⟨hg, hf⟩ := ih
    generalize (List.range k).foldl _ c = d at hg hf
    obtain ⟨gs, ht⟩ := hg.tile
    have hr := rowUpdates_scan d p a.fx.toNat (localAddr (p0 + (jr * n + k) * a.stride.toNat * 8))
    refine ⟨hg.trans ⟨hr.mem, ⟨_, (addToGroup_eq _ _ _).trans (by rw [hr.tile])⟩, hr.base, hr.aborts, hr.target, hr.free, hr.evs⟩, fun g => ?_⟩
    show smFind (smPut (rowUpdates d p _ _).1.tile.groups _ _) g = _
    rw [hr.tile, smFind_smPut, hf]
    have hv : (rowUpdates d p a.fx.toNat (localAddr (p0 + (jr * n + k) * a.stride.toNat * 8))).2 = (rowUpdates c p a.fx.toNat (localAddr (p0 + (jr * n + k) * a.stride.toNat * 8))).2 :=
      rowUpdates_snd_congr c d p _ _ hg.mem hg.base (by rw [ht]) (by rw [ht])
    by_cases e : a.gbase.toNat + jr * n + k = g
    · rw [if_pos e, if_pos (by omega), hv]
      have e2 : g - a.gbase.toNat = jr * n + k := by omega
      rw [e2]
      congr 2
      unfold smGetD
      rw [e, hf, if_neg (by omega)]
    · rw [if_neg e]
      by_cases h1 : a.gbase.toNat + jr * n ≤ g ∧ g < a.gbase.toNat + jr * n + k
      · rw [if_pos h1, if_pos (by omega)]
      · rw [if_neg h1, if_neg (by omega)]

theorem tcBump_group (c : TCtx) (i : Tally) (j k : Nat) : GroupCtx c (tcBump c i j k) := (tcBump_scan c i j k).group

theorem mmArray_spec (a : MmArgs) (p0 : Nat) (c : TCtx) (j : Fin 4) (jr : Nat) :
    let n := a.nrow.toNat + 1
    GroupCtx c (mmArray a p0 c (j, jr)) ∧ ∀ g, smFind (mmArray a p0 c (j, jr)).tile.groups g =
      if a.gbase.toNat + jr * n ≤ g ∧ g < a.gbase.toNat + jr * n + n then
        some (addedTo (smGetD c.tile.groups g []) (rowUpdates c c.tile.planes[planeIx j a.plane] a.fx.toNat (localAddr (p0 + (g - a.gbase.toNat) * a.stride.toNat * 8))).2)
      else smFind c.tile.groups g := by
  unfold mmArray
  dsimp only
  have hb := tcBump_scan c .array (max (fmtPieces a.fx.toNat) (fmtPieces c.tile.planes[planeIx j a.plane].fmt)) (a.nrow.toNat + 1)
  obtain ⟨h1, h2⟩ := mmRows a p0 jr (a.nrow.toNat + 1) c.tile.planes[planeIx j a.plane] (a.nrow.toNat + 1)
    (tcBump c .array (max (fmtPieces a.fx.toNat) (fmtPieces c.tile.planes[planeIx j a.plane].fmt)) (a.nrow.toNat + 1))
  refine ⟨hb.group.trans h1, fun g => ?_⟩
  rw [h2, hb.tile, rowUpdates_snd_congr c _ _ _ _ hb.mem hb.base (by rw [hb.tile]) (by rw [hb.tile])]

/-- The arrays of an MM, one after the other: every row of theirs is added into its own group. -/
theorem mmArrays_spec (a : MmArgs) (p0 : Nat) (js : List (Fin 4)) (k0 : Nat) (c : TCtx) :
    let n := a.nrow.toNat + 1
    let d := (js.zip (List.range' k0 js.length)).foldl (mmArray a p0) c
    GroupCtx c d ∧ (∀ g, ¬(a.gbase.toNat + k0 * n ≤ g ∧ g < a.gbase.toNat + (k0 + js.length) * n) → smFind d.tile.groups g = smFind c.tile.groups g) ∧
      ∀ x, k0 * n ≤ x → x < (k0 + js.length) * n → ∃ j, js[x / n - k0]? = some j ∧ smFind d.tile.groups (a.gbase.toNat + x) =
        some (addedTo (smGetD c.tile.groups (a.gbase.toNat + x) []) (rowUpdates c c.tile.planes[planeIx j a.plane] a.fx.toNat
          (localAddr (p0 + x * a.stride.toNat * 8))).2) := by
  induction js generalizing k0 c with
  | nil =>
    refine ⟨.refl c, fun g _ => rfl, fun x h1 h2 => ?_⟩
    simp only [List.length_nil, Nat.add_zero] at h2
    omega
  | cons j js ih =>
    obtain ⟨h1, h2⟩ := mmArray_spec a p0 c j k0
    obtain ⟨h3, h4, h5⟩ := ih (k0 + 1) (mmArray a p0 c (j, k0))
    simp only [List.length_cons, List.range'_succ, List.zip_cons_cons, List.foldl_cons]
    obtain ⟨gs, ht⟩ := h1.tile
    have en : (k0 + 1 + js.length) = k0 + (js.length + 1) := by omega
    rw [en] at h4 h5
    have hm : (k0 + 1) * (a.nrow.toNat + 1) = k0 * (a.nrow.toNat + 1) + (a.nrow.toNat + 1) := by ring
    have hle : (k0 + 1) * (a.nrow.toNat + 1) ≤ (k0 + (js.length + 1)) * (a.nrow.toNat + 1) := Nat.mul_le_mul_right _ (by omega)
    refine ⟨h1.trans h3, fun g hg => ?_, fun x hx1 hx2 => ?_⟩
    · rw [h4 g (by omega), h2, if_neg (by omega)]
    · by_cases hx : x < (k0 + 1) * (a.nrow.toNat + 1)
      · have hd : x / (a.nrow.toNat + 1) = k0 := by
          apply Nat.div_eq_of_lt_le <;> omega
        refine ⟨j, by rw [hd]; simp, ?_⟩
        rw [h4 _ (by omega), h2, if_pos (by omega)]
        simp only [Nat.add_sub_cancel_left]
      · obtain ⟨j2, hj2, hv⟩ := h5 x (by omega) hx2
        have hd : k0 + 1 ≤ x / (a.nrow.toNat + 1) := (Nat.le_div_iff_mul_le (by omega)).mpr (by omega)
        refine ⟨j2, ?_, ?_⟩
        · have : x / (a.nrow.toNat + 1) - k0 = (x / (a.nrow.toNat + 1) - (k0 + 1)) + 1 := by omega
          rw [this, List.getElem?_cons_succ]; exact hj2
        · rw [hv, ht, rowUpdates_snd_congr c _ _ _ _ h1.mem h1.base (by rw [ht]) (by rw [ht])]
          congr 2
          unfold smGetD
          have := h2 (a.gbase.toNat + x)
          rw [if_neg (by omega), ht] at this
          rw [this]
end Sys2Proof.Machine
end

