-- ==== Sys2Proof/Laws/TileOutput.lean ====
section
/-!
SUPPORT. What the writes of CVT and GCLOSE can change: the tile's own SRAM, its exception and Encore flags, and counters.
-/

namespace Sys2Proof.Machine
open Sys2Proof

/-- Contexts that differ inside the tile's SRAM, in its exception and Encore flags, in counters and in events other than
0x7001. -/
structure OutCtx (c d : TCtx) : Prop where
  mem : ∀ x, ¬(c.base ≤ x ∧ x < c.base + sramSize) → readByte d.mem x = readByte c.mem x
  tile : ∃ fl en, d.tile = { c.tile with flags := fl, encore := en }
  base : d.base = c.base
  aborts : d.aborts = c.aborts
  target : d.target = c.target
  free : d.free = c.free
  evs : d.evs.contains 0x7001 = c.evs.contains 0x7001

theorem OutCtx.refl (c : TCtx) : OutCtx c c := ⟨fun _ _ => rfl, ⟨_, _, rfl⟩, rfl, rfl, rfl, rfl, rfl⟩
theorem OutCtx.trans {a b c : TCtx} (h : OutCtx a b) (g : OutCtx b c) : OutCtx a c := by
  obtain ⟨x, y, hx⟩ := h.tile
  obtain ⟨z, u, hy⟩ := g.tile
  exact ⟨fun q hq => (g.mem q (by rw [h.base]; exact hq)).trans (h.mem q hq), ⟨z, u, by rw [hy, hx]⟩, g.base.trans h.base,
    g.aborts.trans h.aborts, g.target.trans h.target, g.free.trans h.free, g.evs.trans h.evs⟩
theorem ScanCtx.out {c d : TCtx} (h : ScanCtx c d) : OutCtx c d :=
  ⟨fun x _ => by rw [h.mem], ⟨_, _, h.tile⟩, h.base, h.aborts, h.target, h.free, h.evs⟩
theorem OutCtx.foldl {α : Type} (f : TCtx → α → TCtx) (xs : List α) (c : TCtx) (h : ∀ c x, OutCtx c (f c x)) : OutCtx c (xs.foldl f c) := by
  induction xs generalizing c with
  | nil => exact .refl c
  | cons x xs ih => exact (h c x).trans (ih _)
theorem OutCtx.foldl1 {α β : Type} (f : TCtx × β → α → TCtx × β) (xs : List α) (st : TCtx × β) (h : ∀ st x, OutCtx st.1 (f st x).1) :
    OutCtx st.1 (xs.foldl f st).1 := by
  induction xs generalizing st with
  | nil => exact .refl _
  | cons x xs ih => exact (h st x).trans (ih _)
theorem tcBump_out (c : TCtx) (i : Tally) (j k : Nat) : OutCtx c (tcBump c i j k) := (tcBump_scan c i j k).out
theorem tcOutside_out (c : TCtx) (n : Nat) : OutCtx c (tcOutside c n) := (tcOutside_scan c n).out
theorem tcEvent_out (c : TCtx) (e : Nat) (h : e ≠ 0x7001) : OutCtx c (tcEvent c e) :=
  ⟨fun _ _ => rfl, ⟨_, _, rfl⟩, rfl, rfl, rfl, rfl, by simp [tcEvent]; intro h2; exact absurd h2.symm h⟩
theorem tcFlags_out (c : TCtx) (fl : ExcFlags) : OutCtx c (tcFlags c fl) := by
  have h := tcFlags_same c fl
  obtain ⟨x, hx⟩ := h.tile
  exact ⟨fun q _ => by rw [tcFlags_mem], ⟨x, c.tile.encore, hx⟩, h.base, h.aborts, h.target, h.free, by rw [h.evs]⟩
theorem tcConv_out (c : TCtx) (x : Conv) : OutCtx c (tcConv c x) :=
  ((tcFlags_out c _).trans (tcBump_out _ _ _ _)).trans (tcBump_out _ _ _ _)
theorem tcWrite_out (c : TCtx) (a : Nat) (bs : List Byte) : OutCtx c (tcWrite c a bs) := by
  induction bs generalizing c a with
  | nil => exact .refl c
  | cons b bs ih =>
    refine OutCtx.trans (b := { c with mem := writeByte c.mem (c.base + localAddr a) b }) ⟨fun q hq => ?_, ⟨_, _, rfl⟩, rfl, rfl, rfl, rfl, rfl⟩ (ih _ _)
    have h1 : localAddr a < sramSize := Nat.mod_lt _ (by decide)
    exact readByte_writeByte_ne _ _ _ _ (by omega)
theorem tcWriteNib_out (c : TCtx) (a n v : Nat) : OutCtx c (tcWriteNib c a n v) := by
  unfold tcWriteNib; dsimp only; split <;> exact tcWrite_out _ _ _
theorem tcPutBits_out (c : TCtx) (bs : List OutBits) : OutCtx c (tcPutBits c bs) := OutCtx.foldl _ _ _ (fun c _ => tcWriteNib_out c _ _ _)
theorem tcPutByte_out (c : TCtx) (a v : Nat) : OutCtx c (tcPutByte c a v) := tcWrite_out _ _ _
theorem tcEncore_out (c : TCtx) (k a b : Nat) : OutCtx c (tcEncore c k a b) := ⟨fun _ _ => rfl, ⟨_, _, rfl⟩, rfl, rfl, rfl, rfl, rfl⟩
theorem tcWatch_out (c : TCtx) (na : Nat) (o n : Bool) : OutCtx c (tcWatch c na o n) := by
  unfold tcWatch
  split
  · exact OutCtx.foldl _ _ _ (fun c e => by split; exact tcEncore_out _ _ _ _; exact .refl _)
  · exact .refl c
theorem tcSide_out (c : TCtx) (e : ScaleEntry) (i : Nat) (o : OutElem) : OutCtx c (tcSide c e i o) := by
  unfold tcSide
  dsimp only
  exact OutCtx.trans ((tcConv_out _ _).trans (tcWrite_out _ _ _)) ((tcWatch_out _ _ _ _).trans (tcBump_out _ _ _ _))
theorem tcCodedElem_out (e : ScaleEntry) (code : Nat) (st : TCtx × List OutBits) (o : OutElem) : OutCtx st.1 (tcCodedElem e code st o).1 := by
  unfold tcCodedElem
  dsimp only
  split
  · exact tcSide_out _ _ _ _
  · split
    · exact (tcConv_out _ _).trans (tcWatch_out _ _ _ _)
    · exact (tcConv_out _ _).trans (tcWatch_out _ _ _ _)
theorem OutCtx.ite {c : TCtx} {p : Prop} [Decidable p] {a b : TCtx} (h : OutCtx c a) (g : OutCtx c b) : OutCtx c (if p then a else b) := by
  split <;> assumption
theorem tcSpan_out (e : ScaleEntry) (os : List OutElem) (st : TCtx × List OutBits) (n : Nat) : OutCtx st.1 (tcSpan e os st n).1 := by
  unfold tcSpan
  extract_lets c mine pos open_ vals whole old choice special code sat c1 c2 c3 ff c4 c5
  refine OutCtx.trans ?_ (OutCtx.foldl1 _ _ (c5, st.2) (fun st o => tcCodedElem_out e _ st o))
  have h1 : OutCtx c c1 := tcPutByte_out _ _ _
  have h2 : OutCtx c1 c2 := OutCtx.ite (tcBump_out _ _ _ _) (.refl _)
  have h3 : OutCtx c2 c3 := OutCtx.ite ((tcEvent_out _ _ (by decide)).trans (tcBump_out _ _ _ _)) (.refl _)
  have h4 : OutCtx c3 c4 := OutCtx.ite ((tcEvent_out _ _ (by decide)).trans (tcBump_out _ _ _ _)) (.refl _)
  have h5 : OutCtx c4 c5 := OutCtx.ite (tcEncore_out _ _ _ _) (.refl _)
  exact (((h1.trans h2).trans h3).trans h4).trans h5
theorem tcPlainElem_out (f : Nat) (m : RMode) (sf : Bool) (st : TCtx × List OutBits) (o : OutElem) : OutCtx st.1 (tcPlainElem f m sf st o).1 := by
  unfold tcPlainElem
  dsimp only
  split
  · exact ((tcOutside_out _ _).trans (tcConv_out _ _)).trans (tcWatch_out _ _ _ _)
  · exact (tcConv_out _ _).trans (tcWatch_out _ _ _ _)
theorem tcEncodeAll_out (c : TCtx) (f : Nat) (m : RMode) (sf : Bool) (os : List OutElem) : OutCtx c (tcEncodeAll c f m sf os).1 := by
  unfold tcEncodeAll
  dsimp only
  refine OutCtx.trans ?_ (OutCtx.foldl1 _ _ _ (fun st o => tcPlainElem_out _ _ _ st o))
  exact OutCtx.foldl1 _ _ (c, []) (fun st e => OutCtx.foldl1 _ _ st (fun st n => tcSpan_out e _ st n))
theorem cvtSource_out (f : Nat) (st : TCtx × List (Num × Bool)) (na : Nat) : OutCtx st.1 (cvtSource f st na).1 := by
  unfold cvtSource
  dsimp only
  exact OutCtx.ite (.refl _) (tcOutside_out _ _)
theorem effCvt_out (a : VopArgs) (c : TCtx) (h : vopFmtOk 0x10 a = true) : OutCtx c (effCvt a c) := by
  unfold effCvt
  dsimp only
  rw [if_pos h]
  split
  · exact (OutCtx.foldl _ _ _ (fun c i => tcWatch_out _ _ _ _)).trans (tcPutBits_out _ _)
  · have h1 := OutCtx.foldl1 (fun st i => cvtSource a.fmt.toNat st (2 * (c.tile.ptr[a.pa]).toNat + i * fmtNibbles a.fmt.toNat))
      (List.range ((a.lanes.toNat + 1) * (a.cnt.toNat + 1))) (c, []) (fun st i => cvtSource_out _ st _)
    exact h1.trans ((tcEncodeAll_out _ _ _ _ _).trans (tcPutBits_out _ _))
theorem gcloseRow_out (a : GroupArgs) (bits : List OutBits) (c : TCtx) (i : Nat) : OutCtx c (gcloseRow a bits c i) := by
  unfold gcloseRow
  dsimp only
  split
  · exact (tcPutBits_out _ _).trans (((tcWrite_out _ _ _).trans (tcWrite_out _ _ _)).trans (tcBump_out _ _ _ _))
  · exact tcPutBits_out _ _
theorem closeGroups_parts (t : Tile) (g n : Nat) : ∃ gs, closeGroups t g n = { t with groups := gs } ∧
    ∀ x, smFind gs x = if g ≤ x ∧ x < g + n then none else smFind t.groups x := by
  unfold closeGroups
  induction n with
  | zero => exact ⟨t.groups, rfl, fun x => by rw [if_neg (by omega)]⟩
  | succ n ih =>
    obtain ⟨gs, h1, h2⟩ := ih
    rw [List.range_succ, List.foldl_append, h1]
    refine ⟨smDel gs (g + n), rfl, fun x => ?_⟩
    rw [smFind_smDel, h2]
    by_cases e : g + n = x
    · rw [if_pos e, if_pos (by omega)]
    · rw [if_neg e]
      by_cases h3 : g ≤ x ∧ x < g + n
      · rw [if_pos h3, if_pos (by omega)]
      · rw [if_neg h3, if_neg (by omega)]
/-- The elements that CVT reads from a format other than G16. -/
theorem cvtSources (f : Nat) (hf : f ≠ 0xA) (p : Nat) (c : TCtx) (xs : List Nat) (l0 : List (Num × Bool)) :
    xs.foldl (fun st i => cvtSource f st (2 * p + i * fmtNibbles f)) (c, l0) = (c, l0 ++ xs.map (fun i =>
      (decodeElem f (tcReadNib c (2 * p + i * fmtNibbles f) (fmtNibbles f)) 0x7F, (match fmtFloat f with
        | some ff => isSignalling ff (tcReadNib c (2 * p + i * fmtNibbles f) (fmtNibbles f))
        | none => false)))) := by
  induction xs generalizing l0 with
  | nil => simp
  | cons x xs ih =>
    rw [List.foldl_cons]
    have e : cvtSource f (c, l0) (2 * p + x * fmtNibbles f) = (c, l0 ++ [(decodeElem f (tcReadNib c (2 * p + x * fmtNibbles f) (fmtNibbles f)) 0x7F, (match fmtFloat f with
        | some ff => isSignalling ff (tcReadNib c (2 * p + x * fmtNibbles f) (fmtNibbles f))
        | none => false))]) := by
      unfold cvtSource
      dsimp only
      rw [if_neg hf]
      rfl
    rw [e, ih, List.map_cons, List.append_assoc]
    rfl

/-- Converting elements one at a time leaves memory alone and answers their bits in order. -/
theorem plainElems (g : Nat) (hg : g ≠ 0xA) (m : RMode) (sf : Bool) (os : List OutElem) (c : TCtx) (l0 : List OutBits) :
    let d := os.foldl (tcPlainElem g m sf) (c, l0)
    d.1.mem = c.mem ∧ d.1.base = c.base ∧ d.2 = l0 ++ os.map (fun o => { na := o.na, nibs := fmtNibbles g, bits := (convTo g m sf o.snan o.x).bits }) := by
  have hm : ∀ (c : TCtx) (na : Nat) (x : Conv) (o n : Bool), (tcWatch (tcConv c x) na o n).mem = c.mem := by
    intro c na x o n
    have h1 : (tcConv c x).mem = c.mem := by simp [tcConv]
    unfold tcWatch
    split
    · rw [foldl_mem _ _ _ (fun c e => by split <;> rfl), h1]
    · exact h1
  induction os generalizing c l0 with
  | nil => exact ⟨rfl, rfl, by simp⟩
  | cons o os ih =>
    rw [List.foldl_cons]
    have e : tcPlainElem g m sf (c, l0) o = (tcWatch (tcConv c (convTo g m sf o.snan o.x)) o.na (convTo g m sf o.snan o.x).ovf (convTo g m sf o.snan o.x).nonfin,
        l0 ++ [{ na := o.na, nibs := fmtNibbles g, bits := (convTo g m sf o.snan o.x).bits }]) := by
      unfold tcPlainElem
      dsimp only
      rw [if_neg hg]
    rw [e]
    obtain ⟨h1, h2, h3⟩ := ih (tcWatch (tcConv c (convTo g m sf o.snan o.x)) o.na (convTo g m sf o.snan o.x).ovf (convTo g m sf o.snan o.x).nonfin) (l0 ++ [{ na := o.na, nibs := fmtNibbles g, bits := (convTo g m sf o.snan o.x).bits }])
    refine ⟨h1.trans (hm _ _ _ _ _), h2.trans (((tcConv_out c _).trans (tcWatch_out _ _ _ _)).base), ?_⟩
    rw [h3]; simp

/-- A destination format without a scale map converts element by element. -/
theorem tcEncodeAll_plain (c : TCtx) (g : Nat) (hg : g ≠ 0xA) (h2 : g ≠ 2) (m : RMode) (sf : Bool) (os : List OutElem) :
    tcEncodeAll c g m sf os = os.foldl (tcPlainElem g m sf) (c, []) := by
  unfold tcEncodeAll
  dsimp only
  rw [if_neg hg, if_neg h2]
  have : (scaleEntries c.tile).filter (fun e => isCoded e && ([] : List Nat).contains e.kind) = [] := by
    rw [List.filter_eq_nil_iff]; simp
  rw [this]
  simp

end Sys2Proof.Machine
end

