-- ==== Sys2Proof/Laws/Groups.lean ====
section
/-!
SUPPORT. What the group instructions do to the groups of a tile.
-/

namespace Sys2Proof.Machine
open Sys2Proof

theorem gopenRow_spec (c : TCtx) (f a : Nat) :
    (gopenRow c f a).1.mem = c.mem ∧ (∃ fl, (gopenRow c f a).1.tile = { c.tile with flags := fl }) ∧ OutCtx c (gopenRow c f a).1 ∧ (gopenRow c f a).2.length = 16 := by
  unfold gopenRow
  have key : ∀ (xs : List Nat) (st : TCtx × List (BitVec 40)),
      let d := xs.foldl (fun (st : TCtx × List (BitVec 40)) k =>
        let na := 2 * a + k * fmtNibbles f
        let raw := tcReadNib st.1 na (fmtNibbles f)
        let code := if f = 0xA then g16Code st.1 (localAddr (na / 2)) else some 0x7F
        let c := if code.isSome then st.1 else tcOutside st.1 1
        let x := decodeElem f raw (code.getD 0x7F)
        let snan := match fmtFloat f with
          | some f => isSignalling f raw
          | none => false
        let r := convTo 0xB .even true snan x
        (tcConv c r, st.2 ++ [BitVec.ofNat 40 r.bits])) st
      d.1.mem = st.1.mem ∧ (∃ fl, d.1.tile = { st.1.tile with flags := fl }) ∧ OutCtx st.1 d.1 ∧ d.2.length = st.2.length + xs.length := by
    intro xs
    induction xs with
    | nil => intro st; exact ⟨rfl, ⟨_, rfl⟩, .refl _, rfl⟩
    | cons x xs ih =>
      intro st
      rw [List.foldl_cons]
      obtain ⟨h1, ⟨fl, h2⟩, h3, h4⟩ := ih (_, _)
      have step : ∀ (b : Bool) (cv : Conv), (tcConv (if b = true then st.1 else tcOutside st.1 1) cv).mem = st.1.mem ∧
          (∃ fl, (tcConv (if b = true then st.1 else tcOutside st.1 1) cv).tile = { st.1.tile with flags := fl }) ∧
          OutCtx st.1 (tcConv (if b = true then st.1 else tcOutside st.1 1) cv) := by
        intro b cv
        have ho : OutCtx st.1 (tcConv (if b = true then st.1 else tcOutside st.1 1) cv) :=
          (OutCtx.ite (.refl _) (tcOutside_out _ _)).trans (tcConv_out _ _)
        have hs : ScanCtx st.1 (if b = true then st.1 else tcOutside st.1 1) := by
          split; exact .refl _; exact tcOutside_scan _ _
        refine ⟨?_, ?_, ho⟩
        · unfold tcConv; simp [hs.mem]
        · have := (((tcFlags_same (if b = true then st.1 else tcOutside st.1 1) cv.fl).trans (tcBump_same _ .vector 5 (boolNat cv.sat))).trans (tcBump_same _ .vector 6 (boolNat cv.toInt))).tile
          obtain ⟨fl, hf⟩ := this
          exact ⟨fl, by unfold tcConv; rw [hf, hs.tile]⟩
      obtain ⟨s1, ⟨fl2, s2⟩, s3⟩ := step _ _
      refine ⟨h1.trans s1, ⟨fl, by rw [h2, s2]⟩, s3.trans h3, ?_⟩
      rw [h4]; simp; omega
  obtain ⟨h1, h2, h3, h4⟩ := key (List.range 16) (c, [])
  exact ⟨h1, h2, h3, h4.trans (by simp)⟩

theorem gopenRows_spec (a : GroupArgs) (p n : Nat) (c : TCtx) :
    let d := (List.range n).foldl (fun c i =>
      let g := a.gbase.toNat + i
      if a.mode = 0 then { c with tile := { c.tile with groups := smPut c.tile.groups g (List.replicate 16 0) } }
      else
        let r := gopenRow c a.fmt.toNat (localAddr (p + i * a.stride.toNat * 8))
        { r.1 with tile := { r.1.tile with groups := smPut r.1.tile.groups g r.2 } }) c
    d.mem = c.mem ∧ (∃ fl, d.tile = { c.tile with groups := d.tile.groups, flags := fl }) ∧ d.base = c.base ∧ d.aborts = c.aborts ∧
      d.target = c.target ∧ d.free = c.free ∧ d.evs.contains 0x7001 = c.evs.contains 0x7001 ∧
      (∀ g, ¬(a.gbase.toNat ≤ g ∧ g < a.gbase.toNat + n) → smFind d.tile.groups g = smFind c.tile.groups g) ∧
      ∀ i < n, ∃ vs, smFind d.tile.groups (a.gbase.toNat + i) = some vs ∧ vs.length = 16 ∧ (a.mode = 0 → vs = List.replicate 16 0) := by
  induction n with
  | zero => exact ⟨rfl, ⟨_, rfl⟩, rfl, rfl, rfl, rfl, rfl, fun _ _ => rfl, fun i hi => absurd hi (by omega)⟩
  | succ n ih =>
    rw [List.range_succ, List.foldl_append]
    obtain ⟨h1, ⟨fl, h2⟩, h3, h4, h5, h6, h7, h8, h9⟩ := ih
    generalize (List.range n).foldl _ c = d at h1 h2 h3 h4 h5 h6 h7 h8 h9
    simp only [List.foldl_cons, List.foldl_nil]
    have fin : ∀ (e : TCtx) (vs : List (BitVec 40)), e.mem = d.mem → (∃ fl, e.tile = { d.tile with flags := fl }) → OutCtx d e → vs.length = 16 →
        (a.mode = 0 → vs = List.replicate 16 0) →
        let f : TCtx := { e with tile := { e.tile with groups := smPut e.tile.groups (a.gbase.toNat + n) vs } }
        f.mem = c.mem ∧ (∃ fl, f.tile = { c.tile with groups := f.tile.groups, flags := fl }) ∧ f.base = c.base ∧ f.aborts = c.aborts ∧
        f.target = c.target ∧ f.free = c.free ∧ f.evs.contains 0x7001 = c.evs.contains 0x7001 ∧
        (∀ g, ¬(a.gbase.toNat ≤ g ∧ g < a.gbase.toNat + (n + 1)) → smFind f.tile.groups g = smFind c.tile.groups g) ∧
        ∀ i < n + 1, ∃ vs, smFind f.tile.groups (a.gbase.toNat + i) = some vs ∧ vs.length = 16 ∧ (a.mode = 0 → vs = List.replicate 16 0) := by
      intro e vs em et eo ev ez
      obtain ⟨fl2, et⟩ := et
      refine ⟨em.trans h1, ⟨fl2, by dsimp only; rw [et, h2]⟩, eo.base.trans h3, eo.aborts.trans h4, eo.target.trans h5, eo.free.trans h6, eo.evs.trans h7, ?_, ?_⟩
      · intro g hg
        dsimp only
        rw [smFind_smPut, if_neg (by omega), et]
        exact h8 g (by omega)
      · intro i hi
        dsimp only
        rw [smFind_smPut]
        by_cases hin : a.gbase.toNat + n = a.gbase.toNat + i
        · exact ⟨vs, by rw [if_pos hin], ev, ez⟩
        · rw [if_neg hin, et]
          exact h9 i (by omega)
    split
    · exact fin d (List.replicate 16 0) rfl ⟨_, rfl⟩ (.refl d) (by simp) (fun _ => rfl)
    · rename_i hm
      obtain ⟨g1, g2, g3, g4⟩ := gopenRow_spec d a.fmt.toNat (localAddr (p + n * a.stride.toNat * 8))
      exact fin _ _ g1 g2 g3 g4 (fun h0 => absurd h0 hm)

theorem gfillRows_spec (a : GroupArgs) (p n : Nat) (c : TCtx) :
    let d := (List.range n).foldl (fun c i =>
      let at_ := localAddr (p + i * a.stride.toNat * 8)
      let row := (List.range 16).map (fun k => BitVec.ofNat 40 (leNat (tcRead c (at_ + 5 * k) 5)))
      { c with tile := { c.tile with groups := smPut c.tile.groups (a.gbase.toNat + i) row } }) c
    GroupCtx c d ∧
      (∀ g, ¬(a.gbase.toNat ≤ g ∧ g < a.gbase.toNat + n) → smFind d.tile.groups g = smFind c.tile.groups g) ∧
      ∀ i < n, smFind d.tile.groups (a.gbase.toNat + i) = some ((List.range 16).map (fun k => BitVec.ofNat 40 (leNat (tcRead c (localAddr (p + i * a.stride.toNat * 8) + 5 * k) 5)))) := by
  induction n with
  | zero => exact ⟨.refl c, fun _ _ => rfl, fun i hi => absurd hi (by omega)⟩
  | succ n ih =>
    rw [List.range_succ (n := n), List.foldl_append]
    obtain ⟨h1, h8, h9⟩ := ih
    generalize (List.range n).foldl _ c = d at h1 h8 h9
    refine ⟨h1.trans ⟨rfl, ⟨_, rfl⟩, rfl, rfl, rfl, rfl, rfl⟩, fun g hg => ?_, fun i hi => ?_⟩
    · simp only [List.foldl_cons, List.foldl_nil]
      rw [smFind_smPut, if_neg (by omega)]
      exact h8 g (by omega)
    · simp only [List.foldl_cons, List.foldl_nil]
      rw [smFind_smPut]
      by_cases e : a.gbase.toNat + n = a.gbase.toNat + i
      · have e2 : n = i := by omega
        subst e2
        rw [if_pos rfl]
        congr 1
        apply List.map_congr_left
        intro k _
        rw [tcRead_congr d c _ _ h1.mem h1.base]
      · rw [if_neg e]
        exact h9 i (by omega)

theorem gspillRows_spec (a : GroupArgs) (p n : Nat) (c : TCtx) (T : Tile) :
    let d := (List.range n).foldl (fun c i =>
      let row := smGetD c.tile.groups (a.gbase.toNat + i) []
      tcWrite (tcCountNonfinite c (a.gbase.toNat + i)) (localAddr (p + i * a.stride.toNat * 8)) (row.flatMap (fun w => leBytes 5 w.toNat))) c
    d.tile = c.tile ∧ d.base = c.base ∧ d.aborts = c.aborts ∧ d.target = c.target ∧ d.free = c.free ∧ d.evs = c.evs ∧
      d.mem = (List.range n).foldl (fun m i => (tcWrite (plainCtx m T c.base) (localAddr (p + i * a.stride.toNat * 8))
          ((smGetD c.tile.groups (a.gbase.toNat + i) []).flatMap (fun v => leBytes 5 v.toNat))).mem) c.mem := by
  have hw : ∀ (bs : List Byte) (c : TCtx) (x : Nat), (tcWrite c x bs).tile = c.tile := by
    intro bs
    induction bs with
    | nil => intro c x; rfl
    | cons b bs ih => intro c x; exact ih _ _
  induction n with
  | zero => exact ⟨rfl, rfl, rfl, rfl, rfl, rfl, rfl⟩
  | succ n ih =>
    rw [List.range_succ, List.foldl_append, List.foldl_append]
    obtain ⟨h1, h2, h3, h4, h5, h6, h7⟩ := ih
    rw [← h7]
    generalize (List.range n).foldl _ c = d at h1 h2 h3 h4 h5 h6
    simp only [List.foldl_cons, List.foldl_nil]
    have hb := tcBump_scan d .array 5 (((smGetD d.tile.groups (a.gbase.toNat + n) []).filter (fun w => !isFinNum (decW40 w))).length)
    have hs := tcWrite_same (tcCountNonfinite d (a.gbase.toNat + n)) (localAddr (p + n * a.stride.toNat * 8)) ((smGetD d.tile.groups (a.gbase.toNat + n) []).flatMap (fun w => leBytes 5 w.toNat))
    have hq := tcBump_same d .array 5 (((smGetD d.tile.groups (a.gbase.toNat + n) []).filter (fun w => !isFinNum (decW40 w))).length)
    refine ⟨(hw _ _ _).trans (hb.tile.trans h1), hs.base.trans (hb.base.trans h2), hs.aborts.trans (hb.aborts.trans h3),
      hs.target.trans (hb.target.trans h4), hs.free.trans (hb.free.trans h5), hs.evs.trans (hq.evs.trans h6), ?_⟩
    rw [← h1]
    exact tcWrite_mem_congr _ _ _ _ hb.mem (hb.base.trans h2)
theorem effGopen_spec (a : GroupArgs) (c : TCtx) (h : gopenOk a = true) (hg : groupsClosed c.tile a.gbase.toNat (a.gcnt.toNat + 1) = true) :
    let d := effGopen a c
    d.mem = c.mem ∧ (∃ fl, d.tile = { c.tile with groups := d.tile.groups, flags := fl }) ∧ d.base = c.base ∧ d.aborts = c.aborts ∧
      d.target = c.target ∧ d.free = c.free ∧ d.evs.contains 0x7001 = c.evs.contains 0x7001 ∧
      (∀ g, ¬(a.gbase.toNat ≤ g ∧ g < a.gbase.toNat + (a.gcnt.toNat + 1)) → smFind d.tile.groups g = smFind c.tile.groups g) ∧
      ∀ i < (a.gcnt.toNat + 1), ∃ vs, smFind d.tile.groups (a.gbase.toNat + i) = some vs ∧ vs.length = 16 ∧ (a.mode = 0 → vs = List.replicate 16 0) := by
  unfold effGopen
  dsimp only
  rw [h, hg]
  exact gopenRows_spec a _ _ c

theorem effGfill_spec (a : GroupArgs) (c : TCtx) (h : gspillOk a = true) (hg : groupsClosed c.tile a.gbase.toNat (a.gcnt.toNat + 1) = true) :
    let d := effGfill a c
    GroupCtx c d ∧
      (∀ g, ¬(a.gbase.toNat ≤ g ∧ g < a.gbase.toNat + (a.gcnt.toNat + 1)) → smFind d.tile.groups g = smFind c.tile.groups g) ∧
      ∀ i < (a.gcnt.toNat + 1), smFind d.tile.groups (a.gbase.toNat + i) = some ((List.range 16).map (fun k => BitVec.ofNat 40 (leNat (tcRead c (localAddr ((c.tile.ptr[a.pa]).toNat + i * a.stride.toNat * 8) + 5 * k) 5)))) := by
  unfold effGfill
  dsimp only
  rw [h, hg]
  exact gfillRows_spec a _ _ c

theorem effGspill_spec (a : GroupArgs) (c : TCtx) (T : Tile) (h : gspillOk a = true) (hg : groupsOpen c.tile a.gbase.toNat (a.gcnt.toNat + 1) = true) :
    ∃ d : TCtx, effGspill a c = { d with tile := closeGroups d.tile a.gbase.toNat (a.gcnt.toNat + 1) } ∧
    d.tile = c.tile ∧ d.base = c.base ∧ d.aborts = c.aborts ∧ d.target = c.target ∧ d.free = c.free ∧ d.evs = c.evs ∧
      d.mem = (List.range (a.gcnt.toNat + 1)).foldl (fun m i => (tcWrite (plainCtx m T c.base) (localAddr ((c.tile.ptr[a.pa]).toNat + i * a.stride.toNat * 8))
          ((smGetD c.tile.groups (a.gbase.toNat + i) []).flatMap (fun v => leBytes 5 v.toNat))).mem) c.mem := by
  refine ⟨_, ?_, gspillRows_spec a (c.tile.ptr[a.pa]).toNat (a.gcnt.toNat + 1) c T⟩
  unfold effGspill
  dsimp only
  rw [h, hg]
  exact if_pos rfl

theorem countRows_out (g n : Nat) (c : TCtx) : ScanCtx c ((List.range n).foldl (fun c i => tcCountNonfinite c (g + i)) c) := by
  induction n with
  | zero => exact .refl c
  | succ n ih =>
    rw [List.range_succ, List.foldl_append]
    exact ih.trans (tcBump_scan _ _ _ _)

/-- One group closed to a format without a scale map, without row statistics: the memory afterwards. -/
theorem effGclose_one (a : GroupArgs) (c : TCtx) (hok : gcloseOk a = true) (ho : groupsOpen c.tile a.gbase.toNat 1 = true)
    (h1 : a.gcnt.toNat + 1 = 1) (h2 : a.mode.getLsbD 1 = false) (h3 : a.fmt.toNat ≠ 0xA) (h4 : a.fmt.toNat ≠ 2) :
    (effGclose a c).mem = (tcPutBits c ((List.range 16).map (fun e =>
      { na := (2 * localAddr ((c.tile.ptr[a.pa]).toNat + 0 * a.stride.toNat * 8) + e * fmtNibbles a.fmt.toNat) % (2 * sramSize),
        nibs := fmtNibbles a.fmt.toNat,
        bits := (convTo a.fmt.toNat .even (satFlag c.tile) false (decW40 ((smGetD c.tile.groups a.gbase.toNat []).getD e 0))).bits }))).mem := by
  unfold effGclose
  dsimp only
  rw [hok, h1, ho]
  rw [if_pos (by rfl)]
  rw [show List.range 1 = [0] from rfl]
  simp only [List.foldl_cons, List.foldl_nil, List.flatMap_cons, List.flatMap_nil, List.append_nil, Nat.add_zero]
  generalize hd : tcCountNonfinite c a.gbase.toNat = d
  have hs : ScanCtx c d := by rw [← hd]; exact tcBump_scan _ _ _ _
  have hoo := tcEncodeAll_out d a.fmt.toNat .even (satFlag d.tile) (gcloseElems d a 0)
  rw [tcEncodeAll_plain _ _ h3 h4] at hoo ⊢
  obtain ⟨e1, e2, e3⟩ := plainElems a.fmt.toNat h3 .even (satFlag d.tile) (gcloseElems d a 0) d []
  generalize (gcloseElems d a 0).foldl (tcPlainElem a.fmt.toNat .even (satFlag d.tile)) (d, []) = r at e1 e2 e3 hoo
  unfold gcloseRow
  rw [h2, if_neg (by decide)]
  have hn : gcloseElems r.1 a 0 = gcloseElems c a 0 := by
    obtain ⟨fl, en, ht⟩ := hoo.tile
    unfold gcloseElems
    rw [ht, hs.tile]
    rfl
  have hn2 : gcloseElems d a 0 = gcloseElems c a 0 := by unfold gcloseElems; rw [hs.tile]
  refine (tcPutBits_mem_congr _ c _ (e1.trans hs.mem) (e2.trans hs.base)).trans ?_
  congr 2
  rw [e3, hn, hn2, hs.tile, List.nil_append, List.filter_eq_self.mpr]
  · unfold gcloseElems
    rw [List.map_map]
    have hr : ∀ x, resultNibs c.tile a.fmt.toNat x = fmtNibbles a.fmt.toNat := by
      intro x; unfold resultNibs resultEntry; rw [if_neg h3, if_neg h4]
    simp only [hr]
    rfl
  · intro b hb
    rw [List.mem_map] at hb
    obtain ⟨o, ho, rfl⟩ := hb
    simp only [List.contains_iff_mem]
    exact List.mem_map.mpr ⟨o, ho, rfl⟩

end Sys2Proof.Machine
end

