-- ==== Sys2Proof/Laws/Messages.lean ====
section
/-!
SUPPORT. What the arrival of a message does (R310-R313).
-/

namespace Sys2Proof.Machine
open Sys2Proof

theorem arrival_exec (m : Msg) (c : Instr) (s : State) (h : arrival m = some c) (hn : forThis m s ∨ (netLive s = true ∧ epCoord m.dst.toNat = s.coord)) :
    exec c s = .next (deliver m s) ∧ typeDefined m.type = true := by
  have hl : netLive s = true ∧ epCoord m.dst.toNat = s.coord := by
    rcases hn with h | h
    · exact ⟨h.1, h.2.1⟩
    · exact h
  have hoff : s.life ≠ .off := by
    intro e
    have := hl.1
    unfold netLive at this
    rw [e] at this
    exact absurd this (by decide)
  have key : ∀ t : BitVec 4, m.type = t → Host.Outcome.next (powered (opArrive t m) s) = (Host.Outcome.next (deliver m s) : Host.Outcome State Fault Refusal) := by
    intro t ht
    rw [powered_on _ _ hoff]
    unfold opArrive
    rw [if_pos hl, ← ht]
  unfold arrival at h
  have tb : ∀ (n : Nat) (hn : n < 16), m.type.toNat = n → m.type = BitVec.ofNat 4 n := by
    intro n hn e
    apply BitVec.eq_of_toNat_eq
    rw [e, BitVec.toNat_ofNat, Nat.mod_eq_of_lt (by omega)]
  split at h
  · rename_i e; cases h; exact ⟨key 1 (tb 1 (by omega) e), by rw [tb 1 (by omega) e]; decide⟩
  · rename_i e; cases h; exact ⟨key 2 (tb 2 (by omega) e), by rw [tb 2 (by omega) e]; decide⟩
  · rename_i e; cases h; exact ⟨key 3 (tb 3 (by omega) e), by rw [tb 3 (by omega) e]; decide⟩
  · rename_i e; cases h; exact ⟨key 4 (tb 4 (by omega) e), by rw [tb 4 (by omega) e]; decide⟩
  · rename_i e; cases h; exact ⟨key 5 (tb 5 (by omega) e), by rw [tb 5 (by omega) e]; decide⟩
  · cases h

/-- What is next of its flow is applied and counted. -/
theorem deliver_next (m : Msg) (s : State) (h : nextInFlow m s) (ht : typeDefined m.type = true) (h5 : m.type ≠ 5) (h9 : m.type ≠ 9)
    (hr : (applyMsg m s).flowsRx = s.flowsRx) (he : (applyMsg m s).epoch = s.epoch) : deliver m s = received m (applyMsg m s) := by
  obtain ⟨⟨_, _, h1⟩, h2, h3, h4, h6, h7⟩ := h
  obtain ⟨u, hu⟩ : ∃ u, u = applyMsg m s := ⟨_, rfl⟩
  rw [← hu] at hr he ⊢
  have hf : u.flowRx (rxKey m) = s.flowRx (rxKey m) := by unfold State.flowRx; rw [hr]
  have hself : ∀ g, (setRx (rxKey m) g u).flowRx (rxKey m) = g := by
    intro g
    unfold State.flowRx setRx
    rw [smGetD_smPut, if_pos rfl]
  unfold deliver
  dsimp only
  rw [ht, h1, h2]
  simp only [Bool.not_true, Bool.false_eq_true, if_false]
  rw [if_pos (.inl h3), if_neg h5, if_neg (fun h => h9 h.1)]
  unfold inOrder
  dsimp only
  rw [h4, BitVec.sub_self, if_pos (by rfl), h7]
  simp only [Bool.false_eq_true, if_false]
  have ha : applyNext (rxKey m) m s = setRx (rxKey m) { u.flowRx (rxKey m) with expected := m.eseq + 1, owed := (u.flowRx (rxKey m)).owed + 1 } u := by
    unfold applyNext
    dsimp only
    rw [← hu, if_pos (.inl he)]
  obtain ⟨v, hv⟩ : ∃ v, v = setRx (rxKey m) { u.flowRx (rxKey m) with expected := m.eseq + 1, owed := (u.flowRx (rxKey m)).owed + 1 } u := ⟨_, rfl⟩
  have hvf : v.flowRx (rxKey m) = { u.flowRx (rxKey m) with expected := m.eseq + 1, owed := (u.flowRx (rxKey m)).owed + 1 } := by rw [hv]; exact hself _
  have hv0 : (v.flowRx (rxKey m)).held.length = 0 := by rw [hvf]; show (u.flowRx (rxKey m)).held.length = 0; rw [hf, h6]; rfl
  rw [ha, ← hv, hv0]
  show (if 16 ≤ (v.flowRx (rxKey m)).owed then sendAck (rxKey m) v else v) = received m u
  unfold received
  dsimp only
  rw [← hv, hvf]

/-- Storing bytes changes memory and what is known uncorrectable alone. -/
theorem allOf_putMem {α : Type} (xs : List α) (f : α → Nat) (g : α → List Byte) (s : State) :
    ∃ a b, allOf xs (fun x => putMem (f x) (g x)) s = { s with mem := a, bad := b } := by
  unfold allOf
  induction xs generalizing s with
  | nil => exact ⟨s.mem, s.bad, rfl⟩
  | cons x xs ih =>
    obtain ⟨a, b, h⟩ := ih (putMem (f x) (g x) s)
    exact ⟨a, b, by rw [List.foldl_cons, h]; rfl⟩

theorem placeOf_stack (a : Nat) (h : a < stackEnd) : placeOf a = .stack (a / dieBytes) := by
  unfold placeOf
  rw [if_pos h]

theorem addToken_frame (k : Nat) (tk : Fin 64) (n : Nat) (s : State) (h : ((s.tile k).tok[tk]).toNat + n ≤ 65535) :
    (addToken k tk n s).flowsRx = s.flowsRx ∧ (addToken k tk n s).epoch = s.epoch := by
  unfold addToken
  dsimp only
  rw [if_neg (by omega)]
  exact ⟨rfl, rfl⟩

theorem netLive_on (s : State) (h : netLive s = true) : s.life ≠ .off := by
  intro e
  unfold netLive at h
  rw [e] at h
  exact absurd h (by decide)

theorem answerAll_owners (xs : List Unacked) (s : State) (h : ∀ u ∈ xs, ∀ o, u.owner = some o → o.1 < 3072) :
    allOf xs (fun u s => match u.owner with
      | none => s
      | some o => if o.1 < 3072 then answerXfer o.1 o.2 s else s) s = allOf (xs.filterMap (fun u => u.owner)) (fun o => answerXfer o.1 o.2) s := by
  unfold allOf
  induction xs generalizing s with
  | nil => rfl
  | cons u xs ih =>
    rw [List.foldl_cons]
    dsimp only
    cases ho : u.owner with
    | none =>
      rw [List.filterMap_cons_none (by exact ho)]
      exact ih s (fun v hv => h v (List.mem_cons_of_mem _ hv))
    | some o =>
      rw [List.filterMap_cons_some (by exact ho), List.foldl_cons]
      dsimp only
      rw [if_pos (h u (List.mem_cons_self ..) o ho)]
      exact ih _ (fun v hv => h v (List.mem_cons_of_mem _ hv))

theorem answerAll_frame (xs : List (Nat × Nat)) (s : State) : ∃ a, allOf xs (fun o => answerXfer o.1 o.2) s = { s with tiles := a } := by
  unfold allOf
  induction xs generalizing s with
  | nil => exact ⟨s.tiles, rfl⟩
  | cons o xs ih =>
    rw [List.foldl_cons]
    obtain ⟨a, h⟩ := ih (answerXfer o.1 o.2 s)
    exact ⟨a, by rw [h]; rfl⟩

theorem stopDrain_none (s : State) (h : ∀ g ∈ s.recov.gens, g.st ≠ 2) : stopDrain s = s := by
  unfold stopDrain
  rw [if_neg]
  rw [List.any_eq_true]
  rintro ⟨g, hg, hb⟩
  have := h g hg
  simp only [Bool.and_eq_true, beq_iff_eq] at hb
  exact this hb.1

theorem tryDrained_none (s : State) (h : ∀ g ∈ s.recov.gens, g.st ≠ 2) : tryDrained s = s := by
  unfold tryDrained
  have : s.recov.gens.find? (fun g => g.st == 2 && !g.stopped) = none := by
    rw [List.find?_eq_none]
    intro g hg
    have := h g hg
    simp [this]
  rw [this]

end Sys2Proof.Machine
end

