-- ==== Sys2Proof/Laws/Ports.lean ====
section
/-!
SUPPORT. Midway ports (R299-R303, R316): what flits, link resets, training and sending leave of a port.
-/

namespace Sys2Proof.Machine
open Sys2Proof

theorem ports_length {s : State} (h : Canonical s) : s.ports.length = 16 := (parts_of_sizes h.sizes).2.2.2.1

/-- Changing a port, among sixteen. -/
theorem modPort_port {s : State} (h : s.ports.length = 16) (p : Nat) (hp : p < 16) (f : MidPort → MidPort) : (modPort p f s).port p = f (s.port p) :=
  getD_setAt_self _ _ _ _ (by omega)

theorem modPort_port_ne (s : State) (p q : Nat) (h : p ≠ q) (f : MidPort → MidPort) : (modPort p f s).port q = s.port q := getD_setAt_ne _ _ _ _ _ h

theorem modPort_length (s : State) (p : Nat) (f : MidPort → MidPort) : (modPort p f s).ports.length = s.ports.length := List.length_set ..

theorem port_of_ports {s t : State} (e : t.ports = s.ports) (p : Nat) : t.port p = s.port p := by unfold State.port; rw [e]

/-- Between two states ports, counts, events and what has left the package differ, and a port's link and state stay. -/
structure LinkSame (p : Nat) (s t : State) : Prop where
  rest : t = { s with regs := t.regs, trunk := t.trunk, evBatch := t.evBatch, ports := t.ports, out := t.out, samples := t.samples }
  size : t.ports.length = s.ports.length
  same : ∃ c u a b, t.port p = { s.port p with counters := c, uncorr := u, rxHeaders := a, txHeaders := b }
  evs : ∀ c, raised c s → raised c t
  outs : ∀ o ∈ s.out, o ∈ t.out

theorem LinkSame.refl (p : Nat) (s : State) : LinkSame p s s := ⟨rfl, rfl, ⟨_, _, _, _, rfl⟩, fun _ h => h, fun _ h => h⟩

theorem LinkSame.trans {p : Nat} {s t u : State} (h : LinkSame p s t) (g : LinkSame p t u) : LinkSame p s u := by
  obtain ⟨c, d, e, f, hs⟩ := h.same
  obtain ⟨c', d', e', f', gs⟩ := g.same
  refine ⟨?_, g.size.trans h.size, ⟨c', d', e', f', by rw [gs, hs]⟩, fun c hc => g.evs c (h.evs c hc), fun o ho => g.outs o (h.outs o ho)⟩
  have := g.rest
  rw [h.rest] at this
  exact this

theorem countPort_same {s : State} (h : s.ports.length = 16) (p i n : Nat) (hp : p < 16) : LinkSame p s (countPort p i n s) :=
  ⟨rfl, modPort_length .., ⟨_, _, _, _, modPort_port h p hp _⟩, fun _ h => h, fun _ h => h⟩

theorem raiseAt_same (p c d t sub op : Nat) (s : State) : LinkSame p s (raiseAt c d t sub op s) := by
  refine ⟨?_, ?_, ?_, fun _ h => raised_keep h, ?_⟩
  all_goals
    obtain ⟨a, b, c2, h, _⟩ := raiseAt_parts c d t sub op s
    rw [h]
  · exact ⟨_, _, _, _, rfl⟩
  · exact fun _ h => h

theorem codeword_same {s : State} (h : s.ports.length = 16) (p : Nat) (hp : p < 16) (c : Option (Fin 16)) : LinkSame p s (codeword p c s) := by
  unfold codeword
  split
  · split
    · exact .refl _ _
    · exact (countPort_same h p _ _ hp).trans (countPort_same ((modPort_length ..).trans h) p _ _ hp)
  · dsimp only
    have h1 := countPort_same h p 2 1 hp
    generalize (if (State.port (countPort p 2 1 s) p).uncorr.1 = _ then _ else 1) = n
    have h2 : LinkSame p (countPort p 2 1 s) (modPort p (fun q => { q with uncorr := ((countPort p 2 1 s).now / 10 ^ 9, n) }) (countPort p 2 1 s)) :=
      ⟨rfl, modPort_length .., ⟨_, _, _, _, modPort_port (h1.size.trans h) p hp _⟩, fun _ h => h, fun _ h => h⟩
    split
    · exact (h1.trans h2).trans (raiseAt_same ..)
    · exact h1.trans h2

theorem sampleHeader_same {s : State} (h : s.ports.length = 16) (p : Nat) (hp : p < 16) (b : Bool) (v q c : Nat) (m : Msg) : LinkSame p s (sampleHeader p b v q c m s) := by
  have h1 : LinkSame p s (modPort p (fun q => if b then { q with txHeaders := q.txHeaders + 1 } else { q with rxHeaders := q.rxHeaders + 1 }) s) := by
    refine ⟨rfl, modPort_length .., ?_, fun _ h => h, fun _ h => h⟩
    rw [modPort_port h p hp]
    cases b
    · exact ⟨_, _, _, _, rfl⟩
    · exact ⟨_, _, _, _, rfl⟩
  unfold sampleHeader
  dsimp only
  obtain ⟨u, hu⟩ : ∃ u, u = modPort p (fun q => if b then { q with txHeaders := q.txHeaders + 1 } else { q with rxHeaders := q.rxHeaders + 1 }) s := ⟨_, rfl⟩
  rw [← hu] at h1 ⊢
  generalize (if b = true then (s.port p).txHeaders else (s.port p).rxHeaders) = n
  split
  · exact h1
  · refine h1.trans ?_
    generalize setAt u.samples _ _ = z
    exact ⟨rfl, modPort_length .., ⟨_, _, _, _, modPort_port (s := { u with samples := z }) (h1.size.trans h) p hp _⟩, fun _ h => h, fun _ h => h⟩

theorem sampleFlit_same {s : State} (h : s.ports.length = 16) (p : Nat) (hp : p < 16) (f : Flit) : LinkSame p s (sampleFlit p f s) := by
  unfold sampleFlit allOf
  generalize f.slots.filter (fun x => x.kind == 1) = xs
  induction xs generalizing s with
  | nil => exact .refl _ _
  | cons x xs ih =>
    have h1 := sampleHeader_same h p hp false x.vc.toNat ((s.port p).link.rx.filter (fun y => decide (y.vc.toNat = x.vc.toNat))).length (nth (s.port p).link.credits x.vc.toNat) (slotMsg x.data [])
    exact h1.trans (ih (h1.size.trans h))

theorem pumpPort_result {s : State} (h : s.ports.length = 16) (p : Nat) (hp : p < 16) (r : Bool) (hu : (s.port p).st = .up) :
    let t := pumpPort p r s
    let l := (s.port p).link
    let m := (t.port p).link
    t = { s with ports := t.ports, out := t.out } ∧ (t.port p).st = .up ∧ (t.port p).fails = (s.port p).fails ∧ (t.port p).lost = (s.port p).lost ∧
      m.accepted = l.accepted ∧ m.accV = l.accV ∧ m.refusing = l.refusing ∧ m.refusals = l.refusals ∧ m.rx = l.rx ∧ (∀ o ∈ s.out, o ∈ t.out) ∧
      (r = true → l.replay.length < 256 → ∃ g, .midway (Fin.ofNat 16 p) g ∈ t.out ∧ g.nak = l.refusing ∧ g.ack = l.accepted) := by
  intro t l m
  obtain ⟨k1, k2, k3, k4, k5⟩ := pumpFuel_keeps midwayLink ((s.port p).link.txq.length + 1) r (s.port p).link
  have ht : t = { modPort p (fun q => { q with link := (pump midwayLink r (s.port p).link).2, counters := setAt q.counters 3 ((nth q.counters 3 + (pump midwayLink r (s.port p).link).1.length) % 2 ^ 64) }) s with
      out := s.out ++ (pump midwayLink r (s.port p).link).1.map (fun f => Out.midway (Fin.ofNat 16 p) f) } := by
    show pumpPort p r s = _
    unfold pumpPort
    dsimp only
    rw [if_pos hu, allOf_emit]
    rfl
  have hx : t.port p = { s.port p with link := (pump midwayLink r (s.port p).link).2, counters := setAt (s.port p).counters 3 ((nth (s.port p).counters 3 + (pump midwayLink r (s.port p).link).1.length) % 2 ^ 64) } := by
    rw [ht]; show (modPort p (fun q => { q with link := (pump midwayLink r (s.port p).link).2, counters := setAt q.counters 3 ((nth q.counters 3 + (pump midwayLink r (s.port p).link).1.length) % 2 ^ 64) }) s).port p = _; exact modPort_port h p hp _
  have ho : t.out = s.out ++ (pump midwayLink r (s.port p).link).1.map (fun f => Out.midway (Fin.ofNat 16 p) f) := by rw [ht]
  have hf : t = { s with ports := t.ports, out := t.out } := by rw [ht]; rfl
  unfold m
  clear_value t
  refine ⟨hf, ?_, ?_, ?_, ?_, ?_, ?_, ?_, ?_, ?_, ?_⟩
  · rw [hx]; exact hu
  · rw [hx]
  · rw [hx]
  · rw [hx]; exact k1
  · rw [hx]; exact k2
  · rw [hx]; exact k3
  · rw [hx]; exact k4
  · rw [hx]; exact k5
  · intro o hm; rw [ho]; exact List.mem_append_left _ hm
  · intro hr hl
    subst hr
    obtain ⟨g, hg, g1, g2⟩ := pump_reply midwayLink l hl
    exact ⟨g, by rw [ho]; exact List.mem_append_right _ (List.mem_map.mpr ⟨g, hg, rfl⟩), g1, g2⟩

theorem showPorts_frame (s : State) : showPorts s = { s with regs := (showPorts s).regs } := rfl

/-- A link reset of a port (R299). -/
theorem linkReset_result {s : State} (h : s.ports.length = 16) (p : Nat) (hp : p < 16) :
    let t := linkReset p s
    (t.port p).st = .training ∧ (t.port p).record = [] ∧ (t.port p).link = { (s.port p).link with tests := 0, refusing := false } ∧ (t.port p).fails = (s.port p).fails ∧
      raised 0x400A t ∧ (∀ c, raised c s → raised c t) ∧ (∀ q, q ≠ p → t.port q = s.port q) ∧ (∀ q, wireOf t q = wireOf s q) ∧
      t.out = s.out ++ List.replicate 16 (.midway (Fin.ofNat 16 p) (testFlit s p)) ∧
      t = { s with regs := t.regs, trunk := t.trunk, evBatch := t.evBatch, ports := t.ports, out := t.out } := by
  obtain ⟨u, hu⟩ : ∃ u, u = raisePort 0x400A p (countPort p 6 1 s) := ⟨_, rfl⟩
  have h1 : LinkSame p s u := by rw [hu]; exact (countPort_same h p 6 1 hp).trans (raiseAt_same ..)
  have hr : raised 0x400A u := by rw [hu]; exact raised_raiseAt ..
  obtain ⟨a, b, c, hp2, hreg⟩ := raiseAt_parts 0x400A (portDie p) 768 p 0 (countPort p 6 1 s)
  have hu2 : u = { countPort p 6 1 s with regs := a, trunk := b, evBatch := c } := by rw [hu]; exact hp2
  have hpos : u.pos = s.pos := by rw [hu2]; exact hreg 0x400005 (by decide)
  have hdesc : u.desc = s.desc := by rw [hu2]; rfl
  have hblob : u.blob 0x102002 = s.blob 0x102002 := by rw [hu2]; rfl
  have hother : ∀ q, q ≠ p → u.port q = s.port q := by
    intro q hq
    have : u.port q = (countPort p 6 1 s).port q := by rw [hu2]; rfl
    rw [this]; exact modPort_port_ne _ _ _ (Ne.symm hq) _
  have hwire : ∀ q, wireOf u q = wireOf s q := by intro q; unfold wireOf; rw [hdesc, hpos]
  have hout : u.out = s.out := by rw [hu2]; rfl
  obtain ⟨v, hv⟩ : ∃ v, v = modPort p (fun q => { q with st := .training, record := [], link := { q.link with tests := 0, refusing := false } }) u := ⟨_, rfl⟩
  have hvp : v.port p = { u.port p with st := .training, record := [], link := { (u.port p).link with tests := 0, refusing := false } } := by
    rw [hv]; exact modPort_port (h1.size.trans h) p hp _
  have htest : testFlit v p = testFlit s p := by
    have hvpos : v.pos = s.pos := by rw [hv]; exact hpos
    have hvw : wireOf v p = wireOf s p := by rw [hv]; exact hwire p
    have hvb : digest128 v = digest128 s := by unfold digest128; rw [hv]; show beNat ((u.blob 0x102002).take 16) = _; rw [hblob]
    unfold testFlit identityRecord
    rw [hvpos, hvw, hvb]
  have hst : startTraining p u = { v with out := v.out ++ List.replicate 16 (.midway (Fin.ofNat 16 p) (testFlit s p)) } := by
    unfold startTraining
    dsimp only
    rw [← hv]
    have : ∀ (n : Nat) (w : State), (∀ x : State, x = { v with out := x.out } → testFlit x p = testFlit s p) → w = { v with out := w.out } →
        (List.range n).foldl (fun s (_ : Nat) => emit (.midway (Fin.ofNat 16 p) (testFlit s p)) s) w = { w with out := w.out ++ List.replicate n (.midway (Fin.ofNat 16 p) (testFlit s p)) } := by
      intro n w hx hw
      induction n with
      | zero => simp
      | succ n ih =>
        rw [List.range_succ, List.foldl_append, ih, List.foldl_cons, List.foldl_nil, List.replicate_succ']
        have : testFlit { w with out := w.out ++ List.replicate n (.midway (Fin.ofNat 16 p) (testFlit s p)) } p = testFlit s p := hx _ (by rw [hw])
        rw [this]
        simp [emit, List.append_assoc]
    exact this 16 v (fun x hx => by rw [hx]; exact htest) rfl
  intro t
  have ht : t = showPorts { v with out := v.out ++ List.replicate 16 (.midway (Fin.ofNat 16 p) (testFlit s p)) } := by
    show linkReset p s = _
    unfold linkReset
    rw [← hu, hst]
  clear_value t
  have htp : ∀ q, t.port q = v.port q := by intro q; rw [ht]; rfl
  obtain ⟨c1, c2, c3, c4, hsame⟩ := h1.same
  have htb : t.evBatch = u.evBatch := by rw [ht, hv]; rfl
  refine ⟨?_, ?_, ?_, ?_, raised_of_batch hr htb, fun c hc => raised_of_batch (h1.evs c hc) htb, ?_, ?_, ?_, ?_⟩
  · rw [htp, hvp]
  · rw [htp, hvp]
  · rw [htp, hvp, hsame]
  · rw [htp, hvp, hsame]
  · intro q hq; rw [htp, hv, modPort_port_ne _ _ _ (Ne.symm hq)]; exact hother q hq
  · intro q
    have e1 : t.desc = u.desc := by rw [ht, hv]; rfl
    have e2 : t.pos = u.pos := by
      rw [ht]
      show smGetD (smPut (smPut (smPut _ _ _) _ _) _ _) 0x400005 0 = _
      rw [smGetD_smPut_ne _ _ _ _ _ (by decide), smGetD_smPut_ne _ _ _ _ _ (by decide), smGetD_smPut_ne _ _ _ _ _ (by decide), hv]
      rfl
    rw [← hwire q]
    unfold wireOf
    rw [e1, e2]
  · rw [ht]
    show v.out ++ _ = _
    rw [hv]
    show u.out ++ _ = _
    rw [hout]
  · have f1 := showPorts_frame { v with out := v.out ++ List.replicate 16 (.midway (Fin.ofNat 16 p) (testFlit s p)) }
    rw [← ht] at f1
    rw [f1]
    have f2 : v = { u with ports := v.ports } := by rw [hv]; rfl
    have f3 : u = { s with regs := u.regs, trunk := u.trunk, evBatch := u.evBatch, ports := u.ports } := by rw [hu2]; rfl
    rw [f2, f3]
/-- With nothing queued there is nothing to route again. -/
theorem requeue_empty (p : Nat) (s : State) (h : (s.port p).link.txq = []) : requeue p s = modPort p (fun m => { m with link := { m.link with txq := [] } }) s := by
  unfold requeue
  dsimp only
  rw [h]
  rfl

theorem handToPort_evBatch (p vc : Nat) (m : Msg) (s : State) : (handToPort p vc m s).evBatch = s.evBatch := by
  have h1 : ∀ (b : Bool) (v q c : Nat) (m : Msg) (s : State), (sampleHeader p b v q c m s).evBatch = s.evBatch := by
    intro b v q c m s
    unfold sampleHeader
    dsimp only
    generalize (if b = true then (s.port p).txHeaders else (s.port p).rxHeaders) = n
    split <;> rfl
  have h2 : ∀ (r : Bool) (s : State), (pumpPort p r s).evBatch = s.evBatch := by
    intro r s
    unfold pumpPort
    dsimp only
    split
    · rw [allOf_emit]; rfl
    · rfl
  unfold handToPort
  dsimp only
  rw [h2]
  exact h1 ..

theorem handToPort_other (p q vc : Nat) (m : Msg) (s : State) (h : q ≠ p) : (handToPort q vc m s).port p = s.port p := by
  have h1 : ∀ (b : Bool) (v x c : Nat) (m : Msg) (s : State), (sampleHeader q b v x c m s).port p = s.port p := by
    intro b v x c m s
    unfold sampleHeader
    dsimp only
    obtain ⟨u, hu⟩ : ∃ u, u = modPort q (fun q => if b then { q with txHeaders := q.txHeaders + 1 } else { q with rxHeaders := q.rxHeaders + 1 }) s := ⟨_, rfl⟩
    have hup : u.port p = s.port p := by rw [hu]; exact modPort_port_ne _ _ _ h _
    rw [← hu]
    generalize (if b = true then (s.port q).txHeaders else (s.port q).rxHeaders) = n
    split
    · exact hup
    · rw [modPort_port_ne _ _ _ h]
      exact hup
  have h2 : ∀ (r : Bool) (s : State), (pumpPort q r s).port p = s.port p := by
    intro r s
    unfold pumpPort
    dsimp only
    split
    · rw [allOf_emit]
      obtain ⟨u, hu⟩ : ∃ u, u = modPort q (fun q_1 => { q_1 with link := (pump midwayLink r (s.port q).link).2, counters := setAt q_1.counters 3 ((nth q_1.counters 3 + (pump midwayLink r (s.port q).link).1.length) % 2 ^ 64) }) s := ⟨_, rfl⟩
      have hup : u.port p = s.port p := by rw [hu]; exact modPort_port_ne _ _ _ h _
      rw [← hu]
      exact hup
    · rfl
  unfold handToPort
  dsimp only
  rw [h2, modPort_port_ne _ _ _ h]
  exact h1 ..

theorem startTraining_result {s : State} (h : s.ports.length = 16) (p : Nat) (hp : p < 16) :
    let t := startTraining p s
    (t.port p).st = .training ∧ (t.port p).fails = (s.port p).fails ∧ t = { s with ports := t.ports, out := t.out } := by
  have : ∀ (n : Nat) (w : State), ∃ o, (List.range n).foldl (fun s (_ : Nat) => emit (.midway (Fin.ofNat 16 p) (testFlit s p)) s) w = { w with out := o } := by
    intro n w
    induction n with
    | zero => exact ⟨w.out, rfl⟩
    | succ n ih =>
      obtain ⟨o, ho⟩ := ih
      rw [List.range_succ, List.foldl_append, ho]
      exact ⟨_, rfl⟩
  intro t
  obtain ⟨o, ho⟩ := this 16 (modPort p (fun q => { q with st := .training, record := [], link := { q.link with tests := 0, refusing := false } }) s)
  have ht : t = { modPort p (fun q => { q with st := .training, record := [], link := { q.link with tests := 0, refusing := false } }) s with out := o } := ho
  clear_value t
  have hx : t.port p = { s.port p with st := .training, record := [], link := { (s.port p).link with tests := 0, refusing := false } } := by
    rw [ht]
    show (modPort p (fun q => { q with st := .training, record := [], link := { q.link with tests := 0, refusing := false } }) s).port p = _
    exact modPort_port h p hp _
  exact ⟨by rw [hx], by rw [hx], by rw [ht]; rfl⟩

end Sys2Proof.Machine
end

