-- ==== Sys2Proof/Laws/Reduction.lean ====
section
/-!
SUPPORT. The arithmetic of a reduction (R330, R331, R333), and what a message at a position does.
-/

namespace Sys2Proof.Machine
open Sys2Proof

/-- Rounding a magnitude to nearest, ties to even. -/
theorem quantise_even (neg : Bool) (m sh : Nat) :
    let r := (quantise .even neg m sh).1
    (r * 2 ^ sh ≤ m → 2 * (m - r * 2 ^ sh) ≤ 2 ^ sh) ∧ (m ≤ r * 2 ^ sh → 2 * (r * 2 ^ sh - m) ≤ 2 ^ sh) ∧
    (2 * (m - r * 2 ^ sh) = 2 ^ sh ∨ 2 * (r * 2 ^ sh - m) = 2 ^ sh → r % 2 = 0) := by
  have hp : 0 < 2 ^ sh := Nat.two_pow_pos sh
  have hdm := Nat.div_add_mod m (2 ^ sh)
  have hlt := Nat.mod_lt m hp
  have e : m >>> sh = m / 2 ^ sh := Nat.shiftRight_eq_div_pow m sh
  intro r
  have hr : r = (quantise .even neg m sh).1 := rfl
  unfold quantise at hr
  dsimp only at hr
  rw [e] at hr
  obtain ⟨k, hk⟩ : ∃ k, k = m / 2 ^ sh := ⟨_, rfl⟩
  obtain ⟨t, htd⟩ : ∃ t, t = m % 2 ^ sh := ⟨_, rfl⟩
  obtain ⟨P, hP⟩ : ∃ P, P = 2 ^ sh := ⟨_, rfl⟩
  rw [← hk, ← htd, ← hP] at hdm
  rw [← htd, ← hP] at hlt
  rw [← hk, ← htd, ← hP] at hr
  rw [← hP] at hp ⊢
  have hc : k * P = P * k := Nat.mul_comm ..
  have hc1 : (k + 1) * P = P * k + P := by rw [Nat.add_mul, Nat.one_mul, hc]
  by_cases h0 : t = 0
  · rw [if_pos h0] at hr
    have : r = k := hr
    rw [this, hc]
    refine ⟨by omega, by omega, by omega⟩
  · rw [if_neg h0] at hr
    dsimp only at hr
    by_cases h1 : (decide (2 * t > P) || (decide (2 * t = P) && decide (k % 2 = 1))) = true
    · rw [if_pos h1] at hr
      have h2 : 2 * t > P ∨ (2 * t = P ∧ k % 2 = 1) := by simpa using h1
      rw [hr, hc1]
      refine ⟨by omega, by omega, by omega⟩
    · rw [if_neg h1] at hr
      have h2 : ¬ (2 * t > P ∨ (2 * t = P ∧ k % 2 = 1)) := by simpa using h1
      rw [hr, hc]
      refine ⟨by omega, by omega, by omega⟩

/-- A value re-expressed at a code at least its own. -/
theorem reexpress_signed (e a : Nat) (g : Int) (h : e ≤ a) (ha : a < 255) :
    ∃ n : Nat, reexpress e a g = signedMag (decide (g < 0)) n ∧ n = (quantise .even (decide (g < 0)) g.natAbs (a - e)).1 := by
  unfold reexpress
  rw [if_neg (by omega)]
  by_cases hg : g = 0
  · subst hg
    refine ⟨_, ?_, rfl⟩
    unfold ofInt roundInt quantiseAt
    rw [if_pos rfl]
    dsimp only
    by_cases he : e = a
    · subst he
      rw [if_pos (by omega), Nat.sub_self]
      simp [quantise, signedMag]
    · rw [if_neg (by omega)]
      have : ((0 : Int) - (↑e - ↑a)).toNat = a - e := by omega
      rw [this]
      simp [signedMag]
  · refine ⟨_, ?_, rfl⟩
    unfold ofInt roundInt quantiseAt
    rw [if_neg hg]
    dsimp only
    by_cases he : e = a
    · subst he
      rw [if_pos (by omega), Nat.sub_self]
      have : (((e : Int) - e) - 0).toNat = 0 := by omega
      rw [this]
      simp [quantise, Nat.mod_one]
    · rw [if_neg (by omega)]
      have : ((0 : Int) - (↑e - ↑a)).toNat = a - e := by omega
      rw [this]

theorem foldl_add_int (xs : List Int) (z : Int) : xs.foldl (fun x1 x2 => x1 + x2) z = z + xs.sum := by
  induction xs generalizing z with
  | nil => simp
  | cons x xs ih => rw [List.foldl_cons, ih, List.sum_cons, add_assoc]

theorem tally_eq (xs : List Int) : (tally xs : Int) = xs.sum % 255 := by
  unfold tally
  rw [foldl_add_int, zero_add]
  exact Int.toNat_of_nonneg (Int.emod_nonneg _ (by norm_num))

theorem addInts_length (xs ys : List Int) (n : Nat) (h1 : xs.length = n) (h2 : ys.length = n) : (addInts xs ys).length = n := by
  unfold addInts
  rw [List.length_map, List.length_zip, h1, h2, Nat.min_self]

theorem addInts_getElem (xs ys : List Int) (i : Nat) (h : i < (addInts xs ys).length) (h1 : i < xs.length) (h2 : i < ys.length) :
    (addInts xs ys)[i] = xs[i] + ys[i] := by
  simp only [addInts, List.getElem_map, List.getElem_zip]

theorem foldl_addInts (n : Nat) (xss : List (List Int)) (z : List Int) (hz : z.length = n) (h : ∀ xs ∈ xss, xs.length = n) :
    (xss.foldl addInts z).length = n ∧ ∀ i, i < n → (xss.foldl addInts z).getD i 0 = z.getD i 0 + (xss.map (fun xs => xs.getD i 0)).sum := by
  induction xss generalizing z with
  | nil => exact ⟨hz, fun i _ => by simp⟩
  | cons xs xss ih =>
    have hx := h xs (List.mem_cons_self ..)
    obtain ⟨a, b⟩ := ih (addInts z xs) (addInts_length _ _ _ hz hx) (fun y hy => h y (List.mem_cons_of_mem _ hy))
    refine ⟨a, fun i hi => ?_⟩
    rw [List.foldl_cons, b i hi, List.map_cons, List.sum_cons, ← add_assoc]
    congr 1
    rw [List.getD_eq_getElem?_getD, List.getD_eq_getElem?_getD, List.getD_eq_getElem?_getD, List.getElem?_eq_getElem (by rw [addInts_length _ _ _ hz hx]; exact hi),
      List.getElem?_eq_getElem (by omega), List.getElem?_eq_getElem (by omega)]
    exact addInts_getElem _ _ _ _ _ _

theorem addInts_sum (xs ys : List Int) (h : xs.length = ys.length) : (addInts xs ys).sum = xs.sum + ys.sum := by
  unfold addInts
  induction xs generalizing ys with
  | nil => cases ys with
    | nil => rfl
    | cons _ _ => simp at h
  | cons x xs ih => cases ys with
    | nil => simp at h
    | cons y ys =>
      rw [List.zip_cons_cons, List.map_cons, List.sum_cons, ih ys (by simpa using h), List.sum_cons, List.sum_cons]
      ring

theorem foldl_addInts_sum (n : Nat) (xss : List (List Int)) (z : List Int) (hz : z.length = n) (h : ∀ xs ∈ xss, xs.length = n) :
    (xss.foldl addInts z).sum = z.sum + (xss.map List.sum).sum := by
  induction xss generalizing z with
  | nil => simp
  | cons xs xss ih =>
    have hx := h xs (List.mem_cons_self ..)
    rw [List.foldl_cons, ih (addInts z xs) (addInts_length _ _ _ hz hx) (fun y hy => h y (List.mem_cons_of_mem _ hy)), addInts_sum _ _ (hz.trans hx.symm), List.map_cons, List.sum_cons,
      add_assoc]

theorem tally_sums (xss : List (List Int)) : ((xss.map List.sum).sum % 255 : Int) = (((xss.map tally).sum % 255 : Nat) : Int) := by
  induction xss with
  | nil => rfl
  | cons xs xss ih =>
    rw [List.map_cons, List.sum_cons, List.map_cons, List.sum_cons]
    have := tally_eq xs
    push_cast at ih ⊢
    omega

theorem tilesLive_on (s : State) (h : tilesLive s = true) : s.life ≠ .off := by
  intro e
  unfold tilesLive runsTiles at h
  rw [e] at h
  exact absurd h (by decide)

theorem drainReduce_empty (n : Nat) (s : State) (h : s.reduce.queue = []) : drainReduce n s = s := by
  cases n with
  | zero => rfl
  | succ n => unfold drainReduce; rw [h]

theorem reduceCommand_exec (d : Fin 4) (m : ReduceMsg) (c : Instr) (s : State) (h : reduceCommand d m = some c) (hl : tilesLive s = true) :
    exec c s = .next (arriveReduce d m s) := by
  have key : ∀ k, m.op = k → Host.Outcome.next (powered (opReduceMsg k d m) s) = (Host.Outcome.next (arriveReduce d m s) : Host.Outcome State Fault Refusal) := by
    intro k hk
    rw [powered_on _ _ (tilesLive_on s hl)]
    unfold opReduceMsg
    rw [if_pos hl, ← hk]
  unfold reduceCommand at h
  split at h
  · rename_i e; cases h; exact key 1 e
  · rename_i e; cases h; exact key 2 e
  · rename_i e; cases h; exact key 3 e
  · rename_i e; cases h; exact key 4 e
  · rename_i e; cases h; exact key 5 e
  · rename_i e; cases h; exact key 6 e
  · rename_i e; cases h; exact key 7 e
  · cases h

theorem arriveReduce_now (d : Fin 4) (m : ReduceMsg) (s : State) (h : m.stag = s.dieTags.getD d 0) : arriveReduce d m s = drainReduce reduceFuel (applyReduce d m s) := by
  unfold arriveReduce
  dsimp only
  rw [if_pos h]

theorem applyReduce_at (d : Fin 4) (m : ReduceMsg) (i : Nat) (n : Node) (s : State) (hl : m.layer.toNat < 0x8000) (h : nodeAt s d m.layer.toNat m.shard.toNat = some i)
    (hn : s.job.nodes[i]? = some n) (h2 : m.op ≠ 2) (h7 : m.op ≠ 7) : applyReduce d m s = (match m.op with
      | 1 => takeCodes i n m s
      | 3 => takeValues i n m s
      | 4 => takeValues i n m s
      | 5 => takeHash i n m s
      | 6 => takeValues i n m s
      | _ => noPosition d s) := by
  unfold applyReduce
  rw [if_neg (by omega), if_neg h2, if_neg h7, h]
  show (match (s.job.nodes[i]?).map (fun n => (i, n)) with | none => _ | some (i, n) => _) = _
  rw [hn]
  rfl

theorem nodeRt_set (i : Nat) (r : NodeRt) (s : State) : (setNodeRt i r s).nodeRt i = r := by
  unfold State.nodeRt setNodeRt
  dsimp only
  rw [smGetD_smPut, if_pos rfl]

theorem raiseUnit_frame (code unit sub op : Nat) (s : State) : raised code (raiseUnit code unit sub op s) ∧
    (∀ c, raised c s → raised c (raiseUnit code unit sub op s)) ∧ (∀ q, q ≠ 0x702008 → (raiseUnit code unit sub op s).reg q = s.reg q) ∧
    ∃ a b c, raiseUnit code unit sub op s = { s with regs := a, trunk := b, evBatch := c } := by
  unfold raiseUnit
  dsimp only
  obtain ⟨a2, b2, h2, h3⟩ := trunkPost_regs 1 1 (epDie unit) (eventBits { code := code, subunit := sub % 256, unit := unit, operation := op % 2 ^ 32, time := s.now, temp := wrapInt 16 (hottest s (epDie unit)), volt := s.reg (dieKey 0 (0x200405 + epDie unit)) % 65536 }) s
  rw [h2]
  unfold batchEvent
  split
  · rename_i hc
    obtain ⟨y, hy, hyc⟩ := List.any_eq_true.mp hc.2
    have hyc' : y.code = code := by
      simp only [Bool.and_eq_true, beq_iff_eq] at hyc
      exact hyc.1
    refine ⟨⟨_, List.mem_map.mpr ⟨y, hy, rfl⟩, ?_⟩, fun x hx => ?_, h3, _, _, _, rfl⟩
    · split
      · exact hyc'
      · exact hyc'
    · obtain ⟨z, hz, hzc⟩ := hx
      refine ⟨_, List.mem_map.mpr ⟨z, hz, rfl⟩, ?_⟩
      split
      · exact hzc
      · exact hzc
  · refine ⟨⟨_, List.mem_append_right _ (List.mem_singleton_self _), rfl⟩, fun x hx => ?_, h3, _, _, _, rfl⟩
    obtain ⟨z, hz, hzc⟩ := hx
    exact ⟨z, List.mem_append_left _ hz, hzc⟩

/-- What aborting an attempt does (R91, R239). -/
theorem abortAttempt_result (c : Nat) (s : State) : (abortAttempt c s).evBatch = s.evBatch ∧ (abortAttempt c s).reduce = s.reduce ∧ (abortAttempt c s).step.engine = s.step.engine ∧
    (s.step.phase = .attempt → c ∈ (abortAttempt c s).step.causes) ∧ (∀ q, q ≠ 0x500005 → q ≠ 0x500006 → (abortAttempt c s).reg q = s.reg q) := by
  unfold abortAttempt
  dsimp only
  by_cases h : s.step.phase = .attempt
  · rw [if_pos h]
    have hm : c ∈ (if s.step.causes.contains c then s.step.causes else s.step.causes ++ [c]) := by
      split
      · rename_i hc; simpa using hc
      · exact List.mem_append_right _ (List.mem_singleton_self _)
    split
    · refine ⟨rfl, rfl, rfl, fun _ => hm, fun q h1 h2 => ?_⟩
      rw [bumpReg_reg_ne _ _ _ _ h1.symm]
      exact setReg_reg_ne _ _ _ _ h2.symm
    · exact ⟨rfl, rfl, rfl, fun _ => hm, fun q h1 h2 => setReg_reg_ne _ _ _ _ h2.symm⟩
  · rw [if_neg h]
    exact ⟨rfl, rfl, rfl, fun h' => absurd h' h, fun _ _ _ => rfl⟩

theorem progress_waits (i : Nat) (n : Node) (s : State) (h : (effective (s.nodeRt i)).length < n.nchild) : progress i n s = s := by
  unfold progress
  dsimp only
  have h1 : decide ((effective (s.nodeRt i)).length < n.nchild) = true := decide_eq_true h
  rw [h1]
  simp only [Bool.or_true, Bool.true_or, if_true]
  rw [h1]
  simp only [Bool.or_true, Bool.true_or, if_true]

end Sys2Proof.Machine
end

