-- ==== Sys2Proof/Laws/Sampling.lean ====
section
/-!
SUPPORT. What draws with replacement choose (R181, R186).
-/

namespace Sys2Proof.Machine
open Sys2Proof

theorem sum_take_succ (ws : List Nat) (p : Nat) : (ws.take (p + 1)).sum = (ws.take p).sum + nth ws p := by
  induction ws generalizing p with
  | nil => simp [nth]
  | cons w ws ih =>
    cases p with
    | zero => simp [nth]
    | succ p =>
      rw [List.take_succ_cons, List.sum_cons, ih, List.take_succ_cons, List.sum_cons, Nat.add_assoc]
      rfl

theorem sumExceeds_some (ws : List Nat) (t acc p : Nat) (ha : acc ≤ t) (h : t < acc + ws.sum) :
    ∃ q, sumExceeds ws t acc p = some (p + q) ∧ q < ws.length ∧ t < acc + (ws.take (q + 1)).sum ∧ acc + (ws.take q).sum ≤ t := by
  induction ws generalizing acc p with
  | nil => rw [List.sum_nil] at h; omega
  | cons w ws ih =>
    unfold sumExceeds
    split
    · rename_i hw
      exact ⟨0, rfl, by simp, by simpa using hw, by simpa using ha⟩
    · rename_i hw
      obtain ⟨q, h1, h2, h3, h4⟩ := ih (acc + w) (p + 1) (by omega) (by rw [List.sum_cons] at h; omega)
      refine ⟨q + 1, by rw [h1]; congr 1; omega, by simpa using h2, ?_, ?_⟩
      · rw [List.take_succ_cons, List.sum_cons]; omega
      · rw [List.take_succ_cons, List.sum_cons]; omega

theorem take_sum_le (ws : List Nat) (a b : Nat) (h : a ≤ b) : (ws.take a).sum ≤ (ws.take b).sum := by
  obtain ⟨k, rfl⟩ := Nat.exists_eq_add_of_le h
  rw [List.take_add, List.sum_append]
  omega

/-- The position a weighted draw finds from a sum between those before and after it. -/
theorem position_facts (ws : List Nat) (p t : Nat) (h1 : (ws.take p).sum ≤ t) (h2 : t < (ws.take (p + 1)).sum) :
    p < ws.length ∧ t < (ws.take (p + 1)).sum ∧ (∀ q < p, (ws.take (q + 1)).sum ≤ t) ∧ 0 < nth ws p := by
  refine ⟨?_, h2, fun q hq => le_trans (take_sum_le ws (q + 1) p (by omega)) h1, ?_⟩
  · by_contra hn
    rw [List.take_of_length_le (by omega)] at h1 h2
    omega
  · rw [sum_take_succ] at h2; omega

theorem foldl_add_sum (ws : List Nat) : ws.foldl (fun x1 x2 => x1 + x2) 0 = ws.sum := by
  rw [List.sum_eq_foldl]

theorem weightedPos_plain (ws : List Nat) (u : Nat) (hu : u < 2 ^ 64) (hw : 0 < ws.sum) :
    let p := (sumExceeds ws (u * ws.sum / 2 ^ 64) 0 0).getD 0
    (ws.take p).sum ≤ u * ws.sum / 2 ^ 64 ∧ u * ws.sum / 2 ^ 64 < (ws.take (p + 1)).sum := by
  have ht : u * ws.sum / 2 ^ 64 < ws.sum := by
    rw [Nat.div_lt_iff_lt_mul (by norm_num), Nat.mul_comm]
    exact Nat.mul_lt_mul_of_pos_left hu hw
  obtain ⟨q, h1, h2, h3, h4⟩ := sumExceeds_some ws (u * ws.sum / 2 ^ 64) 0 0 (Nat.zero_le _) (by omega)
  intro p
  have hp : p = q := by show (sumExceeds ws (u * ws.sum / 2 ^ 64) 0 0).getD 0 = q; rw [h1]; simp
  rw [hp]
  omega

/-- The last of the first `n` indices that meet a predicate which index 0 meets. -/
theorem last_filter (P : Nat → Bool) (n : Nat) (h0 : P 0 = true) (hn : 0 < n) :
    let s := ((List.range n).filter P).getLast?.getD 0
    s < n ∧ P s = true ∧ ∀ j, s < j → j < n → P j = false := by
  induction n with
  | zero => omega
  | succ n ih =>
    intro s
    have hs : s = ((List.range (n + 1)).filter P).getLast?.getD 0 := rfl
    rw [List.range_succ, List.filter_append] at hs
    by_cases hp : P n = true
    · have : s = n := by
        rw [hs, List.filter_cons_of_pos hp]
        simp
      rw [this]
      exact ⟨by omega, hp, fun j h1 h2 => by omega⟩
    · have hpn : P n = false := by simpa using hp
      have e : ((List.range n).filter P ++ [n].filter P) = (List.range n).filter P := by
        rw [List.filter_cons_of_neg (by rw [hpn]; exact Bool.false_ne_true)]
        simp
      rw [e] at hs
      by_cases hz : n = 0
      · subst hz
        rw [h0] at hpn
        exact absurd hpn (by decide)
      · obtain ⟨a, b, c⟩ := ih (Nat.pos_of_ne_zero hz)
        rw [← hs] at a b c
        refine ⟨by omega, b, fun j h1 h2 => ?_⟩
        by_cases hj : j = n
        · rw [hj]; exact hpn
        · exact c j h1 (by omega)

theorem rdAll_length {α β : Type} (f : α → Rd β) (xs : List α) (ys : List β) (h : rdAll f xs = .ok ys) : ys.length = xs.length := by
  induction xs generalizing ys with
  | nil =>
    unfold rdAll at h
    cases h
    rfl
  | cons x xs ih =>
    unfold rdAll at h
    cases hf : f x with
    | error e => rw [hf] at h; cases h
    | ok y =>
      rw [hf] at h
      cases hr : rdAll f xs with
      | error e => rw [hr] at h; cases h
      | ok r =>
        rw [hr] at h
        cases h
        rw [List.length_cons, ih r hr, List.length_cons]

/-- A weighted draw over a hub whose stored sums are those of its weights. -/
theorem weightedPos_hub (e : Nat) (w : Option Nat) (ws : List Nat) (segs : List (Nat × Nat)) (u : Nat) (hu : u < 2 ^ 64) (hw : 0 < ws.sum)
    (hl : segs.length = ceilDiv ws.length 4096) (hc : ∀ i < segs.length, (segs.getD i (0, 0)).2 = (ws.take (4096 * i)).sum) :
    let p := weightedPos (.hub e w ws.length ws.sum segs) ws u
    (ws.take p).sum ≤ u * ws.sum / 2 ^ 64 ∧ u * ws.sum / 2 ^ 64 < (ws.take (p + 1)).sum := by
  obtain ⟨t, htd⟩ : ∃ t, t = u * ws.sum / 2 ^ 64 := ⟨_, rfl⟩
  have ht : t < ws.sum := by
    rw [htd, Nat.div_lt_iff_lt_mul (by norm_num), Nat.mul_comm]
    exact Nat.mul_lt_mul_of_pos_left hu hw
  have hlen : 0 < ws.length := by
    by_contra hn
    have : ws = [] := List.length_eq_zero_iff.mp (by omega)
    rw [this, List.sum_nil] at hw
    omega
  have hn : 0 < segs.length := by rw [hl]; unfold ceilDiv; omega
  obtain ⟨P, hP⟩ : ∃ P : Nat → Bool, P = fun i => decide ((segs.getD i (0, 0)).2 ≤ t) := ⟨_, rfl⟩
  obtain ⟨s, hs⟩ : ∃ s, s = ((List.range segs.length).filter P).getLast?.getD 0 := ⟨_, rfl⟩
  obtain ⟨h1, h2, h3⟩ := last_filter P segs.length (by rw [hP]; dsimp only; rw [hc 0 hn, decide_eq_true_eq]; simp) hn
  rw [← hs] at h1 h2 h3
  have hcum : (segs.getD s (0, 0)).2 = (ws.take (4096 * s)).sum := hc s h1
  have h2' : (ws.take (4096 * s)).sum ≤ t := by
    rw [hP] at h2
    rw [← hcum]
    exact of_decide_eq_true h2
  have hnext : t < (ws.take (4096 * s + 4096)).sum := by
    by_cases hlast : s + 1 < segs.length
    · have := h3 (s + 1) (by omega) hlast
      rw [hP] at this
      dsimp only at this
      rw [hc _ hlast] at this
      have := of_decide_eq_false this
      rw [show 4096 * (s + 1) = 4096 * s + 4096 by omega] at this
      omega
    · have hle : ws.length ≤ 4096 * s + 4096 := by
        have : segs.length = s + 1 := by omega
        rw [hl] at this
        unfold ceilDiv at this
        omega
      rw [List.take_of_length_le hle]
      exact ht
  have hsum : (ws.take (4096 * s + 4096)).sum = (ws.take (4096 * s)).sum + ((ws.drop (4096 * s)).take 4096).sum := by
    rw [List.take_add, List.sum_append]
  obtain ⟨q, g1, g2, g3, g4⟩ := sumExceeds_some ((ws.drop (4096 * s)).take 4096) (t - (ws.take (4096 * s)).sum) 0 0 (Nat.zero_le _) (by omega)
  intro p
  have hp : p = 4096 * s + q := by
    show weightedPos (.hub e w ws.length ws.sum segs) ws u = _
    unfold weightedPos
    dsimp only
    rw [← htd, ← hP, ← hs, hcum, g1]
    simp
  rw [List.length_take] at g2
  have hq : q < 4096 := by omega
  have e1 : ∀ j, j ≤ 4096 → (ws.take (4096 * s + j)).sum = (ws.take (4096 * s)).sum + (((ws.drop (4096 * s)).take 4096).take j).sum := by
    intro j hj
    rw [List.take_add, List.sum_append, List.take_take, Nat.min_eq_left hj]
  rw [hp, ← htd, Nat.add_assoc, e1 q (by omega), e1 (q + 1) (by omega)]
  omega

end Sys2Proof.Machine
end

section
/-!
What a package in OFF does with its commands (R13, R408), and what it holds right after reset (R13, R396).
-/

namespace Sys2Proof.Machine
open Sys2Proof

/-- R13: a command that is neither pins, boot nor test access either needs power for its whole effect, or is a control
core's access, the one command whose outcome may be a fault (R16). -/
theorem exec_powered_or_coreAccess (c : Instr) (h : actsInOff c = false) :
    (∃ f : State → State, ∀ s, exec c s = .next (powered f s)) ∨
      ∃ d core super addr a, c = .controlCoreAccess d core super addr a := by
  cases c with
  | pwrgdAssert | pwrgdFall | resetNAssert | boot | dieReportTimeout => cases h
  | trstN | bypass | idcode | samplePreload | extest | clamp | trunkread => cases h
  | controlCoreAccess d core super addr a => exact .inr ⟨d, core, super, addr, a, rfl⟩
  | _ => exact .inl ⟨_, fun _ => rfl⟩

/-- The control cores have no power in OFF. -/
theorem execControlCoreAccess_off (d : Fin 4) (core : Fin 8) (super : Bool) (addr : BitVec 57) (a : CoreAccess) (s : State)
    (hoff : s.life = .off) : execControlCoreAccess d core super addr a s = .next s := by
  simp [execControlCoreAccess, opCoreAccess, hoff]

/-- Settles O28: in OFF what needs power does nothing, and a control core's access neither. -/
theorem offInert : Obligations.OffInert := by
  intro c s hoff hc
  obtain ⟨f, hf⟩ | ⟨d, core, super, addr, a, rfl⟩ := exec_powered_or_coreAccess c hc
  · rw [hf, powered_off f s hoff]
  · exact execControlCoreAccess_off d core super addr a s hoff

/-- The hypotheses of O28 are met: a package right after reset takes no doorbell of the host. -/
theorem exec_doorbell_reset (w : BitVec 64) : exec (.doorbell w) State.reset = .next State.reset :=
  offInert (.doorbell w) State.reset rfl rfl

/-- Right after reset an entry holds the default of the dictionary, and 0 where it gives none (R396). -/
theorem reset_reg (k : Nat) : State.reset.reg k = smGetD dictDefaults k 0 := rfl

/-- Every byte is zero after reset: stacks by R252, tile SRAM by assumption 2. -/
theorem reset_readByte (a : Nat) : readByte State.reset.mem a = 0 := rfl

/-- The page table is empty after reset (R258). -/
theorem reset_pageAttr (a : Nat) : pageAttr State.reset a = 0 := rfl

/-- Every tile is a fresh one after reset (R67). -/
theorem reset_tile (k : Nat) : State.reset.tile k = {} := rfl

/-- Settles O23: maps with nothing listed read as their default, and the entries as the dictionary gives them. -/
theorem resetValues : Obligations.ResetValues := by
  refine ⟨rfl, rfl, rfl, reset_readByte, reset_pageAttr, fun k => ?tile, rfl, rfl, ?entries⟩
  case tile => rw [reset_tile]
  case entries =>
    simp only [reset_reg]
    decide

end Sys2Proof.Machine
end

section
/-!
The canonical form of the package's data (R15, R17, R252): every command keeps it, so does an idle microsecond, and so every
run from reset has it. And the one command that may stop instead of answering a next state (R16).
-/

namespace Sys2Proof.Machine
open Sys2Proof

/-- Every command keeps the canonical form: one law for each arm of the dispatch. -/
theorem exec_canon (c : Instr) (s t : State) (hs : Canonical s) (h : exec c s = .next t) : Canonical t := by
  cases c with
  | nop r w => exact execNop_canon r w s t hs h
  | loop r w lvl cnt stop => exact execLoop_canon r w lvl cnt stop s t hs h
  | jump r w dest => exact execJump_canon r w dest s t hs h
  | call r w dest => exact execCall_canon r w dest s t hs h
  | ret r w => exact execRet_canon r w s t hs h
  | brm r w mbit sense dest => exact execBrm_canon r w mbit sense dest s t hs h
  | wait r w tk cnt => exact execWait_canon r w tk cnt s t hs h
  | stepend r w => exact execStepend_canon r w s t hs h
  | swap r w a => exact execSwap_canon r w a s t hs h
  | setp r w pn imm => exact execSetp_canon r w pn imm s t hs h
  | addp r w pn simm => exact execAddp_canon r w pn simm s t hs h
  | setx r w xn sl imm => exact execSetx_canon r w xn sl imm s t hs h
  | addx r w xn simm => exact execAddx_canon r w xn simm s t hs h
  | ldw r w a => exact execLdw_canon r w a s t hs h
  | mm r w a => exact execMm_canon r w a s t hs h
  | gopen r w a => exact execGopen_canon r w a s t hs h
  | gclose r w a => exact execGclose_canon r w a s t hs h
  | gspill r w a => exact execGspill_canon r w a s t hs h
  | gfill r w a => exact execGfill_canon r w a s t hs h
  | gdrop r w a => exact execGdrop_canon r w a s t hs h
  | mov r w a => exact execMov_canon r w a s t hs h
  | add r w a => exact execAdd_canon r w a s t hs h
  | sub r w a => exact execSub_canon r w a s t hs h
  | mul r w a => exact execMul_canon r w a s t hs h
  | fma r w a => exact execFma_canon r w a s t hs h
  | max r w a => exact execMax_canon r w a s t hs h
  | min r w a => exact execMin_canon r w a s t hs h
  | abs r w a => exact execAbs_canon r w a s t hs h
  | neg r w a => exact execNeg_canon r w a s t hs h
  | cmpgt r w a => exact execCmpgt_canon r w a s t hs h
  | cvt r w a => exact execCvt_canon r w a s t hs h
  | rsum r w a => exact execRsum_canon r w a s t hs h
  | rmax r w a => exact execRmax_canon r w a s t hs h
  | exp r w a => exact execExp_canon r w a s t hs h
  | exp2 r w a => exact execExp2_canon r w a s t hs h
  | log r w a => exact execLog_canon r w a s t hs h
  | log2 r w a => exact execLog2_canon r w a s t hs h
  | rcp r w a => exact execRcp_canon r w a s t hs h
  | sqrt r w a => exact execSqrt_canon r w a s t hs h
  | rsqrt r w a => exact execRsqrt_canon r w a s t hs h
  | tanh r w a => exact execTanh_canon r w a s t hs h
  | sigm r w a => exact execSigm_canon r w a s t hs h
  | erf r w a => exact execErf_canon r w a s t hs h
  | sin r w a => exact execSin_canon r w a s t hs h
  | cos r w a => exact execCos_canon r w a s t hs h
  | ldq r w a => exact execLdq_canon r w a s t hs h
  | get r w a => exact execGet_canon r w a s t hs h
  | put r w a => exact execPut_canon r w a s t hs h
  | signal r w a => exact execSignal_canon r w a s t hs h
  | sample r w a => exact execSample_canon r w a s t hs h
  | gather r w a => exact execGather_canon r w a s t hs h
  | gatherAndPool r w a => exact execGatherAndPool_canon r w a s t hs h
  | scatterAdd r w a => exact execScatterAdd_canon r w a s t hs h
  | sortAndMerge r w a => exact execSortAndMerge_canon r w a s t hs h
  | gradientEntry d tag table shard gk vals src => exact execGradientEntry_canon d tag table shard gk vals src s t hs h
  | getComplete r id => exact execGetComplete_canon r id s t hs h
  | putComplete r id => exact execPutComplete_canon r id s t hs h
  | swapComplete r id => exact execSwapComplete_canon r id s t hs h
  | descriptorComplete r id => exact execDescriptorComplete_canon r id s t hs h
  | tokenArrival r tag item => exact execTokenArrival_canon r tag item s t hs h
  | pageInComplete r => exact execPageInComplete_canon r s t hs h
  | stepStart r => exact execStepStart_canon r s t hs h
  | forwardBarrier => exact execForwardBarrier_canon s t hs h
  | stepWatchdogExpiry => exact execStepWatchdogExpiry_canon s t hs h
  | missingDecision => exact execMissingDecision_canon s t hs h
  | packageVote => exact execPackageVote_canon s t hs h
  | vote child v => exact execVote_canon child v s t hs h
  | commit d => exact execCommit_canon d s t hs h
  | rerun d => exact execRerun_canon d s t hs h
  | skip d => exact execSkip_canon d s t hs h
  | holdDecision d => exact execHoldDecision_canon d s t hs h
  | retirement => exact execRetirement_canon s t hs h
  | servingStepInterval => exact execServingStepInterval_canon s t hs h
  | releaseWaitExpiry cseq => exact execReleaseWaitExpiry_canon cseq s t hs h
  | tightropeFlit e high f => exact execTightropeFlit_canon e high f s t hs h
  | tightropeLinkReset e high => exact execTightropeLinkReset_canon e high s t hs h
  | tightropeTraining e => exact execTightropeTraining_canon e s t hs h
  | halfMaskAdvertisement e high mask => exact execHalfMaskAdvertisement_canon e high mask s t hs h
  | advertisementTimeout e => exact execAdvertisementTimeout_canon e s t hs h
  | handOverReport e high => exact execHandOverReport_canon e high s t hs h
  | retrainSelectedEdge d => exact execRetrainSelectedEdge_canon d s t hs h
  | midwayFlit p f c0 c1 => exact execMidwayFlit_canon p f c0 c1 s t hs h
  | codewordLockLoss p => exact execCodewordLockLoss_canon p s t hs h
  | midwayTraining p lock far => exact execMidwayTraining_canon p lock far s t hs h
  | retrainPort p => exact execRetrainPort_canon p s t hs h
  | messageForward p vc => exact execMessageForward_canon p vc s t hs h
  | midwayWrite m => exact execMidwayWrite_canon m s t hs h
  | midwayRead m => exact execMidwayRead_canon m s t hs h
  | readrsp m => exact execReadrsp_canon m s t hs h
  | signalMessage m => exact execSignalMessage_canon m s t hs h
  | ack m => exact execAck_canon m s t hs h
  | ackTimer d src => exact execAckTimer_canon d src s t hs h
  | endToEndTimeout d dst => exact execEndToEndTimeout_canon d dst s t hs h
  | probe p seq => exact execProbe_canon p seq s t hs h
  | route epoch pos coord => exact execRoute_canon epoch pos coord s t hs h
  | reductionStart => exact execReductionStart_canon s t hs h
  | codes d m => exact execCodes_canon d m s t hs h
  | agreed d m => exact execAgreed_canon d m s t hs h
  | sum d m => exact execSum_canon d m s t hs h
  | raw d m => exact execRaw_canon d m s t hs h
  | onebit d m => exact execOnebit_canon d m s t hs h
  | hash d m => exact execHash_canon d m s t hs h
  | resend d m => exact execResend_canon d m s t hs h
  | catcherDeadline d layer shard => exact execCatcherDeadline_canon d layer shard s t hs h
  | runReShard => exact execRunReShard_canon s t hs h
  | reShardSwitch => exact execReShardSwitch_canon s t hs h
  | doorbell w => exact execDoorbell_canon w s t hs h
  | nopRecord => exact execNopRecord_canon s t hs h
  | input => exact execInput_canon s t hs h
  | batch => exact execBatch_canon s t hs h
  | decode => exact execDecode_canon s t hs h
  | replace => exact execReplace_canon s t hs h
  | releaseRecord => exact execReleaseRecord_canon s t hs h
  | sourceCopyComplete cseq entry => exact execSourceCopyComplete_canon cseq entry s t hs h
  | drainEpochEnd r => exact execDrainEpochEnd_canon r s t hs h
  | bankCopyComplete table shard copy => exact execBankCopyComplete_canon table shard copy s t hs h
  | rdmaWrite p qp gid rkey va bytes => exact execRdmaWrite_canon p qp gid rkey va bytes s t hs h
  | rdmaRead p qp gid rkey va len => exact execRdmaRead_canon p qp gid rkey va len s t hs h
  | send p qp gid bytes => exact execSend_canon p qp gid bytes s t hs h
  | inputReadComplete c m bytes => exact execInputReadComplete_canon c m bytes s t hs h
  | journalAck d upTo image => exact execJournalAck_canon d upTo image s t hs h
  | blockLockLoss p => exact execBlockLockLoss_canon p s t hs h
  | blockLockRegain p => exact execBlockLockRegain_canon p s t hs h
  | pauseReceived p prio quanta => exact execPauseReceived_canon p prio quanta s t hs h
  | receiveFifoThreshold p prio above => exact execReceiveFifoThreshold_canon p prio above s t hs h
  | pausePersistence p prio => exact execPausePersistence_canon p prio s t hs h
  | ceMarkedPacket p qp => exact execCeMarkedPacket_canon p qp s t hs h
  | congestionNotificationPacket p qp => exact execCongestionNotificationPacket_canon p qp s t hs h
  | rateRecovery p qp => exact execRateRecovery_canon p qp s t hs h
  | ptpMessage p domain time offset => exact execPtpMessage_canon p domain time offset s t hs h
  | holdover => exact execHoldover_canon s t hs h
  | next d c => exact execNext_canon d c s t hs h
  | post d c item => exact execPost_canon d c item s t hs h
  | done d c => exact execDone_canon d c s t hs h
  | corePortWait d c flow => exact execCorePortWait_canon d c flow s t hs h
  | yield d c => exact execYield_canon d c s t hs h
  | sleep d c until_ => exact execSleep_canon d c until_ s t hs h
  | sleepExpiry d n => exact execSleepExpiry_canon d n s t hs h
  | thread d c supervisor w => exact execThread_canon d c supervisor w s t hs h
  | flow d c supervisor w => exact execFlow_canon d c supervisor w s t hs h
  | machineCheck d c mcause => exact execMachineCheck_canon d c mcause s t hs h
  | tarvyRead src frame => exact execTarvyRead_canon src frame s t hs h
  | tarvyWrite src frame => exact execTarvyWrite_canon src frame s t hs h
  | echo src frame => exact execEcho_canon src frame s t hs h
  | eventAck src frame => exact execEventAck_canon src frame s t hs h
  | eventFrameSend => exact execEventFrameSend_canon s t hs h
  | eventFrameResend number => exact execEventFrameResend_canon number s t hs h
  | snapshotRelease src txid => exact execSnapshotRelease_canon src txid s t hs h
  | stagingDiscard src txid => exact execStagingDiscard_canon src txid s t hs h
  | attest arg => exact execAttest_canon arg s t hs h
  | load arg => exact execLoad_canon arg s t hs h
  | run arg => exact execRun_canon arg s t hs h
  | hold arg => exact execHold_canon arg s t hs h
  | resume arg => exact execResume_canon arg s t hs h
  | release arg => exact execRelease_canon arg s t hs h
  | adopt arg => exact execAdopt_canon arg s t hs h
  | standby arg => exact execStandby_canon arg s t hs h
  | reset arg => exact execReset_canon arg s t hs h
  | clearCounters d one => exact execClearCounters_canon d one s t hs h
  | retireLogicalTile r => exact execRetireLogicalTile_canon r s t hs h
  | runTestSuites mask => exact execRunTestSuites_canon mask s t hs h
  | testRunComplete suites dies => exact execTestRunComplete_canon suites dies s t hs h
  | runFullPack mask => exact execRunFullPack_canon mask s t hs h
  | fullRunComplete => exact execFullRunComplete_canon s t hs h
  | galleryTestComplete r hash => exact execGalleryTestComplete_canon r hash s t hs h
  | attestationNonce n => exact execAttestationNonce_canon n s t hs h
  | updateObject o => exact execUpdateObject_canon o s t hs h
  | ownerRecord viaM0 o => exact execOwnerRecord_canon viaM0 o s t hs h
  | managementRecord o => exact execManagementRecord_canon o s t hs h
  | referenceOutput => exact execReferenceOutput_canon s t hs h
  | registerWrite index sub value => exact execRegisterWrite_canon index sub value s t hs h
  | captureComplete => exact execCaptureComplete_canon s t hs h
  | drained r => exact execDrained_canon r s t hs h
  | complete r => exact execComplete_canon r s t hs h
  | unreachable r => exact execUnreachable_canon r s t hs h
  | reachable r => exact execReachable_canon r s t hs h
  | adopting r => exact execAdopting_canon r s t hs h
  | reject r => exact execReject_canon r s t hs h
  | query r => exact execQuery_canon r s t hs h
  | report r => exact execReport_canon r s t hs h
  | target r => exact execTarget_canon r s t hs h
  | restored r => exact execRestored_canon r s t hs h
  | sramScrub r fixed broken => exact execSramScrub_canon r fixed broken s t hs h
  | patrolScrub fixed broken => exact execPatrolScrub_canon fixed broken s t hs h
  | budgetSetting => exact execBudgetSetting_canon s t hs h
  | budgetEstimate d watts => exact execBudgetEstimate_canon d watts s t hs h
  | budgetTimeout d => exact execBudgetTimeout_canon d s t hs h
  | regionSample r => exact execRegionSample_canon r s t hs h
  | valveControl r => exact execValveControl_canon r s t hs h
  | regulatorTelemetry reading => exact execRegulatorTelemetry_canon reading s t hs h
  | alertN segment status => exact execAlertN_canon segment status s t hs h
  | avsbusTimeout d => exact execAvsbusTimeout_canon d s t hs h
  | coolantFlowLow => exact execCoolantFlowLow_canon s t hs h
  | coolantFlowCritical => exact execCoolantFlowCritical_canon s t hs h
  | inletTemperatureHigh => exact execInletTemperatureHigh_canon s t hs h
  | profileDeparture => exact execProfileDeparture_canon s t hs h
  | holdupRead mv => exact execHoldupRead_canon mv s t hs h
  | pwrgdAssert order => exact execPwrgdAssert_canon order s t hs h
  | pwrgdFall => exact execPwrgdFall_canon s t hs h
  | resetNAssert => exact execResetNAssert_canon s t hs h
  | boot f => exact execBoot_canon f s t hs h
  | dieReportTimeout d => exact execDieReportTimeout_canon d s t hs h
  | trstN => exact execTrstN_canon s t hs h
  | bypass d => exact execBypass_canon d s t hs h
  | idcode d => exact execIdcode_canon d s t hs h
  | samplePreload d sampled preload => exact execSamplePreload_canon d sampled preload s t hs h
  | extest d sampled preload => exact execExtest_canon d sampled preload s t hs h
  | clamp d => exact execClamp_canon d s t hs h
  | trunkread d seq soon => exact execTrunkread_canon d seq soon s t hs h
  | journalWaitExpiry => exact execJournalWaitExpiry_canon s t hs h
  | midwayTrainingExpiry p => exact execMidwayTrainingExpiry_canon p s t hs h
  | queuePairErrorState p pair => exact execQueuePairErrorState_canon p pair s t hs h
  | controlCoreAccess d c super addr a => exact execControlCoreAccess_canon d c super addr a s t hs h
  | prefetchReadComplete r x line => exact execPrefetchReadComplete_canon r x line s t hs h
  | commandOutcome => exact execCommandOutcome_canon s t hs h
  | updateVerificationComplete => exact execUpdateVerificationComplete_canon s t hs h
  | m0LinkLoss => exact execM0LinkLoss_canon s t hs h
  | m0LinkRegain => exact execM0LinkRegain_canon s t hs h
  | telemetryTimer d tag => exact execTelemetryTimer_canon d tag s t hs h

/-- The queue of commands is no part of what the canonical form speaks of. -/
theorem pending_canon (q : List Instr) (s : State) (hs : Canonical s) : Canonical { s with pending := q } :=
  hs.upd rfl rfl rfl rfl rfl

/-- Settles O25: the command at the front of the queue keeps the canonical form, and so does an idle microsecond. -/
theorem canonicalKept : Obligations.CanonicalKept := by
  intro s t hs h
  unfold step at h
  split at h
  case h_1 => exact next_inj h ▸ tick_canon s hs
  case h_2 c rest _ => exact exec_canon c _ t (pending_canon rest s hs) h

/-- Nothing is listed right after reset but the entries whose default the dictionary gives, and every part is there. -/
theorem reset_canon : Canonical State.reset := ⟨rfl, rfl, dictDefaults_sorted, rfl, by decide⟩

/-- The induction over a run, once for every machine and predicate: what each step keeps, each run keeps. -/
theorem run_keeps (M : Host.Core) (P : M.State → Prop) (hstep : ∀ s t, P s → M.step s = .next t → P t) (k : Nat) (s t : M.State)
    (hs : P s) (h : M.run k s = .next t) : P t := by
  induction k generalizing s with
  | zero =>
    rw [Host.Core.run] at h
    cases h
    exact hs
  | succ k ih =>
    rw [Host.Core.run] at h
    cases hu : M.step s with
    | next u =>
      rw [hu] at h
      exact ih u (hstep s u hs hu) h
    | _ => rw [hu] at h; cases h

/-- So every state that some commands lead to from reset has the canonical form. -/
theorem run_from_reset_canon (q : List Instr) (k : Nat) (t : State) (h : core.run k { State.reset with pending := q } = .next t) :
    Canonical t :=
  run_keeps core Canonical canonicalKept k _ t (pending_canon q State.reset reset_canon) h

/-- The hypotheses of O25 are met: PWRGD rises on a package right after reset. -/
theorem opPwrgd_reset_canon : Canonical (opPwrgd true State.reset) :=
  canonicalKept { State.reset with pending := [.pwrgdAssert true] } _ (pending_canon _ _ reset_canon) rfl

/-- Pins, boot and test access answer a next state. -/
theorem exec_actsInOff_next (c : Instr) (h : actsInOff c = true) (s : State) : ∃ t, exec c s = .next t := by
  cases c with
  | pwrgdAssert | pwrgdFall | resetNAssert | boot | dieReportTimeout => exact ⟨_, rfl⟩
  | trstN | bypass | idcode | samplePreload | extest | clamp | trunkread => exact ⟨_, rfl⟩
  | _ => cases h

/-- An access within the package has no meaning only in the control space (R16). -/
theorem placeOf_of_coreLocal_none (d : Fin 4) (c : Fin 8) (super : Bool) (addr : Nat) (a : CoreAccess) (s : State)
    (h : coreLocal d c super addr a s = none) : placeOf addr = .control := by
  unfold coreLocal at h
  split at h
  case h_4 hp => exact hp
  all_goals cases h

/-- When a control core's access has no meaning: power is on, the core is online, and the address is of the control space. -/
theorem opCoreAccess_none (d : Fin 4) (c : Fin 8) (super : Bool) (addr : BitVec 57) (a : CoreAccess) (s : State)
    (h : opCoreAccess d c super addr a s = none) :
    s.life ≠ .off ∧ (ringCore (s.ring d) c).online = true ∧ placeOf (wordAddr (xword s (addr.setWidth 64))) = .control := by
  unfold opCoreAccess at h
  split at h
  · cases h
  · rename_i hlive
    dsimp only at h
    split at h
    · cases h
    · simp only [not_or, Bool.not_eq_true', Bool.not_eq_false] at hlive
      exact ⟨hlive.1, hlive.2, placeOf_of_coreLocal_none _ _ _ _ _ _ h⟩

/-- Settles O29: what needs power, pins, boot and test access always go on, and a control core's access stops only at an
address of the control space. -/
theorem oneStop : Obligations.OneStop := by
  intro c s
  cases hc : actsInOff c with
  | true =>
    obtain ⟨t, ht⟩ := exec_actsInOff_next c hc s
    exact .inl (by rw [ht]; rfl)
  | false =>
    obtain ⟨f, hf⟩ | ⟨d, core, super, addr, a, rfl⟩ := exec_powered_or_coreAccess c hc
    · exact .inl (by rw [hf]; rfl)
    · cases ho : opCoreAccess d core super addr a s with
      | some t => exact .inl (by simp [exec, execControlCoreAccess, ho, goesOn])
      | none =>
        refine .inr ⟨d, core, super, addr, a, rfl, ?_, opCoreAccess_none d core super addr a s ho⟩
        simp [exec, execControlCoreAccess, ho]

/-- The stop of O29 happens: a load from the first address of the control space, which the spec gives no contents. -/
theorem exec_controlCoreAccess_stops :
    exec (.controlCoreAccess 0 0 false (BitVec.ofNat 57 controlBase) (.load 7)) { State.reset with life := .ready } = .fault .controlSpace := by
  rfl

end Sys2Proof.Machine
end

section
/-!
What is written to the package's memory is read back, and which uncorrectable marks a write leaves (R43, R46, R99, R252).
-/

namespace Sys2Proof.Machine
open Sys2Proof

/-- Which marks a write leaves (R46, R255): those whose word, a line of 64 bytes in a stack and 8 bytes in SRAM, it does
not meet. -/
theorem mem_putMem_bad (a : Nat) (bs : List Byte) (s : State) (w : Nat) :
    w ∈ (putMem a bs s).bad ↔ w ∈ s.bad ∧ ¬(w < a + bs.length ∧ a < w + (if w < stackEnd then 64 else 8)) := by
  unfold putMem
  rw [List.mem_filter, Bool.not_eq_true', Bool.and_eq_false_iff, decide_eq_false_iff_not, decide_eq_false_iff_not, not_and_or]

/-- A write marks nothing. -/
theorem mem_bad_of_mem_putMem_bad (a : Nat) (bs : List Byte) (s : State) (w : Nat) (h : w ∈ (putMem a bs s).bad) : w ∈ s.bad :=
  ((mem_putMem_bad a bs s w).mp h).1

/-- A mark stays whose word ends before the write begins. -/
theorem mem_putMem_bad_of_before (a : Nat) (bs : List Byte) (s : State) (w : Nat) (h : w ∈ s.bad) (hw : w + 64 ≤ a) :
    w ∈ (putMem a bs s).bad := by
  refine (mem_putMem_bad a bs s w).mpr ⟨h, fun ⟨_, hmeets⟩ => ?_⟩
  split at hmeets <;> omega

/-- A number written least significant byte first is read back, cut to its bytes (R99). -/
theorem leNat_putMem_leBytes (a n v : Nat) (s : State) : leNat ((putMem a (leBytes n v) s).bytes a n) = v % 256 ^ n := by
  have hread : (putMem a (leBytes n v) s).bytes a n = leBytes n v := by
    simpa only [length_leBytes] using putMem_bytes a (leBytes n v) s
  rw [hread, leNat_leBytes]

/-- Settles O30: the laws of the byte memory give what is read, those of the marks what stays uncorrectable. -/
theorem memoryReadsBack : Obligations.MemoryReadsBack := by
  intro a bs s
  refine ⟨putMem_bytes a bs s, fun x hx => ?_, fun v n => leNat_putMem_leBytes a n v s, mem_bad_of_mem_putMem_bad a bs s,
    mem_putMem_bad_of_before a bs s, rfl⟩
  exact readByte_writeBytes_outside s.mem a x bs (by omega)

/-- The hypotheses of O30 are met, at the boundary: of two neighbouring lines that are marked, a write to the second leaves
the mark of the first, which ends where the write begins, and takes its own. -/
theorem putMem_bad_neighbours : 64 ∈ (putMem 128 [7] { State.reset with bad := [64, 128] }).bad ∧
    128 ∉ (putMem 128 [7] { State.reset with bad := [64, 128] }).bad := by
  obtain ⟨_, _, _, _, hbefore, _⟩ := memoryReadsBack 128 [7] { State.reset with bad := [64, 128] }
  refine ⟨hbefore 64 (by simp) (by norm_num), fun h => ?_⟩
  have hmet := ((mem_putMem_bad _ _ _ _).mp h).2
  simp [stackEnd] at hmet

end Sys2Proof.Machine
end

section
/-!
Lines and tokens that reach a tile, by the step tag of their sender (R45, R85, R86).
-/

namespace Sys2Proof.Machine
open Sys2Proof

/-- What the early-arrival queue holds of an item for a tile (R86). -/
def heldItem (r : TileRef) : TileItem → EarlyItem
  | .line l bs => .line r.tile.val (64 * l.val) (sliceBytes bs 0 64)
  | .token tk cnt => .token r.tile.val tk cnt.toNat

/-- What an item of the current step does to its tile (R45, R85). -/
def applyItem (k : Nat) : TileItem → State → State
  | .line l bs => putLine k (64 * l.val) (sliceBytes bs 0 64)
  | .token tk cnt => addToken k tk cnt.toNat

theorem tilesLive_iff (s : State) :
    tilesLive s = true ↔ s.life = .running ∨ s.life = .spare ∨ s.life = .held ∨ s.life = .loaded := by
  simp [tilesLive, runsTiles, or_assoc]

/-- While tiles are live an arrival is delivered by its tag, against the tile's own. -/
theorem exec_tokenArrival_live (r : TileRef) (tag : BitVec 12) (item : TileItem) (s : State) (hlive : tilesLive s = true) :
    exec (.tokenArrival r tag item) s = .next (byTag r.die.val (s.tile (tileKey r)).tag tag (heldItem r item) (applyItem (tileKey r) item) s) := by
  show Host.Outcome.next (powered (opTokenArrival (tileKey r) tag item) s) = _
  rw [powered_on _ s (tilesLive_on s hlive)]
  unfold opTokenArrival
  rw [if_pos hlive]
  cases item with
  | line l bs => simp only [arriveLine, keyDie_tileKey, keyTile_tileKey, heldItem, applyItem]
  | token tk cnt => simp only [arriveToken, keyDie_tileKey, keyTile_tileKey, heldItem, applyItem]

/-- An item of the current step is applied. -/
theorem byTag_current (d : Nat) (cur tag : BitVec 12) (item : EarlyItem) (apply : State → State) (s : State) (h : tag = cur) :
    byTag d cur tag item apply s = apply s := by
  unfold byTag
  rw [if_pos h]

/-- An item of the next step waits in the die's early-arrival queue, which has room for 4,096. -/
theorem byTag_next (d : Nat) (cur tag : BitVec 12) (item : EarlyItem) (apply : State → State) (s : State)
    (h : tag = nextTag cur) (hroom : (s.early.getD d []).length < 4096) :
    byTag d cur tag item apply s = highReg (dieKey d 0x806005) ((s.early.getD d []).length + 1)
      (bumpReg (dieKey d 0x806004) 1 { s with early := setAt s.early d (s.early.getD d [] ++ [item]) }) := by
  subst h
  unfold byTag
  rw [if_neg (nextTag_ne cur).symm, if_pos rfl]
  exact if_neg (by omega)

/-- An item for a tile with any other tag is discarded and counted. -/
theorem byTag_other (d : Nat) (cur tag : BitVec 12) (r : TileRef) (item : TileItem) (apply : State → State) (s : State)
    (hcur : tag ≠ cur) (hnext : tag ≠ nextTag cur) :
    byTag d cur tag (heldItem r item) apply s = bumpReg (dieKey d 0x806003) 1 s := by
  unfold byTag
  rw [if_neg hcur, if_neg hnext]
  cases item with
  | line l bs => rfl
  | token tk cnt => rfl

/-- A token counter that does not pass 65,535 is added to as a word, and orders the lines that came before (R45). -/
theorem addToken_fits (k : Nat) (tk : Fin 64) (cnt : BitVec 16) (s : State) (h : ((s.tile k).tok[tk]).toNat + cnt.toNat < 65536) :
    addToken k tk cnt.toNat s = setTile k { s.tile k with
      tok := (s.tile k).tok.set tk ((s.tile k).tok[tk] + cnt),
      outside := (s.tile k).outside.map (fun y => { y with by_ := tk.val :: y.by_ }) } s := by
  have hword : BitVec.ofNat 16 (((s.tile k).tok[tk]).toNat + cnt.toNat) = (s.tile k).tok[tk] + cnt := by
    rw [BitVec.ofNat_add, BitVec.ofNat_toNat, BitVec.ofNat_toNat, BitVec.setWidth_eq, BitVec.setWidth_eq]
  unfold addToken
  dsimp only
  rw [if_neg (by omega), hword]

/-- A line from outside is the tile's newest one, ordered by no token yet (R45). -/
theorem putLine_tile_self (k a : Nat) (bs : List Byte) (s : State) :
    (putLine k a bs s).tile k = { s.tile k with
      outside := (s.tile k).outside.filter (fun o => decide (o.line ≠ localAddr a / 64)) ++ [{ line := localAddr a / 64 }] } := by
  unfold putLine
  rw [modTile_tile_self, putMem_tile_of]

theorem putLine_mem (k a : Nat) (bs : List Byte) (s : State) :
    (putLine k a bs s).mem = writeBytes s.mem (tileBase k + localAddr a) bs := rfl

/-- A line from outside changes memory, its marks and the one tile. -/
theorem putLine_frame (k a : Nat) (bs : List Byte) (s : State) :
    putLine k a bs s = { s with mem := (putLine k a bs s).mem, bad := (putLine k a bs s).bad,
                                tiles := smPut s.tiles k ((putLine k a bs s).tile k) } := by
  rw [putLine_tile_self]
  rfl

/-- Settles O15: each clause is the law of its tag, and of what the item does where it is applied. -/
theorem tokenArrival : Obligations.TokenArrival := by
  intro r tag s k t q waits hlife
  have hexec := fun item => exec_tokenArrival_live r tag item s ((tilesLive_iff s).mpr hlife)
  refine ⟨?tokenNow, ?lineNow, ?tokenNext, ?lineNext, ?other⟩
  case tokenNow =>
    intro tk cnt htag hfits
    rw [hexec, byTag_current _ _ _ _ _ _ htag]
    exact congrArg Host.Outcome.next (addToken_fits k tk cnt s hfits)
  case lineNow =>
    intro l bs htag
    rw [hexec, byTag_current _ _ _ _ _ _ htag]
    exact ⟨_, rfl, putLine_mem _ _ _ _, putLine_tile_self _ _ _ _, putLine_frame _ _ _ _⟩
  case tokenNext =>
    intro tk cnt htag hroom
    rw [hexec, byTag_next _ _ _ _ _ _ htag hroom]
    rfl
  case lineNext =>
    intro l bs htag hroom
    rw [hexec, byTag_next _ _ _ _ _ _ htag hroom]
    rfl
  case other =>
    intro i hcur hnext
    rw [hexec, byTag_other _ _ _ _ _ _ _ hcur hnext]

/-- A package that runs, fresh but for that: its tiles have tag 0, so that the next step's is 16. -/
def freshRunning : State := { State.reset with life := .running }

/-- The hypotheses of O15's clause for a token of the current step are met at the bound: a counter at 0 takes 65,535. -/
theorem tokenArrival_fills_counter : exec (.tokenArrival ⟨0, 0⟩ 0 (.token 5 65535)) freshRunning =
    .next (setTile 0 { freshRunning.tile 0 with tok := (freshRunning.tile 0).tok.set 5 65535 } freshRunning) := by
  obtain ⟨htoken, _⟩ := tokenArrival ⟨0, 0⟩ 0 freshRunning (.inl rfl)
  exact htoken 5 65535 rfl (by decide)

/-- The hypotheses of O15's clause for a line of the current step are met: the line's first byte is read back from the
tile's window. -/
theorem tokenArrival_line_read : ∃ v, exec (.tokenArrival ⟨0, 0⟩ 0 (.line 2 [7])) freshRunning = .next v ∧
    readByte v.mem (tileBase 0 + 128) = 7 := by
  obtain ⟨_, hline, _⟩ := tokenArrival ⟨0, 0⟩ 0 freshRunning (.inl rfl)
  obtain ⟨v, hv, hmem, _⟩ := hline 2 [7] rfl
  refine ⟨v, hv, ?_⟩
  rw [hmem, show localAddr (64 * (2 : Fin 32768).val) = 128 from rfl]
  show readByte (writeBytes _ (tileBase 0 + 128) _) _ = 7
  rw [readByte_writeBytes, if_pos ⟨le_rfl, by simp [sliceBytes]⟩]
  simp [sliceBytes]

/-- The hypotheses of O15's clauses for an item of the next step are met: it waits, and the tile stays as it is. -/
theorem tokenArrival_next_waits (i : TileItem) : ∃ v, exec (.tokenArrival ⟨0, 0⟩ 16 i) freshRunning = .next v ∧
    v.early.getD 0 [] = [heldItem ⟨0, 0⟩ i] ∧ v.tile 0 = freshRunning.tile 0 := by
  obtain ⟨_, _, htoken, hline, _⟩ := tokenArrival ⟨0, 0⟩ 16 freshRunning (.inl rfl)
  cases i with
  | line l bs =>
    refine ⟨_, hline l bs rfl (by decide), rfl, ?_⟩
    rw [highReg_tile_of, bumpReg_tile_of]
    rfl
  | token tk cnt =>
    refine ⟨_, htoken tk cnt rfl (by decide), rfl, ?_⟩
    rw [highReg_tile_of, bumpReg_tile_of]
    rfl

/-- The hypotheses of O15's last clause are met: the tag after the next is neither. -/
theorem tokenArrival_other_counted (i : TileItem) :
    exec (.tokenArrival ⟨0, 0⟩ 32 i) freshRunning = .next (bumpReg 0x806003 1 freshRunning) := by
  obtain ⟨_, _, _, _, hother⟩ := tokenArrival ⟨0, 0⟩ 32 freshRunning (.inl rfl)
  exact hother i (by decide) (by decide)

end Sys2Proof.Machine
end

section
/-!
A tile instruction's word and the instruction it stands for (R64, R65, R68): the word is its fields packed, and a word decodes
to an operation and a wait field exactly where its fields are theirs.
-/

namespace Sys2Proof.Machine
open Sys2Proof

/-- The WTK field of an instruction's word (R64): 0 where it waits for no token. -/
def waitCode (w : WaitField) : Nat := (w.map (fun k => k.val)).getD 0

/-- The fields of an instruction's word from bit 63 down (R64): CLS, OP, WEN, WTK and the operands. -/
def wordFields (op : TileOp) (w : WaitField) : List (Nat × Nat) :=
  (4, (tileOpClass op).1) :: (4, (tileOpClass op).2) :: (1, boolNat w.isSome) :: (6, waitCode w) :: tileOpFields op

theorem encodeTileWord_toNat (op : TileOp) (w : WaitField) : (encodeTileWord op w).toNat = packFields (wordFields op w) := by
  obtain ⟨b, k, ⟨rfl, rfl⟩, h⟩ := encode_toNat op w
  exact h

theorem wordFields_bits (op : TileOp) (w : WaitField) : fieldBits (wordFields op w) = 64 := by
  show 4 + (4 + (1 + (6 + fieldBits (tileOpFields op)))) = 64
  rw [tileOpFields_bits]

theorem waitCode_lt (w : WaitField) : waitCode w < 64 := by
  cases w with
  | none => decide
  | some k => exact k.isLt

theorem bitField_wen (op : TileOp) (w : WaitField) : bitField (packFields (wordFields op w)) 55 55 = boolNat w.isSome := by
  have hbelow : fieldBits ((wordFields op w).drop 3) = 55 := by
    show 6 + fieldBits (tileOpFields op) = 55
    rw [tileOpFields_bits]
  rw [bitField_pack_at _ 2 1 (boolNat w.isSome) 55 55 rfl hbelow rfl]
  cases w <;> rfl

theorem bitField_wtk (op : TileOp) (w : WaitField) : bitField (packFields (wordFields op w)) 54 49 = waitCode w := by
  rw [bitField_pack_at (wordFields op w) 3 6 (waitCode w) 54 49 rfl (tileOpFields_bits op) rfl]
  exact Nat.mod_eq_of_lt (waitCode_lt w)

/-- When a word decodes to an instruction: its operation is that one's, and WEN and WTK are those of its wait field. -/
theorem decodeTileWord_eq_some_iff (x : Word) (op : TileOp) (w : WaitField) :
    decodeTileWord x = some (op, w) ↔
      decodeTileOp x.toNat = some op ∧ bitField x.toNat 55 55 = boolNat w.isSome ∧ bitField x.toNat 54 49 = waitCode w := by
  have hwtk : bitField x.toNat 54 49 < 64 := Nat.mod_lt _ (by decide)
  have hwen : bitField x.toNat 55 55 < 2 := Nat.mod_lt _ (by decide)
  unfold decodeTileWord
  dsimp only
  rw [bitAt_field]
  generalize bitField x.toNat 54 49 = k at *
  generalize bitField x.toNat 55 55 = b at *
  cases hop : decodeTileOp x.toNat with
  | none => simp
  | some o =>
    cases w with
    | none =>
      interval_cases b
      · by_cases hk : k = 0 <;> simp [hk, waitCode, boolNat]
      · simp [boolNat]
    | some j =>
      interval_cases b
      · by_cases hk : k = 0 <;> simp [hk, boolNat]
      · simp [boolNat, waitCode, Fin.ext_iff, Nat.mod_eq_of_lt hwtk]

/-- Settles O26: every operation decodes from its fields, and the wait field from WEN and WTK. -/
theorem tileWordRoundTrip : Obligations.TileWordRoundTrip := by
  intro op w
  rw [decodeTileWord_eq_some_iff, encodeTileWord_toNat]
  exact ⟨decode_pack op _ _, bitField_wen op w, bitField_wtk op w⟩

/-- The fields of the instruction a word decodes to are the bits of the word. -/
theorem fitsIn_of_decode (x : Word) (op : TileOp) (w : WaitField) (h : decodeTileWord x = some (op, w)) :
    fitsIn x.toNat (wordFields op w) := by
  obtain ⟨hop, hwen, hwtk⟩ := (decodeTileWord_eq_some_iff x op w).mp h
  obtain ⟨hcls, ho, hfields⟩ := fits_of_decode x.toNat op hop
  have hbits := tileOpFields_bits op
  have hmod : ∀ hi lo, bitField x.toNat hi lo % 2 ^ (hi + 1 - lo) = x.toNat / 2 ^ lo % 2 ^ (hi + 1 - lo) := fun hi lo => by
    rw [bitField, Nat.mod_mod, Nat.shiftRight_eq_div_pow]
  refine ⟨?cls, ?op, ?wen, ?wtk, hfields⟩
  case cls =>
    have hbelow : fieldBits ((4, (tileOpClass op).2) :: (1, boolNat w.isSome) :: (6, waitCode w) :: tileOpFields op) = 60 := by
      show 4 + (1 + (6 + fieldBits (tileOpFields op))) = 60
      rw [hbits]
    rw [hbelow, hcls]
    exact hmod 63 60
  case op =>
    have hbelow : fieldBits ((1, boolNat w.isSome) :: (6, waitCode w) :: tileOpFields op) = 56 := by
      show 1 + (6 + fieldBits (tileOpFields op)) = 56
      rw [hbits]
    rw [hbelow, ho]
    exact hmod 59 56
  case wen =>
    have hbelow : fieldBits ((6, waitCode w) :: tileOpFields op) = 55 := by
      show 6 + fieldBits (tileOpFields op) = 55
      rw [hbits]
    rw [hbelow, ← hwen]
    exact hmod 55 55
  case wtk =>
    rw [hbits, ← hwtk]
    exact hmod 54 49

/-- Settles O27: the fields of a word that decodes are its bits, so packing them gives the word back. -/
theorem tileWordReencode : Obligations.TileWordReencode := by
  intro x op w h
  apply BitVec.eq_of_toNat_eq
  rw [encodeTileWord_toNat, packFields_fits _ _ (fitsIn_of_decode x op w h), wordFields_bits]
  exact Nat.mod_eq_of_lt x.isLt

/-- A word written out decodes to the instruction whose fields pack to it. -/
theorem decodeTileWord_of_encode {x : Word} {op : TileOp} {w : WaitField} (h : encodeTileWord op w = x) :
    decodeTileWord x = some (op, w) :=
  h ▸ tileWordRoundTrip op w

/-- Settles O33: the fields of each instruction pack to the word written out. -/
theorem tileWordExamples : Obligations.TileWordExamples := by
  refine ⟨?loop, ?jump, ?brm, ?swap, ?setx, ?mm, ?gclose, ?vop, ?get, ?signal, ?sample, ?tbl⟩
  all_goals exact decodeTileWord_of_encode (by decide)

/-- Words that decode to nothing (R68): WTK not 0 while WEN is 0, a reserved bit set, a reserved operation. -/
theorem decodeTileWord_refused : decodeTileWord 0x0002000000000000 = none ∧ decodeTileWord 0x0000000000000001 = none ∧
    decodeTileWord 0x0900000000000000 = none := by
  decide

end Sys2Proof.Machine
end

section
/-!
Tile instructions that sequence and address (R69-R73, R85, R89, R94): what each changes, where each goes, and how each stops.
-/

namespace Sys2Proof.Machine
open Sys2Proof

/-! ### Sequence and address -/

/-- An extended register with one of its 16-bit slices replaced (R73). -/
def sliceSet (sl : Fin 4) (imm : BitVec 16) (v : BitVec 64) : BitVec 64 :=
  (v &&& ~~~((0xFFFF : BitVec 64) <<< (16 * sl.val))) ||| (imm.setWidth 64 <<< (16 * sl.val))

theorem getLsbD_FFFF (n : Nat) : (0xFFFF : BitVec 64).getLsbD n = decide (n < 16) := by
  rw [show (0xFFFF : BitVec 64) = (BitVec.allOnes 16).setWidth 64 by decide, BitVec.getLsbD_setWidth, BitVec.getLsbD_allOnes]
  by_cases h : n < 16
  · simp [h, show n < 64 by omega]
  · simp [h]

/-- A bit of an extended register after SETX: from the immediate inside the slice, else as before. -/
theorem sliceSet_getLsbD (sl : Fin 4) (imm : BitVec 16) (v : BitVec 64) (n : Nat) (hn : n < 64) :
    (sliceSet sl imm v).getLsbD n =
      if 16 * sl.val ≤ n ∧ n < 16 * sl.val + 16 then imm.getLsbD (n - 16 * sl.val) else v.getLsbD n := by
  rw [sliceSet, BitVec.getLsbD_or, BitVec.getLsbD_and, BitVec.getLsbD_not, BitVec.getLsbD_shiftLeft, BitVec.getLsbD_shiftLeft,
    getLsbD_FFFF, BitVec.getLsbD_setWidth, decide_eq_true hn]
  by_cases hlo : n < 16 * sl.val
  · rw [decide_eq_true hlo, if_neg (by omega)]
    simp
  · rw [decide_eq_false hlo, decide_eq_true (show n - 16 * sl.val < 64 by omega)]
    by_cases hhi : n < 16 * sl.val + 16
    · rw [decide_eq_true (show n - 16 * sl.val < 16 by omega), if_pos (by omega)]
      simp
    · rw [decide_eq_false (show ¬ n - 16 * sl.val < 16 by omega), if_neg (by omega), BitVec.getLsbD_of_ge imm (n - 16 * sl.val) (by omega)]
      simp

/-- The slice set reads as the immediate, and the other three as before. -/
theorem sliceSet_extractLsb' (sl j : Fin 4) (imm : BitVec 16) (v : BitVec 64) :
    (sliceSet sl imm v).extractLsb' (16 * j.val) 16 = if j = sl then imm else v.extractLsb' (16 * j.val) 16 := by
  apply BitVec.eq_of_getLsbD_eq
  intro i hi
  rw [BitVec.getLsbD_extractLsb', decide_eq_true hi, Bool.true_and, sliceSet_getLsbD _ _ _ _ (by omega)]
  by_cases hj : j = sl
  · rw [if_pos hj, if_pos (by omega), hj, Nat.add_sub_cancel_left]
  · rw [if_neg hj, if_neg (by omega), BitVec.getLsbD_extractLsb', decide_eq_true hi, Bool.true_and]
/-- Settles O2: each instruction's effect is to change its own tile as given. -/
theorem sequenceAndAddress : Obligations.SequenceAndAddress := by
  intro r w s
  refine ⟨?nop, fun tk cnt => ?wait, fun lvl cnt stop => ?loop, fun pn imm => ?setp, fun pn simm => ?addp,
    fun xn sl imm => ?setx, fun xn simm => ?addx⟩
  case nop => exact changesTile_of .nop r w s id id (fun _ => rfl) rfl (fun _ => rfl)
  case wait => exact changesTile_of (.wait tk cnt) r w s id id (fun _ => rfl) rfl (fun _ => rfl)
  case loop => exact changesTile_of (.loop lvl cnt stop) r w s (effLoop lvl cnt stop) _ (fun _ => rfl) rfl (fun _ => rfl)
  case setp => exact changesTile_of (.setp pn imm) r w s (effSetp pn imm) _ (fun _ => rfl) rfl (fun _ => rfl)
  case addp =>
    refine changesTile_of (.addp pn simm) r w s (effAddp pn simm) _ (fun _ => rfl) ?_ (fun _ => rfl)
    rw [effAddp, ptrAdd, BitVec.ofInt_toInt]
    rfl
  case setx =>
    exact ⟨sliceSet sl imm, fun v j => sliceSet_extractLsb' sl j imm v,
      changesTile_of (.setx xn sl imm) r w s (effSetx xn sl imm) _ (fun _ => rfl) rfl (fun _ => rfl)⟩
  case addx => exact changesTile_of (.addx xn simm) r w s (effAddx xn simm) _ (fun _ => rfl) rfl (fun _ => rfl)

/-! ### Branches -/

/-- What CALL does to its tile: the loops it may end are counted, and the address that would follow it is pushed (R71). -/
def calledFrom (t : Tile) : Tile := { (afterAddr 4 t.ia.toNat t).2 with calls := t.calls ++ [nextInOrder t] }

/-- CALL with room on the call list goes to its target (R71). -/
theorem effCall_room (dest : BitVec 13) (c : TCtx) (h : c.tile.calls.length < 4) :
    effCall dest c = { c with tile := calledFrom c.tile, target := some dest.toNat } := by
  obtain ⟨l, hl⟩ := afterAddr_parts 4 c.tile.ia.toNat c.tile
  simp only [effCall, calledFrom, nextInOrder, if_neg (show ¬ 4 ≤ c.tile.calls.length by omega), hl]

/-- RET with an address on the call list goes there (R71). -/
theorem effRet_some (c : TCtx) (a : Nat) (h : c.tile.calls.getLast? = some a) :
    effRet c = { c with tile := { c.tile with calls := c.tile.calls.dropLast }, target := some a } := by
  simp only [effRet, h]

/-- Settles O3: a taken branch names its target, and one that is not taken goes on in program order. -/
theorem branches : Obligations.Branches := by
  intro r w s
  refine ⟨fun dest => ?jump, fun mbit sense dest hm => ?taken, fun mbit sense dest hm => ?notTaken, fun dest hc => ?call,
    fun a ha => ?ret⟩
  case jump => exact goesToAddress_of (.jump dest) r w s (effJump dest) id dest (fun _ => rfl) rfl (fun _ => rfl)
  case taken =>
    refine goesToAddress_of (.brm mbit sense dest) r w s (effBrm mbit sense dest) id dest (fun _ => rfl) ?_ (fun _ => rfl)
    rw [effBrm, if_pos (by simpa [tileCtx] using hm)]
    rfl
  case notTaken =>
    refine changesTile_of (.brm mbit sense dest) r w s (effBrm mbit sense dest) id (fun _ => rfl) ?_ (fun _ => rfl)
    rw [effBrm, if_neg (by simpa [tileCtx] using hm)]
    rfl
  case call =>
    refine goesToAddress_of (.call dest) r w s (effCall dest) calledFrom dest (fun _ => rfl) ?_ (fun t => ?run)
    case run =>
      obtain ⟨l, hl⟩ := afterAddr_parts 4 t.ia.toNat t
      rw [calledFrom, hl]
    rw [effCall_room dest _ (by simpa [tileCtx] using hc)]
    rfl
  case ret =>
    refine goesToAddress_of .ret r w s effRet (fun x => { x with calls := x.calls.dropLast }) a (fun _ => rfl) ?_ (fun _ => rfl)
    rw [effRet_some _ a.toNat (by simpa [tileCtx] using ha)]
    rfl

end Sys2Proof.Machine
end

section
/-!
How an attempt ends at a tile: an abort (R91, R239), STEPEND (R89), and the faults of a program (R69, R94).
-/

namespace Sys2Proof.Machine
open Sys2Proof

/-! ### Aborts -/

/-- A running attempt takes each cause once, and shows the smallest (R239). -/
theorem abortAttempt_causes (cause : Nat) (s : State) (h : s.step.phase = .attempt) :
    (abortAttempt cause s).step.causes = (if s.step.causes.contains cause then s.step.causes else s.step.causes ++ [cause]) ∧
      (abortAttempt cause s).reg 0x500006 = (abortAttempt cause s).step.causes.foldl min 15 := by
  rw [abortAttempt, if_pos h]
  dsimp only
  split
  · refine ⟨rfl, ?_⟩
    rw [bumpReg_reg_ne _ _ _ _ (by decide)]
    exact setReg_reg_self 0x500006 _ _
  · exact ⟨rfl, setReg_reg_self 0x500006 _ _⟩

/-- The first cause of an attempt stops every tile (R91). -/
theorem abortAttempt_first (cause : Nat) (s : State) (h : s.step.phase = .attempt) (hc : s.step.causes = []) :
    (abortAttempt cause s).step.stopped = true ∧ ∀ k, (abortAttempt cause s).tile k = stopTile (s.tile k) := by
  rw [abortAttempt, if_pos h]
  dsimp only
  rw [if_pos (decide_eq_true hc)]
  exact ⟨rfl, fun k => stopTiles_tile s k _ rfl⟩

/-- A further cause finds the tiles stopped. -/
theorem abortAttempt_further (cause : Nat) (s : State) (hc : s.step.causes ≠ []) : (abortAttempt cause s).tiles = s.tiles := by
  rw [abortAttempt]
  split
  · dsimp only
    rw [if_neg (by simpa using hc)]
    rfl
  · rfl

/-- Settles O20: the causes are kept in a list that only grows, and the tiles stop where it was empty. -/
theorem abortStops : Obligations.AbortStops := by
  intro cause s h
  obtain ⟨hcauses, hreg⟩ := abortAttempt_causes cause s h
  refine ⟨?mem, ?kept, abortAttempt_mem cause s, abortAttempt_life cause s, hreg, abortAttempt_first cause s h, abortAttempt_further cause s⟩
  case mem =>
    rw [hcauses]
    split
    · next hin => exact List.contains_iff_mem.mp hin
    · exact List.mem_append_right _ (List.mem_singleton_self _)
  case kept =>
    intro c hc
    rw [hcauses]
    split
    · exact hc
    · exact List.mem_append_left _ hc

/-! ### STEPEND -/

/-- Where STEPEND counts the Encore flags of its tile (R157). -/
theorem tallyKey_encore (n : Nat) : tallyKey (.scale, BitVec.ofNat 8 7, n) = 0x80E007 := by
  have h : tallyKey (.scale, BitVec.ofNat 8 7, n) = 0x80E0 * 256 + 7 := by rw [tallyKey, Tally.index]; rfl
  exact h.trans (by norm_num)

/-- STEPEND of a tile with no group open and no token left, in the state its effect begins in. -/
theorem runTile_stepend (k n : Nat) (w : WaitField) (u : State) (hg : (u.tile k).groups = []) (ht : ∀ tk : Fin 64, (u.tile k).tok[tk] = 0)
    (hn : n = ((List.range 8).filter (fun i => (u.tile k).encore.getLsbD i)).length) :
    runTile k .stepend w effStepend u =
      (if n = 0 then setTile k { u.tile k with run := .done } u
        else bumpReg (dieKey (keyDie k) 0x80E007) n (setTile k { u.tile k with run := .done } u), none) := by
  have he := effStepend_done (tileCtx k u) hg ht
  rw [show ((List.range 8).filter (fun i => (tileCtx k u).tile.encore.getLsbD i)).length = n from hn.symm] at he
  rw [← tallyKey_encore n]
  exact runTile_count k .stepend w effStepend u { u.tile k with run := .done } .scale 7 n rfl he

/-- Settles O18: the tile is done, so its sequencer stays, and its Encore flags are counted. -/
theorem stepEnd : Obligations.StepEnd := by
  intro r w s k u h hg ht n q
  have hrun := runTile_stepend k n w u ((issued_groups ..).trans hg) ht (by rw [issued_encore])
  rw [keyDie_tileKey] at hrun
  have hex : exec (.stepend r w) s = .next (if n = 0 then setTile k { u.tile k with run := .done } u
      else bumpReg q n (setTile k { u.tile k with run := .done } u)) := by
    refine congrArg Host.Outcome.next ?_
    rw [powered_on _ _ (canIssue_life h.can), issueTile, issue_issues .stepend r w _ s h, hrun, if_neg]
    rw [apply_ite (fun v : State => v.tile (tileKey r)), bumpReg_tile_of, ite_self, setTile_tile_self]
    exact TileRun.noConfusion
  by_cases hn : n = 0
  · rw [if_pos hn] at hex
    exact ⟨_, hex, rfl, by rw [if_pos hn]; rfl, fun x hx => rfl⟩
  · rw [if_neg hn] at hex
    exact ⟨_, hex, rfl, by rw [if_neg hn, bumpReg_reg, if_pos rfl]; rfl, fun x hx => bumpReg_reg_ne _ _ _ _ (Ne.symm hx)⟩

/-! ### Program faults -/

/-- What issue leaves of the attempt: it names a unit as before, and the step is the same (R67). -/
theorem issued_step (op : TileOp) (r : TileRef) (w : WaitField) (s : State) : (issued op r w s).step = s.step := by
  obtain ⟨_, _, _, _, _, h⟩ := issued_parts op r w s; rw [h]

theorem tileEp_issued (op : TileOp) (r : TileRef) (w : WaitField) (s : State) :
    tileEp (issued op r w s) (tileKey r) = endpoint s r.die.val r.tile.val := by
  rw [tileEp, endpoint, issued_coord, keyDie_tileKey, keyTile_tileKey]
  rfl

theorem tileEp_setTile (k j : Nat) (T : Tile) (s : State) : tileEp (setTile k T s) j = tileEp s j := rfl

theorem stopTile_run (t : Tile) : (stopTile t).run = if t.run = .active then .stopped else t.run := rfl

/-- An instruction that issues and whose effect is a program fault: the attempt is aborted and its tile stays where it is. -/
theorem issueTile_progFault (op : TileOp) (r : TileRef) (w : WaitField) (eff : TCtx → TCtx) (s : State) (h : Issues op r w s)
    (hw : ∀ t, (footprint t op).filter (fun x => x.wr) = [])
    (he : eff (tileCtx (tileKey r) (issued op r w s)) = tcProgFault (tileCtx (tileKey r) (issued op r w s)))
    (hp : s.step.phase = .attempt) (hc : s.step.causes = []) (hs : ∀ x ∈ s.step.suspects, x.unit ≠ endpoint s r.die.val r.tile.val) :
    ∃ v, powered (issueTile op r w eff) s = v ∧ 2 ∈ v.step.causes ∧ (v.tile (tileKey r)).run = .stopped ∧
      ∃ e ∈ v.evBatch, e.code = 0x7003 ∧ e.unit = endpoint s r.die.val r.tile.val := by
  have hfault := takeCtx_progFault (tileKey r) (opBits op w) (issued op r w s) (by rw [issued_step]; exact hp) (by rw [issued_step]; exact hc)
    (by rw [issued_step, tileEp_issued]; exact hs)
  obtain ⟨hcause, htile, hev⟩ := hfault
  have hrt : runTile (tileKey r) op w eff (issued op r w s) =
      (takeCtx (tileKey r) (opBits op w) (tcProgFault (tileCtx (tileKey r) (issued op r w s))) (issued op r w s), none) := by
    rw [runTile, he, hw]
    simp only [List.any_nil, Bool.not_false, List.filter_true]
    rfl
  have hstop : (stopTile ((issued op r w s).tile (tileKey r))).run = .stopped := by
    rw [stopTile_run, issued_run, canIssue_active h.can, if_pos rfl]
  refine ⟨_, ?_, hcause, by rw [htile, hstop], by rw [← tileEp_issued op r w s]; exact hev⟩
  rw [powered_on _ _ (canIssue_life h.can), issueTile, issue_issues op r w _ s h, hrt, if_neg]
  rw [htile, hstop]
  decide

/-- Settles O19: in each case the effect is a program fault of a tile that has written nothing. -/
theorem programFaults : Obligations.ProgramFaults := by
  intro r w s k faults hp hc hs
  have hfault : ∀ (op : TileOp) (eff : TCtx → TCtx), (∀ t, (footprint t op).filter (fun x => x.wr) = []) → Issues op r w s →
      eff (tileCtx k (issued op r w s)) = tcProgFault (tileCtx k (issued op r w s)) → faults (.next (powered (issueTile op r w eff) s)) := by
    intro op eff hw h he
    obtain ⟨v, hv, hrest⟩ := issueTile_progFault op r w eff s h hw he hp hc hs
    exact ⟨v, congrArg Host.Outcome.next hv, hrest⟩
  refine ⟨fun dest h hcalls => hfault (.call dest) (effCall dest) (fun _ => rfl) h ?call,
    fun h hcalls => hfault .ret effRet (fun _ => rfl) h ?ret, fun h hg => hfault .stepend effStepend (fun _ => rfl) h ?stepend⟩
  case call => rw [effCall, if_pos (by simpa [tileCtx] using hcalls)]
  case ret => simp [effRet, tileCtx, k, hcalls]
  case stepend => rw [effStepend, if_pos (Or.inl (by simpa [tileCtx] using hg))]

/-! ### The end of the store -/

/-- A program error of a running attempt (R518): cause 10, its event, and every tile stops. -/
theorem progError_stops (k code op : Nat) (s : State) (hcode : code ≠ 0x2001) (hp : s.step.phase = .attempt) (hc : s.step.causes = []) :
    let v := progError k code op s
    v.step.causes = [10] ∧ v.reg 0x500006 = 10 ∧ v.mem = s.mem ∧ (∀ j, v.tile j = stopTile (s.tile j)) ∧
      ∃ e ∈ v.evBatch, e.code = code ∧ e.unit = tileEp s k := by
  obtain ⟨g, tr, eb, hraise, _⟩ := raiseAt_parts code (keyDie k) (keyTile k) 0 op s
  have hev := raiseAt_record code (keyDie k) (keyTile k) 0 op s
  have hv : progError k code op s = abortAttempt 10 (raiseAt code (keyDie k) (keyTile k) 0 op s) := by
    rw [progError, if_neg hcode]
  rw [hv]
  rw [hraise] at hev ⊢
  obtain ⟨hcauses, hreg⟩ := abortAttempt_causes 10 { s with regs := g, trunk := tr, evBatch := eb } hp
  have hten : (abortAttempt 10 { s with regs := g, trunk := tr, evBatch := eb }).step.causes = [10] := by
    rw [hcauses, hc]; rfl
  refine ⟨hten, by rw [hreg, hten]; rfl, abortAttempt_mem _ _, (abortAttempt_first 10 { s with regs := g, trunk := tr, evBatch := eb } hp hc).2, ?_⟩
  rw [abortAttempt_evBatch]
  exact hev

/-- A stopped tile is not running. -/
theorem stopTile_run_ne (t : Tile) : (stopTile t).run ≠ .active := by
  rw [stopTile_run]
  split
  · decide
  · next h => exact h

/-- A sequencer that would go on past the last address of the store (R94). -/
theorem advance_pastEnd (k : Nat) (s : State) (h : nextInOrder (s.tile k) = 8192) :
    advance k none s = progError k 0x2008 0 (setTile k (afterAddr 4 (s.tile k).ia.toNat (s.tile k)).2 s) := by
  have hend : (afterAddr 4 (s.tile k).ia.toNat (s.tile k)).1 = 8192 := h
  rw [advance, goTo, hend, if_neg (by decide)]

/-- Settles O32: NOP changes nothing of its own, so its order leads past the store and the fetch is a program error. -/
theorem endOfStore : Obligations.EndOfStore := by
  intro r w s h hend hp hc
  have hnext : nextInOrder ((issued .nop r w s).tile (tileKey r)) = 8192 :=
    (nextInOrder_congr _ _ (issued_loops ..) (issued_ia ..)).trans hend
  obtain ⟨u, hu⟩ : ∃ u, u = setTile (tileKey r) ((issued .nop r w s).tile (tileKey r)) (issued .nop r w s) := ⟨_, rfl⟩
  have hex : exec (.nop r w) s = .next (advance (tileKey r) none u) := by
    refine congrArg Host.Outcome.next ?_
    rw [powered_on _ _ (canIssue_life h.can), issueTile_tile .nop r w id s ((issued .nop r w s).tile (tileKey r)) none h rfl rfl, issued_run,
      if_pos (canIssue_active h.can), hu]
  rw [advance_pastEnd _ _ (by rw [hu, setTile_tile_self]; exact hnext)] at hex
  obtain ⟨hcauses, hreg, hmem, htile, hev⟩ := progError_stops (tileKey r) 0x2008 0
    (setTile (tileKey r) (afterAddr 4 (u.tile (tileKey r)).ia.toNat (u.tile (tileKey r))).2 u) (by decide)
    (by rw [hu, setTile_step, setTile_step, issued_step]; exact hp) (by rw [hu, setTile_step, setTile_step, issued_step]; exact hc)
  refine ⟨_, hex, hcauses, hreg, by rw [hmem, hu]; rfl, fun j => by rw [htile]; exact stopTile_run_ne _, ?_⟩
  rw [tileEp_setTile, hu, tileEp_setTile, tileEp_issued, ← hu] at hev
  exact hev

end Sys2Proof.Machine
end

section
/-!
The vector unit (R47, R48, R80, R81): the element-wise functions, the special functions, and the two reductions.
-/

namespace Sys2Proof.Machine
open Sys2Proof

/-- Settles O4: the effect of each function is its lane function over every lane of every beat. -/
theorem vectorArithmetic : Obligations.VectorArithmetic := by
  intro r w a s f
  refine ⟨?mov, ?add, ?sub, ?mul, ?fma, ?max, ?min, ?abs, ?neg, ?cmpgt, ?rcp, ?sqrt⟩
  case mov => exact elementWise_of 0x00 a r w s (fun _ => plainOp fun x _ _ => { bits := x }) (effMov a) (fun _ => rfl)
  case add => exact elementWise_of 0x01 a r w s (laneAdd f false) (effAdd a) (fun _ => rfl)
  case sub => exact elementWise_of 0x02 a r w s (laneAdd f true) (effSub a) (fun _ => rfl)
  case mul => exact elementWise_of 0x03 a r w s (fun m => plainOp fun x y _ => opMul (vopFloat f) m x y) (effMul a) (fun _ => rfl)
  case fma => exact elementWise_of 0x04 a r w s (laneFma f) (effFma a) (fun _ => rfl)
  case max => exact elementWise_of 0x05 a r w s (fun _ => laneMaxMin f true) (effMax a) (fun _ => rfl)
  case min => exact elementWise_of 0x06 a r w s (fun _ => laneMaxMin f false) (effMin a) (fun _ => rfl)
  case abs => exact elementWise_of 0x07 a r w s (fun _ => laneAbs f) (effAbs a) (fun _ => rfl)
  case neg => exact elementWise_of 0x08 a r w s (fun _ => laneNeg f) (effNeg a) (fun _ => rfl)
  case cmpgt => exact elementWise_of 0x09 a r w s (fun _ => plainOp fun x y _ => opCmpGt (vopFloat f) x y) (effCmpgt a) (fun _ => rfl)
  case rcp => exact elementWise_of 0x24 a r w s (fun m => plainOp fun x _ _ => opRcp (vopFloat f) m x) (effRcp a) (fun _ => rfl)
  case sqrt => exact elementWise_of 0x25 a r w s (fun m => plainOp fun x _ _ => opSqrt (vopFloat f) m x) (effSqrt a) (fun _ => rfl)

/-- A special function of R48 under its VFN is element-wise. -/
theorem elementWise_special (fn : SpecialFn) (vfn : BitVec 8) (hv : vfn.toNat = 0x20 + fn) (a : VopArgs) (r : TileRef) (w : WaitField) (s : State) :
    elementWise vfn a r w s (fun m x _ _ => (opSpecial fn (vopFloat a.fmt.toNat) m x).bits)
      (.next (powered (issueTile (.vop vfn a) r w (effSpecial fn a)) s)) :=
  elementWise_of vfn a r w s (fun m => plainOp fun x _ _ => opSpecial fn (vopFloat a.fmt.toNat) m x) (effSpecial fn a)
    (fun _ => by rw [hv]; rfl)

/-- Settles O5: the VFN of a special function is its number in R48 after 0x20. -/
theorem vectorSpecial : Obligations.VectorSpecial := fun r w a s =>
  ⟨elementWise_special 0 0x20 rfl a r w s, elementWise_special 1 0x21 rfl a r w s, elementWise_special 2 0x22 rfl a r w s,
    elementWise_special 3 0x23 rfl a r w s, elementWise_special 6 0x26 rfl a r w s, elementWise_special 7 0x27 rfl a r w s,
    elementWise_special 8 0x28 rfl a r w s, elementWise_special 9 0x29 rfl a r w s, elementWise_special 10 0x2A rfl a r w s,
    elementWise_special 11 0x2B rfl a r w s⟩

/-- A reduction of every beat by one lane operation (R47) computes in memory alone. -/
theorem computesInMemory_reduce (vfn : BitVec 8) (a : VopArgs) (r : TileRef) (w : WaitField) (s : State) (op : RMode → Nat → Nat → LaneRes)
    (eff : TCtx → TCtx)
    (he : ∀ c, vopFmtOk vfn.toNat a = true → eff c = (List.range (a.cnt.toNat + 1)).foldl (vopReduceBeat a (op (rdirOf c.tile))) c) :
    let t := s.tile (tileKey r)
    computesInMemory (.vop vfn a) r w s (fun m => (List.range (a.cnt.toNat + 1)).foldl
      (reduceMem a (fun x y => (op (rdirOf t) x y).bits) t (tileBase (tileKey r))) m) (.next (powered (issueTile (.vop vfn a) r w eff) s)) := by
  intro t
  have hdir : rdirOf (tileCtx (tileKey r) (issued (.vop vfn a) r w s)).tile = rdirOf t := by
    simp only [tileCtx, rdirOf, issued_mode, t]
  refine computesInMemory_of _ r w s eff _ (fun h => ?same) (fun h => ?mem)
  case same =>
    rw [he _ h.ok]
    exact SameCtx.foldl _ _ _ (fun c b => reduceBeat_same a _ c b)
  case mem =>
    rw [he _ h.ok, hdir]
    exact reduceBeats a _ _ _ t (issued_ptr _ r w s _)

/-- Settles O6: each beat's lanes are folded upwards from lane 0. -/
theorem vectorReductions : Obligations.VectorReductions := fun r w a s =>
  ⟨computesInMemory_reduce 0x18 a r w s (fun m => opAdd (vopFloat a.fmt.toNat) m false) (effRsum a) (fun _ h => if_pos h),
    computesInMemory_reduce 0x19 a r w s (fun _ => opMaxMin (vopFloat a.fmt.toNat) true) (effRmax a) (fun _ h => if_pos h)⟩

end Sys2Proof.Machine
end

section
/-!
The matrix unit (R74-R79, R123, R124): weights, products and groups; conversions and table loads (R114, R115, R155).
-/

namespace Sys2Proof.Machine
open Sys2Proof

/-! ### Effects that leave the sequencer alone -/

/-- Between the two contexts the sequencer's fields, the aborts and the SRAM error event are the same; what a matrix or
vector effect may change of its tile is named. -/
structure KeepsFlow (c d : TCtx) : Prop where
  evs : d.evs.contains 0x7001 = c.evs.contains 0x7001
  aborts : d.aborts = c.aborts
  target : d.target = c.target
  free : d.free = c.free
  tile : ∃ p pl gs tb fl en, d.tile = { c.tile with ptr := p, planes := pl, groups := gs, tables := tb, flags := fl, encore := en }

/-- The same with another such tile in its place. -/
theorem KeepsFlow.withTile {c d : TCtx} (h : KeepsFlow c d) (T : Tile)
    (hT : ∃ p pl gs tb fl en, T = { d.tile with ptr := p, planes := pl, groups := gs, tables := tb, flags := fl, encore := en }) :
    KeepsFlow c { d with tile := T } := by
  obtain ⟨p, pl, gs, tb, fl, en, ht⟩ := h.tile
  obtain ⟨p', pl', gs', tb', fl', en', hT⟩ := hT
  exact ⟨h.evs, h.aborts, h.target, h.free, p', pl', gs', tb', fl', en', by rw [hT, ht]⟩

theorem ScanCtx.keepsFlow {c d : TCtx} (h : ScanCtx c d) : KeepsFlow c d :=
  ⟨h.evs, h.aborts, h.target, h.free, _, _, _, _, _, _, h.tile⟩

theorem GroupCtx.keepsFlow {c d : TCtx} (h : GroupCtx c d) : KeepsFlow c d := by
  obtain ⟨gs, ht⟩ := h.tile
  exact ⟨h.evs, h.aborts, h.target, h.free, _, _, gs, _, _, _, ht⟩

theorem OutCtx.keepsFlow {c d : TCtx} (h : OutCtx c d) : KeepsFlow c d := by
  obtain ⟨fl, en, ht⟩ := h.tile
  exact ⟨h.evs, h.aborts, h.target, h.free, _, _, _, _, fl, en, ht⟩

/-- An instruction whose effect leaves the sequencer alone works on its tile. -/
theorem worksOnTile_flow (op : TileOp) (r : TileRef) (w : WaitField) (s : State) (eff : TCtx → TCtx) (P : Tile → Memory → Prop) (d : TCtx)
    (h : Issues op r w s) (hn : nextInOrder (s.tile (tileKey r)) < 8192) (he : eff (tileCtx (tileKey r) (issued op r w s)) = d)
    (hk : KeepsFlow (tileCtx (tileKey r) (issued op r w s)) d) (hP : P d.tile d.mem) :
    worksOnTile op r w s P (.next (powered (issueTile op r w eff) s)) := by
  obtain ⟨p, pl, gs, tb, fl, en, ht⟩ := hk.tile
  refine worksOnTile_of op r w s eff P d h he hk.evs hk.aborts hk.target hk.free ?run ?order hP
  case run => rw [ht]; exact (issued_run ..).trans (canIssue_active h.can)
  case order =>
    rw [ht]
    exact lt_of_eq_of_lt (nextInOrder_congr _ (s.tile (tileKey r)) (issued_loops ..) (issued_ia ..)) hn

/-! ### LDW -/

/-- The plane LDW loads: the rows read, expanded (R74). -/
theorem loadPlane_elems (c d : TCtx) (a : LdwArgs) (hm : c.mem = d.mem) (hb : c.base = d.base) :
    (loadPlane c a).2.loaded = true ∧ (loadPlane c a).2.fmt = a.fw.toNat ∧
      (loadPlane c a).2.elems = ((List.range 16).flatMap (fun i => tcElems d a.fw.toNat
        (localAddr ((c.tile.ptr[a.pa]).toNat + i * a.stride.toNat * 8)) 16)).map (fun e => (expandElem c.tile a.fw.toNat e).1) := by
  refine ⟨rfl, rfl, ?_⟩
  simp only [loadPlane, List.map_map, tcElems_congr c d _ _ _ hm hb]
  rfl

/-- LDW of a word R68 accepts: the loaded plane, in the half of every enabled array. -/
theorem effLdw_planes (c : TCtx) (a : LdwArgs) (h : ldwOk a = true) :
    ∃ ps, effLdw a c = { (loadPlane c a).1 with
        tile := { c.tile with ptr := c.tile.ptr.set a.pa (c.tile.ptr[a.pa] + BitVec.ofInt 21 (8 * a.pinc.toInt)), planes := ps } } ∧
      ∀ (j : Fin 4) (half : Bool), ps[planeIx j half] =
        if a.amask.getLsbD j.val = true ∧ half = a.plane then (loadPlane c a).2 else c.tile.planes[planeIx j half] := by
  obtain ⟨ps, htile, hps⟩ := setPlanes (loadPlane c a).2 a.plane (enabledArrays a.amask) (loadPlane c a).1.tile
  rw [(loadPlane_scan c a).tile] at htile hps
  refine ⟨ps, ?_, fun j half => ?_⟩
  · rw [effLdw, if_pos h]
    dsimp only
    rw [(loadPlane_scan c a).tile, htile, ptrAdd, signExt16]
  · rw [hps]
    simp only [mem_enabledArrays]

/-- Settles O7: the plane loaded is expanded from the rows read, and the pointer moves on. -/
theorem loadWeights : Obligations.LoadWeights := by
  intro r w a s k t m h hn
  obtain ⟨c, hc⟩ : ∃ c, c = tileCtx k (issued (.ldw a) r w s) := ⟨_, rfl⟩
  have htile : c.tile = t := by rw [hc]; rfl
  obtain ⟨ps, heff, hps⟩ := effLdw_planes c a h.ok
  have hscan := loadPlane_scan c a
  obtain ⟨hloaded, hfmt, helems⟩ := loadPlane_elems c (plainCtx m t (tileBase k)) a (by rw [hc]; rfl) (by rw [hc]; rfl)
  rw [htile] at heff hps helems
  refine worksOnTile_flow (.ldw a) r w s (effLdw a) _ _ h hn ((congrArg (effLdw a) hc.symm).trans heff) ?flow ?result
  case flow =>
    rw [← hc]
    exact hscan.keepsFlow.withTile _ ⟨_, ps, _, _, _, _, by rw [hscan.tile, htile]⟩
  case result =>
    exact ⟨hscan.mem.trans (by rw [hc]; rfl), rfl, _, hloaded, hfmt, helems, hps⟩

/-! ### MM -/

theorem groupsOpen_iff (t : Tile) (g n : Nat) : groupsOpen t g n = true ↔ ∀ i < n, (smFind t.groups (g + i)).isSome = true := by
  simp [groupsOpen]

theorem groupsClosed_iff (t : Tile) (g n : Nat) : groupsClosed t g n = true ↔ ∀ i < n, smFind t.groups (g + i) = none := by
  simp [groupsClosed]

/-- MM with its planes loaded and its groups open: the arrays in ascending order, then the pointer. -/
theorem effMm_arrays (c : TCtx) (a : MmArgs) (h : mmOk a = true) (hp : ∀ j ∈ enabledArrays a.amask, (c.tile.planes[planeIx j a.plane]).loaded = true)
    (hg : ∀ x < (enabledArrays a.amask).length * (a.nrow.toNat + 1), (smFind c.tile.groups (a.gbase.toNat + x)).isSome = true) :
    let js := enabledArrays a.amask
    let d := (js.zip (List.range' 0 js.length)).foldl (mmArray a (c.tile.ptr[a.pa]).toNat) c
    effMm a c = { d with tile := ptrAdd d.tile a.pa (8 * a.pinc.toInt) } := by
  intro js d
  have hcond : (mmOk a && js.all (fun j => (c.tile.planes[planeIx j a.plane]).loaded)
      && groupsOpen c.tile a.gbase.toNat (js.length * (a.nrow.toNat + 1))) = true := by
    rw [h, (groupsOpen_iff ..).mpr hg, List.all_eq_true.mpr hp]
    rfl
  rw [effMm, if_pos hcond]
  simp only [List.range_eq_range', signExt16]
  rfl

/-- Settles O8: every row of every enabled array is added into its own group. -/
theorem matrixMultiply : Obligations.MatrixMultiply := by
  intro r w a s k t m js n h hn hplanes hgroups
  obtain ⟨c, hc⟩ : ∃ c, c = tileCtx k (issued (.mm a) r w s) := ⟨_, rfl⟩
  have htile : c.tile = t := by rw [hc]; rfl
  have heff := effMm_arrays c a h.ok (by rw [htile]; simpa [t] using hplanes) (by rw [htile]; simpa [t] using hgroups)
  obtain ⟨hgroup, hother, hrow⟩ := mmArrays_spec a (c.tile.ptr[a.pa]).toNat js 0 c
  dsimp only at heff
  generalize (js.zip (List.range' 0 js.length)).foldl (mmArray a (c.tile.ptr[a.pa]).toNat) c = d at heff hgroup hother hrow
  obtain ⟨gs, hd⟩ := hgroup.tile
  rw [htile] at hd
  simp only [Nat.zero_mul, Nat.zero_add, Nat.add_zero, Nat.sub_zero] at hother hrow
  refine worksOnTile_flow (.mm a) r w s (effMm a) _ _ h hn ((congrArg (effMm a) hc.symm).trans heff) ?flow ?result
  case flow =>
    rw [← hc]
    exact hgroup.keepsFlow.withTile _ ⟨_, _, _, _, _, _, by rw [ptrAdd]⟩
  case result =>
    refine ⟨hgroup.mem.trans (by rw [hc]; rfl), by rw [ptrAdd, hd], fun g hg => ?_, fun x hx => ?_⟩
    · rw [← htile]; exact hother g hg
    · obtain ⟨j, hj, hv⟩ := hrow x (Nat.zero_le x) hx
      refine ⟨j, hj, hv.trans ?_⟩
      rw [htile, rowUpdates_snd_congr (plainCtx m t (tileBase k)) c _ _ _ (by rw [hc]; rfl) (by rw [hc]; rfl) (by rw [htile]; rfl) (by rw [htile]; rfl)]
      rfl

/-! ### Groups -/

/-- A range of groups closed: none of the range is open, and the others are as before. -/
theorem closeGroups_groups (t : Tile) (g n : Nat) :
    closeGroups t g n = { t with groups := (closeGroups t g n).groups } ∧
      (∀ x, ¬(g ≤ x ∧ x < g + n) → smFind (closeGroups t g n).groups x = smFind t.groups x) ∧
      ∀ i < n, smFind (closeGroups t g n).groups (g + i) = none := by
  obtain ⟨gs, hgs, hfind⟩ := closeGroups_parts t g n
  rw [hgs]
  exact ⟨rfl, fun x hx => by rw [hfind, if_neg hx], fun i hi => by rw [hfind, if_pos (by omega)]⟩

/-- GCLOSE writes inside the tile's SRAM and then closes its groups (R79). -/
theorem effGclose_closes (a : GroupArgs) (c : TCtx) (h : gcloseOk a = true) (ho : groupsOpen c.tile a.gbase.toNat (a.gcnt.toNat + 1) = true) :
    ∃ d, OutCtx c d ∧ effGclose a c = { d with tile := closeGroups d.tile a.gbase.toNat (a.gcnt.toNat + 1) } := by
  have hcond : (gcloseOk a && groupsOpen c.tile a.gbase.toNat (a.gcnt.toNat + 1)) = true := by rw [h, ho]; rfl
  unfold effGclose
  dsimp only
  rw [if_pos hcond]
  exact ⟨_, ((countRows_out a.gbase.toNat (a.gcnt.toNat + 1) c).out.trans (tcEncodeAll_out _ _ _ _ _)).trans
    (OutCtx.foldl _ _ _ (fun c i => gcloseRow_out a _ c i)), rfl⟩

/-- Settles O9: which groups each instruction opens or closes, and what it reads and writes. -/
theorem groups : Obligations.Groups := by
  intro r w a s k G lo n others closed isOpen isClosed row hn
  have hopen : ∀ op, isOpen → groupsOpen (tileCtx k (issued op r w s)).tile lo n = true := fun op ho =>
    (groupsOpen_iff ..).mpr (by simpa [tileCtx] using ho)
  have hclosed : ∀ op, isClosed → groupsClosed (tileCtx k (issued op r w s)).tile lo n = true := fun op hc =>
    (groupsClosed_iff ..).mpr (by simpa [tileCtx] using hc)
  refine ⟨fun h hg => ?gopen, fun h hg => ?gfill, fun h hg => ?gspill, fun h hg => ?gdrop, fun h hg => ?gclose⟩
  case gopen =>
    obtain ⟨hmem, ⟨fl, htile⟩, -, haborts, htarget, hfree, hevs, hother, hrow⟩ :=
      effGopen_spec a (tileCtx k (issued (.gopen a) r w s)) h.ok (hclosed _ hg)
    refine worksOnTile_flow (.gopen a) r w s (effGopen a) _ _ h hn rfl ⟨hevs, haborts, htarget, hfree, _, _, _, _, _, _, htile⟩ ?_
    exact ⟨hmem, ⟨fl, htile⟩, fun g hx => (hother g hx).trans (by rw [tileCtx, issued_groups]), hrow⟩
  case gfill =>
    obtain ⟨hgroup, hother, hrow⟩ := effGfill_spec a (tileCtx k (issued (.gfill a) r w s)) h.ok (hclosed _ hg)
    refine worksOnTile_flow (.gfill a) r w s (effGfill a) _ _ h hn rfl hgroup.keepsFlow ?_
    obtain ⟨gs, htile⟩ := hgroup.tile
    refine ⟨hgroup.mem, by rw [htile]; rfl, fun g hx => (hother g hx).trans (by rw [tileCtx, issued_groups]), fun i hi => (hrow i hi).trans ?_⟩
    simp only [row, tcRead_congr (tileCtx k (issued (.gfill a) r w s)) (plainCtx (effGfill a (tileCtx k (issued (.gfill a) r w s))).mem
      ((issued (.gfill a) r w s).tile k) (tileBase k)) _ _ hgroup.mem.symm rfl]
    rfl
  case gspill =>
    obtain ⟨d, heff, htile, -, haborts, htarget, hfree, hevs, hmem⟩ :=
      effGspill_spec a (tileCtx k (issued (.gspill a) r w s)) ((issued (.gspill a) r w s).tile k) h.ok (hopen _ hg)
    obtain ⟨hclose, hother, hnone⟩ := closeGroups_groups d.tile lo n
    have hflow : KeepsFlow (tileCtx k (issued (.gspill a) r w s)) d :=
      ⟨by rw [hevs], haborts, htarget, hfree, _, _, _, _, _, _, htile⟩
    refine worksOnTile_flow (.gspill a) r w s (effGspill a) _ _ h hn heff (hflow.withTile _ ⟨_, _, _, _, _, _, hclose⟩) ?_
    refine ⟨by rw [hclose, htile]; rfl, ⟨fun g hx => (hother g hx).trans ?_, hnone⟩, hmem.trans ?_⟩
    · rw [htile, tileCtx, issued_groups]
    · rw [tileCtx, issued_groups]
  case gdrop =>
    obtain ⟨c, hc⟩ : ∃ c, c = tileCtx k (issued (.gdrop a) r w s) := ⟨_, rfl⟩
    obtain ⟨hclose, hother, hnone⟩ := closeGroups_groups c.tile lo n
    have hcond : (gdropOk a && groupsOpen c.tile lo n) = true := by rw [hc, hopen _ hg, show gdropOk a = true from h.ok]; rfl
    have heff : effGdrop a c = { c with tile := closeGroups c.tile lo n } := if_pos hcond
    refine worksOnTile_flow (.gdrop a) r w s (effGdrop a) _ _ h hn ((congrArg (effGdrop a) hc.symm).trans heff)
      (hc ▸ (ScanCtx.refl c).keepsFlow.withTile _ ⟨_, _, _, _, _, _, hclose⟩) ?_
    refine ⟨by rw [hc]; rfl, by rw [hclose, hc]; rfl, fun g hx => (hother g hx).trans ?_, hnone⟩
    rw [hc, tileCtx, issued_groups]
  case gclose =>
    obtain ⟨c, hc⟩ : ∃ c, c = tileCtx k (issued (.gclose a) r w s) := ⟨_, rfl⟩
    have ho : groupsOpen c.tile lo n = true := hc ▸ hopen _ hg
    have hgs : c.tile.groups = G := by rw [hc, tileCtx, issued_groups]
    obtain ⟨d, hout, heff⟩ := effGclose_closes a c h.ok ho
    obtain ⟨fl, en, htile⟩ := hout.tile
    obtain ⟨hclose, hother, hnone⟩ := closeGroups_groups d.tile lo n
    refine worksOnTile_flow (.gclose a) r w s (effGclose a) _ _ h hn ((congrArg (effGclose a) hc.symm).trans heff)
      (hc ▸ hout.keepsFlow.withTile _ ⟨_, _, _, _, _, _, hclose⟩) ?_
    refine ⟨⟨fl, en, by rw [hclose, htile, hc]; rfl⟩, ⟨fun g hx => (hother g hx).trans (by rw [htile, hgs]), hnone⟩, ?outside, ?one⟩
    case outside =>
      intro x hx
      refine (hout.mem x ?_).trans (by rw [hc]; rfl)
      rw [hc]; exact hx
    case one =>
      intro h1 h2 h3 h4
      have hmem := effGclose_one a c h.ok (h1 ▸ ho) h1 h2 h3 h4
      rw [heff] at hmem
      refine hmem.trans ?_
      rw [hgs, tcPutBits_mem_congr c (plainCtx (issued (.gclose a) r w s).mem ((issued (.gclose a) r w s).tile k) (tileBase k)) _
        (by rw [hc]; rfl) (by rw [hc]; rfl), hc]
      rfl

/-! ### CVT and LDQ -/

/-- Is the element of format `f` with these bits a signalling NaN (R114)? -/
def signals (f raw : Nat) : Bool :=
  match fmtFloat f with
  | some ff => isSignalling ff raw
  | none => false

/-- One element that CVT writes from a format `f` to another `g`, neither of which uses a scale map (R114, R115). -/
def cvtBits (a : VopArgs) (c : TCtx) (i : Nat) : OutBits :=
  let f := a.fmt.toNat
  let g := a.pb.toNat
  let raw := tcReadNib c (2 * (c.tile.ptr[a.pa]).toNat + i * fmtNibbles f) (fmtNibbles f)
  { na := (2 * (c.tile.ptr[a.pd]).toNat + i * fmtNibbles g) % (2 * sramSize), nibs := fmtNibbles g,
    bits := (convTo g (vecMode g (rdirOf c.tile)) (satFlag c.tile) (signals f raw) (decodeElem f raw 0x7F)).bits }

/-- The elements that CVT reads, with their signalling marks. -/
theorem cvtSource_fold (f : Nat) (hf : f ≠ 0xA) (p : Nat) (c : TCtx) (xs : List Nat) :
    xs.foldl (fun st i => cvtSource f st (2 * p + i * fmtNibbles f)) (c, []) = (c, xs.map (fun i =>
      let raw := tcReadNib c (2 * p + i * fmtNibbles f) (fmtNibbles f)
      (decodeElem f raw 0x7F, signals f raw))) :=
  cvtSources f hf p c xs []

/-- CVT between two formats that use no scale map: the memory afterwards. -/
theorem effCvt_mem (a : VopArgs) (c : TCtx) (h : vopFmtOk 0x10 a = true) (hfg : a.fmt.toNat ≠ a.pb.toNat) (hf : a.fmt.toNat ≠ 0xA)
    (hg : a.pb.toNat ≠ 0xA) (h2 : a.pb.toNat ≠ 2) :
    (effCvt a c).mem = (tcPutBits c ((List.range ((a.lanes.toNat + 1) * (a.cnt.toNat + 1))).map (cvtBits a c))).mem := by
  have hnibs : ∀ p, resultNibs c.tile a.pb.toNat p = fmtNibbles a.pb.toNat := by
    intro p; rw [resultNibs, resultEntry, if_neg hg, if_neg h2]
  unfold effCvt
  dsimp only
  rw [if_pos h, if_neg (by rintro (⟨h, -⟩ | ⟨h, -⟩) <;> exact hfg h), cvtSource_fold _ hf]
  dsimp only
  rw [hnibs, tcEncodeAll_plain _ _ hg h2]
  obtain ⟨hmem, hbase, hbits⟩ := plainElems a.pb.toNat hg (vecMode a.pb.toNat (rdirOf c.tile)) (satFlag c.tile)
    ((List.range ((a.lanes.toNat + 1) * (a.cnt.toNat + 1))).map (fun i =>
      let v := ((List.range ((a.lanes.toNat + 1) * (a.cnt.toNat + 1))).map (fun i =>
        let raw := tcReadNib c (2 * (c.tile.ptr[a.pa]).toNat + i * fmtNibbles a.fmt.toNat) (fmtNibbles a.fmt.toNat)
        (decodeElem a.fmt.toNat raw 0x7F, signals a.fmt.toNat raw))).getD i (natNum 0, false)
      { na := (2 * (c.tile.ptr[a.pd]).toNat + i * fmtNibbles a.pb.toNat) % (2 * sramSize), x := v.1, snan := v.2 : OutElem })) c []
  rw [hbits, List.nil_append, List.map_map, tcPutBits_mem_congr _ c _ hmem hbase]
  congr 2
  apply List.map_congr_left
  intro i hi
  simp only [Function.comp, map_getD _ _ _ _ (List.mem_range.mp hi), cvtBits]

/-- Settles O10: a conversion writes inside the tile's SRAM, element by element, and a table is read whole. -/
theorem convertAndTables : Obligations.ConvertAndTables := by
  intro r w a s k hn
  refine ⟨fun h => ?cvt, fun h halign => ?ldq⟩
  case cvt =>
    intro u t f g c
    have hout := effCvt_out a (tileCtx k u) h.ok
    obtain ⟨fl, en, htile⟩ := hout.tile
    refine worksOnTile_flow (.vop 0x10 a) r w s (effCvt a) _ _ h hn rfl hout.keepsFlow ⟨⟨fl, en, htile⟩, hout.mem, ?_⟩
    intro hfg hf hg h2
    rw [effCvt_mem a (tileCtx k u) h.ok hfg hf hg h2, tcPutBits_mem_congr (tileCtx k u) c _ rfl rfl]
    congr 2
    apply List.map_congr_left
    intro i _
    rw [cvtBits, tcReadNib_congr (tileCtx k u) c _ _ rfl rfl]
    rfl
  case ldq =>
    intro u
    have hcond : (vopFmtOk 0x30 a && decide (((tileCtx k u).tile.ptr[a.pa]).toNat % 64 = 0)) = true := by
      rw [show vopFmtOk 0x30 a = true from h.ok]
      simpa [tileCtx, u] using halign
    refine worksOnTile_flow (.vop 0x30 a) r w s (effLdq a) _ _ h hn (if_pos hcond)
      ((ScanCtx.refl _).keepsFlow.withTile _ ⟨_, _, _, _, _, _, rfl⟩) ⟨rfl, ?_⟩
    rw [tcRead_congr (tileCtx k u) (plainCtx u.mem (u.tile k) (tileBase k)) _ _ rfl rfl, tileCtx, issued_ptr]

end Sys2Proof.Machine
end

section
/-!
Transfers (R82-R88, R93, R94): GET and PUT, SIGNAL, SWAP, their ends, and the slice descriptors.
-/

namespace Sys2Proof.Machine
open Sys2Proof

/-! ### GET and PUT -/

/-- A command that waits for room acts as it would without the wait where there is room. -/
theorem powered_guard (g : State → Bool) (f : State → State) (s : State) (h : g s = true) :
    powered (fun s => if g s then f s else s) s = powered f s := by
  rw [powered, powered, h]
  rfl

theorem isShardHeader_issued (op : TileOp) (r : TileRef) (w : WaitField) (s : State) (x : Nat) :
    isShardHeader (issued op r w s) x = isShardHeader s x := by
  rw [isShardHeader, issued_job]
  rfl

theorem pageAttr_issued (op : TileOp) (r : TileRef) (w : WaitField) (s : State) (a : Nat) : pageAttr (issued op r w s) a = pageAttr s a := by
  rw [pageAttr, issued_pages]
  rfl

/-- A PUT of lines of this package's stacks finds room (R86). -/
theorem putRoom_stack (s : State) (k : Nat) (a : XferArgs) (h : wordAddr (xword s (s.tile k).xreg[a.xr]) < stackEnd) :
    putRoom s k a = true := by
  rw [putRoom, placeOf_stack _ h, Bool.or_true]

/-- Settles O11: the lines are copied one after another, and the transfer opened with the register advanced. -/
theorem getAndPut : Obligations.GetAndPut := by
  intro r w a s k x addr lines line sram tk halign hremote hregion hn
  refine ⟨fun h hheader hread => ?get, fun h hdte hstack => ?put⟩
  case get =>
    obtain ⟨v, he, hm, hs⟩ := effGet_result k a (issued (.get a) r w s) x ((s.tile k).ptr[a.pl]).toNat addr lines
      (by rw [issued_xreg]) (by rw [issued_ptr]) (by rw [issued_xword]) rfl halign (by rw [issued_xword]; exact hremote)
      (by rw [issued_xword, issued_pager]; exact hregion) (by rw [issued_xword, isShardHeader_issued]; exact hheader) hread
    exact opensTransfer_of (.get a) r w s v _ a.xr _ _ (effGet k a) h hn he hm hs
  case put =>
    obtain ⟨v, he, hm, hs⟩ := effPut_result k a (issued (.put a) r w s) x ((s.tile k).ptr[a.pl]).toNat addr lines
      (by rw [issued_xreg]) (by rw [issued_ptr]) (by rw [issued_xword]) rfl halign (by rw [issued_xword]; exact hremote)
      (by rw [issued_xword, issued_pager]; exact hregion) hdte (fun i hi => by rw [pageAttr_issued]; exact hstack i hi)
    have hroom : putRoom s k a = true := by
      refine putRoom_stack s k a ?_
      have h0 := (hstack 0 (Nat.succ_pos _)).1
      rwa [show line 0 = addr from Nat.mod_mod _ _] at h0
    have hex : exec (.put r w a) s = .next (powered (fun s => issue (.put a) k w (effPut k a) s) s) :=
      congrArg Host.Outcome.next (powered_guard (fun s => putRoom s k a) (fun s => issue (.put a) k w (effPut k a) s) s hroom)
    rw [hex]
    exact opensTransfer_of (.put a) r w s v _ a.xr _ _ (effPut k a) h hn he hm hs

/-! ### SIGNAL -/

/-- Two tiles whose sequencers stand alike: running or not, at one address, with the same loops. -/
def SameSequencer (t u : Tile) : Prop := t.run = u.run ∧ t.loops = u.loops ∧ t.ia = u.ia

/-- An instruction whose effect leaves its tile's sequencer as it stood goes on in program order. -/
theorem issue_sameSequencer (op : TileOp) (r : TileRef) (w : WaitField) (eff : State → State × Option Nat) (s v : State) (h : Issues op r w s)
    (hn : nextInOrder (s.tile (tileKey r)) < 8192) (he : eff (issued op r w s) = (v, none))
    (hv : SameSequencer (v.tile (tileKey r)) ((issued op r w s).tile (tileKey r))) :
    powered (fun s => issue op (tileKey r) w eff s) s = setTile (tileKey r) (movedOn (v.tile (tileKey r))) v := by
  obtain ⟨hrun, hloops, hia⟩ := hv
  refine issue_next op r w eff s v h he ?_ ?_
  · rw [hrun, issued_run]; exact canIssue_active h.can
  · rw [nextInOrder_congr _ _ (hloops.trans (issued_loops ..)) (hia.trans (issued_ia ..))]; exact hn

/-- A signal for a tile whose tag is the signaller's is not early (R86). -/
theorem earlyRoom_sameTag (s : State) (k dst n : Nat) (h : (s.tile dst).tag = (s.tile k).tag) : earlyRoom s k (s.tile k).tag dst n = true := by
  have hne : ((s.tile k).tag != nextTag (s.tile dst).tag) = true := by
    rw [h, bne_iff_ne]
    exact nextTag_ne _
  rw [earlyRoom, hne, Bool.true_or, Bool.true_or]

/-- A SIGNAL that finds room and leaves its tile running where it was. -/
theorem signal_next (r : TileRef) (w : WaitField) (a : SignalArgs) (s v : State) (h : Issues (.signal a) r w s)
    (hn : nextInOrder (s.tile (tileKey r)) < 8192) (hroom : signalRoom s (tileKey r) a = true)
    (he : effSignal (tileKey r) a (issued (.signal a) r w s) = (v, none))
    (hv : SameSequencer (v.tile (tileKey r)) ((issued (.signal a) r w s).tile (tileKey r))) :
    exec (.signal r w a) s = .next (setTile (tileKey r) (movedOn (v.tile (tileKey r))) v) :=
  congrArg Host.Outcome.next ((powered_guard (fun s => signalRoom s (tileKey r) a) _ s hroom).trans
    (issue_sameSequencer (.signal a) r w (effSignal (tileKey r) a) s v h hn he hv))

/-- Settles O12: to a tile of this package, to the reduce readiness of a die, and by a message to another package. -/
theorem signal : Obligations.Signal := by
  intro r w a s k u ep dst goes h hn
  refine ⟨fun hcoord htile htag htok => ?tile, fun hcoord htile htk htag => ?ready, fun hcoord => ?remote⟩
  case tile =>
    refine signal_next r w a s _ h hn ?room ?eff ?own
    case room =>
      rw [signalRoom, if_pos htile]
      exact Bool.or_eq_true_iff.mpr (Or.inr (earlyRoom_sameTag s k dst 1 htag))
    case eff =>
      rw [effSignal, if_pos (by rw [issued_coord]; exact hcoord), if_pos htile, arriveToken, byTag_current]
      · exact congrArg (fun v => (v, none)) (addToken_fits dst a.tk a.cnt u htok)
      · rw [issued_tag, issued_tag]; exact htag.symm
    case own =>
      rw [setTile_tile]
      split
      · next hdst => rw [← hdst]; exact ⟨rfl, rfl, rfl⟩
      · exact ⟨rfl, rfl, rfl⟩
  case ready =>
    have hnot : ¬ epTile ep < 768 := by rw [htile]; decide
    have hix : 64 * (epTile ep - 768) + a.tk.val = 511 := by rw [htile, htk]; rfl
    refine signal_next r w a s _ h hn ?room ?eff ⟨rfl, rfl, rfl⟩
    case room =>
      rw [signalRoom, if_neg hnot, coreFlowFull, if_pos hix, Bool.not_false, Bool.or_true]
    case eff =>
      rw [effSignal, if_pos (by rw [issued_coord]; exact hcoord), if_neg hnot, arriveCore, byTag_current]
      · rw [coreSignal, if_pos hix]
      · rw [issued_tag, issued_dieTags]; exact htag.symm
  case remote =>
    refine signal_next r w a s _ h hn ?room ?eff ?own
    case room =>
      rw [signalRoom, show (epCoord a.ep.toNat != s.coord) = true from bne_iff_ne.mpr hcoord, Bool.true_or]
    case eff =>
      rw [effSignal, if_neg (by rw [issued_coord]; exact hcoord), keyDie_tileKey, tileEp_issued, issued_tag]
      rfl
    case own =>
      rw [(sendMsg_net ..).tile, setTile_tile_self]
      exact ⟨rfl, rfl, rfl⟩

/-! ### The ends of transfers -/

/-- A transfer that nothing holds up ends (R83, R94): it leaves its tile, and its token counts. -/
theorem completeXfer_ends (k id : Nat) (kinds : List XferKind) (s : State) (x : Xfer) (hf : findXfer (s.tile k) id = some x)
    (hkind : x.kind ∈ kinds) (hw : x.waits = 0) (hs : x.slice = none) (hfirst : firstOfUnit (s.tile k) x = true) :
    let u := setTile k { s.tile k with xfers := (s.tile k).xfers.filter (fun y => decide (y.id ≠ id)) } s
    (x.tk = none → completeXfer k id kinds s = u) ∧ ∀ tk, x.tk = some tk → completeXfer k id kinds s = addToken k tk 1 u := by
  have hcond : (kinds.contains x.kind && x.waits == 0 && x.slice.isNone && firstOfUnit (s.tile k) x) = true := by
    rw [List.contains_iff_mem.mpr hkind, hw, hs, hfirst]
    rfl
  refine ⟨fun htk => ?_, fun tk htk => ?_⟩ <;>
    · rw [completeXfer, hf]
      dsimp only
      rw [if_pos hcond, htk]
      rfl

/-- Settles O14: each of the four commands ends the transfers of its unit. -/
theorem transfersEnd : Obligations.TransfersEnd := by
  intro r id s x k t ends hlife hf hw hs hfirst
  have hends : ∀ kinds : List XferKind, x.kind ∈ kinds → ends (.next (powered (completeXfer k id.toNat kinds) s)) := by
    intro kinds hkind
    obtain ⟨hnone, hsome⟩ := completeXfer_ends k id.toNat kinds s x hf hkind hw hs hfirst
    rw [powered_on _ s hlife]
    refine ⟨fun htk => congrArg Host.Outcome.next (hnone htk), fun tk htk hroom => congrArg Host.Outcome.next ((hsome tk htk).trans ?_)⟩
    refine (addToken_fits k tk 1 (setTile k t s) ?_).trans ?_
    · rw [setTile_tile_self]
      exact Nat.add_lt_of_lt_sub hroom
    · rw [setTile_tile_self, setTile_setTile]
  refine ⟨fun hk => hends [.get] ?_, fun hk => hends [.put, .signal] ?_, fun hk => hends [.swap] ?_, fun hk => hends [.sample, .table] ?_⟩ <;>
    simpa using hk

/-! ### SWAP -/

/-- A SWAP's half replaced and its tile moved on, after streams have been trained: what differs. -/
theorem Streams.swapped {k : Nat} {u v1 : State} {T A : Tile} {S : SMap Nat} {f : Tile → Tile} (h : Streams k (Machine.setTile k T u) v1)
    (hm : v1.mem = u.mem) (hb : v1.bad = u.bad) :
    let v := Machine.setTile k A (modTile k f { v1 with store := S })
    v = { u with store := v.store, tiles := v.tiles, regs := v.regs } := by
  have hf := h.frame
  rw [hm, hb] at hf
  exact congrArg (fun x : State => { x with store := S, tiles := (Machine.setTile k A (modTile k f { v1 with store := S })).tiles }) hf

/-- Settles O13: the half takes the segment's words, and the transfer is opened. -/
theorem swapSegment : Obligations.SwapSegment := by
  intro r w a s g k u t addr words half h hn hremote hend hseg hbad
  have hseg' : segmentFor u k addr half words = some g := by rw [segmentFor, issued_job]; exact hseg
  have haddr : addr < stackEnd := by have : words = a.len.toNat + 1 := rfl; omega
  obtain ⟨v, v1, he, hs, hm, hb, hv⟩ := effSwap_result k a u (xword s (s.tile k).xreg[a.xr]) addr words half g
    (by rw [issued_xword, issued_xreg]) rfl rfl rfl hremote haddr hseg' hbad
  obtain ⟨p, n, q, htile⟩ := hs.tile
  rw [setTile_tile_self] at htile
  have hvk : v.tile k = { v1.tile k with lastSeg := setAt (v1.tile k).lastSeg half addr } := by
    rw [hv, modTile, setTile_tile_self]; rfl
  have hstore : u.store = s.store := by
    obtain ⟨_, _, _, _, _, hu⟩ := issued_parts (.swap a) r w s
    show (issued (.swap a) r w s).store = s.store
    rw [hu]
  have hnext : exec (.swap r w a) s = .next (setTile k (movedOn (v.tile k)) v) :=
    congrArg Host.Outcome.next (issue_sameSequencer (.swap a) r w (effSwap k a) s v h hn he (by rw [hvk, htile]; exact ⟨rfl, rfl, rfl⟩))
  refine ⟨_, p, n, q, hnext, ?store, ?tile, ?others, ?counts, ?frame⟩
  case store => rw [setTile_store, hv, modTile_store, hstore]
  case tile => rw [setTile_tile_self, hvk, htile]
  case others =>
    intro j hj
    rw [setTile_tile_ne _ _ _ _ hj.symm, hv, modTile_tile_ne _ _ _ _ hj.symm]
    exact (hs.others j hj).trans ((setTile_tile_ne _ _ _ _ hj.symm).trans (issued_tile_ne _ r w s j hj))
  case counts =>
    have hc := hs.cnt
    rw [keyDie_tileKey] at hc
    have hvc : countsOnly r.die.val v1 v := countsOnly_regs (by rw [hv]; rfl)
    exact ((issued_counts _ r w s).trans (countsOnly_regs rfl)).trans ((hc.trans hvc).trans (countsOnly_regs rfl))
  case frame =>
    rw [hv]
    exact hs.swapped hm hb

/-! ### Slice descriptors -/

/-- A slice worked off and its tile moved on: what differs. -/
theorem sliced_frame (k : Nat) (A T : Tile) (m : Memory) (b : List Nat) (g : SMap Nat) (tb : Tables) (u : State) :
    let v := setTile k A { setTile k T u with mem := m, bad := b, regs := g, tables := tb }
    v = { u with mem := v.mem, bad := v.bad, tiles := v.tiles, regs := v.regs, tables := v.tables } := rfl

/-- A slice instruction whose descriptor can be worked off at once (R88). -/
theorem runsSlice_of (op : TileOp) (fn ctx : Nat) (ps : Fin 16) (tk : Option (Fin 64)) (r : TileRef) (w : WaitField) (s : State) :
    runsSlice op fn ctx ps tk r w s (.next (powered (fun s => if sliceReady s (tileKey r) fn ps ctx then
      issue op (tileKey r) w (effSlice (tileKey r) fn ps ctx tk (opBits op w)) s else s) s)) := by
  unfold runsSlice
  intro k u p j rs n x q out h hready hn houtside hid heval hevs hentries hmerges hstores
  have heff := effSlice_result k fn ps ctx tk (opBits op w) u out p j rs (by rw [issued_ptr]) rfl rfl (issued_outside op r w s houtside)
    (by rw [issued_xfers]; exact hid) heval rfl
  obtain ⟨b, g, tb, happly, hregs⟩ := applySlice_plain k n j.op out (setTile k { u.tile k with nextXfer := n + 1, xfers := (u.tile k).xfers ++ [x none] } u)
    hevs hentries hmerges hstores
  rw [keyDie_tileKey] at hregs
  have hnext := issue_sameSequencer op r w (effSlice k fn ps ctx tk (opBits op w)) s _ h hn heff ?sequencer
  · rw [happly] at hnext
    refine ⟨_, congrArg Host.Outcome.next ((powered_guard (fun s => sliceReady s k fn ps ctx) _ s hready).trans hnext), rfl, ?tile, ?others, ?regs, sliced_frame ..⟩
    case tile =>
      rw [setTile_tile_self]
      exact congrArg movedOn (setTile_tile_self k _ u)
    case others =>
      intro i hi
      rw [setTile_tile_ne _ _ _ _ hi.symm]
      exact (setTile_tile_ne k i _ u hi.symm).trans (issued_tile_ne op r w s i hi)
    case regs =>
      intro y hy hcnt
      exact (hregs y hcnt).trans (issued_counts op r w s y hy)
  · rw [happly]
    exact (congrArg (fun T => SameSequencer T (u.tile k)) (setTile_tile_self k _ u)).mpr ⟨rfl, rfl, rfl⟩

/-- Settles O21: SAMPLE and the four TBL functions are slices. -/
theorem sliceDescriptors : Obligations.SliceDescriptors := fun r w s =>
  ⟨fun a => runsSlice_of (.sample a) 4 a.ctx.toNat a.ps _ r w s, fun a => runsSlice_of (.tbl 0 a) 0 0 a.ps _ r w s,
    fun a => runsSlice_of (.tbl 1 a) 1 0 a.ps _ r w s, fun a => runsSlice_of (.tbl 2 a) 2 0 a.ps _ r w s,
    fun a => runsSlice_of (.tbl 3 a) 3 0 a.ps _ r w s⟩

end Sys2Proof.Machine
end

section
/-!
STEP_START (R62, R86, R89, R90, R224, R225): the first tile begins the attempt, each tile enters it.
-/

namespace Sys2Proof.Machine
open Sys2Proof

theorem startAllowed_runs (s : State) (h : startAllowed s = true) : s.life = .running ∨ s.life = .spare := by
  unfold startAllowed at h
  simp only [Bool.and_eq_true] at h
  obtain ⟨⟨⟨⟨⟨⟨⟨⟨⟨⟨⟨hruns, _⟩, _⟩, _⟩, _⟩, _⟩, _⟩, _⟩, _⟩, _⟩, _⟩, _⟩ := h
  simpa [runsTiles] using hruns

/-- No second attempt begins beside one. -/
theorem startAllowed_attempt (s : State) (h : s.step.phase = .attempt) : startAllowed s = false := by
  simp [startAllowed, h]

/-- A tile that waits for its step start. -/
def idleTile (t : Tile) : Tile := { t with run := .idle }

/-- Every tile, listed or not, is idle when its attempt begins (R89). -/
theorem idleTiles_tile (s t : State) (j : Nat) (h : t.tiles = s.tiles.map (fun p => (p.1, idleTile p.2))) : t.tile j = idleTile (s.tile j) := by
  unfold State.tile smGetD
  rw [h, smFind_map]
  cases smFind s.tiles j with
  | none => rfl
  | some x => rfl

theorem running_ne_off {p : PkgState} (h : p = .running ∨ p = .spare) : p ≠ .off := by
  rintro rfl
  obtain h | h := h <;> cases h

/-- STEP_START of a tile for which nothing was held, in the state its attempt runs in (R90). -/
theorem opStepStart_enters (k : Nat) (s u : State) (hu : u = if startAllowed s then beginAttempt s else s)
    (hh : ∀ h, nth (u.tile k).lastSeg h = nth (u.tile k).startSeg h) (hx : (u.tile k).xfers = [])
    (hgal : u.gal.runs.any (fun g => g.key == k) = false) (he : ∀ d, u.early.getD d [] = []) (hl : keyDie k < u.early.length)
    (hlife : u.life = .running ∨ u.life = .spare) (hphase : u.step.phase = .attempt) (hcauses : u.step.causes = []) (hrun : (u.tile k).run = .idle) :
    opStepStart k s = setTile k (freshTile (u.tile k) (u.dieTags.getD (keyDie k) 0) (modeWord u k)) u := by
  rw [opStepStart, ← hu]
  exact stepStart_enters k u hh hx hgal he hl hlife hphase hcauses hrun

/-- Settles O34: the attempt's first tile opens it, and then enters it as every other does. -/
theorem stepStart : Obligations.StepStart := by
  intro r s k tag hseg hx hgal hearly hlen hheld hres
  have hdie : keyDie k < 4 := by rw [keyDie_tileKey]; exact r.die.isLt
  refine ⟨fun hstart => ?first, fun hlife hphase hcauses hrun => ?later⟩
  case first =>
    have hlife := startAllowed_runs s hstart
    obtain ⟨hregs, hphase, hcauses, hattempt, hquiet, hu⟩ := beginAttempt_plain s hearly hlen hheld hres
    generalize hb : beginAttempt s = u at hregs hphase hcauses hattempt hquiet hu
    have htile : ∀ j, u.tile j = idleTile (s.tile j) := fun j => idleTiles_tile s u j (by rw [hu]; rfl)
    have htags : u.dieTags = List.replicate 4 tag := by rw [hu]
    have hgo := opStepStart_enters k s u (by rw [if_pos hstart, hb]) (by rw [htile]; exact hseg) (by rw [htile]; exact hx)
      (by rw [hu]; exact hgal) (by rw [hu]; exact hearly) (by rw [hu]; exact hdie.trans_eq hlen.symm) (by rw [hu]; exact hlife)
      hphase hcauses (by rw [htile]; rfl)
    refine ⟨_, modeWord u k, congrArg Host.Outcome.next ((powered_on _ s (running_ne_off hlife)).trans hgo), ?tile, hphase, hcauses,
      hattempt, hquiet, htags, ?idle, ?mem, ?life, ?stepNo, ?out⟩
    case tile =>
      rw [setTile_tile_self, htile, htags, List.getD_replicate _ hdie]
      rfl
    case idle =>
      intro j hj
      rw [setTile_tile_ne _ _ _ _ hj.symm, htile]; rfl
    case mem => rw [setTile_mem, hu]
    case life => rw [setTile_life, hu]
    case stepNo => exact hregs 0x500001 (by decide) (by decide) (by decide)
    case out => rw [setTile_out, hu]
  case later =>
    refine congrArg Host.Outcome.next ((powered_on _ s (running_ne_off hlife)).trans ?_)
    rw [opStepStart_enters k s s (by rw [startAllowed_attempt s hphase]; rfl) hseg hx hgal hearly (hdie.trans_eq hlen.symm) hlife
      hphase hcauses hrun, keyDie_tileKey]

end Sys2Proof.Machine
end

section
/-!
What a message does where it arrives (R84, R86, R310-R313, R317).
-/

namespace Sys2Proof.Machine
open Sys2Proof

/-! ### Messages that are next of their flow -/

/-- A message that is next of its flow has its effect and is counted as received. -/
theorem arrival_next (m : Msg) (c : Instr) (s u : State) (h : nextInFlow m s) (hc : arrival m = some c) (h5 : m.type ≠ 5) (h9 : m.type ≠ 9)
    (hu : applyMsg m s = u) (hr : u.flowsRx = s.flowsRx) (he : u.epoch = s.epoch) : exec c s = .next (received m u) := by
  obtain ⟨hexec, htyped⟩ := arrival_exec m c s hc (.inl h.1)
  rw [hexec, deliver_next m s h htyped h5 h9 (by rw [hu, hr]) (by rw [hu, he]), hu]

theorem applyMsg_write (m : Msg) (s : State) (h : m.type = 1) : applyMsg m s = applyWrite m s := by rw [applyMsg, h]; rfl
theorem applyMsg_read (m : Msg) (s : State) (h : m.type = 2) : applyMsg m s = applyRead m s := by rw [applyMsg, h]; rfl
theorem applyMsg_readRsp (m : Msg) (s : State) (h : m.type = 3) : applyMsg m s = applyReadRsp m s := by rw [applyMsg, h]; rfl
theorem applyMsg_signal (m : Msg) (s : State) (h : m.type = 4) : applyMsg m s = applySignal m s := by rw [applyMsg, h]; rfl

/-! ### WRITE -/

/-- Up to the end of the stacks no address is a tile's window (R16). -/
theorem placeOf_ne_window (a : Nat) (h : a ≤ stackEnd) (k l : Nat) : placeOf a ≠ .window k l := by
  have hlow : ¬(windowBase ≤ a ∧ a < windowBase + 4 * 0x8000_0000) := by unfold windowBase; unfold stackEnd at h; omega
  unfold placeOf
  rw [if_neg hlow]
  split
  · exact Place.noConfusion
  · split <;> exact Place.noConfusion

/-- An address of a tile's window is above the stacks and below the control space (R16). -/
theorem placeOf_window_range (a k l : Nat) (h : placeOf a = .window k l) : windowBase ≤ a ∧ a < windowBase + 4 * 0x8000_0000 := by
  by_contra hout
  unfold placeOf at h
  rw [if_neg hout] at h
  split at h
  · exact Place.noConfusion h
  · split at h <;> exact Place.noConfusion h

/-- The lines of a WRITE, with what they are noted as (R311, R415). -/
def linesWritten (m : Msg) (s : State) : State :=
  noteMirror m (allOf (List.range (m.data.length / 64)) (fun i => writeLine m ((m.addr.toNat + 64 * i) % 2 ^ 44) (sliceBytes m.data (64 * i) 64)) s)

/-- A WRITE to the stacks that is no gradient entry writes its lines alone (R311). -/
theorem applyWrite_stack (m : Msg) (s : State) (ha : m.addr.toNat ≤ stackEnd) (hentry : entryShard s m.addr.toNat = none) :
    applyWrite m s = linesWritten m s := by
  have harea : ¬(recoveryArea ≤ m.addr.toNat ∧ m.addr.toNat < recoveryArea + 0x1_0000) := by
    unfold recoveryArea; unfold stackEnd at ha; omega
  rw [applyWrite, if_neg harea]
  simp only [hentry]
  split
  · next k l hplace => exact absurd hplace (placeOf_ne_window _ ha k l)
  · rfl

/-- A WRITE with a token to a tile's window writes its lines, then the token arrives (R86, R311). -/
theorem applyWrite_window (m : Msg) (s : State) (k l : Nat) (hplace : placeOf m.addr.toNat = .window k l)
    (hentry : entryShard s m.addr.toNat = none) (hdte : m.dte = true) (hlive : tilesLive (linesWritten m s) = true) :
    applyWrite m s = arriveToken k m.stag m.dtk 1 (linesWritten m s) := by
  have harea : ¬(recoveryArea ≤ m.addr.toNat ∧ m.addr.toNat < recoveryArea + 0x1_0000) := by
    have := placeOf_window_range _ k l hplace
    unfold recoveryArea; unfold windowBase at this; omega
  rw [applyWrite, if_neg harea]
  simp only [hentry, hplace]
  rw [hdte]
  exact if_pos hlive

/-- A message that carries no generation header is not noted (R415). -/
theorem noteMirror_other (m : Msg) (s : State) (h : m.data.length ≠ 64 ∨ inStaging s m.addr.toNat = false) : noteMirror m s = s := by
  rw [noteMirror]
  dsimp only
  rw [if_neg]
  rintro ⟨hlen, hstaging, -⟩
  obtain h | h := h
  · exact h hlen
  · rw [h] at hstaging
    cases hstaging

/-- Actions one after another that agree as long as a property holds that they keep. -/
theorem allOf_congr_inv {α : Type} (P : State → Prop) (xs : List α) (f g : α → State → State)
    (h : ∀ x ∈ xs, ∀ s, P s → f x s = g x s ∧ P (g x s)) (s : State) (hs : P s) : allOf xs f s = allOf xs g s := by
  unfold allOf
  induction xs generalizing s with
  | nil => rfl
  | cons x xs ih =>
    obtain ⟨heq, hkeep⟩ := h x (List.mem_cons_self ..) s hs
    rw [List.foldl_cons, List.foldl_cons, heq]
    exact ih (fun y hy => h y (List.mem_cons_of_mem _ hy)) _ hkeep

/-- A line of a WRITE to a stack page that backs no paged region (R262). -/
theorem writeLine_stack (m : Msg) (a : Nat) (bs : List Byte) (s : State) (ha : a < stackEnd) (hp : bitAt (pageAttr s a) 3 = false) :
    writeLine m a bs s = putMem a bs s := by
  rw [writeLine, placeOf_stack a ha]
  simp [hp]

/-- The lines of a WRITE to stack pages that back no paged region. -/
theorem linesWritten_stack (m : Msg) (n : Nat) (s : State) (hlen : m.data.length = 64 * n) (hend : m.addr.toNat + 64 * n ≤ stackEnd)
    (hp : ∀ i < n, bitAt (pageAttr s (m.addr.toNat + 64 * i)) 3 = false) (hn : n ≠ 1 ∨ inStaging s m.addr.toNat = false) :
    linesWritten m s = allOf (List.range n) (fun i => putMem (m.addr.toNat + 64 * i) (sliceBytes m.data (64 * i) 64)) s := by
  have hlines : m.data.length / 64 = n := by omega
  have hcopy : allOf (List.range n) (fun i => writeLine m ((m.addr.toNat + 64 * i) % 2 ^ 44) (sliceBytes m.data (64 * i) 64)) s =
      allOf (List.range n) (fun i => putMem (m.addr.toNat + 64 * i) (sliceBytes m.data (64 * i) 64)) s := by
    refine allOf_congr_inv (fun u => u.pages = s.pages) _ _ _ (fun i hi u hu => ?_) s rfl
    have hi' := List.mem_range.mp hi
    have hlt : m.addr.toNat + 64 * i < stackEnd := by omega
    have hmod : (m.addr.toNat + 64 * i) % 2 ^ 44 = m.addr.toNat + 64 * i := Nat.mod_eq_of_lt (by unfold stackEnd at hlt; omega)
    rw [hmod]
    exact ⟨writeLine_stack m _ _ u hlt (by rw [pageAttr, hu]; exact hp i hi'), hu⟩
  obtain ⟨mem, bad, hframe⟩ := allOf_putMem (List.range n) (fun i => m.addr.toNat + 64 * i) (fun i => sliceBytes m.data (64 * i) 64) s
  rw [linesWritten, hlines, hcopy, noteMirror_other]
  rw [hframe]
  exact hn.imp (fun h => by omega) id

/-- A line to a tile of the current step, and to no staging pool, is put (R86). -/
theorem linesWritten_window (m : Msg) (s : State) (k l : Nat) (hplace : placeOf m.addr.toNat = .window k l) (hlen : m.data.length = 64)
    (hstaging : inStaging s m.addr.toNat = false) (hlive : tilesLive s = true) (htag : m.stag = (s.tile k).tag) :
    linesWritten m s = putLine k l m.data s := by
  have hmod : (m.addr.toNat + 64 * 0) % 2 ^ 44 = m.addr.toNat := Nat.mod_eq_of_lt (by have := m.addr.isLt; omega)
  have hslice : sliceBytes m.data (64 * 0) 64 = m.data := by
    simp [sliceBytes, hlen, List.take_of_length_le hlen.le]
  have hline : writeLine m m.addr.toNat m.data s = putLine k l m.data s := by
    rw [writeLine, hplace]
    dsimp only
    rw [if_pos hlive, arriveLine, byTag_current _ _ _ _ _ _ htag]
  have hone : List.range (m.data.length / 64) = [0] := by rw [hlen]; rfl
  rw [linesWritten, hone]
  show noteMirror m (writeLine m ((m.addr.toNat + 64 * 0) % 2 ^ 44) (sliceBytes m.data (64 * 0) 64) s) = _
  rw [hmod, hslice, hline, noteMirror_other]
  exact Or.inr hstaging

/-! ### READ, READRSP and SIGNAL -/

/-- A line of the stacks that can be read (R255, R262). -/
theorem readLine_stack (m : Msg) (a : Nat) (bs : List Byte) (s : State) (ha : a < stackEnd) (hp : bitAt (pageAttr s a) 3 = false)
    (hb : badStack s a 64 = false) : readLine m a (bs, s) = (bs ++ s.bytes a 64, s) := by
  rw [readLine, placeOf_stack a ha]
  simp [hp, hb]

/-- Lines of the stacks read one after another. -/
theorem readLines_stack (m : Msg) (xs : List Nat) (bs : List Byte) (s : State)
    (h : ∀ a ∈ xs, a < stackEnd ∧ bitAt (pageAttr s a) 3 = false ∧ badStack s a 64 = false) :
    xs.foldl (fun r a => readLine m a r) (bs, s) = (bs ++ xs.flatMap (fun a => s.bytes a 64), s) := by
  induction xs generalizing bs with
  | nil => simp
  | cons a xs ih =>
    obtain ⟨ha, hp, hb⟩ := h a (List.mem_cons_self ..)
    rw [List.foldl_cons, readLine_stack m a bs s ha hp hb, ih _ (fun x hx => h x (List.mem_cons_of_mem _ hx)), List.flatMap_cons,
      List.append_assoc]

/-- A READ of stack lines is answered with a READRSP that holds them (R311). -/
theorem applyRead_stack (m : Msg) (s : State) (n : Nat) (hn : bitField m.body.toNat 255 250 + 1 = n) (hend : m.addr.toNat + 64 * n ≤ stackEnd)
    (h : ∀ i < n, bitAt (pageAttr s (m.addr.toNat + 64 * i)) 3 = false ∧ badStack s (m.addr.toNat + 64 * i) 64 = false) :
    applyRead m s = sendMsg (msgDie m) none
      { type := 3, dst := m.src, src := m.dst, stag := s.dieTags.getD (msgDie m) 0, addr := m.addr,
        data := (List.range n).flatMap (fun i => s.bytes (m.addr.toNat + 64 * i) 64) } s := by
  have hlines : (List.range n).map (fun i => (m.addr.toNat + 64 * i) % 2 ^ 44) = (List.range n).map (fun i => m.addr.toNat + 64 * i) := by
    apply List.map_congr_left
    intro i hi
    have := List.mem_range.mp hi
    exact Nat.mod_eq_of_lt (by unfold stackEnd at hend; omega)
  have hin : ∀ a ∈ (List.range n).map (fun i => m.addr.toNat + 64 * i),
      a < stackEnd ∧ bitAt (pageAttr s a) 3 = false ∧ badStack s a 64 = false := by
    intro a ha
    obtain ⟨i, hi, rfl⟩ := List.mem_map.mp ha
    have := List.mem_range.mp hi
    exact ⟨by omega, h i this⟩
  have hmem : ((List.range n).map (fun i => m.addr.toNat + 64 * i)).any (fun a => !isMemory a) = false := by
    rw [List.any_eq_false]
    intro a ha
    simp [isMemory, placeOf_stack a (hin a ha).1]
  unfold applyRead
  dsimp only
  rw [hn, hlines, hmem, readLines_stack m _ [] s hin, List.flatMap_map]
  rfl

/-- A READRSP that answers a read of a tile fills its lines and answers the transfer (R82, R311). -/
theorem applyReadRsp_tile (m : Msg) (s : State) (r : ReadReq) (k id l : Nat)
    (hf : s.reads.find? (fun r => r.addr == m.addr.toNat && r.dst == m.src.toNat && r.src == m.dst.toNat) = some r)
    (hwho : r.who = .tile k id l) (hg : r.gather = false) (herr : bitAt m.body.toNat 255 = false) (hx : (findXfer (s.tile k) id).isSome = true) :
    applyReadRsp m s = answerXfer k id (fillTile k l m.data { s with reads := s.reads.erase r }) := by
  have hx' : (findXfer (({ s with reads := s.reads.erase r } : State).tile k) id).isSome = true := hx
  simp only [applyReadRsp, hf, answerRead, hwho, herr, hg, Bool.false_and, Bool.false_eq_true, if_false, if_pos hx']

/-- A SIGNAL to a tile of the current step counts (R84). -/
theorem applySignal_tile (m : Msg) (s : State) (htile : epTile m.dst.toNat < 768) (hlive : tilesLive s = true)
    (htag : m.stag = (s.tile (msgDie m * 768 + epTile m.dst.toNat)).tag) :
    applySignal m s = addToken (msgDie m * 768 + epTile m.dst.toNat) (Fin.ofNat 64 (bitField m.body.toNat 239 234)) (bitField m.body.toNat 255 240) s := by
  unfold applySignal
  dsimp only
  rw [if_pos htile, if_pos hlive, arriveToken, byTag_current _ _ _ _ _ _ htag]

/-! ### Messages that have no effect of their own -/

theorem arrival_type (m : Msg) (c : Instr) (h : arrival m = some c) : m.type ≠ 9 := by
  intro h9
  rw [arrival, h9] at h
  cases h

/-- A count and an event: the record is there, the counter has counted, and nothing else changes. -/
theorem raiseAt_bumpReg (e d tile sub op k n : Nat) (s : State) (hk : k ≠ 0x702008) :
    let v := raiseAt e d tile sub op (bumpReg k n s)
    raised e v ∧ v.reg k = (s.reg k + n) % 2 ^ counterBits k ∧ v = { s with regs := v.regs, trunk := v.trunk, evBatch := v.evBatch } := by
  intro v
  obtain ⟨hraised, -, hregs, a, b, c, hframe⟩ := raiseUnit_frame e (endpoint (bumpReg k n s) d tile) sub op (bumpReg k n s)
  have hv : v = { bumpReg k n s with regs := a, trunk := b, evBatch := c } := hframe
  refine ⟨hraised, (hregs k hk).trans (bumpReg_reg_self k n s), ?_⟩
  rw [hv]
  rfl

/-- A message that fails its check (R310). -/
theorem deliver_broken (m : Msg) (s : State) (ht : typeDefined m.type = true) (hd : endpointDefined (msgDie m) (epTile m.dst.toNat) = true)
    (hi : msgIntact m = false) :
    deliver m s = raiseAt 0x4009 (msgDie m) 768 0 m.type.toNat (bumpReg (dieKey (msgDie m) 0x818013) 1 s) := by
  simp [deliver, ht, hd, hi]

/-- A message for no endpoint (R310). -/
theorem deliver_noEndpoint (m : Msg) (s : State) (ht : typeDefined m.type = true)
    (hd : endpointDefined (msgDie m) (epTile m.dst.toNat) = false) : deliver m s = discardMsg 0x4005 (msgDie m) m s := by
  simp [deliver, ht, hd]

/-- An intact message of this route epoch stands in the order of its flow (R313). -/
theorem deliver_inOrder (m : Msg) (s : State) (ht : typeDefined m.type = true) (hf : forThis m s) (hi : msgIntact m = true)
    (he : m.repoch.toNat = s.epoch) (h5 : m.type ≠ 5) : deliver m s = inOrder m s := by
  obtain ⟨-, -, hd⟩ := hf
  rw [deliver, ht, hd, hi]
  simp only [Bool.not_true, Bool.false_eq_true, if_false]
  rw [if_pos (.inl he), if_neg h5,
    if_neg (fun h => h.2 he)]

/-- An intact message of another route epoch that is no ROUTE is dropped (R317). -/
theorem deliver_otherEpoch (m : Msg) (s : State) (ht : typeDefined m.type = true) (hf : forThis m s) (hi : msgIntact m = true)
    (he : m.repoch.toNat ≠ s.epoch) (h9 : m.type ≠ 9) : deliver m s = s := by
  obtain ⟨-, -, hd⟩ := hf
  rw [deliver, ht, hd, hi]
  simp only [Bool.not_true, Bool.false_eq_true, if_false]
  rw [if_neg]
  rintro (h | ⟨h, -⟩)
  · exact he h
  · exact h9 h

/-- A message ahead of its turn waits for it (R313). -/
theorem inOrder_ahead (m : Msg) (s : State) (h0 : (m.eseq - (s.flowRx (rxKey m)).expected).toNat ≠ 0)
    (h1 : (m.eseq - (s.flowRx (rxKey m)).expected).toNat ≤ 4095) (hnew : ∀ x ∈ (s.flowRx (rxKey m)).held, x.eseq ≠ m.eseq)
    (hroom : heldCount s (msgDie m) < 4096) :
    inOrder m s = bumpReg (dieKey (msgDie m) 0x81800F) 1
      (setRx (rxKey m) { s.flowRx (rxKey m) with held := (s.flowRx (rxKey m)).held ++ [m] } s) := by
  have hnone : (s.flowRx (rxKey m)).held.any (fun x => decide (x.eseq = m.eseq)) = false := by
    rw [List.any_eq_false]
    intro x hx
    simpa using hnew x hx
  unfold inOrder
  dsimp only
  rw [if_neg h0, if_pos h1, hnone, if_neg Bool.false_ne_true, if_neg (by omega)]

/-- A message that repeats an old one is acknowledged again (R313). -/
theorem inOrder_old (m : Msg) (s : State) (h : 4095 < (m.eseq - (s.flowRx (rxKey m)).expected).toNat) :
    inOrder m s = sendAck (rxKey m) (bumpReg (dieKey (msgDie m) 0x81800E) 1 s) := by
  unfold inOrder
  dsimp only
  rw [if_neg (by omega), if_neg (by omega)]

/-- Settles O48: the effect of each message in its turn, and what becomes of one that has none. -/
theorem messageArrival : Obligations.MessageArrival := by
  intro m s a d
  refine ⟨fun n h1 hnext hlen hend hpages hentry hn => ?write, fun k l h1 hnext hlen hplace hentry hstaging hlive hdte htag htok => ?put,
    fun h2 hnext => ?read, fun r k id l h3 hnext hf hwho hg herr hx => ?readRsp,
    fun k h4 hnext hk htile hlive htag => ?signal, fun c hc h5 => ?others⟩
  case write =>
    have happly : applyMsg m s = allOf (List.range n) (fun i => putMem (a + 64 * i) (sliceBytes m.data (64 * i) 64)) s := by
      rw [applyMsg_write m s h1, applyWrite_stack m s (by omega) hentry, linesWritten_stack m n s hlen hend hpages hn]
    obtain ⟨mem, bad, hframe⟩ := allOf_putMem (List.range n) (fun i => a + 64 * i) (fun i => sliceBytes m.data (64 * i) 64) s
    exact arrival_next m _ s _ hnext (by rw [arrival, h1]; rfl) (by rw [h1]; decide) (by rw [h1]; decide) happly
      (by rw [hframe]) (by rw [hframe]; rfl)
  case put =>
    have hlines := linesWritten_window m s k l hplace hlen hstaging hlive htag
    have htile : (putLine k l m.data s).tile k = { s.tile k with outside := ((putLine k l m.data s).tile k).outside } := by
      rw [putLine_tile_self]
    have happly : applyMsg m s = addToken k m.dtk 1 (putLine k l m.data s) := by
      rw [applyMsg_write m s h1, applyWrite_window m s k l hplace hentry hdte (by rw [hlines]; exact hlive), hlines, arriveToken,
        byTag_current _ _ _ _ _ _ (by rw [htile]; exact htag)]
    obtain ⟨hrx, hepoch⟩ := addToken_frame k m.dtk 1 (putLine k l m.data s) (by rw [htile]; exact htok)
    exact arrival_next m _ s _ hnext (by rw [arrival, h1]; rfl) (by rw [h1]; decide) (by rw [h1]; decide) happly hrx hepoch
  case read =>
    intro n hend hlines
    have hnet := sendMsg_net d none
      { type := 3, dst := m.src, src := m.dst, stag := s.dieTags.getD d 0, addr := m.addr,
        data := (List.range n).flatMap (fun i => s.bytes (a + 64 * i) 64) } s
    refine arrival_next m _ s _ hnext (by rw [arrival, h2]; rfl) (by rw [h2]; decide) (by rw [h2]; decide)
      ((applyMsg_read m s h2).trans (applyRead_stack m s n rfl hend hlines)) ?_ (hnet.low 0x400006 (by decide))
    rw [hnet.rest]
  case readRsp =>
    obtain ⟨mem, bad, hframe⟩ := allOf_putMem (List.range (m.data.length / 64)) (fun i => tileBase k + localAddr (l + 64 * i))
      (fun i => sliceBytes m.data (64 * i) 64) { s with reads := s.reads.erase r }
    refine arrival_next m _ s _ hnext (by rw [arrival, h3]; rfl) (by rw [h3]; decide) (by rw [h3]; decide)
      ((applyMsg_readRsp m s h3).trans (applyReadRsp_tile m s r k id l hf hwho hg herr hx)) ?_ ?_ <;>
    · rw [fillTile, hframe]
      rfl
  case signal =>
    intro cnt tk htok
    have happly : applyMsg m s = addToken k tk cnt s := by
      rw [applyMsg_signal m s h4, applySignal_tile m s htile hlive (by rw [← hk]; exact htag), ← hk]
    obtain ⟨hrx, hepoch⟩ := addToken_frame k tk cnt s htok
    exact arrival_next m _ s _ hnext (by rw [arrival, h4]; rfl) (by rw [h4]; decide) (by rw [h4]; decide) happly hrx hepoch
  case others =>
    refine ⟨fun hf hi => ?broken, fun hlive hcoord hd => ?noEndpoint, fun hf hi he => ?order, fun hf hi he => ?epoch⟩
    case broken =>
      obtain ⟨hexec, ht⟩ := arrival_exec m c s hc (.inl hf)
      rw [hexec, deliver_broken m s ht hf.2.2 hi]
      exact ⟨_, rfl, raiseAt_bumpReg 0x4009 d 768 0 m.type.toNat _ 1 s (by unfold dieKey; omega)⟩
    case noEndpoint =>
      obtain ⟨hexec, ht⟩ := arrival_exec m c s hc (.inr ⟨hlive, hcoord⟩)
      obtain ⟨hraised, -, hframe⟩ := raiseAt_bumpReg 0x4005 d 768 0 m.type.toNat (dieKey d 0x818012) 1 s (by unfold dieKey; omega)
      rw [hexec, deliver_noEndpoint m s ht hd]
      exact ⟨_, rfl, hraised, hframe⟩
    case order =>
      intro f ahead
      obtain ⟨hexec, ht⟩ := arrival_exec m c s hc (.inl hf)
      rw [hexec, deliver_inOrder m s ht hf hi he h5]
      exact ⟨fun h0 h1 hnew hroom => congrArg Host.Outcome.next (inOrder_ahead m s h0 h1 hnew hroom),
        fun hold => congrArg Host.Outcome.next (inOrder_old m s hold)⟩
    case epoch =>
      obtain ⟨hexec, ht⟩ := arrival_exec m c s hc (.inl hf)
      rw [hexec, deliver_otherEpoch m s ht hf hi he (arrival_type m c hc)]

end Sys2Proof.Machine
end

section
/-!
Gradient reduction (R325-R342): what a REDUCE message does at a position, REDUCTION_START, and the Catcher deadline.
-/

namespace Sys2Proof.Machine
open Sys2Proof

/-! ### A message of the current step at a non-leaf position -/

/-- A REDUCE message of the current step has its effect, and then the queue within the package is worked off (R335). -/
theorem reduceCommand_now (d : Fin 4) (m : ReduceMsg) (c : Instr) (s : State) (hc : reduceCommand d m = some c) (hl : tilesLive s = true)
    (htag : m.stag = s.dieTags.getD d 0) : exec c s = .next (drainReduce reduceFuel (applyReduce d m s)) := by
  rw [reduceCommand_exec d m c s hc hl, arriveReduce_now d m s htag]

/-- CODES at a position: the codes of the message are kept for the position (R329). -/
theorem takeCodes_known (i : Nat) (n : Node) (m : ReduceMsg) (s : State) (h : beyondChildren n (s.nodeRt i) m = false) :
    let r := s.nodeRt i
    let c := childFor r m
    takeCodes i n m s = progress i n (setNodeRt i (putChild r { c with codes :=
      (List.range (min m.data.length (n.groups - m.group.toNat))).foldl (fun cs j => smPut cs (m.group.toNat + j) (leAt m.data j 1)) c.codes }) s) := by
  rw [takeCodes, h]
  rfl

/-- The groups of a SUM, RAW or ONEBIT message, numbered. -/
def numberedGroups (m : ReduceMsg) : List (Nat × List Int × Nat) := (List.range m.ngrp).zip (msgGroups m)

/-- The groups that a position has not yet from a child (R334). -/
def freshGroups (n : Node) (c : ChildIn) (m : ReduceMsg) : List (Nat × List Int × Nat) :=
  (numberedGroups m).filter (fun p => (smFind c.vals (m.group.toNat + p.1)).isNone && decide (m.group.toNat + p.1 < n.groups))

/-- A child's input with the groups of a message added. -/
def withGroups (n : Node) (c : ChildIn) (m : ReduceMsg) : ChildIn :=
  { c with vals := (freshGroups n c m).foldl (fun v p => smPut v (m.group.toNat + p.1) p.2) c.vals,
           codes := if m.op = 6 then
             (List.range m.ngrp).foldl (fun cs j => smPut cs (m.group.toNat + j) (leAt m.data (m.ngrp * 128 + 64 + j) 1)) c.codes else c.codes }

/-- Does the tally of some group of the message not match its values (R333)? -/
def tallyWrong (m : ReduceMsg) : Bool := (numberedGroups m).any (fun p => tally p.2.1 != p.2.2)

theorem tallyWrong_iff (m : ReduceMsg) : tallyWrong m = true ↔ ∃ p ∈ numberedGroups m, tally p.2.1 ≠ p.2.2 := by
  simp [tallyWrong]

theorem tallyWrong_false (m : ReduceMsg) (h : ∀ p ∈ numberedGroups m, tally p.2.1 = p.2.2) : tallyWrong m = false := by
  rw [Bool.eq_false_iff, Ne, tallyWrong_iff]
  rintro ⟨p, hp, hne⟩
  exact hne (h p hp)

/-- The values of a message kept at a position, counted, and the peak of the buffers' use (R331). -/
def valuesKept (i : Nat) (n : Node) (m : ReduceMsg) (s : State) : State :=
  let c := childFor (s.nodeRt i) m
  let u := setNodeRt i (putChild (s.nodeRt i) (withGroups n c m)) (bumpReg (dieKey n.die 0x81A001) (freshGroups n c m).length s)
  highReg (dieKey n.die 0x81A008) (bufferKiB u n.die) u

theorem valuesKept_frame (i : Nat) (n : Node) (m : ReduceMsg) (s : State) :
    valuesKept i n m s = { s with regs := (valuesKept i n m s).regs, reduce := (valuesKept i n m s).reduce } := rfl

theorem valuesKept_nodeRt (i : Nat) (n : Node) (m : ReduceMsg) (s : State) :
    (valuesKept i n m s).nodeRt i = putChild (s.nodeRt i) (withGroups n (childFor (s.nodeRt i) m) m) := nodeRt_set i _ _

/-- SUM, RAW or ONEBIT at a position (R331, R334). -/
theorem takeValues_known (i : Nat) (n : Node) (m : ReduceMsg) (s : State) (h : beyondChildren n (s.nodeRt i) m = false) :
    let r := s.nodeRt i
    let c := childFor r m
    let v := bumpReg (dieKey n.die 0x81A002) 1 s
    takeValues i n m s = if tallyWrong m then
        (if c.retried.contains m.group.toNat then residueFailed m.src.toNat m.layer.toNat m.shard.toNat v
          else sendReduce n.die m.src.toNat { m with op := 7, width := false, data := [] }
            (setNodeRt i (putChild r { c with retried := c.retried ++ [m.group.toNat] }) (bumpReg (dieKey n.die 0x81A004) m.ngrp v)))
      else progress i n (valuesKept i n m s) := by
  rw [takeValues, h]
  rfl

/-- A failed residue check: its event, the engine named, and cause 8 (R334). -/
theorem residueFailed_result (src layer shard : Nat) (s : State) :
    let t := residueFailed src layer shard s
    raised 0x7004 t ∧ t.step.engine = some (epCoord src, epDie src) ∧ (s.step.phase = .attempt → 8 ∈ t.step.causes) ∧ t.reduce = s.reduce := by
  obtain ⟨hraised, -, -, a, b, c, hframe⟩ := raiseUnit_frame 0x7004 (src / 1024 * 1024 + 768) 0 (atBit 16 layer + shard) s
  obtain ⟨u, hu⟩ : ∃ u, u = raiseUnit 0x7004 (src / 1024 * 1024 + 768) 0 (atBit 16 layer + shard) s := ⟨_, rfl⟩
  rw [← hu] at hraised hframe
  obtain ⟨hev, hred, heng, hcause, -⟩ := abortAttempt_result 8 { u with step := { u.step with engine := some (epCoord src, epDie src) } }
  have ht : residueFailed src layer shard s = abortAttempt 8 { u with step := { u.step with engine := some (epCoord src, epDie src) } } := by
    rw [residueFailed, hu]
  dsimp only
  rw [ht]
  refine ⟨?_, heng, fun hp => hcause ?_, hred.trans ?_⟩
  · rw [raised, hev]; exact hraised
  · rw [hframe]; exact hp
  · rw [hframe]

/-- The input to which a HASH is compared: of the same child, and a Catcher copy where the other is real (R342). -/
def otherInput (r : NodeRt) (k : ChildIn) : Option ChildIn :=
  r.children.find? (fun x => x.leafin == k.leafin && x.csrc == k.csrc && x.catch_ != k.catch_ && x.hash.isSome)

/-- A child's input with its HASH. -/
def withHash (r : NodeRt) (m : ReduceMsg) : ChildIn := { childFor r m with hash := some (leAt m.data 0 8) }

theorem takeHash_none (i : Nat) (n : Node) (m : ReduceMsg) (s : State) (h : beyondChildren n (s.nodeRt i) m = false)
    (ho : otherInput (s.nodeRt i) (withHash (s.nodeRt i) m) = none) :
    takeHash i n m s = progress i n (setNodeRt i (putChild (s.nodeRt i) (withHash (s.nodeRt i) m)) s) := by
  unfold otherInput withHash at ho
  unfold takeHash
  dsimp only at ho ⊢
  rw [h, if_neg Bool.false_ne_true, ho]
  rfl

theorem takeHash_equal (i : Nat) (n : Node) (m : ReduceMsg) (s : State) (o : ChildIn) (h : beyondChildren n (s.nodeRt i) m = false)
    (ho : otherInput (s.nodeRt i) (withHash (s.nodeRt i) m) = some o) (he : o.hash = (withHash (s.nodeRt i) m).hash) :
    takeHash i n m s = progress i n (bumpReg 0x502006 1 (setNodeRt i (putChild (s.nodeRt i) (withHash (s.nodeRt i) m)) s)) := by
  unfold otherInput withHash at ho
  unfold withHash at he
  unfold takeHash
  dsimp only at ho he ⊢
  rw [h, if_neg Bool.false_ne_true, ho]
  dsimp only
  rw [if_pos he]
  rfl

/-- Two hashes of a child that differ: counted, both inputs' dies named, and cause 8 (R342). -/
theorem takeHash_differ (i : Nat) (n : Node) (m : ReduceMsg) (s : State) (o : ChildIn) (h : beyondChildren n (s.nodeRt i) m = false)
    (ho : otherInput (s.nodeRt i) (withHash (s.nodeRt i) m) = some o) (he : o.hash ≠ (withHash (s.nodeRt i) m).hash) :
    ∃ u, takeHash i n m s = progress i n u ∧ raised 0x7005 u ∧ u.reg 0x502007 = (s.reg 0x502007 + 1) % 2 ^ counterBits 0x502007 ∧
      (s.step.phase = .attempt → 8 ∈ u.step.causes) ∧ u.nodeRt i = putChild (s.nodeRt i) (withHash (s.nodeRt i) m) := by
  obtain ⟨k, hk⟩ : ∃ k, k = withHash (s.nodeRt i) m := ⟨_, rfl⟩
  obtain ⟨v, hv⟩ : ∃ v, v = bumpReg 0x502007 1 (setNodeRt i (putChild (s.nodeRt i) k) s) := ⟨_, rfl⟩
  obtain ⟨op, hop⟩ : ∃ op, op = atBit 16 n.layer + n.shard := ⟨_, rfl⟩
  obtain ⟨x, hx⟩ : ∃ x, x = raiseUnit 0x7005 (o.src / 1024 * 1024 + 768) 0 op v := ⟨_, rfl⟩
  obtain ⟨y, hy⟩ : ∃ y : State, y = { x with step := { x.step with mismatches := x.step.mismatches ++
    [{ step := x.stepNo, attempt := x.step.attempt, real := if k.catch_ then o.src else k.src, copy := if k.catch_ then k.src else o.src, op := op }] } } := ⟨_, rfl⟩
  obtain ⟨z, hz⟩ : ∃ z, z = raiseUnit 0x7005 (k.src / 1024 * 1024 + 768) 0 op y := ⟨_, rfl⟩
  obtain ⟨-, -, hxregs, _, _, _, hxframe⟩ := raiseUnit_frame 0x7005 (o.src / 1024 * 1024 + 768) 0 op v
  obtain ⟨hzraised, -, hzregs, _, _, _, hzframe⟩ := raiseUnit_frame 0x7005 (k.src / 1024 * 1024 + 768) 0 op y
  rw [← hx] at hxregs hxframe
  rw [← hz] at hzraised hzregs hzframe
  obtain ⟨hev, hred, -, hcause, hregs⟩ := abortAttempt_result 8 z
  have hvreg : v.reg 0x502007 = (s.reg 0x502007 + 1) % 2 ^ counterBits 0x502007 := by
    rw [hv, bumpReg_reg_self]
    rfl
  have hyreg : y.reg 0x502007 = x.reg 0x502007 := by rw [hy]; rfl
  refine ⟨abortAttempt 8 z, ?eq, ?raised, ?count, fun hp => hcause ?phase, ?node⟩
  case eq =>
    unfold otherInput withHash at ho
    unfold withHash at he
    unfold takeHash
    dsimp only at ho he ⊢
    rw [h, if_neg Bool.false_ne_true, ho]
    dsimp only
    rw [if_neg he, hz, hy, hx, hop, hv, hk]
    rfl
  case raised => rw [raised, hev]; exact hzraised
  case count => rw [hregs _ (by decide) (by decide), hzregs _ (by decide), hyreg, hxregs _ (by decide), hvreg]
  case phase => rw [hzframe, hy]; show x.step.phase = _; rw [hxframe, hv]; exact hp
  case node =>
    have hnode : (abortAttempt 8 z).reduce = v.reduce := by rw [hred, hzframe, hy]; show x.reduce = _; rw [hxframe]
    rw [State.nodeRt, hnode, hv, ← hk]
    exact nodeRt_set i _ s

/-! ### RESEND and AGREED -/

/-- Is a position the one that a RESEND names (R334)? -/
def resendsHere (d : Nat) (m : ReduceMsg) (s : State) (j : Nat) : Bool :=
  match s.job.nodes[j]? with
  | some n => n.die == d && n.layer == m.layer.toNat && n.shard == m.shard.toNat && n.leaf == m.leafin && n.nodeId == m.csrc.toNat
  | none => false

/-- RESEND: the messages kept that meet the range go again (R334). -/
theorem takeResend_found (d : Nat) (m : ReduceMsg) (j : Nat) (n : Node) (s : State)
    (hj : (List.range s.job.nodes.length).find? (resendsHere d m s) = some j) (hn : s.job.nodes[j]? = some n) :
    takeResend d m s = allOf ((s.nodeRt j).kept.filter (fun k => (k.op == 3 || k.op == 4 || k.op == 6)
      && decide (k.group.toNat < m.group.toNat + m.ngrp) && decide (m.group.toNat < k.group.toNat + k.ngrp)))
      (fun k => sendReduce n.die m.src.toNat k) s := by
  have hbind : ((List.range s.job.nodes.length).find? (resendsHere d m s)).bind (fun j => (s.job.nodes[j]?).map (fun n => (j, n))) = some (j, n) := by
    rw [hj, Option.bind_some, hn]
    rfl
  unfold takeResend
  dsimp only
  split
  · next hnone => exact absurd (hbind.symm.trans hnone) (Option.some_ne_none _)
  · next j' n' hsome =>
    obtain ⟨rfl, rfl⟩ := Prod.mk.inj (Option.some.inj (hbind.symm.trans hsome))
    rfl

/-- Is a position one whose parent lies on the sender's die (R329)? -/
def agreesHere (d : Nat) (m : ReduceMsg) (s : State) (j : Nat) : Bool :=
  match s.job.nodes[j]? with
  | some n => n.die == d && n.layer == m.layer.toNat && n.shard == m.shard.toNat && !n.root && n.parent / 1024 == m.src.toNat / 1024
  | none => false

/-- The agreed codes that a position holds after a message of them (R329). -/
def agreedCodes (n : Node) (r : NodeRt) (m : ReduceMsg) : SMap Nat :=
  (List.range (min m.data.length (n.groups - m.group.toNat))).foldl (fun cs k => smPut cs (m.group.toNat + k) (leAt m.data k 1)) r.agreed

/-- AGREED at a position (R329). -/
def agreeAt (m : ReduceMsg) (j : Nat) (s : State) : State :=
  match s.job.nodes[j]? with
  | none => s
  | some n =>
    let r := s.nodeRt j
    let a := agreedCodes n r m
    let u := setNodeRt j { r with agreed := a } s
    if !(List.range n.groups).all (fun g => (smFind a g).isSome) || r.sent then u
    else if n.leaf then leafSums j n (fun g => smGetD a g 0) (setNodeRt j { u.nodeRt j with sent := true } u)
    else progress j n (sendAgreed n r ((List.range n.groups).map (fun g => smGetD a g 0)) u)

theorem takeAgreed_eq (d : Nat) (m : ReduceMsg) (s : State) :
    takeAgreed d m s = if (List.range s.job.nodes.length).filter (agreesHere d m s) = [] then noPosition d s
      else allOf ((List.range s.job.nodes.length).filter (agreesHere d m s)) (agreeAt m) s := rfl

/-- AGREED at the one position of a die that it is for: its codes are kept, and once all are here the position goes on (R329). -/
theorem takeAgreed_one (d : Nat) (m : ReduceMsg) (j : Nat) (n : Node) (s : State)
    (hj : (List.range s.job.nodes.length).filter (agreesHere d m s) = [j]) (hn : s.job.nodes[j]? = some n) :
    let r := s.nodeRt j
    let a := agreedCodes n r m
    let u := setNodeRt j { r with agreed := a } s
    takeAgreed d m s = if !(List.range n.groups).all (fun g => (smFind a g).isSome) || r.sent then u
      else if n.leaf then leafSums j n (fun g => smGetD a g 0) (setNodeRt j { r with agreed := a, sent := true } u)
      else progress j n (sendAgreed n r ((List.range n.groups).map (fun g => smGetD a g 0)) u) := by
  rw [takeAgreed_eq, hj, if_neg (List.cons_ne_nil _ _)]
  show agreeAt m j s = _
  rw [agreeAt, hn]
  dsimp only
  rw [nodeRt_set]

/-! ### REDUCTION_START and the Catcher deadline -/

/-- REDUCTION_START of a package with no position and no shard starts nothing but the reduction itself (R328). -/
theorem opReductionStart_empty (s : State) (hlife : s.life = .running) (hphase : s.step.phase = .attempt) (hstarted : s.reduce.started = false)
    (hready : layersReady s = true) (hnodes : s.job.nodes = []) (hshards : s.tables.shards = []) (hqueue : s.reduce.queue = []) :
    opReductionStart s = { s with reduce := { s.reduce with started := true }, step := { s.step with gs := 0 } } := by
  have hcond : s.step.phase = .attempt ∧ !s.reduce.started ∧ layersReady s ∧ (s.life = .running ∨ s.life = .spare) :=
    ⟨hphase, by rw [hstarted]; rfl, hready, .inl hlife⟩
  have hlive : ({ s with reduce := { s.reduce with started := true }, step := { s.step with gs := 0 } } : State).life ≠ .spare := by
    rw [hlife]
    decide
  unfold opReductionStart
  rw [if_pos hcond]
  simp only [hnodes, List.filter_nil, List.length_nil, List.range_zero, List.flatMap_eq_nil_iff.2 (fun _ _ => rfl), allOf, List.foldl_nil]
  rw [show groupsNorm s [] = 0 from rfl, if_neg hlive, hshards]
  exact drainReduce_empty _ _ hqueue

/-- Taking a Catcher copy: counted, its event, and the child marked, before the position moves on (R340). -/
theorem takeCatcher_result (i : Nat) (n : Node) (x : ChildIn) (s : State) :
    ∃ u, takeCatcher i n x s = progress i n u ∧ raised 0x9005 u ∧ (u.nodeRt i).taken = (s.nodeRt i).taken ++ [x.csrc] ∧
      u.reg 0x502005 = (s.reg 0x502005 + 1) % 2 ^ counterBits 0x502005 := by
  obtain ⟨hraised, hreg, hframe⟩ := raiseAt_bumpReg 0x9005 n.die 768 0 (atBit 16 n.layer + n.shard) 0x502005 1 s (by decide)
  obtain ⟨v, hv⟩ : ∃ v, v = raiseAt 0x9005 n.die 768 0 (atBit 16 n.layer + n.shard) (bumpReg 0x502005 1 s) := ⟨_, rfl⟩
  rw [← hv] at hraised hreg
  obtain ⟨w, hw⟩ : ∃ w, w = if x.lost then bumpReg 0x502008 1 v else v := ⟨_, rfl⟩
  have hevents : w.evBatch = v.evBatch := by rw [hw]; split <;> rfl
  have hcount : w.reg 0x502005 = v.reg 0x502005 := by
    rw [hw]
    split
    · exact bumpReg_reg_ne _ _ _ _ (by decide)
    · rfl
  refine ⟨setNodeRt i { s.nodeRt i with taken := (s.nodeRt i).taken ++ [x.csrc] } w, ?eq, ?raised, ?taken, ?count⟩
  case eq => rw [hw, hv]; rfl
  case raised => rw [raised] at hraised ⊢; rw [← hevents] at hraised; exact hraised
  case taken => rw [nodeRt_set]
  case count => exact hcount.trans hreg

/-- The Catcher deadline of a position whose one child is a Catcher copy not yet taken: the copy is taken (R340). -/
theorem opCatcherDeadline_one (d : Fin 4) (layer shard : BitVec 16) (i : Nat) (n : Node) (x y : ChildIn) (s : State)
    (hi : nodeAt s d layer.toNat shard.toNat = some i) (hn : s.job.nodes[i]? = some n) (hsent : (s.nodeRt i).sent = false)
    (hx : (s.nodeRt i).children = [x]) (hcatch : x.catch_ = true) (htaken : (s.nodeRt i).taken = []) (hy : catcherCopy s n (s.nodeRt i) x.csrc = some y) :
    opCatcherDeadline d layer shard s = drainReduce reduceFuel (takeCatcher i n x s) := by
  have hlive : effective (s.nodeRt i) = [] := by
    rw [effective, hx, htaken]
    simp [hcatch]
  have hreal : [x].find? (fun y => !y.catch_ && y.leafin && y.csrc == x.csrc) = none := by
    simp [hcatch]
  have hcopies : [x].filter (fun x => x.catch_ && !([] : List Nat).contains x.csrc) = [x] := by
    simp [hcatch]
  unfold opCatcherDeadline
  rw [hi, Option.bind_some, hn]
  simp only [Option.map_some, hsent, hx, htaken, hlive, hcopies, List.filter_nil, List.all_nil]
  rw [List.filter_cons_of_pos (by rw [hreal]), List.filter_nil]
  simp only [Bool.not_true, Bool.or_self, Bool.false_eq_true, if_false, allOf, List.foldl_cons, List.foldl_nil, hy]

/-! ### The obligation -/

/-- A SUM, RAW or ONEBIT message of the current step goes to the values of its position. -/
theorem valuesCommand_now (d : Fin 4) (m : ReduceMsg) (c : Instr) (i : Nat) (n : Node) (s : State) (hc : reduceCommand d m = some c) (hl : tilesLive s = true)
    (htag : m.stag = s.dieTags.getD d 0) (hlayer : m.layer.toNat < 0x8000) (hi : nodeAt s d m.layer.toNat m.shard.toNat = some i)
    (hn : s.job.nodes[i]? = some n) (hop : m.op = 3 ∨ m.op = 4 ∨ m.op = 6) : exec c s = .next (drainReduce reduceFuel (takeValues i n m s)) := by
  rw [reduceCommand_now d m c s hc hl htag, applyReduce_at d m i n s hlayer hi hn (by omega) (by omega)]
  obtain h | h | h := hop <;> rw [h] <;> rfl

/-- The values of a message kept, where it holds no codes. -/
theorem withGroups_codes (n : Node) (c : ChildIn) (m : ReduceMsg) (h : m.op ≠ 6) :
    withGroups n c m = { c with vals := (freshGroups n c m).foldl (fun v p => smPut v (m.group.toNat + p.1) p.2) c.vals } := by
  rw [withGroups, if_neg h]

/-- Settles O51: each message through the rule of its kind at the position, then the queue within the package. -/
theorem reductions : Obligations.Reductions := by
  unfold Obligations.Reductions
  refine ⟨?position, ?resend, ?agreed, ?otherStep, ?start, ?deadline⟩
  case position =>
    intro d m i n s hl htag hlayer hi hn hknown r c on
    have hnow : ∀ cmd, reduceCommand d m = some cmd → exec cmd s = .next (drainReduce reduceFuel (applyReduce d m s)) :=
      fun cmd hc => reduceCommand_now d m cmd s hc hl htag
    have hat := applyReduce_at d m i n s hlayer hi hn
    refine ⟨?codes, ?values, ?raw, ?hash, progress_waits i n s⟩
    case codes =>
      intro hop
      rw [hnow _ (by rw [reduceCommand, hop]; rfl), hat (by omega) (by omega), hop]
      exact congrArg (fun t => Host.Outcome.next (drainReduce reduceFuel t)) (takeCodes_known i n m s hknown)
    case values =>
      intro cmd hcmd gs
      have hop : m.op = 3 ∨ m.op = 4 := hcmd.imp And.right And.right
      have hc : reduceCommand d m = some cmd := by
        obtain ⟨rfl, h⟩ | ⟨rfl, h⟩ := hcmd <;> rw [reduceCommand, h] <;> rfl
      have hexec := valuesCommand_now d m cmd i n s hc hl htag hlayer hi hn (by omega)
      have htake := takeValues_known i n m s hknown
      refine ⟨?right, ?again, ?failed⟩
      case right =>
        intro hright fresh u
        rw [hexec, htake, if_neg (by rw [tallyWrong_false m hright]; decide), valuesKept, withGroups_codes n _ m (by omega)]
        rfl
      case again =>
        intro hwrong hfirst
        rw [hexec, htake, if_pos ((tallyWrong_iff m).2 hwrong), if_neg (by simpa using hfirst)]
      case failed =>
        intro hwrong hretried hqueue
        obtain ⟨hraised, heng, hcause, hred⟩ := residueFailed_result m.src.toNat m.layer.toNat m.shard.toNat (bumpReg (dieKey n.die 0x81A002) 1 s)
        refine ⟨_, ?_, hraised, heng, hcause, hred⟩
        rw [hexec, htake, if_pos ((tallyWrong_iff m).2 hwrong), if_pos (by simpa using hretried), drainReduce_empty _ _ (by rw [hred]; exact hqueue)]
    case raw =>
      intro hop hright
      refine ⟨valuesKept i n m s, withGroups n c m, ?_, valuesKept_frame i n m s, valuesKept_nodeRt i n m s, rfl, if_pos hop⟩
      rw [valuesCommand_now d m _ i n s (by rw [reduceCommand, hop]; rfl) hl htag hlayer hi hn (by omega), takeValues_known i n m s hknown,
        if_neg (by rw [tallyWrong_false m hright]; decide)]
    case hash =>
      intro hop k other
      have hexec : exec (.hash d m) s = .next (drainReduce reduceFuel (takeHash i n m s)) := by
        rw [hnow _ (by rw [reduceCommand, hop]; rfl), hat (by omega) (by omega), hop]
        rfl
      refine ⟨?none, ?equal, ?differ⟩
      case none =>
        intro ho
        rw [hexec, takeHash_none i n m s hknown ho]
        rfl
      case equal =>
        intro o ho he
        rw [hexec, takeHash_equal i n m s o hknown ho he]
        rfl
      case differ =>
        intro o ho he
        obtain ⟨u, heq, hraised, hcount, hcause, hnode⟩ := takeHash_differ i n m s o hknown ho he
        exact ⟨u, by rw [hexec, heq], hraised, hcount, hcause, hnode⟩
  case resend =>
    intro d m j n s hop hl htag hlayer hj hn
    have happly : applyReduce d m s = takeResend d m s := by
      rw [applyReduce, if_neg (by omega), if_neg (by omega), if_pos hop]
    rw [reduceCommand_now d m _ s (by rw [reduceCommand, hop]; rfl) hl htag, happly, takeResend_found d m j n s hj hn]
  case agreed =>
    intro d m j n s hop hl htag hlayer hj hn r a u
    have happly : applyReduce d m s = takeAgreed d m s := by
      rw [applyReduce, if_neg (by omega), if_pos hop]
    have hexec : exec (.agreed d m) s = .next (drainReduce reduceFuel (takeAgreed d m s)) := by
      rw [reduceCommand_now d m _ s (by rw [reduceCommand, hop]; rfl) hl htag, happly]
    have htake := takeAgreed_one d m j n s hj hn
    refine ⟨?missing, ?all⟩
    case missing =>
      rintro ⟨g, hg, (hnone : smFind (agreedCodes n (s.nodeRt j) m) g = none)⟩
      have hnot : (List.range n.groups).all (fun g => (smFind (agreedCodes n (s.nodeRt j) m) g).isSome) = false := by
        rw [List.all_eq_false]
        exact ⟨g, List.mem_range.2 hg, by rw [hnone]; decide⟩
      have hstop : (!(List.range n.groups).all (fun g => (smFind (agreedCodes n (s.nodeRt j) m) g).isSome) || (s.nodeRt j).sent) = true := by
        rw [hnot]
        rfl
      rw [hexec, htake, if_pos hstop]
      rfl
    case all =>
      intro hcodes hsent
      have hall : (List.range n.groups).all (fun g => (smFind (agreedCodes n (s.nodeRt j) m) g).isSome) = true :=
        List.all_eq_true.2 fun g hg => hcodes g (List.mem_range.1 hg)
      have hgo : ¬ (!(List.range n.groups).all (fun g => (smFind (agreedCodes n (s.nodeRt j) m) g).isSome) || (s.nodeRt j).sent) = true := by
        rw [hall, hsent]
        decide
      refine ⟨fun hleaf => ?leaf, fun hleaf => ?inner⟩
      case leaf =>
        rw [hexec, htake, if_neg hgo, if_pos hleaf]
        rfl
      case inner =>
        rw [hexec, htake, if_neg hgo, if_neg (by rw [hleaf]; decide)]
        rfl
  case otherStep =>
    intro d m cmd s hl hc
    refine ⟨fun hnext hcur => ?next, fun hnext hcur => ?other⟩
    case next => rw [reduceCommand_exec d m cmd s hc hl, arriveReduce, if_neg hcur, if_pos hnext]
    case other => rw [reduceCommand_exec d m cmd s hc hl, arriveReduce, if_neg hcur, if_neg hnext]
  case start =>
    intro s hlife hphase hstarted hready hnodes hshards hqueue
    exact congrArg Host.Outcome.next ((powered_on _ s (running_ne_off (.inl hlife))).trans
      (opReductionStart_empty s hlife hphase hstarted hready hnodes hshards hqueue))
  case deadline =>
    intro d layer shard i n x y s hlife hi hn r hsent hx hcatch htaken hy
    obtain ⟨u, heq, hraised, htake, hcount⟩ := takeCatcher_result i n x s
    refine ⟨u, ?_, hraised, by rw [htake, htaken, List.nil_append], hcount⟩
    rw [← heq, ← opCatcherDeadline_one d layer shard i n x y s hi hn hsent hx hcatch htaken hy]
    exact congrArg Host.Outcome.next (powered_on _ s hlife)

end Sys2Proof.Machine
end

section
/-!
Runs of the tests (R164, R165, R446): full runs of the Shooting Gallery's pack, and runs of the test suites on command.
-/

namespace Sys2Proof.Machine
open Sys2Proof

/-! ### Full runs of the pack -/

/-- The tiles of a full run (R446): all of the dies in the mask, in HELD those alone that are marked. -/
def fullRunTiles (m : BitVec 8) (s : State) : List Nat :=
  let ks := (List.range 4).flatMap (fun d => if m.getLsbD d then (List.range 768).map (fun t => d * 768 + t) else [])
  if s.life = .held then ks.filter (galleryMarked s) else ks

theorem mem_fullRunTiles (m : BitVec 8) (s : State) (d n : Nat) (hd : d < 4) (hn : n < 768) (hm : m.getLsbD d = true)
    (hmarked : s.life = .held → galleryMarked s (d * 768 + n) = true) : d * 768 + n ∈ fullRunTiles m s := by
  have hmask : d * 768 + n ∈ (List.range 4).flatMap (fun d => if m.getLsbD d then (List.range 768).map (fun t => d * 768 + t) else []) := by
    refine List.mem_flatMap.mpr ⟨d, List.mem_range.mpr hd, ?_⟩
    rw [if_pos hm]
    exact List.mem_map.mpr ⟨n, List.mem_range.mpr hn, rfl⟩
  unfold fullRunTiles
  split
  next hheld => exact List.mem_filter.mpr ⟨hmask, hmarked hheld⟩
  next => exact hmask

theorem fullRunning_eq_false (s : State) (h : s.reg 0x70100B ≠ 1) : fullRunning s = false := beq_eq_false_iff_ne.mpr h

/-- An accepted full run is marked in progress, and its tiles take every test of the pack. -/
theorem opFullPack_accepted (m : BitVec 8) (s : State) (hidle : s.reg 0x70100B ≠ 1)
    (hlife : s.life = .standby ∨ s.life = .ready ∨ s.life = .held) (hpack : s.gal.pack ≠ []) :
    opFullPack m s = allOf (fullRunTiles m s) (fun k u => addTests 2 k (List.range u.gal.pack.length) u)
      (setReg 0x70100B 1 { s with gal := { s.gal with failed := false } }) := by
  unfold opFullPack
  rw [fullRunning_eq_false s hidle, if_neg Bool.false_ne_true, if_pos ⟨hlife, hpack⟩]
  rfl

/-- A full run that is not in progress is refused in every other state, and without a valid pack. -/
theorem opFullPack_refused (m : BitVec 8) (s : State) (hon : s.life ≠ .off) (hidle : s.reg 0x70100B ≠ 1)
    (h : s.life ≠ .standby ∧ s.life ≠ .ready ∧ s.life ≠ .held ∨ s.gal.pack = []) : opFullPack m s = setReg 0x70100B 4 s := by
  have hbarred : ¬((s.life = .standby ∨ s.life = .ready ∨ s.life = .held) ∧ s.gal.pack ≠ []) := by tauto
  unfold opFullPack
  rw [fullRunning_eq_false s hidle, if_neg Bool.false_ne_true, if_neg hbarred, powered_on _ s hon]

/-- What an accepted full run shows: it is in progress with no failure yet, and each of its tiles has tests to run. -/
theorem opFullPack_accepted_result (m : BitVec 8) (s : State) (hidle : s.reg 0x70100B ≠ 1)
    (hlife : s.life = .standby ∨ s.life = .ready ∨ s.life = .held) (hpack : s.gal.pack ≠ []) :
    let t := opFullPack m s
    t.reg 0x70100B = 1 ∧ t.gal.failed = false ∧ (∀ k ∈ fullRunTiles m s, HasRun k t) ∧
      t = { s with store := t.store, mem := t.mem, bad := t.bad, tiles := t.tiles, gal := t.gal, regs := t.regs } := by
  obtain ⟨hruns, -, hfailed, hframe, hregs⟩ :=
    allOf_addTests 2 (fullRunTiles m s) (setReg 0x70100B 1 { s with gal := { s.gal with failed := false } }) hpack
  intro t
  have ht : t = _ := opFullPack_accepted m s hidle hlife hpack
  rw [ht]
  exact ⟨(hregs 0x70100B (by norm_num) (by norm_num)).trans (setReg_reg_self ..), hfailed, hruns, hframe⟩

/-- A full run ends when none of its tests is left: it shows 3 where a test failed, else 2. -/
theorem opFullRun_done (s : State) (hrun : s.reg 0x70100B = 1) (hdone : ∀ g ∈ s.gal.runs, g.why ≠ 2) :
    opFullRun s = setReg 0x70100B (if s.gal.failed = true then 3 else 2) s := by
  have hnone : s.gal.runs.any (fun g => g.why == 2) = false :=
    List.any_eq_false.mpr fun g hg h => hdone g hg (eq_of_beq h)
  have hrunning : fullRunning s = true := beq_iff_eq.mpr hrun
  unfold opFullRun
  rw [hnone, if_pos ⟨hrunning, rfl⟩]

/-! ### Runs of the test suites: the command -/

/-- An accepted run is shown as 1 and keeps the suites and dies it begins with. -/
theorem opRunSuites_accepted (mask : Nat) (s : State) (hidle : s.board.boot.testRun = none) (hmask : mask < 1024)
    (hlife : s.life = .standby ∨ s.life = .ready) :
    (opRunSuites mask s).2 = setReg 0x501803 1 (modBoot (fun b => { b with testRun := some (mask, s.reg 0x501802) }) s) := by
  have hallowed : ¬(s.life ≠ .standby ∧ s.life ≠ .ready) := by tauto
  unfold opRunSuites
  rw [hidle, if_neg (by decide), if_neg (by omega), if_neg hallowed]

theorem opRunSuites_refused (mask : Nat) (s : State) (hidle : s.board.boot.testRun = none) (hmask : mask < 1024)
    (hstandby : s.life ≠ .standby) (hready : s.life ≠ .ready) : (opRunSuites mask s).2 = setReg 0x501803 4 s := by
  unfold opRunSuites
  rw [hidle, if_neg (by decide), if_neg (by omega), if_pos ⟨hstandby, hready⟩]

theorem opRunSuites_inProgress (mask : Nat) (s : State) (h : s.board.boot.testRun ≠ none) : (opRunSuites mask s).2 = s := by
  unfold opRunSuites
  rw [if_pos (Option.isSome_iff_ne_none.mpr h)]

/-! ### Runs of the test suites: the end -/

/-- An event raised at several dies changes the Trunk Record, the records not yet in a frame and, of the registers, the count
of waits alone; with any die it is among those records. -/
theorem allOf_raiseAt_dies (code : Nat) (ds : List Nat) (s : State) :
    let t := allOf ds (fun d => raiseAt code d 768 0 0) s
    (∃ a b c, t = { s with regs := a, trunk := b, evBatch := c }) ∧ (∀ q, q ≠ 0x702008 → t.reg q = s.reg q) ∧
      (raised code s ∨ ds ≠ [] → raised code t) := by
  induction ds generalizing s with
  | nil => exact ⟨⟨_, _, _, rfl⟩, fun _ _ => rfl, fun h => h.resolve_right (fun hne => hne rfl)⟩
  | cons d ds ih =>
    obtain ⟨⟨a, b, c, hframe⟩, hregs, hraised⟩ := ih (raiseAt code d 768 0 0 s)
    obtain ⟨a₁, b₁, c₁, hfirst, hfirstRegs⟩ := raiseAt_parts code d 768 0 0 s
    refine ⟨⟨a, b, c, hframe.trans (by rw [hfirst])⟩, fun q hq => (hregs q hq).trans ?_, fun _ => hraised (.inl (raised_raiseAt ..))⟩
    rw [hfirst]
    exact hfirstRegs q hq

/-- What a run's end shows before its consequences (R165): the outcome, the failing suites and dies, and one run more. -/
def showSuites (outcome suites dies : Nat) (s : State) : State :=
  bumpReg 0x501807 1 (setReg 0x501803 outcome (setReg 0x501804 suites (setReg 0x501805 dies s)))

theorem showSuites_regs (outcome suites dies : Nat) (s : State) :
    let t := showSuites outcome suites dies s
    t.reg 0x501803 = outcome ∧ t.reg 0x501804 = suites ∧ t.reg 0x501805 = dies := by
  simp [showSuites, bumpReg_reg, setReg_reg]

/-- A run that failed nowhere shows a pass. -/
theorem suiteResult_passed (suites dies : Nat) (s : State) (h : suites = 0 ∨ dies = 0) :
    suiteResult suites dies s = showSuites 2 0 0 s := by
  have hpass : (decide (suites = 0) || decide (dies = 0)) = true := by simpa using h
  unfold suiteResult
  rw [hpass]
  rfl

/-- A run that failed shows where, bars READY, and raises 0x1005 for each die that failed. -/
theorem suiteResult_failed (suites dies : Nat) (s : State) (hs : suites ≠ 0) (hd : dies ≠ 0) :
    suiteResult suites dies s = allOf ((List.range 4).filter (bitAt dies)) (fun d => raiseAt 0x1005 d 768 0 0)
      (modBoot (fun b => { b with suitesPassed := false }) (showSuites 3 suites dies s)) := by
  have hfail : (decide (suites = 0) || decide (dies = 0)) = false := by simp [hs, hd]
  unfold suiteResult
  rw [hfail]
  rfl

/-- A die mask that is not empty names a die of the package. -/
theorem diesOfMask_ne_nil (dies : Nat) (hne : dies ≠ 0) (hlt : dies < 16) : (List.range 4).filter (bitAt dies) ≠ [] := by
  have hall : ∀ mask < 16, mask ≠ 0 → (List.range 4).filter (bitAt mask) ≠ [] := by decide
  exact hall dies hlt hne

theorem suiteResult_failed_shows (suites dies : Nat) (s : State) (hs : suites ≠ 0) (hd : dies ≠ 0) :
    let t := suiteResult suites dies s
    t.reg 0x501803 = 3 ∧ t.reg 0x501804 = suites ∧ t.reg 0x501805 = dies ∧ t.life = s.life ∧
      t.board.boot = { s.board.boot with suitesPassed := false } ∧ (dies < 16 → raised 0x1005 t) := by
  obtain ⟨⟨a, b, c, hframe⟩, hregs, hraised⟩ := allOf_raiseAt_dies 0x1005 ((List.range 4).filter (bitAt dies))
    (modBoot (fun b => { b with suitesPassed := false }) (showSuites 3 suites dies s))
  obtain ⟨houtcome, hsuites, hdies⟩ := showSuites_regs 3 suites dies s
  intro t
  have ht : t = _ := suiteResult_failed suites dies s hs hd
  rw [ht]
  refine ⟨(hregs _ (by norm_num)).trans houtcome, (hregs _ (by norm_num)).trans hsuites, (hregs _ (by norm_num)).trans hdies, ?_, ?_,
    fun hlt => hraised (.inr (diesOfMask_ne_nil dies hd hlt))⟩
  · rw [hframe]; rfl
  · rw [hframe]; rfl

/-- A run that failed nowhere: the package stays where it is, and the result entries show the pass. -/
theorem opTestRun_passed (su : BitVec 10) (di : BitVec 4) (m dm : Nat) (s : State) (hrun : s.board.boot.testRun = some (m, dm))
    (h : su.toNat &&& m = 0 ∨ di.toNat &&& dm = 0) :
    let t := opTestRun su di s
    t.board.boot.testRun = none ∧ t.reg 0x501803 = 2 ∧ t.reg 0x501804 = 0 ∧ t.reg 0x501805 = 0 ∧ t.life = s.life := by
  obtain ⟨u, hu⟩ : ∃ u, u = showSuites 2 0 0 (modBoot (fun b => { b with testRun := none }) s) := ⟨_, rfl⟩
  obtain ⟨houtcome, hsuites, hdies⟩ := showSuites_regs 2 0 0 (modBoot (fun b => { b with testRun := none }) s)
  rw [← hu] at houtcome hsuites hdies
  have hended : u.board.boot.testRun = none ∧ u.life = s.life := by rw [hu]; exact ⟨rfl, rfl⟩
  intro t
  have ht : t = if m = 1023 ∧ dm = 15 then modBoot (fun b => { b with suitesPassed := true }) u else u := by
    simp only [t, opTestRun, hrun, suiteResult_passed _ _ _ h, ← hu, houtcome]
    rfl
  rw [ht]
  split
  next => exact ⟨hended.1, houtcome, hsuites, hdies, hended.2⟩
  next => exact ⟨hended.1, houtcome, hsuites, hdies, hended.2⟩

/-- A run that failed: from READY the package returns to STANDBY with cause 0x1005, and the result entries show where. -/
theorem opTestRun_failed (su : BitVec 10) (di : BitVec 4) (m dm : Nat) (s : State) (hrun : s.board.boot.testRun = some (m, dm))
    (hs : su.toNat &&& m ≠ 0) (hd : di.toNat &&& dm ≠ 0) :
    let t := opTestRun su di s
    t.board.boot = { s.board.boot with testRun := none, suitesPassed := false } ∧ t.reg 0x501803 = 3 ∧ t.reg 0x501804 = su.toNat &&& m ∧
      t.reg 0x501805 = di.toNat &&& dm ∧ (di.toNat &&& dm < 16 → raised 0x1005 t) ∧ (s.life = .ready → t.life = .standby) ∧
      (s.life ≠ .ready → t.life = s.life) := by
  obtain ⟨u, hu⟩ : ∃ u, u = suiteResult (su.toNat &&& m) (di.toNat &&& dm) (modBoot (fun b => { b with testRun := none }) s) := ⟨_, rfl⟩
  obtain ⟨houtcome, hsuites, hdies, hlife, hboot, hraised⟩ :=
    suiteResult_failed_shows _ _ (modBoot (fun b => { b with testRun := none }) s) hs hd
  rw [← hu] at houtcome hsuites hdies hlife hboot hraised
  change u.life = s.life at hlife
  intro t
  have ht : t = if u.life = .ready then enter .standby 0x1005 u else u := by
    simp only [t, opTestRun, hrun, ← hu, houtcome, if_true]
  rw [ht, hlife]
  split
  next hready =>
    obtain ⟨hframe, -, -, -, hregs⟩ := enter_result .standby 0x1005 u
    have hkept : ∀ q, 0x501803 ≤ q → q ≤ 0x501805 → (enter .standby 0x1005 u).reg q = u.reg q := fun q hlow hhigh =>
      hregs q (by omega) (by omega) (by omega) (by omega) (by omega)
    refine ⟨?_, (hkept _ (by norm_num) (by norm_num)).trans houtcome, (hkept _ (by norm_num) (by norm_num)).trans hsuites,
      (hkept _ (by norm_num) (by norm_num)).trans hdies,
      fun hlt => raised_of_batch (hraised hlt) (enter_keeps .standby 0x1005 u).2, fun _ => ?_, fun hother => absurd hready hother⟩
    · rw [hframe]; exact hboot
    · rw [hframe]
  next hother => exact ⟨hboot, houtcome, hsuites, hdies, hraised, fun hready => absurd hready hother, fun _ => hlife⟩

/-! ### The statement -/

/-- Settles O47: each command by the cases of its acceptance, each end by whether a test failed. -/
theorem testRuns : Obligations.TestRuns := by
  refine ⟨?fullRun, ?fullRunEnd, ?suites, ?suitesInProgress, ?suitesEnd⟩
  case fullRun =>
    intro m s hon hidle
    have hexec : exec (.runFullPack m) s = .next (opFullPack m s) := congrArg Host.Outcome.next (powered_on _ s hon)
    refine ⟨fun hlife hpack => ?accepted, fun hbarred => ?refused⟩
    case accepted =>
      obtain ⟨hreg, hfailed, hruns, hframe⟩ := opFullPack_accepted_result m s hidle hlife hpack
      exact ⟨_, hexec, hreg, hfailed, fun d hd n hn hm hmarked => hruns _ (mem_fullRunTiles m s d n hd hn hm hmarked), hframe⟩
    case refused => rw [hexec, opFullPack_refused m s hon hidle hbarred]
  case fullRunEnd =>
    intro s hon hrun hdone
    exact congrArg Host.Outcome.next ((powered_on _ s hon).trans (opFullRun_done s hrun hdone))
  case suites =>
    intro m s hon hidle hmask
    have hexec : exec (.runTestSuites m) s = .next (opRunSuites m.toNat s).2 := congrArg Host.Outcome.next (powered_on _ s hon)
    refine ⟨fun hlife => ?accepted, fun hstandby hready => ?refused⟩
    case accepted =>
      rw [hexec, opRunSuites_accepted m.toNat s hidle hmask hlife]
      exact ⟨_, rfl, setReg_reg_self .., rfl, rfl⟩
    case refused => rw [hexec, opRunSuites_refused m.toNat s hidle hmask hstandby hready]
  case suitesInProgress =>
    intro m s hrun
    refine congrArg Host.Outcome.next ?_
    by_cases hoff : s.life = .off
    · exact powered_off _ s hoff
    · exact (powered_on _ s hoff).trans (opRunSuites_inProgress m.toNat s hrun)
  case suitesEnd =>
    intro su di m dm s hon hrun bad on
    have hexec : exec (.testRunComplete su di) s = .next (opTestRun su di s) :=
      congrArg Host.Outcome.next ((powered_on _ s hon).trans (powered_on _ s hon))
    by_cases hpass : bad = 0 ∨ on = 0
    · obtain ⟨hended, hshown⟩ := opTestRun_passed su di m dm s hrun hpass
      exact ⟨_, hexec, hended, fun _ => hshown, fun hbad hfailed => (hpass.elim hbad hfailed).elim⟩
    · obtain ⟨hbad, hfailed⟩ := not_or.mp hpass
      obtain ⟨hboot, houtcome, hsuites, hdies, hraised, hback, hstays⟩ := opTestRun_failed su di m dm s hrun hbad hfailed
      exact ⟨_, hexec, by rw [hboot], fun h => absurd h hpass,
        fun _ _ => ⟨houtcome, hsuites, hdies, by rw [hboot], hraised, hback, hstays⟩⟩

/-! ### States that meet its hypotheses -/

/-- A package in HELD that holds a pack of one test and has tile 0 of D0 marked (R443). -/
def heldWithPack : State :=
  { State.reset with
    life := .held, job := { gallery := [0] },
    gal := { pack := [{ number := 1, beats := 8, words := [0], image := [], lines := 1, hash := 0, scale := [] }] } }

/-- A full run in HELD gives the marked tile its test. -/
theorem runFullPack_heldWithPack :
    ∃ t, exec (.runFullPack 1) heldWithPack = .next t ∧ t.reg 0x70100B = 1 ∧ ∃ g ∈ t.gal.runs, g.key = 0 := by
  obtain ⟨hfullRun, -⟩ := testRuns
  obtain ⟨haccepted, -⟩ := hfullRun 1 heldWithPack (by decide) (by decide)
  obtain ⟨t, hexec, hreg, -, hruns, -⟩ := haccepted (.inr (.inr rfl)) (by decide)
  exact ⟨t, hexec, hreg, hruns 0 (by norm_num) 0 (by norm_num) (by decide) (fun _ => by decide)⟩

/-- A full run in progress of which a test failed, and beside it a test of a targeted run (R441) that is still to end. -/
def heldFullRunFailed : State :=
  setReg 0x70100B 1 { heldWithPack with gal := { heldWithPack.gal with runs := [{ key := 0, test := 0, why := 1 }], failed := true } }

/-- A test of a targeted run does not keep a full run from its end. -/
theorem fullRunComplete_heldFullRunFailed : exec .fullRunComplete heldFullRunFailed = .next (setReg 0x70100B 3 heldFullRunFailed) := by
  obtain ⟨-, hend, -⟩ := testRuns
  exact hend heldFullRunFailed (by decide) (setReg_reg_self ..) (by decide)

/-- A package in READY that runs every suite on every die. -/
def readySuitesRunning : State :=
  modBoot (fun b => { b with testRun := some (1023, 15) }) { State.reset with life := .ready }

/-- The highest suite, failing on the highest die alone, returns the package to STANDBY. -/
theorem testRunComplete_readySuitesRunning :
    ∃ t, exec (.testRunComplete 0x200 8) readySuitesRunning = .next t ∧ t.reg 0x501804 = 0x200 ∧ t.reg 0x501805 = 8 ∧ raised 0x1005 t ∧
      t.life = .standby := by
  obtain ⟨-, -, -, -, hend⟩ := testRuns
  obtain ⟨t, hexec, -, -, hfail⟩ := hend 0x200 8 1023 15 readySuitesRunning (by decide) rfl
  obtain ⟨-, hsuites, hdies, -, hraised, hback, -⟩ := hfail (by decide) (by decide)
  exact ⟨t, hexec, hsuites, hdies, hraised (by decide), hback rfl⟩

end Sys2Proof.Machine
end

section
/-!
Draws with replacement (R181, R186): the positions that uniform and weighted draws take, and the slots an input of modes 0 and 1
is answered with.
-/

namespace Sys2Proof.Machine
open Sys2Proof

/-! ### Positions -/

/-- A uniform draw stays below what it draws from. -/
theorem uniformPos_lt (u d : Nat) (hu : u < 2 ^ 64) (hd : 0 < d) : uniformPos u d < d := by
  refine Nat.div_lt_of_lt_mul ?_
  exact Nat.mul_lt_mul_of_pos_right hu hd

/-- A node that is no hub stores no sums: W is the sum of its weights. -/
theorem weightTotal_of_not_hub (n : NodeRef) (ws : List Nat) (hn : ∀ e w deg totw segs, n ≠ .hub e w deg totw segs) :
    weightTotal n ws = ws.sum := by
  cases n with
  | hub e w deg totw segs => exact absurd rfl (hn e w deg totw segs)
  | _ => exact foldl_add_sum ws

/-- A node that is no hub draws over its own sums. -/
theorem weightedPos_of_not_hub (n : NodeRef) (ws : List Nat) (u : Nat) (hn : ∀ e w deg totw segs, n ≠ .hub e w deg totw segs) :
    weightedPos n ws u = (sumExceeds ws (u * ws.sum / 2 ^ 64) 0 0).getD 0 := by
  rw [← foldl_add_sum ws]
  cases n with
  | hub e w deg totw segs => exact absurd rfl (hn e w deg totw segs)
  | _ => rfl

/-- A weighted draw of a node that is no hub takes the position whose sum is the first to exceed t. -/
theorem weightedPos_of_not_hub_facts (n : NodeRef) (ws : List Nat) (u : Nat) (hu : u < 2 ^ 64) (hw : 0 < ws.sum)
    (hn : ∀ e w deg totw segs, n ≠ .hub e w deg totw segs) :
    let p := weightedPos n ws u
    let t := u * ws.sum / 2 ^ 64
    p < ws.length ∧ t < (ws.take (p + 1)).sum ∧ (∀ q < p, (ws.take (q + 1)).sum ≤ t) ∧ 0 < nth ws p := by
  obtain ⟨hbefore, hafter⟩ := weightedPos_plain ws u hu hw
  rw [weightedPos_of_not_hub n ws u hn]
  exact position_facts ws _ _ hbefore hafter

/-! ### Draws of an input -/

/-- With replacement in mode 0, draw j chooses position j (R181). -/
theorem choosePositions_uniform (d : SampDesc) (draw : Nat → Nat) (n : NodeRef) (ws : List Nat) (hm : d.mode = 0) (hr : d.repl = true) :
    (choosePositions d draw n ws).1 = (List.range d.fan).map (fun j => uniformPos (draw j) (nodeDegree n)) := by
  simp [choosePositions, hm, hr]

/-- With replacement in mode 1, draw j chooses position j (R181). -/
theorem choosePositions_weighted (d : SampDesc) (draw : Nat → Nat) (n : NodeRef) (ws : List Nat) (hm : d.mode = 1) (hr : d.repl = true)
    (hw : weightTotal n ws ≠ 0) :
    (choosePositions d draw n ws).1 = (List.range d.fan).map (fun j => weightedPos n ws (draw j)) := by
  simp [choosePositions, hm, hr, hw]

/-- In mode 1 a weight sum of 0 leaves nothing to choose (R181). -/
theorem choosePositions_weightless (d : SampDesc) (draw : Nat → Nat) (n : NodeRef) (ws : List Nat) (hm : d.mode = 1)
    (hw : weightTotal n ws = 0) : (choosePositions d draw n ws).1 = [] := by
  simp [choosePositions, hm, hw]

/-! ### Slots of an input -/

/-- An input that names a node with neighbours is answered with the neighbours at the chosen positions, then invalid slots
(R185 case 5). -/
theorem sampleInput_sampled (v : View) (d : SampDesc) (g : Nat) (draw : Nat → Nat → Nat) (i slot : Nat) (n : NodeRef) (ws ns : List Nat)
    (hvalid : bitAt slot 63 = true) (hnode : readNode v g (slot % 2 ^ 40) = .ok n) (hdeg : nodeDegree n ≠ 0)
    (hws : (if d.mode = 0 then .ok [] else nodeWeights v n) = .ok ws)
    (hns : rdAll (readNeighbour v n) (choosePositions d (draw i) n ws).1 = .ok ns) :
    ∃ o, sampleInput v d g draw i slot = .ok (ns.map validSlot ++ List.replicate (d.fan - ns.length) 0, o) := by
  unfold sampleInput
  rw [hvalid, hnode]
  cases n with
  | outside | malformed | empty => exact absurd rfl hdeg
  | ordinary | hub =>
    simp only [Bool.not_true, Bool.false_eq_true, if_false, Except.bind, hws, hns, Except.map]
    exact ⟨_, rfl⟩

/-- Where F positions are chosen, every slot is valid. -/
theorem sampleInput_full (v : View) (d : SampDesc) (g : Nat) (draw : Nat → Nat → Nat) (i slot : Nat) (n : NodeRef) (ws ns : List Nat)
    (pos : Nat → Nat) (hvalid : bitAt slot 63 = true) (hnode : readNode v g (slot % 2 ^ 40) = .ok n) (hdeg : nodeDegree n ≠ 0)
    (hws : (if d.mode = 0 then .ok [] else nodeWeights v n) = .ok ws)
    (hpos : (choosePositions d (draw i) n ws).1 = (List.range d.fan).map pos)
    (hns : rdAll (readNeighbour v n) ((List.range d.fan).map pos) = .ok ns) :
    ∃ o, sampleInput v d g draw i slot = .ok (ns.map validSlot, o) := by
  have hlen : ns.length = d.fan := by
    rw [rdAll_length _ _ _ hns, List.length_map, List.length_range]
  obtain ⟨o, ho⟩ := sampleInput_sampled v d g draw i slot n ws ns hvalid hnode hdeg hws (hpos ▸ hns)
  refine ⟨o, ?_⟩
  rw [ho, hlen, Nat.sub_self, List.replicate_zero, List.append_nil]

/-- Settles O45: a draw's position lies between two neighbouring sums, directly or through a hub's segments, and an input's slots
are its chosen positions, one per draw. -/
theorem replacementDraws : Obligations.ReplacementDraws := by
  refine ⟨fun u d hu hd => ⟨rfl, uniformPos_lt u d hu hd⟩, ?weighted, ?slots⟩
  case weighted =>
    intro n ws u hu hw hstored
    cases n with
    | hub e w deg totw segs =>
      obtain ⟨rfl, rfl, hsegs, hcums⟩ := hstored
      obtain ⟨hbefore, hafter⟩ := weightedPos_hub e w ws segs u hu hw hsegs hcums
      exact ⟨rfl, position_facts ws _ _ hbefore hafter⟩
    | _ => exact ⟨weightTotal_of_not_hub _ ws nofun, weightedPos_of_not_hub_facts _ ws u hu hw nofun⟩
  case slots =>
    intro v d g draw i slot n hrepl _ hvalid hnode hdeg
    refine ⟨?uniform, ?weighted, ?weightless⟩
    case uniform =>
      intro ns hmode hns
      exact sampleInput_full v d g draw i slot n [] ns _ hvalid hnode hdeg (if_pos hmode)
        (choosePositions_uniform d (draw i) n [] hmode hrepl) hns
    case weighted =>
      intro ws ns hmode hws htotal hns
      exact sampleInput_full v d g draw i slot n ws ns _ hvalid hnode hdeg ((if_neg (by omega)).trans hws)
        (choosePositions_weighted d (draw i) n ws hmode hrepl htotal) hns
    case weightless =>
      intro ws hmode hws htotal
      have hnone := choosePositions_weightless d (draw i) n ws hmode htotal
      exact sampleInput_sampled v d g draw i slot n ws [] hvalid hnode hdeg ((if_neg (by omega)).trans hws) (by rw [hnone]; rfl)

/-! ### A graph that meets its hypotheses -/

/-- A weighted graph of three nodes in one shard (R168 to R172), its descriptor at address 0. Node 0 is ordinary, with neighbours
10 to 13 of weights 0, 3, 0 and 5; node 1 is ordinary, with two neighbours of weight 0; node 2 is a hub over node 0's edges. -/
def toyGraph : View :=
  { s := { State.reset with
      mem :=
        [(0x00, 3), (0x07, 0x80), (0x08, 10), (0x10, 0x40),
         (0x40, 0x80),
         (0x88, 3), (0x90, 0xC0), (0x99, 1), (0xA0, 0x40), (0xA1, 1), (0xA8, 0x80), (0xA9, 1),
         (0xC6, 3), (0xC8, 4), (0xCE, 1), (0xD7, 0x40),
         (0x100, 10), (0x105, 11), (0x10A, 12), (0x10F, 13), (0x114, 14), (0x119, 15),
         (0x142, 3), (0x146, 5),
         (0x180, 4), (0x188, 8)] },
    remote := [] }

/-- Four draws with replacement, in the given mode. -/
def toyDesc (mode : Nat) : SampDesc := { sampDesc 0 0 with mode := mode, repl := true, fan := 4 }

/-- Four draws that lie a quarter of the range apart, from 0 up. -/
def quarterDraw (_ j : Nat) : Nat := j * 2 ^ 62

/-- Node 0 as the graph gives it. -/
def toyNode : NodeRef := .ordinary 0x100 (some 0x140) 4 0

/-- Node 2 as the graph gives it. -/
def toyHub : NodeRef := .hub 0x100 (some 0x140) 4 8 [(0, 0)]

/-- Uniform draws of node 0 take each neighbour once. -/
theorem sampleInput_toyNode_uniform :
    ∃ o, sampleInput toyGraph (toyDesc 0) 0 quarterDraw 0 (2 ^ 63) = .ok ([10, 11, 12, 13].map validSlot, o) := by
  obtain ⟨-, -, hslots⟩ := replacementDraws
  obtain ⟨huniform, -, -⟩ := hslots toyGraph (toyDesc 0) 0 quarterDraw 0 (2 ^ 63) toyNode rfl (by decide) rfl (by decide) (by decide)
  exact huniform [10, 11, 12, 13] rfl rfl

/-- Weighted draws of node 0 take none of its neighbours of weight 0. -/
theorem sampleInput_toyNode_weighted :
    ∃ o, sampleInput toyGraph (toyDesc 1) 0 quarterDraw 0 (2 ^ 63) = .ok ([11, 11, 13, 13].map validSlot, o) := by
  obtain ⟨-, -, hslots⟩ := replacementDraws
  obtain ⟨-, hweighted, -⟩ := hslots toyGraph (toyDesc 1) 0 quarterDraw 0 (2 ^ 63) toyNode rfl (by decide) rfl (by decide) (by decide)
  exact hweighted [0, 3, 0, 5] [11, 11, 13, 13] rfl rfl (by decide) rfl

/-- The hub over the same edges is answered with the same neighbours. -/
theorem sampleInput_toyHub_weighted :
    ∃ o, sampleInput toyGraph (toyDesc 1) 0 quarterDraw 0 (2 ^ 63 + 2) = .ok ([11, 11, 13, 13].map validSlot, o) := by
  obtain ⟨-, -, hslots⟩ := replacementDraws
  obtain ⟨-, hweighted, -⟩ := hslots toyGraph (toyDesc 1) 0 quarterDraw 0 (2 ^ 63 + 2) toyHub rfl (by decide) rfl (by decide) (by decide)
  exact hweighted [0, 3, 0, 5] [11, 11, 13, 13] rfl rfl (by decide) rfl

/-- Node 1, of weight sum 0, is answered with invalid slots alone. -/
theorem sampleInput_weightless :
    ∃ o, sampleInput toyGraph (toyDesc 1) 0 quarterDraw 0 (2 ^ 63 + 1) = .ok ([0, 0, 0, 0], o) := by
  obtain ⟨-, -, hslots⟩ := replacementDraws
  obtain ⟨-, -, hweightless⟩ :=
    hslots toyGraph (toyDesc 1) 0 quarterDraw 0 (2 ^ 63 + 1) (.ordinary 0x100 (some 0x140) 2 4) rfl (by decide) rfl (by decide) (by decide)
  exact hweightless [0, 0] rfl rfl (by decide)

/-- The largest draw stays on the hub's last position, its stored sums being those of its weights. -/
theorem weightedPos_toyHub_last : weightTotal toyHub [0, 3, 0, 5] = 8 ∧ 0 < nth [0, 3, 0, 5] (weightedPos toyHub [0, 3, 0, 5] (2 ^ 64 - 1)) := by
  obtain ⟨-, hdraws, -⟩ := replacementDraws
  obtain ⟨htotal, -, -, -, hpositive⟩ := hdraws toyHub [0, 3, 0, 5] (2 ^ 64 - 1) (by decide) (by decide) ⟨rfl, rfl, rfl, by decide⟩
  exact ⟨htotal, hpositive⟩

end Sys2Proof.Machine
end

section
/-!
Gradient entries that reach an inbox of this package (R86, R204, R206, R222).
-/

namespace Sys2Proof.Machine
open Sys2Proof

/-! ### Numbers within bytes read -/

theorem drop_readBytes (m : Memory) (a off n : Nat) : (readBytes m a n).drop off = readBytes m (a + off) (n - off) := by
  induction off generalizing a n with
  | zero => simp
  | succ off ih =>
    cases n with
    | zero => simp [readBytes]
    | succ n => rw [readBytes, List.drop_succ_cons, ih, Nat.add_sub_add_right, Nat.add_right_comm, Nat.add_assoc]

theorem take_readBytes (m : Memory) (a k n : Nat) (h : k ≤ n) : (readBytes m a n).take k = readBytes m a k := by
  induction k generalizing a n with
  | zero => simp [readBytes]
  | succ k ih =>
    cases n with
    | zero => omega
    | succ n => rw [readBytes, List.take_succ_cons, ih _ _ (by omega), readBytes]

/-- A field of bytes read from memory is what memory holds at its own address. -/
theorem leAt_readBytes (m : Memory) (a off k n : Nat) (h : off + k ≤ n) : leAt (readBytes m a n) off k = readLE m (a + off) k := by
  have hslice : sliceBytes (readBytes m a n) off k = readBytes m (a + off) k := by
    rw [sliceBytes, drop_readBytes, take_readBytes _ _ _ _ (by omega), length_readBytes]
    simp
  rw [leAt, hslice, readLE]

/-! ### The inbox takes an entry -/

/-- The registers' part of an entry's arrival (R222): it is counted on the shard's die, and so is the page taken for it
when it is the first of its page. -/
def entryCounted (sh : Shard) (per : Nat) (s : State) : State :=
  bumpReg (dieKey sh.die 0x812008) 1 (if sh.inbox.length % per = 0 then bumpReg (dieKey sh.die 0x81200C) 1 s else s)

theorem entryCounted_frame (sh : Shard) (per : Nat) (s : State) :
    entryCounted sh per s = { s with regs := (entryCounted sh per s).regs } := by
  unfold entryCounted
  split <;> rfl

/-- The count of pages is another entry of the dictionary than the count of gradient entries. -/
theorem entryCounted_received (sh : Shard) (per : Nat) (s : State) :
    (entryCounted sh per s).reg (dieKey sh.die 0x812008) =
      (s.reg (dieKey sh.die 0x812008) + 1) % 2 ^ counterBits (dieKey sh.die 0x812008) := by
  have hne : dieKey sh.die 0x81200C ≠ dieKey sh.die 0x812008 := by unfold dieKey; omega
  unfold entryCounted
  split
  · rw [bumpReg_reg_self, bumpReg_reg_ne _ _ _ _ hne]
  · rw [bumpReg_reg_self]

/-- An entry as it is stored in its page (R204, R206): its key, then its values. -/
def entryBytes (gk : BitVec 128) (vals : List Nat) : List Byte := leBytes 16 gk.toNat ++ vals.flatMap (leBytes 4)

/-- Where the next entry of a shard's inbox lies, for `per` entries of `size` bytes to a page (R206). -/
def nextEntryAddr (sh : Shard) (per size : Nat) (m : Memory) : Nat :=
  readLE m (sh.header + 48) 8 + 65536 * (sh.inbox.length / per) + sh.inbox.length % per * size

/-- The shard with an entry appended to its inbox. -/
def withEntry (sh : Shard) (gk : BitVec 128) (vals : List Nat) : Shard :=
  { sh with inbox := sh.inbox ++ [{ key := gk, vals := vals }], pages := sh.inbox.length / entriesPerPage vals.length + 1 }

/-- Before the merge, and with a page left in the shard's pool, an entry is counted, stored and appended (R206). -/
theorem inboxEntry_room (key : Nat) (gk : BitVec 128) (vals : List Nat) (src : Nat) (s : State) (sh : Shard)
    (hshard : smFind s.tables.shards key = some sh) (hmerge : sh.mergedBy = none)
    (hroom : sh.inbox.length / entriesPerPage vals.length < readLE s.mem (sh.header + 56) 8) :
    inboxEntry key gk vals src s =
      { putMem (nextEntryAddr sh (entriesPerPage vals.length) (16 + 4 * vals.length) s.mem) (entryBytes gk vals)
          (entryCounted sh (entriesPerPage vals.length) s) with
        tables := { s.tables with shards := smPut s.tables.shards key (withEntry sh gk vals) } } := by
  have hpool : leAt (s.bytes sh.header 64) 48 8 = readLE s.mem (sh.header + 48) 8 := leAt_readBytes s.mem sh.header 48 8 64 (by omega)
  have hpages : leAt (s.bytes sh.header 64) 56 8 = readLE s.mem (sh.header + 56) 8 := leAt_readBytes s.mem sh.header 56 8 64 (by omega)
  have htables : (entryCounted sh (entriesPerPage vals.length) s).tables = s.tables := 
    congrArg (fun u => u.tables) (entryCounted_frame sh (entriesPerPage vals.length) s)
  unfold inboxEntry withEntry
  rw [hshard]
  dsimp -zeta only
  rw [hmerge]
  refine (if_neg (by rw [hpages]; omega)).trans ?_
  rw [nextEntryAddr, ← hpool, ← htables]
  rfl

/-- What an inbox with room does to the state: memory and its marks, the two counts, and the shard's own entry. -/
theorem inboxEntry_room_effect (key : Nat) (gk : BitVec 128) (vals : List Nat) (src : Nat) (s : State) (sh : Shard)
    (hshard : smFind s.tables.shards key = some sh) (hmerge : sh.mergedBy = none)
    (hroom : sh.inbox.length / entriesPerPage vals.length < readLE s.mem (sh.header + 56) 8) :
    let v := inboxEntry key gk vals src s
    v.mem = writeBytes s.mem (nextEntryAddr sh (entriesPerPage vals.length) (16 + 4 * vals.length) s.mem) (entryBytes gk vals) ∧
    v.tables = { s.tables with shards := smPut s.tables.shards key (withEntry sh gk vals) } ∧
    v.reg (dieKey sh.die 0x812008) = (s.reg (dieKey sh.die 0x812008) + 1) % 2 ^ counterBits (dieKey sh.die 0x812008) ∧
    v = { s with mem := v.mem, bad := v.bad, regs := v.regs, tables := v.tables } := by
  have hreceived := entryCounted_received sh (entriesPerPage vals.length) s
  dsimp only
  rw [inboxEntry_room key gk vals src s sh hshard hmerge hroom]
  rw [entryCounted_frame] at hreceived ⊢
  exact ⟨rfl, rfl, hreceived, rfl⟩

/-! ### The command -/

/-- While tiles are live, an entry of the current step for a shard of this package reaches that shard's inbox (R86). -/
theorem exec_gradientEntry_shard (d : Fin 4) (tag : BitVec 12) (table : Fin 4096) (shard : Fin 16384) (gk : BitVec 128)
    (vals : List (BitVec 32)) (src : BitVec 24) (s : State) (sh : Shard) (hlive : tilesLive s = true)
    (htag : tag = s.dieTags.getD d.val 0) (hshard : smFind s.tables.shards (shardKey table.val shard.val 0) = some sh) :
    exec (.gradientEntry d tag table shard gk vals src) s =
      .next (inboxEntry (shardKey table.val shard.val 0) gk (vals.map BitVec.toNat) src.toNat s) := by
  show Host.Outcome.next (powered (opGradientEntry d tag table shard gk vals src) s) = _
  rw [powered_on _ s (tilesLive_on s hlive)]
  unfold opGradientEntry
  rw [if_pos hlive, hshard, if_pos Option.isSome_some]
  exact congrArg Host.Outcome.next (byTag_current _ _ _ _ _ _ htag)

/-- Settles O17: the entry reaches its shard's inbox, which has a page for it. -/
theorem gradientEntry : Obligations.GradientEntry := by
  intro d tag table shard gk vals src s sh key size per i vs hlife htag hshard hmerge hroom
  have hlength : vs.length = vals.length := List.length_map _
  have hper : entriesPerPage vs.length = per := by rw [entriesPerPage, hlength]
  have heffect := inboxEntry_room_effect key gk vs src.toNat s sh hshard hmerge (by rw [hper]; exact hroom)
  rw [withEntry, hper, hlength] at heffect
  exact ⟨_, exec_gradientEntry_shard d tag table shard gk vals src s sh ((tilesLive_iff s).mpr hlife) htag hshard, heffect⟩

/-! ### Inboxes that meet its hypotheses -/

/-- Shard 5 of table 2, on die 1: its header at address 0, its pool of one page at 64 KiB, and `n` entries in its inbox. -/
def onePageShard (n : Nat) : Shard :=
  { table := 2, shard := 5, die := 1, header := 0, inbox := List.replicate n { key := 0, vals := [] } }

/-- A running package that holds this shard. -/
def onePageInbox (n : Nat) : State :=
  { freshRunning with
    mem := [(0x32, 1), (0x38, 1)]
    tables := { freshRunning.tables with shards := [(shardKey 2 5 0, onePageShard n)] } }

theorem smFind_onePageInbox (n : Nat) : smFind (onePageInbox n).tables.shards (shardKey 2 5 0) = some (onePageShard n) := if_pos rfl

/-- Entries of 1,024 values lie 15 to a page: with 14 of them there, one more, here of ones, is written at the page's last
place. -/
theorem gradientEntry_fills_page :
    ∃ v, exec (.gradientEntry 1 0 2 5 9 (List.replicate 1024 0x3F800000) 0) (onePageInbox 14) = .next v ∧
      v.mem = writeBytes (onePageInbox 14).mem (0x10000 + 14 * 4112) (entryBytes 9 ((List.replicate 1024 0x3F800000).map (BitVec.toNat (w := 32)))) ∧
      v.reg (dieKey 1 0x812008) = 1 := by
  obtain ⟨v, hexec, hmem, -, hreceived, -⟩ := gradientEntry 1 0 2 5 9 (List.replicate 1024 0x3F800000) 0 (onePageInbox 14)
    (onePageShard 14) (.inl rfl) rfl (smFind_onePageInbox 14) rfl (by rw [List.length_replicate]; decide)
  rw [List.length_replicate] at hmem
  exact ⟨v, hexec, hmem, hreceived⟩

/-- The first entry of an empty inbox, of one value, is written at the page's start. -/
theorem gradientEntry_begins_page :
    ∃ v, exec (.gradientEntry 1 0 2 5 9 [0x3F800000] 0) (onePageInbox 0) = .next v ∧
      v.mem = writeBytes (onePageInbox 0).mem 0x10000 (entryBytes 9 [0x3F800000]) := by
  obtain ⟨v, hexec, hmem, -⟩ := gradientEntry 1 0 2 5 9 [0x3F800000] 0 (onePageInbox 0) (onePageShard 0) (.inl rfl) rfl
    (smFind_onePageInbox 0) rfl (by decide)
  exact ⟨v, hexec, hmem⟩

end Sys2Proof.Machine
end

section
/-!
The forward barrier, the watchdog, a decision that does not come, and the serving interval (R227, R228, R246, R371, R427); what
an attempt that is to be run again leaves of its step.
-/

namespace Sys2Proof.Machine
open Sys2Proof

/-! ### An attempt to be run again -/

/-- The step of `s` is to be run again in `t` (R91, R224, R238, R427): the next attempt of the same step, with its tiles stopped
and the persistent state as it was. -/
def RunsAgain (s t : State) : Prop :=
  t.stepNo = s.stepNo ∧ t.step.phase = .decided ∧ t.step.attempt = s.step.attempt + 1 ∧ t.mem = s.mem ∧ t.tables = s.tables ∧
    t.ctxs = s.ctxs ∧ ∀ k, t.tile k = stopTile (s.tile k)

theorem dropAttempt_runsAgain (s : State) : RunsAgain s (dropAttempt s) :=
  ⟨rfl, rfl, rfl, rfl, rfl, rfl, fun k => stopTiles_tile s k (dropAttempt s) rfl⟩

/-- Sending changes nothing that the next attempt starts from. -/
theorem RunsAgain.of_net {s u t : State} (hnet : NetOnly s u) (h : RunsAgain u t) : RunsAgain s t := by
  obtain ⟨hno, hphase, hattempt, hmem, htables, hctxs, htile⟩ := h
  exact ⟨hno.trans (hnet.low 0x500001 (by decide)), hphase, hattempt.trans (by rw [hnet.step]), hmem.trans hnet.mem,
    htables.trans hnet.tables, hctxs.trans hnet.ctxs, fun k => (htile k).trans (by rw [hnet.tile])⟩

/-- What a package shows as it enters HELD at a step boundary (R224, R396): nothing of the step but the count of attempts since
the last quiescent point, and a HOLD asked for, changes. -/
theorem enterHeld_result (cause : Nat) (s : State) :
    let t := enterHeld cause s
    t.life = .held ∧ t.reg 0x100009 = cause ∧ t.reg 0x100008 = s.now ∧ t.stepNo = s.stepNo ∧ t.step.sinceQuiet = 0 ∧
      t.step = { s.step with sinceQuiet := 0, holdAsked := t.step.holdAsked } ∧
      t = { s with life := .held, regs := t.regs, trunk := t.trunk, step := t.step } := by
  obtain ⟨hframe, hstep, hcause, hnow, hregs⟩ := enter_result .held cause { s with step := { s.step with sinceQuiet := 0 } }
  exact ⟨congrArg State.life hframe, hcause, hnow, hregs 0x500001 (by decide) (by decide) (by decide) (by decide) (by decide),
    congrArg StepState.sinceQuiet hstep, hstep, hframe⟩

theorem RunsAgain.enterHeld {s t : State} (cause : Nat) (h : RunsAgain s t) : RunsAgain s (enterHeld cause t) := by
  obtain ⟨hno, hphase, hattempt, hmem, htables, hctxs, htile⟩ := h
  obtain ⟨_, _, _, hkept, _, hstep, hframe⟩ := enterHeld_result cause t
  generalize Machine.enterHeld cause t = u at hkept hstep hframe
  refine ⟨hkept.trans hno, ?_, ?_, ?_, ?_, ?_, fun k => ?_⟩
  · rw [hstep]; exact hphase
  · rw [hstep]; exact hattempt
  · rw [hframe]; exact hmem
  · rw [hframe]; exact htables
  · rw [hframe]; exact hctxs
  · rw [hframe]; exact htile k

/-! ### The timers -/

/-- A watchdog period has run out after the vote (R246). -/
def noteMissing (s : State) : State := { s with step := { s.step with missing := true } }

/-- MISSING_DECISION (R246, R427) drops the attempt after raising 0x9004, and the package enters HELD. -/
theorem opMissingDecision_result (s : State) (hlife : s.life = .running) (hphase : s.step.phase = .voted) (hreg : s.reg 0x500008 ≠ 0) :
    let t := opMissingDecision s
    t.life = .held ∧ t.reg 0x100009 = 0x9004 ∧ t.reg 0x100008 = s.now ∧ RunsAgain s t ∧ raised 0x9004 t := by
  have hgo : opMissingDecision s = enterHeld 0x9004 (dropAttempt (raise_ 0x9004 (noteMissing s))) := if_pos ⟨hlife, hphase, hreg⟩
  have hagain : RunsAgain (noteMissing s) (dropAttempt (raise_ 0x9004 (noteMissing s))) :=
    (dropAttempt_runsAgain _).of_net (raiseAt_net 0x9004 0 768 0 0 (noteMissing s))
  obtain ⟨hheld, hcause, hnow, _⟩ := enterHeld_result 0x9004 (dropAttempt (raise_ 0x9004 (noteMissing s)))
  dsimp only
  rw [hgo]
  exact ⟨hheld, hcause, hnow.trans (raiseAt_now 0x9004 0 768 0 0 (noteMissing s)), hagain.enterHeld 0x9004,
    raised_of_batch (raised_raiseAt 0x9004 0 768 0 0 (noteMissing s)) (enter_evBatch _ _ _)⟩

/-- Settles O35: each timer acts under its own conditions; a missing decision drops the attempt and holds the package. -/
theorem stepTimers : Obligations.StepTimers := by
  intro s
  have hon (h : s.life = .running) : s.life ≠ .off := running_ne_off (.inl h)
  refine ⟨fun hlife hphase hbarrier hcauses hback => ?barrier, fun hlife hphase hreg => ?watchdog,
    fun hlife hphase hreg => ?missing, fun hlife hserving hphase => ?interval⟩
  case barrier =>
    have hruns : runsTiles s = true := by simpa [runsTiles] using hlife
    have hall : allTiles.all (fun k => atBackward (s.tile k)) = true := by
      rw [List.all_eq_true]
      exact fun k hk => hback k (List.mem_range.mp hk)
    exact congrArg Host.Outcome.next ((powered_on _ s (running_ne_off hlife)).trans
      (if_pos ⟨hruns, hphase, by rw [hbarrier]; rfl, hcauses, hall⟩))
  case watchdog =>
    exact congrArg Host.Outcome.next ((powered_on _ s (hon hlife)).trans (if_pos ⟨hlife, hphase, hreg⟩))
  case missing =>
    obtain ⟨hheld, hcause, hnow, ⟨hno, hagain, hattempt, hmem, _, _, htile⟩, hraised⟩ := opMissingDecision_result s hlife hphase hreg
    exact ⟨_, congrArg Host.Outcome.next (powered_on _ s (hon hlife)), hheld, hcause, hnow, hagain, hattempt, hno, hmem, htile, hraised⟩
  case interval =>
    exact congrArg Host.Outcome.next ((powered_on _ s (hon hlife)).trans (if_pos ⟨hlife, hserving, hphase⟩))

/-! ### States that meet its hypotheses -/

/-- A package in the attempt of its first step. -/
def attemptRunning : State := { freshRunning with step := { phase := .attempt } }

/-- With the watchdog at its default of 30 s, the attempt is aborted with cause 4 alone. -/
theorem stepWatchdogExpiry_attemptRunning :
    ∃ t, exec .stepWatchdogExpiry attemptRunning = .next t ∧ t.step.causes = [4] ∧ t.reg 0x500006 = 4 := by
  obtain ⟨-, hexpiry, -⟩ := stepTimers attemptRunning
  obtain ⟨hcauses, hreg⟩ := abortAttempt_causes 4 attemptRunning rfl
  exact ⟨_, hexpiry rfl rfl (by decide), hcauses, by rw [hreg, hcauses]; rfl⟩

/-- A package that has voted in the attempt of its first step. -/
def attemptVoted : State := { freshRunning with step := { phase := .voted } }

theorem missingDecision_attemptVoted : ∃ t, exec .missingDecision attemptVoted = .next t ∧ t.life = .held ∧ t.step.attempt = 1 := by
  obtain ⟨-, -, hmissing, -⟩ := stepTimers attemptVoted
  obtain ⟨t, hexec, hheld, -, -, -, hattempt, -⟩ := hmissing rfl rfl (by decide)
  exact ⟨t, hexec, hheld, hattempt⟩

/-- A package whose tiles all stand at their backward entry, with a loss of 1.0 in the SRAM of tile 0. -/
def allBackward : State :=
  { attemptRunning with tiles := allTiles.map (fun k => (k, { run := .active })), mem := [(windowBase + 2, 0x80), (windowBase + 3, 0x3F)] }

theorem smFind_map_key {α : Type} (ks : List Nat) (v : α) (k : Nat) (h : k ∈ ks) : smFind (ks.map (fun k => (k, v))) k = some v := by
  induction ks with
  | nil => cases h
  | cons a ks ih =>
    rw [List.map_cons, smFind]
    split
    · rfl
    · next hne => exact ih ((List.mem_cons.mp h).resolve_left (fun e => hne e.symm))

theorem tile_of_listed (s : State) (ks : List Nat) (t : Tile) (k : Nat) (hs : s.tiles = ks.map (fun k => (k, t))) (h : k ∈ ks) : s.tile k = t := by
  rw [State.tile, hs, smGetD, smFind_map_key ks t k h]
  rfl

theorem allBackward_tile (k : Nat) (h : k < 3072) : allBackward.tile k = { run := .active } := by
  have hlisted : k ∈ allTiles := List.mem_range.mpr h
  have htiles : allBackward.tiles = allTiles.map (fun k => (k, { run := .active })) := by unfold allBackward; with_reducible rfl
  exact tile_of_listed allBackward allTiles { run := .active } k htiles hlisted

theorem forwardBarrier_allBackward :
    ∃ t, exec .forwardBarrier allBackward = .next t ∧ t.step.barrier = true ∧ t.step.loss = some 0x3F800000 := by
  obtain ⟨hbarrier, -⟩ := stepTimers allBackward
  exact ⟨_, hbarrier (.inl rfl) rfl rfl rfl (fun k hk => by rw [allBackward_tile k hk]; rfl), rfl, by decide⟩

/-- A serving package between two steps. -/
def servingIdle : State := { freshRunning with job := { serving := true } }

theorem servingStepInterval_servingIdle : ∃ t, exec .servingStepInterval servingIdle = .next t ∧ t.step.intervalDue = true := by
  obtain ⟨-, -, -, hinterval⟩ := stepTimers servingIdle
  exact ⟨_, hinterval rfl rfl (.inl rfl), rfl⟩

end Sys2Proof.Machine
end

section
/-!
The bits of a vote and a decision (R235, R238); how votes are formed, combined and sent (R235, R236).
-/

namespace Sys2Proof.Machine
open Sys2Proof

/-! ### The fields of packed words -/

/-- A word packed from fields of given widths, the highest first. -/
structure Packs (ws : List Nat) (fs : List (Nat × Nat)) (n : Nat) : Prop where
  widths : fs.map (fun f => f.1) = ws
  word : n = packFields fs

namespace Packs
variable {ws : List Nat} {fs : List (Nat × Nat)} {n w : Nat}

theorem below (h : Packs ws fs n) {lo : Nat} (i : Nat) (hlo : (ws.drop (i + 1)).sum = lo) : fieldBits (fs.drop (i + 1)) = lo := by
  rw [fieldBits, List.map_drop, h.widths, hlo]

/-- A number that fits its field reads back from it. -/
theorem field (h : Packs ws fs n) (i hi lo : Nat) {v : Nat} (hf : fs[i]? = some (w, v)) (hlo : (ws.drop (i + 1)).sum = lo) (hw : hi + 1 - lo = w)
    (hv : v < 2 ^ w) : bitField n hi lo = v := by
  rw [h.word, bitField_pack_at fs i w v hi lo hf (h.below i hlo) hw, Nat.mod_eq_of_lt hv]

/-- A bit vector reads back from a field of its width. -/
theorem vector (h : Packs ws fs n) (i hi lo : Nat) {x : BitVec w} (hf : fs[i]? = some (w, x.toNat)) (hlo : (ws.drop (i + 1)).sum = lo)
    (hw : hi + 1 - lo = w) : BitVec.ofNat w (bitField n hi lo) = x := by
  rw [h.field i hi lo hf hlo hw x.isLt, BitVec.ofNat_toNat, BitVec.setWidth_eq]

/-- A flag reads back from its bit. -/
theorem flag (h : Packs ws fs n) (i lo : Nat) {b : Bool} (hf : fs[i]? = some (1, boolNat b)) (hlo : (ws.drop (i + 1)).sum = lo) :
    bitAt n lo = b :=
  bitAt_pack fs i n lo b h.word hf (h.below i hlo)

end Packs

/-- The widths of a vote's fields from bit 255 down: the eight bits below SUSDIE are reserved (R235). -/
def voteWidths : List Nat := [48, 4, 8, 5, 1, 1, 1, 1, 4, 1, 12, 2, 8, 32, 64, 64]

theorem voteBits_packs (v : Vote) (h : voteOk v = true) : Packs voteWidths
    [(48, v.step), (4, v.attempt), (8, v.encore.toNat), (5, v.exc.toNat), (1, boolNat v.lossNF), (1, boolNat v.gradNF), (1, boolNat v.rowNF),
      (1, boolNat v.abort), (4, v.cause), (1, boolNat v.suspV), (12, v.suspect.toNat), (2, v.susDie.toNat), (8, 0), (32, v.invalid),
      (64, v.gs.toNat), (64, v.gb.toNat)] (voteBits v).toNat := ⟨rfl, voteBits_pack v h⟩

theorem voteOf_voteBits (v : Vote) (h : voteOk v = true) : voteOf (voteBits v) = v := by
  have hp := voteBits_packs v h
  unfold voteOk at h
  simp only [Bool.and_eq_true, decide_eq_true_eq] at h
  obtain ⟨⟨⟨⟨hstep, hattempt⟩, hcause⟩, hinvalid⟩, _⟩ := h
  unfold voteOf
  dsimp only
  rw [hp.field 0 255 208 rfl rfl rfl hstep, hp.field 1 207 204 rfl rfl rfl hattempt, hp.vector 2 203 196 rfl rfl rfl,
    hp.vector 3 195 191 rfl rfl rfl, hp.flag 4 190 rfl rfl, hp.flag 5 189 rfl rfl, hp.flag 6 188 rfl rfl, hp.flag 7 187 rfl rfl,
    hp.field 8 186 183 rfl rfl rfl (by omega), hp.flag 9 182 rfl rfl, hp.vector 10 181 170 rfl rfl rfl, hp.vector 11 169 168 rfl rfl rfl,
    hp.field 13 159 128 rfl rfl rfl hinvalid, hp.vector 14 127 64 rfl rfl rfl, hp.vector 15 63 0 rfl rfl rfl]

/-- The widths of a decision's fields from bit 127 down: bits 36:0 are reserved (R238). -/
def decisionWidths : List Nat := [48, 4, 4, 16, 4, 1, 12, 2, 37]

theorem decisionBits_packs (d : Decision) (k : Nat) (h : decisionOk d k = true) (hk : k < 16) : Packs decisionWidths
    [(48, d.step), (4, d.attempt), (4, d.action), (16, d.nextmode.toNat), (4, d.cause), (1, boolNat d.suspV), (12, d.suspect.toNat),
      (2, d.susDie.toNat), (37, 0)] (decisionBits d) := ⟨rfl, decisionBits_pack d k h hk⟩

theorem decisionOf_decisionBits (d : Decision) (k : Nat) (h : decisionOk d k = true) (hk : k < 16) : decisionOf (decisionBits d) = d := by
  have hp := decisionBits_packs d k h hk
  unfold decisionOk at h
  simp only [Bool.and_eq_true, decide_eq_true_eq] at h
  obtain ⟨⟨⟨hstep, hattempt⟩, haction⟩, hcause⟩ := h
  unfold decisionOf
  rw [hp.field 0 127 80 rfl rfl rfl hstep, hp.field 1 79 76 rfl rfl rfl hattempt, hp.field 2 75 72 rfl rfl rfl (by omega),
    hp.vector 3 71 56 rfl rfl rfl, hp.field 4 55 52 rfl rfl rfl (by omega), hp.flag 5 51 rfl rfl, hp.vector 6 50 39 rfl rfl rfl,
    hp.vector 7 38 37 rfl rfl rfl]

/-- Settles O36: every field lies at its own bits of the packed word. -/
theorem voteLayout : Obligations.VoteLayout := ⟨voteOf_voteBits, decisionOf_decisionBits⟩

/-- A vote with every field at its largest value. -/
def largestVote : Vote :=
  { step := 2 ^ 48 - 1, attempt := 15, encore := 255, exc := 31, lossNF := true, gradNF := true, rowNF := true, abort := true, cause := 10,
    suspV := true, suspect := 4095, susDie := 3, invalid := 2 ^ 32 - 1, gs := -1, gb := -1 }

/-- A HOLD with every other field at its largest value. -/
def largestHold : Decision :=
  { step := 2 ^ 48 - 1, attempt := 15, action := 4, nextmode := -1, cause := 10, suspV := true, suspect := 4095, susDie := 3 }

theorem voteLayout_largest : voteOf (voteBits largestVote) = largestVote ∧ decisionOf (decisionBits largestHold) = largestHold :=
  ⟨voteOf_voteBits largestVote (by decide), decisionOf_decisionBits largestHold 4 (by decide) (by decide)⟩

/-! ### How votes combine -/

theorem minCause_left (a b : Nat) (h : a ≠ 0) : minCause a b ≠ 0 ∧ minCause a b ≤ a := by
  unfold minCause
  rw [if_neg h]
  split <;> omega

theorem minCause_right (a b : Nat) (h : b ≠ 0) : minCause a b ≠ 0 ∧ minCause a b ≤ b := by
  unfold minCause
  rw [if_neg h]
  split <;> omega

/-- A vote of another step or attempt than the combiner's sets ABORT (R236). -/
theorem combineVotes_abort (a b : Vote) :
    (combineVotes a b).abort = true ↔ a.abort = true ∨ b.abort = true ∨ b.step ≠ a.step ∨ b.attempt ≠ a.attempt := by
  simp only [combineVotes, Bool.or_eq_true, bne_iff_ne, or_assoc]

/-- The smallest cause of either vote stays, or a smaller one takes its place (R236). -/
theorem combineVotes_cause (a b : Vote) (c : Nat) (hc : c ≠ 0) (h : c = a.cause ∨ c = b.cause) :
    (combineVotes a b).cause ≠ 0 ∧ (combineVotes a b).cause ≤ c := by
  have hpair : minCause a.cause b.cause ≠ 0 ∧ minCause a.cause b.cause ≤ c := by
    obtain rfl | rfl := h
    · exact minCause_left a.cause b.cause hc
    · exact minCause_right a.cause b.cause hc
  obtain ⟨hne, hle⟩ := minCause_left (minCause a.cause b.cause) (if (b.step != a.step || b.attempt != a.attempt) then 7 else 0) hpair.1
  exact ⟨hne, hle.trans hpair.2⟩

/-! ### Forming and sending a vote -/

/-- The votes of the children, where they have come (R236). -/
def childVotesOf (s : State) : List (Option Vote) := (voteChildren s).map (fun c => smFind s.step.childVotes c.1)

/-- The package has voted with `v` for its subtree (R236). -/
def withCombined (v : Vote) (s : State) : State := { s with step := { s.step with combined := some v, voteSent := true, since := s.now } }

theorem tryCombine_noOwn (s : State) (h : s.step.ownVote = none) : tryCombine s = s := by
  unfold tryCombine
  rw [h]

/-- A package waits for its children's votes (R236). -/
theorem tryCombine_waits (s : State) (h : (childVotesOf s).any Option.isNone = true) : tryCombine s = s := by
  unfold tryCombine
  split
  · rfl
  · exact if_pos (by rw [Bool.or_eq_true]; exact .inr h)

/-- The coordinator decides from the combined vote, and sends what it decided (R237, R238). -/
def decideAndSend (v : Vote) (s : State) : State :=
  let r := decideVote v s
  sendDecision r.1 { r.2 with step := { r.2.step with decision := some r.1 } }

/-- With all votes there, the combined vote goes to the parent; without one the coordinator decides (R236, R238). -/
theorem tryCombine_all (s : State) (own : Vote) (hown : s.step.ownVote = some own) (hkids : (childVotesOf s).any Option.isNone = false)
    (hsent : s.step.voteSent = false) :
    let v := ((childVotesOf s).filterMap id).foldl combineVotes own
    let w := withCombined v s
    tryCombine s = match voteParent s with
      | some p => sendControl 6 p (voteBits v) w
      | none => decideAndSend v w := by
  unfold tryCombine
  rw [hown]
  exact if_neg (by rw [hsent, Bool.false_or]; exact Bool.eq_false_iff.mp hkids)

/-- The package has formed its own vote (R235). -/
def withOwnVote (s : State) : State := { s with step := { s.step with phase := .voted, ownVote := some (formVote s), endedAt := s.now } }

theorem exec_packageVote (s : State) (hlife : s.life = .running) (hphase : s.step.phase = .attempt)
    (hdone : attemptComplete s = true ∨ attemptStopped s = true) : exec .packageVote s = .next (tryCombine (withOwnVote s)) :=
  congrArg Host.Outcome.next ((powered_on _ s (running_ne_off (.inl hlife))).trans (if_pos ⟨hlife, hphase, hdone⟩))

/-- A child's vote that comes before the package's own waits for it (R236). -/
theorem exec_vote_waits (c : Fin 3) (b : Vote) (s : State) (hlife : s.life = .running ∨ s.life = .held)
    (hchild : ∃ x ∈ voteChildren s, x.1 = c.val) (hown : s.step.ownVote = none) :
    exec (.vote c b) s = .next { s with step := { s.step with childVotes := smPut s.step.childVotes c.val b } } := by
  have hon : s.life ≠ .off := by obtain h | h := hlife <;> rw [h] <;> decide
  have hany : (voteChildren s).any (fun x => x.1 == c.val) = true := by simpa using hchild
  exact congrArg Host.Outcome.next ((powered_on _ s hon).trans ((if_pos ⟨hlife, hany⟩).trans (tryCombine_noOwn _ hown)))

/-- Settles O37: a vote is formed, waits for the children's, and goes on combined; two votes combine field by field. -/
theorem votes : Obligations.Votes := by
  intro s kids own u v w
  refine ⟨fun hlife hphase hdone => ⟨fun hkids => ?waits, fun hkids hsent => ⟨fun p hparent => ?sends, fun hparent => ?decides⟩⟩,
    fun c b => exec_vote_waits c b s, fun a b => ?combines⟩
  case waits => rw [exec_packageVote s hlife hphase hdone, tryCombine_waits (withOwnVote s) hkids]; rfl
  case sends =>
    rw [exec_packageVote s hlife hphase hdone, tryCombine_all (withOwnVote s) own rfl hkids hsent,
      show voteParent (withOwnVote s) = some p from hparent]
    rfl
  case decides =>
    rw [exec_packageVote s hlife hphase hdone, tryCombine_all (withOwnVote s) own rfl hkids hsent,
      show voteParent (withOwnVote s) = none from hparent]
    rfl
  case combines =>
    refine ⟨rfl, rfl, fun i => BitVec.getLsbD_or, combineVotes_abort a b, by simp [combineVotes], fun hfits => ?invalid,
      fun ha => combineVotes_cause a b _ ha (.inl rfl), fun hb => combineVotes_cause a b _ hb (.inr rfl)⟩
    exact Nat.min_eq_left (Nat.le_sub_one_of_lt hfits)

/-! ### Packages that vote -/

/-- The only package of a job, in an attempt that its watchdog has aborted. -/
def attemptAborted : State := { freshRunning with step := { phase := .attempt, causes := [4] } }

/-- The same package with a second one above it in z (R236). -/
def lowerAborted : State := { attemptAborted with desc := some { nz := 2 } }

/-- The second package. -/
def upperAborted : State := setReg 0x102401 1 lowerAborted

/-- The lower package forms its vote, or takes the upper one's, and waits for the other. -/
theorem packageVote_lowerAborted_waits (b : Vote) :
    (∃ t, exec .packageVote lowerAborted = .next t ∧ t.step.phase = .voted ∧ t.step.voteSent = false) ∧
    ∃ t, exec (.vote 0 b) lowerAborted = .next t ∧ smFind t.step.childVotes 0 = some b := by
  obtain ⟨hform, htake, -⟩ := votes lowerAborted
  obtain ⟨hwaits, -⟩ := hform rfl rfl (.inr (by decide))
  exact ⟨⟨_, hwaits (by decide), rfl, rfl⟩, _, htake 0 b (.inl rfl) (by decide) rfl, rfl⟩

/-- The upper package sends its vote to the lower one. -/
theorem packageVote_upperAborted_sends : ∃ t, exec .packageVote upperAborted = .next t ∧ t.step.voteSent = true := by
  obtain ⟨hform, -⟩ := votes upperAborted
  obtain ⟨-, hvoted⟩ := hform rfl rfl (.inr (by decide))
  obtain ⟨hsends, -⟩ := hvoted (by decide) rfl
  exact ⟨_, hsends 0 (by decide), congrArg StepState.voteSent (sendMsg_net _ _ _ _).step⟩

end Sys2Proof.Machine
end

section
/-!
The coordinator's decision from the combined vote (R224, R237, R238, R241, R244), rule by rule.
-/

namespace Sys2Proof.Machine
open Sys2Proof

/-! ### What a decision takes from the vote -/

/-- The fields of a decision that are the vote's own (R238). -/
def CopiesVote (v : Vote) (d : Decision) : Prop :=
  d.step = v.step ∧ d.attempt = v.attempt ∧ d.cause = v.cause ∧ d.suspV = v.suspV ∧ d.suspect = v.suspect ∧ d.susDie = v.susDie

theorem decideCommit_copies (v : Vote) (s : State) : CopiesVote v (decideCommit v s).1 := ⟨rfl, rfl, rfl, rfl, rfl, rfl⟩
theorem decideSkip_copies (v : Vote) (s : State) : CopiesVote v (decideSkip v s).1 := ⟨rfl, rfl, rfl, rfl, rfl, rfl⟩
theorem decideHold_copies (v : Vote) (s : State) : CopiesVote v (decideHold v s).1 := ⟨rfl, rfl, rfl, rfl, rfl, rfl⟩
theorem decideRerun_copies (v : Vote) (wide : Bool) (bits : BitVec 8) (s : State) : CopiesVote v (decideRerun v wide bits s).1 :=
  ⟨rfl, rfl, rfl, rfl, rfl, rfl⟩

theorem CopiesVote.ite {v : Vote} {a b : Decision × State} {p : Prop} [Decidable p] (ha : CopiesVote v a.1) (hb : CopiesVote v b.1) :
    CopiesVote v (if p then a else b).1 := by
  split
  · exact ha
  · exact hb

theorem guard_copies (v : Vote) (t : Nat) (s : State) : CopiesVote v (Machine.guard v t s).1 :=
  .ite (.ite (decideHold_copies v _) (decideRerun_copies v _ _ _))
    (.ite (.ite (decideHold_copies v _) (decideSkip_copies v _)) (decideHold_copies v _))

theorem decideVote_copies (v : Vote) (s : State) : CopiesVote v (decideVote v s).1 :=
  .ite (.ite (decideHold_copies v _) (decideRerun_copies v _ _ _))
    (.ite (.ite (decideHold_copies v _) (decideRerun_copies v _ _ _)) (.ite (decideCommit_copies v _) (guard_copies v _ _)))

/-! ### After an abort, and on a new Encore class -/

/-- The causes after which a step is not run again, and R224's bound on attempts. -/
theorem decideVote_abort (v : Vote) (s : State) (h : v.abort = true) :
    decideVote v s = if v.cause = 6 ∨ v.cause = 9 ∨ v.cause = 10 ∨ 16 ≤ s.step.sinceQuiet then decideHold v s
      else decideRerun v s.step.wide s.step.bits s := by
  unfold decideVote attemptsSpent
  simp only [h, if_true, decide_eq_true_eq]

theorem newClasses_iff (s : State) (v : Vote) : newClasses s v = true ↔
    ∃ i < 8, v.encore.getLsbD i = true ∧ s.step.bits.getLsbD i = false ∧ Config.widerPath s.job.digest i = true := by
  unfold newClasses
  simp only [List.any_eq_true, List.mem_range, Bool.and_eq_true, Bool.not_eq_true', and_assoc]

/-- On a new class the step runs again with its bits added, while R224 allows (R159, R237). -/
theorem decideVote_newClasses (v : Vote) (s : State) (ha : v.abort = false) (hon : s.reg 0x501001 = 1) (hn : newClasses s v = true) :
    decideVote v s = if attemptsSpent s then decideHold v (encoreRecord v 4 0x1008 s)
      else decideRerun v s.step.wide (s.step.bits ||| v.encore) (bumpReg 0x501004 1 (encoreRecord v 1 0x1001 s)) := by
  unfold decideVote
  simp [ha, hon, hn]

theorem encoreRecord_raised (v : Vote) (outcome code : Nat) (s : State) : raised code (encoreRecord v outcome code s) :=
  raised_raiseAt code 0 768 0 0 _

/-! ### Triggers and the step guard -/

theorem triggers_none (s : State) (v : Vote) (hl : v.lossNF = false) (hg : v.gradNF = false) (hr : v.rowNF = false) (hi : v.invalid = 0) :
    triggers s v false = 0 := by
  simp [triggers, hl, hg, hr, hi, boolNat]

/-- A loss that is not finite triggers the guard where bit 0 of the mask allows it (R237). -/
theorem triggers_lossNF (s : State) (v : Vote) (ovf : Bool) (hl : v.lossNF = true) (hm : (s.reg 0x500403).testBit 0 = true) :
    triggers s v ovf ≠ 0 := by
  intro h0
  have hbit : (triggers s v ovf).testBit 0 = true := by
    unfold triggers
    rw [Nat.testBit_and, hm, Bool.and_true, hl, Nat.testBit_zero, decide_eq_true_eq]
    simp only [boolNat, if_true]
    omega
  rw [h0] at hbit
  exact Bool.false_ne_true hbit

/-- Every decision of the guard leaves its record (R241). -/
theorem guard_recorded (v : Vote) (t : Nat) (s : State) : ∃ a, (Machine.guard v t s).2 = guardRecord v t a s := by
  unfold Machine.guard
  dsimp only
  split
  · split
    · exact ⟨3, rfl⟩
    · exact ⟨1, rfl⟩
  · generalize (if s.reg 0x500401 = 0 then s.reg 0x500402 else s.reg 0x500401) = p
    split
    · split
      · exact ⟨4, rfl⟩
      · exact ⟨2, rfl⟩
    · exact ⟨3, rfl⟩

/-- Policy 0, RERUN wide, before the attempt was wide (R241). -/
theorem guard_widens (v : Vote) (t : Nat) (s : State) (hp : s.reg 0x500401 = 0) (hw : s.step.wide = false) :
    Machine.guard v t s = if attemptsSpent s then decideHold v (guardRecord v t 3 s) else decideRerun v true 0xFF (guardRecord v t 1 s) := by
  unfold Machine.guard
  exact if_pos ⟨hp, by rw [hw]; rfl⟩

/-- Policy 1, SKIP, within the limit of skips in succession (R244). -/
theorem guard_skips (v : Vote) (t : Nat) (s : State) (hp : s.reg 0x500401 = 1) :
    Machine.guard v t s = if s.reg 0x500404 < s.reg 0x500408 + 1 then decideHold v (guardRecord v t 4 s) else decideSkip v (guardRecord v t 2 s) := by
  unfold Machine.guard
  simp [hp]

/-- Policy 2, HOLD. -/
theorem guard_holds (v : Vote) (t : Nat) (s : State) (hp : s.reg 0x500401 = 2) : Machine.guard v t s = decideHold v (guardRecord v t 3 s) := by
  unfold Machine.guard
  simp [hp]

/-! ### The modes they name -/

/-- The mode of a HOLD depends on the step engine alone. -/
theorem decideHold_nextmode (v : Vote) (s u : State) (h : u.step = s.step) :
    (decideHold v u).1.nextmode = nextMode s.step.bsel s.step.wide s.step.par s.step.bits := by
  rw [← h]; rfl

theorem decideRerun_nextmode (v : Vote) (wide : Bool) (bits : BitVec 8) (s u : State) (h : u.step = s.step) :
    (decideRerun v wide bits u).1.nextmode = nextMode s.step.bsel wide s.step.par bits := by
  rw [← h]; rfl

/-- A commit changes PAR and ends WIDE (R238). -/
theorem decideCommit_nextmode (v : Vote) (s : State) :
    (decideCommit v s).1.nextmode.getLsbD 8 = (!s.step.par) ∧ (decideCommit v s).1.nextmode.getLsbD 9 = false := by
  rw [← steerStats_step v s]
  exact nextMode_par _ false _ _

theorem attemptsSpent_of_lt (s : State) (h : s.step.sinceQuiet < 16) : attemptsSpent s = false := decide_eq_false (Nat.not_le.mpr h)

theorem attemptsSpent_of_le (s : State) (h : 16 ≤ s.step.sinceQuiet) : attemptsSpent s = true := decide_eq_true h

/-- Settles O38: the rules are taken in the order abort, new Encore class, triggers, commit. -/
theorem decisionRules : Obligations.DecisionRules := by
  intro v s same d t raised
  refine ⟨decideVote_copies v s, fun ha => ?abort, fun ha hon hnew => ?encore, fun ha he hl hg hr hi => ?commit, fun ha he hl hm => ?guard⟩
  case abort =>
    have hd : decideVote v s = _ := decideVote_abort v s ha
    simp only [d, t, hd]
    split
    · exact ⟨rfl, rfl, rfl⟩
    · exact ⟨rfl, rfl, rfl⟩
  case encore =>
    have hd : decideVote v s = _ := decideVote_newClasses v s ha hon ((newClasses_iff s v).mpr hnew)
    refine ⟨fun hq => ?again, fun hq => ?spent⟩
    case again =>
      rw [attemptsSpent_of_lt s hq] at hd
      simp only [d, t, raised, hd]
      exact ⟨rfl, decideRerun_nextmode v _ _ s _ (encoreRecord_step v 1 0x1001 s), encoreRecord_raised v 1 0x1001 s⟩
    case spent =>
      rw [attemptsSpent_of_le s hq] at hd
      simp only [d, t, raised, hd]
      exact ⟨rfl, decideHold_nextmode v s _ (encoreRecord_step v 4 0x1008 s), encoreRecord_raised v 4 0x1008 s⟩
  case commit =>
    have hd : decideVote v s = decideCommit v s := (decideVote_plain v s ha he).trans (if_pos (triggers_none s v hl hg hr hi))
    simp only [d, hd]
    exact ⟨rfl, decideCommit_nextmode v s⟩
  case guard =>
    have hd : decideVote v s = Machine.guard v (triggers s v false) s :=
      (decideVote_plain v s ha he).trans (if_neg (triggers_lossNF s v false hl hm))
    generalize triggers s v false = T at hd
    have hstep := fun a => (guardRecord_facts v T a s).1
    obtain ⟨a, hrec⟩ := guard_recorded v T s
    obtain ⟨_, hraised, hcount⟩ := guardRecord_facts v T a s
    simp only [d, t, raised, hd]
    refine ⟨by rw [hrec]; exact hraised, by rw [hrec]; exact hcount, fun hp hw hq => ?widen, fun hp hw hq => ?spent, fun hp hk => ?skip,
      fun hp hk => ?limit, fun hp => ?hold⟩
    case widen =>
      rw [guard_widens v T s hp hw, attemptsSpent_of_lt s hq]
      exact ⟨rfl, decideRerun_nextmode v true 0xFF s _ (hstep 1)⟩
    case spent =>
      rw [guard_widens v T s hp hw, attemptsSpent_of_le s hq]
      rfl
    case skip =>
      rw [guard_skips v T s hp, if_neg (Nat.not_lt.mpr hk)]
      rfl
    case limit =>
      rw [guard_skips v T s hp, if_pos hk]
      exact ⟨rfl, decideHold_nextmode v s _ (hstep 4)⟩
    case hold =>
      rw [guard_holds v T s hp]
      exact ⟨rfl, decideHold_nextmode v s _ (hstep 3)⟩

/-! ### Votes and states that meet its hypotheses -/

/-- A coordinator with a number of attempts behind it since the last quiescent point. -/
def coordinatorAfter (attempts : Nat) : State := { freshRunning with step := { phase := .voted, sinceQuiet := attempts } }

/-- R224's bound: a step aborted by its watchdog runs again after 15 attempts, and is held after 16. -/
theorem decideVote_abort_bound : (decideVote { abort := true, cause := 4 } (coordinatorAfter 15)).1.action = 2 ∧
    (decideVote { abort := true, cause := 4 } (coordinatorAfter 16)).1.action = 4 := by
  obtain ⟨-, hagain, -⟩ := decisionRules { abort := true, cause := 4 } (coordinatorAfter 15)
  obtain ⟨-, hspent, -⟩ := decisionRules { abort := true, cause := 4 } (coordinatorAfter 16)
  obtain ⟨-, -, haction⟩ := hagain rfl
  obtain ⟨-, -, hhold⟩ := hspent rfl
  exact ⟨haction, hhold⟩

/-- A coordinator of the SKIP policy with a number of skips in succession, of at most 8. -/
def coordinatorSkipping (skips : Nat) : State := setReg 0x500401 1 (setReg 0x500408 skips (coordinatorAfter 1))

/-- R244's limit: the eighth skip in succession is allowed, the ninth is not. -/
theorem decideVote_skip_limit : (decideVote { lossNF := true } (coordinatorSkipping 7)).1.action = 3 ∧
    (decideVote { lossNF := true } (coordinatorSkipping 8)).1.action = 4 := by
  obtain ⟨-, -, -, -, hwithin⟩ := decisionRules { lossNF := true } (coordinatorSkipping 7)
  obtain ⟨-, -, -, -, hbeyond⟩ := decisionRules { lossNF := true } (coordinatorSkipping 8)
  obtain ⟨-, -, -, -, hskip, -⟩ := hwithin rfl rfl rfl (by decide)
  obtain ⟨-, -, -, -, -, hhold, -⟩ := hbeyond rfl rfl rfl (by decide)
  exact ⟨hskip (by decide) (by decide), (hhold (by decide) (by decide)).1⟩

/-- A vote with nothing to say is a commit, and the first loss that is not finite a RERUN with WIDE. -/
theorem decideVote_plain_actions : (decideVote {} (coordinatorAfter 1)).1.action = 1 ∧
    (decideVote { lossNF := true } (coordinatorAfter 1)).1.action = 2 := by
  obtain ⟨-, -, -, hcommit, -⟩ := decisionRules {} (coordinatorAfter 1)
  obtain ⟨-, -, -, -, hguard⟩ := decisionRules { lossNF := true } (coordinatorAfter 1)
  obtain ⟨haction, -⟩ := hcommit rfl rfl rfl rfl rfl rfl
  obtain ⟨-, -, hwiden, -⟩ := hguard rfl rfl rfl (by decide)
  exact ⟨haction, (hwiden (by decide) rfl (by decide)).1⟩

/-- The only package of a job, its attempt aborted, forms its vote, and as the coordinator decides that the step runs again (O37, O38). -/
theorem packageVote_attemptAborted : ∃ t d, exec .packageVote attemptAborted = .next t ∧ t.step.decision = some d ∧ d.action = 2 := by
  obtain ⟨hform, -⟩ := votes attemptAborted
  obtain ⟨-, hvoted⟩ := hform rfl rfl (.inr (by decide))
  obtain ⟨-, hdecide⟩ := hvoted (by decide) rfl
  obtain ⟨-, habort, -⟩ := decisionRules (formVote attemptAborted) (withCombined (formVote attemptAborted) (withOwnVote attemptAborted))
  obtain ⟨-, -, haction⟩ := habort rfl
  exact ⟨_, _, hdecide (by decide), congrArg StepState.decision (sendDecision_net _ _).step, haction⟩

end Sys2Proof.Machine
end

section
/-!
COMMIT, RERUN, SKIP and HOLD on a package that acts on the decision (R223-R225, R238, R240, R243-R245).
-/

namespace Sys2Proof.Machine
open Sys2Proof

/-- What COMMIT and SKIP share (R223, R225, R238): the next step begins afresh, in the mode the decision names. -/
theorem endStep_ended (n : Nat) (d : Decision) (ran : List Nat) (s : State) :
    let t := endStep n d ran s
    t.stepNo = n ∧ t.step.phase = .decided ∧ t.step.attempt = 0 ∧ t.step.bits = BitVec.ofNat 8 d.nextmode.toNat ∧
      t.step.par = d.nextmode.getLsbD 8 ∧ t.step.wide = false ∧ t.step.childVotes = [] ∧ t.step.ownVote = none ∧ t.tables.looks = [] ∧
      t.reduce = { held := t.reduce.held } := by
  obtain ⟨hno, hphase, hattempt, hbits, hpar, hwide, hchildren, hown, hlooks, hreduce, _⟩ := endStep_result n d ran s
  exact ⟨hno, hphase, hattempt, hbits, hpar, hwide, hchildren, hown, hlooks, by rw [hreduce]⟩

/-- COMMIT and SKIP end in `endStep`, a commit with the count of skips in succession at 0 (R240, R243, R244). -/
theorem commitStep_endStep (d : Decision) (s : State) :
    ∃ ran u, commitStep d s = endStep ((s.stepNo + 1) % 2 ^ 48) d ran u ∧ u.reg 0x500408 = 0 :=
  ⟨_, _, rfl, setReg_reg_self _ _ _⟩

theorem skipStep_endStep (d : Decision) (s : State) : ∃ ran u, skipStep d s = endStep ((s.stepNo + 1) % 2 ^ 48) d ran u := ⟨_, _, rfl⟩

/-- The command of each decision, carried out by a package that acts on it. -/
theorem execDecision_obeys (k : Nat) (d : Decision) (s : State) (h : obeys k d s) :
    ∃ u, NetOnly s u ∧ (Host.Outcome.next (powered (opDecision k d) s) : Host.Outcome State Fault Refusal) =
      .next (if k = 1 then commitStep d u else if k = 2 then rerunStep d u else if k = 3 then skipStep d u else if k = 4 then holdStep d u
        else u) := by
  obtain ⟨u, hnet, hon, hgo⟩ := opDecision_obeys k d s h
  exact ⟨u, hnet, congrArg Host.Outcome.next ((powered_on _ s hon).trans hgo)⟩

/-- WIDE and PAR of NEXTMODE (R225). -/
theorem bitAt_toNat {w : Nat} (x : BitVec w) (i : Nat) : bitAt x.toNat i = x.getLsbD i := by
  rw [bitAt, BitVec.getLsbD, Nat.testBit_eq_decide_div_mod_eq, Nat.shiftRight_eq_div_pow]
  rfl

/-- RERUN without suspects (R238): the next attempt, with the decision's bits. -/
theorem rerunStep_result (d : Decision) (s : State) (h1 : s.step.suspects = []) (h2 : s.step.mismatches = []) (h3 : d.suspV = false) :
    let t := rerunStep d s
    RunsAgain s t ∧ t.life = s.life ∧ t.step.bits = BitVec.ofNat 8 d.nextmode.toNat ∧ t.step.par = d.nextmode.getLsbD 8 ∧
      t.step.wide = d.nextmode.getLsbD 9 := by
  have hgo : rerunStep d s = dropAttempt (takeMode d s) := by rw [rerunStep, judgeStep_quiet d.cause d s h1 h2 h3]
  dsimp only
  rw [hgo]
  exact ⟨dropAttempt_runsAgain (takeMode d s), rfl, rfl, bitAt_toNat d.nextmode 8, bitAt_toNat d.nextmode 9⟩

/-- What a HOLD decision notes of its cause for the resumption (R245, R315). -/
def noteHold (cause : Nat) (s : State) : State :=
  { s with step := { s.step with heldGuard := cause == 0, heldCause := cause }, gal := { s.gal with unresolved := false } }

/-- HOLD without suspects (R241, R245): the attempt is dropped, and a package in RUNNING enters HELD. -/
theorem holdStep_result (d : Decision) (s : State) (h1 : s.step.suspects = []) (h2 : s.step.mismatches = []) (h3 : d.suspV = false)
    (hlife : s.life = .running) :
    let t := holdStep d s
    RunsAgain s t ∧ t.life = .held ∧ t.reg 0x100009 = holdCause d.cause ∧ t.step.bits = s.step.bits ∧ t.step.sinceQuiet = 0 := by
  have hgo : holdStep d s = enterHeld (holdCause d.cause) (noteHold d.cause (dropAttempt s)) := by
    rw [holdStep, judgeStep_quiet d.cause d s h1 h2 h3]
    exact if_pos hlife
  have hagain : RunsAgain s (noteHold d.cause (dropAttempt s)) := dropAttempt_runsAgain s
  obtain ⟨hheld, hcause, _, _, hquiet, hstep, _⟩ := enterHeld_result (holdCause d.cause) (noteHold d.cause (dropAttempt s))
  dsimp only
  rw [hgo]
  exact ⟨hagain.enterHeld _, hheld, hcause, by rw [hstep]; rfl, hquiet⟩

/-- Settles O39: COMMIT and SKIP end the step, RERUN and HOLD drop the attempt. -/
theorem decisions : Obligations.Decisions := by
  intro d s bitsOf ended quiet again
  have hended (ran : List Nat) {u w : State} (hnet : NetOnly s u) : ended (endStep ((u.stepNo + 1) % 2 ^ 48) d ran w) := by
    rw [show u.stepNo = s.stepNo from hnet.low 0x500001 (by decide)]
    exact endStep_ended _ d ran w
  refine ⟨fun h => ?commit, fun h => ?skip, fun h ⟨h1, h2, h3⟩ => ?rerun, fun h ⟨h1, h2, h3⟩ hlife => ?hold⟩
  case commit =>
    obtain ⟨u, hnet, hgo⟩ := execDecision_obeys 1 d s h
    obtain ⟨ran, w, hend, hskips⟩ := commitStep_endStep d u
    have hreg : (endStep ((u.stepNo + 1) % 2 ^ 48) d ran w).reg 0x500408 = w.reg 0x500408 := by
      obtain ⟨_, _, _, _, _, _, _, _, _, _, hr⟩ := endStep_result ((u.stepNo + 1) % 2 ^ 48) d ran w
      exact hr
    exact ⟨_, hgo, by rw [if_pos rfl, hend]; exact ⟨hended ran hnet, hreg.trans hskips⟩⟩
  case skip =>
    obtain ⟨u, hnet, hgo⟩ := execDecision_obeys 3 d s h
    obtain ⟨ran, w, hend⟩ := skipStep_endStep d u
    exact ⟨_, hgo.trans (congrArg Host.Outcome.next hend), hended ran hnet⟩
  case rerun =>
    obtain ⟨u, hnet, hgo⟩ := execDecision_obeys 2 d s h
    obtain ⟨hruns, hlife, hmode⟩ := rerunStep_result d u (by rw [hnet.step]; exact h1) (by rw [hnet.step]; exact h2) h3
    exact ⟨_, hgo, hruns.of_net hnet, hlife.trans hnet.life, hmode⟩
  case hold =>
    obtain ⟨u, hnet, hgo⟩ := execDecision_obeys 4 d s h
    obtain ⟨hruns, hheld, hcause, hbits, hq⟩ := holdStep_result d u (by rw [hnet.step]; exact h1) (by rw [hnet.step]; exact h2) h3
      (hnet.life.trans hlife)
    exact ⟨_, hgo, hruns.of_net hnet, hheld, hcause, hbits.trans (by rw [hnet.step]), hq⟩

/-! ### Packages that act on a decision -/

/-- The only package of a job, which has decided. -/
def coordinatorDecided (d : Decision) : State := { freshRunning with step := { phase := .voted, decision := some d } }

theorem coordinatorDecided_obeys (d : Decision) : obeys d.action d (coordinatorDecided d) :=
  have hcoordinator : voteParent freshRunning = none := by decide
  ⟨rfl, .inl ⟨rfl, rfl, hcoordinator, rfl⟩⟩

/-- A commit that changes PAR makes step 1 current. -/
theorem commit_coordinatorDecided :
    ∃ t, exec (.commit { action := 1, nextmode := 0x100 }) (coordinatorDecided { action := 1, nextmode := 0x100 }) = .next t ∧
      t.stepNo = 1 ∧ t.step.par = true := by
  obtain ⟨hcommit, -⟩ := decisions { action := 1, nextmode := 0x100 } (coordinatorDecided { action := 1, nextmode := 0x100 })
  obtain ⟨t, hexec, ⟨hno, -, -, -, hpar, -⟩, -⟩ := hcommit (coordinatorDecided_obeys _)
  exact ⟨t, hexec, hno, hpar⟩

/-- A SKIP goes on to step 1, a RERUN to attempt 1 of step 0, and a HOLD of the guard to HELD with cause 0x9003. -/
theorem otherDecisions_coordinatorDecided :
    (∃ t, exec (.skip { action := 3 }) (coordinatorDecided { action := 3 }) = .next t ∧ t.stepNo = 1) ∧
    (∃ t, exec (.rerun { action := 2, nextmode := 0x2FF }) (coordinatorDecided { action := 2, nextmode := 0x2FF }) = .next t ∧
      t.step.attempt = 1 ∧ t.step.wide = true ∧ t.step.bits = 0xFF) ∧
    (∃ t, exec (.holdDecision { action := 4 }) (coordinatorDecided { action := 4 }) = .next t ∧ t.life = .held ∧ t.reg 0x100009 = 0x9003) := by
  obtain ⟨-, hskip, -⟩ := decisions { action := 3 } (coordinatorDecided { action := 3 })
  obtain ⟨-, -, hrerun, -⟩ := decisions { action := 2, nextmode := 0x2FF } (coordinatorDecided { action := 2, nextmode := 0x2FF })
  obtain ⟨-, -, -, hhold⟩ := decisions { action := 4 } (coordinatorDecided { action := 4 })
  obtain ⟨t, hskipped, hno, -⟩ := hskip (coordinatorDecided_obeys _)
  obtain ⟨u, hrerunned, ⟨-, -, hattempt, -⟩, -, hbits, -, hwide⟩ := hrerun (coordinatorDecided_obeys _) ⟨rfl, rfl, rfl⟩
  obtain ⟨w, hheld, -, hlife, hcause, -⟩ := hhold (coordinatorDecided_obeys _) ⟨rfl, rfl, rfl⟩ rfl
  exact ⟨⟨t, hskipped, hno⟩, ⟨u, hrerunned, hattempt, hwide, hbits⟩, w, hheld, hlife, hcause⟩

end Sys2Proof.Machine
end

section
/-!
The memory system: the pager's page-ins and the reads of a confirmed stream (R255, R261 to R267), and the canonical form right
after reset (R252).
-/

namespace Sys2Proof.Machine
open Sys2Proof

/-- Settles O24: it is the base of the induction over runs. -/
theorem resetCanonical : Obligations.ResetCanonical := reset_canon

/-! ### Page-in -/

@[simp] theorem setPager_pager_self (k : Nat) (p : Pager) (s : State) : (setPager k p s).pager k = p :=
  smGetD_smPut_self s.pagers k p {}

@[simp] theorem putMem_pager (k a : Nat) (bs : List Byte) (s : State) : (putMem a bs s).pager k = s.pager k := rfl

/-- A readable page of this package's stacks comes into its frame (R262); the pager then goes on with its accesses. -/
theorem opPageIn_readable (k page frame : Nat) (s : State) (hin : (s.pager k).inflight = some (page, frame, 0))
    (hlocal : isRemote page = false) (hgood : badStack s (wordAddr page) 0x1_0000 = false) :
    let p := { putFrame (s.pager k) { frame := frame, page := some page, dirty := false, lastUse := (s.pager k).clock } with
      inflight := none, clock := (s.pager k).clock + 1 }
    opPageIn k s = servePager k (pagerFuel p)
      (setPager k p (putMem (tileBase k + 0x1_0000 * frame) (readBytes s.mem (wordAddr page) 0x1_0000) s)) := by
  unfold opPageIn
  simp only [hin, hlocal, hgood, Bool.not_false, Bool.and_false, Bool.or_false, Bool.false_eq_true, if_false]
  rw [putMem_pager, frameBase, Nat.mul_comm frame]
  rfl

/-! ### Stream prefetch -/

/-- A read of a confirmed stream that R265 to R267 let through enters the tile's buffer. -/
theorem opPrefetchRead_wanted (k : Nat) (x : Fin 8) (line : Nat) (s : State) (hrun : runsTiles s = true) :
    let t := s.tile k
    let e := t.streams[x]
    let a := 64 * line
    e.1 = 2 → s.reg 0x300002 = 1 → e.2.1 ≤ a → a < e.2.1 + 64 * s.reg 0x300003 → e.2.1 % 64 = 0 → a ∉ t.prefetch →
    t.prefetch.length < 512 → streamBlock s (e.2.1 - 64) a = 0 → badStack s a 64 = false →
    opPrefetchRead k x line s = bumpReg (dieKey (keyDie k) 0x814005) 1
      (setTile k { t with prefetch := t.prefetch ++ [a], pfRead := t.pfRead + 1 } s) := by
  intro t e a hconf hon hlow hhigh halign hnew hroom hblock hgood
  have hline : (a - e.2.1) % 64 = 0 := by omega
  have hwanted : (!t.prefetch.contains a) = true := by simpa using hnew
  rw [opPrefetchRead, Nat.mul_comm line 64]
  exact if_pos ⟨hrun, hconf, hon, hlow, hhigh, hline, hwanted, hroom, hblock, by rw [hgood]; rfl⟩

/-- Settles O16: the page is in its frame and no access waits; the line is wanted and enters the buffer. -/
theorem pagesAndStreams : Obligations.PagesAndStreams := by
  intro r s k
  refine ⟨fun page frame hlife hin hqueue hlocal hgood => ?pageIn, fun x line hlife => ?prefetch⟩
  case pageIn =>
    refine congrArg Host.Outcome.next ((powered_on _ s hlife).trans ((opPageIn_readable k page frame s hin hlocal hgood).trans ?_))
    refine servePager_idle k _ _ ?_
    rw [setPager_pager_self]
    exact hqueue
  case prefetch =>
    intro e a hconf hon hlow hhigh halign hnew hroom hblock hgood
    have hrun : runsTiles s = true := by simpa [runsTiles] using hlife
    have hpower : s.life ≠ .off := by rcases hlife with h | h <;> simp [h]
    refine congrArg Host.Outcome.next ((powered_on _ s hpower).trans ?_)
    refine (opPrefetchRead_wanted k x line.val s hrun hconf hon hlow hhigh halign hnew hroom hblock hgood).trans ?_
    rw [keyDie_tileKey]

/-! ### A page-in and a prefetch read -/

/-- A byte of a copy is the byte copied. -/
theorem readByte_copied (m : Memory) (dst src n i : Nat) (h : i < n) :
    readByte (writeBytes m dst (readBytes m src n)) (dst + i) = readByte m (src + i) := by
  have hin : dst ≤ dst + i ∧ dst + i < dst + n := by omega
  rw [readByte_writeBytes, length_readBytes, if_pos hin, Nat.add_sub_cancel_left, List.getD_eq_getElem?_getD,
    getElem?_readBytes m src n i h]
  rfl

/-- A running package whose first tile waits for the page at 0x30000, the last byte of which is 7, to come into frame 1. -/
def awaitsPage : State :=
  { freshRunning with
    mem := writeByte [] 0x3FFFF 7
    pagers := [(0, { frames := [{ frame := 0 }, { frame := 1 }], inflight := some (0x30000, 1, 0), clock := 5 })] }

/-- O16's hypotheses on a page-in are met: the page's last byte becomes the last of the frame, and the page the one used last. -/
theorem pageInComplete_awaitsPage : ∃ t, exec (.pageInComplete ⟨0, 0⟩) awaitsPage = .next t ∧
    readByte t.mem (tileBase 0 + 0x1_0000 * 1 + 0xFFFF) = 7 ∧
    t.pager 0 = { frames := [{ frame := 0 }, { frame := 1, page := some 0x30000, lastUse := 5 }], clock := 6 } := by
  obtain ⟨hpageIn, -⟩ := pagesAndStreams ⟨0, 0⟩ awaitsPage
  refine ⟨_, hpageIn 0x30000 1 (by decide) rfl rfl rfl rfl, ?_, setPager_pager_self ..⟩
  rw [setPager_mem, putMem_mem, show tileKey ⟨0, 0⟩ = 0 from rfl, readByte_copied _ _ _ _ _ (by decide)]
  decide

/-- The addresses of `n` lines that another stream has read ahead. -/
@[irreducible] def otherLines (n : Nat) : List Nat := (List.range n).map (fun i => 0x1_0000 + 64 * i)

theorem otherLines_length (n : Nat) : (otherLines n).length = n := by rw [otherLines, List.length_map, List.length_range]

theorem le_of_mem_otherLines (n a : Nat) (h : a ∈ otherLines n) : 0x1_0000 ≤ a := by
  rw [otherLines] at h
  obtain ⟨i, -, rfl⟩ := List.mem_map.mp h
  exact Nat.le_add_right ..

/-- A running package whose first tile has a confirmed stream that goes on at 4096, and room for one line in its buffer. -/
def streamsAlong : State :=
  setTile 0 { freshRunning.tile 0 with streams := (Vector.replicate 8 (0, 0, 0)).set 1 (2, 4096, 4), prefetch := otherLines 511 } freshRunning

/-- O16's hypotheses on a prefetch read are met at the bounds: the last line of the default depth of 128 takes the room that is
left in the buffer, and is counted. -/
theorem prefetchReadComplete_streamsAlong : ∃ t, exec (.prefetchReadComplete ⟨0, 0⟩ 1 191) streamsAlong = .next t ∧
    (t.tile 0).prefetch = otherLines 511 ++ [64 * 191] ∧ (t.tile 0).prefetch.length = 512 ∧ t.reg 0x814005 = 1 := by
  obtain ⟨-, hprefetch⟩ := pagesAndStreams ⟨0, 0⟩ streamsAlong
  have hdepth : streamsAlong.reg 0x300003 = 128 := rfl
  have hnew : 64 * (191 : Fin (2 ^ 38)).val ∉ otherLines 511 := fun h => absurd (le_of_mem_otherLines _ _ h) (by decide)
  have hroom : (otherLines 511).length < 512 := (otherLines_length 511).trans_lt (by decide)
  refine ⟨_, hprefetch 1 191 (.inl rfl) rfl rfl (by decide) (by rw [hdepth]; decide) rfl hnew hroom rfl rfl, rfl, ?full, rfl⟩
  case full => exact List.length_append.trans (congrArg (· + 1) (otherLines_length 511))

end Sys2Proof.Machine
end

section
/-!
Flits on a trained Tightrope edge (R280-R283): accepted in SEQ order, discarded, refused with a NAK, or refused for the eighth time.
-/

namespace Sys2Proof.Machine
open Sys2Proof

/-! ### What a link end makes of a flit (R281, R282) -/

/-- R281: the flit that is next in SEQ order and intact is accepted. -/
theorem receiveFlit_next (f : Flit) (l : LinkEnd) (h : f.seq = l.accepted + 1) :
    receiveFlit f true l = (.accepted, { takeReturns f l with accepted := f.seq, accV := true, refusing := false, refusals := 0, rx := l.rx ++ liveSlots f }) := by
  obtain ⟨hacc, -, -, hrx⟩ := takeReturns_keeps f l
  rw [receiveFlit, if_pos rfl]
  dsimp only
  rw [hacc, hrx, if_pos h]

/-- R281: an intact flit out of SEQ order is discarded; its acknowledgement and credits count. -/
theorem receiveFlit_outOfOrder (f : Flit) (l : LinkEnd) (h : f.seq ≠ l.accepted + 1) : receiveFlit f true l = (.discarded false, takeReturns f l) := by
  obtain ⟨hacc, -⟩ := takeReturns_keeps f l
  rw [receiveFlit, if_pos rfl]
  dsimp only
  rw [hacc, if_neg h]

/-- R281: a flit that fails its check is refused, below the limit of R282. -/
theorem receiveFlit_refused (f : Flit) (l : LinkEnd) (h : l.refusals < 7) :
    receiveFlit f false l = (.discarded true, { l with refusing := true, refusals := l.refusals + 1 }) := by
  rw [receiveFlit, if_neg Bool.false_ne_true, if_neg (by omega)]

/-- R282: the eighth refusal in succession. -/
theorem receiveFlit_limit (f : Flit) (l : LinkEnd) (h : 7 ≤ l.refusals) :
    receiveFlit f false l = (.replayLimit, { l with refusing := true, refusals := 0 }) := by
  rw [receiveFlit, if_neg Bool.false_ne_true, if_pos (by omega)]

/-! ### What an edge does with it -/

/-- Between two states only the edges and what has left the package differ. -/
def EdgesOnly (s t : State) : Prop := t = { s with edges := t.edges, out := t.out }

theorem EdgesOnly.trans {s t u : State} (h : EdgesOnly s t) (g : EdgesOnly t u) : EdgesOnly s u := by
  unfold EdgesOnly at h g ⊢
  rw [h] at g
  exact g

/-- What an operation of a package in power does under the two guards that R13 gives it. -/
theorem powered_powered_on (f : State → State) (s : State) (h : s.life ≠ .off) : powered (powered f) s = f s := by
  rw [powered_on _ s h, powered_on f s h]

/-- What an end does once it has taken a flit: it frees its FIFO, answers, or makes a link reset (R281-R283). -/
def edgeAnswers (e : Nat) (high : Bool) (f : Flit) (s : State) : Received → State
  | .accepted => pumpEnd e high (decide (liveSlots f ≠ [])) (freeFifo e high s)
  | .discarded bad => pumpEnd e high true (if bad then countEnd e high 1 1 s else s)
  | .replayLimit => edgeReset e high (raiseEdge 0x3006 e high (countEnd e high 1 1 s))

/-- A flit that is not a test flit, at an end of a trained edge: the end takes it as R281 says, and answers it. -/
theorem exec_tightropeFlit_trained {s : State} (h : EdgeShape s) (e : Fin 4) (high : Bool) (f : Flit) (hon : s.life ≠ .off) (hf : f.test = false)
    (ht : edgeTrained (s.edge e) = true) (r : Received) (l : LinkEnd) (hr : receiveFlit f (tropeIntact f) (edgeEnd (s.edge e) high) = (r, l)) :
    ∃ v, exec (.tightropeFlit e high f) s = .next (edgeAnswers e high f v r) ∧ EdgeShape v ∧ edgeEnd (v.edge e) high = l ∧
      (v.edge e).st = (s.edge e).st ∧ (v.edge e).attempt = (s.edge e).attempt ∧ EdgesOnly s v := by
  refine ⟨_, congrArg Host.Outcome.next ((powered_powered_on _ s hon).trans ?_),
    takeFlit_state h e e.isLt high l (if tropeIntact f then replayAfter f l else [])⟩
  rw [if_neg (by rw [hf]; exact Bool.false_ne_true), if_pos ht]
  dsimp only
  rw [hr]
  rfl

/-- Counting leaves the ends of an edge. -/
theorem countEnd_result {s : State} (h : EdgeShape s) (e : Fin 4) (high b : Bool) (i n : Nat) :
    let t := countEnd e high i n s
    EdgeShape t ∧ edgeEnd (t.edge e) b = edgeEnd (s.edge e) b ∧ (t.edge e).st = (s.edge e).st ∧ (t.edge e).attempt = (s.edge e).attempt ∧ EdgesOnly s t := by
  obtain ⟨c, hc⟩ := countEnd_edge h e e.isLt high i n
  intro t
  have hedge : t.edge e = { s.edge e with counters := c } := hc
  exact ⟨h.countEnd .., by rw [hedge]; rfl, by rw [hedge], by rw [hedge], rfl⟩

/-- R281, R283: after an accepted flit the FIFO is free, and the end has sent what it could. -/
theorem edgeAnswers_accepted {s : State} (h : EdgeShape s) (e : Fin 4) (high : Bool) (f : Flit) :
    let t := edgeAnswers e high f s .accepted
    let l := edgeEnd (s.edge e) high
    let m := edgeEnd (t.edge e) high
    m.accepted = l.accepted ∧ m.accV = l.accV ∧ m.refusing = l.refusing ∧ m.refusals = l.refusals ∧ m.rx = [] ∧ EdgesOnly s t := by
  obtain ⟨facc, faccV, frefusing, frefusals, frx, -⟩ := freeFifo_end h e e.isLt high
  have hw : EdgeShape (freeFifo e high s) := h.modEnd e high _
  obtain ⟨pframe, -, -, pacc, paccV, prefusing, prefusals, prx, -⟩ := pumpEnd_result hw e e.isLt high (decide (liveSlots f ≠ []))
  have hfree : EdgesOnly s (freeFifo e high s) := rfl
  exact ⟨pacc.trans facc, paccV.trans faccV, prefusing.trans frefusing, prefusals.trans frefusals, prx.trans frx, hfree.trans pframe⟩

/-- R281: a discarded flit is answered, with NAK while the end refuses, where the replay buffer has room (R282). -/
theorem edgeAnswers_discarded {s : State} (h : EdgeShape s) (e : Fin 4) (high : Bool) (f : Flit) (bad : Bool) :
    let t := edgeAnswers e high f s (.discarded bad)
    let l := edgeEnd (s.edge e) high
    let m := edgeEnd (t.edge e) high
    m.accepted = l.accepted ∧ m.refusing = l.refusing ∧ m.refusals = l.refusals ∧ m.rx = l.rx ∧ EdgesOnly s t ∧
      (edgeTrained (s.edge e) = true → l.replay.length < 64 → ∃ g, .trope e high g ∈ t.out ∧ g.nak = l.refusing ∧ g.ack = l.accepted) := by
  obtain ⟨w, hw⟩ : ∃ w, w = if bad then countEnd e high 1 1 s else s := ⟨_, rfl⟩
  have hcount : EdgeShape w ∧ edgeEnd (w.edge e) high = edgeEnd (s.edge e) high ∧ (w.edge e).st = (s.edge e).st ∧ (w.edge e).attempt = (s.edge e).attempt ∧
      EdgesOnly s w := by
    rw [hw]
    split
    · exact countEnd_result h e high high 1 1
    · exact ⟨h, rfl, rfl, rfl, rfl⟩
  obtain ⟨hshape, hend, hst, -, honly⟩ := hcount
  obtain ⟨pframe, -, -, pacc, -, prefusing, prefusals, prx, pnak⟩ := pumpEnd_result hshape e e.isLt high true
  have ht : edgeAnswers e high f s (.discarded bad) = pumpEnd e high true w := by rw [hw]; rfl
  have htrained : edgeTrained (w.edge e) = edgeTrained (s.edge e) := by rw [edgeTrained, hst]; rfl
  rw [htrained, hend, Fin.ofNat_val_eq_self] at pnak
  dsimp only
  rw [ht, ← hend]
  exact ⟨pacc, prefusing, prefusals, prx, honly.trans pframe, fun hh => hend ▸ pnak hh rfl⟩

/-- R282: the eighth refusal makes a link reset, which keeps replay buffer, sequence numbers and credits (R278). -/
theorem edgeAnswers_replayLimit {s : State} (h : EdgeShape s) (e : Fin 4) (high : Bool) (f : Flit) (hst : (s.edge e).st ≠ .down)
    (hatt : (s.edge e).attempt = false) :
    let t := edgeAnswers e high f s .replayLimit
    (t.edge e).st = .training ∧ edgeEnd (t.edge e) high = { edgeEnd (s.edge e) high with refusing := false, refusals := 0 } ∧
      raised 0x3006 t ∧ raised 0x3007 t := by
  obtain ⟨cshape, cend, cst, catt, -⟩ := countEnd_result h e high high 1 1
  obtain ⟨v, hv⟩ : ∃ v, v = raiseEdge 0x3006 e high (countEnd e high 1 1 s) := ⟨_, rfl⟩
  have hedges : v.edges = (countEnd e high 1 1 s).edges := by rw [hv]; exact (raiseAt_frame ..).1
  have hraised : raised 0x3006 v := by rw [hv]; exact raised_raiseAt ..
  have hedge := edge_of_edges hedges e
  rw [← hedge] at cend cst catt
  obtain ⟨rst, -, rraised, rkeep, -, -, rend, -⟩ := edgeReset_result (cshape.of_edges hedges) e e.isLt high (by rw [cst]; exact hst) (catt.trans hatt)
  rw [hv] at rst rraised rkeep rend hraised
  exact ⟨rst, by rw [← cend, hv]; exact rend, rkeep _ hraised, rraised⟩

theorem edgeTrained_up {x : Edge} (h : edgeTrained x = true) : x.st ≠ .down := by
  intro hd
  rw [edgeTrained, hd] at h
  exact absurd h (by decide)

/-- Settles O40: by the four things a link end can make of a flit. -/
theorem edgeFlits : Obligations.EdgeFlits := by
  intro e high f s hcanon hon hf htrained l
  have hexec := exec_tightropeFlit_trained (.of_canonical hcanon) e high f hon hf htrained
  by_cases hok : tropeIntact f = true
  case pos =>
    rw [hok] at hexec ⊢
    by_cases hseq : f.seq = l.accepted + 1
    case pos =>
      obtain ⟨v, hgo, hshape, hend, -, -, honly⟩ := hexec _ _ (receiveFlit_next f l hseq)
      obtain ⟨hacc, haccV, hrefusing, hrefusals, hrx, hanswer⟩ := edgeAnswers_accepted hshape e high f
      rw [hend] at hacc haccV hrefusing hrefusals
      exact ⟨_, hgo, fun _ _ => ⟨hacc, haccV, hrefusing, hrefusals, hrx, honly.trans hanswer⟩, fun _ hne => absurd hseq hne, nofun, nofun⟩
    case neg =>
      obtain ⟨v, hgo, hshape, hend, -, -, honly⟩ := hexec _ _ (receiveFlit_outOfOrder f l hseq)
      obtain ⟨hacc, hrefusing, -, hrx, hanswer, -⟩ := edgeAnswers_discarded hshape e high f false
      obtain ⟨kacc, krefusing, -, krx⟩ := takeReturns_keeps f l
      rw [hend] at hacc hrefusing hrx
      exact ⟨_, hgo, fun _ h => absurd h hseq, fun _ _ => ⟨hacc.trans kacc, hrefusing.trans krefusing, hrx.trans krx, honly.trans hanswer⟩, nofun, nofun⟩
  case neg =>
    rw [Bool.not_eq_true] at hok
    rw [hok] at hexec ⊢
    by_cases hlimit : l.refusals < 7
    case pos =>
      obtain ⟨v, hgo, hshape, hend, hst, -, honly⟩ := hexec _ _ (receiveFlit_refused f l hlimit)
      obtain ⟨hacc, hrefusing, hrefusals, -, hanswer, hnak⟩ := edgeAnswers_discarded hshape e high f true
      have hv : edgeTrained (v.edge e) = true := by rw [edgeTrained, hst]; exact htrained
      rw [hend] at hacc hrefusing hrefusals hnak
      exact ⟨_, hgo, nofun, nofun, fun _ _ => ⟨hacc, hrefusing, hrefusals, hnak hv, honly.trans hanswer⟩, fun _ h => absurd hlimit (by omega)⟩
    case neg =>
      obtain ⟨v, hgo, hshape, hend, hst, hatt, -⟩ := hexec _ _ (receiveFlit_limit f l (by omega))
      refine ⟨_, hgo, nofun, nofun, fun _ h => absurd h hlimit, fun _ _ hs => ?_⟩
      obtain ⟨ht, hreset, hreplay, hlink⟩ := edgeAnswers_replayLimit hshape e high f (by rw [hst]; exact edgeTrained_up htrained) (hatt.trans hs)
      rw [hend] at hreset
      exact ⟨ht, by rw [hreset], by rw [hreset], by rw [hreset], by rw [hreset], by rw [hreset], hreplay, hlink⟩

/-! ### Flits at an edge -/

/-- A package in READY whose edges are trained at full width, with a number of refusals in succession behind the lower end of T0. -/
def edgesTrained (refusals : Nat) : State :=
  let fresh : LinkEnd := { credits := [240, 240], owed := [0, 0] }
  let full : Edge := { st := .full }
  { State.reset with life := .ready, edges := [{ full with ends := [{ fresh with refusals := refusals }, fresh] }, full, full, full] }

theorem edgesTrained_canonical (n : Nat) : Canonical (edgesTrained n) := by
  obtain ⟨hmem, hmram, hregs, htiles, -⟩ := resetCanonical
  exact ⟨hmem, hmram, hregs, htiles, rfl⟩

/-- A flit with a reserved KIND, which fails its check (R281). -/
def reservedKind : Flit := { slots := [{ kind := 3 }] }

theorem tropeIntact_reservedKind : tropeIntact reservedKind = false := Bool.and_false _

/-- The bound of R282: after six refusals a seventh is answered by a NAK of the last SEQ accepted, after seven the eighth makes the
edge train. -/
theorem tightropeFlit_refusal_bound :
    (∃ t, exec (.tightropeFlit 0 false reservedKind) (edgesTrained 6) = .next t ∧ (edgeEnd (t.edge 0) false).refusals = 7 ∧
      ∃ g, .trope 0 false g ∈ t.out ∧ g.nak = true ∧ g.ack = 0xFFF) ∧
    (∃ t, exec (.tightropeFlit 0 false reservedKind) (edgesTrained 7) = .next t ∧ (t.edge 0).st = .training) := by
  obtain ⟨t, hseventh, -, -, hrefused, -⟩ := edgeFlits 0 false reservedKind (edgesTrained 6) (edgesTrained_canonical 6) nofun rfl rfl
  obtain ⟨u, heighth, -, -, -, hlimit⟩ := edgeFlits 0 false reservedKind (edgesTrained 7) (edgesTrained_canonical 7) nofun rfl rfl
  obtain ⟨-, -, hcount, hnak, -⟩ := hrefused tropeIntact_reservedKind (by decide)
  obtain ⟨htraining, -⟩ := hlimit tropeIntact_reservedKind (by decide) rfl
  exact ⟨⟨t, hseventh, hcount, hnak (by decide)⟩, u, heighth, htraining⟩

/-- The CRC takes its own field as zero (R280). -/
theorem tropeCrc_crc (f : Flit) (c : BitVec 32) : tropeCrc { f with crc := c } = tropeCrc f := rfl

/-- A flit without messages under a CRC of its own (R280). -/
def emptyFlit (seq : BitVec 12) : Flit :=
  let f : Flit := { seq := seq }
  { f with crc := tropeCrc f }

theorem tropeIntact_emptyFlit (seq : BitVec 12) : tropeIntact (emptyFlit seq) = true := by
  rw [tropeIntact, Bool.and_eq_true, beq_iff_eq]
  exact ⟨(tropeCrc_crc { seq := seq } _).symm, rfl⟩

/-- At a fresh end SEQ 0 is accepted, and SEQ 1 discarded. -/
theorem tightropeFlit_order :
    (∃ t, exec (.tightropeFlit 0 false (emptyFlit 0)) (edgesTrained 0) = .next t ∧ (edgeEnd (t.edge 0) false).accepted = 0) ∧
    (∃ t, exec (.tightropeFlit 0 false (emptyFlit 1)) (edgesTrained 0) = .next t ∧ (edgeEnd (t.edge 0) false).accepted = 0xFFF) := by
  obtain ⟨t, hfirst, hnext, -⟩ := edgeFlits 0 false (emptyFlit 0) (edgesTrained 0) (edgesTrained_canonical 0) nofun rfl rfl
  obtain ⟨u, hsecond, -, hother, -⟩ := edgeFlits 0 false (emptyFlit 1) (edgesTrained 0) (edgesTrained_canonical 0) nofun rfl rfl
  obtain ⟨haccepted, -⟩ := hnext (tropeIntact_emptyFlit 0) rfl
  obtain ⟨hkept, -⟩ := hother (tropeIntact_emptyFlit 1) (by decide)
  exact ⟨⟨t, hfirst, haccepted⟩, u, hsecond, hkept⟩

end Sys2Proof.Machine
end

section
/-!
Link resets, training attempts, the agreement on a width, and attempts that fail (R278, R284-R287, R294).
-/

namespace Sys2Proof.Machine
open Sys2Proof

theorem EdgesOnly.of_out {s t : State} (h : EdgesOnly s t) (hout : t.out = s.out) : t = { s with edges := t.edges } := by
  unfold EdgesOnly at h
  rw [hout] at h
  exact h

/-! ### Link resets and attempts -/

/-- A link reset outside an attempt changes of an end at most what it refuses (R278). -/
theorem edgeReset_ends {s : State} (h : EdgeShape s) (e : Fin 4) (high : Bool) (hst : (s.edge e).st ≠ .down) (hatt : (s.edge e).attempt = false)
    (b : Bool) : ∃ r n, edgeEnd ((edgeReset e high s).edge e) b = { edgeEnd (s.edge e) b with refusing := r, refusals := n } := by
  obtain ⟨-, -, -, -, -, -, hend, hother⟩ := edgeReset_result h e e.isLt high hst hatt
  obtain rfl | rfl := Bool.eq_or_eq_not b high
  · exact ⟨_, _, hend⟩
  · exact ⟨_, _, hother⟩

/-- An end starts a training attempt: its test flits count from 0 (R285). -/
def endStarts (e : Nat) (b : Bool) (s : State) : State := countEnd e b 3 1 (modEnd e b (fun l => { l with tests := 0 }) s)

theorem endStarts_result {s : State} (h : EdgeShape s) (e : Fin 4) (b : Bool) :
    let t := endStarts e b s
    EdgeShape t ∧ edgeEnd (t.edge e) b = { edgeEnd (s.edge e) b with tests := 0 } ∧ edgeEnd (t.edge e) (!b) = edgeEnd (s.edge e) (!b) ∧
      (∃ xs c, t.edge e = { s.edge e with ends := xs, counters := c }) ∧ EdgesOnly s t ∧ t.out = s.out := by
  have hmod := h.modEnd e b (fun l => { l with tests := 0 })
  obtain ⟨hend, hother⟩ := modEnd_end h e e.isLt b (fun l => { l with tests := 0 })
  obtain ⟨c, hc⟩ := countEnd_edge hmod e e.isLt b 3 1
  have hx := modEnd_edge h e e.isLt b (fun l => { l with tests := 0 })
  intro t
  have hedge : t.edge e = { (modEnd e b (fun l => { l with tests := 0 }) s).edge e with counters := c } := hc
  exact ⟨hmod.countEnd .., by rw [hedge]; exact hend, by rw [hedge]; exact hother, ⟨_, _, by rw [hedge, hx]⟩, rfl, rfl⟩

/-- Both ends start the attempt. -/
theorem bothEnds_endStarts {s : State} (h : EdgeShape s) (e : Fin 4) :
    let t := bothEnds (endStarts e) s
    (∀ b, edgeEnd (t.edge e) b = { edgeEnd (s.edge e) b with tests := 0 }) ∧ (∃ xs c, t.edge e = { s.edge e with ends := xs, counters := c }) ∧
      EdgesOnly s t ∧ t.out = s.out := by
  obtain ⟨hshape, hlow, hhigh, ⟨_, _, hedge⟩, honly, hout⟩ := endStarts_result h e false
  obtain ⟨-, hhigh', hlow', ⟨xs, c, hedge'⟩, honly', hout'⟩ := endStarts_result hshape e true
  refine ⟨fun b => ?_, ⟨xs, c, hedge'.trans (by rw [hedge])⟩, honly.trans honly', hout'.trans hout⟩
  cases b
  · exact hlow'.trans hlow
  · exact hhigh'.trans (by rw [show edgeEnd ((endStarts e false s).edge e) true = edgeEnd (s.edge e) true from hhigh])

/-- D0 begins an attempt (R284). -/
def attemptBegins (e : Nat) (s : State) : State :=
  bothEnds (endStarts e) (modEdge e (fun x => { x with attempt := true, adverts := [none, none], agreed := 0 }) s)

theorem exec_tightropeTraining (e : Fin 4) (s : State) (hon : s.life ≠ .off) (hst : (s.edge e).st = .training) (hatt : (s.edge e).attempt = false) :
    exec (.tightropeTraining e) s = .next (attemptBegins e s) :=
  congrArg Host.Outcome.next ((powered_powered_on _ s hon).trans (if_pos ⟨hst, by rw [hatt]; rfl⟩))

theorem attemptBegins_result {s : State} (h : EdgeShape s) (e : Fin 4) :
    let t := attemptBegins e s
    (t.edge e).attempt = true ∧ (t.edge e).adverts = [none, none] ∧ (t.edge e).agreed = 0 ∧
      (∀ b, edgeEnd (t.edge e) b = { edgeEnd (s.edge e) b with tests := 0 }) ∧ t = { s with edges := t.edges } := by
  obtain ⟨u, hu⟩ : ∃ u, u = modEdge e (fun x => { x with attempt := true, adverts := [none, none], agreed := 0 }) s := ⟨_, rfl⟩
  have hshape : EdgeShape u := by rw [hu]; exact h.modEdge _ _ (fun _ => rfl)
  have hedge : u.edge e = { s.edge e with attempt := true, adverts := [none, none], agreed := 0 } := by rw [hu]; exact modEdge_edge h e e.isLt _
  have hbegin : EdgesOnly s u := by rw [hu]; rfl
  have hsilent : u.out = s.out := by rw [hu]; rfl
  obtain ⟨hends, ⟨xs, c, hx⟩, honly, hout⟩ := bothEnds_endStarts hshape e
  have ht : attemptBegins e s = bothEnds (endStarts e) u := by rw [hu]; rfl
  rw [hedge] at hx hends
  dsimp only
  rw [ht, hx]
  exact ⟨rfl, rfl, rfl, hx ▸ hends, (hbegin.trans honly).of_out (hout.trans hsilent)⟩

/-! ### Advertisements -/

/-- An advertised half mask at D0 (R284). -/
def advertised (e : Nat) (high : Bool) (m : Nat) (s : State) : State :=
  modEdge e (fun x => { x with adverts := setAt x.adverts (boolNat high) (some m) }) s

/-- D0 sends the agreed mask to an end, and the end sends its 16 test flits (R285). -/
def endAgrees (e m : Nat) (b : Bool) (s : State) : State :=
  allOf (List.range 16) (fun _ => emit (.trope (Fin.ofNat 4 e) b tropeTest)) (busWord e b m s)

/-- The words and flits by which both ends of an edge learn and try a width. -/
def agreement (e : Fin 4) (m : Nat) : List Out :=
  .bus (endDie e false) m :: List.replicate 16 (.trope e false tropeTest) ++ .bus (endDie e true) m :: List.replicate 16 (.trope e true tropeTest)

theorem bothEnds_endAgrees (e : Fin 4) (m : Nat) (s : State) :
    bothEnds (endAgrees e m) s = { s with out := s.out ++ agreement e m } := by
  rw [bothEnds, endAgrees, endAgrees, allOf_emit, allOf_emit]
  simp [busWord, emit, agreement, List.map_const', List.append_assoc]

theorem agreement_count (e : Fin 4) (m : Nat) (b : Bool) : (agreement e m).count (.trope e b tropeTest) = 16 := by
  cases b <;> simp [agreement]

theorem bus_mem_agreement (e : Fin 4) (m : Nat) (b : Bool) : .bus (endDie e b) m ∈ agreement e m := by
  cases b <;> simp [agreement]

/-- D0 has agreed a width with both ends of an edge (R285). -/
def edgeAgrees (e m : Nat) (s : State) : State := bothEnds (endAgrees e m) (modEdge e (fun x => { x with agreed := m }) s)

theorem edgeAgrees_result {s : State} (h : EdgeShape s) (e : Fin 4) (m : Nat) :
    let t := edgeAgrees e m s
    (t.edge e).agreed = m ∧ EdgesOnly s t ∧ t.out = s.out ++ agreement e m := by
  obtain ⟨u, hu⟩ : ∃ u, u = modEdge e (fun x => { x with agreed := m }) s := ⟨_, rfl⟩
  have hedge : (u.edge e).agreed = m := by rw [hu, modEdge_edge h e e.isLt]
  have honly : EdgesOnly s u := by rw [hu]; rfl
  have hout : u.out = s.out := by rw [hu]; rfl
  dsimp only
  rw [edgeAgrees, ← hu, bothEnds_endAgrees, ← hout]
  exact ⟨hedge, honly.trans rfl, rfl⟩

/-- What D0 does with the advertisements it holds (R285). -/
def advertsAnswered (e : Nat) (s : State) : List (Option Nat) → State
  | [some a, some b] => if a &&& b = 0 then attemptFails e s
      else edgeAgrees e (a &&& b) s
  | _ => s

theorem exec_halfMaskAdvertisement (e : Fin 4) (high : Bool) (m : BitVec 2) (s : State) (hon : s.life ≠ .off) (hatt : (s.edge e).attempt = true)
    (hnone : (s.edge e).adverts.getD (boolNat high) none = none) :
    exec (.halfMaskAdvertisement e high m) s =
      .next (advertsAnswered e (advertised e high m.toNat s) ((advertised e high m.toNat s).edge e).adverts) :=
  congrArg Host.Outcome.next ((powered_powered_on _ s hon).trans (if_pos ⟨hatt, hnone⟩))

theorem advertised_edge {s : State} (h : EdgeShape s) (e : Fin 4) (high : Bool) (m : Nat) :
    (advertised e high m s).edge e = { s.edge e with adverts := setAt (s.edge e).adverts (boolNat high) (some m) } := modEdge_edge h e e.isLt _

/-- Settles O41: what each command of a training attempt does with the edge and its ends. -/
theorem edgeTraining : Obligations.EdgeTraining := by
  intro e high s hcanon hon x same fails
  have hshape := EdgeShape.of_canonical hcanon
  refine ⟨fun hst hatt => ?reset, fun hst hatt => ?begins, fun m hatt hnone => ?first, fun m a hatt hone => ?second, fun hatt hagreed => ?timeout⟩
  case reset =>
    obtain ⟨htraining, -, hraised, -⟩ := edgeReset_result hshape e e.isLt high hst hatt
    refine ⟨_, congrArg Host.Outcome.next ((powered_on _ s hon).trans (powered_on _ s hon)), htraining, hraised, fun b => ?_⟩
    obtain ⟨r, n, hend⟩ := edgeReset_ends hshape e high hst hatt b
    have hsame : edgeEnd ((edgeReset e high s).edge e) b = _ := hend
    simp only [same, hsame, x, and_self]
  case begins =>
    obtain ⟨hbegun, hadverts, hagreed, hends, hframe⟩ := attemptBegins_result hshape e
    refine ⟨_, exec_tightropeTraining e s hon hst hatt, hbegun, hadverts, hagreed, fun b => ?_, hframe⟩
    simp only [same, hends, x, and_self]
  case first =>
    have hgo := exec_halfMaskAdvertisement e high m s hon hatt (by rw [hnone]; cases high <;> rfl)
    have hedge := advertised_edge hshape e high m.toNat
    rw [hnone] at hedge
    refine ⟨advertised e high m.toNat s, hgo.trans (congrArg Host.Outcome.next ?_), ?_, rfl⟩
    · rw [hedge]; cases high <;> rfl
    · rw [hedge]; cases high <;> rfl
  case second =>
    obtain ⟨u, hu⟩ : ∃ u, u = advertised e true m.toNat s := ⟨_, rfl⟩
    have hgo := exec_halfMaskAdvertisement e true m s hon hatt (by rw [hone]; rfl)
    have hedge := advertised_edge hshape e true m.toNat
    have hu1 : EdgeShape u := by rw [hu]; exact hshape.modEdge _ _ (fun _ => rfl)
    have hu2 : EdgesOnly s u := by rw [hu]; rfl
    have hu3 : u.out = s.out := by rw [hu]; rfl
    rw [← hu] at hgo hedge
    rw [hedge, hone] at hgo
    by_cases hzero : a &&& m.toNat = 0
    case pos =>
      obtain ⟨hraised, hagain, hdown⟩ := attemptFails_result hu1 e e.isLt
      rw [hedge] at hagain hdown
      exact ⟨_, hgo.trans (congrArg Host.Outcome.next (if_pos hzero)), fun hne => absurd hzero hne, fun _ => ⟨hraised, hagain, hdown⟩⟩
    case neg =>
      obtain ⟨hagreed, honly, hout⟩ := edgeAgrees_result hu1 e (a &&& m.toNat)
      exact ⟨_, hgo.trans (congrArg Host.Outcome.next (if_neg hzero)), fun _ => ⟨hagreed, hu2.trans honly, agreement e (a &&& m.toNat), hout.trans (by rw [hu3]),
        fun b => ⟨agreement_count e _ b, bus_mem_agreement e _ b⟩⟩, fun h => absurd h hzero⟩
  case timeout =>
    exact ⟨_, congrArg Host.Outcome.next ((powered_powered_on _ s hon).trans (if_pos ⟨hatt, hagreed⟩)), attemptFails_result hshape e e.isLt⟩

/-! ### Edges that train -/

/-- A package in READY whose edges train, T0 in an attempt after a number of failed ones and with what D0 holds of its advertisements. -/
def edgeAttempts (fails : Nat) (adverts : List (Option Nat)) : State :=
  { State.reset with life := .ready, edges := [{ attempt := true, fails := fails, adverts := adverts }, {}, {}, {}] }

theorem edgeAttempts_canonical (fails : Nat) (adverts : List (Option Nat)) : Canonical (edgeAttempts fails adverts) := by
  obtain ⟨hmem, hmram, hregs, htiles, -⟩ := resetCanonical
  exact ⟨hmem, hmram, hregs, htiles, rfl⟩

/-- R285's bound: the second failed attempt in succession leaves T0 training, the third takes it down. -/
theorem advertisementTimeout_bound :
    (∃ t, exec (.advertisementTimeout 0) (edgeAttempts 1 [none, none]) = .next t ∧ (t.edge 0).st = .training ∧ (t.edge 0).fails = 2) ∧
    (∃ t, exec (.advertisementTimeout 0) (edgeAttempts 2 [none, none]) = .next t ∧ (t.edge 0).st = .down ∧ raised 0x3003 t) := by
  obtain ⟨-, -, -, -, hsecond⟩ := edgeTraining 0 false (edgeAttempts 1 [none, none]) (edgeAttempts_canonical _ _) nofun
  obtain ⟨-, -, -, -, hthird⟩ := edgeTraining 0 false (edgeAttempts 2 [none, none]) (edgeAttempts_canonical _ _) nofun
  obtain ⟨t, hgo, -, hagain, -⟩ := hsecond rfl rfl
  obtain ⟨u, hgo', -, -, hdown⟩ := hthird rfl rfl
  obtain ⟨hst, hfails, -⟩ := hagain (by decide)
  obtain ⟨hst', -, -, hraised⟩ := hdown (by decide)
  exact ⟨⟨t, hgo, hst, hfails⟩, u, hgo', hst', hraised⟩

/-- The masks 11 and 01 agree on the low half; 10 and 01 on nothing, which fails the attempt (R285). -/
theorem halfMaskAdvertisement_agreement :
    (∃ t, exec (.halfMaskAdvertisement 0 true 1) (edgeAttempts 0 [some 3, none]) = .next t ∧ (t.edge 0).agreed = 1) ∧
    (∃ t, exec (.halfMaskAdvertisement 0 true 1) (edgeAttempts 0 [some 2, none]) = .next t ∧ raised 0x3002 t ∧ (t.edge 0).fails = 1) := by
  obtain ⟨-, -, -, hlow, -⟩ := edgeTraining 0 true (edgeAttempts 0 [some 3, none]) (edgeAttempts_canonical _ _) nofun
  obtain ⟨-, -, -, hnothing, -⟩ := edgeTraining 0 true (edgeAttempts 0 [some 2, none]) (edgeAttempts_canonical _ _) nofun
  obtain ⟨t, hgo, hagreed, -⟩ := hlow 1 3 rfl rfl
  obtain ⟨u, hgo', -, hfails⟩ := hnothing 1 2 rfl rfl
  obtain ⟨hmask, -⟩ := hagreed (by decide)
  obtain ⟨hraised, hagain, -⟩ := hfails (by decide)
  obtain ⟨-, hcount, -⟩ := hagain (by decide)
  exact ⟨⟨t, hgo, hmask⟩, u, hgo', hraised, hcount⟩

/-- A link reset of one end makes a trained edge train, and D0 then starts an attempt on an edge that trains; the first advertisement
waits for the other (R285, R286). -/
theorem training_starts :
    (∃ t, exec (.tightropeLinkReset 0 true) (edgesTrained 7) = .next t ∧ (t.edge 0).st = .training) ∧
    (∃ t, exec (.tightropeTraining 1) (edgeAttempts 0 [none, none]) = .next t ∧ (t.edge 1).attempt = true) ∧
    (∃ t, exec (.halfMaskAdvertisement 0 true 2) (edgeAttempts 0 [none, none]) = .next t ∧ (t.edge 0).adverts = [none, some 2]) := by
  obtain ⟨hreset, -⟩ := edgeTraining 0 true (edgesTrained 7) (edgesTrained_canonical 7) nofun
  obtain ⟨-, hbegins, -⟩ := edgeTraining 1 true (edgeAttempts 0 [none, none]) (edgeAttempts_canonical _ _) nofun
  obtain ⟨-, -, hfirst, -⟩ := edgeTraining 0 true (edgeAttempts 0 [none, none]) (edgeAttempts_canonical _ _) nofun
  obtain ⟨t, hgo, htraining, -⟩ := hreset nofun rfl
  obtain ⟨u, hgo', hbegun, -⟩ := hbegins rfl rfl
  obtain ⟨w, hgo'', hadverts, -⟩ := hfirst 2 rfl rfl
  exact ⟨⟨t, hgo, htraining⟩, ⟨u, hgo', hbegun⟩, w, hgo'', hadverts⟩

end Sys2Proof.Machine
end

section
/-!
The hand-over of an edge that is down, and a retrain by command (R287, R288, R294).
-/

namespace Sys2Proof.Machine
open Sys2Proof

/-- The slots that the end of a down edge still owes its partner, which last accepted `rx`: those of every later flit, then those
that wait (R288). -/
def reinjected (rx tx : LinkEnd) : List Slot :=
  (if rx.accV then tx.replay.filter (fun g => !seqCovers rx.accepted g.seq) else tx.replay).flatMap liveSlots ++ tx.txq

/-- How many flits those slots come from, as counted (R288, R294). -/
def reinjectedFlits (rx tx : LinkEnd) : Nat := (if rx.accV then tx.replay.filter (fun g => !seqCovers rx.accepted g.seq) else tx.replay).length

/-- The report reaches the sending end of edge `e`, which gives up what it holds (R288). -/
def handsOver (e : Nat) (high : Bool) (n word : Nat) (s : State) : State :=
  modEnd e (!high) (fun l => { l with replay := [], txq := [] })
    (countEnd e (!high) 6 n (modEdge e (fun x => { x with handed := setAt x.handed (boolNat high) true }) (busWord e (!high) word s)))

theorem handsOver_result {s : State} (h : EdgeShape s) (e : Fin 4) (high : Bool) (n word : Nat) :
    let t := handsOver e high n word s
    EdgeShape t ∧ (edgeEnd (t.edge e) (!high)).replay = [] ∧ (edgeEnd (t.edge e) (!high)).txq = [] ∧
      (t.edge e).handed = setAt (s.edge e).handed (boolNat high) true ∧ (∀ f, f ≠ e.val → t.edge f = s.edge f) ∧
      t.out = s.out ++ [.bus (endDie e (!high)) word] ∧ EdgesOnly s t := by
  obtain ⟨u, hu⟩ : ∃ u, u = modEdge e (fun x => { x with handed := setAt x.handed (boolNat high) true }) (busWord e (!high) word s) := ⟨_, rfl⟩
  have hshape : EdgeShape (busWord e (!high) word s) := h
  have hu1 : EdgeShape u := by rw [hu]; exact hshape.modEdge _ _ (fun _ => rfl)
  have hu2 : (u.edge e).handed = setAt (s.edge e).handed (boolNat high) true := by rw [hu, modEdge_edge hshape e e.isLt]; rfl
  have hu3 : ∀ f, f ≠ e.val → u.edge f = s.edge f := fun f hf => by rw [hu, modEdge_edge_ne _ _ _ hf.symm]; rfl
  have hu4 : u.out = s.out ++ [.bus (endDie e (!high)) word] := by rw [hu]; rfl
  have hu5 : EdgesOnly s u := by rw [hu]; rfl
  obtain ⟨v, hv⟩ : ∃ v, v = countEnd e (!high) 6 n u := ⟨_, rfl⟩
  obtain ⟨c, hc⟩ := countEnd_edge hu1 e e.isLt (!high) 6 n
  have hv1 : EdgeShape v := by rw [hv]; exact hu1.countEnd ..
  have hv2 : (v.edge e).handed = (u.edge e).handed := by rw [hv, hc]
  have hv3 : ∀ f, f ≠ e.val → v.edge f = u.edge f := fun f hf => by rw [hv]; exact modEdge_edge_ne _ _ _ hf.symm _
  have hv4 : v.out = u.out := by rw [hv]; rfl
  have hv5 : EdgesOnly u v := by rw [hv]; rfl
  obtain ⟨hend, -⟩ := modEnd_end hv1 e e.isLt (!high) (fun l => { l with replay := [], txq := [] })
  have hedge := modEnd_edge hv1 e e.isLt (!high) (fun l => { l with replay := [], txq := [] })
  have ht : handsOver e high n word s = modEnd e (!high) (fun l => { l with replay := [], txq := [] }) v := by rw [hv, hu]; rfl
  dsimp only
  rw [ht]
  refine ⟨hv1.modEnd .., by rw [hend], by rw [hend], by rw [hedge]; exact hv2.trans hu2, fun f hf => ?_, hv4.trans hu4, (hu5.trans hv5).trans rfl⟩
  exact (modEdge_edge_ne _ _ _ hf.symm _).trans ((hv3 f hf).trans (hu3 f hf))

/-- The other edge of the sender's die takes those slots, before what already waits there (R288). -/
def takesOver (f : Nat) (fh : Bool) (slots : List Slot) (s : State) : State := modEnd f fh (fun l => { l with txq := slots ++ l.txq }) s

theorem takesOver_result {s : State} (h : EdgeShape s) (f : Nat) (hf : f < 4) (fh : Bool) (slots : List Slot) :
    let t := takesOver f fh slots s
    (edgeEnd (t.edge f) fh).txq = slots ++ (edgeEnd (s.edge f) fh).txq ∧ (∀ e, f ≠ e → t.edge e = s.edge e) ∧ t.out = s.out ∧ EdgesOnly s t := by
  obtain ⟨hend, -⟩ := modEnd_end h f hf fh (fun l => { l with txq := slots ++ l.txq })
  exact ⟨congrArg LinkEnd.txq hend, fun e hne => modEdge_edge_ne _ _ _ hne _, rfl, rfl⟩

theorem otherEdge_ne (e : Fin 4) (b : Bool) : otherEdge e (endDie e b) ≠ e := by decide +revert

theorem otherEdge_lt (e : Fin 4) (b : Bool) : otherEdge e (endDie e b) < 4 := by decide +revert

/-- HAND_OVER_REPORT at a down edge whose end `high` has not handed over (R288). -/
theorem exec_handOverReport (e : Fin 4) (high : Bool) (s : State) (hon : s.life ≠ .off) (hst : (s.edge e).st = .down)
    (hnot : (s.edge e).handed.getD (boolNat high) true = false) :
    let rx := edgeEnd (s.edge e) high
    let tx := edgeEnd (s.edge e) (!high)
    let d := endDie e (!high)
    let f := otherEdge e d
    let fh := decide ((edgeDies f).2 = d)
    exec (.handOverReport e high) s = .next (pumpEnd f fh false (takesOver f fh (reinjected rx tx)
      (handsOver e high (reinjectedFlits rx tx) rx.accepted.toNat s))) :=
  congrArg Host.Outcome.next ((powered_powered_on _ s hon).trans (if_pos ⟨hst, hnot⟩))

/-! ### A retrain by command -/

/-- An edge that is down trains again, by command (R294). -/
def trainsByCommand (e : Nat) (s : State) : State :=
  if (s.edge e).st = .down then modEdge e (fun x => { x with st := .training, byCommand := true, fails := 0 }) s else s

theorem trainsByCommand_result {s : State} (h : EdgeShape s) (e : Fin 4) :
    let t := trainsByCommand e s
    EdgeShape t ∧ (t.edge e).st ≠ .down ∧ (t.edge e).attempt = (s.edge e).attempt ∧
      ((s.edge e).st = .down → (t.edge e).byCommand = true ∧ (t.edge e).fails = 0) := by
  dsimp only
  by_cases hst : (s.edge e).st = .down
  · rw [trainsByCommand, if_pos hst, modEdge_edge h e e.isLt]
    exact ⟨h.modEdge _ _ (fun _ => rfl), nofun, rfl, fun _ => ⟨rfl, rfl⟩⟩
  · rw [trainsByCommand, if_neg hst]
    exact ⟨h, hst, rfl, fun hd => absurd hd hst⟩

theorem exec_retrainSelectedEdge (d : Fin 4) (e : Nat) (s : State) (hon : s.life ≠ .off) (hallowed : edgeRetrainAllowed s = true)
    (hreg : s.reg (dieKey d 0x816001) = e) :
    exec (.retrainSelectedEdge d) s = .next (edgeReset e (decide ((edgeDies e).2 = d)) (trainsByCommand e s)) := by
  subst hreg
  exact congrArg Host.Outcome.next ((powered_on _ s hon).trans (if_pos hallowed))

/-- Settles O42: the other edge of the sender's die takes over what a down edge held; a retrain is a link reset. -/
theorem edgeHandOver : Obligations.EdgeHandOver := by
  intro e high s hcanon hon x rx tx d f fh
  have hshape := EdgeShape.of_canonical hcanon
  refine ⟨fun hst hnot => ?handOver, fun d hallowed hreg hatt => ?retrain⟩
  case handOver =>
    have hgo := exec_handOverReport e high s hon hst hnot
    obtain ⟨hvshape, hreplay, htxq, hhanded, hother, hout, honly⟩ := handsOver_result hshape e high (reinjectedFlits rx tx) rx.accepted.toNat
    have hne : f ≠ e.val := otherEdge_ne e (!high)
    obtain ⟨hqueue, hkept, hsilent, hedges⟩ := takesOver_result hvshape f (otherEdge_lt e (!high)) fh (reinjected rx tx)
    rw [hother f hne] at hqueue
    rw [← hkept e hne] at hreplay htxq hhanded
    exact ⟨_, hgo, hne, hqueue, hreplay, htxq, hhanded, hsilent.trans hout, honly.trans hedges⟩
  case retrain =>
    obtain ⟨hushape, hust, huatt, hcommand⟩ := trainsByCommand_result hshape e
    obtain ⟨htraining, -, hraised, -, hby, hfails, -⟩ := edgeReset_result hushape e e.isLt (decide ((edgeDies e).2 = d)) hust (huatt.trans hatt)
    refine ⟨_, exec_retrainSelectedEdge d e s hon hallowed hreg, htraining, fun hdown => ?_, hraised⟩
    obtain ⟨hyes, hzero⟩ := hcommand hdown
    exact ⟨hby.trans hyes, hfails.trans hzero⟩

/-! ### An edge that is down -/

/-- A package in HELD with T1 down: its upper end has accepted SEQ 0, and its lower end holds the flits of SEQ 0 and 1, each with a
header, and a slot that waits. Another waits on T0. -/
def edgeCut : State :=
  let slot : BitVec 3 → Slot := fun v => { kind := 1, vc := v }
  let low : LinkEnd := { replay := [{ seq := 0, slots := [slot 0] }, { seq := 1, slots := [slot 1] }], txq := [slot 2] }
  let cut : Edge := { st := .down, ends := [low, { accepted := 0, accV := true }] }
  let left : Edge := { st := .full, ends := [{}, { txq := [slot 3] }] }
  { State.reset with life := .held, edges := [left, cut, {}, {}], regs := smPut State.reset.regs 0x816001 1 }

theorem edgeCut_canonical : Canonical edgeCut := by
  obtain ⟨hmem, hmram, hregs, htiles, -⟩ := resetCanonical
  exact ⟨hmem, hmram, smSorted_smPut _ _ _ hregs, htiles, rfl⟩

/-- The slots of SEQ 1, then what waited on T1, go ahead of what waits on T0; and a retrain makes T1 train by command. -/
theorem handOverReport_edgeCut :
    (∃ u, exec (.handOverReport 1 true) edgeCut = .next (pumpEnd 0 true false u) ∧
      (edgeEnd (u.edge 0) true).txq.map (fun x => x.vc) = [1, 2, 3] ∧ u.out = [.bus 1 0]) ∧
    (∃ t, exec (.retrainSelectedEdge 0) edgeCut = .next t ∧ (t.edge 1).st = .training ∧ (t.edge 1).byCommand = true) := by
  obtain ⟨hreport, hretrain⟩ := edgeHandOver 1 true edgeCut edgeCut_canonical nofun
  obtain ⟨u, hgo, -, hqueue, -, -, -, hword, -⟩ := hreport rfl rfl
  obtain ⟨t, hgo', htraining, hcommand, -⟩ := hretrain 0 rfl (by decide) rfl
  obtain ⟨hby, -⟩ := hcommand rfl
  exact ⟨⟨u, hgo, (congrArg (List.map (fun x => x.vc)) hqueue).trans (by decide), hword⟩, t, hgo', htraining, hby⟩

end Sys2Proof.Machine
end

section
/-!
Flits at a Midway port that is up or trains (R281, R298-R302), and Booth port M0 (R405).
-/

namespace Sys2Proof.Machine
open Sys2Proof

/-- The package's memory, its tiles and its step are the same in two states. -/
structure WorkSame (s t : State) : Prop where
  mem : t.mem = s.mem
  tiles : t.tiles = s.tiles
  step : t.step = s.step

theorem WorkSame.trans {s t u : State} (h : WorkSame s t) (g : WorkSame t u) : WorkSame s u :=
  ⟨g.mem.trans h.mem, g.tiles.trans h.tiles, g.step.trans h.step⟩

theorem LinkSame.work {p : Nat} {s t : State} (h : LinkSame p s t) : WorkSame s t := by
  rw [h.rest]
  exact ⟨rfl, rfl, rfl⟩

theorem NetOnly.work {s t : State} (h : NetOnly s t) : WorkSame s t := ⟨h.mem, h.tiles, h.step⟩

theorem LinkSame.link {p : Nat} {s t : State} (h : LinkSame p s t) : (t.port p).link = (s.port p).link ∧ (t.port p).st = (s.port p).st := by
  obtain ⟨c, u, a, b, hport⟩ := h.same
  rw [hport]
  exact ⟨rfl, rfl⟩

/-! ### What a port does with a flit -/

/-- The two codewords of a flit, counted (R296). -/
theorem codewords_same {s : State} (h : s.ports.length = 16) (p : Fin 16) (c0 c1 : Option (Fin 16)) : LinkSame p s (codeword p c1 (codeword p c0 s)) := by
  have h0 := codeword_same h p p.isLt c0
  exact h0.trans (codeword_same (h0.size.trans h) p p.isLt c1)

/-- What a port does once it has taken a flit: it samples and sends, answers, or makes a link reset (R281, R298, R299, R319). -/
def portAnswers (p : Nat) (f : Flit) (s : State) : Received → State
  | .accepted => pumpPort p (decide (liveSlots f ≠ [])) (sampleFlit p f s)
  | .discarded _ => pumpPort p true (countPort p 4 1 s)
  | .replayLimit => linkReset p (raisePort 0x4003 p (countPort p 4 1 s))

/-- A port that has taken a flit, with what a NAK asks for sent again (R299). -/
theorem portTakes_result {s : State} (h : s.ports.length = 16) (p : Fin 16) (l : LinkEnd) (again : List Flit) :
    let t := countPort p 5 again.length (allOf again (fun g => emit (.midway (Fin.ofNat 16 p) g)) (modPort p (fun q => { q with link := l }) s))
    t.ports.length = 16 ∧ (t.port p).st = (s.port p).st ∧ (t.port p).link = l ∧ WorkSame s t := by
  obtain ⟨u, hu⟩ : ∃ u, u = allOf again (fun g => emit (.midway (Fin.ofNat 16 p) g)) (modPort p (fun q => { q with link := l }) s) := ⟨_, rfl⟩
  have hout := hu
  rw [allOf_emit] at hout
  have hports : u.ports = (modPort p (fun q => { q with link := l }) s).ports := by rw [hout]
  have hsize : u.ports.length = 16 := by rw [hports, modPort_length]; exact h
  have hport : u.port p = { s.port p with link := l } := (port_of_ports hports p).trans (modPort_port h p p.isLt _)
  have hwork : WorkSame s u := by rw [hout]; exact ⟨rfl, rfl, rfl⟩
  have hcount := countPort_same hsize p 5 again.length p.isLt
  obtain ⟨hlink, hst⟩ := hcount.link
  dsimp only
  rw [← hu]
  exact ⟨hcount.size.trans hsize, by rw [hst, hport], by rw [hlink, hport], hwork.trans hcount.work⟩

/-- A flit that is not a test flit, at a port that is up. -/
theorem exec_midwayFlit_up {s : State} (h : s.ports.length = 16) (p : Fin 16) (f : Flit) (c0 c1 : Option (Fin 16)) (hlive : netLive s = true)
    (hst : (s.port p).st = .up) (hf : f.test = false) (r : Received) (l : LinkEnd)
    (hr : receiveFlit f (flitIntact f c0 c1) (s.port p).link = (r, l)) :
    ∃ v, exec (.midwayFlit p f c0 c1) s = .next (portAnswers p f v r) ∧ v.ports.length = 16 ∧ (v.port p).st = .up ∧ (v.port p).link = l ∧ WorkSame s v := by
  have hwords := codewords_same h p c0 c1
  obtain ⟨hlink, hstate⟩ := hwords.link
  obtain ⟨hsize, htaken, hend, hwork⟩ := portTakes_result (hwords.size.trans h) p l (if flitIntact f c0 c1 then replayAfter f l else [])
  refine ⟨_, congrArg Host.Outcome.next ((powered_on _ s (netLive_on s hlive)).trans ?_), hsize, htaken.trans (hstate.trans hst), hend, hwords.work.trans hwork⟩
  rw [← hlink] at hr
  rw [opMidwayFlit, if_pos hlive]
  dsimp only
  rw [if_pos (.inl hst), if_neg (by rw [hst]; exact nofun), if_neg (by rw [hf]; exact Bool.false_ne_true), takeFlit, hr]
  rfl

/-- R281, R319: after an accepted flit the port has sampled its headers and sent what it could. -/
theorem portAnswers_accepted {s : State} (h : s.ports.length = 16) (p : Fin 16) (f : Flit) (hst : (s.port p).st = .up) :
    let t := portAnswers p f s .accepted
    let l := (s.port p).link
    let m := (t.port p).link
    m.accepted = l.accepted ∧ m.accV = l.accV ∧ m.refusing = l.refusing ∧ m.refusals = l.refusals ∧ m.rx = l.rx ∧ WorkSame s t := by
  have hsample := sampleFlit_same h p p.isLt f
  obtain ⟨hlink, hstate⟩ := hsample.link
  obtain ⟨-, -, -, -, hacc, haccV, hrefusing, hrefusals, hrx, -⟩ :=
    pumpPort_result (hsample.size.trans h) p p.isLt (decide (liveSlots f ≠ [])) (hstate.trans hst)
  rw [hlink] at hacc haccV hrefusing hrefusals hrx
  exact ⟨hacc, haccV, hrefusing, hrefusals, hrx, hsample.work.trans (pumpPort_net _ _ _).work⟩

/-- R281: a discarded flit is answered, with NAK while the port refuses, where the replay buffer has room (R299). -/
theorem portAnswers_discarded {s : State} (h : s.ports.length = 16) (p : Fin 16) (f : Flit) (bad : Bool) (hst : (s.port p).st = .up) :
    let t := portAnswers p f s (.discarded bad)
    let l := (s.port p).link
    let m := (t.port p).link
    m.accepted = l.accepted ∧ m.refusing = l.refusing ∧ m.refusals = l.refusals ∧ m.rx = l.rx ∧ WorkSame s t ∧
      (l.replay.length < 256 → ∃ g, .midway p g ∈ t.out ∧ g.nak = l.refusing ∧ g.ack = l.accepted) := by
  have hcount := countPort_same h p 4 1 p.isLt
  obtain ⟨hlink, hstate⟩ := hcount.link
  obtain ⟨-, -, -, -, hacc, -, hrefusing, hrefusals, hrx, -, hnak⟩ :=
    pumpPort_result (hcount.size.trans h) p p.isLt true (hstate.trans hst)
  rw [hlink] at hacc hrefusing hrefusals hrx hnak
  rw [Fin.ofNat_val_eq_self] at hnak
  exact ⟨hacc, hrefusing, hrefusals, hrx, hcount.work.trans (pumpPort_net _ _ _).work, hnak rfl⟩

/-- R299: the eighth refusal makes a link reset, which keeps replay buffer, sequence numbers and credits. -/
theorem portAnswers_replayLimit {s : State} (h : s.ports.length = 16) (p : Fin 16) (f : Flit) :
    let t := portAnswers p f s .replayLimit
    (t.port p).st = .training ∧ (t.port p).link = { (s.port p).link with tests := 0, refusing := false } ∧ raised 0x4003 t ∧ raised 0x400A t ∧
      WorkSame s t := by
  have hcount := countPort_same h p 4 1 p.isLt
  have hevent : LinkSame p _ (raisePort 0x4003 p (countPort p 4 1 s)) := hcount.trans (raiseAt_same ..)
  obtain ⟨hlink, -⟩ := hevent.link
  obtain ⟨hst, -, hreset, -, hraised, hkeep, -, -, -, hframe⟩ := linkReset_result (hevent.size.trans h) p p.isLt
  rw [hlink] at hreset
  have hwork : WorkSame (raisePort 0x4003 p (countPort p 4 1 s)) (linkReset p (raisePort 0x4003 p (countPort p 4 1 s))) := by
    rw [hframe]; exact ⟨rfl, rfl, rfl⟩
  exact ⟨hst, hreset, hkeep _ (raised_raiseAt ..), hraised, hevent.work.trans hwork⟩

/-- A port counts and keeps a test flit that arrives intact while it trains (R301, R302). -/
def testTaken (p : Nat) (f : Flit) (s : State) : State :=
  modPort p (fun q => { q with record := ((f.slots.head?).map (fun x => x.data)).getD [], link := { q.link with tests := q.link.tests + 1 } }) s

theorem exec_midwayFlit_test (p : Fin 16) (f : Flit) (c0 c1 : Option (Fin 16)) (s : State) (hlive : netLive s = true)
    (hst : (s.port p).st = .training) (hf : f.test = true) (hok : flitIntact f c0 c1 = true) :
    exec (.midwayFlit p f c0 c1) s = .next (testTaken p f (codeword p c1 (codeword p c0 s))) := by
  refine congrArg Host.Outcome.next ((powered_on _ s (netLive_on s hlive)).trans ?_)
  rw [opMidwayFlit, if_pos hlive]
  dsimp only
  rw [if_pos (.inr hst), if_pos hst, if_pos ⟨hf, hok⟩]
  rfl

/-- Settles O43: by what a link end can make of a flit, after the two codewords have been counted. -/
theorem portFlits : Obligations.PortFlits := by
  intro p f c0 c1 s hcanon hlive l ok
  have hports := ports_length hcanon
  have hon := netLive_on s hlive
  refine ⟨fun hst hf => ?up, fun hst hf hok => ?training, congrArg Host.Outcome.next (powered_on _ s hon), congrArg Host.Outcome.next (powered_on _ s hon)⟩
  case up =>
    have hexec := exec_midwayFlit_up hports p f c0 c1 hlive hst hf
    by_cases hok : ok = true
    case pos =>
      rw [show flitIntact f c0 c1 = true from hok] at hexec
      rw [hok]
      by_cases hseq : f.seq = l.accepted + 1
      case pos =>
        obtain ⟨v, hgo, hsize, hup, hend, htook⟩ := hexec _ _ (receiveFlit_next f l hseq)
        obtain ⟨hacc, haccV, hrefusing, hrefusals, hrx, hanswer⟩ := portAnswers_accepted hsize p f hup
        obtain ⟨hmem, htiles, hstep⟩ := htook.trans hanswer
        rw [hend] at hacc haccV hrefusing hrefusals hrx
        exact ⟨_, hgo, hmem, htiles, hstep, fun _ _ => ⟨hacc, haccV, hrefusing, hrefusals, hrx⟩, fun _ hne => absurd hseq hne,
          nofun, nofun⟩
      case neg =>
        obtain ⟨v, hgo, hsize, hup, hend, htook⟩ := hexec _ _ (receiveFlit_outOfOrder f l hseq)
        obtain ⟨hacc, hrefusing, -, hrx, hanswer, -⟩ := portAnswers_discarded hsize p f false hup
        obtain ⟨hmem, htiles, hstep⟩ := htook.trans hanswer
        obtain ⟨kacc, krefusing, -, krx⟩ := takeReturns_keeps f l
        rw [hend] at hacc hrefusing hrx
        exact ⟨_, hgo, hmem, htiles, hstep, fun _ h => absurd h hseq, fun _ _ => ⟨hacc.trans kacc, hrefusing.trans krefusing, hrx.trans krx⟩,
          nofun, nofun⟩
    case neg =>
      have hbad : ok = false := eq_false_of_ne_true hok
      rw [show flitIntact f c0 c1 = false from hbad] at hexec
      rw [hbad]
      by_cases hlimit : l.refusals < 7
      case pos =>
        obtain ⟨v, hgo, hsize, hup, hend, htook⟩ := hexec _ _ (receiveFlit_refused f l hlimit)
        obtain ⟨hacc, hrefusing, hrefusals, hrx, hanswer, hnak⟩ := portAnswers_discarded hsize p f true hup
        obtain ⟨hmem, htiles, hstep⟩ := htook.trans hanswer
        rw [hend] at hacc hrefusing hrefusals hrx hnak
        exact ⟨_, hgo, hmem, htiles, hstep, nofun, nofun, fun _ _ => ⟨hacc, hrefusing, hrefusals, hrx, hnak⟩,
          fun _ h => absurd hlimit (Nat.not_lt.mpr h)⟩
      case neg =>
        obtain ⟨v, hgo, hsize, -, hend, htook⟩ := hexec _ _ (receiveFlit_limit f l (Nat.not_lt.mp hlimit))
        obtain ⟨hst', hreset, hlimited, hlink, hanswer⟩ := portAnswers_replayLimit hsize p f
        obtain ⟨hmem, htiles, hstep⟩ := htook.trans hanswer
        rw [hend] at hreset
        exact ⟨_, hgo, hmem, htiles, hstep, nofun, nofun, fun _ h => absurd h hlimit,
          fun _ _ => ⟨hst', by rw [hreset], by rw [hreset], by rw [hreset], by rw [hreset], hlimited, hlink⟩⟩
  case training =>
    have hwords := codewords_same hports p c0 c1
    obtain ⟨hlink, hstate⟩ := hwords.link
    have hport : (testTaken p f (codeword p c1 (codeword p c0 s))).port p = _ := modPort_port (hwords.size.trans hports) p p.isLt _
    refine ⟨_, exec_midwayFlit_test p f c0 c1 s hlive hst hf hok, ?_, ?_, ?_, hwords.work.mem, hwords.work.tiles⟩
    · rw [hport, hlink]
    · rw [hport]
    · rw [hport]; exact hstate.trans hst

/-! ### Flits at a port -/

/-- A package in READY with port 0 in a state of its choice, after a number of refusals in succession. -/
def portAt (st : PortState) (refusals : Nat) : State :=
  let x : MidPort := {}
  { State.reset with life := .ready, ports := State.reset.ports.set 0 { x with st := st, link := { x.link with refusals := refusals } } }

theorem portAt_canonical (st : PortState) (n : Nat) : Canonical (portAt st n) := by
  obtain ⟨hmem, hmram, hregs, htiles, -⟩ := resetCanonical
  exact ⟨hmem, hmram, hregs, htiles, rfl⟩

/-- A flit with a codeword that cannot be corrected fails its check (R296, R298). -/
theorem flitIntact_uncorrectable (f : Flit) (c : Option (Fin 16)) : flitIntact f none c = false := rfl

/-- The bound of R299: after six refusals a seventh is answered by a NAK, after seven the eighth makes the port train. -/
theorem midwayFlit_refusal_bound :
    (∃ t, exec (.midwayFlit 0 {} none none) (portAt .up 6) = .next t ∧ (t.port 0).link.refusals = 7 ∧ ∃ g, .midway 0 g ∈ t.out ∧ g.nak = true) ∧
    (∃ t, exec (.midwayFlit 0 {} none none) (portAt .up 7) = .next t ∧ (t.port 0).st = .training) := by
  obtain ⟨hsix, -⟩ := portFlits 0 {} none none (portAt .up 6) (portAt_canonical _ _) rfl
  obtain ⟨hseven, -⟩ := portFlits 0 {} none none (portAt .up 7) (portAt_canonical _ _) rfl
  obtain ⟨t, hgo, -, -, -, -, -, hrefused, -⟩ := hsix rfl rfl
  obtain ⟨u, hgo', -, -, -, -, -, -, hlimit⟩ := hseven rfl rfl
  obtain ⟨-, -, hcount, -, hnak⟩ := hrefused (flitIntact_uncorrectable _ _) (by decide)
  obtain ⟨g, hsent, hyes, -⟩ := hnak (by decide)
  obtain ⟨htraining, -⟩ := hlimit (flitIntact_uncorrectable _ _) (by decide)
  exact ⟨⟨t, hgo, hcount, g, hsent, hyes⟩, u, hgo', htraining⟩

/-- The CRC takes its own field as zero (R297). -/
theorem midwayCrc_crc (f : Flit) (c : BitVec 32) : midwayCrc { f with crc := c } = midwayCrc f := rfl

/-- A flit without messages under a CRC of its own (R297). -/
def emptyMidwayFlit (test : Bool) : Flit :=
  let f : Flit := { test := test }
  { f with crc := midwayCrc f }

theorem flitIntact_emptyMidwayFlit (test : Bool) : flitIntact (emptyMidwayFlit test) (some 0) (some 15) = true := by
  have hcrc : (emptyMidwayFlit test).crc = midwayCrc (emptyMidwayFlit test) := (midwayCrc_crc { test := test } _).symm
  rw [flitIntact, Bool.and_eq_true, Bool.and_eq_true, beq_iff_eq]
  exact ⟨⟨rfl, hcrc⟩, rfl⟩

/-- With corrected symbols alone SEQ 0 is accepted at a port that is up, and a test flit counted at one that trains. -/
theorem midwayFlit_intact :
    (∃ t, exec (.midwayFlit 0 (emptyMidwayFlit false) (some 0) (some 15)) (portAt .up 3) = .next t ∧ (t.port 0).link.accepted = 0 ∧
      (t.port 0).link.refusals = 0) ∧
    (∃ t, exec (.midwayFlit 0 (emptyMidwayFlit true) (some 0) (some 15)) (portAt .training 0) = .next t ∧ (t.port 0).link.tests = 1) := by
  obtain ⟨hup, -⟩ := portFlits 0 (emptyMidwayFlit false) (some 0) (some 15) (portAt .up 3) (portAt_canonical _ _) rfl
  obtain ⟨-, htrains, -⟩ := portFlits 0 (emptyMidwayFlit true) (some 0) (some 15) (portAt .training 0) (portAt_canonical _ _) rfl
  obtain ⟨t, hgo, -, -, -, hnext, -⟩ := hup rfl rfl
  obtain ⟨u, hgo', hlink, -⟩ := htrains rfl rfl (flitIntact_emptyMidwayFlit true)
  obtain ⟨hacc, -, -, hrefusals, -⟩ := hnext (flitIntact_emptyMidwayFlit false) rfl
  exact ⟨⟨t, hgo, hacc, hrefusals⟩, u, hgo', congrArg LinkEnd.tests hlink⟩

end Sys2Proof.Machine
end

section
/-!
Midway ports whose pair has its other port up (R299, R301-R303, R316, R321): link resets, training, the neighbour check and ports that
go down.
-/

namespace Sys2Proof.Machine
open Sys2Proof

/-! ### The pair of a port -/

/-- Port `q` of port `p`'s pair is up and has not lost its neighbour (R305, R316). -/
structure PartnerUp (s : State) (p q : Nat) : Prop where
  mem : q ∈ pairPorts s (wireOf s p).pair
  ne : q ≠ p
  up : portUp s q = true
  heard : (s.port q).lost = false

theorem otherPort_some {s : State} {p q : Nat} (h : otherPort s p = some q) : q ∈ pairPorts s (wireOf s p).pair ∧ q ≠ p := by
  have hne := List.find?_some h
  exact ⟨List.mem_of_find?_eq_some h, of_decide_eq_true hne⟩

/-- What a port is wired to depends on the descriptor and the own position alone (R303, R321). -/
theorem wireOf_congr {s t : State} (hdesc : t.desc = s.desc) (hpos : t.pos = s.pos) (r : Nat) : wireOf t r = wireOf s r := by
  rw [wireOf, wireOf, hdesc, hpos]

theorem PartnerUp.of_same {s t : State} {p q : Nat} (h : PartnerUp s p q) (hwire : ∀ r, wireOf t r = wireOf s r) (hport : t.port q = s.port q) :
    PartnerUp t p q := by
  obtain ⟨hmem, hne, hup, hheard⟩ := h
  refine ⟨?_, hne, ?_, ?_⟩
  · simpa only [pairPorts, hwire] using hmem
  · rw [portUp, hport]; exact hup
  · rw [hport]; exact hheard

/-- R316: a pair with a port that is up and hears its neighbour reaches it. -/
theorem PartnerUp.reachable {s : State} {p q : Nat} (h : PartnerUp s p q) : pairUnreachable s (wireOf s p).pair = false := by
  obtain ⟨hmem, -, hup, hheard⟩ := h
  have hst : (s.port q).st = .up := beq_iff_eq.mp hup
  have hall : (pairPorts s (wireOf s p).pair).all (fun r => (s.port r).st == .down || (s.port r).st == .miswired || (s.port r).lost) = false := by
    rw [List.all_eq_false]
    exact ⟨q, hmem, by rw [hst, hheard]; decide⟩
  rw [pairUnreachable, hall, Bool.and_false]

theorem PartnerUp.not_lost {s : State} {p q : Nat} (h : PartnerUp s p q) : loseNeighbour p s = s := by
  rw [loseNeighbour]
  refine if_neg fun ⟨hall, _⟩ => ?_
  have hdown := List.all_eq_true.mp hall q h.mem
  rw [h.up] at hdown
  cases hdown

theorem PartnerUp.not_noted {s : State} {p q : Nat} (h : PartnerUp s p q) (before : Bool) : noteUnreachable before p s = s := by
  rw [noteUnreachable, h.reachable, Bool.and_false]
  rfl

/-! ### Link resets -/

/-- A link reset of a port whose pair stays up (R299, R321): the port trains, and the rest of the package goes on. -/
structure Retrains (p : Fin 16) (s t : State) : Prop where
  st : (t.port p).st = .training
  record : (t.port p).record = []
  link : (t.port p).link = { (s.port p).link with tests := 0, refusing := false }
  event : raised 0x400A t
  out : t.out = s.out ++ List.replicate 16 (.midway p (testFlit s p))
  frame : t = { s with regs := t.regs, trunk := t.trunk, evBatch := t.evBatch, ports := t.ports, out := t.out }

theorem linkReset_retrains {s : State} (h : s.ports.length = 16) (p : Fin 16) :
    Retrains p s (linkReset p s) ∧ ((linkReset p s).port p).fails = (s.port p).fails := by
  obtain ⟨hst, hrecord, hlink, hfails, hevent, -, -, -, hout, hframe⟩ := linkReset_result h p p.isLt
  rw [Fin.ofNat_val_eq_self] at hout
  exact ⟨⟨hst, hrecord, hlink, hevent, hout, hframe⟩, hfails⟩

/-- R321: a link reset by command clears the failed attempts first. -/
theorem linkReset_fresh {s : State} (h : s.ports.length = 16) (p : Fin 16) :
    let t := linkReset p (modPort p (fun m => { m with fails := 0 }) s)
    Retrains p s t ∧ (t.port p).fails = 0 := by
  have hport := modPort_port h p p.isLt (fun m => { m with fails := 0 })
  obtain ⟨⟨hst, hrecord, hlink, hevent, hout, hframe⟩, hfails⟩ :=
    linkReset_retrains (s := modPort p (fun m => { m with fails := 0 }) s) ((modPort_length ..).trans h) p
  rw [hport] at hlink hfails
  exact ⟨⟨hst, hrecord, hlink, hevent, hout, hframe⟩, hfails⟩

/-- R316: where the pair's other port stays up, loss of lock makes a link reset and no more. -/
theorem opLockLoss_partnerUp {s : State} (h : s.ports.length = 16) (p : Fin 16) {q : Nat} (hpair : PartnerUp s p q) (hlive : netLive s = true)
    (hst : (s.port p).st = .up) : opLockLoss p s = linkReset p s := by
  obtain ⟨-, -, -, -, -, -, hother, hwire, -, -⟩ := linkReset_result h p p.isLt
  have hkept : PartnerUp (linkReset p s) p q := hpair.of_same hwire (hother q hpair.ne)
  rw [opLockLoss, if_pos ⟨hlive, beq_iff_eq.mpr hst⟩, hkept.not_lost, hkept.not_noted]

/-! ### A port that comes up -/

/-- Between two states only entries, ports and what has left the package differ. -/
structure PortsOnly (s t : State) : Prop where
  frame : t = { s with regs := t.regs, ports := t.ports, out := t.out }

theorem PortsOnly.of_eq {s t : State} {regs : SMap Nat} {ports : List MidPort} {out : List Out}
    (h : t = { s with regs := regs, ports := ports, out := out }) : PortsOnly s t := by
  subst h
  exact ⟨rfl⟩

theorem PortsOnly.trans {s t u : State} (h : PortsOnly s t) (g : PortsOnly t u) : PortsOnly s u := by
  have hframe := g.frame
  rw [h.frame] at hframe
  exact .of_eq hframe

/-- R301: a port that comes up sends its replay buffer again. -/
def replayAgain (p : Nat) (s : State) : State :=
  countPort p 5 (s.port p).link.replay.length (allOf (s.port p).link.replay (fun f => emit (.midway (Fin.ofNat 16 p) f)) s)

theorem replayAgain_result {s : State} (h : s.ports.length = 16) (p : Fin 16) :
    let t := replayAgain p s
    LinkSame p s t ∧ PortsOnly s t ∧ ∀ g ∈ (s.port p).link.replay, .midway p g ∈ t.out := by
  obtain ⟨v, hv⟩ : ∃ v, v = allOf (s.port p).link.replay (fun f => emit (.midway (Fin.ofNat 16 p) f)) s := ⟨_, rfl⟩
  have hemit := hv
  rw [allOf_emit] at hemit
  have hports : v.ports = s.ports := by rw [hemit]
  have hsent : LinkSame p s v :=
    ⟨by rw [hemit], by rw [hports], ⟨_, _, _, _, port_of_ports hports p⟩, fun c hc => raised_of_batch hc (by rw [hemit]),
      fun o ho => by rw [hemit]; exact List.mem_append_left _ ho⟩
  have hcount := countPort_same (hsent.size.trans h) p 5 (s.port p).link.replay.length p.isLt
  have hgo : replayAgain p s = countPort p 5 (s.port p).link.replay.length v := by rw [replayAgain, hv]
  dsimp only
  rw [hgo]
  refine ⟨hsent.trans hcount, (PortsOnly.of_eq hemit).trans (.of_eq rfl), fun g hg => hcount.outs _ ?_⟩
  rw [hemit, Fin.ofNat_val_eq_self]
  exact List.mem_append_right _ (List.mem_map.mpr ⟨g, hg, rfl⟩)

/-- R301: the replay buffer goes out again on a port that comes up; the pair had a route, so none is restored. -/
theorem portComesUp_result {s : State} (h : s.ports.length = 16) (p : Fin 16) {q : Nat} (hpair : PartnerUp s p q) :
    let t := portComesUp p s
    (t.port p).st = .up ∧ (t.port p).fails = 0 ∧ (t.port p).lost = false ∧ PortsOnly s t ∧
      ∀ g ∈ (s.port p).link.replay, .midway p g ∈ t.out := by
  obtain ⟨u, hu⟩ : ∃ u, u = modPort p (fun m => { m with st := .up, fails := 0, lost := false, record := [] }) s := ⟨_, rfl⟩
  have husize : u.ports.length = 16 := by rw [hu, modPort_length]; exact h
  have hport : u.port p = { s.port p with st := .up, fails := 0, lost := false, record := [] } := by rw [hu]; exact modPort_port h p p.isLt _
  obtain ⟨hreplayed, hreplayFrame, hagain⟩ := replayAgain_result husize p
  obtain ⟨w, hw⟩ : ∃ w, w = showPorts (replayAgain p u) := ⟨_, rfl⟩
  have hgo : portComesUp p s = pumpPort p false w := by
    rw [portComesUp]
    dsimp only
    rw [hpair.reachable, ← hu, hw]
    rfl
  obtain ⟨c, e, a, b, hsame⟩ := hreplayed.same
  have hwport : w.port p = { u.port p with counters := c, uncorr := e, rxHeaders := a, txHeaders := b } := by
    rw [← hsame, hw]; exact port_of_ports rfl p
  rw [hport] at hwport
  have hwsize : w.ports.length = 16 := by rw [hw]; exact hreplayed.size.trans husize
  obtain ⟨hframe, hst, hfails, hlost, -, -, -, -, -, hout, -⟩ := pumpPort_result hwsize p p.isLt false (by rw [hwport])
  rw [← hgo] at hframe hst hfails hlost hout
  rw [hwport] at hfails hlost
  have hbefore : PortsOnly s u := .of_eq hu
  have hshown : PortsOnly (replayAgain p u) w := .of_eq (hw.trans (showPorts_frame _))
  refine ⟨hst, hfails, hlost, ((hbefore.trans hreplayFrame).trans hshown).trans (.of_eq hframe), fun g hg => hout _ ?_⟩
  rw [hw]
  exact hagain g (by rw [hport]; exact hg)

/-! ### A port that no longer runs -/

theorem raisePort_pos (code p : Nat) (s : State) : (raisePort code p s).pos = s.pos := by
  obtain ⟨a, b, c, hframe, hregs⟩ := raiseAt_parts code (portDie p) 768 p 0 s
  rw [raisePort, hframe]
  exact hregs 0x400005 (by decide)

theorem showPorts_pos (s : State) : (showPorts s).pos = s.pos := by
  rw [State.pos, showPorts, setReg_reg_ne _ _ _ _ (by decide), setReg_reg_ne _ _ _ _ (by decide), setReg_reg_ne _ _ _ _ (by decide)]
  rfl

/-- A port stops under an event, the entries show it, and its messages take other routes (R301, R303, R316, R321). -/
def portStops (code p : Nat) (before : Bool) (f : MidPort → MidPort) (s : State) : State :=
  noteUnreachable before p (requeue p (showPorts (raisePort code p (modPort p f s))))

/-- R316: where nothing is queued and the pair's other port stays up, no more than the port itself and its event changes. -/
theorem portStops_result {s : State} (h : s.ports.length = 16) (p : Fin 16) {q : Nat} (hpair : PartnerUp s p q) (code : Nat) (before : Bool)
    (f : MidPort → MidPort) (hempty : (f (s.port p)).link.txq = []) :
    let t := portStops code p before f s
    t.port p = f (s.port p) ∧ raised code t ∧ t.blobs = s.blobs := by
  obtain ⟨u, hu⟩ : ∃ u, u = showPorts (raisePort code p (modPort p f s)) := ⟨_, rfl⟩
  have hports : u.ports = (modPort p f s).ports := by rw [hu]; exact raiseAt_ports ..
  have hport : u.port p = f (s.port p) := (port_of_ports hports p).trans (modPort_port h p p.isLt f)
  obtain ⟨v, hv⟩ : ∃ v, v = modPort p (fun m => { m with link := { m.link with txq := [] } }) u := ⟨_, rfl⟩
  have hrequeue : requeue p u = v := by rw [hv]; exact requeue_empty p u (by rw [hport]; exact hempty)
  have hwire : ∀ r, wireOf v r = wireOf s r := by
    refine wireOf_congr ?_ ?_
    · rw [hv, hu]; exact raiseAt_desc ..
    · rw [hv]; exact (congrArg State.pos hu).trans ((showPorts_pos _).trans (raisePort_pos ..))
  have hother : v.port q = s.port q := by
    rw [hv, modPort_port_ne _ _ _ hpair.ne.symm, port_of_ports hports, modPort_port_ne _ _ _ hpair.ne.symm]
  have hgo : portStops code p before f s = v := by
    rw [portStops, ← hu, hrequeue, (hpair.of_same hwire hother).not_noted]
  dsimp only
  rw [hgo]
  refine ⟨?_, ?_, ?_⟩
  · rw [hv, modPort_port (by rw [hports, modPort_length]; exact h) p p.isLt, hport, ← hempty]
  · rw [hv, hu]; exact raised_of_batch (raised_raiseAt ..) rfl
  · rw [hv, hu]; exact raiseAt_blobs ..

/-- R303: a miswired port stops, and both identity records are kept. -/
theorem portMiswired_result {s : State} (h : s.ports.length = 16) (p : Fin 16) {q : Nat} (hpair : PartnerUp s p q)
    (hempty : (s.port p).link.txq = []) :
    let t := portMiswired p s
    (t.port p).st = .miswired ∧ raised 0x4002 t ∧ t.blob 0x400011 = expectedRecord s p ++ sliceBytes (s.port p).record 0 64 := by
  obtain ⟨u, hu⟩ : ∃ u, u = setBlob 0x400011 (expectedRecord s p ++ sliceBytes (s.port p).record 0 64) s := ⟨_, rfl⟩
  have hports : u.ports = s.ports := by rw [hu]; rfl
  have hport := port_of_ports hports
  have hkept : PartnerUp u p q := hpair.of_same (by rw [hu]; exact wireOf_congr rfl rfl) (hport q)
  obtain ⟨hstopped, hevent, hblobs⟩ := portStops_result (by rw [hports]; exact h) p hkept 0x4002 (pairUnreachable s (wireOf s p).pair)
    (fun m => { m with st := .miswired }) (by rw [hport]; exact hempty)
  have hgo : portMiswired p s = portStops 0x4002 p (pairUnreachable s (wireOf s p).pair) (fun m => { m with st := .miswired }) u := by
    rw [portMiswired, portStops, hu]
  dsimp only
  rw [hgo]
  refine ⟨by rw [hstopped], hevent, ?_⟩
  rw [State.blob, hblobs, hu]
  exact setBlob_blob_self ..

/-- R301, R316: a port that goes down raises its event; the PROBE goes out on the pair's other port. -/
theorem portGoesDown_result {s : State} (h : s.ports.length = 16) (p : Fin 16) {q : Nat} (hpair : PartnerUp s p q)
    (hempty : (s.port p).link.txq = []) :
    let t := portGoesDown p s
    (t.port p).st = .down ∧ (t.port p).fails = 0 ∧ raised 0x4001 t := by
  obtain ⟨hstopped, hevent, -⟩ := portStops_result h p hpair 0x4001 (pairUnreachable s (wireOf s p).pair)
    (fun m => { m with st := .down, fails := 0 }) hempty
  obtain ⟨u, hu⟩ : ∃ u, u = portStops 0x4001 p (pairUnreachable s (wireOf s p).pair) (fun m => { m with st := .down, fails := 0 }) s := ⟨_, rfl⟩
  rw [← hu] at hstopped hevent
  have hdown : (u.port p).st = .down ∧ (u.port p).fails = 0 ∧ raised 0x4001 u := by rw [hstopped]; exact ⟨rfl, rfl, hevent⟩
  have hgo : portGoesDown p s = match otherPort u p with
      | none => u
      | some r => if portUp u r ∧ (wireOf u p).pair ≠ 7 then sendProbe p r u else u := by
    rw [hu]; rfl
  dsimp only
  rw [hgo]
  split
  case h_1 => exact hdown
  case h_2 r hr =>
    split
    · rw [sendProbe, handToPort_other _ _ _ _ _ (otherPort_some hr).2]
      obtain ⟨hst, hfails, -⟩ := hdown
      exact ⟨hst, hfails, raised_of_batch hevent (handToPort_evBatch ..)⟩
    · exact hdown

/-! ### The obligation -/

/-- A command at a package whose ports run has its effect (R316). -/
theorem next_powered {f : State → State} {s t : State} (hlive : netLive s = true) (h : f s = t) :
    (Host.Outcome.next (powered f s) : Host.Outcome State Fault Refusal) = .next t := by rw [powered_on f s (netLive_on s hlive), h]

/-- Settles O44: by what the command finds at the port, whose pair reaches its neighbour by the other port throughout. -/
theorem portTraining : Obligations.PortTraining := by
  rintro p s hcanon hlive hempty ⟨q, hother, -, hup, hheard⟩
  intro x retrains
  have hports := ports_length hcanon
  obtain ⟨hmem, hne⟩ := otherPort_some hother
  have hpair : PartnerUp s p q := ⟨hmem, hne, hup, hheard⟩
  refine ⟨fun hst => ?lockLoss, fun hallowed => ?retrain, fun hdesc hst htests hkey => ?success, fun hdesc hst htests hkey => ?miswired,
    fun hst hfails => ?again, fun hst hfails => ?down⟩
  case lockLoss =>
    obtain ⟨hst', hrecord, hlink, hevent, hout, hframe⟩ := (linkReset_retrains hports p).1
    exact ⟨linkReset p s, next_powered hlive (opLockLoss_partnerUp hports p hpair hlive hst), hst', hrecord, hlink, hevent, hout, hframe⟩
  case retrain =>
    obtain ⟨⟨hst', hrecord, hlink, hevent, hout, hframe⟩, hfails⟩ := linkReset_fresh hports p
    exact ⟨_, next_powered hlive (if_pos hallowed), ⟨hst', hrecord, hlink, hevent, hout, hframe⟩, hfails⟩
  case success =>
    obtain ⟨hst', hfails, hlost, hframe, hagain⟩ := portComesUp_result hports p hpair
    refine ⟨portComesUp p s, next_powered hlive ?_, hst', hfails, hlost, hframe.frame, hagain⟩
    rw [opMidwayTraining, if_pos ⟨hlive, hdesc, hst, rfl, rfl, htests⟩, if_pos hkey]
  case miswired =>
    obtain ⟨hst', hevent, hblob⟩ := portMiswired_result hports p hpair hempty
    refine ⟨portMiswired p s, next_powered hlive ?_, hst', hevent, hblob⟩
    rw [opMidwayTraining, if_pos ⟨hlive, hdesc, hst, rfl, rfl, htests⟩, if_neg hkey]
  case again =>
    have hport := modPort_port hports p p.isLt (fun m => { m with fails := (s.port p).fails + 1 })
    obtain ⟨hst', hfails', hframe⟩ := startTraining_result (s := modPort p (fun m => { m with fails := (s.port p).fails + 1 }) s)
      ((modPort_length ..).trans hports) p p.isLt
    rw [hport] at hfails'
    refine ⟨_, next_powered hlive ?_, hst', hfails', hframe⟩
    rw [opTrainingExpiry, if_pos ⟨hlive, hst⟩]
    dsimp only
    rw [if_neg (Nat.not_le.mpr (Nat.succ_lt_succ hfails))]
  case down =>
    refine ⟨portGoesDown p s, next_powered hlive ?_, portGoesDown_result hports p hpair hempty⟩
    rw [opTrainingExpiry, if_pos ⟨hlive, hst⟩]
    dsimp only
    rw [if_pos (Nat.succ_le_succ hfails)]

/-! ### Ports of a pair -/

/-- A package in READY with every port in one pair: port 1 is up, and port 0 as given. -/
def pairAt (x : MidPort) : State :=
  { State.reset with life := .ready, desc := some {}, ports := (State.reset.ports.set 0 x).set 1 { st := .up } }

theorem pairAt_canonical (x : MidPort) : Canonical (pairAt x) := by
  obtain ⟨hmem, hmram, hregs, htiles, -⟩ := resetCanonical
  exact ⟨hmem, hmram, hregs, htiles, rfl⟩

theorem pairAt_other (x : MidPort) : otherPort (pairAt x) 0 = some 1 := rfl

/-- The hypotheses of `Obligations.PortTraining` hold of port 0, with nothing queued. -/
theorem pairAt_portTraining (x : MidPort) (h : x.link.txq = []) :
    Canonical (pairAt x) ∧ netLive (pairAt x) = true ∧ ((pairAt x).port 0).link.txq = [] ∧
      ∃ q, otherPort (pairAt x) 0 = some q ∧ q < 16 ∧ portUp (pairAt x) q = true ∧ ((pairAt x).port q).lost = false :=
  ⟨pairAt_canonical x, rfl, h, 1, pairAt_other x, by decide, rfl, rfl⟩

/-- The bound of R301: after one failed attempt a second goes on training, after two the third takes the port down. -/
theorem midwayTrainingExpiry_bound :
    (∃ t, exec (.midwayTrainingExpiry 0) (pairAt { st := .training, fails := 1 }) = .next t ∧ (t.port 0).st = .training ∧ (t.port 0).fails = 2) ∧
    (∃ t, exec (.midwayTrainingExpiry 0) (pairAt { st := .training, fails := 2 }) = .next t ∧ (t.port 0).st = .down ∧ raised 0x4001 t) := by
  obtain ⟨hcanon, hlive, hempty, hother⟩ := pairAt_portTraining { st := .training, fails := 1 } rfl
  obtain ⟨hcanon', hlive', hempty', hother'⟩ := pairAt_portTraining { st := .training, fails := 2 } rfl
  obtain ⟨-, -, -, -, hagain, -⟩ := portTraining 0 _ hcanon hlive hempty hother
  obtain ⟨-, -, -, -, -, hdown⟩ := portTraining 0 _ hcanon' hlive' hempty' hother'
  obtain ⟨t, hgo, hst, hfails, -⟩ := hagain rfl (by decide)
  obtain ⟨u, hgo', hst', -, hevent⟩ := hdown rfl (by decide)
  exact ⟨⟨t, hgo, hst, hfails⟩, u, hgo', hst', hevent⟩

/-- A port in training that has 16 test flits, with an identity record. -/
def trainedPort (record : List Byte) : MidPort :=
  let x : MidPort := { st := .training, record := record }
  { x with link := { x.link with tests := 16 } }

/-- R302, R303: what the neighbour check compares of an identity record. -/
theorem recordKey_identityRecord (s : State) (pos port role : Nat) (hdigest : digest128 s < 2 ^ 128) (hpos : pos < 2 ^ 16) (hport : port < 2 ^ 4)
    (hrole : role < 2 ^ 4) : recordKey (identityRecord s pos port role) = digest128 s * 2 ^ 20 + pos * 2 ^ 4 + port := by
  obtain ⟨y, hy⟩ : ∃ y, y = digest128 s * 2 ^ 24 + pos * 2 ^ 8 + port * 2 ^ 4 + role := ⟨_, rfl⟩
  have hfields : atBit 384 (digest128 s) + atBit 368 pos + atBit 364 port + atBit 360 role = 2 ^ 360 * y := by
    rw [hy, atBit, atBit, atBit, atBit, show 384 = 360 + 24 from rfl, show 368 = 360 + 8 from rfl, show 364 = 360 + 4 from rfl, pow_add, pow_add,
      pow_add]
    generalize 2 ^ 360 = unit
    ring
  have hwidth : 256 ^ 64 = 2 ^ 360 * 2 ^ 152 := by rw [show (256 : Nat) = 2 ^ 8 from rfl, ← pow_mul, ← pow_add]
  have hbytes : leAt (leBytes 64 (2 ^ 360 * y)) 0 64 = 2 ^ 360 * (y % 2 ^ 152) := by
    rw [leAt, sliceBytes, List.drop_zero, List.take_of_length_le (length_leBytes ..).le, length_leBytes, Nat.sub_self, List.replicate_zero,
      List.append_nil, leNat_leBytes, hwidth, Nat.mul_mod_mul_left]
  rw [recordKey, identityRecord, hfields, hbytes, bitField, Nat.shiftRight_eq_div_pow, show 364 = 360 + 4 from rfl, pow_add,
    Nat.mul_div_mul_left _ _ (Nat.two_pow_pos 360)]
  omega

/-- R303: the record of port 0 of position 0 brings the port up, that of port 1 there makes it miswired. -/
theorem midwayTraining_check :
    (∃ t, exec (.midwayTraining 0 true true) (pairAt (trainedPort (identityRecord State.reset 0 0 15))) = .next t ∧ (t.port 0).st = .up) ∧
    (∃ t, exec (.midwayTraining 0 true true) (pairAt (trainedPort (identityRecord State.reset 0 1 15))) = .next t ∧ (t.port 0).st = .miswired) := by
  obtain ⟨hcanon, hlive, hempty, hother⟩ := pairAt_portTraining (trainedPort (identityRecord State.reset 0 0 15)) rfl
  obtain ⟨hcanon', hlive', hempty', hother'⟩ := pairAt_portTraining (trainedPort (identityRecord State.reset 0 1 15)) rfl
  obtain ⟨-, -, hsuccess, -⟩ := portTraining 0 _ hcanon hlive hempty hother
  obtain ⟨-, -, -, hmiswired, -⟩ := portTraining 0 _ hcanon' hlive' hempty' hother'
  have hkey : recordKey (identityRecord State.reset 0 1 15) ≠ recordKey (identityRecord State.reset 0 0 15) := by
    rw [recordKey_identityRecord _ _ _ _ (by decide) (by decide) (by decide) (by decide),
      recordKey_identityRecord _ _ _ _ (by decide) (by decide) (by decide) (by decide)]
    decide
  obtain ⟨t, hgo, hst, -⟩ := hsuccess rfl rfl (by decide) rfl
  obtain ⟨u, hgo', hst', -⟩ := hmiswired rfl rfl (by decide) hkey
  exact ⟨⟨t, hgo, hst⟩, u, hgo', hst'⟩

/-- Loss of lock and a retrain by command both make port 0 train again. -/
theorem linkReset_pairAt :
    (∃ t, exec (.codewordLockLoss 0) (pairAt { st := .up }) = .next t ∧ (t.port 0).st = .training) ∧
    (∃ t, exec (.retrainPort 0) (pairAt { st := .down, fails := 2 }) = .next t ∧ (t.port 0).st = .training ∧ (t.port 0).fails = 0) := by
  obtain ⟨hcanon, hlive, hempty, hother⟩ := pairAt_portTraining { st := .up } rfl
  obtain ⟨hcanon', hlive', hempty', hother'⟩ := pairAt_portTraining { st := .down, fails := 2 } rfl
  obtain ⟨hloss, -⟩ := portTraining 0 _ hcanon hlive hempty hother
  obtain ⟨-, hretrain, -⟩ := portTraining 0 _ hcanon' hlive' hempty' hother'
  obtain ⟨t, hgo, hst, -⟩ := hloss rfl
  obtain ⟨u, hgo', ⟨hst', -⟩, hfails⟩ := hretrain rfl
  exact ⟨⟨t, hgo, hst⟩, u, hgo', hst', hfails⟩

end Sys2Proof.Machine
end

section
/-!
Acknowledgement, retransmission, PROBE, ROUTE and the router (R305, R309, R313, R314, R316, R317).
-/

namespace Sys2Proof.Machine
open Sys2Proof

/-! ### Messages that wait -/

theorem retryWaiting_empty (s : State) (h : s.txWait = []) : retryWaiting s = s := by
  rw [retryWaiting, h, admitWaiting, ← h]

/-! ### ACK -/

/-- Does an ACK cover a message, in the half of the count behind it (R313)? -/
def ackCovers (m : Msg) (u : Unacked) : Bool := decide ((BitVec.ofNat 32 (bitField m.body.toNat 255 224) - u.msg.eseq).toNat < 2 ^ 31)

/-- The flow an ACK acknowledges (R312). -/
def ackKey (m : Msg) : Nat := txKey (msgDie m) m.src.toNat

/-- An ACK of this route epoch is taken out of order (R311, R313). -/
theorem exec_ack (m : Msg) (s : State) (h5 : m.type = 5) (hf : forThis m s) (hi : msgIntact m = true) (he : m.repoch.toNat = s.epoch) :
    exec (.ack m) s = .next (applyAck m s) := by
  obtain ⟨hexec, htyped⟩ := arrival_exec m (.ack m) s (by rw [arrival, h5]; rfl) (.inl hf)
  obtain ⟨-, -, hd⟩ := hf
  rw [hexec, deliver, htyped, hd, hi]
  simp only [Bool.not_true, Bool.false_eq_true, if_false]
  rw [if_pos (.inl he), if_pos h5]

theorem applyAck_nothing (m : Msg) (s : State) (h : (s.flowTx (ackKey m)).unacked.filter (ackCovers m) = []) : applyAck m s = s :=
  if_pos h

/-- What an ACK covers leaves the retransmit store (R313, R314). -/
def storeLeft (m : Msg) (s : State) : State :=
  setTx (ackKey m) { s.flowTx (ackKey m) with unacked := (s.flowTx (ackKey m)).unacked.filter (fun u => !ackCovers m u) } s

/-- R314: the transfers that what an ACK covers belongs to are answered; with nothing waiting, and no drain, that is all. -/
theorem applyAck_covered (m : Msg) (s : State) (h : (s.flowTx (ackKey m)).unacked.filter (ackCovers m) ≠ []) (hwait : s.txWait = [])
    (hgens : ∀ g ∈ s.recov.gens, g.st ≠ 2) (howner : ∀ u ∈ (s.flowTx (ackKey m)).unacked, ∀ o, u.owner = some o → o.1 < 3072) :
    let t := allOf (((s.flowTx (ackKey m)).unacked.filter (ackCovers m)).filterMap (fun u => u.owner)) (fun o => answerXfer o.1 o.2) (storeLeft m s)
    applyAck m s = t ∧ t.flowsTx = (storeLeft m s).flowsTx := by
  have hanswer := answerAll_owners ((s.flowTx (ackKey m)).unacked.filter (ackCovers m)) (storeLeft m s)
    (fun u hu => howner u (List.mem_of_mem_filter hu))
  obtain ⟨tiles, hframe⟩ :=
    answerAll_frame (((s.flowTx (ackKey m)).unacked.filter (ackCovers m)).filterMap (fun u => u.owner)) (storeLeft m s)
  refine ⟨(if_neg h).trans ((congrArg (fun t => tryDrained (retryWaiting t)) hanswer).trans ?_), by rw [hframe]⟩
  rw [retryWaiting_empty _ (by rw [hframe]; exact hwait), tryDrained_none _ (by rw [hframe]; exact hgens)]

/-! ### ACK_TIMER and END_TO_END_TIMEOUT -/

/-- The die and the far endpoint die of a flow's key (R312). -/
theorem flowKey_parts (d : Fin 4) (far : Fin 16384) : (d.val * 16384 + far.val) / 16384 = d.val ∧ (d.val * 16384 + far.val) % 16384 = far.val := by
  omega

theorem setTx_flowTx_self (k : Nat) (f : FlowTx) (s : State) : (setTx k f s).flowTx k = f := smGetD_smPut_self ..

/-- A flow fails (R314): it is empty and closed, under its event, before its messages are given up. -/
theorem failFlow_closed (key : Nat) (s : State) :
    ∃ v, failFlow key s = retryWaiting (allOf (s.flowTx key).unacked
        (fun u => failMessage true { die := key / 16384, owner := u.owner, msg := u.msg }) v) ∧
      raised 0x4008 v ∧ v.flowTx key = { s.flowTx key with unacked := [], closed := true } ∧
      v = { s with flowsTx := v.flowsTx, regs := v.regs, trunk := v.trunk, evBatch := v.evBatch } := by
  obtain ⟨u, hu⟩ : ∃ u, u = setTx key { s.flowTx key with unacked := [], closed := true } s := ⟨_, rfl⟩
  obtain ⟨hraised, -, hframe⟩ := raiseAt_bumpReg 0x4008 (key / 16384) 768 0 (key % 16384) (dieKey (key / 16384) 0x81800D) 1 u (by unfold dieKey; omega)
  obtain ⟨v, hv⟩ : ∃ v, v = raiseAt 0x4008 (key / 16384) 768 0 (key % 16384) (bumpReg (dieKey (key / 16384) 0x81800D) 1 u) := ⟨_, rfl⟩
  rw [← hv] at hraised hframe
  have hflows : v.flowsTx = u.flowsTx := by rw [hframe]
  refine ⟨v, by rw [hv, hu]; rfl, hraised, ?_, ?_⟩
  · rw [State.flowTx, hflows, hu]
    exact setTx_flowTx_self ..
  · rw [hflows]
    rw [hu] at hframe ⊢
    exact hframe

/-- R314: below the retransmit limit everything unacknowledged goes out again, in its order. -/
theorem opEndToEnd_again (d dst : Nat) (s : State) (hlive : netLive s = true) (hunacked : (s.flowTx (d * 16384 + dst)).unacked ≠ [])
    (hfew : ∀ u ∈ (s.flowTx (d * 16384 + dst)).unacked, u.sends < s.reg 0x40000B) :
    let f := s.flowTx (d * 16384 + dst)
    opEndToEnd d dst s = allOf f.unacked (fun u => routeOut d none u.msg) (bumpReg (dieKey d 0x81800C) f.unacked.length
      (setTx (d * 16384 + dst) { f with unacked := f.unacked.map (fun u => { u with sends := u.sends + 1 }) } s)) := by
  have hnone : (s.flowTx (d * 16384 + dst)).unacked.any (fun u => decide (s.reg 0x40000B ≤ u.sends)) = false := by
    rw [List.any_eq_false]
    intro u hu
    simpa using hfew u hu
  rw [opEndToEnd, if_pos ⟨hlive, hunacked⟩, hnone]
  rfl

/-- R314: at the retransmit limit the flow fails. -/
theorem opEndToEnd_fails (d dst : Nat) (s : State) (hlive : netLive s = true) (hunacked : (s.flowTx (d * 16384 + dst)).unacked ≠ [])
    (hmany : ∃ u ∈ (s.flowTx (d * 16384 + dst)).unacked, s.reg 0x40000B ≤ u.sends) : opEndToEnd d dst s = failFlow (d * 16384 + dst) s := by
  obtain ⟨u, hu, hlimit⟩ := hmany
  have hsome : (s.flowTx (d * 16384 + dst)).unacked.any (fun u => decide (s.reg 0x40000B ≤ u.sends)) = true :=
    List.any_eq_true.mpr ⟨u, hu, decide_eq_true hlimit⟩
  rw [opEndToEnd, if_pos ⟨hlive, hunacked⟩, hsome, if_pos rfl]

/-! ### PROBE -/

/-- R316: the flits of the pair's other port after the SEQ stand between what has been begun on this port and its new traffic. -/
theorem opProbe_moves (p : Nat) (seq : BitVec 12) (s : State) {q : Nat} (hlive : netLive s = true) (hup : portUp s p = true)
    (hother : otherPort s p = some q) (hdown : portUp s q = false) :
    let x := s.port p
    let slots := wholeSlots [] (((s.port q).link.replay.filter (fun g => !seqCovers seq g.seq)).flatMap liveSlots)
    opProbe p seq s = pumpPort p false
      (modPort p (fun _ => { x with link := { x.link with txq := begunSlots [] x.link.txq ++ slots ++ laterSlots [] x.link.txq } })
        (modPort q (fun m => { m with link := { m.link with replay := [] } }) s)) := by
  intro x slots
  obtain ⟨-, hne⟩ := otherPort_some hother
  have hkept : (modPort q (fun m => { m with link := { m.link with replay := [] } }) s).port p = x := modPort_port_ne _ _ _ hne _
  rw [opProbe, if_pos ⟨hlive, hup⟩, hother]
  dsimp only
  rw [if_neg (by rw [hdown]; exact Bool.false_ne_true), modPort, hkept]
  rfl

/-! ### ROUTE -/

theorem loseInputs_outside (lost : Nat → Bool) (s : State) (h : s.step.phase ≠ .attempt) : loseInputs lost s = s := if_pos h

/-- R317: what is adopted once a route epoch has been taken. -/
def adoptedWith (pos coord : Nat) (s : State) : List (Nat × Nat) :=
  if pos = 0xFFFF then s.adopted else s.adopted.filter (fun a => decide (a.1 ≠ coord)) ++ [(coord, pos)]

/-- R317: a package with nothing sent, waiting or read takes a route epoch: every flow starts afresh, and what has not been begun
leaves the ports. -/
def epochTaken (e pos coord : Nat) (s : State) : State :=
  setReg 0x400006 (e % 256)
    { s with
      flowsRx := [], adopted := adoptedWith pos coord s,
      ports := s.ports.map (fun p => { p with link := { p.link with txq := begunSlots [] p.link.txq } }),
      step := { s.step with epochWait := false, heldCause := 0 }, recov := { s.recov with accepted := [] } }

/-- A package that has sent nothing and lets nothing wait. -/
def nothingSent (s : State) : State := { s with flowsTx := [], txWait := [], resendNext := [] }

theorem nothingSent_self (s : State) (htx : s.flowsTx = []) (hwait : s.txWait = []) (hagain : s.resendNext = []) : nothingSent s = s := by
  cases s
  cases htx
  cases hwait
  cases hagain
  rfl

/-- R317: what was kept for the new epoch waits behind what waits already. -/
def keptWaits (again : List Waiting) (s : State) : State := { s with resendNext := [], txWait := s.txWait ++ again ++ s.resendNext }

/-- R317: what was under way under the old epoch is given up, and what was kept for the new one goes out. -/
def epochFollows (lost again : List Waiting) (s : State) : State :=
  let u := allOf lost (failMessage false) (loseInputs (fun c => decide (c ≠ s.coord)) (stopDrain s))
  retryWaiting (keptWaits again (allOf u.reads dropRead u))

theorem takeEpoch_eq (e pos coord : Nat) (s : State) :
    takeEpoch e pos coord s =
      epochFollows (s.flowsTx.flatMap (fun p => p.2.unacked.map (fun u => { die := p.1 / 16384, owner := u.owner, msg := u.msg })) ++ s.txWait)
        s.resendNext (epochTaken e pos coord (nothingSent s)) := rfl

theorem keptWaits_nothing (s : State) (hwait : s.txWait = []) (hagain : s.resendNext = []) : keptWaits [] s = s := by
  cases s
  cases hwait
  cases hagain
  rfl

theorem epochFollows_nothing (s : State) (hwait : s.txWait = []) (hagain : s.resendNext = []) (hreads : s.reads = [])
    (hphase : s.step.phase ≠ .attempt) (hgens : ∀ g ∈ s.recov.gens, g.st ≠ 2) : epochFollows [] [] s = s := by
  have hinputs : loseInputs (fun c => decide (c ≠ s.coord)) (stopDrain s) = s := by
    rw [stopDrain_none s hgens, loseInputs_outside _ s hphase]
  rw [epochFollows, hinputs]
  show retryWaiting (keptWaits [] (allOf s.reads dropRead s)) = s
  rw [hreads]
  show retryWaiting (keptWaits [] s) = s
  rw [keptWaits_nothing s hwait hagain, retryWaiting_empty s hwait]

theorem takeEpoch_quiet (e pos coord : Nat) (s : State) (htx : s.flowsTx = []) (hwait : s.txWait = []) (hagain : s.resendNext = [])
    (hreads : s.reads = []) (hphase : s.step.phase ≠ .attempt) (hgens : ∀ g ∈ s.recov.gens, g.st ≠ 2) :
    takeEpoch e pos coord s = epochTaken e pos coord s := by
  rw [takeEpoch_eq, nothingSent_self s htx hwait hagain, htx, hwait, hagain]
  exact epochFollows_nothing (epochTaken e pos coord s) hwait hagain hreads hphase hgens

theorem opRoute_quiet (e pos coord : Nat) (s : State) (hon : s.life ≠ .off) (hspare : s.life ≠ .spare) (hnew : newerEpoch s e = true) :
    opRoute e pos coord s = takeEpoch e pos coord s := by
  rw [opRoute, powered_on _ s hon, hnew, decide_eq_false hspare]
  simp

/-! ### The router -/

/-- A message leaves a port's receive buffer, and the credits of its slots are owed (R300, R305). -/
def bufferLeft (vc : Nat) (rest : List Slot) (x : MidPort) : MidPort :=
  let owed := setAt x.link.owed vc (nth x.link.owed vc + (x.link.rx.length - rest.length))
  { x with link := { x.link with rx := rest, owed := owed } }

/-- R305, R309: what the router does with the first complete message of a channel. -/
theorem opForward_message (p vc : Nat) (s : State) (m : Msg) (rest : List Slot) (hlive : netLive s = true)
    (htake : takeMessage vc (s.port p).link.rx = some (m, rest)) (htyped : typeDefined m.type = true) (hprobe : m.type ≠ 0xB)
    (hready : (endsHere s m && mustWait s m && m.eseq == (s.flowRx (rxKey m)).expected) = false) :
    opForward p vc s = pumpPort p false (if endsHere s m then deliver m (modPort p (bufferLeft vc rest) s)
      else routeOut (portDie p) (some ((wireOf s p).pair, vc)) m (modPort p (bufferLeft vc rest) s)) := by
  have hnot : (m.type != 0xB) = true := bne_iff_ne.mpr hprobe
  rw [opForward, if_pos hlive, htake]
  dsimp only
  rw [hnot, Bool.and_true, hready, htyped, if_neg Bool.false_ne_true, Bool.not_true, if_neg Bool.false_ne_true, if_neg hprobe]
  rfl

/-- R86, R387: a message that is next of its flow stays while its destination withholds credits. -/
theorem opForward_waits (p vc : Nat) (s : State) (m : Msg) (rest : List Slot) (hlive : netLive s = true)
    (htake : takeMessage vc (s.port p).link.rx = some (m, rest)) (hprobe : m.type ≠ 0xB)
    (hhere : endsHere s m = true) (hwait : mustWait s m = true) (hnext : m.eseq = (s.flowRx (rxKey m)).expected) : opForward p vc s = s := by
  have hnot : (m.type != 0xB) = true := bne_iff_ne.mpr hprobe
  rw [opForward, if_pos hlive, htake]
  dsimp only
  rw [hnot, hhere, hwait, hnext, beq_self_eq_true]
  rfl

theorem opForward_nothing (p vc : Nat) (s : State) (h : takeMessage vc (s.port p).link.rx = none) : opForward p vc s = s := by
  rw [opForward, h]
  exact ite_self s

/-! ### The obligation -/

/-- Settles O49: each part by what its command finds in the flow, the store, the port or the route epoch. -/
theorem messageFlow : Obligations.MessageFlow := by
  refine ⟨fun m s h5 hf hi he => ?ack, fun d src s => ?timer, fun d dst s => ?timeout,
    fun p q seq s hlive hup hother hdown => ?probe, fun e pos c s hon => ?route, fun p vc s hlive => ?forward⟩
  case ack =>
    have hexec := exec_ack m s h5 hf hi he
    refine ⟨fun hnone => ?_, fun hsome hwait hgens howner => ?_⟩
    · rw [hexec, applyAck_nothing m s hnone]
    · obtain ⟨happly, hflows⟩ := applyAck_covered m s hsome hwait hgens howner
      refine ⟨_, hexec.trans (congrArg Host.Outcome.next happly), ?_, ?_⟩
      · rw [State.flowTx, hflows]
        exact congrArg FlowTx.unacked (setTx_flowTx_self ..)
      · rw [hflows]
        rfl
  case timer =>
    intro key f hlive howed hexpected
    obtain ⟨hdie, hfar⟩ := flowKey_parts d src
    refine next_powered hlive ?_
    rw [opAckTimer, if_pos ⟨hlive, howed⟩, sendAck, if_neg hexpected, hdie, hfar]
  case timeout =>
    intro key f hlive hunacked
    obtain ⟨hdie, hfar⟩ := flowKey_parts d dst
    refine ⟨fun hfew => next_powered hlive (opEndToEnd_again d dst s hlive hunacked hfew), fun hmany => ?_⟩
    obtain ⟨v, hgo, hraised, hclosed, hframe⟩ := failFlow_closed key s
    refine ⟨v, next_powered hlive ?_, hraised, hclosed, hframe⟩
    rw [opEndToEnd_fails d dst s hlive hunacked hmany, hgo, hdie]
  case probe => exact next_powered hlive (opProbe_moves p seq s hlive hup hother hdown)
  case route =>
    have hexec : exec (.route e pos c) s = .next (opRoute e.toNat pos.toNat c.toNat s) := congrArg Host.Outcome.next (powered_on _ s hon)
    refine ⟨fun hold => ?_, fun hnew hspare htx hwait hagain hreads hphase hgens => ?_⟩
    · rw [hexec, opRoute, powered_on _ s hon, hold]
      rfl
    · rw [hexec, opRoute_quiet _ _ _ s hon hspare hnew, takeEpoch_quiet _ _ _ s htx hwait hagain hreads hphase hgens]
      refine ⟨_, rfl, ?_, rfl, rfl, rfl, rfl⟩
      exact (setReg_reg_self ..).trans (Nat.mod_eq_of_lt e.isLt)
  case forward =>
    refine ⟨fun hnone => ?_, fun m rest htake htyped hprobe => ⟨fun haway => ?_, fun hhere hready => ?_, fun hhere hwait hnext => ?_⟩⟩
    · exact next_powered hlive (opForward_nothing p vc s hnone)
    · refine next_powered hlive ?_
      rw [opForward_message p vc s m rest hlive htake htyped hprobe (by rw [haway]; rfl), haway]
      rfl
    · refine next_powered hlive ?_
      rw [opForward_message p vc s m rest hlive htake htyped hprobe (by rw [hhere, hready]; rfl), hhere]
      rfl
    · exact next_powered hlive (opForward_waits p vc s m rest hlive htake hprobe hhere hwait hnext)

/-! ### Flows, probes and routes at a package -/

/-- A package in READY, as after reset. -/
def readyReset : State := { State.reset with life := .ready }

theorem msgIntact_msgSeal (m : Msg) : msgIntact (msgSeal m) = true := decide_eq_true rfl

/-- An ACK of ESEQ 0 for die 0, from die 0 of coordinate 1. -/
def ackOfFirst : Msg := msgSeal { type := 5, dst := 0x300, src := 0x1300 }

/-- A message with its ESEQ that stands in the retransmit store. -/
def storedMessage (eseq : BitVec 32) (sends : Nat) : Unacked := { msg := { type := 1, dst := 0x1300, src := 0x300, eseq := eseq }, sends := sends, owner := some (0, 0) }

/-- The bound of R313: ESEQ 0 is covered, and ESEQ 1, which lies behind it by all but one of the count, is not. -/
theorem ack_coversFirst :
    ∃ t, exec (.ack ackOfFirst) (setTx (ackKey ackOfFirst) { next := 2, unacked := [storedMessage 0 1, storedMessage 1 1] } readyReset) = .next t ∧
      (t.flowTx (ackKey ackOfFirst)).unacked = [storedMessage 1 1] := by
  obtain ⟨hack, -⟩ := messageFlow
  obtain ⟨-, hcovered⟩ := hack ackOfFirst (setTx (ackKey ackOfFirst) { next := 2, unacked := [storedMessage 0 1, storedMessage 1 1] } readyReset)
    rfl ⟨rfl, rfl, rfl⟩ (msgIntact_msgSeal _) rfl
  have howner : ∀ u ∈ [storedMessage 0 1, storedMessage 1 1], ∀ o, u.owner = some o → o.1 < 3072 := by simp [storedMessage]
  obtain ⟨t, hgo, hleft, -⟩ := hcovered (by decide) rfl nofun howner
  exact ⟨t, hgo, hleft.trans (by decide)⟩

/-- One message not yet acknowledged is acknowledged once the timer runs out. -/
theorem ackTimer_owed : ∃ t, exec (.ackTimer 0 4) (setRx 4 { expected := 1, owed := 1 } readyReset) = .next t ∧ (t.flowRx 4).owed = 0 := by
  obtain ⟨-, htimer, -⟩ := messageFlow
  refine ⟨_, htimer 0 4 (setRx 4 { expected := 1, owed := 1 } readyReset) rfl (by decide) (by decide), ?_⟩
  rw [State.flowRx, (sendBare_net _ _ _).rest]
  rfl

/-- The bound of R314: what has been sent 7 times goes out an eighth time, what has been sent 8 times closes its flow. -/
theorem endToEndTimeout_bound :
    (∃ v, exec (.endToEndTimeout 0 4) (setTx 4 { next := 1, unacked := [storedMessage 0 7] } readyReset) =
        .next (allOf [storedMessage 0 7] (fun u => routeOut 0 none u.msg) v) ∧ (v.flowTx 4).unacked = [storedMessage 0 8]) ∧
    (∃ v, exec (.endToEndTimeout 0 4) (setTx 4 { next := 1, unacked := [storedMessage 0 8] } readyReset) =
        .next (retryWaiting (allOf [storedMessage 0 8] (fun u => failMessage true { die := 0, owner := u.owner, msg := u.msg }) v)) ∧
      raised 0x4008 v ∧ (v.flowTx 4).closed = true) := by
  obtain ⟨-, -, htimeout, -⟩ := messageFlow
  obtain ⟨hagain, -⟩ := htimeout 0 4 (setTx 4 { next := 1, unacked := [storedMessage 0 7] } readyReset) rfl (by decide)
  obtain ⟨-, hfails⟩ := htimeout 0 4 (setTx 4 { next := 1, unacked := [storedMessage 0 8] } readyReset) rfl (by decide)
  obtain ⟨v, hgo, hraised, hclosed, -⟩ := hfails ⟨storedMessage 0 8, List.mem_singleton.mpr rfl, by decide⟩
  have hkey : (0 : Fin 4).val * 16384 + (4 : Fin 16384).val = 4 := rfl
  rw [hkey, setTx_flowTx_self] at hagain hclosed
  exact ⟨⟨_, hagain (by decide), rfl⟩, v, hgo, hraised, by rw [hclosed]⟩

/-- A port that is down with the flits of SEQ 0 and 1 in its replay buffer, each with the header of a message on its channel. -/
def downPort : MidPort :=
  let x : MidPort := { st := .down }
  { x with link := { x.link with replay := [{ seq := 0, slots := [{ kind := 1, vc := 0 }] }, { seq := 1, slots := [{ kind := 1, vc := 1 }] }] } }

/-- A PROBE that gives SEQ 0 as the last accepted moves the flit of SEQ 1 alone. -/
theorem probe_movesLater :
    ∃ u, exec (.probe 1 0) (pairAt downPort) = .next (pumpPort 1 false u) ∧ (u.port 1).link.txq = [{ kind := 1, vc := 1 }] ∧
      (u.port 0).link.replay = [] := by
  obtain ⟨-, -, -, hprobe, -⟩ := messageFlow
  exact ⟨_, hprobe 1 0 0 (pairAt downPort) rfl rfl rfl rfl, by decide, rfl⟩

/-- The bound of R317: at route epoch 0, 127 is newer and 128 is not; the ROUTE names coordinate 7 at position 5. -/
theorem route_bound :
    (∃ t, exec (.route 127 5 7) readyReset = .next t ∧ t.epoch = 127 ∧ t.adopted = [(7, 5)]) ∧
    exec (.route 128 5 7) readyReset = .next readyReset := by
  obtain ⟨-, -, -, -, hroute, -⟩ := messageFlow
  obtain ⟨-, hnewer⟩ := hroute 127 5 7 readyReset (by decide)
  obtain ⟨holder, -⟩ := hroute 128 5 7 readyReset (by decide)
  obtain ⟨t, hgo, hepoch, -, -, hadopted, -⟩ := hnewer (by decide) (by decide) rfl rfl rfl rfl (by decide) nofun
  exact ⟨⟨t, hgo, hepoch, hadopted⟩, holder (by decide)⟩

/-- A package whose port 0 holds the header slot of a message on channel 0, as the number of its 64 bytes (R310). -/
def routerAt (header : Nat) : State :=
  let x : MidPort := { st := .up }
  { readyReset with ports := State.reset.ports.set 0 { x with link := { x.link with rx := [{ kind := 1, vc := 0, data := leBytes 64 header }] } } }

/-- The header of a READ to control core 0 of die 0 at coordinate 0. -/
def readHere : Nat := 0x20003000000000000000000000000000000000000000000000000000000000000000000000000000000000000000000000000000000000000000000000000000

/-- The header of a READ to control core 0 of die 0 at coordinate 1. -/
def readAway : Nat := 0x20013000000000000000000000000000000000000000000000000000000000000000000000000000000000000000000000000000000000000000000000000000

/-- The header of a SIGNAL to control core 0 of die 0 at coordinate 0. -/
def signalHere : Nat := 0x40003000000000000000000000000000000000000000000000000000000000000000000000000000000000000000000000000000000000000000000000000000

/-- The Ringmaster of die 0 takes no item of flow 0 (R387). -/
def flowFull (s : State) : State := setRing 0 { flows := [(0, { kind := .parallel, limit := 0 })] } s

/-- R305, R387: an empty channel, a message for here, one for elsewhere, and one whose destination withholds credits. -/
theorem messageForward_cases :
    exec (.messageForward 0 1) (routerAt readHere) = .next (routerAt readHere) ∧
    (∃ u, exec (.messageForward 0 0) (routerAt readHere) = .next (pumpPort 0 false (deliver (slotMsg (leBytes 64 readHere) []) u)) ∧
      (u.port 0).link.rx = [] ∧ nth (u.port 0).link.owed 0 = 1) ∧
    (∃ u, exec (.messageForward 0 0) (routerAt readAway) = .next (pumpPort 0 false (routeOut 0 (some (15, 0)) (slotMsg (leBytes 64 readAway) []) u)) ∧
      (u.port 0).link.rx = [] ∧ nth (u.port 0).link.owed 0 = 1) ∧
    exec (.messageForward 0 0) (flowFull (routerAt signalHere)) = .next (flowFull (routerAt signalHere)) := by
  obtain ⟨-, -, -, -, -, hforward⟩ := messageFlow
  obtain ⟨hnone, -⟩ := hforward 0 1 (routerAt readHere) rfl
  obtain ⟨-, hhere⟩ := hforward 0 0 (routerAt readHere) rfl
  obtain ⟨-, haway⟩ := hforward 0 0 (routerAt readAway) rfl
  obtain ⟨-, hwaits⟩ := hforward 0 0 (flowFull (routerAt signalHere)) rfl
  obtain ⟨-, hdelivered, -⟩ := hhere (slotMsg (leBytes 64 readHere) []) [] (by decide) (by decide) (by decide)
  obtain ⟨hrouted, -, -⟩ := haway (slotMsg (leBytes 64 readAway) []) [] (by decide) (by decide) (by decide)
  obtain ⟨-, -, hstays⟩ := hwaits (slotMsg (leBytes 64 signalHere) []) [] (by decide) (by decide) (by decide)
  exact ⟨hnone (by decide), ⟨_, hdelivered (by decide) (by decide), rfl, rfl⟩, ⟨_, hrouted (by decide), rfl, rfl⟩,
    hstays (by decide) (by decide) (by decide)⟩

end Sys2Proof.Machine
end

section
/-!
The queue of commands, the idle package, and the raising of events (R359, R405, R410, R447, R449, R450).
-/

namespace Sys2Proof.Machine
open Sys2Proof

/-! ### The queue -/

theorem step_of_pending_cons {c : Instr} {rest : List Instr} {s : State} (h : s.pending = c :: rest) :
    step s = exec c { s with pending := rest } := by
  rw [step, h]

theorem step_of_pending_nil {s : State} (h : s.pending = []) : step s = .next (tick s) := by
  rw [step, h]

/-- Settles O1: the queue's front is its first command. -/
theorem stepRunsFront : Obligations.StepRunsFront := fun _ _ _ => step_of_pending_cons rfl

/-! ### The idle package -/

theorem drainTrunk_of_queue_nil (t : Trunk) (h : t.queue = []) : drainTrunk t = t := by
  rw [drainTrunk, h]

theorem tick_off (s : State) (h : s.life = .off) : tick s = s := powered_off _ s h

theorem tick_on (s : State) (h : s.life ≠ .off) : tick s = { s with now := (s.now + 1000) % 2 ^ 64, trunk := drainTrunk s.trunk } :=
  powered_on _ s h

/-- Settles O22: an idle step is a tick, and the Trunk Record gives up the head of its queue. -/
theorem idleStep : Obligations.IdleStep := by
  intro s hempty
  rw [step_of_pending_nil hempty]
  refine ⟨fun hoff => by rw [tick_off s hoff], fun hon => ⟨_, rfl, ?_⟩⟩
  rw [tick_on s hon]
  exact ⟨rfl, rfl, drainTrunk_queue s.trunk, drainTrunk_of_queue_nil s.trunk⟩

/-- An idle package in the last microsecond before its time wraps, with two entries on their way to the MRAM. -/
def idleReady : State :=
  { State.reset with life := .ready, now := 2 ^ 64 - 1000, trunk := { State.reset.trunk with queue := [(1, [7]), (0, [8])] } }

theorem step_idleReady : step State.reset = .next State.reset ∧
    ∃ t, step idleReady = .next t ∧ t.now = 0 ∧ t.trunk.queue = [(0, [8])] := by
  obtain ⟨hoff, -⟩ := idleStep State.reset rfl
  obtain ⟨-, hon⟩ := idleStep idleReady rfl
  obtain ⟨t, hstep, -, hnow, hqueue, -⟩ := hon (by decide)
  exact ⟨hoff rfl, t, hstep, hnow, hqueue⟩

/-! ### What raising an event adds -/

theorem epDie_endpoint (s : State) {die tile : Nat} (hdie : die < 4) (htile : tile < 1024) : epDie (endpoint s die tile) = die := by
  unfold epDie endpoint; omega

theorem epTile_endpoint (s : State) {die tile : Nat} (htile : tile < 1024) : epTile (endpoint s die tile) = tile := by
  unfold epTile endpoint; omega

theorem endpoint_lt (s : State) {die tile : Nat} (hdie : die < 4) (htile : tile < 1024) : endpoint s die tile < 2 ^ 24 := by
  have := Nat.mod_lt (s.reg 0x102401) (show 4096 > 0 by norm_num)
  unfold endpoint State.coord; omega

/-- The record of an event of a unit of this package (R405). -/
def eventRecord (code die tile sub op : Nat) (s : State) : EventRec :=
  { code := code, subunit := sub % 256, unit := endpoint s die tile, operation := op % 2 ^ 32, time := s.now,
    temp := wrapInt 16 (hottest s die), volt := s.reg (dieKey 0 (0x200405 + die)) % 65536 }

/-- The main ring's next entry, with an event record as its payload (R449). -/
def eventEntry (die : Nat) (e : EventRec) (s : State) : List Byte :=
  trunkEntry s.trunk.nextSeq s.now 1 die (stateCode s.life) (eventBits e)

/-- Flow 10 takes an entry while it is open and not full (R450, R451). -/
theorem trunkPost_admitted (ring kind die payload : Nat) (s : State) (hopen : s.trunk.closed = false) (hroom : s.trunk.queue.length < 256) :
    trunkPost ring kind die payload s = { s with trunk := { s.trunk with
      nextSeq := s.trunk.nextSeq + 1,
      queue := s.trunk.queue ++ [(ring, trunkEntry s.trunk.nextSeq s.now kind die (stateCode s.life) payload)] } } := by
  have hfull : decide (256 ≤ s.trunk.queue.length) = false := decide_eq_false (by omega)
  unfold trunkPost
  rw [hopen, hfull]
  rfl

/-- While event frames leave, every event has a record of its own (R405). -/
theorem batchEvent_appended (e : EventRec) (s : State) (h : s.evFrames.length < 256) :
    batchEvent e s = { s with evBatch := s.evBatch ++ [e] } :=
  if_neg fun hmerge => absurd hmerge.1 (by omega)

/-- An event posts its entry, and its record joins those not yet in a frame (R447). -/
theorem raiseAt_eq (code die tile sub op : Nat) (s : State) (hdie : die < 4) (htile : tile < 1024) :
    let e := eventRecord code die tile sub op s
    raiseAt code die tile sub op s = batchEvent e (trunkPost 1 1 die (eventBits e) s) := by
  unfold raiseAt raiseUnit
  rw [epDie_endpoint s hdie htile]
  rfl

/-- R405, R447: an event adds one entry to flow 10 and one record, and changes nothing else. -/
theorem raiseAt_admitted (code die tile sub op : Nat) (s : State) (hdie : die < 4) (htile : tile < 1024) (hopen : s.trunk.closed = false)
    (hroom : s.trunk.queue.length < 256) (hframes : s.evFrames.length < 256) :
    let e := eventRecord code die tile sub op s
    raiseAt code die tile sub op s = { s with
      trunk := { s.trunk with nextSeq := s.trunk.nextSeq + 1, queue := s.trunk.queue ++ [(1, eventEntry die e s)] },
      evBatch := s.evBatch ++ [e] } := by
  rw [raiseAt_eq code die tile sub op s hdie htile, trunkPost_admitted _ _ _ _ s hopen hroom]
  exact batchEvent_appended _ _ hframes

/-! ### The bits of an entry -/

/-- A number reads back from its field modulo the field's size. -/
theorem Packs.field_mod {ws : List Nat} {fs : List (Nat × Nat)} {n w : Nat} (h : Packs ws fs n) (i hi lo : Nat) {v : Nat}
    (hf : fs[i]? = some (w, v)) (hlo : (ws.drop (i + 1)).sum = lo) (hw : hi + 1 - lo = w) : bitField n hi lo = v % 2 ^ w := by
  rw [h.word, bitField_pack_at fs i w v hi lo hf (h.below i hlo) hw]

/-- The widths of a FULL record's fields from bit 255 down: the last 48 bits are reserved (R405). -/
def eventWidths : List Nat := [16, 8, 24, 32, 32, 64, 16, 16, 48]

/-- An event record whose numbers fit their fields. -/
structure EventFits (e : EventRec) : Prop where
  code : e.code < 2 ^ 16
  subunit : e.subunit < 2 ^ 8
  unit : e.unit < 2 ^ 24
  count : e.count < 2 ^ 32
  operation : e.operation < 2 ^ 32
  temp : e.temp < 2 ^ 16
  volt : e.volt < 2 ^ 16

theorem eventRecord_fits (code die tile sub op : Nat) (s : State) (hcode : code < 2 ^ 16) (hdie : die < 4) (htile : tile < 1024) :
    EventFits (eventRecord code die tile sub op s) where
  code := hcode
  subunit := Nat.mod_lt _ (by norm_num)
  unit := endpoint_lt s hdie htile
  count := show 1 < 2 ^ 32 by norm_num
  operation := Nat.mod_lt _ (by norm_num)
  temp := by unfold eventRecord wrapInt; dsimp only; omega
  volt := Nat.mod_lt _ (by norm_num)

theorem eventBits_packs (e : EventRec) (h : EventFits e) : Packs eventWidths
    [(16, e.code), (8, e.subunit), (24, e.unit), (32, e.count), (32, e.operation), (64, e.time), (16, e.temp), (16, e.volt), (48, 0)]
    (eventBits e) where
  widths := rfl
  word := by
    simp only [packFields_cons, fieldBits, List.map_cons, List.map_nil, List.sum_cons, List.sum_nil, Nat.mod_eq_of_lt h.code,
      Nat.mod_eq_of_lt h.subunit, Nat.mod_eq_of_lt h.unit, Nat.mod_eq_of_lt h.count, Nat.mod_eq_of_lt h.operation,
      Nat.mod_eq_of_lt h.temp, Nat.mod_eq_of_lt h.volt]
    simp only [eventBits, atBit, packFields, List.foldl_nil]
    norm_num
    ring

theorem eventBits_lt (e : EventRec) (h : EventFits e) : eventBits e < 2 ^ 256 := by
  rw [(eventBits_packs e h).word]
  exact packFields_lt _

/-- The widths of an entry's fields from bit 511 down: sequence number, time, kind, die, state, reserved, payload, CRC (R449). -/
def entryWidths : List Nat := [64, 64, 16, 2, 4, 74, 256, 32]

theorem stateCode_lt (p : PkgState) : stateCode p < 16 := by cases p <;> decide

theorem eventEntry_length (die : Nat) (e : EventRec) (s : State) : (eventEntry die e s).length = 64 := length_leBytes ..

theorem eventEntry_packs (die : Nat) (e : EventRec) (s : State) (hdie : die < 4) (hseq : s.trunk.nextSeq < 2 ^ 64) (h : EventFits e) :
    ∃ crc, Packs entryWidths [(64, s.trunk.nextSeq), (64, s.now), (16, 1), (2, die), (4, stateCode s.life), (74, 0), (256, eventBits e), (32, crc)]
      (leNat (eventEntry die e s)) :=
  ⟨_, rfl, trunkEntry_fields _ _ 1 die _ _ hseq (by norm_num) hdie (stateCode_lt _) (eventBits_lt e h)⟩

/-- A field within a field. -/
theorem bitField_bitField (n a hi lo W : Nat) (h : hi < W) :
    bitField n (hi + a) (lo + a) = bitField (bitField n (a + W - 1) a) hi lo := by
  unfold bitField
  rw [show a + W - 1 + 1 - a = W by omega, Nat.add_comm hi, Nat.add_comm lo]
  exact subField n a hi lo W h

/-- R449: a field of an event's record lies 32 bits higher in its entry. -/
theorem bitField_eventEntry (die : Nat) (e : EventRec) (s : State) (hi lo : Nat) (hdie : die < 4) (hseq : s.trunk.nextSeq < 2 ^ 64)
    (h : EventFits e) (hhi : hi < 256) : bitField (leNat (eventEntry die e s)) (hi + 32) (lo + 32) = bitField (eventBits e) hi lo := by
  obtain ⟨crc, hp⟩ := eventEntry_packs die e s hdie hseq h
  rw [bitField_bitField _ 32 hi lo 256 hhi, hp.field 6 287 32 rfl rfl rfl (eventBits_lt e h)]

/-- Settles O31: the event's record packs into the payload, and the payload into the entry. -/
theorem eventRaised : Obligations.EventRaised := by
  intro code die tile sub op s hcode hdie htile hopen hroom hframes hseq hcoord
  have hfits := eventRecord_fits code die tile sub op s hcode hdie htile
  obtain ⟨crc, hp⟩ := eventEntry_packs die _ s hdie hseq hfits
  have hrec := eventBits_packs _ hfits
  have hpayload := fun hi lo => bitField_eventEntry die _ s hi lo hdie hseq hfits
  refine ⟨eventRecord code die tile sub op s, eventEntry die _ s, raiseAt_admitted code die tile sub op s hdie htile hopen hroom hframes,
    rfl, ?unit, rfl, rfl, rfl, rfl, eventEntry_length .., hp.field 0 511 448 rfl rfl rfl hseq, hp.field_mod 1 447 384 rfl rfl rfl,
    hp.field 2 383 368 rfl rfl rfl (by norm_num), hp.field 3 367 366 rfl rfl rfl hdie, hp.field 4 365 362 rfl rfl rfl (stateCode_lt _),
    hp.field 5 361 288 rfl rfl rfl (by norm_num), ?codeBits, ?subunitBits, ?unitBits, ?countBits, ?operationBits, ?timeBits⟩
  case unit => exact congrArg (fun c => c * 4096 + die * 1024 + tile) (Nat.mod_eq_of_lt hcoord)
  case codeBits => exact (hpayload 255 240 (by norm_num)).trans (hrec.field 0 255 240 rfl rfl rfl hcode)
  case subunitBits => exact (hpayload 239 232 (by norm_num)).trans (hrec.field 1 239 232 rfl rfl rfl hfits.subunit)
  case unitBits => exact (hpayload 231 208 (by norm_num)).trans (hrec.field 2 231 208 rfl rfl rfl hfits.unit)
  case countBits => exact (hpayload 207 176 (by norm_num)).trans (hrec.field 3 207 176 rfl rfl rfl hfits.count)
  case operationBits => exact (hpayload 175 144 (by norm_num)).trans (hrec.field 4 175 144 rfl rfl rfl hfits.operation)
  case timeBits => exact (hpayload 143 80 (by norm_num)).trans (hrec.field_mod 5 143 80 rfl rfl rfl)

/-- Room for one more entry and one more frame, at the highest coordinate, with the last sequence number. -/
def brimState : State :=
  setReg 0x102401 4095 { State.reset with
    trunk := { State.reset.trunk with nextSeq := 2 ^ 64 - 1, queue := List.replicate 255 (1, []) }
    evFrames := List.replicate 255 { number := 0, full := true, recs := [], sends := [1] } }

/-- The highest code, die and tile; SUBUNIT and OPERATION keep their low bits. -/
theorem eventRaised_brimState :
    ∃ (e : EventRec) (entry : List Byte), (raiseAt 0xFFFF 3 1023 300 (2 ^ 32 + 5) brimState).evBatch = [e] ∧
      (raiseAt 0xFFFF 3 1023 300 (2 ^ 32 + 5) brimState).trunk.queue = List.replicate 255 (1, []) ++ [(1, entry)] ∧
      e.code = 0xFFFF ∧ e.unit = 2 ^ 24 - 1 ∧ e.subunit = 44 ∧ e.operation = 5 ∧
      bitField (leNat entry) 511 448 = 2 ^ 64 - 1 ∧ bitField (leNat entry) 263 240 = 2 ^ 24 - 1 := by
  have hcoord : brimState.reg 0x102401 = 4095 := setReg_reg_self ..
  obtain ⟨e, entry, hraise, hcode, hunit, hsub, hop, -, -, -, hseq, -, -, -, -, -, -, -, hunitBits, -⟩ :=
    eventRaised 0xFFFF 3 1023 300 (2 ^ 32 + 5) brimState (by norm_num) (by norm_num) (by norm_num) rfl
      (List.length_replicate.trans_lt (by norm_num)) (List.length_replicate.trans_lt (by norm_num)) (show 2 ^ 64 - 1 < 2 ^ 64 by norm_num)
      (by rw [hcoord]; norm_num)
  rw [hcoord] at hunit
  exact ⟨e, entry, congrArg State.evBatch hraise, congrArg (fun t => t.trunk.queue) hraise, hcode, hunit, hsub, hop, hseq, hunitBits.trans hunit⟩

end Sys2Proof.Machine
end

section
/-!
A test of the Shooting Gallery that has ended (R438-R440, R445): repeats, judgements and the next test of the tile.
-/

namespace Sys2Proof.Machine
open Sys2Proof

/-! ### What the end of a test does -/

/-- The tile after a test: its result lines are undefined and no group is open (R445). -/
def testEnded (k : Nat) (p : GalleryTest) (s : State) : State :=
  let r := freeBytes (64 * p.lines) s
  modTile k (fun x => { x with groups := [] }) (putMem (tileBase k + galleryBase) r.1 r.2)

/-- A test that passed is counted. -/
def testPassed (k : Nat) (p : GalleryTest) (s : State) : State := bumpReg 0x701007 1 (testEnded k p s)

/-- A test that failed is counted, and 0x7007 raised. -/
def testFailed (k : Nat) (g : GalleryRun) (p : GalleryTest) (s : State) : State :=
  let t := raiseAt 0x7007 (keyDie k) (keyTile k) g.rep p.number (bumpReg 0x701008 1 (testEnded k p s))
  { t with gal := { t.gal with failed := true } }

section
variable {k : Nat} {g : GalleryRun} {p : GalleryTest} {s : State}

/-- R440: a test that passes at once or in its second repeat is done with; after the first repeat comes the second. -/
theorem opGalleryTest_passed (hrun : s.gal.runs.find? (fun x => x.key == k) = some g) (hpack : s.gal.pack[g.test]? = some p) :
    opGalleryTest k (some p.hash) s =
      let t := testPassed k p s
      if g.rep = 0 then galleryIdle (nextTest g t)
      else if g.rep = 1 then repeatTest g t
      else galleryIdle (nextTest g (judgePassed (tileEp s k) 0x7007 t)) := by
  unfold opGalleryTest
  rw [hrun]
  dsimp only
  rw [hpack]
  exact if_pos rfl

/-- R440: a test that fails is repeated; a repeat that fails is judged permanent. -/
theorem opGalleryTest_failed (hrun : s.gal.runs.find? (fun x => x.key == k) = some g) (hpack : s.gal.pack[g.test]? = some p)
    {hash : Option (BitVec 64)} (hhash : hash ≠ some p.hash) :
    opGalleryTest k hash s =
      let t := testFailed k g p s
      if g.rep = 0 then repeatTest g t
      else galleryIdle (nextTest { g with todo := [] } (judgePermanent (tileEp s k) 0x7007 t)) := by
  unfold opGalleryTest
  rw [hrun]
  dsimp only
  rw [hpack]
  exact if_neg hhash

end

theorem testPassed_reg (k : Nat) (p : GalleryTest) (s : State) (q : Nat) (hq : q ≠ 0x701007) : (testPassed k p s).reg q = s.reg q :=
  bumpReg_reg_ne _ _ _ _ hq.symm

/-- A pass leaves the history and its window as they are. -/
theorem testPassed_transientCount (k : Nat) (p : GalleryTest) (s : State) (unit : Nat) :
    transientCount (testPassed k p s) unit = transientCount s unit := by
  have hwindow := testPassed_reg k p s 0x701401 (by decide)
  unfold transientCount
  rw [hwindow]
  rfl

theorem testFailed_keeps (k : Nat) (g : GalleryRun) (p : GalleryTest) (s : State) :
    (testFailed k g p s).gal = { s.gal with failed := true } ∧ (testFailed k g p s).retireQ = s.retireQ ∧ raised 0x7007 (testFailed k g p s) := by
  have hkeeps := raiseAt_keepsGallery 0x7007 (keyDie k) (keyTile k) g.rep p.number (bumpReg 0x701008 1 (testEnded k p s))
  exact ⟨congrArg (fun x => { x with failed := true }) hkeeps.gal, hkeeps.retire, raised_raiseAt ..⟩

/-- After a test the tile goes on with what it has left; the tiles to retire and the events raised stay. -/
theorem galleryIdle_nextTest {k : Nat} {g : GalleryRun} (hkey : g.key = k) (s : State) :
    let t := galleryIdle (nextTest g s)
    t.gal.runs.find? (fun x => x.key == k) = testsLeft g ∧ t.retireQ = s.retireQ ∧ ∀ c, raised c s → raised c t := by
  obtain ⟨hfind, hretire, hbatch⟩ := nextTest_keeps g s
  obtain ⟨hruns, hretire', hraised⟩ := galleryIdle_keeps (nextTest g s)
  subst hkey
  exact ⟨by rw [hruns, hfind], hretire'.trans hretire, fun c hc => hraised c (raised_of_batch hc hbatch)⟩

/-- A repeat of the test under way counts it on, and nothing else of the gallery, its events or the tiles to retire changes. -/
theorem repeatTest_counts {k : Nat} {g : GalleryRun} {s : State} (hrun : s.gal.runs.find? (fun x => x.key == k) = some g) :
    let t := repeatTest g s
    t.gal.runs.find? (fun x => x.key == k) = some { g with rep := g.rep + 1 } ∧ t.retireQ = s.retireQ ∧ t.evBatch = s.evBatch ∧
      t.gal.failed = s.gal.failed := by
  obtain rfl : g.key = k := by simpa using List.find?_some hrun
  exact repeatTest_keeps g s (by rw [hrun]; rfl)

/-! ### The unit of a tile -/

theorem epTile_tileEp (s : State) (r : TileRef) : epTile (tileEp s (tileKey r)) = r.tile.val := by
  rw [tileEp, keyTile_tileKey, epTile_endpoint s (by omega)]

theorem unitKey_tileEp (s : State) (r : TileRef) : unitKey (tileEp s (tileKey r)) = tileKey r := by
  rw [unitKey, epTile_tileEp, tileEp, keyDie_tileKey, keyTile_tileKey, epDie_endpoint s r.die.isLt (by omega), tileKey]

/-! ### The obligation -/

/-- Settles O46: by whether the test passed, and by the repeat that has ended. -/
theorem galleryTests : Obligations.GalleryTests := by
  intro r hash g p s k hon hrun hpack now
  have hkey : g.key = k := by simpa using List.find?_some hrun
  have hexec : exec (.galleryTestComplete r hash) s = .next (opGalleryTest k hash s) := congrArg Host.Outcome.next (powered_on _ s hon)
  obtain ⟨hfailGal, hfailRetire, hfailRaised⟩ := testFailed_keeps k g p s
  have hfailRun : now (testFailed k g p s) = some g := by simp only [now, hfailGal, hrun]
  rw [hexec]
  refine ⟨fun hhash hrep => ?firstFails, fun hhash hrep => ?firstRepeatPasses, fun hhash hrep => ?repeatFails,
    fun hhash hrep hcount => ?lastRepeatPasses, fun hhash hrep => ?firstPasses⟩
  case firstFails =>
    obtain ⟨hfind, hretire, hbatch, hfailed⟩ := repeatTest_counts hfailRun
    rw [opGalleryTest_failed hrun hpack hhash]
    refine ⟨_, congrArg Host.Outcome.next (if_pos hrep), ?_, raised_of_batch hfailRaised hbatch, hretire.trans hfailRetire, ?_⟩
    · rw [hrep] at hfind; exact hfind
    · rw [hfailed, hfailGal]
  case firstRepeatPasses =>
    obtain ⟨hfind, hretire, hbatch, -⟩ := repeatTest_counts (s := testPassed k p s) hrun
    rw [hhash, opGalleryTest_passed hrun hpack]
    refine ⟨_, congrArg Host.Outcome.next ((if_neg (by omega)).trans (if_pos hrep)), ?_, hbatch, hretire⟩
    rw [hrep] at hfind; exact hfind
  case repeatFails =>
    obtain ⟨-, hpermanent, hkept, q, hq, hqkey⟩ := judgePermanent_tile (tileEp s k) 0x7007 (testFailed k g p s) (by decide)
      (by rw [epTile_tileEp]; exact r.tile.isLt)
    obtain ⟨hfind, hretire, hraised⟩ := galleryIdle_nextTest (g := { g with todo := [] }) hkey (judgePermanent (tileEp s k) 0x7007 (testFailed k g p s))
    rw [opGalleryTest_failed hrun hpack hhash]
    exact ⟨_, congrArg Host.Outcome.next (if_neg hrep), hfind, hraised _ (hkept _ hfailRaised), hraised _ hpermanent, q, hretire ▸ hq,
      hqkey.trans (unitKey_tileEp s r)⟩
  case lastRepeatPasses =>
    obtain ⟨hjudged, htransient⟩ := judgePassed_transient (tileEp s k) 0x7007 (testPassed k p s)
      (by rw [testPassed_transientCount, testPassed_reg k p s _ (by decide)]; exact hcount)
    obtain ⟨hfind, hretire, hraised⟩ := galleryIdle_nextTest hkey (judgePassed (tileEp s k) 0x7007 (testPassed k p s))
    rw [hhash, opGalleryTest_passed hrun hpack]
    exact ⟨_, congrArg Host.Outcome.next ((if_neg (by omega)).trans (if_neg (by omega))), hfind, hraised _ htransient, hretire.trans hjudged.retire⟩
  case firstPasses =>
    obtain ⟨hfind, hretire, -⟩ := galleryIdle_nextTest hkey (testPassed k p s)
    rw [hhash, opGalleryTest_passed hrun hpack]
    exact ⟨_, congrArg Host.Outcome.next (if_pos hrep), hfind, hretire⟩

/-! ### Tests that end -/

/-- A test whose result lines hash to 0. -/
def packTest (number : Nat) : GalleryTest := { number := number, beats := 8, words := [0], image := [], lines := 0, hash := 0, scale := [] }

/-- Tile 0 of D0 at the first test of the pack, or at the given repeat of it, with the second test to come. -/
def testRunAt (rep : Nat) : GalleryRun := { key := 0, test := 0, rep := rep, todo := [1] }

/-- A package in HELD with a pack of two tests; the first judgement of a unit as transient reaches no limit. -/
def testingAt (rep : Nat) : State :=
  setReg 0x701402 1 { State.reset with life := .held, gal := { pack := [packTest 1, packTest 2], runs := [testRunAt rep] } }

/-- A test that fails is repeated; that repeat may fail or pass. -/
theorem galleryTestComplete_repeated :
    (∃ t, exec (.galleryTestComplete ⟨0, 0⟩ none) (testingAt 0) = .next t ∧ raised 0x7007 t ∧ t.retireQ = []) ∧
    (∃ t, exec (.galleryTestComplete ⟨0, 0⟩ none) (testingAt 1) = .next t ∧ raised 0x7009 t ∧ ∃ q ∈ t.retireQ, q.1 = 0) ∧
    (∃ t, exec (.galleryTestComplete ⟨0, 0⟩ (some 0)) (testingAt 1) = .next t ∧ t.evBatch = [] ∧ t.retireQ = []) := by
  obtain ⟨hfirst, -⟩ := galleryTests ⟨0, 0⟩ none (testRunAt 0) (packTest 1) (testingAt 0) (by decide) rfl rfl
  obtain ⟨-, -, hfails, -⟩ := galleryTests ⟨0, 0⟩ none (testRunAt 1) (packTest 1) (testingAt 1) (by decide) rfl rfl
  obtain ⟨-, hpasses, -⟩ := galleryTests ⟨0, 0⟩ (some 0) (testRunAt 1) (packTest 1) (testingAt 1) (by decide) rfl rfl
  obtain ⟨t, hexec, -, hraised, hretire, -⟩ := hfirst nofun rfl
  obtain ⟨u, hexec₁, -, -, hraised₁, hretire₁⟩ := hfails nofun (by decide)
  obtain ⟨v, hexec₂, -, hbatch, hretire₂⟩ := hpasses rfl rfl
  exact ⟨⟨t, hexec, hraised, hretire⟩, ⟨u, hexec₁, hraised₁, hretire₁⟩, v, hexec₂, hbatch, hretire₂⟩

/-- A second repeat that passes is transient below a limit of one judgement; a test that passes at once raises nothing to retire. -/
theorem galleryTestComplete_passed :
    (∃ t, exec (.galleryTestComplete ⟨0, 0⟩ (some 0)) (testingAt 2) = .next t ∧ raised 0x7008 t ∧
      t.gal.runs.find? (fun x => x.key == 0) = some { key := 0, test := 1 }) ∧
    (∃ t, exec (.galleryTestComplete ⟨0, 0⟩ (some 0)) (testingAt 0) = .next t ∧ t.retireQ = [] ∧
      t.gal.runs.find? (fun x => x.key == 0) = some { key := 0, test := 1 }) := by
  obtain ⟨-, -, -, hlast, -⟩ := galleryTests ⟨0, 0⟩ (some 0) (testRunAt 2) (packTest 1) (testingAt 2) (by decide) rfl rfl
  obtain ⟨-, -, -, -, honce⟩ := galleryTests ⟨0, 0⟩ (some 0) (testRunAt 0) (packTest 1) (testingAt 0) (by decide) rfl rfl
  have hlimit : (testingAt 2).reg 0x701402 = 1 := setReg_reg_self ..
  obtain ⟨t, hexec, hnext, hraised, -⟩ := hlast rfl le_rfl (by rw [hlimit]; exact Nat.one_pos)
  obtain ⟨u, hexec', hnext', hretire⟩ := honce rfl rfl
  exact ⟨⟨t, hexec, hraised, hnext⟩, u, hexec', hretire, hnext'⟩

end Sys2Proof.Machine
end

section
/-!
The arithmetic of a reduction (R330, R331, R333): re-expressed values, sums of groups and their tallies.
-/

namespace Sys2Proof.Machine
open Sys2Proof

/-! ### Values re-expressed at the agreed code -/

/-- `q` is `g / P` rounded to nearest, ties to even. -/
structure NearestEven (g P q : Int) : Prop where
  near : 2 * |q * P - g| ≤ P
  tie : 2 * |q * P - g| = P → q % 2 = 0

/-- A magnitude with a value's sign lies as far from the value as the magnitudes do from each other. -/
theorem abs_signedMag_mul_sub (g : Int) (n P : Nat) : |signedMag (decide (g < 0)) n * P - g| = |(n * P : Int) - g.natAbs| := by
  unfold signedMag
  by_cases hneg : g < 0
  · have habs : (g.natAbs : Int) = -g := by omega
    rw [decide_eq_true hneg, if_pos rfl, habs, ← abs_neg]
    ring_nf
  · have habs : (g.natAbs : Int) = g := by omega
    rw [decide_eq_false hneg, if_neg Bool.false_ne_true, habs]

theorem signedMag_even (neg : Bool) (n : Nat) (h : n % 2 = 0) : signedMag neg n % 2 = 0 := by
  unfold signedMag
  split <;> omega

/-- The distance of two numbers, as the differences of which at most one is not cut off at zero. -/
theorem abs_natCast_sub (t m : Nat) : |(t : Int) - m| = ((t - m + (m - t) : Nat) : Int) := by
  rcases abs_cases ((t : Int) - m) with ⟨habs, hle⟩ | ⟨habs, hlt⟩ <;> omega

/-- R330: at a code at least its own, a value is divided by the power of two between the codes, to nearest even. -/
theorem reexpress_nearestEven (e a : Nat) (g : Int) (h : e ≤ a) (ha : a < 255) : NearestEven g (2 ^ (a - e)) (reexpress e a g) := by
  obtain ⟨n, hq, hn⟩ := reexpress_signed e a g h ha
  obtain ⟨hbelow, habove, htie⟩ := quantise_even (decide (g < 0)) g.natAbs (a - e)
  rw [← hn] at hbelow habove htie
  have hdist := abs_signedMag_mul_sub g n (2 ^ (a - e))
  rw [← hq, ← Nat.cast_mul, abs_natCast_sub, Nat.cast_pow, Nat.cast_ofNat] at hdist
  constructor
  · rw [hdist]
    norm_cast
    omega
  · rw [hdist]
    norm_cast
    intro heven
    rw [hq]
    exact signedMag_even _ n (htie (by omega))

namespace NearestEven
variable {g P q : Int}

/-- The quotient is at most half a unit larger than the value. -/
theorem two_mul_abs_le (h : NearestEven g P q) (hP : 0 < P) : 2 * (|q| * P) ≤ P + 2 * |g| := by
  have htri : |q * P| ≤ |q * P - g| + |g| := by simpa using abs_add_le (q * P - g) g
  rw [abs_mul, abs_of_pos hP] at htri
  linarith [h.near]

theorem eq_of_one (h : NearestEven g 1 q) : q = g := by
  have hnear := h.near
  rw [mul_one] at hnear
  have hzero : |q - g| = 0 := by have := abs_nonneg (q - g); omega
  exact sub_eq_zero.mp (abs_eq_zero.mp hzero)

theorem abs_lt (h : NearestEven g P q) (hP : 2 ≤ P) (hg : |g| ≤ 32768) : |q| < 32768 := by
  by_contra hbig
  have hbound := h.two_mul_abs_le (by omega)
  have hlarge : 32768 * P ≤ |q| * P := mul_le_mul_of_nonneg_right (not_lt.mp hbig) (by omega)
  omega

/-- A unit of 65,536 leaves a 16-bit value at half a unit at most, and a tie goes to zero. -/
theorem eq_zero (h : NearestEven g P q) (hP : 65536 ≤ P) (hg : |g| ≤ 32768) : q = 0 := by
  by_contra hne
  have hbound := h.two_mul_abs_le (by omega)
  have hpos : 1 ≤ |q| := Int.one_le_abs hne
  have hlarge : 1 * P ≤ |q| * P := mul_le_mul_of_nonneg_right hpos (by omega)
  obtain rfl : P = 65536 := by omega
  have hone : |q| = 1 := by omega
  have hfar := abs_sub_abs_le_abs_sub (q * 65536) g
  rw [abs_mul, hone, one_mul, abs_of_pos (by norm_num)] at hfar
  have heven : q % 2 = 0 := h.tie (by have := h.near; omega)
  rcases (abs_eq zero_le_one).mp hone with rfl | rfl <;> exact absurd heven (by decide)

end NearestEven

/-- R330: re-expressed 16-bit values stay 16-bit; -32,768 comes only of itself, and 16 codes above nothing is left. -/
theorem reexpress_range (e a : Nat) (g : Int) (h : e ≤ a) (ha : a < 255) (hg : |g| ≤ 32768) :
    |reexpress e a g| ≤ 32768 ∧ (reexpress e a g = -32768 → g = -32768 ∧ e = a) ∧ (e + 16 ≤ a → reexpress e a g = 0) := by
  have hq := reexpress_nearestEven e a g h ha
  obtain rfl | hlt := h.eq_or_lt
  · rw [Nat.sub_self, pow_zero] at hq
    rw [hq.eq_of_one]
    exact ⟨hg, fun heq => ⟨heq, rfl⟩, fun hfar => by omega⟩
  · have hunit : (2 : Int) ≤ 2 ^ (a - e) := le_self_pow₀ (by norm_num) (by omega)
    have hless := hq.abs_lt hunit hg
    refine ⟨hless.le, fun heq => ?_, fun hfar => hq.eq_zero ?_ hg⟩
    · rw [heq] at hless
      norm_num at hless
    · calc (65536 : Int) = 2 ^ 16 := by norm_num
        _ ≤ 2 ^ (a - e) := pow_le_pow_right₀ (by norm_num) (by omega)

theorem reexpress_ff (e : Nat) (g : Int) : reexpress e 0xFF g = 0 := if_pos rfl

/-! ### Sums and tallies -/

theorem tally_spec (xs : List Int) : tally xs < 255 ∧ (255 : Int) ∣ xs.sum - tally xs := by
  have htally := tally_eq xs
  exact ⟨by omega, by omega⟩

theorem addInts_eq_zipWith (xs ys : List Int) : addInts xs ys = List.zipWith (· + ·) xs ys := by
  rw [addInts, List.zip_eq_zipWith, List.map_zipWith]

theorem addInts_right_comm (zs xs ys : List Int) : addInts (addInts zs xs) ys = addInts (addInts zs ys) xs := by
  simp only [addInts_eq_zipWith]
  induction zs generalizing xs ys with
  | nil => rfl
  | cons z zs ih =>
    cases xs with
    | nil => cases ys <;> rfl
    | cons x xs =>
      cases ys with
      | nil => rfl
      | cons y ys => simp only [List.zipWith_cons_cons, ih, add_right_comm]

/-- R331: a sum does not depend on the order of its inputs. -/
theorem foldl_addInts_perm {xss yss : List (List Int)} (h : yss.Perm xss) (z : List Int) : yss.foldl addInts z = xss.foldl addInts z :=
  h.foldl_eq' (fun x _ y _ z => addInts_right_comm z x y) z

/-- R333: the tally of a sum is the sum of the tallies, modulo 255. -/
theorem tally_foldl_addInts (n : Nat) (xss : List (List Int)) (h : ∀ xs ∈ xss, xs.length = n) :
    tally (xss.foldl addInts (List.replicate n 0)) = (xss.map tally).sum % 255 := by
  have htotal : (tally (xss.foldl addInts (List.replicate n 0)) : Int) = ((xss.map tally).sum % 255 : Nat) := by
    rw [tally_eq, foldl_addInts_sum n xss _ List.length_replicate h, List.sum_replicate, smul_zero, zero_add, tally_sums]
  exact_mod_cast htotal

theorem abs_sum_le_length_mul (b : Int) (xs : List Int) (h : ∀ x ∈ xs, |x| ≤ b) : |xs.sum| ≤ xs.length * b := by
  induction xs with
  | nil => simp
  | cons x xs ih =>
    obtain ⟨hx, hxs⟩ := List.forall_mem_cons.mp h
    have htri := abs_add_le x xs.sum
    rw [List.sum_cons, List.length_cons]
    push_cast
    linarith [ih hxs]

theorem abs_getD_le {b : Int} (hb : 0 ≤ b) {xs : List Int} (h : ∀ x ∈ xs, |x| ≤ b) (i : Nat) : |xs.getD i 0| ≤ b := by
  rw [List.getD_eq_getElem?_getD]
  cases hx : xs[i]? with
  | none => simpa using hb
  | some x => exact h x (List.mem_of_getElem? hx)

/-- R331: every element of the sum is the sum of the inputs' elements there, so it is bounded by their number. -/
theorem abs_le_of_mem_foldl_addInts (n : Nat) {b : Int} (hb : 0 ≤ b) (xss : List (List Int)) (hlen : ∀ xs ∈ xss, xs.length = n)
    (h : ∀ xs ∈ xss, ∀ x ∈ xs, |x| ≤ b) : ∀ x ∈ xss.foldl addInts (List.replicate n 0), |x| ≤ xss.length * b := by
  obtain ⟨hlength, helem⟩ := foldl_addInts n xss _ List.length_replicate hlen
  intro x hx
  obtain ⟨i, hi, rfl⟩ := List.mem_iff_getElem.mp hx
  have hsum := helem i (hlength ▸ hi)
  rw [List.getD_replicate _ (hlength ▸ hi), zero_add, List.getD_eq_getElem _ _ hi] at hsum
  rw [hsum]
  have hcolumn := abs_sum_le_length_mul b (xss.map (fun xs => xs.getD i 0)) fun y hy => by
    obtain ⟨xs, hxs, rfl⟩ := List.mem_map.mp hy
    exact abs_getD_le hb (h xs hxs) i
  rwa [List.length_map] at hcolumn

/-! ### The obligation -/

/-- Settles O50: re-expression divides to nearest even; a sum is taken element by element, and adds up whole groups. -/
theorem reductionArithmetic : Obligations.ReductionArithmetic := by
  refine ⟨fun e a g h ha => ?reexpressed, reexpress_ff, tally_spec, fun xss hlen => ?sums⟩
  case reexpressed =>
    obtain ⟨hnear, htie⟩ := reexpress_nearestEven e a g h ha
    exact ⟨hnear, htie, reexpress_range e a g h ha⟩
  case sums =>
    refine ⟨fun yss hperm => foldl_addInts_perm hperm _, tally_foldl_addInts 64 xss hlen, fun hcount hvals x hx => ?_⟩
    have hbound := abs_le_of_mem_foldl_addInts 64 (by norm_num) xss hlen hvals x hx
    omega

/-! ### Values at the bounds -/

/-- A tie goes to the even neighbour from either side, and the largest values keep within 32,768. -/
theorem reexpress_ties : reexpress 0 1 3 = 2 ∧ reexpress 0 1 5 = 2 ∧ reexpress 0 1 (-3) = -2 ∧ reexpress 7 7 (-32768) = -32768 ∧
    reexpress 0 15 (-32768) = -1 ∧ reexpress 0 16 (-32768) = 0 := by decide

/-- Groups of 64 equal values at the two ends of 16 bits, taken in either order. -/
theorem reductionArithmetic_extremes :
    let xs := List.replicate 64 (-32768 : Int); let ys := List.replicate 64 (32767 : Int)
    let total := [xs, ys].foldl addInts (List.replicate 64 0)
    [ys, xs].foldl addInts (List.replicate 64 0) = total ∧ tally total = (tally xs + tally ys) % 255 ∧ ∀ x ∈ total, |x| ≤ 2147450880 := by
  obtain ⟨-, -, -, hsums⟩ := reductionArithmetic
  intro xs ys
  obtain ⟨hperm, htally, hbound⟩ := hsums [xs, ys] (by decide)
  exact ⟨hperm _ (List.Perm.swap xs ys []), htally, hbound (by decide) (by decide)⟩

end Sys2Proof.Machine
end
